-- ==== Sys2Proof/Word.lean ====
section
/-! DEFINITION. The word types of the Olidon 7128, bit fields of a register word (R4: bit 0 is the
least significant), and `Tbl`, the one sparse table in canonical form that every register file,
memory and array of block records of the model is kept in. -/

namespace Sys2Proof

/-- A 32-bit register, instruction word or bus word. -/
abbrev Word := BitVec 32
/-- A memory byte. -/
abbrev Byte := BitVec 8
/-- A 64-bit time stamp or accumulator. -/
abbrev DWord := BitVec 64

/-- A word from a natural number, modulo 2^32. -/
abbrev w32 (n : Nat) : Word := BitVec.ofNat 32 n
/-- A 64-bit value from a natural number, modulo 2^64. -/
abbrev w64 (n : Nat) : DWord := BitVec.ofNat 64 n
/-- Bit `i` of a word. -/
abbrev tb (w : Word) (i : Nat) : Bool := w.getLsbD i

/-- `REGISTER.FIELD[hi:lo]` as a number. -/
def fld (w : Word) (hi lo : Nat) : Nat := (w.toNat >>> lo) % 2 ^ (hi + 1 - lo)

/-- The word with field `[hi:lo]` replaced by `v` (modulo the field's width). -/
def setFld (w : Word) (hi lo v : Nat) : Word :=
  let m := (2 ^ (hi + 1 - lo) - 1) <<< lo
  w32 ((w.toNat &&& (0xFFFFFFFF ^^^ m)) ||| ((v % 2 ^ (hi + 1 - lo)) <<< lo))

/-- The word with bit `i` set to `b`. -/
def setBit (w : Word) (i : Nat) (b : Bool) : Word :=
  if b then w ||| w32 (1 <<< i) else w &&& ~~~ (w32 (1 <<< i))

/-- A one-bit number from a Boolean. -/
abbrev b2n (b : Bool) : Nat := if b then 1 else 0

/-- `sext(x, w)` of the manual: the two's complement value of the low `w` bits of `x`. -/
def sext (x w : Nat) : Int :=
  let y := x % 2 ^ w
  if y < 2 ^ (w - 1) then (y : Int) else (y : Int) - 2 ^ w

/-- The two's complement pattern of `x` in `w` bits, as a number. -/
def wrap (x : Int) (w : Nat) : Nat := (x % (2 ^ w : Int)).toNat

/-- A word from an integer, modulo 2^32. -/
def wInt (x : Int) : Word := BitVec.ofInt 32 x

/-- The number of set bits among bits `0 … n-1` of `x`. -/
def popc : Nat → Nat → Nat
  | 0, _ => 0
  | n + 1, x => popc n x + b2n (x.testBit n)

/-- The half-range rule (R111): with width `w`, elapsed count `e` has reached compare value `c`. -/
def reached (w e c : Nat) : Bool := (e + 2 ^ w - c % 2 ^ w) % 2 ^ w < 2 ^ (w - 1)

/-- `a` is newer than `b` under the `w`-bit half-range rule (strictly ahead of it). -/
def newer (w a b : Nat) : Bool := a % 2 ^ w ≠ b % 2 ^ w && reached w a b

/-- Clamp an integer between two bounds. -/
def clampI (x lo hi : Int) : Int := if x < lo then lo else if x > hi then hi else x

/-- The pieces of a number as little-endian bytes (R4). -/
def toBytes : Nat → Nat → List Byte
  | 0, _ => []
  | n + 1, x => BitVec.ofNat 8 x :: toBytes n (x / 256)

/-- The number that little-endian bytes spell (R4). -/
def ofBytes : List Byte → Nat
  | [] => 0
  | b :: t => b.toNat + 256 * ofBytes t

/-! ### Sparse tables in one canonical form -/

/-- A table of values by number: strictly rising keys, and no entry that equals what an unlisted key
reads as.  Equal tables are equal lists. -/
abbrev Tbl (α : Type) := List (Nat × α)

/-- What key `k` holds; `d` says what an unlisted key reads as. -/
def Tbl.get {α : Type} (d : Nat → α) : Tbl α → Nat → α
  | [], k => d k
  | (j, v) :: t, k => if j = k then v else Tbl.get d t k

/-- Removes key `k`. -/
def Tbl.del {α : Type} (k : Nat) : Tbl α → Tbl α
  | [] => []
  | (j, v) :: t => if j = k then Tbl.del k t else (j, v) :: Tbl.del k t

/-- Puts `v` at key `k`, keeping the keys rising. -/
def Tbl.ins {α : Type} (k : Nat) (v : α) : Tbl α → Tbl α
  | [] => [(k, v)]
  | (j, u) :: t =>
    if k < j then (k, v) :: (j, u) :: t
    else if j = k then (k, v) :: t
    else (j, u) :: Tbl.ins k v t

/-- Sets key `k` to `v`: writing what the unlisted key reads as removes the entry. -/
def Tbl.set {α : Type} [DecidableEq α] (d : Nat → α) (t : Tbl α) (k : Nat) (v : α) : Tbl α :=
  if v = d k then Tbl.del k t else Tbl.ins k v t

/-- Every key of the table is above `b` (`none`: no bound). -/
def Tbl.above {α : Type} : Option Nat → Tbl α → Bool
  | _, [] => true
  | none, (j, _) :: t => Tbl.above (some j) t
  | some b, (j, _) :: t => b < j && Tbl.above (some j) t

/-- The canonical form: keys strictly rising, no entry equal to the unlisted value. -/
def Tbl.wf {α : Type} [DecidableEq α] (d : Nat → α) (t : Tbl α) : Bool :=
  Tbl.above none t && t.all (fun e => e.2 ≠ d e.1)

/-- The keys a table lists. -/
def Tbl.keys {α : Type} (t : Tbl α) : List Nat := t.map Prod.fst

end Sys2Proof
end

