-- ==== Sys2Proof/Syntax.lean ====
section
/-! DEFINITION. The commands of the Olidon 7128, taken as a block: one constructor of `Instr` for each row of
the table of operations and events, with the operands that name where and on what it happens.  An
instruction names the element that executes it and its operand form; a register write names the
writing master and the value; an event names its instance and what the outside world shows the block
at that moment (a conversion code, a received frame, what the check bits of a memory word show). -/

namespace Sys2Proof

/-- A processing element: `REIN_g`, `AC_n` or `SV`. -/
inductive Elem where
  | rein (g : Fin 32)
  | ac (n : Fin 4)
  | sv
  deriving DecidableEq, Repr

/-- A Twill master as an access carries it: MID, engine sub-identity (R25) and world bit (R390). -/
structure Master where
  mid : Fin 32
  sub : Fin 4 := 0
  sec : Bool := false
  deriving DecidableEq, Repr

/-- The master identities that are never issued (R25). -/
def Master.reserved (m : Master) : Bool := (5 ≤ m.mid.val && m.mid.val ≤ 7) || m.mid = 23 || 27 ≤ m.mid.val

/-- The line `SL` of a serial encoder port over a frame (R212): its level before the first `MA` edge, and the coarse
ticks after that edge at which it changed, in rising order. -/
structure SlWave where
  high : Bool
  changes : List Nat
  deriving DecidableEq, Repr

/-- What the check bits of the memory word that an access reads show (R337). -/
inductive Ecc where
  | clean
  | corrected
  | double
  deriving DecidableEq, Repr

/-- What an access meets outside the program's control: the check bits of the word it reads (`wecc`: those of the
descriptor that its walk reads at a level), and, on an application core, the lines that speculative accesses
fill and replacement evicts, the instruction lines fetched, and the pages that speculative accesses walk,
just before it (R340, R349). -/
structure Obs where
  ecc : Ecc := .clean
  wecc : Option (Nat × Ecc) := none
  fills : List Nat := []
  evicts : List Nat := []
  ifills : List Nat := []
  walks : List Nat := []
  deriving DecidableEq, Repr

/-- Operands of a register ALU operation: F32-R, or F16-RR (R43, R50). -/
inductive AluForm where
  | r32 (rd ra rb : BitVec 5) (S : Bool)
  | rr (rd rs : BitVec 4)
  deriving DecidableEq, Repr

/-- Operands of `ADDI`: F32-I, or F16-I8. -/
inductive ImmForm where
  | i32 (rd ra : BitVec 5) (imm : BitVec 14)
  | i8 (rd : BitVec 4) (imm : BitVec 8)
  deriving DecidableEq, Repr

/-- Operands of a shift by immediate: F32-I, or F16-RU with its 5-bit amount. -/
inductive ShiftForm where
  | i32 (rd ra : BitVec 5) (n : BitVec 5)
  | i16 (rd : BitVec 4) (n : BitVec 5)
  deriving DecidableEq, Repr

/-- Operands of `CMPI`: F32-I, or F16-I8. -/
inductive CmpForm where
  | i32 (ra : BitVec 5) (imm : BitVec 14)
  | i8 (rd : BitVec 4) (imm : BitVec 8)
  deriving DecidableEq, Repr

/-- Operands of `LDW` and `STW`: F32-I, or the 16-bit register-indirect form. -/
inductive MemForm where
  | i32 (rd ra : BitVec 5) (imm : BitVec 14)
  | r16 (rd rs : BitVec 4)
  deriving DecidableEq, Repr

/-- Operands of `LDW.K` and `STW.K`: F32-I, or F16-K with a word index. -/
inductive BankForm where
  | i32 (rd ra : BitVec 5) (off : BitVec 12)
  | k16 (rd : BitVec 4) (off9 : BitVec 9)
  deriving DecidableEq, Repr

/-- Operands of `Bcc`: F16-B, or F32-B. -/
inductive BccForm where
  | b16 (cond : BitVec 4) (off : BitVec 8)
  | b32 (cond : BitVec 4) (off : BitVec 20)
  deriving DecidableEq, Repr

/-- What stops a `VMAC` part-way (R88): nothing, a preemption or debug halt after `k` terms, or an
uncorrectable memory error in the operands of term `k`. -/
inductive VmacStop where
  | none
  | stopped (k : Fin 33)
  | ecc (k : Fin 32)
  deriving DecidableEq, Repr

/-- The conversions of one calibration (R146): for each of the 17 levels the sum of the 64 raw codes and the
sum of their squares; none when a level gave 8 invalid conversions in a row. -/
abbrev CalRun := Option (List (Nat × Nat))

/-- The commands of the block: one constructor for each row of the table of operations and events. -/
inductive Instr where
  /-- `ADD`, 32-bit or 16-bit form (R47, R50). -/
  | add (e : Elem) (f : AluForm)
  /-- `ADC` (R47). -/
  | adc (e : Elem) (rd ra rb : BitVec 5) (S : Bool)
  /-- `SUB`, 32-bit or 16-bit form (R47, R50). -/
  | sub (e : Elem) (f : AluForm)
  /-- `SBC` (R47). -/
  | sbc (e : Elem) (rd ra rb : BitVec 5) (S : Bool)
  /-- `AND`, 32-bit or 16-bit form (R47, R50). -/
  | and_ (e : Elem) (f : AluForm)
  /-- `OR`, 32-bit or 16-bit form (R47, R50). -/
  | or_ (e : Elem) (f : AluForm)
  /-- `XOR`, 32-bit or 16-bit form (R47, R50). -/
  | xor_ (e : Elem) (f : AluForm)
  /-- `ANDN` (R47). -/
  | andn (e : Elem) (rd ra rb : BitVec 5) (S : Bool)
  /-- `LSL`, 32-bit or 16-bit form (R47, R50). -/
  | lsl (e : Elem) (f : AluForm)
  /-- `LSR`, 32-bit or 16-bit form (R47, R50). -/
  | lsr (e : Elem) (f : AluForm)
  /-- `ASR`, 32-bit or 16-bit form (R47, R50). -/
  | asr (e : Elem) (f : AluForm)
  /-- `ROR` (R47). -/
  | ror (e : Elem) (rd ra rb : BitVec 5) (S : Bool)
  /-- `MUL`, 32-bit or 16-bit form (R47, R50). -/
  | mul (e : Elem) (f : AluForm)
  /-- `MULHS` (R47). -/
  | mulhs (e : Elem) (rd ra rb : BitVec 5) (S : Bool)
  /-- `MULHU` (R47). -/
  | mulhu (e : Elem) (rd ra rb : BitVec 5) (S : Bool)
  /-- `MIN` (R47). -/
  | min (e : Elem) (rd ra rb : BitVec 5) (S : Bool)
  /-- `MAX` (R47). -/
  | max (e : Elem) (rd ra rb : BitVec 5) (S : Bool)
  /-- `MINU` (R47). -/
  | minu (e : Elem) (rd ra rb : BitVec 5) (S : Bool)
  /-- `MAXU` (R47). -/
  | maxu (e : Elem) (rd ra rb : BitVec 5) (S : Bool)
  /-- `CLZ`: leading zeros (R47). -/
  | clz (e : Elem) (rd ra : BitVec 5) (S : Bool)
  /-- `SLT` (R47). -/
  | slt (e : Elem) (rd ra rb : BitVec 5) (S : Bool)
  /-- `SLTU` (R47). -/
  | sltu (e : Elem) (rd ra rb : BitVec 5) (S : Bool)
  /-- `ADDSAT` (R47). -/
  | addsat (e : Elem) (rd ra rb : BitVec 5) (S : Bool)
  /-- `SUBSAT` (R47). -/
  | subsat (e : Elem) (rd ra rb : BitVec 5) (S : Bool)
  /-- `DIV` (R47, R49); `abandoned`: a preemption, interrupt or halt arrives before it completes (R89). -/
  | div (e : Elem) (rd ra rb : BitVec 5) (S : Bool) (abandoned : Bool)
  /-- `DIVU` (R47, R49); `abandoned`: a preemption, interrupt or halt arrives before it completes (R89). -/
  | divu (e : Elem) (rd ra rb : BitVec 5) (S : Bool) (abandoned : Bool)
  /-- `REM` (R47, R49); `abandoned`: a preemption, interrupt or halt arrives before it completes (R89). -/
  | rem (e : Elem) (rd ra rb : BitVec 5) (S : Bool) (abandoned : Bool)
  /-- `REMU` (R47, R49); `abandoned`: a preemption, interrupt or halt arrives before it completes (R89). -/
  | remu (e : Elem) (rd ra rb : BitVec 5) (S : Bool) (abandoned : Bool)
  /-- `ADDI`, F32-I or F16-I8 (R43, R50). -/
  | addi (e : Elem) (f : ImmForm)
  /-- `ANDI`, zero-extended (R43). -/
  | andi (e : Elem) (rd ra : BitVec 5) (imm : BitVec 14)
  /-- `ORI`, zero-extended (R43). -/
  | ori (e : Elem) (rd ra : BitVec 5) (imm : BitVec 14)
  /-- `XORI`, zero-extended (R43). -/
  | xori (e : Elem) (rd ra : BitVec 5) (imm : BitVec 14)
  /-- `LSLI`, 32-bit or 16-bit form (R44, R50). -/
  | lsli (e : Elem) (f : ShiftForm)
  /-- `LSRI`, 32-bit or 16-bit form (R44, R50). -/
  | lsri (e : Elem) (f : ShiftForm)
  /-- `ASRI`, 32-bit or 16-bit form (R44, R50). -/
  | asri (e : Elem) (f : ShiftForm)
  /-- `RORI` (R44). -/
  | rori (e : Elem) (rd ra : BitVec 5) (n : BitVec 5)
  /-- `CMPI`, F32-I or F16-I8 (R44, R50). -/
  | cmpi (e : Elem) (f : CmpForm)
  /-- `TSTI` (R44). -/
  | tsti (e : Elem) (ra : BitVec 5) (imm : BitVec 14)
  /-- `MOVH` (R44). -/
  | movh (e : Elem) (rd : BitVec 5) (k : BitVec 19)
  /-- `ADRH` (R44). -/
  | adrh (e : Elem) (rd : BitVec 5) (k : BitVec 19)
  /-- `MOV` (R50). -/
  | mov (e : Elem) (rd rs : BitVec 4)
  /-- `MOVI` (R50). -/
  | movi (e : Elem) (rd : BitVec 4) (u : BitVec 8)
  /-- `NOT` (R50). -/
  | not_ (e : Elem) (rd rs : BitVec 4)
  /-- `NEG` (R50). -/
  | neg (e : Elem) (rd rs : BitVec 4)
  /-- `CMP` (R50). -/
  | cmp (e : Elem) (rd rs : BitVec 4)
  /-- `TST` (R50). -/
  | tst (e : Elem) (rd rs : BitVec 4)
  /-- `SEXTB` (R50). -/
  | sextb (e : Elem) (rd rs : BitVec 4)
  /-- `SEXTH` (R50). -/
  | sexth (e : Elem) (rd rs : BitVec 4)
  /-- `ZEXTB` (R50). -/
  | zextb (e : Elem) (rd rs : BitVec 4)
  /-- `ZEXTH` (R50). -/
  | zexth (e : Elem) (rd rs : BitVec 4)
  /-- `NOP` (R50). -/
  | nop (e : Elem)
  /-- `LDB` (R52). -/
  | ldb (e : Elem) (rd ra : BitVec 5) (imm : BitVec 14) (o : Obs)
  /-- `LDBU` (R52). -/
  | ldbu (e : Elem) (rd ra : BitVec 5) (imm : BitVec 14) (o : Obs)
  /-- `LDH` (R52). -/
  | ldh (e : Elem) (rd ra : BitVec 5) (imm : BitVec 14) (o : Obs)
  /-- `LDHU` (R52). -/
  | ldhu (e : Elem) (rd ra : BitVec 5) (imm : BitVec 14) (o : Obs)
  /-- `LDW`, F32-I or the 16-bit register-indirect form (R52, R50). -/
  | ldw (e : Elem) (f : MemForm) (o : Obs)
  /-- `STB` (R52). -/
  | stb (e : Elem) (rd ra : BitVec 5) (imm : BitVec 14) (o : Obs)
  /-- `STH` (R52). -/
  | sth (e : Elem) (rd ra : BitVec 5) (imm : BitVec 14) (o : Obs)
  /-- `STW`, F32-I or the 16-bit register-indirect form (R52, R50). -/
  | stw (e : Elem) (f : MemForm) (o : Obs)
  /-- `LDB.P`, post-increment (R52). -/
  | ldbP (e : Elem) (rd ra : BitVec 5) (imm : BitVec 14) (o : Obs)
  /-- `LDBU.P`, post-increment (R52). -/
  | ldbuP (e : Elem) (rd ra : BitVec 5) (imm : BitVec 14) (o : Obs)
  /-- `LDH.P`, post-increment (R52). -/
  | ldhP (e : Elem) (rd ra : BitVec 5) (imm : BitVec 14) (o : Obs)
  /-- `LDHU.P`, post-increment (R52). -/
  | ldhuP (e : Elem) (rd ra : BitVec 5) (imm : BitVec 14) (o : Obs)
  /-- `LDW.P`, post-increment (R52). -/
  | ldwP (e : Elem) (rd ra : BitVec 5) (imm : BitVec 14) (o : Obs)
  /-- `STB.P`, post-increment (R52). -/
  | stbP (e : Elem) (rd ra : BitVec 5) (imm : BitVec 14) (o : Obs)
  /-- `STH.P`, post-increment (R52). -/
  | sthP (e : Elem) (rd ra : BitVec 5) (imm : BitVec 14) (o : Obs)
  /-- `STW.P`, post-increment (R52). -/
  | stwP (e : Elem) (rd ra : BitVec 5) (imm : BitVec 14) (o : Obs)
  /-- `LDB.K`, bank-relative (R54). -/
  | ldbK (e : Elem) (rd ra : BitVec 5) (off : BitVec 12) (o : Obs)
  /-- `LDBU.K`, bank-relative (R54). -/
  | ldbuK (e : Elem) (rd ra : BitVec 5) (off : BitVec 12) (o : Obs)
  /-- `LDH.K`, bank-relative (R54). -/
  | ldhK (e : Elem) (rd ra : BitVec 5) (off : BitVec 12) (o : Obs)
  /-- `LDHU.K`, bank-relative (R54). -/
  | ldhuK (e : Elem) (rd ra : BitVec 5) (off : BitVec 12) (o : Obs)
  /-- `LDW.K`, bank-relative, F32-I or F16-K (R54). -/
  | ldwK (e : Elem) (f : BankForm) (o : Obs)
  /-- `STB.K`, bank-relative (R54). -/
  | stbK (e : Elem) (rd ra : BitVec 5) (off : BitVec 12) (o : Obs)
  /-- `STH.K`, bank-relative (R54). -/
  | sthK (e : Elem) (rd ra : BitVec 5) (off : BitVec 12) (o : Obs)
  /-- `STW.K`, bank-relative, F32-I or F16-K (R54). -/
  | stwK (e : Elem) (f : BankForm) (o : Obs)
  /-- `LDW.SP` (R55). -/
  | ldwSp (e : Elem) (rd : BitVec 4) (off9 : BitVec 9) (o : Obs)
  /-- `STW.SP` (R55). -/
  | stwSp (e : Elem) (rd : BitVec 4) (off9 : BitVec 9) (o : Obs)
  /-- `LDX` (R57). -/
  | ldx (e : Elem) (rd ra : BitVec 5) (o : Obs)
  /-- `STX` (R57, R59). -/
  | stx (e : Elem) (rd ra rb : BitVec 5) (o : Obs)
  /-- `Bcc`, F16-B or F32-B (R46, R51). -/
  | bcc (e : Elem) (f : BccForm)
  /-- `B` (R51). -/
  | b (e : Elem) (off : BitVec 24)
  /-- `BL` (R51). -/
  | bl (e : Elem) (off : BitVec 24)
  /-- `JMPR` (R50, R51). -/
  | jmpr (e : Elem) (rs : BitVec 4)
  /-- `CALLR` (R50, R51). -/
  | callr (e : Elem) (rs : BitVec 4)
  /-- `CALLM` (R61); one observation for each frame word. -/
  | callm (e : Elem) (ra : BitVec 5) (H : Bool) (mask : BitVec 16) (os : List Obs)
  /-- `RETM` (R62); one observation for each frame word. -/
  | retm (e : Elem) (os : List Obs)
  /-- `MFS` (R34, R44). -/
  | mfs (e : Elem) (rd : BitVec 5) (sreg : BitVec 8)
  /-- `MTS` (R34, R44). -/
  | mts (e : Elem) (sreg : BitVec 8) (ra : BitVec 5)
  /-- `FENCE` (R53). -/
  | fence (e : Elem)
  /-- `REP.U`, operand n - 1 (R50, R64). -/
  | repU (e : Elem) (n : BitVec 6)
  /-- `REP.I #n`, operand n - 1 (R50, R64). -/
  | repIImm (e : Elem) (n : BitVec 8)
  /-- `REP.I rs` (R50, R64). -/
  | repIReg (e : Elem) (rs : BitVec 4)
  /-- `CLARKE` (R72). -/
  | clarke (e : Elem) (rd ra : BitVec 5)
  /-- `SINCOS` (R72). -/
  | sincos (e : Elem) (rd ra : BitVec 5)
  /-- `PARK` (R72). -/
  | park (e : Elem) (rd ra rb : BitVec 5)
  /-- `IPARK` (R72). -/
  | ipark (e : Elem) (rd ra rb : BitVec 5)
  /-- `SVM` (R72). -/
  | svm (e : Elem) (rd ra rb : BitVec 5)
  /-- `LIMV` (R72). -/
  | limv (e : Elem) (rd ra rb : BitVec 5)
  /-- `LIMV.D` (R72). -/
  | limvD (e : Elem) (rd ra rb : BitVec 5)
  /-- `PI.D` (R72). -/
  | piD (e : Elem) (rd ra rb : BitVec 5)
  /-- `PI.Q` (R72). -/
  | piQ (e : Elem) (rd ra rb : BitVec 5)
  /-- `VMAC`, operand n - 1; `stop`: what stops it part-way, if anything (R79, R88). -/
  | vmac (e : Elem) (n : BitVec 5) (ra rb : BitVec 5) (S : Bool) (stop : VmacStop)
  /-- `WAITS #mask` (R82). -/
  | waits (e : Elem) (mask : BitVec 8)
  /-- `DCOMMIT` (R84). -/
  | dcommit (e : Elem)
  /-- `SETPT` (R85). -/
  | setpt (e : Elem) (rd ra : BitVec 5)
  /-- `SYNC` (R96). -/
  | sync (e : Elem)
  /-- `RETH` (R96). -/
  | reth (e : Elem)
  /-- `WFI` (R96). -/
  | wfi (e : Elem)
  /-- `BRK` (R96). -/
  | brk (e : Elem)
  /-- `SYS #imm8` (R96). -/
  | sys (e : Elem) (imm : BitVec 8)
  /-- `DCCLEAN` (R343). -/
  | dcclean (e : Elem) (ra : BitVec 5) (o : Obs)
  /-- `DCINV` (R343). -/
  | dcinv (e : Elem) (ra : BitVec 5) (o : Obs)
  /-- `DCFLUSH` (R343). -/
  | dcflush (e : Elem) (ra : BitVec 5) (o : Obs)
  /-- `ICINV` (R343). -/
  | icinv (e : Elem) (ra : BitVec 5) (o : Obs)
  /-- `DCCLEAN.A` (R343). -/
  | dccleanA (e : Elem)
  /-- `DCFLUSH.A` (R343). -/
  | dcflushA (e : Elem)
  /-- `ICINV.A` (R343). -/
  | icinvA (e : Elem)
  /-- `TLBI` (R343). -/
  | tlbi (e : Elem) (ra rb : BitVec 5)
  /-- `TLBI.A` (R343). -/
  | tlbiA (e : Elem)
  /-- `WALKI` (R343). -/
  | walki (e : Elem)
  /-- `TLBI.B` (R343). -/
  | tlbiB (e : Elem) (ra rb : BitVec 5)
  /-- `TLBI.AB` (R343). -/
  | tlbiAb (e : Elem)
  /-- `WALKI.B` (R343). -/
  | walkiB (e : Elem)
  /-- A core takes a pending enabled interrupt (R95). -/
  | interruptEntry (e : Elem)
  /-- Posted store number `i` of the element's write queue reaches its target and is acknowledged (R53). -/
  | twillStoreAck (e : Elem) (i : Nat)
  /-- Posted store number `i` answers with an error response (`ecc`: an uncorrectable ECC error) (R94). -/
  | impreciseBusError (e : Elem) (i : Nat) (ecc : Bool)
  /-- The scheduler of `REIN_g` starts a run (R83, R237). -/
  | runStart (g : Fin 32)
  /-- The run of `REIN_g` that waits in `WAITS` ends (R82). -/
  | runEnd (g : Fin 32)
  /-- A ready bank of a higher class preempts the run of `REIN_g` (R87). -/
  | preempt (g : Fin 32)
  /-- The run of `REIN_g` exceeds its budget (R238). -/
  | budgetOverrun (g : Fin 32)
  /-- The run of `REIN_g` reaches eight times its budget (R238). -/
  | budgetKill (g : Fin 32)
  /-- A master reads the low word of a snapshot pair (R106). -/
  | snapshotLowRead (m : Master) (pa : Nat)
  /-- A run of 32,768 slow ticks ends (R110). -/
  | slowmeasUpdate
  /-- A write of `TB.SLOT_n_LO` (R113). -/
  | slotLoWrite (m : Master) (n : Fin 256) (v : Word)
  /-- A write of `TB.SLOT_n_HI` (R113). -/
  | slotHiWrite (m : Master) (n : Fin 256) (v : Word)
  /-- A write of `TB.SLOT_n_PER` (R114). -/
  | slotPerWrite (m : Master) (n : Fin 256) (v : Word)
  /-- A write of `TB.SLOT_n_CTRL` (R114). -/
  | slotCtrlWrite (m : Master) (n : Fin 256) (v : Word)
  /-- Compare slot n fires if it is due (R113). -/
  | slotFire (n : Fin 256)
  /-- A write of `TIM_n.CTRL` (R115). -/
  | timerEnable (m : Master) (n : Fin 64) (v : Word)
  /-- The zero tick of timer n (R116). -/
  | timerZero (n : Fin 64)
  /-- Channel k of timer n fires if it is due (R117). -/
  | timerChannelFire (n : Fin 64) (k : Fin 4)
  /-- A write of `TIM_n.CC_k` (R117). -/
  | timerCcWrite (m : Master) (n : Fin 64) (k : Fin 4) (v : Word)
  /-- The routed occurrences at these places of the router arrive together at their timer (R122, R124). -/
  | timerActionStart (is : List Nat)
  /-- The routed occurrences at these places of the router arrive together at their timer (R122, R124). -/
  | timerActionStop (is : List Nat)
  /-- The routed occurrences at these places of the router arrive together at their timer (R122, R124). -/
  | timerActionCapture (is : List Nat)
  /-- The routed occurrences at these places of the router arrive together at their timer (R122, R124). -/
  | timerActionCount (is : List Nat)
  /-- The routed occurrences at these places arrive together at their `TB.CAP_m` (R122, R124). -/
  | selvedgeCapture (is : List Nat)
  /-- A write of `EVR.SWTRIG` (R121). -/
  | swtrig (m : Master) (v : Word)
  /-- The routed occurrences at these places of the router arrive in one destination clock cycle (R122); `cycles`: the
  banks of a context (engine × 16 + bank) at which they arrive in more than one cycle, with their number. -/
  | eventDelivery (is : List Nat) (cycles : List (Nat × Nat) := [])
  /-- Controller t samples a source (R126, R127). -/
  | interruptSourceEdge (t : Fin 5) (src : Fin 512)
  /-- A write of `INTC_t.SET` (R126). -/
  | intcSet (m : Master) (t : Fin 5) (v : Word)
  /-- A write of `INTC_t.CLAIM` (R127). -/
  | claim (m : Master) (t : Fin 5) (v : Word)
  /-- A write of `INTC_t.COMPLETE` (R127). -/
  | complete (m : Master) (t : Fin 5) (v : Word)
  /-- A write of `MBX_n.MSG_k` (R129). -/
  | mbxMsgWrite (m : Master) (n : Fin 64) (k : Fin 8) (v : Word)
  /-- A write of `MBX_n.SEND` (R129). -/
  | send (m : Master) (n : Fin 64) (v : Word)
  /-- A write of `MBX_n.ACK` (R129). -/
  | ack (m : Master) (n : Fin 64) (v : Word)
  /-- A write of `MBX.LOCK` (R128). -/
  | mbxLock (m : Master) (v : Word)
  /-- The power domain of a master comes up (R131). -/
  | mbxDomainUp (mid : Fin 32)
  /-- All 28 converters are calibrated on entry to CONFIGURE (R144). -/
  | initialCalibration (rs : List CalRun)
  /-- A write of `CONV.SMP_b` (R137). -/
  | smpWrite (m : Master) (b : Fin 12) (v : Word)
  /-- Bridge b's carrier is at its sample instant (R135). -/
  | sampleInstant (b : Fin 12)
  /-- The results of bridge b's three channels are there, each with the second converter's (R138–R143). -/
  | conversionEnd (b : Fin 12) (rs : List (Option Nat × Option Nat))
  /-- A step time of the calibration rotation (R145). -/
  | rotationStep
  /-- The calibration of converter n ends (R146). -/
  | calibrationEnd (n : Fin 28) (r : CalRun)
  /-- The calibration ages are checked (R147). -/
  | calageCheck
  /-- The soft or hard window comparator of input i goes out: its input has stood at level v, in steps of
  1.8 V / 65,536, for its response time (R150, R152). -/
  | comparatorOut (i : Fin 24) (hard : Bool) (v : BitVec 16 := 0)
  /-- Trip input t has been sampled active at the last n coarse ticks (R152). -/
  | tripInputActive (t : Fin 4) (n : BitVec 16 := 0)
  /-- A threshold sweep of input i starts (R154). -/
  | comparatorSweep (i : Fin 24) (hard : Bool)
  /-- One step of the sweep (R154). -/
  | sweepStep (crossed : Bool)
  /-- Wake comparator w becomes active, or inactive again: its input has stood at level v, in steps of
  1.8 V / 65,536, for n slow ticks (R155). -/
  | wakeComparatorActive (w : Fin 4) (active : Bool) (v n : BitVec 16 := 0)
  /-- A write of `PWM_B_b.CFG` (R161, R164). -/
  | pwmEnable (m : Master) (b : Fin 12) (v : Word)
  /-- A write of `PWM_B_b.PHASE` (R164, R243). -/
  | pwmPhaseWrite (m : Master) (b : Fin 12) (v : Word)
  /-- A write of `PWM_B_b.PERIOD` (R172). -/
  | stagePeriodWrite (m : Master) (b : Fin 12) (v : Word)
  /-- A write of `PWM_B_b.EDGE_A`, `_B` or `_C` (R172). -/
  | stageEdgeWrite (m : Master) (b : Fin 12) (k : Fin 3) (v : Word)
  /-- A write of `CTRL.COMMIT` (R173). -/
  | pwmCommit (m : Master) (b : Fin 12)
  /-- A write of `CTRL.PERIOD_NOW` (R176). -/
  | periodNow (m : Master) (b : Fin 12)
  /-- The cut tick of bridge b (R176). -/
  | periodCutTick (b : Fin 12)
  /-- A write of `CTRL.FORCESAFE` (R185). -/
  | forcesafe (m : Master) (b : Fin 12)
  /-- A write of `CTRL.CLRSAFE` (R186). -/
  | clrsafe (m : Master) (b : Fin 12)
  /-- A write of `FORCE` (R183). -/
  | forceWrite (m : Master) (b : Fin 12) (v : Word)
  /-- The bundle at place i of those in flight reaches its bridge or the compare (R169, R250). -/
  | bundleArrival (i : Nat)
  /-- Bridge b's carrier reaches a boundary (R163). -/
  | periodBoundary (b : Fin 12)
  /-- The ON or OFF edge of leg k fires if it is due (R167). -/
  | edgeFire (b : Fin 12) (k : Fin 3) (off : Bool)
  /-- The dead time of output o has run out (R177). -/
  | deadtimeExpiry (b : Fin 12) (o : Fin 6)
  /-- N is measured for output o (R181). -/
  | delaylineMeasure (b : Fin 12) (o : Fin 6) (n : Fin 65)
  /-- 100 ms pass with no measurement window (R181). -/
  | dlstarveTimeout (b : Fin 12)
  /-- A write of `FB_f.CFG` (R194, R199). -/
  | fbEnable (m : Master) (f : Fin 12) (v : Word)
  /-- The synchronised levels of A and B have changed to these, and the changed ones have held them for n coarse-tick
  samples, this tick's included (R200, R201). -/
  | quadEdge (f : Fin 12) (a b : Bool) (n : BitVec 13 := 0)
  /-- The synchronised Hall state has changed to h and held it for n samples (R200, R202). -/
  | hallChange (f : Fin 12) (h : Fin 8) (n : BitVec 13 := 0)
  /-- Z has changed to level z and held it for n samples (R200, R205). -/
  | indexEdge (f : Fin 12) (z : Bool) (n : BitVec 13 := 0)
  /-- A write of `CTRL.LOAD` (R204). -/
  | fbLoad (m : Master) (f : Fin 12)
  /-- A write of `CTRL.CAPNOW` (R198). -/
  | capnow (m : Master) (f : Fin 12)
  /-- A write of `CTRL.IDXARM` (R207). -/
  | idxarm (m : Master) (f : Fin 12)
  /-- The capture tick of local unit f (R198). -/
  | fbCapture (f : Fin 12)
  /-- The block of a feedback source is written (R197): of local unit k below 12, else of port k − 12. -/
  | fbBlockWrite (k : Fin 20)
  /-- A write of `SENC_p.CFG` (R213). -/
  | sencEnable (m : Master) (p : Fin 8) (v : Word)
  /-- A capture of port p (R211). -/
  | sencFrameStart (p : Fin 8)
  /-- The frame of port p has ended; `high` and `changes` are what its line `SL` did from the frame's start to the end of
  the time within which it must return high (`SlWave`, R212–R216). -/
  | sencFrameEnd (p : Fin 8) (high : Bool) (changes : List Nat)
  /-- A write of `REGCMD` (R217). -/
  | sencRegGo (m : Master) (p : Fin 8) (v : Word)
  /-- The register access of port p ends, with `data` where the reply is sound (R217). -/
  | sencRegDone (p : Fin 8) (ok : Bool) (data : BitVec 8)
  /-- A write of `TRK_k.CFG` (R219). -/
  | trkEnable (m : Master) (k : Fin 8) (v : Word)
  /-- A write of `TRK_k.LIMIT` (R220). -/
  | trkLimitWrite (m : Master) (k : Fin 8) (v : Word)
  /-- Track k fires its armed entry if it holds (R221). -/
  | markFire (k : Fin 8)
  /-- The tick of a predicted crossing of track k (R222). -/
  | predictedFire (k : Fin 8)
  /-- The pulse of mark output m runs out (R223). -/
  | markPulseEnd (m : Fin 8)
  /-- A write of `SADL.CMD` with `OP` = `PLACE` (R240). -/
  | place (m : Master) (n : Fin 256)
  /-- A write of `SADL.CMD` with `OP` = `RELEASE` (R264). -/
  | release (m : Master) (n : Fin 256)
  /-- A write of `SADL.CMD` with `OP` = `CLRFAULT` (R238). -/
  | clrfault (m : Master) (n : Fin 256)
  /-- A write of `SADL.CMD` with `OP` = `INSTALL` (R233). -/
  | install (m : Master)
  /-- A write of `SADL.CMD` with `OP` = `UNINSTALL` (R233). -/
  | uninstall (m : Master) (n : Fin 256)
  /-- A write of `ISL_i.CLRFLT` (R265). -/
  | islClrflt (m : Master) (i : Fin 8) (v : Word)
  /-- A write of `SADL.CTX_n.REQ3` (R244). -/
  | req3Write (m : Master) (n : Fin 256) (v : Word)
  /-- A write of `SADL.AX_a.AXQ` (R245). -/
  | quietRequest (m : Master) (a : Fin 128) (v : Word)
  /-- The quiet window of an axis, or the gap after it, ends (R30). -/
  | quietEnd (a : Fin 128)
  /-- The Saddler compares the engine loads (R246). -/
  | balanceCheck
  /-- The copy step of an axis migration begins (R248). -/
  | migrationCopy (n : Fin 256)
  /-- Twill acknowledges the last write of the copy, or the copy fails (R16, R17). -/
  | copyAck (n : Fin 256) (ok : Bool)
  /-- The compare of a shadow period (R250). -/
  | shadowCompare (n : Fin 256)
  /-- The bank of a service context that is to move waits (R251). -/
  | serviceMigration (n : Fin 256) (written : Bool)
  /-- The compare of a paired axis (R252). -/
  | pairCompare (n : Fin 128)
  /-- The commit deadline of an axis passes (R257). -/
  | commitDeadline (n : Fin 128)
  /-- The queue manager writes a held setpoint block (R85). -/
  | setpointWrite (n : Fin 256)
  /-- The `SP_DUE` compare of a bank fires (R81). -/
  | spDueFire (key : Fin 512)
  /-- A write of `TETH_l.CFG` (R275). -/
  | tethEnable (m : Master) (l : Fin 16) (v : Word)
  /-- The receiver of link l declares lock (R274). -/
  | tethLock (l : Fin 16)
  /-- The receiver of link l loses lock (R289). -/
  | tethLockLoss (l : Fin 16)
  /-- Sixteen consecutive TSB have been received (R275). -/
  | tethTrainDone (l : Fin 16)
  /-- The link group goes on with bring-up (R276). -/
  | tethAlign (l : Fin 16)
  /-- 1 µs has passed since the last downstream cell started (R279). -/
  | tethTimeCell (l : Fin 16)
  /-- The echo interval has passed (R278). -/
  | tethEchoRequest (l : Fin 16)
  /-- An `ECHO` cell whose reference point passed `age` ticks ago (R278). -/
  | echoReceived (l : Fin 16) (t : BitVec 64) (ta : Word) (age : Nat)
  /-- A `SAMPLE` cell (R283). -/
  | sampleCellReceived (l : Fin 16) (a : Fin 8) (st : BitVec 8) (ia ib aux vbus : BitVec 16) (time : Word)
  /-- A `FEEDBACK` cell (R283). -/
  | feedbackCellReceived (l : Fin 16) (a : Fin 8) (st : BitVec 8) (pos turns time : Word)
  /-- A `STATUS` cell (R288). -/
  | statusCellReceived (l : Fin 16) (safe fault : BitVec 8) (code : BitVec 16)
  /-- A `REGACK` cell (R291). -/
  | regackReceived (l : Fin 16) (addr : BitVec 16) (data : Word) (tag result : BitVec 8)
  /-- A write of `TETH_l.REGCMD` (R293). -/
  | tethRegcmdGo (m : Master) (l : Fin 16) (v : Word)
  /-- A station register access has had no answer for 20 µs (R293). -/
  | tethRegTimeout (l : Fin 16)
  /-- No valid upstream cell for 4 µs (R289). -/
  | uplossTimeout (l : Fin 16)
  /-- The bundle at place i of those in flight reaches its link group (R284). -/
  | linkedBundle (i : Nat)
  /-- A loop period of linked axis a begins (R286). -/
  | linkLoopPeriod (l : Fin 16) (a : Fin 8)
  /-- A write of `AX_a.CTRL` with `CLRSAFE` (R290). -/
  | tethClrsafe (m : Master) (l : Fin 16) (a : Fin 8)
  /-- A write of `AX_a.CTRL` with `FORCESAFE` (R288). -/
  | tethForcesafe (m : Master) (l : Fin 16) (a : Fin 8)
  /-- A cycle of Girth port g starts (R310). -/
  | girthCycleStart (g : Fin 4)
  /-- The walk of port g takes its next entry (R311). -/
  | girthSlot (g : Fin 4)
  /-- A `REPLY` frame on port g, whose first start bit came `age` ticks ago: its `ADDR` byte, its `TYPE` and `SEQ` byte
  and the bytes after them (R307, R312). -/
  | girthReply (g : Fin 4) (addr ctl : BitVec 8) (rest : List (BitVec 8)) (age : Nat)
  /-- No reply start bit within `RTO` (R312). -/
  | girthReplyTimeout (g : Fin 4)
  /-- A byte heard differs from the byte sent (R312). -/
  | girthCollision (g : Fin 4)
  /-- A write of word 0 of the control block of queue q (R299). -/
  | queueEnable (m : Master) (q : Fin 8192) (v : Word)
  /-- The Saddler places queue q at a `BASE`, or finds no room (R299). -/
  | queueAutoPlaced (q : Fin 8192) (base : Option Word)
  /-- A write of `QM.PROD` (R300). -/
  | qmProd (m : Master) (v : Word)
  /-- A write of `QM.CONS` (R300). -/
  | qmCons (m : Master) (v : Word)
  /-- A read of `QM.NPOP_t` (R304). -/
  | npop (m : Master) (t : Fin 5)
  /-- Negotiation of port p ends, or its link is lost (R317). -/
  | ethLinkChange (p : Fin 2) (up full rfault : Bool)
  /-- A frame without its FCS, whether the FCS is good, and the age of its first bit in ticks (R322). -/
  | ethFrameReceived (p : Fin 2) (f : List (BitVec 8)) (fcs : Bool) (age : Nat)
  /-- The queue manager takes the next `SETPOINT` record (R326). -/
  | injectionRecord
  /-- Port p looks for an eligible head element (R329). -/
  | ethTransmit (p : Fin 2)
  /-- The last bit of the frame has left port p (R329). -/
  | ethTxDone (p : Fin 2)
  /-- A write of `ETH_p.GTCTL` (R320). -/
  | gtctlApply (m : Master) (p : Fin 2) (v : Word)
  /-- A write of `ETH_p.QBV_CTL` (R321). -/
  | qbvApply (m : Master) (p : Fin 2) (v : Word)
  /-- The switch time of the admin gate list (R321). -/
  | qbvSwitch (p : Fin 2)
  /-- A write of `ETH_0.MDIOCMD` (R334). -/
  | mdioGo (m : Master) (v : Word)
  /-- The management access completes (R334). -/
  | mdioDone (rdata : BitVec 16)
  /-- The scrubber of the LPDDR 4X (`ddr`) or of the on-chip memories reads its next word, whose check bits show `ecc` (R338). -/
  | scrubRead (ddr : Bool) (ecc : Ecc)
  /-- A write of `MEMC.CTRL` (R355). -/
  | memcInit (m : Master) (v : Word)
  /-- Training of the LPDDR 4X ends (R355). -/
  | memcTrained (ok : Bool)
  /-- A write of `DMA_c.CFG` (R362, R363). -/
  | dmaEnable (m : Master) (c : Fin 32) (v : Word)
  /-- The Saddler places the ring of channel c at a `RBASE`, or finds no room (R363). -/
  | dmaRingPlaced (c : Fin 32) (base : Option Word)
  /-- A write of `DMA_c.KICK` (R358). -/
  | kick (m : Master) (c : Fin 32) (v : Word)
  /-- The occurrences in flight at places `is` reach a DMA channel (R358). -/
  | dmaChannelRequest (is : List Nat)
  /-- Channel c fetches its head descriptor or moves its next burst; `werr`: the write's target answers with an error (R358); `wecc`: what the read inside a partial write finds (R337). -/
  | dmaDescriptor (c : Fin 32) (ecc : Ecc) (werr : Bool) (wecc : Ecc := .clean)
  /-- The descriptor of channel c is written back; `werr`: the write answers with an error (R358); `wecc`: what the read inside it finds where the memory's unit is wider (R337, R354). -/
  | dmaWriteback (c : Fin 32) (werr : Bool) (wecc : Ecc := .clean)
  /-- A read or fetch of 2^size bytes of the flash (R368–R373). -/
  | flashRead (m : Master) (off : BitVec 24) (size : Fin 3) (fetch : Bool) (ecc : Ecc)
  /-- A write of `FLC.CTRL` (R372). -/
  | flcInv (m : Master) (v : Word)
  /-- `SV` calls the routine with its arguments in `g1`–`g4`; `ecc`: what its read of the source shows (R377). -/
  | tvFlProgram (ecc : Ecc)
  /-- `SV` calls the routine with the sector in `g1` (R379). -/
  | tvFlErase
  /-- An erase pulse in bank k completes, and its verify passes or not (R379). -/
  | erasePulseEnd (k : Fin 2) (ok : Bool)
  /-- The erase in bank k has ended (R379). -/
  | eraseDone (k : Fin 2)
  /-- `SV` calls the routine with the bank in `g1` (R380). -/
  | tvFlSuspend
  /-- `SV` calls the routine with the bank in `g1` (R380). -/
  | tvFlResume
  /-- `SV` calls the routine with address and length in `g1`, `g2` (R376). -/
  | tvFlBlank
  /-- `SV` calls the routine with the sector in `g1` (R376). -/
  | tvFlInfo
  /-- `SV` calls the routine with the sector in `g1` (R376). -/
  | tvFlMarkbad
  /-- The monitor serves one message: of the channel in `SV`'s `g1`, or in SERVICE of channel 63 (R413, R414); `ecc`: what its memory reads show; `ok`: an OTP array takes the bits. -/
  | tvServe (ok : Bool) (ecc : Ecc)
  /-- `SV` calls the routine with address and `KIND` in `g1`–`g3` (R406). -/
  | tvImgVerify (ecc : Ecc)
  /-- `SV` calls the routine with word and bits in `g1`, `g2`; `ok`: the array takes them (R414). -/
  | tvOtpProgram (ok : Bool)
  /-- `SV` calls the routine with counter and value in `g1`, `g2`; `ok`: the array takes them (R408). -/
  | tvRollback (ok : Bool)
  /-- `SV` calls the routine with the target state in `g1`; `ok`: the array takes it (R403). -/
  | tvLifecycle (ok : Bool)
  /-- `SV` calls the routine with register and digest address in `g1`–`g3` (R415). -/
  | tvMeasExtend (ecc : Ecc)
  /-- `SV` calls the routine with nonce address, output address and space in `g1`–`g5` (R416). -/
  | tvAttest (ecc : Ecc)
  /-- The monitor's boot sequence after the release of reset; `jrnlErr`: neither copy of the erase journal is readable (R383, R410). -/
  | bootSequence (jrnlErr : Bool) (ecc : Ecc)
  /-- The monitor's next `BOOTREQ` of a network boot (R412). -/
  | bootReq
  /-- A `BOOTDATA` frame from a host (R412). -/
  | bootData (mac : BitVec 48) (off total : Word) (data : List (BitVec 8)) (ecc : Ecc)
  /-- Two seconds have passed without `BOOTDATA` (R412). -/
  | bootDataTimeout
  /-- A write of `BOOT.ACREL_n` (R418). -/
  | acrelGo (m : Master) (n : Fin 4) (v : Word)
  /-- A write of `SEC.DBGCTL` (R417). -/
  | dbgSubmit (m : Master) (v : Word)
  /-- A write of `PMU.CTRL` with `REQ` = RUN (R419, R426, R427). -/
  | reqRun (m : Master)
  /-- A write of `PMU.CTRL` with `REQ` = STANDBY (R421). -/
  | reqStandby (m : Master)
  /-- A write of `PMU.CTRL` with `REQ` = HIBERNATE (R421). -/
  | reqHibernate (m : Master)
  /-- A write of `PMU.CTRL` with `REQ` = SAFE_HOLD (R426). -/
  | reqSafeHold (m : Master)
  /-- The conditions of a requested entry are looked at (R421). -/
  | standbyEntry
  /-- The 10 ms of a requested entry have passed (R421). -/
  | entryTimeout
  /-- A debounced falling edge of `nWAKE` (R422). -/
  | nwake (n : BitVec 16 := 0)
  /-- The slow alarm is compared with `TB.SLOW` (R422). -/
  | slowAlarm
  /-- A write of `PMU.ALARM_HI` (R422). -/
  | alarmHiWrite (m : Master) (v : Word)
  /-- The always-on sensor reaches 135 °C in STANDBY or HIBERNATE; the slow edge that ends the sleep comes n slow ticks on (R422). -/
  | aonTempWake (n : Nat) (t : BitVec 16 := 0)
  /-- The device wakes from STANDBY at a slow edge n slow ticks on (R423). -/
  | standbyWake (n : Nat)
  /-- The device wakes from HIBERNATE at a slow edge n slow ticks on (R424). -/
  | hibernateWake (n : Nat)
  /-- A write of `PMU.BOOST` (R436). -/
  | boostReq (m : Master) (v : Word)
  /-- The conditions of BOOST are looked at (R437). -/
  | boostEntry
  /-- A millisecond of the thermal estimator (R435). -/
  | budgetUpdate
  /-- The core-rail current of the last 100 µs, in 10 mA (R438). -/
  | railAverage (ma : BitVec 16)
  /-- The twelve sensors read, in 1/16 °C (R439–R441). -/
  | tempMeasure (ts : Vector (BitVec 16) 12)
  /-- The 25 MHz reference stops or drifts (R431). -/
  | xtalFail (stop ppm : Nat := 0)
  /-- The reference is back and `PLL_T` locked to it (R431). -/
  | xtalReturn
  /-- The slow clock has not toggled for 100 µs (R431). -/
  | slowClockFail (stop : Nat := 0)
  /-- A 5 µs step of an island's clock (R432). -/
  | islClockStep (i : Fin 8)
  /-- A 10 µs step of an island's trim (R433). -/
  | islTrimStep (i : Fin 8)
  /-- `VDD_AON` rises; the straps at the release of `nRESET` (R428). -/
  | powerOnReset (straps : BitVec 2) (supplies : Bool := true)
  /-- A supply other than `VDD_AON` falls below its threshold (R429). -/
  | brownoutReset (n : Nat := 0) (back : Bool := true)
  /-- `nRESET` has been low for 1 µs; the straps at its release (R429). -/
  | pinReset (straps : BitVec 2) (n : Nat := 0)
  /-- A write of `PMU.CTRL` with `SWRST` = 1 (R429). -/
  | swrst (m : Master)
  /-- A write of `WDG_n.CFG` (R442). -/
  | wdgEnable (m : Master) (n : Fin 6) (v : Word)
  /-- A write of `WDG_n.SVC` (R442). -/
  | wdgService (m : Master) (n : Fin 6) (v : Word)
  /-- Watchdog n reaches its warning point (R442). -/
  | wdgWarning (n : Fin 6)
  /-- Watchdog n expires (R442). -/
  | wdgExpiry (n : Fin 6)
  /-- The margins of the eleven ledger units in the last 100 ms, in ps (R448, R451). -/
  | marginMeasure (ms : Vector (BitVec 16) 11)
  /-- The minute's projection of the ledger (R450). -/
  | projectionUpdate
  /-- A second of the ledger (R449). -/
  | stressAccumulate
  /-- The test steward's choice of an island (R458). -/
  | islandTestSelect
  /-- The island steward looks whether the island is empty (R459). -/
  | islandEmpty
  /-- Logic BIST ends: passed, or failed at an engine if it can tell which (R459, R461). -/
  | logicBistEnd (fail : Option (Option (Fin 4)))
  /-- The March test ends (R459, R461). -/
  | marchEnd (ok : Bool)
  /-- The restore ends and the island is released (R459). -/
  | islandRelease
  /-- The evacuation's limit is looked at (R460). -/
  | evacuationTimeout
  /-- Idle is predicted on `AC_n` (R462). -/
  | coreBistStart (n : Fin 4)
  /-- A source is pending during the BIST of `AC_n` (R463). -/
  | coreBistAbort (n : Fin 4)
  /-- The BIST of `AC_n` ends (R463). -/
  | coreBistEnd (n : Fin 4) (ok : Bool)
  /-- A write of `STC.FCLR` (R467). -/
  | fclr (m : Master) (v : Word)
  /-- The TAP is reset (R471). -/
  | tapReset
  /-- The TAP loads `EXTEST` (R472). -/
  | extest (scan : Option (BitVec 489) := none)
  /-- The TAP loads `SAMPLE/PRELOAD` and shifts the boundary register (R473). -/
  | samplePreload (v : BitVec 489)
  /-- The TAP loads `IDCODE` (R472). -/
  | idcode
  /-- The TAP loads `CLAMP` (R472). -/
  | clamp (bits : List Bool := [])
  /-- The TAP loads `HIGHZ` (R472). -/
  | highz (bits : List Bool := [])
  /-- The TAP loads `BYPASS` (R472). -/
  | bypass (code : BitVec 5 := 0x1F) (bits : List Bool := [])
  /-- A read scan of `ACC` for a debug register word (R474). -/
  | accRead (w : BitVec 14) (go : Bool := true)
  /-- A write scan of `ACC` for a debug register word (R474). -/
  | accWrite (w : BitVec 14) (v : Word)
  /-- An `ACC` write of `BDATA` issues a bus access (R475). -/
  | bdataWrite (v : Word) (ecc : Ecc)
  /-- An `ACC` read of `BDATA` issues a bus access (R475). -/
  | bdataRead (ecc : Ecc)
  /-- `DBG.EL_n.CTRL.HALT` (R476, R477). -/
  | halt (m : Master) (e : Elem)
  /-- `DBG.EL_n.CTRL.RESUME` (R479). -/
  | resume (m : Master) (e : Elem)
  /-- `DBG.EL_n.CTRL.STEP` (R479). -/
  | step (m : Master) (e : Elem)
  /-- `DBG.EL_n.CTRL.ICINVA` (R484). -/
  | icinva (m : Master) (e : Elem)
  /-- A read, or a write of `v`, of `DBG.EL_n.REGDATA` (R482). -/
  | regdataAccess (m : Master) (e : Elem) (v : Option Word)
  /-- A write of `DBG.RST` (R482). -/
  | dbgRst (m : Master) (v : Word)
  /-- A fetch of the element meets the break units (R483). -/
  | patchBreak (e : Elem)
  /-- An access of the element meets the watch units (R483). -/
  | patchWatch (e : Elem) (pa : BitVec 40) (store : Bool)
  /-- A write of a word of `PATCH_k` (R484, R489). -/
  | patchWrite (m : Master) (k : Fin 64) (w : Fin 4) (v : Word)
  /-- A write of `DBG.STIM_k` (R485). -/
  | stimWrite (m : Master) (k : Fin 32) (v : Word)
  /-- A byte is written to `VT_n.OUT` (R487). -/
  | vtOutWrite (m : Master) (n : Fin 5) (b : BitVec 8)
  /-- A byte is written to `VT_n.IN` (R487). -/
  | vtInWrite (m : Master) (n : Fin 5) (b : BitVec 8)
  /-- `FULL` of `VT_n.OUT` or `VT_n.IN` is cleared (R487). -/
  | vtFullClear (m : Master) (n : Fin 5) (out : Bool)
  /-- A word write of any register by an outside master (R5–R8). -/
  | registerWrite (m : Master) (pa : Nat) (v : Word)
  /-- The element executes an undefined encoding of 16 or (`long`) 32 bits (R42). -/
  | illegalInstruction (e : Elem) (long : Bool)
  /-- The fetch of the next instruction, or of its second halfword, faults (R41, R93). -/
  | instructionFetchFault (e : Elem) (second : Bool) (o : Obs)
  /-- The whole system is powered down (R419). -/
  | powerDown
  /-- A comparator's input is back inside its threshold: it has stood at level v for its response time (R150, R154). -/
  | comparatorIn (i : Fin 24) (hard : Bool) (v : BitVec 16 := 0)
  /-- A trip input has been sampled inactive at the last n coarse ticks (R152). -/
  | tripInputInactive (t : Fin 4) (n : BitVec 16 := 0)
  /-- A code group arrives on a link that is a symbol error at the running disparity before it (R268). -/
  | tethSymbolError (l : Fin 16) (rd : Bool := false) (code : BitVec 10 := 0)
  /-- An upstream cell that is not valid arrives on a link (R271): cut short by a K symbol or a symbol error, or with 16 bytes
  of content. -/
  | tethInvalidCell (l : Fin 16) (cut : Bool := false) (bs : List (BitVec 8) := [])
  /-- An invalid frame arrives on a Girth port. -/
  | girthInvalidFrame (g : Fin 4) (cut : Bool := false) (bytes : List (BitVec 8) := [])
  /-- A flash bank's program operation ends (R375). -/
  | flashProgramDone (k : Fin 2) (fail : Option (Fin 128)) (pulses : Fin 33)
  deriving DecidableEq, Repr

end Sys2Proof
end

