-- ==== Sys2Proof/Decode.lean ====
section
/-! DEFINITION. The command that a word spells.  The block takes commands, not words: no row of the opcode table
gives bits, so no word spells one. -/

namespace Sys2Proof

/-- The command spelled by the low `nbits` bits of `w`: none, since no row of the opcode table gives bits. -/
def decodeTableWord (_nbits _w : Nat) : Option Instr := none

end Sys2Proof
end

