-- ==== Sys2Proof/Config.lean ====
section
/-! DEFINITION. What the manual leaves open or leaves to an outside standard, as constants without a body:
no proof can see a value of them. -/

namespace Sys2Proof.Config

/-- A stream of free values: the model reads value number `n` for each point the manual leaves open and
the machine goes on (log entries 1 and 2). -/
opaque freeNat (n : Nat) : Nat

/-- Whether a step up of `REFTRIM` raises a converter's `GAIN` (R457, log entry 2). -/
opaque refTrimUp : Bool

/-- The bytes of the boot ROM, by address (log entry 9): the manual gives no image. -/
opaque bootRom (a : Nat) : Byte

/-- The part's unique identifier, word `k` of 4 (R401, log entry 9). -/
opaque uid (k : Nat) : Word

/-- What a copy of the erase journal with these records (start or end, and sector) reads as at a byte offset (R383, R384, log
entry 20). -/
opaque journalByte (records : List (Bool × Nat)) (o : Nat) : Byte
/-- The factory record of the flash information area that R404 places there, by byte offset (log entry 9). -/
opaque factory (o : Nat) : Byte

/-- The encryption of one 16-byte unit by AES-256-XTS (IEEE 1619) under boot key number `key` and tweak
`tweak`: a permutation of the 128-bit blocks (R400, log entry 10). -/
opaque xts (key tweak : Nat) : Equiv.Perm (BitVec 128)

/-- SHA-256 of a byte string, as 32 bytes' number (log entry 10). -/
opaque sha256 (bs : List Byte) : Nat
/-- SHA-384 of a byte string (log entry 10). -/
opaque sha384 (bs : List Byte) : Nat
/-- Ed25519 verification: key, message, signature (log entry 10). -/
opaque ed25519 (key msg sig : List Byte) : Bool
/-- ML-DSA-65 verification: key, message, signature (log entry 10). -/
opaque mldsa65 (key msg sig : List Byte) : Bool
/-- The signature byte string that the attestation keys give over a message; `decom` selects the label
of a decommissioned part (R403, R416, log entry 10). -/
opaque attestSign (decom : Bool) (msg : List Byte) : List Byte

/-- The CDM bits of a BiSS-C control frame, one a cycle, for a write or a read of a slave's register (R217: "as the
standard lays down"; log entry 68). -/
opaque bissControl (write : Bool) (addr wdata : Nat) : List Bool
/-- What the CDS bits that a control frame has brought hold: the data byte, none for a CRC failure or a missing reply
(R217, log entry 68). -/
opaque bissReply (cds : List Bool) : Option (BitVec 8)

/-- The level that a management access drives onto `ETH_MDC` at a Selvedge tick (R317: Clause 22 at 2.5 MHz; log entry 73). -/
opaque mdcLevel (access : Word) (tick : Nat) : Bool
/-- The level that a management access drives onto `ETH_MDIO` at a Selvedge tick, none while the other side drives (R317, log
entry 73). -/
opaque mdioLevel (access : Word) (tick : Nat) : Option Bool

end Sys2Proof.Config
end

