-- ==== Sys2Proof/Machine/RegMap.lean ====
section
/-! DEFINITION. The register map: the blocks of R336 with their bases, and every register that the
chapters' header lines and summary tables give, with its offset, its reset value, the bits of each type
code of R5 and its world (R6).  Offsets are named `<Block>.<REGISTER>`; an array's offset takes the
indices that the register's name carries. -/

namespace Sys2Proof.Machine

/-- The block kinds of the peripheral, Bridle and always-on windows (R336). -/
inductive Blk where
  | tb
  | tim
  | evr
  | intc
  | mbx
  | dma
  | qm
  | ptab
  | conv
  | cmp
  | awl
  | flc
  | pwm
  | fb
  | senc
  | teth
  | girth
  | eth
  | wmap
  | rgn
  | sec
  | otp
  | boot
  | dbg
  | patch
  | rein
  | memc
  | sadl
  | isl
  | stc
  | age
  | thm
  | pmu
  deriving DecidableEq, Repr

/-- Base address of a block kind's first instance (R336). -/
def Blk.base : Blk → Nat
  | .tb => 0x40000000
  | .tim => 0x40010000
  | .evr => 0x40020000
  | .intc => 0x40030000
  | .mbx => 0x40080000
  | .dma => 0x40090000
  | .qm => 0x400A0000
  | .ptab => 0x400B0000
  | .conv => 0x400C0000
  | .cmp => 0x400D0000
  | .awl => 0x400E0000
  | .flc => 0x400F0000
  | .pwm => 0x40100000
  | .fb => 0x40200000
  | .senc => 0x40300000
  | .teth => 0x40400000
  | .girth => 0x40500000
  | .eth => 0x40580000
  | .wmap => 0x40600000
  | .rgn => 0x40610000
  | .sec => 0x40620000
  | .otp => 0x40630000
  | .boot => 0x40640000
  | .dbg => 0x40680000
  | .patch => 0x40690000
  | .rein => 0x406A0000
  | .memc => 0x40700000
  | .sadl => 0x50000000
  | .isl => 0x50010000
  | .stc => 0x50100000
  | .age => 0x50110000
  | .thm => 0x50120000
  | .pmu => 0x60010000

/-- Number of instances, at stride 0x1_0000 (R336). -/
def Blk.count : Blk → Nat
  | .tb => 1
  | .tim => 1
  | .evr => 1
  | .intc => 5
  | .mbx => 1
  | .dma => 1
  | .qm => 1
  | .ptab => 1
  | .conv => 1
  | .cmp => 1
  | .awl => 1
  | .flc => 1
  | .pwm => 12
  | .fb => 12
  | .senc => 8
  | .teth => 16
  | .girth => 4
  | .eth => 2
  | .wmap => 1
  | .rgn => 1
  | .sec => 1
  | .otp => 1
  | .boot => 1
  | .dbg => 1
  | .patch => 1
  | .rein => 1
  | .memc => 1
  | .sadl => 1
  | .isl => 8
  | .stc => 1
  | .age => 1
  | .thm => 1
  | .pmu => 1

/-- Every block kind. -/
def Blk.all : List Blk :=
  [.tb, .tim, .evr, .intc, .mbx, .dma, .qm, .ptab, .conv, .cmp, .awl, .flc, .pwm, .fb, .senc, .teth, .girth, .eth, .wmap, .rgn, .sec, .otp, .boot, .dbg, .patch, .rein, .memc, .sadl, .isl, .stc, .age, .thm, .pmu]

/-- One register, or array of registers, of a block: `dims` are the strides and counts of its indices,
outermost first; the masks are the bits of each type code of R5. -/
structure RegRow where
  off : Nat
  dims : List (Nat × Nat)
  reset : Nat
  rw : Nat := 0
  ro : Nat := 0
  w1c : Nat := 0
  w1s : Nat := 0
  wo : Nat := 0
  rws : Nat := 0
  rwl : Nat := 0
  secure : Bool := false
  deriving DecidableEq, Repr

/-! ### Offsets -/
abbrev Tb.NOW_LO : Nat := 0x0
abbrev Tb.NOW_HI : Nat := 0x4
abbrev Tb.NOW_HIL : Nat := 0x8
abbrev Tb.SLOW_LO : Nat := 0x10
abbrev Tb.SLOW_HI : Nat := 0x14
abbrev Tb.FRAC : Nat := 0x18
abbrev Tb.SLOWCAL : Nat := 0x1C
abbrev Tb.SLOWMEAS : Nat := 0x20
abbrev Tb.CAP_LO (m : Nat) : Nat := 0x100 + 0x8 * m
abbrev Tb.CAP_HI (m : Nat) : Nat := 0x104 + 0x8 * m
abbrev Tb.SLOT_CTRL (n : Nat) : Nat := 0x100C + 0x10 * n
abbrev Tb.SLOT_LO (n : Nat) : Nat := 0x1000 + 0x10 * n
abbrev Tb.SLOT_HI (n : Nat) : Nat := 0x1004 + 0x10 * n
abbrev Tb.SLOT_PER (n : Nat) : Nat := 0x1008 + 0x10 * n
abbrev Tim.CTRL (n : Nat) : Nat := 0x0 + 0x100 * n
abbrev Tim.STAT (n : Nat) : Nat := 0x20 + 0x100 * n
abbrev Tim.LOAD (n : Nat) : Nat := 0x4 + 0x100 * n
abbrev Tim.COUNT (n : Nat) : Nat := 0x8 + 0x100 * n
abbrev Tim.ELAPSED (n : Nat) : Nat := 0xC + 0x100 * n
abbrev Tim.CC (n k : Nat) : Nat := 0x10 + 0x100 * n + 0x4 * k
abbrev Tim.CAP (n : Nat) : Nat := 0x24 + 0x100 * n
abbrev Evr.ROUTE (n : Nat) : Nat := 0x0 + 0x4 * n
abbrev Evr.SWTRIG : Nat := 0x800
abbrev Evr.DROPS : Nat := 0x804
abbrev Evr.DROPSTAT : Nat := 0x808
abbrev Intc.PEND (k : Nat) : Nat := 0x0 + 0x4 * k
abbrev Intc.EN (k : Nat) : Nat := 0x40 + 0x4 * k
abbrev Intc.SEC (k : Nat) : Nat := 0x80 + 0x4 * k
abbrev Intc.TYPE (k : Nat) : Nat := 0xC0 + 0x4 * k
abbrev Intc.SUMMARY : Nat := 0x100
abbrev Intc.CLAIM : Nat := 0x104
abbrev Intc.COMPLETE : Nat := 0x108
abbrev Intc.SET : Nat := 0x10C
abbrev Mbx.BIND (n : Nat) : Nat := 0x0 + 0x4 * n
abbrev Mbx.LOCK : Nat := 0x100
abbrev Mbx.ERR : Nat := 0x104
abbrev Mbx.STATE (n : Nat) : Nat := 0x1024 + 0x40 * n
abbrev Mbx.MSG (n k : Nat) : Nat := 0x1000 + 0x40 * n + 0x4 * k
abbrev Mbx.SEND (n : Nat) : Nat := 0x1020 + 0x40 * n
abbrev Mbx.ACK (n : Nat) : Nat := 0x1028 + 0x40 * n
abbrev Dma.CH_CFG (c : Nat) : Nat := 0x1000 + 0x40 * c
abbrev Dma.CH_STAT (c : Nat) : Nat := 0x1010 + 0x40 * c
abbrev Dma.GSTAT : Nat := 0x0
abbrev Dma.CH_RBASE (c : Nat) : Nat := 0x1004 + 0x40 * c
abbrev Dma.CH_HEAD (c : Nat) : Nat := 0x1008 + 0x40 * c
abbrev Dma.CH_KICK (c : Nat) : Nat := 0x100C + 0x40 * c
abbrev Dma.CH_IEN (c : Nat) : Nat := 0x1014 + 0x40 * c
abbrev Dma.CH_BAD_CNT (c : Nat) : Nat := 0x1018 + 0x40 * c
abbrev Dma.CH_DONE_CNT (c : Nat) : Nat := 0x101C + 0x40 * c
abbrev Dma.CH_CNTSTAT (c : Nat) : Nat := 0x1020 + 0x40 * c
abbrev Dma.CH_CUR (c : Nat) : Nat := 0x1024 + 0x40 * c
abbrev Qm.PROD : Nat := 0x0
abbrev Qm.ERR : Nat := 0x8
abbrev Qm.STAT : Nat := 0xC
abbrev Qm.NPOP (t : Nat) : Nat := 0x20 + 0x4 * t
abbrev Qm.IEN : Nat := 0x10
abbrev Qm.INJ_CNT : Nat := 0x40
abbrev Qm.INJREF_CNT : Nat := 0x44
abbrev Qm.INJLAST : Nat := 0x48
abbrev Qm.CNTSTAT : Nat := 0x4C
abbrev Qm.CONS : Nat := 0x4
abbrev Ptab.MISS_CNT : Nat := 0x0
abbrev Ptab.LASTMISS : Nat := 0x4
abbrev Ptab.CNTSTAT : Nat := 0x8
abbrev Conv.ROT : Nat := 0x0
abbrev Conv.HOCFG : Nat := 0x4
abbrev Conv.CALCFG : Nat := 0x8
abbrev Conv.POOL : Nat := 0xC
abbrev Conv.NOTICE : Nat := 0x10
abbrev Conv.CHCFG (c : Nat) : Nat := 0x100 + 0x4 * c
abbrev Conv.CHMAP (c : Nat) : Nat := 0x200 + 0x4 * c
abbrev Conv.SMP (b : Nat) : Nat := 0x300 + 0x10 * b
abbrev Conv.SMPSTAT (b : Nat) : Nat := 0x304 + 0x10 * b
abbrev Conv.CV_STATE (n : Nat) : Nat := 0x1000 + 0x80 * n
abbrev Conv.HOREJ_CNT : Nat := 0x14
abbrev Conv.SKIP_CNT : Nat := 0x18
abbrev Conv.CNTSTAT : Nat := 0x1C
abbrev Conv.DROPS (b : Nat) : Nat := 0x308 + 0x10 * b
abbrev Conv.LAST (b : Nat) : Nat := 0x30C + 0x10 * b
abbrev Conv.CV_CALTIME (n : Nat) : Nat := 0x1004 + 0x80 * n
abbrev Conv.CV_OFFS (n : Nat) : Nat := 0x1008 + 0x80 * n
abbrev Conv.CV_GAIN (n : Nat) : Nat := 0x100C + 0x80 * n
abbrev Conv.CV_LIN (n k : Nat) : Nat := 0x1010 + 0x80 * n + 0x4 * k
abbrev Conv.CV_REFTRIM (n : Nat) : Nat := 0x1054 + 0x80 * n
abbrev Cmp.SOFT (i : Nat) : Nat := 0x0 + 0x10 * i
abbrev Cmp.CFG (i : Nat) : Nat := 0x8 + 0x10 * i
abbrev Cmp.STAT (i : Nat) : Nat := 0xC + 0x10 * i
abbrev Cmp.TRIPMAP (b : Nat) : Nat := 0x240 + 0x4 * b
abbrev Cmp.TRIPIN (t : Nat) : Nat := 0x280 + 0x4 * t
abbrev Cmp.WAKE (w : Nat) : Nat := 0x300 + 0x4 * w
abbrev Cmp.BLANK (b : Nat) : Nat := 0x200 + 0x4 * b
abbrev Cmp.TRIPSTAT : Nat := 0x290
abbrev Cmp.WAKESTAT : Nat := 0x310
abbrev Cmp.SWEEPTOL : Nat := 0x320
abbrev Cmp.HARD (i : Nat) : Nat := 0x4 + 0x10 * i
abbrev Awl.OUTCFG : Nat := 0x0
abbrev Awl.LOGCFG : Nat := 0x8
abbrev Awl.STAT : Nat := 0x18
abbrev Awl.TRK_CFG (k : Nat) : Nat := 0x100 + 0x20 * k
abbrev Awl.TRK_STAT (k : Nat) : Nat := 0x110 + 0x20 * k
abbrev Awl.LOGBASE : Nat := 0x4
abbrev Awl.LOGW : Nat := 0xC
abbrev Awl.LOGR : Nat := 0x10
abbrev Awl.LOGOVF_CNT : Nat := 0x14
abbrev Awl.CNTSTAT : Nat := 0x1C
abbrev Awl.IEN : Nat := 0x20
abbrev Awl.TRK_BASE (k : Nat) : Nat := 0x104 + 0x20 * k
abbrev Awl.TRK_LIMIT (k : Nat) : Nat := 0x108 + 0x20 * k
abbrev Awl.TRK_PTR (k : Nat) : Nat := 0x10C + 0x20 * k
abbrev Awl.TRK_HORIZON (k : Nat) : Nat := 0x114 + 0x20 * k
abbrev Awl.TRK_FIRED (k : Nat) : Nat := 0x118 + 0x20 * k
abbrev Flc.RDCFG : Nat := 0x0
abbrev Flc.STAT : Nat := 0x8
abbrev Flc.FLASH_STATUS : Nat := 0x10
abbrev Flc.BBTSTAT : Nat := 0x14
abbrev Flc.OP (k : Nat) : Nat := 0x18 + 0x4 * k
abbrev Flc.CTRL : Nat := 0x4
abbrev Flc.IEN : Nat := 0xC
abbrev Flc.CE_CNT : Nat := 0x20
abbrev Flc.UE_CNT : Nat := 0x24
abbrev Flc.CNTSTAT : Nat := 0x28
abbrev Flc.UEADDR : Nat := 0x2C
abbrev Pwm.CFG : Nat := 0x0
abbrev Pwm.CTRL : Nat := 0x24
abbrev Pwm.SHORTPOL : Nat := 0x30
abbrev Pwm.SAFECFG : Nat := 0x38
abbrev Pwm.FORCE : Nat := 0x3C
abbrev Pwm.STAT : Nat := 0x40
abbrev Pwm.DLCAL (o : Nat) : Nat := 0x80 + 0x4 * o
abbrev Pwm.AXIS : Nat := 0x4
abbrev Pwm.PERIOD : Nat := 0x8
abbrev Pwm.PHASE : Nat := 0xC
abbrev Pwm.TGT : Nat := 0x10
abbrev Pwm.GEN : Nat := 0x14
abbrev Pwm.EDGE_A : Nat := 0x18
abbrev Pwm.EDGE_B : Nat := 0x1C
abbrev Pwm.EDGE_C : Nat := 0x20
abbrev Pwm.DEADTIME : Nat := 0x28
abbrev Pwm.MINPULSE : Nat := 0x2C
abbrev Pwm.OUTCFG : Nat := 0x34
abbrev Pwm.IEN : Nat := 0x44
abbrev Pwm.ACTGEN : Nat := 0x48
abbrev Pwm.ACTPER : Nat := 0x4C
abbrev Pwm.COUNT : Nat := 0x50
abbrev Pwm.PHASE_EFF : Nat := 0x54
abbrev Pwm.ACT_A : Nat := 0x58
abbrev Pwm.ACT_B : Nat := 0x5C
abbrev Pwm.ACT_C : Nat := 0x60
abbrev Pwm.LATE_CNT : Nat := 0x68
abbrev Pwm.SHORT_CNT : Nat := 0x6C
abbrev Pwm.REPEAT_CNT : Nat := 0x70
abbrev Pwm.RB_CNT : Nat := 0x74
abbrev Pwm.CNTSTAT : Nat := 0x78
abbrev Pwm.RBSTAT : Nat := 0x7C
abbrev Pwm.CARRY (k : Nat) : Nat := 0xA0 + 0x4 * k
abbrev Pwm.DLCFG : Nat := 0xB0
abbrev Fb.CFG : Nat := 0x0
abbrev Fb.TRIG : Nat := 0x4
abbrev Fb.AXIS : Nat := 0x8
abbrev Fb.CTRL : Nat := 0x20
abbrev Fb.STAT : Nat := 0x3C
abbrev Fb.GPIO : Nat := 0x50
abbrev Fb.REV_COUNT : Nat := 0xC
abbrev Fb.POS : Nat := 0x10
abbrev Fb.TURNS : Nat := 0x14
abbrev Fb.SETPOS : Nat := 0x18
abbrev Fb.SETTURN : Nat := 0x1C
abbrev Fb.IDXPOS : Nat := 0x24
abbrev Fb.IDXTURN : Nat := 0x28
abbrev Fb.IDXDIFF : Nat := 0x2C
abbrev Fb.SPEED : Nat := 0x30
abbrev Fb.STOPTIME : Nat := 0x34
abbrev Fb.HALLMAP : Nat := 0x38
abbrev Fb.QERR_CNT : Nat := 0x40
abbrev Fb.DROPS : Nat := 0x44
abbrev Fb.CNTSTAT : Nat := 0x48
abbrev Fb.IEN : Nat := 0x4C
abbrev Senc.CFG : Nat := 0x0
abbrev Senc.FRAME : Nat := 0xC
abbrev Senc.CRC : Nat := 0x10
abbrev Senc.REGCMD : Nat := 0x34
abbrev Senc.REGSTAT : Nat := 0x38
abbrev Senc.STAT : Nat := 0x3C
abbrev Senc.CRCINIT : Nat := 0x14
abbrev Senc.TIMING : Nat := 0x18
abbrev Senc.LATADJ : Nat := 0x1C
abbrev Senc.RAW_LO : Nat := 0x20
abbrev Senc.RAW_HI : Nat := 0x24
abbrev Senc.POS : Nat := 0x28
abbrev Senc.TURNS : Nat := 0x2C
abbrev Senc.LDLY : Nat := 0x30
abbrev Senc.ERR_CNT : Nat := 0x40
abbrev Senc.SKIP_CNT : Nat := 0x44
abbrev Senc.DROPS : Nat := 0x50
abbrev Senc.CNTSTAT : Nat := 0x48
abbrev Senc.IEN : Nat := 0x4C
abbrev Teth.CFG : Nat := 0x0
abbrev Teth.STAT : Nat := 0x4
abbrev Teth.REGCMD : Nat := 0x40
abbrev Teth.REGSTAT : Nat := 0x48
abbrev Teth.AX_AX (a : Nat) : Nat := 0x100 + 0x20 * a
abbrev Teth.AX_SAFECFG (a : Nat) : Nat := 0x104 + 0x20 * a
abbrev Teth.AX_AXSTAT (a : Nat) : Nat := 0x108 + 0x20 * a
abbrev Teth.AX_CTRL (a : Nat) : Nat := 0x10C + 0x20 * a
abbrev Teth.LP : Nat := 0x8
abbrev Teth.PHASE : Nat := 0xC
abbrev Teth.DLY : Nat := 0x10
abbrev Teth.RTT : Nat := 0x14
abbrev Teth.IEN : Nat := 0x18
abbrev Teth.STSTAT : Nat := 0x1C
abbrev Teth.BADCELL_CNT : Nat := 0x20
abbrev Teth.CODEERR_CNT : Nat := 0x24
abbrev Teth.LOCKLOSS_CNT : Nat := 0x28
abbrev Teth.CNTSTAT : Nat := 0x2C
abbrev Teth.CAPS : Nat := 0x30
abbrev Teth.REGDATA : Nat := 0x44
abbrev Teth.AX_SOFF (a : Nat) : Nat := 0x110 + 0x20 * a
abbrev Teth.AX_FBREV (a : Nat) : Nat := 0x114 + 0x20 * a
abbrev Teth.AX_LATE_CNT (a : Nat) : Nat := 0x118 + 0x20 * a
abbrev Teth.AX_REPEAT_CNT (a : Nat) : Nat := 0x11C + 0x20 * a
abbrev Girth.CFG : Nat := 0x0
abbrev Girth.TIMING : Nat := 0x4
abbrev Girth.STAT : Nat := 0x8
abbrev Girth.IEN : Nat := 0xC
abbrev Girth.CYCNT : Nat := 0x10
abbrev Girth.SCHEDLEN : Nat := 0x14
abbrev Girth.TIMEOUT_CNT : Nat := 0x20
abbrev Girth.CRCERR_CNT : Nat := 0x24
abbrev Girth.OVR_CNT : Nat := 0x28
abbrev Girth.CNTSTAT : Nat := 0x2C
abbrev Girth.NODESTAT (k : Nat) : Nat := 0x40 + 0x4 * k
abbrev Girth.NODEMAP (n : Nat) : Nat := 0x400 + 0x4 * n
abbrev Girth.SCHED_0 (k : Nat) : Nat := 0x1000 + 0x4 * k
abbrev Girth.SCHED_1 (k : Nat) : Nat := 0x1800 + 0x4 * k
abbrev Eth.CFG : Nat := 0x0
abbrev Eth.STAT : Nat := 0x4
abbrev Eth.QBV_CTL : Nat := 0x60
abbrev Eth.MDIOCMD : Nat := 0xA0
abbrev Eth.MDIOSTAT : Nat := 0xA4
abbrev Eth.IEN : Nat := 0x8
abbrev Eth.MAC_LO : Nat := 0x10
abbrev Eth.MAC_HI : Nat := 0x14
abbrev Eth.IPADDR : Nat := 0x18
abbrev Eth.CABTYPE : Nat := 0x1C
abbrev Eth.CABPORT : Nat := 0x20
abbrev Eth.DEFQ : Nat := 0x24
abbrev Eth.PTPQ : Nat := 0x28
abbrev Eth.PTPTXQ : Nat := 0x2C
abbrev Eth.SWTXQ : Nat := 0x30
abbrev Eth.TSADJ : Nat := 0x34
abbrev Eth.GT_BASE_LO : Nat := 0x40
abbrev Eth.GT_BASE_HI : Nat := 0x44
abbrev Eth.GS_BASE_LO : Nat := 0x48
abbrev Eth.GS_BASE_HI : Nat := 0x4C
abbrev Eth.GSPN : Nat := 0x50
abbrev Eth.GTCTL : Nat := 0x54
abbrev Eth.QBV_LEN : Nat := 0x64
abbrev Eth.QBV_BASE_LO : Nat := 0x68
abbrev Eth.QBV_BASE_HI : Nat := 0x6C
abbrev Eth.QBV_CYCLE : Nat := 0x70
abbrev Eth.QBV_OLEN : Nat := 0x74
abbrev Eth.QBV_OCYCLE : Nat := 0x78
abbrev Eth.RXFRM : Nat := 0x80
abbrev Eth.RXDROP_CNT : Nat := 0x84
abbrev Eth.TXFRM : Nat := 0x88
abbrev Eth.TXDROP : Nat := 0x8C
abbrev Eth.FCSERR_CNT : Nat := 0x90
abbrev Eth.CNTSTAT : Nat := 0x94
abbrev Eth.QBV_ADMIN (k : Nat) : Nat := 0x1000 + 0x4 * k
abbrev Eth.QBV_OPER (k : Nat) : Nat := 0x2000 + 0x4 * k
abbrev Wmap.BLK (n : Nat) : Nat := 0x0 + 0x4 * n
abbrev Wmap.LOCK : Nat := 0x1000
abbrev Rgn.R_ATTR (r : Nat) : Nat := 0x8 + 0x10 * r
abbrev Rgn.R_BASE (r : Nat) : Nat := 0x0 + 0x10 * r
abbrev Rgn.R_LIMIT (r : Nat) : Nat := 0x4 + 0x10 * r
abbrev Rgn.LOCK : Nat := 0x100
abbrev Rgn.ERR : Nat := 0x104
abbrev Rgn.ERRADDR_LO : Nat := 0x108
abbrev Rgn.ERRADDR_HI : Nat := 0x10C
abbrev Sec.DEVID : Nat := 0x0
abbrev Sec.UID (k : Nat) : Nat := 0x10 + 0x4 * k
abbrev Sec.LC : Nat := 0x20
abbrev Sec.CNT (k : Nat) : Nat := 0x30 + 0x4 * k
abbrev Sec.VERHI (k : Nat) : Nat := 0x40 + 0x4 * k
abbrev Sec.MR (m w : Nat) : Nat := 0x100 + 0x40 * m + 0x4 * w
abbrev Sec.DBGNONCE (k : Nat) : Nat := 0x400 + 0x4 * k
abbrev Sec.DBGCTL : Nat := 0x420
abbrev Sec.DBGSTAT : Nat := 0x424
abbrev Sec.RNG : Nat := 0x500
abbrev Sec.DBGBUF (k : Nat) : Nat := 0x2000 + 0x4 * k
abbrev Boot.STAT : Nat := 0x4
abbrev Boot.ACREL (n : Nat) : Nat := 0x10 + 0x8 * n
abbrev Boot.STRAP : Nat := 0x0
abbrev Boot.DETAIL : Nat := 0x8
abbrev Boot.ACENTRY (n : Nat) : Nat := 0x14 + 0x8 * n
abbrev Dbg.EL_CTRL (n : Nat) : Nat := 0x1000 + 0x20 * n
abbrev Dbg.EL_STAT (n : Nat) : Nat := 0x1004 + 0x20 * n
abbrev Dbg.EL_REGSEL (n : Nat) : Nat := 0x1008 + 0x20 * n
abbrev Dbg.BCTL : Nat := 0x18
abbrev Dbg.TRCFG : Nat := 0x100
abbrev Dbg.AUTH : Nat := 0x0
abbrev Dbg.BADDR_LO : Nat := 0x10
abbrev Dbg.BADDR_HI : Nat := 0x14
abbrev Dbg.BDATA : Nat := 0x1C
abbrev Dbg.BSTAT : Nat := 0x20
abbrev Dbg.RST : Nat := 0x24
abbrev Dbg.EL_REGNUM (n : Nat) : Nat := 0x100C + 0x20 * n
abbrev Dbg.EL_REGDATA (n : Nat) : Nat := 0x1010 + 0x20 * n
abbrev Dbg.STIMEN : Nat := 0x104
abbrev Dbg.TRWR : Nat := 0x108
abbrev Dbg.TRRD : Nat := 0x10C
abbrev Dbg.TRDROP : Nat := 0x110
abbrev Dbg.CNTSTAT : Nat := 0x114
abbrev Dbg.TRPKT (w : Nat) : Nat := 0x120 + 0x4 * w
abbrev Dbg.STIM (k : Nat) : Nat := 0x200 + 0x4 * k
abbrev Dbg.VT_OUT (n : Nat) : Nat := 0x300 + 0x8 * n
abbrev Dbg.VT_IN (n : Nat) : Nat := 0x304 + 0x8 * n
abbrev Dbg.VTIEN : Nat := 0x340
abbrev Patch.K_CTRL (k : Nat) : Nat := 0x0 + 0x10 * k
abbrev Patch.K_ADDR_LO (k : Nat) : Nat := 0x4 + 0x10 * k
abbrev Patch.K_ADDR_HI (k : Nat) : Nat := 0x8 + 0x10 * k
abbrev Patch.K_DATA (k : Nat) : Nat := 0xC + 0x10 * k
abbrev Patch.HIT : Nat := 0x1000
abbrev Rein.BANK (e k : Nat) : Nat := 0x0 + 0x40 * e + 0x4 * k
abbrev Rein.RUNS (e : Nat) : Nat := 0x1000 + 0x8 * e
abbrev Rein.BUSY (e : Nat) : Nat := 0x1004 + 0x8 * e
abbrev Rein.CNTSTAT_0 : Nat := 0x1100
abbrev Rein.CNTSTAT_1 : Nat := 0x1104
abbrev Memc.CFG : Nat := 0x0
abbrev Memc.STAT : Nat := 0x8
abbrev Memc.CTRL : Nat := 0x4
abbrev Memc.IEN : Nat := 0xC
abbrev Memc.SCRUB : Nat := 0x10
abbrev Memc.DDR_CE_CNT : Nat := 0x20
abbrev Memc.DDR_UE_CNT : Nat := 0x24
abbrev Memc.SRAM_CE_CNT : Nat := 0x28
abbrev Memc.SRAM_UE_CNT : Nat := 0x2C
abbrev Memc.CNTSTAT : Nat := 0x30
abbrev Memc.UEADDR_LO : Nat := 0x40
abbrev Memc.UEADDR_HI : Nat := 0x44
abbrev Sadl.POLICY : Nat := 0x0
abbrev Sadl.STAT : Nat := 0x4
abbrev Sadl.NOTICE : Nat := 0x8
abbrev Sadl.CMD : Nat := 0x10
abbrev Sadl.CMDSTAT : Nat := 0x14
abbrev Sadl.JCFG : Nat := 0x24
abbrev Sadl.PGM_ATTR : Nat := 0x60
abbrev Sadl.CTX_REQ0 (n : Nat) : Nat := 0x1000 + 0x20 * n
abbrev Sadl.CTX_REQ2 (n : Nat) : Nat := 0x1008 + 0x20 * n
abbrev Sadl.CTX_REQ3 (n : Nat) : Nat := 0x100C + 0x20 * n
abbrev Sadl.CTX_LOC (n : Nat) : Nat := 0x1014 + 0x20 * n
abbrev Sadl.AX_AXST (a : Nat) : Nat := 0x4000 + 0x80 * a
abbrev Sadl.AX_AXQ (a : Nat) : Nat := 0x4014 + 0x80 * a
abbrev Sadl.IEN : Nat := 0xC
abbrev Sadl.JBASE : Nat := 0x20
abbrev Sadl.JW : Nat := 0x28
abbrev Sadl.JR : Nat := 0x2C
abbrev Sadl.JOVF_CNT : Nat := 0x30
abbrev Sadl.CNTSTAT : Nat := 0x34
abbrev Sadl.SUSPECT : Nat := 0x40
abbrev Sadl.BRPIN : Nat := 0x44
abbrev Sadl.HISTCFG : Nat := 0x48
abbrev Sadl.PGM_SRC : Nat := 0x50
abbrev Sadl.PGM_LEN : Nat := 0x54
abbrev Sadl.PGM_DST : Nat := 0x58
abbrev Sadl.PGM_ENTRY : Nat := 0x5C
abbrev Sadl.XP_BASE (n : Nat) : Nat := 0x100 + 0x20 * n
abbrev Sadl.XP_LIMIT (n : Nat) : Nat := 0x104 + 0x20 * n
abbrev Sadl.XP_OFFS (n : Nat) : Nat := 0x108 + 0x20 * n
abbrev Sadl.XP_ATTR (n : Nat) : Nat := 0x10C + 0x20 * n
abbrev Sadl.XP_REL (n : Nat) : Nat := 0x110 + 0x20 * n
abbrev Sadl.CTX_REQ1 (n : Nat) : Nat := 0x1004 + 0x20 * n
abbrev Sadl.CTX_IMG (n : Nat) : Nat := 0x1010 + 0x20 * n
abbrev Sadl.CTX_OVB_CNT (n : Nat) : Nat := 0x1018 + 0x20 * n
abbrev Sadl.CTX_CTXSTAT (n : Nat) : Nat := 0x101C + 0x20 * n
abbrev Sadl.AX_MISS_CNT (a : Nat) : Nat := 0x4004 + 0x80 * a
abbrev Sadl.AX_COMMIT_CNT (a : Nat) : Nat := 0x4008 + 0x80 * a
abbrev Sadl.AX_DROPS (a : Nat) : Nat := 0x400C + 0x80 * a
abbrev Sadl.AX_SPREPL_CNT (a : Nat) : Nat := 0x4010 + 0x80 * a
abbrev Sadl.AX_AXIEN (a : Nat) : Nat := 0x4018 + 0x80 * a
abbrev Sadl.AX_CNTSTAT (a : Nat) : Nat := 0x401C + 0x80 * a
abbrev Sadl.AX_HIST (a k : Nat) : Nat := 0x4040 + 0x80 * a + 0x4 * k
abbrev Isl.STAT : Nat := 0x0
abbrev Isl.CLKSET : Nat := 0x4
abbrev Isl.ENG (e : Nat) : Nat := 0x10 + 0x4 * e
abbrev Isl.BIND (e k : Nat) : Nat := 0x100 + 0x40 * e + 0x4 * k
abbrev Isl.TRIM : Nat := 0x8
abbrev Isl.CLRFLT : Nat := 0x20
abbrev Isl.FLT_CNT : Nat := 0x24
abbrev Isl.CNTSTAT : Nat := 0x28
abbrev Stc.CFG : Nat := 0x0
abbrev Stc.STAT : Nat := 0x4
abbrev Stc.NOTICE : Nat := 0x8
abbrev Stc.ISLT (i : Nat) : Nat := 0x40 + 0x4 * i
abbrev Stc.ACT (n : Nat) : Nat := 0x60 + 0x4 * n
abbrev Stc.FLCFG : Nat := 0x84
abbrev Stc.FSTAT : Nat := 0x94
abbrev Stc.FCFG : Nat := 0x98
abbrev Stc.IEN : Nat := 0xC
abbrev Stc.FLBASE : Nat := 0x80
abbrev Stc.FLW : Nat := 0x88
abbrev Stc.FLR : Nat := 0x8C
abbrev Stc.FLOVF_CNT : Nat := 0x90
abbrev Stc.FCLR : Nat := 0x9C
abbrev Stc.CNTSTAT : Nat := 0xA0
abbrev Age.CFG : Nat := 0x0
abbrev Age.NOTICE : Nat := 0x4
abbrev Age.U_MARGIN (u : Nat) : Nat := 0x100 + 0x20 * u
abbrev Age.U_PLAN (u : Nat) : Nat := 0x104 + 0x20 * u
abbrev Age.U_PROJ (u : Nat) : Nat := 0x10C + 0x20 * u
abbrev Age.IEN : Nat := 0x8
abbrev Age.POWERED : Nat := 0xC
abbrev Age.CNTSTAT : Nat := 0x10
abbrev Age.U_STRESS (u : Nat) : Nat := 0x108 + 0x20 * u
abbrev Age.U_MREF (u : Nat) : Nat := 0x110 + 0x20 * u
abbrev Age.U_REPLAN_CNT (u : Nat) : Nat := 0x114 + 0x20 * u
abbrev Thm.TEMP (n : Nat) : Nat := 0x0 + 0x4 * n
abbrev Thm.CFG : Nat := 0x40
abbrev Thm.STAT : Nat := 0x48
abbrev Thm.MAX : Nat := 0x30
abbrev Thm.BUDGET : Nat := 0x44
abbrev Thm.IEN : Nat := 0x4C
abbrev Thm.RAIL : Nat := 0x50
abbrev Pmu.MODE : Nat := 0x0
abbrev Pmu.CTRL : Nat := 0x4
abbrev Pmu.REQSTAT : Nat := 0x8
abbrev Pmu.WAKECFG : Nat := 0xC
abbrev Pmu.WAKESTAT : Nat := 0x10
abbrev Pmu.RSTCAUSE : Nat := 0x20
abbrev Pmu.SHCAUSE : Nat := 0x24
abbrev Pmu.BOOST : Nat := 0x28
abbrev Pmu.CLKSTAT : Nat := 0x2C
abbrev Pmu.WDG_CFG (n : Nat) : Nat := 0x100 + 0x20 * n
abbrev Pmu.WDG_STAT (n : Nat) : Nat := 0x110 + 0x20 * n
abbrev Pmu.ALARM_LO : Nat := 0x14
abbrev Pmu.ALARM_HI : Nat := 0x18
abbrev Pmu.HIBCFG : Nat := 0x1C
abbrev Pmu.IEN : Nat := 0x30
abbrev Pmu.WDG_TIMEOUT (n : Nat) : Nat := 0x104 + 0x20 * n
abbrev Pmu.WDG_SVC (n : Nat) : Nat := 0x108 + 0x20 * n
abbrev Pmu.WDG_CNT (n : Nat) : Nat := 0x10C + 0x20 * n

/-! ### The rows of each block -/

/-- Registers of `TB` (R110, R114). -/
def rowsTb : List RegRow :=
  [{ off := 0x0, dims := [], reset := 0x0, ro := 0xFFFFFFFF },
   { off := 0x4, dims := [], reset := 0x0, ro := 0xFFFFFFFF },
   { off := 0x8, dims := [], reset := 0x0, ro := 0xFFFFFFFF },
   { off := 0x10, dims := [], reset := 0x0, ro := 0xFFFFFFFF },
   { off := 0x14, dims := [], reset := 0x0, ro := 0xFFFFFFFF },
   { off := 0x18, dims := [], reset := 0x0, ro := 0xFFFF },
   { off := 0x1C, dims := [], reset := 0x0, rws := 0xFFFF },
   { off := 0x20, dims := [], reset := 0x0, ro := 0xFFFFFFFF },
   { off := 0x100, dims := [(0x8, 16)], reset := 0x0, ro := 0xFFFFFFFF },
   { off := 0x104, dims := [(0x8, 16)], reset := 0x0, ro := 0xFFFFFFFF },
   { off := 0x100C, dims := [(0x10, 256)], reset := 0x0, rw := 0x80000000, w1c := 0x3, rws := 0x40000000 },
   { off := 0x1000, dims := [(0x10, 256)], reset := 0x0, rw := 0xFFFFFFFF }] ++
  [{ off := 0x1004, dims := [(0x10, 256)], reset := 0x0, rw := 0xFFFFFFFF },
   { off := 0x1008, dims := [(0x10, 256)], reset := 0x0, rw := 0xFFFFFFFF }]

/-- Registers of `TIM` (R118). -/
def rowsTim : List RegRow :=
  [{ off := 0x0, dims := [(0x100, 64)], reset := 0x0, rw := 0xFFFF001D },
   { off := 0x20, dims := [(0x100, 64)], reset := 0x0, w1c := 0x10F },
   { off := 0x4, dims := [(0x100, 64)], reset := 0x0, rw := 0xFFFFFFFF },
   { off := 0x8, dims := [(0x100, 64)], reset := 0x0, ro := 0xFFFFFFFF },
   { off := 0xC, dims := [(0x100, 64)], reset := 0x0, ro := 0xFFFFFFFF },
   { off := 0x10, dims := [(0x100, 64), (0x4, 4)], reset := 0x0, rw := 0xFFFFFFFF },
   { off := 0x24, dims := [(0x100, 64)], reset := 0x0, ro := 0xFFFFFFFF }]

/-- Registers of `EVR` (R124, R125). -/
def rowsEvr : List RegRow :=
  [{ off := 0x0, dims := [(0x4, 512)], reset := 0x0, rw := 0xBFFFFFFF, rws := 0x40000000 },
   { off := 0x800, dims := [], reset := 0x0, wo := 0x7FF },
   { off := 0x804, dims := [], reset := 0x0, rw := 0xFFFFFFFF },
   { off := 0x808, dims := [], reset := 0x0, w1c := 0x80000000 }]

/-- Registers of `INTC` (R127). -/
def rowsIntc : List RegRow :=
  [{ off := 0x0, dims := [(0x4, 16)], reset := 0x0, ro := 0xFFFFFFFF },
   { off := 0x40, dims := [(0x4, 16)], reset := 0x0, rw := 0xFFFFFFFF },
   { off := 0x80, dims := [(0x4, 16)], reset := 0x0, rws := 0xFFFFFFFF },
   { off := 0xC0, dims := [(0x4, 16)], reset := 0x0, ro := 0xFFFFFFFF },
   { off := 0x100, dims := [], reset := 0x0, ro := 0xFFFF },
   { off := 0x104, dims := [], reset := 0x0, wo := 0x1FF },
   { off := 0x108, dims := [], reset := 0x0, wo := 0x1FF },
   { off := 0x10C, dims := [], reset := 0x0, wo := 0x1FF }]

/-- Registers of `MBX` (R131). -/
def rowsMbx : List RegRow :=
  [{ off := 0x0, dims := [(0x4, 64)], reset := 0x0, rwl := 0xC000FFFF, secure := true },
   { off := 0x100, dims := [], reset := 0x0, w1s := 0x1, secure := true },
   { off := 0x104, dims := [], reset := 0x0, ro := 0x3F07FF, w1c := 0xC0000000, secure := true },
   { off := 0x1024, dims := [(0x40, 64)], reset := 0x0, ro := 0xF3 },
   { off := 0x1000, dims := [(0x40, 64), (0x4, 8)], reset := 0x0, rw := 0xFFFFFFFF },
   { off := 0x1020, dims := [(0x40, 64)], reset := 0x0, wo := 0xF },
   { off := 0x1028, dims := [(0x40, 64)], reset := 0x0, rw := 0xFFFFFFFF }]

/-- Registers of `DMA` (R366). -/
def rowsDma : List RegRow :=
  [{ off := 0x1000, dims := [(0x40, 32)], reset := 0x400, rw := 0xB3000F00, rws := 0x40000000 },
   { off := 0x1010, dims := [(0x40, 32)], reset := 0x0, ro := 0xE0000000, w1c := 0x3E },
   { off := 0x0, dims := [], reset := 0x0, ro := 0xFFFFFFFF },
   { off := 0x1004, dims := [(0x40, 32)], reset := 0x0, rw := 0xFFFFFFFF },
   { off := 0x1008, dims := [(0x40, 32)], reset := 0x0, ro := 0xFFF },
   { off := 0x100C, dims := [(0x40, 32)], reset := 0x0, wo := 0x1 },
   { off := 0x1014, dims := [(0x40, 32)], reset := 0x0, rw := 0x3E },
   { off := 0x1018, dims := [(0x40, 32)], reset := 0x0, rw := 0xFFFFFFFF },
   { off := 0x101C, dims := [(0x40, 32)], reset := 0x0, rw := 0xFFFFFFFF },
   { off := 0x1020, dims := [(0x40, 32)], reset := 0x0, w1c := 0x3 },
   { off := 0x1024, dims := [(0x40, 32)], reset := 0x0, ro := 0xFFFFFF }]

/-- Registers of `QM` (R332). -/
def rowsQm : List RegRow :=
  [{ off := 0x0, dims := [], reset := 0x0, wo := 0xFFF1FFF },
   { off := 0x8, dims := [], reset := 0x0, ro := 0x1FFF07FF, w1c := 0xC0000000 },
   { off := 0xC, dims := [], reset := 0x0, w1c := 0x31F },
   { off := 0x20, dims := [(0x4, 5)], reset := 0x0, ro := 0x80001FFF },
   { off := 0x10, dims := [], reset := 0x0, rw := 0x31F },
   { off := 0x40, dims := [], reset := 0x0, rw := 0xFFFFFFFF },
   { off := 0x44, dims := [], reset := 0x0, rw := 0xFFFFFFFF },
   { off := 0x48, dims := [], reset := 0x0, ro := 0x7FF1FFF },
   { off := 0x4C, dims := [], reset := 0x0, w1c := 0x3 },
   { off := 0x4, dims := [], reset := 0x0, wo := 0xFFF1FFF }]

/-- Registers of `PTAB` (R332). -/
def rowsPtab : List RegRow :=
  [{ off := 0x0, dims := [], reset := 0x0, rw := 0xFFFFFFFF },
   { off := 0x4, dims := [], reset := 0x0, ro := 0xEFFF },
   { off := 0x8, dims := [], reset := 0x0, w1c := 0x1 }]

/-- Registers of `CONV` (R157). -/
def rowsConv : List RegRow :=
  [{ off := 0x0, dims := [], reset := 0x80000096, rws := 0x8000FFFF },
   { off := 0x4, dims := [], reset := 0x8, rws := 0xFF },
   { off := 0x8, dims := [], reset := 0xC8, rws := 0xFFFF },
   { off := 0xC, dims := [], reset := 0x0, ro := 0x9F1F1F1F },
   { off := 0x10, dims := [], reset := 0x0, w1c := 0x3F },
   { off := 0x100, dims := [(0x4, 36)], reset := 0x8000, rw := 0x8000FFFF },
   { off := 0x200, dims := [(0x4, 36)], reset := 0x0, ro := 0xC0001F1F },
   { off := 0x300, dims := [(0x10, 12)], reset := 0x0, rw := 0x8000FFFF },
   { off := 0x304, dims := [(0x10, 12)], reset := 0x0, ro := 0x1, w1c := 0x80000006 },
   { off := 0x1000, dims := [(0x80, 28)], reset := 0x0, ro := 0x337 },
   { off := 0x14, dims := [], reset := 0x0, rw := 0xFFFFFFFF },
   { off := 0x18, dims := [], reset := 0x0, rw := 0xFFFFFFFF }] ++
  [{ off := 0x1C, dims := [], reset := 0x0, w1c := 0x3 },
   { off := 0x308, dims := [(0x10, 12)], reset := 0x0, rw := 0xFFFFFFFF },
   { off := 0x30C, dims := [(0x10, 12)], reset := 0x0, ro := 0xFFFFFFFF },
   { off := 0x1004, dims := [(0x80, 28)], reset := 0x0, ro := 0xFFFFFFFF },
   { off := 0x1008, dims := [(0x80, 28)], reset := 0x0, ro := 0xFFFF },
   { off := 0x100C, dims := [(0x80, 28)], reset := 0x8000, ro := 0xFFFF },
   { off := 0x1010, dims := [(0x80, 28), (0x4, 17)], reset := 0x0, ro := 0xFFFF },
   { off := 0x1054, dims := [(0x80, 28)], reset := 0x0, ro := 0x3F }]

/-- Registers of `CMP` (R158). -/
def rowsCmp : List RegRow :=
  [{ off := 0x0, dims := [(0x10, 24)], reset := 0xFFF0000, rw := 0xFFF0FFF },
   { off := 0x8, dims := [(0x10, 24)], reset := 0x0, rw := 0x40000700, rws := 0x80000000 },
   { off := 0xC, dims := [(0x10, 24)], reset := 0x0, ro := 0x7C, w1c := 0x3 },
   { off := 0x240, dims := [(0x4, 12)], reset := 0x0, rws := 0xF0F },
   { off := 0x280, dims := [(0x4, 4)], reset := 0x0, rws := 0xC00000FF },
   { off := 0x300, dims := [(0x4, 4)], reset := 0x0, rw := 0x10000, rws := 0xC0003F0F },
   { off := 0x200, dims := [(0x4, 12)], reset := 0x0, rw := 0x7FF },
   { off := 0x290, dims := [], reset := 0x0, w1c := 0xF, ro := 0xF00 },
   { off := 0x310, dims := [], reset := 0x0, w1c := 0xF, ro := 0xF00 },
   { off := 0x320, dims := [], reset := 0x2, rws := 0xF },
   { off := 0x4, dims := [(0x10, 24)], reset := 0xFFF0000, rws := 0xFFF0FFF }]

/-- Registers of `AWL` (R228). -/
def rowsAwl : List RegRow :=
  [{ off := 0x0, dims := [], reset := 0x0, rw := 0xFFFF },
   { off := 0x8, dims := [], reset := 0x4, rw := 0x8000001F },
   { off := 0x18, dims := [], reset := 0x0, w1c := 0x3 },
   { off := 0x100, dims := [(0x20, 8)], reset := 0x0, rw := 0x800001FF },
   { off := 0x110, dims := [(0x20, 8)], reset := 0x0, ro := 0x1, w1c := 0x1E },
   { off := 0x4, dims := [], reset := 0x0, rw := 0xFFFFFFFF },
   { off := 0xC, dims := [], reset := 0x0, ro := 0xFFFF },
   { off := 0x10, dims := [], reset := 0x0, rw := 0xFFFF },
   { off := 0x14, dims := [], reset := 0x0, rw := 0xFFFFFFFF },
   { off := 0x1C, dims := [], reset := 0x0, w1c := 0xFF01 },
   { off := 0x20, dims := [], reset := 0x0, rw := 0x1F03 },
   { off := 0x104, dims := [(0x20, 8)], reset := 0x0, rw := 0x7FFF }] ++
  [{ off := 0x108, dims := [(0x20, 8)], reset := 0x0, rw := 0x7FFF },
   { off := 0x10C, dims := [(0x20, 8)], reset := 0x0, ro := 0x7FFF },
   { off := 0x114, dims := [(0x20, 8)], reset := 0x186A0, rw := 0xFFFFFFFF },
   { off := 0x118, dims := [(0x20, 8)], reset := 0x0, rw := 0xFFFFFFFF }]

/-- Registers of `FLC` (R389). -/
def rowsFlc : List RegRow :=
  [{ off := 0x0, dims := [], reset := 0x3, rws := 0x3 },
   { off := 0x8, dims := [], reset := 0x0, ro := 0xF0000, w1c := 0x3F },
   { off := 0x10, dims := [], reset := 0x0, ro := 0xC3FF01FF },
   { off := 0x14, dims := [], reset := 0x0, ro := 0x807F001F },
   { off := 0x18, dims := [(0x4, 2)], reset := 0x0, ro := 0xFDFFFFFF },
   { off := 0x4, dims := [], reset := 0x0, wo := 0x1 },
   { off := 0xC, dims := [], reset := 0x0, rw := 0x3F },
   { off := 0x20, dims := [], reset := 0x0, rw := 0xFFFFFFFF },
   { off := 0x24, dims := [], reset := 0x0, rw := 0xFFFFFFFF },
   { off := 0x28, dims := [], reset := 0x0, w1c := 0x3 },
   { off := 0x2C, dims := [], reset := 0x0, ro := 0x1FFFFFFF }]

/-- Registers of `PWM` (R193). -/
def rowsPwm : List RegRow :=
  [{ off := 0x0, dims := [], reset := 0x0, rw := 0xE7000000 },
   { off := 0x24, dims := [], reset := 0x0, wo := 0xF },
   { off := 0x30, dims := [], reset := 0x0, rw := 0xFFF },
   { off := 0x38, dims := [], reset := 0x800, rws := 0x30F13 },
   { off := 0x3C, dims := [], reset := 0x0, rw := 0x3F },
   { off := 0x40, dims := [], reset := 0x0, ro := 0xF0010000, w1c := 0xFFFE },
   { off := 0x80, dims := [(0x4, 6)], reset := 0x0, ro := 0xFFFFFF3F },
   { off := 0x4, dims := [], reset := 0x0, rws := 0xFF },
   { off := 0x8, dims := [], reset := 0xFA0, rw := 0xFFFF },
   { off := 0xC, dims := [], reset := 0x0, rw := 0xFFFF },
   { off := 0x10, dims := [], reset := 0x0, rw := 0xFFFF },
   { off := 0x14, dims := [], reset := 0x0, rw := 0xFFFF }] ++
  [{ off := 0x18, dims := [], reset := 0x0, rw := 0xFFFFFFFF },
   { off := 0x1C, dims := [], reset := 0x0, rw := 0xFFFFFFFF },
   { off := 0x20, dims := [], reset := 0x0, rw := 0xFFFFFFFF },
   { off := 0x28, dims := [], reset := 0x0, rw := 0x7FFF },
   { off := 0x2C, dims := [], reset := 0x0, rw := 0x7FFF },
   { off := 0x34, dims := [], reset := 0x0, rws := 0x3F },
   { off := 0x44, dims := [], reset := 0x0, rw := 0xFFFC },
   { off := 0x48, dims := [], reset := 0x0, ro := 0xFFFFFFFF },
   { off := 0x4C, dims := [], reset := 0x0, ro := 0xFFFF },
   { off := 0x50, dims := [], reset := 0x0, ro := 0xFFFF },
   { off := 0x54, dims := [], reset := 0x0, ro := 0xFFFF },
   { off := 0x58, dims := [], reset := 0x0, ro := 0xFFFFFFFF }] ++
  [{ off := 0x5C, dims := [], reset := 0x0, ro := 0xFFFFFFFF },
   { off := 0x60, dims := [], reset := 0x0, ro := 0xFFFFFFFF },
   { off := 0x68, dims := [], reset := 0x0, rw := 0xFFFFFFFF },
   { off := 0x6C, dims := [], reset := 0x0, rw := 0xFFFFFFFF },
   { off := 0x70, dims := [], reset := 0x0, rw := 0xFFFFFFFF },
   { off := 0x74, dims := [], reset := 0x0, rw := 0xFFFFFFFF },
   { off := 0x78, dims := [], reset := 0x0, w1c := 0xF },
   { off := 0x7C, dims := [], reset := 0x0, ro := 0x3F, w1c := 0x3F00 },
   { off := 0xA0, dims := [(0x4, 3)], reset := 0x0, ro := 0x803FFFFF },
   { off := 0xB0, dims := [], reset := 0xA, rws := 0xFF }]

/-- Registers of `FB` (R226). -/
def rowsFb : List RegRow :=
  [{ off := 0x0, dims := [], reset := 0x0, rw := 0xFBE100FF },
   { off := 0x4, dims := [], reset := 0x0, rw := 0xCF0000FF },
   { off := 0x8, dims := [], reset := 0x0, rws := 0x800000FF },
   { off := 0x20, dims := [], reset := 0x0, wo := 0x7 },
   { off := 0x3C, dims := [], reset := 0x0, ro := 0xE7000100, w1c := 0xFC },
   { off := 0x50, dims := [], reset := 0x0, rw := 0x707, ro := 0x70000 },
   { off := 0xC, dims := [], reset := 0x0, rw := 0xFFFFFFFF },
   { off := 0x10, dims := [], reset := 0x0, ro := 0xFFFFFFFF },
   { off := 0x14, dims := [], reset := 0x0, ro := 0xFFFFFFFF },
   { off := 0x18, dims := [], reset := 0x0, rw := 0xFFFFFFFF },
   { off := 0x1C, dims := [], reset := 0x0, rw := 0xFFFFFFFF },
   { off := 0x24, dims := [], reset := 0x0, ro := 0xFFFFFFFF }] ++
  [{ off := 0x28, dims := [], reset := 0x0, ro := 0xFFFFFFFF },
   { off := 0x2C, dims := [], reset := 0x0, ro := 0xFFFFFFFF },
   { off := 0x30, dims := [], reset := 0x0, ro := 0xFFFFFFFF },
   { off := 0x34, dims := [], reset := 0xC35, rw := 0xFFFFFF },
   { off := 0x38, dims := [], reset := 0xEEC287, rw := 0xFFFFFF },
   { off := 0x40, dims := [], reset := 0x0, rw := 0xFFFFFFFF },
   { off := 0x44, dims := [], reset := 0x0, rw := 0xFFFFFFFF },
   { off := 0x48, dims := [], reset := 0x0, w1c := 0x3 },
   { off := 0x4C, dims := [], reset := 0x0, rw := 0xFC }]

/-- Registers of `SENC` (R227). -/
def rowsSenc : List RegRow :=
  [{ off := 0x0, dims := [], reset := 0x27, rw := 0xBC00FFFF },
   { off := 0x4, dims := [], reset := 0x0, rw := 0xCF0000FF },
   { off := 0x8, dims := [], reset := 0x0, rws := 0x800000FF },
   { off := 0xC, dims := [], reset := 0x1A1A0000, rw := 0x7F3F3F03 },
   { off := 0x10, dims := [], reset := 0x86000003, rw := 0x9F00FFFF },
   { off := 0x34, dims := [], reset := 0x0, rw := 0x40007FFF, wo := 0x80000000 },
   { off := 0x38, dims := [], reset := 0x0, ro := 0x800000FF, w1c := 0x60000000 },
   { off := 0x3C, dims := [], reset := 0x0, ro := 0x80000000, w1c := 0x3F },
   { off := 0x14, dims := [], reset := 0x0, rw := 0xFFFF },
   { off := 0x18, dims := [], reset := 0xC80000, rw := 0xFFFF00FF },
   { off := 0x1C, dims := [], reset := 0x0, rw := 0xFFFF },
   { off := 0x20, dims := [], reset := 0x0, ro := 0xFFFFFFFF },
   { off := 0x24, dims := [], reset := 0x0, ro := 0xFFFFFFFF },
   { off := 0x28, dims := [], reset := 0x0, ro := 0xFFFFFFFF }] ++
  [{ off := 0x2C, dims := [], reset := 0x0, ro := 0xFFFFFFFF },
   { off := 0x30, dims := [], reset := 0x0, ro := 0xFFFF },
   { off := 0x40, dims := [], reset := 0x0, rw := 0xFFFFFFFF },
   { off := 0x44, dims := [], reset := 0x0, rw := 0xFFFFFFFF },
   { off := 0x50, dims := [], reset := 0x0, rw := 0xFFFFFFFF },
   { off := 0x48, dims := [], reset := 0x0, w1c := 0x7 },
   { off := 0x4C, dims := [], reset := 0x0, rw := 0x3F }]

/-- Registers of `TETH` (R293). -/
def rowsTeth : List RegRow :=
  [{ off := 0x0, dims := [], reset := 0xA00, rw := 0x8700FF00 },
   { off := 0x4, dims := [], reset := 0x0, ro := 0xEF000000, w1c := 0xFF },
   { off := 0x40, dims := [], reset := 0x0, rw := 0x4000FFFF, wo := 0x80000000 },
   { off := 0x48, dims := [], reset := 0x0, ro := 0x800000FF, w1c := 0x60000000 },
   { off := 0x100, dims := [(0x20, 8)], reset := 0x0, rws := 0xC00000FF },
   { off := 0x104, dims := [(0x20, 8)], reset := 0x800, rws := 0xF13 },
   { off := 0x108, dims := [(0x20, 8)], reset := 0x0, ro := 0xF0000080, w1c := 0x77 },
   { off := 0x10C, dims := [(0x20, 8)], reset := 0x0, wo := 0x3 },
   { off := 0x8, dims := [], reset := 0xFA0, rw := 0xFFFF },
   { off := 0xC, dims := [], reset := 0x0, rw := 0xFFFF },
   { off := 0x10, dims := [], reset := 0x0, ro := 0xFFFF },
   { off := 0x14, dims := [], reset := 0x0, ro := 0xFFFFFFFF }] ++
  [{ off := 0x18, dims := [], reset := 0x0, rw := 0xFF },
   { off := 0x1C, dims := [], reset := 0x0, ro := 0xFFFFFFFF },
   { off := 0x20, dims := [], reset := 0x0, rw := 0xFFFFFFFF },
   { off := 0x24, dims := [], reset := 0x0, rw := 0xFFFFFFFF },
   { off := 0x28, dims := [], reset := 0x0, rw := 0xFFFFFFFF },
   { off := 0x2C, dims := [], reset := 0x0, w1c := 0x7 },
   { off := 0x30, dims := [], reset := 0x0, ro := 0xFFFFFFFF },
   { off := 0x44, dims := [], reset := 0x0, rw := 0xFFFFFFFF },
   { off := 0x110, dims := [(0x20, 8)], reset := 0x0, ro := 0xFFFF },
   { off := 0x114, dims := [(0x20, 8)], reset := 0x0, rw := 0xFFFFFFFF },
   { off := 0x118, dims := [(0x20, 8)], reset := 0x0, rw := 0xFFFFFFFF },
   { off := 0x11C, dims := [(0x20, 8)], reset := 0x0, rw := 0xFFFFFFFF }]

/-- Registers of `GIRTH` (R333). -/
def rowsGirth : List RegRow :=
  [{ off := 0x0, dims := [], reset := 0x3E8, rw := 0xF8FFFFFF },
   { off := 0x4, dims := [], reset := 0xC030230, rw := 0xFFFFFFFF },
   { off := 0x8, dims := [], reset := 0x0, ro := 0x80000000, w1c := 0x3F },
   { off := 0xC, dims := [], reset := 0x0, rw := 0x3F },
   { off := 0x10, dims := [], reset := 0x0, ro := 0xFFFF },
   { off := 0x14, dims := [], reset := 0x0, rw := 0x3FF03FF },
   { off := 0x20, dims := [], reset := 0x0, rw := 0xFFFFFFFF },
   { off := 0x24, dims := [], reset := 0x0, rw := 0xFFFFFFFF },
   { off := 0x28, dims := [], reset := 0x0, rw := 0xFFFFFFFF },
   { off := 0x2C, dims := [], reset := 0x0, w1c := 0x7 },
   { off := 0x40, dims := [(0x4, 8)], reset := 0x0, ro := 0xFFFFFFFF },
   { off := 0x400, dims := [(0x4, 256)], reset := 0x0, rw := 0x80000FFF }] ++
  [{ off := 0x1000, dims := [(0x4, 512)], reset := 0x0, rw := 0xC00000FF },
   { off := 0x1800, dims := [(0x4, 512)], reset := 0x0, rw := 0xC00000FF }]

/-- Registers of `ETH` (R334). -/
def rowsEth : List RegRow :=
  [{ off := 0x0, dims := [], reset := 0x20000000, rw := 0xFC000000 },
   { off := 0x4, dims := [], reset := 0x0, ro := 0xC0000000, w1c := 0xFF },
   { off := 0x60, dims := [], reset := 0x0, rw := 0x80000000, ro := 0x40000000, wo := 0x1 },
   { off := 0xA0, dims := [], reset := 0x0, rw := 0x43FFFFFF, wo := 0x80000000 },
   { off := 0xA4, dims := [], reset := 0x0, ro := 0x8000FFFF, w1c := 0x40000000 },
   { off := 0x8, dims := [], reset := 0x0, rw := 0xFF },
   { off := 0x10, dims := [], reset := 0x0, rw := 0xFFFFFFFF },
   { off := 0x14, dims := [], reset := 0x0, rw := 0xFFFF },
   { off := 0x18, dims := [], reset := 0x0, rw := 0xFFFFFFFF },
   { off := 0x1C, dims := [], reset := 0x88B5, rw := 0xFFFF },
   { off := 0x20, dims := [], reset := 0xB588, rw := 0xFFFF },
   { off := 0x24, dims := [], reset := 0x0, rw := 0x1FFF }] ++
  [{ off := 0x28, dims := [], reset := 0x0, rw := 0x1FFF },
   { off := 0x2C, dims := [], reset := 0x0, rw := 0x1FFF },
   { off := 0x30, dims := [], reset := 0x0, rw := 0x1FFF },
   { off := 0x34, dims := [], reset := 0x0, rw := 0xFFFFFFFF },
   { off := 0x40, dims := [], reset := 0x0, rw := 0xFFFFFFFF },
   { off := 0x44, dims := [], reset := 0x0, rw := 0xFFFFFFFF },
   { off := 0x48, dims := [], reset := 0x0, rw := 0xFFFFFFFF },
   { off := 0x4C, dims := [], reset := 0x0, rw := 0xFFFFFFFF },
   { off := 0x50, dims := [], reset := 0xCCCCCCCD, rw := 0xFFFFFFFF },
   { off := 0x54, dims := [], reset := 0x0, wo := 0x1 },
   { off := 0x64, dims := [], reset := 0x0, rw := 0x7FF },
   { off := 0x68, dims := [], reset := 0x0, rw := 0xFFFFFFFF }] ++
  [{ off := 0x6C, dims := [], reset := 0x0, rw := 0xFFFFFFFF },
   { off := 0x70, dims := [], reset := 0x0, rw := 0xFFFFFFFF },
   { off := 0x74, dims := [], reset := 0x0, ro := 0xFFFFFFFF },
   { off := 0x78, dims := [], reset := 0x0, ro := 0xFFFFFFFF },
   { off := 0x80, dims := [], reset := 0x0, rw := 0xFFFFFFFF },
   { off := 0x84, dims := [], reset := 0x0, rw := 0xFFFFFFFF },
   { off := 0x88, dims := [], reset := 0x0, rw := 0xFFFFFFFF },
   { off := 0x8C, dims := [], reset := 0x0, rw := 0xFFFFFFFF },
   { off := 0x90, dims := [], reset := 0x0, rw := 0xFFFFFFFF },
   { off := 0x94, dims := [], reset := 0x0, w1c := 0x1F },
   { off := 0x1000, dims := [(0x4, 1024)], reset := 0x0, rw := 0xFFFFFFFF },
   { off := 0x2000, dims := [(0x4, 1024)], reset := 0x0, ro := 0xFFFFFFFF }]

/-- Registers of `WMAP` (R418). -/
def rowsWmap : List RegRow :=
  [{ off := 0x0, dims := [(0x4, 513)], reset := 0x0, rwl := 0x1, secure := true },
   { off := 0x1000, dims := [], reset := 0x0, w1s := 0x1, secure := true }]

/-- Registers of `RGN` (R418). -/
def rowsRgn : List RegRow :=
  [{ off := 0x8, dims := [(0x10, 16)], reset := 0x0, rwl := 0xF0000000, secure := true },
   { off := 0x0, dims := [(0x10, 16)], reset := 0x0, rwl := 0xFFFFFFF, secure := true },
   { off := 0x4, dims := [(0x10, 16)], reset := 0x0, rwl := 0xFFFFFFF, secure := true },
   { off := 0x100, dims := [], reset := 0x0, w1s := 0x1, secure := true },
   { off := 0x104, dims := [], reset := 0x0, w1c := 0xC0000000, ro := 0x1007F0, secure := true },
   { off := 0x108, dims := [], reset := 0x0, ro := 0xFFFFFFFF, secure := true },
   { off := 0x10C, dims := [], reset := 0x0, ro := 0xFF, secure := true }]

/-- Registers of `SEC` (R418). -/
def rowsSec : List RegRow :=
  [{ off := 0x0, dims := [], reset := 0x7128114E, ro := 0xFFFFFFFF },
   { off := 0x10, dims := [(0x4, 4)], reset := 0x0, ro := 0xFFFFFFFF },
   { off := 0x20, dims := [], reset := 0x0, ro := 0x303 },
   { off := 0x30, dims := [(0x4, 4)], reset := 0x0, ro := 0xFFFFFFFF },
   { off := 0x40, dims := [(0x4, 4)], reset := 0x0, ro := 0xFFFFFFFF },
   { off := 0x100, dims := [(0x40, 8), (0x4, 12)], reset := 0x0, ro := 0xFFFFFFFF },
   { off := 0x400, dims := [(0x4, 8)], reset := 0x0, ro := 0xFFFFFFFF },
   { off := 0x420, dims := [], reset := 0x0, wo := 0x1 },
   { off := 0x424, dims := [], reset := 0x0, ro := 0x8000FF03 },
   { off := 0x500, dims := [], reset := 0x0, ro := 0xFFFFFFFF, secure := true },
   { off := 0x2000, dims := [(0x4, 2048)], reset := 0x0, wo := 0xFFFFFFFF }]

/-- Registers of `OTP` (). -/
def rowsOtp : List RegRow :=
  []

/-- Registers of `BOOT` (R418). -/
def rowsBoot : List RegRow :=
  [{ off := 0x4, dims := [], reset := 0x0, ro := 0xE0FFFFFF, secure := true },
   { off := 0x10, dims := [(0x8, 4)], reset := 0x40000000, rw := 0x40000000, w1s := 0x80000000, secure := true },
   { off := 0x0, dims := [], reset := 0x0, ro := 0x3, secure := true },
   { off := 0x8, dims := [], reset := 0x0, ro := 0xFFFF, secure := true },
   { off := 0x14, dims := [(0x8, 4)], reset := 0x0, rw := 0xFFFFFFFF, secure := true }]

/-- Registers of `DBG` (R488). -/
def rowsDbg : List RegRow :=
  [{ off := 0x1000, dims := [(0x20, 5)], reset := 0x0, rw := 0x1E0, wo := 0x207, secure := true },
   { off := 0x1100, dims := [(0x20, 32)], reset := 0x0, rw := 0x1E0, wo := 0x207, secure := true },
   { off := 0x1004, dims := [(0x20, 5)], reset := 0x0, ro := 0xC00000F0, w1c := 0x3, secure := true },
   { off := 0x1104, dims := [(0x20, 32)], reset := 0x0, ro := 0xC00000F0, w1c := 0x3, secure := true },
   { off := 0x1008, dims := [(0x20, 5)], reset := 0x0, rw := 0xC0, ro := 0xF00, secure := true },
   { off := 0x1108, dims := [(0x20, 32)], reset := 0x0, rw := 0xC0, ro := 0xF00, secure := true },
   { off := 0x18, dims := [], reset := 0x2, rw := 0xC0000003, secure := true },
   { off := 0x100, dims := [], reset := 0x0, rw := 0xE0000000, rws := 0x10000000 },
   { off := 0x0, dims := [], reset := 0x0, ro := 0x3 },
   { off := 0x10, dims := [], reset := 0x0, rw := 0xFFFFFFFF, secure := true },
   { off := 0x14, dims := [], reset := 0x0, rw := 0xFF, secure := true },
   { off := 0x1C, dims := [], reset := 0x0, rw := 0xFFFFFFFF, secure := true },
   { off := 0x20, dims := [], reset := 0x0, ro := 0x8000000F },
   { off := 0x24, dims := [], reset := 0x0, wo := 0x1, secure := true },
   { off := 0x100C, dims := [(0x20, 5)], reset := 0x0, rw := 0xFF, secure := true },
   { off := 0x110C, dims := [(0x20, 32)], reset := 0x0, rw := 0xFF, secure := true }] ++
  [{ off := 0x1010, dims := [(0x20, 5)], reset := 0x0, rw := 0xFFFFFFFF, secure := true },
   { off := 0x1110, dims := [(0x20, 32)], reset := 0x0, rw := 0xFFFFFFFF, secure := true },
   { off := 0x104, dims := [], reset := 0x0, rw := 0xFFFFFFFF },
   { off := 0x108, dims := [], reset := 0x0, ro := 0xFFF },
   { off := 0x10C, dims := [], reset := 0x0, rw := 0xFFF },
   { off := 0x110, dims := [], reset := 0x0, rw := 0xFFFFFFFF },
   { off := 0x114, dims := [], reset := 0x0, w1c := 0x1 },
   { off := 0x120, dims := [(0x4, 4)], reset := 0x0, ro := 0xFFFFFFFF },
   { off := 0x200, dims := [(0x4, 32)], reset := 0x0, wo := 0xFFFFFFFF },
   { off := 0x300, dims := [(0x8, 5)], reset := 0x0, rw := 0xFF, w1c := 0xC0000000 },
   { off := 0x304, dims := [(0x8, 5)], reset := 0x0, rw := 0xFF, w1c := 0x80000000 },
   { off := 0x340, dims := [], reset := 0x0, rw := 0x1F }]

/-- Registers of `PATCH` (R489). -/
def rowsPatch : List RegRow :=
  [{ off := 0x0, dims := [(0x10, 64)], reset := 0x0, rw := 0xB03F0703, rws := 0x40000000 },
   { off := 0x4, dims := [(0x10, 64)], reset := 0x0, rw := 0xFFFFFFFC },
   { off := 0x8, dims := [(0x10, 64)], reset := 0x0, rw := 0xFF },
   { off := 0xC, dims := [(0x10, 64)], reset := 0x0, rws := 0xFFFFFFFF },
   { off := 0x1000, dims := [], reset := 0x0, ro := 0x803F003F }]

/-- Registers of `REIN` (R266). -/
def rowsRein : List RegRow :=
  [{ off := 0x0, dims := [(0x40, 32), (0x4, 16)], reset := 0x0, ro := 0xC07F00FF },
   { off := 0x1000, dims := [(0x8, 32)], reset := 0x0, rw := 0xFFFFFFFF },
   { off := 0x1004, dims := [(0x8, 32)], reset := 0x0, rw := 0xFFFFFFFF },
   { off := 0x1100, dims := [], reset := 0x0, w1c := 0xFFFFFFFF },
   { off := 0x1104, dims := [], reset := 0x0, w1c := 0xFFFFFFFF }]

/-- Registers of `MEMC` (R365). -/
def rowsMemc : List RegRow :=
  [{ off := 0x0, dims := [], reset := 0x50000000, rws := 0x7FC00000 },
   { off := 0x8, dims := [], reset := 0x0, ro := 0xEFFF0000, w1c := 0x3 },
   { off := 0x4, dims := [], reset := 0x0, wo := 0x1 },
   { off := 0xC, dims := [], reset := 0x0, rw := 0x3 },
   { off := 0x10, dims := [], reset := 0x3C000A, rws := 0xFF00FF },
   { off := 0x20, dims := [], reset := 0x0, rw := 0xFFFFFFFF },
   { off := 0x24, dims := [], reset := 0x0, rw := 0xFFFFFFFF },
   { off := 0x28, dims := [], reset := 0x0, rw := 0xFFFFFFFF },
   { off := 0x2C, dims := [], reset := 0x0, rw := 0xFFFFFFFF },
   { off := 0x30, dims := [], reset := 0x0, w1c := 0xF },
   { off := 0x40, dims := [], reset := 0x0, ro := 0xFFFFFFFF },
   { off := 0x44, dims := [], reset := 0x0, ro := 0x1F00FF }]

/-- Registers of `SADL` (R264). -/
def rowsSadl : List RegRow :=
  [{ off := 0x0, dims := [], reset := 0x460601, rws := 0x7F0F01 },
   { off := 0x4, dims := [], reset := 0x88000000, ro := 0x8F01FF7F },
   { off := 0x8, dims := [], reset := 0x0, w1c := 0x3FF },
   { off := 0x10, dims := [], reset := 0x0, wo := 0xF00000FF },
   { off := 0x14, dims := [], reset := 0x0, ro := 0x800000FF, w1c := 0x40000000 },
   { off := 0x24, dims := [], reset := 0x8, rw := 0x8000001F },
   { off := 0x60, dims := [], reset := 0x0, rw := 0xC00000FF },
   { off := 0x1000, dims := [(0x20, 256)], reset := 0x0, rw := 0x740FF00, rws := 0x80800000 },
   { off := 0x1008, dims := [(0x20, 256)], reset := 0x0, rw := 0xC0FF00FF },
   { off := 0x100C, dims := [(0x20, 256)], reset := 0x0, rw := 0x9F0F1F0F },
   { off := 0x1014, dims := [(0x20, 256)], reset := 0x0, ro := 0xFF0F1FEF },
   { off := 0x4000, dims := [(0x80, 128)], reset := 0x0, ro := 0x30000, w1c := 0x7F }] ++
  [{ off := 0x4014, dims := [(0x80, 128)], reset := 0x0, rw := 0x7FF, ro := 0x80000000 },
   { off := 0xC, dims := [], reset := 0x0, rw := 0x3FF },
   { off := 0x20, dims := [], reset := 0x0, rw := 0xFFFFFFFF },
   { off := 0x28, dims := [], reset := 0x0, ro := 0xFFFF },
   { off := 0x2C, dims := [], reset := 0x0, rw := 0xFFFF },
   { off := 0x30, dims := [], reset := 0x0, rw := 0xFFFFFFFF },
   { off := 0x34, dims := [], reset := 0x0, w1c := 0x1 },
   { off := 0x40, dims := [], reset := 0x0, ro := 0xFFFFFFFF },
   { off := 0x44, dims := [], reset := 0x0, rws := 0xFFF },
   { off := 0x48, dims := [], reset := 0x20, rw := 0xFF },
   { off := 0x50, dims := [], reset := 0x0, rw := 0xFFFFFFFF },
   { off := 0x54, dims := [], reset := 0x0, rw := 0x3FFFF }] ++
  [{ off := 0x58, dims := [], reset := 0x0, rw := 0x3FFFF },
   { off := 0x5C, dims := [], reset := 0x0, rw := 0xFFFFFFFF },
   { off := 0x100, dims := [(0x20, 8)], reset := 0x0, rws := 0xFFFFF000 },
   { off := 0x104, dims := [(0x20, 8)], reset := 0x0, rws := 0xFFFFF000 },
   { off := 0x108, dims := [(0x20, 8)], reset := 0x0, rws := 0xFFFFFFF },
   { off := 0x10C, dims := [(0x20, 8)], reset := 0x0, rws := 0xC000000F },
   { off := 0x110, dims := [(0x20, 8)], reset := 0x0, rws := 0x3 },
   { off := 0x1004, dims := [(0x20, 256)], reset := 0x0, rw := 0xFFFFFFFF },
   { off := 0x1010, dims := [(0x20, 256)], reset := 0x0, rw := 0xFFFFFFF },
   { off := 0x1018, dims := [(0x20, 256)], reset := 0x0, rw := 0xFFFFFFFF },
   { off := 0x101C, dims := [(0x20, 256)], reset := 0x0, w1c := 0x1 },
   { off := 0x4004, dims := [(0x80, 128)], reset := 0x0, rw := 0xFFFFFFFF }] ++
  [{ off := 0x4008, dims := [(0x80, 128)], reset := 0x0, rw := 0xFFFFFFFF },
   { off := 0x400C, dims := [(0x80, 128)], reset := 0x0, rw := 0xFFFFFFFF },
   { off := 0x4010, dims := [(0x80, 128)], reset := 0x0, rw := 0xFFFFFFFF },
   { off := 0x4018, dims := [(0x80, 128)], reset := 0x0, rw := 0x7F },
   { off := 0x401C, dims := [(0x80, 128)], reset := 0x0, w1c := 0x1F },
   { off := 0x4040, dims := [(0x80, 128), (0x4, 16)], reset := 0x0, rw := 0xFFFFFFFF }]

/-- Registers of `ISL` (R265). -/
def rowsIsl : List RegRow :=
  [{ off := 0x0, dims := [], reset := 0x0, ro := 0x107 },
   { off := 0x4, dims := [], reset := 0x3E80320, ro := 0xFFFF, rws := 0xFFFF0000 },
   { off := 0x10, dims := [(0x4, 4)], reset := 0x80000000, ro := 0xF00F03FF },
   { off := 0x100, dims := [(0x40, 4), (0x4, 16)], reset := 0x0, ro := 0xE00000FF },
   { off := 0x8, dims := [], reset := 0x0, ro := 0x7 },
   { off := 0x20, dims := [], reset := 0x0, wo := 0x3F },
   { off := 0x24, dims := [], reset := 0x0, rw := 0xFFFFFFFF },
   { off := 0x28, dims := [], reset := 0x0, w1c := 0x1 }]

/-- Registers of `STC` (R470). -/
def rowsStc : List RegRow :=
  [{ off := 0x0, dims := [], reset := 0xBB83C0A, rws := 0xFFFFFFFF },
   { off := 0x4, dims := [], reset := 0x0, ro := 0x800000E7 },
   { off := 0x8, dims := [], reset := 0x0, w1c := 0xF },
   { off := 0x40, dims := [(0x4, 8)], reset := 0x0, ro := 0xFFFFFFFF },
   { off := 0x60, dims := [(0x4, 4)], reset := 0x3C0000, ro := 0x7000FFFF, rws := 0x80FF0000 },
   { off := 0x84, dims := [], reset := 0x8, rws := 0x8000001F },
   { off := 0x94, dims := [], reset := 0x0, ro := 0x80000000, w1c := 0xB },
   { off := 0x98, dims := [], reset := 0x0, rws := 0x3, secure := true },
   { off := 0xC, dims := [], reset := 0x0, rw := 0xF },
   { off := 0x80, dims := [], reset := 0x0, rws := 0xFFFFFFFF },
   { off := 0x88, dims := [], reset := 0x0, ro := 0xFFFF },
   { off := 0x8C, dims := [], reset := 0x0, rw := 0xFFFF }] ++
  [{ off := 0x90, dims := [], reset := 0x0, rw := 0xFFFFFFFF },
   { off := 0x9C, dims := [], reset := 0x0, wo := 0x1, secure := true },
   { off := 0xA0, dims := [], reset := 0x0, w1c := 0x80000000 }]

/-- Registers of `AGE` (R469). -/
def rowsAge : List RegRow :=
  [{ off := 0x0, dims := [], reset := 0x32143C, rws := 0xFFFFFF },
   { off := 0x4, dims := [], reset := 0x0, w1c := 0x1F },
   { off := 0x100, dims := [(0x20, 11)], reset := 0x0, ro := 0x8000FFFF },
   { off := 0x104, dims := [(0x20, 11)], reset := 0x3E80000, ro := 0xFFFF0737 },
   { off := 0x10C, dims := [(0x20, 11)], reset := 0x0, ro := 0x8000FFFF },
   { off := 0x8, dims := [], reset := 0x0, rw := 0x1F },
   { off := 0xC, dims := [], reset := 0x0, rws := 0xFFFFFFFF },
   { off := 0x10, dims := [], reset := 0x0, w1c := 0x87FF07FF },
   { off := 0x108, dims := [(0x20, 11)], reset := 0x0, rws := 0xFFFFFFFF },
   { off := 0x110, dims := [(0x20, 11)], reset := 0x0, rws := 0x8000FFFF },
   { off := 0x114, dims := [(0x20, 11)], reset := 0x0, rw := 0xFFFFFFFF }]

/-- Registers of `THM` (R447). -/
def rowsThm : List RegRow :=
  [{ off := 0x0, dims := [(0x4, 12)], reset := 0x0, ro := 0xC000FFFF },
   { off := 0x40, dims := [], reset := 0x17705F6E, rw := 0xFF, rws := 0xFFFFFF00 },
   { off := 0x48, dims := [], reset := 0x0, w1c := 0x1F },
   { off := 0x30, dims := [], reset := 0x0, ro := 0xFFFFF },
   { off := 0x44, dims := [], reset := 0x1770, ro := 0xFFFF },
   { off := 0x4C, dims := [], reset := 0x0, rw := 0x1F },
   { off := 0x50, dims := [], reset := 0x0, ro := 0xFFFF }]

/-- Registers of `PMU` (R446). -/
def rowsPmu : List RegRow :=
  [{ off := 0x0, dims := [], reset := 0x3, ro := 0x80000077 },
   { off := 0x4, dims := [], reset := 0x0, wo := 0x80000007, secure := true },
   { off := 0x8, dims := [], reset := 0x0, ro := 0x800000FF, w1c := 0x40000000 },
   { off := 0xC, dims := [], reset := 0x80000000, rw := 0xC000000F, secure := true },
   { off := 0x10, dims := [], reset := 0x0, w1c := 0xFB },
   { off := 0x20, dims := [], reset := 0x1, ro := 0xF7000000, w1c := 0x1FF },
   { off := 0x24, dims := [], reset := 0x0, ro := 0x80003F00, w1c := 0x3F },
   { off := 0x28, dims := [], reset := 0x0, ro := 0x40FF000F, w1c := 0x10, rws := 0x80000000 },
   { off := 0x2C, dims := [], reset := 0x0, ro := 0xE000003F, w1c := 0x100 },
   { off := 0x100, dims := [(0x20, 6)], reset := 0x0, rw := 0x7000FFFF, w1s := 0x80000000, secure := true },
   { off := 0x110, dims := [(0x20, 6)], reset := 0x0, ro := 0xC0000000, w1c := 0xF },
   { off := 0x14, dims := [], reset := 0x0, rws := 0xFFFFFFFF }] ++
  [{ off := 0x18, dims := [], reset := 0x0, rws := 0xFFFF },
   { off := 0x1C, dims := [], reset := 0x0, rws := 0x1 },
   { off := 0x30, dims := [], reset := 0x0, rw := 0x3FF },
   { off := 0x104, dims := [(0x20, 6)], reset := 0x0, rws := 0xFFFFFF },
   { off := 0x108, dims := [(0x20, 6)], reset := 0x0, wo := 0xFFFFFFFF },
   { off := 0x10C, dims := [(0x20, 6)], reset := 0x0, ro := 0xFFFFFF }]

/-- The registers of a block kind. -/
def Blk.rows : Blk → List RegRow
  | .tb => rowsTb
  | .tim => rowsTim
  | .evr => rowsEvr
  | .intc => rowsIntc
  | .mbx => rowsMbx
  | .dma => rowsDma
  | .qm => rowsQm
  | .ptab => rowsPtab
  | .conv => rowsConv
  | .cmp => rowsCmp
  | .awl => rowsAwl
  | .flc => rowsFlc
  | .pwm => rowsPwm
  | .fb => rowsFb
  | .senc => rowsSenc
  | .teth => rowsTeth
  | .girth => rowsGirth
  | .eth => rowsEth
  | .wmap => rowsWmap
  | .rgn => rowsRgn
  | .sec => rowsSec
  | .otp => rowsOtp
  | .boot => rowsBoot
  | .dbg => rowsDbg
  | .patch => rowsPatch
  | .rein => rowsRein
  | .memc => rowsMemc
  | .sadl => rowsSadl
  | .isl => rowsIsl
  | .stc => rowsStc
  | .age => rowsAge
  | .thm => rowsThm
  | .pmu => rowsPmu

/-- Offset `d` inside an array of registers is one of its registers. -/
def dimsHit : Nat → List (Nat × Nat) → Bool
  | d, [] => d = 0
  | d, (s, n) :: t => d / s < n && dimsHit (d % s) t

/-- The row of a block that holds offset `o`; a reserved offset has none (R8). -/
def Blk.rowAt (b : Blk) (o : Nat) : Option RegRow :=
  b.rows.find? (fun r => r.off ≤ o && dimsHit (o - r.off) r.dims)

/-- The physical address of offset `o` of instance `i` of a block. -/
def Blk.addr (b : Blk) (i o : Nat) : Nat := b.base + 0x10000 * i + o

/-- The block, instance and offset that a physical address names, if its 64 KiB slot is assigned (R336). -/
def blockAt (pa : Nat) : Option (Blk × Nat × Nat) :=
  match Blk.all.find? (fun b => b.base ≤ pa && pa < b.base + 0x10000 * b.count) with
  | some b => some (b, (pa - b.base) / 0x10000, pa % 0x10000)
  | none => none

/-- The reset value of the register at a physical address (its header line or summary row). -/
def regReset (pa : Nat) : Word :=
  match blockAt pa with
  | some (b, _, o) => (match b.rowAt o with | some r => w32 r.reset | none => 0)
  | none => 0

/-- The bits of a register that a read returns: all but reserved bits (R8) and write-only ones (R5). -/
def RegRow.readMask (r : RegRow) : Nat := r.rw ||| r.ro ||| r.w1c ||| r.w1s ||| r.rws ||| r.rwl

/-- What a write of `v` leaves in the register (R5): `sec` is the world of the write, `locked` the
block's `LOCK`. -/
def RegRow.write (r : RegRow) (old v : Word) (sec locked : Bool) : Word :=
  let sets := r.rw ||| (if sec then r.rws else 0) ||| (if locked then 0 else r.rwl)
  let keep := old &&& ~~~ (w32 sets)
  ((keep ||| (v &&& w32 sets)) ||| (v &&& w32 r.w1s)) &&& ~~~ (v &&& w32 r.w1c)

end Sys2Proof.Machine
end

