-- ==== Sys2Proof/Machine/Types.lean ====
section
/-! DEFINITION. The records of hidden state that the machine's tables hold, one for each kind of thing the
manual names.  Registers that software reads over the bus are in the register table of `State`; a
record here holds what lies behind them. -/

namespace Sys2Proof.Machine

/-! ### Processing elements (R32–R39, R86) -/

/-- The element's place in the element table, which is also its run-control number less the gap of
R476: engines 0–31, `AC_n` 32 + n, `SV` 36. -/
def elemIdx : Elem → Nat
  | .rein g => g.val
  | .ac n => 32 + n.val
  | .sv => 36

/-- One register set of a loop engine, or the registers of a core (R32, R86).  While a repeat is in progress
`pc` holds the address of its prefix (R66); `repSaved` is the `STATUS` word before the prefix until the
repeated instruction has run once (R64).  `pendSt` are the mode changes of R100 still in their window,
oldest first, with the instructions each still waits, and `pendWorld` the writes of `WORLD` that no `SYNC`
has completed; `progArm` says that the next instruction consumes `PROGRESS` (R88). -/
structure RegSet where
  g : Tbl Word := []
  acc0 : DWord := 0
  acc1 : DWord := 0
  pc : Word := 0
  status : Word := 0
  cause : Word := 0
  epc : Word := 0
  eva : Word := 0
  estatus : Word := 0
  ebank : Word := 0
  progress : Word := 0
  escr0 : Word := 0
  escr1 : Word := 0
  etime : Word := 0
  repSaved : Option Word := none
  pendSt : List (Word × Nat) := []
  pendWorld : List Word := []
  progArm : Bool := false
  deriving DecidableEq, Repr

/-- An element's reservation (R57): the aligned 32-byte granule and the word, by physical address. -/
structure Resv where
  granule : Nat
  word : Nat
  deriving DecidableEq, Repr

/-- A posted store that has not been acknowledged (R53): its target, its bytes, the virtual address for
`EVA`, the register set that issued it (R94), the world it carries, and what the read inside it finds when it covers
a word in part (R337). -/
structure Posted where
  pa : Nat
  bytes : List Byte
  va : Word
  set : Nat
  sec : Bool
  ecc : Ecc := .clean
  deriving DecidableEq, Repr

/-- How an access fails (R6, R337, R390): an error response, an uncorrectable memory error, or a refusal by
world or region. -/
inductive BusErr where
  | bus
  | ecc
  | world
  deriving DecidableEq, Repr

/-- An error response to a posted store, waiting for the run of its set (R94). -/
structure Imprecise where
  set : Nat
  va : Word
  err : BusErr
  deriving DecidableEq, Repr

/-- A run of a loop engine in progress, preempted or waiting in `WAITS` (R82, R83, R87, R238).  `acc` is
the count of its cycles in units of 1/800 cycle; `stamp` is the stamp of its wake, `sent` the number of
its `SETPT`s that have been answered (R249), and `stall` says that one waits for its answer. -/
structure Run where
  bank : Nat
  acc : Nat := 0
  ovb : Bool := false
  waiting : Option (BitVec 8) := none
  stamp : Word := 0
  sent : Nat := 0
  stall : Bool := false
  savedBank : Word := 0
  savedWorld : Word := 0
  deriving DecidableEq, Repr

/-- A leaf result held in a TLB (R349). -/
structure TlbEntry where
  vpage : Nat
  block : Bool
  frame : Nat
  mt : Nat
  xn : Bool
  ap : Nat
  deriving DecidableEq, Repr

/-- A table descriptor held in a walk cache: its level, the VA bits above that level, and the table it
names (R349). -/
structure WalkEntry where
  level : Nat
  tag : Nat
  table : Nat
  deriving DecidableEq, Repr

/-- A processing element.  `setA`, `setB` and `setC` are an engine's three register sets; a core has
`setA` alone.  `pendSr` are the writes of `TTB`, `XBLK_n` and `VECTOR` that no `SYNC` has completed, oldest
first, and `view` the values that the present instruction uses of those registers and of `WORLD` (R100);
`down` says that the core is powered down. -/
structure ElemState where
  setA : RegSet := {}
  setB : RegSet := {}
  setC : RegSet := {}
  cur : Nat := 0
  runA : Option Run := none
  runB : Option Run := none
  runC : Option Run := none
  bank : Word := 0
  world : Word := 1
  vector : Word := 0
  cycle : Word := 0
  cycRes : Nat := 0
  ttb : Word := 0
  xblk : Tbl Word := []
  resv : Option Resv := none
  pendSr : List (Nat × Word) := []
  view : List (Nat × Word) := []
  wq : List Posted := []
  imp : List Imprecise := []
  wfi : Bool := false
  released : Bool := false
  down : Bool := false
  halted : Bool := false
  tlb : List TlbEntry := []
  wcache : List WalkEntry := []
  icache : List Nat := []
  deriving DecidableEq, Repr

/-- A line of the application cluster's L1 data caches and L2 (R340, R341): the cores are coherent through
L2, so a line has one content; `owner` is the core whose L1 holds the latest copy, none for L2; `bad` is
where an uncorrectable error was found in it while it was dirty (R337). -/
structure Line where
  data : List Byte
  dirty : Bool := false
  owner : Option Nat := none
  bad : Option Nat := none
  deriving DecidableEq, Repr

/-! ### Time, events and messages -/

/-- A Selvedge compare slot (R113, R114): the value in effect, the staged low word, the step in effect,
`ARM`, what takes effect at the next tick, and the tick of the last firing. -/
structure Slot where
  value : DWord := 0
  staged : Word := 0
  per : Word := 0
  arm : Bool := false
  pendValue : Option DWord := none
  pendPer : Option Word := none
  pendArm : Option Bool := none
  firedAt : Option DWord := none
  deriving DecidableEq, Repr

/-- A general timer (R115–R118): count, reload value, prescaler, the `LOAD` and `CC_k` values in effect at
the last tick, the armed channels, the channels written since the last tick, and what the present tick
still owes. -/
structure Timer where
  count : Word := 0
  reload : Word := 0
  presc : Nat := 0
  starting : Bool := false
  reloadDue : Bool := false
  loadEff : Word := 0
  cc0 : Word := 0
  cc1 : Word := 0
  cc2 : Word := 0
  cc3 : Word := 0
  armed : BitVec 4 := 0
  written : BitVec 4 := 0
  zeroDue : Bool := false
  ticked : Bool := false
  deriving DecidableEq, Repr

/-- An occurrence in flight in the event router, with the fields its route had when it was raised (R122). -/
structure Flight where
  src : Nat
  kind : Nat
  dest : Nat
  sec : Bool
  slotSec : Bool
  deriving DecidableEq, Repr

/-! ### Banks, contexts and axes (R10, R36, R81, R229–R253) -/

/-- A context bank as its island steward and engine know it: the bound context with the `CLASS`, `WORLD`
and `PAIRED` of its binding (R230), the latched events with their stamps and `OVERRUN` (R81), the wake
mask, the fault cause (R238), the armed state of the `SP_DUE` compare with the tick of the delivery that armed it, and
the hold of R251. -/
structure BankSt where
  ctx : Option Nat := none
  second : Bool := false
  cls : Nat := 0
  world : Bool := false
  paired : Bool := false
  latched : List (Nat × Word) := []
  overrun : Bool := false
  mask : Nat := 0
  fault : Option Nat := none
  spArmed : Bool := false
  spAt : DWord := 0
  held : Bool := false
  deriving DecidableEq, Repr

/-- A migration (R28, R248–R251): source and destination bank, the journal's agent number, the step (0
ordered, 1 copy in progress, 2 destination bound and the shadow period due at the next boundary, 3 shadow
period, 4 the bundles match and the switch is due at the next boundary), whether an agent has written
the source during the copy, whether a period of the axis has begun during it, and whether a service's move waits for
its next run (R251). -/
structure Mig where
  src : Nat
  dst : Nat
  agent : Nat
  step : Nat := 0
  dirty : Bool := false
  crossed : Bool := false
  waitRun : Bool := false
  deriving DecidableEq, Repr

/-- A setpoint block: `SP_POS`, `SP_VEL`, `SP_TORQUE`, `SP_DUE`, `SP_SEQ` (R232). -/
structure Setpoint where
  pos : Word
  vel : Word
  torque : Word
  due : Word
  seq : Word
  deriving DecidableEq, Repr

/-- The answers to the `SETPT`s of a run of a context's first copy (R249): the stamp of the run's wake, the
answers in order, and whether the run has ended. -/
structure Span where
  stamp : Word
  answers : List Nat := []
  ended : Bool := false
  deriving DecidableEq, Repr

/-- The Saddler's record of a context (R239, R240): where it is placed (engine × 16 + bank), its second copy,
its migration, a pin change that waits, a balance order that lost to another agent and is retried (R29), its faulted banks with the oldest first, the queue manager's
latest accepted `SP_SEQ` and held blocks (R85), whether a block has been delivered since placement, a
`RELEASE` that waits for the run to end, and the `SETPT` answers of the latest runs of the first copy. -/
structure CtxSt where
  placed : Bool := false
  first : Nat := 0
  second : Option Nat := none
  mig : Option Mig := none
  pinDue : Bool := false
  lost : Option Mig := none
  faults : List Nat := []
  lastSeq : Option Word := none
  held : List Setpoint := []
  delivered : Bool := false
  releasing : Bool := false
  spans : List Span := []
  deriving DecidableEq, Repr

/-- A sample that has had no answer yet (R256, R257): its `SAMPLE_TIME`, its commit deadline, and whether
its miss has been recorded. -/
structure OpenSample where
  time : DWord
  deadline : DWord
  missed : Bool := false
  deriving DecidableEq, Repr

/-- The compare of one sample of an axis (R250, R252, R253): the commit deadline at which a missing bundle shows, whether
the sample is that of a shadow period, the first bundles since of the first copy, of the second copy and of a migration's
destination, each with its arrival, whether the pair has been compared, and whether the deadline has passed. -/
structure Compare where
  deadline : DWord
  shadow : Bool := false
  a : Option (List Byte × DWord) := none
  b : Option (List Byte × DWord) := none
  c : Option (List Byte × DWord) := none
  paired : Bool := false
  ended : Bool := false
  deriving DecidableEq, Repr

/-- An axis (R27, R245, R248, R250, R252, R253, R257): its quiet window and gap, the samples without an answer, the
compares that are not over, whether the first and the second copy have committed since the last sample, whether a
paired fault puts the outputs into the safe state at the next coarse tick, and whether a placement action has touched the
axis in this period. -/
structure AxisSt where
  quietEnd : Option DWord := none
  gapEnd : Option DWord := none
  samples : List OpenSample := []
  cmps : List Compare := []
  doneA : Bool := false
  doneB : Bool := false
  pairSafe : Bool := false
  acted : Bool := false
  deriving DecidableEq, Repr

/-- An installed program (R233). -/
structure Prog where
  src : Nat
  len : Nat
  dst : Nat
  entry : Word
  world : Bool
  priv : Bool
  deriving DecidableEq, Repr

/-- A bundle that has crossed the edge port and has not reached its bridge or link group (R84): its axis,
its 16 bytes, the bank that committed it, and whether a `CLRSAFE` of its axis has been accepted since (R186,
R290). -/
structure EdgeFlight where
  axis : Nat
  bytes : List Byte
  bank : Nat
  old : Bool := false
  deriving DecidableEq, Repr

/-! ### Converters, comparators and bridges (R132–R158, R159–R193) -/

/-- What lies behind a converter's registers (R143–R149): the end of its last passed calibration on the full
Selvedge count, its consecutive missing results, whether its last completed calibration passed and was
not rejected, for how many more steps the rotation does not choose it, whether its trim limit has
been recorded (R457), and the tick at which the calibration in progress may end (R145). -/
structure Converter where
  passedAt : DWord := 0
  missing : Nat := 0
  good : Bool := false
  skipHold : Nat := 0
  trimLim : Bool := false
  calDue : DWord := 0
  deriving DecidableEq, Repr

/-- A rotation step in progress (R145, R148, R149): the outgoing and incoming converter, the channels still
to hand over (the one in progress first), those taken, and the present run of lost periods. -/
structure Handover where
  out : Nat
  inc : Nat
  todo : List Nat
  taken : List Nat := []
  losses : Nat := 0
  deriving DecidableEq, Repr

/-- A sample between its instant and t + 38 (R134, R135): the bridge, the instant, the converters that hold
its three channels, and the second converter of an overlap sample. -/
structure SampleRun where
  bridge : Nat
  time : DWord
  first : List Nat
  second : List (Option Nat)
  deriving DecidableEq, Repr

/-- A window that a comparator input has had until a write (R150): the soft and the hard `HI` and `LO`, `HYST`, and
the coarse tick from which the outputs follow what the write has put in its place. -/
structure PastWindow where
  soft : Nat
  hard : Nat
  hyst : Nat
  until_ : Nat
  deriving DecidableEq, Repr

/-- A threshold sweep (R154): the input, whether the hard comparator is swept, the mean code / 16, the steps
made, the tick at which the next one ends, and the first step at which each threshold crossed. -/
structure Sweep where
  input : Nat
  hard : Bool
  m : Nat
  step : Nat := 0
  due : DWord := 0
  hiAt : Option Nat := none
  loAt : Option Nat := none
  deriving DecidableEq, Repr

/-- The converter pool, the sample port and the comparators.  `prev` is the value last written for each channel; `seq` the `SEQ` of each axis slot (R141); `hist` the last
corrected samples of each channel, newest first (R154); `softRaw` and `hardRaw` the comparators' outputs
before enables and blanking; `tripIn` the level of each trip input as it is sampled and `tripSince` the coarse tick of
its first sample (R152); `level` the level of each comparator input in 1/16 threshold step, and `windows`
the thresholds that its outputs still follow after a write (R150), oldest first; `tripAct` the filtered trip inputs; `blankEnd` the coarse tick at which each bridge's blanking ends; `unbind` the bridges
whose channels are unbound at the next boundary; `instant` the `AT` of each bridge's accepted enable (R137); `acq`
the acquisitions that are open (R135), each with the instant to come; `nextStep` the next step time of the rotation (R145). -/
structure ConvSt where
  cvs : Tbl Converter := []
  step : Option Handover := none
  runs : List SampleRun := []
  prev : Tbl Word := []
  seq : Tbl Nat := []
  hist : Tbl (List Nat) := []
  softRaw : Tbl Bool := []
  hardRaw : Tbl Bool := []
  level : Tbl Nat := []
  windows : Tbl (List PastWindow) := []
  tripAct : Tbl Bool := []
  tripIn : Tbl Bool := []
  tripSince : Tbl Nat := []
  blankEnd : Tbl Nat := []
  sweep : Option Sweep := none
  unbind : List Nat := []
  instant : Tbl Nat := []
  acq : List SampleRun := []
  nextStep : DWord := 0
  deriving DecidableEq, Repr

/-- A set of staged or committed items of a bridge, each with its generation (R172); `gen` is the
generation of the commit, `old` marks a set committed before an accepted `CLRSAFE` (R186). -/
structure PwmSet where
  period : Option (Word × Word) := none
  a : Option (Word × Word) := none
  b : Option (Word × Word) := none
  c : Option (Word × Word) := none
  gen : Word := 0
  old : Bool := false
  deriving DecidableEq, Repr

/-- One leg of a bridge (R166, R177–R179): the active edges ON (low half) and OFF and their generation, which
of the two have fired in this period, when the ON fired and whether a cancelled gap joins it to the pulse before, the high-side request, what a short-pulse policy or a
carry puts in place of the OFF (in fine steps from carrier start), before when the next ON must not fire, a
dropped pulse or gap, whether the edges are those from before an accepted `CLRSAFE` (R186), and for each
output whether it is on and when it is due to turn on, in fine steps of the coarse-tick count. -/
structure Leg where
  edges : Word := 0
  gen : Word := 0
  onFired : Bool := false
  offFired : Bool := false
  req : Bool := false
  onT : Nat := 0
  joined : Bool := false
  offAt : Option Nat := none
  onMin : Option Nat := none
  dropOff : Bool := false
  skipOn : Bool := false
  stale : Bool := false
  hi : Bool := false
  lo : Bool := false
  hiDue : Option Nat := none
  loDue : Option Nat := none
  deriving DecidableEq, Repr

/-- The sources of a bridge's outputs as they are in effect in the present coarse tick (R182): the safe state
with its levels, the wait after `CLRSAFE`, `FORCE`, and the cycle-by-cycle off state. -/
structure Shown where
  safe : Bool := false
  levels : Nat := 0
  await : Bool := false
  force : Word := 0
  cycleOff : Bool := false
  deriving DecidableEq, Repr

/-- A bridge (R162–R189): whether its carrier waits for its first boundary or runs, the count and length of
the present period, the effective phase waiting for a boundary, a boundary or a cut tick that is due, the
active period, the period due at the next boundary, and the generation, staged items, the sets in effect from
the next tick and from the next boundary, those that arrived in a boundary tick before the boundary, whether
this period has had a bundle, the legs, whether nothing has transferred since `EN`, the wait after `CLRSAFE`,
the run of repeated periods, the periods left of a halt hold, the tick at which a halt was seen, the
cycle-by-cycle off state, the sources in effect, and whether its balls are driven (R493).  For each output:
`taps` the elements of its last edge's delay (R180), `edgeAt` the coarse tick of its last edge plus 1, `winAt`
the last tick known to end an edge-free window, and `measAt` that of its last measurement (R181). -/
structure Bridge where
  waiting : Bool := false
  count : Nat := 0
  len : Nat := 4000
  boundaryDue : Bool := false
  cutReq : Bool := false
  cutDue : Bool := false
  cut : Bool := false
  phase : Option Nat := none
  stepping : Option Nat := none
  period : Word := 4000
  perNext : Option Word := none
  pgen : Word := 0
  lastGen : Word := 0
  staged : PwmSet := {}
  relOk : Bool := false
  now : Option PwmSet := none
  next : Option PwmSet := none
  early : List PwmSet := []
  served : Bool := false
  legA : Leg := {}
  legB : Leg := {}
  legC : Leg := {}
  fresh : Bool := true
  await : Bool := false
  repeats : Nat := 0
  haltHold : Option Nat := none
  haltAt : Option Nat := none
  cycleOff : Bool := false
  shown : Shown := {}
  driven : Bool := false
  tripSoft : Bool := false
  tripHard : Bool := false
  pendN : Tbl (Option Word) := []
  rbRun : Tbl Nat := []
  trimLim : List Nat := []
  swapAt : Tbl DWord := []
  taps : Tbl Nat := []
  edgeAt : Tbl Nat := []
  winAt : Tbl Nat := []
  measAt : Tbl Nat := []
  deriving DecidableEq, Repr

/-! ### Position feedback and the mark unit (R194–R228) -/

/-- A counted edge: its edge time and the linear position after it (R208). -/
structure CountEdge where
  time : DWord
  pos : Int
  deriving DecidableEq, Repr

/-- A feedback block between its capture and its write, which is due at a Selvedge tick (R195, R198, R211). -/
structure FbLatch where
  pos : Word
  turns : Word
  speed : Word
  time : DWord
  flags : Word
  due : Nat
  deriving DecidableEq, Repr

/-- A local feedback unit (R199–R209): `POSITION` and `TURNS`, the level at each ball (Z, B, A), homing armed,
the net counts since the last index with a reversal in that interval, whether the next index skips the line
check, the last counted edge, the reference edge, the last count's sign, the time of a reversal edge that
stands in for tE, whether the next edge becomes the reference, the `FB_STATUS` flags since the last write,
the index snapshot pair, a load due at the next tick, a capture that is due, the latched blocks, oldest first, the
linear position at the end of the previous tick (R221), the time of the enable or load that the counts start from,
the ball levels of the last coarse tick that `GPIO.IN` shows, and for each input the coarse tick at which the filter
has first sampled its present level (R200). -/
structure FbUnit where
  pos : Word := 0
  turns : Word := 0
  pins : BitVec 3 := 7
  since : Tbl Nat := []
  armed : Bool := false
  net : Int := 0
  reversed : Bool := false
  skipIdx : Bool := true
  last : Option CountEdge := none
  ref : Option CountEdge := none
  sign : Option Bool := none
  revTime : Option DWord := none
  newRef : Bool := false
  flags : Word := 0
  idxPos : Word := 0
  idxTurn : Word := 0
  loadDue : Bool := false
  capDue : Bool := false
  latches : List FbLatch := []
  lEnd : Int := 0
  t0 : DWord := 0
  inp : BitVec 3 := 0
  deriving DecidableEq, Repr

/-- A serial encoder port (R211–R217): a capture that is due, the capture time and the coarse tick of the first `MA`
edge of the frame in progress, until when the timeout or monoflop time runs and whether `SL` has not returned high
when it ends, the flags of blocks that were not written (R196), the last valid values with their capture time, whether their turn count is saturated, the last frame's
data, a block between the frame's end and its write, and of a register access whether it writes, the CDM bits that it
sends and the CDS bits that have come. -/
structure SencPort where
  capDue : Bool := false
  start : DWord := 0
  began : Nat := 0
  busyUntil : DWord := 0
  noBack : Bool := false
  kept : Word := 0
  valid : Option CountEdge := none
  pos : Word := 0
  turns : Word := 0
  speed : Word := 0
  turnSat : Bool := false
  raw : DWord := 0
  latch : Option FbLatch := none
  accWrite : Bool := false
  cdm : List Bool := []
  cds : List Bool := []
  deriving DecidableEq, Repr

/-- An armed mark entry: its four words (R218). -/
structure MarkEntry where
  w0 : Word
  w1 : Word
  w2 : Word
  w3 : Word
  deriving DecidableEq, Repr

/-- A track (R219–R222): the armed entry and the coarse tick that armed it, the entry that is to be armed at
a tick, the scheduled tick of a prediction, whether it is late, and `LIMIT` as it is in effect. -/
structure Track where
  entry : Option MarkEntry := none
  armedAt : Nat := 0
  armAt : Option Nat := none
  sched : Option Nat := none
  schedLate : Bool := false
  limit : Nat := 0
  deriving DecidableEq, Repr

/-- A mark output's pulse: active from one coarse tick up to another (R223). -/
structure Pulse where
  start : Nat
  stop : Nat
  deriving DecidableEq, Repr

/-- Feedback units, encoder ports, the `SEQ` of each slot's feedback block (R196), the tracks and the mark
outputs. -/
structure FeedSt where
  fbs : Tbl FbUnit := []
  sencs : Tbl SencPort := []
  seq : Tbl Nat := []
  tracks : Tbl Track := []
  marks : Tbl (Option Pulse) := []
  deriving DecidableEq, Repr

/-! ### Tether links (R267–R293) -/

/-- A step of bring-up that the link group still has to do (R276): read a station register, measure one round
trip, or write a station register. -/
inductive AlignStep where
  | read (addr : Nat)
  | echo
  | write (addr : Nat)
  deriving DecidableEq, Repr

/-- A station register access in progress (R291): register, data and tag, when it was sent, and whether it is
the second try (R276). -/
structure LinkAcc where
  addr : Nat
  data : Word
  write : Bool
  tag : Nat
  sent : DWord
  again : Bool := false
  deriving DecidableEq, Repr

/-- A downstream cell that waits for the line: its place in the order of R280 and its bytes 0 to 13. -/
structure LinkCell where
  prio : Nat
  bytes : List Byte
  deriving DecidableEq, Repr

/-- An axis of a link: the number of the period of its last sample, whether an answer has been sent in the
present loop period, the edge fields of the active bundle and of the bundle for a later period, the run of
periods without an answer, the `CLEAR` cells sent since an accepted `CLRSAFE` that the station has not
confirmed, the last `SPEED` with the feedback it counts from, the periods left of a halt hold, the tick of
the last loop period, the `AXCFG_a` last sent, the sample instant of the station that has passed and whose `SAMPLE`
cell has not come, with its period (R283), and the period of the oldest sample that has come since the axis's last
bundle (R257, R284). -/
structure LinkAx where
  period : Nat := 0
  answered : Bool := true
  active : List Byte := []
  pend : Option (Nat × List Byte) := none
  repeats : Nat := 0
  clearing : Option Nat := none
  speed : Word := 0
  lastFb : Option CountEdge := none
  haltHold : Option Nat := none
  loopAt : Option DWord := none
  cfgSent : Option Word := none
  opened : Option (Nat × DWord) := none
  asked : Option Nat := none
  deriving DecidableEq, Repr

/-- A symbol on a Tether line (R268): a data byte, the comma K28.5, the start of a cell K27.7. -/
inductive LineSym where
  | data (b : Byte)
  | k28_5
  | k27_7
  deriving DecidableEq, Repr

/-- What a link transmits (R270, R274, R275): electrical idle, TSA, TSB, or idles and cells. -/
inductive LinkTx where
  | idle | tsa | tsb | cells
  deriving DecidableEq, Repr

/-- A link: when the last valid upstream cell arrived and the last downstream cell started, the 16 bytes of
that cell, the cells that wait, the `TIME` cells whose `ECHO` is awaited (T, transmit stamp), the last
RTTs, the steps of bring-up still to do, the link group's own access and that of `REGCMD`, the last tag,
the last echo request, and the axes; the symbols sent since the last K28.5 at the end of that cell (R269), the code
group on the transmit pair, none in electrical idle, its running disparity and what is left to send of an ordered set; and
the times of the last symbol errors received and the tick from which the symbols received count (R274). -/
structure Link where
  lastUp : DWord := 0
  started : DWord := 0
  line : List Byte := []
  queue : List LinkCell := []
  echoes : List (DWord × DWord) := []
  rtts : List Int := []
  todo : List AlignStep := []
  own : Option LinkAcc := none
  cmd : Option LinkAcc := none
  tag : Nat := 0
  echoAt : DWord := 0
  axes : Tbl LinkAx := []
  run : Nat := 0
  code : Option (BitVec 10) := none
  rd : Bool := false
  set : List LineSym := []
  errs : List DWord := []
  rxFrom : DWord := 0
  deriving DecidableEq, Repr

/-! ### Queues, the feeder bus and the cabinet network (R294–R334) -/

/-- An attempt on the feeder bus that has had no outcome: node, partner, whether it is a `NOP`, its `SEQ` and
opcode, and whether its element is still at the head of the partner's transmit queue. -/
structure GirthTry where
  node : Nat
  partner : Nat
  nop : Bool
  seq : Nat
  opcode : Nat
  held : Bool := true
  deriving DecidableEq, Repr

/-- A Girth port (R310–R314): a cycle start of its slot that is due, the next schedule entry of the walk, the
effective schedule bank, the attempt in progress, a cycle start that waits for its end, and for each node
its `SEQ`, its consecutive failed attempts and the last `NSTAT` pushed; the last frame sent, the tick at which its last
stop bit ends, and the tick at which the guard ends.
`safe`: the nodes that have had the `SAFE` of a SAFE_HOLD entry, none when none is owed (R425); `tries` and `eseqs`: the
failed attempts of a partner's head element at a node, and the `SEQ` that it took at its first attempt (`elemKey`). -/
structure GirthPort where
  safe : Option (List Nat) := none
  eseqs : Tbl (Option Nat) := []
  startDue : Bool := false
  walk : Option Nat := none
  bank : Bool := false
  attempt : Option GirthTry := none
  again : Bool := false
  seqs : Tbl Nat := []
  tries : Tbl Nat := []
  fails : Tbl Nat := []
  nstat : Tbl (Option Nat) := []
  line : List Byte := []
  sent : DWord := 0
  idle : DWord := 0
  deriving DecidableEq, Repr

/-- A mapping of network time to Selvedge (R320). -/
structure TimeMap where
  gt : DWord := 0
  gs : DWord := 0
  spn : Word := 0xCCCCCCCD
  deriving DecidableEq, Repr

/-- A frame that a port transmits: its queue, the address of its element, the tick at which the first bit of its
destination address leaves, and its bytes with the FCS. -/
structure EthTx where
  queue : Nat
  elem : Nat
  started : DWord
  frame : List Byte
  deriving DecidableEq, Repr

/-- An Ethernet port (R317–R329): the mapping in effect and one due at the next tick, the time of the switch to
the admin list, the start of the operational list, the frame in transmission, the last queue served in
each class, the identification of the next IPv4 header, the tick from which the line is free for a frame, and the
management access in progress as it was started. -/
structure EthPort where
  map : TimeMap := {}
  mapDue : Option TimeMap := none
  switchAt : Option DWord := none
  operStart : DWord := 0
  tx : Option EthTx := none
  rr : Tbl Nat := []
  ident : Nat := 0
  gap : DWord := 0
  mdio : Word := 0
  deriving DecidableEq, Repr

/-- An accepted `SETPOINT` frame whose records the queue manager has not all taken (R326): its port, the tick
at which it ended, its partner with words 0 and 4 of the entry as read, whether its times are network
times, the mapping from its first record on, and the records left. -/
structure InjFrame where
  port : Nat
  ended : DWord
  chan : Nat
  word0 : Word
  word4 : Word
  tbase : Bool
  map : Option TimeMap
  records : List (List Byte)
  deriving DecidableEq, Repr

/-- The notify FIFOs of the five targets (R303), the frames whose records are to be injected, and the ports. -/
structure PortSt where
  notify : Tbl (List Nat) := []
  inject : List InjFrame := []
  girth : Tbl GirthPort := []
  eth : Tbl EthPort := []
  deriving DecidableEq, Repr

/-! ### Memory control, DMA and flash (R337–R389) -/

/-- A scatter/gather list being consumed (R357): the next entry, and the address and bytes left of the present
one. -/
structure SgPos where
  next : Nat
  addr : Nat
  left : Nat
  deriving DecidableEq, Repr

/-- A descriptor in progress (R358): its address in the ring, its eight words, the bytes moved, the lists, and the
code it ends with once its moving is over (0 for none). -/
structure DmaRun where
  entry : Nat
  desc : List Word
  moved : Nat := 0
  src : Option SgPos := none
  dst : Option SgPos := none
  ends : Option Nat := none
  deriving DecidableEq, Repr

/-- A DMA channel: idle on a descriptor it does not own, a descriptor that waits for a request (R358), and the
descriptor in progress. -/
structure DmaChan where
  idle : Bool := false
  held : Option DmaRun := none
  run : Option DmaRun := none
  deriving DecidableEq, Repr

/-- The DMA engine and the memory controllers: the channels, the channel served last (R361), the next word of
each scrubber's pass and the tick of its last read (R338), the number of the boot's keys for encrypted regions (R400), and a training of
the LPDDR 4X interface in progress (R355). -/
structure DmaSt where
  chans : Tbl DmaChan := []
  last : Nat := 0
  scrubS : Nat := 0
  scrubD : Nat := 0
  readS : DWord := 0
  readD : DWord := 0
  xtsKey : Nat := 0
  training : Bool := false
  deriving DecidableEq, Repr

/-- An operation in a flash bank (R375–R380): 0 none, 1 program, 2 erase, 3 suspended erase; its sector and
completed pulses, the tick at which a program or the present erase pulse began, what a program writes where, the
mailbox channel of its caller, and the code of an erase whose pulses are over. -/
structure FlashOp where
  kind : Nat := 0
  sector : Nat := 0
  pulses : Nat := 0
  began : DWord := 0
  addr : Nat := 0
  data : List Byte := []
  chan : Option Nat := none
  ends : Option Nat := none
  deriving DecidableEq, Repr

/-- The flash: the operation of each bank, the torn sectors, the sectors whose contents are not defined, the
open records of the erase journal, the records of its two copies (start or end, and sector) and the copy in use (R383), the line buffers and branch cache with the newest line first (R371), and
each master's last fetch. -/
structure FlashSt where
  ops : Tbl FlashOp := []
  torn : List Nat := []
  undef : List Nat := []
  journal : List Nat := []
  copies : List (List (Bool × Nat)) := [[], []]
  copy : Nat := 0
  bufs : Tbl (List Nat) := []
  branch : List Nat := []
  fetched : Tbl Nat := []
  deriving DecidableEq, Repr

/-! ### Boot and security (R390–R418) -/

/-- A network boot (R412): in progress, `NEXT`, `TOTAL` and the host's MAC once they are fixed, the `BOOTREQ`
frames since the last answer, the `SEQ` of the next frame sent, the last `BOOTACK` (`NEXT`, `STATUS`), the
last frame sent, the tick of the last `BOOTDATA`, and that of the next `BOOTREQ`. -/
structure NetBoot where
  active : Bool := false
  next : Nat := 0
  total : Nat := 0
  host : Option Nat := none
  reqs : Nat := 0
  seq : Nat := 0
  ack : Option (Nat × Nat) := none
  line : List Byte := []
  last : DWord := 0
  reqAt : DWord := 0
  deriving DecidableEq, Repr

/-- A call that waits for the monitor (R414): the routine's number (0 `TV_SERVE`), the channel of a `TV_SERVE`, the
arguments of a direct call, and what its programming and the memory it reads will show. -/
structure MonCall where
  no : Nat
  chan : Nat := 0
  arg : List Word := []
  ok : Bool := true
  ecc : Ecc := .clean
  deriving DecidableEq, Repr

/-- Boot and security: the slot recorded as booted at the last boot and whether the reset was a wake from
HIBERNATE (R424), the level of the straps `BOOT_1:0`, the lifecycle as latched at reset and the debug
grants (R403, R417), whether the monitor has run its boot sequence since reset, the network boot, and the calls that wait
for the monitor, oldest first (R414). -/
structure SecSt where
  slot : Option Nat := none
  hib : Bool := false
  straps : BitVec 2 := 0
  lc : Nat := 0
  grants : BitVec 2 := 3
  booted : Bool := false
  net : NetBoot := {}
  calls : List MonCall := []
  deriving DecidableEq, Repr

/-! ### Power, watchdogs, ageing, tests and debug (R419–R489) -/

/-- A watchdog (R442–R444): the ticks of 10 µs left and those since the last reload, whether the closed part of
the window applies to the next service, whether the warning has been given since the last reload, whether a
violation waits for a correct service, and whether a debug halt has frozen it. -/
structure Wdg where
  count : Nat := 0
  since : Nat := 0
  closed : Bool := true
  warned : Bool := false
  violated : Bool := false
  frozen : Bool := false
  deriving DecidableEq, Repr

/-- The power management unit: a request for STANDBY (2) or HIBERNATE (1) with the tick of its writing (R421),
the full alarm and whether it is armed (R422), the watchdogs, the millisecond count of R435, the tick of the
last fallback caused by the rail (R437), the copy of `MEMC.CFG` and whether LPDDR 4X contents were kept
(R424), whether a thermal reset is being held (R429), whether every supply but `VDD_AON` is in range (R497), the 10 ms
readings of the always-on sensor since the entry to a sleep (R439), the ticks of the present 10 µs step of the watchdogs, the
wake sources that have come since the fast clocks stopped (bits of `WAKESTAT`), and the ticks of the last reset
(R428), budget update (R435) and temperature measurement (R439), and for each island with a clock step or a trim step to
take the tick from which its time counts (R432, R433). -/
structure PowerSt where
  entry : Option (Nat × DWord) := none
  alarm : BitVec 48 := 0
  armed : Bool := false
  wdgs : Tbl Wdg := []
  ms : Nat := 0
  railAt : Option DWord := none
  memcCopy : Word := 0x50000000
  ddrKept : Bool := false
  held : Bool := false
  rails : Bool := true
  aonReads : Nat := 0
  presc : Nat := 0
  wake : Nat := 0
  resetAt : DWord := 0
  budgetAt : DWord := 0
  tempAt : DWord := 0
  clkAt : Tbl (Option DWord) := []
  trimAt : Tbl (Option DWord) := []
  deriving DecidableEq, Repr

/-- A ledger unit (R448–R455): the margins of the last 24 h of RUN and BOOST, newest first, the 100 ms
measurements in a row at or above `FLOOR` + `HYST`, the measurements since the last step of R451, the
ceilings before each clock step taken, newest first, and how far R455 has gone (1 stepped through, 2 reported). -/
structure AgeUnit where
  margins : List Int := []
  calm : Nat := 0
  since : Nat := 9
  ceils : List Nat := []
  crit : Nat := 0
  stepAt : DWord := 0
  deriving DecidableEq, Repr

/-- Stitch check (R458–R463): the tick at which the evacuation in progress is abandoned, whether a request has
stopped the test in progress (R460), the deferral periods
whose starvation has been recorded, the cores in BIST, the end of each core's last BIST, the ticks of operation of the
present second (R449), the islands whose test has completed, the oldest first (R458), and the ticks of the last measurement of the margins (R448), projection (R450) and choice of an
island (R458). -/
structure TestSt where
  evacEnd : Option DWord := none
  stopped : Bool := false
  starved : List Nat := []
  bist : List Nat := []
  bistAt : Tbl (Option DWord) := []
  second : Nat := 0
  tested : List Nat := []
  marginAt : DWord := 0
  projAt : DWord := 0
  selectAt : DWord := 0
  deriving DecidableEq, Repr

/-- The debug port (R471–R486): the instruction of the TAP as it acts, the boundary register's cells by number,
the status and data of `ACC`, the elements (by run-control number) with a halt that waits for a boundary and
its reason, those that execute one step, the trace packets by place, and the next sequence number; whether a break or
watch unit has fired for the instruction in progress (R483), the bit in the bypass register (R472), and what the last
scan of a data register shifted out, the first bit lowest. -/
structure DbgSt where
  ir : Nat := 2
  cells : Tbl Bool := []
  accStat : Nat := 0
  accData : Word := 0
  want : List (Nat × Nat) := []
  steps : List Nat := []
  packets : Tbl (List Word) := []
  seq : Nat := 0
  fired : Bool := false
  bypass : Bool := false
  shifted : Nat := 0
  deriving DecidableEq, Repr

/-! ### Groups of state -/

/-- Selvedge, the slow clock, compare slots, timers, the router, the controllers' samples and the
snapshots (R102–R131).  `run`: the fast clocks run; `s0`, `a0`: what R109 recorded at the suspend;
`ports`: the latest reading of each time port (R105); `caps`: the captured Selvedge values;
`dmaReq`: the request latched for each DMA channel (R358);
`snap`: each master's snapshot in each block (R107); `sendSec`: the world of each mailbox channel's last
`SEND` (R414); `slowPer`: the Selvedge ticks that 32,768 slow ticks last, which the crystals give; `slowRes`: how far the
present slow tick has run, in 1/32,768 Selvedge tick; `measOn`: a run of R110 is under way; `measTicks`, `measSlow`: its
Selvedge ticks and slow ticks; `acCyc`: the clock of the application cluster in 1/800 cycle; `sampledAt`,
`edgeAt`: for each controller and source the controller cycle, plus 1, of the last sample and of the last
rising edge (R127). -/
structure TimeSt where
  selvedge : DWord := 0
  run : Bool := true
  slow : BitVec 48 := 0
  s0 : DWord := 0
  a0 : BitVec 48 := 0
  slowPer : Nat := 800000000
  slowRes : Nat := 0
  measOn : Bool := true
  measTicks : Nat := 0
  measSlow : Nat := 0
  slots : Tbl Slot := []
  timers : Tbl Timer := []
  flights : List Flight := []
  acCyc : Nat := 0
  samples : Tbl Bool := []
  sampledAt : Tbl Nat := []
  edgeAt : Tbl Nat := []
  ports : Tbl DWord := []
  caps : Tbl DWord := []
  dmaReq : Tbl Bool := []
  snap : Tbl Word := []
  sendSec : Tbl Bool := []
  deriving DecidableEq, Repr

/-- The processing elements and the application cluster's cache. -/
structure CoreSt where
  elems : Tbl ElemState := []
  cache : Tbl (Option Line) := []
  deriving DecidableEq, Repr

/-- Banks (engine × 16 + bank), contexts, axes, programs, the bundles in flight, and the busy cycles (in
1/800 cycle) of each engine in the present 10 ms interval. -/
structure AxisArea where
  banks : Tbl BankSt := []
  ctxs : Tbl CtxSt := []
  axes : Tbl AxisSt := []
  progs : Tbl (Option Prog) := []
  edges : List EdgeFlight := []
  busy : Tbl Nat := []
  balanced : Option DWord := none
  overload : List Nat := []
  deriving DecidableEq, Repr

end Sys2Proof.Machine
end

