-- ==== Sys2Proof/Machine/State.lean ====
section
/-! DEFINITION. The state of the Olidon 7128 as plain data, its state after reset, the accessors and updates
of its tables, and the closed lists of faults and refusals. -/

namespace Sys2Proof.Machine

/-- What the last bus access of an outside master answered (R6, R7, R335, R337, R390). -/
inductive Resp where
  | none
  | ok (v : Word)
  | err
  | ecc
  | world
  deriving DecidableEq, Repr

/-- The block's state. -/
structure State where
  /-- The commands that wait, first in, first out (the model's own). -/
  pending : List Instr := []
  /-- The answer to the latest register or memory access made by a command (the model's own). -/
  resp : Resp := .none
  /-- The count of free values taken so far (the model's own, log entry 1). -/
  free : Nat := 0
  /-- Every register of the peripheral, Bridle and always-on windows, by physical address. -/
  regs : Tbl Word := []
  /-- Every byte of memory, by physical address (R335). -/
  mem : List Host.Cell := []
  /-- Words with poisoned check bits, by physical address (R337). -/
  poison : List Nat := []
  time : TimeSt := {}
  core : CoreSt := {}
  axis : AxisArea := {}
  conv : ConvSt := {}
  feed : FeedSt := {}
  /-- The number of the next fault record (R466). -/
  faultSeq : Nat := 0
  /-- Faults of the outputs on their way to the test steward: code, unit, severity, detail. -/
  faultQueue : List (Nat × Nat × Nat × Nat) := []
  /-- The twelve bridges. -/
  pwm : Tbl Bridge := []
  /-- What boundary scan drives onto the PWM balls, by bridge × 6 + output (R473). -/
  ballScan : Tbl (Option Bool) := []
  /-- The sixteen Tether links. -/
  teth : Tbl Link := []
  ports : PortSt := {}
  dma : DmaSt := {}
  flash : FlashSt := {}
  sec : SecSt := {}
  power : PowerSt := {}
  /-- The eleven ledger units. -/
  age : Tbl AgeUnit := []
  test : TestSt := {}
  dbg : DbgSt := {}
  deriving DecidableEq, Repr

/-- Faults: none of the block's commands ends in one (log entry 3). -/
inductive Fault where
  /-- No command raises it: the spec's error responses and exceptions are effects on the state.  Safe. -/
  | never
  deriving DecidableEq, Repr

/-- Refusals. -/
inductive Refusal where
  /-- A command that has no meaning yet; raised by `exec` alone.  Safe. -/
  | notModelled (mnemonic : String)
  deriving DecidableEq, Repr

/-- The register set of element `i` after reset: `STATUS` is 0x100 on application cores and 0x300 on
engines and the supervisor (R35). -/
def RegSet.reset (i : Nat) : RegSet :=
  { status := if 32 ≤ i ∧ i < 36 then 0x100 else 0x300 }

/-- Element `i` after reset.  `SV` runs from reset release (R410); an application core waits for its
release (R418), an engine for its first event. -/
def ElemState.reset (i : Nat) : ElemState :=
  { setA := RegSet.reset i, setB := RegSet.reset i, setC := RegSet.reset i, released := i = 36 || i < 32 }

/-- The machine right after reset. -/
def State.reset : State := {}

/-! ### Accessors and updates -/

/-- The register at a physical address. -/
def State.rg (s : State) (a : Nat) : Word := Tbl.get regReset s.regs a
/-- Puts a value into the register at a physical address, as the block itself does. -/
def State.setRg (s : State) (a : Nat) (v : Word) : State := { s with regs := Tbl.set regReset s.regs a v }
/-- Sets or clears one bit of a register. -/
def State.setRgBit (s : State) (a i : Nat) (b : Bool) : State := s.setRg a (setBit (s.rg a) i b)
/-- Sets field `[hi:lo]` of a register. -/
def State.setRgFld (s : State) (a hi lo v : Nat) : State := s.setRg a (setFld (s.rg a) hi lo v)

/-- Element number `i`. -/
def State.el (s : State) (i : Nat) : ElemState := Tbl.get ElemState.reset s.core.elems i
/-- Replaces element number `i`. -/
def State.setEl (s : State) (i : Nat) (e : ElemState) : State :=
  { s with core.elems := Tbl.set ElemState.reset s.core.elems i e }

/-- Compare slot `n`. -/
def State.slot (s : State) (n : Nat) : Slot := Tbl.get (fun _ => {}) s.time.slots n
/-- Replaces compare slot `n`. -/
def State.setSlot (s : State) (n : Nat) (x : Slot) : State :=
  { s with time.slots := Tbl.set (fun _ => {}) s.time.slots n x }
/-- Timer `n`. -/
def State.timer (s : State) (n : Nat) : Timer := Tbl.get (fun _ => {}) s.time.timers n
/-- Replaces timer `n`. -/
def State.setTimer (s : State) (n : Nat) (x : Timer) : State :=
  { s with time.timers := Tbl.set (fun _ => {}) s.time.timers n x }

/-- Bank `key` = engine × 16 + bank. -/
def State.bank (s : State) (key : Nat) : BankSt := Tbl.get (fun _ => {}) s.axis.banks key
/-- Replaces a bank. -/
def State.setBank (s : State) (key : Nat) (x : BankSt) : State :=
  { s with axis.banks := Tbl.set (fun _ => {}) s.axis.banks key x }
/-- The Saddler's record of context `n`. -/
def State.ctx (s : State) (n : Nat) : CtxSt := Tbl.get (fun _ => {}) s.axis.ctxs n
/-- Replaces the Saddler's record of a context. -/
def State.setCtx (s : State) (n : Nat) (x : CtxSt) : State :=
  { s with axis.ctxs := Tbl.set (fun _ => {}) s.axis.ctxs n x }
/-- Axis `a`. -/
def State.ax (s : State) (a : Nat) : AxisSt := Tbl.get (fun _ => {}) s.axis.axes a
/-- Replaces axis `a`. -/
def State.setAx (s : State) (a : Nat) (x : AxisSt) : State :=
  { s with axis.axes := Tbl.set (fun _ => {}) s.axis.axes a x }
/-- Installed program `i`. -/
def State.prog (s : State) (i : Nat) : Option Prog := Tbl.get (fun _ => none) s.axis.progs i
/-- Replaces program `i`. -/
def State.setProg (s : State) (i : Nat) (x : Option Prog) : State :=
  { s with axis.progs := Tbl.set (fun _ => none) s.axis.progs i x }

/-- What lies behind converter `n`. -/
def State.cv (s : State) (n : Nat) : Converter := Tbl.get (fun _ => {}) s.conv.cvs n
/-- Replaces a converter's record. -/
def State.setCv (s : State) (n : Nat) (x : Converter) : State :=
  { s with conv.cvs := Tbl.set (fun _ => {}) s.conv.cvs n x }
/-- Bridge `b`. -/
def State.br (s : State) (b : Nat) : Bridge := Tbl.get (fun _ => {}) s.pwm b
/-- Replaces a bridge. -/
def State.setBr (s : State) (b : Nat) (x : Bridge) : State := { s with pwm := Tbl.set (fun _ => {}) s.pwm b x }

/-- Local feedback unit `f`. -/
def State.fb (s : State) (f : Nat) : FbUnit := Tbl.get (fun _ => {}) s.feed.fbs f
/-- Replaces a feedback unit. -/
def State.setFb (s : State) (f : Nat) (x : FbUnit) : State :=
  { s with feed.fbs := Tbl.set (fun _ => {}) s.feed.fbs f x }
/-- Encoder port `p`. -/
def State.senc (s : State) (p : Nat) : SencPort := Tbl.get (fun _ => {}) s.feed.sencs p
/-- Replaces an encoder port. -/
def State.setSenc (s : State) (p : Nat) (x : SencPort) : State :=
  { s with feed.sencs := Tbl.set (fun _ => {}) s.feed.sencs p x }
/-- Track `k`. -/
def State.trk (s : State) (k : Nat) : Track := Tbl.get (fun _ => {}) s.feed.tracks k
/-- Replaces a track. -/
def State.setTrk (s : State) (k : Nat) (x : Track) : State :=
  { s with feed.tracks := Tbl.set (fun _ => {}) s.feed.tracks k x }
/-- The pulse of mark output `m`. -/
def State.mark (s : State) (m : Nat) : Option Pulse := Tbl.get (fun _ => none) s.feed.marks m
/-- Replaces a mark output's pulse. -/
def State.setMark (s : State) (m : Nat) (x : Option Pulse) : State :=
  { s with feed.marks := Tbl.set (fun _ => none) s.feed.marks m x }

/-- Link `l`. -/
def State.link (s : State) (l : Nat) : Link := Tbl.get (fun _ => {}) s.teth l
/-- Replaces a link. -/
def State.setLink (s : State) (l : Nat) (x : Link) : State := { s with teth := Tbl.set (fun _ => {}) s.teth l x }
/-- Axis `a` of a link. -/
def Link.ax (x : Link) (a : Nat) : LinkAx := Tbl.get (fun _ => {}) x.axes a
/-- Replaces an axis of a link. -/
def State.setLinkAx (s : State) (l a : Nat) (x : LinkAx) : State :=
  s.setLink l { s.link l with axes := Tbl.set (fun _ => {}) (s.link l).axes a x }

/-- Girth port `g`. -/
def State.girth (s : State) (g : Nat) : GirthPort := Tbl.get (fun _ => {}) s.ports.girth g
/-- Replaces a Girth port. -/
def State.setGirth (s : State) (g : Nat) (x : GirthPort) : State :=
  { s with ports.girth := Tbl.set (fun _ => {}) s.ports.girth g x }
/-- Ethernet port `p`. -/
def State.eth (s : State) (p : Nat) : EthPort := Tbl.get (fun _ => {}) s.ports.eth p
/-- Replaces an Ethernet port. -/
def State.setEth (s : State) (p : Nat) (x : EthPort) : State :=
  { s with ports.eth := Tbl.set (fun _ => {}) s.ports.eth p x }

/-- DMA channel `c`. -/
def State.chan (s : State) (c : Nat) : DmaChan := Tbl.get (fun _ => {}) s.dma.chans c
/-- Replaces a DMA channel. -/
def State.setChan (s : State) (c : Nat) (x : DmaChan) : State :=
  { s with dma.chans := Tbl.set (fun _ => {}) s.dma.chans c x }
/-- The operation of flash bank `k`. -/
def State.fop (s : State) (k : Nat) : FlashOp := Tbl.get (fun _ => {}) s.flash.ops k
/-- Replaces the operation of a flash bank. -/
def State.setFop (s : State) (k : Nat) (x : FlashOp) : State :=
  { s with flash.ops := Tbl.set (fun _ => {}) s.flash.ops k x }

/-- Watchdog `n`. -/
def State.wdg (s : State) (n : Nat) : Wdg := Tbl.get (fun _ => {}) s.power.wdgs n
/-- Replaces a watchdog. -/
def State.setWdg (s : State) (n : Nat) (x : Wdg) : State :=
  { s with power.wdgs := Tbl.set (fun _ => {}) s.power.wdgs n x }
/-- Ledger unit `u`. -/
def State.unit_ (s : State) (u : Nat) : AgeUnit := Tbl.get (fun _ => {}) s.age u
/-- Replaces a ledger unit. -/
def State.setUnit (s : State) (u : Nat) (x : AgeUnit) : State := { s with age := Tbl.set (fun _ => {}) s.age u x }

/-- Takes a free value (log entry 1): the stream's next number, and the state that has taken it. -/
def State.draw (s : State) : Nat × State := (Config.freeNat s.free, { s with free := s.free + 1 })

end Sys2Proof.Machine
end

