-- ==== Sys2Proof/Machine/Regs.lean ====
section
/-! DEFINITION. Access to the registers of a block: the checks of R6–R8 and R393 that stand before every
register access, the write by type codes (R5), and the saturating counters (R119). -/

namespace Sys2Proof.Machine

/-- Address of a register of a block with one instance. -/
abbrev ra (b : Blk) (o : Nat) : Nat := b.addr 0 o
/-- Address of a register of instance `i`. -/
abbrev ri (b : Blk) (i o : Nat) : Nat := b.addr i o

/-- The place of a block's 64 KiB slot in `WMAP` (R393). -/
def wmapIndex (b : Blk) (i : Nat) : Nat :=
  let a := b.addr i 0
  if a < 0x50000000 then (a - 0x40000000) / 0x10000
  else if a < 0x60000000 then 256 + (a - 0x50000000) / 0x10000
  else 512

/-- The register at an offset has world S, by its block, its `WMAP` entry or its header line (R6, R393). -/
def regSecure (s : State) (b : Blk) (i o : Nat) : Bool :=
  let row := (match b.rowAt o with | some r => r.secure | none => false)
  let blkSec := tb (s.rg (ra .wmap (Wmap.BLK (wmapIndex b i)))) 0
  match b with
  | .wmap | .rgn | .otp | .boot => true
  | .sec => row
  | .intc => i = 0 || blkSec
  | .qm => o = Qm.NPOP 0 || blkSec || row
  | .dbg => o = Dbg.VT_OUT 0 || o = Dbg.VT_IN 0 || blkSec || row
  | _ => blkSec || row

/-- Context or channel of another world behind the register: `SADL.CTX_n` and `AX_a` of a secure context
(R264), `DMA_c` with `WORLD` = 1 (R366). -/
def regOwnerSecure (s : State) (b : Blk) (o : Nat) : Bool :=
  match b with
  | .sadl =>
    if 0x1000 ≤ o ∧ o < 0x3000 then tb (s.rg (ra .sadl (Sadl.CTX_REQ0 ((o - 0x1000) / 0x20)))) 23
    else if 0x4000 ≤ o ∧ o < 0x8000 then tb (s.rg (ra .sadl (Sadl.CTX_REQ0 ((o - 0x4000) / 0x80)))) 23
    else false
  | .dma => 0x1000 ≤ o && o < 0x1800 && tb (s.rg (ra .dma (Dma.CH_CFG ((o - 0x1000) / 0x40)))) 30
  | _ => false

/-- The `OTP` block and the flash controls answer only `SV` running from the boot ROM (R369, R402). -/
def otpAnswers (s : State) (m : Master) : Bool := m.mid = 0 && (s.el 36).setA.pc.toNat < 0x40000

/-- A reset is being held: the chip is too hot (R429), or a supply is out of range while the device is not in HIBERNATE
(R497). -/
def inReset (s : State) : Bool := s.power.held || (!s.power.rails && s.time.run)

/-- What stands before every register access: an error response while a reset is held (log entry 22), an error response for an unassigned slot (R336), for an
access that is not an aligned word (R7), for a world the register refuses (R6), and for an identity that no master has
(R25, log entry 70). -/
def gateRefuses (s : State) (m : Master) (pa size : Nat) : Bool :=
  match blockAt pa with
  | none => true
  | some (b, i, o) =>
    inReset s || size ≠ 4 || pa % 4 ≠ 0 || m.reserved
      || (!m.sec && (regSecure s b i o || regOwnerSecure s b o))
      || ((b = .otp || (b = .flc && o ≥ 0x8000)) && !otpAnswers s m)

/-- A register access by a command: refused by the gate, or carried out. -/
def regAccess (m : Master) (pa : Nat) (f : State → Resp × State) (s : State) : State :=
  if gateRefuses s m pa 4 then { s with resp := .err }
  else { (f s).2 with resp := (f s).1 }

/-- The block's `LOCK` bit (R5, type RWL). -/
def blkLocked (s : State) (b : Blk) : Bool :=
  match b with
  | .mbx => tb (s.rg (ra .mbx Mbx.LOCK)) 0
  | .wmap => tb (s.rg (ra .wmap Wmap.LOCK)) 0
  | .rgn => tb (s.rg (ra .rgn Rgn.LOCK)) 0
  | _ => false

/-- Where the `SAT` flag of the counter at offset `o` of a block stands: register offset and bit (R119). -/
def satAt (b : Blk) (o : Nat) : Option (Nat × Nat) :=
  match b with
  | .evr => if o = Evr.DROPS then some (Evr.DROPSTAT, 31) else none
  | .conv =>
    if o = Conv.HOREJ_CNT then some (Conv.CNTSTAT, 0)
    else if o = Conv.SKIP_CNT then some (Conv.CNTSTAT, 1)
    else if 0x300 ≤ o ∧ o < 0x3C0 ∧ o % 16 = 8 then some (o - 4, 31) else none
  | .pwm =>
    if o = Pwm.LATE_CNT then some (Pwm.CNTSTAT, 0) else if o = Pwm.SHORT_CNT then some (Pwm.CNTSTAT, 1)
    else if o = Pwm.REPEAT_CNT then some (Pwm.CNTSTAT, 2) else if o = Pwm.RB_CNT then some (Pwm.CNTSTAT, 3)
    else none
  | .fb => if o = Fb.QERR_CNT then some (Fb.CNTSTAT, 0) else if o = Fb.DROPS then some (Fb.CNTSTAT, 1) else none
  | .senc =>
    if o = Senc.ERR_CNT then some (Senc.CNTSTAT, 0) else if o = Senc.SKIP_CNT then some (Senc.CNTSTAT, 1)
    else if o = Senc.DROPS then some (Senc.CNTSTAT, 2) else none
  | .awl =>
    if o = Awl.LOGOVF_CNT then some (Awl.CNTSTAT, 0)
    else if 0x100 ≤ o ∧ o < 0x200 ∧ o % 0x20 = 0x18 then some (Awl.CNTSTAT, 8 + (o - 0x100) / 0x20) else none
  | .sadl =>
    if o = Sadl.JOVF_CNT then some (Sadl.CNTSTAT, 0)
    else if 0x1000 ≤ o ∧ o < 0x3000 ∧ o % 0x20 = 0x18 then some (o + 4, 0)
    else if 0x4000 ≤ o ∧ o < 0x8000 then
      (let r := o % 0x80
       let st := o - r + 0x1C
       if r = 4 then some (st, 0) else if r = 8 then some (st, 1) else if r = 0xC then some (st, 2)
       else if r = 0x10 then some (st, 3) else if 0x40 ≤ r then some (st, 4) else none)
    else none
  | .isl => if o = Isl.FLT_CNT then some (Isl.CNTSTAT, 0) else none
  | .rein =>
    if 0x1000 ≤ o ∧ o < 0x1100 then
      (if o % 8 = 0 then some (Rein.CNTSTAT_0, (o - 0x1000) / 8) else some (Rein.CNTSTAT_1, (o - 0x1000) / 8))
    else none
  | .teth =>
    if o = Teth.BADCELL_CNT then some (Teth.CNTSTAT, 0) else if o = Teth.CODEERR_CNT then some (Teth.CNTSTAT, 1)
    else if o = Teth.LOCKLOSS_CNT then some (Teth.CNTSTAT, 2)
    else if 0x100 ≤ o ∧ o < 0x200 ∧ o % 0x20 = 0x18 then some (o - 0x10, 4)
    else if 0x100 ≤ o ∧ o < 0x200 ∧ o % 0x20 = 0x1C then some (o - 0x14, 5) else none
  | .qm => if o = Qm.INJ_CNT then some (Qm.CNTSTAT, 0) else if o = Qm.INJREF_CNT then some (Qm.CNTSTAT, 1) else none
  | .ptab => if o = Ptab.MISS_CNT then some (Ptab.CNTSTAT, 0) else none
  | .girth =>
    if o = Girth.TIMEOUT_CNT then some (Girth.CNTSTAT, 0) else if o = Girth.CRCERR_CNT then some (Girth.CNTSTAT, 1)
    else if o = Girth.OVR_CNT then some (Girth.CNTSTAT, 2) else none
  | .eth =>
    if o = Eth.RXFRM then some (Eth.CNTSTAT, 0) else if o = Eth.RXDROP_CNT then some (Eth.CNTSTAT, 1)
    else if o = Eth.TXFRM then some (Eth.CNTSTAT, 2) else if o = Eth.TXDROP then some (Eth.CNTSTAT, 3)
    else if o = Eth.FCSERR_CNT then some (Eth.CNTSTAT, 4) else none
  | .memc =>
    if 0x20 ≤ o ∧ o < 0x30 then some (Memc.CNTSTAT, (o - 0x20) / 4) else none
  | .dma =>
    if 0x1000 ≤ o ∧ o < 0x1800 ∧ o % 0x40 = 0x18 then some (o + 8, 0)
    else if 0x1000 ≤ o ∧ o < 0x1800 ∧ o % 0x40 = 0x1C then some (o + 4, 1) else none
  | .flc => if o = Flc.CE_CNT then some (Flc.CNTSTAT, 0) else if o = Flc.UE_CNT then some (Flc.CNTSTAT, 1) else none
  | .stc => if o = Stc.FLOVF_CNT then some (Stc.CNTSTAT, 31) else none
  | .age =>
    if o = Age.POWERED then some (Age.CNTSTAT, 31)
    else if 0x100 ≤ o ∧ o < 0x260 ∧ o % 0x20 = 8 then some (Age.CNTSTAT, 16 + (o - 0x100) / 0x20)
    else if 0x100 ≤ o ∧ o < 0x260 ∧ o % 0x20 = 0x14 then some (Age.CNTSTAT, (o - 0x100) / 0x20) else none
  | .dbg => if o = Dbg.TRDROP then some (Dbg.CNTSTAT, 0) else none
  | _ => none

/-- Counts `n` events in the 32-bit counter of a block, which saturates and sets its `SAT` flag (R119). -/
def bumpN (b : Blk) (i o n : Nat) (s : State) : State :=
  let v := (s.rg (b.addr i o)).toNat
  let v' := if v + n ≥ 0xFFFFFFFF then 0xFFFFFFFF else v + n
  let s1 := s.setRg (b.addr i o) (w32 v')
  if v' = 0xFFFFFFFF ∧ v ≠ 0xFFFFFFFF then
    (match satAt b o with
     | some (so, bit) => s1.setRgBit (b.addr i so) bit true
     | none => s1)
  else s1

/-- Counts one event (R119). -/
def bump (b : Blk) (i o : Nat) (s : State) : State := bumpN b i o 1 s

/-- A write of a register by its type codes alone (R5, R8, R119). -/
def plainWrite (b : Blk) (i o : Nat) (v : Word) (sec : Bool) (s : State) : State :=
  match b.rowAt o with
  | none => s
  | some r =>
    let a := b.addr i o
    let s1 := s.setRg a (r.write (s.rg a) v sec (blkLocked s b))
    match satAt b o with
    | some (so, bit) => s1.setRgBit (b.addr i so) bit false
    | none => s1

/-- A read of a register by its type codes alone: reserved and write-only bits read 0 (R5, R8). -/
def plainRead (s : State) (b : Blk) (i o : Nat) : Word :=
  match b.rowAt o with
  | none => 0
  | some r => s.rg (b.addr i o) &&& w32 r.readMask

/-- The key of a master's snapshot in the block that a physical address names (R107). -/
def snapKey (m : Master) (pa : Nat) : Nat := (pa / 0x10000) * 128 + m.mid.val * 4 + m.sub.val

/-- A read of a low word latches the high word into the master's snapshot; a debug read latches nothing
(R106, R108). -/
def latchSnap (m : Master) (pa : Nat) (hi : Word) (s : State) : State :=
  if m.mid = 24 then s
  else { s with time.snap := Tbl.set (fun _ => 0) s.time.snap (snapKey m pa) hi }

/-- A master's snapshot in a block. -/
def snapOf (s : State) (m : Master) (pa : Nat) : Word := Tbl.get (fun _ => 0) s.time.snap (snapKey m pa)

/-- The loop island of an engine. -/
abbrev islandOf (g : Nat) : Nat := g / 4
/-- `ISL_i.STAT.STATE`. -/
def islState (s : State) (i : Nat) : Nat := fld (s.rg (ri .isl i Isl.STAT)) 2 0
/-- The power domain of a master is down (R124, R130). -/
def midDown (s : State) (mid : Nat) : Bool :=
  if 8 ≤ mid ∧ mid ≤ 15 then islState s (mid - 8) = 5
  else if 1 ≤ mid ∧ mid ≤ 4 then (s.el (31 + mid)).down
  else false

/-- The device's operating mode, `PMU.MODE` (R419): 0 OFF, 1 HIBERNATE, 2 STANDBY, 3 CONFIGURE, 4 RUN,
5 BOOST, 6 SAFE_HOLD, 7 SERVICE. -/
def opMode (s : State) : Nat := fld (s.rg (ra .pmu Pmu.MODE)) 2 0

/-- Any element is halted under debug (R118). -/
def anyHalted (s : State) : Bool := s.core.elems.any (fun e => e.2.halted)

/-- A port captures: it is enabled, for a protocol that there is (R198, R210). -/
def sencTakes (s : State) (p : Nat) : Bool :=
  let c := s.rg (ri .senc p Senc.CFG)
  tb c 31 && (fld c 29 28 = 1 || fld c 29 28 = 2)
/-- A local unit captures: it is enabled and not in I/O mode, which only reads and drives levels (R198, R199). -/
def fbTakes (s : State) (f : Nat) : Bool := let c := s.rg (ri .fb f Fb.CFG); tb c 31 && fld c 30 28 ≠ 3

end Sys2Proof.Machine
end

