-- ==== Sys2Proof/Machine/Events.lean ====
section
/-! DEFINITION. Time-port readings (R105), the wake events of banks (R81), and the event router: raising a
source, the occurrences in flight, and their arrival (R121–R125). -/

namespace Sys2Proof.Machine

/-- A reading of time port `p` (islands 0–7, application cluster 8, supervisor 9): it lags by a free value
of 0 to 2 ticks, and never decreases (R105; log entries 1 and 4). -/
def timePort (p : Nat) (s : State) : DWord × State :=
  let (n, s1) := s.draw
  let lag := min (n % 3) s1.time.selvedge.toNat
  let now := s1.time.selvedge - w64 lag
  let last := Tbl.get (fun _ => 0) s1.time.ports p
  let t := if newer 64 last.toNat now.toNat then last else now
  (t, { s1 with time.ports := Tbl.set (fun _ => 0) s1.time.ports p t })

/-- A wake event reaches a bank: latched with its stamp, or `OVERRUN` if it is latched already; a bank in
the fault state and one of an island that is powered down latch nothing (R81, R124, R238). -/
def latchBank (key ev : Nat) (s : State) : State :=
  let b := s.bank key
  if b.fault.isSome || b.ctx.isNone || islState s (islandOf (key / 16)) = 5 then s
  else if b.latched.any (fun e => e.1 = ev) then s.setBank key { b with overrun := true }
  else
    let (t, s1) := timePort (islandOf (key / 16)) s
    s1.setBank key { b with latched := b.latched ++ [(ev, w32 t.toNat)] }

/-- The banks bound to a context, in ascending order. -/
def boundBanks (s : State) (n : Nat) : List Nat :=
  (s.axis.banks.filter (fun e => e.2.ctx = some n)).map Prod.fst

/-- A block raises a wake event in every bank bound to a context (R81, R249). -/
def wakeCtx (n ev : Nat) (s : State) : State :=
  (boundBanks s n).foldl (fun s k => latchBank k ev s) s

/-- Counts a dropped event (R124). -/
def dropEvent (s : State) : State := bump .evr 0 Evr.DROPS s

/-- An event source occurs: every enabled route of that source takes the occurrence into flight under its
present fields (R122). -/
def raiseEvent (n : Nat) (s : State) : State :=
  let base := Blk.evr.base
  let slotSec := n < 256 && tb (s.rg (ra .tb (Tb.SLOT_CTRL n))) 30
  let fl := s.regs.filterMap (fun e =>
    if base ≤ e.1 && e.1 < base + 0x800 && tb e.2 31 && fld e.2 26 16 = n then
      some { src := n, kind := fld e.2 29 27, dest := fld e.2 15 0, sec := tb e.2 30, slotSec := slotSec : Flight }
    else none)
  { s with time.flights := s.time.flights ++ fl }

/-- `SEC_k` marks a source of a controller secure (R398). -/
def intcSecure (s : State) (t src : Nat) : Bool := tb (s.rg (ri .intc t (Intc.SEC (src / 32)))) (src % 32)

/-- A source becomes pending in a controller; source 0 never does (R126). -/
def setPend (t src : Nat) (s : State) : State :=
  if src = 0 ∨ src > 511 then s else s.setRgBit (ri .intc t (Intc.PEND (src / 32))) (src % 32) true

/-- The cycle of a controller's clock at the present tick: 400 MHz for `INTC_0`, the application-cluster clock
for the others (R127); where a tick holds parts of two cycles, the one it begins in (log entry 67). -/
def intcCycle (s : State) (t : Nat) : Nat := if t = 0 then s.time.selvedge.toNat / 2 else s.time.acCyc / 800

/-- A rising edge of a source is sampled in the present controller cycle (R126, R127). -/
def edgePend (t src : Nat) (s : State) : State :=
  setPend t src { s with time.edgeAt := Tbl.set (fun _ => 0) s.time.edgeAt (t * 512 + src) (intcCycle s t + 1) }
/-- A rising edge of the source has been sampled in the present controller cycle. -/
def edgeNow (s : State) (t src : Nat) : Bool :=
  Tbl.get (fun _ => 0) s.time.edgeAt (t * 512 + src) = intcCycle s t + 1

/-- The bound context or destination of a flight is one a non-secure route may not reach (R125). -/
def flightRefused (s : State) (f : Flight) : Bool :=
  !f.sec && (f.slotSec || match f.kind with
    | 1 => f.dest / 512 = 0 || intcSecure s (f.dest / 512) (f.dest % 512)
    | 2 => (boundBanks s f.dest).any (fun k => (s.bank k).world)
    | _ => false)

/-- The flight's `KIND` is not reserved and its `DEST` lies in the stated range (R125). -/
def flightValid (f : Flight) : Bool :=
  match f.kind with
  | 1 => f.dest / 512 ≤ 4 && 256 ≤ f.dest % 512
  | 2 => f.dest < 256
  | 3 => f.dest < 256
  | 4 => f.dest < 32
  | 5 => f.dest < 16
  | _ => false

/-- `EN` of a timer changes from 0 to 1: the prescaler restarts and the first tick loads (R115). -/
def timerStart (n : Nat) (s : State) : State :=
  let a := ra .tim (Tim.CTRL n)
  if tb (s.rg a) 0 then s
  else (s.setRgBit a 0 true).setTimer n { s.timer n with presc := 0, starting := true, reloadDue := false, zeroDue := false }

/-- One tick of a timer (R115–R117): the `LOAD` and `CC_k` values in effect are taken, and the count is
loaded or falls by one.  What the tick owes is left to `TIMER_ZERO` and `TIMER_CHANNEL_FIRE`.  DESIGN CHOICE
(log entry 67): at the zero tick `ELAPSED` and the channels still use the old reload value; the one taken there
counts from the following tick, with `COUNT`. -/
def timerTick (n : Nat) (s : State) : State :=
  let t := s.timer n
  let cc (k : Nat) (old : Word) : Word := if t.written.getLsbD k then s.rg (ra .tim (Tim.CC n k)) else old
  let load := s.rg (ra .tim (Tim.LOAD n))
  let loads := t.starting || t.reloadDue
  let reload := if t.starting then load else if t.reloadDue then t.loadEff else t.reload
  let count := if loads then reload else t.count - 1
  s.setTimer n { t with
    reload := reload, count := count, starting := false, reloadDue := false, loadEff := load,
    cc0 := cc 0 t.cc0, cc1 := cc 1 t.cc1, cc2 := cc 2 t.cc2, cc3 := cc 3 t.cc3,
    armed := if loads then 0xF else t.armed ||| t.written, written := 0,
    zeroDue := count = 0, ticked := true }

/-- `ELAPSED` = reload value − `COUNT` (R117). -/
def timerElapsed (t : Timer) : Word := t.reload - t.count

/-- A routed timer action arrives: start, stop, capture `ELAPSED`, or count (R115, R124). -/
def timerAction (act n : Nat) (s : State) : State :=
  match act with
  | 0 => timerStart n s
  | 1 => s.setRgBit (ra .tim (Tim.CTRL n)) 0 false
  | 2 => s.setRg (ra .tim (Tim.CAP n)) (timerElapsed (s.timer n))
  | _ =>
    let c := s.rg (ra .tim (Tim.CTRL n))
    if tb c 0 && tb c 3 && !(tb c 4 && anyHalted s) then timerTick n s else s

/-- A channel request reaches a DMA channel: latched in `dmaReq`, or lost with `REQOVF`; an idle channel looks at
its head descriptor again (R358). -/
def dmaRequest (c : Nat) (s0 : State) : State :=
  let s := s0.setChan c { s0.chan c with idle := false }
  if Tbl.get (fun _ => false) s.time.dmaReq c then s.setRgBit (ra .dma (Dma.CH_STAT c)) 4 true
  else { s with time.dmaReq := Tbl.set (fun _ => false) s.time.dmaReq c true }

/-- A Selvedge capture arrives: the count is taken into `TB.CAP_m` (R124). -/
def selvedgeCapture (m : Nat) (s : State) : State :=
  { s with time.caps := Tbl.set (fun _ => 0) s.time.caps m s.time.selvedge }

/-- A context `COMPARE` event arrives at every bank bound to the context (R123), as often as `arrivals` says of
the bank; one that finds no bank, a bank in the fault state or a bank of an island that is powered down is dropped and
counted (R124). -/
def compareArrives (n : Nat) (arrivals : Nat → Nat) (s : State) : State :=
  match boundBanks s n with
  | [] => dropEvent s
  | ks => ks.foldl (fun s k => (List.range (arrivals k)).foldl (fun s _ =>
      if (s.bank k).fault.isSome || islState s (islandOf (k / 16)) = 5 then dropEvent s else latchBank k 4 s) s) s

/-- How many arrivals `n` occurrences make at a bank: one, or more where the command says that they fall into
different cycles of the clock of the bank's island (R122). -/
def arrivalsAt (cycles : List (Nat × Nat)) (n k : Nat) : Nat :=
  match cycles.find? (fun c => c.1 = k) with
  | some c => max 1 (min n c.2)
  | none => 1

/-- One merged arrival of `n` occurrences at the destination of a flight; at a context's banks each bank merges
by itself (R122–R124). -/
def arrive (f : Flight) (n : Nat) (cycles : List (Nat × Nat)) (s : State) : State :=
  match f.kind with
  | 1 =>
    let t := f.dest / 512
    if midDown s t then dropEvent s else edgePend t (f.dest % 512) s
  | 2 => compareArrives f.dest (arrivalsAt cycles n) s
  | 3 => timerAction (f.dest / 64) (f.dest % 64) s
  | 4 => dmaRequest f.dest s
  | 5 => selvedgeCapture f.dest s
  | _ => s

/-- The list without the elements at the given places. -/
def removeAt {α : Type} (l : List α) (is : List Nat) : List α :=
  (l.zipIdx.filter (fun p => !is.contains p.2)).map Prod.fst

/-- The occurrences at the places `is` that go to the destination of the first of them arrive in one
destination clock cycle and merge into one arrival (R122); `cycles` names the banks of a context at which they
arrive in more than one cycle, with their number.  An occurrence that R125 refuses is dropped and counted by
itself.  `want` restricts which occurrences the command may deliver.  DESIGN CHOICE (log entry 67): two
occurrences of one route in one destination clock cycle merge as those of different routes do, and an
occurrence that no destination could take (`KIND` 000 or reserved, `DEST` out of range) counts no drop,
whatever its source. -/
def deliver (want : Flight → Bool) (is : List Nat) (cycles : List (Nat × Nat)) (s : State) : State :=
  match (is.filterMap (fun i => s.time.flights[i]?)).filter want with
  | [] => s
  | f :: _ =>
    let here := (is.filter (fun i => match s.time.flights[i]? with
      | some g => want g && g.kind = f.kind && g.dest = f.dest
      | none => false)).eraseDups
    let fs := here.filterMap (fun i => s.time.flights[i]?)
    let s1 := { s with time.flights := removeAt s.time.flights here }
    if !flightValid f then s1
    else
      let refused := fs.filter (flightRefused s)
      let s2 := refused.foldl (fun s _ => dropEvent s) s1
      if refused.length < fs.length then arrive f (fs.length - refused.length) cycles s2 else s2

end Sys2Proof.Machine
end

