-- ==== Sys2Proof/Machine/Mem.lean ====
section
/-! DEFINITION. The physical memories (R335): regions, the bytes of every memory, stores by any master with
the reservations they clear (R58) and the check bits they renew (R337), and the places inside the engines'
context memories and the island memories. -/

namespace Sys2Proof.Machine

/-- The regions of the physical address space (R335). -/
inductive Region where
  | rom | flash | info | tcmAc (n : Nat) | tcmSv | sram | mark | ptab | qctl
  | isl (i : Nat) | ctxmem (e : Nat) | periph | bridle | backup | pmu | ddr | none
  deriving DecidableEq, Repr

/-- Bytes of LPDDR 4X that software sees: `MEMC.STAT.SIZE` MiB once `READY` = 1 (R335, R354, R355). -/
def ddrBytes (s : State) : Nat :=
  let st := s.rg (ra .memc Memc.STAT)
  if tb st 31 then fld st 27 16 * 0x100000 else 0

/-- The region of a physical address (R335). -/
def regionOf (s : State) (a : Nat) : Region :=
  if a < 0x40000 then .rom
  else if 0x01000000 ≤ a ∧ a < 0x02000000 then .flash
  else if 0x08000000 ≤ a ∧ a < 0x08010000 then .info
  else if 0x10000000 ≤ a ∧ a < 0x10400000 ∧ a % 0x100000 < 0x20000 then .tcmAc ((a - 0x10000000) / 0x100000)
  else if 0x18000000 ≤ a ∧ a < 0x18040000 then .tcmSv
  else if 0x20000000 ≤ a ∧ a < 0x20800000 then .sram
  else if 0x28000000 ≤ a ∧ a < 0x28080000 then .mark
  else if 0x28100000 ≤ a ∧ a < 0x28120000 then .ptab
  else if 0x28200000 ≤ a ∧ a < 0x28220000 then .qctl
  else if 0x30000000 ≤ a ∧ a < 0x30200000 then .isl ((a - 0x30000000) / 0x40000)
  else if 0x31000000 ≤ a ∧ a < 0x31200000 then .ctxmem ((a - 0x31000000) / 0x10000)
  else if 0x40000000 ≤ a ∧ a < 0x41000000 then .periph
  else if 0x50000000 ≤ a ∧ a < 0x51000000 then .bridle
  else if 0x60000000 ≤ a ∧ a < 0x60002000 then .backup
  else if 0x60010000 ≤ a ∧ a < 0x60020000 then .pmu
  else if 0x100000000 ≤ a ∧ a < 0x100000000 + ddrBytes s then .ddr
  else .none

/-- What a byte of the flash information area and OTP window reads as before anything has written it (R384,
R401, R404): the factory record and tables, an unprogrammed OTP but for `UID`, and 0xFF elsewhere. -/
def infoUnlisted (o : Nat) : Byte :=
  if o < 0x10 then (toBytes 4 (Config.uid (o / 4)).toNat).getD (o % 4) 0
  else if (0x10 ≤ o ∧ o < 0x16) ∨ (0x18 ≤ o ∧ o < 0x1E) ∨ (0x80 ≤ o ∧ o < 0x840) ∨ (0x1000 ≤ o ∧ o < 0x1040)
 then Config.factory o
  else if o < 0x8000 then 0xFF
  else if 0x8010 ≤ o ∧ o < 0x8020 then (toBytes 4 (Config.uid ((o - 0x8010) / 4)).toNat).getD (o % 4) 0
  else 0

/-- The byte lies in a word of the monitor's entry table whose routine does not exist (R414): routine numbers are bytes. -/
def noEntry (a : Nat) : Bool := (0x120 ≤ a && a < 0x140) || (0x158 ≤ a && a < 0x500)

/-- What a byte of memory reads as before anything has written it: the boot ROM's image with the monitor's entry table, the
erased flash array, the information area, and 0 elsewhere (log entries 8 and 9). -/
def memUnlisted (a : Nat) : Byte :=
  if noEntry a then 0
  else if a < 0x40000 then Config.bootRom a
  else if 0x01000000 ≤ a ∧ a < 0x02000000 then 0xFF
  else if 0x08000000 ≤ a ∧ a < 0x08010000 then infoUnlisted (a - 0x08000000)
  else 0

/-- The canonical form of the memory. -/
abbrev Memory.wf (m : List Host.Cell) : Prop := Tbl.wf memUnlisted m = true

/-- The lowest-numbered region that matches a physical address (R394). -/
def rgnOf (s : State) (pa : Nat) : Option Nat :=
  (List.range 16).find? (fun r =>
    tb (s.rg (ra .rgn (Rgn.R_ATTR r))) 31
      && fld (s.rg (ra .rgn (Rgn.R_BASE r))) 27 0 ≤ pa / 0x1000
      && pa / 0x1000 ≤ fld (s.rg (ra .rgn (Rgn.R_LIMIT r))) 27 0)

/-- The address lies in LPDDR 4X under a region with `ENC` = 1 (R400). -/
def encrypted (s : State) (a : Nat) : Bool :=
  0x100000000 ≤ a && match rgnOf s a with
    | some r => tb (s.rg (ra .rgn (Rgn.R_ATTR r))) 28
    | none => false

/-- The stored number of the aligned 16-byte unit of `a`. -/
def rawUnit (m : List Host.Cell) (a : Nat) : Nat :=
  ofBytes ((List.range 16).map (fun i => Tbl.get memUnlisted m (a / 16 * 16 + i)))
/-- The unit of `a` as an access through its region sees it: decrypted under the boot's keys (R400). -/
def plainUnit (key : Nat) (m : List Host.Cell) (a : Nat) : List Byte :=
  toBytes 16 ((Config.xts key (a / 16)).symm (BitVec.ofNat 128 (rawUnit m a))).toNat

/-- One byte of memory. -/
def State.byte (s : State) (a : Nat) : Byte :=
  if encrypted s a then (plainUnit s.dma.xtsKey s.mem a).getD (a % 16) 0 else Tbl.get memUnlisted s.mem a
/-- `n` bytes of memory from `a`. -/
def State.bytes (s : State) (a n : Nat) : List Byte := (List.range n).map (fun i => s.byte (a + i))
/-- The number that `n` bytes from `a` spell. -/
def State.num (s : State) (a n : Nat) : Nat := ofBytes (s.bytes a n)
/-- The word at `a`. -/
def State.word (s : State) (a : Nat) : Word := w32 (s.num a 4)

/-- Puts bytes into memory from `a` on. -/
def memPut : List Host.Cell → Nat → List Byte → List Host.Cell
  | m, _, [] => m
  | m, a, b :: t => memPut (Tbl.set memUnlisted m a b) (a + 1) t

/-- Puts bytes into memory through the regions' encryption (R400): each byte of an encrypted unit is a
read-modify-write of the unit. -/
def memPutEnc (enc : Nat → Bool) (key : Nat) : List Host.Cell → Nat → List Byte → List Host.Cell
  | m, _, [] => m
  | m, a, b :: t =>
    let m1 := if enc a then
        let unit := ofBytes ((plainUnit key m a).set (a % 16) b)
        memPut m (a / 16 * 16) (toBytes 16 (Config.xts key (a / 16) (BitVec.ofNat 128 unit)).toNat)
      else Tbl.set memUnlisted m a b
    memPutEnc enc key m1 (a + 1) t

/-- Clears the reservation of every element of a kind whose granule holds a byte of the range (R58). -/
def clearResvOf (who : Nat → Bool) (a n : Nat) (s : State) : State :=
  (Tbl.keys s.core.elems).foldl (fun s i =>
    match (s.el i).resv with
    | some r =>
      if who i ∧ a < (r.granule + 1) * 32 ∧ r.granule * 32 < a + n then s.setEl i { s.el i with resv := none } else s
    | none => s) s
/-- Clears the reservation of every element whose granule holds a byte of the range (R58). -/
def clearResv (a n : Nat) (s : State) : State := clearResvOf (fun _ => true) a n s

/-- Bytes that one access to the memory reads or writes whole: 4 on chip, 8 in LPDDR 4X (R337, R354), 16 where the
region is encrypted (R400). -/
def eccUnit (s : State) (a : Nat) : Nat := if encrypted s a then 16 else if 0x100000000 ≤ a then 8 else 4

/-- The poisoned words after a write: those whose unit lies wholly inside the range are good again (R337, R354,
R400). -/
def unpoison (s : State) (a n : Nat) : List Nat :=
  s.poison.filter (fun p => let u := eccUnit s p; !(a ≤ p / u * u && p / u * u + u ≤ a + n))

/-- Physical address of a bank of an engine's context memory; `key` = engine × 16 + bank (R335). -/
abbrev bankAddr (key : Nat) : Nat := 0x31000000 + (key / 16) * 0x10000 + (key % 16) * 0x1000

/-- A write to the source bank of a migration while its copy is in progress makes the copy late (R248). -/
def touchMig (a n : Nat) (s : State) : State :=
  (Tbl.keys s.axis.ctxs).foldl (fun s c =>
    match (s.ctx c).mig with
    | some m =>
      if m.step = 1 ∧ a < bankAddr m.src + 0x1000 ∧ bankAddr m.src < a + n then
        s.setCtx c { s.ctx c with mig := some { m with dirty := true } }
      else s
    | none => s) s

/-- Bytes reach memory: the poison of whole units goes, and a copy in progress is late. -/
def putBytes (a : Nat) (bs : List Byte) (s : State) : State :=
  touchMig a bs.length
    { s with mem := memPutEnc (encrypted s) s.dma.xtsKey s.mem a bs, poison := unpoison s a bs.length }

/-- A store by any master: the bytes, and the reservations of the granules (R58). -/
def store (a : Nat) (bs : List Byte) (s : State) : State := clearResv a bs.length (putBytes a bs s)

/-- A line that the application cluster writes back reaches memory: for an element outside the cluster that is the
write (R58, R341); the cores saw the stores when they were made (log entry 51). -/
def storeBack (a : Nat) (bs : List Byte) (s : State) : State :=
  clearResvOf (fun i => i < 32 || 36 ≤ i) a bs.length (putBytes a bs s)

/-- A word store by any master. -/
def storeWord (a : Nat) (v : Word) (s : State) : State := store a (toBytes 4 v.toNat) s

/-- Physical address of an island memory. -/
abbrev islMem (i : Nat) : Nat := 0x30000000 + i * 0x40000
/-- Physical address of a program-table entry (R233). -/
abbrev progEntry (i idx : Nat) : Nat := islMem i + 0x3F800 + 8 * idx

/-- A block writes bytes into every bank bound to a context (R142, R249). -/
def writeBanks (n off : Nat) (bs : List Byte) (s : State) : State :=
  (boundBanks s n).foldl (fun s k => store (bankAddr k + off) bs s) s

end Sys2Proof.Machine
end

