-- ==== Sys2Proof/Machine/World.lean ====
section
/-! DEFINITION. Worlds of memory: the region map (R394) and the memory whose world is fixed (R395). -/

namespace Sys2Proof.Machine

/-- Regions apply to the memory at an address (R394). -/
def rgnApplies (s : State) (pa : Nat) : Bool :=
  match regionOf s pa with
  | .flash | .sram | .mark | .ptab | .qctl | .isl _ | .ddr | .backup | .tcmAc _ => true
  | _ => false

/-- The region map refuses an access (R394): `SEC` to every non-secure access, `NSRO` to non-secure writes. -/
def rgnRefuses (s : State) (sec : Bool) (pa : Nat) (write : Bool) : Bool :=
  !sec && rgnApplies s pa && match rgnOf s pa with
    | some r => let a := s.rg (ra .rgn (Rgn.R_ATTR r)); tb a 30 || (tb a 29 && write)
    | none => false

/-- Memory of a fixed world refuses an access (R395): boot ROM, the TCM of `SV`, and the bank of a secure
context. -/
def fixedRefuses (s : State) (sec : Bool) (pa : Nat) : Bool :=
  !sec && match regionOf s pa with
    | .rom | .tcmSv => true
    | .ctxmem e => (s.bank (e * 16 + pa % 0x10000 / 0x1000)).world && (s.bank (e * 16 + pa % 0x10000 / 0x1000)).ctx.isSome
    | _ => false

/-- `RGN.ERR` and `RGN.ERRADDR` record the first refusal of the map; a further one sets `MORE`. -/
def rgnRecord (mid sub pa : Nat) (write : Bool) (s : State) : State :=
  let a := ra .rgn Rgn.ERR
  if tb (s.rg a) 31 then s.setRgBit a 30 true
  else ((s.setRg a (w32 (2 ^ 31 + b2n write * 2 ^ 20 + sub * 512 + mid * 16))).setRg
    (ra .rgn Rgn.ERRADDR_LO) (w32 pa)).setRg (ra .rgn Rgn.ERRADDR_HI) (w32 (pa / 2 ^ 32))

/-- The check of worlds at a memory access: refused or not, with the refusal of the map recorded (R390, R394,
R395). -/
def worldCheck (mid sub : Nat) (sec : Bool) (pa : Nat) (write : Bool) (s : State) : Bool × State :=
  if rgnRefuses s sec pa write then (true, rgnRecord mid sub pa write s)
  else (fixedRefuses s sec pa, s)

/-- The check of every 4 KiB page of a range of `n` bytes: the first that is refused stands in the record. -/
def worldSpan (mid sub : Nat) (sec : Bool) (pa n : Nat) (write : Bool) (s : State) : Bool × State :=
  let page (i : Nat) : Nat := (pa / 0x1000 + 1 + i) * 0x1000
  match worldCheck mid sub sec pa write s with
  | (true, s1) => (true, s1)
  | (false, s1) =>
    match (List.range ((pa + n - 1) / 0x1000 - pa / 0x1000)).find? (fun i =>
        rgnRefuses s1 sec (page i) write || fixedRefuses s1 sec (page i)) with
    | some i => worldCheck mid sub sec (page i) write s1
    | none => (false, s1)

end Sys2Proof.Machine
end

