-- ==== Sys2Proof/Machine/Ctl.lean ====
section
/-! DEFINITION. The memories that hold control words: the partner table (R294–R296) and the control blocks of the
hardware queues (R297–R299). -/

namespace Sys2Proof.Machine

/-! ### Partner table -/

/-- Address of word `k` of a partner's entry (R294). -/
abbrev ptabAddr (p k : Nat) : Nat := 0x28100000 + 32 * p + 4 * k
/-- Word `k` of a partner's entry. -/
def pw_ (s : State) (p k : Nat) : Word := s.word (ptabAddr p k)
/-- `VALID`, `WORLD`, `KIND`, `PORT` of an entry. -/
abbrev ptValid (s : State) (p : Nat) : Bool := tb (pw_ s p 0) 31
abbrev ptWorld (s : State) (p : Nat) : Bool := tb (pw_ s p 0) 30
abbrev ptKind (s : State) (p : Nat) : Nat := fld (pw_ s p 0) 29 27
abbrev ptPort (s : State) (p : Nat) : Nat := fld (pw_ s p 0) 26 24

/-- Counts in `RXCNT` (word 6) or `ERRCNT` (word 7) of an entry, with its flag in word 0 (R119, R296). -/
def ptCount (p k : Nat) (s : State) : State :=
  let v := (pw_ s p k).toNat
  if v = 0xFFFFFFFF then s
  else
    let s1 := storeWord (ptabAddr p k) (w32 (v + 1)) s
    if v + 1 = 0xFFFFFFFF then storeWord (ptabAddr p 0) (setBit (pw_ s1 p 0) (20 - k) true) s1 else s1

/-- A frame or schedule entry named an unusable entry; `port` is 0–1 Ethernet, 4–7 Girth (R311, R324). -/
def ptMiss (port p : Nat) (s : State) : State :=
  bump .ptab 0 Ptab.MISS_CNT (s.setRg (ra .ptab Ptab.LASTMISS) (w32 (port * 2 ^ 13 + p % 4096)))

/-- A master writes word `k` of an entry (R295, R296): refused from the non-secure world for a secure entry or
for a write that would set `WORLD`.  Hardware owns the flags of word 0, and its bits 12:0 stay 0 (R8, R294). -/
def ptabWrite (sec : Bool) (p k : Nat) (v : Word) (s : State) : Bool × State :=
  if !sec && (ptWorld s p || (k = 0 && tb v 30)) then (false, s)
  else if k = 0 then
    let old := pw_ s p 0
    (true, storeWord (ptabAddr p 0) (setBit (setBit (v &&& 0xFFFFE000) 14 (tb old 14)) 13 (tb old 13)) s)
  else
    let s1 := storeWord (ptabAddr p k) v s
    (true, if k = 6 ∨ k = 7 then storeWord (ptabAddr p 0) (setBit (pw_ s1 p 0) (20 - k) false) s1 else s1)

/-! ### Control blocks (R298, R299) -/

/-- Address of word `k` of a queue's control block. -/
abbrev qAddr (q k : Nat) : Nat := 0x28200000 + 16 * q + 4 * k
/-- Word `k` of a queue's control block. -/
def qw (s : State) (q k : Nat) : Word := s.word (qAddr q k)
abbrev qEn (s : State) (q : Nat) : Bool := tb (qw s q 0) 31
abbrev qWorld (s : State) (q : Nat) : Bool := tb (qw s q 0) 30
abbrev qReady (s : State) (q : Nat) : Bool := tb (qw s q 0) 26
abbrev qEsz (s : State) (q : Nat) : Nat := fld (qw s q 0) 15 12
abbrev qDepth (s : State) (q : Nat) : Nat := fld (qw s q 0) 11 8
abbrev qRd (s : State) (q : Nat) : Nat := fld (qw s q 2) 31 16
abbrev qWr (s : State) (q : Nat) : Nat := fld (qw s q 2) 15 0
/-- The count of a queue (R298). -/
def qCount (s : State) (q : Nat) : Nat := (qWr s q + 65536 - qRd s q) % 65536
/-- The address of element index `i` (R298). -/
def qElem (s : State) (q i : Nat) : Nat := (qw s q 1).toNat * 256 + 2 ^ qEsz s q * (i % 2 ^ qDepth s q)
/-- Writes word `k` of a control block. -/
def qSet (q k : Nat) (v : Word) (s : State) : State := storeWord (qAddr q k) v s
/-- Writes `RD` and `WR`. -/
def qIndices (q rd wr : Nat) (s : State) : State := qSet q 2 (w32 (rd % 65536 * 65536 + wr % 65536)) s

/-- `QM.STAT.AUTOFAIL` and the like. -/
def qmFlag (i : Nat) (s : State) : State := s.setRgBit (ra .qm Qm.STAT) i true

/-- Level of the memory that holds a range wholly, if a queue may lie there (R298, R299): 1 an island memory, 2
Twill SRAM, 3 LPDDR 4X. -/
def qLevel (s : State) (a n : Nat) : Option Nat :=
  match regionOf s a, regionOf s (a + n - 1) with
  | .isl i, .isl j => if i = j then some 1 else none
  | .sram, .sram => some 2
  | .ddr, .ddr => some 3
  | _, _ => none

/-- Bytes of a queue's memory. -/
def qBytes (s : State) (q : Nat) : Nat := 2 ^ (qEsz s q + qDepth s q)

/-- What a feeder port keeps the attempts of a partner's head element under. -/
abbrev elemKey (n p : Nat) : Nat := n * 4096 + p
/-- The head of transmit queue `q` is gone: the feeder ports forget its attempts (R312). -/
def forgetTries (q : Nat) (s : State) : State :=
  if q % 2 = 0 then s
  else (List.range 4).foldl (fun s g =>
    let x := s.girth g
    if x.tries.isEmpty && x.attempt.isNone then s
    else s.setGirth g { x with
      tries := x.tries.filter (fun e => e.1 % 4096 ≠ q / 2),
      attempt := x.attempt.map (fun t => if t.partner = q / 2 then { t with held := false } else t) }) s

/-- The enable of a queue fails (R299). -/
def qFail (q : Nat) (s : State) : State :=
  qSet q 3 (setBit (qw s q 3) 15 true) (qSet q 0 (setBit (setBit (qw s q 0) 31 false) 26 false) s)

/-- `EN` is set (R299): the indices, the checks, and `READY` at once unless the Saddler is to place the queue. -/
def qEnable (q : Nat) (s : State) : State :=
  let s1 := qSet q 3 (setBit (setBit (qw s q 3) 15 false) 14 false) (qIndices q 0 0 (forgetTries q s))
  let auto := tb (qw s1 q 0) 29
  let range := 4 ≤ qEsz s1 q && qEsz s1 q ≤ 11 && 1 ≤ qDepth s1 q
  if !range || (!auto && (qLevel s1 (qElem s1 q 0) (qBytes s1 q)).isNone) then qFail q s1
  else qSet q 0 (setBit (qw s1 q 0) 26 (!auto)) s1

/-- A master writes word `k` of a control block (R299): refused for a secure queue from the non-secure world.
`READY`, `RD`, `WR`, `ERR` and `NPEND` are the hardware's. -/
def qctlWrite (sec : Bool) (q k : Nat) (v : Word) (s : State) : Bool × State :=
  if qWorld s q && !sec then (false, s)
  else
    let w0 := qw s q 0
    let en := tb w0 31
    match k with
    | 0 =>
      if en then
        let keep : Word := 0x03FF00FF#32
        let w := (w0 &&& ~~~ keep) ||| (v &&& keep)
        if tb v 31 then (true, qSet q 0 w s)
        else
          let s1 := qSet q 0 (setBit (setBit w 31 false) 26 false) (forgetTries q s)
          (true, qSet q 3 (setBit (qw s1 q 3) 14 false) (qIndices q (qWr s1 q) (qWr s1 q) s1))
      else
        let s1 := qSet q 0 (setBit v 26 false) s
        (true, if tb v 31 then qEnable q s1 else s1)
    | 1 => (true, if en then s else qSet q 1 v s)
    | 2 => (true, s)
    | _ => (true, qSet q 3 (setFld (qw s q 3) 31 16 (fld v 31 16)) s)

end Sys2Proof.Machine
end

