-- ==== Sys2Proof/Machine/Twill.lean ====
section
/-! DEFINITION. Accesses of the Twill masters to the memories (R335–R339): the checks that refuse them, check
bits and poison (R337), reads of the flash with its buffers (R368–R373), the scrubbers (R338), and the
bring-up of the LPDDR 4X (R353–R355). -/

namespace Sys2Proof.Machine

/-! ### Memory errors (R337, R365) -/

/-- Counts a corrected (`ue` false) or uncorrected error of an on-chip memory or (`ddr`) of the LPDDR 4X. -/
def memErrorIn (ddr ue : Bool) (mid pa : Nat) (s : State) : State :=
  let cnt := match ddr, ue with
    | true, false => Memc.DDR_CE_CNT | true, true => Memc.DDR_UE_CNT
    | false, false => Memc.SRAM_CE_CNT | false, true => Memc.SRAM_UE_CNT
  let s1 := (bump .memc 0 cnt s).setRgBit (ra .memc Memc.STAT) (b2n ue) true
  let s2 := if ue then (s1.setRg (ra .memc Memc.UEADDR_LO) (w32 pa)).setRg
      (ra .memc Memc.UEADDR_HI) (w32 (mid * 2 ^ 16 + pa / 2 ^ 32)) else s1
  raiseEvent (if ue then 0x481 else 0x480) s2
/-- The same, of the memory that holds an address. -/
def memError (ue : Bool) (mid pa : Nat) (s : State) : State := memErrorIn (0x100000000 ≤ pa) ue mid pa s

/-- The poisoned word that an access to `n` bytes meets first: it reads whole units where the region is encrypted
(R337, R400). -/
def poisonAt (s : State) (pa n : Nat) : Option Nat :=
  let u (a : Nat) : Nat := if encrypted s a then 16 else 4
  let a := pa / u pa * u pa
  let e := (pa + n + (u (pa + n - 1) - 1)) / u (pa + n - 1) * u (pa + n - 1)
  (s.poison.filter (fun p => p < e && a < p + 4)).min?
/-- An access to `n` bytes meets a poisoned word. -/
def poisoned (s : State) (pa n : Nat) : Bool := (poisonAt s pa n).isSome
/-- Where the error of an access lies (R365): at its poisoned word, else at the word read; which word of a longer access
failed is a free value. -/
def errorAt (pa n : Nat) (s : State) : Nat × State :=
  match poisonAt s pa n with
  | some p => (max pa p, s)
  | none =>
    let words := (pa + n - 1) / 4 - pa / 4 + 1
    if words = 1 then (pa, s) else let (x, s1) := s.draw; (max pa (pa / 4 * 4 + 4 * (x % words)), s1)
/-- An access fails by an uncorrectable error. -/
def memFails (mid pa n : Nat) (s : State) : State :=
  let r := errorAt pa n s
  memError true mid r.1 r.2

/-! ### Flash reads (R368, R370–R373, R382) -/

/-- The offset of a flash address, its bank and its sector (R367). -/
abbrev flOff (pa : Nat) : Nat := pa - 0x01000000
abbrev flBank (pa : Nat) : Nat := flOff pa / 0x800000
abbrev flSector (pa : Nat) : Nat := flOff pa / 0x8000
/-- Address of a sector. -/
abbrev flAddr (sector : Nat) : Nat := 0x01000000 + 0x8000 * sector
/-- A bank is busy (R373). -/
def flBusy (s : State) (k : Nat) : Bool := (s.fop k).kind = 1 || (s.fop k).kind = 2

/-- A line enters a list with the newest first, of which `n` are kept. -/
def lruTouch (n line : Nat) (l : List Nat) : List Nat := (line :: l.filter (· ≠ line)).take n

/-- The line buffers and the branch cache after a read (R371). -/
def flTouch (mid sub pa : Nat) (fetch : Bool) (s : State) : State :=
  let k := flBank pa
  let line := pa / 32
  let cfg := s.rg (ra .flc Flc.RDCFG)
  let bufs := Tbl.get (fun _ => []) s.flash.bufs k
  let hit := bufs.contains line || s.flash.branch.contains line
  let b1 := lruTouch 4 line bufs
  let b2 := if fetch && bufs.contains line && tb cfg 0 && 16 ≤ pa % 32 && flBank (pa + 32) = k then
      lruTouch 4 (line + 1) b1 else b1
  let who := mid * 4 + sub
  let lastF := Tbl.get (fun _ => 0) s.flash.fetched who
  let seqF := lastF ≤ pa && pa ≤ lastF + 8
  let br := if fetch && tb cfg 1 then
      (if s.flash.branch.contains line || (!hit && !seqF) then lruTouch 32 line s.flash.branch else s.flash.branch)
    else s.flash.branch
  { s with flash.bufs := Tbl.set (fun _ => []) s.flash.bufs k b2, flash.branch := br,
           flash.fetched := if fetch then Tbl.set (fun _ => 0) s.flash.fetched who pa else s.flash.fetched }

/-- `n` free bytes. -/
def drawBytes : Nat → State → List Byte × State
  | 0, s => ([], s)
  | n + 1, s =>
    let (x, s1) := s.draw
    let (l, s2) := drawBytes n s1
    (BitVec.ofNat 8 x :: l, s2)

/-- A read within one line of the flash array: busy banks refuse it, check bits correct it or fail it, and a torn
sector gives whatever it gives (R368, R373, R382). -/
def lineRead (mid sub : Nat) (fetch : Bool) (ecc : Ecc) (pa n : Nat) (s : State) : Except BusErr (List Byte) × State :=
  let k := flBank pa
  if flBusy s k then (.error .bus, s.setRgBit (ra .flc Flc.STAT) (4 + k) true)
  else
    let s1 := flTouch mid sub pa fetch s
    match ecc with
    | .double =>
      let s2 := (bump .flc 0 Flc.UE_CNT s1).setRg (ra .flc Flc.UEADDR) (w32 (mid * 2 ^ 24 + flOff pa))
      (.error .ecc, raiseEvent 0x493 (s2.setRgBit (ra .flc Flc.STAT) 3 true))
    | e =>
      let s2 := if e = .corrected then
          raiseEvent 0x492 ((bump .flc 0 Flc.CE_CNT s1).setRgBit (ra .flc Flc.STAT) 2 true) else s1
      if s2.flash.undef.contains (flSector pa) then
        let (bs, s3) := drawBytes n s2
        (.ok bs, s3)
      else (.ok (s2.bytes pa n), s2)

/-- The first `lines` lines of a read of the flash array, one after the other (R370); the check bits of line number
`bad` show `ecc`. -/
def linesRead (mid sub : Nat) (fetch : Bool) (ecc : Ecc) (bad : Nat) :
    Nat → Nat → Nat → State → Except BusErr (List Byte) × State
  | 0, _, _, s => (.ok [], s)
  | lines + 1, pa, n, s =>
    let k := min n (32 - pa % 32)
    match lineRead mid sub fetch (if bad = 0 then ecc else .clean) pa k s with
    | (.error e, s1) => (.error e, s1)
    | (.ok bs, s1) =>
      match linesRead mid sub fetch (if bad = 0 then .clean else ecc) (bad - 1) lines (pa + k) (n - k) s1 with
      | (.ok t, s2) => (.ok (bs ++ t), s2)
      | (.error e, s2) => (.error e, s2)
/-- A read of the flash array: line by line (R370); in which line of a longer read an error lies is a free value. -/
def flashRead (mid sub : Nat) (fetch : Bool) (ecc : Ecc) (pa n : Nat) (s : State) : Except BusErr (List Byte) × State :=
  let lines := (pa + n - 1) / 32 - pa / 32 + 1
  if lines = 1 ∨ ecc = .clean then linesRead mid sub fetch ecc 0 lines pa n s
  else let (x, s1) := s.draw; linesRead mid sub fetch ecc (x % lines) lines pa n s1

/-- `FLC.CTRL.INV`, or a patch unit's change (R372, R484). -/
def flInvalidate (s : State) : State := { s with flash.bufs := [], flash.branch := [] }

/-- The end of a program or erase invalidates its bank's buffers (R372). -/
def flInvBank (k : Nat) (s : State) : State :=
  { s with flash.bufs := Tbl.set (fun _ => []) s.flash.bufs k [],
           flash.branch := s.flash.branch.filter (fun l => flBank (32 * l) ≠ k) }

/-! ### Reads and writes -/

/-- The address lies in a register window. -/
def isDevice (s : State) (pa : Nat) : Bool :=
  match regionOf s pa with
  | .periph | .bridle | .pmu => true
  | _ => false

/-- A memory that an access finds: not outside the map, nor an island that tests, is fenced or is powered down
(R335, R339, R355). -/
def memThere (s : State) (pa : Nat) : Bool :=
  match regionOf s pa with
  | .none | .periph | .bridle | .pmu => false
  | .isl i => islState s i ≤ 2
  | .ctxmem e => islState s (e / 4) ≤ 2
  | _ => true

/-- A range of `n` bytes meets a secure partner's entry or a secure queue's control block, from the non-secure world
(R295, R299). -/
def ctlRefuses (s : State) (sec : Bool) (pa n : Nat) : Bool :=
  !sec && match regionOf s pa with
    | .ptab => (List.range ((pa + n - 1) / 32 - pa / 32 + 1)).any (fun i => ptWorld s ((pa - 0x28100000) / 32 + i))
    | .qctl => (List.range ((pa + n - 1) / 16 - pa / 16 + 1)).any (fun i => qWorld s ((pa - 0x28200000) / 16 + i))
    | _ => false

/-- The device secret reads 0 from the non-secure world (R401). -/
def secretByte (sec : Bool) (pa : Nat) : Bool := !sec && 0x08008180 ≤ pa && pa < 0x080081A0

/-- The remap unit that answers for the flash word at `a` (R483): the lowest-numbered enabled one of `KIND` 00. -/
def remapUnit (s : State) (a : Nat) : Option Nat :=
  (List.range 64).find? (fun k =>
    let c := s.rg (ra .patch (Patch.K_CTRL k))
    tb c 31 && fld c 29 28 = 0 && (s.rg (ra .patch (Patch.K_ADDR_LO k))).toNat = a
      && s.rg (ra .patch (Patch.K_ADDR_HI k)) = 0)

/-- The bytes of a flash read as the patch units show them (R483, R484): not to debug reads, nor to `SV` while it
runs from ROM. -/
def remapped (s : State) (m : Master) (pa : Nat) (bs : List Byte) : List Byte :=
  if m.mid = 24 || otpAnswers s m then bs
  else bs.zipIdx.map (fun p =>
    let a := pa + p.2
    match remapUnit s (a / 4 * 4) with
    | some k => (toBytes 4 (s.rg (ra .patch (Patch.K_DATA k))).toNat).getD (a % 4) 0
    | none => p.1)

/-- A byte of the information area (R384): the erase journal shows the records of its copies, and the secrets of OTP read 0
to the other world. -/
def infoByte (s : State) (sec : Bool) (pa : Nat) : Byte :=
  let o := pa - 0x08000000
  if secretByte sec pa then 0
  else if 0x2000 ≤ o ∧ o < 0x4000 then Config.journalByte (s.flash.copies.getD (o / 0x1000 - 2) []) (o % 0x1000)
  else s.byte pa

/-- A read of memory by a Twill master. -/
def memRead (m : Master) (fetch : Bool) (ecc : Ecc) (pa n : Nat) (s : State) : Except BusErr (List Byte) × State :=
  if m.reserved || !memThere s pa || !memThere s (pa + n - 1) || ctlRefuses s m.sec pa n then (.error .bus, s)
  else
    let (bad, s1) := worldSpan m.mid m.sub m.sec pa n false s
    if bad then (.error .world, s1)
    else match regionOf s pa with
      | .flash =>
        let (r, s2) := flashRead m.mid m.sub fetch ecc pa n s1
        (r.map (remapped s2 m pa), s2)
      | .rom => (.ok (s1.bytes pa n), s1)
      | .info => (.ok ((List.range n).map (fun i => infoByte s1 m.sec (pa + i))), s1)
      | _ =>
        if ecc = .double || poisoned s pa n then (.error .ecc, memFails m.mid pa n s1)
        else
          let s2 := if ecc = .corrected then memError false m.mid pa s1 else s1
          (.ok (s2.bytes pa n), s2)

/-- A word of the partner table or the queue control state is written (R295, R299). -/
def ctlWord (sec : Bool) (a : Nat) (v : Word) (s : State) : Bool × State :=
  if a < 0x28200000 then ptabWrite sec ((a - 0x28100000) / 32) (a % 32 / 4) v s
  else qctlWrite sec ((a - 0x28200000) / 16) (a % 16 / 4) v s

/-- What a partial write of the unit at `a` found in it (R337): an error of two bits leaves the unit's words
poisoned. -/
def partFound (mid : Nat) (ecc : Ecc) (a u : Nat) (old s : State) : State :=
  if ecc = .double || poisoned old a u then
    memError true mid a { s with poison := (s.poison ++ (List.range (u / 4)).map (fun i => a + 4 * i)).eraseDups }
  else if ecc = .corrected then memError false mid a s else s

/-- Bytes written into the control memories, word by word in ascending order. -/
def ctlWrite (mid : Nat) (sec : Bool) (ecc : Ecc) (pa : Nat) (bs : List Byte) (s : State) : Bool × State :=
  let first := pa / 4
  let words := (pa + bs.length - 1) / 4 - first + 1
  (List.range words).foldl (fun (r : Bool × State) i =>
    let a := (first + i) * 4
    let v := ofBytes ((List.range 4).map (fun j =>
      if pa ≤ a + j ∧ a + j < pa + bs.length then bs.getD (a + j - pa) 0 else r.2.byte (a + j)))
    let (ok, s1) := ctlWord sec a (w32 v) r.2
    (r.1 && ok, if ok && (a < pa || pa + bs.length < a + 4) then partFound mid ecc a 4 r.2 s1 else s1)) (true, s)

/-- The units that a range covers only in part (R337, R354, R400). -/
def partUnits (s : State) (pa n : Nat) : List Nat :=
  let u := eccUnit s pa
  let v := eccUnit s (pa + n - 1)
  ((if pa % u ≠ 0 then [pa / u * u] else []) ++ (if (pa + n) % v ≠ 0 then [(pa + n) / v * v] else [])).eraseDups

/-- A write of memory by a Twill master; `ecc` is what the read inside a partial write finds (R337, R369).  `back`
marks a write-back of cached stores. -/
def memWriteWith (back : Bool) (m : Master) (ecc : Ecc) (pa : Nat) (bs : List Byte) (s : State) : Option BusErr × State :=
  let n := bs.length
  if m.reserved || !memThere s pa || !memThere s (pa + n - 1) || ctlRefuses s m.sec pa n then (some .bus, s)
  else match regionOf s pa with
    | .rom | .flash | .info => (some .bus, s)
    | r =>
      let (bad, s1) := worldSpan m.mid m.sub m.sec pa n true s
      if bad then (some .world, s1)
      else if r = .ptab ∨ r = .qctl then
        let (ok, s2) := ctlWrite m.mid m.sec ecc pa bs s1
        (if ok then none else some .bus, s2)
      else
        let s2 := if back then storeBack pa bs s1 else store pa bs s1
        (none, (partUnits s1 pa n).foldl (fun s a => partFound m.mid ecc a (eccUnit s1 a) s1 s) s2)

/-- A write of memory by a Twill master. -/
def memWrite (m : Master) (ecc : Ecc) (pa : Nat) (bs : List Byte) (s : State) : Option BusErr × State :=
  memWriteWith false m ecc pa bs s

/-- The answer of an access as an outside master sees it. -/
def errResp : BusErr → Resp
  | .bus => .err
  | .ecc => .ecc
  | .world => .world

/-! ### Transfers of the block's own masters (R11, R25, R391) -/

/-- What the read inside a write by one of the block's own masters finds (R337): a free value where the write covers a
unit only in part. -/
def agentEcc (a n : Nat) (s : State) : Ecc × State :=
  if (partUnits s a n).isEmpty then (.clean, s)
  else let (x, s1) := s.draw; (match x % 3 with | 1 => .corrected | 2 => .double | _ => .clean, s1)
/-- A write by one of the block's own Twill masters, under its MID and world: whether it was done. -/
def agentWrite (mid : Fin 32) (sec : Bool) (a : Nat) (bs : List Byte) (s : State) : Bool × State :=
  let e := agentEcc a bs.length s
  let r := memWrite { mid := mid, sub := 0, sec := sec } e.1 a bs e.2
  (r.1.isNone, r.2)
/-- A read by one of the block's own Twill masters: none for an error response, a refusal or an uncorrectable
error. -/
def agentRead (mid : Fin 32) (sec : Bool) (a n : Nat) (s : State) : Option (List Byte) × State :=
  match memRead { mid := mid, sub := 0, sec := sec } false .clean a n s with
  | (.ok bs, s1) => (some bs, s1)
  | (.error _, s1) => (none, s1)
/-- One of the block's own masters reaches control words, to read or to write them (R11, R25): the region map may refuse
it, which is recorded, and a poisoned word fails. -/
def ctlOpen (mid : Fin 32) (sec : Bool) (a n : Nat) (write : Bool) (s : State) : Bool × State :=
  match worldSpan mid 0 sec a n write s with
  | (true, s1) => (false, s1)
  | (false, s1) => if poisoned s1 a n then (false, memFails mid a n s1) else (true, s1)
/-- The control block of a queue is open to a port or to the queue manager, which carries the queue's world (R391). -/
def queueOpen (mid : Fin 32) (q : Nat) (s : State) : Bool × State := ctlOpen mid (qWorld s q) (qAddr q 0) 16 true s
/-- The entry of a partner is open to a port: it carries the world of the partner's queue that it serves (R391, log entry
69). -/
def partnerOpen (mid : Fin 32) (q p : Nat) (s : State) : Bool × State := ctlOpen mid (qWorld s q) (ptabAddr p 0) 32 false s
/-- A port counts in a partner's entry (R296). -/
def countEntry (mid : Fin 32) (q p k : Nat) (s : State) : State :=
  let r := ctlOpen mid (qWorld s q) (ptabAddr p 0) 32 true s
  if r.1 then ptCount p k r.2 else r.2
/-- A copy by one of the block's own Twill masters: whether both halves were done. -/
def agentCopy (mid : Fin 32) (sec : Bool) (src dst n : Nat) (s : State) : Bool × State :=
  match agentRead mid sec src n s with
  | (some bs, s1) => agentWrite mid sec dst bs s1
  | (none, s1) => (false, s1)
/-- The MIDs of the block's own masters (R25). -/
abbrev midSv : Fin 32 := 0
abbrev midQm : Fin 32 := 17
/-- An Ethernet port. -/
abbrev midEth (p : Nat) : Fin 32 := if p = 0 then 18 else 19
abbrev midGirth : Fin 32 := 21
abbrev midTeth : Fin 32 := 20
abbrev midAwl : Fin 32 := 22
abbrev midSadl : Fin 32 := 25
abbrev midStc : Fin 32 := 26

/-! ### Scrubbers (R338) -/

/-- The memories of the on-chip scrubber: start and words. -/
def scrubRanges : List (Nat × Nat) :=
  [(0x20000000, 0x200000), (0x28000000, 0x20000), (0x28100000, 0x8000), (0x28200000, 0x8000), (0x30000000, 0x80000),
   (0x31000000, 0x80000)]

/-- The address of word `k` of a list of ranges; none past its end. -/
def scrubAddr : List (Nat × Nat) → Nat → Option Nat
  | [], _ => none
  | (a, n) :: t, k => if k < n then some (a + 4 * k) else scrubAddr t (k - n)

/-- Ticks between two reads of a scrubber (R338): a pass takes `SRAMS` seconds or `DDRM` minutes; none when it is
stopped. -/
def scrubEvery (ddr : Bool) (s : State) : Option Nat :=
  let cfg := s.rg (ra .memc Memc.SCRUB)
  let n := if ddr then ddrBytes s / 4 else (scrubRanges.map Prod.snd).foldl (· + ·) 0
  let t := if ddr then fld cfg 23 16 * 60 else fld cfg 7 0
  if t = 0 ∨ n = 0 then none else some (t * 800000000 / n)
/-- The next read of a scrubber is due. -/
def scrubDue (ddr : Bool) (s : State) : Bool :=
  match scrubEvery ddr s with
  | some n => reached 64 s.time.selvedge.toNat ((if ddr then s.dma.readD else s.dma.readS) + w64 n).toNat
  | none => false

/-- The scrubber of the on-chip memories (`ddr` false) or of the LPDDR 4X reads the next word of its pass.  The
MID that `UEADDR` shows for it is a free value. -/
def scrubRead (ddr : Bool) (ecc : Ecc) (s : State) : State :=
  if !scrubDue ddr s then s
  else
    let ranges := if ddr then [(0x100000000, ddrBytes s / 4)] else scrubRanges
    let k := if ddr then s.dma.scrubD else s.dma.scrubS
    let (k, at_) := match scrubAddr ranges k with | some a => (k, some a) | none => (0, scrubAddr ranges 0)
    match at_ with
    | none => s
    | some a =>
      let s1 := if ddr then { s with dma.scrubD := k + 1, dma.readD := s.time.selvedge }
        else { s with dma.scrubS := k + 1, dma.readS := s.time.selvedge }
      let skip : Bool := match regionOf s a with
        | .isl i => islState s i = 3 || islState s i = 5
        | .ctxmem e => islState s (e / 4) = 3 || islState s (e / 4) = 5
        | _ => false
      if skip then s1
      else
        let (x, s2) := s1.draw
        if ecc = .double || poisoned s a 4 then memError true (x % 32) a s2
        else if ecc = .corrected then memError false (x % 32) a s2 else s1

/-! ### LPDDR 4X (R353, R355) -/

/-- Installed capacity in MiB that `MEMC.CFG` gives; none when it is refused (R353). -/
def memcCapacity (cfg : Word) : Option Nat :=
  let d := fld cfg 26 24
  let mib := (if tb cfg 27 then 2 else 1) * 2 ^ d * 512
  if d > 3 ∨ mib > 4096 then none else some mib

/-- A write of `MEMC.CTRL` (R353, R355). -/
def memcInit (v : Word) (s : State) : Resp × State :=
  let st := ra .memc Memc.STAT
  if !tb v 0 || tb (s.rg st) 31 then (.ok 0, s)
  else
    let s1 := (s.setRgBit st 30 false).setRgBit st 29 false
    match memcCapacity (s.rg (ra .memc Memc.CFG)) with
    | none => (.ok 0, s1.setRgBit st 29 true)
    | some _ => (.ok 0, { s1 with dma.training := true })

/-- Training ends (R355): the window is clear and ready, or has failed; contents kept through HIBERNATE are not
cleared (R424). -/
def memcTrained (ok : Bool) (s : State) : State :=
  let st := ra .memc Memc.STAT
  if !s.dma.training then s
  else
    let s1 := { s with dma.training := false }
    match ok, memcCapacity (s.rg (ra .memc Memc.CFG)) with
    | true, some mib =>
      let s2 := if s1.power.ddrKept then { s1 with power.ddrKept := false }
        else { s1 with mem := s1.mem.filter (fun c => c.1 < 0x100000000),
                       poison := s1.poison.filter (fun a => a < 0x100000000) }
      (s2.setRgFld st 27 16 (mib * 7 / 8)).setRgBit st 31 true
    | _, _ => s1.setRgBit st 30 true

/-- A write of any `MEMC` register. -/
def memcWrite (o : Nat) (v : Word) (sec : Bool) (s : State) : Resp × State :=
  if o = Memc.CTRL then memcInit v s
  else if o = Memc.CFG && tb (s.rg (ra .memc Memc.STAT)) 31 then (.ok 0, s)
  else (.ok 0, plainWrite .memc 0 o v sec s)

/-! ### Commands -/

def execScrubRead (ddr : Bool) (ecc : Ecc) (s : State) : Host.Outcome State Fault Refusal := .next (scrubRead ddr ecc s)
def execMemcInit (m : Master) (v : Word) (s : State) : Host.Outcome State Fault Refusal :=
  .next (regAccess m (ra .memc Memc.CTRL) (memcInit v) s)
def execMemcTrained (ok : Bool) (s : State) : Host.Outcome State Fault Refusal := .next (memcTrained ok s)
/-- What a read with the debug attribute that goes from `s` to `s1` leaves changed (R9): the free values it took, and
`BUSYRD`, which every read of a busy bank sets (R373). -/
def debugLeaves (s s1 : State) : State :=
  let st := ra .flc Flc.STAT
  let s2 := { s with free := s1.free }
  if fld (s1.rg st) 5 4 = fld (s.rg st) 5 4 then s2 else s2.setRgFld st 5 4 (fld (s1.rg st) 5 4)

/-- `FLASH_READ`: a read or fetch of 1, 2 or 4 bytes within an aligned word; one with the debug attribute changes no
register but `BUSYRD` (R9, R373). -/
def execFlashRead (m : Master) (off : BitVec 24) (size : Fin 3) (fetch : Bool) (ecc : Ecc) (s : State) :
    Host.Outcome State Fault Refusal :=
  let n := 2 ^ size.val
  let (r, s1) := memRead m fetch ecc (0x01000000 + off.toNat / n * n) n s
  let s2 := if m.mid = 24 then debugLeaves s s1 else s1
  .next { s2 with resp := match r with | .ok bs => .ok (w32 (ofBytes bs)) | .error e => errResp e }
def execFlcInv (m : Master) (v : Word) (s : State) : Host.Outcome State Fault Refusal :=
  .next (regAccess m (ra .flc Flc.CTRL) (fun s => (.ok 0, if tb v 0 then flInvalidate s else s)) s)

end Sys2Proof.Machine
end

