-- ==== Sys2Proof/Machine/Dma.lean ====
section
/-! DEFINITION. The registers of the DMA channels (R361–R363, R366). -/

namespace Sys2Proof.Machine

/-- `DMA_c.CFG` and `DMA_c.STAT`. -/
abbrev dmaCfg (s : State) (c : Nat) : Word := s.rg (ra .dma (Dma.CH_CFG c))
abbrev dmaStat (s : State) (c : Nat) : Word := s.rg (ra .dma (Dma.CH_STAT c))
/-- Sets a bit of `DMA_c.STAT`. -/
def dmaFlag (c i : Nat) (b : Bool) (s : State) : State := s.setRgBit (ra .dma (Dma.CH_STAT c)) i b
/-- Bytes of a ring: 32 per descriptor; `RSIZE` outside 1–12 acts as 4 (R366). -/
def ringSlots (s : State) (c : Nat) : Nat :=
  let r := fld (dmaCfg s c) 11 8
  2 ^ (if 1 ≤ r ∧ r ≤ 12 then r else 4)
/-- The address of a ring: `RBASE` holds address bits [39:8]. -/
abbrev ringBase (s : State) (c : Nat) : Nat := (s.rg (ra .dma (Dma.CH_RBASE c))).toNat * 256

/-- A ring without automatic placement lies in Twill SRAM, an island memory or the LPDDR 4X (R363).  Its
alignment to 256 bytes is the form of `RBASE`. -/
def ringPlaceOk (s : State) (base n : Nat) : Bool := (qLevel s base n).isSome

/-- The channel stops (R362). -/
def dmaStop (c : Nat) (s : State) : State :=
  let s1 := s.setChan c {}
  (((s1.setRgBit (ra .dma (Dma.CH_CFG c)) 31 false).setRgFld (ra .dma (Dma.CH_STAT c)) 31 29 0).setRg
    (ra .dma (Dma.CH_CUR c)) 0)

/-- `EN` changes from 0 to 1 (R362, R363). -/
def dmaStart (c : Nat) (s : State) : State :=
  let cfg := dmaCfg s c
  let s1 := if tb cfg 29 then s else s.setRg (ra .dma (Dma.CH_HEAD c)) 0
  let s2 := s1.setChan c { s1.chan c with idle := false }
  let on (s : State) : State := dmaFlag c 31 true (s.setRgBit (ra .dma (Dma.CH_CFG c)) 31 true)
  if tb cfg 28 then on (dmaFlag c 29 false s2)
  else if ringPlaceOk s2 (ringBase s2 c) (32 * ringSlots s2 c) then dmaFlag c 29 true (on s2)
  else dmaFlag c 5 true s

/-- A write of `DMA_c.CFG` (R362, R363): `WORLD`, `GMODE`, `AUTO` and `RSIZE` keep their values while `EN` = 1,
and the write that sets `EN` sets them first.  `EN` cleared with no descriptor in progress stops the
channel. -/
def dmaEnable (c : Nat) (v : Word) (sec : Bool) (s : State) : Resp × State :=
  let a := ra .dma (Dma.CH_CFG c)
  let old := s.rg a
  if tb old 31 then
    let s1 := s.setRg a (setBit (setFld old 25 24 (fld v 25 24)) 31 (tb v 31))
    (.ok 0, if !tb v 31 && (s.chan c).run.isNone then dmaStop c s1 else s1)
  else
    let s1 := (plainWrite .dma 0 (Dma.CH_CFG c) v sec s).setRgBit a 31 false
    (.ok 0, if tb v 31 then dmaStart c s1 else s1)

/-- The Saddler places an automatic ring in the Twill SRAM (R247) at `base`, in units of 256 bytes, or finds no
room (R363). -/
def ringPlaced (c : Nat) (base : Option Word) (s : State) : State :=
  let cfg := dmaCfg s c
  if !(tb cfg 31 && tb cfg 28 && !tb (dmaStat s c) 29) then s
  else
    let n := 32 * ringSlots s c
    match base with
    | some b =>
      if qLevel s (b.toNat * 256) n = some 2 then
        dmaFlag c 29 true (agentWrite midSadl true (b.toNat * 256) (List.replicate n 0) (s.setRg (ra .dma (Dma.CH_RBASE c)) b)).2
      else dmaFlag c 5 true (dmaStop c s)
    | none => dmaFlag c 5 true (dmaStop c s)

/-- A write of `DMA_c.KICK`: the head descriptor is read again (R358, R363). -/
def dmaKick (c : Nat) (v : Word) (s : State) : Resp × State :=
  (.ok 0, if tb v 0 && tb (dmaStat s c) 29 then s.setChan c { s.chan c with idle := false, held := none } else s)

/-- A write of any `DMA` register. -/
def dmaWrite (o : Nat) (v : Word) (sec : Bool) (s : State) : Resp × State :=
  if o < 0x1000 ∨ 0x1800 ≤ o then (.ok 0, plainWrite .dma 0 o v sec s)
  else
    let c := (o - 0x1000) / 0x40
    let r := o % 0x40
    if r = 0 then dmaEnable c v sec s
    else if r = 0xC then dmaKick c v s
    else if r = 4 && tb (dmaCfg s c) 31 then (.ok 0, s)
    else (.ok 0, plainWrite .dma 0 o v sec s)

/-- `DMA.GSTAT`: the channels with a flag whose `IEN` bit is set (R366). -/
def dmaGstat (s : State) : Word :=
  w32 (((List.range 32).filter (fun c =>
    fld (dmaStat s c &&& s.rg (ra .dma (Dma.CH_IEN c))) 5 1 ≠ 0)).foldl (fun a c => a + 2 ^ c) 0)

def execDmaEnable (m : Master) (c : Fin 32) (v : Word) (s : State) : Host.Outcome State Fault Refusal :=
  .next (regAccess m (ra .dma (Dma.CH_CFG c)) (dmaEnable c v m.sec) s)
def execDmaRingPlaced (c : Fin 32) (base : Option Word) (s : State) : Host.Outcome State Fault Refusal :=
  .next (ringPlaced c base s)
def execKick (m : Master) (c : Fin 32) (v : Word) (s : State) : Host.Outcome State Fault Refusal :=
  .next (regAccess m (ra .dma (Dma.CH_KICK c)) (dmaKick c v) s)
/-- `DMA_CHANNEL_REQUEST`: the occurrences at places `is` reach a DMA channel. -/
def execDmaChannelRequest (is : List Nat) (s : State) : Host.Outcome State Fault Refusal :=
  .next (deliver (fun f => f.kind = 4) is [] s)

end Sys2Proof.Machine
end

