-- ==== Sys2Proof/Machine/Axis.lean ====
section
/-! DEFINITION. What every part of the axis path shares: the flags of `AX_a.AXST`, the Saddler's notices and
journal (R254, R255), who serves an axis slot (R161), and samples with their answers and deadlines
(R256–R258). -/

namespace Sys2Proof.Machine

/-- Sets bit `i` of `AX_a.AXST`. -/
def axst (a i : Nat) (s : State) : State := if a < 128 then s.setRgBit (ra .sadl (Sadl.AX_AXST a)) i true else s

/-- A `SADL.NOTICE` bit is set, which raises event 0x3E0 (R263). -/
def sadlNotice (i : Nat) (s : State) : State := raiseEvent 0x3E0 (s.setRgBit (ra .sadl Sadl.NOTICE) i true)

/-- Words 2 and 3 of a journal record: engine and bank (R255). -/
abbrev locWord (key : Nat) : Nat := (key / 16) * 2 ^ 24 + (key % 16) * 2 ^ 16

/-- Records in the journal's ring (R254); `SIZE` is clamped into 4–16 (log entry 11). -/
def journalSize (s : State) : Nat := 2 ^ max 4 (min 16 (fld (s.rg (ra .sadl Sadl.JCFG)) 4 0))

/-- The Saddler journals one decision (R254, R255) as Twill master 25.  DESIGN CHOICE (log entry 69): a record whose
write fails is lost, and no event is raised for it. -/
def journal (act ctx res agent src dst : Nat) (s : State) : State :=
  if !tb (s.rg (ra .sadl Sadl.JCFG)) 31 then s
  else
    let n := journalSize s
    let w := fld (s.rg (ra .sadl Sadl.JW)) 15 0 % n
    if (w + 1) % n = fld (s.rg (ra .sadl Sadl.JR)) 15 0 % n then
      sadlNotice 8 (bump .sadl 0 Sadl.JOVF_CNT s)
    else
      let rec4 := toBytes 4 (s.time.selvedge.toNat) ++
        toBytes 4 (act * 2 ^ 24 + (ctx % 256) * 2 ^ 16 + (res % 256) * 256 + agent) ++
        toBytes 4 src ++ toBytes 4 dst
      let base := (s.rg (ra .sadl Sadl.JBASE)).toNat * 256
      let (ok, s1) := agentWrite midSadl true (base + 16 * w) rec4 s
      let s2 := s1.setRg (ra .sadl Sadl.JW) (w32 ((w + 1) % n))
      if ok then raiseEvent 0x3E1 s2 else s2

/-! ### Who serves an axis slot (R160, R161) -/

/-- `PWM_B_b.CFG.EN`. -/
abbrev pwmEn (s : State) (b : Nat) : Bool := tb (s.rg (ri .pwm b Pwm.CFG)) 31
/-- `PWM_B_b.CFG.SRC`. -/
abbrev pwmSrc (s : State) (b : Nat) : Bool := tb (s.rg (ri .pwm b Pwm.CFG)) 30
/-- `PWM_B_b.AXIS`. -/
abbrev pwmAxis (s : State) (b : Nat) : Nat := fld (s.rg (ri .pwm b Pwm.AXIS)) 7 0
/-- `TETH_l.AX_a.EN`. -/
abbrev tethEn (s : State) (l a : Nat) : Bool := tb (s.rg (ri .teth l (Teth.AX_AX a))) 31
/-- `TETH_l.AX_a.SLOT`. -/
abbrev tethSlot (s : State) (l a : Nat) : Nat := fld (s.rg (ri .teth l (Teth.AX_AX a))) 7 0

/-- The enabled local bridge that serves an axis slot. -/
def bridgeOf (s : State) (x : Nat) : Option Nat :=
  (List.range 12).find? (fun b => pwmEn s b && pwmAxis s b = x)
/-- The enabled Tether axis, as (link, axis), that serves a slot. -/
def linkOf (s : State) (x : Nat) : Option (Nat × Nat) :=
  ((List.range 16).flatMap (fun l => (List.range 8).map (fun a => (l, a)))).find?
    (fun p => tethEn s p.1 p.2 && tethSlot s p.1 p.2 = x)
/-- The slot is served already (R161). -/
def slotServed (s : State) (x : Nat) : Bool := (bridgeOf s x).isSome || (linkOf s x).isSome

/-- One of the block's own masters writes bytes into every bank bound to a context (R230, R249, R283), under the world
of the context; the Saddler is secure (R391).  The sample port carries no master identity and the local feedback sources
have none in the table of R25 (`none`, log entry 69). -/
def bankWrite (mid : Option (Fin 32)) (n off : Nat) (bs : List Byte) (s : State) : State :=
  match mid with
  | none => writeBanks n off bs s
  | some m => (boundBanks s n).foldl (fun s k =>
      (agentWrite m ((s.bank k).world || m = midSadl) (bankAddr k + off) bs s).2) s

/-- A bank is bound to the context. -/
def ctxBound (s : State) (n : Nat) : Bool := !(boundBanks s n).isEmpty

/-! ### Samples and answers (R256–R258) -/

/-- A sample waits for its answer (R257). -/
def sampleOpen (a : Nat) (time deadline : DWord) (s : State) : State :=
  s.setAx a { s.ax a with samples := (s.ax a).samples ++ [{ time := time, deadline := deadline }] }

/-- The compare of a sample's bundles begins (R250, R252). -/
def compareBegin (a : Nat) (deadline : DWord) (s : State) : State :=
  let x := s.ax a
  let shadow : Bool := match (s.ctx a).mig with | some m => m.step = 3 | none => false
  s.setAx a { x with cmps := x.cmps ++ [{ deadline := deadline, shadow := shadow }], doneA := false, doneB := false }

/-- A sample of an axis has been taken, with its commit deadline (R256). -/
def sampleTaken (a : Nat) (time deadline : DWord) (s : State) : State := compareBegin a deadline (sampleOpen a time deadline s)

/-- A deadline miss of an axis (R257). -/
def recordMiss (a : Nat) (s : State) : State :=
  raiseEvent 0x3E3 (axst a 1 (bump .sadl 0 (Sadl.AX_MISS_CNT a) s))

/-- Counts one answer in the histogram (R258). -/
def histogram (a : Nat) (latency : Nat) (s : State) : State :=
  let w := max 1 (fld (s.rg (ra .sadl Sadl.HISTCFG)) 7 0)
  bump .sadl 0 (Sadl.AX_HIST a (min (latency / w) 15)) s

/-- A bundle of an axis reaches the edge port: it answers every sample that has had no answer (R257, R258,
log entry 12). -/
def answerSamples (a : Nat) (s : State) : State :=
  let x := s.ax a
  let s1 := s.setAx a { x with samples := [] }
  x.samples.foldl (fun s o =>
    let s2 := bump .sadl 0 (Sadl.AX_COMMIT_CNT a) s
    let s3 := if !o.missed && newer 64 s.time.selvedge.toNat o.deadline.toNat then recordMiss a s2 else s2
    histogram a (s.time.selvedge - o.time).toNat s3) s1

/-- The commit deadline of an unanswered sample has passed (R257). -/
def deadlinePassed (a : Nat) (s : State) : State :=
  let x := s.ax a
  let due (o : OpenSample) : Bool := !o.missed && newer 64 s.time.selvedge.toNat o.deadline.toNat
  let s1 := s.setAx a { x with samples := x.samples.map (fun o => if due o then { o with missed := true } else o) }
  (x.samples.filter due).foldl (fun s _ => recordMiss a s) s1

/-- Counts a sample or feedback block of a slot discarded for want of a bank (R12). -/
def axisDrop (a : Nat) (s : State) : State := if a < 128 then bump .sadl 0 (Sadl.AX_DROPS a) s else s

end Sys2Proof.Machine
end

