-- ==== Sys2Proof/Machine/Trips.lean ====
section
/-! DEFINITION. Window comparators and trip inputs as the timing island sees them (R150–R152): blanking, the
stand-in of R154, the trips of a bridge. -/

namespace Sys2Proof.Machine

/-- The coarse-tick count Selvedge[63:1] (R102). -/
abbrev coarse (s : State) : Nat := s.time.selvedge.toNat / 2

/-- Bridge `b` is inside its blanking window (R151). -/
def blanked (s : State) (b : Nat) : Bool := coarse s < Tbl.get (fun _ => 0) s.conv.blankEnd b

/-- An output edge of a bridge opens its blanking window, or extends an open one (R151). -/
def openBlank (b : Nat) (s : State) : State :=
  let n := fld (s.rg (ra .cmp (Cmp.BLANK b))) 10 0
  let e := Tbl.get (fun _ => 0) s.conv.blankEnd b
  { s with conv.blankEnd := Tbl.set (fun _ => 0) s.conv.blankEnd b (max e (coarse s + n)) }

/-- `CMP.STAT_i.STANDIN`. -/
def standIn (s : State) (i : Nat) : Bool := tb (s.rg (ra .cmp (Cmp.STAT i))) 4
/-- Whether a window comparator is out: above `HI` or below `LO`, and in again only inside both by `HYST` (R150).
`v` is the input level in 1/16 threshold step, `was` whether it is out now. -/
def windowOut (thr hyst : Nat) (was : Bool) (v : Nat) : Bool :=
  let hi := thr / 2 ^ 16 % 4096
  let lo := thr % 4096
  if hi < lo then true
  else if hi * 16 < v || v < lo * 16 then true
  else was && !(v + hyst * 16 < hi * 16 && (lo + hyst) * 16 < v)
def softRaw (s : State) (i : Nat) : Bool := Tbl.get (fun _ => false) s.conv.softRaw i
def hardRaw (s : State) (i : Nat) : Bool := Tbl.get (fun _ => false) s.conv.hardRaw i

/-- The registers of input `i`'s windows and hysteresis as they stand, followed from tick `t` on. -/
def windowsNow (s : State) (i t : Nat) : PastWindow :=
  { soft := (s.rg (ra .cmp (Cmp.SOFT i))).toNat, hard := (s.rg (ra .cmp (Cmp.HARD i))).toNat,
    hyst := fld (s.rg (ra .cmp (Cmp.CFG i))) 10 8, until_ := t }
/-- The windows that an input has been given and not yet left, oldest first. -/
def pastWindows (s : State) (i : Nat) : List PastWindow := Tbl.get (fun _ => []) s.conv.windows i
/-- The window that the outputs of input `i` follow: what the registers hold, or, until a write has had its response
time, what they held before it (R150). -/
def windowInForce (s : State) (i : Nat) : PastWindow := (pastWindows s i).headD (windowsNow s i 0)
/-- What a comparator of input `i` gives at level `v` (R150); a soft comparator that stands in takes the hard
thresholds (R154). -/
def comparatorAt (s : State) (i : Nat) (hard : Bool) (v : Nat) : Bool :=
  let w := windowInForce s i
  windowOut (if hard || standIn s i then w.hard else w.soft) w.hyst (if hard then hardRaw s i else softRaw s i) v
/-- The output of a comparator, before enables and blanking. -/
def setRaw (i : Nat) (hard out : Bool) (s : State) : State :=
  if hard then { s with conv.hardRaw := Tbl.set (fun _ => false) s.conv.hardRaw i out }
  else { s with conv.softRaw := Tbl.set (fun _ => false) s.conv.softRaw i out }
/-- The level of comparator input `i`, in 1/16 threshold step. -/
def inputLevel (s : State) (i : Nat) : Nat := Tbl.get (fun _ => 0) s.conv.level i

/-- A write of a window or of `HYST` takes effect at the next coarse tick, and the outputs follow with the response
time, at the fourth tick after it (R150; DESIGN CHOICE, log entry 13): until then they follow the window that `old`,
the state before the write, shows. -/
def thresholdWritten (i : Nat) (old s : State) : State :=
  { s with conv.windows := Tbl.set (fun _ => []) s.conv.windows i (pastWindows s i ++ [windowsNow old i (coarse s + 5)]) }
/-- The comparators of input `i` follow a threshold write whose response time has passed (R150). -/
def thresholdJudge (i : Nat) (s : State) : State :=
  let left := (pastWindows s i).filter (fun w => coarse s < w.until_)
  if left.length = (pastWindows s i).length then s
  else
    let v := inputLevel s i
    let s1 := { s with conv.windows := Tbl.set (fun _ => []) s.conv.windows i left }
    setRaw i true (comparatorAt s1 i true v) (setRaw i false (comparatorAt s1 i false v) s1)

/-- The soft comparator of input `i` is being swept (R154). -/
def softSwept (s : State) (i : Nat) : Bool :=
  match s.conv.sweep with
  | some w => w.input = i && !w.hard
  | none => false

/-- The soft window of input `i` is out, after blanking; a stand-in, or a comparator under its sweep, has no
soft function (R151, R152, R154). -/
def softOut (s : State) (i : Nat) : Bool :=
  !standIn s i && !softSwept s i && tb (s.rg (ra .cmp (Cmp.CFG i))) 30 && softRaw s i && !blanked s (i / 2)
/-- The hard window of input `i` is out; a stand-in takes the hard function, unblanked (R152, R154). -/
def hardOut (s : State) (i : Nat) : Bool :=
  tb (s.rg (ra .cmp (Cmp.CFG i))) 31 && (if standIn s i then softRaw s i else hardRaw s i)

/-- Evaluates the two windows of an input at this tick: `STAT_i`, the flags, and the events of a window that
has gone out (R152, log entry 13). -/
def evalInput (i : Nat) (s : State) : State :=
  let a := ra .cmp (Cmp.STAT i)
  let so := softOut s i
  let ho := hardOut s i
  let was := s.rg a
  let s1 := s.setRg a
    (((setBit (setBit was 2 so) 3 ho) ||| (if so then 1 else 0)) ||| (if ho then 2 else 0))
  let s2 := if so && !tb was 2 then raiseEvent (0x300 + i) s1 else s1
  if ho && !tb was 3 then raiseEvent (0x318 + i) s2 else s2

/-- `TRIP_t` is active after its filter and enabled. -/
def tripActive (s : State) (t : Nat) : Bool :=
  tb (s.rg (ra .cmp (Cmp.TRIPIN t))) 31 && Tbl.get (fun _ => false) s.conv.tripAct t

/-- The soft and the hard trip of a bridge are levels: active while any source routed to it is active
(R152). -/
def bridgeTrips (s : State) (b : Nat) : Bool × Bool :=
  let map := s.rg (ra .cmp (Cmp.TRIPMAP b))
  let ins := if blanked s b then [] else (List.range 4).filter (tripActive s)
  (softOut s (2 * b) || softOut s (2 * b + 1) || ins.any (fun t => tb map t),
   hardOut s (2 * b) || hardOut s (2 * b + 1) || ins.any (fun t => tb map (8 + t)))

end Sys2Proof.Machine
end

