-- ==== Sys2Proof/Machine/Pwm.lean ====
section
/-! DEFINITION. The bridges (R159–R191): outputs and dead time, the safe state, trips, edges and short
pulses, staging and commits, the carrier and its boundaries. -/

namespace Sys2Proof.Machine

/-! ### Registers and legs -/

/-- Address of a register of bridge `b`. -/
abbrev pw (b o : Nat) : Nat := ri .pwm b o
/-- Sets a `STAT` flag of a bridge. -/
def pwmFlag (b i : Nat) (s : State) : State := s.setRgBit (pw b Pwm.STAT) i true
/-- `STAT.SAFE`. -/
abbrev pwmSafe (s : State) (b : Nat) : Bool := tb (s.rg (pw b Pwm.STAT)) 31
/-- `STAT.RUN`. -/
abbrev pwmRun (s : State) (b : Nat) : Bool := tb (s.rg (pw b Pwm.STAT)) 16
/-- The edge scale s of a bridge; 6 and 7 act as 5 (R165). -/
def pwmScale (s : State) (b : Nat) : Nat := min 5 (fld (s.rg (pw b Pwm.CFG)) 26 24)
/-- `DEADTIME` in fine steps; below one fine step it acts as one (R177). -/
def pwmDead (s : State) (b : Nat) : Nat := max 1 (fld (s.rg (pw b Pwm.DEADTIME)) 14 0)
/-- `MINPULSE` in fine steps, how long a stretched pulse lasts (R179). -/
def pwmStretch (s : State) (b : Nat) : Nat := fld (s.rg (pw b Pwm.MINPULSE)) 14 0
/-- The width in fine steps below which a pulse is short (R178). -/
def pwmMin (s : State) (b : Nat) : Nat := max 32 (pwmStretch s b)
/-- `SHORTPOL` of output `o` (R179). -/
def pwmPolicy (s : State) (b o : Nat) : Nat := fld (s.rg (pw b Pwm.SHORTPOL)) (2 * o + 1) (2 * o)

/-- Leg `k` of a bridge. -/
def Bridge.leg (x : Bridge) (k : Nat) : Leg := match k with | 0 => x.legA | 1 => x.legB | _ => x.legC
/-- Replaces leg `k`. -/
def Bridge.setLeg (x : Bridge) (k : Nat) (l : Leg) : Bridge :=
  match k with | 0 => { x with legA := l } | 1 => { x with legB := l } | _ => { x with legC := l }
/-- Replaces leg `k` of bridge `b`. -/
def setLeg (b k : Nat) (l : Leg) (s : State) : State := s.setBr b ((s.br b).setLeg k l)
/-- Runs an update on each of the three legs. -/
def eachLeg (f : Nat → State → State) (s : State) : State := f 2 (f 1 (f 0 s))

/-- An edge field in fine steps from carrier start (R165). -/
def edgeFine (s : State) (b : Nat) (v : Nat) : Nat := v * 2 ^ pwmScale s b

/-- `DLCAL_o.FINEOFF`: the fine fields of the output's edges are ignored (R181). -/
abbrev fineOff (s : State) (b o : Nat) : Bool := tb (s.rg (pw b (Pwm.DLCAL o))) 15
/-- When an edge of output `o` asked for at fine-step time `t` is placed: at `t`, or with `FINEOFF` at the start of
its tick (R181). -/
def edgeOf (s : State) (b o t : Nat) : Nat := if fineOff s b o then t / 32 * 32 else t
/-- The delay-line elements that fine step `f` of output `o` uses (R180). -/
def elements (s : State) (b o f : Nat) : Nat := (f * fld (s.rg (pw b (Pwm.DLCAL o))) 5 0 + 16) / 32

/-- Nominal ON and OFF of a leg's active edges, in fine steps from carrier start. -/
def legOn (s : State) (b k : Nat) : Nat := edgeFine s b (fld ((s.br b).leg k).edges 15 0)
def legOff (s : State) (b k : Nat) : Nat := edgeFine s b (fld ((s.br b).leg k).edges 31 16)

/-- The carry of a leg in fine steps: a low-side carry is negative (R179, `CARRY_k`). -/
def legCarry (s : State) (b k : Nat) : Int :=
  let w := s.rg (pw b (Pwm.CARRY k))
  if tb w 31 then -(fld w 21 0 : Int) else (fld w 21 0 : Int)
/-- Sets the carry; it never exceeds L × 32 fine steps. -/
def setCarry (b k : Nat) (c : Int) (s : State) : State :=
  let m := min c.natAbs ((s.br b).len * 32) % 2 ^ 22
  s.setRg (pw b (Pwm.CARRY k)) (w32 (m + (if c < 0 ∧ m ≠ 0 then 2 ^ 31 else 0)))
/-- Carries are cleared at safe entry and when `EN` is cleared (R179). -/
def clearCarries (b : Nat) (s : State) : State := eachLeg (fun k s => setCarry b k 0 s) s

/-! ### Output levels -/

/-- The sources of a bridge's outputs as they stand, which is what the next coarse tick shows (R182). -/
def sourcesNow (s : State) (b : Nat) : Shown :=
  { safe := pwmSafe s b, levels := fld (s.rg (pw b Pwm.SAFECFG)) 1 0, await := (s.br b).await,
    force := s.rg (pw b Pwm.FORCE), cycleOff := (s.br b).cycleOff }
/-- A coarse tick begins: the sources as they stand take effect (R182–R184, R189). -/
def showSources (b : Nat) (s : State) : State := s.setBr b { s.br b with shown := sourcesNow s b }

/-- What the highest-ranking source in effect wants of a leg's high and low output (R162, R182–R184, R189); until
the first transfer after `EN` every output is off, whatever the safe levels. -/
def legWant (s : State) (b k : Nat) : Bool × Bool :=
  let x := s.br b
  let w := x.shown
  let m := opMode s
  let force := fld w.force (2 * k + 1) (2 * k)
  if !pwmEn s b || m = 3 || m = 7 || x.fresh then (false, false)
  else if w.safe || w.await then (false, w.levels = 1)
  else if force = 1 then (false, false)
  else if force = 2 then (true, false)
  else if force = 3 then (false, true)
  else
    let h := (x.leg k).req && !w.cycleOff
    (h, !h)

/-- The level an output drives: its state against `OUTCFG.POL` (R159). -/
def outLevel (s : State) (b o : Nat) : Bool :=
  let l := (s.br b).leg (o / 2)
  (if o % 2 = 0 then l.hi else l.lo) != tb (s.rg (pw b Pwm.OUTCFG)) o

/-- The level at the ball: boundary scan drives it directly (R473); an undriven ball is pulled down, as every ball is in OFF
and HIBERNATE (R493, R495). -/
def ballLevel (s : State) (b o : Nat) : Bool :=
  match Tbl.get (fun _ => none) s.ballScan (b * 6 + o) with
  | some v => v
  | none => (s.br b).driven && 2 ≤ opMode s && outLevel s b o

/-- The safe state is entered (R184, R185); the first entry's cause stays. -/
def enterSafe (b cause : Nat) (s : State) : State :=
  if pwmSafe s b then s
  else
    let s1 := (s.setRgBit (pw b Pwm.STAT) 31 true).setRgFld (pw b Pwm.STAT) 30 28 cause
    let s2 := s1.setBr b { s1.br b with await := false, relOk := false }
    raiseEvent (0x360 + b) (clearCarries b s2)

/-- One read-back check of an output (R190): it must read the level that its on/off state `on` drives. -/
def readBack (b o : Nat) (on : Bool) (s : State) : State :=
  let x := s.br b
  if !x.driven then s
  else if ballLevel s b o = (on != tb (s.rg (pw b Pwm.OUTCFG)) o) then
    s.setBr b { x with rbRun := Tbl.set (fun _ => 0) x.rbRun o 0 }
  else
    let n := Tbl.get (fun _ => 0) x.rbRun o + 1
    let s1 := s.setBr b { x with rbRun := Tbl.set (fun _ => 0) x.rbRun o n }
    let s2 := bump .pwm b Pwm.RB_CNT ((pwmFlag b 13 s1).setRgBit (pw b Pwm.RBSTAT) (8 + o) true)
    if n ≥ 3 && !pwmSafe s2 b then
      enterSafe b 5 { s2 with faultQueue := s2.faultQueue ++ [(0x09, b, 2, fld (s2.rg (pw b Pwm.RBSTAT)) 13 8)] }
    else s2

/-- Output `o` has had an edge in the present coarse tick (R168). -/
def edgeNowAt (s : State) (b o : Nat) : Bool := Tbl.get (fun _ => 0) (s.br b).edgeAt o = coarse s + 1

/-- Output `o` has an edge at fine-step time `t` of the present tick: its delay, the windows of R181, and the
blanking of the bridge (R151, R180). -/
def outputEdge (b o t : Nat) (s : State) : State :=
  let x := s.br b
  let n := coarse s
  let win := if Tbl.get (fun _ => 0) x.edgeAt o + 32 ≤ n + 1 then n else Tbl.get (fun _ => 0) x.winAt o
  openBlank b (s.setBr b { x with
    edgeAt := Tbl.set (fun _ => 0) x.edgeAt o (n + 1), winAt := Tbl.set (fun _ => 0) x.winAt o win,
    taps := Tbl.set (fun _ => 0) x.taps o (elements s b o (edgeOf s b o t % 32)) })

/-- Brings a leg's outputs to what their source wants at time `t` (fine steps of the coarse-tick count):
turn-offs at once, turn-ons a dead time later (R177).  An output that has had an edge in this tick keeps its
level until the next (R168). -/
def driveLeg (b k t : Nat) (s : State) : State :=
  let (h, lo) := legWant s b k
  let l := (s.br b).leg k
  let due := max (edgeOf s b (2 * k) t) (edgeOf s b (2 * k + 1) t) + pwmDead s b
  let hiOff := l.hi && !h && !edgeNowAt s b (2 * k)
  let loOff := l.lo && !lo && !edgeNowAt s b (2 * k + 1)
  let s0 := if hiOff then outputEdge b (2 * k) t (readBack b (2 * k) true s) else s
  let s1 := if loOff then outputEdge b (2 * k + 1) t (readBack b (2 * k + 1) true s0) else s0
  setLeg b k { l with
    hi := l.hi && !hiOff, lo := l.lo && !loOff,
    hiDue := if h && !l.hi && (!l.lo || loOff) then some (l.hiDue.getD due) else none,
    loDue := if lo && !l.lo && (!l.hi || hiOff) then some (l.loDue.getD due) else none } s1

/-- Brings all three legs to their sources at the start of the present coarse tick (R182). -/
def driveBridge (b : Nat) (s : State) : State := eachLeg (fun k s => driveLeg b k (coarse s * 32) s) s

/-- The time at which output `o` is due to turn on. -/
def dueOf (s : State) (b o : Nat) : Option Nat :=
  let l := (s.br b).leg (o / 2)
  if o % 2 = 0 then l.hiDue else l.loDue
/-- Output `o` is due to turn on in a tick that has come, and has had no edge in this one (R168). -/
def turnOnDue (s : State) (b o : Nat) : Bool :=
  match dueOf s b o with
  | some t => t / 32 ≤ coarse s && !edgeNowAt s b o
  | none => false

/-- The dead time of an output has run out (R177, R190): both outputs of the leg are read back as off, then
the output turns on. -/
def deadtimeExpiry (b o : Nat) (s : State) : State :=
  if turnOnDue s b o then
    let k := o / 2
    let s1 := readBack b (2 * k + 1) false (readBack b (2 * k) false s)
    let l := (s1.br b).leg k
    outputEdge b o (max ((dueOf s b o).getD 0) (coarse s * 32))
      (setLeg b k (if o % 2 = 0 then { l with hi := true, hiDue := none } else { l with lo := true, loDue := none }) s1)
  else s

/-! ### Trips and halt (R187, R189) -/

/-- The trips of a bridge at this tick (R189): flags, cycle-by-cycle off, safe entries. -/
def applyTrips (b : Nat) (s : State) : State :=
  let (soft, hard) := bridgeTrips s b
  let act := fld (s.rg (pw b Pwm.SAFECFG)) 17 16
  let s1 := if soft then pwmFlag b 14 s else s
  let s2 := if hard then pwmFlag b 15 s1 else s1
  let s3 := s2.setBr b { s2.br b with tripSoft := soft, tripHard := hard,
                                      cycleOff := (s2.br b).cycleOff || (soft && act = 1) }
  let s4 := if hard then enterSafe b 1 s3 else s3
  if soft && act = 2 then enterSafe b 2 s4 else s4

/-- Evaluates the comparators and the trips of a bridge. -/
def evalBridge (b : Nat) (s : State) : State := applyTrips b (evalInput (2 * b + 1) (evalInput (2 * b) s))

/-- The engine that hosts a bank bound to the bridge's axis is halted under debug (R187). -/
def hostHalted (s : State) (b : Nat) : Bool :=
  (boundBanks s (pwmAxis s b)).any (fun k => !(s.bank k).second && (s.el (k / 16)).halted)

/-- The reaction to a debug halt of the hosting engine (R187): the hold, or the safe state at the tick after the one
in which the halt was seen. -/
def haltCheck (b : Nat) (s : State) : State :=
  let x := s.br b
  if pwmEn s b && hostHalted s b then
    (if tb (s.rg (pw b Pwm.SAFECFG)) 4 then
      (if x.haltHold.isNone then s.setBr b { x with haltHold := some 8 } else s)
    else match x.haltAt with
      | some t => if t < coarse s then enterSafe b 4 s else s
      | none => s.setBr b { x with haltAt := some (coarse s) })
  else if x.haltAt.isSome then s.setBr b { x with haltAt := none } else s

/-! ### Edges and short pulses (R166–R168, R178, R179) -/

/-- A short pulse was treated (R178). -/
def shortPulse (b : Nat) (s : State) : State := bump .pwm b Pwm.SHORT_CNT (pwmFlag b 5 s)

/-- A late edge (R169): the flags, the count and event 0x370 + b. -/
def lateEdge (b : Nat) (s : State) : State :=
  raiseEvent (0x370 + b) (bump .pwm b Pwm.LATE_CNT (axst (pwmAxis s b) 0 (pwmFlag b 2 s)))

/-- The place of the ON (`off` = false) or OFF edge of a leg, in fine steps from carrier start; a stretched low
side holds the ON back (R179). -/
def edgePlace (s : State) (b k : Nat) (off : Bool) : Nat :=
  let l := (s.br b).leg k
  if off then l.offAt.getD (legOff s b k)
  else max (legOn s b k) (l.onMin.getD 0 - (coarse s - (s.br b).count) * 32)

/-- An edge is due at the present count (R167).  Edges from before an accepted `CLRSAFE` never fire again (R186). -/
def edgeDue (s : State) (b k : Nat) (off : Bool) : Bool :=
  let x := s.br b
  let l := x.leg k
  pwmRun s b && !x.boundaryDue && !x.fresh && !l.stale && !(if off then l.offFired else l.onFired)
    && reached 16 x.count (edgePlace s b k off / 32)

/-- The fine-step time, from carrier start, at which an edge that is due fires: at its place, or at the
start of the tick when it is late (R167). -/
def edgeTime (s : State) (b k : Nat) (off : Bool) : Nat :=
  let u := edgePlace s b k off
  if u / 32 = (s.br b).count then u else (s.br b).count * 32

/-- Fine-step time of the coarse-tick count for a time from carrier start. -/
def absFine (s : State) (b u : Nat) : Nat := (coarse s - (s.br b).count) * 32 + u

/-- The ON edge of a leg fires (R166, R178, R179).  An ON that a short gap has cancelled turns nothing on, but the
carry still moves the OFF that follows it.  A pulse that is short after a carry is dropped and its width joins the
carry, whatever the policy. -/
def fireOn (b k : Nat) (s : State) : State :=
  let x := s.br b
  let l := x.leg k
  let late := edgePlace s b k false / 32 ≠ x.count
  let t := edgeTime s b k false
  let s1 := if late then lateEdge b s else s
  let fired := { l with onFired := true, onMin := none, onT := t, joined := l.skipOn }
  let off := legOff s b k
  let noPulse (s : State) : State := driveLeg b k (absFine s b t) (setLeg b k { fired with dropOff := true, req := false } s)
  if l.skipOn then
    let c := legCarry s b k
    let off1 : Nat := min (x.len * 32) (max (t : Int) ((off : Int) + c)).toNat
    if l.offFired || off ≤ legOn s b k || c = 0 then setLeg b k { fired with skipOn := false } s1
    else setCarry b k 0 (setLeg b k { fired with skipOn := false, offAt := if off1 = off then none else some off1 } s1)
  else
    if l.offFired || off ≤ legOn s b k then noPulse s1
    else
      let c := legCarry s b k
      let off1 : Nat := min (x.len * 32) (max (t : Int) ((off : Int) + c)).toNat
      let s2 := if c ≠ 0 then setCarry b k 0 s1 else s1
      let w : Int := (off1 : Int) - t - pwmDead s b
      if off1 < x.len * 32 ∧ w < pwmMin s b then
        let s3 := shortPulse b s2
        if c ≠ 0 || pwmPolicy s b (2 * k) = 2 then setCarry b k (c + ((max off t : Nat) - t : Nat)) (noPulse s3)
        else if pwmPolicy s b (2 * k) = 1 then
          driveLeg b k (absFine s b t)
            (setLeg b k { fired with req := true, offAt := some (min (x.len * 32) (t + pwmDead s b + pwmStretch s b)) } s3)
        else noPulse s3
      else
        driveLeg b k (absFine s b t)
          (setLeg b k { fired with req := true, offAt := if off1 = off then none else some off1 } s2)

/-- The next period's edges of a leg: from the committed set that targets it, or the active ones (R178). -/
def nextEdges (s : State) (b k : Nat) : Word :=
  let x := s.br b
  let item := match x.next with
    | some st => (match k with | 0 => st.a | 1 => st.b | _ => st.c)
    | none => none
  match item with
  | some (v, _) => v
  | none => (x.leg k).edges
/-- The length of the next period, as the items committed so far make it. -/
def nextLen (s : State) (b : Nat) : Nat :=
  let x := s.br b
  match x.next.bind (·.period) with
  | some (v, _) => max 64 v.toNat
  | none => (x.perNext.getD x.period).toNat

/-- The OFF of an active request fires at `t`, in fine steps from carrier start, and the gap to the next period's ON is
tested (R178, R179); `fired` is the leg with its OFF fired. -/
def offFires (b k t : Nat) (fired : Leg) (s : State) : State :=
  let e := nextEdges s b k
  let on' := edgeFine s b (fld e 15 0)
  let off' := edgeFine s b (fld e 31 16)
  let gap : Int := ((s.br b).len * 32 + on' : Nat) - (t : Int)
  if on' < off' ∧ on' < nextLen s b * 32 ∧ gap - pwmDead s b < pwmMin s b then
    let s2 := shortPulse b s
    match pwmPolicy s b (2 * k + 1) with
    | 1 => driveLeg b k (absFine s b t)
        (setLeg b k { fired with req := false, onMin := some (absFine s b t + pwmDead s b + pwmStretch s b) } s2)
    | 2 => setCarry b k (legCarry s b k - gap) (setLeg b k { fired with skipOn := true } s2)
    | _ => setLeg b k { fired with skipOn := true } s2
  else driveLeg b k (absFine s b t) (setLeg b k { fired with req := false } s)

/-- The OFF edge of a leg fires (R166, R178, R179). -/
def fireOff (b k : Nat) (s : State) : State :=
  let l := (s.br b).leg k
  let s1 := if edgePlace s b k true / 32 ≠ (s.br b).count then lateEdge b s else s
  let fired := { l with offFired := true, offAt := none, dropOff := false }
  if l.dropOff || !l.req then setLeg b k fired s1 else offFires b k (edgeTime s b k true) fired s1

/-- An edge fires if it is due. -/
def edgeFire (b k : Nat) (off : Bool) (s : State) : State :=
  if edgeDue s b k off then (if off then fireOff b k s else fireOn b k s) else s

/-- The two edges of a leg, in the order of their places (R166). -/
def legEdges (b k : Nat) (s : State) : State :=
  if edgePlace s b k true < edgePlace s b k false then edgeFire b k false (edgeFire b k true s)
  else edgeFire b k true (edgeFire b k false s)

/-- What the outputs of a bridge have due in the present coarse tick: edges, changes of source, turn-ons. -/
def bridgeEdges (b : Nat) (s : State) : State :=
  (List.range 6).foldl (fun s o => deadtimeExpiry b o s) (driveBridge b (eachLeg (legEdges b) s))

/-- The comparators and trips of a bridge are evaluated by a command: after the edges of the tick, whose blanking
counts from it (R151); in a boundary tick ahead of the boundary the tick evaluates them. -/
def evalAfterEdges (b : Nat) (s : State) : State :=
  if (s.br b).boundaryDue || (s.br b).cutDue then s else evalBridge b (bridgeEdges b s)

/-! ### Delay-line measurements (R181) -/

/-- The measurement of output `o` is due: its interval has passed, and the last 32 ticks held no edge of it. -/
def measureDue (s : State) (b o : Nat) : Bool :=
  let x := s.br b
  Tbl.get (fun _ => 0) x.measAt o + max 1 (fld (s.rg (pw b Pwm.DLCFG)) 7 0) * 40000 ≤ coarse s
    && Tbl.get (fun _ => 0) x.edgeAt o + 32 ≤ coarse s + 1
/-- Output `o` has had no window of 32 ticks without an edge for 100 ms. -/
def starveDue (s : State) (b o : Nat) : Bool :=
  let x := s.br b
  coarse s + 1 < Tbl.get (fun _ => 0) x.edgeAt o + 32 && Tbl.get (fun _ => 0) x.winAt o + 40000000 ≤ coarse s
/-- `STAT.DLSTARVE` for every output that has starved; the last N stays in use. -/
def delayStarve (b : Nat) (s : State) : State :=
  (List.range 6).foldl (fun s o =>
    if starveDue s b o then
      pwmFlag b 11 (s.setBr b { s.br b with winAt := Tbl.set (fun _ => 0) (s.br b).winAt o (coarse s) })
    else s) s

/-! ### Staging, commits and targets (R169–R175) -/

/-- Items of a set. -/
def PwmSet.edge (st : PwmSet) (k : Nat) : Option (Word × Word) := match k with | 0 => st.a | 1 => st.b | _ => st.c
/-- The set holds nothing. -/
def PwmSet.empty (st : PwmSet) : Bool := st.period.isNone && st.a.isNone && st.b.isNone && st.c.isNone

/-- A late set has moved the OFF of a pulse whose ON has fired (R169, R178): the pulse is tested anew, and what a
short one can still lose is cancelled (log entry 14). -/
def lateShort (b k : Nat) (s : State) : State :=
  let x := s.br b
  let l := x.leg k
  let off := max (legOff s b k) (x.count * 32)
  let w : Int := (off : Int) - l.onT - pwmDead s b
  if l.onFired && l.req && !l.offFired && !l.joined && off < x.len * 32 && w < pwmMin s b then
    let s1 := shortPulse b s
    let cancel (s : State) : State := driveLeg b k (coarse s * 32) (setLeg b k { l with req := false, dropOff := true } s)
    match pwmPolicy s b (2 * k) with
    | 1 => setLeg b k { l with offAt := some (min (x.len * 32) (l.onT + pwmDead s b + pwmStretch s b)) } s1
    | 2 => setCarry b k (legCarry s b k + ((off : Int) - l.onT)) (cancel s1)
    | _ => cancel s1
  else s

/-- Puts one edge item into a leg; edges that have fired stay fired (R169).  Within a period (`mid`) a pulse that has
begun is tested anew. -/
def takeEdge (b k : Nat) (mid : Bool) (it : Option (Word × Word)) (s : State) : State :=
  match it with
  | none => s
  | some (v, g) =>
    let x := s.br b
    let s1 := s.setBr b
      { x.setLeg k { x.leg k with edges := v, gen := g, offAt := none, dropOff := false, stale := false } with lastGen := g }
    if mid then lateShort b k s1 else s1

/-- The generations of the active period and edges differ (R175). -/
def splitSet (x : Bridge) : Bool := x.legA.gen ≠ x.pgen || x.legB.gen ≠ x.pgen || x.legC.gen ≠ x.pgen

/-- A set transfers, at a boundary or within a period (`mid`) (R169, R172, R175).  Its period item waits for the next
boundary; its generation counts from the transfer (log entry 14).  Only a set that transfers at a boundary lets the
bridge run again after a `CLRSAFE` (R186). -/
def transfer (b : Nat) (mid : Bool) (st : PwmSet) (s : State) : State :=
  let x := s.br b
  let x1 := match st.period with
    | some (v, g) => { x with perNext := some (w32 (max 64 v.toNat)), pgen := g }
    | none => { x with pgen := st.gen }
  let s1 := s.setBr b { x1 with fresh := false, served := true, relOk := x1.relOk || (!mid && !st.old) }
  let s2 := takeEdge b 2 mid st.c (takeEdge b 1 mid st.b (takeEdge b 0 mid st.a s1))
  if splitSet (s2.br b) then pwmFlag b 3 s2 else s2

/-- The next period has a set already: the new one replaces it entirely (R171). -/
def targetNext (b : Nat) (st : PwmSet) (s : State) : State :=
  let x := s.br b
  let s1 := if x.next.isSome then pwmFlag b 7 s else s
  s1.setBr b { s1.br b with next := some st }

/-- A committed set arrives in the present tick (R169, R171).  Before the first boundary every set targets
the first period (log entry 14).  A set that arrives in a boundary tick ahead of the boundary waits for it. -/
def setArrives (b : Nat) (st : PwmSet) (s : State) : State :=
  let x := s.br b
  let tgt := fld (s.rg (pw b Pwm.TGT)) 15 0
  if x.boundaryDue then s.setBr b { x with early := x.early ++ [st] }
  else if pwmRun s b && x.count < tgt then
    let s1 := if x.served || x.now.isSome then pwmFlag b 7 s else s
    s1.setBr b { s1.br b with now := some st }
  else targetNext b st s

/-- A bundle from a bank reaches its bridge (R160, R172); one that arrives after the engine has resumed ends a halt
hold (R187).  `old` marks a bundle committed before an accepted `CLRSAFE` (R186). -/
def bundleAtBridge (b : Nat) (bytes : List Byte) (old : Bool) (s0 : State) : State :=
  if !pwmEn s0 b || !pwmSrc s0 b then pwmFlag b 8 s0
  else
    let s := if hostHalted s0 b then s0 else s0.setBr b { s0.br b with haltHold := none }
    let h (i : Nat) : Nat := ofBytes ((bytes.drop (2 * i)).take 2)
    let g := w32 (h 7)
    let e (k : Nat) : Option (Word × Word) := some (w32 (h (2 * k) + h (2 * k + 1) * 65536), g)
    let per := if h 6 = 0 then none else some (w32 (h 6), g)
    setArrives b { period := per, a := e 0, b := e 1, c := e 2, gen := g, old := old } s

/-- A write of `PERIOD` or `EDGE_x` stages the item with `GEN` as it stands (R172). -/
def stageItem (b o : Nat) (v : Word) (sec : Bool) (s : State) : Resp × State :=
  let s1 := plainWrite .pwm b o v sec s
  let x := s1.br b
  let it := some (s1.rg (pw b o), w32 (fld (s.rg (pw b Pwm.GEN)) 15 0))
  let st := if o = Pwm.PERIOD then { x.staged with period := it }
    else if o = Pwm.EDGE_A then { x.staged with a := it }
    else if o = Pwm.EDGE_B then { x.staged with b := it }
    else { x.staged with c := it }
  (.ok 0, s1.setBr b { x with staged := st })

/-- The items that a `COMMIT` takes: all that are staged, or with `SRC` = 1, where the edges come from bundles
alone (R160), the period item; none in AUTO mode (R173, R174). -/
def commitItems (s : State) (b : Nat) : PwmSet :=
  let x := s.br b
  let c := s.rg (pw b Pwm.CFG)
  if tb c 30 then { period := x.staged.period } else if tb c 29 then {} else x.staged

/-- `CTRL.COMMIT`: every item staged since the last commit becomes one set (R173, R174).  DESIGN CHOICE (log entry
14): "the commit's generation" of a set without a period item (R172) is `GEN` as it stands at this write. -/
def commitStaged (b : Nat) (s : State) : State :=
  let st := commitItems s b
  if st.empty then s
  else setArrives b { st with gen := w32 (fld (s.rg (pw b Pwm.GEN)) 15 0) } (s.setBr b { s.br b with staged := {} })

/-- `CTRL.CLRSAFE` is accepted only from an allowed world and when its cause has ended (R185, R186). -/
def clrSafeAllowed (s : State) (b : Nat) (sec : Bool) : Bool :=
  let cause := fld (s.rg (pw b Pwm.STAT)) 30 28
  let (soft, hard) := bridgeTrips s b
  pwmSafe s b && (sec || cause ≠ 1 && cause ≠ 5 && cause ≠ 6)
    && !soft && !hard && !hostHalted s b && opMode s ≠ 6

/-- The bundles of an axis that are in flight were committed before an accepted `CLRSAFE` (R186, R290). -/
def agesFlights (x : Nat) (s : State) : State :=
  { s with axis.edges := s.axis.edges.map (fun f => if f.axis = x then { f with old := true } else f) }

/-- `CTRL.CLRSAFE` (R186): the outputs stay at their safe levels until a set committed after it transfers, and the
edges in force before it never return. -/
def clrSafe (b : Nat) (sec : Bool) (s : State) : State :=
  if clrSafeAllowed s b sec then
    let x := s.br b
    let old (st : PwmSet) : PwmSet := { st with old := true }
    let s1 := agesFlights (pwmAxis s b) (s.setRgFld (pw b Pwm.STAT) 31 28 0)
    s1.setBr b
      { x with await := true, relOk := false, now := x.now.map old, next := x.next.map old, early := x.early.map old,
               repeats := 0, haltHold := none, legA := { x.legA with stale := true },
               legB := { x.legB with stale := true }, legC := { x.legC with stale := true } }
  else s

/-- `CTRL.PERIOD_NOW` (R176). -/
def periodNow (b : Nat) (s : State) : State :=
  if pwmRun s b then s.setBr b { s.br b with cutReq := true } else s

/-- A write of `CTRL`: `FORCESAFE`, `CLRSAFE`, `COMMIT`, `PERIOD_NOW` as the bits are set; a `COMMIT` in the
same write counts as after the `CLRSAFE` (log entry 14). -/
def pwmCtrlWrite (b : Nat) (v : Word) (sec : Bool) (s : State) : Resp × State :=
  let s1 := if tb v 3 then enterSafe b 7 s else s
  let s2 := if tb v 2 then clrSafe b sec s1 else s1
  let s3 := if tb v 0 then commitStaged b s2 else s2
  (.ok 0, if tb v 1 then periodNow b s3 else s3)

/-! ### Enable, phase and force -/

/-- `EN` is set: the phase is taken and the carrier waits for its first boundary (R162, R164).  The period is
that of the `PERIOD` register until a set transfers (log entry 14); a set committed while `EN` was 0 targets the period
that begins there (R169, R173). -/
def bridgeStart (b : Nat) (s : State) : State :=
  let p := max 64 (fld (s.rg (pw b Pwm.PERIOD)) 15 0)
  let s1 := s.setRg (pw b Pwm.PHASE_EFF) (w32 (fld (s.rg (pw b Pwm.PHASE)) 15 0 % p))
  s1.setBr b { waiting := true, len := p, period := w32 p, driven := true, staged := (s.br b).staged, next := (s.br b).next,
               pendN := (s.br b).pendN, rbRun := (s.br b).rbRun, await := (s.br b).await, shown := (s.br b).shown,
               trimLim := (s.br b).trimLim, swapAt := (s.br b).swapAt, taps := (s.br b).taps,
               edgeAt := (s.br b).edgeAt, winAt := (s.br b).winAt, measAt := (s.br b).measAt }

/-- `EN` is cleared: the carrier stops, every output is off, the carries are cleared. -/
def bridgeStop (b : Nat) (s : State) : State :=
  let x := s.br b
  let s1 := (clearCarries b s).setRgBit (pw b Pwm.STAT) 16 false
  driveBridge b (s1.setBr b
    { x with waiting := false, count := 0, boundaryDue := false, cutReq := false, cutDue := false, cut := false,
             phase := none, stepping := none, perNext := none, now := none, next := none, early := [], served := false,
             fresh := true, repeats := 0, haltHold := none, haltAt := none, cycleOff := false,
             legA := { x.legA with req := false, skipOn := false, dropOff := false, onMin := none, offAt := none },
             legB := { x.legB with req := false, skipOn := false, dropOff := false, onMin := none, offAt := none },
             legC := { x.legC with req := false, skipOn := false, dropOff := false, onMin := none, offAt := none } })

/-- A write of `CFG` (R160–R162, R164): while `EN` = 1, `SRC`, `AUTO` and `SCALE` keep their values; an enable for a
slot that is served is ignored as a whole. -/
def pwmCfgWrite (b : Nat) (v : Word) (sec : Bool) (s : State) : Resp × State :=
  let a := pw b Pwm.CFG
  let was := tb (s.rg a) 31
  if was then
    (if tb v 31 then (.ok 0, s) else (.ok 0, bridgeStop b (s.setRgBit a 31 false)))
  else
    let s1 := (plainWrite .pwm b Pwm.CFG v sec s).setRgBit a 31 false
    if !tb v 31 then (.ok 0, s1)
    else if slotServed s (pwmAxis s b) then (.ok 0, pwmFlag b 1 s)
    else (.ok 0, bridgeStart b (s1.setRgBit a 31 true))

/-- A write of `FORCE`; a force of a leg clears its carry (R179, R183). -/
def forceWrite (b : Nat) (v : Word) (sec : Bool) (s : State) : Resp × State :=
  let s1 := plainWrite .pwm b Pwm.FORCE v sec s
  (.ok 0, eachLeg (fun k s => if fld v (2 * k + 1) (2 * k) ≠ 0 then setCarry b k 0 s else s) s1)

/-- The phase of a bridge is set: at once while its carrier is stopped, as a phase step at the next boundary
while it runs (R164).  DESIGN CHOICE (log entry 14): while `EN` = 1 and the carrier waits for its first boundary, a write
sets `PHASE_EFF` at once. -/
def setPhase (b p : Nat) (s : State) : State :=
  let s1 := s.setRg (pw b Pwm.PHASE) (w32 (p % 65536))
  let x := s1.br b
  if pwmRun s1 b then s1.setBr b { x with phase := some (p % 65536) }
  else if x.waiting then s1.setRg (pw b Pwm.PHASE_EFF) (w32 (p % 65536 % x.len))
  else s1

/-! ### The carrier (R163, R164, R170, R176, R186–R188) -/

/-- Modes in which carriers run: RUN, BOOST and SAFE_HOLD (R162). -/
def carriersRun (s : State) : Bool := opMode s = 4 || opMode s = 5 || opMode s = 6

/-- A boundary ends one leg's period (R166): fired states clear, a request without an OFF ends unless the
next ON is 0 or its gap was cancelled. -/
def legBoundary (b k : Nat) (s : State) : State :=
  let l := (s.br b).leg k
  let keep := l.req && !l.stale && (l.skipOn || (legOn s b k = 0 && legOn s b k < legOff s b k))
  driveLeg b k (coarse s * 32)
    (setLeg b k { l with onFired := false, offFired := false, offAt := none, dropOff := false, req := keep } s)

/-- The staged items of AUTO mode (R174).  DESIGN CHOICE (log entry 14): nothing is committed in AUTO mode, so after a
`CLRSAFE` (R186) the items that transfer at a boundary release the bridge, those staged before it too. -/
def autoSet (s : State) (b : Nat) : Option PwmSet :=
  let c := s.rg (pw b Pwm.CFG)
  let st := (s.br b).staged
  if tb c 29 && !tb c 30 && !st.empty then
    some { st with gen := match st.period with | some (_, g) => g | none => (s.br b).pgen }
  else none

/-- A period begins with no new set: `REPEAT`, the starvation check, the halt hold (R170, R187, R188). -/
def repeatPeriod (b : Nat) (s : State) : State :=
  let s1 := bump .pwm b Pwm.REPEAT_CNT (pwmFlag b 6 s)
  let x := s1.br b
  let hm := fld (s.rg (pw b Pwm.SAFECFG)) 11 8
  let s2 := match x.haltHold with
    | some 0 => enterSafe b 4 (s1.setBr b { x with haltHold := none })
    | some (n + 1) => s1.setBr b { x with haltHold := some n }
    | none => s1
  if !pwmSrc s b then s2
  else
    let s3 := s2.setBr b { s2.br b with repeats := x.repeats + 1 }
    if hm ≠ 0 ∧ x.repeats + 1 ≥ hm then enterSafe b 3 s3 else s3

/-- Delay-line values measured since the last boundary are put in use (R181). -/
def swapDelay (b : Nat) (s : State) : State :=
  (List.range 6).foldl (fun s o =>
    match Tbl.get (fun _ => none) (s.br b).pendN o with
    | some w =>
      let s1 := s.setRg (pw b (Pwm.DLCAL o)) w
      s1.setBr b { s1.br b with pendN := Tbl.set (fun _ => none) (s1.br b).pendN o none,
                                swapAt := Tbl.set (fun _ => 0) (s1.br b).swapAt o s1.time.selvedge }
    | none => s) s

/-- The period item of a set that has transferred takes effect (R169). -/
def periodTakes (b : Nat) (s : State) : State :=
  match (s.br b).perNext with
  | some v => s.setBr b { s.br b with period := v, perNext := none }
  | none => s

/-- What a boundary does inside the bridge (R163, R164, R166, R169, R170, R174, R186).  DESIGN CHOICE (log entry 14):
periods before the first transfer after `EN` run no bundle, set no `REPEAT` and are not counted; and whether a trip is
active when the period begins (R189) is what the tick before the boundary has evaluated. -/
def bridgeBoundary (b : Nat) (s : State) : State :=
  let n := coarse s
  let x := s.br b
  let oldPeriod := x.period
  let s0 := (swapDelay b s).setRgBit (pw b Pwm.STAT) 16 true
  let x0 := { s0.br b with boundaryDue := false, waiting := false, count := 0, served := false, early := [] }
  let auto := autoSet s b
  let s1 := s0.setBr b { x0 with next := none, cut := false,
                                 staged := if auto.isSome then {} else x0.staged }
  let s2 := match x.next with | some st => transfer b false st s1 | none => s1
  let s3 := periodTakes b (match auto with | some st => transfer b false st s2 | none => s2)
  let took := x.next.isSome || auto.isSome
  let s4 := if took then s3.setBr b { s3.br b with repeats := 0 }
            else if x.fresh then s3 else repeatPeriod b s3
  let p := (s4.br b).period.toNat
  let s5 := if p ≠ oldPeriod.toNat || x.cut then s4.setRg (pw b Pwm.PHASE_EFF) (w32 (n % p)) else s4
  let eff := fld (s5.rg (pw b Pwm.PHASE_EFF)) 15 0
  let s6 := match (s5.br b).phase with
    | some ph =>
      let d := (ph + p * (eff / p + 1) - eff) % p
      let s' := pwmFlag b 9 (s5.setRg (pw b Pwm.PHASE_EFF) (w32 ph))
      s'.setBr b { s'.br b with phase := none, len := p + d }
    | none => s5.setBr b { s5.br b with len := p }
  let y := s6.br b
  let held := y.await && !y.relOk
  let cyc := y.tripSoft && fld (s.rg (pw b Pwm.SAFECFG)) 17 16 = 1
  let s7 := s6.setBr b { y with await := held, cycleOff := cyc,
                                shown := { y.shown with await := y.shown.await && held, cycleOff := cyc } }
  let s8 := if pwmSafe s7 b then
      (List.range 6).foldl (fun s o => readBack b o (let l := (s.br b).leg (o / 2); if o % 2 = 0 then l.hi else l.lo) s) s7
    else s7
  x.early.foldl (fun s st => setArrives b st s) (eachLeg (fun k s => legBoundary b k s) s8)

/-- One leg at the cut tick (R176): the pending OFF of an active request fires at the start of the tick, and a pulse or
gap that is short by it is treated (R178, R179; log entry 14); an unreached ON is dropped with its OFF.  An ON that is
reached in this very tick makes a pulse of no width, which is short. -/
def cutLeg (b k : Nat) (s : State) : State :=
  let x := s.br b
  let l := x.leg k
  let t := x.count * 32
  let ended := { l with onFired := true, offFired := true, offAt := none, dropOff := true }
  let w : Int := (t : Int) - l.onT - pwmDead s b
  if l.req && !l.offFired then
    if l.onFired && !l.joined && w < pwmMin s b then
      let s1 := driveLeg b k (absFine s b t) (setLeg b k { ended with req := false } (shortPulse b s))
      if pwmPolicy s b (2 * k) = 2 then setCarry b k (legCarry s b k + (t - l.onT : Nat)) s1 else s1
    else offFires b k t { ended with dropOff := false, skipOn := false } s
  else
    let s1 := if edgeDue s b k false && !l.offFired && !l.skipOn && legOn s b k < legOff s b k then shortPulse b s else s
    setLeg b k ended s1

/-- The cut tick (R176): each leg ends its period, and the period ends with this tick; on the period's own last tick the
cut does no more than that. -/
def cutTick (b : Nat) (s : State) : State :=
  let x := s.br b
  let s1 := s.setBr b { x with cutDue := false, len := x.count + 1 }
  eachLeg (cutLeg b) (if x.count + 1 ≥ x.len then s1 else pwmFlag b 4 (s1.setBr b { s1.br b with cut := true }))

/-- What a new coarse tick brings to a bridge's carrier (R163, R164, R169, R176). -/
def carrierTick (b : Nat) (s : State) : State :=
  let x := s.br b
  if !pwmEn s b || !carriersRun s then s
  else if x.waiting then
    (if coarse s % x.len = fld (s.rg (pw b Pwm.PHASE_EFF)) 15 0 % x.len then s.setBr b { x with boundaryDue := true } else s)
  else
    let last := x.count + 1 ≥ x.len
    let s1 := s.setBr b { x with now := none, boundaryDue := last, count := if last then 0 else x.count + 1,
                                 cutReq := false, cutDue := x.cutReq }
    match x.now with
    | some st => transfer b true st s1
    | none => s1

/-- The carrier of an enabled bridge has stood in STANDBY: it goes on from the first tick that R164 gives for a boundary,
with the count that Selvedge has been restored to (log entry 14). -/
def carrierRestart (b : Nat) (s : State) : State :=
  let x := s.br b
  if !pwmEn s b then s
  else (s.setRgBit (pw b Pwm.STAT) 16 false).setBr b
    { x with waiting := true, boundaryDue := false, count := 0, len := x.period.toNat, cutReq := false, cutDue := false,
             cut := false, now := none, next := x.next.or x.now }

/-! ### Live registers -/

/-- The registers of a bridge whose value is not the stored word. -/
def pwmLive (s : State) (b o : Nat) : Option Word :=
  let x := s.br b
  if o = Pwm.COUNT then some (w32 (x.count % 65536))
  else if o = Pwm.ACTPER then some (if pwmRun s b || x.waiting then x.period else 0)
  else if o = Pwm.ACTGEN then some (w32 (x.lastGen.toNat % 65536 * 65536 + x.pgen.toNat % 65536))
  else if o = Pwm.ACT_A then some x.legA.edges
  else if o = Pwm.ACT_B then some x.legB.edges
  else if o = Pwm.ACT_C then some x.legC.edges
  else if 0x80 ≤ o ∧ o < 0x98 then
    let k := (o - 0x80) / 4
    let w := s.rg (pw b o)
    if tb w 14 then
      some (setFld w 31 16 (min 0xFFFF ((s.time.selvedge - Tbl.get (fun _ => 0) x.swapAt k).toNat / 800000)))
    else none
  else if o = Pwm.RBSTAT then
    some (setFld (s.rg (pw b o)) 5 0 ((List.range 6).foldl (fun n k => n + b2n (ballLevel s b k) * 2 ^ k) 0))
  else none

end Sys2Proof.Machine
end

