-- ==== Sys2Proof/Machine/Phase.lean ====
section
/-! DEFINITION. Sample instants and carrier phases: the distance of R22, the spacing rules of R22, R134 and
R242, and the Saddler's choice of a phase (R137, R243). -/

namespace Sys2Proof.Machine

/-- `SADL.CTX_n.REQ0`, `REQ1`, `REQ2`, `REQ3`. -/
abbrev req0 (s : State) (n : Nat) : Word := s.rg (ra .sadl (Sadl.CTX_REQ0 n))
abbrev req1 (s : State) (n : Nat) : Word := s.rg (ra .sadl (Sadl.CTX_REQ1 n))
abbrev req2 (s : State) (n : Nat) : Word := s.rg (ra .sadl (Sadl.CTX_REQ2 n))
abbrev req3 (s : State) (n : Nat) : Word := s.rg (ra .sadl (Sadl.CTX_REQ3 n))
/-- `CLASS`, `WORLD`, `PAIRED`, `PROGRAM`, `BUDGET`, `RATE` of a requirement record (R239). -/
abbrev reqClass (s : State) (n : Nat) : Nat := fld (req0 s n) 26 24
abbrev reqWorld (s : State) (n : Nat) : Bool := tb (req0 s n) 23
abbrev reqPaired (s : State) (n : Nat) : Bool := tb (req0 s n) 22
abbrev reqProg (s : State) (n : Nat) : Nat := fld (req0 s n) 15 8
abbrev reqBudget (s : State) (n : Nat) : Nat := fld (req1 s n) 31 16
abbrev reqRate (s : State) (n : Nat) : Nat := max 1 (fld (req1 s n) 15 0)

/-- The carrier period of a bridge: the active one, or what `PERIOD` will make it. -/
def carrierLen (s : State) (b : Nat) : Nat :=
  let x := s.br b
  if pwmRun s b || x.waiting then x.period.toNat else max 64 (fld (s.rg (pw b Pwm.PERIOD)) 15 0)
/-- The phase of a bridge's carrier as it stands or is due. -/
def carrierPhase (s : State) (b : Nat) : Nat :=
  let x := s.br b
  match x.phase with
  | some p => p
  | none => if pwmRun s b || x.waiting then fld (s.rg (pw b Pwm.PHASE_EFF)) 15 0 else fld (s.rg (pw b Pwm.PHASE)) 15 0
/-- `CONV.SMPSTAT_b.ACTIVE`. -/
abbrev smpActive (s : State) (b : Nat) : Bool := tb (s.rg (ra .conv (Conv.SMPSTAT b))) 0
/-- A bridge's sample instant in its carrier period: the `AT` of the enable in force, which a later write of
`CONV.SMP_b` does not move before it is submitted; else the register's `AT` (R137). -/
def smpAt (s : State) (b : Nat) : Nat :=
  if smpActive s b then Tbl.get (fun _ => 0) s.conv.instant b else fld (s.rg (ra .conv (Conv.SMP b))) 15 0

/-- The distance of two sample instants: the smallest separation they ever reach (R22). -/
def instantDist (i1 l1 i2 l2 : Nat) : Nat :=
  let g := Nat.gcd l1 l2
  let d := ((i1 : Int) - i2) % g
  min d.toNat (g - d.toNat)

/-- The distance of bridge `b` at phase `p` from bridge `c` as it stands. -/
def bridgeDist (s : State) (b p c : Nat) : Nat :=
  instantDist (p + smpAt s b) (carrierLen s b) (carrierPhase s c + smpAt s c) (carrierLen s c)

/-- Role of converter `n` (R133): 0 UNCAL, 1 LIVE, 2 CAL, 3 WAIT, 4 FENCED. -/
abbrev cvRole (s : State) (n : Nat) : Nat := fld (s.rg (ra .conv (Conv.CV_STATE n))) 2 0
/-- Usable converters: neither fenced nor uncalibrated. -/
def usableCvs (s : State) : Nat := ((List.range 28).filter (fun n => cvRole s n ≠ 4 && cvRole s n ≠ 0)).length
/-- Bridges that may share one sample instant: 8, or fewer with fewer than 24 usable converters (R22, R147). -/
def shareLimit (s : State) : Nat := if usableCvs s < 24 then usableCvs s / 3 else 8

/-- `CONV.CHMAP_c.BOUND` and `.CONV`. -/
abbrev chBound (s : State) (c : Nat) : Bool := tb (s.rg (ra .conv (Conv.CHMAP c))) 31
abbrev chConv (s : State) (c : Nat) : Nat := fld (s.rg (ra .conv (Conv.CHMAP c))) 4 0
/-- Channels bound to a converter. -/
def heldBy (s : State) (n : Nat) : List Nat := (List.range 36).filter (fun c => chBound s c && chConv s c = n)

/-- R22 holds for bridge `b` at phase `p`. -/
def r22Holds (s : State) (b p : Nat) : Bool :=
  let others := (List.range 12).filter (fun c => c ≠ b && smpActive s c)
  others.all (fun c => bridgeDist s b p c = 0 || bridgeDist s b p c ≥ 60)
    && (others.filter (fun c => bridgeDist s b p c = 0)).length + 1 ≤ shareLimit s

/-- The channels that a converter holds, or takes or takes back in the rotation step in progress (R145, R148). -/
def heldSoon (s : State) (n : Nat) : List Nat :=
  heldBy s n ++ match s.conv.step with
    | some h => if n = h.inc then h.todo else if n = h.out then h.taken else []
    | none => []
/-- Channels of other bridges that leave room for an instant of bridge `b` at phase `p` (R134). -/
def roomFor (s : State) (b p : Nat) (cs : List Nat) : Bool := cs.all (fun c => c / 3 = b || bridgeDist s b p (c / 3) ≥ 60)
/-- Converters that could hold a channel of bridge `b` at phase `p` (R134, R137). -/
def freeCvs (s : State) (b p : Nat) : List Nat :=
  (List.range 28).filter (fun n => (cvRole s n = 1 || cvRole s n = 3) && roomFor s b p (heldSoon s n))
/-- The binding of bridge `b` keeps R134 at the phase as it stands. -/
def bindingHolds (s : State) (b : Nat) : Bool :=
  [3 * b, 3 * b + 1, 3 * b + 2].all (fun c => !chBound s c || roomFor s b (carrierPhase s b) (heldSoon s (chConv s c)))

/-- The class-A contexts with a bank on an engine, other than context `n`. -/
def classAOn (s : State) (g n : Nat) : List Nat :=
  ((s.axis.banks.filter (fun e => e.1 / 16 = g && e.2.cls = 0 && e.2.ctx.isSome && e.2.ctx ≠ some n)).map
    (fun e => e.2.ctx.getD 0)).eraseDups

/-- Two instants on one engine are far enough apart in both directions (R242): `ba` and `bb` are the budgets of
the axes at `ia` and `ib`. -/
def r242Gap (ia ba ib bb l : Nat) : Bool :=
  let d (x y : Nat) : Nat := (((y : Int) - x) % (l : Int)).toNat
  d ia ib ≥ (2 * ba + 2) / 3 && d ib ia ≥ (2 * bb + 2) / 3

/-- The period and sample instant of an axis context, for a local axis (R242).  `ovr` puts a phase in place
of a bridge's own. -/
def axisInstant (s : State) (n : Nat) (ovr : Option (Nat × Nat)) : Option (Nat × Nat) :=
  match bridgeOf s n with
  | some b =>
    let p := match ovr with | some (b', p') => if b' = b then p' else carrierPhase s b | none => carrierPhase s b
    some (carrierLen s b, p + smpAt s b)
  | none =>
    match linkOf s n with
    | some (l, a) => some (max 4000 (fld (s.rg (ri .teth l Teth.LP)) 15 0) * reqRate s n,
                           fld (s.rg (ri .teth l Teth.PHASE)) 15 0 + fld (s.rg (ri .teth l (Teth.AX_SOFF a))) 15 0)
    | none => none

/-- R242 holds for context `n` on engine `g`, with a phase put in place of a bridge's own. -/
def r242Holds (s : State) (n g : Nat) (ovr : Option (Nat × Nat)) : Bool :=
  reqClass s n ≠ 0 || (classAOn s g n).all (fun m =>
    match axisInstant s n ovr, axisInstant s m ovr with
    | some (l1, i1), some (l2, i2) => l1 = l2 && r242Gap i1 (reqBudget s n) i2 (reqBudget s m) l1
    | _, _ => true)

/-- A phase of bridge `b` meets R22, the binding rule of R134 and R242 for the engines its axis is on. -/
def phaseFits (s : State) (b p : Nat) (needCvs : Bool) : Bool :=
  r22Holds s b p && (!needCvs || 3 ≤ (freeCvs s b p).length)
    && (boundBanks s (pwmAxis s b)).all (fun k => r242Holds s (pwmAxis s b) (k / 16) (some (b, p)))

/-- The first phase from `p` on, modulo the period, that meets a condition, in at most `n` tries. -/
def searchPhase (ok : Nat → Bool) (l : Nat) : Nat → Nat → Option Nat
  | 0, _ => none
  | n + 1, p => if ok (p % l) then some (p % l) else searchPhase ok l n (p + 1)

/-- `SADL.BRPIN[b]`. -/
abbrev brPinned (s : State) (b : Nat) : Bool := tb (s.rg (ra .sadl Sadl.BRPIN)) b

/-- The Saddler's choice of a phase for bridge `b` (R137, R243): the present one if it is pinned; else any
that fits, which the manual leaves to the Saddler (a free value picks it, log entry 15). -/
def choosePhase (b : Nat) (needCvs : Bool) (s : State) : Option Nat × State :=
  let l := carrierLen s b
  if brPinned s b then
    (if phaseFits s b (carrierPhase s b) needCvs then some (carrierPhase s b) else none, s)
  else
    let (x, s1) := s.draw
    (searchPhase (fun p => phaseFits s b p needCvs) l l (x % l), s1)

/-- The Saddler sets the phase of a bridge and journals it with the agent it acts for (R255). -/
def saddlerPhase (b p agent : Nat) (s : State) : State :=
  if p = carrierPhase s b then s else journal 0x40 b 0 agent 0 p (setPhase b p s)

/-- The Saddler checks R22 and R134 after a re-anchoring or a phase step and re-places the bridge when they no
longer hold (R22, R164). -/
def recheckPhase (b : Nat) (s : State) : State :=
  if smpActive s b && !brPinned s b && !(r22Holds s b (carrierPhase s b) && bindingHolds s b) then
    match choosePhase b true s with
    | (some p, s1) => saddlerPhase b p 1 s1
    | (none, s1) => s1
  else s

/-- A write of `PHASE` (R164, R243): firmware may write it only while the bridge is pinned, and never so that
R22, R134 or R242 breaks; a refused write sets the two flags and is journalled. -/
def phaseWrite (b : Nat) (v : Word) (s : State) : Resp × State :=
  let p := fld v 15 0
  if brPinned s b && (!smpActive s b || phaseFits s b p true) then (.ok 0, setPhase b p s)
  else (.ok 0, journal 0x41 b 0 1 0 p (sadlNotice 9 (pwmFlag b 10 s)))

def execPwmPhaseWrite (m : Master) (b : Fin 12) (v : Word) (s : State) : Host.Outcome State Fault Refusal :=
  .next (regAccess m (pw b Pwm.PHASE) (phaseWrite b v) s)

end Sys2Proof.Machine
end

