-- ==== Sys2Proof/Machine/Faults.lean ====
section
/-! DEFINITION. The fault path (R464–R466), entry to SAFE_HOLD (R425, R426), and the safe state of an axis
wherever its outputs are (R185, R288). -/

namespace Sys2Proof.Machine

/-- The edge cells of a linked axis that have not started are dropped (R288). -/
def dropEdges (l a : Nat) (s : State) : State :=
  let isEdge (c : LinkCell) : Bool := c.prio = 1 && c.bytes.head? = some (BitVec.ofNat 8 (1 + 16 * a))
  s.setLink l { s.link l with queue := (s.link l).queue.filter (fun c => !isEdge c) }

/-- A linked axis enters its safe state (R288): its edge cells that have not started are dropped.  The cause of
the first entry stays; a cause that comes while `CLEAR` is being sent ends that. -/
def tethSafe (l a cause : Nat) (s : State) : State :=
  let r := ri .teth l (Teth.AX_AXSTAT a)
  let x := (s.link l).ax a
  if tb (s.rg r) 31 && x.clearing.isNone then s
  else
    let s1 := s.setLinkAx l a { x with clearing := none, pend := none, active := [] }
    let s2 := dropEdges l a s1
    let s3 := (s2.setRgBit r 31 true).setRgFld r 30 28 cause
    if tb (s.rg r) 31 then s3 else raiseEvent (0x410 + l) s3

/-- The outputs of an axis slot enter the safe state, local or linked. -/
def axisSafe (n cause : Nat) (s : State) : State :=
  match bridgeOf s n with
  | some b => enterSafe b cause s
  | none => match linkOf s n with
    | some (l, a) => tethSafe l a cause s
    | none => s

/-- `PMU.MODE` changes; event 0x4A3 (R419). -/
def setMode (m : Nat) (s : State) : State :=
  let a := ra .pmu Pmu.MODE
  let old := opMode s
  if old = m then s else raiseEvent 0x4A3 ((s.setRgFld a 6 4 old).setRgFld a 2 0 m)

/-- Every bridge and every enabled linked axis enters its safe state with a cause (R425). -/
def allSafe (cause : Nat) (s : State) : State :=
  let s1 := (List.range 12).foldl (fun s b => enterSafe b cause s) s
  (List.range 16).foldl (fun s l => (List.range 8).foldl (fun s a => if tethEn s l a then tethSafe l a cause s else s) s) s1

/-- BOOST ends (R425, R438): the register shows it and event 0x4A2 is raised. -/
def boostEnd (code : Nat) (s : State) : State :=
  let a := ra .pmu Pmu.BOOST
  if tb (s.rg a) 30 then raiseEvent 0x4A2 ((s.setRgBit a 30 false).setRgFld a 3 0 code) else s

/-- SAFE_HOLD is entered (R425). -/
def enterSafeHold (s : State) : State :=
  let s1 := allSafe 7 (boostEnd 6 s)
  let s2 := (List.range 8).foldl (fun s m => s.setMark m none) s1
  let s2 := (List.range 4).foldl (fun s g => s.setGirth g { s.girth g with safe := some [] }) s2
  (setMode 6 s2).setRgBit (ra .pmu Pmu.SHCAUSE) 31 true

/-- A request in progress completes with a code (R420, R446). -/
def reqDone (code : Nat) (s : State) : State :=
  let q := ra .pmu Pmu.REQSTAT
  let s1 := { s with power.entry := none }
  (((s1.setRgBit q 31 false).setRgBit q 30 true).setRgFld q 7 0 code).setRgBit (ra .pmu Pmu.MODE) 31 false

/-- A cause of R426 occurs: its bits are set; an entry to STANDBY or HIBERNATE is abandoned, and RUN and BOOST
are left for SAFE_HOLD (R420, R426).  The cause `REQ` ends at once (R427). -/
def safeHoldCause (bit : Nat) (s : State) : State :=
  let a := ra .pmu Pmu.SHCAUSE
  let s1 := (s.setRgBit a bit true).setRgBit a (8 + bit) (bit ≠ 0)
  let s2 := if s1.power.entry.isSome then reqDone 4 s1 else s1
  if opMode s = 4 ∨ opMode s = 5 then enterSafeHold s2 else s2

/-- A cause of R426 has ended (R427). -/
def causeEnds (bit : Nat) (s : State) : State := s.setRgBit (ra .pmu Pmu.SHCAUSE) (8 + bit) false

/-- Records in the fault ring (R466); `SIZE` is clamped into 4–16 (log entry 11). -/
def faultRing (s : State) : Nat := 2 ^ max 4 (min 16 (fld (s.rg (ra .stc Stc.FLCFG)) 4 0))

/-- Writes one record into the ring of the fault path (R466) as Twill master 26.  DESIGN CHOICE (log entry 69): a record
whose write fails is lost, and no event is raised for it. -/
def faultWrite (code unit sev detail : Nat) (s : State) : State :=
  if !tb (s.rg (ra .stc Stc.FLCFG)) 31 then s
  else
    let n := faultRing s
    let w := fld (s.rg (ra .stc Stc.FLW)) 15 0 % n
    if (w + 1) % n = fld (s.rg (ra .stc Stc.FLR)) 15 0 % n then bump .stc 0 Stc.FLOVF_CNT s
    else
      let bs := toBytes 4 s.time.selvedge.toNat ++ toBytes 4 (code * 2 ^ 24 + (unit % 256) * 2 ^ 16 + sev * 256)
        ++ toBytes 4 detail ++ toBytes 4 (s.faultSeq % 65536)
      let (ok, s1) := agentWrite midStc true ((s.rg (ra .stc Stc.FLBASE)).toNat * 256 + 16 * w) bs s
      let s2 := s1.setRg (ra .stc Stc.FLW) (w32 ((w + 1) % n))
      if ok then raiseEvent 0x4B8 s2 else s2

/-- A fault reaches the test steward: the record, `MAXSEV`, and the reaction of its severity (R464–R466). -/
def faultRecord (code unit sev detail : Nat) (s : State) : State :=
  let s1 := faultWrite code unit sev detail s
  let a := ra .stc Stc.FSTAT
  let s2 := { s1 with faultSeq := (s1.faultSeq + 1) % 65536 }
  let s3 := if fld (s2.rg a) 1 0 < sev then s2.setRgFld a 1 0 sev else s2
  let cfg := s3.rg (ra .stc Stc.FCFG)
  if sev = 3 || (sev = 1 && tb cfg 0) || (sev = 2 && tb cfg 1) then safeHoldCause 4 (s3.setRgBit a 31 true) else s3

/-- The faults of the outputs that wait reach the test steward, in order. -/
def settle (s : State) : State :=
  s.faultQueue.foldl (fun s q => faultRecord q.1 q.2.1 q.2.2.1 q.2.2.2 s) { s with faultQueue := [] }

/-- An engine is marked suspect (R250, R253). -/
def markSuspect (g : Nat) (s : State) : State :=
  let s1 := s.setRgBit (ra .sadl Sadl.SUSPECT) g true
  let s2 := s1.setRgBit (ri .isl (g / 4) (Isl.ENG (g % 4))) 30 true
  faultRecord 0x0C g 0 0 (journal 0x71 0 0 0 (locWord (g * 16)) 0 (sadlNotice 3 s2))

end Sys2Proof.Machine
end

