-- ==== Sys2Proof/Machine/Sample.lean ====
section
/-! DEFINITION. The sample path (R132–R158): correction, calibration, the pool and its rotation, handovers,
the sample port, window comparators, trip inputs and threshold sweeps. -/

namespace Sys2Proof.Machine

/-! ### Roles and the pool's registers (R133, R157) -/

/-- Number of converters in a role. -/
def inRole (s : State) (r : Nat) : Nat := ((List.range 28).filter (fun n => cvRole s n = r)).length

/-- `CONV.POOL` shows the roles. -/
def poolRefresh (s : State) : State :=
  let a := ra .conv Conv.POOL
  s.setRg a (setFld (setFld (setFld (setFld (s.rg a) 28 24 (inRole s 4)) 20 16 (inRole s 3)) 12 8 (inRole s 2)) 4 0 (inRole s 1))

/-- A converter takes a role. -/
def setRole (n r : Nat) (s : State) : State := poolRefresh (s.setRgFld (ra .conv (Conv.CV_STATE n)) 2 0 r)

/-- `CONV.POOL.READY`. -/
abbrev poolReady (s : State) : Bool := tb (s.rg (ra .conv Conv.POOL)) 31
/-- A `CONV.NOTICE` bit is set. -/
def convNotice (i : Nat) (s : State) : State := s.setRgBit (ra .conv Conv.NOTICE) i true

/-- `CONV.ROT.STEP` in Selvedge ticks, clamped into 50–1,000 units of 10 µs (R157). -/
def rotInterval (s : State) : Nat := max 50 (min 1000 (fld (s.rg (ra .conv Conv.ROT)) 15 0)) * 8000
/-- `CONV.ROT.ROT_EN`. -/
abbrev rotOn (s : State) : Bool := tb (s.rg (ra .conv Conv.ROT)) 31

/-- The rotation step in progress is given up: no overlap sample is pending for it, and the outgoing converter keeps
its channels (R147, R148). -/
def dropStep (s : State) : State :=
  match s.conv.step with
  | none => s
  | some h =>
    let clear (s : State) (c : Nat) : State :=
      let a := ra .conv (Conv.CHMAP c)
      if tb (s.rg a) 30 then s.setRg a (setFld (setBit (s.rg a) 30 false) 12 8 0) else s
    { h.todo.foldl clear s with conv.step := none }

/-- With fewer than 25 usable converters the rotation stops and the pool is degraded (R147). -/
def degradedCheck (s : State) : State :=
  if usableCvs s < 25 then faultRecord 0x05 (usableCvs s) 1 0 (convNotice 3 (dropStep s)) else s

/-- A channel that the outgoing converter of the step in progress comes to hold is handed over with the others, in
ascending number behind the one in progress (R145). -/
def joinStep (c n : Nat) (s : State) : State :=
  match s.conv.step with
  | some h =>
    if h.out = n && !h.todo.contains c then
      let t := h.todo.drop 1
      { s with conv.step := some { h with
          todo := h.todo.take 1 ++ t.filter (fun d => d < c) ++ [c] ++ t.filter (fun d => c < d) } }
    else s
  | none => s
/-- A channel is bound to a converter (R134); the converter is LIVE. -/
def bindCh (c n : Nat) (s : State) : State := setRole n 1 (s.setRg (ra .conv (Conv.CHMAP c)) (w32 (2 ^ 31 + n)))

/-- A converter without channels returns to WAIT (R133). -/
def restCv (n : Nat) (s : State) : State :=
  if cvRole s n = 1 && (heldBy s n).isEmpty then setRole n 3 s else s

/-! ### Calibration (R139, R146, R147, R457) -/

/-- `divn` of R146: quotient to nearest, halves up. -/
def divn (a b : Int) : Int := (2 * a + b) / (2 * b)
/-- `rnd(y, n)` of R70. -/
def rndI (y : Int) (n : Nat) : Int := if n = 0 then y else (y + 2 ^ (n - 1)) / 2 ^ n

/-- V_k of R146: 16 times the ideal code of level k. -/
def calIdeal (k : Nat) : Int := if k = 16 then 16 * 65520 else 16 * (k * 4096)

/-- The coefficients that a calibration fits, and whether it passes (R146): OFFS, GAIN, LIN_0 … LIN_16. -/
def calFit (levels : List (Nat × Nat)) : Option (Int × Int × List Int) :=
  let m (k : Nat) : Int := rndI ((levels.getD k (0, 0)).1 : Int) 2
  if levels.length ≠ 17 ∨ m 15 ≤ m 1 then none
  else
    let gain := divn (2 ^ 15 * (calIdeal 15 - calIdeal 1)) (m 15 - m 1)
    if gain < 0x7333 ∨ gain > 0x8CCD then none
    else
      let offs := m 1 - divn (2 ^ 15 * calIdeal 1) gain
      let lin := (List.range 17).map (fun k => divn (2 ^ 15 * calIdeal k) gain + offs - m k)
      let spread := levels.all (fun p => 64 * p.2 ≤ p.1 * p.1 + 16 * 64 * 64)
      if offs < -4096 ∨ offs > 4095 ∨ lin.any (fun x => x < -2048 || x > 2047) ∨ !spread then none
      else some (offs, gain, lin)

/-- Entry into CAL, for two step intervals (R145): the reference trim moves one step toward a `GAIN` of 0x8000
(R146, R457). -/
def enterCal (n : Nat) (s : State) : State :=
  let g := fld (s.rg (ra .conv (Conv.CV_GAIN n))) 15 0
  let a := ra .conv (Conv.CV_REFTRIM n)
  let t := sext (s.rg a).toNat 6
  let s0 := s.setCv n { s.cv n with calDue := s.time.selvedge + w64 (2 * rotInterval s) }
  let s1 := setRole n 2 s0
  if 0x7A00 ≤ g ∧ g ≤ 0x8600 then s1
  else
    let t' := if (g < 0x7A00) = Config.refTrimUp then t + 1 else t - 1
    if t' < -32 ∨ t' > 31 then
      (let s2 := raiseEvent 0x4B0 (s1.setRgBit (ra .age Age.NOTICE) 4 true)
       if (s.cv n).trimLim then s2
       else faultRecord 0x13 n 0 256 (s2.setCv n { s2.cv n with trimLim := true }))
    else s1.setRg a (w32 (wrap t' 6))

/-- Writes a converter's coefficients (R139). -/
def putCoefs (n : Nat) (c : Int × Int × List Int) (s : State) : State :=
  let s1 := (s.setRg (ra .conv (Conv.CV_OFFS n)) (w32 (wrap c.1 16))).setRg (ra .conv (Conv.CV_GAIN n)) (w32 (wrap c.2.1 16))
  c.2.2.zipIdx.foldl (fun s p => s.setRg (ra .conv (Conv.CV_LIN n p.2)) (w32 (wrap p.1 16))) s1

/-- Bridge `b`'s channel `c` could lie on converter `n` beside what it holds (R134). -/
def cvCompat (s : State) (c n : Nat) : Bool :=
  (heldSoon s n).all (fun d => d = c || (d / 3 ≠ c / 3 && bridgeDist s (c / 3) (carrierPhase s (c / 3)) (d / 3) ≥ 60))

/-- The first element of a list after rotating it by a free amount. -/
def pickFree (l : List Nat) (s : State) : Option Nat × State :=
  if l.isEmpty then (none, s)
  else
    let (x, s1) := s.draw
    (l[x % l.length]?, s1)

/-- The CAL converter that R143 takes early: the newest good calibration, then the lowest number. -/
def earlyCal (s : State) (c : Nat) : Option Nat :=
  ((List.range 28).filter (fun n => cvRole s n = 2 && (s.cv n).good && cvCompat s c n)).foldl (fun best n =>
    match best with
    | none => some n
    | some m => if newer 64 (s.cv n).passedAt.toNat (s.cv m).passedAt.toNat then some n else some m) none

/-- The converters of a list that a new binding takes: one that is not the incoming converter of the rotation step in
progress, where there is one (log entry 34). -/
def sparesInc (s : State) (l : List Nat) : List Nat :=
  match s.conv.step with
  | some h => if (l.filter (fun n => n ≠ h.inc)).isEmpty then l else l.filter (fun n => n ≠ h.inc)
  | none => l

/-- A channel of a fenced converter goes to a WAIT converter, or to a CAL converter taken early, from its next
sample; else it stays stale (R143). -/
def rebind (c : Nat) (s : State) : State :=
  match pickFree (sparesInc s ((List.range 28).filter (fun n => cvRole s n = 3 && cvCompat s c n))) s with
  | (some n, s1) => bindCh c n s1
  | (none, s1) =>
    match earlyCal s1 c with
    | some n => bindCh c n s1
    | none => convNotice 3 s1

/-- A converter is fenced (R143, R146, R148): detail 1 missing, 2 calibration, 3 handover. -/
def fenceCv (n detail : Nat) (s : State) : State :=
  let held := heldBy s n
  let s1 := faultRecord 0x04 n 1 detail (raiseEvent 0x339 (convNotice 1 (setRole n 4 s)))
  let s2 := match s1.conv.step with
    | some h => if h.out = n || h.inc = n then dropStep s1 else s1
    | none => s1
  degradedCheck (held.foldl (fun s c => rebind c s) s2)

/-- A calibration ends (R146). -/
def calibrationEnd (n : Nat) (r : CalRun) (s : State) : State :=
  let s1 := s.setRg (ra .conv (Conv.CV_CALTIME n)) (w32 s.time.selvedge.toNat)
  match r.bind calFit with
  | some c =>
    let s2 := (putCoefs n c s1).setRgFld (ra .conv (Conv.CV_STATE n)) 9 8 0
    setRole n 3 (s2.setCv n { s2.cv n with passedAt := s.time.selvedge, good := true })
  | none =>
    let k := fld (s.rg (ra .conv (Conv.CV_STATE n))) 9 8 + 1
    let s2 := (s1.setRgFld (ra .conv (Conv.CV_STATE n)) 9 8 k).setCv n { s1.cv n with good := false }
    if k ≥ 2 then fenceCv n 2 s2 else enterCal n s2

/-! ### Sampling enables (R134, R137) -/

/-- Of the converters that could hold a channel, those that keep the pool at 24 LIVE converters with the others in
CAL and WAIT: a WAIT converter while fewer are LIVE, else a LIVE one, where there is one (R133). -/
def steadyCvs (s : State) (l : List Nat) : List Nat :=
  let want := l.filter (fun n => cvRole s n = (if inRole s 1 < 24 then 3 else 1))
  if want.isEmpty then l else want

/-- Binds the three channels of a bridge to three converters of the pool steward's choice (R133, R134).  DESIGN CHOICE
(log entry 34): the incoming converter of a rotation step is taken only where no other could hold the channel. -/
def bindBridge (b : Nat) (s : State) : State :=
  [0, 1, 2].foldl (fun s k =>
    let could := (freeCvs s b (carrierPhase s b)).filter (fun n => (heldBy s n).all (fun c => c / 3 ≠ b))
    match pickFree (steadyCvs s (sparesInc s could)) s with
    | (some n, s1) => joinStep (3 * b + k) n (bindCh (3 * b + k) n s1)
    | (none, s1) => s1) s

/-- The step ends: an outgoing converter without channels enters CAL (R145). -/
def stepEnd (h : Handover) (s : State) : State :=
  let s1 := { s with conv.step := none }
  if (heldBy s1 h.out).isEmpty && cvRole s1 h.out ≠ 4 then enterCal h.out s1 else s1

/-- A handover is over: the step ends when no channel is left, or with `ROT_EN` = 0; else it goes on with the next
channel (R145). -/
def stepOn (h : Handover) (s : State) : State :=
  if h.todo.isEmpty || !rotOn s then stepEnd h s else { s with conv.step := some h }

/-- The channels of a bridge leave their converters; a converter left without channels returns to WAIT, and a
handover of an unbound channel counts as done: where it was the one in progress, the step goes on as after a handover
and the lost periods start afresh (R133, R145, R149). -/
def releaseChannels (b : Nat) (s : State) : State :=
  let cs := [3 * b, 3 * b + 1, 3 * b + 2]
  let ns := (cs.filter (fun c => chBound s c)).map (fun c => chConv s c)
  let s1 := cs.foldl (fun s c => s.setRg (ra .conv (Conv.CHMAP c)) 0) s
  let s2 := ns.foldl (fun s n => restCv n s) s1
  match s2.conv.step with
  | none => s2
  | some h =>
    let h1 : Handover := { h with todo := h.todo.filter (fun c => c / 3 ≠ b), taken := h.taken.filter (fun c => c / 3 ≠ b) }
    if h1.todo.head? = h.todo.head? then { s2 with conv.step := some h1 } else stepOn { h1 with losses := 0 } s2

/-- Sampling of a bridge ends: its channels are unbound (R137). -/
def unbindBridge (b : Nat) (s : State) : State :=
  let s1 := releaseChannels b s
  ({ s1 with conv.unbind := s1.conv.unbind.filter (fun x => x ≠ b),
             conv.acq := s1.conv.acq.filter (fun r => r.bridge ≠ b) }).setRgBit (ra .conv (Conv.SMPSTAT b)) 0 false

/-- The instant of a bridge's enable is `at_`. -/
def putInstant (b at_ : Nat) (s : State) : State :=
  { s with conv.instant := Tbl.set (fun _ => 0) s.conv.instant b at_ }

/-- An enable that is submitted to the Saddler is accepted or refused (R137).  DESIGN CHOICE (log entry 34): one that
comes while an earlier binding still waits for its boundary replaces that binding when it is accepted; and an enable on
a running carrier is `ACTIVE` at once and samples at the old phase until the Saddler's phase step has taken effect. -/
def submitSmp (b : Nat) (s : State) : State :=
  match choosePhase b true (putInstant b (fld (s.rg (ra .conv (Conv.SMP b))) 15 0) s) with
  | (some p, s1) =>
    let s2 := bindBridge b (saddlerPhase b p 1 (unbindBridge b s1))
    s2.setRgBit (ra .conv (Conv.SMPSTAT b)) 0 true
  | (none, s1) =>
    ((putInstant b (Tbl.get (fun _ => 0) s.conv.instant b) s1).setRgBit (ra .conv (Conv.SMP b)) 31 false).setRgBit
      (ra .conv (Conv.SMPSTAT b)) 1 true

/-- A bridge whose phase has moved keeps R134: where its converters no longer leave 60 ticks, the pool steward binds
its channels anew. -/
def keepBinding (b : Nat) (s : State) : State :=
  if smpActive s b && !bindingHolds s b && 3 ≤ (freeCvs s b (carrierPhase s b)).length
  then bindBridge b (releaseChannels b s) else s

/-- A write of `CONV.SMP_b` (R137). -/
def smpWrite (b : Nat) (v : Word) (s : State) : Resp × State :=
  let a := ra .conv (Conv.SMP b)
  let was := tb (s.rg a) 31
  if was && tb v 31 then (.ok 0, s.setRgBit (ra .conv (Conv.SMPSTAT b)) 1 true)
  else
    let s1 := s.setRg a (w32 (fld v 15 0 + b2n (tb v 31) * 2 ^ 31))
    if tb v 31 then
      (.ok 0, if poolReady s1 then submitSmp b s1 else s1)
    else if !was then (.ok 0, s1)
    else if pwmRun s b then (.ok 0, { s1 with conv.unbind := s1.conv.unbind ++ [b] })
    else (.ok 0, unbindBridge b s1)

/-- The initial calibration (R144): failures are fenced, the others wait, `READY` is set, the rotation's step times
begin, and the held enables are submitted. -/
def initialCalibration (rs : List CalRun) (s : State) : State :=
  let s1 := (List.range 28).foldl (fun s n => enterCal n s) s
  let s2 := (List.range 28).foldl (fun s n =>
    match (rs.getD n none).bind calFit with
    | some c =>
      let s' := (putCoefs n c s).setRg (ra .conv (Conv.CV_CALTIME n)) (w32 s.time.selvedge.toNat)
      setRole n 3 (s'.setCv n { s'.cv n with passedAt := s.time.selvedge, good := true })
    | none => fenceCv n 2 ((s.setRg (ra .conv (Conv.CV_CALTIME n)) (w32 s.time.selvedge.toNat)).setRgFld
        (ra .conv (Conv.CV_STATE n)) 9 8 1)) s1
  let s3 := { s2.setRgBit (ra .conv Conv.POOL) 31 true with conv.nextStep := s2.time.selvedge + w64 (rotInterval s2) }
  ((List.range 12).filter (fun b => tb (s3.rg (ra .conv (Conv.SMP b))) 31)).foldl (fun s b => submitSmp b s) s3

/-! ### Correction (R138) -/

/-- The corrected code of raw code `r` of converter `n`, and its `SAT` flag (R138). -/
def correct (s : State) (n : Nat) (r : Nat) : Nat × Bool :=
  let lin16 (k : Nat) : Int := sext (s.rg (ra .conv (Conv.CV_LIN n k))).toNat 16
  let seg := r / 4096
  let f : Int := (r % 4096 : Nat)
  let lin := lin16 seg + (lin16 (seg + 1) - lin16 seg) * f / 4096
  let x := 16 * (r : Int) + lin - sext (s.rg (ra .conv (Conv.CV_OFFS n))).toNat 16
  let y := x * fld (s.rg (ra .conv (Conv.CV_GAIN n))) 15 0 / 32768
  let c := rndI y 4
  ((clampI c 0 65535).toNat, c < 0 || c > 65535 || r = 0 || r = 65535)

/-! ### Handovers (R148, R149) -/

/-- The axis slot of a channel's bridge has a bank bound. -/
def chAxisBound (s : State) (c : Nat) : Bool := pwmAxis s (c / 3) < 128 && ctxBound s (pwmAxis s (c / 3))

/-- Another agent's placement action keeps a handover off the axis in this period (R27–R29): a migration that
has begun, one of higher rank that is ordered, or an action that this period has had. -/
def handoverLoses (s : State) (x : Nat) : Bool :=
  (s.ax x).acted || (match (s.ctx x).mig with
    | some m => m.step ≠ 0 || m.agent = 3 || m.agent = 4
    | none => false)

/-- `AX_a.AXST.QUIET`. -/
abbrev axisQuiet (s : State) (x : Nat) : Bool := (s.ax x).quietEnd.isSome

/-- `CHMAP_c.OVL`. -/
abbrev overlapDue (s : State) (c : Nat) : Bool := tb (s.rg (ra .conv (Conv.CHMAP c))) 30
/-- A sample of a list takes the channel with two converters. -/
def overlapIn (c : Nat) (rs : List SampleRun) : Bool :=
  rs.any (fun r => r.bridge = c / 3 && (r.second.getD (c % 3) none).isSome)
/-- The period is occupied by a placement action on the axis of channel `c` (R27). -/
def handoverActs (c : Nat) (s : State) : State :=
  let x := pwmAxis s (c / 3)
  if chAxisBound s c then s.setAx x { s.ax x with acted := true } else s

/-- The handover in progress asks for this period of its channel's axis (R149): it is deferred by a quiet
window, loses to another agent, or makes the channel's next sample an overlap sample.  One whose acquisition is open
already, before a carrier start that its instant closely follows, occupies this period too; one that was granted in a
period without a sample is withdrawn and asks again. -/
def handoverTry (b : Nat) (s0 : State) : State :=
  match s0.conv.step with
  | none => s0
  | some h =>
    match h.todo with
    | [] => s0
    | c :: rest =>
      let x := pwmAxis s0 b
      let a := ra .conv (Conv.CHMAP c)
      let s := if c / 3 = b && overlapDue s0 c then s0.setRg a (setFld (setBit (s0.rg a) 30 false) 12 8 0) else s0
      if c / 3 ≠ b || overlapIn c s0.conv.runs || !cvCompat s0 c h.inc then s0
      else if overlapIn c s0.conv.acq then handoverActs c s0
      else if chAxisBound s c && axisQuiet s x then s
      else if chAxisBound s c && handoverLoses s x then
        if h.losses + 1 ≥ 16 then
          let s1 := journal 0x22 x 0 6 h.out h.inc (bump .conv 0 Conv.SKIP_CNT (convNotice 4 s))
          let s2 := s1.setCv h.out { s1.cv h.out with skipHold := usableCvs s1 }
          stepOn { h with todo := rest, losses := 0 } s2
        else { s with conv.step := some { h with losses := h.losses + 1 } }
      else
        let s1 := s.setRg a (setFld (setBit (s.rg a) 30 true) 12 8 h.inc)
        { handoverActs c s1 with conv.step := some { h with losses := 0 } }

/-- The step goes on with its next channel at once where the acquisition for that channel's sample of this period has
not opened yet, and ends when no channel is left or `ROT_EN` is 0. -/
def handoverNext (h : Handover) (s : State) : State :=
  match h.todo with
  | [] => stepEnd h s
  | c :: _ =>
    let s1 := stepOn h s
    if s1.conv.step.isSome && (s.br (c / 3)).count + 16 < smpAt s (c / 3) then handoverTry (c / 3) s1 else s1

/-- The overlap sample of a channel with converter `n` is judged (R148): `d` is the difference of the two corrected
codes.  A step that has ended since the sample judges nothing.  DESIGN CHOICE (log entry 34): a channel that a new
binding gave to a converter that is then rejected is bound anew, as that of a fenced converter is. -/
def handoverJudge (c n d : Nat) (s : State) : State :=
  match s.conv.step with
  | none => s
  | some h =>
    if h.inc ≠ n || h.todo.head? ≠ some c then s
    else
    let x := pwmAxis s (c / 3)
    let tol := max 1 (fld (s.rg (ra .conv Conv.HOCFG)) 7 0)
    let rest := h.todo.filter (fun e => e ≠ c)
    if d ≤ tol then
      let s1 := (bindCh c h.inc s).setRgFld (ra .conv (Conv.CV_STATE h.inc)) 5 4 0
      handoverNext { h with todo := rest, taken := h.taken ++ [c], losses := 0 }
        (journal 0x20 x (min d 255) 6 h.out h.inc s1)
    else
      let s1 := h.taken.foldl (fun s e => if chBound s e && chConv s e = h.inc then bindCh e h.out s else s) s
      let s2 := raiseEvent 0x338 (bump .conv 0 Conv.HOREJ_CNT (convNotice 0 s1))
      let rej := fld (s.rg (ra .conv (Conv.CV_STATE h.inc))) 5 4 + 1
      let s3 := (s2.setRgFld (ra .conv (Conv.CV_STATE h.inc)) 5 4 rej).setCv h.inc { s2.cv h.inc with good := false }
      let s4 := journal 0x21 x (min d 255) 6 h.out h.inc { s3 with conv.step := none }
      if rej ≥ 3 then fenceCv h.inc 3 s4
      else (heldBy s4 h.inc).foldl (fun s c => rebind c s) (enterCal h.inc s4)

/-- A step time of the rotation has come (R145). -/
def rotationDue (s : State) : Bool := poolReady s && reached 64 s.time.selvedge.toNat s.conv.nextStep.toNat

/-- A step time of the rotation (R145, R147).  DESIGN CHOICE (log entry 34): of converters with the same oldest
calibration time the lowest-numbered one is taken, outgoing as incoming. -/
def rotationStep (s0 : State) : State :=
  let s := { s0 with conv.nextStep := s0.time.selvedge + w64 (rotInterval s0) }
  if !poolReady s || !rotOn s || s.conv.step.isSome || usableCvs s < 25 || inRole s 3 = 0 then s
  else
    let older (n m : Nat) : Bool := newer 64 (s.cv m).passedAt.toNat (s.cv n).passedAt.toNat
    let oldest (l : List Nat) : Option Nat :=
      l.foldl (fun b n => match b with | none => some n | some m => if older n m then some n else some m) none
    let out := oldest ((List.range 28).filter (fun n => (cvRole s n = 1 || cvRole s n = 3) && (s.cv n).skipHold = 0))
    let s1 := (List.range 28).foldl (fun s n => if (s.cv n).skipHold = 0 then s
      else s.setCv n { s.cv n with skipHold := (s.cv n).skipHold - 1 }) s
    match out with
    | none => s1
    | some o =>
      if cvRole s o = 3 then enterCal o s1
      else
        match oldest ((List.range 28).filter (fun n => cvRole s n = 3)) with
        | none => s1
        | some i => handoverNext { out := o, inc := i, todo := heldBy s o } s1

/-- The millisecond of the age check has come (R147). -/
def calAgeDue (s : State) : Bool := s.time.selvedge.toNat % 800000 = 0
/-- The calibration ages are checked (R147). -/
def calAgeCheck (s : State) : State :=
  let lim := fld (s.rg (ra .conv Conv.CALCFG)) 15 0 * 800000
  if (List.range 28).any (fun n => cvRole s n = 1 && (s.time.selvedge - (s.cv n).passedAt).toNat > lim)
  then convNotice 2 s else s

/-! ### Taking and writing a sample (R135, R140–R143, R256) -/

/-- The commit deadline of a sample that bridge `b` takes now (R256). -/
def localDeadline (s : State) (b : Nat) : DWord :=
  let x := s.br b
  let tgt := fld (s.rg (pw b Pwm.TGT)) 15 0
  let start := coarse s - x.count + (if smpAt s b < tgt ∧ tgt < x.len then 0 else x.len)
  let ks := [0, 1, 2].flatMap (fun k => [legOn s b k / 32, legOff s b k / 32])
  let first := (ks.filter (fun k => k < x.len)).foldl min x.len
  w64 (2 * (start + first) - 16)

/-- The units whose capture a bridge's instant (kind 0) or boundary (kind 1) triggers (R198). -/
def triggerBridge (kind b : Nat) (s : State) : State :=
  let hit (t : Word) : Bool := fld t 31 30 = kind && fld t 27 24 = b
  let s1 := (List.range 12).foldl (fun s f =>
    if fbTakes s f && hit (s.rg (ri .fb f Fb.TRIG)) then s.setFb f { s.fb f with capDue := true } else s) s
  (List.range 8).foldl (fun s p =>
    if sencTakes s p && hit (s.rg (ri .senc p 4)) then s.setSenc p { s.senc p with capDue := true } else s) s1

/-- The acquisition for a bridge's next instant opens now, 16 ticks before it (R135): in the period of the instant, in
the one before where `AT` is below 16, or before the carrier's first boundary.  DESIGN CHOICE (log entry 34): where a
cut leaves fewer than 16 ticks to the instant, it opens at the cut. -/
def acquireDue (s : State) (b : Nat) : Bool :=
  let x := s.br b
  let at_ := smpAt s b
  smpActive s b &&
    (if x.waiting then at_ < 16 && (coarse s + 16 - at_) % x.len = fld (s.rg (pw b Pwm.PHASE_EFF)) 15 0 % x.len
     else pwmRun s b && !x.boundaryDue &&
      (x.count + 16 = at_ || (at_ < 16 && (x.count + 16 = x.len + at_ || (x.cut && x.count + 1 = x.len)))))

/-- The acquisition of a bridge's three channels opens: each is connected to its bound converter, and to the incoming
one for an overlap sample (R135, R148). -/
def acquire (b : Nat) (s : State) : State :=
  let cs := [3 * b, 3 * b + 1, 3 * b + 2]
  let run : SampleRun :=
    { bridge := b, time := w64 (2 * (coarse s + 16)), first := cs.map (chConv s),
      second := cs.map (fun c => if overlapDue s c then some (fld (s.rg (ra .conv (Conv.CHMAP c))) 12 8) else none) }
  { s with conv.acq := s.conv.acq.filter (fun r => r.bridge ≠ b) ++ [run] }

/-- The bridge is at its sample instant, and the acquisition is open (R135, R137). -/
def instantDue (s : State) (b : Nat) : Bool :=
  let x := s.br b
  smpActive s b && pwmRun s b && !x.boundaryDue && x.count = smpAt s b && s.conv.acq.any (fun r => r.bridge = b)

/-- The sample instant: the converters that acquire hold, `SAMPLE_TIME`, and the start of the conversions (R135). -/
def sampleInstant (b : Nat) (s : State) : State :=
  let t := w64 (2 * coarse s)
  let held := (s.conv.acq.filter (fun r => r.bridge = b)).map (fun r => { r with time := t })
  let s1 := [3 * b, 3 * b + 1, 3 * b + 2].foldl (fun s c =>
    if overlapIn c held then s.setRg (ra .conv (Conv.CHMAP c)) (setFld (setBit (s.rg (ra .conv (Conv.CHMAP c))) 30 false) 12 8 0)
    else s) s
  let s2 := s1.setRg (ra .conv (Conv.LAST b)) (w32 t.toNat)
  let s3 := { s2 with conv.runs := s2.conv.runs.filter (fun r => r.bridge ≠ b) ++ held,
                      conv.acq := s2.conv.acq.filter (fun r => r.bridge ≠ b) }
  let x := pwmAxis s b
  let s4 := if x < 128 && ctxBound s x then sampleTaken x t (localDeadline s b) s3 else s3
  triggerBridge 0 b s4

/-- A missing result is counted for its converter, unless it is out of service; the second in a row fences it
(R143). -/
def missingResult (n : Nat) (s : State) : State :=
  if cvRole s n = 4 || cvRole s n = 2 then s
  else
    let k := (s.cv n).missing + 1
    let s1 := s.setCv n { s.cv n with missing := k }
    if k ≥ 2 then fenceCv n 1 s1 else s1

/-- One channel of a sample: the value to write, its `SAT`, `STALE` and `HO` bits. -/
structure ChannelOut where
  value : Nat
  sat : Bool
  stale : Bool
  ho : Bool

/-- What the sample port writes for a channel whose results are `r1` and, on an overlap sample, `r2`
(R140, R143, R148). -/
def channelOut (s : State) (c n1 : Nat) (n2 : Option Nat) (r1 r2 : Option Nat) : ChannelOut :=
  let fromCode (p : Nat × Bool) : ChannelOut :=
    if c % 3 = 2 then ⟨p.1, p.2, false, n2.isSome⟩
    else
      let cfg := s.rg (ra .conv (Conv.CHCFG c))
      let z : Int := fld cfg 15 0
      let d : Int := if tb cfg 31 then z - p.1 else (p.1 : Int) - z
      ⟨wrap (clampI d (-32768) 32767) 16, p.2 || d < -32768 || d > 32767, false, n2.isSome⟩
  match r1, n2, r2 with
  | some r, _, _ => fromCode (correct s n1 r)
  | none, some m, some r => fromCode (correct s m r)
  | none, _, _ => ⟨(Tbl.get (fun _ => 0) s.conv.prev c).toNat, false, true, n2.isSome⟩

/-- The results of one channel are counted, and an overlap sample is judged (R143, R148). -/
def channelCount (c n1 : Nat) (n2 : Option Nat) (r1 r2 : Option Nat) (s : State) : State :=
  let note (s : State) : State := convNotice 5 s
  let seen (n : Nat) (s : State) : State := s.setCv n { s.cv n with missing := 0 }
  let hist (v : Nat) (s : State) : State :=
    { s with conv.hist := Tbl.set (fun _ => []) s.conv.hist c ((v :: Tbl.get (fun _ => []) s.conv.hist c).take 8) }
  match r1, n2, r2 with
  | some a, none, _ => seen n1 (hist (correct s n1 a).1 s)
  | none, none, _ => missingResult n1 (note s)
  | some a, some m, some b =>
    let x := (correct s n1 a).1
    let y := (correct s m b).1
    handoverJudge c m (if x ≤ y then y - x else x - y) (seen m (seen n1 (hist x s)))
  | some a, some m, none => missingResult m (seen n1 (hist (correct s n1 a).1 (note s)))
  | none, some m, some b => missingResult n1 (seen m (hist (correct s m b).1 (note s)))
  | none, some m, none => missingResult m (missingResult n1 (note s))

/-- The sample block of an axis is written into every bound bank, or counted as dropped (R142).  `drops` is the
register of the source's own counter, `mid` the Twill master that writes. -/
def samplePort (mid : Option (Fin 32)) (x : Nat) (bytes : List Byte) (time : DWord) (status : Nat) (dropBlk : Option (Blk × Nat × Nat))
    (s : State) : State :=
  if x < 128 && ctxBound s x then
    let q := (Tbl.get (fun _ => 0) s.conv.seq x + 1) % 256
    let s1 := { s with conv.seq := Tbl.set (fun _ => 0) s.conv.seq x q }
    wakeCtx x 0 (bankWrite mid x 0x10 (bytes ++ toBytes 4 time.toNat ++ toBytes 4 (q * 2 ^ 24 + status)) s1)
  else axisDrop x (match dropBlk with | some (b, i, o) => bump b i o s | none => s)

/-- `sat16(−IA − IB)` and whether it was clamped (R140). -/
def auxOf (ia ib : Nat) : Nat × Bool :=
  let x : Int := -(sext ia 16) - sext ib 16
  (wrap (clampI x (-32768) 32767) 16, x < -32768 || x > 32767)

/-- The conversions of a bridge's sample have ended (R138–R143): `rs` gives the raw code of each channel's
converter and of its second converter, none for no valid result. -/
def conversionEnd (b : Nat) (rs : List (Option Nat × Option Nat)) (s : State) : State :=
  match s.conv.runs.find? (fun r => r.bridge = b) with
  | none => s
  | some run =>
    let res (k : Nat) : Option Nat × Option Nat := rs.getD k (none, none)
    let n1 (k : Nat) : Nat := run.first.getD k 0
    let n2 (k : Nat) : Option Nat := run.second.getD k none
    let live (n : Nat) (r : Option Nat) : Option Nat := if cvRole s n = 4 || cvRole s n = 2 then none else r.map (fun v => v % 65536)
    let r1 (k : Nat) : Option Nat := live (n1 k) (res k).1
    let r2 (k : Nat) : Option Nat := match n2 k with | some m => live m (res k).2 | none => none
    let out (k : Nat) : ChannelOut := channelOut s (3 * b + k) (n1 k) (n2 k) (r1 k) (r2 k)
    let (o0, o1, o2) := (out 0, out 1, out 2)
    let (aux, auxSat) := auxOf o0.value o1.value
    let bits (f : ChannelOut → Bool) : Nat := b2n (f o0) + 2 * b2n (f o1) + 4 * b2n (f o2)
    let status := b2n auxSat * 2048 + bits (·.stale) * 256 + bits (·.sat) * 16 + bits (·.ho)
    let bytes := toBytes 2 o0.value ++ toBytes 2 o1.value ++ toBytes 2 aux ++ toBytes 2 o2.value
    let x := pwmAxis s b
    let s1 := { s with conv.runs := s.conv.runs.filter (fun r => r.bridge ≠ b) }
    let s2 := samplePort none x bytes run.time status (some (.conv, 0, Conv.DROPS b)) s1
    let s3 := if x < 128 && ctxBound s x then
        [(0, o0.value), (1, o1.value), (2, o2.value)].foldl (fun s p =>
          { s with conv.prev := Tbl.set (fun _ => 0) s.conv.prev (3 * b + p.1) (w32 p.2) }) s2
      else s2
    let s4 := raiseEvent (0x340 + b) s3
    [0, 1, 2].foldl (fun s k => channelCount (3 * b + k) (n1 k) (n2 k) (r1 k) (r2 k) s) s4

/-- The conversions of a bridge's sample end: at t + 38 (R135). -/
def conversionDue (s : State) (b : Nat) : Bool :=
  s.conv.runs.any (fun r => r.bridge = b && reached 64 (2 * coarse s) (r.time + 76).toNat)
/-- The coarse tick t + 38 of a sample ends without a result: no converter has given a valid one (R143). -/
def conversionOver (s : State) (b : Nat) : Bool := conversionDue s b && s.time.selvedge.toNat % 2 = 1

/-! ### Comparators and trip inputs (R150–R154) -/

/-- A window comparator's output follows its input, which has stood at level `v` for the response time (R150): an
event that its thresholds do not give changes nothing. -/
def comparatorSet (i : Nat) (hard out : Bool) (v : Nat) (s : State) : State :=
  if comparatorAt s i hard v ≠ out then s
  else evalAfterEdges (i / 2) (setRaw i hard out { s with conv.level := Tbl.set (fun _ => 0) s.conv.level i v })

/-- The filtered state of a trip input; `LIVE` shows its level (R152, R158). -/
def tripLevel (t : Nat) (active : Bool) (s : State) : State :=
  ({ s with conv.tripAct := Tbl.set (fun _ => false) s.conv.tripAct t active }).setRgBit (ra .cmp Cmp.TRIPSTAT) (8 + t)
    (active == tb (s.rg (ra .cmp (Cmp.TRIPIN t))) 30)
/-- An enabled trip input has become active: its flag and event, whatever the blanking (R152). -/
def tripRaised (t : Nat) (s : State) : State := raiseEvent (0x330 + t) (s.setRgBit (ra .cmp Cmp.TRIPSTAT) t true)

/-- Trip input `t` has been sampled at a level for the last `n` coarse ticks, or with `n` = 0 has it from the next sample
on. -/
def tripSample (t : Nat) (active : Bool) (n : Nat) (s : State) : State :=
  let first := coarse s + 1 - n
  let same := Tbl.get (fun _ => false) s.conv.tripIn t = active
  { s with conv.tripIn := Tbl.set (fun _ => false) s.conv.tripIn t active,
           conv.tripSince := Tbl.set (fun _ => 0) s.conv.tripSince t
             (if same then min (Tbl.get (fun _ => 0) s.conv.tripSince t) first else first) }
/-- The filter of a trip input has seen `FILT` + 1 consecutive samples of a new level (R152). -/
def tripChanges (s : State) (t : Nat) : Bool :=
  let now := Tbl.get (fun _ => false) s.conv.tripIn t
  now != Tbl.get (fun _ => false) s.conv.tripAct t
    && Tbl.get (fun _ => 0) s.conv.tripSince t + fld (s.rg (ra .cmp (Cmp.TRIPIN t))) 7 0 + 1 ≤ coarse s + 1
/-- The filtered state of a trip input follows its samples (R152).  A disabled input keeps its filter and drives nothing
(log entry 13). -/
def tripFilter (t : Nat) (s : State) : State :=
  if !tripChanges s t then s
  else
    let active := Tbl.get (fun _ => false) s.conv.tripIn t
    let s1 := tripLevel t active s
    if active && tb (s.rg (ra .cmp (Cmp.TRIPIN t))) 31 then tripRaised t s1 else s1
/-- A trip input has been sampled active, or inactive, at the last `n` coarse ticks: its filtered state changes after
`FILT` + 1 of them, and the bridges see it (R152). -/
def tripSet (t : Nat) (active : Bool) (n : Nat) (s : State) : State :=
  let s1 := tripSample t active n s
  if tripChanges s1 t then (List.range 12).foldl (fun s b => evalAfterEdges b s) (tripFilter t s1) else s1

/-- A write of a `CMP` register: windows and `HYST` act with the response time (R150), an input enabled while its
filtered state is active raises its flag and event (log entry 13), and a disabled wake comparator is not active
(R155). -/
def cmpWrite (o : Nat) (v : Word) (sec : Bool) (s : State) : Resp × State :=
  let s1 := plainWrite .cmp 0 o v sec s
  if o < 0x180 then (.ok 0, if o % 16 = 0xC then s1 else thresholdWritten (o / 16) s s1)
  else match (List.range 4).find? (fun t => o = Cmp.TRIPIN t), (List.range 4).find? (fun w => o = Cmp.WAKE w) with
    | some t, _ =>
      (.ok 0, if !tb (s.rg (ra .cmp o)) 31 && tripActive s1 t then tripRaised t s1 else s1)
    | none, some w =>
      (.ok 0, if tb (s1.rg (ra .cmp o)) 31 then s1 else s1.setRgBit (ra .cmp Cmp.WAKESTAT) (8 + w) false)
    | none, none => (.ok 0, s1)

/-- The last eight corrected samples of an input's channel lie within 64 codes (R154). -/
def steady (s : State) (i : Nat) : Bool :=
  let h := Tbl.get (fun _ => []) s.conv.hist (3 * (i / 2) + i % 2)
  h.length = 8 && h.foldl max 0 - h.foldl min 65535 ≤ 64

/-- The ticks of one step of a sweep: 200 ns (R154). -/
abbrev sweepTicks : Nat := 160

/-- A threshold sweep starts on a steady channel (R154).  The stand-in has the hard comparator's output when it takes
its thresholds. -/
def sweepStart (i : Nat) (hard : Bool) (s : State) : State :=
  if s.conv.sweep.isSome || !steady s i || (hard && tb (s.rg (ra .cmp (Cmp.STAT i))) 6) then s
  else
    let h := Tbl.get (fun _ => []) s.conv.hist (3 * (i / 2) + i % 2)
    let m := (h.foldl (· + ·) 0 + 64) / 128
    let s1 := { s with conv.sweep := some { input := i, hard := hard, m := m, due := s.time.selvedge + w64 sweepTicks } }
    evalAfterEdges (i / 2) (if hard then setRaw i false (hardRaw s i) (s1.setRgBit (ra .cmp (Cmp.STAT i)) 4 true) else s1)

/-- A crossing step lies within the tolerance of m (R154). -/
def sweepOk (s : State) (at_ : Option Nat) : Bool :=
  match at_ with
  | some k => let tol := fld (s.rg (ra .cmp Cmp.SWEEPTOL)) 3 0; 8 ≤ k + tol && k ≤ 8 + tol
  | none => false

/-- The soft comparator of an input gives up the stand-in and takes its own thresholds again (R154). -/
def standInEnds (i : Nat) (s : State) : State :=
  let s1 := s.setRgBit (ra .cmp (Cmp.STAT i)) 4 false
  setRaw i false (comparatorAt s1 i false (inputLevel s1 i)) s1

/-- The sweep is over: the comparator passes, or its failure is flagged and reported (R154). -/
def sweepJudge (w : Sweep) (s : State) : State :=
  let a := ra .cmp (Cmp.STAT w.input)
  let s1 := { s with conv.sweep := none }
  let ok := sweepOk s w.hiAt && sweepOk s w.loAt
  let s2 := match w.hard, ok with
    | true, true => standInEnds w.input s1
    | true, false => faultRecord 0x06 w.input 1 0 (s1.setRgBit a 6 true)
    | false, true => s1
    | false, false => faultRecord 0x07 w.input 0 0 (s1.setRgBit a 5 true)
  evalAfterEdges (w.input / 2) s2

/-- The present step of a sweep has lasted its 200 ns (R154). -/
def sweepDue (s : State) : Bool :=
  match s.conv.sweep with
  | some w => reached 64 s.time.selvedge.toNat w.due.toNat
  | none => false

/-- One step of a sweep (R154): `crossed` says that the swept comparator's output changed at this step.  `HI`
takes steps 0–16, then `LO` steps 17–33. -/
def sweepStep (crossed : Bool) (s : State) : State :=
  match s.conv.sweep with
  | none => s
  | some w =>
    if !steady s w.input then
      let s1 := { s with conv.sweep := none }
      evalAfterEdges (w.input / 2) (if w.hard then standInEnds w.input s1 else s1)
    else
      let w1 := if w.step < 17 then (if crossed && w.hiAt.isNone then { w with hiAt := some w.step } else w)
        else (if crossed && w.loAt.isNone then { w with loAt := some (w.step - 17) } else w)
      if w.step ≥ 33 then sweepJudge w1 s else { s with conv.sweep := some { w1 with step := w.step + 1, due := w.due + w64 sweepTicks } }

/-! ### Commands -/

/-- `INITIAL_CALIBRATION`: on entry to CONFIGURE, once per reset (R144). -/
def execInitialCalibration (rs : List CalRun) (s : State) : Host.Outcome State Fault Refusal :=
  .next (if 3 ≤ opMode s ∧ !inReset s ∧ !poolReady s then initialCalibration rs s else s)
def execSmpWrite (m : Master) (b : Fin 12) (v : Word) (s : State) : Host.Outcome State Fault Refusal :=
  .next (regAccess m (ra .conv (Conv.SMP b)) (smpWrite b v) s)
/-- `CONVERSION_END`: at t + 38 of a sample of the bridge (log entry 5). -/
def execConversionEnd (b : Fin 12) (rs : List (Option Nat × Option Nat)) (s : State) :
    Host.Outcome State Fault Refusal :=
  .next (if conversionDue s b then conversionEnd b rs s else s)
/-- `ROTATION_STEP`: at a step time (log entry 5). -/
def execRotationStep (s : State) : Host.Outcome State Fault Refusal :=
  .next (if rotationDue s then rotationStep s else s)
/-- `CALIBRATION_END`: of a converter in CAL whose two step intervals have passed (log entry 5). -/
def execCalibrationEnd (n : Fin 28) (r : CalRun) (s : State) : Host.Outcome State Fault Refusal :=
  .next (if cvRole s n = 2 && reached 64 s.time.selvedge.toNat (s.cv n).calDue.toNat then calibrationEnd n r s else s)
/-- `CALAGE_CHECK`: once per millisecond (log entry 5). -/
def execCalageCheck (s : State) : Host.Outcome State Fault Refusal :=
  .next (if calAgeDue s then calAgeCheck s else s)
def execComparatorOut (i : Fin 24) (hard : Bool) (s : State) (v : BitVec 16 := 0) : Host.Outcome State Fault Refusal :=
  .next (comparatorSet i hard true v.toNat s)
def execComparatorIn (i : Fin 24) (hard : Bool) (s : State) (v : BitVec 16 := 0) : Host.Outcome State Fault Refusal :=
  .next (comparatorSet i hard false v.toNat s)
def execTripInputActive (t : Fin 4) (s : State) (n : BitVec 16 := 0) : Host.Outcome State Fault Refusal :=
  .next (tripSet t true n.toNat s)
def execTripInputInactive (t : Fin 4) (s : State) (n : BitVec 16 := 0) : Host.Outcome State Fault Refusal :=
  .next (tripSet t false n.toNat s)
def execComparatorSweep (i : Fin 24) (hard : Bool) (s : State) : Host.Outcome State Fault Refusal :=
  .next (sweepStart i hard s)
/-- `SWEEP_STEP`: when the present step has lasted its time (log entry 5). -/
def execSweepStep (crossed : Bool) (s : State) : Host.Outcome State Fault Refusal :=
  .next (if sweepDue s then sweepStep crossed s else s)

end Sys2Proof.Machine
end

