-- ==== Sys2Proof/Machine/Saddler.lean ====
section
/-! DEFINITION. The Saddler (R229–R255, R263–R266): requirement records, loads and capacity, the choice of a
bank, the commands of `SADL.CMD`, programs, quiet windows, and bank faults. -/

namespace Sys2Proof.Machine

/-! ### Contexts and banks -/

/-- A run of a bank is in progress, preempted or waiting (R83, R87). -/
def bankRuns (s : State) (key : Nat) : Bool :=
  let e := s.el (key / 16)
  let here (r : Option Run) : Bool := match r with | some x => x.bank = key % 16 | none => false
  here e.runA || here e.runB || here e.runC
/-- A run of some bank bound to a context is in progress. -/
def ctxRuns (s : State) (n : Nat) : Bool := (boundBanks s n).any (bankRuns s)

/-- The first word of the bank header (R230). -/
def headerWord (s : State) (n : Nat) : Word :=
  w32 (n % 256 + b2n (reqWorld s n) * 256 + reqClass s n * 512 + b2n (reqPaired s n) * 4096
    + b2n (tb (req3 s n) 31) * 8192 + b2n (n < 128 && axisQuiet s n) * 16384)

/-- The Saddler writes the header of every bank bound to a context, as Twill master 25 (R230). -/
def headerRefresh (n : Nat) (s : State) : State :=
  bankWrite (some midSadl) n 0 (toBytes 4 (headerWord s n).toNat ++ toBytes 4 (reqProg s n)
    ++ toBytes 4 (fld (req1 s n) 15 0) ++ toBytes 4 (reqBudget s n)) s

/-- The latency class of a `CLASS` field: 0 A, 1 B, 2 C (R230). -/
def latClass (cls : Nat) : Nat := if cls = 0 then 0 else if cls = 5 then 2 else 1

/-! ### Islands, loads and capacity (R239, R241) -/

/-- Islands that are neither fenced nor powered down. -/
def islAlive (s : State) (i : Nat) : Bool := islState s i ≠ 4 && islState s i ≠ 5
/-- `SADL.STAT.USABLE`. -/
def usableIslands (s : State) : Nat := ((List.range 8).filter (islAlive s)).length
/-- `POLICY.CAPPCT`; values outside 10–95 act as 70. -/
def capPct (s : State) : Nat :=
  let c := fld (s.rg (ra .sadl Sadl.POLICY)) 22 16
  if 10 ≤ c ∧ c ≤ 95 then c else 70
/-- `POLICY.ACMAX`; 0 acts as 1. -/
def acMax (s : State) : Nat := max 1 (fld (s.rg (ra .sadl Sadl.POLICY)) 11 8)
/-- The present clock of an island in MHz. -/
def islClock (s : State) (i : Nat) : Nat := fld (s.rg (ri .isl i Isl.CLKSET)) 15 0
/-- The capacity of an engine in cycles per second (R241). -/
def engineCap (s : State) (g : Nat) : Nat := min (islClock s (islandOf g)) 800 * 10000 * capPct s
/-- The limit of the device's placed load (R241). -/
def deviceCap (s : State) : Nat := (usableIslands s - 1) * 4 * 800 * 10000 * capPct s

/-- The load of one copy of a context in cycles per second (R239); a slot that nothing serves has no period
and no load (log entry 16). -/
def ctxLoad (s : State) (n : Nat) : Nat :=
  if n ≥ 128 then reqBudget s n * 100 * reqRate s n
  else match bridgeOf s n with
    | some b => reqBudget s n * 400000000 / (carrierLen s b * reqRate s n)
    | none => match linkOf s n with
      | some (l, _) => reqBudget s n * 400000000 / (max 4000 (fld (s.rg (ri .teth l Teth.LP)) 15 0) * reqRate s n)
      | none => 0

/-- The placed load of an engine, without the banks in `skip`: its bound banks, and those promised to migrations. -/
def engineLoad (s : State) (g : Nat) (skip : List Nat) : Nat :=
  ((s.axis.banks.filter (fun e => e.1 / 16 = g && !skip.contains e.1)).map
    (fun e => match e.2.ctx with | some n => ctxLoad s n | none => 0)).foldl (· + ·) 0
  + (s.axis.ctxs.map (fun e => match e.2.mig with
    | some m => if m.dst / 16 = g && m.step < 2 then ctxLoad s e.1 else 0
    | none => 0)).foldl (· + ·) 0
/-- The placed load of the device: a paired context counts twice, a context that migrates once (R239, R241). -/
def deviceLoad (s : State) : Nat :=
  (s.axis.ctxs.map (fun e =>
    if e.2.placed then (if e.2.second.isSome then 2 else 1) * ctxLoad s e.1 else 0)).foldl (· + ·) 0

/-- The reserve of R31 is held or lost, whatever has changed the load or the capacity (R241): `STAT.RESERVE`, the notice
and the journal follow. -/
def reserveCheck (s : State) : State :=
  let held := deviceLoad s ≤ deviceCap s
  let was := tb (s.rg (ra .sadl Sadl.STAT)) 31
  if held = was then s
  else
    let s1 := s.setRgBit (ra .sadl Sadl.STAT) 31 held
    if held then journal 0x73 0 (usableIslands s) 0 0 0 s1
    else journal 0x72 0 (usableIslands s) 0 0 0 (sadlNotice 1 s1)

/-! ### The choice of a bank (R240–R242) -/

/-- The pinned bank of a context's first or second copy (`REQ3`). -/
def pinOf (s : State) (n : Nat) (second : Bool) : Option Nat :=
  let w := req3 s n
  if !tb w 31 then none
  else some (if second then fld w 12 8 * 16 + fld w 3 0 else fld w 28 24 * 16 + fld w 19 16)

/-- Banks promised to a migration. -/
def promised (s : State) (key : Nat) : Bool :=
  s.axis.ctxs.any (fun e => match e.2.mig with | some m => m.dst = key | none => false)
/-- A bank is free. -/
def bankFree (s : State) (key : Nat) : Bool := (s.bank key).ctx.isNone && !promised s key

/-- The ledger keeps class A off an island (`AGE_u.PLAN.AOFF`, R451). -/
def classAOff (s : State) (i : Nat) : Bool := tb (s.rg (ra .age (Age.U_PLAN i))) 5

/-- The class-A contexts of an engine have the period of context `n` (R242): what is asked of a bridge that takes no
samples yet and whose instant its enable will place (R137). -/
def periodsEqual (s : State) (n g : Nat) : Bool :=
  (classAOn s g n).all (fun m => match axisInstant s n none, axisInstant s m none with
    | some (l1, _), some (l2, _) => l1 = l2
    | _, _ => true)

/-- How a class-A context meets R242 on an engine: as things stand (`some none`), with a new phase of its bridge
or sample offset of its link (`some (some p)`, searched from `start` on), or not at all. -/
def acPhase (s : State) (n g start : Nat) : Option (Option Nat) :=
  if reqClass s n ≠ 0 then some none
  else if (classAOn s g n).length + 1 > acMax s then none
  else match bridgeOf s n with
    | some b =>
      if (if smpActive s b then r242Holds s n g none else periodsEqual s n g) then some none
      else if !smpActive s b then none
      else if brPinned s b then none
      else (searchPhase (fun p => phaseFits s b p true && r242Holds s n g (some (b, p)))
              (carrierLen s b) (carrierLen s b) (start % carrierLen s b)).map some
    | none => match linkOf s n with
      | some (l, a) =>
        if r242Holds s n g none then some none
        else
          let lp := max 4000 (fld (s.rg (ri .teth l Teth.LP)) 15 0)
          let tryOff (p : Nat) : Bool := r242Holds (s.setRg (ri .teth l (Teth.AX_SOFF a)) (w32 p)) n g none
          (searchPhase tryOff lp lp (start % lp)).map some
      | none => some none

/-- The affinity hints hold for a bank (`REQ2`); a hint on an unplaced context counts as met (log entry 16). -/
def hintsHold (s : State) (n key : Nat) : Bool :=
  let w := req2 s n
  let mask := fld w 7 0
  let islOk := mask = 0 || mask.testBit (key / 64)
  let other := (boundBanks s (fld w 23 16)).head?
  islOk && match other with
    | none => true
    | some k => match fld w 31 30 with
      | 1 => k / 64 = key / 64
      | 2 => k / 64 ≠ key / 64
      | 3 => k / 16 = key / 16
      | _ => true

/-- The conditions on a bank in their order, each with the refusal code when no bank is left (R240); nothing is
placed on a halted engine (R478).  `moving` is the load of copies that the device carries already: a migration leaves the
reserve as it is (R241). -/
def bankConds (s : State) (n : Nat) (pin : Option Nat) (skip : List Nat) (otherThan : Option Nat)
    (moving : Bool) (start : Nat) : List (Nat × (Nat → Bool)) :=
  let a := reqClass s n = 0
  [ (3, fun k => pin.isNone || pin = some k),
    (3, fun k => bankFree s k),
    (1, fun k => islState s (k / 64) = 0 && !(s.el (k / 16)).halted),
    (1, fun k => !(a && (tb (s.rg (ra .sadl Sadl.SUSPECT)) (k / 16) || classAOff s (k / 64)))),
    (1, fun k => engineLoad s (k / 16) skip + ctxLoad s n ≤ engineCap s (k / 16)),
    (2, fun _ => moving || deviceLoad s + (if reqPaired s n then 2 else 1) * ctxLoad s n ≤ deviceCap s),
    (7, fun k => (acPhase s n (k / 16) start).isSome),
    (1, fun k => otherThan ≠ some (k / 64)) ]

/-- Filters the banks condition by condition; the first condition that leaves none gives the code. -/
def filterBanks : List (Nat × (Nat → Bool)) → List Nat → Except Nat (List Nat)
  | [], ks => .ok ks
  | (c, p) :: t, ks =>
    let ks' := ks.filter p
    if ks'.isEmpty then .error c else filterBanks t ks'

/-- The Saddler's order among the banks that meet the conditions (R240): hints, least load, then the lowest
island, engine and bank. -/
def bestBank (s : State) (n : Nat) (skip : List Nat) (ks : List Nat) : Option Nat :=
  let rank (k : Nat) : Nat × Nat × Nat := (b2n (!hintsHold s n k), engineLoad s (k / 16) skip, k)
  let less (x y : Nat × Nat × Nat) : Bool :=
    x.1 < y.1 || (x.1 = y.1 && (x.2.1 < y.2.1 || (x.2.1 = y.2.1 && x.2.2 < y.2.2)))
  ks.foldl (fun b k => match b with
    | none => some k
    | some j => if less (rank k) (rank j) then some k else some j) none

/-- The bank that the Saddler chooses for a copy of a context, or the refusal code.  No free bank at all counts
as no capacity unless a pin asks for it. -/
def chooseBank (s : State) (n : Nat) (pin : Option Nat) (skip : List Nat) (otherThan : Option Nat)
    (moving : Bool) (start : Nat) (allowed : Nat → Bool) : Except Nat Nat :=
  match filterBanks (bankConds s n pin skip otherThan moving start) ((List.range 512).filter allowed) with
  | .error c => .error (if c = 3 && pin.isNone then 1 else c)
  | .ok ks => match bestBank s n skip ks with | some k => .ok k | none => .error 1

/-- The phase or sample offset that R242 asks for on the chosen engine is set (R242). -/
def setAcPhase (n g start agent : Nat) (s : State) : State :=
  match acPhase s n g start with
  | some (some p) =>
    (match bridgeOf s n with
     | some b => saddlerPhase b p agent s
     | none => match linkOf s n with
       | some (l, a) => s.setRg (ri .teth l (Teth.AX_SOFF a)) (w32 p)
       | none => s)
  | _ => s

/-! ### Binding and release (R230, R231) -/

/-- A bank is bound to a context by its island steward (R230). -/
def bindBank (key n : Nat) (second : Bool) (s : State) : State :=
  s.setBank key { ctx := some n, second := second, cls := reqClass s n, world := reqWorld s n,
                  paired := reqPaired s n, mask := 0x7F }

/-- The Saddler reads what a bank takes of the context's image (R231). -/
def imageOf (n : Nat) (s : State) : Option (List Byte) × State :=
  agentRead midSadl true ((s.rg (ra .sadl (Sadl.CTX_IMG n))).toNat * 4096 + 0x80) 0xF80 s

/-- A bank is filled at `PLACE`, behind its header (R231). -/
def fillBank (key : Nat) (img : List Byte) (s : State) : State :=
  (agentWrite midSadl true (bankAddr key + 0x10) (List.replicate 0x70 (0 : Byte) ++ img) s).2

/-- The context of a bank has one faulted bank less (R264). -/
def dropFault (key : Nat) (s : State) : State :=
  match (s.bank key).ctx with
  | some n => s.setCtx n { s.ctx n with faults := (s.ctx n).faults.filter (fun k => k ≠ key) }
  | none => s

/-- A bank is unbound; its latched events and fault are gone. -/
def unbindBank (key : Nat) (s : State) : State := (dropFault key s).setBank key {}

/-- The context leaves all its banks (`RELEASE`), a migration's destination among them: held setpoints are discarded
(R85). -/
def releaseCtx (n agent : Nat) (s : State) : State :=
  let ks := boundBanks s n
  let s1 := ks.foldl (fun s k => unbindBank k s) s
  reserveCheck (journal 0x03 n 0 agent (locWord (ks.headD 0)) 0 (s1.setCtx n {}))

/-! ### Commands of `SADL.CMD` (R240, R264) -/

/-- A command completes with a code. -/
def cmdDone (code : Nat) (s : State) : State := s.setRg (ra .sadl Sadl.CMDSTAT) (w32 (2 ^ 30 + code))

/-- Why the record of a `PLACE` is refused before any bank is looked at (R233, R239, R240, R264, R396); the
order among several grounds is the manual's for the first three and the model's for the rest (log entry 16). -/
def placeRecord (s : State) (n : Nat) (sec : Bool) : Option Nat :=
  let c := reqClass s n
  if !(if n < 128 then c = 0 || c = 1 else c = 4 || c = 5) then some 4
  else match s.prog (reqProg s n) with
    | none => some 8
    | some p =>
      if p.world ≠ reqWorld s n then some 5
      else if reqWorld s n && !sec then some 5
      else if (s.ctx n).placed then some 6
      else if reqBudget s n = 0 then some 4
      else none

/-- A placement is refused (R240, R255). -/
def placeRefused (n code : Nat) (s : State) : State :=
  cmdDone code (sadlNotice 0 (journal 0x02 n code 1 0 0 s))

/-- A copy is put into its bank. -/
def placeCopy (key n start : Nat) (second : Bool) (img : List Byte) (s : State) : State :=
  fillBank key img (bindBank key n second (setAcPhase n (key / 16) start 1 s))

/-- `PLACE` (R231, R240, R252).  DESIGN CHOICE (log entry 69): where the Saddler cannot read the image, nothing is placed
and the code is 4. -/
def place (n : Nat) (sec : Bool) (s : State) : State :=
  match placeRecord s n sec with
  | some c => placeRefused n c s
  | none =>
    let (x, s0) := s.draw
    match chooseBank s0 n (pinOf s n false) [] none false x (fun _ => true) with
    | .error c => placeRefused n c s0
    | .ok k1 =>
      match imageOf n s0 with
      | (none, s1) => placeRefused n 4 s1
      | (some img, s1) =>
        let broken := !hintsHold s0 n k1
        let s2 := placeCopy k1 n x false img s1
        let fin (s3 : State) (second : Option Nat) (bad : Bool) : State :=
          cmdDone 0 (reserveCheck (journal 0x01 n (b2n bad) 1 0 (locWord k1)
            (headerRefresh n (s3.setCtx n { placed := true, first := k1, second := second }))))
        if reqPaired s n then
          (match chooseBank s2 n (pinOf s n true) [] (some (k1 / 64)) true x (fun _ => true) with
           | .error c => placeRefused n c s1
           | .ok k2 => fin (placeCopy k2 n x true img s2) (some k2) (broken || !hintsHold s2 n k2))
        else fin s2 none broken

/-- `RELEASE` (R264): it ends when no run of the context is in progress; a migration of the context ends with it. -/
def release (n : Nat) (sec : Bool) (s : State) : State :=
  let x := s.ctx n
  if !x.placed then cmdDone 6 s
  else if reqWorld s n && !sec then cmdDone 5 s
  else if ctxRuns s n then
    (s.setRg (ra .sadl Sadl.CMDSTAT) (w32 (2 ^ 31))).setCtx n { x with releasing := true }
  else cmdDone 0 (releaseCtx n 1 s)

/-- A `RELEASE` that waited goes on when the last run has ended. -/
def releaseCheck (n : Nat) (s : State) : State :=
  if (s.ctx n).releasing && !ctxRuns s n then cmdDone 0 (releaseCtx n 1 s) else s

/-- The fault state of a bank ends (R238). -/
def clearBankFault (key : Nat) (s : State) : State :=
  let b := s.bank key
  if b.fault.isNone then s
  else
    let s1 := s.setBank key { b with fault := none, latched := [], overrun := false, mask := 0x7F }
    match b.ctx with
    | some n => s1.setCtx n { s1.ctx n with faults := (s1.ctx n).faults.filter (fun k => k ≠ key) }
    | none => s1

/-- `CLRFAULT` (R238): every faulted bank of the context. -/
def clrFault (n : Nat) (sec : Bool) (s : State) : State :=
  if (s.ctx n).faults.isEmpty then cmdDone 6 s
  else if reqWorld s n && !sec then cmdDone 5 s
  else cmdDone 0 ((boundBanks s n).foldl (fun s k => clearBankFault k s) s)

/-- Two byte ranges overlap. -/
def overlaps (a n b m : Nat) : Bool := a < b + m && b < a + n

/-- The Saddler reads a program's source (R233); one of no length has nothing to read. -/
def codeOf (p : Prog) (s : State) : Option (List Byte) × State :=
  if p.len = 0 then (some [], s) else agentRead midSadl true p.src p.len s

/-- The Saddler writes a program-table entry (R233). -/
def entryWrite (i idx : Nat) (entry attr : Word) (s : State) : State :=
  (agentWrite midSadl true (progEntry i idx) (toBytes 4 entry.toNat ++ toBytes 4 attr.toNat) s).2

/-- The program table entries and the code of one program in one island memory (R233). -/
def installIn (i idx : Nat) (p : Prog) (code : List Byte) (s : State) : State :=
  let s1 := if code.isEmpty then s else (agentWrite midSadl true (islMem i + p.dst) code s).2
  entryWrite i idx p.entry (w32 (2 ^ 31 + b2n p.world * 2 + b2n p.priv)) s1

/-- The islands whose memory the Saddler reaches. -/
def openIslands (s : State) : List Nat := (List.range 8).filter (fun i => islState s i ≤ 2)

/-- `INSTALL` (R233).  DESIGN CHOICE (log entry 69): a source that the Saddler cannot read gives code 8. -/
def install (sec : Bool) (s : State) : State :=
  let at_ := s.rg (ra .sadl Sadl.PGM_ATTR)
  let idx := fld at_ 7 0
  let p : Prog := { src := (s.rg (ra .sadl Sadl.PGM_SRC)).toNat * 256, len := fld (s.rg (ra .sadl Sadl.PGM_LEN)) 17 0,
                    dst := fld (s.rg (ra .sadl Sadl.PGM_DST)) 17 0, entry := s.rg (ra .sadl Sadl.PGM_ENTRY),
                    world := tb at_ 31, priv := tb at_ 30 }
  let clash := s.axis.progs.any (fun e => e.1 ≠ idx && match e.2 with
    | some q => overlaps p.dst p.len q.dst q.len
    | none => false)
  if p.dst % 256 ≠ 0 || p.len % 4 ≠ 0 || p.dst + p.len > 0x3F800 || clash then cmdDone 8 s
  else if (p.world || p.priv) && !sec then cmdDone 5 s
  else match codeOf p s with
    | (none, s1) => cmdDone 8 s1
    | (some code, s1) =>
      cmdDone 0 (((openIslands s).foldl (fun s i => installIn i idx p code s) s1).setProg idx (some p))

/-- `UNINSTALL` (R233): refused while a placed context names the program; its entries lose `VALID`. -/
def uninstall (idx : Nat) (sec : Bool) (s : State) : State :=
  match s.prog idx with
  | none => cmdDone 8 s
  | some p =>
    if s.axis.ctxs.any (fun e => e.2.placed && reqProg s e.1 = idx) then cmdDone 8 s
    else if (p.world || p.priv) && !sec then cmdDone 5 s
    else
      cmdDone 0 (((openIslands s).foldl (fun s i => entryWrite i idx 0 0 s) s).setProg idx none)

/-- A write of `SADL.CMD` (R264): an error response while a command is in progress. -/
def sadlCmd (m : Master) (v : Word) (s : State) : Resp × State :=
  let n := fld v 7 0
  if tb (s.rg (ra .sadl Sadl.CMDSTAT)) 31 then (.err, s)
  else match fld v 31 28 with
    | 1 => (.ok 0, place n m.sec s)
    | 2 => (.ok 0, release n m.sec s)
    | 3 => (.ok 0, clrFault n m.sec s)
    | 4 => (.ok 0, install m.sec s)
    | 5 => (.ok 0, uninstall n m.sec s)
    | _ => (.ok 0, cmdDone 4 s)

/-- A write of `ISL_i.CLRFLT` (R265). -/
def islClrFlt (m : Master) (i : Nat) (v : Word) (s : State) : Resp × State :=
  let key := (4 * i + fld v 5 4) * 16 + fld v 3 0
  if (s.bank key).world && !m.sec then (.ok 0, s) else (.ok 0, clearBankFault key s)

/-- The translation profile is loaded into an island's engines at its release (R235). -/
def loadProfile (i : Nat) (s : State) : State :=
  let word (g : Nat) (k : Nat) : Word :=
    let n := k / 4
    let v := s.rg (ra .sadl (0x100 + 0x20 * n + 4 * (k % 4)))
    if k % 4 ≠ 2 then v
    else match fld (s.rg (ra .sadl (Sadl.XP_REL n))) 1 0 with
      | 1 => w32 ((v.toNat + islMem i / 4096) % 2 ^ 28)
      | 2 => w32 ((v.toNat + bankAddr (g * 16) / 4096) % 2 ^ 28)
      | _ => v
  (List.range 4).foldl (fun s e =>
    let g := 4 * i + e
    s.setEl g { s.el g with xblk := (List.range 32).foldl (fun t k => Tbl.set (fun _ => 0) t k (word g k)) (s.el g).xblk }) s

/-! ### Bank faults (R238) -/

/-- A bank enters the fault state with a cause and the two words of its record. -/
def bankFault (key cause : Nat) (w1 w2 : Word) (s : State) : State :=
  match (s.bank key).ctx with
  | none => s
  | some n =>
    let (t, s1) := timePort (islandOf (key / 16)) s
    let s2 := store (bankAddr key + 0x80) (toBytes 4 cause ++ toBytes 4 w1.toNat ++ toBytes 4 w2.toNat ++ toBytes 4 t.toNat) s1
    let s3 := s2.setBank key { s2.bank key with fault := some cause, latched := [], overrun := false, spArmed := (s2.bank key).spArmed }
    let s4 := s3.setCtx n { s3.ctx n with faults := (s3.ctx n).faults ++ [key] }
    let s5 := if n < 128 then axisSafe n (if cause = 1 then 6 else 7) s4 else s4
    let s6 := journal 0x70 n cause 0 (locWord key) 0 (sadlNotice 5 (bump .isl (key / 64) Isl.FLT_CNT s5))
    faultRecord 0x0A n 2 cause s6

/-! ### Quiet windows (R30, R245) -/

/-- The quiet window of an axis ends, and the gap of 20 ms begins (R30, R245). -/
def quietOver (a : Nat) (s : State) : State :=
  journal 0x51 a 0 1 0 0 (headerRefresh a
    (s.setAx a { s.ax a with quietEnd := none, gapEnd := some (s.time.selvedge + w64 16000000) }))

/-- A write of `AX_a.AXQ`. -/
def quietWrite (a : Nat) (v : Word) (s : State) : Resp × State :=
  let ms := min 2000 (fld v 10 0)
  let x := s.ax a
  let now := s.time.selvedge
  let stop := now + w64 (ms * 800000)
  match x.quietEnd with
  | some e =>
    if ms = 0 then (.ok 0, quietOver a s)
    else (.ok 0, s.setAx a { x with quietEnd := some (if newer 64 stop.toNat e.toNat then e else stop) })
  | none =>
    if ms = 0 then (.ok 0, s)
    else if x.gapEnd.isSome then
      (.ok 0, journal 0x52 a 0 1 0 0 (sadlNotice 7 (axst a 5 s)))
    else (.ok 0, journal 0x50 a 0 1 0 0 (headerRefresh a (s.setAx a { x with quietEnd := some stop })))

/-- The quiet window or the gap after it ends when its time has come (R30). -/
def quietEnd (a : Nat) (s : State) : State :=
  let x := s.ax a
  let now := s.time.selvedge
  match x.quietEnd with
  | some e =>
    if reached 64 now.toNat e.toNat then quietOver a s else s
  | none => match x.gapEnd with
    | some g => if reached 64 now.toNat g.toNat then s.setAx a { x with gapEnd := none } else s
    | none => s

/-! ### Writes of the `SADL` block -/

/-- A write of any `SADL` register but `REQ3` (R239, R243, R254, R264). -/
def sadlWrite (m : Master) (o : Nat) (v : Word) (s : State) : Resp × State :=
  let a := ra .sadl o
  let plain := plainWrite .sadl 0 o v m.sec s
  if o = Sadl.CMD then sadlCmd m v s
  else if 0x4000 ≤ o ∧ o < 0x8000 ∧ o % 0x80 = 0x14 then quietWrite ((o - 0x4000) / 0x80) v s
  else if o = Sadl.JBASE then (.ok 0, if tb (s.rg (ra .sadl Sadl.JCFG)) 31 then s else plain)
  else if o = Sadl.JCFG then
    (.ok 0, if tb (s.rg a) 31 then plain.setRgFld a 4 0 (fld (s.rg a) 4 0) else plain)
  else if 0x1000 ≤ o ∧ o < 0x3000 then
    (let n := (o - 0x1000) / 0x20
     let r := o % 0x20
     if (r = 0 || r = 4 || r = 0x10) && (s.ctx n).placed then (.ok 0, s) else (.ok 0, plain))
  else (.ok 0, plain)

/-! ### Live registers -/

/-- The registers of `SADL` that show the Saddler's records. -/
def sadlLive (s : State) (o : Nat) : Option Word :=
  if o = Sadl.STAT then
    let placed := (s.axis.ctxs.filter (fun e => e.2.placed)).length
    let pct := if deviceCap s = 0 then 0 else deviceLoad s * 100 / deviceCap s
    some (setBit (setFld (setFld (setFld (s.rg (ra .sadl o)) 27 24 (usableIslands s)) 16 8 placed) 6 0 pct) 31 (deviceLoad s ≤ deviceCap s))
  else if 0x1000 ≤ o ∧ o < 0x3000 ∧ o % 0x20 = 0x14 then
    let x := s.ctx ((o - 0x1000) / 0x20)
    if !x.placed then some 0
    else
      let st := if !x.faults.isEmpty then 3 else if x.mig.isSome then 2 else 1
      let k2 := match x.mig with | some m => m.dst | none => x.second.getD 0
      let fc := match x.faults with | k :: _ => ((s.bank k).fault.getD 0) | [] => 0
      some (w32 (st * 2 ^ 29 + (x.first / 16) * 2 ^ 24 + (x.first % 16) * 2 ^ 16 + (k2 / 16) * 256 + fc * 32 + k2 % 16))
  else if 0x4000 ≤ o ∧ o < 0x8000 then
    let a := (o - 0x4000) / 0x80
    if o % 0x80 = 0 then
      some (setBit (setBit (s.rg (ra .sadl o)) 17 (ctxBound s a)) 16 (axisQuiet s a))
    else if o % 0x80 = 0x14 then
      match (s.ax a).quietEnd with
      | some e => some (w32 (2 ^ 31 + min 2000 ((e - s.time.selvedge).toNat / 800000)))
      | none => some 0
    else none
  else none

/-- The engine's set of the class that runs now. -/
def curRun (e : ElemState) : Option Run := match e.cur with | 0 => e.runA | 1 => e.runB | _ => e.runC

/-- The registers of `ISL_i` that show its engines and bindings (R265). -/
def islLive (s : State) (i o : Nat) : Option Word :=
  if 0x10 ≤ o ∧ o < 0x20 then
    let g := 4 * i + (o - 0x10) / 4
    let w := s.rg (ri .isl i o)
    let e := s.el g
    match curRun e with
    | some r => some (setFld (setFld (setBit w 31 false) 29 28 e.cur) 19 16 r.bank)
    | none => some (setBit w 31 (e.runA.isNone && e.runB.isNone && e.runC.isNone))
  else if 0x100 ≤ o ∧ o < 0x200 then
    let key := (4 * i + (o - 0x100) / 0x40) * 16 + (o % 0x40) / 4
    let b := s.bank key
    match b.ctx with
    | some n => some (w32 (2 ^ 31 + b2n b.second * 2 ^ 30 + b2n b.fault.isSome * 2 ^ 29 + n))
    | none => some 0
  else none

/-- `REIN.BANK_e_k` (R266). -/
def reinLive (s : State) (m : Master) (o : Nat) : Option Word :=
  if o < 0x800 then
    let key := (o / 0x40) * 16 + (o % 0x40) / 4
    let b := s.bank key
    let st := islState s (key / 64)
    if st = 3 || st = 4 || st = 5 || (b.world && !m.sec) then some 0
    else
      let latch := b.latched.foldl (fun n e => n ||| 2 ^ e.1) (b2n b.overrun * 128)
      let ready := b.latched.any (fun e => b.mask.testBit e.1)
      some (w32 (b2n ready * 2 ^ 31 + b2n (bankRuns s key) * 2 ^ 30 + (b.mask % 128) * 2 ^ 16 + latch))
  else if 0x1000 ≤ o ∧ o < 0x1100 then
    (let st := islState s (islandOf ((o - 0x1000) / 8))
     if st = 3 || st = 4 || st = 5 then some 0 else none)
  else none

/-! ### Commands -/

def execPlace (m : Master) (n : Fin 256) (s : State) : Host.Outcome State Fault Refusal :=
  .next (regAccess m (ra .sadl Sadl.CMD) (sadlCmd m (w32 (2 ^ 28 + n))) s)
def execRelease (m : Master) (n : Fin 256) (s : State) : Host.Outcome State Fault Refusal :=
  .next (regAccess m (ra .sadl Sadl.CMD) (sadlCmd m (w32 (2 * 2 ^ 28 + n))) s)
def execClrfault (m : Master) (n : Fin 256) (s : State) : Host.Outcome State Fault Refusal :=
  .next (regAccess m (ra .sadl Sadl.CMD) (sadlCmd m (w32 (3 * 2 ^ 28 + n))) s)
def execInstall (m : Master) (s : State) : Host.Outcome State Fault Refusal :=
  .next (regAccess m (ra .sadl Sadl.CMD) (sadlCmd m (w32 (4 * 2 ^ 28))) s)
def execUninstall (m : Master) (n : Fin 256) (s : State) : Host.Outcome State Fault Refusal :=
  .next (regAccess m (ra .sadl Sadl.CMD) (sadlCmd m (w32 (5 * 2 ^ 28 + n))) s)
def execIslClrflt (m : Master) (i : Fin 8) (v : Word) (s : State) : Host.Outcome State Fault Refusal :=
  .next (regAccess m (ri .isl i Isl.CLRFLT) (islClrFlt m i v) s)
def execQuietRequest (m : Master) (a : Fin 128) (v : Word) (s : State) : Host.Outcome State Fault Refusal :=
  .next (regAccess m (ra .sadl (Sadl.AX_AXQ a)) (quietWrite a v) s)
def execQuietEnd (a : Fin 128) (s : State) : Host.Outcome State Fault Refusal := .next (quietEnd a s)

end Sys2Proof.Machine
end

