-- ==== Sys2Proof/Machine/Time.lean ====
section
/-! DEFINITION. Selvedge time, compare slots, timers, the router's commands and the slow clock (R102–R125). -/

namespace Sys2Proof.Machine

/-! ### Compare slots (R113, R114) -/

/-- A secure slot ignores non-secure writes (`SLOT_n_CTRL.WORLD`). -/
def slotDenied (s : State) (m : Master) (n : Nat) : Bool := !m.sec && tb (s.rg (ra .tb (Tb.SLOT_CTRL n))) 30

/-- A write of `SLOT_n_LO` stages the low word (R113). -/
def slotLoWrite (m : Master) (n : Nat) (v : Word) (s : State) : Resp × State :=
  if slotDenied s m n then (.ok 0, s) else (.ok 0, s.setSlot n { s.slot n with staged := v })

/-- A write of `SLOT_n_HI` sets the 64-bit value and `ARM`, from the next tick (R113, R114). -/
def slotHiWrite (m : Master) (n : Nat) (v : Word) (s : State) : Resp × State :=
  if slotDenied s m n then (.ok 0, s)
  else (.ok 0, s.setSlot n { s.slot n with pendValue := some (v ++ (s.slot n).staged), pendArm := some true })

/-- A write of `SLOT_n_PER` takes effect at the next tick (R114). -/
def slotPerWrite (m : Master) (n : Nat) (v : Word) (s : State) : Resp × State :=
  if slotDenied s m n then (.ok 0, s) else (.ok 0, s.setSlot n { s.slot n with pendPer := some v })

/-- The slot is armed in the present tick, and no write of 0 to `ARM` has come in it; a one-shot that fires in
the tick is armed in it. -/
def slotArmed (s : State) (n : Nat) : Bool :=
  let t := s.slot n
  (t.arm || t.firedAt = some s.time.selvedge) && t.pendArm ≠ some false

/-- A write of `SLOT_n_CTRL`: `WORLD`, `SLIP` and `FIRED` by their types at once, `ARM` from the next tick; a 1
written to `ARM` while the slot is armed changes nothing (R114). -/
def slotCtrlWrite (m : Master) (n : Nat) (v : Word) (s : State) : Resp × State :=
  if slotDenied s m n then (.ok 0, s)
  else
    let s1 := (plainWrite .tb 0 (Tb.SLOT_CTRL n) v m.sec s).setRgBit (ra .tb (Tb.SLOT_CTRL n)) 31 false
    if tb v 31 && slotArmed s n then (.ok 0, s1)
    else (.ok 0, s1.setSlot n { s.slot n with pendArm := some (tb v 31) })

/-- The slot is armed, its compare holds, and it has not fired in this tick (R111, R113). -/
def slotDue (s : State) (n : Nat) : Bool :=
  let t := s.slot n
  s.time.run && t.arm && reached 64 s.time.selvedge.toNat t.value.toNat && t.firedAt ≠ some s.time.selvedge

/-- The feedback units, encoder ports and Girth ports that take a slot's firing directly (R198, R310). -/
def triggerSlot (n : Nat) (s : State) : State :=
  let hit (t : Word) : Bool := fld t 31 30 = 2 && fld t 7 0 = n
  let s1 := (List.range 12).foldl (fun s f =>
    if fbTakes s f && hit (s.rg (ri .fb f Fb.TRIG)) then s.setFb f { s.fb f with capDue := true } else s) s
  let s2 := (List.range 8).foldl (fun s p =>
    if sencTakes s p && hit (s.rg (ri .senc p 4)) then s.setSenc p { s.senc p with capDue := true } else s) s1
  (List.range 4).foldl (fun s g =>
    let c := s.rg (ri .girth g Girth.CFG)
    if tb c 31 && fld c 23 16 = n then s.setGirth g { s.girth g with startDue := true } else s) s2

/-- A compare slot fires (R113). -/
def slotFire (n : Nat) (s : State) : State :=
  let t := s.slot n
  let a := ra .tb (Tb.SLOT_CTRL n)
  let s1 := (triggerSlot n (raiseEvent n s)).setRgBit a 0 true
  let s2 := if s.time.selvedge ≠ t.value then s1.setRgBit a 1 true else s1
  if t.per = 0 then s2.setSlot n { t with arm := false, firedAt := some s.time.selvedge }
  else s2.setSlot n { t with value := t.value + t.per.zeroExtend 64, firedAt := some s.time.selvedge }

/-- What the slot's registers hold from the next tick on (R114). -/
def slotNextTick (t : Slot) : Slot :=
  { t with value := t.pendValue.getD t.value, per := t.pendPer.getD t.per, arm := t.pendArm.getD t.arm,
           pendValue := none, pendPer := none, pendArm := none }

def execSlotLoWrite (m : Master) (n : Fin 256) (v : Word) (s : State) : Host.Outcome State Fault Refusal :=
  .next (regAccess m (ra .tb (Tb.SLOT_LO n)) (slotLoWrite m n v) s)
def execSlotHiWrite (m : Master) (n : Fin 256) (v : Word) (s : State) : Host.Outcome State Fault Refusal :=
  .next (regAccess m (ra .tb (Tb.SLOT_HI n)) (slotHiWrite m n v) s)
def execSlotPerWrite (m : Master) (n : Fin 256) (v : Word) (s : State) : Host.Outcome State Fault Refusal :=
  .next (regAccess m (ra .tb (Tb.SLOT_PER n)) (slotPerWrite m n v) s)
def execSlotCtrlWrite (m : Master) (n : Fin 256) (v : Word) (s : State) : Host.Outcome State Fault Refusal :=
  .next (regAccess m (ra .tb (Tb.SLOT_CTRL n)) (slotCtrlWrite m n v) s)
/-- `SLOT_FIRE`: a slot that is not due does not fire (log entry 5). -/
def execSlotFire (n : Fin 256) (s : State) : Host.Outcome State Fault Refusal :=
  .next (if slotDue s n then slotFire n s else s)

/-! ### Timers (R115–R118) -/

/-- A write of `TIM_n.CTRL`; a change of `EN` from 0 to 1 starts the timer (R115). -/
def timerCtrlWrite (n : Nat) (v : Word) (sec : Bool) (s : State) : Resp × State :=
  let a := ra .tim (Tim.CTRL n)
  let was := tb (s.rg a) 0
  let s1 := plainWrite .tim 0 (Tim.CTRL n) v sec s
  if !was && tb v 0 then (.ok 0, timerStart n (s1.setRgBit a 0 false)) else (.ok 0, s1)

/-- A write of `TIM_n.CC_k` sets the value and arms the channel, from the next tick (R112, R117). -/
def timerCcWrite (n k : Nat) (v : Word) (s : State) : Resp × State :=
  let s1 := s.setRg (ra .tim (Tim.CC n k)) v
  (.ok 0, s1.setTimer n { s1.timer n with written := (s1.timer n).written ||| BitVec.ofNat 4 (1 <<< k) })

/-- The zero tick of a timer (R116). -/
def timerZero (n : Nat) (s : State) : State :=
  let s1 := (raiseEvent (0x200 + n) s).setRgBit (ra .tim (Tim.STAT n)) 8 true
  let oneshot := tb (s.rg (ra .tim (Tim.CTRL n))) 2
  let s2 := if oneshot then s1.setRgBit (ra .tim (Tim.CTRL n)) 0 false else s1
  s2.setTimer n { s2.timer n with zeroDue := false, reloadDue := !oneshot }

/-- The compare value in effect for channel `k`. -/
def timerCc (t : Timer) (k : Nat) : Word :=
  match k with | 0 => t.cc0 | 1 => t.cc1 | 2 => t.cc2 | _ => t.cc3

/-- Channel `k` is armed and its compare holds at the tick that has come (R111, R117).  A value above the reload
value does not fire in the period, but a reload value of 2^31 or more leaves it to the compare. -/
def channelDue (s : State) (n k : Nat) : Bool :=
  let t := s.timer n
  t.ticked && t.armed.getLsbD k && (2 ^ 31 ≤ t.reload.toNat || (timerCc t k).toNat ≤ t.reload.toNat) &&
    reached 32 (timerElapsed t).toNat (timerCc t k).toNat

/-- Channel `k` fires (R117). -/
def channelFire (n k : Nat) (s : State) : State :=
  let s1 := (raiseEvent (0x100 + 4 * n + k) s).setRgBit (ra .tim (Tim.STAT n)) k true
  s1.setTimer n { s1.timer n with armed := (s1.timer n).armed &&& ~~~ (BitVec.ofNat 4 (1 <<< k)) }

def execTimerEnable (m : Master) (n : Fin 64) (v : Word) (s : State) : Host.Outcome State Fault Refusal :=
  .next (regAccess m (ra .tim (Tim.CTRL n)) (timerCtrlWrite n v m.sec) s)
def execTimerCcWrite (m : Master) (n : Fin 64) (k : Fin 4) (v : Word) (s : State) :
    Host.Outcome State Fault Refusal :=
  .next (regAccess m (ra .tim (Tim.CC n k)) (timerCcWrite n k v) s)
/-- `TIMER_ZERO`: only at a zero tick (log entry 5). -/
def execTimerZero (n : Fin 64) (s : State) : Host.Outcome State Fault Refusal :=
  .next (if (s.timer n).zeroDue then timerZero n s else s)
/-- `TIMER_CHANNEL_FIRE`: only when the channel is due (log entry 5). -/
def execTimerChannelFire (n : Fin 64) (k : Fin 4) (s : State) : Host.Outcome State Fault Refusal :=
  .next (if channelDue s n k then channelFire n k s else s)

/-- A timer counts Selvedge ticks: enabled, `SRC` = 0, and not held by `DBGSTOP` (R115, R118). -/
def timerCounts (s : State) (n : Nat) : Bool :=
  let c := s.rg (ra .tim (Tim.CTRL n))
  tb c 0 && !tb c 3 && !(tb c 4 && anyHalted s)

/-- One Selvedge tick of a timer's prescaler (R115). -/
def timerPrescale (n : Nat) (s : State) : State :=
  if timerCounts s n then
    let t := s.timer n
    if t.presc ≥ fld (s.rg (ra .tim (Tim.CTRL n))) 31 16 then timerTick n (s.setTimer n { t with presc := 0 })
    else s.setTimer n { t with presc := t.presc + 1 }
  else s

/-! ### Commands of the router (R121–R124) -/

/-- A write of `EVR.SWTRIG` raises a software event; other values are ignored (R121). -/
def swtrigWrite (v : Word) (s : State) : Resp × State :=
  let n := fld v 10 0
  if 0x2C0 ≤ n ∧ n ≤ 0x2FF then (.ok 0, raiseEvent n s) else (.ok 0, s)

/-- A non-secure write of a secure route is ignored (`EVR.ROUTE_n.WORLD`). -/
def routeWrite (m : Master) (n : Nat) (v : Word) (s : State) : Resp × State :=
  if !m.sec && tb (s.rg (ra .evr (Evr.ROUTE n))) 30 then (.ok 0, s)
  else (.ok 0, plainWrite .evr 0 (Evr.ROUTE n) v m.sec s)

def execSwtrig (m : Master) (v : Word) (s : State) : Host.Outcome State Fault Refusal :=
  .next (regAccess m (ra .evr Evr.SWTRIG) (swtrigWrite v) s)
def execEventDelivery (is : List Nat) (s : State) (cycles : List (Nat × Nat) := []) : Host.Outcome State Fault Refusal :=
  .next (deliver (fun _ => true) is cycles s)
def execTimerActionStart (is : List Nat) (s : State) : Host.Outcome State Fault Refusal :=
  .next (deliver (fun f => f.kind = 3 && f.dest / 64 = 0) is [] s)
def execTimerActionStop (is : List Nat) (s : State) : Host.Outcome State Fault Refusal :=
  .next (deliver (fun f => f.kind = 3 && f.dest / 64 = 1) is [] s)
def execTimerActionCapture (is : List Nat) (s : State) : Host.Outcome State Fault Refusal :=
  .next (deliver (fun f => f.kind = 3 && f.dest / 64 = 2) is [] s)
def execTimerActionCount (is : List Nat) (s : State) : Host.Outcome State Fault Refusal :=
  .next (deliver (fun f => f.kind = 3 && f.dest / 64 = 3) is [] s)
def execSelvedgeCapture (is : List Nat) (s : State) : Host.Outcome State Fault Refusal :=
  .next (deliver (fun f => f.kind = 5) is [] s)

/-! ### Slow clock (R109, R110) -/

/-- A run of 32,768 slow ticks with the fast clocks running has ended (R110). -/
def slowmeasDue (s : State) : Bool := s.time.run && 32768 ≤ s.time.measSlow
/-- The end of a run of 32,768 slow ticks: `TB.SLOWMEAS` takes the Selvedge ticks counted (R110); a count outside
its limits sets `SLOWFAIL` (R431). -/
def slowmeasTake (s : State) : State :=
  let n := s.time.measTicks
  let s1 := { s.setRg (ra .tb Tb.SLOWMEAS) (w32 n) with time.measTicks := 0, time.measSlow := 0 }
  if n < 799600000 ∨ 800400000 < n then s1.setRgBit (ra .pmu Pmu.CLKSTAT) 30 true else s1
/-- `SLOWMEAS_UPDATE`: only at the end of a run (log entry 5). -/
def execSlowmeasUpdate (s : State) : Host.Outcome State Fault Refusal :=
  .next (if slowmeasDue s then slowmeasTake s else s)

/-- Selvedge is suspended at a slow-clock edge: S0 and A0 are recorded and the counter stops (R109). -/
def selvedgeSuspend (s : State) : State :=
  { s with time.run := false, time.s0 := s.time.selvedge, time.a0 := s.time.slow, time.measOn := false,
           time.measTicks := 0, time.measSlow := 0 }

/-- The present tick brings a rising edge of the slow clock (R109). -/
def slowEdge (s : State) : Bool := s.time.slowRes < 32768

/-- Selvedge is restored at slow-clock edge A1, which lies `slowTicks` after the present count of the slow clock
(R109); a run of R110 begins there. -/
def selvedgeRestore (slowTicks : Nat) (s : State) : State :=
  let a1 := s.time.slow + BitVec.ofNat 48 slowTicks
  let inc : Int := 24414 * 65536 + 4096 + sext (s.rg (ra .tb Tb.SLOWCAL)).toNat 16
  let tot : Int := ((a1 - s.time.a0).toNat : Int) * inc + fld (s.rg (ra .tb Tb.FRAC)) 15 0
  let s1 := s.setRg (ra .tb Tb.FRAC) (w32 (tot % 65536).toNat)
  { s1 with time.selvedge := s1.time.s0 + BitVec.ofInt 64 (tot / 65536), time.slow := a1, time.run := true,
            time.slowRes := 0, time.measOn := true, time.measTicks := 0, time.measSlow := 0 }

/-! ### Live values of the `TB` and `TIM` blocks -/

/-- The registers of `TB` whose value is not the stored word: the counts, captures and slots (R104–R108,
R113).  Non-secure reads of a secure slot give 0. -/
def tbLive (s : State) (m : Master) (o : Nat) : Option Word :=
  if o = Tb.NOW_LO then some (s.time.selvedge.truncate 32)
  else if o = Tb.NOW_HIL then some (w32 (s.time.selvedge.toNat / 2 ^ 32))
  else if o = Tb.SLOW_LO then some (w32 s.time.slow.toNat)
  else if 0x100 ≤ o ∧ o < 0x180 ∧ o % 8 = 0 then
    some (w32 (Tbl.get (fun _ => 0) s.time.caps ((o - 0x100) / 8)).toNat)
  else if 0x1000 ≤ o ∧ o < 0x2000 then
    (let n := (o - 0x1000) / 16
     let t := s.slot n
     if slotDenied s m n then some 0
     else if o % 16 = 0 then some (w32 t.value.toNat)
     else if o % 16 = 8 then some (t.pendPer.getD t.per)
     else if o % 16 = 0xC then some (setBit (plainRead s .tb 0 o) 31 t.arm)
     else none)
  else none

/-- The high word that a read of a low word of `TB` latches (R106). -/
def tbHigh (s : State) (m : Master) (o : Nat) : Option Word :=
  if o = Tb.NOW_LO then some (w32 (s.time.selvedge.toNat / 2 ^ 32))
  else if o = Tb.SLOW_LO then some (w32 (s.time.slow.toNat / 2 ^ 32))
  else if 0x100 ≤ o ∧ o < 0x180 ∧ o % 8 = 0 then
    some (w32 ((Tbl.get (fun _ => 0) s.time.caps ((o - 0x100) / 8)).toNat / 2 ^ 32))
  else if 0x1000 ≤ o ∧ o < 0x2000 ∧ o % 16 = 0 ∧ !slotDenied s m ((o - 0x1000) / 16) then
    some (w32 ((s.slot ((o - 0x1000) / 16)).value.toNat / 2 ^ 32))
  else none

/-- Offsets of `TB` that read the master's snapshot (R106); a secure slot shows a non-secure master none. -/
def tbIsHigh (s : State) (m : Master) (o : Nat) : Bool :=
  o = Tb.NOW_HI || o = Tb.SLOW_HI || (0x100 ≤ o && o < 0x180 && o % 8 = 4) ||
    (0x1000 ≤ o && o < 0x2000 && o % 16 = 4 && !slotDenied s m ((o - 0x1000) / 16))

/-- The live registers of a timer: `COUNT` and `ELAPSED`. -/
def timLive (s : State) (o : Nat) : Option Word :=
  let t := s.timer (o / 0x100)
  if o % 0x100 = 8 then some t.count else if o % 0x100 = 0xC then some (timerElapsed t) else none

end Sys2Proof.Machine
end

