-- ==== Sys2Proof/Machine/Migrate.lean ====
section
/-! DEFINITION. Migrations (R248–R251), paired execution (R252, R253), deadlines (R256, R257), setpoints
(R85, R232), and the commands of the bridges with what a boundary, a sample instant and a bundle bring to
the axis. -/

namespace Sys2Proof.Machine

/-! ### Migration (R28, R29, R248–R251) -/

/-- The rank of an agent's migrations (R29); a handover ranks second. -/
def migRank (agent : Nat) : Nat := if agent = 3 ∨ agent = 4 then 1 else if agent = 5 then 3 else if agent = 7 then 4 else 5

/-- An agent may order a migration of a placed context: none is ordered, or one of a lower rank that has not begun
(R26, R27, R29). -/
def mayOrder (s : State) (n agent : Nat) : Bool :=
  (s.ctx n).placed && match (s.ctx n).mig with
    | some m => m.step = 0 && migRank agent < migRank m.agent
    | none => true

/-- A migration of a context is ordered, in place of one of a lower rank that has not begun; who loses is retried
(`retryOrders`), for which a balance order is kept. -/
def orderMig (n src dst agent : Nat) (s : State) : State :=
  let x := s.ctx n
  if mayOrder s n agent then
    s.setCtx n { x with mig := some { src := src, dst := dst, agent := agent },
                        lost := match x.mig with | some m => if m.agent = 2 then some m else x.lost | none => x.lost }
  else s

/-- The hold of a service's bank begins or ends (R251). -/
def holdBank (key : Nat) (held : Bool) (s : State) : State := s.setBank key { s.bank key with held := held }

/-- What a migration has bound or held so far is undone. -/
def undoMig (m : Mig) (s : State) : State :=
  let s1 := if (s.bank m.src).held then holdBank m.src false s else s
  if m.step ≥ 2 then unbindBank m.dst s1 else s1

/-- A compare is kept while a bundle may still come or a compare of bundles that are there is still due. -/
def compareKept (c : Compare) : Bool := !c.ended || (c.a.isSome && ((c.b.isSome && !c.paired) || (c.shadow && c.c.isSome)))

/-- No compare of an axis is that of a shadow period any more, and those that nothing else waits for are over (R250). -/
def shadowOver (n : Nat) (s : State) : State :=
  let x := s.ax n
  s.setAx n { x with cmps := (x.cmps.map (fun c => { c with shadow := false, c := none })).filter compareKept }

/-- A migration ends without its switch; the destination is unbound. -/
def dropMig (n : Nat) (s : State) : State :=
  match (s.ctx n).mig with
  | none => s
  | some m =>
    let s1 := shadowOver n (undoMig m s)
    s1.setCtx n { s1.ctx n with mig := none, pinDue := (s1.ctx n).pinDue && m.agent ≠ 7 }

/-- A migration goes back to its copy step (R17, R248, R250). -/
def retryMig (n : Nat) (s : State) : State :=
  match (s.ctx n).mig with
  | none => s
  | some m =>
    let s1 := shadowOver n (undoMig m s)
    s1.setCtx n { s1.ctx n with mig := some { m with step := 0, dirty := false, crossed := false } }

/-- A migration is aborted (R250, R255): 1 late, 2 mismatch, 3 data failure. -/
def abortMig (n res : Nat) (s : State) : State :=
  match (s.ctx n).mig with
  | none => s
  | some m =>
    let s1 := journal 0x13 n res m.agent (locWord m.src) (locWord m.dst) s
    if res = 1 then retryMig n s1 else sadlNotice 2 (dropMig n s1)

/-- A context has no period of its own: a service, or an axis slot that nothing serves (log entry 16). -/
def noPeriod (s : State) (n : Nat) : Bool := n ≥ 128 || !slotServed s n

/-- The axis period touches no other placement action (R27) and no quiet window is open (R30). -/
def axisFree (s : State) (n : Nat) : Bool := n ≥ 128 || (!(s.ax n).acted && !axisQuiet s n)

/-- A run of a bank has ended: a service's move that waited for it may begin again (R251). -/
def runEnded (n key : Nat) (s : State) : State :=
  match (s.ctx n).mig with
  | some m => if m.src = key && m.waitRun then s.setCtx n { s.ctx n with mig := some { m with waitRun := false } } else s
  | none => s

/-- Neither engine of a migration is halted under debug (R478). -/
def migRuns (s : State) (m : Mig) : Bool := !(s.el (m.src / 16)).halted && !(s.el (m.dst / 16)).halted

/-- A migration may still lead where it leads (R240, R250, R451): to an island that takes placements, for a class-A context
to no suspect engine and no island that the ledger keeps free of class A; one that has not begun, to an engine that still
has room for it (R241). -/
def orderHolds (s : State) (n : Nat) (m : Mig) : Bool :=
  let g := m.dst / 16
  islState s (islandOf g) = 0
    && !(reqClass s n = 0 && (tb (s.rg (ra .sadl Sadl.SUSPECT)) g || classAOff s (islandOf g)))
    && (m.step ≠ 0 || engineLoad s g [] ≤ engineCap s g)

/-- A migration whose destination has been lost to it is withdrawn; its agent orders another (R29). -/
def withdrawMig (n : Nat) (s : State) : State :=
  match (s.ctx n).mig with
  | some m =>
    if orderHolds s n m then s
    else
      let s1 := shadowOver n (undoMig m s)
      s1.setCtx n { s1.ctx n with mig := none, lost := if m.agent = 2 then some m else (s1.ctx n).lost }
  | none => s

/-- The copy of a context in a bank has committed since the last sample of the axis (R248). -/
def committed (s : State) (n key : Nat) : Bool := if (s.ctx n).second = some key then (s.ax n).doneB else (s.ax n).doneA

/-- The copy step of an axis migration may begin (R248): after the source's commit, with no run of it in
progress. -/
def copyReady (s : State) (n : Nat) : Bool :=
  match (s.ctx n).mig with
  | some m => n < 128 && m.step = 0 && migRuns s m && orderHolds s n m && axisFree s n && !bankRuns s m.src && committed s n m.src
  | none => false

/-- The Saddler copies the 4 KiB bank on Twill (R248); a copy whose data cannot be read or written fails (R17), and so
does that of a source bank in the fault state (log entry 16). -/
def startCopy (n : Nat) (s : State) : State :=
  match (s.ctx n).mig with
  | none => s
  | some m =>
    if (s.bank m.src).fault.isSome then abortMig n 3 s
    else match agentCopy midSadl true (bankAddr m.src) (bankAddr m.dst) 0x1000 s with
      | (false, s1) => abortMig n 3 s1
      | (true, s1) =>
        let s2 := journal 0x10 n 0 m.agent (locWord m.src) (locWord m.dst) s1
        let s3 := s2.setCtx n { s2.ctx n with mig := some { m with step := 1, dirty := false, crossed := false } }
        s3.setAx n { s3.ax n with acted := true }

/-- The shadow period begins (R28, R250). -/
def shadowStart (n : Nat) (m : Mig) (s : State) : State :=
  let s1 := journal 0x11 n 0 m.agent (locWord m.src) (locWord m.dst)
    (s.setCtx n { s.ctx n with mig := some { m with step := 3 } })
  s1.setAx n { s1.ax n with acted := true }

/-- The destination is bound as a second bank, with the source's latched events, wake mask and armed `SP_DUE`
compare (R248, R251). -/
def bindSecond (n src dst : Nat) (s : State) : State :=
  let b := s.bank src
  s.setBank dst { b with ctx := some n, second := true, fault := none, held := false }

/-- Twill has acknowledged the last write of the copy, or it failed (R16, R17, R248).  The period after the copy's is the
shadow period, also where the acknowledgement comes within it. -/
def copyAck (n : Nat) (ok : Bool) (s : State) : State :=
  match (s.ctx n).mig with
  | none => s
  | some m =>
    if m.step ≠ 1 then s
    else if !ok then abortMig n 3 s
    else if noPeriod s n then s
    else if !orderHolds s n m then withdrawMig n s
    else if m.dirty then retryMig n s
    else
      let s1 := bindSecond n m.src m.dst s
      if m.crossed && !axisQuiet s n then shadowStart n m s1
      else s1.setCtx n { s1.ctx n with mig := some { m with step := 2 } }

/-- The destination takes the source's place (R250, R252). -/
def switchMig (n : Nat) (m : Mig) (s : State) : State :=
  let s1 := unbindBank m.src s
  let x := s1.ctx n
  let wasSecond := x.second = some m.src
  let s2 := shadowOver n (s1.setBank m.dst { s1.bank m.dst with second := wasSecond })
  reserveCheck (s2.setCtx n { x with mig := none, first := if wasSecond then x.first else m.dst,
                                     second := if wasSecond then some m.dst else x.second })

/-- A new period of the axis begins (R27, R28, R250): the shadow period or the switch of a migration.  One whose source or
destination has been halted since its bundles matched ends late (R478). -/
def axisPeriod (n : Nat) (s : State) : State :=
  let s1 := s.setAx n { s.ax n with acted := false }
  match (s1.ctx n).mig with
  | none => s1
  | some m =>
    if axisQuiet s1 n then s1
    else if m.step = 1 then s1.setCtx n { s1.ctx n with mig := some { m with crossed := true } }
    else if m.step = 2 then shadowStart n m s1
    else if !orderHolds s1 n m then withdrawMig n s1
    else if m.step = 4 then
      if !migRuns s1 m then abortMig n 1 s1 else
      let s2 := switchMig n m (journal 0x12 n 0 m.agent (locWord m.src) (locWord m.dst) s1)
      s2.setAx n { s2.ax n with acted := true }
    else s1

/-- The compare of a shadow period is due (R250): both bundles are there, and two coarse ticks have passed. -/
def compareDue (now : DWord) (x y : Option (List Byte × DWord)) : Bool :=
  match x, y with
  | some (_, t), some (_, u) =>
    reached 64 now.toNat (t.toNat / 2 * 2 + 4) && reached 64 now.toNat (u.toNat / 2 * 2 + 4)
  | _, _ => false

/-- The compare of a migration's shadow period (R250); with an engine of the migration halted it ends late (R478).  A
compare that has been made is over. -/
def shadowCompare (n : Nat) (s : State) : State :=
  match (s.ctx n).mig, (s.ax n).cmps.find? (fun c => c.shadow && compareDue s.time.selvedge c.a c.c) with
  | some m, some c =>
    if m.step ≠ 3 then s
    else if !migRuns s m then abortMig n 1 s
    else if c.a.map Prod.fst = c.c.map Prod.fst then
      shadowOver n (s.setCtx n { s.ctx n with mig := some { m with step := 4 } })
    else markSuspect (m.dst / 16) (abortMig n 2 s)
  | _, _ => s

/-- A service context's bank waits: the Saddler holds it and copies it, and with the copy done it binds the destination
and releases the source (R251).  `written` says that an agent wrote the bank during the copy, as the model may know
itself: that ends the hold, and the move waits for the context's next run.  Either step of an axis slot that nothing serves
is deferred while it is quiet (R30), and with an engine of the migration halted the move goes back to its copy (R478).  An
axis migration whose slot has lost its server goes back to the copy (log entry 16). -/
def serviceMigration (n : Nat) (written : Bool) (s : State) : State :=
  match (s.ctx n).mig with
  | none => s
  | some m =>
    let put (m : Mig) (s : State) : State := s.setCtx n { s.ctx n with mig := some m }
    if m.step = 0 then
      if bankRuns s m.src || m.waitRun || !migRuns s m || !orderHolds s n m || !axisFree s n then s
      else if (s.bank m.src).fault.isSome then abortMig n 3 s
      else match agentCopy midSadl true (bankAddr m.src) (bankAddr m.dst) 0x1000 s with
        | (false, s1) => abortMig n 3 s1
        | (true, s1) => put { m with step := 1, dirty := false } (holdBank m.src true s1)
    else if m.step = 1 then
      if n < 128 && axisQuiet s n then s
      else if !migRuns s m then retryMig n s
      else if !orderHolds s n m then withdrawMig n s
      else if written || m.dirty then put { m with step := 0, dirty := false, waitRun := true } (holdBank m.src false s)
      else journal 0x14 n 0 m.agent (locWord m.src) (locWord m.dst) (switchMig n m (bindSecond n m.src m.dst s))
    else retryMig n s

/-- The island of the copy of a context that does not lie in a bank (R240). -/
def otherIsland (s : State) (n src : Nat) : Option Nat :=
  (s.ctx n).second.map (fun k => (if k = src then (s.ctx n).first else k) / 64)

/-- The Saddler orders a migration of one copy of a context to the best bank elsewhere. -/
def migrateAway (n src agent : Nat) (allowed : Nat → Bool) (s : State) : State :=
  if !mayOrder s n agent then s
  else
    let (x, s1) := s.draw
    let s2 := s1.setCtx n { s1.ctx n with mig := none }
    match chooseBank s2 n none [src] (otherIsland s n src) true x (fun k => allowed k && k ≠ src) with
    | .ok k => orderMig n src k agent (setAcPhase n (k / 16) x agent s2)
    | .error _ => s1

/-- The moves that the pins of a context ask for (R244): source and pin of each copy that does not lie at its pin. -/
def pinMoves (s : State) (n : Nat) : List (Nat × Nat) :=
  let x := s.ctx n
  let want (second : Bool) (have_ : Nat) : List (Nat × Nat) :=
    match pinOf s n second with
    | some k => if k = have_ then [] else [(have_, k)]
    | none => []
  want false x.first ++ (match x.second with | some k => want true k | none => [])

/-- Why a move to a pin is refused (R240–R242, R244): the code of the first condition that the pinned bank does not meet.
The other copy of a pair counts where its own pin puts it. -/
def pinRefusal (s : State) (n : Nat) (move : Nat × Nat) (start : Nat) : Option Nat :=
  let x := s.ctx n
  let other := x.second.map (fun k =>
    if k = move.1 then ((pinOf s n false).getD x.first) / 64 else ((pinOf s n true).getD k) / 64)
  match chooseBank s n (some move.2) [move.1] other true start (fun _ => true) with
  | .ok _ => none
  | .error c => some c

/-- A migration to a pin is ordered, with the phase that R242 asks for there. -/
def movePin (n start : Nat) (move : Nat × Nat) (s : State) : State :=
  orderMig n move.1 move.2 7 (setAcPhase n (move.2 / 16) start 7 s)

/-- A write of `REQ3` (R244): a placed context moves to its new pin by migration; an occupied pin is refused with code 3,
and one that does not meet R240 to R242 with the code of `PLACE`.  Of a pair's two moves the one goes first that keeps the
copies in different islands (R10, R252); where neither does, the pins are refused.  DESIGN CHOICE (log entry 30): while a
command is in progress `CMDSTAT` goes on showing it, and a refusal shows in the record alone. -/
def req3Write (m : Master) (n : Nat) (v : Word) (s : State) : Resp × State :=
  let s1 := plainWrite .sadl 0 (Sadl.CTX_REQ3 n) v m.sec s
  let (x, s2) := s1.draw
  let moves := pinMoves s2 n
  let refused (c : Nat) : State := if tb (s.rg (ra .sadl Sadl.CMDSTAT)) 31 then s else cmdDone c s
  if !(s.ctx n).placed then (.ok 0, s1)
  else if moves.isEmpty then (.ok 0, headerRefresh n s1)
  else match moves.findSome? (fun p => pinRefusal s2 n p x) with
    | some c => (.ok 0, refused c)
    | none => match moves.find? (fun p => otherIsland s2 n p.1 ≠ some (p.2 / 64)) with
      | none => (.ok 0, refused 1)
      | some p =>
        let s3 := headerRefresh n s2
        let s4 := s3.setCtx n { s3.ctx n with pinDue := true }
        (.ok 0, if mayOrder s4 n 7 then movePin n x p s4 else s4)

/-- A context whose pins were rewritten goes on to a pin it has not reached (R244): a pair's second move, or a
move held up by another migration.  A move that was aborted for good is not ordered again (R250). -/
def nextPin (n : Nat) (s : State) : State :=
  let x := s.ctx n
  if x.mig.isSome || !x.placed || !x.pinDue then s
  else match pinMoves s n with
    | [] => s.setCtx n { x with pinDue := false }
    | moves =>
      let (d, s1) := s.draw
      match moves.find? (fun p => (chooseBank s n (some p.2) [p.1] (otherIsland s n p.1) true d (fun _ => true)).isOk) with
      | some p => movePin n d p s1
      | none => s

/-- The loads are compared every 10 ms (R246). -/
def balanceDue (s : State) : Bool :=
  s.time.selvedge ≠ 0 && s.time.selvedge.toNat % 8000000 = 0 && s.axis.balanced ≠ some s.time.selvedge

/-- The copies of contexts on an engine that may move for an agent to a place that `allowed` admits, with R241 and R242
kept there. -/
def movable (s : State) (g agent : Nat) (may : Nat × BankSt → Bool) (allowed : Nat → Bool) : List Nat :=
  (s.axis.banks.filter (fun e => e.1 / 16 = g && may e && match e.2.ctx with
    | some n => !tb (req3 s n) 31 && mayOrder s n agent
        && (chooseBank s n none [e.1] (otherIsland s n e.1) true 0 (fun k => allowed k && k ≠ e.1)).isOk
    | none => false)).map Prod.fst

/-- One of them, at the Saddler's choice, is ordered to move. -/
def moveOne (agent : Nat) (allowed : Nat → Bool) (ks : List Nat) (s : State) : State :=
  match pickFree ks s with
  | (some k, s1) => (match (s1.bank k).ctx with
      | some n => migrateAway n k agent allowed s1
      | none => s1)
  | (none, s1) => s1

/-- The Saddler compares the engine loads (R246). -/
def balanceCheck (s0 : State) : State :=
  let s := { s0 with axis.balanced := some s0.time.selvedge }
  if !tb (s.rg (ra .sadl Sadl.POLICY)) 0 then s
  else
    let gs := (List.range 32).filter (fun g => islState s (islandOf g) = 0 && !(s.el g).halted)
    let most := gs.foldl (fun b g => match b with
      | none => some g | some h => if engineLoad s g [] > engineLoad s h [] then some g else some h) none
    let least := gs.foldl (fun b g => match b with
      | none => some g | some h => if engineLoad s g [] < engineLoad s h [] then some g else some h) none
    match most, least with
    | some g, some h =>
      if (engineLoad s g [] - engineLoad s h []) * 5 > engineCap s g then
        let there (j : Nat) : Bool := j / 16 = h
        moveOne 2 there (movable s g 2 (fun e => e.2.cls ≠ 0) there) s
      else s
    | _, _ => s

/-- The banks of an engine whose contexts are already ordered off it at first precedence. -/
def leaving (s : State) (g : Nat) : List Nat :=
  s.axis.ctxs.filterMap (fun e => match e.2.mig with
    | some m => if m.src / 16 = g && migRank m.agent = 1 then some m.src else none
    | none => none)

/-- An engine whose load exceeded its capacity after a clock change gives contexts off, one after another, until what
stays fits (R241). -/
def overloadStep (g : Nat) (s : State) : State :=
  if !s.axis.overload.contains g then s
  else if engineLoad s g [] ≤ engineCap s g then { s with axis.overload := s.axis.overload.filter (· ≠ g) }
  else if engineLoad s g (leaving s g) ≤ engineCap s g then s
  else
    let off (j : Nat) : Bool := j / 16 ≠ g
    moveOne 3 off (movable s g 3 (fun _ => true) off) s

/-- After a clock change the Saddler looks at an engine's load (R241). -/
def overloadCheck (g : Nat) (s : State) : State :=
  overloadStep g { s with axis.overload := if s.axis.overload.contains g then s.axis.overload else s.axis.overload ++ [g] }

/-- Where each copy of a context is placed. -/
def placedBanks (s : State) (n : Nat) : List Nat :=
  let x := s.ctx n
  if !x.placed then [] else match x.second with | some k => [x.first, k] | none => [x.first]

/-- A class-A context whose island the ledger keeps free of class A is asked off it again until an order stands (R29,
R451). -/
def marginRetry (n : Nat) (s : State) : State :=
  (placedBanks s n).foldl (fun s k =>
    if classAOff s (k / 64) && reqClass s n = 0 && !tb (req3 s n) 31 && mayOrder s n 3 then
      migrateAway n k 3 (fun j => j / 64 ≠ k / 64) s
    else s) s
/-- A context on an island that is being evacuated is asked off it again until an order stands (R29, R458). -/
def evacRetry (n : Nat) (s : State) : State :=
  (placedBanks s n).foldl (fun s k =>
    if islState s (k / 64) = 1 && !tb (req3 s n) 31 && mayOrder s n 5 then
      migrateAway n k 5 (fun j => j / 64 ≠ k / 64) s
    else s) s
/-- A balance order that lost to another agent is given again to the engine it led to (R29, R246). -/
def balanceRetry (n : Nat) (s : State) : State :=
  match (s.ctx n).lost with
  | none => s
  | some m =>
    if (s.ctx n).mig.isSome then s
    else
      let s1 := s.setCtx n { s.ctx n with lost := none }
      if tb (s.rg (ra .sadl Sadl.POLICY)) 0 && (placedBanks s n).contains m.src && !tb (req3 s n) 31 then
        migrateAway n m.src 2 (fun k => k / 16 = m.dst / 16) s1
      else s1
/-- The agents that have lost a context to another are retried, in the order of R29; what has lost its destination is
withdrawn first. -/
def retryOrders (n : Nat) (s : State) : State :=
  balanceRetry n (nextPin n (evacRetry n (marginRetry n (withdrawMig n s))))

/-! ### Pairs and deadlines (R252, R253, R256, R257) -/

/-- A paired fault (R253): 1 mismatch, 2 missing; the outputs enter the safe state at the next coarse tick. -/
def pairFault (n what : Nat) (s : State) : State :=
  let x := s.ctx n
  let k2 := x.second.getD x.first
  let act := tb (req0 s n) 31
  let s1 := axst n (if what = 1 then 3 else 4) s
  let s2 := raiseEvent 0x3E2 (sadlNotice 4 s1)
  let s3 := journal (if what = 1 then 0x60 else 0x61) n (b2n act) 0 (locWord x.first) (locWord k2) s2
  let s4 := markSuspect (k2 / 16) (markSuspect (x.first / 16) s3)
  let s5 := faultRecord 0x0B n (if act then 0 else 2) what s4
  if act then s5 else s5.setAx n { s5.ax n with pairSafe := true }

/-- The outputs of an axis with a paired fault enter the safe state (R253). -/
def pairSafe (n : Nat) (s : State) : State :=
  if (s.ax n).pairSafe then axisSafe n 7 (s.setAx n { s.ax n with pairSafe := false }) else s

/-- The compare of a sample is due for the pair. -/
def pairDue (s : State) (c : Compare) : Bool := !c.paired && compareDue s.time.selvedge c.a c.b
/-- The compare of a paired axis (R252). -/
def pairCompare (n : Nat) (s : State) : State :=
  let x := s.ax n
  if (s.ctx n).second.isNone || !x.cmps.any (pairDue s) then s
  else
    let s1 := s.setAx n { x with
      cmps := (x.cmps.map (fun c => if pairDue s c then { c with paired := true } else c)).filter compareKept }
    (x.cmps.filter (fun c => pairDue s c && c.a.map Prod.fst ≠ c.b.map Prod.fst)).foldl (fun s _ => pairFault n 1 s) s1

/-- A sample's commit deadline passes: a missing bundle of the second copy, or of a shadow period, shows (R250,
R253). -/
def missingBundle (n : Nat) (s : State) (c : Compare) : State :=
  let s1 := if (s.ctx n).second.isSome && c.b.isNone then pairFault n 2 s else s
  match (s1.ctx n).mig with
  | some m => if m.step = 3 && c.shadow && (c.a.isNone || c.c.isNone) then abortMig n 1 s1 else s1
  | none => s1

/-- The compare's commit deadline has passed. -/
def compareOver (s : State) (c : Compare) : Bool := !c.ended && newer 64 s.time.selvedge.toNat c.deadline.toNat

/-- A commit deadline of an axis has passed (R250, R253, R257). -/
def commitDeadline (n : Nat) (s : State) : State :=
  let s1 := deadlinePassed n s
  let x := s1.ax n
  let s2 := s1.setAx n { x with
    cmps := (x.cmps.map (fun c => if compareOver s c then { c with ended := true } else c)).filter compareKept }
  (x.cmps.filter (compareOver s)).foldl (missingBundle n) s2

/-! ### Setpoints (R81, R85, R232) -/

/-- Word `k` of a bank's setpoint block. -/
def spWord (s : State) (key k : Nat) : Word := s.word (bankAddr key + 0x40 + 4 * k)

/-- The queue manager is offered a setpoint block for a context (R85): the answer, and the state with the
block held when it is accepted. -/
def offerSetpoint (sec : Bool) (n : Nat) (sp : Setpoint) (s : State) : Nat × State :=
  match boundBanks s n with
  | [] => (1, s)
  | k :: _ =>
    let x := s.ctx n
    let last := match x.lastSeq with | some q => q | none => spWord s k 4
    if (s.bank k).world && !sec then (2, s)
    else if !newer 32 sp.seq.toNat last.toNat then (3, s)
    else (0, s.setCtx n { x with lastSeq := some sp.seq, held := x.held ++ [sp] })

/-- A held block is written into every bound bank, `SP_SEQ` last, and `SP_NEW` follows (R85, R232, R249). -/
def writeSetpoint (n : Nat) (s : State) : State :=
  let x := s.ctx n
  match x.held with
  | [] => s
  | sp :: rest =>
    if ctxRuns s n then s
    else
      let s1 := s.setCtx n { x with held := rest, delivered := true }
      match boundBanks s n with
      | [] => s1
      | k :: ks =>
        let early := n < 128 && x.delivered && !reached 32 s.time.selvedge.toNat (spWord s k 3).toNat
        let s2 := if early then bump .sadl 0 (Sadl.AX_SPREPL_CNT n) (axst n 2 s1) else s1
        let bs := toBytes 4 sp.pos.toNat ++ toBytes 4 sp.vel.toNat ++ toBytes 4 sp.torque.toNat ++
          toBytes 4 sp.due.toNat ++ toBytes 4 sp.seq.toNat
        let s3 := bankWrite (some midQm) n 0x40 bs s2
        wakeCtx n 2 ((k :: ks).foldl (fun s j => s.setBank j { s.bank j with spArmed := true, spAt := s.time.selvedge }) s3)

/-- The `SP_DUE` compare of a bank fires, from the tick after the delivery that armed it on (R81, R112). -/
def spDueFire (key : Nat) (s : State) : State :=
  if (s.bank key).spArmed && s.time.selvedge ≠ (s.bank key).spAt && reached 32 s.time.selvedge.toNat (spWord s key 3).toNat then
    latchBank key 1 (s.setBank key { s.bank key with spArmed := false })
  else s

/-! ### Bundles at the edge port (R84, R250, R252, R257) -/

/-- Whether a committed bundle goes to the outputs, and the state with what the compare and the deadlines take
of it (R84, R249, R257).  DESIGN CHOICE (log entry 14): a bundle in flight whose bank has been unbound before it comes to
the edge port, by a `RELEASE` or by the switch of a migration, has no effect. -/
def bundleAtPort (f : EdgeFlight) (s : State) : Bool × State :=
  let n := f.axis
  let x := s.ctx n
  let b := s.bank f.bank
  let arr := some (f.bytes, s.time.selvedge)
  if b.ctx ≠ some n then (false, s)
  else
    let shadow : Bool := match x.mig with | some m => m.dst = f.bank | none => false
    let a := s.ax n
    let fill (f : Compare → Compare) : List Compare := a.cmps.map (fun c => if c.ended then c else f c)
    if shadow then (false, s.setAx n { a with cmps := fill (fun c => { c with c := c.c.or arr }) })
    else if x.second = some f.bank then
      (false, s.setAx n { a with cmps := fill (fun c => { c with b := c.b.or arr }), doneB := true })
    else (true, answerSamples n (s.setAx n { a with cmps := fill (fun c => { c with a := c.a.or arr }), doneA := true }))

/-- The bundle at place `i` of those in flight reaches the timing island: the compare, or its bridge.  DESIGN CHOICE
(log entry 14): of several disabled bridges that name the axis, the lowest-numbered one sets `STAT.DISC`. -/
def bundleArrival (i : Nat) (s : State) : State :=
  match s.axis.edges[i]? with
  | none => s
  | some f =>
    if (linkOf s f.axis).isSome then s
    else
      let (out, s1) := bundleAtPort f { s with axis.edges := removeAt s.axis.edges [i] }
      if !out then s1
      else match bridgeOf s1 f.axis with
        | some b => bundleAtBridge b f.bytes f.old s1
        | none =>
          match (List.range 12).find? (fun b => pwmAxis s1 b = f.axis && !pwmEn s1 b) with
          | some b => bundleAtBridge b f.bytes f.old s1
          | none => s1

/-! ### Boundaries and instants -/

/-- A bridge reaches a boundary: the carrier's own part, event 0x350 + b, the unbinding of channels, the
captures of kind 01, the axis's placement actions, a binding that a moved phase asks for, and `PERIOD` in its
banks (R134, R137, R164, R192, R198). -/
def periodBoundary (b : Nat) (s : State) : State :=
  let x := pwmAxis s b
  let old := s.br b
  let nosmp := smpActive s b && pwmRun s b && old.len ≤ smpAt s b
  let s1 := raiseEvent (0x350 + b) (bridgeBoundary b s)
  let moved := old.cut || (s1.br b).period ≠ old.period || old.phase.isSome
  let s2 := if nosmp then s1.setRgBit (ra .conv (Conv.SMPSTAT b)) 2 true else s1
  let s3 := if s2.conv.unbind.contains b then unbindBridge b s2 else s2
  let s4 := triggerBridge 1 b s3
  let s5 := if x < 128 then axisPeriod x s4 else s4
  let s6 := handoverTry b (if old.phase.isNone then keepBinding b s5 else s5)
  let s7 := if moved then recheckPhase b s6 else s6
  settle (if x < 128 then wakeCtx x 6 s7 else s7)

/-- At an axis's sample instant a copy that is not acknowledged is late (R248). -/
def lateCopy (x : Nat) (s : State) : State :=
  match (s.ctx x).mig with
  | some m => if x < 128 && m.step = 1 then retryMig x s else s
  | none => s

/-- Sample instant of a bridge, with the migrations that it makes late (R248). -/
def sampleAxis (b : Nat) (s : State) : State := sampleInstant b (lateCopy (pwmAxis s b) s)

/-- N of an output is measured (R181, R456): a valid N and the trim are swapped in at the next boundary; with one out of
range the trim alone moves there (log entry 31), the last N staying in use. -/
def delayMeasure (b o n : Nat) (s0 : State) : State :=
  let s := s0.setBr b { s0.br b with measAt := Tbl.set (fun _ => 0) (s0.br b).measAt o (coarse s0) }
  let w := s.rg (pw b (Pwm.DLCAL o))
  let t := sext (fld w 13 8) 6
  let t' : Int := if n ≤ 37 then t + 1 else if n ≥ 59 then t - 1 else t
  let x := s.br b
  let swap (v : Word) (s : State) : State :=
    s.setBr b { s.br b with pendN := Tbl.set (fun _ => none) (s.br b).pendN o (some v) }
  let s1 := if t' < -32 ∨ t' > 31 then
      (let s' := raiseEvent 0x4B0 (s.setRgBit (ra .age Age.NOTICE) 4 true)
       if x.trimLim.contains o then s'
       else faultRecord 0x13 (6 * b + o) 0 0 (s'.setBr b { s'.br b with trimLim := o :: x.trimLim }))
    else s
  let trim := wrap (clampI t' (-32) 31) 6
  if 32 ≤ n ∧ n ≤ 63 then swap (w32 (2 ^ 14 + trim * 256 + n)) s1
  else
    let s2 := (pwmFlag b 12 s1).setRgBit (pw b (Pwm.DLCAL o)) 15 true
    faultRecord 0x08 (6 * b + o) 1 n (if t' = t then s2 else swap (setFld (s2.rg (pw b (Pwm.DLCAL o))) 13 8 trim) s2)

/-! ### Commands -/

def execPwmEnable (m : Master) (b : Fin 12) (v : Word) (s : State) : Host.Outcome State Fault Refusal :=
  .next (settle (regAccess m (pw b Pwm.CFG) (pwmCfgWrite b v m.sec) s))
def execStagePeriodWrite (m : Master) (b : Fin 12) (v : Word) (s : State) : Host.Outcome State Fault Refusal :=
  .next (regAccess m (pw b Pwm.PERIOD) (stageItem b Pwm.PERIOD v m.sec) s)
/-- Offset of `EDGE_A`, `EDGE_B` or `EDGE_C`. -/
abbrev edgeReg (k : Nat) : Nat := Pwm.EDGE_A + 4 * k
def execStageEdgeWrite (m : Master) (b : Fin 12) (k : Fin 3) (v : Word) (s : State) :
    Host.Outcome State Fault Refusal :=
  .next (regAccess m (pw b (edgeReg k)) (stageItem b (edgeReg k) v m.sec) s)
def execPwmCommit (m : Master) (b : Fin 12) (s : State) : Host.Outcome State Fault Refusal :=
  .next (regAccess m (pw b Pwm.CTRL) (pwmCtrlWrite b 1 m.sec) s)
def execPeriodNow (m : Master) (b : Fin 12) (s : State) : Host.Outcome State Fault Refusal :=
  .next (regAccess m (pw b Pwm.CTRL) (pwmCtrlWrite b 2 m.sec) s)
def execForcesafe (m : Master) (b : Fin 12) (s : State) : Host.Outcome State Fault Refusal :=
  .next (regAccess m (pw b Pwm.CTRL) (pwmCtrlWrite b 8 m.sec) s)
def execClrsafe (m : Master) (b : Fin 12) (s : State) : Host.Outcome State Fault Refusal :=
  .next (regAccess m (pw b Pwm.CTRL) (pwmCtrlWrite b 4 m.sec) s)
def execForceWrite (m : Master) (b : Fin 12) (v : Word) (s : State) : Host.Outcome State Fault Refusal :=
  .next (regAccess m (pw b Pwm.FORCE) (forceWrite b v m.sec) s)
/-- `PERIOD_CUT_TICK`: only when a `PERIOD_NOW` has made this tick the cut tick (log entry 5). -/
def execPeriodCutTick (b : Fin 12) (s : State) : Host.Outcome State Fault Refusal :=
  .next (if (s.br b).cutDue then settle (cutTick b s) else s)
def execEdgeFire (b : Fin 12) (k : Fin 3) (off : Bool) (s : State) : Host.Outcome State Fault Refusal :=
  .next (settle (edgeFire b k off s))
def execDeadtimeExpiry (b : Fin 12) (o : Fin 6) (s : State) : Host.Outcome State Fault Refusal :=
  .next (settle (deadtimeExpiry b o s))
/-- `DLSTARVE_TIMEOUT`: only where an output has had no measurement window for 100 ms (log entry 5). -/
def execDlstarveTimeout (b : Fin 12) (s : State) : Host.Outcome State Fault Refusal :=
  .next (delayStarve b s)

/-- `SAMPLE_INSTANT`: only at the bridge's instant (log entry 5). -/
def execSampleInstant (b : Fin 12) (s : State) : Host.Outcome State Fault Refusal :=
  .next (if instantDue s b then sampleAxis b s else s)
/-- `PERIOD_BOUNDARY`: only when the carrier has reached one (log entry 5). -/
def execPeriodBoundary (b : Fin 12) (s : State) : Host.Outcome State Fault Refusal :=
  .next (if (s.br b).boundaryDue then periodBoundary b s else s)
def execBundleArrival (i : Nat) (s : State) : Host.Outcome State Fault Refusal := .next (bundleArrival i s)
/-- `DELAYLINE_MEASURE`: only at its interval and after a window without an edge (log entry 5). -/
def execDelaylineMeasure (b : Fin 12) (o : Fin 6) (n : Fin 65) (s : State) : Host.Outcome State Fault Refusal :=
  .next (if measureDue s b o then delayMeasure b o n s else s)
def execReq3Write (m : Master) (n : Fin 256) (v : Word) (s : State) : Host.Outcome State Fault Refusal :=
  .next (regAccess m (ra .sadl (Sadl.CTX_REQ3 n)) (req3Write m n v) s)
/-- `BALANCE_CHECK`: every 10 ms (log entry 5). -/
def execBalanceCheck (s : State) : Host.Outcome State Fault Refusal :=
  .next (if balanceDue s then balanceCheck s else s)
/-- `MIGRATION_COPY`: when the copy step may begin (log entry 5). -/
def execMigrationCopy (n : Fin 256) (s : State) : Host.Outcome State Fault Refusal :=
  .next (if copyReady s n then startCopy n s else s)
def execCopyAck (n : Fin 256) (ok : Bool) (s : State) : Host.Outcome State Fault Refusal := .next (copyAck n ok s)
def execShadowCompare (n : Fin 256) (s : State) : Host.Outcome State Fault Refusal := .next (shadowCompare n s)
/-- `SERVICE_MIGRATION`: of a context without a period (log entry 5). -/
def execServiceMigration (n : Fin 256) (written : Bool) (s : State) : Host.Outcome State Fault Refusal :=
  .next (if noPeriod s n then serviceMigration n written s else s)
def execPairCompare (n : Fin 128) (s : State) : Host.Outcome State Fault Refusal := .next (pairCompare n s)
def execCommitDeadline (n : Fin 128) (s : State) : Host.Outcome State Fault Refusal := .next (commitDeadline n s)
def execSetpointWrite (n : Fin 256) (s : State) : Host.Outcome State Fault Refusal := .next (writeSetpoint n s)
def execSpDueFire (key : Fin 512) (s : State) : Host.Outcome State Fault Refusal := .next (spDueFire key s)

end Sys2Proof.Machine
end

