-- ==== Sys2Proof/Machine/Queue.lean ====
section
/-! DEFINITION. The hardware queues with their notifications (R297–R304, R397) and the Saddler's placing of them. -/

namespace Sys2Proof.Machine

/-! ### Automatic placement (R247, R299) -/

/-- Bytes `o` to `o + n` of an island memory hold no installed program and not the program table (R233, R247). -/
def islandRoom (s : State) (o n : Nat) : Bool :=
  o + n ≤ 0x3F800 && s.axis.progs.all (fun e => match e.2 with
    | some p => !overlaps o n p.dst p.len
    | none => true)
/-- `n` bytes find room in an island memory: at its start, or behind a program. -/
def islandFits (s : State) (n : Nat) : Bool :=
  islandRoom s 0 n || s.axis.progs.any (fun e => match e.2 with
    | some p => islandRoom s ((p.dst + p.len + 255) / 256 * 256) n
    | none => false)

/-- The levels that R247 allows the Saddler for a queue, and the island where that is level 1 for a pinned context.
DESIGN CHOICE (log entry 33): a queue that notifies no context may lie at any level. -/
def autoLevels (s : State) (q : Nat) : List Nat × Option Nat :=
  let w := qw s q 0
  if fld w 25 24 ≠ 1 then ([1, 2, 3], none)
  else
    let n := fld w 23 16
    match pinOf s n false with
    | some k => if islandFits s (qBytes s q) then ([1], some (k / 64)) else ([2], none)
    | none => (if latClass (reqClass s n) = 2 then (if qBytes s q ≤ 4096 then [2] else [3]) else [2], none)

/-- The Saddler may place the queue at address `a` in level `l` (R247). -/
def autoFits (s : State) (q a l : Nat) : Bool :=
  (autoLevels s q).1.contains l
    && (l ≠ 1 || (islandRoom s (a % 0x40000) (qBytes s q) && match (autoLevels s q).2 with
      | some i => regionOf s a = .isl i
      | none => true))

/-- The Saddler places an automatic queue at `base` (in units of 256 bytes), or finds no room (R247, R299). -/
def autoPlaced (q : Nat) (base : Option Word) (was : State) : State :=
  let r := queueOpen midSadl q was
  let s := r.2
  let w := qw s q 0
  if !(r.1 && tb w 31 && tb w 29 && !tb w 26) then s
  else
    let level := match base with
      | some b => qLevel s (b.toNat * 256) (qBytes s q)
      | none => none
    match base, level with
    | some b, some l =>
      if autoFits s q (b.toNat * 256) l then qSet q 0 (setBit (setFld w 28 27 l) 26 true) (qSet q 1 b s)
      else qmFlag 8 (qFail q s)
    | _, _ => qmFlag 8 (qFail q s)

/-! ### Notifications (R303, R304, R397) -/

/-- The notify FIFO of target `t`. -/
def notifyFifo (s : State) (t : Nat) : List Nat := Tbl.get (fun _ => []) s.ports.notify t
/-- Replaces a notify FIFO. -/
def setNotify (t : Nat) (l : List Nat) (s : State) : State :=
  { s with ports.notify := Tbl.set (fun _ => []) s.ports.notify t l }

/-- `QUEUE` in every bank bound to the queue's context, or in none (R124, R303); a non-secure queue does not reach a
secure context, and that drop is counted (R397). -/
def notifyContext (q : Nat) (s : State) : State :=
  let n := fld (qw s q 0) 23 16
  if !qWorld s q && (boundBanks s n).any (fun k => (s.bank k).world) then dropEvent s else wakeCtx n 3 s

/-- The check of an interrupt notification: a threshold reached and no notification pending. -/
def notifyCheck (q : Nat) (s : State) : State :=
  let w := qw s q 0
  if qCount s q < max 1 (fld w 7 0) ∨ tb (qw s q 3) 14 then s
  else
    let t := if tb w 30 then 0 else fld w 18 16
    if !tb w 30 && t = 0 then dropEvent s
    else if t > 4 then s
    else
      let f := notifyFifo s t
      if f.length ≥ 64 then qmFlag t s
      else qSet q 3 (setBit (qw s q 3) 14 true) (setNotify t (f ++ [q]) s)

/-- `WR` advances by `n` (R300, R303). -/
def qProduce (q n : Nat) (s : State) : State :=
  let was := qCount s q
  let s1 := qIndices q (qRd s q) (qWr s q + n) s
  match fld (qw s q 0) 25 24 with
  | 1 => if was = 0 then notifyContext q s1 else s1
  | 2 => notifyCheck q s1
  | _ => s1

/-- `RD` advances by `n` (R300, R303). -/
def qConsume (q n : Nat) (s : State) : State :=
  let s1 := qIndices q (qRd s q + n) (qWr s q) (forgetTries q s)
  match fld (qw s q 0) 25 24 with
  | 1 => if qCount s1 q > 0 then notifyContext q s1 else s1
  | 2 => notifyCheck q (qSet q 3 (setBit (qw s1 q 3) 14 false) s1)
  | _ => qSet q 3 (setBit (qw s1 q 3) 14 false) s1

/-- Counts a dropped element (R302). -/
def qDrop (q : Nat) (s : State) : State :=
  let d := fld (qw s q 3) 31 16
  if d = 65535 then s else qSet q 3 (setFld (qw s q 3) 31 16 (d + 1)) s

/-- A hardware producer delivers an element for a partner's or the port's own world (R301, R302, R397): whether
it was taken.  A control block that the producer may not reach is that of a disabled queue (log entry 69). -/
def pushElem (mid : Fin 32) (q : Nat) (world : Bool) (bytes : List Byte) (was : State) : Bool × State :=
  let r := queueOpen mid q was
  let s := r.2
  if !r.1 then (false, s)
  else if !qEn s q || !qReady s q || qWorld s q != world || bytes.length > 2 ^ qEsz s q || qCount s q ≥ 2 ^ qDepth s q then
    (false, qDrop q s)
  else
    match agentWrite mid (qWorld s q) (qElem s q (qWr s q)) bytes s with
    | (true, s1) => (true, qProduce q 1 s1)
    | (false, s1) => (false, qDrop q s1)

/-! ### `PROD`, `CONS` and `NPOP` (R300, R304) -/

/-- `QM.ERR` records the first error as `MBX.ERR` does (R300); a further one sets `MORE`, which a record leaves as it is. -/
def qmError (m : Master) (q code : Nat) (s : State) : Resp × State :=
  let a := ra .qm Qm.ERR
  (.err, if tb (s.rg a) 31 then s.setRgBit a 30 true
    else s.setRg a (setBit (w32 (2 ^ 31 + q * 2 ^ 16 + m.sub.val * 2 ^ 9 + m.mid.val * 16 + code)) 30 (tb (s.rg a) 30)))

/-- A write of `QM.PROD` (`cons` false) or `QM.CONS` (R300).  A control block that the queue manager may not reach is that
of a disabled queue (log entry 69). -/
def qmWrite (m : Master) (cons : Bool) (v : Word) (was : State) : Resp × State :=
  let q := fld v 12 0
  let n := fld v 27 16
  let r := queueOpen midQm q was
  let s := r.2
  if n = 0 then (.ok 0, was)
  else if qWorld was q && !m.sec then qmError m q 3 was
  else if !r.1 then qmError m q 1 s
  else if !qEn s q || !qReady s q then qmError m q 1 s
  else if cons then (if n ≤ qCount s q then (.ok 0, qConsume q n s) else qmError m q 2 s)
  else if qCount s q + n ≤ 2 ^ qDepth s q then (.ok 0, qProduce q n s)
  else qmError m q 2 s

/-- A read of `QM.NPOP_t` (R304): a debug read peeks (R9). -/
def npopRead (m : Master) (t : Nat) (s : State) : Resp × State :=
  match notifyFifo s t with
  | [] => (.ok 0, s)
  | q :: rest => (.ok (w32 (2 ^ 31 + q)), if m.mid = 24 then s else setNotify t rest s)

/-! ### Commands -/

/-- `QUEUE_ENABLE`: a write of word 0 of a control block. -/
def execQueueEnable (m : Master) (q : Fin 8192) (v : Word) (s : State) : Host.Outcome State Fault Refusal :=
  let (bad, s1) := worldCheck m.mid m.sub m.sec (qAddr q 0) true s
  if m.reserved then .next { s with resp := .err }
  else if bad then .next { s1 with resp := .world }
  else
    let (ok, s2) := qctlWrite m.sec q 0 v s1
    .next { s2 with resp := if ok then .ok 0 else .err }
def execQueueAutoPlaced (q : Fin 8192) (base : Option Word) (s : State) : Host.Outcome State Fault Refusal :=
  .next (autoPlaced q base s)
def execQmProd (m : Master) (v : Word) (s : State) : Host.Outcome State Fault Refusal :=
  .next (regAccess m (ra .qm Qm.PROD) (qmWrite m false v) s)
def execQmCons (m : Master) (v : Word) (s : State) : Host.Outcome State Fault Refusal :=
  .next (regAccess m (ra .qm Qm.CONS) (qmWrite m true v) s)
def execNpop (m : Master) (t : Fin 5) (s : State) : Host.Outcome State Fault Refusal :=
  .next (regAccess m (ra .qm (Qm.NPOP t)) (npopRead m t) s)

end Sys2Proof.Machine
end

