-- ==== Sys2Proof/Machine/Intc.lean ====
section
/-! DEFINITION. The levels of the fixed interrupt sources (R156, R193, R228, R263–R293, R304, R333, R364, R388,
R445, R468, R487) and the interrupt controllers (R126, R127, R398). -/

namespace Sys2Proof.Machine

/-- Some index below `n` satisfies a condition. -/
def anyBelow (n : Nat) (p : Nat → Bool) : Bool := (List.range n).any p
/-- A flag register has a flag whose enable bit is set, among bits `hi … lo`. -/
def flagOn (f e : Word) (hi lo : Nat) : Bool := fld (f &&& e) hi lo ≠ 0

/-- The level of fixed source `src` at controller `t`. -/
def sourceLevel (s : State) (t src : Nat) : Bool :=
  let r (b : Blk) (o : Nat) : Word := s.rg (ra b o)
  match src with
  | 40 => anyBelow 24 (fun i => tb (r .cmp (Cmp.STAT i)) 0)
  | 41 => anyBelow 24 (fun i => tb (r .cmp (Cmp.STAT i)) 1)
  | 42 => fld (r .cmp Cmp.TRIPSTAT) 3 0 ≠ 0
  | 43 => anyBelow 4 (fun w => tb (r .cmp Cmp.WAKESTAT) w && tb (r .cmp (Cmp.WAKE w)) 16)
  | 44 => r .conv Conv.NOTICE ≠ 0
  | 45 => anyBelow 12 (fun b => tb (s.rg (ri .pwm b Pwm.STAT)) 31)
  | 46 => anyBelow 12 (fun b => flagOn (s.rg (ri .pwm b Pwm.STAT)) (s.rg (ri .pwm b Pwm.IEN)) 15 2)
  | 47 => anyBelow 12 (fun f => flagOn (s.rg (ri .fb f Fb.STAT)) (s.rg (ri .fb f Fb.IEN)) 7 2)
  | 48 => anyBelow 8 (fun p => flagOn (s.rg (ri .senc p Senc.STAT)) (s.rg (ri .senc p Senc.IEN)) 5 0)
  | 49 => flagOn (r .awl Awl.STAT) (r .awl Awl.IEN) 1 0
      || anyBelow 8 (fun k => flagOn (r .awl (Awl.TRK_STAT k)) (r .awl Awl.IEN >>> 8) 4 0)
  | 50 => r .sadl Sadl.NOTICE &&& r .sadl Sadl.IEN ≠ 0
  | 51 => anyBelow 128 (fun a => flagOn (r .sadl (Sadl.AX_AXST a)) (r .sadl (Sadl.AX_AXIEN a)) 6 0)
  | 52 => anyBelow 16 (fun l => flagOn (s.rg (ri .teth l Teth.STAT)) (s.rg (ri .teth l Teth.IEN)) 7 0)
  | 53 => anyBelow 16 (fun l => anyBelow 8 (fun a => tb (s.rg (ri .teth l (Teth.AX_AXSTAT a))) 31))
  | 54 => !(notifyFifo s t).isEmpty
  | 55 => anyBelow 4 (fun g => flagOn (s.rg (ri .girth g Girth.STAT)) (s.rg (ri .girth g Girth.IEN)) 5 0)
  | 56 => anyBelow 2 (fun p => flagOn (s.rg (ri .eth p Eth.STAT)) (s.rg (ri .eth p Eth.IEN)) 7 0)
  | 57 => flagOn (r .qm Qm.STAT) (r .qm Qm.IEN) 9 8 || flagOn (r .qm Qm.STAT) (r .qm Qm.IEN) 4 0
  | 58 => dmaGstat s ≠ 0
  | 59 => flagOn (r .memc Memc.STAT) (r .memc Memc.IEN) 1 0
  | 60 => flagOn (r .flc Flc.STAT) (r .flc Flc.IEN) 5 0
  | 61 => flagOn (r .thm Thm.STAT) (r .thm Thm.IEN) 4 0
  | 62 => (tb (r .pmu Pmu.REQSTAT) 30 && tb (r .pmu Pmu.IEN) 0)
      || fld (r .pmu Pmu.WAKESTAT &&& (r .pmu Pmu.IEN >>> 1)) 7 0 ≠ 0
      || (tb (r .pmu Pmu.CLKSTAT) 8 && tb (r .pmu Pmu.IEN) 9)
  | 63 => anyBelow 6 (fun n => fld (r .pmu (Pmu.WDG_STAT n)) 3 0 ≠ 0)
  | 64 => flagOn (r .age Age.NOTICE) (r .age Age.IEN) 4 0
  | 65 => flagOn (r .stc Stc.NOTICE) (r .stc Stc.IEN) 3 0
  | 66 => fld (r .stc Stc.FLW) 15 0 ≠ fld (r .stc Stc.FLR) 15 0
  | 67 => tb (r .dbg (Dbg.VT_IN t)) 31 && tb (r .dbg Dbg.VTIEN) t
  | _ => false

/-- The last sample of a source at a controller. -/
abbrev lastSample (s : State) (t src : Nat) : Bool := Tbl.get (fun _ => false) s.time.samples (t * 512 + src)

/-- The controller has sampled the source in its present cycle (R127). -/
def sampledNow (s : State) (t src : Nat) : Bool :=
  Tbl.get (fun _ => 0) s.time.sampledAt (t * 512 + src) = intcCycle s t + 1

/-- A controller samples the level of a source, once per cycle of its clock: a rising edge sets its pending bit
(R126, R127). -/
def sampleLevel (t src : Nat) (now : Bool) (s : State) : State :=
  if sampledNow s t src then s
  else
    let s0 := { s with time.sampledAt := Tbl.set (fun _ => 0) s.time.sampledAt (t * 512 + src) (intcCycle s t + 1) }
    if now = lastSample s t src then s0
    else
      let s1 := { s0 with time.samples := Tbl.set (fun _ => false) s.time.samples (t * 512 + src) now }
      if now then edgePend t src s1 else s1
/-- A controller samples a source. -/
def sampleSource (t src : Nat) (s : State) : State := sampleLevel t src (sourceLevel s t src) s

/-- The sources that have levels. -/
def fixedSources : List Nat := (List.range 28).map (· + 40)
/-- Every controller samples a fixed source; 54 and 67 have a level of their own at each controller. -/
def sampleFixed (n : Nat) (s : State) : State :=
  if n = 54 || n = 67 then (List.range 5).foldl (fun s t => sampleSource t n s) s
  else
    let now := sourceLevel s 0 n
    (List.range 5).foldl (fun s t => sampleLevel t n now s) s
/-- Every controller samples every fixed source. -/
def sampleAll (s : State) : State := fixedSources.foldl (fun s n => sampleFixed n s) s

/-- The access touches a source that this master may not name: a secure one of an `NS` controller from the
non-secure world. -/
def intcHidden (s : State) (m : Master) (t src : Nat) : Bool := t ≠ 0 && !m.sec && intcSecure s t src

/-- A write of a source's number to `CLAIM`; an edge sampled in the same controller cycle leaves the bit set
(R127). -/
def intcClaim (m : Master) (t : Nat) (v : Word) (s : State) : Resp × State :=
  let n := fld v 8 0
  if v.toNat > 511 || n = 0 || intcHidden s m t n then (.ok 0, s)
  else (.ok 0, if edgeNow s t n then s else s.setRgBit (ri .intc t (Intc.PEND (n / 32))) (n % 32) false)
/-- A write to `COMPLETE`: a level source is sampled again (R127). -/
def intcComplete (m : Master) (t : Nat) (v : Word) (s : State) : Resp × State :=
  let n := fld v 8 0
  if v.toNat > 511 || n = 0 || intcHidden s m t n then (.ok 0, s)
  else (.ok 0, if sourceLevel s t n then setPend t n s else s)
/-- A write to `SET` (R126). -/
def intcSet (m : Master) (t : Nat) (v : Word) (s : State) : Resp × State :=
  let n := fld v 8 0
  if v.toNat > 511 || intcHidden s m t n then (.ok 0, s) else (.ok 0, setPend t n s)

/-- The bits of word `k` that a master may see and write. -/
def intcMask (s : State) (m : Master) (t k : Nat) : Word :=
  if t = 0 || m.sec then 0xFFFFFFFF else ~~~ (s.rg (ri .intc t (Intc.SEC k)))

/-- A write of any `INTC` register. -/
def intcWrite (m : Master) (t o : Nat) (v : Word) (s : State) : Resp × State :=
  if o = Intc.CLAIM then intcClaim m t v s
  else if o = Intc.COMPLETE then intcComplete m t v s
  else if o = Intc.SET then intcSet m t v s
  else if 0x40 ≤ o ∧ o < 0x80 then
    let a := ri .intc t o
    let mask := intcMask s m t ((o - 0x40) / 4)
    (.ok 0, s.setRg a ((s.rg a &&& ~~~ mask) ||| (v &&& mask)))
  else (.ok 0, plainWrite .intc t o v m.sec s)

/-- The registers of a controller as a master reads them. -/
def intcLive (s : State) (m : Master) (t o : Nat) : Option Word :=
  let pe (k : Nat) : Word := s.rg (ri .intc t (Intc.PEND k)) &&& s.rg (ri .intc t (Intc.EN k)) &&& intcMask s m t k
  if o < 0xC0 then some (s.rg (ri .intc t o) &&& intcMask s m t (o % 0x40 / 4))
  else if o < 0x100 then
    some (w32 (((List.range 32).filter (fun b => fixedSources.contains ((o - 0xC0) * 8 + b))).foldl (fun a b => a + 2 ^ b) 0)
      &&& intcMask s m t ((o - 0xC0) / 4))
  else if o = Intc.SUMMARY then
    some (w32 (((List.range 16).filter (fun k => pe k ≠ 0)).foldl (fun a k => a + 2 ^ k) 0))
  else none

/-- The controller presents a source to its core (R126, R398): pending, enabled, and not a secure one to a
non-secure core. -/
def intcPresents (s : State) (t : Nat) : Bool :=
  anyBelow 16 (fun k =>
    let hide := if t = 0 || tb (s.el (31 + t)).world 0 then 0 else s.rg (ri .intc t (Intc.SEC k))
    s.rg (ri .intc t (Intc.PEND k)) &&& s.rg (ri .intc t (Intc.EN k)) &&& ~~~ hide ≠ 0)

def execInterruptSourceEdge (t : Fin 5) (n : Fin 512) (s : State) : Host.Outcome State Fault Refusal :=
  .next (sampleSource t n s)
def execIntcSet (m : Master) (t : Fin 5) (v : Word) (s : State) : Host.Outcome State Fault Refusal :=
  .next (regAccess m (ri .intc t Intc.SET) (intcSet m t v) s)
def execClaim (m : Master) (t : Fin 5) (v : Word) (s : State) : Host.Outcome State Fault Refusal :=
  .next (regAccess m (ri .intc t Intc.CLAIM) (intcClaim m t v) s)
def execComplete (m : Master) (t : Fin 5) (v : Word) (s : State) : Host.Outcome State Fault Refusal :=
  .next (regAccess m (ri .intc t Intc.COMPLETE) (intcComplete m t v) s)

end Sys2Proof.Machine
end

