-- ==== Sys2Proof/Machine/Ether.lean ====
section
/-! DEFINITION. The cabinet network (R317–R330): link changes, steering of received frames, injection of
setpoints, transmission with its gates, and the management access. -/

namespace Sys2Proof.Machine

/-- Register of port `p`. -/
abbrev er (p o : Nat) : Nat := ri .eth p o
/-- Sets a `STAT` flag of a port. -/
def ethFlag (p i : Nat) (s : State) : State := s.setRgBit (er p Eth.STAT) i true
/-- The port is enabled. -/
abbrev ethEn (s : State) (p : Nat) : Bool := tb (s.rg (er p Eth.CFG)) 31

/-- The number that big-endian bytes spell, as in Ethernet and IP headers. -/
def ofBE (bs : List Byte) : Nat := bs.foldl (fun n b => n * 256 + b.toNat) 0
/-- Big-endian bytes of a number. -/
def toBE (n x : Nat) : List Byte := (toBytes n x).reverse
/-- `n` bytes of a frame from offset `o`. -/
def sub_ (f : List Byte) (o n : Nat) : List Byte := (f.drop o).take n
/-- The port's MAC address; bits 47:40 are the first byte on the line (log entry 18). -/
def ethMac (s : State) (p : Nat) : Nat := fld (s.rg (er p Eth.MAC_HI)) 15 0 * 2 ^ 32 + (s.rg (er p Eth.MAC_LO)).toNat
/-- A partner's MAC address. -/
def ptMac (s : State) (c : Nat) : Nat := fld (pw_ s c 2) 15 0 * 2 ^ 32 + (pw_ s c 1).toNat

/-- The check sequence of a frame (R317), its first byte on the line first: IEEE 802.3's CRC-32, which the spec names
(PRESUMED, log entry 71). -/
def ethFcs (f : List Byte) : List Byte :=
  let bit (c : Nat) : Nat := if c.testBit 0 then (c / 2) ^^^ 0xEDB88320 else c / 2
  toBytes 4 (f.foldl (fun c b => (List.range 8).foldl (fun c _ => bit c) (c ^^^ b.toNat)) 0xFFFFFFFF ^^^ 0xFFFFFFFF)

/-! ### Link and time (R317, R320) -/

/-- `LINK` changes. -/
def ethLink (p : Nat) (up : Bool) (s : State) : State :=
  if tb (s.rg (er p Eth.STAT)) 31 = up then s
  else raiseEvent (0x428 + p) (ethFlag p 0 (s.setRgBit (er p Eth.STAT) 31 up))

/-- Negotiation ends (R317): in 1000BASE-X `full` says that the partner advertises full duplex, in SGMII that
the control word says 1 Gb/s full duplex. -/
def ethNegotiated (p : Nat) (up full rfault : Bool) (s : State) : State :=
  let c := s.rg (er p Eth.CFG)
  if !tb c 31 then s
  else
    let s1 := s.setRgBit (er p Eth.STAT) 30 rfault
    if tb c 30 then
      (if up && !full then ethLink p false (ethFlag p 6 s1) else ethLink p up s1)
    else if !tb c 29 then ethLink p true s1
    else ethLink p (up && full) s1

/-- A write of `CFG` (R334): while `EN` = 1 only one that clears `EN` acts. -/
def ethCfgWrite (p : Nat) (v : Word) (sec : Bool) (s : State) : Resp × State :=
  let was := tb (s.rg (er p Eth.CFG)) 31
  if was && tb v 31 then (.ok 0, s)
  else
    let s1 := plainWrite .eth p Eth.CFG v sec s
    if was then (.ok 0, ethLink p false (s1.setEth p { s1.eth p with tx := none }))
    else if tb v 31 && !tb v 30 && !tb v 29 then (.ok 0, ethLink p true s1)
    else (.ok 0, s1)

/-- A write of `GTCTL` (R320): the three values take effect at the next tick. -/
def gtctlWrite (p : Nat) (v : Word) (s : State) : Resp × State :=
  if !tb v 0 then (.ok 0, s)
  else
    let dw (lo hi : Nat) : DWord := w64 ((s.rg (er p hi)).toNat * 2 ^ 32 + (s.rg (er p lo)).toNat)
    let m : TimeMap :=
      { gt := dw Eth.GT_BASE_LO Eth.GT_BASE_HI, gs := dw Eth.GS_BASE_LO Eth.GS_BASE_HI, spn := s.rg (er p Eth.GSPN) }
    (.ok 0, s.setEth p { s.eth p with mapDue := some m })

/-- Network time to Selvedge (R320). -/
def toSelvedge (m : TimeMap) (g : DWord) : DWord :=
  m.gs + BitVec.ofInt 64 ((g - m.gt).toInt * m.spn.toNat / 2 ^ 32)

/-! ### Steering (R318, R319, R322–R324) -/

/-- A received frame taken apart: tagged with a VID, the EtherType, and where its payload begins. -/
structure EthParse where
  tag : Option Nat
  type : Nat
  off : Nat
  deep : Bool

/-- Reads the header of a frame (R318): `deep` says that it carries an S-tag or two tags. -/
def ethParse (f : List Byte) : EthParse :=
  let t := ofBE (sub_ f 12 2)
  if t = 0x8100 then
    let u := ofBE (sub_ f 16 2)
    { tag := some (ofBE (sub_ f 14 2) % 4096), type := u, off := 18, deep := u = 0x8100 || u = 0x88A8 }
  else { tag := none, type := t, off := 14, deep := t = 0x88A8 }

/-- The one's complement sum of 16-bit big-endian words, carries folded in. -/
def onesSum (bs : List Byte) : Nat :=
  let pad := if bs.length % 2 = 1 then bs ++ [0] else bs
  let x := (List.range (pad.length / 2)).foldl (fun n i => n + ofBE (sub_ pad (2 * i) 2)) 0
  (x % 65536 + x / 65536 + (x % 65536 + x / 65536) / 65536) % 65536

/-- A frame is pushed whole as a receive element (R322, R328); `kind` is word 0's [18:17].  One that finds no room is
dropped and counted (R322, R334). -/
def ethPush (p q kind : Nat) (world : Bool) (x : EthParse) (f : List Byte) (ts : DWord) (s : State) : State :=
  let hdr := toBytes 4 (f.length + b2n x.tag.isSome * 65536 + kind * 131072) ++ toBytes 8 ts.toNat ++ toBytes 4 0
  let (ok, s1) := pushElem (midEth p) q world (hdr ++ f) s
  if ok then s1 else bump .eth p Eth.RXDROP_CNT (ethFlag p 3 s1)

/-- The default, gPTP and cabinet queues of a port take the queue's own world. -/
def ethPushOwn (p q kind : Nat) (x : EthParse) (f : List Byte) (ts : DWord) (s : State) : State :=
  ethPush p q kind (qWorld s q) x f ts s

/-- A dropped frame: bad address or checksum (R322). -/
def ethDrop (p : Nat) (s : State) : State := bump .eth p Eth.RXDROP_CNT (ethFlag p 4 s)

/-- The tests of R324 on a cabinet frame: `body` begins with the cabinet header; `udp` gives the IPv4 source and
UDP source port. -/
def cabinetOk (s : State) (p c : Nat) (f : List Byte) (x : EthParse) (udp : Option (Nat × Nat)) (body : List Byte) : Bool :=
  let kind := ofBE (sub_ body 1 1)
  let count := ofBytes (sub_ body 8 2)
  let vtag := tb (pw_ s c 2) 31
  let d := (ofBytes (sub_ body 4 4) + 2 ^ 32 - (pw_ s c 5).toNat) % 2 ^ 32
  ptValid s c && (ptKind s c = 1 || ptKind s c = 2) && ptPort s c = p
    && ofBE (sub_ f 6 6) = ptMac s c
    && (match udp with
        | some (ip, port) => ip = (pw_ s c 3).toNat && port = fld (pw_ s c 4) 31 16
        | none => true)
    && (match x.tag with
        | some v => if vtag then v = fld (pw_ s c 2) 27 16 else v = 0
        | none => !vtag)
    && ofBE (sub_ body 0 1) = 1
    && (if kind = 1 then 1 ≤ count && count ≤ 46 && 16 + 32 * count ≤ body.length && tb (s.rg (er p Eth.CFG)) 27
        else kind = 2 && 16 + count ≤ body.length)
    && 1 ≤ d && d < 2 ^ 31

/-- A frame for injection joins those that wait (R326): after every earlier one, and before one of `ETH_1` that
ended in the same tick when it came by `ETH_0` and that one has not begun. -/
def injQueue (x : InjFrame) (l : List InjFrame) : List InjFrame :=
  let later (y : InjFrame) : Bool := x.port = 0 && y.port = 1 && y.ended = x.ended && y.map.isNone
  l.filter (fun y => !later y) ++ [x] ++ l.filter later

/-- An accepted frame of channel `c` sets its `LASTSEQ` (R324). -/
def lastSeq (p c : Nat) (v : Word) (s : State) : State :=
  let r := ctlOpen (midEth p) (qWorld s (2 * c)) (ptabAddr c 0) 32 true s
  if r.1 then storeWord (ptabAddr c 5) v r.2 else r.2

/-- A cabinet frame (R323, R324).  An entry that the port may not reach is none (log entry 69). -/
def cabinetFrame (p : Nat) (f : List Byte) (x : EthParse) (udp : Option (Nat × Nat)) (body : List Byte) (ts : DWord)
    (was : State) : State :=
  let c := ofBytes (sub_ body 2 2) % 4096
  let r := if body.length < 4 then (false, was) else partnerOpen (midEth p) (2 * c) c was
  let s := r.2
  if !r.1 then ptMiss p c s
  else if body.length < 16 || !cabinetOk s p c f x udp body then
    (if ptValid s c then countEntry (midEth p) (2 * c) c 7 s else ptMiss p c s)
  else
    let s1 := countEntry (midEth p) (2 * c) c 6 (lastSeq p c (w32 (ofBytes (sub_ body 4 4))) s)
    if ofBE (sub_ body 1 1) = 2 then ethPush p (2 * c) (b2n udp.isSome) (ptWorld s c) x f ts s1
    else
      let n := ofBytes (sub_ body 8 2)
      let fr : InjFrame := { port := p, ended := s.time.selvedge, chan := c, word0 := pw_ s c 0, word4 := pw_ s c 4,
                             tbase := (sub_ body 10 1).any (fun b => b.getLsbD 0), map := none,
                             records := (List.range n).map (fun i => sub_ body (16 + 32 * i) 32) }
      { s1 with ports.inject := injQueue fr s1.ports.inject }

/-- The IPv4 and UDP tests of R322: none when the frame is no cabinet frame by them; else whether its checksums
hold, its source address and port, and its UDP payload. -/
def udpCabinet (s : State) (p : Nat) (f : List Byte) (x : EthParse) : Option (Bool × Nat × Nat × List Byte) :=
  let ip := f.drop x.off
  let total := ofBE (sub_ ip 2 2)
  let dg := (ip.take total).drop 20
  let ulen := ofBE (sub_ dg 4 2)
  if x.type = 0x0800 && tb (s.rg (er p Eth.CFG)) 28 && ofBE (sub_ ip 16 4) = (s.rg (er p Eth.IPADDR)).toNat
      && ofBE (sub_ ip 0 1) = 0x45 && ofBE (sub_ ip 6 2) % 2 ^ 14 = 0 && ofBE (sub_ ip 9 1) = 17
      && ofBE (sub_ dg 2 2) = fld (s.rg (er p Eth.CABPORT)) 15 0 then
    let ipOk := onesSum (sub_ ip 0 20) = 65535
    let pseudo := sub_ ip 12 8 ++ toBE 2 17 ++ toBE 2 ulen
    let udpOk := ofBE (sub_ dg 6 2) = 0 || onesSum (pseudo ++ dg.take ulen) = 65535
    some (ipOk && udpOk, ofBE (sub_ ip 12 4), ofBE (sub_ dg 0 2), (dg.take ulen).drop 8)
  else none

/-- A frame has been received (R317–R319, R322): its bytes with the FCS at their end, whether the line gave them without a
code group in error, and how many ticks ago the first bit of its destination address crossed the ball.  A frame with
such an error has a bad FCS (log entry 65). -/
def ethReceive (p : Nat) (bytes : List Byte) (clean : Bool) (age : Nat) (s : State) : State :=
  if !ethEn s p || !tb (s.rg (er p Eth.STAT)) 31 then s
  else
    let n := bytes.length
    let f := bytes.take (n - 4)
    let x := ethParse f
    if !clean || bytes.drop (n - 4) ≠ ethFcs f then bump .eth p Eth.FCSERR_CNT (ethFlag p 2 s)
    else if n < 64 ∨ n > (if x.tag.isSome then 1522 else 1518) then bump .eth p Eth.RXDROP_CNT (ethFlag p 5 s)
    else if x.type = 0x8808 then s
    else
      let dst := ofBE (sub_ f 0 6)
      let ours := dst = ethMac s p || dst = 0xFFFFFFFFFFFF || dst = 0x0180C200000E
        || (tb (s.rg (er p Eth.CFG)) 26 && dst / 2 ^ 40 % 2 = 1)
      if !ours then ethDrop p s
      else
        let ts := s.time.selvedge - w64 age + BitVec.ofInt 64 (sext (fld (s.rg (er p Eth.TSADJ)) 15 0) 16)
        let q (o : Nat) : Nat := fld (s.rg (er p o)) 12 0
        let s1 := bump .eth p Eth.RXFRM s
        if x.deep then ethPushOwn p (q Eth.DEFQ) 3 x f ts s1
        else if x.type = 0x88F7 && x.tag.isNone then
          raiseEvent (0x42A + p) (ethPushOwn p (q Eth.PTPQ) 2 x f ts (ethFlag p 1 s1))
        else if x.type = fld (s.rg (er p Eth.CABTYPE)) 15 0 then cabinetFrame p f x none (f.drop x.off) ts s1
        else match udpCabinet s p f x with
          | some (true, ip, port, body) => cabinetFrame p f x (some (ip, port)) body ts s1
          | some (false, _) => ethDrop p s1
          | none => ethPushOwn p (q Eth.DEFQ) 3 x f ts s1

/-! ### Setpoint injection (R325, R326) -/

/-- A record is refused. -/
def injRefuse (fr : InjFrame) (ctx code : Nat) (s : State) : State :=
  let s1 := bump .qm 0 Qm.INJREF_CNT s
  let s2 := s1.setRg (ra .qm Qm.INJLAST) (w32 (code * 2 ^ 24 + ctx * 2 ^ 16 + fr.port * 2 ^ 12 + fr.chan))
  raiseEvent 0x42C (qmFlag 9 s2)

/-- The queue manager takes the next record (R326). -/
def injRecord (s : State) : State :=
  match s.ports.inject with
  | [] => s
  | fr :: rest =>
    match fr.records with
    | [] => { s with ports.inject := rest }
    | r :: rs =>
      let map := match fr.map with | some m => m | none => (s.eth fr.port).map
      let left := if rs.isEmpty then rest else { fr with map := some map, records := rs } :: rest
      let s1 := { s with ports.inject := left }
      let ctx := ofBytes (sub_ r 0 1)
      let w (o : Nat) : Word := w32 (ofBytes (sub_ r o 4))
      let due := w64 (ofBytes (sub_ r 16 8))
      let t := if fr.tbase then toSelvedge map due else due
      let dist := (t - s.time.selvedge).toInt
      if !(tb fr.word0 15 && fld fr.word4 7 0 ≤ ctx && ctx ≤ fld fr.word4 15 8) then injRefuse fr ctx 4 s1
      else if dist.natAbs ≥ 2 ^ 31 then injRefuse fr ctx 5 s1
      else
        let sp : Setpoint := { pos := w 4, vel := w 8, torque := w 12, due := w32 t.toNat, seq := w 24 }
        let (code, s2) := offerSetpoint (tb fr.word0 30) ctx sp s1
        if code = 0 then bump .qm 0 Qm.INJ_CNT s2 else injRefuse fr ctx code s2

/-! ### Gates (R321) -/

/-- The operational gate list: gate states and interval. -/
def operList (s : State) (p : Nat) : List (Nat × Nat) :=
  (List.range (s.rg (er p Eth.QBV_OLEN)).toNat).map (fun k =>
    let e := s.rg (er p (Eth.QBV_OPER k))
    (fld e 31 24, max 1 (fld e 23 0)))

/-- The cycle as pieces that fill it: cut at its end, or its last gates kept (R321). -/
def gatePieces : List (Nat × Nat) → Nat → List (Nat × Nat)
  | [], _ => []
  | [(g, _)], left => if left = 0 then [] else [(g, left)]
  | (g, n) :: t, left => if left = 0 then [] else if n ≥ left then [(g, left)] else (g, n) :: gatePieces t (left - n)

/-- The pieces from position `pos` on. -/
def gateFrom : List (Nat × Nat) → Nat → List (Nat × Nat)
  | [], _ => []
  | (g, n) :: t, pos => if pos < n then (g, n - pos) :: t else gateFrom t (pos - n)

/-- Ticks for which class `c` stays open from the first piece on; none when it never closes. -/
def openFor (c : Nat) : List (Nat × Nat) → Option Nat
  | [] => none
  | (g, n) :: t => if g.testBit c then (openFor c t).map (· + n) else some 0

/-- Ticks until the gate of class `c` next closes: 0 when it is closed, none when it does not close (R321). -/
def gateWindow (s : State) (p c : Nat) : Option Nat :=
  if !tb (s.rg (er p Eth.QBV_CTL)) 31 then none
  else
    let cyc := (s.rg (er p Eth.QBV_OCYCLE)).toNat
    let pieces := gatePieces (operList s p) cyc
    if cyc = 0 ∨ pieces.isEmpty then none
    else openFor c (gateFrom pieces ((s.time.selvedge - (s.eth p).operStart).toNat % cyc) ++ pieces)

/-- A write of `QBV_CTL` (R321). -/
def qbvWrite (p : Nat) (v : Word) (sec : Bool) (s : State) : Resp × State :=
  let s1 := plainWrite .eth p Eth.QBV_CTL v sec s
  if !tb v 0 then (.ok 0, s1)
  else
    let base := (s.rg (er p Eth.QBV_BASE_HI)).toNat * 2 ^ 32 + (s.rg (er p Eth.QBV_BASE_LO)).toNat
    let cyc := (s.rg (er p Eth.QBV_CYCLE)).toNat
    let now := s.time.selvedge.toNat
    let at_ := if now ≤ base ∨ cyc = 0 then base else base + (now - base + cyc - 1) / cyc * cyc
    (.ok 0, (s1.setRgBit (er p Eth.QBV_CTL) 30 true).setEth p { s1.eth p with switchAt := some (w64 at_) })

/-- The switch time of the admin list has come. -/
def qbvDue (s : State) (p : Nat) : Bool :=
  match (s.eth p).switchAt with
  | some t => reached 64 s.time.selvedge.toNat t.toNat
  | none => false

/-- The admin list becomes operational (R321). -/
def qbvSwitch (p : Nat) (s : State) : State :=
  let n := min 1024 (max 1 (fld (s.rg (er p Eth.QBV_LEN)) 10 0))
  let s1 := (List.range n).foldl (fun s k => s.setRg (er p (Eth.QBV_OPER k)) (s.rg (er p (Eth.QBV_ADMIN k)))) s
  let s2 := (s1.setRg (er p Eth.QBV_OLEN) (w32 n)).setRg (er p Eth.QBV_OCYCLE) (s1.rg (er p Eth.QBV_CYCLE))
  let x := s2.eth p
  (s2.setRgBit (er p Eth.QBV_CTL) 30 false).setEth p
    { x with switchAt := none, operStart := match x.switchAt with | some t => t | none => s.time.selvedge }

/-! ### Transmission (R328, R329) -/

/-- The queues of class `c` of a port. -/
def classQueues (s : State) (p c : Nat) : List Nat :=
  let named := s.mem.filterMap (fun e =>
    let o := e.1 - 0x28200000
    if 0x28200000 ≤ e.1 && e.1 < 0x28220000 && o % 16 = 3 then
      (let w := qw s (o / 16) 0
       if fld w 25 24 = 3 && fld w 16 16 = p && fld w 22 20 = c then some (o / 16) else none)
    else none)
  let own := if c = 7 then [fld (s.rg (er p Eth.PTPTXQ)) 12 0] else if c = 0 then [fld (s.rg (er p Eth.SWTXQ)) 12 0] else []
  named ++ own.filter (fun q => !named.contains q)

/-- The queues that have a head element, in round-robin order after the last one served. -/
def classTurn (s : State) (p c : Nat) : List Nat :=
  let last := Tbl.get (fun _ => 0) (s.eth p).rr c
  let l := ((classQueues s p c).filter (fun q => qEn s q && qReady s q && qCount s q > 0)).mergeSort (· ≤ ·)
  l.filter (fun q => last < q) ++ l.filter (fun q => q ≤ last)

/-- The head element of a queue. -/
abbrev headElem (s : State) (q : Nat) : Nat := qElem s q (qRd s q)

/-- An IPv4 and UDP header before a payload (R328). -/
def udpHeaders (src dst sport dport ident : Nat) (payload : List Byte) : List Byte :=
  let u := toBE 2 sport ++ toBE 2 dport ++ toBE 2 (8 + payload.length) ++ [0, 0]
  let h (ck : Nat) : List Byte := [0x45, 0] ++ toBE 2 (28 + payload.length) ++ toBE 2 ident ++ toBE 2 0x4000 ++ [64, 17]
    ++ toBE 2 ck ++ toBE 4 src ++ toBE 4 dst
  h (65535 - onesSum (h 0)) ++ u ++ payload

/-- A transmit queue of a partner of the other world (R397). -/
def txMismatch (s : State) (q : Nat) : Bool := q % 2 = 1 && ptValid s (q / 2) && ptWorld s (q / 2) != qWorld s q

/-- A frame that a port sends: a MAC Control frame never is (R317). -/
def sendable (f : List Byte) (id : Bool) : Option (List Byte × Bool) := if (ethParse f).type = 0x8808 then none else some (f, id)

/-- The frame of a head element, and whether it takes an identification; none when the element is to be
discarded (R317, R328, R397). -/
def elemFrame (s : State) (p q : Nat) : Option (List Byte × Bool) :=
  let a := headElem s q
  let w0 := s.word a
  let len := fld w0 15 0
  let data := s.bytes (a + 16) len
  if 16 + len > 2 ^ qEsz s q || txMismatch s q then none
  else if tb w0 16 then
    let c := q / 2
    let ip := (pw_ s c 3).toNat
    if q % 2 = 0 || !ptValid s c || !(ptKind s c = 1 || ptKind s c = 2) then none
    else
      let tag := if tb (pw_ s c 2) 31 then
          toBE 2 0x8100 ++ toBE 2 (fld (pw_ s c 2) 30 28 * 8192 + fld (pw_ s c 2) 27 16) else []
      let rest := if ip ≠ 0 then
          toBE 2 0x0800 ++ udpHeaders (s.rg (er p Eth.IPADDR)).toNat ip (fld (s.rg (er p Eth.CABPORT)) 15 0)
            (fld (pw_ s c 4) 31 16) (s.eth p).ident data
        else toBE 2 (fld (s.rg (er p Eth.CABTYPE)) 15 0) ++ data
      let f := toBE 6 (ptMac s c) ++ toBE 6 (ethMac s p) ++ tag ++ rest
      if f.length + 4 > 1518 + tag.length then none else sendable f (ip ≠ 0)
  else
    let tagged := ofBE (sub_ data 12 2) = 0x8100
    if len + 4 > (if tagged then 1522 else 1518) then none else sendable data false

/-- Ticks that a frame takes on the line with its preamble, FCS, padding and the 12 bytes of gap, rounded up (8 ns
a byte). -/
def frameTicks (n : Nat) : Nat := ((8 + max 60 n + 4 + 12) * 64 + 9) / 10

/-- The head element is eligible (R329). -/
def elemEligible (s : State) (p c q : Nat) : Bool :=
  let a := headElem s q
  let launched := !tb (s.word a) 18 || reached 64 s.time.selvedge.toNat (s.num (a + 4) 8)
  let n := match elemFrame s p q with | some (f, _) => f.length | none => 0
  launched && match gateWindow s p c with
    | none => true
    | some w => w > 0 && frameTicks n ≤ w

/-- A port writes into an element of queue `q`, under the queue's world (R391). -/
def elemPut (p q a : Nat) (bs : List Byte) (s : State) : State := (agentWrite (midEth p) (qWorld s q) a bs s).2

/-- A port consumes the head of a queue, unless it may not reach the control block (R11, R25, log entry 69). -/
def portConsume (p q : Nat) (s : State) : State :=
  let r := queueOpen (midEth p) q s
  if r.1 then qConsume q 1 r.2 else r.2

/-- The head element is discarded (R328, R329). -/
def elemDiscard (p q : Nat) (s : State) : State :=
  bump .eth p Eth.TXDROP (portConsume p q (elemPut p q (headElem s q + 12) (toBytes 4 (2 ^ 30)) s))

/-- The port reads the control block of a queue it serves, and for a built frame the partner's entry (R11, R25, log entry
69): whether it may reach them. -/
def elemReach (p q : Nat) (s : State) : Bool × State :=
  let r := queueOpen (midEth p) q s
  if r.1 && tb (r.2.word (headElem r.2 q)) 16 && q % 2 = 1 then partnerOpen (midEth p) q (q / 2) r.2 else r

/-- Ticks of a frame's bits (8 ns a byte), of the preamble before them (64 ns) and of the gap after them
(12 bytes). -/
def bitTicks (f : List Byte) : Nat := (f.length * 64 + 9) / 10
def preTicks : Nat := 51
def gapTicks : Nat := 77

/-- The queues that a port serves now, with their classes: the highest class first, round-robin in a class (R329). -/
def turns (s : State) (p : Nat) : List (Nat × Nat) :=
  (List.range 8).flatMap (fun i => (classTurn s p (7 - i)).map (fun q => (7 - i, q)))

/-- The port looks for an eligible head element, the highest class first (R329); it passes over a queue whose control
block or partner it may not reach (log entry 69). -/
def ethTransmit (p : Nat) (was : State) : State :=
  if !ethEn was p || (was.eth p).tx.isSome || !reached 64 was.time.selvedge.toNat (was.eth p).gap.toNat then was
  else if !tb (was.rg (er p Eth.STAT)) 31 then
    (turns was p).foldl (fun s x => elemDiscard p x.2 s) was
  else
    let s := (turns was p).foldl (fun s x => (elemReach p x.2 s).2) was
    match (turns s p).find? (fun x => (elemReach p x.2 s).1 && elemEligible s p x.1 x.2) with
    | none => s
    | some (c, q) =>
      let s1 := s.setEth p { s.eth p with rr := Tbl.set (fun _ => 0) (s.eth p).rr c q }
      match elemFrame s p q with
      | none => elemDiscard p q (if txMismatch s q then qDrop q s1 else s1)
      | some (f, id) =>
        let a := headElem s q
        match agentRead (midEth p) (qWorld s q) a (2 ^ qEsz s q) s1 with
        | (none, s2) => elemDiscard p q s2
        | (some _, s2) =>
          let pad := f ++ List.replicate (60 - f.length) 0
          let frame := pad ++ ethFcs pad
          let first := s.time.selvedge + w64 preTicks
          let late := tb (s.word a) 18 && newer 64 first.toNat ((s.num (a + 4) 8 + 1600) % 2 ^ 64)
          let s3 := if late then ethFlag p 7 s2 else s2
          s3.setEth p { s3.eth p with tx := some { queue := q, elem := a, started := first, frame := frame },
                                      ident := if id then ((s3.eth p).ident + 1) % 65536 else (s3.eth p).ident }

/-- The tick at which the last bit of a frame leaves. -/
def txEnd (t : EthTx) : DWord := t.started + w64 (bitTicks t.frame)

/-- The last bit of the frame in transmission has left (R317, R328, R329). -/
def ethTxDone (p : Nat) (s : State) : State :=
  match (s.eth p).tx with
  | none => s
  | some t =>
    if !reached 64 s.time.selvedge.toNat (txEnd t).toNat then s
    else
      let s1 := s.setEth p { s.eth p with tx := none, gap := txEnd t + w64 gapTicks }
      let ts := t.started + BitVec.ofInt 64 (sext (fld (s.rg (er p Eth.TSADJ)) 31 16) 16)
      let s2 := if tb (s.word t.elem) 17 then elemPut p t.queue (t.elem + 4) (toBytes 8 ts.toNat) s1 else s1
      bump .eth p Eth.TXFRM (portConsume p t.queue (elemPut p t.queue (t.elem + 12) (toBytes 4 (2 ^ 31)) s2))

/-! ### Management access (R334) -/

/-- A write of `MDIOCMD`: in `ETH_1` it is ignored. -/
def mdioWrite (p : Nat) (v : Word) (sec : Bool) (s : State) : Resp × State :=
  if p ≠ 0 then (.ok 0, s)
  else
    let s1 := plainWrite .eth 0 Eth.MDIOCMD v sec s
    let st := er 0 Eth.MDIOSTAT
    (.ok 0, if tb v 31 && !tb (s.rg st) 31 then (s1.setRgBit st 31 true).setEth 0 { s1.eth 0 with mdio := v } else s1)

/-- The access that was started completes. -/
def mdioDone (rdata : BitVec 16) (s : State) : State :=
  let st := er 0 Eth.MDIOSTAT
  if !tb (s.rg st) 31 then s
  else
    let s1 := (s.setRgBit st 31 false).setRgBit st 30 true
    if tb (s.eth 0).mdio 30 then s1 else s1.setRgFld st 15 0 rdata.toNat

/-- A write of any `ETH` register (R334). -/
def ethWrite (p o : Nat) (v : Word) (sec : Bool) (s : State) : Resp × State :=
  if o = Eth.CFG then ethCfgWrite p v sec s
  else if o = Eth.GTCTL then gtctlWrite p v s
  else if o = Eth.QBV_CTL then qbvWrite p v sec s
  else if o = Eth.MDIOCMD then mdioWrite p v sec s
  else if p = 1 && o = Eth.MDIOSTAT then (.ok 0, s)
  else if ethEn s p && (o = Eth.MAC_LO || o = Eth.MAC_HI || o = Eth.TSADJ) then (.ok 0, s)
  else (.ok 0, plainWrite .eth p o v sec s)

/-- What the ports do at a tick: the mapping of R320 takes effect. -/
def ethTick (p : Nat) (s : State) : State :=
  let s1 := match (s.eth p).mapDue with
    | some m => s.setEth p { s.eth p with map := m, mapDue := none }
    | none => s
  if qbvDue s1 p then qbvSwitch p s1 else s1

/-! ### Commands -/

def execEthLinkChange (p : Fin 2) (up full rfault : Bool) (s : State) : Host.Outcome State Fault Refusal :=
  .next (ethNegotiated p up full rfault s)
def execEthFrameReceived (p : Fin 2) (f : List (BitVec 8)) (fcs : Bool) (age : Nat) (s : State) :
    Host.Outcome State Fault Refusal :=
  .next (ethReceive p f fcs age s)
def execInjectionRecord (s : State) : Host.Outcome State Fault Refusal := .next (injRecord s)
def execEthTransmit (p : Fin 2) (s : State) : Host.Outcome State Fault Refusal := .next (ethTransmit p s)
def execEthTxDone (p : Fin 2) (s : State) : Host.Outcome State Fault Refusal := .next (ethTxDone p s)
def execGtctlApply (m : Master) (p : Fin 2) (v : Word) (s : State) : Host.Outcome State Fault Refusal :=
  .next (regAccess m (er p Eth.GTCTL) (gtctlWrite p v) s)
def execQbvApply (m : Master) (p : Fin 2) (v : Word) (s : State) : Host.Outcome State Fault Refusal :=
  .next (regAccess m (er p Eth.QBV_CTL) (qbvWrite p v m.sec) s)
/-- `QBV_SWITCH`: when the switch time has come (log entry 5). -/
def execQbvSwitch (p : Fin 2) (s : State) : Host.Outcome State Fault Refusal :=
  .next (if qbvDue s p then qbvSwitch p s else s)
def execMdioGo (m : Master) (v : Word) (s : State) : Host.Outcome State Fault Refusal :=
  .next (regAccess m (er 0 Eth.MDIOCMD) (mdioWrite 0 v m.sec) s)
def execMdioDone (rdata : BitVec 16) (s : State) : Host.Outcome State Fault Refusal := .next (mdioDone rdata s)

end Sys2Proof.Machine
end

