-- ==== Sys2Proof/Machine/Mailbox.lean ====
section
/-! DEFINITION. The mailboxes (R128–R131). -/

namespace Sys2Proof.Machine

/-- `MBX.BIND_n`. -/
def mbxBind (s : State) (n : Nat) : Word := s.rg (ra .mbx (Mbx.BIND n))
/-- `MBX_n.STATE.ST`: 0 IDLE, 1 FULL, 2 ACKED. -/
def mbxState (s : State) (n : Nat) : Nat := fld (s.rg (ra .mbx (Mbx.STATE n))) 1 0

/-- A master matches a binding's MID, sub-identity and `ANY` fields. -/
def mbxMatch (m : Master) (mid sub : Nat) (any : Bool) : Bool :=
  m.mid = mid && (!(8 ≤ mid && mid ≤ 15) || any || m.sub = sub)
/-- The master is the channel's bound sender. -/
def mbxIsSender (s : State) (m : Master) (n : Nat) : Bool :=
  let b := mbxBind s n
  mbxMatch m (fld b 4 0) (fld b 6 5) (tb b 7)
/-- The master is the channel's bound receiver. -/
def mbxIsReceiver (s : State) (m : Master) (n : Nat) : Bool :=
  let b := mbxBind s n
  mbxMatch m (fld b 12 8) (fld b 14 13) (tb b 15)

/-- Why a channel refuses a master whatever it does: 7 unbound, 4 world (R128, R130). -/
def mbxBarred (s : State) (m : Master) (n : Nat) : Option Nat :=
  if !tb (mbxBind s n) 31 then some 7
  else if !m.sec && tb (mbxBind s n) 30 then some 4
  else none

/-- Why a write of `MSG_k` is refused (R129, R130). -/
def mbxMsgRefusal (s : State) (m : Master) (n : Nat) : Option Nat :=
  match mbxBarred s m n with
  | some c => some c
  | none => if !mbxIsSender s m n then some 2 else if mbxState s n = 1 then some 3 else none

/-- Why a write of `SEND` is refused (R129, R130). -/
def mbxSendRefusal (s : State) (m : Master) (n len : Nat) : Option Nat :=
  match mbxMsgRefusal s m n with
  | some c => some c
  | none =>
    if len = 0 ∨ len > 8 then some 6
    else if midDown s (fld (mbxBind s n) 12 8) then some 1 else none

/-- Why a write of `ACK` is refused (R129, R130). -/
def mbxAckRefusal (s : State) (m : Master) (n : Nat) : Option Nat :=
  match mbxBarred s m n with
  | some c => some c
  | none => if !mbxIsReceiver s m n then some 2 else if mbxState s n ≠ 1 then some 5 else none

/-- Why an access that R129 allows to neither party alone is refused: both may read `MSG_k`, `STATE` and `ACK`, and
none may read `SEND` or write `STATE` (`forbidden`); that one answers with code 2 (R129, R130).  DESIGN CHOICE (log entry
67): so does a read of the channel's reserved offsets 0x2C to 0x3C by a master that is no party, or of an unbound channel,
which R8 would have read 0. -/
def mbxReadRefusal (s : State) (m : Master) (n : Nat) (forbidden : Bool) : Option Nat :=
  match mbxBarred s m n with
  | some c => some c
  | none => if (mbxIsSender s m n || mbxIsReceiver s m n) && !forbidden then none else some 2

/-- `MBX.ERR` records the first refused access; a further one sets `MORE`, which a record leaves as it is
(R130). -/
def mbxRecord (m : Master) (n code : Nat) (s : State) : State :=
  let a := ra .mbx Mbx.ERR
  if tb (s.rg a) 31 then s.setRgBit a 30 true
  else s.setRg a (setBit (w32 (2 ^ 31 + n * 2 ^ 16 + m.sub.val * 2 ^ 9 + m.mid.val * 16 + code)) 30 (tb (s.rg a) 30))

/-- An access refused with a code returns an error response and leaves the channel unchanged (R130). -/
def mbxRefuse (m : Master) (n code : Nat) (s : State) : Resp × State := (.err, mbxRecord m n code s)

/-- The sender writes a message word (R129). -/
def mbxMsgWrite (m : Master) (n k : Nat) (v : Word) (s : State) : Resp × State :=
  match mbxMsgRefusal s m n with
  | some c => mbxRefuse m n c s
  | none => (.ok 0, s.setRg (ra .mbx (Mbx.MSG n k)) v)

/-- A write of `SEND` moves the channel to FULL and raises source 0x240 + n (R129).  What `ACK` reads after
it is a free value: the manual keeps the last code only until then (log entry 6). -/
def mbxSend (m : Master) (n : Nat) (v : Word) (s : State) : Resp × State :=
  let len := fld v 3 0
  match mbxSendRefusal s m n len with
  | some c => mbxRefuse m n c s
  | none =>
    let (x, s1) := s.draw
    let s2 := { s1.setRg (ra .mbx (Mbx.STATE n)) (w32 (len * 16 + 1)) with
      time.sendSec := Tbl.set (fun _ => false) s1.time.sendSec n m.sec }
    (.ok 0, raiseEvent (0x240 + n) (s2.setRg (ra .mbx (Mbx.ACK n)) (w32 (x % 65536))))

/-- The receiver writes the return code: ACKED, and source 0x280 + n (R129). -/
def mbxAck (m : Master) (n : Nat) (v : Word) (s : State) : Resp × State :=
  match mbxAckRefusal s m n with
  | some c => mbxRefuse m n c s
  | none =>
    let s1 := s.setRg (ra .mbx (Mbx.ACK n)) (w32 (fld v 15 0))
    (.ok 0, raiseEvent (0x280 + n) (s1.setRgFld (ra .mbx (Mbx.STATE n)) 1 0 2))

/-- A read of a channel register (R129, R130); a refused debug read records nothing (R9). -/
def mbxRead (m : Master) (o : Nat) (s : State) : Resp × State :=
  let n := (o - 0x1000) / 0x40
  match mbxReadRefusal s m n (o % 0x40 = 0x20) with
  | some c => if m.mid = 24 then (.err, s) else mbxRefuse m n c s
  | none => (.ok (plainRead s .mbx 0 o), s)

/-- A write of any `MBX` register. -/
def mbxWrite (m : Master) (o : Nat) (v : Word) (s : State) : Resp × State :=
  if o < 0x1000 then (.ok 0, plainWrite .mbx 0 o v m.sec s)
  else
    let n := (o - 0x1000) / 0x40
    let r := o % 0x40
    if n ≥ 64 then (.ok 0, s)
    else if r < 0x20 then mbxMsgWrite m n (r / 4) v s
    else if r = 0x20 then mbxSend m n v s
    else if r = 0x28 then mbxAck m n v s
    else match mbxReadRefusal s m n (r = 0x24) with
      | some c => mbxRefuse m n c s
      | none => (.ok 0, s)

/-- A power domain comes up: the message event of every FULL channel bound to a receiver in it is raised
again (R131). -/
def mbxDomainUp (mid : Nat) (s : State) : State :=
  ((List.range 64).filter (fun n => tb (mbxBind s n) 31 && fld (mbxBind s n) 12 8 = mid && mbxState s n = 1)).foldl
    (fun s n => raiseEvent (0x240 + n) s) s

def execMbxMsgWrite (m : Master) (n : Fin 64) (k : Fin 8) (v : Word) (s : State) :
    Host.Outcome State Fault Refusal :=
  .next (regAccess m (ra .mbx (Mbx.MSG n k)) (mbxMsgWrite m n k v) s)
def execSend (m : Master) (n : Fin 64) (v : Word) (s : State) : Host.Outcome State Fault Refusal :=
  .next (regAccess m (ra .mbx (Mbx.SEND n)) (mbxSend m n v) s)
def execAck (m : Master) (n : Fin 64) (v : Word) (s : State) : Host.Outcome State Fault Refusal :=
  .next (regAccess m (ra .mbx (Mbx.ACK n)) (mbxAck m n v) s)
def execMbxLock (m : Master) (v : Word) (s : State) : Host.Outcome State Fault Refusal :=
  .next (regAccess m (ra .mbx Mbx.LOCK) (mbxWrite m Mbx.LOCK v) s)
def execMbxDomainUp (mid : Fin 32) (s : State) : Host.Outcome State Fault Refusal :=
  .next (mbxDomainUp mid s)

end Sys2Proof.Machine
end

