-- ==== Sys2Proof/Machine/Flash.lean ====
section
/-! DEFINITION. The calls of the Tilvan monitor (R374, R375, R414) and its flash routines (R376–R385). -/

namespace Sys2Proof.Machine

/-! ### Calls -/

/-- A call that the monitor serves: the caller's world, the mailbox channel of the call (none: a direct call from
`SV`), its arguments 1 to 5, and what the check bits of the memory it reads show. -/
structure Call where
  sec : Bool
  chan : Option Nat
  arg : List Word
  ecc : Ecc := .clean

/-- Argument `k` of a call. -/
def Call.a (c : Call) (k : Nat) : Word := c.arg.getD (k - 1) 0
/-- The physical address in arguments `k` (low word) and `k + 1` (bits 39:32) of a call. -/
def Call.addr (c : Call) (k : Nat) : Nat := (c.a k).toNat + fld (c.a (k + 1)) 7 0 * 2 ^ 32
/-- The monitor's accesses for a call carry the caller's world (R414). -/
def Call.master (c : Call) : Master := { mid := 0, sec := c.sec }

/-- General register `r` of `SV`. -/
def svReg (s : State) (r : Nat) : Word := Tbl.get (fun _ => 0) (s.el 36).setA.g r
/-- Sets a general register of `SV`. -/
def setSvReg (r : Nat) (v : Word) (s : State) : State :=
  let e := s.el 36
  s.setEl 36 { e with setA := { e.setA with g := Tbl.set (fun _ => 0) e.setA.g r v } }

/-- A direct call returns to `lr` (R414): `g1` holds the result, `sp` and `g16`–`g31` are preserved, and the other
general registers and the flags are free values. -/
def svReturn (code : Option Nat) (s : State) : State :=
  let back := svReg s 15
  let s1 := (List.range 15).foldl (fun s k =>
    if k = 0 ∨ k = 14 then s else let (x, s') := s.draw; setSvReg k (w32 x) s') s
  let (x, s2) := s1.draw
  let s3 := setSvReg 15 (w32 x) s2
  let (f, s4) := s3.draw
  let e := s4.el 36
  let s5 := s4.setEl 36 { e with setA := { e.setA with pc := back, status := setFld e.setA.status 3 0 f } }
  match code with
  | some c => { setSvReg 1 (w32 c) s5 with resp := .ok (w32 c) }
  | none => s5

/-- A call is answered: by the `ACK` code of its channel, or in `g1` (R374). -/
def answerCall (chan : Option Nat) (code : Nat) (s : State) : State :=
  match chan with
  | some n => (mbxAck { mid := 0, sec := true } n (w32 code) s).2
  | none => svReturn (some code) s

/-- The monitor is inside a call that has had no answer: it serves one call at a time (R414). -/
def monitorBusy (s : State) : Bool := (s.fop 0).kind = 1 || (s.fop 1).kind = 1

/-! ### Tables (R383–R385) -/

/-- A bad-block table lists the sector: `n` entries from `a`. -/
def bbtHas (s : State) (a n sector : Nat) : Bool :=
  (List.range n).any (fun i => let w := s.word (a + 4 * i); w ≠ 0xFFFFFFFF && fld w 8 0 = sector)
/-- The sector is bad from the factory, or in the field. -/
def factoryBad (s : State) (sector : Nat) : Bool := bbtHas s 0x08001000 16 sector
def fieldBad (s : State) (sector : Nat) : Bool := bbtHas s 0x08001040 64 sector
/-- Used entries of a table. -/
def bbtUsed (s : State) (a n : Nat) : Nat :=
  ((List.range n).filter (fun i => s.word (a + 4 * i) ≠ 0xFFFFFFFF)).length
/-- The first unused entry of the field table. -/
def bbtFree (s : State) : Option Nat := (List.range 64).find? (fun i => s.word (0x08001040 + 4 * i) = 0xFFFFFFFF)

/-- `FLC.BBTSTAT` follows the tables. -/
def bbtRefresh (s : State) : State :=
  let f := bbtUsed s 0x08001040 64
  s.setRg (ra .flc Flc.BBTSTAT) (w32 (b2n (f = 64) * 2 ^ 31 + f * 65536 + bbtUsed s 0x08001000 16))

/-- Adds a sector to the field table, if it has room (R379, R385). -/
def bbtAdd (reason sector : Nat) (s : State) : State :=
  match bbtFree s with
  | none => s
  | some i => bbtRefresh (storeWord (0x08001040 + 4 * i) (w32 (reason * 2 ^ 24 + sector)) s)

/-- `FLC.FLASH_STATUS` follows the list of torn sectors; `JRNLERR` stays. -/
def tornRefresh (s : State) : State :=
  let a := ra .flc Flc.FLASH_STATUS
  let first := match s.flash.torn.min? with | some x => x | none => 0
  s.setRg a (w32 (b2n (!s.flash.torn.isEmpty) * 2 ^ 31 + b2n (tb (s.rg a) 30) * 2 ^ 30 + s.flash.torn.length * 65536 + first))

/-- Adds a number to a list without repeats, kept rising. -/
def addSorted (x : Nat) : List Nat → List Nat
  | [] => [x]
  | y :: t => if x < y then x :: y :: t else if x = y then y :: t else y :: addSorted x t

/-! ### Checks (R375) -/

/-- The caller's world may not write the range (R375, R394): `a` up to `a + n`, by its 4 KiB pages. -/
def flRefuses (s : State) (sec : Bool) (a n : Nat) : Bool :=
  (List.range ((a + n - 1) / 0x1000 - a / 0x1000 + 1)).any (fun i => rgnRefuses s sec ((a / 0x1000 + i) * 0x1000) true)

/-- A range of 32-byte units within one sector of the array. -/
def flRangeOk (a n : Nat) : Bool :=
  a % 32 = 0 && n % 32 = 0 && 0x01000000 ≤ a && a < 0x02000000 && a % 0x8000 + n ≤ 0x8000

/-- Whether every unit of a range passes the blank check; a sector whose contents are not defined gives a free
answer (R377, R382). -/
def flBlank (a n : Nat) (s : State) : Bool × State :=
  if s.flash.undef.contains (flSector a) then
    let (x, s1) := s.draw
    (x % 2 = 0, s1)
  else ((s.bytes a n).all (fun b => b = 0xFF), s)

/-- `STAT.BUSY`, `STAT.SUSP` and `OP_k.OP` follow the operation of a bank. -/
def fopShow (k : Nat) (s : State) : State :=
  let kind := (s.fop k).kind
  let st := ra .flc Flc.STAT
  let s1 := (s.setRgBit st (16 + k) (kind = 1 || kind = 2)).setRgBit st (18 + k) (kind = 3)
  s1.setRgFld (ra .flc (Flc.OP k)) 31 30 kind

/-- An operation starts, goes on or ends in a bank. -/
def fopSet (k : Nat) (x : FlashOp) (s : State) : State := fopShow k (s.setFop k x)

/-- An operation in a bank has completed (R372, R388). -/
def fopDone (k : Nat) (s : State) : State :=
  let s1 := flInvBank k (fopSet k {} s)
  raiseEvent (0x490 + k) (s1.setRgBit (ra .flc Flc.STAT) k true)

/-! ### Routines (R376–R380) -/

/-- `TV_FL_PROGRAM` up to the start of the programming: the refusing code, or none while the programming runs. -/
def tvFlProgram (c : Call) (s : State) : Option Nat × State :=
  let a := (c.a 1).toNat
  let src := c.addr 2
  let n := (c.a 4).toNat
  let k := flBank a
  if !flRangeOk a n || n < 32 || 4096 < n then (some 2, s)
  else if flRefuses s c.sec a n then (some 3, s)
  else if factoryBad s (flSector a) || fieldBad s (flSector a) then (some 7, s)
  else if s.flash.torn.contains (flSector a) then (some 6, s)
  else if (s.fop k).kind ≠ 0 then (some 4, s)
  else match memRead c.master false c.ecc src n s with
    | (.error _, s1) => (some 0xC, s1)
    | (.ok bs, s1) =>
      let (blank, s2) := flBlank a n s1
      if !blank then (some 5, s2)
      else
        let s3 := fopSet k { kind := 1, sector := flSector a, began := s.time.selvedge, addr := a, data := bs, chan := c.chan } s2
        (none, s3.setRgFld (ra .flc (Flc.OP k)) 24 16 (flSector a))

/-- Bytes that a failed or interrupted unit holds: free values. -/
def flSpoil (a : Nat) (s : State) : State :=
  let (bs, s1) := drawBytes 32 s
  store a bs s1

/-- The programming of a bank may have ended (R377): pulses of 6 µs, one or more for each unit, with `pulses` for the
slowest and 32 for one that failed, have passed. -/
def programOver (s : State) (op : FlashOp) (fail : Option Nat) (pulses : Nat) : Bool :=
  let n := match fail with
    | some i => i + 32
    | none => op.data.length / 32 - 1 + pulses
  reached 64 s.time.selvedge.toNat (op.began + w64 (4800 * n)).toNat && (1 ≤ pulses || fail.isSome)

/-- The programming in bank `k` ends (R377): every unit, or the units before the failed one with that unit
undefined; `pulses` is the highest pulse count. -/
def flashProgramDone (k : Nat) (fail : Option Nat) (pulses : Nat) (s : State) : State :=
  let op := s.fop k
  if op.kind ≠ 1 || !programOver s op fail pulses then s
  else match fail with
    | none => answerCall op.chan (pulses * 256) (fopDone k (store op.addr op.data s))
    | some i =>
      if op.data.length ≤ 32 * i then s
      else
        let s1 := flSpoil (op.addr + 32 * i) (store op.addr (op.data.take (32 * i)) s)
        answerCall op.chan (i * 256 + 8) (fopDone k s1)

/-- The monitor writes a record into the copy of the erase journal in use (R383).  Where that copy has no more room, which
is a free value (log entry 20), the open records are carried over to the other copy, which takes the record, and the
first copy is erased. -/
def journalWrite (start : Bool) (x : Nat) (s : State) : State :=
  let (v, s1) := s.draw
  let f := s1.flash
  let opened := f.journal.map (fun y => (true, y))
  if v % 2 = 0 then { s1 with flash.copies := f.copies.set f.copy (f.copies.getD f.copy [] ++ [(start, x)]) }
  else { s1 with flash.copies := (f.copies.set (1 - f.copy) (opened ++ [(start, x)])).set f.copy [], flash.copy := 1 - f.copy }

/-- An erase of sector `x` starts: its record is open. -/
def journalOpen (x : Nat) (s : State) : State :=
  let s1 := journalWrite true x s
  { s1 with flash.journal := addSorted x s1.flash.journal }
/-- The erase of sector `x` has ended: its record is matched. -/
def journalClose (x : Nat) (s : State) : State :=
  let s1 := journalWrite false x s
  { s1 with flash.journal := s1.flash.journal.filter (· ≠ x) }

/-- `TV_FL_ERASE` (R379): the journal's start record, and the first pulse. -/
def tvFlErase (c : Call) (s : State) : Nat × State :=
  let x := (c.a 1).toNat
  let k := x / 256
  if 511 < x then (2, s)
  else if flRefuses s c.sec (flAddr x) 0x8000 then (3, s)
  else if factoryBad s x || fieldBad s x then (7, s)
  else if (s.fop k).kind ≠ 0 then (4, s)
  else
    let s0 := journalOpen x s
    let s1 := { s0 with flash.undef := addSorted x s0.flash.undef }
    let s2 := fopSet k { kind := 2, sector := x, began := s.time.selvedge, chan := c.chan } s1
    (1, (s2.setRgFld (ra .flc (Flc.OP k)) 24 16 x).setRgFld (ra .flc (Flc.OP k)) 15 0 0)

/-- The erase pulse in progress has lasted its 500 µs (R379). -/
def pulseOver (s : State) (op : FlashOp) : Bool := reached 64 s.time.selvedge.toNat (op.began + 400000).toNat

/-- An erase pulse completes and is followed by the erase-verify of the sector, which passes (`ok`) or not; 240
pulses that have not erased it end the erase (R379). -/
def erasePulseEnd (k : Nat) (ok : Bool) (s : State) : State :=
  let op := s.fop k
  if op.kind ≠ 2 || op.ends.isSome || !pulseOver s op then s
  else
    let n := op.pulses + 1
    let ends := if ok then some 0 else if 240 ≤ n then some 9 else none
    (s.setFop k { op with pulses := n, began := s.time.selvedge, ends := ends }).setRgFld (ra .flc (Flc.OP k)) 15 0 (min n 0xFFFF)

/-- The bytes of a sector are erased. -/
def flErased (x : Nat) (s : State) : State :=
  { s with mem := s.mem.filter (fun c => !(flAddr x ≤ c.1 && c.1 < flAddr (x + 1))) }

/-- An erase completes (R379, R382): with `OK` the sector is blank and no longer torn; with `ETIMEOUT` it enters
the field table, and its contents stay undefined. -/
def eraseDone (k : Nat) (s : State) : State :=
  let op := s.fop k
  match op.kind, op.ends with
  | 2, some code =>
    let x := op.sector
    let drop (l : List Nat) : List Nat := l.filter (· ≠ x)
    let s1 := if code = 0 then
        journalClose x (flErased x { s with flash.torn := drop s.flash.torn, flash.undef := drop s.flash.undef })
      else bbtAdd 2 x (if s.flash.torn.contains x then s else journalClose x s)
    fopDone k ((tornRefresh s1).setRgFld (ra .flc (Flc.OP k)) 29 26 code)
  | _, _ => s

/-- `TV_FL_SUSPEND` (R380): the pulse in progress is abandoned. -/
def tvFlSuspend (c : Call) (s : State) : Nat × State :=
  let k := (c.a 1).toNat
  if 1 < k then (2, s)
  else if (s.fop k).kind ≠ 2 then (0xB, s)
  else (0, fopSet k { s.fop k with kind := 3 } s)

/-- `TV_FL_RESUME` (R375, R380): its range is the sector of the suspended erase, and the abandoned pulse begins again. -/
def tvFlResume (c : Call) (s : State) : Nat × State :=
  let k := (c.a 1).toNat
  if 1 < k then (2, s)
  else if (s.fop k).kind ≠ 3 then (0xB, s)
  else if flRefuses s c.sec (flAddr (s.fop k).sector) 0x8000 then (3, s)
  else if factoryBad s (s.fop k).sector || fieldBad s (s.fop k).sector then (7, s)
  else (0, fopSet k { s.fop k with kind := 2, began := s.time.selvedge } s)

/-- `TV_FL_BLANK` (R375, R376). -/
def tvFlBlank (c : Call) (s : State) : Nat × State :=
  let a := (c.a 1).toNat
  let n := (c.a 2).toNat
  if !flRangeOk a n then (2, s)
  else if factoryBad s (flSector a) || fieldBad s (flSector a) then (7, s)
  else if flBusy s (flBank a) then (4, s)
  else
    let (blank, s1) := flBlank a n s
    (if blank then 0 else 5, s1)

/-- `TV_FL_INFO` (R376). -/
def tvFlInfo (c : Call) (s : State) : Nat × State :=
  let x := (c.a 1).toNat
  if 511 < x then (2, s)
  else
    let op := s.fop (x / 256)
    (b2n (factoryBad s x) * 2 ^ 8 + b2n (fieldBad s x) * 2 ^ 9 + b2n (s.flash.torn.contains x) * 2 ^ 10
      + b2n (2 ≤ op.kind && op.sector = x) * 2 ^ 11 + b2n (!flRefuses s c.sec (flAddr x) 0x8000) * 2 ^ 12, s)

/-- `TV_FL_MARKBAD` (R376). -/
def tvFlMarkbad (c : Call) (s : State) : Nat × State :=
  let x := (c.a 1).toNat
  if 511 < x then (2, s)
  else if flRefuses s c.sec (flAddr x) 0x8000 then (3, s)
  else if factoryBad s x || fieldBad s x then (7, s)
  else if (bbtFree s).isNone then (0xA, s)
  else (0, bbtAdd 3 x s)

/-! ### Direct calls from `SV` (R374) -/

/-- The call that `SV`'s registers spell: arguments in `g1`–`g5`, from the secure world. -/
def svCall (ecc : Ecc) (s : State) : Call :=
  { sec := true, chan := none, arg := (List.range 5).map (fun k => svReg s (k + 1)), ecc := ecc }

/-- The monitor is inside a call, or calls wait for it: a new one waits behind them (R414). -/
def callWaits (s : State) : Bool := monitorBusy s || !s.sec.calls.isEmpty
/-- A call joins those that wait. -/
def callQueue (c : MonCall) (s : State) : State := { s with sec.calls := s.sec.calls ++ [c] }

/-- A direct call of a routine that answers at once. -/
def svServe (no : Nat) (f : Call → State → Nat × State) (ecc : Ecc) (s : State) (ok : Bool := true) : State :=
  if callWaits s then callQueue { no := no, arg := (svCall ecc s).arg, ok := ok, ecc := ecc } s
  else
    let (code, s1) := f (svCall ecc s) s
    answerCall none code s1

/-- `TV_FL_PROGRAM` for a call: it answers when the programming ends, unless it is refused. -/
def programCall (c : Call) (s : State) : State :=
  match tvFlProgram c s with
  | (some code, s1) => answerCall c.chan code s1
  | (none, s1) => s1

def execTvFlProgram (ecc : Ecc) (s : State) : Host.Outcome State Fault Refusal :=
  .next (if callWaits s then callQueue { no := 1, arg := (svCall ecc s).arg, ecc := ecc } s else programCall (svCall ecc s) s)
def execTvFlErase (s : State) : Host.Outcome State Fault Refusal := .next (svServe 2 tvFlErase .clean s)
def execErasePulseEnd (k : Fin 2) (ok : Bool) (s : State) : Host.Outcome State Fault Refusal := .next (erasePulseEnd k ok s)
def execEraseDone (k : Fin 2) (s : State) : Host.Outcome State Fault Refusal := .next (eraseDone k s)
def execTvFlSuspend (s : State) : Host.Outcome State Fault Refusal := .next (svServe 3 tvFlSuspend .clean s)
def execTvFlResume (s : State) : Host.Outcome State Fault Refusal := .next (svServe 4 tvFlResume .clean s)
def execTvFlBlank (s : State) : Host.Outcome State Fault Refusal := .next (svServe 5 tvFlBlank .clean s)
def execTvFlInfo (s : State) : Host.Outcome State Fault Refusal := .next (svServe 6 tvFlInfo .clean s)
def execTvFlMarkbad (s : State) : Host.Outcome State Fault Refusal := .next (svServe 7 tvFlMarkbad .clean s)
def execFlashProgramDone (k : Fin 2) (fail : Option (Fin 128)) (pulses : Fin 33) (s : State) :
    Host.Outcome State Fault Refusal :=
  .next (flashProgramDone k (fail.map (fun i => i.val)) pulses s)

end Sys2Proof.Machine
end

