-- ==== Sys2Proof/Machine/RunCtl.lean ====
section
/-! DEFINITION. Run control and trace (R476–R481, R485, R486): the grants, halting an element at an instruction
boundary, the halt group, and the trace buffer. -/

namespace Sys2Proof.Machine

/-- The run-control number of an element (R476): `SV` 0, `AC_n` 1 + n, `REIN_e` 8 + e. -/
def rcNum (i : Nat) : Nat := if i < 32 then 8 + i else if i < 36 then i - 31 else 0
/-- The element with a run-control number. -/
def rcElem (n : Nat) : Option Nat :=
  if n = 0 then some 36 else if n < 5 then some (31 + n) else if 8 ≤ n ∧ n < 40 then some (n - 8) else none

/-- The grants held (R403, R417): bit 0 the non-secure world, bit 1 the secure world. -/
abbrev grantNs (s : State) : Bool := s.sec.grants.getLsbD 0
abbrev grantSec (s : State) : Bool := s.sec.grants.getLsbD 1

/-- The world that decides the grant for an element: secure or not (R476). -/
def elemSecure (s : State) (i : Nat) : Bool :=
  if i = 36 then true
  else if 32 ≤ i then tb (s.el i).world 0
  else (List.range 16).any (fun k => (s.bank (i * 16 + k)).ctx.isSome && (s.bank (i * 16 + k)).world)
/-- The debugger holds the grant for the element's world. -/
def granted (s : State) (i : Nat) : Bool := if elemSecure s i then grantSec s else grantNs s

/-- The register set that an element runs in. -/
def ElemState.set (e : ElemState) (k : Nat) : RegSet := match k with | 0 => e.setA | 1 => e.setB | _ => e.setC
/-- Replaces a register set. -/
def ElemState.putSet (e : ElemState) (k : Nat) (r : RegSet) : ElemState :=
  match k with | 0 => { e with setA := r } | 1 => { e with setB := r } | _ => { e with setC := r }
/-- The run of a set. -/
def ElemState.run (e : ElemState) (k : Nat) : Option Run := match k with | 0 => e.runA | 1 => e.runB | _ => e.runC
/-- Replaces the run of a set. -/
def ElemState.putRun (e : ElemState) (k : Nat) (r : Option Run) : ElemState :=
  match k with | 0 => { e with runA := r } | 1 => { e with runB := r } | _ => { e with runC := r }

/-- The time port of an element (R105). -/
def elemPort (i : Nat) : Nat := if i < 32 then i / 4 else if i < 36 then 8 else 9

/-- Counts a packet of the trace and writes it (R485, R486): `el` is the element's number, `sec` says that it
comes from a secure run or access. -/
def tracePacket (kind el port : Nat) (w2 w3 : Word) (time : Word) (sec : Bool) (s : State) : State :=
  let cfg := s.rg (ra .dbg Dbg.TRCFG)
  if !tb cfg 31 || (sec && !tb cfg 28 && !grantSec s) then s
  else
    let w1 := w32 (kind * 2 ^ 28 + el % 64 * 2 ^ 22 + port % 64 * 65536 + s.dbg.seq % 65536)
    let s1 := { s with dbg.seq := (s.dbg.seq + 1) % 65536 }
    let wr := fld (s.rg (ra .dbg Dbg.TRWR)) 11 0
    if !tb cfg 30 && (wr + 1) % 4096 = fld (s.rg (ra .dbg Dbg.TRRD)) 11 0 then bump .dbg 0 Dbg.TRDROP s1
    else ({ s1 with dbg.packets := Tbl.set (fun _ => []) s1.dbg.packets wr [time, w1, w2, w3] }).setRg
      (ra .dbg Dbg.TRWR) (w32 ((wr + 1) % 4096))

/-- What the element does is secure (R485): an engine's run, by its bank; a core by its world. -/
def tracedSecure (s : State) (i : Nat) : Bool :=
  let e := s.el i
  i = 36 || (tb e.world 0 && (32 ≤ i || (e.run e.cur).isSome))

/-- A packet of an element, stamped through its time port. -/
def traceElem (kind i port : Nat) (w2 w3 : Word) (s : State) : State :=
  if !tb (s.rg (ra .dbg Dbg.TRCFG)) 31 then s
  else
    let (t, s1) := timePort (elemPort i) s
    tracePacket kind (rcNum i) port w2 w3 (w32 t.toNat) (tracedSecure s i) s1

/-- A watchdog freezes while its element is halted, with `HALTP` = 1 and the grant for that world held (R443). -/
def wdgFreezeOne (i n : Nat) (s : State) : State :=
  if granted s i && tb (s.rg (ra .pmu (Pmu.WDG_CFG n))) 30 && tb (s.rg (ra .pmu (Pmu.WDG_CFG n))) 31 then
    (s.setWdg n { s.wdg n with frozen := true }).setRgBit (ra .pmu (Pmu.WDG_STAT n)) 30 true
  else s
/-- The watchdogs of an element that halts. -/
def wdgFreeze (i : Nat) (s : State) : State :=
  let ns := if i = 36 then [0, 5] else if 32 ≤ i then [i - 31] else []
  ns.foldl (fun s n => wdgFreezeOne i n s) s

/-- A watchdog frozen by a halt reloads, with its window open for the first service (R443). -/
def wdgThaw (i : Nat) (s : State) : State :=
  let ns := if i = 36 then [0, 5] else if 32 ≤ i then [i - 31] else []
  ns.foldl (fun s n =>
    if (s.wdg n).frozen then
      let t := max 1 (fld (s.rg (ra .pmu (Pmu.WDG_TIMEOUT n))) 23 0)
      ((s.setWdg n { s.wdg n with frozen := false, count := t, since := 0, closed := false, warned := false }).setRgBit
        (ra .pmu (Pmu.WDG_STAT n)) 30 false).setRg (ra .pmu (Pmu.WDG_CNT n)) (w32 t)
    else s) s

/-- A halt request waits for a boundary (R477): the first reason stays. -/
def wantHalt (i reason : Nat) (s : State) : State :=
  if s.dbg.want.any (fun w => w.1 = i) then s else { s with dbg.want := s.dbg.want ++ [(i, reason)] }

/-- The element halts, at an instruction boundary (R476–R478, R485). -/
def haltNow (i reason : Nat) (s : State) : State :=
  if (s.el i).halted then s
  else
    let e := s.el i
    let st := ra .dbg (Dbg.EL_STAT (rcNum i))
    let s1 := s.setEl i { e with halted := true, resv := none }
    let s2 := { s1 with dbg.want := s1.dbg.want.filter (fun w => w.1 ≠ i), dbg.steps := s1.dbg.steps.filter (· ≠ i) }
    let idle := i < 32 && (e.run e.cur).isNone
    let s3 := s2.setRg st (w32 (2 ^ 31 + b2n idle * 2 ^ 30 + reason * 16 + fld (s2.rg st) 3 2 * 4 + b2n (tb (s2.rg st) 1) * 2 + 1))
    let s4 := traceElem 4 i reason (e.set e.cur).pc 0 s3
    wdgFreeze i s4

/-- The element runs, or would at its next event: released and powered, an engine on an island that is neither under test nor
down, a core outside its BIST. -/
def elemRuns (s : State) (i : Nat) : Bool :=
  let e := s.el i
  e.released && !e.down && !e.halted && !(32 ≤ i && s.test.bist.contains (i - 32))
    && (32 ≤ i || islState s (islandOf i) ≤ 2)

/-- The other members of the halt group that run, with their grants, receive a halt request (R480). -/
def crossHalt (i : Nat) (s : State) : State :=
  let member (n : Nat) : Bool := tb (s.rg (ra .dbg (Dbg.EL_CTRL (rcNum n)))) 8
  if !member i then s
  else (List.range 37).foldl (fun s n =>
    if n ≠ i && member n && elemRuns s n then
      (if granted s n then wantHalt n 6 s else s.setRgBit (ra .dbg (Dbg.EL_STAT (rcNum n))) 1 true)
    else s) s

/-- The element halts, and its group with it. -/
def haltElem (i reason : Nat) (s : State) : State :=
  if (s.el i).halted then s else crossHalt i (haltNow i reason s)

/-- A `SETPT` of the element's run waits for its answer (R85). -/
def ElemState.stalled (e : ElemState) : Bool := match e.run e.cur with | some r => r.stall | none => false

/-- The element stands at a boundary where a halt is taken: not inside a `REP.U` run or a `SETPT`, and not before its
first instruction (R477). -/
def atBoundary (s : State) (i : Nat) : Bool :=
  let e := s.el i
  let st := (e.set e.cur).status
  e.released && !(tb st 13 && tb st 14) && !e.stalled

/-- Takes the waiting halts of elements that stand at a boundary; `n` bounds the rounds of the group. -/
def takeHalts : Nat → State → State
  | 0, s => s
  | n + 1, s =>
    match s.dbg.want.find? (fun w => atBoundary s w.1) with
    | some w => takeHalts n (haltElem w.1 w.2
        { s with dbg.want := s.dbg.want.filter (fun v => v.1 ≠ w.1) })
    | none => s

/-- A halt of an element by the debugger, a patch unit or `BRK`, with the check of R476. -/
def haltRequest (i reason : Nat) (s : State) : State :=
  if !granted s i then s.setRgBit (ra .dbg (Dbg.EL_STAT (rcNum i))) 1 true
  else takeHalts 38 (wantHalt i reason s)

/-- The halted element runs on (R479, R443). -/
def resumeElem (i : Nat) (s : State) : State :=
  let st := ra .dbg (Dbg.EL_STAT (rcNum i))
  if !(s.el i).halted then s
  else wdgThaw i ((s.setEl i { s.el i with halted := false }).setRg st (s.rg st &&& 3))

/-- `HALTRST` (R481): the element halts before its first instruction when the grant for its world is held. -/
def haltAtStart (i : Nat) (s : State) : State :=
  if tb (s.rg (ra .dbg (Dbg.EL_CTRL (rcNum i)))) 7 then
    (if granted s i then haltElem i 7 s else s.setRgBit (ra .dbg (Dbg.EL_STAT (rcNum i))) 1 true)
  else s

end Sys2Proof.Machine
end

