-- ==== Sys2Proof/Machine/Power.lean ====
section
/-! DEFINITION. Operating modes (R419–R427), resets (R428, R429), clocks and trims (R430–R433), BOOST and the
thermal rules (R434–R441), and the watchdogs (R442–R444). -/

namespace Sys2Proof.Machine

/-! ### Reset (R428, R429, R446) -/

/-- What a warm reset leaves of a register: the registers of the always-on domain but for the watchdogs and
`BOOST`, and the fields of `DBG` that R481 names. -/
def warmKeeps (a : Nat) (v : Word) : Option Word :=
  let inPmu := 0x60010000 ≤ a && a < 0x60020000
  let o := a - 0x60010000
  if inPmu then (if o = Pmu.BOOST ∨ (0x100 ≤ o ∧ o < 0x1C0) then none else some v)
  else if a = ra .tb Tb.FRAC ∨ a = ra .tb Tb.SLOWCAL then some v
  else if ra .cmp (Cmp.WAKE 0) ≤ a ∧ a ≤ ra .cmp Cmp.WAKESTAT then some v
  else if a = ra .age Age.POWERED then some v
  else if a = ra .age Age.CNTSTAT then some (v &&& 0x87FF0000)
  else if ra .age 0x100 ≤ a ∧ a < ra .age 0x260 ∧ (a % 0x20 = 8 ∨ a % 0x20 = 0x10) then some v
  else if ra .dbg 0x1000 ≤ a ∧ a < ra .dbg 0x1500 ∧ a % 0x20 = 0 then some (v &&& 0x1C0)
  else none

/-- The register file after a warm reset. -/
def warmRegs (t : Tbl Word) : Tbl Word :=
  t.foldl (fun u e => match warmKeeps e.1 e.2 with
    | some v => Tbl.set regReset u e.1 v
    | none => u) []

/-- A program that a reset or a loss of power interrupts (R378): a free number of units is programmed, and the
unit in progress is undefined. -/
def flashCut (k : Nat) (s : State) : State :=
  let op := s.fop k
  if op.kind ≠ 1 then s
  else
    let (x, s1) := s.draw
    let i := x % (op.data.length / 32)
    flSpoil (op.addr + 32 * i) (store op.addr (op.data.take (32 * i)) s1)

/-- What a reset leaves of the flash (R378, R381): an erase that was running or suspended stays in the journal. -/
def flashReset (s : State) : FlashSt := { torn := s.flash.torn, undef := s.flash.undef, journal := s.flash.journal,
                                          copies := s.flash.copies, copy := s.flash.copy }

/-- The lifecycle that `LC` gives (R403). -/
def otpLc (s : State) : Nat := popc 3 (s.word 0x08008000).toNat
/-- The grants of a lifecycle without a certificate (R403). -/
def lcGrants (lc : Nat) : BitVec 2 := match lc with | 0 => 3 | 1 => 1 | 2 => 0 | _ => 3

/-- Memory kept through a loss of power: the flash, the information area and the OTP. -/
def nonVolatile (a : Nat) : Bool := (0x01000000 ≤ a && a < 0x02000000) || (0x08000000 ≤ a && a < 0x08010000)

/-- A register file that only holds `RSTCAUSE` after a cold reset. -/
def coldState (straps : BitVec 2) (s0 : State) : State :=
  let s := flashCut 1 (flashCut 0 s0)
  let s1 : State := {
    pending := s.pending, resp := s.resp, free := s.free,
    mem := s.mem.filter (fun c => nonVolatile c.1), flash := flashReset s, time := { slowPer := s.time.slowPer } }
  { s1 with sec := { straps := straps, lc := otpLc s1, grants := lcGrants (otpLc s1) } }.setRg (ra .boot Boot.STRAP)
    (w32 straps.toNat)

/-- The causes of a reset are recorded (R429): `LAST` takes the highest of `bits` and of `least`, the number that a
source of the same tick has left there. -/
def resetCause (bits : List Nat) (least : Nat) (s : State) : State :=
  let a := ra .pmu Pmu.RSTCAUSE
  let s1 := bits.foldl (fun s b => s.setRgBit a b true) s
  s1.setRgFld a 31 28 (bits.foldl max least)

/-- A reset that ends a sleep restores Selvedge at a slow edge (R109); which edge that is, is a free value. -/
def resetWakes (s : State) : State :=
  if s.time.run then s
  else
    let (x, s1) := s.draw
    selvedgeRestore (1 + x) s1

/-- A warm reset (R428): every domain but the always-on one, with Selvedge kept. -/
def warmReset (bits : List Nat) (straps : BitVec 2) (s0 : State) : State :=
  let s := resetWakes (flashCut 1 (flashCut 0 s0))
  let old := opMode s
  let busy := s.power.entry.isSome
  let s1 : State := {
    pending := s.pending, resp := s.resp, free := s.free, regs := warmRegs s.regs,
    mem := s.mem, poison := s.poison, flash := flashReset s,
    time := { selvedge := s.time.selvedge, run := s.time.run, slow := s.time.slow, s0 := s.time.s0, a0 := s.time.a0,
              slowPer := s.time.slowPer, slowRes := s.time.slowRes, measOn := false },
    feed := { fbs := s.feed.fbs.foldl (fun t e => Tbl.set (fun _ => {}) t e.1 { pins := e.2.pins }) [] },
    power := {
      alarm := s.power.alarm, armed := s.power.armed, memcCopy := s.power.memcCopy, ddrKept := s.power.ddrKept,
      held := s.power.held, rails := s.power.rails, budgetAt := s.time.selvedge, tempAt := s.power.tempAt,
      resetAt := if old = 1 then s.time.s0 else s.time.selvedge },
    dbg := { ir := s.dbg.ir, cells := s.dbg.cells, accStat := s.dbg.accStat, accData := s.dbg.accData,
             bypass := s.dbg.bypass, shifted := s.dbg.shifted },
    ballScan := s.ballScan,
    test := { second := s.test.second, marginAt := s.time.selvedge, projAt := s.time.selvedge, selectAt := s.time.selvedge },
    sec := { slot := s.sec.slot, straps := straps, lc := otpLc s, grants := lcGrants (otpLc s) } }
  let least := if s.power.resetAt = s.time.selvedge then fld (s.rg (ra .pmu Pmu.RSTCAUSE)) 31 28 else 0
  let s2 := resetCause bits least (s1.setRg (ra .boot Boot.STRAP) (w32 straps.toNat))
  let s3 := if busy then reqDone 4 s2 else s2
  let m := ra .pmu Pmu.MODE
  let s4 := ((s3.setRgFld m 6 4 old).setRgFld m 2 0 3).setRgBit m 31 false
  haltAtStart 36 (s4.setRgBit (ra .pmu Pmu.SHCAUSE) 31 false)

/-- The chip is in a mode in which its fast domains run, and no reset is held. -/
def powered (s : State) : Bool := 3 ≤ opMode s && !inReset s

/-- The level of `nRESET_OUT` (R428): low through HIBERNATE and through a reset, for 100 µs at least. -/
def nresetOut (s : State) : Bool := 2 ≤ opMode s && !inReset s && reached 64 s.time.selvedge.toNat (s.power.resetAt + 80000).toNat

/-- A warm reset by a source other than `nRESET`, which leaves the straps as they were latched. -/
def resetBy (bits : List Nat) (s : State) : State := if opMode s = 0 then s else warmReset bits s.sec.straps s

/-! ### SAFE_HOLD, BOOST and requests (R419–R427, R434–R438) -/

/-- BOOST falls back to RUN (R438). -/
def boostFallback (code : Nat) (s : State) : State :=
  if opMode s = 5 then setMode 4 (boostEnd code s) else s

/-- Reading of sensor `n` in 1/16 °C, when it is valid. -/
def sensor (s : State) (n : Nat) : Option Int :=
  let w := s.rg (ra .thm (Thm.TEMP n))
  if tb w 31 then some (sext w.toNat 16) else none
/-- The valid readings. -/
def validTemps (s : State) : List Int := (List.range 12).filterMap (sensor s)

/-- `THM.CFG.BMAX`; 0 acts as 1. -/
def thmBmax (s : State) : Nat := max 1 (fld (s.rg (ra .thm Thm.CFG)) 31 16)
/-- B of R435. -/
def thmB (s : State) : Nat := fld (s.rg (ra .thm Thm.BUDGET)) 15 0

/-- The wear ledger allows BOOST (R437, R453). -/
def ledgerAllows (s : State) : Bool := [8, 9, 10].all (fun u => !tb (s.rg (ra .age (Age.U_PLAN u))) 4)

/-- The conditions of R437. -/
def boostConds (s : State) : Bool :=
  thmBmax s ≤ 4 * thmB s && (validTemps s).all (fun t => t < 110 * 16)
    && (match s.power.railAt with | some t => reached 64 (s.time.selvedge - t).toNat 80000000 | none => true)
    && ledgerAllows s

/-- With `REQ` = 1 in RUN the conditions are checked: one that fails sets `REFUSED` (R436, R437). -/
def boostCheck (s : State) : State :=
  let a := ra .pmu Pmu.BOOST
  if tb (s.rg a) 31 && opMode s = 4 && !boostConds s then s.setRgBit a 4 true else s

/-- BOOST is entered (R437). -/
def boostEntry (s : State) : State :=
  let a := ra .pmu Pmu.BOOST
  if tb (s.rg a) 31 && opMode s = 4 && s.power.entry.isNone && boostConds s then
    raiseEvent 0x4A2 (setMode 5 (s.setRgBit a 30 true))
  else s

/-- A write of `PMU.BOOST` (R436–R438). -/
def boostWrite (v : Word) (sec : Bool) (s : State) : Resp × State :=
  let a := ra .pmu Pmu.BOOST
  let was := tb (s.rg a) 31
  let s1 := plainWrite .pmu 0 Pmu.BOOST v sec s
  let now := tb (s1.rg a) 31
  (.ok 0, if now then (if was then s1 else boostCheck s1) else boostFallback 5 s1)

/-- CONFIGURE is left: the maps lock (R399). -/
def lockMaps (s : State) : State :=
  if opMode s = 3 then
    ((s.setRgBit (ra .wmap Wmap.LOCK) 0 true).setRgBit (ra .rgn Rgn.LOCK) 0 true).setRgBit (ra .mbx Mbx.LOCK) 0 true
  else s

/-- RUN is entered (R399, R419, R427): from CONFIGURE the maps lock, and the islands' engines take the
translation profile (R235). -/
def enterRun (s : State) : State :=
  let s1 := if opMode s = 3 then
      ((List.range 8).filter (fun i => islState s i ≤ 2)).foldl (fun s i => loadProfile i s) (lockMaps s)
    else s.setRgBit (ra .pmu Pmu.SHCAUSE) 31 false
  boostCheck (setMode 4 s1)

/-- `STC.NOTICE` bit `i` is set. -/
def stcNotice (i : Nat) (s : State) : State := s.setRgBit (ra .stc Stc.NOTICE) i true

/-- The evacuation of an island is abandoned (R460): it is released and deferred, and the migrations off it that
have not begun are dropped. -/
def evacAbandon (i : Nat) (s : State) : State :=
  let s1 := (Tbl.keys s.axis.ctxs).foldl (fun s n => match (s.ctx n).mig with
    | some m => if m.step = 0 && m.agent = 5 && m.src / 64 = i then dropMig n s else s
    | none => s) s
  let s2 := (s1.setRgFld (ra .stc (Stc.ISLT i)) 31 30 3).setRgBit (ra .stc (Stc.ISLT i)) 28 true
  let s3 := (stcNotice 3 s2).setRgFld (ri .isl i Isl.STAT) 2 0 0
  { s3.setRg (ra .stc Stc.STAT) 0 with test.evacEnd := none }

/-- A request for STANDBY or HIBERNATE stops a test (R460): an evacuation is abandoned, BIST and March go to the
restore. -/
def testStop (s : State) : State :=
  let st := ra .stc Stc.STAT
  let w := s.rg st
  if !tb w 31 then s
  else if fld w 7 5 ≤ 1 then evacAbandon (fld w 2 0) s
  else if fld w 7 5 = 4 then s
  else { s.setRgFld st 7 5 4 with test.stopped := true }

/-- A write of `PMU.CTRL.REQ` (R419–R421, R426, R427). -/
def pmuRequest (req : Nat) (s : State) : State :=
  let m := opMode s
  if req = 0 ∨ tb (s.rg (ra .pmu Pmu.MODE)) 31 then s
  else if req = 4 then
    if m ≠ 3 ∧ m ≠ 6 then reqDone 1 s
    else if fld (s.rg (ra .pmu Pmu.SHCAUSE)) 13 8 ≠ 0 then reqDone 3 s
    else reqDone 0 (enterRun s)
  else if req = 6 then
    if m = 4 ∨ m = 5 then reqDone 0 (safeHoldCause 0 s) else reqDone 1 s
  else if req = 1 ∨ req = 2 then
    if m = 4 ∨ m = 5 ∨ (req = 1 ∧ m = 6) then
      if tb (s.rg (ra .pmu Pmu.CLKSTAT)) 30 then reqDone 5 s
      else
        let s1 := testStop (boostFallback 6 s)
        let s2 := (s1.setRgBit (ra .pmu Pmu.MODE) 31 true).setRgBit (ra .pmu Pmu.REQSTAT) 31 true
        { s2 with power.entry := some (req, s.time.selvedge) }
    else reqDone 1 s
  else reqDone 1 s

/-- A write of `PMU.CTRL`. -/
def pmuCtrlWrite (v : Word) (s : State) : Resp × State :=
  if tb v 31 then (.ok 0, resetBy [3] s) else (.ok 0, pmuRequest (fld v 2 0) s)

/-! ### STANDBY and HIBERNATE (R421–R424) -/

/-- A placement action is in progress (R26, R421). -/
def placementBusy (s : State) : Bool :=
  s.axis.ctxs.any (fun e => e.2.mig.isSome) || s.conv.step.isSome || tb (s.rg (ra .stc Stc.STAT)) 31

/-- The conditions of an entry to STANDBY or HIBERNATE (R421). -/
def entryConds (s : State) : Bool :=
  (List.range 12).all (fun b => !pwmEn s b || tb (s.rg (ri .pwm b Pwm.STAT)) 31)
    && (List.range 16).all (fun l => !tb (s.rg (ri .teth l Teth.CFG)) 31)
    && (List.range 2).all (fun p => !tb (s.rg (ri .eth p Eth.CFG)) 31)
    && (List.range 4).all (fun g => !tb (s.rg (ri .girth g Girth.CFG)) 31)
    && (List.range 8).all (fun p => !tb (s.rg (ri .senc p Senc.CFG)) 31)
    && !flBusy s 0 && !flBusy s 1 && !placementBusy s
    && (List.range 4).all (fun n => !(s.el (32 + n)).released || (s.el (32 + n)).wfi)
    && (s.el 36).wfi

/-- The same change to every listed element. -/
def eachElem (f : ElemState → ElemState) (s : State) : State :=
  (Tbl.keys s.core.elems).foldl (fun s i => s.setEl i (f (s.el i))) s

/-- An erase suspended at the entry is torn (R381). -/
def tearSuspended (k : Nat) (s : State) : State :=
  let op := s.fop k
  if op.kind ≠ 3 then s
  else tornRefresh (fopSet k {} { s with flash.torn := addSorted op.sector s.flash.torn })

/-- Memory kept through HIBERNATE (R421). -/
def hibKeeps (ddr : Bool) (a : Nat) : Bool :=
  nonVolatile a || (0x60000000 ≤ a && a < 0x60002000) || (ddr && 0x100000000 ≤ a)

/-- The enabled wake comparators that are active wake the device at once (R155). -/
def liveWakes (s : State) : Nat :=
  ((List.range 4).filter (fun w => tb (s.rg (ra .cmp (Cmp.WAKE w))) 31 && tb (s.rg (ra .cmp Cmp.WAKESTAT)) (8 + w))).foldl
    (fun n w => n + 2 ^ (4 + w)) 0

/-- The conditions hold, and the device enters STANDBY or HIBERNATE at a rising edge of the slow clock (R109, R421).  In HIBERNATE the TAP is unpowered: it
drives no ball, and it comes back as after Test-Logic-Reset (R471). -/
def standbyEntry (s : State) : State :=
  match s.power.entry with
  | none => s
  | some (m, _) =>
    if !entryConds s || !slowEdge s then s
    else
      let s1 := tearSuspended 1 (tearSuspended 0 s)
      let s2 := eachElem (fun e => { e with icache := [] }) { flInvalidate s1 with core.cache := [] }
      let s3 := selvedgeSuspend (setMode m (reqDone 0 s2))
      let wk := liveWakes s3
      let s4 := (s3.setRg (ra .pmu Pmu.WAKESTAT) (s3.rg (ra .pmu Pmu.WAKESTAT) ||| w32 wk)).setRgFld
        (ra .pmu Pmu.CLKSTAT) 5 0 0
      let s5 := { s4 with power.wake := wk, power.aonReads := 0 }
      if m = 2 then s5
      else
        let keep := tb (s5.rg (ra .pmu Pmu.HIBCFG)) 0
        { s5 with mem := s5.mem.filter (fun c => hibKeeps keep c.1), poison := s5.poison.filter (hibKeeps keep),
                  dbg.ir := 2, dbg.cells := [], dbg.accStat := 0, dbg.accData := 0, dbg.bypass := false, dbg.shifted := 0,
                  ballScan := [],
                  power.memcCopy := s5.rg (ra .memc Memc.CFG),
                  power.ddrKept := keep }

/-- The conditions have not held within 10 ms (R421). -/
def entryTimeout (s : State) : State :=
  match s.power.entry with
  | some (_, t) => if reached 64 (s.time.selvedge - t).toNat 8000000 then reqDone 2 s else s
  | none => s

/-- A wake source becomes active (R420, R422): it ends an entry, or wakes the device. -/
def wakeSource (bit : Nat) (s : State) : State :=
  let set (s : State) : State := s.setRgBit (ra .pmu Pmu.WAKESTAT) bit true
  if s.power.entry.isSome then reqDone 4 (set s)
  else if opMode s = 1 ∨ opMode s = 2 then { set s with power.wake := s.power.wake ||| 2 ^ bit }
  else s

/-- Watchdogs reload after a hold, with their windows open for the first service (R444). -/
def wdgReload (n : Nat) (s : State) : State :=
  if !tb (s.rg (ra .pmu (Pmu.WDG_CFG n))) 31 then s
  else
    let t := max 1 (fld (s.rg (ra .pmu (Pmu.WDG_TIMEOUT n))) 23 0)
    (s.setWdg n { s.wdg n with count := t, since := 0, closed := false, warned := false }).setRg (ra .pmu (Pmu.WDG_CNT n)) (w32 t)

/-- The fast clocks run again after STANDBY (R423): the slow edge that ends the sleep comes `n` slow ticks on.  Each
core goes on after its `WFI`, and each carrier waits for its next boundary (R164). -/
def standbyResume (n : Nat) (s : State) : State :=
  let s0 := (selvedgeRestore n s).setRgFld (ra .pmu Pmu.CLKSTAT) 5 0 0x3F
  let s1 := (List.range 12).foldl (fun s b => carrierRestart b s) s0
  let s2 := (List.range 6).foldl (fun s k => wdgReload k s) { s1 with power.wake := 0 }
  eachElem (fun e => { e with wfi := false }) s2

/-- A wake from STANDBY (R423). -/
def standbyWake (n : Nat) (s : State) : State :=
  if opMode s = 2 ∧ s.power.wake ≠ 0 then setMode 4 (standbyResume n s) else s

/-- A wake from HIBERNATE (R424): a reset of every domain but the always-on one, held with cause `BOR` while a supply is
out of range (R497). -/
def hibernateReset (n : Nat) (s : State) : State :=
  let s1 := warmReset (if s.power.rails then [6] else [1, 6]) s.sec.straps (selvedgeRestore n s)
  let s2 := { s1 with sec.hib := true }
  if s2.power.ddrKept then s2.setRg (ra .memc Memc.CFG) s2.power.memcCopy else s2

def hibernateWake (n : Nat) (s : State) : State :=
  if opMode s = 1 ∧ s.power.wake ≠ 0 then hibernateReset n s else s

/-- Slow ticks since the entry to a sleep, `n` after the present count. -/
def sleepTicks (s : State) (n : Nat) : Nat := (s.time.slow + BitVec.ofNat 48 n - s.time.a0).toNat
/-- The always-on sensor measures `n` slow ticks after the present count: every 10 ms, 327.68 slow ticks (R439). -/
def aonDue (s : State) (n : Nat) : Bool :=
  (opMode s = 1 || opMode s = 2) && (s.power.aonReads + 1) * 32768 ≤ sleepTicks s n * 100

/-- The always-on sensor reads `t`, in 1/16 °C, in a sleep (R439, R440): `TEMP_11` holds the reading in STANDBY, where its
block keeps its state. -/
def aonReading (n : Nat) (t : Int) (s : State) : State :=
  let ok := (-800 : Int) ≤ t && t ≤ 2800
  let s1 := { s with power.aonReads := sleepTicks s n * 100 / 32768 }
  if opMode s = 2 then s1.setRg (ra .thm (Thm.TEMP 11)) (w32 (b2n ok * 2 ^ 31 + b2n (!ok) * 2 ^ 30 + wrap t 16)) else s1

/-- The always-on sensor measures in a sleep (R422, R426, R439): a valid reading of 135 °C wakes the device. -/
def aonTempWake (n : Nat) (t : Int) (s : State) : State :=
  let mark (s : State) : State :=
    ((s.setRgBit (ra .pmu Pmu.WAKESTAT) 3 true).setRgBit (ra .pmu Pmu.SHCAUSE) 1 true).setRgBit (ra .pmu Pmu.SHCAUSE) 9 true
  let s1 := aonReading n t s
  if !aonDue s n then s
  else if t < 2160 || 2800 < t then s1
  else if opMode s = 2 then enterSafeHold (standbyResume n (mark s1))
  else hibernateReset n (mark s1)

/-- The slow alarm (R422): armed, enabled, its compare holds, and the slow clock has not failed (R431). -/
def slowAlarm (s : State) : State :=
  let due := s.power.armed && tb (s.rg (ra .pmu Pmu.WAKECFG)) 30 && !tb (s.rg (ra .pmu Pmu.CLKSTAT)) 30
    && reached 48 s.time.slow.toNat s.power.alarm.toNat
  if due && (s.power.entry.isSome || opMode s = 1 || opMode s = 2) then
    wakeSource 1 { s with power.armed := false }
  else s

/-- A write of `ALARM_HI` arms the alarm (R422). -/
def alarmHiWrite (v : Word) (sec : Bool) (s : State) : Resp × State :=
  let s1 := plainWrite .pmu 0 Pmu.ALARM_HI v sec s
  (.ok 0, if !sec then s1
    else { s1 with power.alarm := BitVec.ofNat 48 (fld v 15 0 * 2 ^ 32 + (s1.rg (ra .pmu Pmu.ALARM_LO)).toNat),
                   power.armed := true })

/-- The input of a wake comparator lies on the side that `DIR` selects, or has left it by the 20 mV of the fixed
hysteresis (R155): `v` is its level in steps of 1.8 V / 65,536, of which a threshold step is 1,024 and 20 mV are
728 (DESIGN CHOICE, log entry 13: the hysteresis lies on the inactive side of the threshold). -/
def wakeSide (s : State) (w v : Nat) (active : Bool) : Bool :=
  let c := s.rg (ra .cmp (Cmp.WAKE w))
  let t := fld c 13 8 * 1024
  if tb c 30 then (if active then v < t else t + 728 < v) else (if active then t < v else v + 728 < t)

/-- A wake comparator changes its debounced state (R155): its input has stood at level `v` for `n` slow ticks, and an
active one needs `DEB` + 1 of them; a failed slow clock stops it (R431). -/
def wakeComparator (w : Nat) (active : Bool) (v n : Nat) (s : State) : State :=
  let a := ra .cmp Cmp.WAKESTAT
  let c := s.rg (ra .cmp (Cmp.WAKE w))
  if !tb c 31 || tb (s.rg (ra .pmu Pmu.CLKSTAT)) 30 || opMode s = 0 || !wakeSide s w v active
      || (active && n < fld c 3 0 + 1) then s
  else
    let was := tb (s.rg a) (8 + w)
    let s1 := s.setRgBit a (8 + w) active
    if active && !was then wakeSource (4 + w) (raiseEvent (0x334 + w) (s1.setRgBit a w true)) else s1

/-! ### Thermal rules (R435, R438–R441) -/

/-- A millisecond has passed since the last update of the budget (R435). -/
def budgetDue (s : State) : Bool := s.time.run && reached 64 s.time.selvedge.toNat (s.power.budgetAt + 800000).toNat

/-- Every 1 ms the estimator drains or refills B (R435). -/
def budgetUpdate (s : State) : State :=
  let a := ra .thm Thm.BUDGET
  let cfg := s.rg (ra .thm Thm.CFG)
  let cool : Int := min 114 (fld cfg 15 8)
  let s1 := { s with power.ms := s.power.ms + 1, power.budgetAt := s.time.selvedge }
  match (validTemps s).max? with
  | none => s1
  | some t =>
    if opMode s = 5 && cool * 16 ≤ t then
      let b := thmB s - 1
      let s2 := s1.setRgFld a 15 0 b
      if b = 0 then boostFallback 1 s2 else s2
    else if opMode s ≠ 5 && t < (cool - 5) * 16 && s1.power.ms % 4 = 0 then
      s1.setRgFld a 15 0 (min (thmB s + 1) (thmBmax s))
    else s1

/-- The average core-rail current of the last 100 µs, in 10 mA (R438). -/
def railAverage (ma : Nat) (s : State) : State :=
  let s1 := s.setRg (ra .thm Thm.RAIL) (w32 (ma % 65536))
  if ma < 850 then s1
  else
    let s2 := s1.setRgBit (ra .thm Thm.STAT) 4 true
    if opMode s = 5 then { boostFallback 3 s2 with power.railAt := some s.time.selvedge } else s2

/-- Puts a number into a list in rising order. -/
def insertInt (x : Int) : List Int → List Int
  | [] => [x]
  | y :: t => if x ≤ y then x :: y :: t else y :: insertInt x t
/-- The list in rising order. -/
def sortInts (l : List Int) : List Int := l.foldr insertInt []

/-- A reading is valid (R440): within its range, and near the median of the others. -/
def tempValid (ts : List Int) (n : Nat) : Bool :=
  let t := ts.getD n 0
  let med := (sortInts (ts.eraseIdx n)).getD 5 0
  (-800 : Int) ≤ t && t ≤ 175 * 16 && t - med ≤ 25 * 16 && med - t ≤ 25 * 16

/-- The sensors measure again 100 µs after the last time (R439). -/
def tempDue (s : State) : Bool :=
  s.time.run && opMode s ≠ 0 && reached 64 s.time.selvedge.toNat (s.power.tempAt + 80000).toNat

/-- The measurement of the twelve sensors, in 1/16 °C (R439–R441, R426, R427). -/
def tempThresholds (ts : List Int) (s : State) : State :=
  let s1 := (List.range 12).foldl (fun s n =>
    let ok := tempValid ts n
    s.setRg (ra .thm (Thm.TEMP n)) (w32 (b2n ok * 2 ^ 31 + b2n (!ok) * 2 ^ 30 + wrap (ts.getD n 0) 16))) s
  let good := (List.range 12).filter (tempValid ts)
  let bad := 12 - good.length
  let s2 := if bad > 0 then s1.setRgBit (ra .thm Thm.STAT) 3 true else s1
  let best := good.foldl (fun b n => match b with
    | none => some n | some k => if ts.getD k 0 < ts.getD n 0 then some n else some k) none
  let s3 := match best with
    | some n => s2.setRg (ra .thm Thm.MAX) (w32 (n * 65536 + wrap (ts.getD n 0) 16))
    | none => s2
  let hot (c : Int) : Bool := good.any (fun n => c * 16 ≤ ts.getD n 0)
  let flag (i : Nat) (s : State) : State := s.setRgBit (ra .thm Thm.STAT) i true
  let s4 := if hot (fld (s.rg (ra .thm Thm.CFG)) 7 0) then raiseEvent 0x4A0 (flag 0 s3) else s3
  let s5 := if hot 115 then boostFallback 2 (flag 1 s4) else s4
  let s6 := if hot 135 then safeHoldCause 1 (raiseEvent 0x4A1 (flag 2 s5)) else s5
  let s7 := if hot 125 then s6 else causeEnds 1 s6
  if 3 ≤ bad then safeHoldCause 5 s7 else causeEnds 5 s7

/-- The sensors measure (R429, R439): 150 °C resets the device, which stays in reset while a reading is at or above
140 °C; in reset the measurement has no other effect. -/
def tempMeasure (ts : List Int) (s0 : State) : State :=
  let s := { s0 with power.tempAt := s0.time.selvedge }
  let hot (c : Int) : Bool := (List.range 12).any (fun n => tempValid ts n && c * 16 ≤ ts.getD n 0)
  if inReset s then { s with power.held := s.power.held && hot 140 }
  else if hot 150 then { resetBy [5] (tempThresholds ts s) with power.held := true }
  else tempThresholds ts s

/-! ### Clocks and trims (R431–R433, R452) -/

/-- `ISL_i.CLKSET.CAP`; values outside 600–1,000 act as 1,000. -/
def clkCap (s : State) (i : Nat) : Nat :=
  let c := fld (s.rg (ri .isl i Isl.CLKSET)) 31 16
  if c < 600 ∨ 1000 < c then 1000 else c
/-- The clock that an island's steward steps toward (R432). -/
def clkTarget (s : State) (i : Nat) : Nat :=
  let mode := match opMode s with
    | 5 => if tb (s.rg (ri .isl i Isl.STAT)) 8 then 800 else 1000
    | 6 => 600
    | _ => 800
  max 600 (min mode (min (clkCap s i) (fld (s.rg (ra .age (Age.U_PLAN i))) 31 16)) / 25 * 25)
/-- The trim that a clock needs (R452). -/
def trimFor (s : State) (i f : Nat) : Nat :=
  min 6 (fld (s.rg (ra .age (Age.U_PLAN i))) 10 8 + if 800 < f then 2 else 0)
/-- `ISL_i.TRIM`. -/
abbrev islTrim (s : State) (i : Nat) : Nat := fld (s.rg (ri .isl i Isl.TRIM)) 2 0

/-- An island's clock takes its new value, with the consequences for its load (R241, R432). -/
def setClock (i f : Nat) (s : State) : State :=
  let s1 := reserveCheck (s.setRgFld (ri .isl i Isl.CLKSET) 15 0 f)
  (List.range 4).foldl (fun s e => overloadCheck (4 * i + e) s) s1

/-- The trim that an island's clock, or the next step up, needs is not the one it has (R433). -/
def trimWanted (s : State) (i : Nat) : Nat :=
  let f := islClock s i
  trimFor s i (if f < clkTarget s i then f + 25 else f)
/-- An island has a clock step to take: down, or up when the trim is there (R432, R433). -/
def clockWants (s : State) (i : Nat) : Bool :=
  let f := islClock s i
  clkTarget s i < f || (f < clkTarget s i && trimFor s i (f + 25) ≤ islTrim s i)

/-- `n` ticks of the time of a step have passed. -/
def stepOver (s : State) (at_ : Option DWord) (n : Nat) : Bool :=
  match at_ with | some t => reached 64 s.time.selvedge.toNat (t + w64 n).toNat | none => false
/-- The time of a step counts from the tick at which there is one to take. -/
def stepFrom (s : State) (i : Nat) (wants : Bool) (t : Tbl (Option DWord)) : Tbl (Option DWord) :=
  let was := Tbl.get (fun _ => none) t i
  if !wants || islState s i = 5 then Tbl.set (fun _ => none) t i none
  else if was.isSome then t else Tbl.set (fun _ => none) t i (some s.time.selvedge)
/-- The times of an island's clock and trim steps (R432, R433). -/
def stepTimes (i : Nat) (s : State) : State :=
  { s with power.clkAt := stepFrom s i (clockWants s i) s.power.clkAt,
           power.trimAt := stepFrom s i (trimWanted s i ≠ islTrim s i) s.power.trimAt }

/-- The 5 µs of an island's clock step have passed; an island without power takes none (R432). -/
def clockDue (s : State) (i : Nat) : Bool :=
  islState s i ≠ 5 && stepOver s (Tbl.get (fun _ => none) s.power.clkAt i) 4000
/-- The 10 µs of an island's trim step have passed (R433). -/
def trimDue (s : State) (i : Nat) : Bool :=
  islState s i ≠ 5 && stepOver s (Tbl.get (fun _ => none) s.power.trimAt i) 8000

/-- One clock step of an island (R432, R433): up only when the trim is there. -/
def clockStep (i : Nat) (s : State) : State :=
  let f := islClock s i
  let t := clkTarget s i
  let u := { s with power.clkAt := Tbl.set (fun _ => none) s.power.clkAt i (some s.time.selvedge) }
  if t < f then setClock i (f - 25) u
  else if f < t && trimFor s i (f + 25) ≤ islTrim s i then setClock i (f + 25) u
  else s

/-- One trim step of an island (R433, R452). -/
def trimStep (i : Nat) (s : State) : State :=
  let u := { s with power.trimAt := Tbl.set (fun _ => none) s.power.trimAt i (some s.time.selvedge) }
  let need := trimWanted s i
  let have_ := islTrim s i
  let a := ri .isl i Isl.TRIM
  if have_ < need then u.setRg a (w32 (have_ + 1)) else if need < have_ then u.setRg a (w32 (have_ - 1)) else s

/-! ### Watchdogs (R442–R444) -/

abbrev wdgCfg (s : State) (n : Nat) : Word := s.rg (ra .pmu (Pmu.WDG_CFG n))
/-- `TIMEOUT`; 0 acts as 1. -/
def wdgTimeout (s : State) (n : Nat) : Nat := max 1 (fld (s.rg (ra .pmu (Pmu.WDG_TIMEOUT n))) 23 0)
/-- The element that a watchdog serves. -/
def wdgElem (n : Nat) : Nat := if n = 0 ∨ n = 5 then 36 else 31 + n
/-- Sets bit `i` of `WDG_n.STAT`. -/
def wdgFlag (n i : Nat) (s : State) : State := s.setRgBit (ra .pmu (Pmu.WDG_STAT n)) i true

/-- The watchdog reloads `TIMEOUT`. -/
def wdgLoad (n : Nat) (s : State) : State :=
  (s.setWdg n { s.wdg n with count := wdgTimeout s n, since := 0, closed := true, warned := false }).setRg
    (ra .pmu (Pmu.WDG_CNT n)) (w32 (wdgTimeout s n))

/-- A write of `CFG`: ignored while `EN` = 1; setting `EN` starts the count (R442), frozen where the element is halted
(R443). -/
def wdgCfgWrite (n : Nat) (v : Word) (sec : Bool) (s : State) : Resp × State :=
  if tb (wdgCfg s n) 31 then (.ok 0, s)
  else
    let s1 := plainWrite .pmu 0 (Pmu.WDG_CFG n) v sec s
    let s2 := wdgLoad n (wdgFlag n 31 s1)
    (.ok 0, if !tb v 31 then s1 else if (s.el (wdgElem n)).halted then wdgFreezeOne (wdgElem n) n s2 else s2)

/-- The warm reset of a watchdog; `WDGN` names it (R429). -/
def wdgReset (n : Nat) (s : State) : State := (resetBy [4] s).setRgFld (ra .pmu Pmu.RSTCAUSE) 26 24 n

/-- A violation: flag `i` of `STAT`, and the reaction of `ACT` (R442, R443). -/
def wdgViolation (n i : Nat) (s : State) : State :=
  let s1 := wdgFlag n i s
  if fld (wdgCfg s n) 29 28 ≠ 1 || (s.el (wdgElem n)).halted || (s.wdg n).violated then wdgReset n s1
  else
    let s2 := wdgLoad n (wdgFlag n 1 s1)
    safeHoldCause 2 (s2.setWdg n { s2.wdg n with violated := true })

/-- The master may service the watchdog (R442). -/
def wdgOwner (m : Master) (n : Nat) : Bool := if n = 5 then m.sec else m.mid = n

/-- A write of `SVC` (R442).  The cause `WDG` ends when every watchdog that has raised it has been serviced (R427). -/
def wdgService (m : Master) (n : Nat) (v : Word) (s : State) : Resp × State :=
  let x := s.wdg n
  if !wdgOwner m n then (.err, s)
  else if !tb (wdgCfg s n) 31 then (.ok 0, s)
  else if v ≠ 0x5A3C then (.ok 0, wdgViolation n 2 s)
  else if x.closed && x.since * 256 < wdgTimeout s n * fld (wdgCfg s n) 15 8 then (.ok 0, wdgViolation n 3 s)
  else
    let s1 := s.setWdg n { x with violated := false }
    (.ok 0, wdgLoad n (if (List.range 6).any (fun k => (s1.wdg k).violated) then s1 else causeEnds 2 s1))

/-- The watchdog counts: enabled, not frozen, its core not fenced (R443, R463). -/
def wdgRuns (s : State) (n : Nat) : Bool :=
  tb (wdgCfg s n) 31 && !(s.wdg n).frozen && !(1 ≤ n && n ≤ 4 && tb (s.rg (ra .stc (Stc.ACT (n - 1)))) 30)

/-- The warning is due: the count has reached its point since the last reload. -/
def wdgWarnDue (s : State) (n : Nat) : Bool :=
  wdgRuns s n && !(s.wdg n).warned && (s.wdg n).count * 256 ≤ wdgTimeout s n * fld (wdgCfg s n) 7 0
/-- The warning point is reached (R442). -/
def wdgWarn (n : Nat) (s : State) : State :=
  raiseEvent (0x4A8 + n) (wdgFlag n 0 (s.setWdg n { s.wdg n with warned := true }))
/-- The watchdog has expired. -/
def wdgExpired (s : State) (n : Nat) : Bool := wdgRuns s n && (s.wdg n).count = 0

/-- One 10 µs tick of a watchdog. -/
def wdgTick (n : Nat) (s : State) : State :=
  if wdgRuns s n then
    let x := s.wdg n
    (s.setWdg n { x with count := x.count - 1, since := x.since + 1 }).setRg (ra .pmu (Pmu.WDG_CNT n)) (w32 (x.count - 1))
  else s

/-- A write of any `PMU` register. -/
def pmuWrite (m : Master) (o : Nat) (v : Word) (s : State) : Resp × State :=
  if o = Pmu.CTRL then pmuCtrlWrite v s
  else if o = Pmu.BOOST then boostWrite v m.sec s
  else if o = Pmu.ALARM_HI then alarmHiWrite v m.sec s
  else if 0x100 ≤ o ∧ o < 0x1C0 then
    let n := (o - 0x100) / 0x20
    let r := o % 0x20
    if r = 0 then wdgCfgWrite n v m.sec s
    else if r = 8 then wdgService m n v s
    else if r = 4 && tb (wdgCfg s n) 31 then (.ok 0, s)
    else (.ok 0, plainWrite .pmu 0 o v m.sec s)
  else (.ok 0, plainWrite .pmu 0 o v m.sec s)

/-! ### Commands -/

abbrev ctrlReg : Nat := ra .pmu Pmu.CTRL
def execReqRun (m : Master) (s : State) : Host.Outcome State Fault Refusal := .next (regAccess m ctrlReg (pmuCtrlWrite 4) s)
def execReqStandby (m : Master) (s : State) : Host.Outcome State Fault Refusal := .next (regAccess m ctrlReg (pmuCtrlWrite 2) s)
def execReqHibernate (m : Master) (s : State) : Host.Outcome State Fault Refusal := .next (regAccess m ctrlReg (pmuCtrlWrite 1) s)
def execReqSafeHold (m : Master) (s : State) : Host.Outcome State Fault Refusal := .next (regAccess m ctrlReg (pmuCtrlWrite 6) s)
def execStandbyEntry (s : State) : Host.Outcome State Fault Refusal := .next (standbyEntry s)
def execEntryTimeout (s : State) : Host.Outcome State Fault Refusal := .next (entryTimeout s)
/-- `NWAKE`: `nWAKE` has fallen and stood low for `n` slow ticks, of which `NWDEB` + 1 make a falling edge (R422). -/
def execNwake (s : State) (n : BitVec 16 := 0) : Host.Outcome State Fault Refusal :=
  let c := s.rg (ra .pmu Pmu.WAKECFG)
  .next (if tb c 31 && fld c 3 0 + 1 ≤ n.toNat then wakeSource 0 s else s)
def execSlowAlarm (s : State) : Host.Outcome State Fault Refusal := .next (slowAlarm s)
def execAlarmHiWrite (m : Master) (v : Word) (s : State) : Host.Outcome State Fault Refusal :=
  .next (regAccess m (ra .pmu Pmu.ALARM_HI) (alarmHiWrite v m.sec) s)
/-- `AON_TEMP_WAKE`: the always-on sensor reads `t`, in 1/16 °C, `n` slow ticks after the present count (R422, R426, R439). -/
def execAonTempWake (n : Nat) (s : State) (t : BitVec 16 := 0) : Host.Outcome State Fault Refusal :=
  .next (aonTempWake n (sext t.toNat 16) s)
def execStandbyWake (n : Nat) (s : State) : Host.Outcome State Fault Refusal := .next (standbyWake n s)
def execHibernateWake (n : Nat) (s : State) : Host.Outcome State Fault Refusal := .next (hibernateWake n s)
def execWakeComparatorActive (w : Fin 4) (active : Bool) (s : State) (v n : BitVec 16 := 0) : Host.Outcome State Fault Refusal :=
  .next (wakeComparator w active v.toNat n.toNat s)
def execBoostReq (m : Master) (v : Word) (s : State) : Host.Outcome State Fault Refusal :=
  .next (regAccess m (ra .pmu Pmu.BOOST) (boostWrite v m.sec) s)
def execBoostEntry (s : State) : Host.Outcome State Fault Refusal := .next (boostEntry s)
def execBudgetUpdate (s : State) : Host.Outcome State Fault Refusal :=
  .next (if budgetDue s then budgetUpdate s else s)
def execRailAverage (ma : BitVec 16) (s : State) : Host.Outcome State Fault Refusal :=
  .next (if s.time.run then railAverage ma.toNat s else s)
def execTempMeasure (ts : Vector (BitVec 16) 12) (s : State) : Host.Outcome State Fault Refusal :=
  .next (if tempDue s then tempMeasure (ts.toList.map (fun t => sext t.toNat 16)) s else s)
/-- `XTAL_FAIL`: the reference has stopped for `stop` ticks, or has drifted by `ppm` millionths (R431). -/
def execXtalFail (s : State) (stop ppm : Nat := 0) : Host.Outcome State Fault Refusal :=
  let a := ra .pmu Pmu.CLKSTAT
  .next (if s.time.run && (3200 ≤ stop || 10000 < ppm) then
    safeHoldCause 3 (((s.setRgBit a 31 true).setRgBit a 29 true).setRgBit a 8 true) else s)
/-- `XTAL_RETURN`: the reference is back, and `PLL_T` has locked to it (R427, R431). -/
def execXtalReturn (s : State) : Host.Outcome State Fault Refusal :=
  let a := ra .pmu Pmu.CLKSTAT
  .next (causeEnds 3 ((s.setRgBit a 31 false).setRgBit a 29 false))
/-- `SLOW_CLOCK_FAIL`: the slow clock has not toggled for `stop` ticks (R431). -/
def execSlowClockFail (s : State) (stop : Nat := 0) : Host.Outcome State Fault Refusal :=
  .next (if 80000 ≤ stop then s.setRgBit (ra .pmu Pmu.CLKSTAT) 30 true else s)
def execIslClockStep (i : Fin 8) (s : State) : Host.Outcome State Fault Refusal :=
  .next (if clockDue s i then clockStep i s else s)
def execIslTrimStep (i : Fin 8) (s : State) : Host.Outcome State Fault Refusal :=
  .next (if trimDue s i then trimStep i s else s)
/-- `POWER_ON_RESET`: `VDD_AON` has risen, and `nRESET` is released with the straps at `straps`; `supplies`: the others are in
range too, and if not the device stays in reset with cause `BOR` (R409, R428, R497). -/
def execPowerOnReset (straps : BitVec 2) (s : State) (supplies : Bool := true) : Host.Outcome State Fault Refusal :=
  let s1 := haltAtStart 36 (coldState straps s)
  .next (if supplies then s1 else resetCause [1] 0 { s1 with power.rails := false })

/-- `BROWNOUT_RESET`: a supply other than `VDD_AON` has been below its threshold for `n` ticks, and all are in range again
or not (`back`): the device stays in reset until they are; in HIBERNATE the monitors are inactive, and the wake finds it
(R429, R497). -/
def brownout (n : Nat) (back : Bool) (s : State) : State :=
  if opMode s = 0 then s
  else if opMode s = 1 then { s with power.rails := back }
  else if n ≤ 800 then { s with power.rails := s.power.rails || back }
  else { resetBy [1] s with power.rails := back }
def execBrownoutReset (s : State) (n : Nat := 0) (back : Bool := true) : Host.Outcome State Fault Refusal := .next (brownout n back s)
/-- `PIN_RESET`: `nRESET` is released after `n` ticks low, with the straps at `straps` (R409, R429). -/
def execPinReset (straps : BitVec 2) (s : State) (n : Nat := 0) : Host.Outcome State Fault Refusal :=
  .next (if opMode s = 0 || n < 800 then s else warmReset [2] straps s)
def execSwrst (m : Master) (s : State) : Host.Outcome State Fault Refusal :=
  .next (regAccess m ctrlReg (pmuCtrlWrite 0x80000000) s)
def execWdgEnable (m : Master) (n : Fin 6) (v : Word) (s : State) : Host.Outcome State Fault Refusal :=
  .next (regAccess m (ra .pmu (Pmu.WDG_CFG n)) (wdgCfgWrite n v m.sec) s)
def execWdgService (m : Master) (n : Fin 6) (v : Word) (s : State) : Host.Outcome State Fault Refusal :=
  .next (regAccess m (ra .pmu (Pmu.WDG_SVC n)) (wdgService m n v) s)
def execWdgWarning (n : Fin 6) (s : State) : Host.Outcome State Fault Refusal :=
  .next (if wdgWarnDue s n then wdgWarn n s else s)
def execWdgExpiry (n : Fin 6) (s : State) : Host.Outcome State Fault Refusal :=
  .next (if wdgExpired s n then wdgViolation n 1 s else s)
/-- `POWER_DOWN`: `VDD_AON` falls below its threshold, and the device is OFF (R419): nothing but the non-volatile
memories keeps its contents. -/
def execPowerDown (s : State) : Host.Outcome State Fault Refusal :=
  .next { (coldState s.sec.straps s).setRg (ra .pmu Pmu.MODE) 0 with time.run := false }

end Sys2Proof.Machine
end

