-- ==== Sys2Proof/Machine/Monitor.lean ====
section
/-! DEFINITION. The Tilvan monitor: images and their checks (R405–R408), its services (R413–R416), the boot
sequence and the network boot (R409–R412), the release of application cores (R418) and debug certificates
(R417).  Hashes and signatures are the constants of `Config` (log entry 10). -/

namespace Sys2Proof.Machine

/-! ### OTP and measurements (R401, R403, R415) -/

/-- OTP word `w` (R401). -/
abbrev otpWord (s : State) (w : Nat) : Word := s.word (0x08008000 + 4 * w)
/-- Programs an OTP word: bits change from 0 to 1 only. -/
def otpSet (w : Nat) (bits : Word) (s : State) : State := storeWord (0x08008000 + 4 * w) (otpWord s w ||| bits) s
/-- The value of anti-rollback counter `k`: its set bits (R401). -/
def counter (s : State) (k : Nat) : Nat :=
  ((List.range 8).map (fun j => popc 32 (otpWord s (0x40 + 8 * k + j)).toNat)).foldl (· + ·) 0
/-- `SEC.VERHI_k`. -/
abbrev verHi (s : State) (k : Nat) : Nat := (s.rg (ra .sec (Sec.VERHI k))).toNat
/-- The 48 bytes of a SHA-384 value. -/
def hash384 (bs : List Byte) : List Byte := toBytes 48 (Config.sha384 bs)
/-- The 48 bytes of `MR_m`. -/
def mrBytes (s : State) (m : Nat) : List Byte :=
  (List.range 12).flatMap (fun w => toBytes 4 (s.rg (ra .sec (Sec.MR m w))).toNat)
/-- Writes `MR_m`. -/
def setMr (m : Nat) (bs : List Byte) (s : State) : State :=
  (List.range 12).foldl (fun s w => s.setRg (ra .sec (Sec.MR m w)) (w32 (ofBytes ((bs.drop (4 * w)).take 4)))) s
/-- An extend (R415). -/
def extend (m : Nat) (digest : List Byte) (s : State) : State := setMr m (hash384 (mrBytes s m ++ digest)) s

/-- `n` free words into the registers of a list. -/
def drawRegs : List Nat → State → State
  | [], s => s
  | a :: t, s => let (x, s1) := s.draw; drawRegs t (s1.setRg a (w32 x))

/-! ### Images (R405–R407) -/

/-- Byte fields of a header: `n` bytes from offset `o` as a number. -/
def hfld (h : List Byte) (o n : Nat) : Nat := ofBytes ((h.drop o).take n)
/-- Bytes of a range are all 0. -/
def zeros (h : List Byte) (o n : Nat) : Bool := ((h.drop o).take n).all (fun b => b = 0)
/-- A section of an image: body offset, length, destination. -/
def imgSection (h : List Byte) (k : Nat) : Nat × Nat × Nat := (hfld h (0x50 + 16 * k) 4, hfld h (0x54 + 16 * k) 4, hfld h (0x58 + 16 * k) 8)

/-- The form of the first 2,240 bytes: header and key block (R405, R406). -/
def imgFormat (kind : Nat) (h : List Byte) : Bool :=
  1 ≤ kind && kind ≤ 4 && hfld h 0 4 = 0x4E4C4F46 && hfld h 4 2 = 1 && hfld h 6 1 = kind && hfld h 7 1 ≤ 3
    && (kind = 4 || hfld h 0xA 1 ≤ 3) && hfld h 0xB 1 ≤ 8 && hfld h 0xC 4 % 16 = 0
    && zeros h 0x14 12 && zeros h 0xD0 48
    && (List.range (hfld h 0xB 1)).all (fun k => let x := imgSection h k; x.1 + x.2.1 ≤ hfld h 0xC 4)

/-- The key check (R407). -/
def keyCheck (s : State) (h : List Byte) : Bool :=
  let k := hfld h 7 1
  let slot := (List.range 12).flatMap (fun w => toBytes 4 (otpWord s (0x10 + 12 * k + w)).toNat)
  slot.any (fun b => b ≠ 0) && hash384 (h.drop 0x100) = slot && !tb (otpWord s 1) (4 + k)

/-- The checks of R406 on the parts of an image: code and detail. -/
def imgChecks (s : State) (kind : Nat) (h body sig : List Byte) : Nat × Nat :=
  let e := Config.ed25519 ((h.drop 0x100).take 32) h (sig.take 64)
  let m := Config.mldsa65 ((h.drop 0x120).take 1952) h ((sig.drop 64).take 3309)
  if !imgFormat kind h || !zeros sig 3373 3 then (0x10, 0)
  else if !keyCheck s h then (0x0F, 0)
  else if !(e && m) then (0x0D, b2n (!e) + 2 * b2n (!m))
  else if hash384 body ≠ (h.drop 0x20).take 48 then (0x11, 0)
  else if kind ≠ 4 && hfld h 8 2 < counter s (hfld h 0xA 1) then (0x0E, 0)
  else (0, 0)

/-- Checks an image where it lies, read with the master's world: code, detail and the header (R406). -/
def imgVerify (m : Master) (ecc : Ecc) (a kind : Nat) (s : State) : (Nat × Nat × List Byte) × State :=
  match memRead m false ecc a 0x8C0 s with
  | (.error _, s1) => ((0x0C, 0, []), s1)
  | (.ok h, s1) =>
    if !imgFormat kind h then ((0x10, 0, h), s1)
    else
      let n := hfld h 0xC 4
      match memRead m false ecc (a + 0x8C0) (n + 3376) s1 with
      | (.error _, s2) => ((0x0C, 0, h), s2)
      | (.ok rest, s2) =>
        let r := imgChecks s2 kind h (rest.take n) (rest.drop n)
        ((r.1, r.2, h), s2)

/-- `VERHI` records an accepted version (R408). -/
def verAccept (h : List Byte) (s : State) : State :=
  let a := ra .sec (Sec.VERHI (hfld h 0xA 1))
  s.setRg a (w32 (max (s.rg a).toNat (hfld h 8 2)))

/-! ### Routines (R414–R416) -/

/-- The answer of `TV_IMG_VERIFY` to what `imgVerify` finds: the code with its detail, and `VERHI` after a success. -/
def imgAnswer (kind : Nat) (x : (Nat × Nat × List Byte) × State) : Nat × State :=
  (x.1.1 + x.1.2.1 * 256, if x.1.1 = 0 ∧ kind ≠ 4 then verAccept x.1.2.2 x.2 else x.2)

/-- `TV_IMG_VERIFY`. -/
def tvImgVerify (c : Call) (s : State) : Nat × State :=
  imgAnswer (c.a 3).toNat (imgVerify c.master c.ecc (c.addr 1) (c.a 3).toNat s)

/-- A word of an OTP array that did not take its bits holds a free part of them. -/
def otpFree (w : Nat) (bits : Word) (s : State) : State :=
  let (x, s1) := s.draw
  otpSet w (bits &&& w32 x) s1

/-- Programs the bits of several words: `OK`, or `OTPFAIL` with free parts of them. -/
def otpProgram (ok : Bool) (ws : List (Nat × Word)) (s : State) : Nat × State :=
  if ok then (0, ws.foldl (fun s w => otpSet w.1 w.2 s) s)
  else (0x12, ws.foldl (fun s w => otpFree w.1 w.2 s) s)

/-- `TV_OTP_PROGRAM`: what R401 reserves reads 0 and takes no bits. -/
def tvOtpProgram (ok : Bool) (c : Call) (s : State) : Nat × State :=
  let w := (c.a 1).toNat
  let slotUsed := 0x10 ≤ w && w < 0x40 &&
    (List.range 12).any (fun j => otpWord s (0x10 + (w - 0x10) / 12 * 12 + j) ≠ 0)
  let exists_ := w = 1 || (4 ≤ w && w < 8) || (0x10 ≤ w && w < 0x40) || 0x100 ≤ w
  if 0x3FF < w || w = 0 || (0x40 ≤ w && w < 0x68) || slotUsed then (2, s)
  else if !c.sec then (3, s)
  else otpProgram ok (if exists_ then [(w, c.a 2)] else []) s

/-- The words that raise a thermometer code of 256 bits from its first word `w` to `v` set bits: the low bits. -/
def thermo (w v : Nat) : List (Nat × Word) :=
  (List.range 8).map (fun j => (w + j, w32 (2 ^ (min 32 (v - 32 * j)) - 1)))

/-- `TV_ROLLBACK` (R408). -/
def tvRollback (ok : Bool) (c : Call) (s : State) : Nat × State :=
  let k := (c.a 1).toNat
  let v := (c.a 2).toNat
  if 3 < k ∨ verHi s k < v ∨ 256 < v then (2, s)
  else if !c.sec then (3, s)
  else if v ≤ counter s k then (0xB, s)
  else otpProgram ok (thermo (0x40 + 8 * k) v) s

/-- The device secret is filled from the random source (R403). -/
def fillSecret (s : State) : State :=
  (List.range 8).foldl (fun s k => let (x, s1) := s.draw; otpSet (0x60 + k) (w32 x) s1) s

/-- `TV_LIFECYCLE` (R403). -/
def tvLifecycle (ok : Bool) (c : Call) (s : State) : Nat × State :=
  let t := (c.a 1).toNat
  let now := otpLc s
  let slot0 := (List.range 12).any (fun j => otpWord s (0x10 + j) ≠ 0)
  if 3 < t then (2, s)
  else if !c.sec then (3, s)
  else if t ≤ now ∨ (now = 0 ∧ t = 1 ∧ !slot0) then (0x13, s)
  else
    let s1 := if now = 0 ∧ t = 1 then fillSecret s else s
    otpProgram ok [(0, w32 (2 ^ t - 1))] s1

/-- `TV_MEAS_EXTEND` (R415). -/
def tvMeasExtend (c : Call) (s : State) : Nat × State :=
  let m := (c.a 1).toNat
  if 7 < m then (2, s)
  else if m < 4 ∧ !c.sec then (3, s)
  else match memRead c.master false c.ecc (c.addr 2) 48 s with
    | (.error _, s1) => (0x0C, s1)
    | (.ok d, s1) => (0, extend m d s1)

/-- Bytes 0x000–0x1DF of a report (R416). -/
def report (s : State) (nonce : List Byte) : List Byte :=
  let stat := 2 ^ s.sec.lc - 1 + s.sec.grants.toNat * 16 + fld (s.rg (ra .boot Boot.STAT)) 30 29 * 256
  toBytes 4 0x52544146 ++ toBytes 4 0x7128114E ++ (List.range 4).flatMap (fun k => toBytes 4 (otpWord s (4 + k)).toNat)
    ++ toBytes 8 stat ++ (List.range 4).flatMap (fun k => toBytes 4 (counter s k))
    ++ toBytes 16 s.time.selvedge.toNat ++ nonce ++ (List.range 8).flatMap (mrBytes s)

/-- The report with its signature. -/
def signedReport (s : State) (nonce : List Byte) : List Byte :=
  let msg := report s nonce
  let sig := Config.attestSign (s.sec.lc = 3) msg
  msg ++ (List.range 3373).map (fun i => sig.getD i 0) ++ [0, 0, 0]

/-- The answer of `TV_ATTEST` to its write. -/
def attestPut (x : Option BusErr × State) : Nat × State := (if x.1.isSome then 0x0C else 0, x.2)

/-- `TV_ATTEST` (R416). -/
def tvAttest (c : Call) (s : State) : Nat × State :=
  if (c.a 5).toNat < 3856 then (2, s)
  else match memRead c.master false c.ecc (c.addr 1) 32 s with
    | (.error _, s1) => (0x0C, s1)
    | (.ok nonce, s1) =>
      attestPut (memWrite c.master c.ecc (c.addr 3) (signedReport s1 nonce) s1)

/-- The routine that a number names, but for the one that answers later; an unknown number gives 0x02 (R375). -/
def routine (no : Nat) (ok : Bool) : Call → State → Nat × State :=
  match no with
  | 2 => tvFlErase | 3 => tvFlSuspend | 4 => tvFlResume | 5 => tvFlBlank | 6 => tvFlInfo | 7 => tvFlMarkbad
  | 0x10 => tvImgVerify | 0x11 => tvOtpProgram ok | 0x12 => tvRollback ok | 0x13 => tvLifecycle ok
  | 0x14 => tvMeasExtend | 0x15 => tvAttest
  | _ => fun _ s => (2, s)

/-- One message of channel `n` is served for a caller of world `sec` (R374, R414). -/
def serveMessage (n : Nat) (sec : Bool) (ok : Bool) (ecc : Ecc) (s : State) : State :=
  let msg (k : Nat) : Word := s.rg (ra .mbx (Mbx.MSG n k))
  let c : Call := { sec := sec, chan := some n, arg := (List.range 5).map (fun k => msg (k + 1)), ecc := ecc }
  if msg 0 = 1 then programCall c s
  else
    let (code, s1) := routine (msg 0).toNat ok c s
    answerCall (some n) code s1

/-- The channel holds a message for the monitor (R414): bound with `RCV_MID` 0 and FULL. -/
def monitorMail (s : State) (n : Nat) : Bool :=
  60 ≤ n && n < 64 && tb (mbxBind s n) 31 && fld (mbxBind s n) 12 8 = 0 && mbxState s n = 1

/-- `TV_SERVE` of channel `n` is served (R413, R414): in SERVICE it is channel 63, for the debug port's world, and with no
grant only the two routines of R413. -/
def serveChannel (n : Nat) (ok : Bool) (ecc : Ecc) (s : State) : State :=
  if opMode s = 7 then
    if !monitorMail s 63 then s
    else
      let no := (s.rg (ra .mbx (Mbx.MSG 63 0))).toNat
      if s.sec.grants = 0 ∧ no ≠ 5 ∧ no ≠ 6 then answerCall (some 63) 2 s
      else serveMessage 63 (grantSec s) ok ecc s
  else
    let s1 := if monitorMail s n then serveMessage n (Tbl.get (fun _ => false) s.time.sendSec n) ok ecc s else s
    svReturn none s1

/-- `TV_SERVE` (R413, R414): `SV`'s call names the channel in `g1`. -/
def tvServe (ok : Bool) (ecc : Ecc) (s : State) : State :=
  let n := (svReg s 1).toNat
  if callWaits s then callQueue { no := 0, chan := n, ok := ok, ecc := ecc } s else serveChannel n ok ecc s

/-- The oldest waiting call is served, once the monitor is free (R414). -/
def serveNext (s : State) : State :=
  match s.sec.calls with
  | [] => s
  | c :: rest =>
    if monitorBusy s then s
    else
      let s1 := { s with sec.calls := rest }
      let d : Call := { sec := true, chan := none, arg := c.arg, ecc := c.ecc }
      if c.no = 0 then serveChannel c.chan c.ok c.ecc s1
      else if c.no = 1 then programCall d s1
      else
        let (code, s2) := routine c.no c.ok d s1
        answerCall none code s2

/-- The monitor serves the calls that wait, in the order of their arrival (R414). -/
def serveWaiting (s : State) : State := s.sec.calls.foldl (fun s _ => serveNext s) s

/-! ### Boot (R409–R413, R424) -/

/-- The monitor's own accesses. -/
def monitorMaster : Master := { mid := 0, sec := true }
/-- `BOOT.STAT`. -/
def bootStat (done : Bool) (src b a n : Nat) (s : State) : State :=
  s.setRg (ra .boot Boot.STAT) (w32 (b2n done * 2 ^ 31 + src * 2 ^ 29 + b * 65536 + a * 256 + n))

/-- SERVICE is entered (R399, R413): the maps lock, the outputs are off, and channel 63 is bound to the debug port. -/
def enterService (s : State) : State :=
  setMode 7 (allSafe 7 (lockMaps (s.setRg (ra .mbx (Mbx.BIND 63)) (w32 (2 ^ 31 + 24)))))

/-- A section may go to its destination (R410): `SV` TCM, Twill SRAM or an application core's TCM, and off the
received image of a network boot. -/
def sectionOk (s : State) (image : Nat) (x : Nat × Nat × Nat) : Bool :=
  let (_, n, d) := x
  n = 0 || (match regionOf s d, regionOf s (d + n - 1) with
    | .tcmSv, .tcmSv | .sram, .sram => true
    | .tcmAc i, .tcmAc j => i = j
    | _, _ => false) && !overlaps d n 0x20000000 image

/-- The sections of an image are copied (R410). -/
def copySections (a : Nat) (h : List Byte) (s : State) : State :=
  (List.range (hfld h 0xB 1)).foldl (fun s k =>
    let x := imgSection h k
    if x.2.1 = 0 then s else (agentCopy midSv true (a + 0x8C0 + x.1) x.2.2 x.2.1 s).2) s

/-- An accepted image whose sections have their places is started: copied, measured and entered (R410). -/
def startImage (a : Nat) (h : List Byte) (src b aa n : Nat) (s : State) : State :=
  let s1 := verAccept h (extend 0 (hash384 h) (copySections a h s))
  let s2 := bootStat true src b aa n s1
  let e := s2.el 36
  let s3 := s2.setEl 36 { e with setA := { e.setA with pc := w32 (hfld h 0x10 4), status := 0x300 } }
  setSvReg 1 (s3.rg (ra .boot Boot.STAT)) { s3 with sec.slot := if src ≤ 1 then some src else none }

/-- The image's sections all have their places. -/
def placesOk (s : State) (image : Nat) (h : List Byte) : Bool :=
  (List.range (hfld h 0xB 1)).all (fun k => sectionOk s image (imgSection h k))

/-- `NETBOOT_DIS` and `SERVICE_DIS` (R401). -/
abbrev netbootDis (s : State) : Bool := tb (otpWord s 1) 0
abbrev serviceDis (s : State) : Bool := tb (otpWord s 1) 1

/-- A network boot begins (R412): `ETH_0` takes the device's MAC from the factory record (R404, log entry 18) and runs in
1000BASE-X with auto-negotiation. -/
def netStart (s : State) : State :=
  let mac := ofBytes (s.bytes 0x08000010 6)
  let s0 := (s.setRg (er 0 Eth.MAC_LO) (w32 mac)).setRg (er 0 Eth.MAC_HI) (w32 (mac / 2 ^ 32))
  let (_, s1) := ethCfgWrite 0 0xA0000000 true s0
  { s1 with sec.net := { active := true, last := s.time.selvedge, reqAt := s.time.selvedge } }

/-- No image was accepted (R410). -/
def bootNone (b a n : Nat) (s : State) : State :=
  enterService (bootStat false 3 b a n { s with sec.net := {} })

/-- The address of slot `k` (0 A, 1 B). -/
abbrev slotAddr (k : Nat) : Nat := 0x01000000 + 0x800000 * k
/-- The check of slot `k`: code, detail and header (R406). -/
def slotCheck (k : Nat) (ecc : Ecc) (s : State) : (Nat × Nat × List Byte) × State :=
  imgVerify monitorMaster ecc (slotAddr k) 1 s

/-- The accepted slots in the order of the choice: the higher version first, slot A when they are equal (R410). -/
def slotOrder (x y : Nat × Nat × List Byte) : List (Nat × List Byte) :=
  let a := if x.1 = 0 then [(0, x.2.2)] else []
  let b := if y.1 = 0 then [(1, y.2.2)] else []
  if hfld x.2.2 8 2 < hfld y.2.2 8 2 then b ++ a else a ++ b

/-- The first image whose sections have their places is started; each before it fails with `FORMAT`, and the versions of
those behind it have been accepted too (R408, R410). -/
def startFirst : List (Nat × List Byte) → Nat → Nat → State → State
  | [], b, a, s => if netbootDis s then bootNone b a 0xFF s else netStart (bootStat false 3 b a 0xFF s)
  | (k, h) :: rest, b, a, s =>
    if placesOk s 0 h then startImage (slotAddr k) h k b a 0xFF (rest.foldl (fun s x => verAccept x.2 s) s)
    else startFirst rest (if k = 1 then 0x10 else b) (if k = 0 then 0x10 else a) s

/-- The boot from the flash slots (R410, R424). -/
def bootFlash (ecc : Ecc) (s : State) : State :=
  let both (s : State) : State :=
    let (ra_, s1) := slotCheck 0 ecc s
    let (rb, s2) := slotCheck 1 ecc s1
    startFirst (slotOrder ra_ rb) rb.1 ra_.1 (s2.setRg (ra .boot Boot.DETAIL) (w32 (rb.2.1 * 256 + ra_.2.1)))
  match s.sec.hib, s.sec.slot with
  | true, some k =>
    let (r, s1) := slotCheck k ecc s
    if r.1 = 0 && placesOk s1 0 r.2.2 then
      startImage (slotAddr k) r.2.2 k (if k = 1 then 0 else 0xFF) (if k = 0 then 0 else 0xFF) 0xFF s1
    else both s1
  | _, _ => both s

/-- The monitor's steps up to the choice of an image (R410): measurements, keys, nonce, journal. -/
def bootPrepare (jrnlErr : Bool) (s : State) : State :=
  let (x, s1) := s.draw
  let s2 := (List.range 8).foldl (fun s m => setMr m [] s) { s1 with dma.xtsKey := x }
  let s3 := drawRegs ((List.range 8).map (fun k => ra .sec (Sec.DBGNONCE k))) s2
  let s4 := extend 1 (hash384 (toBytes 4 (otpWord s3 0).toNat ++ toBytes 4 (otpWord s3 1).toNat)) s3
  let s5 := if jrnlErr then { s4 with flash.journal := [], flash.torn := [], flash.copies := [[], []], flash.copy := 0 } else { s4 with flash.torn := s4.flash.journal }
  let s6 := s5.setRgBit (ra .flc Flc.FLASH_STATUS) 30 jrnlErr
  (bbtRefresh (tornRefresh s6)).setRgFld (ra .pmu Pmu.CLKSTAT) 5 0 0x3F

/-- The boot sequence after the release of reset (R410); while a reset is held nothing runs (R429, R497). -/
def bootSequence (jrnlErr : Bool) (ecc : Ecc) (s : State) : State :=
  if s.sec.booted || opMode s ≠ 3 || inReset s || (s.el 36).halted then s
  else
    let s1 := bootPrepare jrnlErr { s with sec.booted := true }
    let strap := s1.sec.straps.toNat
    let service := (strap = 1 && !serviceDis s1) || s1.sec.lc = 0 || s1.sec.lc = 3
    if service then enterService (bootStat false 3 0xFF 0xFF 0xFF s1)
    else if strap = 2 && !netbootDis s1 then netStart (bootStat false 3 0xFF 0xFF 0xFF s1)
    else bootFlash ecc s1

/-! ### Network boot (R412) -/

/-- Codes of the slots in `BOOT.STAT` as they stand. -/
def codeB (s : State) : Nat := fld (s.rg (ra .boot Boot.STAT)) 23 16
def codeA (s : State) : Nat := fld (s.rg (ra .boot Boot.STAT)) 15 8

/-- A raw cabinet frame of the boot: destination, EtherType 0x88B5 and the header of R323 with `CHAN` 0. -/
def bootFrame (s : State) (dst kind : Nat) (body : List Byte) : List Byte :=
  toBE 6 dst ++ toBE 6 (ethMac s 0) ++ toBE 2 0x88B5 ++ toBytes 1 1 ++ toBytes 1 kind ++ toBytes 2 0
    ++ toBytes 4 s.sec.net.seq ++ toBytes 2 body.length ++ List.replicate 6 0 ++ body

/-- A frame of the boot leaves. -/
def bootSend (dst kind : Nat) (body : List Byte) (s : State) : State :=
  { s with sec.net := { s.sec.net with line := bootFrame s dst kind body, seq := (s.sec.net.seq + 1) % 2 ^ 32 } }

/-- The next `BOOTREQ`, 100 ms after the last; after 600 without an answer the network boot has failed.  The manual gives no code for
that: `CODE_N` is a free value (log entry 25). -/
def bootReq (s : State) : State :=
  let n := s.sec.net
  if !n.active || !reached 64 s.time.selvedge.toNat n.reqAt.toNat then s
  else if 600 ≤ n.reqs then
    let (x, s1) := s.draw
    bootNone (codeB s) (codeA s) (x % 256) s1
  else
    let body := toBytes 4 0x7128114E ++ (List.range 4).flatMap (fun k => toBytes 4 (otpWord s (4 + k)).toNat) ++ toBytes 4 7340032
    bootSend 0xFFFFFFFFFFFF 0x10 body { s with sec.net := { n with reqs := n.reqs + 1, reqAt := s.time.selvedge + 80000000 } }

/-- A `BOOTACK`. -/
def bootAck (mac next status : Nat) (s : State) : State :=
  bootSend mac 0x12 (toBytes 4 next ++ toBytes 1 status) { s with sec.net := { s.sec.net with ack := some (next, status) } }

/-- The received image is complete: it is checked, and started or the transfer restarts (R412). -/
def netImage (mac : Nat) (ecc : Ecc) (s : State) : State :=
  let total := s.sec.net.total
  let (r, s1) := imgVerify monitorMaster ecc 0x20000000 1 s
  let fits := 0x8C0 + hfld r.2.2 0xC 4 + 3376 ≤ total
  let code := if r.1 = 0 && !(fits && placesOk s1 total r.2.2) then 0x10 else r.1
  if code = 0 then
    let s2 := bootAck mac total 1 s1
    startImage 0x20000000 r.2.2 2 (codeB s) (codeA s) 0 { s2 with sec.net := { s2.sec.net with active := false } }
  else
    let s2 := s1.setRgFld (ra .boot Boot.STAT) 7 0 code
    bootAck mac 0 code { s2 with sec.net := { s2.sec.net with next := 0, total := 0, host := none } }

/-- A `BOOTDATA` frame (R412). -/
def bootData (mac off total : Nat) (data : List Byte) (ecc : Ecc) (s : State) : State :=
  let n := s.sec.net
  if !n.active || data.length = 0 || 1024 < data.length then s
  else
    let n1 : NetBoot := if n.host.isNone && off = 0 && total ≤ 7340032 then { n with host := some mac, total := total } else n
    let n2 : NetBoot := { n1 with reqs := 0, last := s.time.selvedge }
    let s1 := { s with sec.net := n2 }
    if n2.host ≠ some mac || off ≠ n2.next || n2.total < off + data.length then bootAck mac n2.next 0 s1
    else
      let next := off + data.length
      let s2 := { (agentWrite midSv true (0x20000000 + off) data s1).2 with sec.net := { n2 with next := next } }
      if next = n2.total then netImage mac ecc s2 else bootAck mac next 0 s2

/-- Two seconds without `BOOTDATA` restart the transfer (R412). -/
def bootDataTimeout (s : State) : State :=
  let n := s.sec.net
  if n.active && reached 64 (s.time.selvedge - n.last).toNat 1600000000 then
    { s with sec.net := { n with next := 0, total := 0, host := none, last := s.time.selvedge } }
  else s

/-! ### Application cores and certificates (R417, R418) -/

/-- A write of `BOOT.ACREL_n`: `GO` releases the core once, at its entry, in its initial world. -/
def acrelGo (n : Nat) (v : Word) (sec : Bool) (s : State) : Resp × State :=
  let a := ra .boot (Boot.ACREL n)
  let was := tb (s.rg a) 31
  let s1 := plainWrite .boot 0 (Boot.ACREL n) v sec s
  if was || !tb v 31 then (.ok 0, s1)
  else
    let i := 32 + n
    let e := s1.el i
    let e1 : ElemState := { e with
      setA := { e.setA with pc := s1.rg (ra .boot (Boot.ACENTRY n)), status := 0x100 }
      world := w32 (b2n (tb v 30)), released := true }
    (.ok 0, haltAtStart i (s1.setEl i e1))

/-- The certificate in `DBGBUF` (R417): the code of R406 and the grants; no code for a `UID` or nonce that does not
match, which the manual gives none. -/
def certCheck (s : State) : Option Nat × Nat :=
  let buf := (List.range 2048).flatMap (fun k => toBytes 4 (s.rg (ra .sec (Sec.DBGBUF k))).toNat)
  let h := buf.take 0x8C0
  let n := hfld h 0xC 4
  let body := (buf.drop 0x8C0).take n
  let fits := n = 64
  let r := if fits then imgChecks s 4 h body (buf.drop (0x8C0 + n)) else (0x10, 0)
  let uid := (List.range 4).flatMap (fun k => toBytes 4 (otpWord s (4 + k)).toNat)
  let nonce := (List.range 8).flatMap (fun k => toBytes 4 (s.rg (ra .sec (Sec.DBGNONCE k))).toNat)
  let match_ := body.take 16 = uid && (body.drop 16).take 32 = nonce && zeros body 52 12
  if r.1 ≠ 0 then (some r.1, 0) else if !match_ then (none, 0) else (some 0, hfld body 48 4)

/-- A write of `DBGCTL` (R417): only MID 24 reaches it; each submission draws a new nonce. -/
def dbgSubmit (m : Master) (v : Word) (s : State) : Resp × State :=
  if m.mid ≠ 24 then (.err, s)
  else if !tb v 0 then (.ok 0, s)
  else
    let r := certCheck s
    let (x, s0) := s.draw
    let s1 := { s0 with sec.grants := s0.sec.grants ||| BitVec.ofNat 2 r.2 }
    let s2 := drawRegs ((List.range 8).map (fun k => ra .sec (Sec.DBGNONCE k))) s1
    (.ok 0, s2.setRg (ra .sec Sec.DBGSTAT) (w32 (r.1.getD (x % 256) * 256)))

/-- A write of any `SEC` register: the certificate buffer takes writes of MID 24 alone. -/
def secWrite (m : Master) (o : Nat) (v : Word) (s : State) : Resp × State :=
  if o = Sec.DBGCTL then dbgSubmit m v s
  else if 0x2000 ≤ o ∧ o < 0x4000 then
    if m.mid = 24 then (.ok 0, s.setRg (ra .sec o) v) else (.err, s)
  else (.ok 0, plainWrite .sec 0 o v m.sec s)

/-- The registers of `SEC` that show the OTP, the grants and the random source (R418). -/
def secLive (o : Nat) (s : State) : Option Word × State :=
  if o = Sec.DEVID then (some 0x7128114E, s)
  else if 0x10 ≤ o ∧ o < 0x20 then (some (otpWord s (4 + (o - 0x10) / 4)), s)
  else if o = Sec.LC then (some (w32 (s.sec.lc + s.sec.grants.toNat * 256)), s)
  else if 0x30 ≤ o ∧ o < 0x40 then (some (w32 (counter s ((o - 0x30) / 4))), s)
  else if o = Sec.DBGSTAT then (some (w32 ((s.rg (ra .sec o)).toNat + s.sec.grants.toNat)), s)
  else if o = Sec.RNG then
    let (x, s1) := s.draw
    (some (w32 x), s1)
  else (none, s)

/-! ### Commands -/

def execTvServe (ok : Bool) (ecc : Ecc) (s : State) : Host.Outcome State Fault Refusal := .next (tvServe ok ecc s)
def execTvImgVerify (ecc : Ecc) (s : State) : Host.Outcome State Fault Refusal := .next (svServe 0x10 tvImgVerify ecc s)
def execTvOtpProgram (ok : Bool) (s : State) : Host.Outcome State Fault Refusal := .next (svServe 0x11 (tvOtpProgram ok) .clean s ok)
def execTvRollback (ok : Bool) (s : State) : Host.Outcome State Fault Refusal := .next (svServe 0x12 (tvRollback ok) .clean s ok)
def execTvLifecycle (ok : Bool) (s : State) : Host.Outcome State Fault Refusal := .next (svServe 0x13 (tvLifecycle ok) .clean s ok)
def execTvMeasExtend (ecc : Ecc) (s : State) : Host.Outcome State Fault Refusal := .next (svServe 0x14 tvMeasExtend ecc s)
def execTvAttest (ecc : Ecc) (s : State) : Host.Outcome State Fault Refusal := .next (svServe 0x15 tvAttest ecc s)
def execBootSequence (jrnlErr : Bool) (ecc : Ecc) (s : State) : Host.Outcome State Fault Refusal :=
  .next (bootSequence jrnlErr ecc s)
def execBootReq (s : State) : Host.Outcome State Fault Refusal := .next (bootReq s)
def execBootData (mac : BitVec 48) (off total : Word) (data : List (BitVec 8)) (ecc : Ecc) (s : State) :
    Host.Outcome State Fault Refusal :=
  .next (bootData mac.toNat off.toNat total.toNat data ecc s)
def execBootDataTimeout (s : State) : Host.Outcome State Fault Refusal := .next (bootDataTimeout s)
def execAcrelGo (m : Master) (n : Fin 4) (v : Word) (s : State) : Host.Outcome State Fault Refusal :=
  .next (regAccess m (ra .boot (Boot.ACREL n)) (acrelGo n v m.sec) s)
def execDbgSubmit (m : Master) (v : Word) (s : State) : Host.Outcome State Fault Refusal :=
  .next (regAccess m (ra .sec Sec.DBGCTL) (dbgSubmit m v) s)

end Sys2Proof.Machine
end

