-- ==== Sys2Proof/Machine/Ageing.lean ====
section
/-! DEFINITION. The wear ledger (R448–R455), Stitch check of islands and cores (R458–R463), and the end of the
cause `FAULT` (R467). -/

namespace Sys2Proof.Machine

/-! ### Wear ledger -/

/-- An `AGE.NOTICE` bit is set, which raises event 0x4B0 (R468). -/
def ageNotice (i : Nat) (s : State) : State := raiseEvent 0x4B0 (s.setRgBit (ra .age Age.NOTICE) i true)
/-- `AGE.CFG.FLOOR`; below 30 acts as 30. -/
def ageFloor (s : State) : Nat := max 30 (fld (s.rg (ra .age Age.CFG)) 7 0)
/-- `CRIT`; above `FLOOR` / 2 acts as `FLOOR` / 2. -/
def ageCrit (s : State) : Nat := min (ageFloor s / 2) (fld (s.rg (ra .age Age.CFG)) 15 8)
/-- `HYST`; below 45 acts as 45. -/
def ageHyst (s : State) : Nat := max 45 (fld (s.rg (ra .age Age.CFG)) 23 16)
/-- `AGE_u.PLAN`. -/
abbrev agePlan (s : State) (u : Nat) : Word := s.rg (ra .age (Age.U_PLAN u))
/-- `AGE_u.MARGIN` in ps. -/
def ageMargin (s : State) (u : Nat) : Int := sext (s.rg (ra .age (Age.U_MARGIN u))).toNat 16
abbrev planCeil (s : State) (u : Nat) : Nat := fld (agePlan s u) 31 16
abbrev planTrim (s : State) (u : Nat) : Nat := fld (agePlan s u) 10 8
abbrev planAoff (s : State) (u : Nat) : Bool := tb (agePlan s u) 5
abbrev planNoBoost (s : State) (u : Nat) : Bool := tb (agePlan s u) 4

/-- `ISL_i.STAT.NOBOOST` and `PMU.BOOST.NOBOOST[i]` follow the ledger (R451): an island whose ceiling is 800 MHz or
less refuses BOOST too.  A unit 8 to 10 that refuses ends BOOST (R453). -/
def noBoostShow (u : Nat) (s : State) : State :=
  if u < 8 then
    let no := planNoBoost s u || planCeil s u ≤ 800
    (s.setRgBit (ri .isl u Isl.STAT) 8 no).setRgBit (ra .pmu Pmu.BOOST) (16 + u) no
  else if planNoBoost s u then boostFallback 4 s else s

/-- A change of a unit's plan has been made (R451, R454). -/
def planSet (u : Nat) (v : Word) (s : State) : State := noBoostShow u (s.setRg (ra .age (Age.U_PLAN u)) v)

/-- A re-plan step to level `l` is recorded (R451). -/
def replanRecord (u l : Nat) (stayed : Bool) (s : State) : State :=
  let s1 := raiseEvent 0x4B1 (ageNotice 0 (bump .age 0 (Age.U_REPLAN_CNT u) s))
  faultRecord 0x10 u 0 (l + b2n stayed * 256) s1

/-- The class A copies that are placed on an island: banks not pinned, and whether a pinned one stays. -/
def classABanks (s : State) (i : Nat) : List Nat × Bool :=
  let here := s.axis.banks.filter (fun e => e.1 / 64 = i && e.2.cls = 0 && e.2.ctx.isSome)
  let pinned (e : Nat × BankSt) : Bool := match e.2.ctx with | some n => tb (req3 s n) 31 | none => false
  ((here.filter (fun e => !pinned e)).map Prod.fst, here.any pinned)

/-- Contexts leave the banks of a list by migrations of an agent to places that `allowed` admits. -/
def moveOff (agent : Nat) (allowed : Nat → Bool) (ks : List Nat) (s : State) : State :=
  ks.foldl (fun s k => match (s.bank k).ctx with
    | some n => migrateAway n k agent allowed s
    | none => s) s

/-- One re-plan step of a unit (R451, R453): whether one was left. -/
def replanStep (u : Nat) (s : State) : State :=
  let p := agePlan s u
  let isl := u < 8
  let x := s.unit_ u
  if isl && 600 < planCeil s u then
    let c := max 600 (min (planCeil s u) (islClock s u) - 25)
    let s1 := s.setUnit u { x with ceils := planCeil s u :: x.ceils }
    replanRecord u 1 false (planSet u (setFld (setFld p 31 16 c) 2 0 1) s1)
  else if planTrim s u < 6 then
    replanRecord u 2 false (planSet u (setFld (setFld p 10 8 (planTrim s u + 1)) 2 0 2) s)
  else if isl && !planAoff s u then
    let (ks, stayed) := classABanks s u
    let s1 := planSet u (setFld (setBit p 5 true) 2 0 3) s
    replanRecord u 3 stayed (moveOff 3 (fun k => k / 64 ≠ u) ks s1)
  else if !planNoBoost s u then
    replanRecord u 4 false (planSet u (setFld (setBit p 4 true) 2 0 4) s)
  else s

/-- A clock step of level 1 is left to a unit. -/
def clockLeft (s : State) (u : Nat) : Bool := u < 8 && 600 < planCeil s u
/-- A step of level 1 or 2 is left to a unit. -/
def stepsLeft (s : State) (u : Nat) : Bool := clockLeft s u || planTrim s u < 6
/-- A unit below `CRIT` takes its next step of level 1 or 2: 5 µs after a clock step, 10 µs after a trim step
(R455). -/
def critDue (s : State) (u : Nat) : Bool :=
  (s.unit_ u).crit = 1 && stepsLeft s u && reached 64 s.time.selvedge.toNat (s.unit_ u).stepAt.toNat
/-- One step of levels 1 and 2 below `CRIT` (R455). -/
def critStep (u : Nat) (s : State) : State :=
  let wait : DWord := if clockLeft s u then 4000 else 8000
  let s1 := replanStep u s
  s1.setUnit u { s1.unit_ u with stepAt := s.time.selvedge + wait }
/-- A unit that has taken every step of levels 1 and 2 below `CRIT` is measured again (R455). -/
def critAgain (s : State) (u : Nat) : Bool :=
  (s.unit_ u).crit = 1 && !stepsLeft s u && reached 64 s.time.selvedge.toNat (s.unit_ u).stepAt.toNat
/-- The margin is still below `CRIT`: levels 3 and 4, and the fault (R455). -/
def critLevels (u : Nat) (m : Int) (s : State) : State :=
  let s1 := replanStep u (replanStep u s)
  faultRecord 0x11 u 3 (wrap m 32) (ageNotice 2 (s1.setUnit u { s1.unit_ u with crit := 2 }))

/-- The level that a plan without its latest action shows. -/
def planLevel (p : Word) (clocked : Bool) : Nat :=
  if tb p 4 then 4 else if tb p 5 then 3 else if fld p 10 8 ≠ 0 then 2 else if clocked then 1 else 0

/-- A unit returns one step (R454). -/
def relaxStep (u : Nat) (s : State) : State :=
  let p := agePlan s u
  let x := s.unit_ u
  let done (v : Word) (cs : List Nat) (s : State) : State :=
    let s1 := planSet u (setFld v 2 0 (planLevel v (!cs.isEmpty))) s
    raiseEvent 0x4B1 (ageNotice 1 (s1.setUnit u { s1.unit_ u with ceils := cs }))
  if tb p 4 then done (setBit p 4 false) x.ceils s
  else if tb p 5 then done (setBit p 5 false) x.ceils s
  else if fld p 10 8 ≠ 0 then done (setFld p 10 8 (fld p 10 8 - 1)) x.ceils s
  else match x.ceils with
    | c :: cs => done (setFld p 31 16 c) cs s
    | [] => s

/-- The margin recorded for `MREF` (R450): at the nominal clock, trim 0 and 60 ± 5 °C, before `STRESS` reached
3,600, once. -/
def mrefRecord (u : Nat) (m : Int) (s : State) : State :=
  let a := ra .age (Age.U_MREF u)
  let nominal := if u < 8 then islClock s u = 800 && islTrim s u = 0 else planTrim s u = 0 && !(u = 8 && opMode s = 5)
  let warm := match sensor s u with | some t => 55 * 16 ≤ t && t ≤ 65 * 16 | none => false
  if !tb (s.rg a) 31 && nominal && warm && (s.rg (ra .age (Age.U_STRESS u))).toNat < 3600 then
    s.setRg a (w32 (2 ^ 31 + wrap m 16))
  else s

/-- `AGE_u.MARGIN` shows a measurement (R448). -/
def marginShow (u : Nat) (m : Int) (s : State) : State :=
  mrefRecord u m (s.setRg (ra .age (Age.U_MARGIN u)) (w32 (2 ^ 31 + wrap m 16)))

/-- The 100 ms measurement of one unit (R448, R451, R453–R455).  `MARGIN` has stayed up for 60 s when it is found up for
the 601st time in a row (log entry 23). -/
def marginUnit (u : Nat) (m : Int) (s : State) : State :=
  let s1 := marginShow u m s
  let x := s1.unit_ u
  let run := opMode s = 4 || opMode s = 5
  let x1 : AgeUnit := { x with margins := if run then (m :: x.margins).take 864000 else x.margins, since := x.since + 1 }
  if m < ageCrit s then
    let s2 := s1.setUnit u { x1 with calm := 0, crit := max 1 x.crit }
    if x.crit = 0 then (if stepsLeft s2 u then critStep u s2 else s2.setUnit u { s2.unit_ u with stepAt := s.time.selvedge })
    else if critAgain s2 u then critLevels u m s2
    else s2
  else if m < ageFloor s then
    if 10 ≤ x1.since then replanStep u (s1.setUnit u { x1 with calm := 0, crit := 0, since := 0 })
    else s1.setUnit u { x1 with calm := 0, crit := 0 }
  else if (ageFloor s + ageHyst s : Int) ≤ m then
    if 600 ≤ x1.calm then relaxStep u (s1.setUnit u { x1 with calm := 0, crit := 0 })
    else s1.setUnit u { x1 with calm := x1.calm + 1, crit := 0 }
  else s1.setUnit u { x1 with calm := 0, crit := 0 }

/-- The measurement that follows the steps below `CRIT` (R455). -/
def marginAgain (u : Nat) (m : Int) (s : State) : State :=
  if !critAgain s u then s
  else
    let s1 := marginShow u m s
    if m < ageCrit s then critLevels u m s1 else s1.setUnit u { s1.unit_ u with crit := 0 }

/-- 100 ms have passed since the margins were recorded (R448). -/
def marginDue (s : State) : Bool := s.time.run && reached 64 s.time.selvedge.toNat (s.test.marginAt + 80000000).toNat

/-- Every 100 ms the margins of the eleven units are recorded (R448); between, those of the units that R455 measures
again. -/
def marginMeasure (ms : List Int) (s : State) : State :=
  if marginDue s then
    (List.range 11).foldl (fun s u => marginUnit u (ms.getD u 0) s) { s with test.marginAt := s.time.selvedge }
  else if s.time.run then (List.range 11).foldl (fun s u => marginAgain u (ms.getD u 0) s) s
  else s

/-- The largest `k` with k^4 ≤ `x`. -/
def root4 (x : Nat) : Nat := Nat.sqrt (Nat.sqrt x)

/-- `PROJ` of R450 from `MREF`, the sum and number of the margins, `S10` and `S`, rounded toward minus infinity:
the mean is a fraction, and the fourth root is taken of the whole quotient, so that the result is exact. -/
def projection (mref sum : Int) (n s10 s : Nat) : Int :=
  let d := mref * n - sum
  let num := d.natAbs ^ 4 * s10
  let den := n ^ 4 * s
  if 0 ≤ d then
    let q := (num + den - 1) / den
    mref - (if q = 0 then 0 else root4 (q - 1) + 1)
  else mref + root4 (num / den)

/-- The projection of one unit (R450). -/
def projectUnit (u : Nat) (s : State) : State :=
  let st := (s.rg (ra .age (Age.U_STRESS u))).toNat
  let mr := s.rg (ra .age (Age.U_MREF u))
  let ms := (s.unit_ u).margins
  if st < 3600 || ms.isEmpty || !tb mr 31 then s
  else
    let s10 := st * 315360000 / max 1 (s.rg (ra .age Age.POWERED)).toNat
    let p := clampI (projection (sext mr.toNat 16) (ms.foldl (· + ·) 0) ms.length s10 st) (-32768) 32767
    let s1 := s.setRg (ra .age (Age.U_PROJ u)) (w32 (2 ^ 31 + wrap p 16))
    if p < ageFloor s then faultRecord 0x12 u 0 (wrap p 32) (ageNotice 3 s1) else s1

/-- A minute has passed since the last projection (R450). -/
def projectionDue (s : State) : Bool :=
  s.time.run && reached 64 s.time.selvedge.toNat (s.test.projAt + 48000000000).toNat
/-- The projection of every unit (R450). -/
def projectAll (s : State) : State :=
  (List.range 11).foldl (fun s u => projectUnit u s) { s with test.projAt := s.time.selvedge }

/-- Seconds that a unit's `STRESS` adds (R449). -/
def stressWeight (s : State) (u : Nat) : Nat :=
  if opMode s = 5 && (u = 8 || (u < 8 && !tb (s.rg (ri .isl u Isl.STAT)) 8)) then 4 else 1

/-- An island's seconds since its last completed test and of its deferral; one that has starved is reported once
(R458, R470). -/
def testSecond (i : Nat) (s : State) : State :=
  let a := ra .stc (Stc.ISLT i)
  let w := s.rg a
  let s1 := s.setRgFld a 15 0 (min 0xFFFF (fld w 15 0 + 1))
  if !tb w 28 then s1
  else
    let d := min 4095 (fld w 27 16 + 1)
    let s2 := s1.setRgFld a 27 16 d
    if d > max 1 (fld (s.rg (ra .stc Stc.CFG)) 15 8) && !s.test.starved.contains i then
      faultRecord 0x03 i 0 d (raiseEvent 0x4B6 (stcNotice 0
        { s2.setRgBit a 29 true with test.starved := addSorted i s2.test.starved }))
    else s2

/-- A second of operation has passed: every second of the ticks of the modes in which the fast clocks run. -/
def stressDue (s : State) : Bool := s.time.run && 800000000 ≤ s.test.second

/-- A second of operation (R449, R458). -/
def stressSecond (s : State) : State :=
  if !stressDue s then s
  else
    let s0 := { s with test.second := s.test.second - 800000000 }
    let s1 := (List.range 11).foldl (fun s u => bumpN .age 0 (Age.U_STRESS u) (stressWeight s u) s) s0
    let s2 := bumpN .age 0 Age.POWERED 1 s1
    (List.range 8).foldl (fun s i => testSecond i s) s2

/-! ### Stitch check of islands (R458–R461) -/

abbrev stcStat (s : State) : Word := s.rg (ra .stc Stc.STAT)
/-- The island under test and the phase, while a test is in progress. -/
def testAt (s : State) : Option (Nat × Nat) :=
  if tb (stcStat s) 31 then some (fld (stcStat s) 2 0, fld (stcStat s) 7 5) else none
/-- Sets the phase of the test. -/
def setPhase_ (p : Nat) (s : State) : State := s.setRgFld (ra .stc Stc.STAT) 7 5 p
/-- Sets an island's `STATE`. -/
def setIsl (i st : Nat) (s : State) : State := s.setRgFld (ri .isl i Isl.STAT) 2 0 st

/-- The bound banks of an island. -/
def islBanks (s : State) (i : Nat) : List Nat :=
  (s.axis.banks.filter (fun e => e.1 / 64 = i && e.2.ctx.isSome)).map Prod.fst

/-- Migrations that lead into an island are withdrawn; their agents try again elsewhere (R29, R240). -/
def withdrawInto (i : Nat) (s : State) : State :=
  (Tbl.keys s.axis.ctxs).foldl (fun s n => match (s.ctx n).mig with
    | some m => if m.dst / 64 = i then withdrawMig n s else s
    | none => s) s

/-- A copy of a context could be placed in an island other than `i` (R240–R242). -/
def movesFrom (s : State) (i k : Nat) : Bool :=
  match (s.bank k).ctx with
  | some n => (chooseBank s n none [k] (otherIsland s n k) true 0 (fun j => j / 64 ≠ i)).isOk
  | none => true
/-- A migration takes a copy of a context off island `i`. -/
def movingOff (s : State) (i k : Nat) : Bool :=
  match (s.bank k).ctx with
  | some n => (match (s.ctx n).mig with | some m => m.src = k && m.dst / 64 ≠ i | none => false)
  | none => true

/-- The evacuation of an island, ordered (R458): none when a context is pinned or finds no other place, or an engine is
halted (R478).  An order of a lower rank that has not begun gives way, and a context that another migration holds is
asked off in its turn (R29). -/
def evacuate (i : Nat) (s : State) : Option State :=
  let s0 := withdrawInto i (setIsl i 1 s)
  let ks := islBanks s0 i
  let pinned (k : Nat) : Bool := match (s0.bank k).ctx with | some n => tb (req3 s0 n) 31 | none => false
  if ks.any pinned || (List.range 4).any (fun e => (s0.el (4 * i + e)).halted) then none
  else
    let s1 := moveOff 5 (fun k => k / 64 ≠ i) ks s0
    if ks.all (fun k => movingOff s1 i k || movesFrom s1 i k) then some s1 else none

/-- The order in which islands are tried (R458): suspect ones, those never tested, then by the age of their last completed
test. -/
def testOrder (s : State) : List Nat :=
  let usable := (List.range 8).filter (fun i => islState s i ≤ 2)
  let suspect := usable.filter (fun i => (List.range 4).any (fun e => tb (s.rg (ra .sadl Sadl.SUSPECT)) (4 * i + e)))
  let rest := usable.filter (fun i => !suspect.contains i)
  suspect ++ rest.filter (fun i => !s.test.tested.contains i) ++ s.test.tested.filter (fun i => rest.contains i)

/-- The first island that can be evacuated is; those before it are deferred (R458). -/
def tryIslands : List Nat → State → State
  | [], s => s
  | i :: t, s =>
    match (if (testAt s).isNone && islState s i = 0 then evacuate i s else none) with
    | some s1 =>
      let ms := max 100 (fld (s.rg (ra .stc Stc.CFG)) 31 16)
      let s2 := journal 0x30 i 0 5 0 0 (s1.setRg (ra .stc Stc.STAT) (w32 (2 ^ 31 + i)))
      { s2 with test.evacEnd := some (s.time.selvedge + w64 (ms * 800000)), test.stopped := false }
    | none =>
      if (testAt s).map Prod.fst = some i then tryIslands t s
      else tryIslands t (s.setRgBit (ra .stc (Stc.ISLT i)) 28 true)

/-- The time of a test has come: `CFG.INTERVAL` seconds after the last, 0 acting as 1, in RUN, BOOST and SAFE_HOLD
(R458, R470). -/
def selectDue (s : State) : Bool :=
  4 ≤ opMode s && opMode s ≤ 6 &&
    reached 64 s.time.selvedge.toNat
      (s.test.selectAt + w64 (max 1 (fld (s.rg (ra .stc Stc.CFG)) 7 0) * 800000000)).toNat

/-- The test steward chooses an island (R458). -/
def islandTestSelect (s : State) : State :=
  if selectDue s then tryIslands (testOrder s) { s with test.selectAt := s.time.selvedge } else s

/-- The island is empty: no bank bound, no run, every store drained (R16, R459). -/
def islDrained (s : State) (i : Nat) : Bool :=
  (islBanks s i).isEmpty && (List.range 4).all (fun e =>
    let x := s.el (4 * i + e)
    x.runA.isNone && x.runB.isNone && x.runC.isNone && x.wq.isEmpty)

/-- The Saddler has moved every context off, and the island drains as `empty`; once every outstanding transfer is
acknowledged, the island steward reports it empty, and logic BIST begins (R16, R459). -/
def islandEmpty (s : State) : State :=
  match testAt s with
  | some (i, 0) => if (islBanks s i).isEmpty then setIsl i 2 (setPhase_ 1 s) else s
  | some (i, 1) =>
    if islDrained s i then
      let s1 := journal 0x31 i 0 5 0 0 (raiseEvent 0x4B4 (setIsl i 3 (setPhase_ 2 s)))
      { s1 with test.evacEnd := none }
    else s
  | _ => s

/-- A completed test clears the island's deferral and its age (R458, R470). -/
def testCompleted (i result : Nat) (s : State) : State :=
  let s1 := s.setRg (ra .stc (Stc.ISLT i)) (w32 (result * 2 ^ 30))
  { s1 with test.starved := s1.test.starved.filter (· ≠ i), test.tested := s1.test.tested.filter (· ≠ i) ++ [i] }

/-- The island is fenced (R461). -/
def fenceIsland (i detail : Nat) (s : State) : State :=
  let s1 := (setIsl i 4 s).setRg (ra .stc Stc.STAT) 0
  let s2 := reserveCheck (journal 0x33 i 0 4 0 0 (testCompleted i 2 s1))
  raiseEvent 0x4B5 (faultRecord 0x01 i 1 detail (stcNotice 1 s2))

/-- Logic BIST ends: it passed, or failed at an engine when it can tell which (R459, R461). -/
def logicBistEnd (fail : Option (Option Nat)) (s : State) : State :=
  match testAt s, fail with
  | some (_, 2), none => setPhase_ 3 s
  | some (i, 2), some e => fenceIsland i (1 + e.getD 0 * 256) s
  | _, _ => s

/-- The March test ends (R459, R461). -/
def marchEnd (ok : Bool) (s : State) : State :=
  match testAt s with
  | some (i, 3) => if ok then setPhase_ 4 s else fenceIsland i 0 s
  | _ => s

/-- The island's memories are cleared, its programs reinstalled and its translation profile reloaded (R234, R235,
R459).  DESIGN CHOICE (log entry 69): a program whose source cannot be read keeps an entry that is not valid. -/
def restoreIsland (i : Nat) (s : State) : State :=
  let inside (a : Nat) : Bool :=
    (islMem i ≤ a && a < islMem (i + 1)) || (0x31000000 + i * 0x40000 ≤ a && a < 0x31000000 + (i + 1) * 0x40000)
  let s1 := { s with mem := s.mem.filter (fun c => !inside c.1), poison := s.poison.filter (fun a => !inside a) }
  let s2 := (List.range 4).foldl (fun s e => s.setEl (4 * i + e) (ElemState.reset (4 * i + e))) s1
  let s3 := s2.axis.progs.foldl (fun s e => match e.2 with
    | some p => (match codeOf p s with
      | (some code, s1) => installIn i e.1 p code s1
      | (none, s1) => s1)
    | none => s) s2
  loadProfile i s3

/-- The island is released (R459); a passing test clears its suspect marks (R461). -/
def islandRelease (s : State) : State :=
  match testAt s with
  | some (i, 4) =>
    let s1 := (restoreIsland i (setIsl i 0 s)).setRg (ra .stc Stc.STAT) 0
    let s2 := if s.test.stopped then
        { (stcNotice 3 ((s1.setRgFld (ra .stc (Stc.ISLT i)) 31 30 3).setRgBit (ra .stc (Stc.ISLT i)) 28 true)) with
          test.stopped := false }
      else (List.range 4).foldl (fun s e =>
        (s.setRgBit (ra .sadl Sadl.SUSPECT) (4 * i + e) false).setRgBit (ri .isl i (Isl.ENG e)) 30 false) (testCompleted i 1 s1)
    raiseEvent 0x4B5 (journal 0x32 i 0 5 0 0 s2)
  | _ => s

/-- A context that is still on an evacuating island has no place elsewhere. -/
def evacStuck (s : State) (i : Nat) : Bool := (islBanks s i).any (fun k => !movingOff s i k && !movesFrom s i k)

/-- The time of an evacuation is over, or a remaining context has lost its place elsewhere (R460). -/
def evacuationTimeout (s : State) : State :=
  match testAt s, s.test.evacEnd with
  | some (i, p), some t =>
    if p ≤ 1 && (reached 64 s.time.selvedge.toNat t.toNat || evacStuck s i) then evacAbandon i s else s
  | _, _ => s

/-! ### Application cores (R462, R463) -/

/-- An armed compare slot or timer channel routed to a controller may fire within 20 ms. -/
def wakesSoon (s : State) (t : Nat) : Bool :=
  (List.range 512).any (fun n =>
    let r := s.rg (ra .evr (Evr.ROUTE n))
    let src := fld r 26 16
    tb r 31 && fld r 29 27 = 1 && fld r 15 0 / 512 = t &&
      (if src < 256 then
        (s.slot src).arm && (reached 64 s.time.selvedge.toNat (s.slot src).value.toNat
          || ((s.slot src).value - s.time.selvedge).toNat ≤ 16000000)
       else if src < 512 then
        (let n := (src - 256) / 4
         let k := (src - 256) % 4
         let x := s.timer n
         let c := s.rg (ra .tim (Tim.CTRL n))
         tb c 0 && (x.armed ||| x.written).getLsbD k
          && (timerCc x k - timerElapsed x).toNat * (fld c 31 16 + 1) ≤ 16000000)
       else false))

/-- Predicted idle of `AC_n` (R462). -/
def predictsIdle (s : State) (n : Nat) : Bool :=
  let act := s.rg (ra .stc (Stc.ACT n))
  let e := s.el (32 + n)
  tb act 31 && !tb act 30 && e.released && e.wfi && !e.halted && !intcPresents s (1 + n) && !wakesSoon s (1 + n)
    && !s.test.bist.contains n
    && (match Tbl.get (fun _ => none) s.test.bistAt n with
      | some t => reached 64 (s.time.selvedge - t).toNat (max 1 (fld act 23 16) * 800000000)
      | none => true)

/-- The lines whose latest copy element `n` holds move to L2. -/
def cleanL1 (n : Nat) (c : Tbl (Option Line)) : Tbl (Option Line) :=
  c.foldl (fun t e => Tbl.set (fun _ => none) t e.1
    (e.2.map (fun l => if l.owner = some n then { l with owner := none } else l))) []

/-- Core BIST starts (R462): L1 is cleaned into L2 and invalidated. -/
def coreBistStart (n : Nat) (s : State) : State :=
  if !predictsIdle s n then s
  else
    let s1 := s.setEl (32 + n) { s.el (32 + n) with icache := [] }
    { s1 with core.cache := cleanL1 (32 + n) s1.core.cache, test.bist := addSorted n s1.test.bist }

/-- A source pending in the core's controller abandons the BIST (R463). -/
def coreBistAbort (n : Nat) (s : State) : State :=
  if !s.test.bist.contains n || !intcPresents s (1 + n) then s
  else
    let a := ra .stc (Stc.ACT n)
    { s.setRgFld a 15 0 (min 0xFFFF (fld (s.rg a) 15 0 + 1)) with test.bist := s.test.bist.filter (· ≠ n) }

/-- Core BIST ends: the core passes, or is fenced (R463). -/
def coreBistEnd (n : Nat) (ok : Bool) (s : State) : State :=
  if !s.test.bist.contains n then s
  else
    let a := ra .stc (Stc.ACT n)
    let s1 := { s with
      test.bist := s.test.bist.filter (· ≠ n),
      test.bistAt := Tbl.set (fun _ => none) s.test.bistAt n (some s.time.selvedge) }
    let s2 := raiseEvent 0x4B7 (s1.setRgFld a 29 28 (if ok then 1 else 2))
    if ok then s2
    else
      let e := s2.el (32 + n)
      faultRecord 0x02 n 1 0 (stcNotice 2
        ((s2.setEl (32 + n) { e with released := false, wfi := false }).setRgBit a 30 true))

/-! ### Registers of `AGE` and `STC` (R467, R469, R470) -/

/-- A write of any `AGE` register: `POWERED` and `STRESS` are only raised, by the secure world; `MREF` is taken
once. -/
def ageWrite (o : Nat) (v : Word) (sec : Bool) (s : State) : Resp × State :=
  let a := ra .age o
  let stress := 0x100 ≤ o && o < 0x260 && o % 0x20 = 8
  let mref := 0x100 ≤ o && o < 0x260 && o % 0x20 = 0x10
  if o = Age.POWERED || stress then
    (.ok 0, if sec && (s.rg a).toNat < v.toNat then plainWrite .age 0 o v sec s else s)
  else if mref then
    (.ok 0, if sec && !tb (s.rg a) 31 then s.setRg a (w32 (2 ^ 31 + fld v 15 0)) else s)
  else (.ok 0, plainWrite .age 0 o v sec s)

/-- A write of `FCLR` (R467): a non-secure write, or one while a margin is below `CRIT`, is refused. -/
def fclrWrite (v : Word) (sec : Bool) (s : State) : Resp × State :=
  let low := (List.range 11).any (fun u => tb (s.rg (ra .age (Age.U_MARGIN u))) 31 && ageMargin s u < ageCrit s)
  if !sec then (.err, s.setRgBit (ra .stc Stc.FSTAT) 3 true)
  else if !tb v 0 then (.ok 0, s)
  else if low then (.ok 0, s.setRgBit (ra .stc Stc.FSTAT) 3 true)
  else (.ok 0, (causeEnds 4 s).setRgBit (ra .stc Stc.FSTAT) 31 false)

/-- A write of any `STC` register. -/
def stcWrite (o : Nat) (v : Word) (sec : Bool) (s : State) : Resp × State :=
  let fl := s.rg (ra .stc Stc.FLCFG)
  if o = Stc.FCLR then fclrWrite v sec s
  else if o = Stc.FLBASE && tb fl 31 then (.ok 0, s)
  else if o = Stc.FLCFG && tb fl 31 then (.ok 0, if sec then s.setRgBit (ra .stc o) 31 (tb v 31) else s)
  else if o = Stc.FSTAT then
    let a := ra .stc o
    let s1 := if tb v 3 then s.setRgBit a 3 false else s
    (.ok 0, if fld v 1 0 = 3 then s1.setRgFld a 1 0 0 else s1)
  else (.ok 0, plainWrite .stc 0 o v sec s)

/-! ### Commands -/

def execMarginMeasure (ms : Vector (BitVec 16) 11) (s : State) : Host.Outcome State Fault Refusal :=
  .next (marginMeasure (ms.toList.map (fun m => sext m.toNat 16)) s)
def execProjectionUpdate (s : State) : Host.Outcome State Fault Refusal :=
  .next (if projectionDue s then projectAll s else s)
def execStressAccumulate (s : State) : Host.Outcome State Fault Refusal := .next (stressSecond s)
def execIslandTestSelect (s : State) : Host.Outcome State Fault Refusal := .next (islandTestSelect s)
def execIslandEmpty (s : State) : Host.Outcome State Fault Refusal := .next (islandEmpty s)
def execLogicBistEnd (fail : Option (Option (Fin 4))) (s : State) : Host.Outcome State Fault Refusal :=
  .next (logicBistEnd (fail.map (fun e => e.map (fun x => x.val))) s)
def execMarchEnd (ok : Bool) (s : State) : Host.Outcome State Fault Refusal := .next (marchEnd ok s)
def execIslandRelease (s : State) : Host.Outcome State Fault Refusal := .next (islandRelease s)
def execEvacuationTimeout (s : State) : Host.Outcome State Fault Refusal := .next (evacuationTimeout s)
def execCoreBistStart (n : Fin 4) (s : State) : Host.Outcome State Fault Refusal := .next (coreBistStart n s)
def execCoreBistAbort (n : Fin 4) (s : State) : Host.Outcome State Fault Refusal := .next (coreBistAbort n s)
def execCoreBistEnd (n : Fin 4) (ok : Bool) (s : State) : Host.Outcome State Fault Refusal := .next (coreBistEnd n ok s)
/-- `FCLR`: the world of the write is judged by the register itself (R467), beside the answer of R6. -/
def execFclr (m : Master) (v : Word) (s : State) : Host.Outcome State Fault Refusal :=
  let (r, s1) := fclrWrite v m.sec s
  .next { s1 with resp := r }

end Sys2Proof.Machine
end

