-- ==== Sys2Proof/Machine/Special.lean ====
section
/-! DEFINITION. The register sets and special registers of the elements (R32–R39, R71, R86, R100): what `MFS` and
the debugger read, what `MTS` and the debugger write, and when a mode change takes effect. -/

namespace Sys2Proof.Machine

/-- An element is a loop engine. -/
abbrev isEngine (i : Nat) : Bool := i < 32
/-- An element is an application core. -/
abbrev isAc (i : Nat) : Bool := 32 ≤ i && i < 36
/-- An element's MID and engine sub-identity (R25). -/
def elemMid (i : Nat) : Nat := if i < 32 then 8 + i / 4 else if i < 36 then i - 31 else 0
abbrev elemSub (i : Nat) : Nat := if i < 32 then i % 4 else 0
/-- The master that an element's access shows. -/
def elemMaster (i : Nat) (sec : Bool) : Master :=
  { mid := Fin.ofNat 32 (elemMid i), sub := Fin.ofNat 4 (elemSub i), sec := sec }

/-- The register set that runs on element `i`. -/
def State.rset (s : State) (i : Nat) : RegSet := (s.el i).set (s.el i).cur
/-- Replaces the register set that runs on element `i`. -/
def State.setRset (s : State) (i : Nat) (r : RegSet) : State := s.setEl i ((s.el i).putSet (s.el i).cur r)
/-- General register `n` of a set. -/
def RegSet.gr (r : RegSet) (n : Nat) : Word := Tbl.get (fun _ => 0) r.g n
/-- Replaces a general register. -/
def RegSet.setGr (r : RegSet) (n : Nat) (v : Word) : RegSet := { r with g := Tbl.set (fun _ => 0) r.g n v }

/-! ### `STATUS` (R35, R36, R99) -/

/-- The RW fields of `STATUS` as element `i` holds them: `DET` is 1 on engines and on `SV`, `IE` 0 on engines. -/
def fixStatus (i : Nat) (w : Word) : Word :=
  let v := w &&& 0xFFFF6F1F
  if i < 32 then setBit (setBit v 9 true) 10 false
  else if i = 36 then setBit v 9 true else v

/-- The mode bits `HND`, `IE`, `DET` and `PRIV` of a word, with the rest of another. -/
def withModes (old new : Word) : Word := (old &&& 0xFFFFF0FF) ||| (new &&& 0x00000F00)

/-- Every mode change in its window takes effect (R91, R101). -/
def RegSet.syncModes (r : RegSet) : RegSet :=
  { r with status := r.pendSt.foldl (fun w p => withModes w p.1) r.status, pendSt := [] }

/-- One instruction (or repeat unit) has ended: a mode change takes effect for the fourth instruction after its
`MTS` (R100). -/
def RegSet.tickModes (r : RegSet) : RegSet :=
  let left := r.pendSt.map (fun p => (p.1, p.2 - 1))
  { r with status := (left.filter (fun p => p.2 = 0)).foldl (fun w p => withModes w p.1) r.status,
           pendSt := left.filter (fun p => p.2 ≠ 0) }

abbrev stPriv (r : RegSet) : Bool := tb r.status 8
abbrev stHnd (r : RegSet) : Bool := tb r.status 11
abbrev repAct (r : RegSet) : Bool := tb r.status 13
abbrev repU (r : RegSet) : Bool := tb r.status 14
abbrev repLeft (r : RegSet) : Nat := fld r.status 31 16

/-! ### The special registers (R34) -/

/-- The element has a special register with this number. -/
def sregHas (i n : Nat) : Bool :=
  n ≤ 6 || (n = 7 && isAc i) || (8 ≤ n && n ≤ 0x0F) || (i < 32 && ((0x10 ≤ n && n ≤ 0x13) || (0x20 ≤ n && n ≤ 0x3F)))
/-- The special register is privileged. -/
def sregPriv (n : Nat) : Bool := (1 ≤ n && n ≤ 4) || (7 ≤ n && n ≤ 0x0F) || 0x20 ≤ n
/-- The writable bits of a special register that is one plain word. -/
def sregMask (i n : Nat) : Word :=
  if n = 1 then 0xE0FF00FF else if n = 2 then 0xFFFFFFFE else if n = 4 then 0xFFFFFF00
  else if n = 5 then (if i < 32 then 0xF else if i < 36 then 0xFFFF else 0)
  else if n = 6 then 1 else if n = 7 then 0xFFFFFFFE
  else if n = 0x0A then 0x80FF003F
  else if 0x20 ≤ n then
    (match n % 4 with | 2 => 0x0FFFFFFF | 3 => 0xC000000F | _ => 0xFFFFF000)
  else 0xFFFFFFFF

/-- The low and high words of an accumulator. -/
abbrev accLo (a : DWord) : Word := a.setWidth 32
abbrev accHi (a : DWord) : Word := (a >>> 32).setWidth 32
/-- A write of `ACCn_LO` also sets the high word to copies of its bit 31; one of `ACCn_HI` leaves the low word. -/
def accWrite (a : DWord) (hi : Bool) (v : Word) : DWord := if hi then v ++ accLo a else v.signExtend 64

/-- The value of a special register as set `k` of an element holds it. -/
def sregGet (e : ElemState) (k n : Nat) : Word :=
  let r := e.set k
  match n with
  | 0 => r.status | 1 => r.cause | 2 => r.epc | 3 => r.eva | 4 => e.vector | 5 => e.bank | 6 => e.world | 7 => e.ttb
  | 8 => r.estatus | 9 => r.ebank | 0x0A => r.progress | 0x0B => r.escr0 | 0x0C => r.escr1 | 0x0D => r.etime
  | 0x0E => e.cycle | 0x0F => 0
  | 0x10 => accLo r.acc0 | 0x11 => accHi r.acc0 | 0x12 => accLo r.acc1 | 0x13 => accHi r.acc1
  | n => if 0x20 ≤ n ∧ n ≤ 0x3F then Tbl.get (fun _ => 0) e.xblk (n - 0x20) else 0

/-- Puts a value into a special register of set `k` of element `i` at once. -/
def sregPut (i k n : Nat) (v : Word) (e : ElemState) : ElemState :=
  let r := e.set k
  let w := v &&& sregMask i n
  match n with
  | 0 => e.putSet k { r with status := fixStatus i v }
  | 1 => e.putSet k { r with cause := w }
  | 2 => e.putSet k { r with epc := w }
  | 3 => e.putSet k { r with eva := w }
  | 4 => { e with vector := w }
  | 5 => { e with bank := w, resv := if w = e.bank then e.resv else none }
  | 6 => if i = 36 then e else { e with world := w }
  | 7 => { e with ttb := w, resv := if w = e.ttb then e.resv else none }
  | 8 => e.putSet k { r with estatus := fixStatus i v }
  | 9 => e.putSet k { r with ebank := w }
  | 0x0A => e.putSet k { r with progress := w }
  | 0x0B => e.putSet k { r with escr0 := w }
  | 0x0C => e.putSet k { r with escr1 := w }
  | 0x0E => { e with cycle := w }
  | 0x10 => e.putSet k { r with acc0 := accWrite r.acc0 false v }
  | 0x11 => e.putSet k { r with acc0 := accWrite r.acc0 true v }
  | 0x12 => e.putSet k { r with acc1 := accWrite r.acc1 false v }
  | 0x13 => e.putSet k { r with acc1 := accWrite r.acc1 true v }
  | n =>
    if 0x20 ≤ n ∧ n ≤ 0x3F then
      { e with xblk := Tbl.set (fun _ => 0) e.xblk (n - 0x20) w,
               resv := if w = Tbl.get (fun _ => 0) e.xblk (n - 0x20) then e.resv else none }
    else e

/-! ### Values that no `SYNC` has completed (R100) -/

/-- The registers that a `SYNC` completes, other than `WORLD`. -/
def sregSlow (n : Nat) : Bool := n = 4 || n = 7 || 0x20 ≤ n

/-- The value of `VECTOR`, `WORLD`, `TTB` or an `XBLK_n` register that the present instruction uses. -/
def ElemState.seen (e : ElemState) (n : Nat) : Word :=
  match e.view.find? (fun p => p.1 = n) with
  | some p => p.2
  | none => sregGet e e.cur n

/-- The registers with a write that no `SYNC` has completed. -/
def pendNums (e : ElemState) : List Nat :=
  (e.pendSr.map Prod.fst).eraseDups ++ (if (e.set e.cur).pendWorld.isEmpty then [] else [6])
/-- The values a pending register may show: the old one and those written since. -/
def pendVals (e : ElemState) (n : Nat) : List Word :=
  if n = 6 then e.world :: (e.set e.cur).pendWorld
  else sregGet e e.cur n :: (e.pendSr.filter (fun p => p.1 = n)).map Prod.snd

/-- Chooses what the next instruction uses of each pending register: the old value or a new one, each by a free
value (log entry 1). -/
def openView (i : Nat) (s : State) : State :=
  let e := s.el i
  let (v, s1) := (pendNums e).foldl (fun (r : List (Nat × Word) × State) n =>
    let (x, s2) := r.2.draw
    let vs := pendVals e n
    (r.1 ++ [(n, vs.getD (x % vs.length) 0)], s2)) ([], s)
  if v.isEmpty && e.view.isEmpty then s else s1.setEl i { s1.el i with view := v }

/-- `SYNC` (R101): every earlier mode change takes effect. -/
def ElemState.sync (i : Nat) (e : ElemState) : ElemState :=
  let e1 := e.pendSr.foldl (fun e p => sregPut i e.cur p.1 p.2 e) { e with pendSr := [], view := [] }
  let r := (e1.set e1.cur).syncModes
  let e2 := { e1 with world := r.pendWorld.getLastD e1.world }
  e2.putSet e2.cur { r with pendWorld := [] }

/-- `MTS` (R36, R71, R100): a write by the program that runs, with its delays. -/
def mtsWrite (i n : Nat) (v : Word) (e : ElemState) : ElemState :=
  let r := e.set e.cur
  if n = 0 then
    if !stPriv r then e.putSet e.cur { r with status := (r.status &&& ~~~ 0x1F) ||| (v &&& 0x1F) }
    else
      let w := fixStatus i v
      e.putSet e.cur { r with status := withModes w r.status, pendSt := r.pendSt ++ [(w, 4)] }
  else if n = 6 then
    if i = 36 || !tb (e.seen 6) 0 then e
    else e.putSet e.cur { r with pendWorld := r.pendWorld ++ [v &&& 1] }
  else if sregSlow n then
    let w := v &&& sregMask i n
    let last := (pendVals e n).getLastD 0
    { e with pendSr := e.pendSr ++ [(n, w)], resv := if n = 4 || w = last then e.resv else none }
  else if n = 0x0D || n = 0x0F then e
  else sregPut i e.cur n v e

end Sys2Proof.Machine
end

