-- ==== Sys2Proof/Machine/Debug.lean ====
section
/-! DEFINITION. The `DBG` and `PATCH` blocks (R476–R489): run control, access to an element's registers, trace
and stimulus ports, virtual terminals and patch units. -/

namespace Sys2Proof.Machine

/-! ### Registers of a halted element (R482) -/

/-- Why an access through `REGDATA` fails, or the register set it reaches. -/
def regTarget (s : State) (i : Nat) : Except Nat Nat :=
  let sel := fld (s.rg (ra .dbg (Dbg.EL_REGNUM (rcNum i)))) 7 0
  let set := if isEngine i then fld (s.rg (ra .dbg (Dbg.EL_REGSEL (rcNum i)))) 7 6 else 0
  let has := (sel < 32 && (!isEngine i || sel < 16)) || sel = 0x40 || (0x80 ≤ sel && sregHas i (sel - 0x80))
  if !(s.el i).halted || !granted s i || !has || set = 3 then .error 4
  else if isEngine i && ((s.el i).run set).isNone then .error 5
  else .ok set

/-- A command that lacks its grant is ignored (R476). -/
def noAuth (i : Nat) (s : State) : State := s.setRgBit (ra .dbg (Dbg.EL_STAT (rcNum i))) 1 true

/-- The result of an access through `REGDATA`. -/
def regResult (i code : Nat) (s : State) : State := s.setRgFld (ra .dbg (Dbg.EL_REGSEL (rcNum i))) 11 8 code

/-- An access through `REGDATA` fails; without the grant that sets `NOAUTH` too (R476, R482). -/
def regFails (i code : Nat) (s : State) : State := regResult i code (if granted s i then s else noAuth i s)

/-- A read of `REGDATA`. -/
def regdataRead (i : Nat) (s : State) : Word × State :=
  match regTarget s i with
  | .error c => (0, regFails i c s)
  | .ok k =>
    let sel := fld (s.rg (ra .dbg (Dbg.EL_REGNUM (rcNum i)))) 7 0
    let r := (s.el i).set k
    let v := if sel < 32 then r.gr sel else if sel = 0x40 then r.pc else sregGet (s.el i) k (sel - 0x80)
    (v, regResult i 0 (s.setRg (ra .dbg (Dbg.EL_REGDATA (rcNum i))) v))

/-- A write of `REGDATA`.  `WORLD` is RWS: without the secure grant its write is an access to a secure register, with
`RESULT` 4 (R482; DEDUCED, log entry 24). -/
def regdataWrite (i : Nat) (v : Word) (s0 : State) : State :=
  let s := s0.setRg (ra .dbg (Dbg.EL_REGDATA (rcNum i))) v
  match regTarget s i with
  | .error c => regFails i c s
  | .ok k =>
    let sel := fld (s.rg (ra .dbg (Dbg.EL_REGNUM (rcNum i)))) 7 0
    let e := s.el i
    let r := e.set k
    if sel = 0x86 && !grantSec s then regResult i 4 s
    else
      let e1 := if sel < 32 then e.putSet k (r.setGr sel v)
        else if sel = 0x40 then e.putSet k { r with pc := v &&& 0xFFFFFFFE }
        else sregPut i k (sel - 0x80) v e
      regResult i 0 (s.setEl i e1)

/-! ### Run control (R476–R481, R484) -/


/-- `RESUME` (R479). -/
def elResume (i : Nat) (s : State) : State := if granted s i then resumeElem i s else noAuth i s
/-- `STEP` (R479): the halted element executes one instruction. -/
def elStep (i : Nat) (s : State) : State :=
  if !granted s i then noAuth i s
  else if !(s.el i).halted then s
  else
    let s1 := resumeElem i s
    { s1 with dbg.steps := addSorted i s1.dbg.steps }
/-- `ICINVA` (R484): ignored on a running element; only a core has an instruction cache. -/
def elIcinva (i : Nat) (s : State) : State :=
  if !granted s i then noAuth i s
  else if (s.el i).halted && isAc i then s.setEl i { s.el i with icache := [] } else s

/-- A write of `EL_n.CTRL`: the held fields, then the commands in the order of their bits. -/
def elCtrlWrite (i : Nat) (v : Word) (sec : Bool) (s : State) : State :=
  let s1 := plainWrite .dbg 0 (Dbg.EL_CTRL (rcNum i)) v sec s
  let s2 := if tb v 0 then haltRequest i 1 s1 else s1
  let s3 := if tb v 1 then elResume i s2 else s2
  let s4 := if tb v 2 then elStep i s3 else s3
  if tb v 9 then elIcinva i s4 else s4

/-! ### Stimulus ports and terminals (R485, R487) -/

/-- The run-control number that a packet shows for a master: an element's, else a free value. -/
def stimElem (m : Master) (s : State) : Nat × State :=
  let mid := m.mid.val
  if mid = 0 then (0, s)
  else if mid ≤ 4 then (mid, s)
  else if 8 ≤ mid ∧ mid ≤ 15 then (8 + (mid - 8) * 4 + m.sub.val, s)
  else
    let (x, s1) := s.draw
    (x % 64, s1)

/-- A write of `DBG.STIM_k`. -/
def stimWrite (m : Master) (k : Nat) (v : Word) (s : State) : Resp × State :=
  if !tb (s.rg (ra .dbg Dbg.STIMEN)) k || !tb (s.rg (ra .dbg Dbg.TRCFG)) 31 then (.ok 0, s)
  else
    let mid := m.mid.val
    let port := if 8 ≤ mid ∧ mid ≤ 15 then mid - 8 else if 1 ≤ mid ∧ mid ≤ 4 then 8 else 9
    let (el, s1) := stimElem m s
    let (t, s2) := timePort port s1
    (.ok 0, tracePacket 1 el k v 0 (w32 t.toNat) m.sec s2)

/-- A write of `VT_n.OUT` or `VT_n.IN` updates all its fields at once (R7, R487): a 1 in a W1C bit clears it; the byte
is taken while `FULL` = 0 and sets `FULL`, unless the same write clears it, and is ignored while `FULL` = 1, which
sets `OVR` unless the same write clears `FULL` or `OVR` (DESIGN CHOICE for a write that does both, log entry 24). -/
def vtWrite (o : Nat) (out : Bool) (v : Word) (s : State) : State :=
  let a := ra .dbg o
  let full := tb (s.rg a) 31
  let s1 := if out && tb v 30 then s.setRgBit a 30 false else s
  if tb v 31 then (if full then s1.setRgBit a 31 false else s1.setRgFld a 7 0 v.toNat)
  else if full then (if out && !tb v 30 then s1.setRgBit a 30 true else s1)
  else (s1.setRgFld a 7 0 v.toNat).setRgBit a 31 true

/-! ### The blocks -/

/-- A write of `DBG.RST` (R482). -/
def dbgRst (v : Word) (s : State) : State := if tb v 0 && (grantNs s || grantSec s) then resetBy [8] s else s

/-- A write of a `DBG` register other than `BDATA`; `sec` is the world, or for the debug port the secure grant. -/
def dbgWrite (m : Master) (o : Nat) (v : Word) (sec : Bool) (s : State) : Resp × State :=
  if o = Dbg.RST then (.ok 0, dbgRst v s)
  else if o = Dbg.BCTL then
    let v1 := if grantSec s then v else setBit v 30 false
    (.ok 0, plainWrite .dbg 0 o v1 sec s)
  else if 0x1000 ≤ o ∧ o < 0x1500 then
    match rcElem ((o - 0x1000) / 0x20) with
    | none => (.ok 0, s)
    | some i =>
      match o % 0x20 with
      | 0 => (.ok 0, elCtrlWrite i v sec s)
      | 0x10 => (.ok 0, regdataWrite i v s)
      | _ => (.ok 0, plainWrite .dbg 0 o v sec s)
  else if 0x200 ≤ o ∧ o < 0x280 then stimWrite m ((o - 0x200) / 4) v s
  else if 0x300 ≤ o ∧ o < 0x328 then (.ok 0, vtWrite o (o % 8 = 0) v s)
  else (.ok 0, plainWrite .dbg 0 o v sec s)

/-- A read of a `DBG` register other than `BDATA`. -/
def dbgRead (o : Nat) (s : State) : Word × State :=
  if o = Dbg.AUTH then (w32 s.sec.grants.toNat, s)
  else if 0x120 ≤ o ∧ o < 0x130 then
    ((Tbl.get (fun _ => []) s.dbg.packets (fld (s.rg (ra .dbg Dbg.TRRD)) 11 0)).getD ((o - 0x120) / 4) 0, s)
  else if 0x1000 ≤ o ∧ o < 0x1500 then
    match rcElem ((o - 0x1000) / 0x20) with
    | none => (0, s)
    | some i => if o % 0x20 = 0x10 then regdataRead i s else (plainRead s .dbg 0 o, s)
  else (plainRead s .dbg 0 o, s)

/-- A write of a `PATCH` register (R483, R484, R489): a debug port that holds the secure grant writes RWS fields
too, and only such a writer enables a remap. -/
def patchWrite (m : Master) (o : Nat) (v : Word) (s : State) : Resp × State :=
  let sec := m.sec || (m.mid = 24 && grantSec s)
  if 0x400 ≤ o then (.ok 0, plainWrite .patch 0 o v sec s)
  else
    let old := s.rg (ra .patch o)
    let v1 := if o % 16 = 0 && !sec && fld v 29 28 = 0 then setBit v 31 (fld old 29 28 = 0 && tb old 31) else v
    (.ok 0, flInvalidate (plainWrite .patch 0 o v1 sec s))

/-! ### Commands -/

abbrev elCtrl (e : Elem) : Nat := ra .dbg (Dbg.EL_CTRL (rcNum (elemIdx e)))
def execHalt (m : Master) (e : Elem) (s : State) : Host.Outcome State Fault Refusal :=
  .next (regAccess m (elCtrl e) (fun s => (.ok 0, haltRequest (elemIdx e) 1 s)) s)
def execResume (m : Master) (e : Elem) (s : State) : Host.Outcome State Fault Refusal :=
  .next (regAccess m (elCtrl e) (fun s => (.ok 0, elResume (elemIdx e) s)) s)
def execStep (m : Master) (e : Elem) (s : State) : Host.Outcome State Fault Refusal :=
  .next (regAccess m (elCtrl e) (fun s => (.ok 0, elStep (elemIdx e) s)) s)
def execIcinva (m : Master) (e : Elem) (s : State) : Host.Outcome State Fault Refusal :=
  .next (regAccess m (elCtrl e) (fun s => (.ok 0, elIcinva (elemIdx e) s)) s)
/-- `REGDATA_ACCESS`: a write of `v`, or a read, which with the debug attribute changes no register (R9). -/
def execRegdataAccess (m : Master) (e : Elem) (v : Option Word) (s : State) : Host.Outcome State Fault Refusal :=
  .next (regAccess m (ra .dbg (Dbg.EL_REGDATA (rcNum (elemIdx e)))) (fun s => match v with
    | some w => (.ok 0, regdataWrite (elemIdx e) w s)
    | none => let (w, s1) := regdataRead (elemIdx e) s; (.ok w, if m.mid = 24 then s else s1)) s)
def execDbgRst (m : Master) (v : Word) (s : State) : Host.Outcome State Fault Refusal :=
  .next (regAccess m (ra .dbg Dbg.RST) (fun s => (.ok 0, dbgRst v s)) s)
def execPatchWrite (m : Master) (k : Fin 64) (w : Fin 4) (v : Word) (s : State) : Host.Outcome State Fault Refusal :=
  .next (regAccess m (ra .patch (16 * k.val + 4 * w.val)) (patchWrite m (16 * k.val + 4 * w.val) v) s)
def execStimWrite (m : Master) (k : Fin 32) (v : Word) (s : State) : Host.Outcome State Fault Refusal :=
  .next (regAccess m (ra .dbg (Dbg.STIM k)) (stimWrite m k v) s)
def execVtOutWrite (m : Master) (n : Fin 5) (b : BitVec 8) (s : State) : Host.Outcome State Fault Refusal :=
  .next (regAccess m (ra .dbg (Dbg.VT_OUT n)) (fun s => (.ok 0, vtWrite (Dbg.VT_OUT n) true (w32 b.toNat) s)) s)
def execVtInWrite (m : Master) (n : Fin 5) (b : BitVec 8) (s : State) : Host.Outcome State Fault Refusal :=
  .next (regAccess m (ra .dbg (Dbg.VT_IN n)) (fun s => (.ok 0, vtWrite (Dbg.VT_IN n) false (w32 b.toNat) s)) s)
/-- `VT_FULL_CLEAR`: the byte of `OUT` or of `IN` is taken. -/
def execVtFullClear (m : Master) (n : Fin 5) (out : Bool) (s : State) : Host.Outcome State Fault Refusal :=
  let o := if out then Dbg.VT_OUT n else Dbg.VT_IN n
  .next (regAccess m (ra .dbg o) (fun s => (.ok 0, vtWrite o out 0x80000000 s)) s)

end Sys2Proof.Machine
end

