-- ==== Sys2Proof/Machine/Feedback.lean ====
section
/-! DEFINITION. Position feedback and the Awl mark unit (R194–R228): local units, serial encoder ports, the
feedback block, tracks, mark outputs and the log. -/

namespace Sys2Proof.Machine

/-! ### Claims and the feedback block (R194–R197) -/

/-- Address of a register of unit `f`, port `p`. -/
abbrev fr (f o : Nat) : Nat := ri .fb f o
abbrev sr (p o : Nat) : Nat := ri .senc p o
/-- `AXIS` and `TRIG` of a port have the offsets that they have in a unit (R227). -/
abbrev sencAxisReg : Nat := 8

/-- An enabled source has claimed the slot (R194); `skip` leaves one source out (unit, 12 + port, 32 + 8 ×
link + axis). -/
def fbClaimed (s : State) (x skip : Nat) : Bool :=
  (List.range 12).any (fun f => f ≠ skip && tb (s.rg (fr f Fb.CFG)) 31 &&
      tb (s.rg (fr f Fb.AXIS)) 31 && fld (s.rg (fr f Fb.AXIS)) 7 0 = x)
    || (List.range 8).any (fun p => 12 + p ≠ skip && tb (s.rg (sr p Senc.CFG)) 31 &&
      tb (s.rg (sr p sencAxisReg)) 31 && fld (s.rg (sr p sencAxisReg)) 7 0 = x)
    || (List.range 16).any (fun l => (List.range 8).any (fun a => 32 + 8 * l + a ≠ skip && tethEn s l a &&
      tb (s.rg (ri .teth l (Teth.AX_AX a))) 30 && tethSlot s l a = x))

/-- Speed unit: Selvedge ticks per ms times 2^16 (R208). -/
def speedUnit : Int := 52428800000

/-- A quotient toward zero clamped to ±(2^31 − 1), and whether it was clamped (R208). -/
def speedOf (dl dt : Int) : Int × Bool :=
  let q := Int.tdiv (dl * speedUnit) dt
  (clampI q (-2147483647) 2147483647, q < -2147483647 || q > 2147483647)

/-! ### Tracks (R218–R224) -/

/-- `REV_COUNT` of a source, 0 standing for 2^32. -/
def revOf (w : Word) : Nat := if w = 0 then 2 ^ 32 else w.toNat
/-- Linear position (R203). -/
def linear (pos turns : Word) (rev : Nat) : Int := turns.toInt * (rev : Int) + pos.toNat

/-- A 64-bit crossing condition (R221): forward when L has reached T, backward when T has reached L. -/
def crossed (back : Bool) (l t : Int) : Bool :=
  if back then wrap (t - l) 64 < 2 ^ 63 else wrap (l - t) 64 < 2 ^ 63

/-- The track's register. -/
abbrev tr (o : Nat) : Nat := ra .awl o
/-- `TRK_k.CFG`. -/
abbrev trkCfg (s : State) (k : Nat) : Word := s.rg (tr (Awl.TRK_CFG k))
/-- Tracks run and outputs may be active: not in CONFIGURE, SERVICE and SAFE_HOLD (R223), nor while the fast
clocks stand. -/
def awlRuns (s : State) : Bool := opMode s = 4 || opMode s = 5

/-- `REV_COUNT` of the source of axis slot `x`: the port's 2^POSBITS, a station's `FBREV`, or a unit's. -/
def slotRev (s : State) (x : Nat) : Nat :=
  match (List.range 12).find? (fun f => tb (s.rg (fr f Fb.CFG)) 31 && tb (s.rg (fr f Fb.AXIS)) 31 && fld (s.rg (fr f Fb.AXIS)) 7 0 = x) with
  | some f => revOf (s.rg (fr f Fb.REV_COUNT))
  | none =>
    match (List.range 8).find? (fun p => tb (s.rg (sr p Senc.CFG)) 31 && tb (s.rg (sr p sencAxisReg)) 31 && fld (s.rg (sr p sencAxisReg)) 7 0 = x) with
    | some p => 2 ^ fld (s.rg (sr p Senc.FRAME)) 21 16
    | none => match linkOf s x with
      | some (l, a) => revOf (s.rg (ri .teth l (Teth.AX_FBREV a)))
      | none => 2 ^ 32

/-- `REV_COUNT` of a track's source (R218). -/
def trkRev (s : State) (k : Nat) : Nat :=
  let c := trkCfg s k
  if tb c 8 then slotRev s (fld c 7 0) else revOf (s.rg (fr (fld c 7 0) Fb.REV_COUNT))

/-- The target of an entry (R218). -/
def entryTarget (e : MarkEntry) (rev : Nat) : Int := linear e.w0 e.w1 rev

/-- The track stops (R219): `EN` reads 0 and nothing is armed. -/
def trkStop (k : Nat) (s : State) : State :=
  ((s.setRgBit (tr (Awl.TRK_CFG k)) 31 false).setRgBit (tr (Awl.TRK_STAT k)) 0 false).setTrk k
    { s.trk k with entry := none, armAt := none, sched := none, schedLate := false }

/-- The entry at `PTR` is read, by the Awl as a non-secure master with MID 22 (R25, R391), and armed; an invalid one stops
the track (R219, R220).  DESIGN CHOICE (log entry 69): an entry that cannot be read, because a region refuses it or a
word of it is poisoned, counts as an invalid one. -/
def trkArm (k : Nat) (s0 : State) : State :=
  let i := fld (s0.rg (tr (Awl.TRK_PTR k))) 14 0
  let r := agentRead midAwl false (0x28000000 + 16 * i) 16 s0
  let s := r.2
  let bs := r.1.getD []
  let w (j : Nat) : Word := w32 (ofBytes ((bs.drop (4 * j)).take 4))
  let e : MarkEntry := { w0 := w 0, w1 := w 1, w2 := w 2, w3 := w 3 }
  if r.1.isNone || fld e.w2 23 22 ≥ 2 || fld e.w2 18 16 ≠ 0 || fld e.w3 15 0 ≠ 0 then
    trkStop k (s.setRgBit (tr (Awl.TRK_STAT k)) 4 true)
  else
    (s.setRgBit (tr (Awl.TRK_STAT k)) 0 true).setTrk k
      { s.trk k with entry := some e, armedAt := coarse s, armAt := none, sched := none, schedLate := false }

/-- One record of the mark log (R224), which the Awl writes as a non-secure master with MID 22 (R25, R391). -/
def awlLog (time pos turns last : Nat) (s : State) : State :=
  if !tb (s.rg (tr Awl.LOGCFG)) 31 then s
  else
    let n := 2 ^ max 4 (min 16 (fld (s.rg (tr Awl.LOGCFG)) 4 0))
    let w := fld (s.rg (tr Awl.LOGW)) 15 0 % n
    if (w + 1) % n = fld (s.rg (tr Awl.LOGR)) 15 0 % n then
      raiseEvent 0x3B0 (bump .awl 0 Awl.LOGOVF_CNT (s.setRgBit (tr Awl.STAT) 1 true))
    else
      let a := (s.rg (tr Awl.LOGBASE)).toNat * 256 + 16 * w
      let s1 := s.setRg (tr Awl.LOGW) (w32 ((w + 1) % n))
      let r := agentWrite midAwl false a (toBytes 4 time ++ toBytes 4 pos ++ toBytes 4 turns ++ toBytes 4 last) s1
      if r.1 then r.2 else r.2.setRgBit (tr Awl.STAT) 0 true

/-- The outputs of a firing pulse from coarse tick `from_` on; a pulse that is still active at the firing tick is
extended, which is an overlap where the output is enabled (R223). -/
def pulse (k out width from_ : Nat) (s : State) : State :=
  if width = 0 then s
  else (List.range 8).foldl (fun s m =>
    if out.testBit m then
      match s.mark m with
      | some p =>
        if p.stop > coarse s then
          (if tb (s.rg (tr Awl.OUTCFG)) m then s.setRgBit (tr (Awl.TRK_STAT k)) 3 true else s).setMark m
            (some { p with stop := from_ + width })
        else s.setMark m (some { start := from_, stop := from_ + width })
      | none => s.setMark m (some { start := from_, stop := from_ + width })
    else s) s

/-- An entry fires (R219, R223, R224): pulse, log, counters, and the next entry or the end of the track. -/
def trkFire (k : Nat) (e : MarkEntry) (late pred : Bool) (from_ : Nat) (pos turns : Word) (s : State) : State :=
  let s1 := pulse k (fld e.w2 31 24) (fld e.w2 15 0) from_ s
  let s2 := if late then s1.setRgBit (tr (Awl.TRK_STAT k)) 2 true else s1
  let s3 := bump .awl 0 (Awl.TRK_FIRED k) s2
  let s4 := if tb e.w2 21 then raiseEvent (0x3A0 + k) s3 else s3
  let s5 := if tb e.w2 20 then
      awlLog (2 * from_) pos.toNat turns.toNat
        (fld e.w3 31 16 * 65536 + k * 8192 + b2n pred * 4096 + b2n late * 2048) s4
    else s4
  let ptr := fld (s.rg (tr (Awl.TRK_PTR k))) 14 0
  if ptr = (s.trk k).limit || tb e.w2 19 then
    raiseEvent (0x3A8 + k) ((trkStop k s5).setRgBit (tr (Awl.TRK_STAT k)) 1 true)
  else
    ((s5.setRg (tr (Awl.TRK_PTR k)) (w32 ((ptr + 1) % 32768))).setRgBit (tr (Awl.TRK_STAT k)) 0 false).setTrk k
      { s5.trk k with entry := none, armAt := some (coarse s + 1), sched := none, schedLate := false }

/-- An armed entry of a track of kind 0 holds (R221). -/
def markDue (s : State) (k : Nat) : Bool :=
  let c := trkCfg s k
  awlRuns s && tb c 31 && !tb c 8 && match (s.trk k).entry with
    | some e => crossed (fld e.w2 23 22 = 1) (s.fb (fld c 7 0)).lEnd (entryTarget e (trkRev s k))
    | none => false

/-- A track of kind 0 fires: the outputs go active at the tick after (R221). -/
def markFire (k : Nat) (s : State) : State :=
  match (s.trk k).entry with
  | none => s
  | some e =>
    let u := s.fb (fld (trkCfg s k) 7 0)
    trkFire k e ((s.trk k).armedAt = coarse s) false (coarse s + 1) u.pos u.turns s

/-- A predicted crossing's tick has come (R222). -/
def predictedDue (s : State) (k : Nat) : Bool :=
  let c := trkCfg s k
  awlRuns s && tb c 31 && tb c 8 && match (s.trk k).sched with
    | some t => t ≤ coarse s
    | none => false
def predictedFire (k : Nat) (s : State) : State :=
  match (s.trk k).entry with
  | none => s
  | some e => trkFire k e (s.trk k).schedLate true (coarse s) e.w0 e.w1 s

/-- A track of kind 1 takes a feedback block of its slot (R222). -/
def trkPredict (k : Nat) (l speed : Int) (tf : DWord) (s : State) : State :=
  match (s.trk k).entry with
  | none => s
  | some e =>
    let t := entryTarget e (trkRev s k)
    let back := fld e.w2 23 22 = 1
    let x := s.trk k
    if crossed back l t then s.setTrk k { x with sched := some (coarse s + 1), schedLate := true }
    else if speed = 0 || (speed < 0) ≠ back then s.setTrk k { x with sched := none, schedLate := false }
    else
      let dt := -(Int.fdiv (-((t - l) * speedUnit)) speed)
      if dt > (s.rg (tr (Awl.TRK_HORIZON k))).toNat then s.setTrk k { x with sched := none, schedLate := false }
      else
        let tick := ((tf.toNat : Int) + dt + 1) / 2
        if 2 * tick < s.time.selvedge.toNat then s.setTrk k { x with sched := some (coarse s + 1), schedLate := true }
        else s.setTrk k { x with sched := some tick.toNat, schedLate := false }

/-- Every track of kind 1 bound to a slot sees its block, unless it is stale (R219, R222). -/
def awlSeesBlock (x : Nat) (pos turns speed : Word) (tf : DWord) (stale : Bool) (s : State) : State :=
  if stale || !awlRuns s then s
  else (List.range 8).foldl (fun s k =>
    let c := trkCfg s k
    if tb c 31 && tb c 8 && fld c 7 0 = x then trkPredict k (linear pos turns (trkRev s k)) speed.toInt tf s else s) s

/-- The feedback block of a slot is written into every bound bank, or counted as dropped (R195–R197); `mid` is the Twill
master that writes. -/
def feedbackPort (mid : Option (Fin 32)) (x : Nat) (pos turns speed : Word) (time : DWord) (flags src : Nat) (dropBlk : Option (Blk × Nat × Nat))
    (s : State) : State :=
  if x < 128 && ctxBound s x then
    let q := (Tbl.get (fun _ => 0) s.feed.seq x + 1) % 256
    let s1 := { s with feed.seq := Tbl.set (fun _ => 0) s.feed.seq x q }
    let bs := toBytes 4 pos.toNat ++ toBytes 4 turns.toNat ++ toBytes 4 speed.toNat ++ toBytes 4 time.toNat ++
      toBytes 4 (q * 2 ^ 24 + src * 2 ^ 22 + flags)
    awlSeesBlock x pos turns speed time (flags.testBit 15) (wakeCtx x 5 (bankWrite mid x 0x20 bs s1))
  else
    let s1 := match dropBlk with | some (b, i, o) => bump b i o s | none => s
    axisDrop x s1

/-! ### Local units (R199–R209) -/

/-- Sets a `STAT` flag of a unit. -/
def fbFlag (f i : Nat) (s : State) : State := s.setRgBit (fr f Fb.STAT) i true
/-- `CFG.MODE` of an enabled unit: 1 quadrature, 2 Hall, 3 I/O, else off. -/
def fbMode (s : State) (f : Nat) : Nat :=
  let c := s.rg (fr f Fb.CFG)
  if tb c 31 then fld c 30 28 else 0
/-- Samples that the filter asks for (R200). -/
def filtK (s : State) (f : Nat) : Nat :=
  let c := s.rg (fr f Fb.CFG)
  (fld c 7 0 + 1) * (if tb c 16 then 16 else 1)

/-- The counts and the speed start afresh (R206, R208). -/
def fbRestart (f : Nat) (s : State) : State :=
  s.setFb f
    { s.fb f with last := none, ref := none, sign := none, revTime := none, newRef := false, skipIdx := true,
                  net := 0, reversed := false, t0 := s.time.selvedge }

/-- `LOAD` (R204, R207). -/
def fbLoad (f : Nat) (s : State) : State :=
  let rev := revOf (s.rg (fr f Fb.REV_COUNT))
  let t := s.rg (fr f Fb.SETTURN)
  let s1 := s.setFb f { s.fb f with
    pos := w32 ((s.rg (fr f Fb.SETPOS)).toNat % rev), turns := if t = 0x80000000#32 then 0x80000001#32 else t,
    loadDue := false }
  fbRestart f (s1.setRgBit (fr f Fb.STAT) 8 false)

/-- `POSITION` and `TURNS` after a move of ±1, and whether the turns saturate (R203). -/
def stepPos (pos turns : Word) (rev : Nat) (up : Bool) : Word × Word × Bool :=
  if up then
    if pos.toNat + 1 ≥ rev then
      (if turns.toInt ≥ 2147483647 then (0, turns, true) else (0, turns + 1, false))
    else (pos + 1, turns, false)
  else
    if pos = 0 then
      (if turns.toInt ≤ -2147483647 then (w32 (rev - 1), turns, true) else (w32 (rev - 1), turns - 1, false))
    else (pos - 1, turns, false)

/-- One count of a unit, whose edge was first sampled at coarse tick `since` (R200, R203, R208, R209). -/
def fbCount (f since : Nat) (up : Bool) (s : State) : State :=
  let u := s.fb f
  let rev := revOf (s.rg (fr f Fb.REV_COUNT))
  let (p, t, sat) := stepPos u.pos u.turns rev up
  let s0 := if sat then fbFlag f 8 s else s
  let e : CountEdge := { time := w64 (2 * since), pos := linear p t rev }
  let u1 := { u with pos := p, turns := t, sign := some up, net := u.net + (if up then 1 else -1), last := some e }
  if u.sign = some (!up) then
    s0.setFb f { u1 with reversed := true, revTime := some e.time, newRef := true, flags := setBit u.flags 8 true }
  else if u.newRef then s0.setFb f { u1 with newRef := false, ref := some e }
  else s0.setFb f { u1 with revTime := if u.ref.isSome then none else u.revTime }

/-- A counting error (R196, R201, R202). -/
def fbError (f bit : Nat) (s : State) : State :=
  let s1 := fbFlag f bit s
  raiseEvent (0x3C0 + f) (s1.setFb f { s1.fb f with flags := setBit (s1.fb f).flags 6 true })

/-- The filtered levels Z, B, A as `STAT.LEVEL` shows them. -/
def fbLevel (s : State) (f : Nat) : Nat := fld (s.rg (fr f Fb.STAT)) 31 29

/-- The coarse tick at which the filter first sampled the present level of input `i` (0 A, 1 B, 2 Z). -/
def fbSince (s : State) (f i : Nat) : Nat := Tbl.get (fun _ => 0) (s.fb f).since i

/-- The inputs in `mask` have the levels `lv` (Z, B, A), which the filter has sampled `n` times; with `n` = 0 they have
just come to the balls, and the synchroniser hands on their first sample two ticks later (R200). -/
def fbSample (f mask lv n : Nat) (s : State) : State :=
  let u := s.fb f
  let first := if n = 0 then coarse s + 2 else coarse s + 1 - n
  let put (i : Nat) (l : Tbl Nat) : Tbl Nat :=
    if mask.testBit i then
      Tbl.set (fun _ => 0) l i (if u.pins.toNat.testBit i = lv.testBit i then min (fbSince s f i) first else first)
    else l
  s.setFb f { u with pins := BitVec.ofNat 3 ((u.pins.toNat &&& (7 - mask)) ||| (lv &&& mask)),
                     since := put 2 (put 1 (put 0 u.since)) }

/-- The filtered levels of a unit: those that the filter has sampled k times, else as they were (R200). -/
def fbAccepted (s : State) (f : Nat) : Nat :=
  let bit (i : Nat) : Nat :=
    2 ^ i * b2n (if fbSince s f i + filtK s f ≤ coarse s + 1 then (s.fb f).pins.toNat.testBit i else (fbLevel s f).testBit i)
  bit 0 + bit 1 + bit 2
/-- The levels at a unit's balls, Z, B, A: an output of I/O mode has the level it drives (R199). -/
def fbBalls (s : State) (f : Nat) : Nat :=
  let w := s.rg (fr f Fb.GPIO)
  let dir := if fbMode s f = 3 then fld w 2 0 else 0
  (fld w 10 8 &&& dir) ||| ((s.fb f).pins.toNat &&& (7 - dir))

/-- The filtered levels of A and B were those of `old`: a change of one counts, a change of both in one tick is an error
(R201). -/
def quadMove (f old : Nat) (s : State) : State :=
  let lv := fbLevel s f
  let (oa, ob, a, b) := (old.testBit 0, old.testBit 1, lv.testBit 0, lv.testBit 1)
  let inv := tb (s.rg (fr f Fb.CFG)) 27
  if oa ≠ a ∧ ob ≠ b then bump .fb f Fb.QERR_CNT (fbError f 2 s)
  else if oa ≠ a then fbCount f (fbSince s f 0) ((a ≠ ob) != inv) s
  else if ob ≠ b then fbCount f (fbSince s f 1) ((b = oa) != inv) s
  else s

/-- The filtered Hall state h = (W, V, U) = (Z, B, A) was `old`: the change counts, skips or is impossible (R202).  The
edge time is that of the input accepted last.  DESIGN CHOICE (log entry 64): a `HALLMAP` field of 6, which is no sector,
marks h as impossible as 7 does. -/
def hallMove (f old : Nat) (s : State) : State :=
  let h := fbLevel s f
  let c := s.rg (fr f Fb.CFG)
  let sec := fld (s.rg (fr f Fb.STAT)) 26 24
  let new := fld (s.rg (fr f Fb.HALLMAP)) (3 * h + 2) (3 * h)
  let since := ((List.range 3).filter (fun i => h.testBit i ≠ old.testBit i)).foldl (fun m i => max m (fbSince s f i)) 0
  if new > 5 then fbError f 3 s
  else
    let s2 := s.setRgFld (fr f Fb.STAT) 26 24 new
    if new = (sec + 1) % 6 then fbCount f since (!tb c 27) s2
    else if new = (sec + 5) % 6 then fbCount f since (tb c 27) s2
    else
      let s3 := fbError f 4 s2
      s3.setFb f { s3.fb f with last := none, ref := none, revTime := none, newRef := false, t0 := s.time.selvedge }

/-- The filtered levels were those of `old`: a rising Z may be an accepted index (R205–R207). -/
def indexMove (f old : Nat) (s : State) : State :=
  let c := s.rg (fr f Fb.CFG)
  let lv := fbLevel s f
  let ab := b2n (lv.testBit 0) * 2 + b2n (lv.testBit 1)
  if !lv.testBit 2 || old.testBit 2 || (tb c 21 && ab ≠ fld c 23 22) then s
  else
    let u := s.fb f
    let rev := (s.rg (fr f Fb.REV_COUNT)).toNat
    let bad := !u.skipIdx && rev ≠ 0 && !u.reversed && u.net.natAbs ≠ rev
    let s2 := if bad then (fbFlag f 5 s).setRg (fr f Fb.IDXDIFF) (wInt ((u.net.natAbs : Int) - rev)) else s
    let s3 := raiseEvent (0x3CC + f) (s2.setFb f { u with
      idxPos := u.pos, idxTurn := u.turns, flags := setBit u.flags 7 true, net := 0, reversed := false, skipIdx := false })
    if u.armed && fld c 25 24 = 1 then fbLoad f (s3.setFb f { s3.fb f with armed := false }) else s3

/-- The filter of a unit accepts what it has sampled long enough, and the mode says what that does; while the unit is off
its inputs are ignored (R199–R202, R205). -/
def fbFilter (f : Nat) (s : State) : State :=
  let old := fbLevel s f
  let new := fbAccepted s f
  let mode := fbMode s f
  if new = old || mode = 0 || mode > 3 then s
  else
    let s1 := s.setRgFld (fr f Fb.STAT) 31 29 new
    if mode = 1 then indexMove f old (quadMove f old s1) else if mode = 2 then hallMove f old s1 else s1

/-- `SPEED` at a capture, with its flags and the new reference (R208, R209). -/
def fbSpeed (s : State) (f : Nat) : Int × Nat × Option CountEdge :=
  let u := s.fb f
  let tc : Int := s.time.selvedge.toNat
  let old := (s.rg (fr f Fb.SPEED)).toInt
  let stopT : Int := 256 * fld (s.rg (fr f Fb.STOPTIME)) 23 0
  let tE : Int := match u.revTime, u.last with
    | some r, _ => r.toNat
    | none, some e => e.time.toNat
    | none, none => u.t0.toNat
  let (v, fl, ref) : Int × Nat × Option CountEdge := match u.ref, u.last with
    | some r, some e =>
      if e ≠ r && e.time.toNat > r.time.toNat && u.revTime.isNone then
        let (q, c) := speedOf (e.pos - r.pos) ((e.time.toNat : Int) - r.time.toNat)
        (q, b2n c * 1024, some e)
      else
        let lim : Int := if tc ≤ tE then old.natAbs else speedUnit / (tc - tE)
        (if old < 0 then -(min (old.natAbs : Int) lim) else min (old.natAbs : Int) lim, 0, some r)
    | none, l => (0, 0, l)
    | some r, none => (0, 0, some r)
  if tc - tE ≥ stopT then (0, fl + 512, ref) else (v, fl, ref)

/-- A capture of a local unit (R198, R208): the values are latched, and the block is due 6 coarse ticks on. -/
def fbCapture (f : Nat) (s : State) : State :=
  let u := s.fb f
  let (v, fl, ref) := fbSpeed s f
  let s1 := s.setRg (fr f Fb.SPEED) (wInt v)
  let s2 := if fl.testBit 10 then fbFlag f 6 s1 else s1
  let flags := (u.flags.toNat ||| fl) ||| b2n (tb (s.rg (fr f Fb.STAT)) 8) * 2048
  raiseEvent (0x380 + f) (s2.setFb f { u with
    capDue := false, ref := ref, flags := 0,
    latches := u.latches ++ [{ pos := u.pos, turns := u.turns, speed := wInt v, time := s.time.selvedge,
                               flags := w32 flags, due := s.time.selvedge.toNat + 12 }] })

/-- The flags of a block that is not written stay for the next one: they describe the interval since the previous
write (R196). -/
def keepFlags (f : Nat) (flags : Word) (s : State) : State :=
  let u := s.fb f
  let kept := flags &&& 0x5C0
  match u.latches with
  | [] => s.setFb f { u with flags := u.flags ||| kept }
  | l :: rest => s.setFb f { u with latches := { l with flags := l.flags ||| kept } :: rest }

/-- The oldest latched block of a unit is written (R197, R198). -/
def fbBlockWrite (f : Nat) (s : State) : State :=
  match (s.fb f).latches with
  | [] => s
  | l :: rest =>
    let ax := s.rg (fr f Fb.AXIS)
    let x := fld ax 7 0
    let s1 := s.setFb f { s.fb f with latches := rest }
    if !tb ax 31 then keepFlags f l.flags s1
    else
      let s2 := feedbackPort none x l.pos l.turns l.speed l.time l.flags.toNat 0 (some (.fb, f, Fb.DROPS)) s1
      if x < 128 && ctxBound s x then s2 else keepFlags f l.flags s2
/-- Six coarse ticks have passed since the oldest capture that waits (R198). -/
def fbBlockDue (s : State) (f : Nat) : Bool :=
  match (s.fb f).latches with
  | [] => false
  | l :: _ => l.due ≤ s.time.selvedge.toNat

/-- A write of `FB_f.CFG` (R194, R199).  At an enable in Hall mode the Hall state as it stands gives `SECTOR` (DEDUCED,
log entry 64). -/
def fbCfgWrite (f : Nat) (v : Word) (sec : Bool) (s : State) : Resp × State :=
  let a := fr f Fb.CFG
  let was := s.rg a
  let s1 := plainWrite .fb f Fb.CFG v sec s
  if tb was 31 then
    let keep : Word := 0x780100FF#32
    (.ok 0, s1.setRg a ((s1.rg a &&& ~~~ keep) ||| (was &&& keep)))
  else if !tb v 31 then (.ok 0, s1)
  else
    let ax := s.rg (fr f Fb.AXIS)
    if tb ax 31 && fbClaimed s (fld ax 7 0) f then (.ok 0, fbFlag f 7 (s1.setRgBit a 31 false))
    else
      let rev := revOf (s.rg (fr f Fb.REV_COUNT))
      let h := (s1.fb f).pins.toNat
      let sec := fld (s.rg (fr f Fb.HALLMAP)) (3 * h + 2) (3 * h)
      let mode := fld v 30 28
      let s2 := fbRestart f (if mode = 0 || mode > 3 then s1 else s1.setRgFld (fr f Fb.STAT) 31 29 h)
      let s2 := if fld v 30 28 = 2 && sec ≤ 5 then s2.setRgFld (fr f Fb.STAT) 26 24 sec else s2
      (.ok 0, s2.setFb f { s2.fb f with pos := w32 ((s2.fb f).pos.toNat % rev) })

/-- A write of `FB_f.CTRL` (R198, R204, R207). -/
def fbCtrlWrite (f : Nat) (v : Word) (s : State) : Resp × State :=
  let u := s.fb f
  (.ok 0, s.setFb f { u with
    loadDue := u.loadDue || tb v 0, armed := u.armed || tb v 2,
    capDue := u.capDue || (tb v 1 && fld (s.rg (fr f Fb.TRIG)) 31 30 = 3 && fbTakes s f) })

/-- A write of any other register of a unit (R199). -/
def fbWrite (f o : Nat) (v : Word) (sec : Bool) (s : State) : Resp × State :=
  if o = Fb.CFG then fbCfgWrite f v sec s
  else if o = Fb.CTRL then fbCtrlWrite f v s
  else if (o = Fb.REV_COUNT || o = Fb.HALLMAP) && tb (s.rg (fr f Fb.CFG)) 31 then (.ok 0, s)
  else (.ok 0, plainWrite .fb f o v sec s)

/-- The live registers of a unit; `GPIO.IN` shows the ball levels as the last coarse tick sampled them. -/
def fbLive (s : State) (f o : Nat) : Option Word :=
  let u := s.fb f
  if o = Fb.POS then some u.pos
  else if o = Fb.IDXPOS then some u.idxPos
  else if o = Fb.GPIO then
    some (setFld (s.rg (fr f o)) 18 16 u.inp.toNat)
  else none
/-- What a read of `POS` or `IDXPOS` latches (R204, R205). -/
def fbHigh (s : State) (f o : Nat) : Option Word :=
  if o = Fb.POS then some (s.fb f).turns else if o = Fb.IDXPOS then some (s.fb f).idxTurn else none

/-! ### Serial encoder ports (R210–R217) -/

/-- The frame format refuses `EN` (R213). -/
def frameRefused (s : State) (p : Nat) (cfg : Word) : Bool :=
  let w := s.rg (sr p Senc.FRAME)
  let (dlen, pos, mt, sb) := (fld w 30 24, fld w 21 16, fld w 13 8, fld w 1 0)
  let lim := if fld cfg 29 28 = 2 then 32 else 64
  sb + pos + mt > dlen || pos = 0 || pos > 32 || mt > 32 || sb = 3 || dlen > lim

/-- A write of `SENC_p.CFG` (R194, R213). -/
def sencCfgWrite (p : Nat) (v : Word) (sec : Bool) (s : State) : Resp × State :=
  let a := sr p Senc.CFG
  let was := tb (s.rg a) 31
  let s1 := plainWrite .senc p Senc.CFG v sec s
  let ax := s.rg (sr p sencAxisReg)
  if was || !tb v 31 then (.ok 0, if tb v 31 then s1 else s1.setRgBit (sr p Senc.STAT) 31 false)
  else if frameRefused s p v || (tb ax 31 && fbClaimed s (fld ax 7 0) (12 + p)) then
    (.ok 0, (s1.setRgBit a 31 false).setRgBit (sr p Senc.STAT) 5 true)
  else (.ok 0, s1.setSenc p { s1.senc p with valid := none, capDue := false, busyUntil := s.time.selvedge })

/-- Coarse ticks of half an `MA` period: a `DIV` below 19 acts as 19 (R210). -/
def maHalf (s : State) (p : Nat) : Nat := max 19 (fld (s.rg (sr p Senc.CFG)) 15 0) + 1
/-- The level at `SENC_DIR_p` (R210). -/
def sencDir (s : State) (p : Nat) : Bool := tb (s.rg (sr p Senc.CFG)) 31
/-- The level at `SENC_MA_p`: idle high, and the clock while a frame runs (R210, R211). -/
def sencMa (s : State) (p : Nat) : Bool :=
  !tb (s.rg (sr p Senc.STAT)) 31 || (coarse s - (s.senc p).began) / maHalf s p % 2 = 1
/-- The CDM bit that the frame of a BiSS-C port carries (R217). -/
def cdmBit (s : State) (p : Nat) : Bool :=
  let u := s.senc p
  tb (s.rg (sr p Senc.REGSTAT)) 31 && u.cdm.getD u.cds.length false
/-- `TIMING.TOUT` in coarse ticks (R227). -/
abbrev sencTout (s : State) (p : Nat) : Nat := fld (s.rg (sr p Senc.TIMING)) 31 16 * 40

/-- The level of `SL` a number of coarse ticks after the first `MA` edge. -/
def slAt (w : SlWave) (t : Nat) : Bool := w.high != ((w.changes.filter (· ≤ t)).length % 2 = 1)
/-- The bits sampled from tick `t` on, `step` ticks apart, as a number, first bit highest. -/
def slSample (w : SlWave) (t step : Nat) : Nat → Nat
  | 0 => 0
  | n + 1 => b2n (slAt w t) * 2 ^ n + slSample w (t + step) step n
/-- The first of `n` samples that is high. -/
def slStart (w : SlWave) (step : Nat) : Nat → Nat → Option Nat
  | 0, _ => none
  | n + 1, t => if slAt w t then some t else slStart w step n (t + step)
/-- The line delay: the tick of the slave's acknowledge, at which `SL` goes low (R212). -/
def slAck (w : SlWave) : Option Nat := if w.high then w.changes.head? else some 0

/-- What a port has received in a frame: the CDS bit, the data and the CRC, and the tick of the last bit. -/
structure SencRx where
  cds : Bool
  data : Nat
  crc : Nat
  last : Nat

/-- `DLEN` and the CRC's length as a frame carries it. -/
abbrev sencDlen (s : State) (p : Nat) : Nat := fld (s.rg (sr p Senc.FRAME)) 30 24
abbrev sencClen (s : State) (p : Nat) : Nat := min 16 (fld (s.rg (sr p Senc.CRC)) 28 24)
/-- The port speaks BiSS-C. -/
abbrev sencBiss (s : State) (p : Nat) : Bool := fld (s.rg (sr p Senc.CFG)) 29 28 = 1

/-- The frame that a port reads from its line (R212), none for `NOACK`.  BiSS-C: the acknowledge gives the line delay,
every later bit is sampled one `MA` period after the one before it, late by that delay, and the start bit, which must
come within `TOUT`, is followed by the CDS bit, the data and the CRC.  SSI: `SL` is high before the first edge, and is
sampled `DELAY` ticks after each rising edge. -/
def sencReceive (s : State) (p : Nat) (w : SlWave) : Option SencRx :=
  let h := maHalf s p
  let (d, c) := (sencDlen s p, sencClen s p)
  if sencBiss s p then
    match slAck w with
    | none => none
    | some a =>
      match slStart w (2 * h) ((sencTout s p - a) / (2 * h)) (a + 2 * h) with
      | none => none
      | some t =>
        let bit (k : Nat) : Nat := t + 2 * h * k
        some { cds := slAt w (bit 1), data := slSample w (bit 2) (2 * h) d, crc := slSample w (bit (2 + d)) (2 * h) c,
               last := bit (1 + d + c) }
  else
    let t := h + fld (s.rg (sr p Senc.TIMING)) 7 0
    if w.high then some { cds := false, data := slSample w t (2 * h) d, crc := 0, last := t + 2 * h * (d - 1) } else none

/-- The tick, from the first `MA` edge, at which a frame ends: its last bit, or the end of the wait for a start bit. -/
def sencEndAt (s : State) (p : Nat) (w : SlWave) : Nat :=
  match sencReceive s p w with
  | some f => f.last
  | none =>
    if sencBiss s p then sencTout s p
    else maHalf s p * (2 * sencDlen s p - 1) + fld (s.rg (sr p Senc.TIMING)) 7 0
/-- The latest tick at which a frame can end. -/
def sencLimit (s : State) (p : Nat) : Nat :=
  if sencBiss s p then sencTout s p + 2 * maHalf s p * (1 + sencDlen s p + sencClen s p)
  else maHalf s p * (2 * sencDlen s p - 1) + fld (s.rg (sr p Senc.TIMING)) 7 0
/-- `SL` returns high within `TOUT` after the last bit (R212). -/
def slReturns (w : SlWave) (last tout : Nat) : Bool :=
  slAt w last || w.changes.any (fun c => last < c && c ≤ last + tout && slAt w c)

/-- A capture starts a frame, or is skipped while a frame or a timeout runs (R211). -/
def sencFrameStart (p : Nat) (s : State) : State :=
  let u := s.senc p
  if !u.capDue then s
  else if !sencTakes s p then s.setSenc p { u with capDue := false }
  else
    let s1 := s.setSenc p { u with capDue := false }
    if tb (s.rg (sr p Senc.STAT)) 31 || !reached 64 s.time.selvedge.toNat u.busyUntil.toNat then
      bump .senc p Senc.SKIP_CNT (s1.setRgBit (sr p Senc.STAT) 4 true)
    else
      let start := s.time.selvedge + BitVec.ofInt 64 (sext (s.rg (sr p Senc.LATADJ)).toNat 16)
      (s1.setRgBit (sr p Senc.STAT) 31 true).setSenc p { s1.senc p with start := start, began := coarse s }

/-- The CRC over the `DLEN` data bits, most significant first (R214). -/
def sencCrc (d poly len : Nat) : Nat → Nat → Nat
  | 0, crc => crc
  | n + 1, crc =>
    let fb := d.testBit n != crc.testBit (len - 1)
    let c := (crc * 2) % 2 ^ len
    sencCrc d poly len n (if fb then c ^^^ (poly % 2 ^ len) else c)

/-- The received CRC matches (R214); `LEN` = 0 and SSI have none. -/
def crcGood (s : State) (p : Nat) (d : Nat) (crc : Nat) : Bool :=
  let w := s.rg (sr p Senc.CRC)
  let len := sencClen s p
  let dlen := sencDlen s p
  if len = 0 || fld (s.rg (sr p Senc.CFG)) 29 28 = 2 then true
  else
    let c := sencCrc d (fld w 15 0) len dlen (fld (s.rg (sr p Senc.CRCINIT)) 15 0 % 2 ^ len)
    (if tb w 31 then c ^^^ (2 ^ len - 1) else c) = crc % 2 ^ len

/-- Gray code of `n` bits decoded (R213). -/
def grayDecode : Nat → Nat → Nat → Nat
  | 0, _, acc => acc
  | n + 1, g, acc =>
    let b := g.testBit n != (acc % 2 = 1)
    grayDecode n g (acc * 2 + b2n b)

/-- Single-turn and multi-turn fields of the data word (R213). -/
def frameFields (s : State) (p d : Nat) : Nat × Nat :=
  let w := s.rg (sr p Senc.FRAME)
  let c := s.rg (sr p Senc.CFG)
  let (pos, mt, sb) := (fld w 21 16, fld w 13 8, fld w 1 0)
  let x := (d >>> sb) % 2 ^ (pos + mt)
  let y := if tb c 27 && fld c 29 28 = 2 then grayDecode (pos + mt) x 0 else x
  (y % 2 ^ pos, y / 2 ^ pos)

/-- New `POSITION`, `TURNS` and saturation of a port (R203, R215). -/
def sencPosition (s : State) (p d : Nat) : Word × Word × Bool :=
  let w := s.rg (sr p Senc.FRAME)
  let (posb, mt) := (fld w 21 16, fld w 13 8)
  let (pos, turn) := frameFields s p d
  let u := s.senc p
  if mt > 0 then
    (w32 pos, wInt (if tb (s.rg (sr p Senc.CFG)) 26 then sext turn mt else (turn : Int)), false)
  else match u.valid with
    | none => (w32 pos, u.turns, u.turnSat)
    | some _ =>
      let dlt := ((pos : Int) - u.pos.toNat) % (2 ^ posb : Int)
      let up := dlt < 2 ^ (posb - 1)
      let t := u.turns.toInt
      if up && pos < u.pos.toNat then
        (if t ≥ 2147483647 then (w32 pos, u.turns, true) else (w32 pos, u.turns + 1, u.turnSat))
      else if !up && pos > u.pos.toNat then
        (if t ≤ -2147483647 then (w32 pos, u.turns, true) else (w32 pos, u.turns - 1, u.turnSat))
      else (w32 pos, u.turns, u.turnSat)

/-- A frame has ended; its block is due 4 coarse ticks after its last bit (R211–R217).  DESIGN CHOICE (log entry 64): a
frame after which `SL` does not return high has failed as any other `NOACK` has, so its block repeats the last valid
values; the flag, `ERR_CNT` and the event of a frame that fails by this alone come when its time is over. -/
def sencFrameEnd (p : Nat) (w : SlWave) (s : State) : State :=
  if !tb (s.rg (sr p Senc.STAT)) 31 then s
  else
    let u := s.senc p
    let fw := s.rg (sr p Senc.FRAME)
    let sb := fld fw 1 0
    let rx := sencReceive s p w
    let stop := u.began + sencEndAt s p w
    let back := match rx with | some f => !sencBiss s p || slReturns w f.last (sencTout s p) | none => true
    let bits := if sencBiss s p && tb (s.rg (sr p Senc.REGSTAT)) 31 then
        [match rx with | some f => f.cds | none => false] else []
    let s1 := (s.setRgBit (sr p Senc.STAT) 31 false).setSenc p { u with
      busyUntil := w64 (2 * (stop + sencTout s p)), noBack := false, cds := u.cds ++ bits }
    let s2 := match slAck w with
      | some a => if sencBiss s p then s1.setRg (sr p Senc.LDLY) (w32 (min a 65535)) else s1
      | none => s1
    let d := match rx with | some f => f.data | none => 0
    let good := match rx with | some f => crcGood s p d f.crc | none => false
    let nw := rx.isSome && sb ≥ 1 && !d.testBit 0
    let ne := rx.isSome && sb = 2 && !d.testBit 1
    let fl (i : Nat) (b : Bool) (s : State) : State := if b then s.setRgBit (sr p Senc.STAT) i true else s
    let failed := !good || ne
    let s3 := fl 0 (rx.isSome && !good) (fl 1 (rx.isNone || (failed && !back)) (fl 2 ne (fl 3 nw s2)))
    let s4 := if rx.isSome then s3.setSenc p { s3.senc p with raw := w64 d } else s3
    let out (pos turns speed : Word) (flags : Nat) (s : State) : State :=
      s.setSenc p { s.senc p with
        latch := some { pos := pos, turns := turns, speed := speed, time := u.start, flags := w32 flags, due := 2 * (stop + 4) } }
    let repeats (s : State) : State := out u.pos u.turns u.speed (32768 + 16384 + b2n u.turnSat * 2048) s
    if failed then raiseEvent (0x398 + p) (repeats (bump .senc p Senc.ERR_CNT s4))
    else if !back then repeats (s4.setSenc p { s4.senc p with noBack := true })
    else
      let (pos, turns, sat) := sencPosition s p d
      let rev := 2 ^ fld fw 21 16
      let l := linear pos turns rev
      let (v, clamped) : Int × Bool := match u.valid with
        | some e =>
          let n := fld fw 21 16 + fld fw 13 8
          let dl := if fld fw 13 8 > 0 then sext (wrap (l - e.pos) n) n else l - e.pos
          let dt : Int := (u.start - e.time).toNat
          if dt = 0 then (0, false) else speedOf dl dt
        | none => (0, false)
      let s5 := s4.setSenc p { s4.senc p with valid := some { time := u.start, pos := l }, pos := pos, turns := turns,
                                              speed := wInt v, turnSat := sat }
      out pos turns (wInt v) (b2n nw * 8192 + b2n sat * 2048 + b2n clamped * 1024) s5

/-- The frame in progress has ended for a line that did what `w` says. -/
def sencEnded (s : State) (p : Nat) (w : SlWave) : Bool :=
  tb (s.rg (sr p Senc.STAT)) 31 && (s.senc p).began + sencEndAt s p w ≤ coarse s
/-- A frame that nothing has ended by its latest tick ends with a line that has stayed high (log entry 5). -/
def sencFrameOver (p : Nat) (s : State) : State :=
  if tb (s.rg (sr p Senc.STAT)) 31 && (s.senc p).began + sencLimit s p ≤ coarse s then sencFrameEnd p ⟨true, []⟩ s else s

/-- The block of a port is written, with event 0x390 + p (R211, R216).  The flags of a block that is not written stay for
the next one (R196). -/
def sencBlockWrite (p : Nat) (s : State) : State :=
  match (s.senc p).latch with
  | none => s
  | some l =>
    let ax := s.rg (sr p sencAxisReg)
    let x := fld ax 7 0
    let flags := l.flags ||| (s.senc p).kept
    let written := tb ax 31 && x < 128 && ctxBound s x
    let s1 := s.setSenc p { s.senc p with latch := none, kept := if written then 0 else flags &&& 0x6400 }
    raiseEvent (0x390 + p) (if tb ax 31 then
        feedbackPort none x l.pos l.turns l.speed l.time flags.toNat 1 (some (.senc, p, Senc.DROPS)) s1 else s1)
/-- The block of a port is due. -/
def sencBlockDue (s : State) (p : Nat) : Bool :=
  match (s.senc p).latch with
  | some l => l.due ≤ s.time.selvedge.toNat
  | none => false

/-- The time within which `SL` must return high is over (R212). -/
def sencBack (p : Nat) (s : State) : State :=
  let u := s.senc p
  if u.noBack && reached 64 s.time.selvedge.toNat u.busyUntil.toNat then
    raiseEvent (0x398 + p) (bump .senc p Senc.ERR_CNT
      ((s.setRgBit (sr p Senc.STAT) 1 true).setSenc p { u with noBack := false }))
  else s

/-- A write of `REGCMD` (R217): the access is latched with the CDM bits of its control frame. -/
def sencRegGo (p : Nat) (v : Word) (sec : Bool) (s : State) : Resp × State :=
  if tb (s.rg (sr p Senc.REGSTAT)) 31 then (.ok 0, if tb v 31 then s else plainWrite .senc p Senc.REGCMD v sec s)
  else
    let s1 := plainWrite .senc p Senc.REGCMD v sec s
    (.ok 0, if tb v 31 then
        (s1.setRgBit (sr p Senc.REGSTAT) 31 true).setSenc p { s1.senc p with
          accWrite := tb v 30, cds := [], cdm := Config.bissControl (tb v 30) (fld v 14 8) (fld v 7 0) }
      else s1)

/-- A register access whose control frame is complete ends with what its CDS bits hold (R217). -/
def sencRegDone (p : Nat) (s : State) : State :=
  let a := sr p Senc.REGSTAT
  let u := s.senc p
  if !tb (s.rg a) 31 || u.cds.length < u.cdm.length then s
  else
    let s1 := s.setRgBit a 31 false
    match Config.bissReply u.cds with
    | none => s1.setRgBit a 29 true
    | some data =>
      let s2 := s1.setRgBit a 30 true
      if u.accWrite then s2 else s2.setRgFld a 7 0 data.toNat

/-- What a port has due at a tick: a frame's start and end, its block, the end of a timeout and of an access. -/
def sencTick (p : Nat) (s : State) : State :=
  let s1 := sencFrameOver p (sencFrameStart p s)
  let s2 := if sencBlockDue s1 p then sencBlockWrite p s1 else s1
  sencRegDone p (sencBack p s2)

/-- A write of any register of a port. -/
def sencWrite (p o : Nat) (v : Word) (sec : Bool) (s : State) : Resp × State :=
  if o = Senc.CFG then sencCfgWrite p v sec s
  else if o = Senc.REGCMD then sencRegGo p v sec s
  else (.ok 0, plainWrite .senc p o v sec s)

/-- The live registers of a port, and what its low words latch. -/
def sencLive (s : State) (p o : Nat) : Option Word :=
  if o = Senc.RAW_LO then some (w32 (s.senc p).raw.toNat) else if o = Senc.POS then some (s.senc p).pos else none
def sencHigh (s : State) (p o : Nat) : Option Word :=
  if o = Senc.RAW_LO then some (w32 ((s.senc p).raw.toNat / 2 ^ 32))
  else if o = Senc.POS then some (s.senc p).turns else none

/-! ### Writes of the `AWL` block (R219, R220, R224) -/

/-- A write of `TRK_k.CFG`: setting `EN` loads `PTR` and arms that entry. -/
def trkCfgWrite (k : Nat) (v : Word) (sec : Bool) (s : State) : Resp × State :=
  let was := tb (trkCfg s k) 31
  let s1 := plainWrite .awl 0 (Awl.TRK_CFG k) v sec s
  if !tb v 31 then (.ok 0, if was then trkStop k s1 else s1)
  else if was then (.ok 0, s1)
  else
    let lim := fld (s.rg (tr (Awl.TRK_LIMIT k))) 14 0
    let s2 := (s1.setRg (tr (Awl.TRK_PTR k)) (s.rg (tr (Awl.TRK_BASE k)))).setTrk k { s1.trk k with limit := lim }
    (.ok 0, trkArm k s2)

/-- A write of any register of the `AWL` block. -/
def awlWrite (o : Nat) (v : Word) (sec : Bool) (s : State) : Resp × State :=
  let logging := tb (s.rg (tr Awl.LOGCFG)) 31
  let plain := plainWrite .awl 0 o v sec s
  if o = Awl.LOGBASE then (.ok 0, if logging then s else plain)
  else if o = Awl.LOGCFG then
    (.ok 0, if logging then plain.setRgFld (tr o) 4 0 (fld (s.rg (tr o)) 4 0) else plain)
  else if 0x100 ≤ o ∧ o < 0x200 then
    (let k := (o - 0x100) / 0x20
     if o % 0x20 = 0 then trkCfgWrite k v sec s
     else if o % 0x20 = 4 && tb (trkCfg s k) 31 then (.ok 0, s)
     else (.ok 0, plain))
  else (.ok 0, plain)

/-- A mark output's pulse has run out (R223). -/
def pulseEnd (m : Nat) (s : State) : State :=
  match s.mark m with
  | some p => if p.stop ≤ coarse s then s.setMark m none else s
  | none => s

/-- The marks show their pulses: while tracks run, and in a STANDBY entered then, in which every output holds its level
(R495). -/
def marksShow (s : State) : Bool :=
  awlRuns s || (opMode s = 2 && (let was := fld (s.rg (ra .pmu Pmu.MODE)) 6 4; was = 4 || was = 5))

/-- The level at `MARK_m` (R223). -/
def markLevel (s : State) (m : Nat) : Bool :=
  let c := s.rg (tr Awl.OUTCFG)
  let on := match s.mark m with
    | some p => p.start ≤ coarse s && coarse s < p.stop && tb c m && marksShow s
    | none => false
  on != tb c (8 + m)

/-! ### Commands -/

def execFbEnable (m : Master) (f : Fin 12) (v : Word) (s : State) : Host.Outcome State Fault Refusal :=
  .next (regAccess m (fr f Fb.CFG) (fbCfgWrite f v m.sec) s)
/-- `QUAD_EDGE`, `HALL_CHANGE`, `INDEX_EDGE`: levels that the filter has sampled `n` times; it accepts them now, or at the
tick at which it has sampled them k times (log entry 5). -/
def execQuadEdge (f : Fin 12) (a b : Bool) (s : State) (n : BitVec 13 := 0) : Host.Outcome State Fault Refusal :=
  .next (fbFilter f (fbSample f 3 (b2n b * 2 + b2n a) n.toNat s))
def execHallChange (f : Fin 12) (h : Fin 8) (s : State) (n : BitVec 13 := 0) : Host.Outcome State Fault Refusal :=
  .next (fbFilter f (fbSample f 7 h n.toNat s))
def execIndexEdge (f : Fin 12) (z : Bool) (s : State) (n : BitVec 13 := 0) : Host.Outcome State Fault Refusal :=
  .next (fbFilter f (fbSample f 4 (b2n z * 4) n.toNat s))
def execFbLoad (m : Master) (f : Fin 12) (s : State) : Host.Outcome State Fault Refusal :=
  .next (regAccess m (fr f Fb.CTRL) (fbCtrlWrite f 1) s)
def execCapnow (m : Master) (f : Fin 12) (s : State) : Host.Outcome State Fault Refusal :=
  .next (regAccess m (fr f Fb.CTRL) (fbCtrlWrite f 2) s)
def execIdxarm (m : Master) (f : Fin 12) (s : State) : Host.Outcome State Fault Refusal :=
  .next (regAccess m (fr f Fb.CTRL) (fbCtrlWrite f 4) s)
/-- `FB_CAPTURE`: of a unit whose trigger has occurred (log entry 5). -/
def execFbCapture (f : Fin 12) (s : State) : Host.Outcome State Fault Refusal :=
  .next (if (s.fb f).capDue then fbCapture f s else s)
/-- `FB_BLOCK_WRITE`: when a block is due (log entry 5). -/
def execFbBlockWrite (k : Fin 20) (s : State) : Host.Outcome State Fault Refusal :=
  .next (if k.val < 12 then (if fbBlockDue s k then fbBlockWrite k s else s)
    else if sencBlockDue s (k - 12) then sencBlockWrite (k - 12) s else s)
def execSencEnable (m : Master) (p : Fin 8) (v : Word) (s : State) : Host.Outcome State Fault Refusal :=
  .next (regAccess m (sr p Senc.CFG) (sencCfgWrite p v m.sec) s)
def execSencFrameStart (p : Fin 8) (s : State) : Host.Outcome State Fault Refusal := .next (sencFrameStart p s)
/-- `SENC_FRAME_END`: when the frame has ended for that line (log entry 5). -/
def execSencFrameEnd (p : Fin 8) (high : Bool) (changes : List Nat) (s : State) : Host.Outcome State Fault Refusal :=
  .next (if sencEnded s p ⟨high, changes⟩ then sencFrameEnd p ⟨high, changes⟩ s else s)
def execSencRegGo (m : Master) (p : Fin 8) (v : Word) (s : State) : Host.Outcome State Fault Refusal :=
  .next (regAccess m (sr p Senc.REGCMD) (sencRegGo p v m.sec) s)
/-- `SENC_REG_DONE`: when the CDS bits hold what the event says (log entry 5). -/
def execSencRegDone (p : Fin 8) (ok : Bool) (data : BitVec 8) (s : State) : Host.Outcome State Fault Refusal :=
  .next (if Config.bissReply (s.senc p).cds = (if ok then some data else none) then sencRegDone p s else s)
def execTrkEnable (m : Master) (k : Fin 8) (v : Word) (s : State) : Host.Outcome State Fault Refusal :=
  .next (regAccess m (tr (Awl.TRK_CFG k)) (trkCfgWrite k v m.sec) s)
def execTrkLimitWrite (m : Master) (k : Fin 8) (v : Word) (s : State) : Host.Outcome State Fault Refusal :=
  .next (regAccess m (tr (Awl.TRK_LIMIT k)) (awlWrite (Awl.TRK_LIMIT k) v m.sec) s)
/-- `MARK_FIRE`: when the armed entry's condition holds (log entry 5). -/
def execMarkFire (k : Fin 8) (s : State) : Host.Outcome State Fault Refusal :=
  .next (if markDue s k then markFire k s else s)
/-- `PREDICTED_FIRE`: when the scheduled tick has come (log entry 5). -/
def execPredictedFire (k : Fin 8) (s : State) : Host.Outcome State Fault Refusal :=
  .next (if predictedDue s k then predictedFire k s else s)
def execMarkPulseEnd (m : Fin 8) (s : State) : Host.Outcome State Fault Refusal := .next (pulseEnd m s)

end Sys2Proof.Machine
end

