-- ==== Sys2Proof/Machine/Girth.lean ====
section
/-! DEFINITION. The Girth feeder bus (R305–R315): cycles, the walk of the schedule, attempts and their
outcomes.  Frames, guards and reply windows take their bit times on the line (log entry 72). -/

namespace Sys2Proof.Machine

/-- Register of port `g`. -/
abbrev gr (g o : Nat) : Nat := ri .girth g o
/-- Sets a `STAT` flag of a port. -/
def girthFlag (g i : Nat) (s : State) : State := s.setRgBit (gr g Girth.STAT) i true
/-- The port runs. -/
abbrev girthEn (s : State) (g : Nat) : Bool := tb (s.rg (gr g Girth.CFG)) 31

/-- One bit time of a port in Selvedge ticks (R305, R333). -/
def girthTb (s : State) (g : Nat) : Nat := 50 * 2 ^ min 4 (fld (s.rg (gr g Girth.CFG)) 29 27)
/-- Ticks of idle after a slot (R311, R333). -/
def girthGuard (s : State) (g : Nat) : Nat := girthTb s g * max 12 (fld (s.rg (gr g Girth.TIMING)) 31 24)
/-- Ticks in which a reply may begin (R311, R333). -/
def girthRto (s : State) (g : Nat) : Nat := girthTb s g * max 34 (fld (s.rg (gr g Girth.TIMING)) 7 0)
/-- A tick has been reached (R111). -/
abbrev past (s : State) (t : DWord) : Bool := reached 64 s.time.selvedge.toNat t.toNat

/-- One bit step of the CRC of R308. -/
def crcShift (c : Nat) : Nat := if c.testBit 0 then (c / 2) ^^^ 0xA001 else c / 2
/-- The CRC of R308 over bytes. -/
def girthCrc (bs : List Byte) : Nat :=
  bs.foldl (fun c b => (List.range 8).foldl (fun c _ => crcShift c) (c ^^^ b.toNat)) 0xFFFF

/-- A frame on the bus (R307). -/
def girthFrame (addr type seq : Nat) (payload : List Byte) : List Byte :=
  let bs := [BitVec.ofNat 8 addr, BitVec.ofNat 8 (type * 16 + seq), BitVec.ofNat 8 payload.length] ++ payload
  bs ++ toBytes 2 (girthCrc bs)

/-- The bytes that a node sent without framing error or gap are a valid frame (R307): `TYPE` 0x8 is the one defined
for its direction. -/
def girthFrameOk (bs : List Byte) : Bool :=
  let len := (bs.getD 2 0).toNat
  5 ≤ bs.length && len ≤ 32 && bs.length = 5 + len && ofBytes (bs.drop (3 + len)) = girthCrc (bs.take (3 + len))
    && (bs.getD 1 0).toNat / 16 = 8

/-- A node's entry in a per-node table. -/
def nodeGet (t : Tbl Nat) (n : Nat) : Nat := Tbl.get (fun _ => 0) t n
/-- Sets a node's entry. -/
def nodeSet (t : Tbl Nat) (n v : Nat) : Tbl Nat := Tbl.set (fun _ => 0) t n v

/-- `NODESTAT`: the node is lost (R314). -/
def nodeLost (s : State) (g n : Nat) : Bool := tb (s.rg (gr g (Girth.NODESTAT (n / 32)))) (n % 32)

/-! ### Cycles (R310, R313) -/

/-- A frame leaves: 10 bit times for each of its bytes, and the guard after it (R306, R311). -/
def girthSend (g : Nat) (f : List Byte) (s : State) : State :=
  let t := s.time.selvedge + w64 (10 * f.length * girthTb s g)
  s.setGirth g { s.girth g with line := f, sent := t, idle := t + w64 (girthGuard s g) }

/-- The `BEACON` leaves and the walk begins at entry 0. -/
def sendBeacon (g : Nat) (s : State) : State :=
  let us := max 125 (fld (s.rg (gr g Girth.CFG)) 15 0)
  let body := toBytes 2 (s.rg (gr g Girth.CYCNT)).toNat ++ toBytes 2 us ++ toBytes 8 s.time.selvedge.toNat
  (girthSend g (girthFrame 0 1 0 body) (s.setGirth g { s.girth g with walk := some 0, again := false })).setRgBit
    (gr g Girth.STAT) 31 true

/-- No attempt is in progress and the guard of the last one has passed. -/
def girthFree (s : State) (g : Nat) : Bool := (s.girth g).attempt.isNone && past s (s.girth g).idle

/-- Entries of the schedule bank in use (R333). -/
def girthLen (s : State) (g : Nat) : Nat :=
  let lens := s.rg (gr g Girth.SCHEDLEN)
  min 512 (if (s.girth g).bank then fld lens 25 16 else fld lens 9 0)

/-- What the port does once a slot and its guard are over: the `BEACON` of a cycle that began meanwhile leaves; after
the last entry the walk ends (R311, R313). -/
def girthTick (g : Nat) (s : State) : State :=
  let x := s.girth g
  if !girthFree s g then s
  else if x.again then sendBeacon g s
  else match x.walk with
    | some k => if girthLen s g ≤ k then (s.setGirth g { x with walk := none }).setRgBit (gr g Girth.STAT) 31 false else s
    | none => s

/-- A cycle starts (R310, R313): its `BEACON` waits for the slot in progress with its guard. -/
def cycleStart (g : Nat) (s : State) : State :=
  let x := s.girth g
  let c := (fld (s.rg (gr g Girth.CYCNT)) 15 0 + 1) % 65536
  let s1 := (s.setRg (gr g Girth.CYCNT) (w32 c)).setGirth g
    { x with startDue := false, bank := tb (s.rg (gr g Girth.CFG)) 30 }
  let s2 := raiseEvent (0x420 + g) s1
  let s3 := if x.walk.isSome then bump .girth g Girth.OVR_CNT (girthFlag g 0 s2) else s2
  if girthFree s3 g then sendBeacon g s3 else s3.setGirth g { s3.girth g with again := true }

/-! ### Outcomes (R312, R314, R315) -/

/-- A queue has 64-byte elements, or is not in use. -/
def girthQ (s : State) (q : Nat) : Bool := !qEn s q || qEsz s q = 6
/-- The queues of a partner have 64-byte elements (R315). -/
def girthQs (s : State) (p : Nat) : Bool := girthQ s (2 * p) && girthQ s (2 * p + 1)

/-- A receive element is pushed to a partner's queue (R302, R315): flags, time and payload.  A full or disabled queue
sets `QERR`, the port's flag for its partners' queues (log entry 72). -/
def girthPush (g p flags : Nat) (time : Word) (payload : List Byte) (s : State) : Bool × State :=
  if !girthQs s p then (false, girthFlag g 5 s)
  else
    let cyc := fld (s.rg (gr g Girth.CYCNT)) 15 0
    match pushElem midGirth (2 * p) (ptWorld s p)
        (toBytes 1 payload.length ++ toBytes 1 flags ++ toBytes 2 cyc ++ toBytes 4 time.toNat ++ payload) s with
    | (true, s1) => (true, s1)
    | (false, s1) => (false, girthFlag g 5 s1)

/-- A node answers: it is no longer lost (R314). -/
def nodeAnswers (g n : Nat) (s : State) : State :=
  let s1 := s.setGirth g { s.girth g with fails := nodeSet (s.girth g).fails n 0 }
  if nodeLost s1 g n then raiseEvent (0x424 + g) (s1.setRgBit (gr g (Girth.NODESTAT (n / 32))) (n % 32) false) else s1

/-- The slot is over at tick `t`: its guard begins, and the walk goes on (R311). -/
def slotEnd (g : Nat) (t : DWord) (s : State) : State :=
  let x := s.girth g
  s.setGirth g { x with attempt := none, walk := x.walk.map (· + 1), idle := t + w64 (girthGuard s g) }

/-- A partner's head element is done: the port consumes it, which ends its attempts; a transmit queue whose control block
the port may not reach keeps it (log entry 69). -/
def elemDone (p : Nat) (s : State) : State :=
  let r := queueOpen midGirth (2 * p + 1) s
  if r.1 then qConsume (2 * p + 1) 1 r.2 else r.2

/-- The element of an attempt is done, unless it has left the queue meanwhile. -/
def tryDone (t : GirthTry) (s : State) : State := if t.nop || !t.held then s else elemDone t.partner s

/-- An attempt fails, and its slot is over at tick `at_` (R312, R314). -/
def tryFails (g : Nat) (t : GirthTry) (at_ : DWord) (s : State) : State :=
  let s1 := bump .girth g Girth.TIMEOUT_CNT (girthFlag g 2 s)
  let x := s1.girth g
  let f := nodeGet x.fails t.node + 1
  let s2 := s1.setGirth g { x with fails := nodeSet x.fails t.node f }
  let lost := max 1 (fld (s.rg (gr g Girth.TIMING)) 23 16)
  let s3 := if f ≥ lost ∧ !nodeLost s2 g t.node then
      raiseEvent (0x424 + g) (girthFlag g 1 (s2.setRgBit (gr g (Girth.NODESTAT (t.node / 32))) (t.node % 32) true))
    else s2
  let s4 := if t.nop || !t.held then s3
    else
      let e := elemKey t.node t.partner
      let k := nodeGet (s3.girth g).tries e + 1
      if k ≥ fld (s.rg (gr g Girth.TIMING)) 15 8 + 1 then
        let (v, s5) := s3.draw
        tryDone t (girthPush g t.partner 1 (w32 v) [] s5).2
      else s3.setGirth g { s3.girth g with tries := nodeSet (s3.girth g).tries e k }
  slotEnd g at_ s4

/-- A start bit at tick `t` begins a reply: after the command's last stop bit and no later than `RTO` (R311). -/
def inWindow (s : State) (g : Nat) (t : DWord) : Bool :=
  let e := (s.girth g).sent
  reached 64 t.toNat e.toNat && reached 64 (e + w64 (girthRto s g)).toNat t.toNat

/-- A valid frame has been received; its first start bit came `age` ticks ago (R312, R315).  A frame whose start bit
came outside the window answers no slot, and the attempt has timed out. -/
def girthReply (g : Nat) (bs : List Byte) (age : Nat) (s : State) : State :=
  match (s.girth g).attempt with
  | none => s
  | some t =>
    let now := s.time.selvedge
    let payload := (bs.drop 3).take (bs.length - 5)
    let ok := (bs.getD 0 0).toNat = t.node && (bs.getD 1 0).toNat % 8 = t.seq
      && 3 ≤ payload.length && (payload.getD 0 0).toNat = t.opcode
    if !inWindow s g (now - w64 age) then tryFails g t now s
    else if !ok then tryFails g t now (countEntry midGirth (2 * t.partner) t.partner 7 s)
    else
      let s1 := countEntry midGirth (2 * t.partner) t.partner 6 (nodeAnswers g t.node s)
      let result := (payload.getD 1 0).toNat
      let ns := (payload.getD 2 0).toNat
      let changed := Tbl.get (fun _ => none) (s1.girth g).nstat t.node ≠ some ns
      let isNop := t.nop && t.opcode = 0
      let s2 := if !isNop || result ≠ 0 || changed then
          let (ok, s3) := girthPush g t.partner (4 * b2n isNop + 8 * b2n changed) (w32 (s.time.selvedge - w64 age).toNat) payload s1
          if ok then s3.setGirth g { s3.girth g with nstat := Tbl.set (fun _ => none) (s3.girth g).nstat t.node (some ns) }
          else s3
        else s1
      slotEnd g now (tryDone t s2)

/-- The port is sending. -/
def girthSends (s : State) (g : Nat) : Bool :=
  !(s.girth g).line.isEmpty && !newer 64 s.time.selvedge.toNat (s.girth g).sent.toNat

/-- A byte heard differs from the byte sent (R312): the frame is cut after the current byte. -/
def girthCollision (g : Nat) (s : State) : State :=
  let x := s.girth g
  let byte := 10 * girthTb s g
  let start := x.sent - w64 (byte * x.line.length)
  let cut := x.line.take ((s.time.selvedge - start).toNat / byte + 1)
  let fin := start + w64 (byte * cut.length)
  let s1 := girthFlag g 4 (s.setGirth g { x with line := cut, sent := fin, idle := fin + w64 (girthGuard s g) })
  match x.attempt with
  | some t => tryFails g t fin s1
  | none => s1

/-- An invalid frame is received (R307): it answers no slot. -/
def girthBad (g : Nat) (s : State) : State :=
  let s1 := bump .girth g Girth.CRCERR_CNT (girthFlag g 3 s)
  match (s.girth g).attempt with
  | some t => if past s (s.girth g).sent then tryFails g t s.time.selvedge s1 else s1
  | none => s1

/-! ### The walk (R311) -/

/-- A command leaves for a node: a new element, a `NOP` and a `SAFE` of the port itself (`nop`) advance the node's
`SEQ`; a repeated element keeps its own (R312). -/
def sendCmd (g n p : Nat) (nop : Bool) (payload : List Byte) (s : State) : State :=
  let x := s.girth g
  let e := elemKey n p
  let fresh := nop || nodeGet x.tries e = 0
  let next := (nodeGet x.seqs n + 1) % 8
  let seq := if fresh then next else (Tbl.get (fun _ => none) x.eseqs e).getD (nodeGet x.seqs n)
  let x1 : GirthPort := if fresh then { x with seqs := nodeSet x.seqs n next } else x
  let x2 : GirthPort := if nop then x1 else { x1 with eseqs := Tbl.set (fun _ => none) x1.eseqs e (some seq) }
  girthSend g (girthFrame n 2 seq payload) (s.setGirth g { x2 with
                         attempt := some { node := n, partner := p, nop := nop, seq := seq, opcode := (payload.headD 0).toNat } })

/-- A node joins the nodes that have had their `SAFE`. -/
def addNode (n : Nat) (l : List Nat) : List Nat := (n :: l).eraseDups

/-- The port reads what it needs of a partner (R11, R25, log entry 69): whether it may reach the partner's entry and the
control block of its transmit queue. -/
def girthReach (p : Nat) (s : State) : (Bool × Bool) × State :=
  let r := partnerOpen midGirth (2 * p + 1) p s
  let r2 := queueOpen midGirth (2 * p + 1) r.2
  ((r.1, r2.1), r2.2)

/-- The walk takes entry `k` of the schedule: it sends, or skips (R311, R315, R397); after an entry to SAFE_HOLD the
next slot of each node carries `SAFE` (R425). -/
def girthEntry (g k : Nat) (was : State) : State :=
  let nmOf (s : State) : Word := s.rg (gr g (Girth.NODEMAP (fld (s.rg (gr g (if (s.girth g).bank then Girth.SCHED_1 k else Girth.SCHED_0 k))) 7 0)))
  let reach := girthReach (fld (nmOf was) 11 0) was
  let s := reach.2
  let x := s.girth g
  let e := s.rg (gr g (if x.bank then Girth.SCHED_1 k else Girth.SCHED_0 k))
  let n := fld e 7 0
  let skip (s : State) : State := girthTick g (s.setGirth g { s.girth g with walk := some (k + 1) })
  let nm := s.rg (gr g (Girth.NODEMAP n))
  let p := fld nm 11 0
  if !tb e 31 then skip was
  else if !tb nm 31 then skip (ptMiss (4 + g) p was)
  else if !(reach.1.1 && ptValid s p && ptKind s p = 3 && ptPort s p = g && fld (pw_ s p 0) 23 16 = n) then
    skip (ptMiss (4 + g) p s)
  else if (match x.safe with | some sent => !sent.contains n | none => false) then
    sendCmd g n p true [3] (s.setGirth g { x with safe := x.safe.map (addNode n) })
  else
    let q := 2 * p + 1
    let s0 := if girthQs s p then s else girthFlag g 5 s
    if girthQs s p && reach.1.2 && qEn s q && qReady s q && qCount s q > 0 then
      let (el, s1) := agentRead midGirth (qWorld s q) (qElem s q (qRd s q)) 64 s0
      match qWorld s q != ptWorld s p, el with
      | false, some b =>
        let l := (b.getD 0 0).toNat
        if l = 0 ∨ l > 32 then
          let (v, s2) := s1.draw
          skip (elemDone p (girthPush g p 2 (w32 v) [] s2).2)
        else sendCmd g n p false ((b.drop 4).take l) s1
      | _, _ => skip (qDrop q (elemDone p s1))
    else if tb e 30 then sendCmd g n p true [0] s0
    else skip s0

/-- The port goes on when a slot and its guard are over (R311). -/
def girthSlot (g : Nat) (s : State) : State :=
  let x := s.girth g
  match x.walk with
  | some k => if girthFree s g && !x.again && k < girthLen s g then girthEntry g k s else girthTick g s
  | none => girthTick g s

/-- A write of `CFG` (R310, R312, R333). -/
def girthCfgWrite (g : Nat) (v : Word) (sec : Bool) (s : State) : Resp × State :=
  let a := gr g Girth.CFG
  let was := s.rg a
  let s1 := plainWrite .girth g Girth.CFG v sec s
  if tb was 31 then
    let s2 := (s1.setRgFld a 29 27 (fld was 29 27)).setRgFld a 23 16 (fld was 23 16)
    (.ok 0, if tb v 31 then s2
      else (s2.setRgBit (gr g Girth.STAT) 31 false).setGirth g
        { s2.girth g with walk := none, attempt := none, again := false, startDue := false })
  else if tb v 31 then (.ok 0, s1.setGirth g { s1.girth g with seqs := [], tries := [], eseqs := [] })
  else (.ok 0, s1)

/-- A write of any `GIRTH` register. -/
def girthWrite (g o : Nat) (v : Word) (sec : Bool) (s : State) : Resp × State :=
  if o = Girth.CFG then girthCfgWrite g v sec s else (.ok 0, plainWrite .girth g o v sec s)

/-! ### Commands -/

/-- `GIRTH_CYCLE_START`: when the port's slot has fired (log entry 5). -/
def execGirthCycleStart (g : Fin 4) (s : State) : Host.Outcome State Fault Refusal :=
  .next (if (s.girth g).startDue && girthEn s g then cycleStart g s else s)
def execGirthSlot (g : Fin 4) (s : State) : Host.Outcome State Fault Refusal := .next (girthSlot g s)
/-- `GIRTH_REPLY`: the bytes heard without framing error or gap, up to the last stop bit; bytes that are no valid frame
are an invalid one (R307). -/
def execGirthReply (g : Fin 4) (addr ctl : BitVec 8) (rest : List (BitVec 8)) (age : Nat) (s : State) :
    Host.Outcome State Fault Refusal :=
  let bytes := addr :: ctl :: rest
  .next (if !girthEn s g then s else if girthFrameOk bytes then girthReply g bytes age s else girthBad g s)
/-- `GIRTH_REPLY_TIMEOUT`: when `RTO` has passed since the last stop bit of the command (R311). -/
def execGirthReplyTimeout (g : Fin 4) (s : State) : Host.Outcome State Fault Refusal :=
  .next (match (s.girth g).attempt with
    | some t => if past s ((s.girth g).sent + w64 (girthRto s g)) then tryFails g t s.time.selvedge s else s
    | none => s)
/-- `GIRTH_COLLISION`: while the port sends (R312). -/
def execGirthCollision (g : Fin 4) (s : State) : Host.Outcome State Fault Refusal :=
  .next (if girthEn s g && girthSends s g then girthCollision g s else s)
/-- `GIRTH_INVALID_FRAME`: the bytes heard; `cut` for a framing error or a gap above 1 tb (R306, R307). -/
def execGirthInvalidFrame (g : Fin 4) (s : State) (cut : Bool := false) (bytes : List (BitVec 8) := []) :
    Host.Outcome State Fault Refusal :=
  .next (if girthEn s g && (cut || !girthFrameOk bytes) then girthBad g s else s)

end Sys2Proof.Machine
end

