-- ==== Sys2Proof/Machine/Code8b.lean ====
section
/-! DEFINITION. The 8b/10b code groups of the Tether lines (R268): the tables and the running-disparity rules of the
standard that R268 names, which the manual does not print (PRESUMED, log entry 71).  A code group is written in the
order of transmission, bit a highest. -/

namespace Sys2Proof.Machine

/-- The sub-blocks `abcdei` of D.x with negative running disparity. -/
def six : List (BitVec 6) :=
  [0b100111, 0b011101, 0b101101, 0b110001, 0b110101, 0b101001, 0b011001, 0b111000] ++
  [0b111001, 0b100101, 0b010101, 0b110100, 0b001101, 0b101100, 0b011100, 0b010111] ++
  [0b011011, 0b100011, 0b010011, 0b110010, 0b001011, 0b101010, 0b011010, 0b111010] ++
  [0b110011, 0b100110, 0b010110, 0b110110, 0b001110, 0b101110, 0b011110, 0b101011]
/-- The sub-blocks `fghj` of D.x.y with negative running disparity; D.x.A7 is 0111. -/
def four : List (BitVec 4) := [0b1011, 0b1001, 0b0101, 0b1100, 0b1101, 0b1010, 0b0110, 0b1110]

/-- Ones of a bit field. -/
def ones {w : Nat} (x : BitVec w) : Nat := (List.range w).countP (fun i => x.getLsbD i)
/-- The running disparity after a sub-block: positive (`true`) after more ones than zeros, or after 000111 and 0011. -/
def disparity {w : Nat} (rd : Bool) (x : BitVec w) : Bool :=
  if 2 * ones x > w then true else if 2 * ones x < w then false
  else if x.toNat = 7 ∧ w = 6 ∨ x.toNat = 3 ∧ w = 4 then true
  else if x.toNat = 56 ∧ w = 6 ∨ x.toNat = 12 ∧ w = 4 then false else rd
/-- A sub-block of the negative column with the present disparity: those that are not neutral, and 111000 and 1100, are
complemented while it is positive. -/
def column {w : Nat} (rd : Bool) (x : BitVec w) : BitVec w :=
  if rd ∧ (2 * ones x ≠ w ∨ x.toNat = 56 ∧ w = 6 ∨ x.toNat = 12 ∧ w = 4) then ~~~ x else x

/-- The code group of a data byte or of one of the two control symbols, with the running disparity before it; and the
disparity after it. -/
def codeGroup (rd : Bool) (y : LineSym) : BitVec 10 × Bool :=
  match y with
  | .k28_5 => (if rd then 0b1100000101 else 0b0011111010, !rd)
  | .k27_7 => (if rd then 0b0010010111 else 0b1101101000, rd)
  | .data b =>
    let x := b.toNat % 32
    let h := column rd (six.getD x 0)
    let r := disparity rd h
    let alt : Bool := b.toNat / 32 = 7 && (if r then x = 11 || x = 13 || x = 14 else x = 17 || x = 18 || x = 20)
    let f := column r (if alt then 0b0111 else four.getD (b.toNat / 32) 0)
    (h ++ f, disparity r f)

/-- The symbols that a Tether line uses. -/
def lineSyms : List LineSym := [.k28_5, .k27_7] ++ (List.range 256).map (fun n => .data (BitVec.ofNat 8 n))
/-- A received code group is a symbol error (R268): no symbol that the line uses has it at the present disparity. -/
def symbolError (rd : Bool) (code : BitVec 10) : Bool := !lineSyms.any (fun y => (codeGroup rd y).1 = code)

end Sys2Proof.Machine
end

