-- ==== Sys2Proof/Machine/Tether.lean ====
section
/-! DEFINITION. Tether links (R267–R293): the cells and their line, bring-up, time alignment, samples and edges
of linked axes, their safe state, and station registers. -/

namespace Sys2Proof.Machine

/-- Register of link `l`. -/
abbrev tl (l o : Nat) : Nat := ri .teth l o
/-- `TETH_l.STAT.STATE`: 0 DOWN, 1 TRAIN, 2 ALIGN, 3 UP, 4 FAULT. -/
abbrev tethState (s : State) (l : Nat) : Nat := fld (s.rg (tl l Teth.STAT)) 31 29
/-- Sets a `STAT` flag of a link. -/
def tethFlag (l i : Nat) (s : State) : State := s.setRgBit (tl l Teth.STAT) i true
/-- The link carries cells: ALIGN or UP (R275). -/
def tethCells (s : State) (l : Nat) : Bool := tethState s l = 2 || tethState s l = 3
/-- At least `n` ticks have passed since `t`. -/
def elapsed (s : State) (t : DWord) (n : Nat) : Bool := reached 64 (s.time.selvedge - t).toNat n

/-! ### Cells (R271–R273, R280) -/

/-- One bit of the CRC of R272. -/
def crcBit (crc : Nat) (b : Bool) : Nat :=
  let x := crc * 2 % 65536
  if b != crc.testBit 15 then x ^^^ 0x1021 else x
/-- The CRC of R272 over bytes, each MSB first. -/
def crc16 (init : Nat) (bs : List Byte) : Nat :=
  bs.foldl (fun c b => [7, 6, 5, 4, 3, 2, 1, 0].foldl (fun c i => crcBit c (b.getLsbD i)) c) init

/-- Bytes 0 to 13 of a cell: type, axis and contents, the rest 0 (R273). -/
def cellBytes (type axis : Nat) (rest : List Byte) : List Byte :=
  (BitVec.ofNat 8 (type + 16 * axis) :: rest ++ List.replicate 13 0).take 14

/-! ### The transmit pair (R268–R270, R274, R275, R280) -/

/-- What a link transmits in its state. -/
def linkTx (s : State) (l : Nat) : LinkTx :=
  if !tb (s.rg (tl l Teth.CFG)) 31 then .idle
  else match tethState s l with | 0 => .tsa | 1 => .tsb | 2 | 3 => .cells | _ => .idle

/-- Symbols that have begun by tick `n` of Selvedge: one lasts 4 ns, 3.2 ticks (log entry 71). -/
abbrev symsIn (n : Nat) : Nat := n * 5 / 16
/-- A symbol begins on the lines at this tick. -/
def symbolStarts (s : State) : Bool := symsIn s.time.selvedge.toNat ≠ symsIn (s.time.selvedge.toNat - 1)
/-- The place of the present symbol, counted from the `K27.7` of the last cell. -/
def cellSymbol (s : State) (l : Nat) : Nat := symsIn s.time.selvedge.toNat - symsIn (s.link l).started.toNat
/-- A cell is on the line: it ends with its seventeenth symbol. -/
def cellOnLine (s : State) (l : Nat) : Bool := !(s.link l).line.isEmpty && cellSymbol s l < 17
/-- The line has been idle since its last cell for long enough to have sent a K28.5. -/
def lineIdle (s : State) (l : Nat) : Bool := (s.link l).line.isEmpty || 18 ≤ cellSymbol s l

/-- A cell may start: a symbol begins, no ordered set and no cell is being sent, and there is a K28.5 in every 256
symbols (R269). -/
def mayStart (s : State) (l : Nat) : Bool :=
  linkTx s l = .cells && symbolStarts s && (s.link l).set.isEmpty && !cellOnLine s l
    && (lineIdle s l || (s.link l).run + 17 ≤ 255)

/-- The line starts the waiting cell that R280 puts first.  A `TIME` cell takes T and its place among the awaited echoes
now (R277, R278): its reference point is the end of its K27.7, on the grid of the symbols. -/
def lineStart (l : Nat) (s : State) : State :=
  let x := s.link l
  if !mayStart s l then s
  else
    let best := x.queue.foldl (fun (b : Option LinkCell) c => match b with
      | some d => if c.prio < d.prio then some c else b
      | none => some c) none
    match best with
    | none => s
    | some c =>
      let now := s.time.selvedge
      let ref := w64 ((symsIn now.toNat + 1) * 16 / 5)
      let t := ref + w64 (fld (s.rg (tl l Teth.DLY)) 15 0)
      let isTime := c.prio = 2
      let bytes := if isTime then cellBytes 2 0 (toBytes 8 t.toNat ++ (c.bytes.drop 9).take 1) else c.bytes
      let echo := isTime && c.bytes.getD 9 0 = 1
      s.setLink l { x with queue := x.queue.erase c, started := now, line := bytes ++ toBytes 2 (crc16 0xFFFF bytes),
                           run := if lineIdle s l then 17 else x.run + 17,
                           echoes := if echo then x.echoes ++ [(t, ref)] else x.echoes }

/-- The symbol that begins on the transmit pair at this tick, with what is left of an ordered set: a cell and an ordered
set that have begun are sent to their end, and K28.5 where there is none to send; none in electrical idle (R269, R270,
R274, R280). -/
def symbolNow (s : State) (l : Nat) : Option (LineSym × List LineSym) :=
  let x := s.link l
  if linkTx s l = .idle then none
  else if cellOnLine s l then
    some (if cellSymbol s l = 0 then .k27_7 else .data (x.line.getD (cellSymbol s l - 1) 0), [])
  else match x.set with
    | y :: rest => some (y, rest)
    | [] => some (.k28_5, match linkTx s l with
        | .tsa => List.replicate 3 (.data 0x4A)
        | .tsb => List.replicate 3 (.data 0xB5)
        | _ => [])

/-- The transmit pair at a tick: a code group with the running disparity of the line, or electrical idle, which cuts off
what is being sent (log entry 71). -/
def linkSymbol (l : Nat) (s : State) : State :=
  let x := s.link l
  match symbolNow s l with
  | some (y, rest) =>
    if symbolStarts s then
      let g := codeGroup x.rd y
      s.setLink l { x with code := some g.1, rd := g.2, set := rest }
    else s
  | none => if x.code.isSome then s.setLink l { x with code := none, set := [], line := [] } else s

/-- The link group hands a cell to the line, which starts it at a symbol (`lineStart`). -/
def sendCell (l prio : Nat) (bytes : List Byte) (s : State) : State :=
  if tethCells s l then
    s.setLink l { s.link l with queue := (s.link l).queue ++ [{ prio := prio, bytes := bytes }] }
  else s

/-- A `TIME` cell, with or without `ECHOREQ`. -/
def sendTime (l : Nat) (echo : Bool) (s : State) : State :=
  sendCell l 2 (cellBytes 2 0 (List.replicate 8 0 ++ [BitVec.ofNat 8 (b2n echo)])) s

/-- A `TIME` cell is due (R279): 1 µs since the last cell started, and none waits. -/
def timeCellDue (s : State) (l : Nat) : Bool :=
  tethCells s l && elapsed s (s.link l).started 800 && !(s.link l).queue.any (fun c => c.prio = 2)

/-! ### Link states (R274–R276, R289) -/

/-- `STATE` changes (R275): `CHANGE` and event 0x400 + l; a link that is not UP puts its axes into the safe
state (R288), and one that carries no cells has none waiting; the symbols received count anew in DOWN (R274, R275). -/
def tethGoto (l st : Nat) (s : State) : State :=
  if tethState s l = st then s
  else
    let s1 := raiseEvent (0x400 + l) (tethFlag l 0 (s.setRgFld (tl l Teth.STAT) 31 29 st))
    let s2 := if st = 3 then s1
      else (List.range 8).foldl (fun s a => if tethEn s l a then tethSafe l a 5 s else s) s1
    if st = 2 ∨ st = 3 then s2
    else s2.setLink l { s2.link l with queue := [], echoes := [], own := none, todo := [],
                                       line := if st = 4 then [] else (s2.link l).line,
                                       rxFrom := if st = 0 then s.time.selvedge else (s2.link l).rxFrom }

/-- Bring-up fails (R276). -/
def tethFail (l code : Nat) (s : State) : State := tethGoto l 4 (s.setRgFld (tl l Teth.STAT) 27 24 code)

/-- The steps of bring-up (R276) before those of the axes. -/
def alignSteps : List AlignStep := [.read 0, .read 1] ++ List.replicate 8 .echo ++ [.write 0x10, .write 0x11, .write 0x12]

/-- The axes of a link have been sent no `AXCFG_a`, and no sample of theirs asks for an answer. -/
def forgetCfg (axes : Tbl LinkAx) : Tbl LinkAx :=
  (Tbl.keys axes).foldl (fun t a => Tbl.set (fun _ => {}) t a { Tbl.get (fun _ => {}) t a with cfgSent := none, asked := none }) axes

/-- Training is done: ALIGN (R275). -/
def tethAlign (l : Nat) (s : State) : State :=
  let now := s.time.selvedge
  tethGoto l 2 (s.setLink l { s.link l with
    lastUp := now, started := now, line := [], queue := [], echoes := [], rtts := [], own := none,
    todo := alignSteps, echoAt := now, run := 0, axes := forgetCfg (s.link l).axes })

/-- What the link group writes into a station register (R276, R281, R291). -/
def stationData (s : State) (l addr : Nat) : Word :=
  if addr = 0x10 then w32 (max 4000 (fld (s.rg (tl l Teth.LP)) 15 0))
  else if addr = 0x11 then w32 (fld (s.rg (tl l Teth.PHASE)) 15 0)
  else if addr = 0x12 then w32 (min 5 (fld (s.rg (tl l Teth.CFG)) 26 24))
  else if addr < 0x28 then
    let a := addr - 0x20
    w32 (b2n (tethEn s l a) * 2 ^ 31 + fld (s.rg (tl l (Teth.AX_SAFECFG a))) 1 0 * 2 ^ 16
      + fld (s.rg (tl l (Teth.AX_SOFF a))) 15 0)
  else w32 (fld (req1 s (tethSlot s l (addr - 0x28))) 15 0)

/-- A `REGRD` or `REGWR` cell (R273). -/
def regCell (write : Bool) (addr : Nat) (data : Word) (tag : Nat) : List Byte :=
  cellBytes (if write then 4 else 5) 0
    (toBytes 2 addr ++ toBytes 4 (if write then data.toNat else 0) ++ toBytes 1 tag)

/-- The link group makes an access of its own. -/
def ownAccess (l addr : Nat) (write again : Bool) (s : State) : State :=
  let x := s.link l
  let data := if write then stationData s l addr else 0
  let tag := (x.tag + 1) % 256
  let axes := if write && 0x20 ≤ addr && addr < 0x28 then
      Tbl.set (fun _ => {}) x.axes (addr - 0x20) { x.ax (addr - 0x20) with cfgSent := some data }
    else x.axes
  sendCell l 3 (regCell write addr data tag)
    (s.setLink l { x with tag := tag, axes := axes, own := some { addr := addr, data := data, write := write, tag := tag,
                                                                  sent := s.time.selvedge, again := again } })

/-- An axis that is enabled and has been sent no `AXCFG_a` in this bring-up. -/
def axisToSend (s : State) (l : Nat) : Option Nat :=
  (List.range 8).find? (fun a => tethEn s l a && ((s.link l).ax a).cfgSent.isNone)

/-- The link group goes on with bring-up (R276): the next access or measurement, `AXCFG_a` and `AXRATE_a` of an axis that
is enabled by then, or UP. -/
def alignStep (l : Nat) (s : State) : State :=
  let x := s.link l
  if tethState s l ≠ 2 ∨ x.own.isSome then s
  else match x.todo with
    | [] => match axisToSend s l with
      | some a => ownAccess l (0x20 + a) true false (s.setLink l { x with todo := [.write (0x20 + a), .write (0x28 + a)] })
      | none => tethGoto l 3 s
    | .read a :: _ => ownAccess l a false false s
    | .write a :: _ => ownAccess l a true false s
    | .echo :: _ =>
      if x.echoes.any (fun e => !elapsed s e.2 8000) || x.queue.any (fun c => c.prio = 2 && c.bytes.getD 9 0 = 1) then s
      else sendTime l true s

/-- A step of bring-up is done. -/
def alignNext (l : Nat) (s : State) : State := s.setLink l { s.link l with todo := (s.link l).todo.drop 1, own := none }

/-- The link group's own access failed: a second try, then FAULT (R276).  Outside bring-up there is no second
try (log entry 17). -/
def ownFailed (l : Nat) (acc : LinkAcc) (s : State) : State :=
  if tethState s l ≠ 2 then s.setLink l { s.link l with own := none }
  else if acc.again then tethFail l 4 s
  else ownAccess l acc.addr acc.write true s

/-- The link group's own access was answered (R276). -/
def ownDone (l : Nat) (acc : LinkAcc) (data : Word) (result : Nat) (s : State) : State :=
  if result ≠ 0 then ownFailed l acc s
  else if tethState s l ≠ 2 then s.setLink l { s.link l with own := none }
  else if acc.write then alignNext l s
  else if acc.addr = 0 then (if fld data 7 0 = 1 then alignNext l s else tethFail l 1 s)
  else
    let s1 := s.setRg (tl l Teth.CAPS) data
    if (List.range 8).any (fun a => tethEn s l a && !tb data a) then tethFail l 3 s1 else alignNext l s1

/-- A write of `CFG` (R275, R281): `SCALE` keeps its value while `EN` = 1. -/
def tethCfgWrite (l : Nat) (v : Word) (sec : Bool) (s : State) : Resp × State :=
  let a := tl l Teth.CFG
  let was := s.rg a
  let s1 := plainWrite .teth l Teth.CFG v sec s
  let s2 := if tb was 31 then s1.setRgFld a 26 24 (fld was 26 24) else s1
  if tb was 31 = tb v 31 then (.ok 0, s2)
  else
    let s3 := tethGoto l 0 s2
    (.ok 0, s3.setLink l { s3.link l with line := [], set := [], errs := [], rxFrom := s.time.selvedge })

/-- 64 symbols (205 ticks) have been received, and the last 64 hold no symbol error (R274). -/
def rxClean (s : State) (l : Nat) : Bool :=
  elapsed s (s.link l).rxFrom 205 && match (s.link l).errs with | t :: _ => elapsed s t 205 | [] => true
/-- The last four symbol errors since lock lie within 64 consecutive symbols (R274). -/
def rxLost (s : State) (l : Nat) : Bool :=
  match (s.link l).errs with | [e, _, _, t] => !reached 64 (e - t).toNat 202 | _ => false

/-- Lock, training and loss of lock (R274, R275, R289). -/
def tethLock (l : Nat) (s : State) : State :=
  if tb (s.rg (tl l Teth.CFG)) 31 && tethState s l = 0 && rxClean s l then
    tethGoto l 1 (s.setLink l { s.link l with errs := [] })
  else s
def tethTrained (l : Nat) (s : State) : State := if tethState s l = 1 && rxClean s l then tethAlign l s else s
def tethLockLoss (l : Nat) (s : State) : State :=
  if rxLost s l ∧ 1 ≤ tethState s l ∧ tethState s l ≤ 3 then tethGoto l 0 (bump .teth l Teth.LOCKLOSS_CNT (tethFlag l 5 s)) else s

/-- A symbol error is received (R268, R274): the flag, the count and its time; with the fourth in 64 symbols lock is lost
(`tethLockLoss`), at the next tick at the latest. -/
def rxError (l : Nat) (s : State) : State :=
  let s1 := bump .teth l Teth.CODEERR_CNT (tethFlag l 4 s)
  s1.setLink l { s1.link l with errs := (s.time.selvedge :: (s1.link l).errs).take 4 }

/-- No valid upstream cell for 4 µs (R289). -/
def upLossDue (s : State) (l : Nat) : Bool := tethCells s l && elapsed s (s.link l).lastUp 3200
def upLoss (l : Nat) (s : State) : State := tethGoto l 0 (tethFlag l 6 s)

/-- An invalid upstream cell is discarded (R271). -/
def badCell (l : Nat) (s : State) : State := bump .teth l Teth.BADCELL_CNT (tethFlag l 3 s)

/-- The content of a received cell is valid (R271): 16 bytes with a good CRC, a type that is defined upstream, and an
axis, where it names one, that the station reports present. -/
def cellValid (s : State) (l : Nat) (bs : List Byte) : Bool :=
  let h := (bs.getD 0 0).toNat
  bs.length = 16 && crc16 0xFFFF (bs.take 14) = ofBytes (bs.drop 14) && 1 ≤ h % 16 && h % 16 ≤ 5
    && (2 < h % 16 || tb (s.rg (tl l Teth.CAPS)) (h / 16 % 8))

/-- A cell with a good CRC and a defined type arrives upstream: it is handled while the link carries cells, and
an axis that it names must be one the station reports present (R271). -/
def upCell (l : Nat) (axis : Option Nat) (f : State → State) (s : State) : State :=
  if !tethCells s l then s
  else
    let absent := match axis with | some a => !tb (s.rg (tl l Teth.CAPS)) a | none => false
    if absent then badCell l s
    else f (s.setLink l { s.link l with lastUp := s.time.selvedge })

/-! ### Time alignment (R278) -/

/-- The mean of the measured RTTs / 2, rounded to the nearest tick with halves up. -/
def meanDelay (rtts : List Int) : Int :=
  if rtts.isEmpty then 0 else (rtts.foldl (· + ·) 0 + rtts.length) / (2 * rtts.length)

/-- An `ECHO` arrives whose reference point passed the balls `age` ticks ago (R276, R278). -/
def echoReceived (l : Nat) (t : DWord) (ta : Word) (age : Nat) (s : State) : State :=
  let x := s.link l
  match x.echoes.find? (fun e => e.1 = t) with
  | none => s
  | some (_, t1) =>
    let s0 := s.setLink l { x with echoes := x.echoes.filter (fun e => e.1 ≠ t) }
    let d := s.time.selvedge - w64 age - t1
    if !newer 64 8001 d.toNat then s0
    else
      let rtt := wrap ((d.toNat : Int) - ta.toNat) 32
      let rtts := (sext rtt 32 :: x.rtts).take 8
      let dly := meanDelay rtts
      let old := fld (s.rg (tl l Teth.DLY)) 15 0
      let s1 := (s0.setLink l { s0.link l with rtts := rtts }).setRg (tl l Teth.RTT) (w32 rtt)
      let s2 := s1.setRg (tl l Teth.DLY) (w32 (wrap dly 16))
      if tethState s l = 3 then
        (if (dly - old).natAbs > 2 then tethFlag l 7 s2 else s2)
      else match x.todo with
        | .echo :: rest =>
          if rest.head? ≠ some .echo ∧ dly > 80 then tethFail l 2 s2 else alignNext l s2
        | _ => s2

/-- The echo interval has passed in UP (R278). -/
def echoDue (s : State) (l : Nat) : Bool :=
  tethState s l = 3 && elapsed s (s.link l).echoAt (max 1 (fld (s.rg (tl l Teth.CFG)) 15 8) * 80000)
def echoAsk (l : Nat) (s : State) : State :=
  sendTime l true (s.setLink l { s.link l with echoAt := s.time.selvedge })

/-! ### Periods, samples and feedback (R281–R284) -/

/-- Effective `LP` (R281). -/
abbrev linkLP (s : State) (l : Nat) : Nat := max 4000 (fld (s.rg (tl l Teth.LP)) 15 0)
/-- The number of the link period at a Selvedge time (R281). -/
def periodAt (s : State) (l : Nat) (t : DWord) : Nat :=
  (t.toNat / 2 - fld (s.rg (tl l Teth.PHASE)) 15 0) / linkLP s l
/-- The Selvedge time at which link period `n` begins (R281). -/
def periodStart (s : State) (l n : Nat) : Nat := 2 * (n * linkLP s l + fld (s.rg (tl l Teth.PHASE)) 15 0)

/-- A 32-bit station time on the full Selvedge count. -/
def fullTime (s : State) (t : Word) : DWord :=
  s.time.selvedge - BitVec.ofInt 64 (w32 s.time.selvedge.toNat - t).toInt

/-- The edges for a period that has begun become active (R285). -/
def promote (n : Nat) (x : LinkAx) : LinkAx :=
  match x.pend with
  | some (p, e) => if p ≤ n then { x with active := e, pend := none } else x
  | none => x

/-- The commit deadline of a sample taken in period `n` (R284). -/
def linkDeadline (s : State) (l : Nat) (x : LinkAx) (n : Nat) : DWord :=
  let sc := min 5 (fld (s.rg (tl l Teth.CFG)) 26 24)
  let idx := (List.range 6).map (fun i => (ofBytes ((x.active.drop (2 * i)).take 2) <<< sc) / 32)
  let first := if x.active.isEmpty then linkLP s l else idx.foldl min (linkLP s l)
  let e := periodStart s l (n + 1) + 2 * first
  w64 ((e - fld (s.rg (tl l Teth.DLY)) 15 0 - 199) / 2 * 2)

/-- The station's sample instant of axis `a` is at this tick (R282): the period it belongs to. -/
def instantOf (s : State) (l a : Nat) : Option Nat :=
  let t := s.time.selvedge.toNat
  let off := fld (s.rg (tl l Teth.PHASE)) 15 0 + fld (s.rg (tl l (Teth.AX_SOFF a))) 15 0
  let x := tethSlot s l a
  if tethEn s l a && tethState s l = 3 && x < 128 && ctxBound s x && t % 2 = 0 && off ≤ t / 2
      && (t / 2 - off) % linkLP s l = 0 && (t / 2 - off) / linkLP s l % reqRate s x = 0 then
    some ((t / 2 - off) / linkLP s l)
  else none

/-- A sample is taken at the station: it waits for its answer, its compares begin, and a copy that is not acknowledged is
late, whether or not its `SAMPLE` cell comes (R248, R250, R257, R283). -/
def stationSample (l a : Nat) (s : State) : State :=
  match instantOf s l a with
  | some n =>
    let y := (s.link l).ax a
    let now := s.time.selvedge
    if y.opened = some (n, now) then s
    else
      let x := tethSlot s l a
      sampleTaken x now (linkDeadline s l y n) (lateCopy x (s.setLinkAx l a { y with opened := some (n, now) }))
  | none => s

/-- The `SAMPLE` cell of a sample that waits gives it its stamp. -/
def sampleStamped (x : Nat) (nominal t : DWord) (s : State) : State :=
  s.setAx x { s.ax x with samples := (s.ax x).samples.map (fun o => if o.time = nominal then { o with time := t } else o) }

/-- A `SAMPLE` cell of axis `a` (R283): status, IA, IB, AUX, VBUS, `SAMPLE_TIME`. -/
def sampleCell (l a : Nat) (st : Byte) (ia ib aux vbus : BitVec 16) (time : Word) (s : State) : State :=
  if !tethEn s l a then s
  else
    let x := tethSlot s l a
    let s1 := if st.getLsbD 7 then
        axst x 0 (bump .teth l (Teth.AX_LATE_CNT a) (s.setRgBit (tl l (Teth.AX_AXSTAT a)) 1 true))
      else s
    let t := fullTime s time
    let n := periodAt s l t
    let y := promote n ((s1.link l).ax a)
    let s2 := s1.setLinkAx l a { y with period := n, asked := some (y.asked.getD n) }
    let dl := linkDeadline s l y n
    let s3 := if !(x < 128 && ctxBound s x) then s2
      else match y.opened with
        | some (k, nominal) => if k = n then sampleStamped x nominal t s2 else sampleTaken x t dl s2
        | none => sampleTaken x t dl s2
    let sv := st.toNat
    let status := 2 ^ 22 + sv / 8 % 2 * 2048 + sv / 16 % 8 * 256 + sv % 8 * 16
    samplePort (some midTeth) x (toBytes 2 ia.toNat ++ toBytes 2 ib.toNat ++ toBytes 2 aux.toNat ++ toBytes 2 vbus.toNat) t status none s3

/-- A `FEEDBACK` cell of axis `a` (R283): status, `POSITION`, `TURNS`, `FB_TIME`. -/
def feedbackCell (l a : Nat) (st : Byte) (pos turns time : Word) (s : State) : State :=
  if !tethEn s l a || !tb (s.rg (tl l (Teth.AX_AX a))) 30 then s
  else
    let x := tethSlot s l a
    let y := (s.link l).ax a
    let t := fullTime s time
    let bad := st.getLsbD 0 || st.getLsbD 1
    let pl := linear pos turns (revOf (s.rg (tl l (Teth.AX_FBREV a))))
    let (v, clamped) : Int × Bool := match y.lastFb with
      | some e => let dt : Int := (t - e.time).toNat; if dt = 0 then (0, false) else speedOf (pl - e.pos) dt
      | none => (0, false)
    let speed := if bad then y.speed else wInt v
    let s1 := if bad then s
      else s.setLinkAx l a { y with speed := speed, lastFb := some { time := t, pos := pl } }
    let bit (i j : Nat) : Nat := b2n (st.getLsbD i) * 2 ^ j
    let flags := bit 0 15 + bit 1 14 + bit 2 13 + bit 3 7 + bit 4 11 + bit 5 6 + bit 6 8 + b2n (!bad && clamped) * 1024
    feedbackPort (some midTeth) x pos turns speed t flags 2 none s1

/-- A bundle of a linked axis reaches the link group (R284): an `EDGE` cell, or discarded, as one committed before the
`CLRSAFE` that has been accepted since is (R290).  It is the answer to the oldest sample that has come since the axis's
last bundle (R257), and is for the period after that sample's (log entry 17). -/
def linkedBundle (l a : Nat) (bytes : List Byte) (old : Bool) (s : State) : State :=
  let x := { (s.link l).ax a with asked := none }
  let r := tl l (Teth.AX_AXSTAT a)
  if tethState s l ≠ 3 ∨ old ∨ (tb (s.rg r) 31 ∧ x.clearing.isNone) then (s.setLinkAx l a x).setRgBit r 0 true
  else
    let k := (((s.link l).ax a).asked.getD x.period) + 1
    let edges := bytes.take 12
    let now := periodAt s l s.time.selvedge
    let y := promote now x
    let z := if k = now then { y with active := edges } else if now < k then { y with pend := some (k, edges) } else y
    sendCell l 1 (cellBytes 1 a (BitVec.ofNat 8 k :: edges))
      (s.setLinkAx l a { z with answered := true, haltHold := none })

/-- The bundle at place `i` of those in flight reaches the link group of its axis (R84, R257, R284). -/
def linkedArrival (i : Nat) (s : State) : State :=
  match s.axis.edges[i]? with
  | none => s
  | some f =>
    match linkOf s f.axis with
    | none => s
    | some (l, a) =>
      let (out, s1) := bundleAtPort f { s with axis.edges := removeAt s.axis.edges [i] }
      if out then linkedBundle l a f.bytes f.old s1 else s1

/-! ### Safe state and loop periods (R286–R290) -/

/-- The engine that hosts the first copy of an axis is halted under debug. -/
def axisHalted (s : State) (x : Nat) : Bool :=
  (boundBanks s x).any (fun k => !(s.bank k).second && (s.el (k / 16)).halted)

/-- The engine that hosts the first copy of an axis runs: it holds a bound bank and is not halted (R290). -/
def axisHosted (s : State) (x : Nat) : Bool :=
  (boundBanks s x).any (fun k => !(s.bank k).second && !(s.el (k / 16)).halted)

/-- The axis must be in the safe state for the device's mode (R288). -/
def modeHoldsSafe (s : State) : Bool := opMode s = 3 || opMode s = 6 || opMode s = 7

/-- `CLRSAFE` is accepted (R288, R290). -/
def tethClrAllowed (s : State) (l a : Nat) (sec : Bool) : Bool :=
  let st := s.rg (tl l (Teth.AX_AXSTAT a))
  let cause := fld st 30 28
  tethEn s l a && tb st 31 && ((s.link l).ax a).clearing.isNone
    && (sec || cause ≠ 1 && cause ≠ 5 && cause ≠ 6)
    && tethState s l = 3 && !tb (s.rg (tl l Teth.STSTAT)) (24 + a)
    && axisHosted s (tethSlot s l a) && !modeHoldsSafe s

/-- A write of `AX_a.CTRL`: `FORCESAFE` goes before `CLRSAFE`. -/
def tethCtrlWrite (l a : Nat) (v : Word) (sec : Bool) (s : State) : Resp × State :=
  if tb v 0 then (.ok 0, if tethEn s l a then tethSafe l a 7 s else s)
  else if tb v 1 && tethClrAllowed s l a sec then
    let s1 := s.setLinkAx l a { (s.link l).ax a with clearing := some 0 }
    (.ok 0, { s1 with axis.edges := s1.axis.edges.map (fun f =>
      if f.axis = tethSlot s l a then { f with old := true } else f) })
  else (.ok 0, s)

/-- A write of `AX_a.AX` (R161, R194): a write whose claim of a slot is refused is ignored, one whose claim of the
feedback is refused leaves `FB` 0, and either sets `REFUSED`; an axis enabled
while the link is not UP, or in a mode that holds it safe, is in the safe state (R288). -/
def tethAxWrite (l a : Nat) (v : Word) (sec : Bool) (s : State) : Resp × State :=
  let r := tl l (Teth.AX_AX a)
  let was := s.rg r
  let s1 := plainWrite .teth l (Teth.AX_AX a) v sec s
  if !tb (s1.rg r) 31 then (.ok 0, s1)
  else
    let x := fld (s1.rg r) 7 0
    let fresh := !tb was 31 || fld was 7 0 ≠ x
    let refused (s : State) : State := s.setRgBit (tl l (Teth.AX_AXSTAT a)) 6 true
    if fresh && slotServed (s1.setRgBit r 31 false) x then (.ok 0, refused s)
    else
      let s2 := if tb (s1.rg r) 30 && (fresh || !tb was 30) && fbClaimed s1 x (32 + 8 * l + a) then refused (s1.setRgBit r 30 false) else s1
      let s3 := if tethState s2 l ≠ 3 then tethSafe l a 5 s2 else if modeHoldsSafe s2 then tethSafe l a 7 s2 else s2
      (.ok 0, s3)

/-- A `STATUS` cell (R287, R288, R290). -/
def statusCell (l : Nat) (safe fault : Byte) (code : BitVec 16) (s : State) : State :=
  let s1 := s.setRg (tl l Teth.STSTAT) (w32 (fault.toNat * 2 ^ 24 + safe.toNat * 2 ^ 16 + code.toNat))
  let s2 := if fault ≠ 0 ∨ code ≠ 0 then tethFlag l 1 s1 else s1
  (List.range 8).foldl (fun s a =>
    let r := tl l (Teth.AX_AXSTAT a)
    let s3 := s.setRgBit r 7 (safe.getLsbD a)
    if !tethEn s3 l a then s3
    else if fault.getLsbD a then tethSafe l a 1 s3
    else
      let x := (s3.link l).ax a
      if x.clearing.isSome && !safe.getLsbD a then
        (s3.setLinkAx l a { x with clearing := none, repeats := 0, answered := true }).setRgBit r 31 false
      else s3) s2

/-- The axis's loop period begins at this tick: `RATE` link periods from Selvedge 2 × `PHASE` (R281, R282). -/
def loopDue (s : State) (l a : Nat) : Bool :=
  let t := s.time.selvedge.toNat
  let ph := fld (s.rg (tl l Teth.PHASE)) 15 0
  tethEn s l a && t % 2 = 0 && ph ≤ t / 2
    && (t / 2 - ph) % (linkLP s l * reqRate s (tethSlot s l a)) = 0
    && ((s.link l).ax a).loopAt ≠ some s.time.selvedge

/-- A period with no answer sent is counted (R286); in the safe state its starvation changes nothing more. -/
def linkRepeat (l a : Nat) (s : State) : State :=
  let x := (s.link l).ax a
  let r := tl l (Teth.AX_AXSTAT a)
  if x.answered then s.setLinkAx l a { x with repeats := 0 }
  else
    let s1 := bump .teth l (Teth.AX_REPEAT_CNT a) (s.setRgBit r 2 true)
    let s2 := s1.setLinkAx l a { x with repeats := x.repeats + 1 }
    let hold := fld (s.rg (tl l (Teth.AX_SAFECFG a))) 11 8
    if hold ≠ 0 ∧ x.repeats + 1 ≥ hold ∧ tb (s.rg r) 31 = false then tethSafe l a 3 s2 else s2

/-- The `AXCTL` cell of a loop period: `SAFE`, or `CLEAR` up to 16 times (R288, R290). -/
def linkAxctl (l a : Nat) (s : State) : State :=
  let st := s.rg (tl l (Teth.AX_AXSTAT a))
  let x := (s.link l).ax a
  let cell (cmd : Nat) : List Byte := cellBytes 3 a (toBytes 1 cmd ++ toBytes 1 (fld st 30 28))
  if !tb st 31 then s
  else match x.clearing with
    | none => sendCell l 0 (cell 1) s
    | some k =>
      if k ≥ 16 then
        sendCell l 0 (cell 1) (tethFlag l 2 (dropEdges l a (s.setLinkAx l a { x with clearing := none, pend := none, active := [] })))
      else sendCell l 0 (cell 2) (s.setLinkAx l a { x with clearing := some (k + 1) })

/-- The reaction to a debug halt of the hosting engine (R187, R288), at a tick. -/
def linkHalt (l a : Nat) (s : State) : State :=
  let x := (s.link l).ax a
  if tethEn s l a && axisHalted s (tethSlot s l a) then
    (if tb (s.rg (tl l (Teth.AX_SAFECFG a))) 4 then
      (if x.haltHold.isNone then s.setLinkAx l a { x with haltHold := some 8 } else s)
    else tethSafe l a 4 s)
  else s

/-- One period of a halt hold passes (R187). -/
def linkHold (l a : Nat) (s : State) : State :=
  let x := (s.link l).ax a
  match x.haltHold with
  | some 0 => tethSafe l a 4 (s.setLinkAx l a { x with haltHold := none })
  | some (k + 1) => s.setLinkAx l a { x with haltHold := some k }
  | none => s

/-- A loop period of a linked axis begins (R27, R81, R286, R288, R290). -/
def loopPeriod (l a : Nat) (s : State) : State :=
  let x := tethSlot s l a
  let s1 := linkHold l a (linkRepeat l a (linkHalt l a s))
  let y := promote (periodAt s l s.time.selvedge) ((s1.link l).ax a)
  let s2 := linkAxctl l a (s1.setLinkAx l a { y with answered := false, loopAt := some s.time.selvedge })
  settle (if x < 128 then wakeCtx x 6 (axisPeriod x s2) else s2)

/-! ### Station registers (R291) -/

/-- A register that only the link group writes. -/
def linkOwned (addr : Nat) : Bool := (0x10 ≤ addr && addr ≤ 0x12) || (0x20 ≤ addr && addr < 0x30)

/-- A write of `REGCMD` (R291, R293). -/
def tethRegGo (l : Nat) (v : Word) (sec : Bool) (s : State) : Resp × State :=
  let st := tl l Teth.REGSTAT
  let s1 := plainWrite .teth l Teth.REGCMD v sec s
  if !tb v 31 || tb (s.rg st) 31 || !tethCells s l then (.ok 0, s1)
  else
    let addr := fld v 15 0
    let write := tb v 30
    if write && linkOwned addr then (.ok 0, s1.setRgFld st 7 0 2)
    else
      let data := s.rg (tl l Teth.REGDATA)
      let tag := ((s.link l).tag + 1) % 256
      let s2 := s1.setLink l { s1.link l with tag := tag, cmd := some { addr := addr, data := data, write := write,
                                                                        tag := tag, sent := s.time.selvedge } }
      (.ok 0, sendCell l 3 (regCell write addr data tag) (s2.setRgBit st 31 true))

/-- The access of `REGCMD` is answered (R276). -/
def cmdAck (l : Nat) (acc : LinkAcc) (data : Word) (result : Nat) (s : State) : State :=
  let st := tl l Teth.REGSTAT
  let s1 := ((s.setLink l { s.link l with cmd := none }).setRgBit st 31 false).setRgBit st 30 true
  let s2 := s1.setRgFld st 7 0 result
  if acc.write then s2 else s2.setRg (tl l Teth.REGDATA) data

/-- A `REGACK` arrives (R276, R291). -/
def regAck (l addr : Nat) (data : Word) (tag result : Nat) (s : State) : State :=
  let x := s.link l
  let fits (acc : LinkAcc) : Bool := acc.addr = addr && acc.tag = tag
  match x.own, x.cmd with
  | some acc, c =>
    if fits acc then ownDone l acc data result s
    else match c with
      | some acc => if fits acc then cmdAck l acc data result s else s
      | none => s
  | none, some acc => if fits acc then cmdAck l acc data result s else s
  | none, none => s

/-- An access has had no `REGACK` for 20 µs (R276, R293). -/
def accTimeout (l : Nat) (s : State) : State :=
  let late (acc : LinkAcc) : Bool := elapsed s acc.sent 16000
  let s1 := match (s.link l).own with
    | some acc => if late acc then ownFailed l acc s else s
    | none => s
  match (s1.link l).cmd with
  | some acc =>
    if late acc then
      ((s1.setLink l { s1.link l with cmd := none }).setRgBit (tl l Teth.REGSTAT) 31 false).setRgBit
        (tl l Teth.REGSTAT) 29 true
    else s1
  | none => s1

/-- The Saddler has chosen another sample offset for an axis, or the axis has been enabled since bring-up: the link group
forwards it (R291, log entry 17). -/
def forwardSoff (l : Nat) (s : State) : State :=
  if tethState s l ≠ 3 || (s.link l).own.isSome then s
  else
    let stale (a : Nat) : Bool := tethEn s l a && match ((s.link l).ax a).cfgSent with
      | some w => fld w 15 0 ≠ fld (s.rg (tl l (Teth.AX_SOFF a))) 15 0
      | none => true
    match (List.range 8).find? stale with
    | some a => ownAccess l (0x20 + a) true false s
    | none => s

/-- What the link group does at a tick of its own accord. -/
def linkTick (l : Nat) (s : State) : State :=
  if !tb (s.rg (tl l Teth.CFG)) 31 then linkSymbol l (accTimeout l s)
  else
    let s0 := tethLockLoss l s
    let s1 := if upLossDue s0 l then upLoss l s0 else s0
    let s2 := alignStep l (accTimeout l s1)
    let s3 := (List.range 8).foldl (fun s a => linkHalt l a s) s2
    let s4 := (List.range 8).foldl (fun s a => if loopDue s l a then loopPeriod l a s else s) s3
    let s4 := (List.range 8).foldl (fun s a => stationSample l a s) s4
    let s5 := if echoDue s4 l then echoAsk l s4 else s4
    let s6 := if timeCellDue s5 l then sendTime l false s5 else s5
    linkSymbol l (lineStart l (forwardSoff l s6))

/-- A write of any `TETH` register. -/
def tethWrite (l o : Nat) (v : Word) (sec : Bool) (s : State) : Resp × State :=
  let a := (o - 0x100) / 0x20
  if o = Teth.CFG then tethCfgWrite l v sec s
  else if o = Teth.LP || o = Teth.PHASE then
    (.ok 0, if tb (s.rg (tl l Teth.CFG)) 31 then s else plainWrite .teth l o v sec s)
  else if o = Teth.REGCMD then tethRegGo l v sec s
  else if 0x100 ≤ o ∧ o < 0x200 ∧ o % 0x20 = 0 then tethAxWrite l a v sec s
  else if 0x100 ≤ o ∧ o < 0x200 ∧ o % 0x20 = 0xC then tethCtrlWrite l a v sec s
  else (.ok 0, plainWrite .teth l o v sec s)

/-! ### Commands -/

def execTethEnable (m : Master) (l : Fin 16) (v : Word) (s : State) : Host.Outcome State Fault Refusal :=
  .next (regAccess m (tl l Teth.CFG) (tethCfgWrite l v m.sec) s)
/-- `TETH_LOCK`: with 64 symbols without a symbol error (log entry 5). -/
def execTethLock (l : Fin 16) (s : State) : Host.Outcome State Fault Refusal := .next (tethLock l s)
/-- `TETH_LOCK_LOSS`: with the fourth symbol error in 64 symbols (log entry 5). -/
def execTethLockLoss (l : Fin 16) (s : State) : Host.Outcome State Fault Refusal := .next (tethLockLoss l s)
/-- `TETH_TRAIN_DONE`: 16 TSB, 64 symbols, without a symbol error (log entry 5). -/
def execTethTrainDone (l : Fin 16) (s : State) : Host.Outcome State Fault Refusal := .next (tethTrained l s)
def execTethAlign (l : Fin 16) (s : State) : Host.Outcome State Fault Refusal := .next (alignStep l s)
/-- `TETH_TIME_CELL`: when 1 µs has passed (log entry 5). -/
def execTethTimeCell (l : Fin 16) (s : State) : Host.Outcome State Fault Refusal :=
  .next (if timeCellDue s l then sendTime l false s else s)
/-- `TETH_ECHO_REQUEST`: when the interval has passed (log entry 5). -/
def execTethEchoRequest (l : Fin 16) (s : State) : Host.Outcome State Fault Refusal :=
  .next (if echoDue s l then echoAsk l s else s)
def execEchoReceived (l : Fin 16) (t : BitVec 64) (ta : Word) (age : Nat) (s : State) :
    Host.Outcome State Fault Refusal :=
  .next (upCell l none (echoReceived l t ta age) s)
def execSampleCellReceived (l : Fin 16) (a : Fin 8) (st : BitVec 8) (ia ib aux vbus : BitVec 16) (time : Word) (s : State) :
    Host.Outcome State Fault Refusal :=
  .next (upCell l (some a) (sampleCell l a st ia ib aux vbus time) s)
def execFeedbackCellReceived (l : Fin 16) (a : Fin 8) (st : BitVec 8) (pos turns time : Word) (s : State) :
    Host.Outcome State Fault Refusal :=
  .next (upCell l (some a) (feedbackCell l a st pos turns time) s)
def execStatusCellReceived (l : Fin 16) (safe fault : BitVec 8) (code : BitVec 16) (s : State) :
    Host.Outcome State Fault Refusal :=
  .next (upCell l none (statusCell l safe fault code) s)
def execRegackReceived (l : Fin 16) (addr : BitVec 16) (data : Word) (tag result : BitVec 8) (s : State) :
    Host.Outcome State Fault Refusal :=
  .next (upCell l none (regAck l addr.toNat data tag.toNat result.toNat) s)
def execTethRegcmdGo (m : Master) (l : Fin 16) (v : Word) (s : State) : Host.Outcome State Fault Refusal :=
  .next (regAccess m (tl l Teth.REGCMD) (tethRegGo l v m.sec) s)
def execTethRegTimeout (l : Fin 16) (s : State) : Host.Outcome State Fault Refusal := .next (accTimeout l s)
/-- `UPLOSS_TIMEOUT`: when 4 µs have passed (log entry 5). -/
def execUplossTimeout (l : Fin 16) (s : State) : Host.Outcome State Fault Refusal :=
  .next (if upLossDue s l then upLoss l s else s)
def execLinkedBundle (i : Nat) (s : State) : Host.Outcome State Fault Refusal := .next (linkedArrival i s)
/-- `LINK_LOOP_PERIOD`: at the tick where the loop period begins (log entry 5). -/
def execLinkLoopPeriod (l : Fin 16) (a : Fin 8) (s : State) : Host.Outcome State Fault Refusal :=
  .next (if loopDue s l a then loopPeriod l a s else s)
def execTethClrsafe (m : Master) (l : Fin 16) (a : Fin 8) (s : State) : Host.Outcome State Fault Refusal :=
  .next (regAccess m (tl l (Teth.AX_CTRL a)) (tethCtrlWrite l a 2 m.sec) s)
def execTethForcesafe (m : Master) (l : Fin 16) (a : Fin 8) (s : State) : Host.Outcome State Fault Refusal :=
  .next (regAccess m (tl l (Teth.AX_CTRL a)) (tethCtrlWrite l a 1 m.sec) s)
/-- `TETH_SYMBOL_ERROR`: a code group received at a running disparity, which counts if it is one. -/
def execTethSymbolError (l : Fin 16) (s : State) (rd : Bool := false) (code : BitVec 10 := 0) : Host.Outcome State Fault Refusal :=
  .next (if tb (s.rg (tl l Teth.CFG)) 31 && symbolError rd code then rxError l s else s)
/-- `TETH_INVALID_CELL`: a received cell, `cut` short by a K symbol or a symbol error or with all its content, which is
discarded if it is not valid (R271). -/
def execTethInvalidCell (l : Fin 16) (s : State) (cut : Bool := false) (bs : List Byte := []) : Host.Outcome State Fault Refusal :=
  .next (if tethCells s l && (cut || !cellValid s l bs) then badCell l s else s)

end Sys2Proof.Machine
end

