-- ==== Sys2Proof/Machine/Mmio.lean ====
section
/-! DEFINITION. A read or write of any register of the peripheral, Bridle and always-on windows by any master
(R5–R9, R106, R107, R336): the checks, then the block that answers. -/

namespace Sys2Proof.Machine

/-! ### Writes -/

/-- The entry of `WMAP` that no write changes, with what it reads (R393). -/
def wmapFixed (n : Nat) : Option Word :=
  if n = wmapIndex .wmap 0 ∨ n = wmapIndex .rgn 0 ∨ n = wmapIndex .otp 0 ∨ n = wmapIndex .boot 0 ∨ n = wmapIndex .intc 0 then
    some 1
  else if n = wmapIndex .sec 0 then some 0 else none

/-- A write of any register of a bridge (R160, R193, R493): `OUTCFG` is secure, and a write that it ignores leaves the balls
as they are. -/
def pwmWrite (b o : Nat) (v : Word) (sec : Bool) (s : State) : Resp × State :=
  let en := pwmEn s b
  if o = Pwm.CFG then pwmCfgWrite b v sec s
  else if o = Pwm.CTRL then pwmCtrlWrite b v sec s
  else if o = Pwm.PHASE then phaseWrite b v s
  else if o = Pwm.FORCE then forceWrite b v sec s
  else if o = Pwm.PERIOD || o = Pwm.EDGE_A || o = Pwm.EDGE_B || o = Pwm.EDGE_C then stageItem b o v sec s
  else if o = Pwm.AXIS then (.ok 0, if en then s else plainWrite .pwm b o v sec s)
  else if o = Pwm.OUTCFG then
    (.ok 0, if en then s
      else
        let s1 := plainWrite .pwm b o v sec s
        if sec then s1.setBr b { s1.br b with driven := true } else s1)
  else (.ok 0, plainWrite .pwm b o v sec s)

/-- A write of any register of `TB` (R113, R114). -/
def tbWrite (m : Master) (o : Nat) (v : Word) (s : State) : Resp × State :=
  if 0x1000 ≤ o ∧ o < 0x2000 then
    (let n := (o - 0x1000) / 16
     match o % 16 with
     | 0 => slotLoWrite m n v s
     | 4 => slotHiWrite m n v s
     | 8 => slotPerWrite m n v s
     | _ => slotCtrlWrite m n v s)
  else (.ok 0, plainWrite .tb 0 o v m.sec s)

/-- A write of any register of `TIM` (R115, R117). -/
def timWrite (o : Nat) (v : Word) (sec : Bool) (s : State) : Resp × State :=
  let n := o / 0x100
  if n ≥ 64 then (.ok 0, s)
  else if o = Tim.CTRL n then timerCtrlWrite n v sec s
  else match (List.range 4).find? (fun k => o = Tim.CC n k) with
    | some k => timerCcWrite n k v s
    | none => (.ok 0, plainWrite .tim 0 o v sec s)

/-- A write that the gate has let through, by block. -/
def blockWrite (m : Master) (b : Blk) (i o : Nat) (v : Word) (s : State) : Resp × State :=
  match b with
  | .tb => tbWrite m o v s
  | .tim => timWrite o v m.sec s
  | .evr =>
    if o = Evr.SWTRIG then swtrigWrite v s
    else match (List.range 512).find? (fun n => o = Evr.ROUTE n) with
      | some n => routeWrite m n v s
      | none => (.ok 0, plainWrite .evr 0 o v m.sec s)
  | .intc => intcWrite m i o v s
  | .mbx => mbxWrite m o v s
  | .dma => dmaWrite o v m.sec s
  | .qm =>
    if o = Qm.PROD then qmWrite m false v s
    else if o = Qm.CONS then qmWrite m true v s
    else (.ok 0, plainWrite .qm 0 o v m.sec s)
  | .conv =>
    match (List.range 12).find? (fun k => o = Conv.SMP k) with
    | some k => smpWrite k v s
    | none => (.ok 0, plainWrite .conv 0 o v m.sec s)
  | .awl => awlWrite o v m.sec s
  | .flc =>
    if o = Flc.CTRL then (.ok 0, if tb v 0 then flInvalidate s else s) else (.ok 0, plainWrite .flc 0 o v m.sec s)
  | .pwm => pwmWrite i o v m.sec s
  | .fb => fbWrite i o v m.sec s
  | .senc => sencWrite i o v m.sec s
  | .teth => tethWrite i o v m.sec s
  | .girth => girthWrite i o v m.sec s
  | .eth => ethWrite i o v m.sec s
  | .wmap => (.ok 0, if o < 0x1000 && (wmapFixed (o / 4)).isSome then s else plainWrite .wmap 0 o v m.sec s)
  | .sec => secWrite m o v s
  | .boot =>
    (match (List.range 4).find? (fun n => o = Boot.ACREL n) with
     | some n => acrelGo n v m.sec s
     | none => (.ok 0, plainWrite .boot 0 o v m.sec s))
  | .dbg => dbgWrite m o v m.sec s
  | .patch => patchWrite m o v s
  | .memc => memcWrite o v m.sec s
  | .sadl =>
    if 0x1000 ≤ o && o < 0x3000 && o % 0x20 = 0xC then req3Write m ((o - 0x1000) / 0x20) v s else sadlWrite m o v s
  | .isl => if o = Isl.CLRFLT then islClrFlt m i v s else (.ok 0, plainWrite .isl i o v m.sec s)
  | .stc => stcWrite o v m.sec s
  | .age => ageWrite o v m.sec s
  | .pmu => pmuWrite m o v s
  | .cmp => cmpWrite o v m.sec s
  | .ptab | .rgn | .otp | .rein | .thm => (.ok 0, plainWrite b i o v m.sec s)

/-- A write of `n` bytes to the register windows: `FCLR` judges its own world (R467). -/
def mmioWrite (m : Master) (pa n : Nat) (v : Word) (s : State) : Resp × State :=
  if pa = ra .stc Stc.FCLR && n = 4 then fclrWrite v m.sec s
  else if gateRefuses s m pa n then (.err, s)
  else match blockAt pa with
    | some (b, i, o) => let r := blockWrite m b i o v s; (r.1, settle r.2)
    | none => (.err, s)

/-! ### Reads -/

/-- The high word that a read of a low word latches (R106). -/
def highOf (s : State) (m : Master) (b : Blk) (i o : Nat) : Option Word :=
  match b with
  | .tb => tbHigh s m o
  | .fb => fbHigh s i o
  | .senc => sencHigh s i o
  | .memc => if o = Memc.UEADDR_LO then some (s.rg (ra .memc Memc.UEADDR_HI)) else none
  | .rgn => if o = Rgn.ERRADDR_LO then some (s.rg (ra .rgn Rgn.ERRADDR_HI)) else none
  | _ => none

/-- The register shows the master's snapshot. -/
def isHigh (s : State) (m : Master) (b : Blk) (o : Nat) : Bool :=
  match b with
  | .tb => tbIsHigh s m o
  | .fb => o = Fb.TURNS || o = Fb.IDXTURN
  | .senc => o = Senc.RAW_HI || o = Senc.TURNS
  | .memc => o = Memc.UEADDR_HI
  | .rgn => o = Rgn.ERRADDR_HI
  | _ => false

/-- The value of a register that a block does not keep as the stored word. -/
def liveWord (s : State) (m : Master) (b : Blk) (i o : Nat) : Option Word :=
  match b with
  | .tb => tbLive s m o
  | .tim => timLive s o
  | .intc => intcLive s m i o
  | .dma => if o = Dma.GSTAT then some (dmaGstat s) else none
  | .pwm => pwmLive s i o
  | .fb => fbLive s i o
  | .senc => sencLive s i o
  | .wmap => if o < 0x1000 then wmapFixed (o / 4) else none
  | .sadl => sadlLive s o
  | .isl => islLive s i o
  | .rein => reinLive s m o
  | _ => none

/-- The bits that a high word has: the others read 0.  DESIGN CHOICE (log entry 67): a read of the high word of one pair
after a snapshot of another pair of its block (R106) returns those bits of that snapshot. -/
def highMask (b : Blk) (o : Nat) : Word :=
  match b with
  | .tb => if o = Tb.SLOW_HI then 0xFFFF else 0xFFFFFFFF
  | .memc => 0x1F00FF
  | .rgn => 0xFF
  | _ => 0xFFFFFFFF

/-- A read that the gate has let through, by block. -/
def blockRead (m : Master) (b : Blk) (i o : Nat) (s : State) : Resp × State :=
  if isHigh s m b o then (.ok (snapOf s m (b.addr i o) &&& highMask b o), s)
  else match b with
    | .mbx => if 0x1000 ≤ o ∧ o < 0x2000 then mbxRead m o s else (.ok (plainRead s b i o), s)
    | .qm =>
      if 0x20 ≤ o ∧ o < 0x34 then npopRead m ((o - 0x20) / 4) s else (.ok (plainRead s b i o), s)
    | .sec => let (v, s1) := secLive o s; (.ok (v.getD (plainRead s b i o)), s1)
    | .dbg => let (v, s1) := dbgRead o s; (.ok v, s1)
    | _ =>
      let s1 := match highOf s m b i o with
        | some h => latchSnap m (b.addr i o) h s
        | none => s
      (.ok ((liveWord s m b i o).getD (plainRead s b i o)), s1)

/-- A read of `n` bytes of the register windows. -/
def mmioRead (m : Master) (pa n : Nat) (s : State) : Resp × State :=
  if gateRefuses s m pa n then (.err, s)
  else match blockAt pa with
    | some (b, i, o) => blockRead m b i o s
    | none => (.err, s)

/-! ### Commands -/

/-- `SNAPSHOT_LOW_READ`: a read of the low word of a snapshot pair (R106); at any other address there is none. -/
def execSnapshotLowRead (m : Master) (pa : Nat) (s : State) : Host.Outcome State Fault Refusal :=
  match blockAt pa with
  | some (b, i, o) =>
    if (highOf s m b i o).isSome then
      let r := mmioRead m pa 4 s
      .next { r.2 with resp := r.1 }
    else .next s
  | none => .next s
/-- `REGISTER_WRITE`: a write of any register. -/
def execRegisterWrite (m : Master) (pa : Nat) (v : Word) (s : State) : Host.Outcome State Fault Refusal :=
  let r := mmioWrite m pa 4 v s
  .next { r.2 with resp := r.1 }

end Sys2Proof.Machine
end

