-- ==== Sys2Proof/Machine/Balls.lean ====
section
/-! DEFINITION. The balls of the package (R491–R495): the 163 balls of the boundary register in ball-map order, what the
device drives onto each, and the idle states of the pairs and of the memory interface (log entry 73). -/

namespace Sys2Proof.Machine

/-- A ball that has boundary cells (R473); `j` is 0 for A, 1 for B and 2 for Z. -/
inductive Ball where
  | pwm (b o : Nat)
  | trip (t : Nat)
  | feedback (f j : Nat)
  | sencMa (p : Nat)
  | sencDir (p : Nat)
  | sencSl (p : Nat)
  | girthTx (g : Nat)
  | girthDe (g : Nat)
  | girthRx (g : Nat)
  | mark (m : Nat)
  | nreset
  | nresetOut
  | boot (k : Nat)
  | nwake
  | mdc
  | mdio
  deriving DecidableEq, Repr

/-! ### The ball map (R491) -/

/-- The 18 balls of three bridges from bridge `b` on. -/
def bridgeRow (b : Nat) : List Ball := (List.range 18).map (fun c => .pwm (b + c / 6) (c % 6))
/-- The encoder balls of ports 2k and 2k + 1, and `MARK_k`. -/
def encoderRow (k : Nat) : List Ball :=
  [2 * k, 2 * k + 1].flatMap (fun p => [.sencMa p, .sencDir p, .sencSl p]) ++ [.mark k]
/-- The Girth balls of ports 2k and 2k + 1, and `MARK_4` or `MARK_5`. -/
def girthRow (k : Nat) : List Ball :=
  [2 * k, 2 * k + 1].flatMap (fun g => [.girthTx g, .girthDe g, .girthRx g]) ++ [.mark (4 + k)]
/-- The 163 balls that have cells, in ball-map order: rows E to G, H to L, M and N, P, T, U, V and W. -/
def ballList : List Ball :=
  bridgeRow 0 ++ [.trip 0, .trip 1] ++ bridgeRow 3 ++ [.trip 2, .trip 3] ++ bridgeRow 6
    ++ (List.range 4).flatMap encoderRow ++ (List.range 2).flatMap girthRow ++ [.mark 6, .mark 7]
    ++ [.nreset, .nresetOut, .boot 0, .boot 1, .nwake] ++ bridgeRow 9
    ++ (List.range 12).flatMap (fun f => [.feedback f 0, .feedback f 1, .feedback f 2]) ++ [.mdc, .mdio]

/-- Input-only balls: their output and enable cells have no effect (R473, R492). -/
def Ball.inputOnly : Ball → Bool
  | .trip _ | .sencSl _ | .girthRx _ | .nreset | .boot _ | .nwake => true
  | _ => false

/-! ### What the device drives (R492, R493, R495) -/

/-- The bit of a Girth frame that is on the line now (R306), while the port sends. -/
def girthBit (s : State) (g : Nat) : Option Bool :=
  let x := s.girth g
  let start := x.sent - w64 (10 * x.line.length * girthTb s g)
  if x.line.isEmpty || !past s start || past s x.sent then none
  else
    let k := (s.time.selvedge - start).toNat / girthTb s g
    some (match k % 10 with
      | 0 => false
      | 9 => true
      | j => (x.line.getD (k / 10) 0).getLsbD (j - 1))

/-- What the device's own logic drives onto a ball; none where it leaves it high impedance.  Outside the `VDD_AON` group
nothing is driven in OFF and HIBERNATE; `nRESET_OUT` is open-drain.  The Clause 22 waveforms of a management access are
opaque. -/
def ballOwn (s : State) (b : Ball) : Option Bool :=
  match b with
  | .nresetOut => if nresetOut s then none else some false
  | _ =>
    if opMode s < 2 then none
    else match b with
      | .pwm b o => if (s.br b).driven then some (outLevel s b o) else none
      | .feedback f j =>
        let w := s.rg (fr f Fb.GPIO)
        if fbMode s f = 3 && tb w j then some (tb w (8 + j)) else none
      | .sencMa p => some (sencMa s p)
      | .sencDir p => some (sencDir s p)
      | .girthTx g => some ((girthBit s g).getD true)
      | .girthDe g => some (girthBit s g).isSome
      | .mark m => some (markLevel s m)
      | .mdc => some (tb (s.rg (er 0 Eth.MDIOSTAT)) 31 && Config.mdcLevel (s.eth 0).mdio s.time.selvedge.toNat)
      | .mdio => if tb (s.rg (er 0 Eth.MDIOSTAT)) 31 then Config.mdioLevel (s.eth 0).mdio s.time.selvedge.toNat else none
      | _ => none

/-- Boundary scan holds the balls: `EXTEST`, `CLAMP` or `HIGHZ` acts (R472, R473). -/
def scanHolds (s : State) : Bool := s.dbg.ir = 0 || s.dbg.ir = 3 || s.dbg.ir = 4

/-- Cell `c` (input 0, output 1, enable 2) of the ball at a place. -/
def scanCell (s : State) (k c : Nat) : Bool := Tbl.get (fun _ => false) s.dbg.cells (3 * k + c)

/-- What is driven onto the ball at a place: by the boundary cells while they hold the balls, otherwise by the device. -/
def ballDrive (s : State) (k : Nat) : Option Bool :=
  let b := ballList.getD k .mdio
  if b.inputOnly then none
  else if scanHolds s then if s.dbg.ir ≠ 4 && scanCell s k 2 then some (scanCell s k 1) else none
  else ballOwn s b

/-- The level at the ball at a place, where `ext` has what others drive onto balls whose level the model does not hold; an
undriven PWM ball is pulled down. -/
def ballPin (s : State) (ext k : Nat) : Bool :=
  match ballDrive s k with
  | some v => v
  | none =>
    match ballList.getD k .mdio with
    | .pwm _ _ => false
    | .feedback f j => (s.fb f).pins.getLsbD j
    | .trip t => Tbl.get (fun _ => false) s.conv.tripIn t
    | .nreset => true
    | _ => ext.testBit k

/-- What the boundary register captures: of each ball its level, what its output would drive and whether it drives
(R473; log entry 73). -/
def captureBit (s : State) (ext n : Nat) : Bool :=
  let own := ballOwn s (ballList.getD (n / 3) .mdio)
  match n % 3 with
  | 0 => ballPin s ext (n / 3)
  | 1 => own.getD false
  | _ => own.isSome

/-- The number whose bit `n` is `f n`. -/
def packBits (len : Nat) (f : Nat → Bool) : Nat := (List.range len).foldl (fun t n => t + b2n (f n) * 2 ^ n) 0

/-! ### Balls without cells (R492) -/

/-- `TDO` outside Shift-DR and Shift-IR, which a command begins and ends: high impedance (R471, R492). -/
def tdoIdle : Option Bool := none

/-- An Ethernet pair is in electrical idle: the port is disabled or has no power. -/
def ethIdle (s : State) (p : Nat) : Bool := opMode s < 2 || !tb (s.rg (er p Eth.CFG)) 31

/-- A Tether pair is in electrical idle (R270). -/
def tethIdle (s : State) (l : Nat) : Bool := opMode s < 2 || (s.link l).code.isNone

/-- The memory interface is as reset leaves it: `DDR_RESET_N`, `DDR_CKE` and the other outputs low, the data balls high
impedance; in OFF and HIBERNATE, and until `MEMC.CTRL.INIT` starts training (R355). -/
def ddrAtReset (s : State) : Bool :=
  let st := s.rg (ra .memc Memc.STAT)
  opMode s < 2 || (!s.dma.training && !tb st 31 && !tb st 30)

end Sys2Proof.Machine
end

