-- ==== Sys2Proof/Machine/Tap.lean ====
section
/-! DEFINITION. The test access port (R471–R475): its instructions, the boundary register over the balls of R491,
the `ACC` register, and bus access through `DBG.BADDR`, `BCTL` and `BDATA`. -/

namespace Sys2Proof.Machine

/-- The TAP is powered: not in OFF and not in HIBERNATE (R471). -/
def tapPowered (s : State) : Bool := 2 ≤ opMode s

/-- The place of a PWM ball among the 163 balls of the boundary register (R473, R491): bridges 0–8 in rows E to
G, each row of 18 with two `TRIP` balls after it in rows E and F, and bridges 9–11 in row U. -/
def pwmBall (b o : Nat) : Nat := (match b / 3 with | 0 => 0 | 1 => 20 | 2 => 40 | _ => 107) + b % 3 * 6 + o

/-- What the boundary cells drive onto a PWM ball: its output cell when its enable cell is 1; an undriven ball is
pulled down (R473, R492). -/
def cellDrive (s : State) (b o : Nat) : Bool := scanCell s (pwmBall b o) 2 && scanCell s (pwmBall b o) 1

/-- The PWM balls follow `f`. -/
def scanBalls (f : Nat → Nat → Bool) (s : State) : State :=
  { s with ballScan := (List.range 72).foldl (fun t k => Tbl.set (fun _ => none) t k (some (f (k / 6) (k % 6)))) [] }

/-- An instruction of the TAP acts (R472, R473): `EXTEST` and `CLAMP` drive the boundary cells, `HIGHZ` nothing,
and every other instruction leaves the balls to the device (`ballDrive`; the PWM balls' read-back sees `ballScan`). -/
def tapActs (ir : Nat) (s : State) : State :=
  let s1 := { s with dbg.ir := ir }
  match ir with
  | 0 | 3 => scanBalls (cellDrive s1) s1
  | 4 => scanBalls (fun _ _ => false) s1
  | _ => { s1 with ballScan := [] }

/-- The instructions that have a code of their own; any other code acts as `BYPASS` (R472). -/
def tapCode (ir : Nat) : Nat := if ir < 5 || ir = 8 then ir else 0x1F

/-- An instruction is loaded; one that lacks the secure grant it needs acts as `BYPASS` (R472). -/
def tapLoad (code : Nat) (s : State) : State :=
  let ir := tapCode code
  if !tapPowered s then s
  else if (ir = 0 || ir = 3 || ir = 4) && !grantSec s then tapActs 0x1F s
  else tapActs ir s

/-- Test-Logic-Reset (R471–R473): `IDCODE` is selected and every enable cell is 0. -/
def tapReset (s : State) : State :=
  if !tapPowered s then s
  else tapActs 2 { s with dbg.cells := s.dbg.cells.filter (fun c => c.1 % 3 ≠ 2) }

/-- The 1-bit bypass register is scanned: it captures 0, and each bit leaves one shift later (R472, log entry 73). -/
def bypassScan (bits : List Bool) (s : State) : State :=
  { s with dbg.bypass := bits.getLastD false,
           dbg.shifted := packBits bits.length (fun n => (false :: bits).getD n false) }

/-- The boundary register captures the balls; the levels that only others drive are free (R473, log entry 73). -/
def boundaryCapture (s : State) : State :=
  let (ext, s1) := s.draw
  { s1 with dbg.shifted := packBits 489 (captureBit s ext) }

/-- The boundary register is updated with what was shifted in. -/
def preload (v : BitVec 489) (s : State) : State :=
  let s1 := { s with dbg.cells := (List.range 489).foldl (fun t k => Tbl.set (fun _ => false) t k (v.getLsbD k)) [] }
  tapActs s1.dbg.ir s1

/-! ### Bus access (R475) -/

/-- Bytes of an access: `BCTL.SIZE`, of which 11 acts as 10. -/
def busSize (s : State) : Nat := 2 ^ min 2 (fld (s.rg (ra .dbg Dbg.BCTL)) 1 0)
/-- `BADDR`. -/
def busAddr (s : State) : Nat :=
  (s.rg (ra .dbg Dbg.BADDR_LO)).toNat + fld (s.rg (ra .dbg Dbg.BADDR_HI)) 7 0 * 2 ^ 32

/-- With no grant a debugger reaches the `DBG` block, the registers for its first grant (R475), and what must stay reachable
without one: `DEVID`, `UID`, `LC`, the counters and the measurement registers (R393, log entry 67). -/
def openAddr (pa : Nat) : Bool :=
  match blockAt pa with
  | some (.dbg, _, _) => true
  | some (.sec, _, o) => o < 0x24 || (0x30 ≤ o && o < 0x40) || (0x100 ≤ o && o < 0x300) || (0x400 ≤ o && o < 0x428) || (0x2000 ≤ o && o < 0x4000)
  | _ => false

/-- The grants allow the access that `BCTL` and `BADDR` name. -/
def busAllowed (s : State) : Bool :=
  let secure := tb (s.rg (ra .dbg Dbg.BCTL)) 30
  if secure then grantSec s else grantNs s || grantSec s || openAddr (busAddr s)

/-- The debug port as a master. -/
def busMaster (s : State) : Master := { mid := 24, sec := tb (s.rg (ra .dbg Dbg.BCTL)) 30 }

/-- The end of an access: its result, and the advance of `BADDR` with `AUTOINC` = 1. -/
def busDone (result : Nat) (s : State) : State :=
  let s1 := s.setRg (ra .dbg Dbg.BSTAT) (w32 result)
  if tb (s1.rg (ra .dbg Dbg.BCTL)) 31 then
    let a := busAddr s1 + busSize s1
    (s1.setRg (ra .dbg Dbg.BADDR_LO) (w32 a)).setRg (ra .dbg Dbg.BADDR_HI) (w32 (a / 2 ^ 32 % 256))
  else s1

/-- The result code of an answer (R475). -/
def respCode : Resp → Nat
  | .ecc => 2
  | .world => 3
  | .err => 1
  | _ => 0

/-- A read of `n` bytes at a physical address by any master: a register or memory. -/
def anyRead (m : Master) (ecc : Ecc) (pa n : Nat) (s : State) : Resp × State :=
  if isDevice s pa then mmioRead m pa n s
  else
    let (r, s1) := memRead m false ecc pa n s
    (match r with | .ok bs => .ok (w32 (ofBytes bs)) | .error e => errResp e, s1)

/-- A write of `n` bytes. -/
def anyWrite (m : Master) (ecc : Ecc) (pa n : Nat) (v : Word) (s : State) : Resp × State :=
  if isDevice s pa then mmioWrite m pa n v s
  else
    let (r, s1) := memWrite m ecc pa (toBytes n v.toNat) s
    (match r with | none => .ok 0 | some e => errResp e, s1)

/-- The fabric answers no access of the port: it sleeps (R471), or a reset is held. -/
def busDead (s : State) : Bool := opMode s ≤ 2 || inReset s

/-- A Twill read by the debug port: it has the debug attribute and leaves every register but `BUSYRD` (R9, R373). -/
def bdataRead (ecc : Ecc) (s : State) : State :=
  if busDead s then busDone 1 s
  else if !busAllowed s then s.setRg (ra .dbg Dbg.BSTAT) 4
  else
    let (r, s1) : Resp × State :=
      if busAddr s % busSize s ≠ 0 then (.err, s)
      else anyRead (busMaster s) ecc (busAddr s) (busSize s) s
    let s2 := debugLeaves s s1
    match r with
    | .ok v => busDone 0 { s2.setRg (ra .dbg Dbg.BDATA) v with dbg.accData := v }
    | e => busDone (respCode e) s2

/-- A Twill write by the debug port. -/
def bdataWrite (v : Word) (ecc : Ecc) (s0 : State) : State :=
  let s := s0.setRg (ra .dbg Dbg.BDATA) v
  if busDead s then busDone 1 s
  else if !busAllowed s then s.setRg (ra .dbg Dbg.BSTAT) 4
  else
    let (r, s1) : Resp × State :=
      if busAddr s % busSize s ≠ 0 then (.err, s)
      else anyWrite (busMaster s) ecc (busAddr s) (busSize s) v s
    busDone (respCode r) s1

/-! ### The `ACC` register (R474) -/

/-- The debug port's writes of `DBG` registers have the secure world of its grant. -/
def accMaster (s : State) : Master := { mid := 24, sec := grantSec s }

/-- The `ACC` register is scanned: it captures the status of the last operation and the data of the last completed read;
its operations complete within the scan that starts them, so that no capture shows "wait" (R474, log entry 73). -/
def accCapture (s : State) : State :=
  { tapActs 8 s with dbg.shifted := s.dbg.accStat * 2 ^ 46 + s.dbg.accData.toNat }

/-- The debugger's grants open a `DBG` register: `VT_0`, of the secure world, needs the secure grant and `RST` either
(R474, R482, R487); the elements' registers judge the grant themselves (R476). -/
def accOpens (s : State) (o : Nat) : Bool :=
  if o = 0x300 ∨ o = 0x304 then grantSec s else if o = Dbg.RST then grantNs s || grantSec s else true

/-- The status that an operation on a register gives: done, or "error" for one that the grants do not open. -/
def accStatus (s : State) (o : Nat) : State := { s with dbg.accStat := if accOpens s o then 0 else 2 }

/-- An `ACC` scan with `OP` 01.  Its own read of a `DBG` register carries no debug attribute, which R475 gives to the bus
accesses through `BDATA`: a read of `REGDATA` sets `RESULT`, `REGDATA` and `NOAUTH` as R482 says (DESIGN CHOICE,
log entry 67). -/
def accScanRead (w : BitVec 14) (s0 : State) : State :=
  if !tapPowered s0 then s0
  else
    let o := 4 * w.toNat
    let s := accStatus (accCapture s0) o
    if !accOpens s o then s
    else if o = Dbg.BDATA then bdataRead .clean s
    else
      let (v, s1) := dbgRead o s
      { s1 with dbg.accData := v }

/-- An `ACC` scan with `OP` 10. -/
def accScanWrite (w : BitVec 14) (v : Word) (s0 : State) : State :=
  if !tapPowered s0 then s0
  else
    let o := 4 * w.toNat
    let s := accStatus (accCapture s0) o
    if !accOpens s o then s
    else if o = Dbg.BDATA then bdataWrite v .clean s
    else (dbgWrite (accMaster s) o v (grantSec s) s).2

/-! ### Commands -/

def execTapReset (s : State) : Host.Outcome State Fault Refusal := .next (tapReset s)
/-- An instruction is scanned in; what the scan shifts out, the instruction register's captured 0b00001, is the answer
(R472). -/
def irScan (ir : Nat) (s : State) : State := if tapPowered s then { tapLoad ir s with resp := .ok 1 } else s
/-- The selected boundary register is scanned: it captures, shifts `v` in and is updated (R473). -/
def boundaryScan (v : BitVec 489) (s : State) : State := preload v (boundaryCapture s)
/-- A scan of `bits` through the bypass register, if it is selected: by `BYPASS`, `CLAMP` and `HIGHZ`. -/
def bypassPath (bits : List Bool) (s : State) : State :=
  if tapPowered s && (s.dbg.ir = 0x1F || s.dbg.ir = 3 || s.dbg.ir = 4) then bypassScan bits s else s
/-- `EXTEST`, and a scan of the data register that it selects: the boundary register, or without the grant the bypass
register. -/
def extest (scan : Option (BitVec 489)) (s : State) : State :=
  let s1 := irScan 0 s
  match scan with
  | none => s1
  | some v =>
    if !tapPowered s then s
    else if s1.dbg.ir = 0 then boundaryScan v s1
    else bypassScan ((List.range 489).map v.getLsbD) s1
def execExtest (s : State) (scan : Option (BitVec 489) := none) : Host.Outcome State Fault Refusal := .next (extest scan s)
/-- `SAMPLE_PRELOAD`: the instruction is loaded, the balls are captured, and the boundary register is updated. -/
def execSamplePreload (v : BitVec 489) (s : State) : Host.Outcome State Fault Refusal :=
  .next (if tapPowered s then boundaryScan v (tapLoad 1 s) else s)
/-- `IDCODE`: the identification register is read. -/
def execIdcode (s : State) : Host.Outcome State Fault Refusal :=
  .next (if tapPowered s then { tapLoad 2 s with resp := .ok 0x1712889D, dbg.shifted := 0x1712889D } else s)
def execClamp (s : State) (bits : List Bool := []) : Host.Outcome State Fault Refusal := .next (bypassPath bits (irScan 3 s))
def execHighz (s : State) (bits : List Bool := []) : Host.Outcome State Fault Refusal := .next (bypassPath bits (irScan 4 s))
/-- `BYPASS`, by its own code or by one that R472 does not assign, with `bits` scanned through its register. -/
def execBypass (s : State) (code : BitVec 5 := 0x1F) (bits : List Bool := []) : Host.Outcome State Fault Refusal :=
  .next (bypassPath bits (irScan code.toNat s))
/-- `ACC_READ`; without `go` the scan has `OP` 00 or 11 and starts nothing. -/
def execAccRead (w : BitVec 14) (s : State) (go : Bool := true) : Host.Outcome State Fault Refusal :=
  .next (if go then accScanRead w s else if tapPowered s then accCapture s else s)
def execAccWrite (w : BitVec 14) (v : Word) (s : State) : Host.Outcome State Fault Refusal := .next (accScanWrite w v s)
def execBdataWrite (v : Word) (ecc : Ecc) (s : State) : Host.Outcome State Fault Refusal :=
  .next (if tapPowered s then bdataWrite v ecc { accCapture s with dbg.accStat := 0 } else s)
def execBdataRead (ecc : Ecc) (s : State) : Host.Outcome State Fault Refusal :=
  .next (if tapPowered s then bdataRead ecc { accCapture s with dbg.accStat := 0 } else s)

end Sys2Proof.Machine
end

