-- ==== Sys2Proof/Machine/DmaRun.lean ====
section
/-! DEFINITION. The DMA engine at work (R356–R362): the fetch and check of a descriptor, its bursts, and its
write-back. -/

namespace Sys2Proof.Machine

/-- The channel as a master: MID 16 with the world of `CFG.WORLD` (R361). -/
def dmaMaster (s : State) (c : Nat) : Master := { mid := 16, sec := tb (dmaCfg s c) 30 }
/-- The address of the head descriptor. -/
def headAddr (s : State) (c : Nat) : Nat :=
  ringBase s c + 32 * ((s.rg (ra .dma (Dma.CH_HEAD c))).toNat % ringSlots s c)

/-- Word `k` of a descriptor. -/
def DmaRun.w (r : DmaRun) (k : Nat) : Word := r.desc.getD k 0
def DmaRun.len (r : DmaRun) : Nat := fld (r.w 1) 23 0
def DmaRun.srcAddr (r : DmaRun) : Nat := (r.w 2).toNat + fld (r.w 4) 7 0 * 2 ^ 32
def DmaRun.dstAddr (r : DmaRun) : Nat := (r.w 3).toNat + fld (r.w 4) 15 8 * 2 ^ 32
/-- The descriptor is a fill. -/
def DmaRun.fill (r : DmaRun) : Bool := fld (r.w 0) 29 28 = 1

/-- The check of a descriptor (R359): it is invalid. -/
def descInvalid (r : DmaRun) (gel : Bool) : Bool :=
  let w0 := r.w 0
  r.len = 0 || 2 ≤ fld w0 29 28
    || fld w0 22 16 ≠ 0 || fld w0 7 0 ≠ 0 || fld (r.w 1) 31 24 ≠ 0 || fld (r.w 4) 31 16 ≠ 0 || fld (r.w 7) 31 24 ≠ 0
    || (!r.fill && !tb w0 27 && !tb w0 26 && r.srcAddr < r.dstAddr && r.dstAddr < r.srcAddr + r.len)
    || (gel && (tb w0 27 || tb w0 26))

/-- A failed fetch or write-back of a descriptor stops the channel (R358). -/
def ringError (c : Nat) (s : State) : State := dmaFlag c 3 true (dmaStop c s)

/-- A descriptor of the engine's waits for its request, or is checked and begun (R358, R359). -/
def dmaBegin (c : Nat) (r : DmaRun) (s1 : State) : State :=
  let w0 := r.w 0
  if tb w0 25 && !Tbl.get (fun _ => false) s1.time.dmaReq c then
    dmaFlag c 30 true (s1.setChan c { s1.chan c with held := some r })
  else
    let s2 := if tb w0 25 then { s1 with time.dmaReq := Tbl.set (fun _ => false) s1.time.dmaReq c false } else s1
    let s3 := dmaFlag c 30 false s2
    let list (on : Bool) (a : Nat) : Option SgPos := if on then some { next := a, addr := 0, left := 0 } else none
    if descInvalid r (tb (dmaCfg s1 c) 29) then
      s3.setChan c { s3.chan c with held := none, run := some { r with ends := some 4 } }
    else
      (s3.setChan c { s3.chan c with
        held := none, run := some { r with src := list (tb w0 27 && !r.fill) r.srcAddr, dst := list (tb w0 26) r.dstAddr } }).setRg
        (ra .dma (Dma.CH_CUR c)) (w32 r.len)

/-- The descriptor at the head is read, and begun if it is the engine's (R358). -/
def dmaFetch (c : Nat) (ecc : Ecc) (s : State) : State :=
  match memRead (dmaMaster s c) false ecc (headAddr s c) 32 s with
  | (.error _, s1) => ringError c s1
  | (.ok bs, s1) =>
    let words := (List.range 8).map (fun k => w32 (ofBytes ((bs.drop (4 * k)).take 4)))
    let r : DmaRun := { entry := headAddr s c, desc := words }
    if !tb (r.w 0) 31 then s1.setChan c { s1.chan c with idle := true } else dmaBegin c r s1

/-- The channels that wait for a burst. -/
def wantsBurst (s : State) (c : Nat) : Bool :=
  match (s.chan c).run with | some r => r.ends.isNone | none => false
/-- The channel that the next burst belongs to (R361). -/
def burstOwner (s : State) : Option Nat :=
  let cs := ((List.range 32).map (fun k => (s.dma.last + 1 + k) % 32)).filter (wantsBurst s)
  let top := (cs.map (fun c => fld (dmaCfg s c) 25 24)).foldl max 0
  cs.find? (fun c => fld (dmaCfg s c) 25 24 = top)

/-- The next entry of a list when the present one is used up (R357): none when the list ends or cannot be read. -/
def sgNext (m : Master) (ecc : Ecc) (p : SgPos) (s : State) : Option SgPos × State :=
  if p.left ≠ 0 then (some p, s)
  else match memRead m false ecc p.next 8 s with
    | (.error _, s1) => (none, s1)
    | (.ok bs, s1) =>
      let v := ofBytes bs
      let n := v / 2 ^ 40
      (if n = 0 then none else some { next := p.next + 8, addr := v % 2 ^ 40, left := n }, s1)

/-- The error code of a failed access (R360). -/
def dmaCode (write : Bool) : BusErr → Nat
  | .ecc => 3
  | .world => 7
  | .bus => if write then 2 else 1
/-- The error code of a register access. -/
def dmaRespCode (write : Bool) : Resp → Option Nat
  | .ok _ => none
  | .ecc => some 3
  | .world => some 7
  | _ => some (if write then 2 else 1)

/-- Reads `n` words of registers. -/
def devWords (m : Master) : Nat → Nat → State → Except Nat (List Byte) × State
  | 0, _, s => (.ok [], s)
  | n + 1, pa, s =>
    let (r, s1) := mmioRead m pa 4 s
    match dmaRespCode false r, r with
    | some c, _ => (.error c, s1)
    | none, .ok v =>
      let (t, s2) := devWords m n (pa + 4) s1
      (t.map (fun bs => toBytes 4 v.toNat ++ bs), s2)
    | none, _ => (.error 1, s1)

/-- Writes words to registers: the bytes taken, and an error code. -/
def devStores (m : Master) : Nat → List Byte → State → Nat × Option Nat × State
  | _, [], s => (0, none, s)
  | pa, a :: b :: c :: d :: t, s =>
    let (r, s1) := mmioWrite m pa 4 (w32 (ofBytes [a, b, c, d])) s
    match dmaRespCode true r with
    | some e => (0, some e, s1)
    | none =>
      let (n, e, s2) := devStores m (pa + 4) t s1
      (n + 4, e, s2)
  | _, _ :: _, s => (0, some 2, s)

/-- The source bytes of a burst. -/
def burstRead (m : Master) (ecc : Ecc) (pa n : Nat) (s : State) : Except Nat (List Byte) × State :=
  if isDevice s pa then (if pa % 4 = 0 ∧ n % 4 = 0 then devWords m (n / 4) pa s else (.error 1, s))
  else
    let (r, s1) := memRead m false ecc pa n s
    (match r with | .ok bs => .ok bs | .error e => .error (dmaCode false e), s1)

/-- Bytes of a burst written, and an error code; `wecc` is what the read inside a partial write finds (R337). -/
def burstWrite (m : Master) (werr : Bool) (wecc : Ecc) (pa : Nat) (bs : List Byte) (s : State) : Nat × Option Nat × State :=
  if werr then (0, some 2, s)
  else if isDevice s pa then (if pa % 4 = 0 then devStores m pa bs s else (0, some 2, s))
  else
    let (r, s1) := memWrite m wecc pa bs s
    match r with
    | none => (bs.length, none, s1)
    | some e => (0, some (dmaCode true e), s1)

/-- Bytes of a fill from place `k` of the transfer (R356). -/
def fillBytes (pat : Word) (k n : Nat) : List Byte :=
  (List.range n).map (fun i => (toBytes 4 pat.toNat).getD ((k + i) % 4) 0)

/-- The descriptor in progress after a burst, and `CH_CUR`. -/
def dmaPut (c : Nat) (q : DmaRun) (s : State) : State :=
  (s.setChan c { s.chan c with run := some q }).setRg (ra .dma (Dma.CH_CUR c)) (w32 (q.len - q.moved))

/-- The place in a list, where the side has one, is made ready: none when its list has ended (R357). -/
def sgTake (m : Master) (ecc : Ecc) (p : Option SgPos) (s : State) : Option (Option SgPos) × State :=
  match p with
  | none => (some none, s)
  | some p => let (q, t) := sgNext m ecc p s; (q.map some, t)

/-- The bytes of a burst: the fill pattern or the source's. -/
def dmaData (m : Master) (ecc : Ecc) (r : DmaRun) (sa n : Nat) (s : State) : Except Nat (List Byte) × State :=
  if r.fill then (.ok (fillBytes (r.w 5) r.moved n), s) else burstRead m ecc sa n s

/-- What a burst of `k` bytes, ended by an error or not, leaves of the descriptor. -/
def DmaRun.after (r : DmaRun) (src dst : Option SgPos) (k : Nat) (e : Option Nat) : DmaRun :=
  let go (p : Option SgPos) : Option SgPos := p.map (fun q => { q with addr := q.addr + k, left := q.left - k })
  { r with src := go src, dst := go dst, moved := r.moved + k,
           ends := match e with
             | some x => some x
             | none => if r.moved + k = r.len then some 0 else none }

/-- A burst between two places (R358). -/
def dmaMove (c : Nat) (ecc : Ecc) (werr : Bool) (wecc : Ecc) (r : DmaRun) (src dst : Option SgPos) (s : State) : State :=
  let m := dmaMaster s c
  let lim (p : Option SgPos) : Nat := match p with | some q => q.left | none => 256
  let n := min (min 256 (r.len - r.moved)) (min (lim src) (lim dst))
  let sa := match src with | some q => q.addr | none => r.srcAddr + r.moved
  let da := match dst with | some q => q.addr | none => r.dstAddr + r.moved
  let (data, s1) := dmaData m ecc r sa n s
  match data with
  | .error e => dmaPut c { r with src := src, dst := dst, ends := some e } s1
  | .ok bs =>
    let (k, e, s2) := burstWrite m werr wecc da bs s1
    dmaPut c (r.after src dst k e) s2

/-- A burst of up to 256 bytes (R358). -/
def dmaBurst (c : Nat) (ecc : Ecc) (werr : Bool) (wecc : Ecc) (r : DmaRun) (s0 : State) : State :=
  let s := { s0 with dma.last := c }
  let m := dmaMaster s c
  match sgTake m ecc r.src s with
  | (none, s1) => dmaPut c { r with ends := some 5 } s1
  | (some src, s1) =>
    match sgTake m ecc r.dst s1 with
    | (none, s2) => dmaPut c { r with ends := some 5 } s2
    | (some dst, s2) => dmaMove c ecc werr wecc r src dst s2

/-- A Gelmond channel whose `EN` was cleared stops at a burst boundary, with words 1–4 written back advanced
(R362). -/
def gelmondStop (c : Nat) (werr : Bool) (wecc : Ecc) (r : DmaRun) (s : State) : State :=
  let (sa, da) := (r.srcAddr + r.moved, r.dstAddr + r.moved)
  let ws := [w32 (r.len - r.moved), w32 sa, w32 da, w32 (sa / 2 ^ 32 % 256 + da / 2 ^ 32 % 256 * 256)]
  if werr then ringError c s
  else match memWrite (dmaMaster s c) wecc (r.entry + 4) (ws.flatMap (fun w => toBytes 4 w.toNat)) s with
    | (none, s1) => dmaStop c s1
    | (some _, s1) => ringError c s1

/-- The channel takes its next action short of a write-back. -/
def dmaDescriptor (c : Nat) (ecc : Ecc) (werr : Bool) (wecc : Ecc) (s : State) : State :=
  let on := tb (dmaCfg s c) 31
  if !powered s || !tb (dmaStat s c) 29 then s
  else match (s.chan c).run with
    | none =>
      if !on then s
      else match (s.chan c).held with
        | some r => dmaBegin c r s
        | none => if (s.chan c).idle then s else dmaFetch c ecc s
    | some r =>
      if r.ends.isSome then s
      else if !on && tb (dmaCfg s c) 29 then gelmondStop c werr wecc r s
      else if burstOwner s = some c then dmaBurst c ecc werr wecc r s
      else s

/-- The write-back of a descriptor (R358): word 7, then word 0. -/
def dmaWriteback (c : Nat) (werr : Bool) (wecc : Ecc) (s : State) : State :=
  match (s.chan c).run with
  | none => s
  | some r =>
    match r.ends with
    | none => s
    | some code =>
      let bad := code ≠ 0
      let w0 := setFld (setBit (setBit (r.w 0) 31 false) 30 bad) 15 8 code
      let m := dmaMaster s c
      if werr then ringError c s
      else
        match memWrite m wecc (r.entry + 28) (toBytes 4 r.moved) s with
        | (some _, s1) => ringError c s1
        | (none, s1) =>
          match memWrite m wecc r.entry (toBytes 4 w0.toNat) s1 with
          | (some _, s2) => ringError c s2
          | (none, s2) =>
            let head := ra .dma (Dma.CH_HEAD c)
            let s3 := (s2.setRg head (w32 (((s2.rg head).toNat + 1) % ringSlots s2 c))).setRg (ra .dma (Dma.CH_CUR c)) 0
            let s4 := s3.setChan c { s3.chan c with run := none }
            let s5 := if tb (r.w 0) 24 then dmaFlag c 1 true s4 else s4
            let s6 := if tb (r.w 0) 23 then raiseEvent (0x440 + c) s5 else s5
            let s7 := bump .dma 0 (Dma.CH_DONE_CNT c) s6
            let s8 := if bad then dmaFlag c 2 true (bump .dma 0 (Dma.CH_BAD_CNT c) s7) else s7
            if tb (dmaCfg s8 c) 31 then s8 else dmaStop c s8

def execDmaDescriptor (c : Fin 32) (ecc : Ecc) (werr : Bool) (s : State) (wecc : Ecc := .clean) : Host.Outcome State Fault Refusal :=
  .next (dmaDescriptor c ecc werr wecc s)
def execDmaWriteback (c : Fin 32) (werr : Bool) (s : State) (wecc : Ecc := .clean) : Host.Outcome State Fault Refusal :=
  .next (dmaWriteback c werr wecc s)

end Sys2Proof.Machine
end

