-- ==== Sys2Proof/Machine/Ops.lean ====
section
/-! DEFINITION. The frame of every instruction: when an element executes, what an instruction may end in, taking
an exception (R91, R92) and returning from one (R96), repeats (R64–R67), the end of a run (R82, R87), and
what happens at the boundary after an instruction (R94, R100, R477, R479). -/

namespace Sys2Proof.Machine

/-- An exception that an instruction raises (R93): its code and sub-code, the faulting address, whether `EPC` is
the next instruction, and whether it is imprecise. -/
structure Trap where
  code : Nat
  sub : Nat := 0
  eva : Word := 0
  next : Bool := false
  imp : Bool := false
  deriving DecidableEq, Repr

/-- How an instruction ends: it completes, it completes with a jump, it ends its run, it raises an exception, or
it does not complete and its `pc` stays. -/
inductive Out where
  | done (s : State)
  | ended (s : State)
  | jump (to_ : Word) (s : State)
  | trap (t : Trap) (s : State)
  | hold (s : State)
  deriving DecidableEq, Repr

abbrev Trap.illegal : Trap := { code := 1 }
abbrev Trap.priv : Trap := { code := 2 }
abbrev Trap.align (va : Word) : Trap := { code := 3, eva := va }
/-- `ACCESS` with the sub-code of R348. -/
def Trap.access (write : Bool) (level kind : Nat) (va : Word) : Trap :=
  { code := 4, sub := b2n write * 128 + level * 16 + kind, eva := va }
/-- What a failed access raises (R93, R390). -/
def Trap.ofBus (e : BusErr) (write imp : Bool) (va : Word) : Trap :=
  match e with
  | .bus => { code := 5, sub := b2n imp, eva := va, imp := imp }
  | .ecc => { code := 6, sub := b2n imp, eva := va, imp := imp }
  | .world => { Trap.access write 7 6 va with imp := imp }

/-! ### When an element executes -/

/-- The element takes part in execution at all: released, powered, not halted, not in BIST; an engine with a run of
its set in progress on an island that runs. -/
def awake (s : State) (i : Nat) : Bool :=
  let e := s.el i
  e.released && !e.down && !e.halted && powered s && s.time.run
    && !(isAc i && s.test.bist.contains (i - 32))
    && (!isEngine i || ((e.run e.cur).isSome && islState s (islandOf i) ≤ 2))

/-- The run is in `WAITS` (R82). -/
def inWaits (s : State) (i : Nat) : Bool :=
  isEngine i && match (s.el i).run (s.el i).cur with | some r => r.waiting.isSome | none => false

/-- `WFI` ends as soon as an interrupt is pending (R96). -/
def wfiWake (i : Nat) (s : State) : State :=
  let e := s.el i
  if e.wfi && !isEngine i && intcPresents s (if i = 36 then 0 else i - 31) then s.setEl i { e with wfi := false } else s

/-- The bank of an engine's run, as engine × 16 + bank. -/
def runKey (s : State) (i : Nat) : Nat :=
  match (s.el i).run (s.el i).cur with | some r => i * 16 + r.bank | none => i * 16

/-! ### The end of a run (R82, R87, R92, R238) -/

/-- The run is traced when it starts or ends (R485). -/
def traceRun (kind i bank : Nat) (w2 w3 : Word) (s : State) : State :=
  if tb (s.rg (ra .dbg Dbg.TRCFG)) 29 then traceElem kind i bank w2 w3 s else s

/-- The first copy's record of `SETPT` answers is closed (R249). -/
def closeSpan (key : Nat) (stamp : Word) (s : State) : State :=
  match (s.bank key).ctx with
  | some n =>
    let x := s.ctx n
    if x.first = key then
      s.setCtx n { x with spans := x.spans.map (fun p => if p.stamp = stamp then { p with ended := true } else p) }
    else s
  | none => s

/-- The highest class with a run, if any. -/
def topRun (e : ElemState) : Option Nat := [0, 1, 2].find? (fun k => (e.run k).isSome)

/-- The preempted run of the highest class goes on with its own registers, `BANK` and `WORLD` (R87). -/
def resumeRun (i : Nat) (s : State) : State :=
  let e := s.el i
  match topRun e with
  | none => s
  | some k =>
    match e.run k with
    | none => s
    | some r =>
      let e1 := { e with cur := k, bank := r.savedBank, world := r.savedWorld, view := [] }
      let q := e1.set k
      s.setEl i (e1.putSet k { q with progArm := q.progArm || tb q.progress 31 })

/-- The run of the engine's present set ends; `pc` is shown in the trace. -/
def endRun (i : Nat) (pc : Word) (s : State) : State :=
  let e := s.el i
  match e.run e.cur with
  | none => s
  | some r =>
    let key := i * 16 + r.bank
    let s1 := traceRun 3 i r.bank pc (w32 (r.acc / 800)) s
    let e1 := s1.el i
    let k := e1.cur
    let q := e1.set k
    let e2 := (e1.putRun k none).putSet k { q with pendSt := [], pendWorld := [], progArm := false, repSaved := none }
    let e3 := { e2 with resv := none, view := [], imp := e2.imp.filter (fun x => x.set ≠ k),
                        wq := e2.wq.map (fun p => if p.set = k then { p with set := 3 } else p) }
    let s2 := closeSpan key r.stamp (s1.setEl i e3)
    let s3 := match (s2.bank key).ctx with
      | some n => releaseCheck n (runEnded n key s2)
      | none => s2
    resumeRun i s3

/-! ### Taking an exception (R91, R92) and returning from one (R96) -/

/-- The `STATUS` of a handler: `HND` = 1, `PRIV` = 1, `IE` = 0, and no repeat. -/
def handlerStatus (w : Word) : Word := setBit (setBit (setBit (w &&& 0x00009FFF) 11 true) 8 true) 10 false

/-- The `CAUSE` word of an exception. -/
def causeWord (t : Trap) (int dbl : Bool) : Word :=
  w32 (b2n int * 2 ^ 31 + b2n dbl * 2 ^ 30 + b2n t.imp * 2 ^ 29 + t.sub % 256 * 65536 + t.code)

/-- `EVA` is the faulting address for the codes 0x03 to 0x06, else 0. -/
def trapEva (t : Trap) : Word := if 3 ≤ t.code ∧ t.code ≤ 6 then t.eva else 0

/-- A synchronous exception while `HND` = 1 (R92): `SV` resets the device, an engine's run ends in the fault state
of its bank, a core enters its double-fault vector. -/
def doubleFault (i : Nat) (t : Trap) (epc : Word) (int : Bool) (s : State) : State :=
  let cause := causeWord t int true
  if i = 36 then resetBy [7] s
  else if isEngine i then
    let key := runKey s i
    endRun i epc (bankFault key 1 epc cause s)
  else
    let r := s.rset i
    s.setRset i { r with cause := cause, eva := trapEva t, status := handlerStatus r.status, progArm := false,
                         repSaved := none, pc := (s.el i).vector + 0x80 }

/-- Entry to the handler (R91): a synchronous or imprecise exception, or an interrupt. -/
def enterExc (i : Nat) (t : Trap) (epc : Word) (int : Bool) (s0 : State) : State :=
  let s := s0.setEl i { (s0.el i).sync i with resv := none }
  let r := s.rset i
  if stHnd r then doubleFault i t epc int s
  else
    let (now, s1) := timePort (elemPort i) s
    let e := s1.el i
    s1.setRset i { r with
      estatus := r.status, ebank := e.bank, epc := epc &&& 0xFFFFFFFE, cause := causeWord t int false,
      eva := trapEva t, etime := w32 now.toNat, status := handlerStatus r.status, progArm := false, repSaved := none,
      pc := e.vector + (if int then 0x40 else 0) }

/-- `RETH` (R96).  Its checks read the mode bits in effect, and a mode change still in its window takes effect before
`STATUS` is loaded, as by a `SYNC` (DEDUCED, log entry 53). -/
def returnExc (i : Nat) (s : State) : Out :=
  let r := s.rset i
  if !stHnd r then .trap Trap.illegal s
  else if !stPriv r then .trap Trap.priv s
  else
    let e := (s.el i).sync i
    let q := e.set e.cur
    let e1 := { e with bank := q.ebank &&& sregMask i 5, resv := none }
    .jump q.epc (s.setEl i (e1.putSet e1.cur { q with status := fixStatus i q.estatus, progArm := tb q.progress 31 }))

/-! ### Boundaries -/

/-- An imprecise error of the run that executes is taken at the boundary (R94). -/
def takeImprecise (i : Nat) (s : State) : State :=
  let e := s.el i
  if !awake s i || e.stalled then s
  else match e.imp.find? (fun x => x.set = e.cur) with
    | none => s
    | some x =>
      let rest := e.imp.erase x
      let e1 := { e with imp := rest, wfi := false }
      let e2 := e1.putRun e1.cur ((e1.run e1.cur).map (fun r => { r with waiting := none }))
      enterExc i (Trap.ofBus x.err true true x.va) (e2.set e2.cur).pc false (s.setEl i e2)

/-- A step ends after an instruction (R479): not after a prefix, nor inside a `REP.U` run. -/
def stepEnds (i : Nat) (s : State) : State :=
  if s.dbg.steps.contains i then haltElem i 2 s else s

/-- The choice made for the instruction that has ended is dropped. -/
def clearView (i : Nat) (s : State) : State :=
  if (s.el i).view.isEmpty then s else s.setEl i { s.el i with view := [] }

/-- The units that fired in the instruction have halted it. -/
def clearFired (s : State) : State := if s.dbg.fired then { s with dbg.fired := false } else s

/-- The boundary after an instruction: halts that wait, and the end of a step. -/
def boundary (i : Nat) (steps : Bool) (s : State) : State :=
  let s1 := takeHalts 38 (clearFired (clearView i s))
  let r := s1.rset i
  if steps && !(repAct r && repU r) then stepEnds i s1 else s1

/-! ### One instruction -/

/-- What the frame needs to know of an instruction: its bytes, whether it may follow a repeat prefix (R64, R72),
whether it is a prefix, and whether it is `VMAC`, which continues from `PROGRESS` (R88). -/
structure Shape where
  size : Nat := 4
  rep : Bool := false
  prefix_ : Bool := false
  vmac : Bool := false
  deriving DecidableEq, Repr

/-- The repeat fields of `STATUS` as they stood before the prefix (R64). -/
def undoPrefix (r : RegSet) : RegSet :=
  match r.repSaved with
  | some w => { r with status := (r.status &&& 0x00009FFF) ||| (w &&& 0xFFFF6000), repSaved := none }
  | none => r

/-- An instruction that is not a prefix has completed: the repeat counts down or ends, or `pc` moves on. -/
def advance (i size : Nat) (s : State) : State :=
  let r := s.rset i
  if repAct r then
    let left := repLeft r - 1
    if left = 0 then
      s.setRset i ({ r with status := setFld (setBit r.status 13 false) 31 16 0, repSaved := none,
                            pc := r.pc + 2 + w32 size }).tickModes
    else s.setRset i { r with status := setFld r.status 31 16 left, repSaved := none }
  else s.setRset i ({ r with pc := r.pc + w32 size }).tickModes

/-- A program that sets `REP_ACT` itself makes the next instruction the repeated one, with `pc` where its prefix
would stand. -/
def advanceSr (i size : Nat) (s : State) : State :=
  let was := repAct (s.rset i)
  let r := s.rset i
  if was then s.setRset i ({ r with pc := r.pc + w32 size - 2 }).tickModes else advance i size s

/-- How the frame carries out an instruction whose body is `body`; `sr` marks the one that writes `STATUS`. -/
def finish (i : Nat) (sh : Shape) (sr : Bool) (o : Out) : State :=
  match o with
  | .done s =>
    if sh.prefix_ then boundary i false s
    else boundary i true (if sr then advanceSr i sh.size s else advance i sh.size s)
  | .ended s => boundary i true s
  | .jump t s => boundary i true (s.setRset i ({ s.rset i with pc := t }).tickModes)
  | .trap t s =>
    let r := s.rset i
    boundary i true (enterExc i t (if t.next then r.pc + w32 sh.size else r.pc) false s)
  | .hold s => boundary i false s

/-- `PROGRESS` is consumed by the first instruction after a return or a resumption (R88); `VMAC` reads it. -/
def consume (i : Nat) (vmac : Bool) (s : State) : State :=
  let r := s.rset i
  if r.progArm && !vmac then s.setRset i { r with progArm := false, progress := 0 } else s

/-- The mark of a `SETPT` that waits is dropped; the `SETPT` sets it again while it waits on. -/
def clearStall (i : Nat) (s : State) : State :=
  let e := s.el i
  if e.stalled then s.setEl i (e.putRun e.cur ((e.run e.cur).map (fun r => { r with stall := false }))) else s

/-- Element `i` executes one instruction. -/
def runInstr (i : Nat) (sh : Shape) (sr : Bool) (body : State → Out) (s0 : State) : State :=
  let s1 := takeImprecise i (wfiWake i s0)
  if !awake s1 i || inWaits s1 i || (s1.el i).wfi then s1
  else
    let s2 := clearStall i (openView i s1)
    let r := s2.rset i
    if repAct r && !sh.rep then
      let s3 := s2.setRset i (undoPrefix r)
      finish i sh sr (.trap Trap.illegal s3)
    else if repAct r && repLeft r = 0 then
      boundary i true (s2.setRset i ({ r with status := setBit r.status 13 false, repSaved := none,
                                              pc := r.pc + 2 + w32 sh.size }).tickModes)
    else finish i sh sr (body (consume i sh.vmac s2))

/-- The address of the instruction that executes: past the prefix while a repeat is in progress. -/
def RegSet.instrPc (r : RegSet) : Word := if repAct r then r.pc + 2 else r.pc
/-- The address of the instruction that element `i` executes. -/
abbrev instrAddr (s : State) (i : Nat) : Word := (s.rset i).instrPc

end Sys2Proof.Machine
end

