-- ==== Sys2Proof/Machine/Flags.lean ====
section
/-! DEFINITION. The operations of the arithmetic unit with their flags (R45–R49) and the conditions (R46). -/

namespace Sys2Proof.Machine

/-- The result of an operation with what it does to `C`, `V` (none: unchanged) and `Q` (R45). -/
structure AluRes where
  val : Word
  c : Option Bool := none
  v : Option Bool := none
  q : Bool := false
  deriving DecidableEq, Repr

/-- An operation on two operands with the carry before it. -/
abbrev AluOp := Bool → Word → Word → AluRes

/-- The exact sum lies outside the signed 32-bit range. -/
def sOut (x : Int) : Bool := x < -2147483648 || 2147483647 < x

/-- `a + b + carry-in`, with the carry out of bit 31 and the signed overflow. -/
def addWith (a b : Word) (cin : Bool) : AluRes :=
  { val := w32 (a.toNat + b.toNat + b2n cin), c := some (2 ^ 32 ≤ a.toNat + b.toNat + b2n cin),
    v := some (sOut (a.toInt + b.toInt + b2n cin)) }

def aluAdd : AluOp := fun _ a b => addWith a b false
def aluAdc : AluOp := fun c a b => addWith a b c
def aluSub : AluOp := fun _ a b => addWith a (~~~b) true
def aluSbc : AluOp := fun c a b => addWith a (~~~b) c
def aluAnd : AluOp := fun _ a b => { val := a &&& b }
def aluOr : AluOp := fun _ a b => { val := a ||| b }
def aluXor : AluOp := fun _ a b => { val := a ^^^ b }
def aluAndn : AluOp := fun _ a b => { val := a &&& ~~~b }

/-- Left shift by 0 to 255 (R48). -/
def lslBy (a : Word) (n : Nat) : AluRes :=
  { val := a <<< n, c := if n = 0 then none else some (n ≤ 32 && a.getLsbD (32 - n)) }
/-- Logical right shift by 0 to 255 (R48). -/
def lsrBy (a : Word) (n : Nat) : AluRes :=
  { val := a >>> n, c := if n = 0 then none else some (a.getLsbD (n - 1)) }
/-- Arithmetic right shift by 0 to 255 (R48). -/
def asrBy (a : Word) (n : Nat) : AluRes :=
  { val := a.sshiftRight n, c := if n = 0 then none else some (if 32 ≤ n then a.msb else a.getLsbD (n - 1)) }
/-- Right rotation by 0 to 31 (R48). -/
def rorBy (a : Word) (n : Nat) : AluRes :=
  { val := a.rotateRight n, c := if n = 0 then none else some (a.getLsbD (n - 1)) }

def aluLsl : AluOp := fun _ a b => lslBy a (fld b 7 0)
def aluLsr : AluOp := fun _ a b => lsrBy a (fld b 7 0)
def aluAsr : AluOp := fun _ a b => asrBy a (fld b 7 0)
def aluRor : AluOp := fun _ a b => rorBy a (fld b 4 0)

def aluMul : AluOp := fun _ a b => { val := a * b }
def aluMulhs : AluOp := fun _ a b => { val := wInt (a.toInt * b.toInt / 2 ^ 32) }
def aluMulhu : AluOp := fun _ a b => { val := w32 (a.toNat * b.toNat / 2 ^ 32) }
def aluMin : AluOp := fun _ a b => { val := if a.toInt < b.toInt then a else b }
def aluMax : AluOp := fun _ a b => { val := if a.toInt > b.toInt then a else b }
def aluMinu : AluOp := fun _ a b => { val := if a.toNat < b.toNat then a else b }
def aluMaxu : AluOp := fun _ a b => { val := if a.toNat > b.toNat then a else b }
/-- The number of leading zero bits among the low `n` bits of `a`. -/
def clzFrom (a : Word) : Nat → Nat
  | 0 => 0
  | n + 1 => if a.getLsbD n then 0 else clzFrom a n + 1
def aluClz : AluOp := fun _ a _ => { val := w32 (clzFrom a 32) }
def aluSlt : AluOp := fun _ a b => { val := if a.toInt < b.toInt then 1 else 0 }
def aluSltu : AluOp := fun _ a b => { val := if a.toNat < b.toNat then 1 else 0 }

/-- An exact value clamped to the signed 32-bit range; `V` and `Q` show the clamp. -/
def saturate (x : Int) : AluRes :=
  { val := wInt (clampI x (-2147483648) 2147483647), v := some (sOut x), q := sOut x }
def aluAddsat : AluOp := fun _ a b => saturate (a.toInt + b.toInt)
def aluSubsat : AluOp := fun _ a b => saturate (a.toInt - b.toInt)

/-- The signed quotient leaves the 32-bit range (R49). -/
def divOver (a b : Word) : Bool := a = 0x80000000 && b = 0xFFFFFFFF
def aluDiv : AluOp := fun _ a b =>
  { val := if b = 0 then 0xFFFFFFFF else wInt (a.toInt.tdiv b.toInt), v := some (b = 0 || divOver a b) }
def aluDivu : AluOp := fun _ a b =>
  { val := if b = 0 then 0xFFFFFFFF else w32 (a.toNat / b.toNat), v := some (decide (b = 0)) }
def aluRem : AluOp := fun _ a b =>
  { val := if b = 0 then a else wInt (a.toInt.tmod b.toInt), v := some (b = 0 || divOver a b) }
def aluRemu : AluOp := fun _ a b =>
  { val := if b = 0 then a else w32 (a.toNat % b.toNat), v := some (decide (b = 0)) }

/-! ### `STATUS` -/

/-- `N` and `Z` from the result, `C` and `V` where the operation defines them (R45). -/
def setFlags (w : Word) (r : AluRes) : Word :=
  let w1 := setBit (setBit w 3 r.val.msb) 2 (r.val = 0)
  let w2 := match r.c with | some c => setBit w1 1 c | none => w1
  match r.v with | some v => setBit w2 0 v | none => w2
/-- `Q` is sticky (R45). -/
def setQ (w : Word) (q : Bool) : Word := if q then setBit w 4 true else w
/-- `STATUS` after an operation; `S` = 1 changes the flags. -/
def statusAfter (w : Word) (S : Bool) (r : AluRes) : Word :=
  let w1 := if S then setFlags w r else w
  setQ w1 r.q

/-- A condition holds for a `STATUS` word (R46); 0xF is reserved. -/
def condHolds (w : Word) (cond : Nat) : Bool :=
  let n := tb w 3
  let z := tb w 2
  let c := tb w 1
  let v := tb w 0
  match cond with
  | 0 => z | 1 => !z | 2 => c | 3 => !c | 4 => n | 5 => !n | 6 => v | 7 => !v
  | 8 => c && !z | 9 => !c || z | 10 => n = v | 11 => n ≠ v | 12 => !z && n = v | 13 => z || n ≠ v
  | 14 => true
  | _ => false

end Sys2Proof.Machine
end

