-- ==== Sys2Proof/Machine/Operands.lean ====
section
/-! DEFINITION. Operand forms (R42, R43, R50): which registers a form names, its length, and the body of every
instruction that computes from registers and immediates alone. -/

namespace Sys2Proof.Machine

/-- The register fields of the format are legal on the element: on a loop engine bit 4 of each must be clear (R42). -/
def regsOk (i : Nat) (ns : List (BitVec 5)) : Bool := !isEngine i || ns.all (fun n => n.toNat < 16)

/-- An instruction that computes from the registers: `ns` are the 5-bit register fields of its format, `rd` the
register it writes, `S` says that it changes the flags. -/
def regOp (i : Nat) (ns : List (BitVec 5)) (rd : Option Nat) (S : Bool) (f : RegSet → AluRes) (s : State) : Out :=
  if !regsOk i ns then .trap Trap.illegal s
  else
    let r := s.rset i
    let x := f r
    let r1 := match rd with | some n => r.setGr n x.val | none => r
    .done (s.setRset i { r1 with status := statusAfter r.status S x })

/-- The carry flag. -/
abbrev RegSet.c (r : RegSet) : Bool := tb r.status 1
/-- An operation on two registers. -/
def onRegs (op : AluOp) (a b : Nat) (r : RegSet) : AluRes := op r.c (r.gr a) (r.gr b)
/-- An operation on a register and a constant. -/
def onImm (op : AluOp) (a : Nat) (k : Word) (r : RegSet) : AluRes := op r.c (r.gr a) k

/-- Runs a repeatable instruction that computes from the registers. -/
def regInstr (e : Elem) (size : Nat) (ns : List (BitVec 5)) (rd : Option Nat) (S : Bool) (f : RegSet → AluRes)
    (s : State) : State :=
  runInstr (elemIdx e) { size := size, rep := true } false (regOp (elemIdx e) ns rd S f) s

/-- F32-R of major 0x00. -/
def r32Instr (op : AluOp) (e : Elem) (rd ra rb : BitVec 5) (S : Bool) (s : State) : State :=
  regInstr e 4 [rd, ra, rb] (some rd.toNat) S (onRegs op ra.toNat rb.toNat) s
/-- F32-R or F16-RR. -/
def aluInstr (op : AluOp) (e : Elem) (f : AluForm) (s : State) : State :=
  match f with
  | .r32 rd ra rb S => r32Instr op e rd ra rb S s
  | .rr rd rs => regInstr e 2 [] (some rd.toNat) false (onRegs op rd.toNat rs.toNat) s
/-- F16-RR with one source. -/
def rrInstr (g : Word → Word) (e : Elem) (rd rs : BitVec 4) (s : State) : State :=
  regInstr e 2 [] (some rd.toNat) false (fun r => { val := g (r.gr rs.toNat) }) s
/-- F32-I with an immediate that the operation takes as `k`. -/
def i32Instr (op : AluOp) (e : Elem) (rd ra : BitVec 5) (k : Word) (s : State) : State :=
  regInstr e 4 [rd, ra] (some rd.toNat) false (onImm op ra.toNat k) s
/-- A shift by an immediate (R44, R50). -/
def shiftInstr (op : Word → Nat → AluRes) (e : Elem) (f : ShiftForm) (s : State) : State :=
  match f with
  | .i32 rd ra n => regInstr e 4 [rd, ra] (some rd.toNat) false (fun r => op (r.gr ra.toNat) n.toNat) s
  | .i16 rd n => regInstr e 2 [] (some rd.toNat) false (fun r => op (r.gr rd.toNat) n.toNat) s

/-- A store of the run that executes has not been acknowledged, so its error response may still return (R94). -/
def errorMayCome (i : Nat) (s : State) : Bool := (s.el i).wq.any (fun p => p.set = (s.el i).cur)

/-- A divide (R49, R89): one that is abandoned leaves everything as it was.  Inside a `REP.U` unit only the error
response of a store that is still on its way can abandon it (R67, R94). -/
def divInstr (op : AluOp) (e : Elem) (rd ra rb : BitVec 5) (S abandoned : Bool) (s : State) : State :=
  runInstr (elemIdx e) { rep := true } false (fun s =>
    let r := s.rset (elemIdx e)
    if regsOk (elemIdx e) [rd, ra, rb] && abandoned && (!(repAct r && repU r) || errorMayCome (elemIdx e) s) then .hold s
    else regOp (elemIdx e) [rd, ra, rb] (some rd.toNat) S (onRegs op ra.toNat rb.toNat) s) s

end Sys2Proof.Machine
end

