-- ==== Sys2Proof/Machine/Alu.lean ====
section
/-! DEFINITION. The arithmetic, logic, shift, compare and move instructions (R44–R50). -/

namespace Sys2Proof.Machine

abbrev Outcome := Host.Outcome State Fault Refusal

def execAdd (e : Elem) (f : AluForm) (s : State) : Outcome := .next (aluInstr aluAdd e f s)
def execSub (e : Elem) (f : AluForm) (s : State) : Outcome := .next (aluInstr aluSub e f s)
def execAnd (e : Elem) (f : AluForm) (s : State) : Outcome := .next (aluInstr aluAnd e f s)
def execOr (e : Elem) (f : AluForm) (s : State) : Outcome := .next (aluInstr aluOr e f s)
def execXor (e : Elem) (f : AluForm) (s : State) : Outcome := .next (aluInstr aluXor e f s)
def execLsl (e : Elem) (f : AluForm) (s : State) : Outcome := .next (aluInstr aluLsl e f s)
def execLsr (e : Elem) (f : AluForm) (s : State) : Outcome := .next (aluInstr aluLsr e f s)
def execAsr (e : Elem) (f : AluForm) (s : State) : Outcome := .next (aluInstr aluAsr e f s)
def execMul (e : Elem) (f : AluForm) (s : State) : Outcome := .next (aluInstr aluMul e f s)
def execAdc (e : Elem) (rd ra rb : BitVec 5) (S : Bool) (s : State) : Outcome :=
  .next (r32Instr aluAdc e rd ra rb S s)
def execSbc (e : Elem) (rd ra rb : BitVec 5) (S : Bool) (s : State) : Outcome :=
  .next (r32Instr aluSbc e rd ra rb S s)
def execAndn (e : Elem) (rd ra rb : BitVec 5) (S : Bool) (s : State) : Outcome :=
  .next (r32Instr aluAndn e rd ra rb S s)
def execRor (e : Elem) (rd ra rb : BitVec 5) (S : Bool) (s : State) : Outcome :=
  .next (r32Instr aluRor e rd ra rb S s)
def execMulhs (e : Elem) (rd ra rb : BitVec 5) (S : Bool) (s : State) : Outcome :=
  .next (r32Instr aluMulhs e rd ra rb S s)
def execMulhu (e : Elem) (rd ra rb : BitVec 5) (S : Bool) (s : State) : Outcome :=
  .next (r32Instr aluMulhu e rd ra rb S s)
def execMin (e : Elem) (rd ra rb : BitVec 5) (S : Bool) (s : State) : Outcome :=
  .next (r32Instr aluMin e rd ra rb S s)
def execMax (e : Elem) (rd ra rb : BitVec 5) (S : Bool) (s : State) : Outcome :=
  .next (r32Instr aluMax e rd ra rb S s)
def execMinu (e : Elem) (rd ra rb : BitVec 5) (S : Bool) (s : State) : Outcome :=
  .next (r32Instr aluMinu e rd ra rb S s)
def execMaxu (e : Elem) (rd ra rb : BitVec 5) (S : Bool) (s : State) : Outcome :=
  .next (r32Instr aluMaxu e rd ra rb S s)
def execSlt (e : Elem) (rd ra rb : BitVec 5) (S : Bool) (s : State) : Outcome :=
  .next (r32Instr aluSlt e rd ra rb S s)
def execSltu (e : Elem) (rd ra rb : BitVec 5) (S : Bool) (s : State) : Outcome :=
  .next (r32Instr aluSltu e rd ra rb S s)
def execAddsat (e : Elem) (rd ra rb : BitVec 5) (S : Bool) (s : State) : Outcome :=
  .next (r32Instr aluAddsat e rd ra rb S s)
def execSubsat (e : Elem) (rd ra rb : BitVec 5) (S : Bool) (s : State) : Outcome :=
  .next (r32Instr aluSubsat e rd ra rb S s)
def execClz (e : Elem) (rd ra : BitVec 5) (S : Bool) (s : State) : Outcome := .next (r32Instr aluClz e rd ra 0 S s)
def execDiv (e : Elem) (rd ra rb : BitVec 5) (S abandoned : Bool) (s : State) : Outcome :=
  .next (divInstr aluDiv e rd ra rb S abandoned s)
def execDivu (e : Elem) (rd ra rb : BitVec 5) (S abandoned : Bool) (s : State) : Outcome :=
  .next (divInstr aluDivu e rd ra rb S abandoned s)
def execRem (e : Elem) (rd ra rb : BitVec 5) (S abandoned : Bool) (s : State) : Outcome :=
  .next (divInstr aluRem e rd ra rb S abandoned s)
def execRemu (e : Elem) (rd ra rb : BitVec 5) (S abandoned : Bool) (s : State) : Outcome :=
  .next (divInstr aluRemu e rd ra rb S abandoned s)
def execAddi (e : Elem) (f : ImmForm) (s : State) : Outcome :=
  .next (match f with
    | .i32 rd ra imm => i32Instr aluAdd e rd ra (imm.signExtend 32) s
    | .i8 rd imm => regInstr e 2 [] (some rd.toNat) false (onImm aluAdd rd.toNat (imm.signExtend 32)) s)
def execAndi (e : Elem) (rd ra : BitVec 5) (imm : BitVec 14) (s : State) : Outcome :=
  .next (i32Instr aluAnd e rd ra (imm.setWidth 32) s)
def execOri (e : Elem) (rd ra : BitVec 5) (imm : BitVec 14) (s : State) : Outcome :=
  .next (i32Instr aluOr e rd ra (imm.setWidth 32) s)
def execXori (e : Elem) (rd ra : BitVec 5) (imm : BitVec 14) (s : State) : Outcome :=
  .next (i32Instr aluXor e rd ra (imm.setWidth 32) s)
def execLsli (e : Elem) (f : ShiftForm) (s : State) : Outcome := .next (shiftInstr lslBy e f s)
def execLsri (e : Elem) (f : ShiftForm) (s : State) : Outcome := .next (shiftInstr lsrBy e f s)
def execAsri (e : Elem) (f : ShiftForm) (s : State) : Outcome := .next (shiftInstr asrBy e f s)
def execRori (e : Elem) (rd ra : BitVec 5) (n : BitVec 5) (s : State) : Outcome :=
  .next (shiftInstr rorBy e (.i32 rd ra n) s)
/-- F32-I compares with the sign-extended immediate, F16-I8 with the zero-extended one (R43, R50). -/
def execCmpi (e : Elem) (f : CmpForm) (s : State) : Outcome :=
  .next (match f with
    | .i32 ra imm => regInstr e 4 [ra] none true (onImm aluSub ra.toNat (imm.signExtend 32)) s
    | .i8 rd imm => regInstr e 2 [] none true (onImm aluSub rd.toNat (imm.setWidth 32)) s)
def execTsti (e : Elem) (ra : BitVec 5) (imm : BitVec 14) (s : State) : Outcome :=
  .next (regInstr e 4 [ra] none true (onImm aluAnd ra.toNat (imm.setWidth 32)) s)
def execMovh (e : Elem) (rd : BitVec 5) (k : BitVec 19) (s : State) : Outcome :=
  .next (regInstr e 4 [rd] (some rd.toNat) false (fun _ => { val := w32 (k.toNat * 8192) }) s)
/-- The base is the address of the instruction that follows (R44). -/
def execAdrh (e : Elem) (rd : BitVec 5) (k : BitVec 19) (s : State) : Outcome :=
  .next (regInstr e 4 [rd] (some rd.toNat) false (fun r => { val := r.instrPc + 4 + w32 (k.toNat * 8192) }) s)
def execMov (e : Elem) (rd rs : BitVec 4) (s : State) : Outcome := .next (rrInstr id e rd rs s)
def execMovi (e : Elem) (rd : BitVec 4) (u : BitVec 8) (s : State) : Outcome :=
  .next (regInstr e 2 [] (some rd.toNat) false (fun _ => { val := u.setWidth 32 }) s)
def execNot (e : Elem) (rd rs : BitVec 4) (s : State) : Outcome := .next (rrInstr (fun x => ~~~x) e rd rs s)
def execNeg (e : Elem) (rd rs : BitVec 4) (s : State) : Outcome := .next (rrInstr (fun x => 0 - x) e rd rs s)
def execCmp (e : Elem) (rd rs : BitVec 4) (s : State) : Outcome :=
  .next (regInstr e 2 [] none true (onRegs aluSub rd.toNat rs.toNat) s)
def execTst (e : Elem) (rd rs : BitVec 4) (s : State) : Outcome :=
  .next (regInstr e 2 [] none true (onRegs aluAnd rd.toNat rs.toNat) s)
def execSextb (e : Elem) (rd rs : BitVec 4) (s : State) : Outcome :=
  .next (rrInstr (fun x => (x.setWidth 8).signExtend 32) e rd rs s)
def execSexth (e : Elem) (rd rs : BitVec 4) (s : State) : Outcome :=
  .next (rrInstr (fun x => (x.setWidth 16).signExtend 32) e rd rs s)
def execZextb (e : Elem) (rd rs : BitVec 4) (s : State) : Outcome :=
  .next (rrInstr (fun x => (x.setWidth 8).setWidth 32) e rd rs s)
def execZexth (e : Elem) (rd rs : BitVec 4) (s : State) : Outcome :=
  .next (rrInstr (fun x => (x.setWidth 16).setWidth 32) e rd rs s)
/-- `NOP` writes nothing (R50). -/
def execNop (e : Elem) (s : State) : Outcome :=
  .next (runInstr (elemIdx e) { size := 2, rep := true } false Out.done s)

end Sys2Proof.Machine
end

