-- ==== Sys2Proof/Machine/Access.lean ====
section
/-! DEFINITION. How the elements reach memory: block translation (R352), the page walk with its TLB and walk
cache (R344–R349), the caches of the application cluster (R337, R340, R341), posted stores (R53, R94), and
the watch and break units (R483). -/

namespace Sys2Proof.Machine

/-- What an access is for: `inv` is a line operation that needs write permission and faults as a load, `line` one on
the bank-0 address that needs no permission (R343). -/
inductive Acc where
  | load
  | store
  | fetch
  | inv
  | line
  deriving DecidableEq, Repr

/-- The access shows as a write in `CAUSE.SUB`. -/
abbrev Acc.wr (k : Acc) : Bool := k = .store
/-- The access needs permission to write. -/
abbrev Acc.needsW (k : Acc) : Bool := k = .store || k = .inv

/-- Where an access goes: the physical address, the world it carries, and its memory type (0 device, 1 normal
non-cacheable, 2 normal cacheable). -/
structure Place where
  pa : Nat
  sec : Bool
  mt : Nat
  deriving DecidableEq, Repr

/-- The run or core is secure, with the value of `WORLD` that the instruction uses. -/
abbrev secNow (e : ElemState) : Bool := tb (e.seen 6) 0

/-! ### Block translation (R352) -/

/-- The lowest-numbered block that matches an address. -/
def xblkOf (e : ElemState) (va : Word) : Option Nat :=
  (List.range 8).find? (fun n => tb (e.seen (0x23 + 4 * n)) 31
    && fld (e.seen (0x20 + 4 * n)) 31 12 ≤ fld va 31 12 && fld va 31 12 ≤ fld (e.seen (0x21 + 4 * n)) 31 12)

/-- Translation of an engine's access; permission is checked before the world (log entry 60). -/
def xlateEngine (e : ElemState) (k : Acc) (va : Word) (s : State) : Except Trap Place :=
  match xblkOf e va with
  | none => .error (Trap.access k.wr 7 7 va)
  | some n =>
    let a := e.seen (0x23 + 4 * n)
    let ok := match k with | .fetch => tb a 2 | .store => tb a 1 | _ => tb a 0
    if !ok || (tb a 3 && !stPriv (e.set e.cur)) then .error (Trap.access k.wr 7 8 va)
    else if tb a 30 && !secNow e then .error (Trap.access k.wr 7 6 va)
    else
      let pa := (fld va 31 12 + fld (e.seen (0x22 + 4 * n)) 27 0) % 2 ^ 28 * 4096 + fld va 11 0
      .ok { pa := pa, sec := tb a 30, mt := if isDevice s pa then 0 else 1 }

/-! ### The caches of the application cluster (R337, R340, R341) -/

/-- The line of the cluster's cache with this number. -/
abbrev lineOf (s : State) (ln : Nat) : Option Line := Tbl.get (fun _ => none) s.core.cache ln
/-- Replaces a line. -/
def setLine (ln : Nat) (x : Option Line) (s : State) : State :=
  { s with core.cache := Tbl.set (fun _ => none) s.core.cache ln x }
/-- The master that a write-back shows: its world was checked when the line was written. -/
abbrev cacheMaster (i : Nat) : Master := elemMaster i true

/-- A dirty line is written to memory and becomes clean; an error found in it poisons its words (R337). -/
def cleanLine (i ln : Nat) (s : State) : State :=
  match lineOf s ln with
  | some x =>
    if !x.dirty then s
    else
      let s1 := (memWriteWith true (cacheMaster i) .clean (64 * ln) x.data s).2
      let s2 := if x.bad.isSome then
          { s1 with poison := (s1.poison ++ (List.range 16).map (fun k => 64 * ln + 4 * k)).eraseDups } else s1
      setLine ln (some { x with dirty := false, owner := none, bad := none }) s2
  | none => s
/-- A line leaves L1 and L2 without being written. -/
def dropLine (ln : Nat) (s : State) : State := setLine ln none s
/-- An uncached load of an application core finds the stores that the cluster made through the caches (R53). -/
def meetLoad (i pa : Nat) (s : State) : State := if isAc i then cleanLine i (pa / 64) s else s
/-- An uncached store of an application core reaches memory with no older copy of its line left in the caches (R53). -/
def meetStore (i pa : Nat) (s : State) : State :=
  if isAc i && (lineOf s (pa / 64)).isSome then dropLine (pa / 64) (cleanLine i (pa / 64) s) else s
/-- Replacement: a line leaves its L1, or leaves L2 for memory. -/
def evictLine (i ln : Nat) (s : State) : State :=
  match lineOf s ln with
  | some x => if x.owner.isSome then setLine ln (some { x with owner := none }) s else dropLine ln (cleanLine i ln s)
  | none => s

/-- The lines of the L2 set of a line (16 ways in 1,024 sets). -/
def l2Set (s : State) (ln : Nat) : List Nat :=
  (s.core.cache.filter (fun e => e.1 % 1024 = ln % 1024 && e.2.isSome)).map Prod.fst
/-- The lines that core `c` holds in the L1 set of a line (4 ways in 128 sets). -/
def l1Set (s : State) (c ln : Nat) : List Nat :=
  (s.core.cache.filter (fun e => e.1 % 128 = ln % 128 && match e.2 with | some x => x.owner = some c | none => false)).map
    Prod.fst

/-- Room for a line in its L2 set: the line that leaves is a free choice (log entry 61). -/
def makeRoom (i ln : Nat) (s : State) : State :=
  let ks := l2Set s ln
  if ks.length < 16 then s
  else
    let (x, s1) := s.draw
    let v := ks.getD (x % ks.length) 0
    dropLine v (cleanLine i v s1)
/-- Core `c` holds the latest copy of a line in its L1; the line that leaves a full set is a free choice. -/
def takeOwner (c ln : Nat) (s0 : State) : State :=
  let ks := (l1Set s0 c ln).filter (· ≠ ln)
  let s := if ks.length < 4 then s0
    else
      let (x, s1) := s0.draw
      let v := ks.getD (x % ks.length) 0
      match lineOf s1 v with | some y => setLine v (some { y with owner := none }) s1 | none => s1
  match lineOf s ln with
  | some y => setLine ln (some { y with owner := some c }) s
  | none => s

/-- A line is read from memory into L2 and the core's L1. -/
def fillLine (i ln : Nat) (sec fetch : Bool) (ecc : Ecc) (s : State) : Except BusErr Unit × State :=
  let (r, s1) := memRead (elemMaster i sec) fetch ecc (64 * ln) 64 s
  match r with
  | .error e => (.error e, s1)
  | .ok bs => (.ok (), setLine ln (some { data := bs }) (makeRoom i ln s1))

/-- The checks of world that stand before a cached access to `n` bytes. -/
def cacheRefuses (i : Nat) (p : Place) (n : Nat) (write : Bool) (s : State) : Option BusErr × State :=
  if !memThere s p.pa || !memThere s (p.pa + n - 1) || ctlRefuses s p.sec p.pa n then (some .bus, s)
  else
    let (bad, s1) := worldCheck (elemMid i) (elemSub i) p.sec p.pa write s
    (if bad then some .world else none, s1)

/-- What the check bits of a line show to an access at `pa` that hits it (R337). -/
def cacheCheck (i pa : Nat) (ecc : Ecc) (s : State) : Bool × State :=
  let ln := pa / 64
  match lineOf s ln, ecc with
  | some x, .double =>
    (false, setLine ln (some { x with bad := if x.dirty then some pa else x.bad }) (memErrorIn false true (elemMid i) pa s))
  | some x, e =>
    match x.bad with
    | some a => (false, memErrorIn false true (elemMid i) a s)
    | none => (true, if e = .corrected then memErrorIn false false (elemMid i) pa s else s)
  | none, _ => (true, s)

/-- The line of an access is in the cache afterwards. -/
def reachLine (i : Nat) (p : Place) (fetch : Bool) (ecc : Ecc) (s : State) : Except BusErr Unit × State :=
  let ln := p.pa / 64
  match lineOf s ln with
  | some _ => let (ok, s1) := cacheCheck i p.pa ecc s; (if ok then .ok () else .error .ecc, s1)
  | none => fillLine i ln p.sec fetch ecc s

/-- A cached load. -/
def cacheRead (i : Nat) (p : Place) (n : Nat) (fetch : Bool) (ecc : Ecc) (s : State) : Except BusErr (List Byte) × State :=
  match cacheRefuses i p n false s with
  | (some e, s1) => (.error e, s1)
  | (none, s1) =>
    match reachLine i p fetch ecc s1 with
    | (.error e, s2) => (.error e, s2)
    | (.ok _, s2) =>
      match lineOf s2 (p.pa / 64) with
      | none => (.error .bus, s2)
      | some x =>
        let s3 := if x.owner.isSome && x.owner ≠ some i then setLine (p.pa / 64) (some { x with owner := none }) s2 else s2
        (.ok ((x.data.drop (p.pa % 64)).take n), s3)

/-- Replaces bytes of a list from place `k` on. -/
def putAt (l : List Byte) (k : Nat) (bs : List Byte) : List Byte := l.take k ++ bs ++ l.drop (k + bs.length)

/-- A cached store: write-back, write-allocate. -/
def cacheWrite (i : Nat) (p : Place) (bs : List Byte) (ecc : Ecc) (s : State) : Option BusErr × State :=
  match regionOf s p.pa with
  | .rom | .flash | .info => (some .bus, s)
  | _ =>
    match cacheRefuses i p bs.length true s with
    | (some e, s1) => (some e, s1)
    | (none, s1) =>
      match reachLine i p false ecc s1 with
      | (.error e, s2) => (some e, s2)
      | (.ok _, s2) =>
        let ln := p.pa / 64
        let s3 := takeOwner i ln s2
        match lineOf s3 ln with
        | none => (some .bus, s3)
        | some x => (none, clearResv p.pa bs.length
            (setLine ln (some { x with data := putAt x.data (p.pa % 64) bs, dirty := true }) s3))

/-! ### The page walk (R344–R349) -/

/-- The address bits below the index of a level. -/
abbrev lvShift (lv : Nat) : Nat := 12 + 8 * lv

/-- A descriptor as the walker reads it, coherently with the caches; the checks of world stand before a cached one
too (R394). -/
def readDesc (i a : Nat) (sec : Bool) (ecc : Ecc) (s : State) : Option Nat × State :=
  match lineOf s (a / 64) with
  | some x =>
    (match cacheRefuses i { pa := a, sec := sec, mt := 2 } 8 false s with
     | (some _, s1) => (none, s1)
     | (none, s1) =>
       match cacheCheck i a ecc s1 with
       | (true, s2) => (some (ofBytes ((x.data.drop (a % 64)).take 8)), s2)
       | (false, s2) => (none, s2))
  | none =>
    (match memRead (elemMaster i sec) false ecc a 8 s with
     | (.ok bs, s1) => (some (ofBytes bs), s1)
     | (.error _, s1) => (none, s1))

/-- Bits `[hi:lo]` of a number. -/
abbrev bits (d hi lo : Nat) : Nat := d / 2 ^ lo % 2 ^ (hi + 1 - lo)

/-- A valid descriptor is malformed at a level (R346, R347). -/
def descBad (d lv : Nat) : Bool :=
  let t := d.testBit 1
  bits d 63 40 ≠ 0 || bits d 10 7 ≠ 0 || bits d 6 5 = 3
    || (if t then lv = 0 || bits d 6 2 ≠ 0
        else 1 < lv || (lv = 0 && bits d 11 11 ≠ 0) || (lv = 1 && bits d 19 11 ≠ 0))

/-- The leaf result of a descriptor. -/
def leafOf (d lv va : Nat) : TlbEntry :=
  { vpage := va / 2 ^ lvShift lv, block := lv = 1, frame := bits d 39 (lvShift lv) * 2 ^ lvShift lv,
    mt := bits d 6 5, xn := d.testBit 4, ap := bits d 3 2 }

/-- The walk from level `lv` and table `a` down: the leaf with the table descriptors met, or the kind and level of
the fault. -/
def walkFrom (i va : Nat) (sec : Bool) (we : Option (Nat × Ecc)) :
    Nat → Nat → List WalkEntry → State → Except (Nat × Nat) (TlbEntry × List WalkEntry) × State
  | lv, a, seen_, s =>
    let ecc := match we with | some (l, x) => if l = lv then x else .clean | none => .clean
    match readDesc i (a + 8 * (va / 2 ^ lvShift lv % 256)) sec ecc s with
    | (none, s1) => (.error (0xB, lv), s1)
    | (some d, s1) =>
      if !d.testBit 0 then (.error (1, lv), s1)
      else if descBad d lv then (.error (2, lv), s1)
      else if !d.testBit 1 then (.ok (leafOf d lv va, seen_), s1)
      else match lv with
        | 0 => (.error (2, 0), s1)
        | l + 1 =>
          let t := bits d 39 11 * 2048
          walkFrom i va sec we l t (seen_ ++ [{ level := l, tag := va / 2 ^ (lvShift l + 8), table := t }]) s1

/-- An entry enters a structure of `n` places; what leaves a full one is a free choice (log entry 61). -/
def putEntry {α : Type} (n : Nat) (x : α) (l : List α) (s : State) : List α × State :=
  if l.length < n then (l ++ [x], s)
  else
    let (k, s1) := s.draw
    (l.eraseIdx (k % l.length) ++ [x], s1)

/-- The leaf enters the TLB. -/
def putTlb (i : Nat) (x : TlbEntry) (s : State) : State :=
  let (l, s1) := putEntry 64 x (s.el i).tlb s
  s1.setEl i { s1.el i with tlb := l }
/-- The table descriptors of a walk enter the walk cache. -/
def putWalks (i : Nat) (ws : List WalkEntry) (s : State) : State :=
  ws.foldl (fun s w =>
    if (s.el i).wcache.any (fun x => x.level = w.level && x.tag = w.tag) then s
    else
      let (l, s1) := putEntry 8 w (s.el i).wcache s
      s1.setEl i { s1.el i with wcache := l }) s

/-- The TLB entry of an address. -/
def tlbHit (e : ElemState) (va : Nat) : Option TlbEntry :=
  e.tlb.find? (fun t => va / 2 ^ (if t.block then 20 else 12) = t.vpage)
/-- The deepest walk-cache entry of an address. -/
def walkHit (e : ElemState) (va top : Nat) : Option WalkEntry :=
  (List.range top).findSome? (fun l => e.wcache.find? (fun w => w.level = l && w.tag = va / 2 ^ (lvShift l + 8)))

/-- The leaf for an address under the present `TTB`: from the TLB, or by a walk that starts at the top or, by a free
choice, at the deepest walk-cache entry (R349). -/
def findLeaf (i va : Nat) (we : Option (Nat × Ecc)) (s : State) : Except (Nat × Nat) TlbEntry × State :=
  let e := s.el i
  let top := fld (e.seen 7) 2 1 + 1
  if va / 2 ^ (match top with | 2 => 36 | 3 => 44 | _ => 48) ≠ 0 then (.error (3, 7), s)
  else match tlbHit e va with
    | some t => (.ok t, s)
    | none =>
      let (x, s1) := s.draw
      let root := fld (e.seen 7) 31 3 * 2048
      let (lv, a) := match walkHit e va top with
        | some w => if x % 2 = 1 then (w.level, w.table) else (top, root)
        | none => (top, root)
      match walkFrom i va (secNow e) we lv a [] s1 with
      | (.error f, s2) => (.error f, s2)
      | (.ok (t, ws), s2) => (.ok t, putTlb i t (putWalks i ws s2))

/-- The permission check that follows the walk: the kind of the fault (R347). -/
def leafRefuses (t : TlbEntry) (priv : Bool) (k : Acc) : Option Nat :=
  if k = .line then none
  else if (k.needsW && 2 ≤ t.ap) || (!priv && t.ap % 2 = 0) then some 4
  else if k = .fetch && t.xn then some 5 else none

/-- The physical address of a leaf. -/
abbrev leafPa (t : TlbEntry) (va : Nat) : Nat := t.frame + va % 2 ^ (if t.block then 20 else 12)

/-- The 48-bit virtual address of a core's access: the bank in its upper bits, but for instruction fetches (R344). -/
def va48Of (e : ElemState) (k : Acc) (va : Word) : Nat :=
  (if k = .fetch || k = .line then 0 else fld e.bank 15 0) * 2 ^ 32 + va.toNat

/-- Translation of an application core's access (R344–R347). -/
def xlateCore (i : Nat) (k : Acc) (va : Word) (we : Option (Nat × Ecc)) (s : State) : Except Trap Place × State :=
  let e := s.el i
  let va48 := va48Of e k va
  if fld (e.seen 7) 2 1 = 0 then
    if 2 ^ 40 ≤ va48 then (.error (Trap.access k.wr 7 3 va), s)
    else (.ok { pa := va48, sec := secNow e, mt := if isDevice s va48 then 0 else 1 }, s)
  else match findLeaf i va48 we s with
    | (.error (kind, lv), s1) => (.error (Trap.access k.wr lv kind va), s1)
    | (.ok t, s1) =>
      match leafRefuses t (stPriv (e.set e.cur)) k with
      | some kind => (.error (Trap.access k.wr 7 kind va), s1)
      | none => (.ok { pa := leafPa t va48, sec := secNow e, mt := t.mt }, s1)

/-- Translation of an element's access. -/
def xlate (i : Nat) (k : Acc) (va : Word) (we : Option (Nat × Ecc)) (s : State) : Except Trap Place × State :=
  if isEngine i then (xlateEngine (s.el i) k va s, s)
  else if isAc i then xlateCore i k va we s
  else (.ok { pa := va.toNat, sec := true, mt := if isDevice s va.toNat then 0 else 1 }, s)

/-! ### What speculation and replacement do (R340, R349) -/

/-- A speculative access of a core walks for a page; what faults leaves nothing. -/
def specWalk (i va : Nat) (s : State) : State :=
  if fld ((s.el i).seen 7) 2 1 = 0 then s
  else match findLeaf i (va % 2 ^ 48) none s with
    | (.ok _, s1) => s1
    | (.error _, _) => s

/-- The address is never cached: a register window, the OTP window, a TCM (R98, R340, R341). -/
def neverCached (s : State) (pa : Nat) : Bool :=
  isDevice s pa || match regionOf s pa with | .info | .tcmAc _ | .tcmSv => true | _ => false
/-- A speculative fill of a line that some cacheable TLB entry of the core maps; one that would meet an error
response is dropped without effect. -/
def specFill (i ln : Nat) (s : State) : State :=
  let e := s.el i
  let covers (t : TlbEntry) : Bool := t.mt = 2 && t.frame ≤ 64 * ln && 64 * ln < t.frame + (if t.block then 0x100000 else 0x1000)
  if (lineOf s ln).isSome || neverCached s (64 * ln) || !e.tlb.any covers then s
  else match fillLine i ln (tb e.world 0) false .clean s with
    | (.ok _, s1) => s1
    | (.error _, _) => s

/-- An instruction line enters the core's L1 instruction cache (4 ways in 128 sets). -/
def instrFill (i ln : Nat) (s : State) : State :=
  let e := s.el i
  if e.icache.contains ln then s
  else
    let ks := e.icache.filter (fun l => l % 128 = ln % 128)
    if ks.length < 4 then s.setEl i { e with icache := e.icache ++ [ln] }
    else
      let (x, s1) := s.draw
      let v := ks.getD (x % ks.length) 0
      s1.setEl i { s1.el i with icache := e.icache.filter (· ≠ v) ++ [ln] }

/-- What an observation says has happened just before the access. -/
def applyObs (i : Nat) (o : Obs) (s : State) : State :=
  if !isAc i then s
  else
    let s1 := o.evicts.foldl (fun s ln => evictLine i ln s) s
    if tb (s1.rset i).status 9 then s1
    else
      let s2 := o.walks.foldl (fun s va => specWalk i va s) s1
      let s3 := o.fills.foldl (fun s ln => specFill i ln s) s2
      o.ifills.foldl (fun s ln => instrFill i ln s) s3

/-! ### Posted stores (R53, R94) -/

/-- Two accesses of an element that keep their order: their bytes overlap, or both go to one register block. -/
def conflicts (s : State) (a n b m : Nat) : Bool :=
  (a < b + m && b < a + n) || (isDevice s a && isDevice s b && a / 0x10000 = b / 0x10000)

/-- A posted store acts at its target: the error it answers with, if any. -/
def landStore (i : Nat) (p : Posted) (s : State) : Option BusErr × State :=
  let m := elemMaster i p.sec
  if isDevice s p.pa then
    match mmioWrite m p.pa p.bytes.length (w32 (ofBytes p.bytes)) s with
    | (.err, s1) => (some .bus, s1)
    | (.ecc, s1) => (some .ecc, s1)
    | (.world, s1) => (some .world, s1)
    | (_, s1) => (none, s1)
  else memWrite m p.ecc p.pa p.bytes (meetStore i p.pa s)

/-- An error response waits for the run of its set (R94); that of a run that has ended is lost. -/
def noteError (i : Nat) (p : Posted) (err : BusErr) (s : State) : State :=
  if p.set = 3 then s
  else s.setEl i { s.el i with imp := (s.el i).imp ++ [{ set := p.set, va := p.va, err := err }] }

/-- Posted store number `k` of an element arrives and is acknowledged. -/
def landNth (i k : Nat) (s : State) : State :=
  match (s.el i).wq[k]? with
  | none => s
  | some p =>
    match landStore i p (s.setEl i { s.el i with wq := (s.el i).wq.eraseIdx k }) with
    | (some err, s1) => noteError i p err s1
    | (none, s1) => s1

/-- Every posted store of an element arrives, oldest first; `n` bounds their number. -/
def drainAll (i : Nat) : Nat → State → State
  | 0, s => s
  | n + 1, s => if (s.el i).wq.isEmpty then s else drainAll i n (landNth i 0 s)

/-- The posted stores that must arrive before an access to `n` bytes at `a`: those in conflict with it or with a
later one that must. -/
def mustLand (s : State) (a n : Nat) : List Posted → List Bool
  | [] => []
  | p :: t =>
    let rest := mustLand s a n t
    let later := (t.zip rest).any (fun x => x.2 && conflicts s p.pa p.bytes.length x.1.pa x.1.bytes.length)
    (conflicts s a n p.pa p.bytes.length || later) :: rest

/-- The element's own earlier stores in conflict with an access arrive before it (R53). -/
def drainFor (i a n : Nat) (s : State) : State :=
  let q := (s.el i).wq
  let must := mustLand s a n q
  ((q.zip must).foldl (fun (r : Nat × State) x =>
    if x.2 then (r.1, landNth i r.1 r.2) else (r.1 + 1, r.2)) (0, s)).2

/-- Posted store `k` may arrive next: no earlier one conflicts with it. -/
def mayLand (s : State) (q : List Posted) (k : Nat) : Bool :=
  match q[k]? with
  | none => false
  | some p => (q.take k).all (fun x => !conflicts s x.pa x.bytes.length p.pa p.bytes.length)

/-! ### Break and watch units (R483) -/

/-- A unit is active, selects the element, and is for the world of the access. -/
def unitFor (s : State) (k i kind : Nat) (sec : Bool) : Bool :=
  let c := s.rg (ra .patch (Patch.K_CTRL k))
  tb c 31 && fld c 29 28 = kind && (fld c 21 16 = 63 || fld c 21 16 = rcNum i) && tb c 30 = sec
/-- The address of a unit. -/
def unitAddr (s : State) (k : Nat) : Nat :=
  fld (s.rg (ra .patch (Patch.K_ADDR_HI k))) 7 0 * 2 ^ 32 + fld (s.rg (ra .patch (Patch.K_ADDR_LO k))) 31 2 * 4

/-- A unit has fired for an element: `HIT` shows it, and the element halts at its boundary if the debugger holds the
grant.  Of the units that fire in one instruction `HIT` shows the lowest-numbered. -/
def unitFires (i k reason : Nat) (s : State) : State :=
  let a := ra .patch Patch.HIT
  let s1 := if s.dbg.fired && fld (s.rg a) 5 0 ≤ k then s
    else { s.setRg a (w32 (2 ^ 31 + rcNum i * 65536 + k)) with dbg.fired := true }
  if granted s1 i then wantHalt i reason s1 else s1.setRgBit (ra .dbg (Dbg.EL_STAT (rcNum i))) 1 true

/-- A data access of an element meets the watch units. -/
def watchAccess (i : Nat) (store_ : Bool) (p : Place) (n : Nat) (s : State) : State :=
  match (List.range 64).find? (fun k =>
      unitFor s k i 2 p.sec && tb (s.rg (ra .patch (Patch.K_CTRL k))) (if store_ then 1 else 0)
        && (let size := 4 * 2 ^ fld (s.rg (ra .patch (Patch.K_CTRL k))) 10 8
            let a := unitAddr s k / size * size
            p.pa < a + size && a < p.pa + n)) with
  | some k => unitFires i k 5 s
  | none => s

/-- A fetch of an element meets the break units. -/
def breakFetch (i : Nat) (p : Place) (s : State) : State :=
  match (List.range 64).find? (fun k => unitFor s k i 1 p.sec && unitAddr s k = p.pa / 4 * 4) with
  | some k => unitFires i k 4 s
  | none => s

/-! ### One data access -/

/-- The element reaches the memory at an address directly: its own context and island memory, or its own TCM (R56,
R98). -/
def isDirect (s : State) (i pa : Nat) : Bool :=
  match regionOf s pa with
  | .ctxmem e => e = i
  | .isl k => isEngine i && k = islandOf i
  | .tcmAc n => i = 32 + n
  | .tcmSv => i = 36
  | _ => false

/-- An access of memory type 2 that answers with an error (R340). -/
def cacheError (s : State) (p : Place) : Bool :=
  p.mt = 2 && (isDevice s p.pa || (0x08008000 ≤ p.pa && p.pa < 0x08010000))
/-- An access that goes through the caches: not in deterministic mode, and never to a TCM (R98). -/
def isCached (s : State) (i : Nat) (p : Place) : Bool :=
  p.mt = 2 && !tb (s.rset i).status 9 && match regionOf s p.pa with | .tcmAc _ | .tcmSv => false | _ => true

/-- A load at its target. -/
def loadAt (i n : Nat) (p : Place) (ecc : Ecc) (s0 : State) : Except BusErr (List Byte) × State :=
  let s := drainFor i p.pa n s0
  if cacheError s p then (.error .bus, s)
  else if isDevice s p.pa then
    match mmioRead (elemMaster i p.sec) p.pa n s with
    | (.ok v, s1) => (.ok (toBytes n v.toNat), s1)
    | (.ecc, s1) => (.error .ecc, s1)
    | (.world, s1) => (.error .world, s1)
    | (_, s1) => (.error .bus, s1)
  else if isCached s i p then cacheRead i p n false ecc s
  else memRead (elemMaster i p.sec) false ecc p.pa n (meetLoad i p.pa s)

/-- The run that executes is of a second copy (R249). -/
def isSecondCopy (s : State) (i : Nat) : Bool := isEngine i && (s.bank (runKey s i)).second

/-- A store: at once where the element reaches memory directly or through its cache, else posted; those of a second
copy over Twill are discarded.  One that finds the queue of an engine full waits until an entry is free, and the
oldest leaves first (DESIGN CHOICE, log entry 52: R53 does not say which). -/
def storeAt (i : Nat) (p : Place) (va : Word) (bs : List Byte) (ecc : Ecc) (s : State) : Option BusErr × State :=
  if isDirect s i p.pa then memWrite (elemMaster i p.sec) ecc p.pa bs s
  else if cacheError s p then (some .bus, s)
  else if isCached s i p then cacheWrite i p bs ecc (drainFor i p.pa bs.length s)
  else if isSecondCopy s i then (none, s)
  else
    let s1 := if isEngine i && 4 ≤ (s.el i).wq.length then landNth i 0 s else s
    let e := s1.el i
    (none, s1.setEl i { e with wq := e.wq ++ [{ pa := p.pa, bytes := bs, va := va, set := (s.el i).cur, sec := p.sec, ecc := ecc }] })

/-- A load of `n` bytes from a virtual address. -/
def loadVa (i n : Nat) (va : Word) (o : Obs) (s : State) : Except Trap (List Byte) × State :=
  if va.toNat % n ≠ 0 then (.error (Trap.align va), s)
  else match xlate i .load va o.wecc (applyObs i o s) with
    | (.error t, s1) => (.error t, s1)
    | (.ok p, s1) =>
      match loadAt i n p o.ecc s1 with
      | (.error e, s2) => (.error (Trap.ofBus e false false va), s2)
      | (.ok bs, s2) => (.ok bs, watchAccess i false p n s2)

/-- A store of bytes to a virtual address: the exception it raises, if any. -/
def storeVa (i : Nat) (va : Word) (bs : List Byte) (o : Obs) (s : State) : Option Trap × State :=
  if va.toNat % bs.length ≠ 0 then (some (Trap.align va), s)
  else match xlate i .store va o.wecc (applyObs i o s) with
    | (.error t, s1) => (some t, s1)
    | (.ok p, s1) =>
      match storeAt i p va bs o.ecc s1 with
      | (some e, s2) => (some (Trap.ofBus e true false va), s2)
      | (none, s2) => (none, watchAccess i true p bs.length s2)

/-! ### Bank-relative accesses (R54) -/

/-- The bank that a bank-relative form names: that of `BANK`, or the explicit one; none when the field is not
legal. -/
def bankSel (e : ElemState) (ra_ : BitVec 5) : Option Nat :=
  if ra_.toNat < 16 then (if ra_ = 0 then some (fld e.bank 3 0) else none) else some (ra_.toNat - 16)

/-- The place of a bank-relative access of `n` bytes. -/
def bankPlace (i n : Nat) (write : Bool) (k off : Nat) (s : State) : Except Trap Place :=
  let key := i * 16 + k
  let pa := bankAddr key + off
  if off % n ≠ 0 then .error (Trap.align (w32 pa))
  else if (s.bank key).world && !secNow (s.el i) then .error (Trap.access write 7 6 (w32 pa))
  else .ok { pa := pa, sec := secNow (s.el i), mt := 1 }

/-- A bank-relative load. -/
def loadBank (i n k off : Nat) (ecc : Ecc) (s : State) : Except Trap (List Byte) × State :=
  match bankPlace i n false k off s with
  | .error t => (.error t, s)
  | .ok p =>
    match memRead (elemMaster i p.sec) false ecc p.pa n s with
    | (.error e, s1) => (.error (Trap.ofBus e false false (w32 p.pa)), s1)
    | (.ok bs, s1) => (.ok bs, watchAccess i false p n s1)

/-- A bank-relative store. -/
def storeBank (i k off : Nat) (bs : List Byte) (ecc : Ecc) (s : State) : Option Trap × State :=
  match bankPlace i bs.length true k off s with
  | .error t => (some t, s)
  | .ok p =>
    match memWrite (elemMaster i p.sec) ecc p.pa bs s with
    | (some e, s1) => (some (Trap.ofBus e true false (w32 p.pa)), s1)
    | (none, s1) => (none, watchAccess i true p bs.length s1)

end Sys2Proof.Machine
end

