-- ==== Sys2Proof/Machine/LoadStore.lean ====
section
/-! DEFINITION. The loads, stores, reservations and `FENCE` (R52–R60). -/

namespace Sys2Proof.Machine

abbrev MemOutcome := Host.Outcome State Fault Refusal

/-- How a load widens its bytes (R52). -/
def widen (n : Nat) (signed : Bool) (bs : List Byte) : Word :=
  let v := ofBytes bs
  match signed, n with
  | true, 1 => (BitVec.ofNat 8 v).signExtend 32
  | true, 2 => (BitVec.ofNat 16 v).signExtend 32
  | _, _ => w32 v

/-- Writes general register `n` of the set that runs. -/
def putGr (i n : Nat) (v : Word) (s : State) : State := s.setRset i ((s.rset i).setGr n v)

/-- A load with the address `ra + imm`. -/
def loadBody (i : Nat) (ns : List (BitVec 5)) (rd ra n : Nat) (signed : Bool) (imm : Word) (o : Obs) (s : State) : Out :=
  if !regsOk i ns then .trap Trap.illegal s
  else match loadVa i n ((s.rset i).gr ra + imm) o s with
    | (.error t, s1) => .trap t s1
    | (.ok bs, s1) => .done (putGr i rd (widen n signed bs) s1)

/-- A post-increment load: `rd = ra` is illegal. -/
def loadPostBody (i : Nat) (rd ra : BitVec 5) (n : Nat) (signed : Bool) (imm : Word) (o : Obs) (s : State) : Out :=
  if !regsOk i [rd, ra] || rd = ra then .trap Trap.illegal s
  else
    let a := (s.rset i).gr ra.toNat
    match loadVa i n a o s with
    | (.error t, s1) => .trap t s1
    | (.ok bs, s1) => .done (putGr i ra.toNat (a + imm) (putGr i rd.toNat (widen n signed bs) s1))

/-- A store with the address `ra + imm`. -/
def storeBody (i : Nat) (ns : List (BitVec 5)) (rd ra n : Nat) (imm : Word) (o : Obs) (s : State) : Out :=
  if !regsOk i ns then .trap Trap.illegal s
  else match storeVa i ((s.rset i).gr ra + imm) (toBytes n ((s.rset i).gr rd).toNat) o s with
    | (some t, s1) => .trap t s1
    | (none, s1) => .done s1

/-- A post-increment store. -/
def storePostBody (i : Nat) (rd ra : BitVec 5) (n : Nat) (imm : Word) (o : Obs) (s : State) : Out :=
  if !regsOk i [rd, ra] then .trap Trap.illegal s
  else
    let a := (s.rset i).gr ra.toNat
    match storeVa i a (toBytes n ((s.rset i).gr rd.toNat).toNat) o s with
    | (some t, s1) => .trap t s1
    | (none, s1) => .done (putGr i ra.toNat (a + imm) s1)

/-- A bank-relative load; absent on the cores. -/
def loadKBody (i : Nat) (rd : BitVec 5) (sel : Option Nat) (n : Nat) (signed : Bool) (off : Nat) (o : Obs) (s : State) : Out :=
  match sel with
  | none => .trap Trap.illegal s
  | some k =>
    if !isEngine i || !regsOk i [rd] then .trap Trap.illegal s
    else match loadBank i n k off o.ecc s with
      | (.error t, s1) => .trap t s1
      | (.ok bs, s1) => .done (putGr i rd.toNat (widen n signed bs) s1)

/-- A bank-relative store; absent on the cores. -/
def storeKBody (i : Nat) (rd : BitVec 5) (sel : Option Nat) (n off : Nat) (o : Obs) (s : State) : Out :=
  match sel with
  | none => .trap Trap.illegal s
  | some k =>
    if !isEngine i || !regsOk i [rd] then .trap Trap.illegal s
    else match storeBank i k off (toBytes n ((s.rset i).gr rd.toNat).toNat) o.ecc s with
      | (some t, s1) => .trap t s1
      | (none, s1) => .done s1

/-- Runs a repeatable memory instruction. -/
def memInstr (e : Elem) (size : Nat) (body : Nat → State → Out) (s : State) : State :=
  runInstr (elemIdx e) { size := size, rep := true } false (body (elemIdx e)) s

/-- F32-I load. -/
def ldInstr (n : Nat) (signed : Bool) (e : Elem) (rd ra : BitVec 5) (imm : BitVec 14) (o : Obs) (s : State) : State :=
  memInstr e 4 (fun i => loadBody i [rd, ra] rd.toNat ra.toNat n signed (imm.signExtend 32) o) s
/-- F32-I post-increment load. -/
def ldPInstr (n : Nat) (signed : Bool) (e : Elem) (rd ra : BitVec 5) (imm : BitVec 14) (o : Obs) (s : State) : State :=
  memInstr e 4 (fun i => loadPostBody i rd ra n signed (imm.signExtend 32) o) s
/-- F32-I store. -/
def stInstr (n : Nat) (e : Elem) (rd ra : BitVec 5) (imm : BitVec 14) (o : Obs) (s : State) : State :=
  memInstr e 4 (fun i => storeBody i [rd, ra] rd.toNat ra.toNat n (imm.signExtend 32) o) s
/-- F32-I post-increment store. -/
def stPInstr (n : Nat) (e : Elem) (rd ra : BitVec 5) (imm : BitVec 14) (o : Obs) (s : State) : State :=
  memInstr e 4 (fun i => storePostBody i rd ra n (imm.signExtend 32) o) s
/-- F32-I bank-relative load. -/
def ldKInstr (n : Nat) (signed : Bool) (e : Elem) (rd ra : BitVec 5) (off : BitVec 12) (o : Obs) (s : State) : State :=
  memInstr e 4 (fun i s => loadKBody i rd (bankSel (s.el i) ra) n signed off.toNat o s) s
/-- F32-I bank-relative store. -/
def stKInstr (n : Nat) (e : Elem) (rd ra : BitVec 5) (off : BitVec 12) (o : Obs) (s : State) : State :=
  memInstr e 4 (fun i s => storeKBody i rd (bankSel (s.el i) ra) n off.toNat o s) s

/-! ### Loads and stores -/

def execLdb (e : Elem) (rd ra : BitVec 5) (imm : BitVec 14) (o : Obs) (s : State) : MemOutcome := .next (ldInstr 1 true e rd ra imm o s)
def execLdbu (e : Elem) (rd ra : BitVec 5) (imm : BitVec 14) (o : Obs) (s : State) : MemOutcome := .next (ldInstr 1 false e rd ra imm o s)
def execLdh (e : Elem) (rd ra : BitVec 5) (imm : BitVec 14) (o : Obs) (s : State) : MemOutcome := .next (ldInstr 2 true e rd ra imm o s)
def execLdhu (e : Elem) (rd ra : BitVec 5) (imm : BitVec 14) (o : Obs) (s : State) : MemOutcome := .next (ldInstr 2 false e rd ra imm o s)
def execLdw (e : Elem) (f : MemForm) (o : Obs) (s : State) : MemOutcome :=
  .next (match f with
    | .i32 rd ra imm => ldInstr 4 false e rd ra imm o s
    | .r16 rd rs => memInstr e 2 (fun i => loadBody i [] rd.toNat rs.toNat 4 false 0 o) s)
def execStb (e : Elem) (rd ra : BitVec 5) (imm : BitVec 14) (o : Obs) (s : State) : MemOutcome := .next (stInstr 1 e rd ra imm o s)
def execSth (e : Elem) (rd ra : BitVec 5) (imm : BitVec 14) (o : Obs) (s : State) : MemOutcome := .next (stInstr 2 e rd ra imm o s)
def execStw (e : Elem) (f : MemForm) (o : Obs) (s : State) : MemOutcome :=
  .next (match f with
    | .i32 rd ra imm => stInstr 4 e rd ra imm o s
    | .r16 rd rs => memInstr e 2 (fun i => storeBody i [] rd.toNat rs.toNat 4 0 o) s)
def execLdbP (e : Elem) (rd ra : BitVec 5) (imm : BitVec 14) (o : Obs) (s : State) : MemOutcome := .next (ldPInstr 1 true e rd ra imm o s)
def execLdbuP (e : Elem) (rd ra : BitVec 5) (imm : BitVec 14) (o : Obs) (s : State) : MemOutcome := .next (ldPInstr 1 false e rd ra imm o s)
def execLdhP (e : Elem) (rd ra : BitVec 5) (imm : BitVec 14) (o : Obs) (s : State) : MemOutcome := .next (ldPInstr 2 true e rd ra imm o s)
def execLdhuP (e : Elem) (rd ra : BitVec 5) (imm : BitVec 14) (o : Obs) (s : State) : MemOutcome := .next (ldPInstr 2 false e rd ra imm o s)
def execLdwP (e : Elem) (rd ra : BitVec 5) (imm : BitVec 14) (o : Obs) (s : State) : MemOutcome := .next (ldPInstr 4 false e rd ra imm o s)
def execStbP (e : Elem) (rd ra : BitVec 5) (imm : BitVec 14) (o : Obs) (s : State) : MemOutcome := .next (stPInstr 1 e rd ra imm o s)
def execSthP (e : Elem) (rd ra : BitVec 5) (imm : BitVec 14) (o : Obs) (s : State) : MemOutcome := .next (stPInstr 2 e rd ra imm o s)
def execStwP (e : Elem) (rd ra : BitVec 5) (imm : BitVec 14) (o : Obs) (s : State) : MemOutcome := .next (stPInstr 4 e rd ra imm o s)
def execLdbK (e : Elem) (rd ra : BitVec 5) (off : BitVec 12) (o : Obs) (s : State) : MemOutcome := .next (ldKInstr 1 true e rd ra off o s)
def execLdbuK (e : Elem) (rd ra : BitVec 5) (off : BitVec 12) (o : Obs) (s : State) : MemOutcome := .next (ldKInstr 1 false e rd ra off o s)
def execLdhK (e : Elem) (rd ra : BitVec 5) (off : BitVec 12) (o : Obs) (s : State) : MemOutcome := .next (ldKInstr 2 true e rd ra off o s)
def execLdhuK (e : Elem) (rd ra : BitVec 5) (off : BitVec 12) (o : Obs) (s : State) : MemOutcome := .next (ldKInstr 2 false e rd ra off o s)
/-- F16-K is a bank-relative form on engines alone; the same words are `LDW.SP` on the cores (R54, R55). -/
def execLdwK (e : Elem) (f : BankForm) (o : Obs) (s : State) : MemOutcome :=
  .next (match f with
    | .i32 rd ra off => ldKInstr 4 false e rd ra off o s
    | .k16 rd off9 => memInstr e 2 (fun i s =>
        loadKBody i (rd.setWidth 5) (some (fld (s.el i).bank 3 0)) 4 false (4 * off9.toNat) o s) s)
def execStbK (e : Elem) (rd ra : BitVec 5) (off : BitVec 12) (o : Obs) (s : State) : MemOutcome := .next (stKInstr 1 e rd ra off o s)
def execSthK (e : Elem) (rd ra : BitVec 5) (off : BitVec 12) (o : Obs) (s : State) : MemOutcome := .next (stKInstr 2 e rd ra off o s)
def execStwK (e : Elem) (f : BankForm) (o : Obs) (s : State) : MemOutcome :=
  .next (match f with
    | .i32 rd ra off => stKInstr 4 e rd ra off o s
    | .k16 rd off9 => memInstr e 2 (fun i s =>
        storeKBody i (rd.setWidth 5) (some (fld (s.el i).bank 3 0)) 4 (4 * off9.toNat) o s) s)

/-- The stack forms exist on the cores alone, and `sp` must be a multiple of 4 (R33, R55).  `EVA` of the alignment
exception is `sp` itself (DESIGN CHOICE, log entry 53). -/
def spBody (i : Nat) (body : State → Out) (s : State) : Out :=
  if isEngine i then .trap Trap.illegal s
  else if ((s.rset i).gr 14).toNat % 4 ≠ 0 then .trap (Trap.align ((s.rset i).gr 14)) s
  else body s
def execLdwSp (e : Elem) (rd : BitVec 4) (off9 : BitVec 9) (o : Obs) (s : State) : MemOutcome :=
  .next (memInstr e 2 (fun i => spBody i (loadBody i [] rd.toNat 14 4 false (w32 (4 * off9.toNat)) o)) s)
def execStwSp (e : Elem) (rd : BitVec 4) (off9 : BitVec 9) (o : Obs) (s : State) : MemOutcome :=
  .next (memInstr e 2 (fun i => spBody i (storeBody i [] rd.toNat 14 4 (w32 (4 * off9.toNat)) o)) s)

/-! ### Reservations (R57–R60) -/

/-- A reservation can stand on the memory at an address. -/
def reservable (s : State) (pa : Nat) : Bool :=
  match regionOf s pa with
  | .ctxmem _ | .isl _ | .sram | .ddr | .tcmAc _ | .tcmSv => true
  | _ => false

/-- `LDX` of the word at `va`: earlier stores of the element to the granule arrive first, so that none of them can
clear the reservation. -/
def ldxAt (i : Nat) (va : Word) (o : Obs) (s : State) : Except Trap Word × State :=
  if va.toNat % 4 ≠ 0 then (.error (Trap.align va), s)
  else match xlate i .load va o.wecc (applyObs i o s) with
    | (.error t, s1) => (.error t, s1)
    | (.ok p, s1) =>
      if !reservable s1 p.pa then (.error (Trap.access false 7 9 va), s1)
      else match loadAt i 4 p o.ecc (drainFor i (p.pa / 32 * 32) 32 s1) with
        | (.error e, s2) => (.error (Trap.ofBus e false false va), s2)
        | (.ok bs, s2) =>
          (.ok (w32 (ofBytes bs)), watchAccess i false p 4
            (s2.setEl i { s2.el i with resv := some { granule := p.pa / 32, word := p.pa / 4 } }))

def ldxBody (i : Nat) (rd ra : BitVec 5) (o : Obs) (s : State) : Out :=
  if !regsOk i [rd, ra] then .trap Trap.illegal s
  else match ldxAt i ((s.rset i).gr ra.toNat) o s with
    | (.error t, s1) => .trap t s1
    | (.ok v, s1) => .done (putGr i rd.toNat v s1)

/-- The store of a successful `STX`, which is never posted: it acts at its target at once; that of a second copy over
Twill is discarded (R59, R249). -/
def stxStore (i : Nat) (p : Place) (bs : List Byte) (ecc : Ecc) (s : State) : Option BusErr × State :=
  if isDirect s i p.pa then memWrite (elemMaster i p.sec) ecc p.pa bs s
  else if isCached s i p then cacheWrite i p bs ecc s
  else if isSecondCopy s i then (none, s)
  else memWrite (elemMaster i p.sec) ecc p.pa bs (meetStore i p.pa s)

/-- `STX` to `va`: 0 stored, 1 not.  The element's own earlier stores to the granule arrive first, and clear the
reservation (R53, R58). -/
def stxAt (i : Nat) (va v : Word) (o : Obs) (s : State) : Except Trap Word × State :=
  if va.toNat % 4 ≠ 0 then (.error (Trap.align va), s)
  else match xlate i .store va o.wecc (applyObs i o s) with
    | (.error t, s1) => (.error t, s1)
    | (.ok p, s1) =>
      if !reservable s1 p.pa then (.error (Trap.access true 7 9 va), s1)
      else
        let s2 := drainFor i (p.pa / 32 * 32) 32 s1
        let held : Bool := match (s2.el i).resv with | some r => r.word = p.pa / 4 | none => false
        let s3 := s2.setEl i { s2.el i with resv := none }
        if !held then (.ok 1, s3)
        else match stxStore i p (toBytes 4 v.toNat) o.ecc s3 with
          | (some e, s4) => (.error (Trap.ofBus e true false va), s4)
          | (none, s4) => (.ok 0, watchAccess i true p 4 s4)

def stxBody (i : Nat) (rd ra rb : BitVec 5) (o : Obs) (s : State) : Out :=
  if !regsOk i [rd, ra, rb] || rd = ra || rd = rb then .trap Trap.illegal s
  else match stxAt i ((s.rset i).gr ra.toNat) ((s.rset i).gr rb.toNat) o s with
    | (.error t, s1) => .trap t s1
    | (.ok v, s1) => .done (putGr i rd.toNat v s1)

def execLdx (e : Elem) (rd ra : BitVec 5) (o : Obs) (s : State) : MemOutcome :=
  .next (runInstr (elemIdx e) {} false (ldxBody (elemIdx e) rd ra o) s)
def execStx (e : Elem) (rd ra rb : BitVec 5) (o : Obs) (s : State) : MemOutcome :=
  .next (runInstr (elemIdx e) {} false (stxBody (elemIdx e) rd ra rb o) s)
/-- `FENCE` (R53): every earlier store of the element is acknowledged before it completes. -/
def execFence (e : Elem) (s : State) : MemOutcome :=
  .next (runInstr (elemIdx e) {} false
    (fun s => .done (drainAll (elemIdx e) (s.el (elemIdx e)).wq.length s)) s)

/-! ### The answers to posted stores (R53, R94) -/

/-- `TWILL_STORE_ACK`: posted store number `k` arrives and is acknowledged, where the order of R53 and R340 lets
it. -/
def storeAck (i k : Nat) (s : State) : State :=
  if mayLand s (s.el i).wq k then takeImprecise i (landNth i k s) else s
/-- `IMPRECISE_BUS_ERROR`: posted store number `k` is answered with an error and changes nothing. -/
def storeError (i k : Nat) (ecc : Bool) (s : State) : State :=
  match (s.el i).wq[k]? with
  | none => s
  | some p =>
    if !mayLand s (s.el i).wq k then s
    else takeImprecise i (noteError i p (if ecc then .ecc else .bus) (s.setEl i { s.el i with wq := (s.el i).wq.eraseIdx k }))

def execTwillStoreAck (e : Elem) (i : Nat) (s : State) : MemOutcome := .next (storeAck (elemIdx e) i s)
def execImpreciseBusError (e : Elem) (i : Nat) (ecc : Bool) (s : State) : MemOutcome := .next (storeError (elemIdx e) i ecc s)

end Sys2Proof.Machine
end

