-- ==== Sys2Proof/Machine/Control.lean ====
section
/-! DEFINITION. Branches, calls and repeats (R51, R61–R67), the special registers (R34–R36), the system instructions
(R96, R101), interrupts (R95), undefined encodings (R42), fetch faults (R41), and the rows of the break and
watch units (R483). -/

namespace Sys2Proof.Machine

abbrev CtlOutcome := Host.Outcome State Fault Refusal

/-! ### Branches and jumps (R46, R51) -/

/-- The target of a branch whose offset counts halfwords. -/
def branchTarget (s : State) (i : Nat) (off : Word) : Word := instrAddr s i + off + off

def bccBody (i : Nat) (cond : BitVec 4) (off : Word) (s : State) : Out :=
  if cond = 0xF then .trap Trap.illegal s
  else if condHolds (s.rset i).status cond.toNat then .jump (branchTarget s i off) s
  else .done s

def execBcc (e : Elem) (f : BccForm) (s : State) : CtlOutcome :=
  .next (match f with
    | .b16 c off => runInstr (elemIdx e) { size := 2 } false (bccBody (elemIdx e) c (off.signExtend 32)) s
    | .b32 c off => runInstr (elemIdx e) {} false (bccBody (elemIdx e) c (off.signExtend 32)) s)
def execB (e : Elem) (off : BitVec 24) (s : State) : CtlOutcome :=
  .next (runInstr (elemIdx e) {} false
    (fun s => .jump (branchTarget s (elemIdx e) (off.signExtend 32)) s) s)
def execBl (e : Elem) (off : BitVec 24) (s : State) : CtlOutcome :=
  .next (runInstr (elemIdx e) {} false (fun s =>
    .jump (branchTarget s (elemIdx e) (off.signExtend 32)) (putGr (elemIdx e) 15 (instrAddr s (elemIdx e) + 4) s)) s)

/-- A jump to a register; an odd target is misaligned and the instruction has no effect (R41). -/
def jumpBody (i : Nat) (rs : BitVec 4) (link : Bool) (s : State) : Out :=
  let t := (s.rset i).gr rs.toNat
  if tb t 0 then .trap (Trap.align t) s
  else .jump t (if link then putGr i 15 (instrAddr s i + 2) s else s)

def execJmpr (e : Elem) (rs : BitVec 4) (s : State) : CtlOutcome :=
  .next (runInstr (elemIdx e) { size := 2 } false (jumpBody (elemIdx e) rs false) s)
def execCallr (e : Elem) (rs : BitVec 4) (s : State) : CtlOutcome :=
  .next (runInstr (elemIdx e) { size := 2 } false (jumpBody (elemIdx e) rs true) s)

/-! ### Register-mask call and return (R61–R63) -/

/-- The registers that a mask lists, in ascending order. -/
def maskRegs (H : Bool) (mask : Nat) : List Nat :=
  ((List.range 16).filter (fun k => mask.testBit k)).map (fun k => 16 * b2n H + k)

/-- Stores words from an address upwards; the first that faults leaves those below it stored. -/
def storeWords (i : Nat) : Word → List Word → List Obs → State → Option Trap × State
  | _, [], _, s => (none, s)
  | a, v :: vs, os, s =>
    match storeVa i a (toBytes 4 v.toNat) (os.headD {}) s with
    | (some t, s1) => (some t, s1)
    | (none, s1) => storeWords i (a + 4) vs os.tail s1

/-- Loads words from an address upwards. -/
def loadWords (i : Nat) : Nat → Word → List Obs → State → Except Trap (List Word) × State
  | 0, _, _, s => (.ok [], s)
  | n + 1, a, os, s =>
    match loadVa i 4 a (os.headD {}) s with
    | (.error t, s1) => (.error t, s1)
    | (.ok bs, s1) =>
      match loadWords i n (a + 4) os.tail s1 with
      | (.error t, s2) => (.error t, s2)
      | (.ok l, s2) => (.ok (w32 (ofBytes bs) :: l), s2)

def callmBody (i : Nat) (ra : BitVec 5) (H : Bool) (mask : BitVec 16) (os : List Obs) (s : State) : Out :=
  let r := s.rset i
  let sp := r.gr 14
  let target := r.gr ra.toNat
  if !regsOk i [ra] || (H && isEngine i) || (!H && 0x4000 ≤ mask.toNat) then .trap Trap.illegal s
  else if sp.toNat % 4 ≠ 0 then .trap (Trap.align sp) s
  else if tb target 0 then .trap (Trap.align target) s
  else
    let regs := maskRegs H mask.toNat
    let a := sp - w32 (4 * (regs.length + 2))
    let frame := w32 (b2n H * 65536 + mask.toNat) :: r.gr 15 :: regs.map r.gr
    match storeWords i a frame os s with
    | (some t, s1) => .trap t s1
    | (none, s1) => .jump target (putGr i 15 (instrAddr s1 i + 4) (putGr i 14 a s1))

def retmBody (i : Nat) (os : List Obs) (s : State) : Out :=
  let sp := (s.rset i).gr 14
  let target := (s.rset i).gr 15
  if sp.toNat % 4 ≠ 0 then .trap (Trap.align sp) s
  else if tb target 0 then .trap (Trap.align target) s
  else match loadVa i 4 sp (os.headD {}) s with
    | (.error t, s1) => .trap t s1
    | (.ok bs, s1) =>
      let fw := w32 (ofBytes bs)
      let H := tb fw 16
      if fld fw 31 17 ≠ 0 || (!H && fld fw 15 14 ≠ 0) || (H && isEngine i) then .trap { code := 7 } s1
      else
        let regs := maskRegs H (fld fw 15 0)
        match loadWords i (regs.length + 1) (sp + 4) os.tail s1 with
        | (.error t, s2) => .trap t s2
        | (.ok ws, s2) =>
          let s3 := (regs.zip ws.tail).foldl (fun s p => putGr i p.1 p.2 s) s2
          .jump target (putGr i 14 (sp + w32 (4 * (regs.length + 2))) (putGr i 15 (ws.headD 0) s3))

def execCallm (e : Elem) (ra : BitVec 5) (H : Bool) (mask : BitVec 16) (os : List Obs) (s : State) : CtlOutcome :=
  .next (runInstr (elemIdx e) {} false (callmBody (elemIdx e) ra H mask os) s)
def execRetm (e : Elem) (os : List Obs) (s : State) : CtlOutcome :=
  .next (runInstr (elemIdx e) {} false (retmBody (elemIdx e) os) s)

/-! ### Special registers (R34–R36, R71, R100) -/

/-- The value that `MFS` reads: that in use of a register whose write no `SYNC` has completed. -/
def mfsValue (i n : Nat) (s : State) : Word :=
  let e := s.el i
  if n = 4 || n = 6 || n = 7 || 0x20 ≤ n then e.seen n else sregGet e e.cur n

def mfsBody (i : Nat) (rd : BitVec 5) (n : Nat) (s : State) : Out :=
  if !regsOk i [rd] || !sregHas i n then .trap Trap.illegal s
  else if sregPriv n && !stPriv (s.rset i) then .trap Trap.priv s
  else .done (putGr i rd.toNat (mfsValue i n s) s)

def mtsBody (i n : Nat) (ra : BitVec 5) (s : State) : Out :=
  if !regsOk i [ra] || !sregHas i n then .trap Trap.illegal s
  else if sregPriv n && !stPriv (s.rset i) then .trap Trap.priv s
  else .done (s.setEl i (mtsWrite i n ((s.rset i).gr ra.toNat) (s.el i)))

def execMfs (e : Elem) (rd : BitVec 5) (sreg : BitVec 8) (s : State) : CtlOutcome :=
  .next (runInstr (elemIdx e) {} false (mfsBody (elemIdx e) rd sreg.toNat) s)
def execMts (e : Elem) (sreg : BitVec 8) (ra : BitVec 5) (s : State) : CtlOutcome :=
  .next (runInstr (elemIdx e) {} (sreg.toNat = 0) (mtsBody (elemIdx e) sreg.toNat ra) s)

/-! ### Repeat prefixes (R64, R65) -/

/-- A prefix with its count; the repeated instruction comes next, with `pc` at the prefix. -/
def repBody (i : Nat) (u : Bool) (count : RegSet → Nat) (s : State) : Out :=
  let r := s.rset i
  .done (s.setRset i { r with status := setFld (setBit (setBit r.status 13 true) 14 u) 31 16 (count r),
                              repSaved := some r.status })

def execRepU (e : Elem) (n : BitVec 6) (s : State) : CtlOutcome :=
  .next (runInstr (elemIdx e) { size := 2, prefix_ := true } false (repBody (elemIdx e) true (fun _ => n.toNat + 1)) s)
def execRepIImm (e : Elem) (n : BitVec 8) (s : State) : CtlOutcome :=
  .next (runInstr (elemIdx e) { size := 2, prefix_ := true } false (repBody (elemIdx e) false (fun _ => n.toNat + 1)) s)
def execRepIReg (e : Elem) (rs : BitVec 4) (s : State) : CtlOutcome :=
  .next (runInstr (elemIdx e) { size := 2, prefix_ := true } false
    (repBody (elemIdx e) false (fun r => fld (r.gr rs.toNat) 15 0)) s)

/-! ### System instructions (R96, R101) -/

/-- `SYNC`: every earlier mode change takes effect. -/
def execSync (e : Elem) (s : State) : CtlOutcome :=
  .next (runInstr (elemIdx e) {} false
    (fun s => .done (s.setEl (elemIdx e) ((s.el (elemIdx e)).sync (elemIdx e)))) s)
def execReth (e : Elem) (s : State) : CtlOutcome :=
  .next (runInstr (elemIdx e) {} false (returnExc (elemIdx e)) s)

/-- The target of `INTC` that serves a core. -/
abbrev intcOf (i : Nat) : Nat := if i = 36 then 0 else i - 31

/-- `WFI`: illegal on engines; a core goes on at once when an interrupt is pending. -/
def wfiBody (i : Nat) (s : State) : Out :=
  if isEngine i then .trap Trap.illegal s
  else if intcPresents s (intcOf i) then .done s
  else .done (s.setEl i { s.el i with wfi := true })
def execWfi (e : Elem) (s : State) : CtlOutcome := .next (runInstr (elemIdx e) {} false (wfiBody (elemIdx e)) s)

/-- `BRK`: a halt with `BRKEN` = 1 and the grant held, with `pc` at the `BRK`, else the breakpoint exception (R96,
R477). -/
def brkBody (i : Nat) (s : State) : Out :=
  if tb (s.rg (ra .dbg (Dbg.EL_CTRL (rcNum i)))) 6 then
    if granted s i then .hold (wantHalt i 3 s)
    else .trap { code := 9, next := true } (s.setRgBit (ra .dbg (Dbg.EL_STAT (rcNum i))) 1 true)
  else .trap { code := 9, next := true } s
def execBrk (e : Elem) (s : State) : CtlOutcome := .next (runInstr (elemIdx e) {} false (brkBody (elemIdx e)) s)
def execSys (e : Elem) (imm : BitVec 8) (s : State) : CtlOutcome :=
  .next (runInstr (elemIdx e) {} false (.trap { code := 8, sub := imm.toNat, next := true }) s)

/-- An undefined encoding (R42). -/
def execIllegalInstruction (e : Elem) (long : Bool) (s : State) : CtlOutcome :=
  .next (runInstr (elemIdx e) { size := if long then 4 else 2 } false (.trap Trap.illegal) s)

/-! ### Fetch (R41, R93) -/

/-- Memory whose row in the address map allows reads and writes and no execution (R335, log entry 66). -/
def noExec (s : State) (pa : Nat) : Bool :=
  match regionOf s pa with
  | .mark | .ptab | .qctl | .backup => true
  | _ => false

/-- What a fetch at `va` raises, if anything. -/
def fetchTrap (i : Nat) (va : Word) (o : Obs) (s : State) : Option Trap × State :=
  if tb va 0 then (some (Trap.align va), s)
  else match xlate i .fetch va o.wecc (applyObs i o s) with
    | (.error t, s1) => (some t, s1)
    | (.ok p, s1) =>
      if cacheError s1 p || isDevice s1 p.pa || noExec s1 p.pa then (some { code := 5, eva := va }, s1)
      else
        let (r, s2) := if isCached s1 i p then cacheRead i p 2 true o.ecc s1
          else memRead (elemMaster i p.sec) true o.ecc p.pa 2 s1
        match r with
        | .error e => (some (Trap.ofBus e false false va), s2)
        | .ok _ => (none, s2)

/-- `INSTRUCTION_FETCH_FAULT`: where the fetch of the next instruction or of its second halfword faults, the exception
is taken before any instruction is known; where it does not, nothing happens (log entry 5). -/
def fetchFault (i : Nat) (second : Bool) (o : Obs) (s0 : State) : State :=
  let s := takeImprecise i (wfiWake i s0)
  if !awake s i || inWaits s i || (s.el i).wfi then s
  else
    let s1 := openView i s
    match fetchTrap i (instrAddr s1 i + (if second then 2 else 0)) o s1 with
    | (some t, s2) => finish i {} false (.trap t s2)
    | (none, _) => s
def execInstructionFetchFault (e : Elem) (second : Bool) (o : Obs) (s : State) : CtlOutcome :=
  .next (fetchFault (elemIdx e) second o s)

/-! ### Interrupts (R95) -/

/-- A core takes a pending interrupt at the boundary where it stands: not inside `REP.U`, nor in a step unless
`STEPIRQ` lets it (R66, R67, R479). -/
def interruptEntry (i : Nat) (s0 : State) : State :=
  let s := takeImprecise i (wfiWake i s0)
  let r := s.rset i
  let stepping := s.dbg.steps.contains i && !tb (s.rg (ra .dbg (Dbg.EL_CTRL (rcNum i)))) 5
  if isEngine i || !awake s i || (s.el i).wfi || !tb r.status 10 || stHnd r || !intcPresents s (intcOf i)
      || (repAct r && repU r) || stepping then s
  else boundary i true (enterExc i { code := 0x10 } r.pc true s)
def execInterruptEntry (e : Elem) (s : State) : CtlOutcome := .next (interruptEntry (elemIdx e) s)

/-! ### Break and watch units (R483) -/

/-- `PATCH_BREAK`: the fetch of the instruction that the element is about to execute meets the break units. -/
def patchBreak (i : Nat) (s : State) : State :=
  if !awake s i || inWaits s i || (s.el i).wfi then s
  else
    let s1 := openView i s
    match xlate i .fetch (instrAddr s1 i) none s1 with
    | (.error _, _) => s
    | (.ok p, s2) => takeHalts 38 (clearFired (breakFetch i p s2))
def execPatchBreak (e : Elem) (s : State) : CtlOutcome := .next (patchBreak (elemIdx e) s)

/-- `PATCH_WATCH`: an access of the element to the word at `pa` meets the watch units; the element stands at the
boundary after it. -/
def patchWatch (i : Nat) (pa : BitVec 40) (store_ : Bool) (s : State) : State :=
  if !awake s i then s
  else
    let sec := i = 36 || secNow (s.el i)
    takeHalts 38 (clearFired (watchAccess i store_ { pa := pa.toNat / 4 * 4, sec := sec, mt := 1 } 4 s))
def execPatchWatch (e : Elem) (pa : BitVec 40) (store : Bool) (s : State) : CtlOutcome :=
  .next (patchWatch (elemIdx e) pa store s)

end Sys2Proof.Machine
end

