-- ==== Sys2Proof/Machine/LoopExt.lean ====
section
/-! DEFINITION. The fixed-point loop extensions (R70–R79, R88), on loop engines alone: exact integer arithmetic,
narrowed where the manual says so. -/

namespace Sys2Proof.Machine

abbrev ExtOutcome := Host.Outcome State Fault Refusal

/-! ### Arithmetic (R70) -/

/-- `sat16(x)`. -/
def sat16 (x : Int) : Int := clampI x (-32768) 32767
/-- `sat16` clamps, which sets `Q`. -/
def sat16Q (x : Int) : Bool := sat16 x ≠ x
/-- The first value of a pair, signed. -/
abbrev pLo (w : Word) : Int := sext w.toNat 16
/-- The second value of a pair, signed. -/
abbrev pHi (w : Word) : Int := sext (w.toNat / 65536) 16
/-- A pair from its first and second value. -/
def pair (lo hi : Int) : Word := w32 (wrap hi 16 * 65536 + wrap lo 16)

/-- The integer square root: bits are tried from bit `n - 1` down. -/
def isqrtFrom (x : Nat) : Nat → Nat → Nat
  | 0, r => r
  | n + 1, r => isqrtFrom x n (if (r + 2 ^ n) * (r + 2 ^ n) ≤ x then r + 2 ^ n else r)
/-- `floor(sqrt(x))` for x below 2^36. -/
def isqrt (x : Nat) : Nat := isqrtFrom x 18 0
/-- `ceil(sqrt(x))`. -/
def csqrt (x : Nat) : Nat := let r := isqrt x; if r * r = x then r else r + 1

/-! ### Sine and cosine (R74) -/

/-- π × 2^60, rounded. -/
def piFix : Int := 3622009729038561421
/-- The sum of `n` further terms of a Taylor series at scale 2^60: `t` is the last term, `k` its index, `d` the first
factor of the next denominator. -/
def taylor (x2 : Int) : Nat → Int → Nat → Int → Int
  | 0, _, _, acc => acc
  | n + 1, t, d, acc =>
    let t' := -((t * x2 / 2 ^ 60) / ((d : Int) * (d + 1)))
    taylor x2 n t' (d + 2) (acc + t')
/-- The rounded cosine and sine of an angle in the first quadrant (0 to 16383). -/
def quadrant (r : Nat) : Int × Int :=
  let x := (r : Int) * piFix / 32768
  let x2 := x * x / 2 ^ 60
  let f (v : Int) : Int := (2 * 32767 * v + 2 ^ 60) / 2 ^ 61
  (f (taylor x2 10 (2 ^ 60) 1 (2 ^ 60)), f (taylor x2 10 x 2 x))
/-- The cosine and sine of an angle of 65,536 to the turn, each × 32767 and rounded to nearest. -/
def sinCos (th : Nat) : Int × Int :=
  let (c, s) := quadrant (th % 16384)
  match th / 16384 % 4 with
  | 0 => (c, s)
  | 1 => (-s, c)
  | 2 => (-c, -s)
  | _ => (s, -c)

/-! ### The extensions on values -/

/-- `CLARKE` (R73). -/
def clarkeOf (a : Word) : AluRes :=
  let y := rndI ((pLo a + 2 * pHi a) * 0x49E7) 15
  { val := pair (pLo a) (sat16 y), q := sat16Q y }
/-- `SINCOS` (R74). -/
def sincosOf (a : Word) : AluRes := let (c, s) := sinCos (fld a 15 0); { val := pair c s }
/-- `PARK` (R74). -/
def parkOf (a b : Word) : AluRes :=
  let (c, s) := sinCos (fld b 15 0)
  let d := rndI (pLo a * c + pHi a * s) 15
  let q := rndI (pHi a * c - pLo a * s) 15
  { val := pair (sat16 d) (sat16 q), q := sat16Q d || sat16Q q }
/-- `IPARK` (R74). -/
def iparkOf (a b : Word) : AluRes :=
  let (c, s) := sinCos (fld b 15 0)
  let x := rndI (pLo a * c - pHi a * s) 15
  let y := rndI (pLo a * s + pHi a * c) 15
  { val := pair (sat16 x) (sat16 y), q := sat16Q x || sat16Q y }
/-- `LIMV` (R77). -/
def limvOf (a b : Word) : AluRes :=
  let x := pLo a
  let y := pHi a
  let L : Int := fld b 15 0
  let m := (x * x + y * y).toNat
  if (m : Int) > L * L then
    let r : Int := csqrt m
    let x1 := (x * L).tdiv r
    let y1 := (y * L).tdiv r
    { val := pair x1 y1, q := x1 ≠ x || y1 ≠ y }
  else { val := a }
/-- `LIMV.D` (R77). -/
def limvDOf (a b : Word) : AluRes :=
  let L : Int := fld b 15 0
  let x1 := clampI (pLo a) (-L) L
  let ym : Int := isqrt (L * L - x1 * x1).toNat
  let y1 := clampI (pHi a) (-ym) ym
  { val := pair x1 y1, q := x1 ≠ pLo a || y1 ≠ pHi a }

/-- One step of a `PI` regulator (R75) on halves and gains: the output, the accumulator and `Q`. -/
def piStep (ref meas : Int) (kp ki : Nat) (acc : DWord) : Int × DWord × Bool :=
  let e0 := ref - meas
  let e := sat16 e0
  let i := clampI (acc.toInt + e * ki * 16) (-2147483648) 2147483647
  let u := e * kp * 16 + i
  let (out, q, sat) : Int × Bool × Int :=
    if u > 2147483647 then (32767, true, 1)
    else if u < -2147483648 then (-32768, true, -1)
    else (sat16 (rndI u 16), sat16Q (rndI u 16), 0)
  (out, if sat = 0 || e.sign ≠ sat then BitVec.ofInt 64 i else acc, q || sat16Q e0)

/-- Replaces half `hi` of a register. -/
def putHalf (w : Word) (hi : Bool) (v : Int) : Word := if hi then setFld w 31 16 (wrap v 16) else setFld w 15 0 (wrap v 16)

/-- The edges of one phase (R78): the register value and `Q`. -/
def svmPhase (pf : Nat) (vb : Nat) (v o : Int) : Word × Bool :=
  let t := (pf / 2 : Nat) + 2 * (pf : Int) * (v + o) / vb
  let tc := clampI t 0 pf
  let on := ((pf : Int) - tc) / 2
  let off := on + tc
  (w32 ((min off 65535).toNat * 65536 + (min on 65535).toNat), tc ≠ t || on > 65535 || off > 65535)
/-- `SVM` (R78): the three registers and `Q`. -/
def svmOf (a b : Word) : Word × Word × Word × Bool :=
  let vb := max (fld b 15 0) 0x400
  let pf := 32 * fld b 31 16
  let va := pLo a
  let vb_ := rndI (-(pLo a) * 16384 + pHi a * 0x6EDA) 15
  let vc := rndI (-(pLo a) * 16384 - pHi a * 0x6EDA) 15
  let o := -((max va (max vb_ vc) + min va (min vb_ vc)) / 2)
  let x := svmPhase pf vb va o
  let y := svmPhase pf vb vb_ o
  let z := svmPhase pf vb vc o
  (x.1, y.1, z.1, x.2 || y.2 || z.2)

/-! ### Bodies -/

/-- A loop extension exists on engines alone and its register fields are legal (R42, R72). -/
def extOk (i : Nat) (ns : List (BitVec 5)) : Bool := isEngine i && regsOk i ns

/-- An extension that writes rd from ra and rb; `Q` is set and no flag changes. -/
def extInstr (f : Word → Word → AluRes) (e : Elem) (rd ra rb : BitVec 5) (s : State) : State :=
  runInstr (elemIdx e) { rep := true } false (fun s =>
    if !isEngine (elemIdx e) then .trap Trap.illegal s
    else regOp (elemIdx e) [rd, ra, rb] (some rd.toNat) false (fun r => f (r.gr ra.toNat) (r.gr rb.toNat)) s) s

/-- `PI.D` (`hi` false) and `PI.Q`. -/
def piBody (i : Nat) (hi : Bool) (rd ra rb : BitVec 5) (s : State) : Out :=
  if !extOk i [rd, ra, rb] then .trap Trap.illegal s
  else
    let r := s.rset i
    let half (w : Word) : Int := if hi then pHi w else pLo w
    let k := r.gr rb.toNat
    let (out, acc, q) := piStep (half (r.gr rd.toNat)) (half (r.gr ra.toNat)) (fld k 15 0) (fld k 31 16)
      (if hi then r.acc1 else r.acc0)
    let r1 := r.setGr rd.toNat (putHalf (r.gr rd.toNat) hi out)
    let r2 := if hi then { r1 with acc1 := acc } else { r1 with acc0 := acc }
    .done (s.setRset i { r2 with status := setQ r.status q })

/-- `SVM`: rd of 14 or 15 is illegal; rd, rd + 1 and rd + 2 are written. -/
def svmBody (i : Nat) (rd ra rb : BitVec 5) (s : State) : Out :=
  if !extOk i [rd, ra, rb] || 14 ≤ rd.toNat then .trap Trap.illegal s
  else
    let r := s.rset i
    let (x, y, z, q) := svmOf (r.gr ra.toNat) (r.gr rb.toNat)
    let r1 := ((r.setGr rd.toNat x).setGr (rd.toNat + 1) y).setGr (rd.toNat + 2) z
    .done (s.setRset i { r1 with status := setQ r.status q })

/-! ### `VMAC` (R79, R88) -/

/-- Where the terms `k` to `n - 1` of one operand lie; each must be in own context or island memory. -/
def vmacPlaces (i : Nat) (a : Word) (ks : List Nat) (s : State) : Except Trap (List Place) :=
  ks.foldr (fun k r =>
    let va := a + w32 (2 * k)
    match xlateEngine (s.el i) .load va s with
    | .error t => .error t
    | .ok p => if isDirect s i p.pa then r.map (p :: ·) else .error (Trap.access false 7 0xA va)) (.ok [])

/-- One term: the accumulator, `Q` and the state; none when an operand's memory word fails. -/
def vmacTerm (i : Nat) (x y : Place) (ecc : Ecc) (va vb : Word) (acc : DWord) (s : State) :
    Except Trap (DWord × Bool) × State :=
  match memRead (elemMaster i x.sec) false ecc x.pa 2 s with
  | (.error e, s1) => (.error (Trap.ofBus e false false va), s1)
  | (.ok bx, s1) =>
    match memRead (elemMaster i y.sec) false .clean y.pa 2 s1 with
    | (.error e, s2) => (.error (Trap.ofBus e false false vb), s2)
    | (.ok by_, s2) =>
      let t := acc.toInt + sext (ofBytes bx) 16 * sext (ofBytes by_) 16
      let c := clampI t (-9223372036854775808) 9223372036854775807
      (.ok (BitVec.ofInt 64 c, c ≠ t), watchAccess i false y 2 (watchAccess i false x 2 s2))

/-- How the terms of a `VMAC` end: all done, or stopped before term `k`, with the exception if one stopped it. -/
structure VmacEnd where
  acc : DWord
  q : Bool
  at_ : Nat
  trap : Option Trap := none
  stopped : Bool := false
  deriving DecidableEq, Repr

/-- The terms of a `VMAC` in order. -/
def vmacTerms (i : Nat) (stop : VmacStop) (a b : Word) : List (Nat × Place × Place) → DWord → Bool → Nat → State → VmacEnd × State
  | [], acc, q, n, s => ({ acc := acc, q := q, at_ := n }, s)
  | (k, x, y) :: rest, acc, q, n, s =>
    let here : Bool := match stop with | .stopped j => j.val ≤ k | _ => false
    if here then ({ acc := acc, q := q, at_ := k, stopped := true }, s)
    else
      let ecc : Ecc := match stop with | .ecc j => if j.val = k then .double else .clean | _ => .clean
      match vmacTerm i x y ecc (a + w32 (2 * k)) (b + w32 (2 * k)) acc s with
      | (.error t, s1) => ({ acc := acc, q := q, at_ := k, trap := some t }, s1)
      | (.ok (acc1, q1), s1) => vmacTerms i stop a b rest acc1 (q || q1) n s1

/-- The first term of a `VMAC`: `INDEX` when it is the first instruction after a return or a resumption and
`PROGRESS` records a `VMAC`. -/
def vmacFirst (r : RegSet) : Nat :=
  if r.progArm && tb r.progress 31 && fld r.progress 23 16 = 1 then fld r.progress 5 0 else 0

/-- `PROGRESS` of a `VMAC` stopped after `k` terms (R88). -/
def vmacProgress (k : Nat) : Word := w32 (2 ^ 31 + 65536 + k)

/-- `VMAC`.  One that resumes and meets `ALIGN` or `ACCESS` stays stopped after the terms it has done (R88).  Where
both operands have the same fault, that of ra is reported (DESIGN CHOICE, log entry 53). -/
def vmacBody (i n : Nat) (ra rb : BitVec 5) (S : Bool) (stop : VmacStop) (s0 : State) : Out :=
  let r0 := s0.rset i
  let s := if r0.progArm then s0.setRset i { r0 with progArm := false, progress := 0 } else s0
  if !extOk i [ra, rb] then .trap Trap.illegal s
  else
    let first := vmacFirst r0
    let kept := if first = 0 then s else s.setRset i { s.rset i with progress := vmacProgress first }
    let a := r0.gr ra.toNat
    let b := r0.gr rb.toNat
    if tb a 0 then .trap (Trap.align a) kept
    else if tb b 0 then .trap (Trap.align b) kept
    else
      let ks := (List.range n).filter (fun k => first ≤ k)
      match vmacPlaces i a ks s, vmacPlaces i b ks s with
      | .error t, _ => .trap t kept
      | _, .error t => .trap t kept
      | .ok xs, .ok ys =>
        let (x, s1) := vmacTerms i stop a b (ks.zip (xs.zip ys)) (if S then r0.acc1 else r0.acc0) false n s
        let r := s1.rset i
        let r1 := if S then { r with acc1 := x.acc } else { r with acc0 := x.acc }
        let r2 := { r1 with status := setQ r.status x.q }
        let part (arm : Bool) : RegSet := { r2 with progress := vmacProgress x.at_, progArm := arm }
        match x.trap with
        | some t => .trap t (s1.setRset i (part false))
        | none => if x.stopped then .hold (s1.setRset i (part true)) else .done (s1.setRset i r2)

/-! ### Commands -/

def execClarke (e : Elem) (rd ra : BitVec 5) (s : State) : ExtOutcome := .next (extInstr (fun a _ => clarkeOf a) e rd ra 0 s)
def execSincos (e : Elem) (rd ra : BitVec 5) (s : State) : ExtOutcome := .next (extInstr (fun a _ => sincosOf a) e rd ra 0 s)
def execPark (e : Elem) (rd ra rb : BitVec 5) (s : State) : ExtOutcome := .next (extInstr parkOf e rd ra rb s)
def execIpark (e : Elem) (rd ra rb : BitVec 5) (s : State) : ExtOutcome := .next (extInstr iparkOf e rd ra rb s)
def execLimv (e : Elem) (rd ra rb : BitVec 5) (s : State) : ExtOutcome := .next (extInstr limvOf e rd ra rb s)
def execLimvD (e : Elem) (rd ra rb : BitVec 5) (s : State) : ExtOutcome := .next (extInstr limvDOf e rd ra rb s)
def execSvm (e : Elem) (rd ra rb : BitVec 5) (s : State) : ExtOutcome :=
  .next (runInstr (elemIdx e) {} false (svmBody (elemIdx e) rd ra rb) s)
def execPiD (e : Elem) (rd ra rb : BitVec 5) (s : State) : ExtOutcome :=
  .next (runInstr (elemIdx e) {} false (piBody (elemIdx e) false rd ra rb) s)
def execPiQ (e : Elem) (rd ra rb : BitVec 5) (s : State) : ExtOutcome :=
  .next (runInstr (elemIdx e) {} false (piBody (elemIdx e) true rd ra rb) s)
/-- `VMAC` of `n + 1` terms. -/
def execVmac (e : Elem) (n : BitVec 5) (ra rb : BitVec 5) (S : Bool) (stop : VmacStop) (s : State) : ExtOutcome :=
  .next (runInstr (elemIdx e) { vmac := true } false (vmacBody (elemIdx e) (n.toNat + 1) ra rb S stop) s)

end Sys2Proof.Machine
end

