-- ==== Sys2Proof/Machine/Sched.lean ====
section
/-! DEFINITION. The event instructions (R80–R85), the engine scheduler and preemption (R83, R86, R87, R237), and the
cycle budget of a run (R238). -/

namespace Sys2Proof.Machine

abbrev RunOutcome := Host.Outcome State Fault Refusal

/-! ### `WAITS` (R82) -/

/-- Every store of the run that executes has been acknowledged, and no error of one waits. -/
def storesDone (e : ElemState) : Bool := e.wq.all (fun p => p.set ≠ e.cur) && e.imp.all (fun x => x.set ≠ e.cur)

/-- The run ends: the mask becomes the bank's wake mask. -/
def endWaits (i : Nat) (mask : BitVec 8) (s : State) : State :=
  let key := runKey s i
  endRun i (s.rset i).pc (s.setBank key { s.bank key with mask := mask.toNat })

def waitsBody (i : Nat) (mask : BitVec 8) (s : State) : Out :=
  if !isEngine i || stHnd (s.rset i) || mask = 0 || mask.getLsbD 7 then .trap Trap.illegal s
  else
    let e := { s.el i with resv := none }
    if storesDone e then .ended (endWaits i mask (s.setEl i e))
    else .hold (s.setEl i (e.putRun e.cur ((e.run e.cur).map (fun r => { r with waiting := some mask }))))

/-- `RUN_END`: the run that waits in `WAITS` ends once its stores are acknowledged. -/
def runEnd (i : Nat) (s : State) : State :=
  let e := s.el i
  match e.run e.cur with
  | none => s
  | some r =>
    match r.waiting with
    | none => s
    | some mask => if awake s i && storesDone e then boundary i true (endWaits i mask s) else s

def execWaits (e : Elem) (mask : BitVec 8) (s : State) : RunOutcome :=
  .next (runInstr (elemIdx e) {} false (waitsBody (elemIdx e) mask) s)
def execRunEnd (g : Fin 32) (s : State) : RunOutcome := .next (runEnd g s)

/-! ### `DCOMMIT` (R84) -/

/-- The bank is bound to an axis context: bit 2 of its class is 0 (R230). -/
def axisBank (b : BankSt) : Bool := b.ctx.isSome && !b.cls.testBit 2

/-- `DCOMMIT` hands the bundle of the bank in `BANK` to the edge port. -/
def dcommitBody (i : Nat) (s : State) : Out :=
  let key := i * 16 + fld (s.el i).bank 3 0
  if !isEngine i then .trap Trap.illegal s
  else match bankPlace i 16 false (fld (s.el i).bank 3 0) 0x60 s, (s.bank key).ctx with
    | .error t, _ => .trap t s
    | .ok _, none => .trap { code := 0x0A, sub := 1 } s
    | .ok p, some n =>
      if !axisBank (s.bank key) then .trap { code := 0x0A, sub := 1 } s
      else match memRead (elemMaster i p.sec) false .clean p.pa 16 s with
        | (.error e, s1) => .trap (Trap.ofBus e false false (w32 p.pa)) s1
        | (.ok bs, s1) => .done { s1 with axis.edges := s1.axis.edges ++ [{ axis := n, bytes := bs, bank := key }] }

def execDcommit (e : Elem) (s : State) : RunOutcome := .next (runInstr (elemIdx e) {} false (dcommitBody (elemIdx e)) s)

/-! ### `SETPT` (R85, R249) -/

/-- Translates the five words of a setpoint block as loads; the first place.  `EVA` of a block that does not lie wholly
in own context memory is its start (DESIGN CHOICE, log entry 53). -/
def setptPlace (i : Nat) (a : Word) (s : State) : Except Trap Place :=
  let ws := (List.range 5).map (fun k => xlateEngine (s.el i) .load (a + w32 (4 * k)) s)
  match ws.findSome? (fun x => match x with | .error t => some t | .ok _ => none) with
  | some t => .error t
  | none =>
    let own (x : Except Trap Place) : Bool := match x with
      | .ok p => (match regionOf s p.pa with | .ctxmem g => g = i | _ => false)
      | .error _ => false
    if !ws.all own then .error (Trap.access false 7 0xA a)
    else match ws with
      | .ok p :: _ => .ok p
      | _ => .error (Trap.access false 7 0xA a)

/-- The words of the block, each through its own translation. -/
def setptWords (i : Nat) (a : Word) : Nat → State → Except Trap (List Word) × State
  | 0, s => (.ok [], s)
  | n + 1, s =>
    match xlateEngine (s.el i) .load a s with
    | .error t => (.error t, s)
    | .ok p =>
      match memRead (elemMaster i p.sec) false .clean p.pa 4 s with
      | (.error e, s1) => (.error (Trap.ofBus e false false a), s1)
      | (.ok bs, s1) =>
        match setptWords i (a + 4) n (watchAccess i false p 4 s1) with
        | (.error t, s2) => (.error t, s2)
        | (.ok l, s2) => (.ok (w32 (ofBytes bs) :: l), s2)

/-- Two stamps belong to one wake: the time ports of the copies' islands may differ by up to 2 ticks (log entry 62). -/
def sameWake (a b : Word) : Bool := (a - b).toNat ≤ 2 || (b - a).toNat ≤ 2

/-- The answer that a second copy's `SETPT` receives, if it is known: that of the same `SETPT` of the first copy's
run, or 4 when that run has ended without one or a later run has begun. -/
def secondAnswer (x : CtxSt) (stamp : Word) (k : Nat) : Option Nat :=
  match x.spans.find? (fun p => sameWake p.stamp stamp) with
  | some p => if k < p.answers.length then some (p.answers.getD k 4) else if p.ended then some 4 else none
  | none => if x.spans.any (fun p => newer 32 p.stamp.toNat stamp.toNat) then some 4 else none

/-- The answer to a `SETPT` of the first copy is recorded for its second. -/
def recordAnswer (key : Nat) (stamp : Word) (ans : Nat) (s : State) : State :=
  match (s.bank key).ctx with
  | some n =>
    let x := s.ctx n
    if x.first = key then
      s.setCtx n { x with spans := x.spans.map (fun p =>
        if p.stamp = stamp && !p.ended then { p with answers := p.answers ++ [ans] } else p) }
    else s
  | none => s

/-- The run that executes on an engine is replaced. -/
def setRun (i : Nat) (f : Run → Run) (s : State) : State :=
  let e := s.el i
  s.setEl i (e.putRun e.cur ((e.run e.cur).map f))

def setptBody (i : Nat) (rd ra : BitVec 5) (s : State) : Out :=
  let r := s.rset i
  let a := r.gr ra.toNat
  if !extOk i [rd, ra] then .trap Trap.illegal s
  else if a.toNat % 4 ≠ 0 then .trap (Trap.align a) s
  else match setptPlace i a s with
    | .error t => .trap t s
    | .ok _ =>
      match setptWords i a 5 s with
      | (.error t, s1) => .trap t s1
      | (.ok ws, s1) =>
        let sp : Setpoint := { pos := ws.getD 0 0, vel := ws.getD 1 0, torque := ws.getD 2 0, due := ws.getD 3 0, seq := ws.getD 4 0 }
        let key := runKey s1 i
        match (s1.el i).run (s1.el i).cur with
        | none => .done s1
        | some run =>
          if isSecondCopy s1 i then
            match (s1.bank key).ctx with
            | none => .done s1
            | some n =>
              match secondAnswer (s1.ctx n) run.stamp run.sent with
              | some ans => .done (putGr i rd.toNat (w32 ans) (setRun i (fun x => { x with sent := x.sent + 1 }) s1))
              | none => .hold (setRun i (fun x => { x with stall := true }) s1)
          else
            let (ans, s2) := offerSetpoint (secNow (s1.el i)) (fld (r.gr rd.toNat) 7 0) sp s1
            .done (putGr i rd.toNat (w32 ans)
              (recordAnswer key run.stamp ans (setRun i (fun x => { x with sent := x.sent + 1 }) s2)))

def execSetpt (e : Elem) (rd ra : BitVec 5) (s : State) : RunOutcome :=
  .next (runInstr (elemIdx e) {} false (setptBody (elemIdx e) rd ra) s)

/-! ### The engine scheduler (R83, R87, R237) -/

/-- The latched events of a bank that are in its wake mask. -/
def maskedEvents (b : BankSt) : List (Nat × Word) := b.latched.filter (fun e => b.mask.testBit e.1)
/-- A bank is ready; SAFE_HOLD holds back the axis banks (R82, R238, R251, R425). -/
def bankReady (s : State) (key : Nat) : Bool :=
  let b := s.bank key
  b.ctx.isSome && b.fault.isNone && !b.held && !(maskedEvents b).isEmpty && !bankRuns s key
    && (opMode s ≠ 6 || b.cls.testBit 2)
/-- The age of a stamp (R237). -/
def stampAge (s : State) (st : Word) : Nat := (w32 s.time.selvedge.toNat - st).toNat
/-- The event of a list with the greatest age, the first of equals. -/
def oldest (s : State) (l : List (Nat × Word)) : Option (Nat × Word) :=
  l.foldl (fun b e => match b with
    | none => some e
    | some x => if stampAge s x.2 < stampAge s e.2 then some e else some x) none

/-- The next bank of an engine among those of class `below` or higher (smaller): the highest class, then the earliest
event, then the lowest bank. -/
def nextBank (s : State) (i below : Nat) : Option Nat :=
  let ks := ((List.range 16).map (fun k => i * 16 + k)).filter (fun k => bankReady s k && latClass (s.bank k).cls ≤ below)
  let top := ks.foldl (fun m k => min m (latClass (s.bank k).cls)) 3
  let age (k : Nat) : Nat := match oldest s (maskedEvents (s.bank k)) with | some e => stampAge s e.2 | none => 0
  (ks.filter (fun k => latClass (s.bank k).cls = top)).foldl (fun b k => match b with
    | none => some k
    | some j => if age j < age k then some k else some j) none

/-- The modes in which engines run banks, and an island whose engines run (R419, R425, R458). -/
def engineRuns (s : State) (i : Nat) : Bool :=
  s.time.run && (opMode s = 4 || opMode s = 5 || opMode s = 6) && islState s (islandOf i) ≤ 2
    && (s.el i).released && !(s.el i).halted

/-- A run of a bank starts on its engine (R83), or the bank enters the fault state because its program-table entry is
not valid (R238). -/
def startRun (key : Nat) (s : State) : State :=
  let i := key / 16
  let b := s.bank key
  match b.ctx with
  | none => s
  | some n =>
    let at_ := progEntry (islandOf i) (reqProg s n)
    let entry := s.word at_
    let attr := s.word (at_ + 4)
    if !tb attr 31 then bankFault key 3 entry 0 s
    else
      let evs := maskedEvents b
      let wake := evs.foldl (fun w e => w ||| 2 ^ e.1) (b2n b.overrun * 128)
      let stamp : Word := match oldest s evs with | some e => e.2 | none => 0
      let k := latClass b.cls
      let s1 := s.setBank key { b with latched := b.latched.filter (fun e => !b.mask.testBit e.1), overrun := false }
      let e := s1.el i
      let old := e.set k
      let q : RegSet := { ((({ old with g := [] } : RegSet).setGr 0 (w32 wake)).setGr 1 stamp).setGr 2 (w32 (key % 16)) with
        acc0 := 0, acc1 := 0, pc := entry, status := setBit 0x200 8 (tb attr 0), progress := 0, repSaved := none,
        pendSt := [], pendWorld := [], progArm := false }
      let r : Run := { bank := key % 16, stamp := stamp }
      let e1 := { (e.putSet k q).putRun k (some r) with
        cur := k, bank := w32 (key % 16), world := w32 (b2n b.world), view := [] }
      let s2 := s1.setEl i e1
      let x := s2.ctx n
      let s3 := if x.first = key then
          s2.setCtx n { x with spans := (x.spans ++ [({ stamp := stamp } : Span)]).drop ((x.spans.length + 1) - 8) }
        else s2
      takeHalts 38 (traceRun 2 i (key % 16) (w32 wake) 0 (bump .rein 0 (Rein.RUNS i) s3))

/-- `RUN_START`: an engine with no run takes its next ready bank. -/
def runStart (i : Nat) (s : State) : State :=
  if !engineRuns s i || (topRun (s.el i)).isSome then s
  else match nextBank s i 2 with
    | some key => startRun key s
    | none => s

/-- `PREEMPT`: a ready bank of a higher class preempts the run that executes, at a boundary; its `BANK` and `WORLD` are
saved with its set. -/
def preempt (i : Nat) (s : State) : State :=
  let e := s.el i
  match e.run e.cur with
  | none => s
  | some r =>
    if !engineRuns s i || e.cur = 0 || !atBoundary s i then s
    else match nextBank s i (e.cur - 1) with
      | some key => startRun key
          (s.setEl i (e.putRun e.cur (some { r with savedBank := e.bank, savedWorld := e.world })))
      | none => s

def execRunStart (g : Fin 32) (s : State) : RunOutcome := .next (runStart g s)
def execPreempt (g : Fin 32) (s : State) : RunOutcome := .next (preempt g s)

/-! ### The budget of a run (R238) -/

/-- The context, its bank and its run on an engine that runs. -/
def runOf (s : State) (i : Nat) : Option (Nat × Nat × Run) :=
  match (s.el i).run (s.el i).cur with
  | none => none
  | some r => (s.bank (i * 16 + r.bank)).ctx.map (fun n => (n, i * 16 + r.bank, r))

/-- `BUDGET_OVERRUN`: a run that exceeds its budget is recorded once. -/
def budgetOverrun (i : Nat) (s : State) : State :=
  match runOf s i with
  | none => s
  | some (n, _, r) =>
    if r.ovb || r.acc ≤ reqBudget s n * 800 then s
    else bump .sadl 0 (Sadl.CTX_OVB_CNT n) (sadlNotice 6 (axst n 6 (setRun i (fun x => { x with ovb := true }) s)))

/-- `BUDGET_KILL`: a run that reaches eight times its budget ends, and its bank enters the fault state. -/
def budgetKill (i : Nat) (s : State) : State :=
  match runOf s i with
  | none => s
  | some (n, key, r) =>
    if r.acc < 8 * reqBudget s n * 800 || !awake s i then s
    else
      let pc := (s.rset i).pc
      boundary i true (endRun i pc (bankFault key 2 pc 0 s))

def execBudgetOverrun (g : Fin 32) (s : State) : RunOutcome := .next (budgetOverrun g s)
def execBudgetKill (g : Fin 32) (s : State) : RunOutcome := .next (budgetKill g s)

end Sys2Proof.Machine
end

