-- ==== Sys2Proof/Machine/Maint.lean ====
section
/-! DEFINITION. The cache and translation maintenance of the application cores (R341–R343, R350, R351). -/

namespace Sys2Proof.Machine

abbrev MntOutcome := Host.Outcome State Fault Refusal

/-- A maintenance function: on engines and `SV` those of the low group do nothing and the others are illegal; a core
checks its privilege. -/
def maintBody (i : Nat) (ns : List (BitVec 5)) (low priv : Bool) (f : State → Out) (s : State) : Out :=
  if !regsOk i ns then .trap Trap.illegal s
  else if !isAc i then (if low then .done s else .trap Trap.illegal s)
  else if priv && !stPriv (s.rset i) then .trap Trap.priv s
  else f s

/-- Runs a maintenance function. -/
def maintInstr (e : Elem) (ns : List (BitVec 5)) (low priv : Bool) (f : Nat → State → Out) (s : State) : State :=
  runInstr (elemIdx e) {} false (maintBody (elemIdx e) ns low priv (f (elemIdx e))) s

/-- A line operation by address: the translation check of its kind, then the operation on a cacheable page. -/
def lineOp (i : Nat) (k : Acc) (va : Word) (o : Obs) (op : Nat → State → State) (s : State) : Out :=
  match xlate i k va o.wecc (applyObs i o s) with
  | (.error t, s1) => .trap t s1
  | (.ok p, s1) =>
    if p.mt ≠ 2 then .done s1
    else if cacheError s1 p then .trap (Trap.ofBus .bus false false va) s1
    else match cacheRefuses i p 1 false s1 with
      | (some e, s2) => .trap (Trap.ofBus e false false va) s2
      | (none, s2) => .done (op (p.pa / 64) s2)

/-- The address in a register. -/
abbrev regAddr (s : State) (i : Nat) (ra : BitVec 5) : Word := (s.rset i).gr ra.toNat

/-- Carries an operation out on every line of the cluster's cache that a test selects. -/
def eachLine (p : Line → Bool) (op : Nat → State → State) (s : State) : State :=
  ((s.core.cache.filter (fun e => match e.2 with | some x => p x | none => false)).map Prod.fst).foldl (fun s ln => op ln s) s

/-- The TLB entry covers the page of a virtual address. -/
def tlbCovers (t : TlbEntry) (va : Nat) : Bool := va / 2 ^ (if t.block then 20 else 12) = t.vpage
/-- The virtual address that `TLBI` names. -/
abbrev tlbiVa (s : State) (i : Nat) (ra rb : BitVec 5) : Nat :=
  fld ((s.rset i).gr rb.toNat) 15 0 * 2 ^ 32 + fld ((s.rset i).gr ra.toNat) 31 12 * 4096
/-- Drops the TLB entries of a core that a test selects. -/
def dropTlb (i : Nat) (p : TlbEntry → Bool) (s : State) : State :=
  s.setEl i { s.el i with tlb := (s.el i).tlb.filter (fun t => !p t) }
/-- Drops a core's walk cache. -/
def dropWalks (i : Nat) (s : State) : State := s.setEl i { s.el i with wcache := [] }
/-- In every application core. -/
def everyCore (f : Nat → State → State) (s : State) : State := [32, 33, 34, 35].foldl (fun s i => f i s) s

def execDcclean (e : Elem) (ra : BitVec 5) (o : Obs) (s : State) : MntOutcome :=
  .next (maintInstr e [ra] true false (fun i s => lineOp i .load (regAddr s i ra) o (cleanLine i) s) s)
def execDcinv (e : Elem) (ra : BitVec 5) (o : Obs) (s : State) : MntOutcome :=
  .next (maintInstr e [ra] true false (fun i s => lineOp i .inv (regAddr s i ra) o dropLine s) s)
def execDcflush (e : Elem) (ra : BitVec 5) (o : Obs) (s : State) : MntOutcome :=
  .next (maintInstr e [ra] true false (fun i s =>
    lineOp i .load (regAddr s i ra) o (fun ln s => dropLine ln (cleanLine i ln s)) s) s)
def execIcinv (e : Elem) (ra : BitVec 5) (o : Obs) (s : State) : MntOutcome :=
  .next (maintInstr e [ra] true false (fun i s => lineOp i .line (regAddr s i ra) o
    (fun ln s => s.setEl i { s.el i with icache := (s.el i).icache.filter (· ≠ ln) }) s) s)
/-- The dirty lines of the own L1 and of L2. -/
def execDccleanA (e : Elem) (s : State) : MntOutcome :=
  .next (maintInstr e [] true true (fun i s =>
    .done (eachLine (fun x => x.owner = none || x.owner = some i) (cleanLine i) s)) s)
def execDcflushA (e : Elem) (s : State) : MntOutcome :=
  .next (maintInstr e [] true true (fun i s =>
    .done (eachLine (fun _ => true) (fun ln s => dropLine ln (cleanLine i ln s)) s)) s)
def execIcinvA (e : Elem) (s : State) : MntOutcome :=
  .next (maintInstr e [] true true (fun i s => .done (s.setEl i { s.el i with icache := [] })) s)
def execTlbi (e : Elem) (ra rb : BitVec 5) (s : State) : MntOutcome :=
  .next (maintInstr e [ra, rb] false true (fun i s => .done (dropTlb i (fun t => tlbCovers t (tlbiVa s i ra rb)) s)) s)
def execTlbiA (e : Elem) (s : State) : MntOutcome :=
  .next (maintInstr e [] false true (fun i s => .done (dropTlb i (fun _ => true) s)) s)
def execWalki (e : Elem) (s : State) : MntOutcome :=
  .next (maintInstr e [] false true (fun i s => .done (dropWalks i s)) s)
def execTlbiB (e : Elem) (ra rb : BitVec 5) (s : State) : MntOutcome :=
  .next (maintInstr e [ra, rb] false true (fun i s =>
    .done (everyCore (fun j => dropTlb j (fun t => tlbCovers t (tlbiVa s i ra rb))) s)) s)
def execTlbiAb (e : Elem) (s : State) : MntOutcome :=
  .next (maintInstr e [] false true (fun _ s => .done (everyCore (fun j => dropTlb j (fun _ => true)) s)) s)
def execWalkiB (e : Elem) (s : State) : MntOutcome :=
  .next (maintInstr e [] false true (fun _ s => .done (everyCore dropWalks s)) s)

end Sys2Proof.Machine
end

