-- ==== Sys2Proof/Machine/Dispatch.lean ====
section
/-! DEFINITION. The dispatch of `exec`: one arm for each command, a direct call of its meaning. -/
namespace Sys2Proof.Machine
open Host

def exec (i : Instr) (s : State) : Host.Outcome State Fault Refusal :=
  match i with
  | .add e f => Sys2Proof.Machine.execAdd e f s
  | .adc e rd ra rb S => Sys2Proof.Machine.execAdc e rd ra rb S s
  | .sub e f => Sys2Proof.Machine.execSub e f s
  | .sbc e rd ra rb S => Sys2Proof.Machine.execSbc e rd ra rb S s
  | .and_ e f => Sys2Proof.Machine.execAnd e f s
  | .or_ e f => Sys2Proof.Machine.execOr e f s
  | .xor_ e f => Sys2Proof.Machine.execXor e f s
  | .andn e rd ra rb S => Sys2Proof.Machine.execAndn e rd ra rb S s
  | .lsl e f => Sys2Proof.Machine.execLsl e f s
  | .lsr e f => Sys2Proof.Machine.execLsr e f s
  | .asr e f => Sys2Proof.Machine.execAsr e f s
  | .ror e rd ra rb S => Sys2Proof.Machine.execRor e rd ra rb S s
  | .mul e f => Sys2Proof.Machine.execMul e f s
  | .mulhs e rd ra rb S => Sys2Proof.Machine.execMulhs e rd ra rb S s
  | .mulhu e rd ra rb S => Sys2Proof.Machine.execMulhu e rd ra rb S s
  | .min e rd ra rb S => Sys2Proof.Machine.execMin e rd ra rb S s
  | .max e rd ra rb S => Sys2Proof.Machine.execMax e rd ra rb S s
  | .minu e rd ra rb S => Sys2Proof.Machine.execMinu e rd ra rb S s
  | .maxu e rd ra rb S => Sys2Proof.Machine.execMaxu e rd ra rb S s
  | .clz e rd ra S => Sys2Proof.Machine.execClz e rd ra S s
  | .slt e rd ra rb S => Sys2Proof.Machine.execSlt e rd ra rb S s
  | .sltu e rd ra rb S => Sys2Proof.Machine.execSltu e rd ra rb S s
  | .addsat e rd ra rb S => Sys2Proof.Machine.execAddsat e rd ra rb S s
  | .subsat e rd ra rb S => Sys2Proof.Machine.execSubsat e rd ra rb S s
  | .div e rd ra rb S abandoned => Sys2Proof.Machine.execDiv e rd ra rb S abandoned s
  | .divu e rd ra rb S abandoned => Sys2Proof.Machine.execDivu e rd ra rb S abandoned s
  | .rem e rd ra rb S abandoned => Sys2Proof.Machine.execRem e rd ra rb S abandoned s
  | .remu e rd ra rb S abandoned => Sys2Proof.Machine.execRemu e rd ra rb S abandoned s
  | .addi e f => Sys2Proof.Machine.execAddi e f s
  | .andi e rd ra imm => Sys2Proof.Machine.execAndi e rd ra imm s
  | .ori e rd ra imm => Sys2Proof.Machine.execOri e rd ra imm s
  | .xori e rd ra imm => Sys2Proof.Machine.execXori e rd ra imm s
  | .lsli e f => Sys2Proof.Machine.execLsli e f s
  | .lsri e f => Sys2Proof.Machine.execLsri e f s
  | .asri e f => Sys2Proof.Machine.execAsri e f s
  | .rori e rd ra n => Sys2Proof.Machine.execRori e rd ra n s
  | .cmpi e f => Sys2Proof.Machine.execCmpi e f s
  | .tsti e ra imm => Sys2Proof.Machine.execTsti e ra imm s
  | .movh e rd k => Sys2Proof.Machine.execMovh e rd k s
  | .adrh e rd k => Sys2Proof.Machine.execAdrh e rd k s
  | .mov e rd rs => Sys2Proof.Machine.execMov e rd rs s
  | .movi e rd u => Sys2Proof.Machine.execMovi e rd u s
  | .not_ e rd rs => Sys2Proof.Machine.execNot e rd rs s
  | .neg e rd rs => Sys2Proof.Machine.execNeg e rd rs s
  | .cmp e rd rs => Sys2Proof.Machine.execCmp e rd rs s
  | .tst e rd rs => Sys2Proof.Machine.execTst e rd rs s
  | .sextb e rd rs => Sys2Proof.Machine.execSextb e rd rs s
  | .sexth e rd rs => Sys2Proof.Machine.execSexth e rd rs s
  | .zextb e rd rs => Sys2Proof.Machine.execZextb e rd rs s
  | .zexth e rd rs => Sys2Proof.Machine.execZexth e rd rs s
  | .nop e => Sys2Proof.Machine.execNop e s
  | .ldb e rd ra imm o => Sys2Proof.Machine.execLdb e rd ra imm o s
  | .ldbu e rd ra imm o => Sys2Proof.Machine.execLdbu e rd ra imm o s
  | .ldh e rd ra imm o => Sys2Proof.Machine.execLdh e rd ra imm o s
  | .ldhu e rd ra imm o => Sys2Proof.Machine.execLdhu e rd ra imm o s
  | .ldw e f o => Sys2Proof.Machine.execLdw e f o s
  | .stb e rd ra imm o => Sys2Proof.Machine.execStb e rd ra imm o s
  | .sth e rd ra imm o => Sys2Proof.Machine.execSth e rd ra imm o s
  | .stw e f o => Sys2Proof.Machine.execStw e f o s
  | .ldbP e rd ra imm o => Sys2Proof.Machine.execLdbP e rd ra imm o s
  | .ldbuP e rd ra imm o => Sys2Proof.Machine.execLdbuP e rd ra imm o s
  | .ldhP e rd ra imm o => Sys2Proof.Machine.execLdhP e rd ra imm o s
  | .ldhuP e rd ra imm o => Sys2Proof.Machine.execLdhuP e rd ra imm o s
  | .ldwP e rd ra imm o => Sys2Proof.Machine.execLdwP e rd ra imm o s
  | .stbP e rd ra imm o => Sys2Proof.Machine.execStbP e rd ra imm o s
  | .sthP e rd ra imm o => Sys2Proof.Machine.execSthP e rd ra imm o s
  | .stwP e rd ra imm o => Sys2Proof.Machine.execStwP e rd ra imm o s
  | .ldbK e rd ra off o => Sys2Proof.Machine.execLdbK e rd ra off o s
  | .ldbuK e rd ra off o => Sys2Proof.Machine.execLdbuK e rd ra off o s
  | .ldhK e rd ra off o => Sys2Proof.Machine.execLdhK e rd ra off o s
  | .ldhuK e rd ra off o => Sys2Proof.Machine.execLdhuK e rd ra off o s
  | .ldwK e f o => Sys2Proof.Machine.execLdwK e f o s
  | .stbK e rd ra off o => Sys2Proof.Machine.execStbK e rd ra off o s
  | .sthK e rd ra off o => Sys2Proof.Machine.execSthK e rd ra off o s
  | .stwK e f o => Sys2Proof.Machine.execStwK e f o s
  | .ldwSp e rd off9 o => Sys2Proof.Machine.execLdwSp e rd off9 o s
  | .stwSp e rd off9 o => Sys2Proof.Machine.execStwSp e rd off9 o s
  | .ldx e rd ra o => Sys2Proof.Machine.execLdx e rd ra o s
  | .stx e rd ra rb o => Sys2Proof.Machine.execStx e rd ra rb o s
  | .bcc e f => Sys2Proof.Machine.execBcc e f s
  | .b e off => Sys2Proof.Machine.execB e off s
  | .bl e off => Sys2Proof.Machine.execBl e off s
  | .jmpr e rs => Sys2Proof.Machine.execJmpr e rs s
  | .callr e rs => Sys2Proof.Machine.execCallr e rs s
  | .callm e ra H mask os => Sys2Proof.Machine.execCallm e ra H mask os s
  | .retm e os => Sys2Proof.Machine.execRetm e os s
  | .mfs e rd sreg => Sys2Proof.Machine.execMfs e rd sreg s
  | .mts e sreg ra => Sys2Proof.Machine.execMts e sreg ra s
  | .fence e => Sys2Proof.Machine.execFence e s
  | .repU e n => Sys2Proof.Machine.execRepU e n s
  | .repIImm e n => Sys2Proof.Machine.execRepIImm e n s
  | .repIReg e rs => Sys2Proof.Machine.execRepIReg e rs s
  | .clarke e rd ra => Sys2Proof.Machine.execClarke e rd ra s
  | .sincos e rd ra => Sys2Proof.Machine.execSincos e rd ra s
  | .park e rd ra rb => Sys2Proof.Machine.execPark e rd ra rb s
  | .ipark e rd ra rb => Sys2Proof.Machine.execIpark e rd ra rb s
  | .svm e rd ra rb => Sys2Proof.Machine.execSvm e rd ra rb s
  | .limv e rd ra rb => Sys2Proof.Machine.execLimv e rd ra rb s
  | .limvD e rd ra rb => Sys2Proof.Machine.execLimvD e rd ra rb s
  | .piD e rd ra rb => Sys2Proof.Machine.execPiD e rd ra rb s
  | .piQ e rd ra rb => Sys2Proof.Machine.execPiQ e rd ra rb s
  | .vmac e n ra rb S stop => Sys2Proof.Machine.execVmac e n ra rb S stop s
  | .waits e mask => Sys2Proof.Machine.execWaits e mask s
  | .dcommit e => Sys2Proof.Machine.execDcommit e s
  | .setpt e rd ra => Sys2Proof.Machine.execSetpt e rd ra s
  | .sync e => Sys2Proof.Machine.execSync e s
  | .reth e => Sys2Proof.Machine.execReth e s
  | .wfi e => Sys2Proof.Machine.execWfi e s
  | .brk e => Sys2Proof.Machine.execBrk e s
  | .sys e imm => Sys2Proof.Machine.execSys e imm s
  | .dcclean e ra o => Sys2Proof.Machine.execDcclean e ra o s
  | .dcinv e ra o => Sys2Proof.Machine.execDcinv e ra o s
  | .dcflush e ra o => Sys2Proof.Machine.execDcflush e ra o s
  | .icinv e ra o => Sys2Proof.Machine.execIcinv e ra o s
  | .dccleanA e => Sys2Proof.Machine.execDccleanA e s
  | .dcflushA e => Sys2Proof.Machine.execDcflushA e s
  | .icinvA e => Sys2Proof.Machine.execIcinvA e s
  | .tlbi e ra rb => Sys2Proof.Machine.execTlbi e ra rb s
  | .tlbiA e => Sys2Proof.Machine.execTlbiA e s
  | .walki e => Sys2Proof.Machine.execWalki e s
  | .tlbiB e ra rb => Sys2Proof.Machine.execTlbiB e ra rb s
  | .tlbiAb e => Sys2Proof.Machine.execTlbiAb e s
  | .walkiB e => Sys2Proof.Machine.execWalkiB e s
  | .interruptEntry e => Sys2Proof.Machine.execInterruptEntry e s
  | .twillStoreAck e n => Sys2Proof.Machine.execTwillStoreAck e n s
  | .impreciseBusError e n ecc => Sys2Proof.Machine.execImpreciseBusError e n ecc s
  | .runStart g => Sys2Proof.Machine.execRunStart g s
  | .runEnd g => Sys2Proof.Machine.execRunEnd g s
  | .preempt g => Sys2Proof.Machine.execPreempt g s
  | .budgetOverrun g => Sys2Proof.Machine.execBudgetOverrun g s
  | .budgetKill g => Sys2Proof.Machine.execBudgetKill g s
  | .snapshotLowRead m pa => Sys2Proof.Machine.execSnapshotLowRead m pa s
  | .slowmeasUpdate => Sys2Proof.Machine.execSlowmeasUpdate s
  | .slotLoWrite m n v => Sys2Proof.Machine.execSlotLoWrite m n v s
  | .slotHiWrite m n v => Sys2Proof.Machine.execSlotHiWrite m n v s
  | .slotPerWrite m n v => Sys2Proof.Machine.execSlotPerWrite m n v s
  | .slotCtrlWrite m n v => Sys2Proof.Machine.execSlotCtrlWrite m n v s
  | .slotFire n => Sys2Proof.Machine.execSlotFire n s
  | .timerEnable m n v => Sys2Proof.Machine.execTimerEnable m n v s
  | .timerZero n => Sys2Proof.Machine.execTimerZero n s
  | .timerChannelFire n k => Sys2Proof.Machine.execTimerChannelFire n k s
  | .timerCcWrite m n k v => Sys2Proof.Machine.execTimerCcWrite m n k v s
  | .timerActionStart is => Sys2Proof.Machine.execTimerActionStart is s
  | .timerActionStop is => Sys2Proof.Machine.execTimerActionStop is s
  | .timerActionCapture is => Sys2Proof.Machine.execTimerActionCapture is s
  | .timerActionCount is => Sys2Proof.Machine.execTimerActionCount is s
  | .selvedgeCapture is => Sys2Proof.Machine.execSelvedgeCapture is s
  | .swtrig m v => Sys2Proof.Machine.execSwtrig m v s
  | .eventDelivery is cs => Sys2Proof.Machine.execEventDelivery is s cs
  | .interruptSourceEdge t src => Sys2Proof.Machine.execInterruptSourceEdge t src s
  | .intcSet m t v => Sys2Proof.Machine.execIntcSet m t v s
  | .claim m t v => Sys2Proof.Machine.execClaim m t v s
  | .complete m t v => Sys2Proof.Machine.execComplete m t v s
  | .mbxMsgWrite m n k v => Sys2Proof.Machine.execMbxMsgWrite m n k v s
  | .send m n v => Sys2Proof.Machine.execSend m n v s
  | .ack m n v => Sys2Proof.Machine.execAck m n v s
  | .mbxLock m v => Sys2Proof.Machine.execMbxLock m v s
  | .mbxDomainUp mid => Sys2Proof.Machine.execMbxDomainUp mid s
  | .initialCalibration rs => Sys2Proof.Machine.execInitialCalibration rs s
  | .smpWrite m b v => Sys2Proof.Machine.execSmpWrite m b v s
  | .sampleInstant b => Sys2Proof.Machine.execSampleInstant b s
  | .conversionEnd b rs => Sys2Proof.Machine.execConversionEnd b rs s
  | .rotationStep => Sys2Proof.Machine.execRotationStep s
  | .calibrationEnd n r => Sys2Proof.Machine.execCalibrationEnd n r s
  | .calageCheck => Sys2Proof.Machine.execCalageCheck s
  | .comparatorOut n hard v => Sys2Proof.Machine.execComparatorOut n hard s v
  | .tripInputActive t n => Sys2Proof.Machine.execTripInputActive t s n
  | .comparatorSweep n hard => Sys2Proof.Machine.execComparatorSweep n hard s
  | .sweepStep crossed => Sys2Proof.Machine.execSweepStep crossed s
  | .wakeComparatorActive w active v n => Sys2Proof.Machine.execWakeComparatorActive w active s v n
  | .pwmEnable m b v => Sys2Proof.Machine.execPwmEnable m b v s
  | .pwmPhaseWrite m b v => Sys2Proof.Machine.execPwmPhaseWrite m b v s
  | .stagePeriodWrite m b v => Sys2Proof.Machine.execStagePeriodWrite m b v s
  | .stageEdgeWrite m b k v => Sys2Proof.Machine.execStageEdgeWrite m b k v s
  | .pwmCommit m b => Sys2Proof.Machine.execPwmCommit m b s
  | .periodNow m b => Sys2Proof.Machine.execPeriodNow m b s
  | .periodCutTick b => Sys2Proof.Machine.execPeriodCutTick b s
  | .forcesafe m b => Sys2Proof.Machine.execForcesafe m b s
  | .clrsafe m b => Sys2Proof.Machine.execClrsafe m b s
  | .forceWrite m b v => Sys2Proof.Machine.execForceWrite m b v s
  | .bundleArrival n => Sys2Proof.Machine.execBundleArrival n s
  | .periodBoundary b => Sys2Proof.Machine.execPeriodBoundary b s
  | .edgeFire b k off => Sys2Proof.Machine.execEdgeFire b k off s
  | .deadtimeExpiry b o => Sys2Proof.Machine.execDeadtimeExpiry b o s
  | .delaylineMeasure b o n => Sys2Proof.Machine.execDelaylineMeasure b o n s
  | .dlstarveTimeout b => Sys2Proof.Machine.execDlstarveTimeout b s
  | .fbEnable m f v => Sys2Proof.Machine.execFbEnable m f v s
  | .quadEdge f a b n => Sys2Proof.Machine.execQuadEdge f a b s n
  | .hallChange f h n => Sys2Proof.Machine.execHallChange f h s n
  | .indexEdge f z n => Sys2Proof.Machine.execIndexEdge f z s n
  | .fbLoad m f => Sys2Proof.Machine.execFbLoad m f s
  | .capnow m f => Sys2Proof.Machine.execCapnow m f s
  | .idxarm m f => Sys2Proof.Machine.execIdxarm m f s
  | .fbCapture f => Sys2Proof.Machine.execFbCapture f s
  | .fbBlockWrite k => Sys2Proof.Machine.execFbBlockWrite k s
  | .sencEnable m p v => Sys2Proof.Machine.execSencEnable m p v s
  | .sencFrameStart p => Sys2Proof.Machine.execSencFrameStart p s
  | .sencFrameEnd p high changes => Sys2Proof.Machine.execSencFrameEnd p high changes s
  | .sencRegGo m p v => Sys2Proof.Machine.execSencRegGo m p v s
  | .sencRegDone p ok data => Sys2Proof.Machine.execSencRegDone p ok data s
  | .trkEnable m k v => Sys2Proof.Machine.execTrkEnable m k v s
  | .trkLimitWrite m k v => Sys2Proof.Machine.execTrkLimitWrite m k v s
  | .markFire k => Sys2Proof.Machine.execMarkFire k s
  | .predictedFire k => Sys2Proof.Machine.execPredictedFire k s
  | .markPulseEnd m => Sys2Proof.Machine.execMarkPulseEnd m s
  | .place m n => Sys2Proof.Machine.execPlace m n s
  | .release m n => Sys2Proof.Machine.execRelease m n s
  | .clrfault m n => Sys2Proof.Machine.execClrfault m n s
  | .install m => Sys2Proof.Machine.execInstall m s
  | .uninstall m n => Sys2Proof.Machine.execUninstall m n s
  | .islClrflt m n v => Sys2Proof.Machine.execIslClrflt m n v s
  | .req3Write m n v => Sys2Proof.Machine.execReq3Write m n v s
  | .quietRequest m a v => Sys2Proof.Machine.execQuietRequest m a v s
  | .quietEnd a => Sys2Proof.Machine.execQuietEnd a s
  | .balanceCheck => Sys2Proof.Machine.execBalanceCheck s
  | .migrationCopy n => Sys2Proof.Machine.execMigrationCopy n s
  | .copyAck n ok => Sys2Proof.Machine.execCopyAck n ok s
  | .shadowCompare n => Sys2Proof.Machine.execShadowCompare n s
  | .serviceMigration n written => Sys2Proof.Machine.execServiceMigration n written s
  | .pairCompare n => Sys2Proof.Machine.execPairCompare n s
  | .commitDeadline n => Sys2Proof.Machine.execCommitDeadline n s
  | .setpointWrite n => Sys2Proof.Machine.execSetpointWrite n s
  | .spDueFire key => Sys2Proof.Machine.execSpDueFire key s
  | .tethEnable m l v => Sys2Proof.Machine.execTethEnable m l v s
  | .tethLock l => Sys2Proof.Machine.execTethLock l s
  | .tethLockLoss l => Sys2Proof.Machine.execTethLockLoss l s
  | .tethTrainDone l => Sys2Proof.Machine.execTethTrainDone l s
  | .tethAlign l => Sys2Proof.Machine.execTethAlign l s
  | .tethTimeCell l => Sys2Proof.Machine.execTethTimeCell l s
  | .tethEchoRequest l => Sys2Proof.Machine.execTethEchoRequest l s
  | .echoReceived l t ta age => Sys2Proof.Machine.execEchoReceived l t ta age s
  | .sampleCellReceived l a st ia ib aux vbus time => Sys2Proof.Machine.execSampleCellReceived l a st ia ib aux vbus time s
  | .feedbackCellReceived l a st pos turns time => Sys2Proof.Machine.execFeedbackCellReceived l a st pos turns time s
  | .statusCellReceived l safe fault code => Sys2Proof.Machine.execStatusCellReceived l safe fault code s
  | .regackReceived l addr data tag result => Sys2Proof.Machine.execRegackReceived l addr data tag result s
  | .tethRegcmdGo m l v => Sys2Proof.Machine.execTethRegcmdGo m l v s
  | .tethRegTimeout l => Sys2Proof.Machine.execTethRegTimeout l s
  | .uplossTimeout l => Sys2Proof.Machine.execUplossTimeout l s
  | .linkedBundle n => Sys2Proof.Machine.execLinkedBundle n s
  | .linkLoopPeriod l a => Sys2Proof.Machine.execLinkLoopPeriod l a s
  | .tethClrsafe m l a => Sys2Proof.Machine.execTethClrsafe m l a s
  | .tethForcesafe m l a => Sys2Proof.Machine.execTethForcesafe m l a s
  | .girthCycleStart g => Sys2Proof.Machine.execGirthCycleStart g s
  | .girthSlot g => Sys2Proof.Machine.execGirthSlot g s
  | .girthReply g addr ctl rest age => Sys2Proof.Machine.execGirthReply g addr ctl rest age s
  | .girthReplyTimeout g => Sys2Proof.Machine.execGirthReplyTimeout g s
  | .girthCollision g => Sys2Proof.Machine.execGirthCollision g s
  | .queueEnable m q v => Sys2Proof.Machine.execQueueEnable m q v s
  | .queueAutoPlaced q base => Sys2Proof.Machine.execQueueAutoPlaced q base s
  | .qmProd m v => Sys2Proof.Machine.execQmProd m v s
  | .qmCons m v => Sys2Proof.Machine.execQmCons m v s
  | .npop m t => Sys2Proof.Machine.execNpop m t s
  | .ethLinkChange p up full rfault => Sys2Proof.Machine.execEthLinkChange p up full rfault s
  | .ethFrameReceived p f fcs age => Sys2Proof.Machine.execEthFrameReceived p f fcs age s
  | .injectionRecord => Sys2Proof.Machine.execInjectionRecord s
  | .ethTransmit p => Sys2Proof.Machine.execEthTransmit p s
  | .ethTxDone p => Sys2Proof.Machine.execEthTxDone p s
  | .gtctlApply m p v => Sys2Proof.Machine.execGtctlApply m p v s
  | .qbvApply m p v => Sys2Proof.Machine.execQbvApply m p v s
  | .qbvSwitch p => Sys2Proof.Machine.execQbvSwitch p s
  | .mdioGo m v => Sys2Proof.Machine.execMdioGo m v s
  | .mdioDone rdata => Sys2Proof.Machine.execMdioDone rdata s
  | .scrubRead ddr ecc => Sys2Proof.Machine.execScrubRead ddr ecc s
  | .memcInit m v => Sys2Proof.Machine.execMemcInit m v s
  | .memcTrained ok => Sys2Proof.Machine.execMemcTrained ok s
  | .dmaEnable m c v => Sys2Proof.Machine.execDmaEnable m c v s
  | .dmaRingPlaced c base => Sys2Proof.Machine.execDmaRingPlaced c base s
  | .kick m c v => Sys2Proof.Machine.execKick m c v s
  | .dmaChannelRequest is => Sys2Proof.Machine.execDmaChannelRequest is s
  | .dmaDescriptor c ecc werr wecc => Sys2Proof.Machine.execDmaDescriptor c ecc werr s wecc
  | .dmaWriteback c werr wecc => Sys2Proof.Machine.execDmaWriteback c werr s wecc
  | .flashRead m off size fetch ecc => Sys2Proof.Machine.execFlashRead m off size fetch ecc s
  | .flcInv m v => Sys2Proof.Machine.execFlcInv m v s
  | .tvFlProgram ecc => Sys2Proof.Machine.execTvFlProgram ecc s
  | .tvFlErase => Sys2Proof.Machine.execTvFlErase s
  | .erasePulseEnd k ok => Sys2Proof.Machine.execErasePulseEnd k ok s
  | .eraseDone k => Sys2Proof.Machine.execEraseDone k s
  | .tvFlSuspend => Sys2Proof.Machine.execTvFlSuspend s
  | .tvFlResume => Sys2Proof.Machine.execTvFlResume s
  | .tvFlBlank => Sys2Proof.Machine.execTvFlBlank s
  | .tvFlInfo => Sys2Proof.Machine.execTvFlInfo s
  | .tvFlMarkbad => Sys2Proof.Machine.execTvFlMarkbad s
  | .tvServe ok ecc => Sys2Proof.Machine.execTvServe ok ecc s
  | .tvImgVerify ecc => Sys2Proof.Machine.execTvImgVerify ecc s
  | .tvOtpProgram ok => Sys2Proof.Machine.execTvOtpProgram ok s
  | .tvRollback ok => Sys2Proof.Machine.execTvRollback ok s
  | .tvLifecycle ok => Sys2Proof.Machine.execTvLifecycle ok s
  | .tvMeasExtend ecc => Sys2Proof.Machine.execTvMeasExtend ecc s
  | .tvAttest ecc => Sys2Proof.Machine.execTvAttest ecc s
  | .bootSequence jrnlErr ecc => Sys2Proof.Machine.execBootSequence jrnlErr ecc s
  | .bootReq => Sys2Proof.Machine.execBootReq s
  | .bootData mac off total data ecc => Sys2Proof.Machine.execBootData mac off total data ecc s
  | .bootDataTimeout => Sys2Proof.Machine.execBootDataTimeout s
  | .acrelGo m n v => Sys2Proof.Machine.execAcrelGo m n v s
  | .dbgSubmit m v => Sys2Proof.Machine.execDbgSubmit m v s
  | .reqRun m => Sys2Proof.Machine.execReqRun m s
  | .reqStandby m => Sys2Proof.Machine.execReqStandby m s
  | .reqHibernate m => Sys2Proof.Machine.execReqHibernate m s
  | .reqSafeHold m => Sys2Proof.Machine.execReqSafeHold m s
  | .standbyEntry => Sys2Proof.Machine.execStandbyEntry s
  | .entryTimeout => Sys2Proof.Machine.execEntryTimeout s
  | .nwake n => Sys2Proof.Machine.execNwake s n
  | .slowAlarm => Sys2Proof.Machine.execSlowAlarm s
  | .alarmHiWrite m v => Sys2Proof.Machine.execAlarmHiWrite m v s
  | .aonTempWake n t => Sys2Proof.Machine.execAonTempWake n s t
  | .standbyWake n => Sys2Proof.Machine.execStandbyWake n s
  | .hibernateWake n => Sys2Proof.Machine.execHibernateWake n s
  | .boostReq m v => Sys2Proof.Machine.execBoostReq m v s
  | .boostEntry => Sys2Proof.Machine.execBoostEntry s
  | .budgetUpdate => Sys2Proof.Machine.execBudgetUpdate s
  | .railAverage ma => Sys2Proof.Machine.execRailAverage ma s
  | .tempMeasure ts => Sys2Proof.Machine.execTempMeasure ts s
  | .xtalFail stop ppm => Sys2Proof.Machine.execXtalFail s stop ppm
  | .xtalReturn => Sys2Proof.Machine.execXtalReturn s
  | .slowClockFail stop => Sys2Proof.Machine.execSlowClockFail s stop
  | .islClockStep n => Sys2Proof.Machine.execIslClockStep n s
  | .islTrimStep n => Sys2Proof.Machine.execIslTrimStep n s
  | .powerOnReset straps supplies => Sys2Proof.Machine.execPowerOnReset straps s supplies
  | .brownoutReset n back => Sys2Proof.Machine.execBrownoutReset s n back
  | .pinReset straps n => Sys2Proof.Machine.execPinReset straps s n
  | .swrst m => Sys2Proof.Machine.execSwrst m s
  | .wdgEnable m n v => Sys2Proof.Machine.execWdgEnable m n v s
  | .wdgService m n v => Sys2Proof.Machine.execWdgService m n v s
  | .wdgWarning n => Sys2Proof.Machine.execWdgWarning n s
  | .wdgExpiry n => Sys2Proof.Machine.execWdgExpiry n s
  | .marginMeasure ms => Sys2Proof.Machine.execMarginMeasure ms s
  | .projectionUpdate => Sys2Proof.Machine.execProjectionUpdate s
  | .stressAccumulate => Sys2Proof.Machine.execStressAccumulate s
  | .islandTestSelect => Sys2Proof.Machine.execIslandTestSelect s
  | .islandEmpty => Sys2Proof.Machine.execIslandEmpty s
  | .logicBistEnd fail => Sys2Proof.Machine.execLogicBistEnd fail s
  | .marchEnd ok => Sys2Proof.Machine.execMarchEnd ok s
  | .islandRelease => Sys2Proof.Machine.execIslandRelease s
  | .evacuationTimeout => Sys2Proof.Machine.execEvacuationTimeout s
  | .coreBistStart n => Sys2Proof.Machine.execCoreBistStart n s
  | .coreBistAbort n => Sys2Proof.Machine.execCoreBistAbort n s
  | .coreBistEnd n ok => Sys2Proof.Machine.execCoreBistEnd n ok s
  | .fclr m v => Sys2Proof.Machine.execFclr m v s
  | .tapReset => Sys2Proof.Machine.execTapReset s
  | .extest scan => Sys2Proof.Machine.execExtest s scan
  | .samplePreload v => Sys2Proof.Machine.execSamplePreload v s
  | .idcode => Sys2Proof.Machine.execIdcode s
  | .clamp bits => Sys2Proof.Machine.execClamp s bits
  | .highz bits => Sys2Proof.Machine.execHighz s bits
  | .bypass code bits => Sys2Proof.Machine.execBypass s code bits
  | .accRead w go => Sys2Proof.Machine.execAccRead w s go
  | .accWrite w v => Sys2Proof.Machine.execAccWrite w v s
  | .bdataWrite v ecc => Sys2Proof.Machine.execBdataWrite v ecc s
  | .bdataRead ecc => Sys2Proof.Machine.execBdataRead ecc s
  | .halt m e => Sys2Proof.Machine.execHalt m e s
  | .resume m e => Sys2Proof.Machine.execResume m e s
  | .step m e => Sys2Proof.Machine.execStep m e s
  | .icinva m e => Sys2Proof.Machine.execIcinva m e s
  | .regdataAccess m e v => Sys2Proof.Machine.execRegdataAccess m e v s
  | .dbgRst m v => Sys2Proof.Machine.execDbgRst m v s
  | .patchBreak e => Sys2Proof.Machine.execPatchBreak e s
  | .patchWatch e pa store => Sys2Proof.Machine.execPatchWatch e pa store s
  | .patchWrite m k w v => Sys2Proof.Machine.execPatchWrite m k w v s
  | .stimWrite m k v => Sys2Proof.Machine.execStimWrite m k v s
  | .vtOutWrite m n b => Sys2Proof.Machine.execVtOutWrite m n b s
  | .vtInWrite m n b => Sys2Proof.Machine.execVtInWrite m n b s
  | .vtFullClear m n out => Sys2Proof.Machine.execVtFullClear m n out s
  | .registerWrite m pa v => Sys2Proof.Machine.execRegisterWrite m pa v s
  | .illegalInstruction e long => Sys2Proof.Machine.execIllegalInstruction e long s
  | .instructionFetchFault e second o => Sys2Proof.Machine.execInstructionFetchFault e second o s
  | .powerDown => Sys2Proof.Machine.execPowerDown s
  | .comparatorIn n hard v => Sys2Proof.Machine.execComparatorIn n hard s v
  | .tripInputInactive t n => Sys2Proof.Machine.execTripInputInactive t s n
  | .tethSymbolError l rd code => Sys2Proof.Machine.execTethSymbolError l s rd code
  | .tethInvalidCell l cut bs => Sys2Proof.Machine.execTethInvalidCell l s cut bs
  | .girthInvalidFrame g cut bytes => Sys2Proof.Machine.execGirthInvalidFrame g s cut bytes
  | .flashProgramDone k fail pulses => Sys2Proof.Machine.execFlashProgramDone k fail pulses s

end Sys2Proof.Machine
end

