-- ==== Sys2Proof/Machine/Tick.lean ====
section
/-! DEFINITION. One tick of the fast clocks, or of the slow clock while they stand: what the block does of its own
accord on an empty queue (log entry 7).  What is due at the present tick and has not been commanded happens
first, in the order below; then the counters reach the next tick. -/

namespace Sys2Proof.Machine

/-- Runs an update for every number of a list. -/
def forAll (l : List Nat) (f : Nat → State → State) (s : State) : State := l.foldl (fun s n => f n s) s
/-- Runs an update where its condition holds. -/
def onlyIf (due : State → Nat → Bool) (f : Nat → State → State) (n : Nat) (s : State) : State :=
  if due s n then f n s else s

/-! ### What is due at the present tick -/

/-- A timer's zero tick and channels (R116, R117). -/
def timerDue (n : Nat) (s : State) : State :=
  forAll (List.range 4) (fun k s => if channelDue s n k then channelFire n k s else s)
    (if (s.timer n).zeroDue then timerZero n s else s)

/-- What a bridge has due: its boundary, a cut, the acquisition and the sample instant, its edges and turn-ons, then the comparators and
trips, whose blanking counts from the edges of the tick, a debug halt, a sample whose results have not come, and
outputs without a measurement window (R143, R151, R163–R189). -/
def bridgeDue (b : Nat) (s : State) : State :=
  let s1 := if (s.br b).boundaryDue then periodBoundary b s else s
  let s2 := if (s1.br b).cutDue then cutTick b s1 else s1
  let s2 := if acquireDue s2 b then acquire b s2 else s2
  let s3 := if instantDue s2 b then sampleAxis b s2 else s2
  let s4 := haltCheck b (evalBridge b (bridgeEdges b s3))
  delayStarve b (if conversionOver s4 b then conversionEnd b [] s4 else s4)

/-- A feedback unit's capture, and its block once six coarse ticks have passed (R198). -/
def unitDue (f : Nat) (s : State) : State :=
  let s1 := if (s.fb f).capDue then fbCapture f s else s
  if fbBlockDue s1 f then fbBlockWrite f s1 else s1

/-- A track's crossings (R221, R222). -/
def trackDue (k : Nat) (s : State) : State :=
  let s1 := if markDue s k then markFire k s else s
  if predictedDue s1 k then predictedFire k s1 else s1

/-- A watchdog's warning and expiry (R442). -/
def wdgDue (n : Nat) (s : State) : State :=
  let s1 := if wdgWarnDue s n then wdgWarn n s else s
  if wdgExpired s1 n then wdgViolation n 1 s1 else s1

/-- The reserve, and the Saddler's and the compares' deadlines (R30, R81, R241, R244, R246, R250, R252, R257). -/
def axesDue (s : State) : State :=
  let sr := reserveCheck s
  let s0 := s.axis.overload.foldl (fun s g => overloadStep g s) (if balanceDue sr then balanceCheck sr else sr)
  let s1 := forAll (Tbl.keys s0.axis.banks) spDueFire s0
  let s2 := forAll (Tbl.keys s1.axis.ctxs) (fun n s => retryOrders n (pairCompare n (shadowCompare n s))) s1
  forAll (Tbl.keys s2.axis.axes) (fun a s => quietEnd a (commitDeadline a s)) s2

/-- Everything that is due at the present tick.  DESIGN CHOICE (log entry 67): after a sleep the first tick at which slots that
fell due in it fire (R109) is that of the loaded Selvedge value itself. -/
def allDue (s : State) : State :=
  let s0 := if slowmeasDue s then slowmeasTake s else s
  let s1 := forAll (List.range 256) (onlyIf slotDue slotFire) s0
  let s2 := forAll (List.range 64) timerDue s1
  let s2 := forAll (List.range 4) tripFilter (forAll (List.range 24) thresholdJudge s2)
  let s2 := if rotationDue s2 then rotationStep s2 else s2
  let s2 := if calAgeDue s2 then calAgeCheck s2 else s2
  let s3 := forAll (List.range 12) bridgeDue (if sweepDue s2 then sweepStep false s2 else s2)
  let s4 := forAll (List.range 8) sencTick (forAll (List.range 12) unitDue s3)
  let s5 := forAll (List.range 8) pulseEnd (forAll (List.range 8) trackDue s4)
  let s6 := axesDue s5
  let s7 := forAll (List.range 16) linkTick s6
  let s8 := forAll (List.range 4) (fun g s => girthTick g (onlyIf (fun s g => (s.girth g).startDue && girthEn s g) cycleStart g s)) s7
  let s9 := scrubRead true .clean (scrubRead false .clean (forAll (List.range 2) (onlyIf qbvDue qbvSwitch) s8))
  let s10 := bootReq (bootDataTimeout (serveWaiting (forAll (List.range 6) wdgDue (entryTimeout (standbyEntry s9)))))
  let s10 := boostEntry (if budgetDue s10 then budgetUpdate s10 else s10)
  let s10 := forAll (List.range 8) (fun i s => onlyIf clockDue clockStep i (stepTimes i (onlyIf trimDue trimStep i (stepTimes i s)))) s10
  let s11 := forAll (List.range 11) (onlyIf critDue critStep) (if projectionDue s10 then projectAll s10 else s10)
  let s12 := islandTestSelect (evacuationTimeout (islandEmpty (stressSecond s11)))
  let s13 := sampleAll (settle s12)
  forAll [32, 33, 34, 35, 36] wfiWake (forAll (List.range 4) coreBistStart (forAll (List.range 4) coreBistAbort s13))

/-! ### The next tick -/

/-- The clock of an element in MHz (R432, R434). -/
def elemClock (s : State) (i : Nat) : Nat :=
  if i < 32 then islClock s (i / 4) else if i < 36 then (if opMode s = 5 then 1200 else 1000) else 400

/-- An engine with no run in progress stops its clock (R237). -/
def clockRuns (s : State) (i : Nat) : Bool :=
  let e := s.el i
  if i < 32 then (e.runA.isSome || e.runB.isSome || e.runC.isSome) else !e.down

/-- One tick of an element's clock: `CYCLE` (R95), the cycles of the run in progress (R238), and `REIN.BUSY_e` (R266). -/
def elemTick (i : Nat) (s : State) : State :=
  if !powered s || !clockRuns s i then s
  else
    let f := elemClock s i
    let e := s.el i
    let c := e.cycRes + f
    let e1 := { e with cycle := e.cycle + w32 (c / 800), cycRes := c % 800 }
    let e2 := if i < 32 then e1.putRun e1.cur ((e1.run e1.cur).map (fun r => { r with acc := r.acc + f })) else e1
    let s0 := s.setEl i e2
    if i < 32 then
      let s1 := bumpN .rein 0 (Rein.BUSY i) (c / 800) s0
      { s1 with axis.busy := Tbl.set (fun _ => 0) s1.axis.busy i (Tbl.get (fun _ => 0) s1.axis.busy i + f) }
    else s0

/-- An island's cycles in the present 10 ms interval. -/
def islandTick (i : Nat) (s : State) : State :=
  { s with axis.busy := Tbl.set (fun _ => 0) s.axis.busy (32 + i) (Tbl.get (fun _ => 0) s.axis.busy (32 + i) + islClock s i) }

/-- The end of a 10 ms interval: `ENG_e.LOAD` of every engine. -/
def loadInterval (s : State) : State :=
  let per (g : Nat) : Nat :=
    let d := Tbl.get (fun _ => 0) s.axis.busy (32 + g / 4)
    if d = 0 then 0 else Tbl.get (fun _ => 0) s.axis.busy g * 1000 / d
  let s1 := forAll (List.range 32) (fun g s => s.setRgFld (ri .isl (g / 4) (Isl.ENG (g % 4))) 9 0 (per g)) s
  { s1 with axis.busy := [] }

/-- What a new coarse tick brings: safe states after a paired fault, the outputs' sources, the carriers, the linear positions of R221 as the tick before
left them, loads, the levels that the filters of the units accept, tracks that arm, `LIMIT`. -/
def coarseTick (s : State) : State :=
  let s0 := forAll (Tbl.keys s.axis.axes) pairSafe s
  let s1 := forAll (List.range 12) (fun b s => carrierTick b (showSources b s)) s0
  let s2 := forAll (List.range 12) (fun f s =>
    let u := s.fb f
    s.setFb f { u with lEnd := linear u.pos u.turns (revOf (s.rg (fr f Fb.REV_COUNT))), inp := BitVec.ofNat 3 (fbBalls s f) }) s1
  let s2 := forAll (List.range 12) fbFilter (forAll (List.range 12) (onlyIf (fun s f => (s.fb f).loadDue) fbLoad) s2)
  forAll (List.range 8) (fun k s =>
    let s1 := s.setTrk k { s.trk k with limit := fld (s.rg (tr (Awl.TRK_LIMIT k))) 14 0 }
    match (s1.trk k).armAt with
    | some t => if t ≤ coarse s1 && awlRuns s1 then trkArm k s1 else s1
    | none => s1) s2

/-- The slow clock's count reaches its next value (R109); a run of R110 begins at such an edge. -/
def slowCount (s : State) : State :=
  let t := s.time
  slowAlarm { s with time.slow := t.slow + 1, time.measOn := t.run,
                     time.measSlow := if t.run && t.measOn then t.measSlow + 1 else 0,
                     time.measTicks := if t.run && t.measOn then t.measTicks else 0 }

/-- The slow clock over one Selvedge tick: its edges come at the rate of the crystals (DESIGN CHOICE, log entry 67: the
nominal rate at reset). -/
def slowTick (s : State) : State :=
  let r := s.time.slowRes + 32768
  if s.time.slowPer ≤ r then slowCount { s with time.slowRes := r - s.time.slowPer } else { s with time.slowRes := r }

/-- The watchdogs count in steps of 10 µs (R442). -/
def wdgCount (s : State) : State :=
  if s.power.presc + 1 < 8000 then { s with power.presc := s.power.presc + 1 }
  else forAll (List.range 6) wdgTick { s with power.presc := 0 }

/-- Selvedge reaches its next tick, and everything that counts its ticks follows (R102, R114, R115, R164). -/
def nextTick (s : State) : State :=
  let t := s.time.selvedge
  let s1 := { s with time.selvedge := t + 1, time.measTicks := s.time.measTicks + 1,
                     time.acCyc := s.time.acCyc + elemClock s 32,
                     test.second := s.test.second + 1,
                     time.slots := s.time.slots.map (fun e => (e.1, slotNextTick e.2)),
                     time.timers := s.time.timers.map (fun e => (e.1, { e.2 with ticked := false })) }
  let s2 := forAll (List.range 64) timerPrescale s1
  let s4 := forAll (List.range 2) ethTick s2
  let s5 := forAll (List.range 8) islandTick (forAll (List.range 37) elemTick s4)
  let s6 := if (t.toNat + 1) % 8000000 = 0 then loadInterval s5 else s5
  let s7 := if powered s6 then wdgCount s6 else s6
  slowTick (if (t.toNat + 1) % 2 = 0 then coarseTick s7 else s7)

/-- One tick on an empty queue: of Selvedge while the fast clocks run, else of the slow clock. -/
def tick (s : State) : State :=
  if s.time.run then (let s1 := allDue s; if s1.time.run then nextTick s1 else s1) else slowCount s

end Sys2Proof.Machine
end

