-- ==== Sys2Proof/Safety.lean ====
section
/-! DEFINITION. The words that the claims are made of: the invariant that every step keeps, what a register access
gives, and an instruction that runs with nothing else waiting at its boundary. -/

namespace Sys2Proof.Machine

/-! ### The invariant -/

/-- The memory and the register file stand in their canonical form: addresses strictly rising, and no entry
that equals what an unlisted address reads as. -/
structure State.Inv (s : State) : Prop where
  mem : Memory.wf s.mem
  regs : Tbl.wf regReset s.regs = true

/-- The invariant, with the queue of waiting commands as it is given. -/
structure Kept (q : List Instr) (s : State) : Prop where
  pending : s.pending = q
  inv : s.Inv

/-- A command completes: it ends in a next state, not in a fault or a refusal. -/
def Completes (c : Instr) (s : State) : Prop := ∃ t, exec c s = .next t

/-! ### Register accesses (R5–R8) -/

/-- What a register access by a command gives: where the gate lets the master through to the address, the state `t`
with a plain answer on the bus; where it does not, the state as it was with an error response. -/
def Writes (c : Instr) (s : State) (m : Master) (pa : Nat) (t : State) : Prop :=
  (gateRefuses s m pa 4 = false → exec c s = .next { t with resp := .ok 0 }) ∧
  (gateRefuses s m pa 4 = true → exec c s = .next { s with resp := .err })

/-! ### Instructions that run alone -/

/-- Element `i` executes its next instruction, and nothing else happens at the boundary before or after it: no `WAITS`
or `WFI`, no imprecise error, no repeat, no consumption of `PROGRESS`, and no halt or step of the debugger
and no patch unit that has fired. -/
structure Bare (s : State) (i : Nat) : Prop where
  awake : awake s i = true
  runs : inWaits s i = false
  wfi : (s.el i).wfi = false
  imp : (s.el i).imp = []
  stalled : (s.el i).stalled = false
  repAct : repAct (s.rset i) = false
  repSaved : (s.rset i).repSaved = none
  progArm : (s.rset i).progArm = false
  want : s.dbg.want = []
  steps : s.dbg.steps = []
  fired : s.dbg.fired = false

/-- Moreover no register write waits for a `SYNC`, and no mode change stands in its window (R100). -/
structure Ready (s : State) (i : Nat) : Prop extends Bare s i where
  view : (s.el i).view = []
  pendSr : (s.el i).pendSr = []
  pendSt : (s.rset i).pendSt = []
  pendWorld : (s.rset i).pendWorld = []

/-- Element `i` stands past its instruction of `size` bytes. -/
def State.passed (s : State) (i size : Nat) : State :=
  s.setRset i { s.rset i with pc := (s.rset i).pc + w32 size }

/-- Element `i` stands at the target of its jump. -/
def State.jumped (s : State) (i : Nat) (a : Word) : State := s.setRset i { s.rset i with pc := a }

/-- The instruction has raised an exception whose `EPC` is its own address (R91, R93), and its boundary has been
passed. -/
def State.trapped (s : State) (i : Nat) (t : Trap) : State :=
  boundary i true (enterExc i t (s.rset i).pc false s)

/-- What an instruction that computes from the registers alone gives on an element that is ready: its result and
flags where the register fields `ns` of its format are legal on the element, else an illegal-instruction
exception (R42). -/
def Computes (c : Instr) (s : State) (i : Nat) (ns : List (BitVec 5)) (rd : Option Nat) (S : Bool) (size : Nat)
    (x : AluRes) : Prop :=
  Ready s i →
    (regsOk i ns = true → exec c s = .next ((s.setRset i
      { (match rd with | some n => (s.rset i).setGr n x.val | none => s.rset i) with
        status := statusAfter (s.rset i).status S x }).passed i size)) ∧
    (regsOk i ns = false → exec c s = .next (s.trapped i Trap.illegal))

end Sys2Proof.Machine
end

