-- ==== Sys2Proof/Certificates/Slice0/Obligations.lean ====
section
/-! DEFINITION. The statements for the provers: each family of commands and each kind of state has one that says
which next state its rules give; then what reset leaves, what a step does, and the invariant it keeps. -/

open Sys2Proof Sys2Proof.Machine

/-- A computed result changes only the flags its rule names (R45, R47). -/
def Obligations.FlagRule : Prop :=
  ∀ (w : Word) (S : Bool) (x : AluRes),
    tb (statusAfter w S x) 3 = (if S then x.val.msb else tb w 3) ∧
    tb (statusAfter w S x) 2 = (if S then decide (x.val = 0) else tb w 2) ∧
    tb (statusAfter w S x) 1 = (if S then x.c.getD (tb w 1) else tb w 1) ∧
    tb (statusAfter w S x) 0 = (if S then x.v.getD (tb w 0) else tb w 0) ∧
    tb (statusAfter w S x) 4 = (tb w 4 || x.q) ∧
    ∀ j, 5 ≤ j → tb (statusAfter w S x) j = tb w j

/-- ADD, ADC, SUB, SBC, ADDI, CMP, CMPI and NEG give the stated sums and differences (R42, R45, R47, R50).
Readings and choices of the model in it: log entry 56. -/
def Obligations.SumsAndDifferences : Prop :=
  ∀ (s : State) (e : Elem) (rd ra rb : BitVec 5) (r4 t4 : BitVec 4) (imm : BitVec 14) (i8 : BitVec 8) (S : Bool),
    let r := s.rset (elemIdx e)
    let sum (a b : Word) (c : Bool) : AluRes :=
      { val := a + b + (if c then 1 else 0), c := some (decide (2 ^ 32 ≤ a.toNat + b.toNat + b2n c)),
        v := some (decide (a.toInt + b.toInt + b2n c < -2 ^ 31 ∨ 2 ^ 31 ≤ a.toInt + b.toInt + b2n c)) }
    let diff (a b : Word) (borrow : Bool) : AluRes :=
      { val := a - b - (if borrow then 1 else 0), c := some (decide (b.toNat + b2n borrow ≤ a.toNat)),
        v := some (decide (a.toInt - b.toInt - b2n borrow < -2 ^ 31 ∨ 2 ^ 31 ≤ a.toInt - b.toInt - b2n borrow)) }
    let a := r.gr ra.toNat
    let b := r.gr rb.toNat
    Computes (.add e (.r32 rd ra rb S)) s (elemIdx e) [rd, ra, rb] (some rd.toNat) S 4 (sum a b false) ∧
    Computes (.add e (.rr r4 t4)) s (elemIdx e) [] (some r4.toNat) false 2
      (sum (r.gr r4.toNat) (r.gr t4.toNat) false) ∧
    Computes (.adc e rd ra rb S) s (elemIdx e) [rd, ra, rb] (some rd.toNat) S 4 (sum a b (tb r.status 1)) ∧
    Computes (.sub e (.r32 rd ra rb S)) s (elemIdx e) [rd, ra, rb] (some rd.toNat) S 4 (diff a b false) ∧
    Computes (.sub e (.rr r4 t4)) s (elemIdx e) [] (some r4.toNat) false 2
      (diff (r.gr r4.toNat) (r.gr t4.toNat) false) ∧
    Computes (.sbc e rd ra rb S) s (elemIdx e) [rd, ra, rb] (some rd.toNat) S 4 (diff a b (!tb r.status 1)) ∧
    Computes (.addi e (.i32 rd ra imm)) s (elemIdx e) [rd, ra] (some rd.toNat) false 4
      (sum a (imm.signExtend 32) false) ∧
    Computes (.addi e (.i8 r4 i8)) s (elemIdx e) [] (some r4.toNat) false 2
      (sum (r.gr r4.toNat) (i8.signExtend 32) false) ∧
    Computes (.cmp e r4 t4) s (elemIdx e) [] none true 2 (diff (r.gr r4.toNat) (r.gr t4.toNat) false) ∧
    Computes (.cmpi e (.i32 ra imm)) s (elemIdx e) [ra] none true 4 (diff a (imm.signExtend 32) false) ∧
    Computes (.cmpi e (.i8 r4 i8)) s (elemIdx e) [] none true 2 (diff (r.gr r4.toNat) (i8.setWidth 32) false) ∧
    Computes (.neg e r4 t4) s (elemIdx e) [] (some r4.toNat) false 2 { val := -(r.gr t4.toNat) }

/-- The sixteen conditions, with 0xF reserved (R46). -/
def Obligations.ConditionTable : Prop :=
  (∀ (w : Word) (n z c v : Bool), tb w 3 = n → tb w 2 = z → tb w 1 = c → tb w 0 = v →
    condHolds w 0x0 = z ∧ condHolds w 0x1 = !z ∧ condHolds w 0x2 = c ∧ condHolds w 0x3 = !c ∧
    condHolds w 0x4 = n ∧ condHolds w 0x5 = !n ∧ condHolds w 0x6 = v ∧ condHolds w 0x7 = !v ∧
    condHolds w 0x8 = (c && !z) ∧ condHolds w 0x9 = (!c || z) ∧ condHolds w 0xA = decide (n = v) ∧
    condHolds w 0xB = decide (n ≠ v) ∧ condHolds w 0xC = (!z && decide (n = v)) ∧
    condHolds w 0xD = (z || decide (n ≠ v)) ∧ condHolds w 0xE = true) ∧
  ∀ (s : State) (e : Elem) (o8 : BitVec 8) (o20 : BitVec 20), Ready s (elemIdx e) →
    exec (.bcc e (.b16 0xF o8)) s = .next (s.trapped (elemIdx e) Trap.illegal) ∧
    exec (.bcc e (.b32 0xF o20)) s = .next (s.trapped (elemIdx e) Trap.illegal)

/-- Logic, extension and move instructions give the stated value and nothing else (R45, R47, R50). -/
def Obligations.LogicAndMoves : Prop :=
  ∀ (s : State) (e : Elem) (rd ra rb : BitVec 5) (r4 t4 : BitVec 4) (imm : BitVec 14) (k : BitVec 19) (u : BitVec 8)
    (S : Bool),
    let i := elemIdx e
    let r := s.rset i
    let a := r.gr ra.toNat
    let b := r.gr rb.toNat
    let d := r.gr r4.toNat
    let t := r.gr t4.toNat
    Computes (.and_ e (.r32 rd ra rb S)) s i [rd, ra, rb] (some rd.toNat) S 4 { val := a &&& b } ∧
    Computes (.and_ e (.rr r4 t4)) s i [] (some r4.toNat) false 2 { val := d &&& t } ∧
    Computes (.or_ e (.r32 rd ra rb S)) s i [rd, ra, rb] (some rd.toNat) S 4 { val := a ||| b } ∧
    Computes (.or_ e (.rr r4 t4)) s i [] (some r4.toNat) false 2 { val := d ||| t } ∧
    Computes (.xor_ e (.r32 rd ra rb S)) s i [rd, ra, rb] (some rd.toNat) S 4 { val := a ^^^ b } ∧
    Computes (.xor_ e (.rr r4 t4)) s i [] (some r4.toNat) false 2 { val := d ^^^ t } ∧
    Computes (.andn e rd ra rb S) s i [rd, ra, rb] (some rd.toNat) S 4 { val := a &&& ~~~b } ∧
    Computes (.andi e rd ra imm) s i [rd, ra] (some rd.toNat) false 4 { val := a &&& imm.setWidth 32 } ∧
    Computes (.ori e rd ra imm) s i [rd, ra] (some rd.toNat) false 4 { val := a ||| imm.setWidth 32 } ∧
    Computes (.xori e rd ra imm) s i [rd, ra] (some rd.toNat) false 4 { val := a ^^^ imm.setWidth 32 } ∧
    Computes (.tsti e ra imm) s i [ra] none true 4 { val := a &&& imm.setWidth 32 } ∧
    Computes (.tst e r4 t4) s i [] none true 2 { val := d &&& t } ∧
    Computes (.not_ e r4 t4) s i [] (some r4.toNat) false 2 { val := ~~~t } ∧
    Computes (.mov e r4 t4) s i [] (some r4.toNat) false 2 { val := t } ∧
    Computes (.movi e r4 u) s i [] (some r4.toNat) false 2 { val := u.setWidth 32 } ∧
    Computes (.movh e rd k) s i [rd] (some rd.toNat) false 4 { val := k.setWidth 32 <<< 13 } ∧
    Computes (.adrh e rd k) s i [rd] (some rd.toNat) false 4 { val := r.pc + 4 + (k.setWidth 32 <<< 13) } ∧
    Computes (.sextb e r4 t4) s i [] (some r4.toNat) false 2 { val := (t.setWidth 8).signExtend 32 } ∧
    Computes (.sexth e r4 t4) s i [] (some r4.toNat) false 2 { val := (t.setWidth 16).signExtend 32 } ∧
    Computes (.zextb e r4 t4) s i [] (some r4.toNat) false 2 { val := t &&& 0xFF } ∧
    Computes (.zexth e r4 t4) s i [] (some r4.toNat) false 2 { val := t &&& 0xFFFF } ∧
    (Ready s i → exec (.nop e) s = .next (s.passed i 2))

/-- Shifts and rotates by every amount, with the carry shifted out (R48). -/
def Obligations.Shifts : Prop :=
  ∀ (s : State) (e : Elem) (rd ra rb n : BitVec 5) (r4 t4 : BitVec 4) (S : Bool),
    let i := elemIdx e
    let r := s.rset i
    let left (a : Word) (n : Nat) : AluRes :=
      { val := if n < 32 then a <<< n else 0, c := if n = 0 then none else some ((a.toNat * 2 ^ n).testBit 32) }
    let right (a : Word) (n : Nat) : AluRes :=
      { val := if n < 32 then a >>> n else 0, c := if n = 0 then none else some (a.toNat.testBit (n - 1)) }
    let arith (a : Word) (n : Nat) : AluRes :=
      { val := BitVec.ofInt 32 (a.toInt / 2 ^ n), c := if n = 0 then none else some (decide (a.toInt / 2 ^ (n - 1) % 2 = 1)) }
    let rot (a : Word) (n : Nat) : AluRes :=
      { val := a >>> n ||| a <<< (32 - n), c := if n = 0 then none else some (a.toNat.testBit (n - 1)) }
    let a := r.gr ra.toNat
    let b := r.gr rb.toNat
    let d := r.gr r4.toNat
    let t := r.gr t4.toNat
    Computes (.lsl e (.r32 rd ra rb S)) s i [rd, ra, rb] (some rd.toNat) S 4 (left a (b.toNat % 256)) ∧
    Computes (.lsl e (.rr r4 t4)) s i [] (some r4.toNat) false 2 (left d (t.toNat % 256)) ∧
    Computes (.lsr e (.r32 rd ra rb S)) s i [rd, ra, rb] (some rd.toNat) S 4 (right a (b.toNat % 256)) ∧
    Computes (.lsr e (.rr r4 t4)) s i [] (some r4.toNat) false 2 (right d (t.toNat % 256)) ∧
    Computes (.asr e (.r32 rd ra rb S)) s i [rd, ra, rb] (some rd.toNat) S 4 (arith a (b.toNat % 256)) ∧
    Computes (.asr e (.rr r4 t4)) s i [] (some r4.toNat) false 2 (arith d (t.toNat % 256)) ∧
    Computes (.ror e rd ra rb S) s i [rd, ra, rb] (some rd.toNat) S 4 (rot a (b.toNat % 32)) ∧
    Computes (.lsli e (.i32 rd ra n)) s i [rd, ra] (some rd.toNat) false 4 (left a n.toNat) ∧
    Computes (.lsli e (.i16 r4 n)) s i [] (some r4.toNat) false 2 (left d n.toNat) ∧
    Computes (.lsri e (.i32 rd ra n)) s i [rd, ra] (some rd.toNat) false 4 (right a n.toNat) ∧
    Computes (.lsri e (.i16 r4 n)) s i [] (some r4.toNat) false 2 (right d n.toNat) ∧
    Computes (.asri e (.i32 rd ra n)) s i [rd, ra] (some rd.toNat) false 4 (arith a n.toNat) ∧
    Computes (.asri e (.i16 r4 n)) s i [] (some r4.toNat) false 2 (arith d n.toNat) ∧
    Computes (.rori e rd ra n) s i [rd, ra] (some rd.toNat) false 4 (rot a n.toNat)

/-- Products, minima, comparisons, CLZ and saturating sums (R45, R47, R50). -/
def Obligations.Products : Prop :=
  ∀ (s : State) (e : Elem) (rd ra rb : BitVec 5) (r4 t4 : BitVec 4) (S : Bool),
    let i := elemIdx e
    let r := s.rset i
    let a := r.gr ra.toNat
    let b := r.gr rb.toNat
    let res (v : Word) : AluRes := { val := v }
    let is (c : Instr) (v : Word) : Prop := Computes c s i [rd, ra, rb] (some rd.toNat) S 4 (res v)
    is (.mul e (.r32 rd ra rb S)) (a * b) ∧
    Computes (.mul e (.rr r4 t4)) s i [] (some r4.toNat) false 2 (res (r.gr r4.toNat * r.gr t4.toNat)) ∧
    is (.mulhs e rd ra rb S) ((a.signExtend 64 * b.signExtend 64).extractLsb' 32 32) ∧
    is (.mulhu e rd ra rb S) ((a.setWidth 64 * b.setWidth 64).extractLsb' 32 32) ∧
    is (.min e rd ra rb S) (if a.toInt ≤ b.toInt then a else b) ∧
    is (.max e rd ra rb S) (if a.toInt ≤ b.toInt then b else a) ∧
    is (.minu e rd ra rb S) (if a ≤ b then a else b) ∧
    is (.maxu e rd ra rb S) (if a ≤ b then b else a) ∧
    is (.slt e rd ra rb S) (if a.slt b then 1 else 0) ∧
    is (.sltu e rd ra rb S) (if a < b then 1 else 0) ∧
    (∃ n : Nat, n ≤ 32 ∧ a.toNat < 2 ^ (32 - n) ∧ (n < 32 → 2 ^ (31 - n) ≤ a.toNat) ∧
      Computes (.clz e rd ra S) s i [rd, ra, 0] (some rd.toNat) S 4 (res (w32 n))) ∧
    (let sat (x : Int) : AluRes :=
      { val := BitVec.ofInt 32 (max (-2 ^ 31) (min (2 ^ 31 - 1) x)), v := some (decide (x < -2 ^ 31 ∨ 2 ^ 31 ≤ x)),
        q := decide (x < -2 ^ 31 ∨ 2 ^ 31 ≤ x) }
     Computes (.addsat e rd ra rb S) s i [rd, ra, rb] (some rd.toNat) S 4 (sat (a.toInt + b.toInt)) ∧
     Computes (.subsat e rd ra rb S) s i [rd, ra, rb] (some rd.toNat) S 4 (sat (a.toInt - b.toInt)))

/-- Division never raises an exception and gives the stated corner results (R49). Readings and choices of the
model in it: log entry 56. -/
def Obligations.Division : Prop :=
  ∀ (s : State) (e : Elem) (rd ra rb : BitVec 5) (S : Bool),
    let i := elemIdx e
    let r := s.rset i
    let a := r.gr ra.toNat
    let b := r.gr rb.toNat
    let is (c : Instr) (v : Word) (bad : Bool) : Prop :=
      Computes c s i [rd, ra, rb] (some rd.toNat) S 4 { val := v, v := some bad }
    let wraps : Bool := a = 0x80000000 && b = 0xFFFFFFFF
    is (.div e rd ra rb S false)
      (if b = 0 then 0xFFFFFFFF else if wraps then 0x80000000 else BitVec.ofInt 32 (a.toInt.tdiv b.toInt)) (b = 0 || wraps) ∧
    is (.rem e rd ra rb S false) (if b = 0 then a else if wraps then 0 else BitVec.ofInt 32 (a.toInt.tmod b.toInt))
      (b = 0 || wraps) ∧
    is (.divu e rd ra rb S false) (if b = 0 then 0xFFFFFFFF else a / b) (b = 0) ∧
    is (.remu e rd ra rb S false) (if b = 0 then a else a % b) (b = 0) ∧
    (∀ c ∈ [Instr.div e rd ra rb S true, .rem e rd ra rb S true, .divu e rd ra rb S true, .remu e rd ra rb S true],
      Ready s i → regsOk i [rd, ra, rb] = true → exec c s = .next s)

/-- Loads put the read bytes, extended, into rd (R52, R55, R56). Readings and choices of the model in it: log
entries 47, 56. -/
def Obligations.Loads : Prop :=
  ∀ (s s1 : State) (e : Elem) (rd ra : BitVec 5) (r4 t4 : BitVec 4) (imm : BitVec 14) (off9 : BitVec 9) (o : Obs) (bs : List Byte),
    let i := elemIdx e
    let r := s.rset i
    let base := r.gr ra.toNat
    let va := base + imm.signExtend 32
    let reads (n : Nat) (a : Word) : Prop := Ready s i ∧ Ready s1 i ∧ loadVa i n a o s = (.ok bs, s1)
    let gives (c : Instr) (size : Nat) (t : State) : Prop := exec c s = .next (t.passed i size)
    let s8 := (BitVec.ofNat 8 (ofBytes bs)).signExtend 32
    let s16 := (BitVec.ofNat 16 (ofBytes bs)).signExtend 32
    let u := w32 (ofBytes bs)
    let put (v : Word) : State := putGr i rd.toNat v s1
    let putP (v : Word) : State := putGr i ra.toNat va (putGr i rd.toNat v s1)
    (regsOk i [rd, ra] = true →
      (reads 1 va → gives (.ldb e rd ra imm o) 4 (put s8) ∧ gives (.ldbu e rd ra imm o) 4 (put u)) ∧
      (reads 2 va → gives (.ldh e rd ra imm o) 4 (put s16) ∧ gives (.ldhu e rd ra imm o) 4 (put u)) ∧
      (reads 4 va → gives (.ldw e (.i32 rd ra imm) o) 4 (put u)) ∧
      (rd ≠ ra →
        (reads 1 base → gives (.ldbP e rd ra imm o) 4 (putP s8) ∧ gives (.ldbuP e rd ra imm o) 4 (putP u)) ∧
        (reads 2 base → gives (.ldhP e rd ra imm o) 4 (putP s16) ∧ gives (.ldhuP e rd ra imm o) 4 (putP u)) ∧
        (reads 4 base → gives (.ldwP e rd ra imm o) 4 (putP u)))) ∧
    (reads 4 (r.gr t4.toNat) → gives (.ldw e (.r16 r4 t4) o) 2 (putGr i r4.toNat u s1)) ∧
    (isEngine i = false → (r.gr 14).toNat % 4 = 0 → reads 4 (r.gr 14 + w32 (4 * off9.toNat)) →
      gives (.ldwSp e r4 off9 o) 2 (putGr i r4.toNat u s1))

/-- Stores write the low bytes of rd at the stated address (R52, R55, R56). Readings and choices of the model in
it: log entries 47, 56. -/
def Obligations.Stores : Prop :=
  ∀ (s s1 : State) (e : Elem) (rd ra : BitVec 5) (r4 t4 : BitVec 4) (imm : BitVec 14) (off9 : BitVec 9) (o : Obs),
    let i := elemIdx e
    let r := s.rset i
    let base := r.gr ra.toNat
    let v := (r.gr rd.toNat).toNat
    let va := base + imm.signExtend 32
    let puts (n : Nat) (a : Word) (v : Nat) : Prop := Ready s i ∧ Ready s1 i ∧ storeVa i a (toBytes n v) o s = (none, s1)
    let gives (c : Instr) (size : Nat) (t : State) : Prop := exec c s = .next (t.passed i size)
    let moved : State := putGr i ra.toNat va s1
    (regsOk i [rd, ra] = true →
      (puts 1 va v → gives (.stb e rd ra imm o) 4 s1) ∧ (puts 2 va v → gives (.sth e rd ra imm o) 4 s1) ∧
      (puts 4 va v → gives (.stw e (.i32 rd ra imm) o) 4 s1) ∧
      (puts 1 base v → gives (.stbP e rd ra imm o) 4 moved) ∧ (puts 2 base v → gives (.sthP e rd ra imm o) 4 moved) ∧
      (puts 4 base v → gives (.stwP e rd ra imm o) 4 moved)) ∧
    (puts 4 (r.gr t4.toNat) (r.gr r4.toNat).toNat → gives (.stw e (.r16 r4 t4) o) 2 s1) ∧
    (isEngine i = false → (r.gr 14).toNat % 4 = 0 → puts 4 (r.gr 14 + w32 (4 * off9.toNat)) (r.gr r4.toNat).toNat →
      gives (.stwSp e r4 off9 o) 2 s1)

/-- Bank-relative loads and stores of an engine reach the bank that their form names (R54, R55). Readings and
choices of the model in it: log entries 48, 56. -/
def Obligations.BankAccesses : Prop :=
  ∀ (s s1 : State) (g : Fin 32) (rd ra : BitVec 5) (r4 : BitVec 4) (off : BitVec 12) (off9 : BitVec 9) (o : Obs) (bs : List Byte) (k : Nat),
    let e := Elem.rein g
    let r := s.rset g
    let cur := fld (s.el g).bank 3 0
    let reads (n k off : Nat) : Prop := Ready s g ∧ Ready s1 g ∧ loadBank g n k off o.ecc s = (.ok bs, s1)
    let puts (n k off v : Nat) : Prop := Ready s g ∧ Ready s1 g ∧ storeBank g k off (toBytes n v) o.ecc s = (none, s1)
    let gives (c : Instr) (size : Nat) (t : State) : Prop := exec c s = .next (t.passed g size)
    let s8 := (BitVec.ofNat 8 (ofBytes bs)).signExtend 32
    let s16 := (BitVec.ofNat 16 (ofBytes bs)).signExtend 32
    let u := w32 (ofBytes bs)
    let v := (r.gr rd.toNat).toNat
    (rd.toNat < 16 → (ra = 0 ∧ k = cur ∨ 16 ≤ ra.toNat ∧ k = ra.toNat - 16) →
      (reads 1 k off.toNat → gives (.ldbK e rd ra off o) 4 (putGr g rd.toNat s8 s1) ∧
        gives (.ldbuK e rd ra off o) 4 (putGr g rd.toNat u s1)) ∧
      (reads 2 k off.toNat → gives (.ldhK e rd ra off o) 4 (putGr g rd.toNat s16 s1) ∧
        gives (.ldhuK e rd ra off o) 4 (putGr g rd.toNat u s1)) ∧
      (reads 4 k off.toNat → gives (.ldwK e (.i32 rd ra off) o) 4 (putGr g rd.toNat u s1)) ∧
      (puts 1 k off.toNat v → gives (.stbK e rd ra off o) 4 s1) ∧
      (puts 2 k off.toNat v → gives (.sthK e rd ra off o) 4 s1) ∧
      (puts 4 k off.toNat v → gives (.stwK e (.i32 rd ra off) o) 4 s1)) ∧
    (reads 4 cur (4 * off9.toNat) → gives (.ldwK e (.k16 r4 off9) o) 2 (putGr g r4.toNat u s1)) ∧
    (puts 4 cur (4 * off9.toNat) (r.gr r4.toNat).toNat → gives (.stwK e (.k16 r4 off9) o) 2 s1)

/-- LDX, STX, FENCE and the landing of posted stores (R53, R57, R58, R59, R60). Readings and choices of the
model in it: log entries 47, 52. -/
def Obligations.ReservationsAndFence : Prop :=
  ∀ (s s1 s2 s3 : State) (e : Elem) (rd ra rb : BitVec 5) (o : Obs) (bs : List Byte) (k : Nat) (ecc : Bool) (q : Posted) (p : Place),
    let i := elemIdx e
    let r := s.rset i
    let va := r.gr ra.toNat
    let gives (c : Instr) (t : State) : Prop := exec c s = .next (t.passed i 4)
    let free : State := s2.setEl i { s2.el i with resv := none }
    let kept : State := s2.setEl i { s2.el i with resv := some { granule := p.pa / 32, word := p.pa / 4 } }
    (Ready s i → Ready s2 i → regsOk i [rd, ra] = true → va.toNat % 4 = 0 →
      xlate i .load va o.wecc (applyObs i o s) = (.ok p, s1) → reservable s1 p.pa = true →
      loadAt i 4 p o.ecc (drainFor i (p.pa / 32 * 32) 32 s1) = (.ok bs, s2) → watchAccess i false p 4 kept = kept →
      gives (.ldx e rd ra o) (putGr i rd.toNat (w32 (ofBytes bs)) kept)) ∧
    (Ready s i → Ready s2 i → regsOk i [rd, ra, rb] = true → rd ≠ ra → rd ≠ rb → va.toNat % 4 = 0 →
      xlate i .store va o.wecc (applyObs i o s) = (.ok p, s1) → reservable s1 p.pa = true →
      drainFor i (p.pa / 32 * 32) 32 s1 = s2 →
      ((∀ x, (s2.el i).resv = some x → x.word ≠ p.pa / 4) → gives (.stx e rd ra rb o) (putGr i rd.toNat 1 free)) ∧
      (∀ x, (s2.el i).resv = some x → x.word = p.pa / 4 → Ready s3 i →
        stxStore i p (toBytes 4 (r.gr rb.toNat).toNat) o.ecc free = (none, s3) → watchAccess i true p 4 s3 = s3 →
        gives (.stx e rd ra rb o) (putGr i rd.toNat 0 s3))) ∧
    (Ready s i → regsOk i [rd, ra, rb] = true →
      (rd = ra ∨ rd = rb → exec (.stx e rd ra rb o) s = .next (s.trapped i Trap.illegal)) ∧
      (va.toNat % 4 ≠ 0 → exec (.ldx e rd ra o) s = .next (s.trapped i (Trap.align va)) ∧
        (rd ≠ ra → rd ≠ rb → exec (.stx e rd ra rb o) s = .next (s.trapped i (Trap.align va)))) ∧
      (va.toNat % 4 = 0 → reservable s1 p.pa = false →
        (xlate i .load va o.wecc (applyObs i o s) = (.ok p, s1) →
          exec (.ldx e rd ra o) s = .next (s1.trapped i (Trap.access false 7 9 va))) ∧
        (rd ≠ ra → rd ≠ rb → xlate i .store va o.wecc (applyObs i o s) = (.ok p, s1) →
          exec (.stx e rd ra rb o) s = .next (s1.trapped i (Trap.access true 7 9 va))))) ∧
    (Ready s i → (s.el i).wq = [] → gives (.fence e) s) ∧
    (Ready s i → Ready s1 i → drainAll i (s.el i).wq.length s = s1 → gives (.fence e) s1) ∧
    (mayLand s (s.el i).wq k = true → exec (.twillStoreAck e k) s = .next (takeImprecise i (landNth i k s))) ∧
    (mayLand s (s.el i).wq k = false → exec (.twillStoreAck e k) s = .next s ∧ exec (.impreciseBusError e k ecc) s = .next s) ∧
    ((s.el i).wq[k]? = some q → mayLand s (s.el i).wq k = true → exec (.impreciseBusError e k ecc) s =
      .next (takeImprecise i (noteError i q (if ecc then .ecc else .bus)
        (s.setEl i { s.el i with wq := (s.el i).wq.eraseIdx k }))))

/-- Branches, jumps, calls and the frame instructions go where their rules say (R46, R51, R61, R62, R63).
Readings and choices of the model in it: log entries 53, 56. -/
def Obligations.BranchesAndCalls : Prop :=
  ∀ (s s1 s2 : State) (e : Elem) (c rs : BitVec 4) (o8 : BitVec 8) (o20 : BitVec 20) (o24 : BitVec 24) (ra : BitVec 5)
    (H : Bool) (mask : BitVec 16) (os : List Obs) (bs : List Byte) (ws : List Word),
    let i := elemIdx e
    let r := s.rset i
    let far (o : Word) : Word := r.pc + 2 * o
    let t := r.gr rs.toNat
    let sp := r.gr 14
    Ready s i →
      exec (.bcc e (.b16 c o8)) s = .next (if c = 0xF then s.trapped i Trap.illegal
        else if condHolds r.status c.toNat then s.jumped i (far (o8.signExtend 32)) else s.passed i 2) ∧
      exec (.bcc e (.b32 c o20)) s = .next (if c = 0xF then s.trapped i Trap.illegal
        else if condHolds r.status c.toNat then s.jumped i (far (o20.signExtend 32)) else s.passed i 4) ∧
      exec (.b e o24) s = .next (s.jumped i (far (o24.signExtend 32))) ∧
      exec (.bl e o24) s = .next ((putGr i 15 (r.pc + 4) s).jumped i (far (o24.signExtend 32))) ∧
      exec (.jmpr e rs) s = .next (if tb t 0 then s.trapped i (Trap.align t) else s.jumped i t) ∧
      exec (.callr e rs) s = .next (if tb t 0 then s.trapped i (Trap.align t) else (putGr i 15 (r.pc + 2) s).jumped i t) ∧
      (Ready s1 i → regsOk i [ra] = true → (H = true → isEngine i = false) → (H = false → mask.toNat < 0x4000) →
        sp.toNat % 4 = 0 → tb (r.gr ra.toNat) 0 = false →
        (let regs := maskRegs H mask.toNat
         let a := sp - w32 (4 * (regs.length + 2))
         storeWords i a (w32 (b2n H * 65536 + mask.toNat) :: r.gr 15 :: regs.map r.gr) os s = (none, s1) →
         exec (.callm e ra H mask os) s =
           .next ((putGr i 15 ((s1.rset i).pc + 4) (putGr i 14 a s1)).jumped i (r.gr ra.toNat)))) ∧
      (Ready s2 i → sp.toNat % 4 = 0 → tb (r.gr 15) 0 = false → loadVa i 4 sp (os.headD {}) s = (.ok bs, s1) →
        (let fw := w32 (ofBytes bs)
         let regs := maskRegs (tb fw 16) (fld fw 15 0)
         fld fw 31 17 = 0 → (tb fw 16 = false → fld fw 15 14 = 0) → (tb fw 16 = true → isEngine i = false) →
         loadWords i (regs.length + 1) (sp + 4) os.tail s1 = (.ok ws, s2) →
         exec (.retm e os) s = .next ((putGr i 14 (sp + w32 (4 * (regs.length + 2))) (putGr i 15 (ws.headD 0)
           ((regs.zip ws.tail).foldl (fun s p => putGr i p.1 p.2 s) s2))).jumped i (r.gr 15))))

/-- MFS and MTS reach the registers the element has, under the privilege rule; REP starts a repeat (R34, R35,
R36, R64, R100, R101). Readings and choices of the model in it: log entries 41, 43, 56. -/
def Obligations.SpecialRegisters : Prop :=
  ∀ (s : State) (e : Elem) (rd ra : BitVec 5) (sreg : BitVec 8) (n6 : BitVec 6) (n8 : BitVec 8) (rs : BitVec 4),
    let i := elemIdx e
    let n := sreg.toNat
    let r := s.rset i
    let v := r.gr ra.toNat
    let allowed : Prop := sregPriv n = true → stPriv r = true
    let repeats (u : Bool) (k : Nat) : State := s.setRset i
      { r with status := setFld (setBit (setBit r.status 13 true) 14 u) 31 16 k, repSaved := some r.status }
    Ready s i →
      (regsOk i [rd] = true → sregHas i n = true → allowed →
        exec (.mfs e rd sreg) s = .next ((putGr i rd.toNat (sregGet (s.el i) (s.el i).cur n) s).passed i 4)) ∧
      (regsOk i [rd] = true → sregHas i n = true → ¬ allowed → exec (.mfs e rd sreg) s = .next (s.trapped i Trap.priv)) ∧
      (regsOk i [ra] = true → sregHas i n = true → allowed → n ≠ 0 →
        exec (.mts e sreg ra) s = .next ((s.setEl i (mtsWrite i n v (s.el i))).passed i 4)) ∧
      (regsOk i [ra] = true → sregHas i n = true → ¬ allowed → exec (.mts e sreg ra) s = .next (s.trapped i Trap.priv)) ∧
      (sregHas i n = false → exec (.mfs e rd sreg) s = .next (s.trapped i Trap.illegal) ∧
        exec (.mts e sreg ra) s = .next (s.trapped i Trap.illegal)) ∧
      (regsOk i [ra] = true → stPriv r = false → sreg = 0 → exec (.mts e sreg ra) s = .next
        ((s.setRset i { r with status := (r.status &&& ~~~ 0x1F) ||| (v &&& 0x1F) }).passed i 4)) ∧
      (regsOk i [ra] = true → stPriv r = true → tb v 13 = false → sreg = 0 → ∃ t, exec (.mts e sreg ra) s = .next t ∧
        (t.rset i).status = withModes (fixStatus i v) r.status ∧ (t.rset i).pendSt = [(fixStatus i v, 3)] ∧
        (t.rset i).pc = r.pc + 4) ∧
      exec (.repU e n6) s = .next (repeats true (n6.toNat + 1)) ∧
      exec (.repIImm e n8) s = .next (repeats false (n8.toNat + 1)) ∧
      exec (.repIReg e rs) s = .next (repeats false (fld (r.gr rs.toNat) 15 0))

/-- A slow special register takes its MTS value at a SYNC (R100, R101). Readings and choices of the model in it:
log entry 43. -/
def Obligations.MtsAndSync : Prop :=
  ∀ (s : State) (e : Elem) (x : ElemState) (n : Nat) (v : Word),
    let i := elemIdx e
    (sregSlow n = true → ∀ k m, sregGet (mtsWrite i n v x) k m = sregGet x k m) ∧
    (sregSlow n = false → n ∉ [0, 6, 0x0D, 0x0F] → mtsWrite i n v x = sregPut i x.cur n v x) ∧
    (n = 0x0D ∨ n = 0x0F → mtsWrite i n v x = x) ∧
    (Bare s i → (∀ p ∈ (s.el i).pendSr, sregSlow p.1 = true) → ∃ t, exec (.sync e) s = .next t ∧ (t.el i).pendSr = [] ∧ (t.rset i).pendSt = [] ∧
      (t.rset i).pendWorld = [] ∧ (t.el i).view = [] ∧
      (t.el i).world = (s.rset i).pendWorld.getLastD (s.el i).world ∧
      (∀ n w, n = 4 ∨ n = 7 ∨ 0x20 ≤ n ∧ n ≤ 0x3F → (s.el i).pendSr = [(n, w)] → sregGet (t.el i) (t.el i).cur n = w &&& sregMask i n))

/-- What taking an exception saves and changes, and what RETH restores (R91, R93, R95, R96). Readings and
choices of the model in it: log entry 44. -/
def Obligations.ExceptionEntryAndReturn : Prop :=
  (∀ (s : State) (e : Elem) (imm : BitVec 8) (long : Bool),
     let i := elemIdx e
     let r := s.rset i
     let enters (c : Instr) (cause epc eva vec : Word) : Prop := ∃ t, exec c s = .next t ∧
       (t.rset i).cause = cause ∧ (t.rset i).epc = epc ∧ (t.rset i).eva = eva ∧ (t.rset i).pc = (s.el i).vector + vec ∧
       (t.rset i).estatus = r.status ∧ (t.rset i).ebank = (s.el i).bank ∧
       (t.rset i).status = setBit (setBit (setBit (r.status &&& 0x00009FFF) 11 true) 8 true) 10 false ∧
       (t.el i).resv = none ∧ (∀ n, (t.rset i).gr n = r.gr n) ∧ (∀ a, t.rg a = s.rg a) ∧ t.mem = s.mem
     Ready s i → stHnd r = false → tb r.pc 0 = false →
       enters (.sys e imm) (w32 (imm.toNat * 65536 + 8)) (r.pc + 4) 0 0 ∧
       (tb (s.rg (ra .dbg (Dbg.EL_CTRL (rcNum i)))) 6 = false → enters (.brk e) 9 (r.pc + 4) 0 0) ∧
       enters (.illegalInstruction e long) 1 r.pc 0 0 ∧
       (isEngine i = false → tb r.status 10 = true → intcPresents s (intcOf i) = true →
         enters (.interruptEntry e) 0x80000010 r.pc 0 0x40)) ∧
  (∀ (s : State) (e : Elem),
     let i := elemIdx e
     let r := s.rset i
     Ready s i →
       (stHnd r = false → exec (.reth e) s = .next (s.trapped i Trap.illegal)) ∧
       (stHnd r = true → stPriv r = false → exec (.reth e) s = .next (s.trapped i Trap.priv)) ∧
       (stHnd r = true → stPriv r = true → ∃ t, exec (.reth e) s = .next t ∧
         (t.rset i).pc = r.epc ∧ (t.rset i).status = fixStatus i r.estatus ∧ (t.el i).bank = r.ebank &&& sregMask i 5 ∧
         (t.el i).resv = none ∧ (∀ n, (t.rset i).gr n = r.gr n) ∧ (∀ a, t.rg a = s.rg a) ∧ t.mem = s.mem))

/-- WFI, BRK under debug, fetch faults, breakpoints and watchpoints (R93, R96, R477, R483). Readings and choices
of the model in it: log entries 55, 56. -/
def Obligations.HaltsAndWaits : Prop :=
  ∀ (s s1 : State) (e : Elem) (second : Bool) (o : Obs) (t : Trap) (p : Place) (pa : BitVec 40) (st : Bool),
    let i := elemIdx e
    let r := s.rset i
    Ready s i →
      (isEngine i = true → exec (.wfi e) s = .next (s.trapped i Trap.illegal)) ∧
      (isEngine i = false → intcPresents s (intcOf i) = true → exec (.wfi e) s = .next (s.passed i 4)) ∧
      (isEngine i = false → intcPresents s (intcOf i) = false →
        exec (.wfi e) s = .next ((s.setEl i { s.el i with wfi := true }).passed i 4)) ∧
      (tb (s.rg (ra .dbg (Dbg.EL_CTRL (rcNum i)))) 6 = true → granted s i = true →
        exec (.brk e) s = .next (boundary i false (wantHalt i 3 s))) ∧
      (fetchTrap i (r.pc + (if second then 2 else 0)) o s = (some t, s1) →
        exec (.instructionFetchFault e second o) s = .next (finish i {} false (.trap t s1))) ∧
      (xlate i .fetch r.pc none s = (.ok p, s1) → exec (.patchBreak e) s = .next (takeHalts 38 (clearFired (breakFetch i p s1)))) ∧
      exec (.patchWatch e pa st) s = .next (takeHalts 38 (clearFired (watchAccess i st
        { pa := pa.toNat / 4 * 4, sec := i = 36 || secNow (s.el i), mt := 1 } 4 s)))

/-- The loop instructions of an engine (R42, R70, R72, R73, R74, R75, R77, R78). Readings and choices
of the model in it: log entry 45. -/
def Obligations.LoopExtensions : Prop :=
  (∀ t : Nat, sinCos ((t + 16384) % 65536) = (-(sinCos (t % 65536)).2, (sinCos (t % 65536)).1)) ∧ sinCos 0 = (32767, 0) ∧
  ∀ (s : State) (e : Elem) (rd ra rb n : BitVec 5) (S : Bool) (stop : VmacStop),
    let i := elemIdx e
    let r := s.rset i
    let a := r.gr ra.toNat
    let b := r.gr rb.toNat
    let d := r.gr rd.toNat
    let lo (w : Word) : Int := (w.extractLsb' 0 16).toInt
    let hi (w : Word) : Int := (w.extractLsb' 16 16).toInt
    let ulo (w : Word) : Nat := w.toNat % 65536
    let uhi (w : Word) : Nat := w.toNat / 65536
    let rnd (x : Int) (k : Nat) : Int := (x + 2 ^ (k - 1)) / 2 ^ k
    let sat (x : Int) : Int := max (-32768) (min 32767 x)
    let two (x y : Int) : Word := BitVec.ofInt 16 y ++ BitVec.ofInt 16 x
    let is (c : Instr) (rb : BitVec 5) (x y : Int) (q : Prop) [Decidable q] : Prop :=
      Computes c s i [rd, ra, rb] (some rd.toNat) false 4 { val := two x y, q := decide q }
    let clamped (c : Instr) (x y : Int) : Prop := is c rb (sat x) (sat y) (sat x ≠ x ∨ sat y ≠ y)
    let beta := rnd ((lo a + 2 * hi a) * 0x49E7) 15
    let cs := (sinCos (ulo b)).1
    let sn := (sinCos (ulo b)).2
    let L : Int := ulo b
    let x1 := max (-L) (min L (lo a))
    let piE (f : Word → Int) : Int := sat (f d - f a)
    let piI (f : Word → Int) (acc : DWord) : Int := max (-2 ^ 31) (min (2 ^ 31 - 1) (acc.toInt + piE f * uhi b * 16))
    let piU (f : Word → Int) (acc : DWord) : Int := piE f * ulo b * 16 + piI f acc
    let piOut (f : Word → Int) (acc : DWord) : Int :=
      if 2 ^ 31 - 1 < piU f acc then 32767 else if piU f acc < -2 ^ 31 then -32768 else sat (rnd (piU f acc) 16)
    let piQ (f : Word → Int) (acc : DWord) : Bool := piE f ≠ f d - f a ∨ 2 ^ 31 - 1 < piU f acc ∨ piU f acc < -2 ^ 31 ∨
      sat (rnd (piU f acc) 16) ≠ rnd (piU f acc) 16
    let piAcc (f : Word → Int) (acc : DWord) : DWord :=
      if (2 ^ 31 - 1 < piU f acc ∧ 0 < piE f) ∨ (piU f acc < -2 ^ 31 ∧ piE f < 0) then acc else BitVec.ofInt 64 (piI f acc)
    let vb : Int := max (ulo b) 0x400
    let pf : Int := 32 * uhi b
    let v1 := lo a
    let v2 := rnd (-(lo a) * 16384 + hi a * 0x6EDA) 15
    let v3 := rnd (-(lo a) * 16384 - hi a * 0x6EDA) 15
    let off0 := -((max v1 (max v2 v3) + min v1 (min v2 v3)) / 2)
    let t (v : Int) : Int := pf / 2 + 2 * pf * (v + off0) / vb
    let tc (v : Int) : Int := max 0 (min pf (t v))
    let on (v : Int) : Int := (pf - tc v) / 2
    let off (v : Int) : Int := on v + tc v
    let edges (v : Int) : Word := two (min 65535 (on v)) (min 65535 (off v))
    let svmQ (v : Int) : Bool := tc v ≠ t v ∨ 65535 < on v ∨ 65535 < off v
    (isEngine i = false → Ready s i → ∀ c ∈ [Instr.clarke e rd ra, .sincos e rd ra, .park e rd ra rb, .ipark e rd ra rb, .svm e rd ra rb,
      .limv e rd ra rb, .limvD e rd ra rb, .piD e rd ra rb, .piQ e rd ra rb, .vmac e n ra rb S stop],
      exec c s = .next (s.trapped i Trap.illegal)) ∧
    (isEngine i = true →
      is (.clarke e rd ra) 0 (lo a) (sat beta) (sat beta ≠ beta) ∧
      is (.sincos e rd ra) 0 (sinCos (ulo a)).1 (sinCos (ulo a)).2 False ∧
      clamped (.park e rd ra rb) (rnd (lo a * cs + hi a * sn) 15) (rnd (hi a * cs - lo a * sn) 15) ∧
      clamped (.ipark e rd ra rb) (rnd (lo a * cs - hi a * sn) 15) (rnd (lo a * sn + hi a * cs) 15) ∧
      (lo a * lo a + hi a * hi a ≤ L * L → is (.limv e rd ra rb) rb (lo a) (hi a) False) ∧
      (∀ k : Nat, L * L < lo a * lo a + hi a * hi a → lo a * lo a + hi a * hi a ≤ k * k → (∀ j < k, (j : Int) * j < lo a * lo a + hi a * hi a) →
        is (.limv e rd ra rb) rb ((lo a * L).tdiv k) ((hi a * L).tdiv k) ((lo a * L).tdiv k ≠ lo a ∨ (hi a * L).tdiv k ≠ hi a)) ∧
      (∀ k : Nat, (k : Int) * k ≤ L * L - x1 * x1 → L * L - x1 * x1 < (k + 1) * (k + 1) →
        is (.limvD e rd ra rb) rb x1 (max (-k) (min k (hi a))) (x1 ≠ lo a ∨ max (-(k : Int)) (min k (hi a)) ≠ hi a)) ∧
      (Ready s i → regsOk i [rd, ra, rb] = true →
        exec (.piD e rd ra rb) s = .next ((s.setRset i { r.setGr rd.toNat (two (piOut lo r.acc0) (hi d)) with
          acc0 := piAcc lo r.acc0, status := setQ r.status (piQ lo r.acc0) }).passed i 4) ∧
        exec (.piQ e rd ra rb) s = .next ((s.setRset i { r.setGr rd.toNat (two (lo d) (piOut hi r.acc1)) with
          acc1 := piAcc hi r.acc1, status := setQ r.status (piQ hi r.acc1) }).passed i 4) ∧
        (rd.toNat < 14 → exec (.svm e rd ra rb) s = .next ((s.setRset i
          { ((r.setGr rd.toNat (edges v1)).setGr (rd.toNat + 1) (edges v2)).setGr (rd.toNat + 2) (edges v3) with
            status := setQ r.status (svmQ v1 || svmQ v2 || svmQ v3) }).passed i 4)) ∧
        (14 ≤ rd.toNat → exec (.svm e rd ra rb) s = .next (s.trapped i Trap.illegal))) ∧
      (Ready s i → regsOk i [rd, ra, rb] = false → ∀ c ∈ [Instr.piD e rd ra rb, .piQ e rd ra rb, .svm e rd ra rb],
        exec c s = .next (s.trapped i Trap.illegal)))

/-- VMAC adds its products into the chosen accumulator (R79, R88). Readings and choices of the model in it: log
entries 42, 53. -/
def Obligations.MultiplyAccumulate : Prop :=
  ∀ (s : State) (g : Fin 32) (n ra rb : BitVec 5) (S : Bool) (stop : VmacStop) (x y : Nat → Place) (u v : Nat → List Byte)
    (k : Fin 33) (t : Trap) (p : Place),
    let e := Elem.rein g
    let r := s.rset g
    let a := r.gr ra.toNat
    let b := r.gr rb.toNat
    let half (bs : List Byte) : Int := (BitVec.ofNat 16 (ofBytes bs)).toInt
    let add (m : DWord × Bool) (j : Nat) : DWord × Bool :=
      let sum := m.1.toInt + half (u j) * half (v j)
      let c := max (-2 ^ 63) (min (2 ^ 63 - 1) sum)
      (BitVec.ofInt 64 c, m.2 || decide (c ≠ sum))
    let sum (m : Nat) : DWord × Bool := (List.range m).foldl add (if S then r.acc1 else r.acc0, false)
    let after (m : Nat) : RegSet :=
      { r with acc0 := if S then r.acc0 else (sum m).1, acc1 := if S then (sum m).1 else r.acc1,
               status := setQ r.status (sum m).2 }
    let reads (base : Word) (z : Nat → Place) (w : Nat → List Byte) : Prop := ∀ j ≤ n.toNat,
      xlateEngine (s.el g) .load (base + w32 (2 * j)) s = .ok (z j) ∧ isDirect s g (z j).pa = true ∧
      memRead (elemMaster g (z j).sec) false .clean (z j).pa 2 s = (.ok (w j), s) ∧ watchAccess g false (z j) 2 s = s
    Ready s g → ra.toNat < 16 → rb.toNat < 16 →
      (tb a 0 = true → exec (.vmac e n ra rb S stop) s = .next (s.trapped g (Trap.align a))) ∧
      (tb a 0 = false → tb b 0 = true → exec (.vmac e n ra rb S stop) s = .next (s.trapped g (Trap.align b))) ∧
      (tb a 0 = false → tb b 0 = false →
        (xlateEngine (s.el g) .load (a + w32 0) s = .error t → exec (.vmac e n ra rb S stop) s = .next (s.trapped g t)) ∧
        (xlateEngine (s.el g) .load (a + w32 0) s = .ok p → isDirect s g p.pa = false →
          exec (.vmac e n ra rb S stop) s = .next (s.trapped g (Trap.access false 7 0xA (a + w32 0)))) ∧
        (reads a x u → reads b y v →
          exec (.vmac e n ra rb S .none) s = .next ((s.setRset g (after (n.toNat + 1))).passed g 4) ∧
          (k.val ≤ n.toNat → exec (.vmac e n ra rb S (.stopped k)) s = .next (s.setRset g
            { after k with progress := w32 (2 ^ 31 + 65536 + k.val), progArm := true })) ∧
          (n.toNat < k.val → exec (.vmac e n ra rb S (.stopped k)) s = .next ((s.setRset g (after (n.toNat + 1))).passed g 4))))

/-- Runs begin, end, are preempted and overrun as the rules say (R82, R83, R84, R85, R86, R87, R237, R238).
Readings and choices of the model in it: log entries 46, 48, 49, 53. -/
def Obligations.RunsAndEvents : Prop :=
  ∀ (s s1 s2 : State) (g : Fin 32) (c : Elem) (rd ra : BitVec 5) (mask : BitVec 8) (bs : List Byte) (n key ans : Nat) (r : Run)
    (ws : List Word) (p : Place) (t : Trap),
    let e := Elem.rein g
    let q := s.rset g
    let el := s.el g
    let w (k : Nat) : Word := ws.getD k 0
    let sp : Setpoint := { pos := w 0, vel := w 1, torque := w 2, due := w 3, seq := w 4 }
    (Ready s g → stHnd q = false → mask ≠ 0 → mask.getLsbD 7 = false → storesDone el = true →
      exec (.waits e mask) s = .next (boundary g true (endWaits g mask (s.setEl g { el with resv := none })))) ∧
    (Ready s g → (stHnd q = true ∨ mask = 0 ∨ mask.getLsbD 7 = true) →
      exec (.waits e mask) s = .next (s.trapped g Trap.illegal)) ∧
    (Ready s g → stHnd q = false → mask ≠ 0 → mask.getLsbD 7 = false → storesDone el = false → el.run el.cur = some r →
      exec (.waits e mask) s = .next (s.setEl g ({ el with resv := none }.putRun el.cur (some { r with waiting := some mask })))) ∧
    (Ready s (elemIdx c) → isEngine (elemIdx c) = false → ∀ x ∈ [Instr.waits c mask, .dcommit c, .setpt c rd ra],
      exec x s = .next (s.trapped (elemIdx c) Trap.illegal)) ∧
    (Ready s g → rd.toNat < 16 → ra.toNat < 16 → (q.gr ra.toNat).toNat % 4 ≠ 0 →
      exec (.setpt e rd ra) s = .next (s.trapped g (Trap.align (q.gr ra.toNat)))) ∧
    (Ready s g → Ready s1 g → rd.toNat < 16 → ra.toNat < 16 → (q.gr ra.toNat).toNat % 4 = 0 →
      setptPlace g (q.gr ra.toNat) s = .ok p → setptWords g (q.gr ra.toNat) 5 s = (.ok ws, s1) →
      (s1.el g).run (s1.el g).cur = some r → isSecondCopy s1 g = true → (s1.bank (runKey s1 g)).ctx = some n →
      secondAnswer (s1.ctx n) r.stamp r.sent = some ans →
      exec (.setpt e rd ra) s = .next ((putGr g rd.toNat (w32 ans) (setRun g (fun x => { x with sent := x.sent + 1 }) s1)).passed g 4)) ∧
    (bankPlace g 16 false (fld el.bank 3 0) 0x60 s = .error t → Ready s g → exec (.dcommit e) s = .next (s.trapped g t)) ∧
    (Ready s g → Ready s1 g → key = g * 16 + fld el.bank 3 0 → (s.bank key).ctx = some n → (s.bank key).cls.testBit 2 = false →
      bankPlace g 16 false (fld el.bank 3 0) 0x60 s = .ok p →
      memRead (elemMaster g (secNow el)) false .clean (bankAddr key + 0x60) 16 s = (.ok bs, s1) →
      exec (.dcommit e) s = .next (State.passed
        { s1 with axis.edges := s1.axis.edges ++ [{ axis := n, bytes := bs, bank := key }] } g 4)) ∧
    (Ready s g → key = g * 16 + fld el.bank 3 0 → ((s.bank key).ctx = none ∨ (s.bank key).cls.testBit 2 = true) →
      ((s.bank key).world = true → secNow el = true) →
      exec (.dcommit e) s = .next (s.trapped g { code := 0x0A, sub := 1 })) ∧
    (Ready s g → Ready s2 g → rd.toNat < 16 → ra.toNat < 16 → (q.gr ra.toNat).toNat % 4 = 0 →
      setptPlace g (q.gr ra.toNat) s = .ok p → setptWords g (q.gr ra.toNat) 5 s = (.ok ws, s1) →
      (s1.el g).run (s1.el g).cur = some r → isSecondCopy s1 g = false →
      offerSetpoint (secNow (s1.el g)) (fld (q.gr rd.toNat) 7 0) sp s1 = (ans, s2) →
      exec (.setpt e rd ra) s = .next ((putGr g rd.toNat (w32 ans) (recordAnswer (runKey s1 g) r.stamp ans
        (setRun g (fun x => { x with sent := x.sent + 1 }) s2))).passed g 4)) ∧
    (engineRuns s g = true → topRun el = none → nextBank s g 2 = some key → exec (.runStart g) s = .next (startRun key s)) ∧
    (el.run el.cur = some r → r.waiting = some mask → awake s g = true → storesDone el = true →
      exec (.runEnd g) s = .next (boundary g true (endWaits g mask s))) ∧
    (el.run el.cur = some r → engineRuns s g = true → el.cur ≠ 0 → atBoundary s g = true →
      nextBank s g (el.cur - 1) = some key → exec (.preempt g) s =
        .next (startRun key (s.setEl g (el.putRun el.cur (some { r with savedBank := el.bank, savedWorld := el.world }))))) ∧
    (runOf s g = some (n, key, r) → r.ovb = false → reqBudget s n * 800 < r.acc → exec (.budgetOverrun g) s =
      .next (bump .sadl 0 (Sadl.CTX_OVB_CNT n) (sadlNotice 6 (axst n 6 (setRun g (fun x => { x with ovb := true }) s))))) ∧
    (runOf s g = some (n, key, r) → 8 * reqBudget s n * 800 ≤ r.acc → awake s g = true → exec (.budgetKill g) s =
      .next (boundary g true (endRun g q.pc (bankFault key 2 q.pc 0 s))))

/-- Cache, instruction cache, TLB and walk-cache maintenance (R341, R342, R343, R350, R351). Readings and
choices of the model in it: log entries 50, 51. -/
def Obligations.CacheMaintenance : Prop :=
  (∀ (s : State) (e : Elem) (ra rb : BitVec 5) (o : Obs),
    let i := elemIdx e
    Ready s i → isAc i = false → regsOk i [ra, rb] = true →
      (∀ c ∈ [Instr.dcclean e ra o, .dcinv e ra o, .dcflush e ra o, .icinv e ra o, .dccleanA e, .dcflushA e, .icinvA e],
        exec c s = .next (s.passed i 4)) ∧
      (∀ c ∈ [Instr.tlbi e ra rb, .tlbiA e, .walki e, .tlbiB e ra rb, .tlbiAb e, .walkiB e],
        exec c s = .next (s.trapped i Trap.illegal))) ∧
  ∀ (s s1 s2 : State) (n : Fin 4) (ra rb : BitVec 5) (o : Obs) (p : Place) (t : Trap),
    let e := Elem.ac n
    let i := 32 + n.val
    let r := s.rset i
    let va := r.gr ra.toNat
    let ends (t : State) : Host.Outcome State Fault Refusal := .next (finish i {} false (.done t))
    let ln := p.pa / 64
    let page := (r.gr rb.toNat).toNat % 2 ^ 16 * 2 ^ 32 + va.toNat / 4096 * 4096
    let hit (t : TlbEntry) : Bool := tlbCovers t page
    let dropped (j : Nat) (s : State) : State := s.setEl j { s.el j with tlb := (s.el j).tlb.filter (fun t => !hit t) }
    Ready s i →
      (xlate i .load va o.wecc (applyObs i o s) = (.ok p, s1) → p.mt = 2 → cacheError s1 p = false →
        cacheRefuses i p 1 false s1 = (none, s2) →
        exec (.dcclean e ra o) s = ends (cleanLine i ln s2) ∧
        exec (.dcflush e ra o) s = ends (dropLine ln (cleanLine i ln s2))) ∧
      (xlate i .inv va o.wecc (applyObs i o s) = (.ok p, s1) → p.mt = 2 → cacheError s1 p = false →
        cacheRefuses i p 1 false s1 = (none, s2) → exec (.dcinv e ra o) s = ends (dropLine ln s2)) ∧
      (xlate i .line va o.wecc (applyObs i o s) = (.ok p, s1) → p.mt = 2 → cacheError s1 p = false →
        cacheRefuses i p 1 false s1 = (none, s2) →
        exec (.icinv e ra o) s = ends (s2.setEl i { s2.el i with icache := (s2.el i).icache.filter (· ≠ ln) })) ∧
      (∀ err, xlate i .line va o.wecc (applyObs i o s) = (.ok p, s1) → p.mt = 2 → cacheError s1 p = false →
        cacheRefuses i p 1 false s1 = (some err, s2) →
        exec (.icinv e ra o) s = .next (s2.trapped i (Trap.ofBus err false false va))) ∧
      (p.mt ≠ 2 →
        (xlate i .load va o.wecc (applyObs i o s) = (.ok p, s1) → exec (.dcclean e ra o) s = ends s1 ∧ exec (.dcflush e ra o) s = ends s1) ∧
        (xlate i .inv va o.wecc (applyObs i o s) = (.ok p, s1) → exec (.dcinv e ra o) s = ends s1) ∧
        (xlate i .line va o.wecc (applyObs i o s) = (.ok p, s1) → exec (.icinv e ra o) s = ends s1)) ∧
      (xlate i .load va o.wecc (applyObs i o s) = (.error t, s1) →
        exec (.dcclean e ra o) s = .next (s1.trapped i t) ∧ exec (.dcflush e ra o) s = .next (s1.trapped i t)) ∧
      (xlate i .inv va o.wecc (applyObs i o s) = (.error t, s1) → exec (.dcinv e ra o) s = .next (s1.trapped i t)) ∧
      (stPriv r = true →
        exec (.dccleanA e) s = ends (eachLine (fun x => x.owner = none || x.owner = some i) (cleanLine i) s) ∧
        exec (.dcflushA e) s = ends (eachLine (fun _ => true) (fun ln s => dropLine ln (cleanLine i ln s)) s) ∧
        exec (.icinvA e) s = .next ((s.setEl i { s.el i with icache := [] }).passed i 4) ∧
        exec (.tlbi e ra rb) s = .next ((dropped i s).passed i 4) ∧
        exec (.tlbiA e) s = .next ((s.setEl i { s.el i with tlb := [] }).passed i 4) ∧
        exec (.walki e) s = .next ((s.setEl i { s.el i with wcache := [] }).passed i 4) ∧
        exec (.tlbiB e ra rb) s = ends (dropped 35 (dropped 34 (dropped 33 (dropped 32 s)))) ∧
        exec (.tlbiAb e) s = ends (everyCore (fun j s => s.setEl j { s.el j with tlb := [] }) s) ∧
        exec (.walkiB e) s = ends (everyCore (fun j s => s.setEl j { s.el j with wcache := [] }) s)) ∧
      (stPriv r = false → ∀ c ∈ [Instr.dccleanA e, .dcflushA e, .icinvA e, .tlbi e ra rb, .tlbiA e, .walki e, .tlbiB e ra rb,
        .tlbiAb e, .walkiB e], exec c s = .next (s.trapped i Trap.priv))

/-- Writes of a compare slot and its firing (R113, R114). Readings and choices of the model in it: log entries
5, 7. -/
def Obligations.CompareSlots : Prop :=
  ∀ (s : State) (m : Master) (n : Fin 256) (v : Word),
    let x := s.slot n
    let a := ra .tb (Tb.SLOT_CTRL n)
    let open_ := m.sec = true ∨ tb (s.rg a) 30 = false
    let armed := (x.arm = true ∨ x.firedAt = some s.time.selvedge) ∧ x.pendArm ≠ some false
    let ctrl : State := (plainWrite .tb 0 (Tb.SLOT_CTRL n) v m.sec s).setRgBit a 31 false
    let fired : State := (triggerSlot n (raiseEvent n s)).setRgBit a 0 true
    let slipped : State := if s.time.selvedge = x.value then fired else fired.setRgBit a 1 true
    (open_ →
      Writes (.slotLoWrite m n v) s m (ra .tb (Tb.SLOT_LO n)) (s.setSlot n { x with staged := v }) ∧
      Writes (.slotHiWrite m n v) s m (ra .tb (Tb.SLOT_HI n))
        (s.setSlot n { x with pendValue := some (v ++ x.staged), pendArm := some true }) ∧
      Writes (.slotPerWrite m n v) s m (ra .tb (Tb.SLOT_PER n)) (s.setSlot n { x with pendPer := some v }) ∧
      (tb v 31 = false ∨ ¬ armed → Writes (.slotCtrlWrite m n v) s m a (ctrl.setSlot n { x with pendArm := some (tb v 31) })) ∧
      (tb v 31 = true → armed → Writes (.slotCtrlWrite m n v) s m a ctrl)) ∧
    (¬ open_ → ∀ c ∈ [Instr.slotLoWrite m n v, .slotHiWrite m n v, .slotPerWrite m n v, .slotCtrlWrite m n v],
      exec c s = .next { s with resp := .ok 0 } ∨ exec c s = .next { s with resp := .err }) ∧
    (s.time.run = true → x.arm = true → reached 64 s.time.selvedge.toNat x.value.toNat = true →
      x.firedAt ≠ some s.time.selvedge →
      exec (.slotFire n) s = .next (slipped.setSlot n (if x.per = 0
        then { x with arm := false, firedAt := some s.time.selvedge }
        else { x with value := x.value + x.per.setWidth 64, firedAt := some s.time.selvedge })))

/-- Timers start, reach zero and fire their channels; software events; the slow-clock measure (R110, R115, R116,
R117, R118, R121). Readings and choices of the model in it: log entries 5, 7, 67. -/
def Obligations.TimersAndSoftwareEvents : Prop :=
  ∀ (s : State) (m : Master) (n : Fin 64) (k : Fin 4) (v : Word),
    let x := s.timer n
    let c := ra .tim (Tim.CTRL n)
    let st := ra .tim (Tim.STAT n)
    let wr : State := plainWrite .tim 0 (Tim.CTRL n) v m.sec s
    let up : State := (raiseEvent (0x200 + n) s).setRgBit st 8 true
    (tb (s.rg c) 0 = true ∨ tb v 0 = false → Writes (.timerEnable m n v) s m c wr) ∧
    (tb (s.rg c) 0 = false → tb v 0 = true →
      Writes (.timerEnable m n v) s m c (timerStart n (wr.setRgBit c 0 false))) ∧
    Writes (.timerCcWrite m n k v) s m (ra .tim (Tim.CC n k)) ((s.setRg (ra .tim (Tim.CC n k)) v).setTimer n
      { x with written := x.written ||| BitVec.ofNat 4 (1 <<< k.val) }) ∧
    (x.zeroDue = true → exec (.timerZero n) s = .next (if tb (s.rg c) 2
      then (up.setRgBit c 0 false).setTimer n { x with zeroDue := false, reloadDue := false }
      else up.setTimer n { x with zeroDue := false, reloadDue := true })) ∧
    (x.reload.toNat < 2 ^ 31 → x.reload.toNat < (timerCc x k).toNat → exec (.timerChannelFire n k) s = .next s) ∧
    (x.ticked = true → x.armed.getLsbD k = true → 2 ^ 31 ≤ x.reload.toNat ∨ (timerCc x k).toNat ≤ x.reload.toNat →
        reached 32 (x.reload - x.count).toNat (timerCc x k).toNat = true →
      exec (.timerChannelFire n k) s = .next (((raiseEvent (0x100 + 4 * n + k) s).setRgBit st k true).setTimer n
        { x with armed := x.armed &&& ~~~(BitVec.ofNat 4 (1 <<< k.val)) })) ∧
    (0x2C0 ≤ v.toNat % 2 ^ 11 → v.toNat % 2 ^ 11 ≤ 0x2FF →
      Writes (.swtrig m v) s m (ra .evr Evr.SWTRIG) (raiseEvent (v.toNat % 2 ^ 11) s)) ∧
    (v.toNat % 2 ^ 11 < 0x2C0 ∨ 0x2FF < v.toNat % 2 ^ 11 → Writes (.swtrig m v) s m (ra .evr Evr.SWTRIG) s) ∧
    (s.time.measSlow < 32768 → exec .slowmeasUpdate s = .next s) ∧
    (s.time.run = true → 32768 ≤ s.time.measSlow → 799600000 ≤ s.time.measTicks → s.time.measTicks ≤ 800400000 →
      exec .slowmeasUpdate s = .next { s.setRg (ra .tb Tb.SLOWMEAS) (w32 s.time.measTicks) with
        time.measTicks := 0, time.measSlow := 0 })

/-- The event router delivers to the destination that a route names (R115, R122, R123, R124, R125). Readings and
choices of the model in it: log entry 67. -/
def Obligations.EventDelivery : Prop :=
  ∀ (s : State) (f : Flight) (rest : List Flight) (cs : List (Nat × Nat)),
    let s0 : State := { s with time.flights := rest }
    let lone (t : State) : Host.Outcome State Fault Refusal := .next t
    (s.time.flights = [] → exec (.eventDelivery [0] cs) s = lone s) ∧
    (s.time.flights = f :: rest → flightValid f = false → exec (.eventDelivery [0] cs) s = lone s0) ∧
    (s.time.flights = f :: rest → flightValid f = true → flightRefused s f = true →
      exec (.eventDelivery [0] cs) s = lone (dropEvent s0)) ∧
    (s.time.flights = f :: rest → flightValid f = true → flightRefused s f = false →
      exec (.eventDelivery [0] cs) s = lone (arrive f 1 cs s0) ∧
      (f.kind = 1 → midDown s (f.dest / 512) = false →
        exec (.eventDelivery [0] cs) s = lone (edgePend (f.dest / 512) (f.dest % 512) s0)) ∧
      (f.kind = 2 → exec (.eventDelivery [0] cs) s = lone (compareArrives f.dest (fun _ => 1) s0)) ∧
      (f.kind = 4 → exec (.eventDelivery [0] cs) s = lone (dmaRequest f.dest s0)) ∧
      (f.kind = 5 → exec (.selvedgeCapture [0]) s = lone
        { s0 with time.caps := Tbl.set (fun _ => 0) s.time.caps f.dest s.time.selvedge }) ∧
      (f.kind = 3 → f.dest / 64 = 0 → exec (.timerActionStart [0]) s = lone (timerStart (f.dest % 64) s0)) ∧
      (f.kind = 3 → f.dest / 64 = 1 → exec (.timerActionStop [0]) s =
        lone (s0.setRgBit (ra .tim (Tim.CTRL (f.dest % 64))) 0 false)) ∧
      (f.kind = 3 → f.dest / 64 = 2 → exec (.timerActionCapture [0]) s = lone (s0.setRg
        (ra .tim (Tim.CAP (f.dest % 64))) ((s.timer (f.dest % 64)).reload - (s.timer (f.dest % 64)).count))) ∧
      (f.kind = 3 → f.dest / 64 = 3 → exec (.timerActionCount [0]) s = lone (timerAction 3 (f.dest % 64) s0)))

/-- Sending and acknowledging a mailbox message (R128, R129, R130, R131). Readings and choices of the model in
it: log entry 6. -/
def Obligations.Mailboxes : Prop :=
  ∀ (s : State) (m : Master) (n : Fin 64) (k : Fin 8) (v : Word) (mid : Fin 32),
    let b := s.rg (ra .mbx (Mbx.BIND n))
    let st := ra .mbx (Mbx.STATE n)
    let ack := ra .mbx (Mbx.ACK n)
    let bound : Prop := tb b 31 = true ∧ (m.sec = true ∨ tb b 30 = false)
    (bound → mbxIsSender s m n = true → mbxState s n ≠ 1 →
      Writes (.mbxMsgWrite m n k v) s m (ra .mbx (Mbx.MSG n k)) (s.setRg (ra .mbx (Mbx.MSG n k)) v) ∧
      (1 ≤ v.toNat % 16 → v.toNat % 16 ≤ 8 → midDown s (fld b 12 8) = false →
        ∃ x, Writes (.send m n v) s m (ra .mbx (Mbx.SEND n)) (raiseEvent (0x240 + n)
          (({ ({ s with free := s.free + 1 } : State).setRg st (w32 (v.toNat % 16 * 16 + 1)) with
              time.sendSec := Tbl.set (fun _ => false) s.time.sendSec n m.sec }).setRg ack (w32 (x % 65536)))))) ∧
    (bound → mbxIsReceiver s m n = true → mbxState s n = 1 →
      Writes (.ack m n v) s m ack (raiseEvent (0x280 + n) ((s.setRg ack (w32 (v.toNat % 65536))).setRgFld st 1 0 2))) ∧
    (∀ code, mbxAckRefusal s m n = some code → gateRefuses s m ack 4 = false →
      exec (.ack m n v) s = .next { mbxRecord m n code s with resp := .err }) ∧
    Writes (.mbxLock m v) s m (ra .mbx Mbx.LOCK) (plainWrite .mbx 0 Mbx.LOCK v m.sec s) ∧
    exec (.mbxDomainUp mid) s = .next (((List.range 64).filter (fun n => tb (s.rg (ra .mbx (Mbx.BIND n))) 31
      && fld (s.rg (ra .mbx (Mbx.BIND n))) 12 8 = mid && mbxState s n = 1)).foldl (fun s n => raiseEvent (0x240 + n) s) s)

/-- SET, CLAIM and COMPLETE of an interrupt controller, and its source edges (R126, R127, R398). Readings and
choices of the model in it: log entry 67. -/
def Obligations.InterruptControllers : Prop :=
  ∀ (s : State) (m : Master) (t : Fin 5) (src : Fin 512) (v : Word),
    let n := v.toNat
    let pend : Nat := ri .intc t (Intc.PEND (n / 32))
    let old := Tbl.get (fun _ => false) s.time.samples (t * 512 + src)
    let s0 : State := { s with time.sampledAt := Tbl.set (fun _ => 0) s.time.sampledAt (t * 512 + src) (intcCycle s t + 1) }
    let s1 : State := { s0 with time.samples := Tbl.set (fun _ => false) s.time.samples (t * 512 + src) (!old) }
    (0 < n → n < 512 → intcHidden s m t n = false →
      Writes (.intcSet m t v) s m (ri .intc t Intc.SET) (s.setRgBit pend (n % 32) true) ∧
      (edgeNow s t n = false → Writes (.claim m t v) s m (ri .intc t Intc.CLAIM) (s.setRgBit pend (n % 32) false)) ∧
      (edgeNow s t n = true → Writes (.claim m t v) s m (ri .intc t Intc.CLAIM) s) ∧
      Writes (.complete m t v) s m (ri .intc t Intc.COMPLETE)
        (if sourceLevel s t n then s.setRgBit pend (n % 32) true else s)) ∧
    (n = 0 ∨ 512 ≤ n ∨ intcHidden s m t n = true →
      Writes (.intcSet m t v) s m (ri .intc t Intc.SET) s ∧ Writes (.claim m t v) s m (ri .intc t Intc.CLAIM) s ∧
      Writes (.complete m t v) s m (ri .intc t Intc.COMPLETE) s) ∧
    (sampledNow s t src = true → exec (.interruptSourceEdge t src) s = .next s) ∧
    (sampledNow s t src = false →
      (sourceLevel s t src = old → exec (.interruptSourceEdge t src) s = .next s0) ∧
      (old = false → sourceLevel s t src = true → exec (.interruptSourceEdge t src) s = .next (edgePend t src s1)) ∧
      (old = true → sourceLevel s t src = false → exec (.interruptSourceEdge t src) s = .next s1))

/-- A low-word read snapshots its high word; a register write has its type (R5, R7, R106, R107, R108). -/
def Obligations.SnapshotsAndRegisterWrites : Prop :=
  ∀ (s : State) (m : Master) (pa : Nat) (b : Blk) (i o : Nat) (v hi : Word) (r : RegRow),
    blockAt pa = some (b, i, o) →
      (gateRefuses s m pa 4 = false → highOf s m b i o = some hi → isHigh s m b o = false →
        b ≠ .mbx → b ≠ .qm → b ≠ .sec → b ≠ .dbg →
        exec (.snapshotLowRead m pa) s = .next { latchSnap m (b.addr i o) hi s with
          resp := .ok ((liveWord s m b i o).getD (plainRead s b i o)) }) ∧
      (m.mid ≠ 24 → snapOf (latchSnap m pa hi s) m pa = hi) ∧ (m.mid = 24 → latchSnap m pa hi s = s) ∧
      (pa ≠ ra .stc Stc.FCLR → gateRefuses s m pa 4 = true →
        exec (.registerWrite m pa v) s = .next { s with resp := .err }) ∧
      (b ∈ [Blk.ptab, .cmp, .rgn, .rein, .thm] → gateRefuses s m pa 4 = false → b.rowAt o = some r → satAt b o = none →
        s.faultQueue = [] →
        exec (.registerWrite m pa v) s = .next
          { s.setRg (b.addr i o) (r.write (s.rg (b.addr i o)) v m.sec (blkLocked s b)) with resp := .ok 0 })

/-- The sample path: configuration, sample instant, conversion end, first calibration (R134, R135, R137, R143,
R144). Readings and choices of the model in it: log entry 5. -/
def Obligations.Sampling : Prop :=
  ∀ (s s1 : State) (m : Master) (b : Fin 12) (v : Word) (cs : List CalRun) (run : SampleRun) (codes : Fin 3 → Nat) (p : Nat),
    let a := ra .conv (Conv.SMP b)
    let st := ra .conv (Conv.SMPSTAT b)
    let was := tb (s.rg a) 31
    let held : State := s.setRg a (w32 (v.toNat % 2 ^ 16 + b2n (tb v 31) * 2 ^ 31))
    let at_ (k : Nat) (u : State) : State := { u with conv.instant := Tbl.set (fun _ => 0) u.conv.instant b k }
    let t := w64 (2 * coarse s)
    (was = true → tb v 31 = true → Writes (.smpWrite m b v) s m a (s.setRgBit st 1 true)) ∧
    (was = false → tb v 31 = false → Writes (.smpWrite m b v) s m a held) ∧
    (was = true → tb v 31 = false → pwmRun s b = false → Writes (.smpWrite m b v) s m a (unbindBridge b held)) ∧
    (was = true → tb v 31 = false → pwmRun s b = true →
      Writes (.smpWrite m b v) s m a { held with conv.unbind := held.conv.unbind ++ [b.val] }) ∧
    (was = false → tb v 31 = true → poolReady held = false → Writes (.smpWrite m b v) s m a held) ∧
    (was = false → tb v 31 = true → poolReady held = true → choosePhase b true (at_ (v.toNat % 2 ^ 16) held) = (none, s1) →
      Writes (.smpWrite m b v) s m a
        (((at_ (Tbl.get (fun _ => 0) s.conv.instant b) s1).setRgBit a 31 false).setRgBit st 1 true)) ∧
    (was = false → tb v 31 = true → poolReady held = true → choosePhase b true (at_ (v.toNat % 2 ^ 16) held) = (some p, s1) →
      Writes (.smpWrite m b v) s m a ((bindBridge b (saddlerPhase b p 1 (unbindBridge b s1))).setRgBit st 0 true)) ∧
    (instantDue s b = false → exec (.sampleInstant b) s = .next s) ∧
    (instantDue s b = true → s.conv.acq.filter (fun r => r.bridge = b.val) = [run] → run.second = [none, none, none] →
      ctxBound s (pwmAxis s b) = false → (s.ctx (pwmAxis s b)).mig = none →
      exec (.sampleInstant b) s = .next (triggerBridge 0 b
        { s.setRg (ra .conv (Conv.LAST b)) (w32 t.toNat) with
          conv.runs := s.conv.runs.filter (fun r => r.bridge ≠ b.val) ++ [{ run with time := t }],
          conv.acq := s.conv.acq.filter (fun r => r.bridge ≠ b.val) })) ∧
    (conversionDue s b = false → ∀ rs, exec (.conversionEnd b rs) s = .next s) ∧
    (s.conv.runs.find? (fun r => r.bridge = b.val) = some run → run.second = [none, none, none] →
      reached 64 (2 * coarse s) (run.time + 76).toNat = true →
      (∀ k : Fin 3, cvRole s (run.first.getD k 0) ≠ 4 ∧ cvRole s (run.first.getD k 0) ≠ 2 ∧ codes k < 65536) →
      let out (k : Fin 3) : ChannelOut := channelOut s (3 * b + k) (run.first.getD k 0) none (some (codes k)) none
      let aux := auxOf (out 0).value (out 1).value
      let x := pwmAxis s b
      let port := samplePort none x (toBytes 2 (out 0).value ++ toBytes 2 (out 1).value ++ toBytes 2 aux.1 ++ toBytes 2 (out 2).value)
        run.time (b2n aux.2 * 2048 + (b2n (out 0).sat + 2 * b2n (out 1).sat + 4 * b2n (out 2).sat) * 16)
        (some (.conv, 0, Conv.DROPS b)) { s with conv.runs := s.conv.runs.filter (fun r => r.bridge ≠ b.val) }
      ctxBound s x = false →
      exec (.conversionEnd b [(some (codes 0), none), (some (codes 1), none), (some (codes 2), none)]) s = .next
        ((List.range 3).foldl (fun u k => channelCount (3 * b + k) (run.first.getD k 0) none
          (some ([codes 0, codes 1, codes 2].getD k 0)) none u) (raiseEvent (0x340 + b) port))) ∧
    (3 ≤ opMode s → poolReady s = false → exec (.initialCalibration cs) s = .next
      (let entered := (List.range 28).foldl (fun u n => enterCal n u) s
       let ready := ((List.range 28).foldl (fun u n => match (cs.getD n none).bind calFit with
         | some c => setRole n 3 (((putCoefs n c u).setRg (ra .conv (Conv.CV_CALTIME n)) (w32 u.time.selvedge.toNat)).setCv n
             { (putCoefs n c u).cv n with passedAt := u.time.selvedge, good := true })
         | none => fenceCv n 2 ((u.setRg (ra .conv (Conv.CV_CALTIME n)) (w32 u.time.selvedge.toNat)).setRgFld
             (ra .conv (Conv.CV_STATE n)) 9 8 1)) entered).setRgBit (ra .conv Conv.POOL) 31 true
       let ready : State := { ready with conv.nextStep := ready.time.selvedge + w64 (rotInterval ready) }
       ((List.range 12).filter (fun k => tb (ready.rg (ra .conv (Conv.SMP k))) 31)).foldl (fun u k => submitSmp k u) ready))

/-- Calibration ends, the rotation and the age check of the converters (R139, R145, R146, R147). Readings and
choices of the model in it: log entry 34. -/
def Obligations.CalibrationAndRotation : Prop :=
  ∀ (s : State) (n : Fin 28) (levels : CalRun) (c : Int × Int × List Int) (o i : Nat),
    let st := ra .conv (Conv.CV_STATE n)
    let done := reached 64 s.time.selvedge.toNat (s.cv n).calDue.toNat = true
    let ms := s.time.selvedge.toNat % 800000 = 0
    let step := max 50 (min 1000 (fld (s.rg (ra .conv Conv.ROT)) 15 0)) * 8000
    let begun : State := { s with conv.nextStep := s.time.selvedge + w64 step }
    let timed : State := s.setRg (ra .conv (Conv.CV_CALTIME n)) (w32 s.time.selvedge.toNat)
    let k := fld (s.rg st) 9 8 + 1
    let failed : State := (timed.setRgFld st 9 8 k).setCv n { timed.cv n with good := false }
    let fitted : State := (putCoefs n c timed).setRgFld st 9 8 0
    let resting : Prop := poolReady s = false ∨ tb (s.rg (ra .conv Conv.ROT)) 31 = false ∨ s.conv.step.isSome = true ∨
      usableCvs s < 25 ∨ inRole s 3 = 0
    (cvRole s n ≠ 2 ∨ ¬ done → exec (.calibrationEnd n levels) s = .next s) ∧
    (cvRole s n = 2 → done → levels.bind calFit = some c → exec (.calibrationEnd n levels) s = .next
      (setRole n 3 (fitted.setCv n { fitted.cv n with passedAt := s.time.selvedge, good := true }))) ∧
    (cvRole s n = 2 → done → levels.bind calFit = none → k < 2 → exec (.calibrationEnd n levels) s = .next (enterCal n failed)) ∧
    (cvRole s n = 2 → done → levels.bind calFit = none → 2 ≤ k → exec (.calibrationEnd n levels) s = .next (fenceCv n 2 failed)) ∧
    (rotationDue s = false → exec .rotationStep s = .next s) ∧
    (rotationDue s = true → resting → exec .rotationStep s = .next begun) ∧
    (rotationDue s = true → ¬ resting → (∀ m < 28, (s.cv m).skipHold = 0) → o < 28 →
      (∀ m < 28, (cvRole s m = 1 ∨ cvRole s m = 3) → newer 64 (s.cv o).passedAt.toNat (s.cv m).passedAt.toNat = false) →
      (∀ m < 28, (cvRole s m = 1 ∨ cvRole s m = 3) → m ≠ o → newer 64 (s.cv m).passedAt.toNat (s.cv o).passedAt.toNat = true) →
      (cvRole s o = 3 → exec .rotationStep s = .next (enterCal o begun)) ∧
      (cvRole s o = 1 → i < 28 → cvRole s i = 3 →
        (∀ m < 28, cvRole s m = 3 → m ≠ i → newer 64 (s.cv i).passedAt.toNat (s.cv m).passedAt.toNat = false ∧
          newer 64 (s.cv m).passedAt.toNat (s.cv i).passedAt.toNat = true) →
        exec .rotationStep s = .next (handoverNext { out := o, inc := i, todo := heldBy s o } begun))) ∧
    (¬ ms → exec .calageCheck s = .next s) ∧
    ((∀ m < 28, cvRole s m = 1 →
        (s.time.selvedge - (s.cv m).passedAt).toNat ≤ fld (s.rg (ra .conv Conv.CALCFG)) 15 0 * 800000) →
      exec .calageCheck s = .next s) ∧
    (ms → cvRole s n = 1 → fld (s.rg (ra .conv Conv.CALCFG)) 15 0 * 800000 < (s.time.selvedge - (s.cv n).passedAt).toNat →
      exec .calageCheck s = .next (s.setRgBit (ra .conv Conv.NOTICE) 2 true))

/-- Comparators, trip inputs, sweeps and wake comparators (R150, R151, R152, R153, R154, R155). Readings and
choices of the model in it: log entry 13. -/
def Obligations.Comparators : Prop :=
  ∀ (s : State) (i : Fin 24) (b : Fin 12) (t w : Fin 4) (hard crossed : Bool) (x : Sweep) (v n : BitVec 16),
    let at_ : State := { s with conv.level := Tbl.set (fun _ => 0) s.conv.level i v.toNat }
    let raw (out : Bool) : State := if hard then { at_ with conv.hardRaw := Tbl.set (fun _ => false) s.conv.hardRaw i out }
      else { at_ with conv.softRaw := Tbl.set (fun _ => false) s.conv.softRaw i out }
    let win := s.rg (ra .cmp (if hard || standIn s i then Cmp.HARD i else Cmp.SOFT i))
    let hi := win.toNat / 2 ^ 16 % 4096
    let lo := win.toNat % 4096
    let hyst := fld (s.rg (ra .cmp (Cmp.CFG i))) 10 8
    let was := if hard then hardRaw s i else softRaw s i
    let gone := hi < lo ∨ hi * 16 < v.toNat ∨ v.toNat < lo * 16 ∨
      (was = true ∧ ¬ (v.toNat + hyst * 16 < hi * 16 ∧ (lo + hyst) * 16 < v.toNat))
    let act := Tbl.get (fun _ => false) s.conv.tripAct t
    let level := Tbl.get (fun _ => false) s.conv.tripIn t
    let first := coarse s + 1 - n.toNat
    let sampled (on : Bool) : State := { s with
      conv.tripIn := Tbl.set (fun _ => false) s.conv.tripIn t on,
      conv.tripSince := Tbl.set (fun _ => 0) s.conv.tripSince t
        (if level = on then min (Tbl.get (fun _ => 0) s.conv.tripSince t) first else first) }
    let trip (on : Bool) : State := ({ sampled on with conv.tripAct := Tbl.set (fun _ => false) s.conv.tripAct t on }).setRgBit
      (ra .cmp Cmp.TRIPSTAT) (8 + t) (on == tb (s.rg (ra .cmp (Cmp.TRIPIN t))) 30)
    let noted : State := raiseEvent (0x330 + t) ((trip true).setRgBit (ra .cmp Cmp.TRIPSTAT) t true)
    let everyBridge (u : State) : State := (List.range 12).foldl (fun u b => evalAfterEdges b u) u
    let filt := fld (s.rg (ra .cmp (Cmp.TRIPIN t))) 7 0
    let held := filt < n.toNat ∧ n.toNat ≤ coarse s + 1
    let next (y : Sweep) : Sweep := { y with step := y.step + 1, due := y.due + 160 }
    let h := Tbl.get (fun _ => []) s.conv.hist (3 * (i.val / 2) + i.val % 2)
    let begun : State := { s with conv.sweep := some { input := i, hard := hard, m := (h.foldl (· + ·) 0 + 64) / 128, due := s.time.selvedge + 160 } }
    let ws := ra .cmp Cmp.WAKESTAT
    (pastWindows s i = [] →
      (gone → exec (.comparatorOut i hard v) s = .next (evalAfterEdges (i / 2) (raw true)) ∧
        exec (.comparatorIn i hard v) s = .next s) ∧
      (¬ gone → exec (.comparatorOut i hard v) s = .next s ∧
        exec (.comparatorIn i hard v) s = .next (evalAfterEdges (i / 2) (raw false)))) ∧
    (∀ y ys, pastWindows s i = y :: ys →
      exec (.comparatorOut i hard v) s = .next
        (if windowOut (if hard || standIn s i then y.hard else y.soft) y.hyst was v.toNat then evalAfterEdges (i / 2) (raw true) else s) ∧
      exec (.comparatorIn i hard v) s = .next
        (if windowOut (if hard || standIn s i then y.hard else y.soft) y.hyst was v.toNat then s else evalAfterEdges (i / 2) (raw false))) ∧
    (act = true ∨ level = false ∧ n.toNat ≤ filt → exec (.tripInputActive t n) s = .next (sampled true)) ∧
    (act = false ∨ level = true ∧ n.toNat ≤ filt → exec (.tripInputInactive t n) s = .next (sampled false)) ∧
    (held → act = false → tb (s.rg (ra .cmp (Cmp.TRIPIN t))) 31 = false →
      exec (.tripInputActive t n) s = .next (everyBridge (trip true))) ∧
    (held → act = false → tb (s.rg (ra .cmp (Cmp.TRIPIN t))) 31 = true →
      exec (.tripInputActive t n) s = .next (everyBridge noted)) ∧
    (held → act = true → exec (.tripInputInactive t n) s = .next (everyBridge (trip false))) ∧
    (bridgeTrips s b = (false, true) → applyTrips b s = enterSafe b 1 (((pwmFlag b 15 s).setBr b
      { (pwmFlag b 15 s).br b with tripSoft := false, tripHard := true }))) ∧
    (s.conv.sweep = none → steady s i = true → hard = false →
      exec (.comparatorSweep i hard) s = .next (evalAfterEdges (i / 2) begun)) ∧
    (s.conv.sweep = none → steady s i = true → hard = true → tb (s.rg (ra .cmp (Cmp.STAT i))) 6 = false →
      exec (.comparatorSweep i hard) s = .next (evalAfterEdges (i / 2)
        (let standing := begun.setRgBit (ra .cmp (Cmp.STAT i)) 4 true
         { standing with conv.softRaw := Tbl.set (fun _ => false) s.conv.softRaw i (hardRaw s i) }))) ∧
    (s.conv.sweep.isSome = true ∨ steady s i = false ∨ hard = true ∧ tb (s.rg (ra .cmp (Cmp.STAT i))) 6 = true →
      exec (.comparatorSweep i hard) s = .next s) ∧
    (sweepDue s = false → exec (.sweepStep crossed) s = .next s) ∧
    (s.conv.sweep = some x → sweepDue s = true → steady s x.input = true → x.step < 17 → exec (.sweepStep crossed) s = .next
      { s with conv.sweep := some { next x with hiAt := if crossed && x.hiAt.isNone then some x.step else x.hiAt } }) ∧
    (s.conv.sweep = some x → sweepDue s = true → steady s x.input = true → 17 ≤ x.step → x.step < 33 →
      exec (.sweepStep crossed) s = .next
        { s with conv.sweep := some { next x with loAt := if crossed && x.loAt.isNone then some (x.step - 17) else x.loAt } }) ∧
    (s.conv.sweep = some x → sweepDue s = true → steady s x.input = true → x.step = 33 → crossed = false →
      exec (.sweepStep crossed) s = .next (sweepJudge x s)) ∧
    (tb (s.rg (ra .cmp (Cmp.WAKE w))) 31 = true → tb (s.rg (ra .pmu Pmu.CLKSTAT)) 30 = false → opMode s ≠ 0 →
      (wakeSide s w v.toNat false = true → exec (.wakeComparatorActive w false v n) s = .next (s.setRgBit ws (8 + w) false)) ∧
      (fld (s.rg (ra .cmp (Cmp.WAKE w))) 3 0 < n.toNat → wakeSide s w v.toNat true = true → tb (s.rg ws) (8 + w) = true →
        exec (.wakeComparatorActive w true v n) s = .next (s.setRgBit ws (8 + w) true)) ∧
      (fld (s.rg (ra .cmp (Cmp.WAKE w))) 3 0 < n.toNat → wakeSide s w v.toNat true = true → tb (s.rg ws) (8 + w) = false →
        exec (.wakeComparatorActive w true v n) s = .next (wakeSource (4 + w) (raiseEvent (0x334 + w) ((s.setRgBit ws (8 + w) true).setRgBit ws w true)))))

/-- The registers of a PWM bridge: staging, commit, force-safe and clear (R160, R162, R163, R164, R172, R173,
R174, R176, R183, R186, R243). Readings and choices of the model in it: log entry 14. -/
def Obligations.BridgeRegisters : Prop :=
  ∀ (s : State) (m : Master) (b : Fin 12) (v : Word) (r : RegRow) (p : Word × Word),
    let c := pw b Pwm.CFG
    let st := pw b Pwm.STAT
    let x := s.br b
    let gen := w32 ((s.rg (pw b Pwm.GEN)).toNat % 2 ^ 16)
    let cfg : State := (s.setRg c (r.write (s.rg c) v m.sec false)).setRgBit c 31 false
    let plain (o : Nat) (r : RegRow) : State := s.setRg (pw b o) (r.write (s.rg (pw b o)) v m.sec false)
    let mode3 := tb (s.rg c) 29 = false ∧ tb (s.rg c) 30 = false
    s.faultQueue = [] →
    (Blk.pwm.rowAt Pwm.CFG = some r → tb (s.rg c) 31 = false → tb v 31 = false → Writes (.pwmEnable m b v) s m c cfg) ∧
    (Blk.pwm.rowAt Pwm.CFG = some r → tb (s.rg c) 31 = false → tb v 31 = true → slotServed s (pwmAxis s b) = true →
      Writes (.pwmEnable m b v) s m c (pwmFlag b 1 s)) ∧
    (Blk.pwm.rowAt Pwm.CFG = some r → tb (s.rg c) 31 = false → tb v 31 = true → slotServed s (pwmAxis s b) = false →
      Writes (.pwmEnable m b v) s m c (bridgeStart b (cfg.setRgBit c 31 true))) ∧
    (tb (s.rg c) 31 = true → tb v 31 = true → Writes (.pwmEnable m b v) s m c s) ∧
    (tb (s.rg c) 31 = true → tb v 31 = false → gateRefuses s m c 4 = false → exec (.pwmEnable m b v) s = .next
      (settle { bridgeStop b (s.setRgBit c 31 false) with resp := .ok 0 })) ∧
    (brPinned s b = true → (smpActive s b = true → phaseFits s b (v.toNat % 2 ^ 16) true = true) →
      Writes (.pwmPhaseWrite m b v) s m (pw b Pwm.PHASE) (setPhase b (v.toNat % 2 ^ 16) s)) ∧
    (brPinned s b = false → Writes (.pwmPhaseWrite m b v) s m (pw b Pwm.PHASE)
      (journal 0x41 b 0 1 0 (v.toNat % 2 ^ 16) (sadlNotice 9 (pwmFlag b 10 s)))) ∧
    (Blk.pwm.rowAt Pwm.PERIOD = some r → Writes (.stagePeriodWrite m b v) s m (pw b Pwm.PERIOD)
      ((plain Pwm.PERIOD r).setBr b { x with staged := { x.staged with period := some ((plain Pwm.PERIOD r).rg (pw b Pwm.PERIOD), gen) } })) ∧
    (Blk.pwm.rowAt Pwm.EDGE_A = some r → Writes (.stageEdgeWrite m b 0 v) s m (pw b Pwm.EDGE_A)
      ((plain Pwm.EDGE_A r).setBr b { x with staged := { x.staged with a := some ((plain Pwm.EDGE_A r).rg (pw b Pwm.EDGE_A), gen) } })) ∧
    (Blk.pwm.rowAt (edgeReg 1) = some r → Writes (.stageEdgeWrite m b 1 v) s m (pw b (edgeReg 1))
      ((plain (edgeReg 1) r).setBr b { x with staged := { x.staged with b := some ((plain (edgeReg 1) r).rg (pw b (edgeReg 1)), gen) } })) ∧
    (Blk.pwm.rowAt (edgeReg 2) = some r → Writes (.stageEdgeWrite m b 2 v) s m (pw b (edgeReg 2))
      ((plain (edgeReg 2) r).setBr b { x with staged := { x.staged with c := some ((plain (edgeReg 2) r).rg (pw b (edgeReg 2)), gen) } })) ∧
    (mode3 → x.staged.empty = false → Writes (.pwmCommit m b) s m (pw b Pwm.CTRL)
      (setArrives b { x.staged with gen := gen } (s.setBr b { x with staged := {} }))) ∧
    (tb (s.rg c) 30 = true → x.staged.period = some p → Writes (.pwmCommit m b) s m (pw b Pwm.CTRL)
      (setArrives b { period := some p, gen := gen } (s.setBr b { x with staged := {} }))) ∧
    (x.staged.empty = true ∨ tb (s.rg c) 30 = true ∧ x.staged.period = none ∨ tb (s.rg c) 30 = false ∧ tb (s.rg c) 29 = true →
      Writes (.pwmCommit m b) s m (pw b Pwm.CTRL) s) ∧
    (pwmRun s b = true → Writes (.periodNow m b) s m (pw b Pwm.CTRL) (s.setBr b { x with cutReq := true })) ∧
    (pwmSafe s b = true → Writes (.forcesafe m b) s m (pw b Pwm.CTRL) s) ∧
    (pwmSafe s b = false → Writes (.forcesafe m b) s m (pw b Pwm.CTRL)
      (let safe : State := (s.setRgBit st 31 true).setRgFld st 30 28 7
       raiseEvent (0x360 + b) (clearCarries b (safe.setBr b { safe.br b with await := false, relOk := false })))) ∧
    (clrSafeAllowed s b m.sec = false → Writes (.clrsafe m b) s m (pw b Pwm.CTRL) s) ∧
    (clrSafeAllowed s b m.sec = true → x.now = none → x.next = none → x.early = [] → Writes (.clrsafe m b) s m (pw b Pwm.CTRL)
      (State.setBr { s.setRgFld st 31 28 0 with
          axis.edges := s.axis.edges.map (fun f => if f.axis = pwmAxis s b then { f with old := true } else f) } b
        { x with
          await := true, relOk := false, repeats := 0, haltHold := none, legA := { x.legA with stale := true },
          legB := { x.legB with stale := true }, legC := { x.legC with stale := true } })) ∧
    (Blk.pwm.rowAt Pwm.FORCE = some r → (∀ j < 3, fld v (2 * j + 1) (2 * j) = 0) →
      Writes (.forceWrite m b v) s m (pw b Pwm.FORCE) (plain Pwm.FORCE r)) ∧
    (Blk.pwm.rowAt Pwm.FORCE = some r → (∀ j < 3, fld v (2 * j + 1) (2 * j) ≠ 0) →
      Writes (.forceWrite m b v) s m (pw b Pwm.FORCE) (setCarry b 2 0 (setCarry b 1 0 (setCarry b 0 0 (plain Pwm.FORCE r)))))

/-- The period, edges, dead times, cuts and bundles of a bridge (R164, R165, R166, R167, R168, R169, R176, R177,
R178, R179, R181). Readings and choices of the model in it: log entries 5, 14. -/
def Obligations.BridgeEvents : Prop :=
  ∀ (s : State) (b j : Fin 12) (k : Fin 3) (o : Fin 6) (off : Bool) (n : Fin 65) (f : EdgeFlight) (i : Nat),
    let x := s.br b
    let t := sext (fld (s.rg (pw b (Pwm.DLCAL o))) 13 8) 6
    let step : Int := if n.val ≤ 37 then t + 1 else if 59 ≤ n.val then t - 1 else t
    let measured : State := s.setBr b { x with measAt := Tbl.set (fun _ => 0) x.measAt o (coarse s) }
    let starved : State := (pwmFlag b 12 measured).setRgBit (pw b (Pwm.DLCAL o)) 15 true
    let trimmed : State := starved.setBr b { starved.br b with
      pendN := Tbl.set (fun _ => none) (starved.br b).pendN o (some (setFld (starved.rg (pw b (Pwm.DLCAL o))) 13 8 (wrap step 6))) }
    let h (q : Nat) : Nat := ofBytes ((f.bytes.drop (2 * q)).take 2)
    let edge (q : Nat) : Option (Word × Word) := some (w32 (h (2 * q) + h (2 * q + 1) * 65536), w32 (h 7))
    let bounded : State := triggerBridge 1 b (raiseEvent (0x350 + b) (bridgeBoundary b s))
    (x.cutDue = false → exec (.periodCutTick b) s = .next s) ∧
    (x.cutDue = true → exec (.periodCutTick b) s = .next (settle (cutTick b s))) ∧
    (x.boundaryDue = false → exec (.periodBoundary b) s = .next s) ∧
    (x.boundaryDue = true → 128 ≤ pwmAxis s b → pwmRun s b = false → x.cut = false → x.next = none → x.phase = none →
      bounded.conv.unbind = [] → bounded.conv.step = none → smpActive bounded b = false → exec (.periodBoundary b) s = .next (settle bounded)) ∧
    (edgeDue s b k off = false → s.faultQueue = [] → exec (.edgeFire b k off) s = .next s) ∧
    (edgeDue s b k off = true → exec (.edgeFire b k off) s = .next (settle (if off then fireOff b k s else fireOn b k s))) ∧
    (turnOnDue s b o = false → s.faultQueue = [] → exec (.deadtimeExpiry b o) s = .next s) ∧
    (turnOnDue s b o = true → dueOf s b o = some i → x.driven = false → s.faultQueue = [] →
      exec (.deadtimeExpiry b o) s = .next (settle (outputEdge b o (max i (coarse s * 32))
        (s.setBr b (x.setLeg (o / 2) (if o.val % 2 = 0 then { x.leg (o / 2) with hi := true, hiDue := none }
          else { x.leg (o / 2) with lo := true, loDue := none })))))) ∧
    (measureDue s b o = false → exec (.delaylineMeasure b o n) s = .next s) ∧
    (measureDue s b o = true → 32 ≤ n.val → n.val ≤ 63 → -32 ≤ step → step ≤ 31 → exec (.delaylineMeasure b o n) s = .next
      (measured.setBr b { measured.br b with
        pendN := Tbl.set (fun _ => none) x.pendN o (some (w32 (2 ^ 14 + wrap step 6 * 256 + n))) })) ∧
    (measureDue s b o = true → n.val < 32 ∨ 63 < n.val → -32 ≤ step → step ≤ 31 →
      exec (.delaylineMeasure b o n) s = .next (faultRecord 0x08 (6 * b + o) 1 n trimmed)) ∧
    ((∀ q < 6, starveDue s b q = false) → exec (.dlstarveTimeout b) s = .next s) ∧
    (starveDue s b o = true → (∀ q < 6, q ≠ o.val → starveDue s b q = false) → exec (.dlstarveTimeout b) s = .next
      (pwmFlag b 11 (s.setBr b { x with winAt := Tbl.set (fun _ => 0) x.winAt o (coarse s) }))) ∧
    (s.axis.edges[i]? = none → exec (.bundleArrival i) s = .next s) ∧
    (∀ u, s.axis.edges[i]? = some f → linkOf s f.axis = none → bridgeOf u f.axis = some j.val → pwmSrc u j = true →
      bundleAtPort f { s with axis.edges := removeAt s.axis.edges [i] } = (true, u) → hostHalted u j = true →
      exec (.bundleArrival i) s = .next (setArrives j
        { period := if h 6 = 0 then none else some (w32 (h 6), w32 (h 7)), a := edge 0, b := edge 1, c := edge 2, gen := w32 (h 7), old := f.old } u)) ∧
    (∀ u, s.axis.edges[i]? = some f → linkOf s f.axis = none → bridgeOf u f.axis = some j.val → pwmSrc u j = true →
      bundleAtPort f { s with axis.edges := removeAt s.axis.edges [i] } = (true, u) → hostHalted u j = false →
      exec (.bundleArrival i) s = .next (setArrives j
        { period := if h 6 = 0 then none else some (w32 (h 6), w32 (h 7)), a := edge 0, b := edge 1, c := edge 2, gen := w32 (h 7), old := f.old }
        (u.setBr j { u.br j with haltHold := none })))

/-- Local feedback units: quadrature, Hall and index inputs, captures (R194, R196, R197, R198, R199, R200, R202,
R204, R205, R206, R209). Readings and choices of the model in it: log entries 5, 37, 64. -/
def Obligations.FeedbackUnits : Prop :=
  ∀ (s : State) (m : Master) (f : Fin 12) (h : Fin 8) (a b z : Bool) (n : BitVec 13) (v : Word) (l : FbLatch) (rest : List FbLatch),
    let c := s.rg (fr f Fb.CFG)
    let ax := s.rg (fr f Fb.AXIS)
    let u := s.fb f
    let wr : State := plainWrite .fb f Fb.CFG v m.sec s
    let lv := fbLevel s f
    let k := (fld c 7 0 + 1) * (if tb c 16 then 16 else 1)
    let first := if n.toNat = 0 then coarse s + 2 else coarse s + 1 - n.toNat
    let steady := u.pins.toNat = lv
    let passes := k ≤ n.toNat ∧ n.toNat ≤ coarse s + 1 ∧ steady
    let level (w : Nat) (t : State) : State := t.setRgFld (fr f Fb.STAT) 31 29 w
    let abSeen : State := fbSample f 3 (b2n b * 2 + b2n a) n.toNat s
    let ab : State := level (lv / 4 * 4 + b2n b * 2 + b2n a) abSeen
    let hall : State := level h (fbSample f 7 h n.toNat s)
    let sector := fld (s.rg (fr f Fb.STAT)) 26 24
    let new := fld (s.rg (fr f Fb.HALLMAP)) (3 * h + 2) (3 * h)
    let zSeen : State := fbSample f 4 (b2n z * 4) n.toNat s
    let zs : State := level (b2n z * 4 + lv % 4) zSeen
    let rev := (s.rg (fr f Fb.REV_COUNT)).toNat
    let bad := !(zs.fb f).skipIdx && rev ≠ 0 && !(zs.fb f).reversed && (zs.fb f).net.natAbs ≠ rev
    let diff : State := if bad then (fbFlag f 5 zs).setRg (fr f Fb.IDXDIFF) (wInt (((zs.fb f).net.natAbs : Int) - rev)) else zs
    let p := (wr.fb f).pins.toNat
    let start := fld (s.rg (fr f Fb.HALLMAP)) (3 * p + 2) (3 * p)
    let fresh : State := fbRestart f (if fld v 30 28 = 0 ∨ 3 < fld v 30 28 then wr else wr.setRgFld (fr f Fb.STAT) 31 29 p)
    let begun : State := if fld v 30 28 = 2 ∧ start ≤ 5 then fresh.setRgFld (fr f Fb.STAT) 26 24 start else fresh
    let popped : State := s.setFb f { u with latches := rest }
    let kept : State := match rest with
      | [] => popped.setFb f { popped.fb f with flags := u.flags ||| (l.flags &&& 0x5C0) }
      | y :: ys => popped.setFb f { popped.fb f with latches := { y with flags := y.flags ||| (l.flags &&& 0x5C0) } :: ys }
    let due := l.due ≤ s.time.selvedge.toNat
    (tb c 31 = true → Writes (.fbEnable m f v) s m (fr f Fb.CFG)
      (wr.setRg (fr f Fb.CFG) ((wr.rg (fr f Fb.CFG) &&& ~~~ 0x780100FF#32) ||| (c &&& 0x780100FF#32)))) ∧
    (tb c 31 = false → tb v 31 = false → Writes (.fbEnable m f v) s m (fr f Fb.CFG) wr) ∧
    (tb c 31 = false → tb v 31 = true → tb ax 31 = true → fbClaimed s (fld ax 7 0) f = true →
      Writes (.fbEnable m f v) s m (fr f Fb.CFG) (fbFlag f 7 (wr.setRgBit (fr f Fb.CFG) 31 false))) ∧
    (tb c 31 = false → tb v 31 = true → (tb ax 31 = true → fbClaimed s (fld ax 7 0) f = false) →
      Writes (.fbEnable m f v) s m (fr f Fb.CFG) (begun.setFb f { begun.fb f with
        pos := w32 ((begun.fb f).pos.toNat % revOf (s.rg (fr f Fb.REV_COUNT))) })) ∧
    ((abSeen.fb f).pins.toNat = u.pins.toNat / 4 * 4 + b2n b * 2 + b2n a ∧
      (u.pins.getLsbD 0 ≠ a → fbSince abSeen f 0 = first) ∧
      (u.pins.getLsbD 0 = a → fbSince abSeen f 0 = min (fbSince s f 0) first)) ∧
    (n.toNat < k ∧ steady ∨ fbMode s f = 0 ∨ 3 < fbMode s f → exec (.quadEdge f a b n) s = .next abSeen ∧
      exec (.hallChange f h n) s = .next (fbSample f 7 h n.toNat s) ∧ exec (.indexEdge f z n) s = .next zSeen) ∧
    (passes → fbMode s f = 3 →
      (lv % 4 ≠ b2n b * 2 + b2n a → exec (.quadEdge f a b n) s = .next ab) ∧
      (lv ≠ h → exec (.hallChange f h n) s = .next hall) ∧
      (lv.testBit 2 ≠ z → exec (.indexEdge f z n) s = .next zs)) ∧
    (passes → fbMode s f = 1 → lv.testBit 0 ≠ a → lv.testBit 1 ≠ b →
      exec (.quadEdge f a b n) s = .next (bump .fb f Fb.QERR_CNT (fbError f 2 ab))) ∧
    (passes → fbMode s f = 1 → lv.testBit 0 ≠ a → lv.testBit 1 = b →
      exec (.quadEdge f a b n) s = .next (fbCount f first ((a ≠ lv.testBit 1) != tb c 27) ab)) ∧
    (passes → fbMode s f = 1 → lv.testBit 0 = a → lv.testBit 1 ≠ b →
      exec (.quadEdge f a b n) s = .next (fbCount f first ((b = lv.testBit 0) != tb c 27) ab)) ∧
    (passes → fbMode s f = 2 → lv ≠ h → 5 < new → exec (.hallChange f h n) s = .next (fbError f 3 hall)) ∧
    (passes → fbMode s f = 2 → lv ≠ h → new ≤ 5 → new = (sector + 1) % 6 →
      exec (.hallChange f h n) s = .next (fbCount f first (!tb c 27) (hall.setRgFld (fr f Fb.STAT) 26 24 new))) ∧
    (passes → fbMode s f = 2 → lv ≠ h → new ≤ 5 → new ≠ (sector + 1) % 6 → new = (sector + 5) % 6 →
      exec (.hallChange f h n) s = .next (fbCount f first (tb c 27) (hall.setRgFld (fr f Fb.STAT) 26 24 new))) ∧
    (passes → fbMode s f = 1 → z = false → 4 ≤ lv → exec (.indexEdge f z n) s = .next zs) ∧
    (passes → z = true → fbMode s f = 1 → lv < 4 → tb c 21 = false → (zs.fb f).armed = false →
      exec (.indexEdge f z n) s = .next (raiseEvent (0x3CC + f) (diff.setFb f { zs.fb f with
        idxPos := (zs.fb f).pos, idxTurn := (zs.fb f).turns, flags := setBit (zs.fb f).flags 7 true, net := 0,
        reversed := false, skipIdx := false }))) ∧
    Writes (.fbLoad m f) s m (fr f Fb.CTRL) (s.setFb f { u with loadDue := true }) ∧
    Writes (.idxarm m f) s m (fr f Fb.CTRL) (s.setFb f { u with armed := true }) ∧
    (tb c 31 = true → fld c 30 28 ≠ 3 → fld (s.rg (fr f Fb.TRIG)) 31 30 = 3 →
      Writes (.capnow m f) s m (fr f Fb.CTRL) (s.setFb f { u with capDue := true })) ∧
    (u.capDue = false → exec (.fbCapture f) s = .next s) ∧
    (u.capDue = true → exec (.fbCapture f) s = .next (fbCapture f s)) ∧
    (u.capDue = true → ∀ t, exec (.fbCapture f) s = .next t → ∃ y, (t.fb f).latches = u.latches ++ [y] ∧ y.pos = u.pos ∧
      y.turns = u.turns ∧ y.speed = wInt (fbSpeed s f).1 ∧ y.time = s.time.selvedge ∧ y.due = s.time.selvedge.toNat + 12) ∧
    (u.latches = [] → exec (.fbBlockWrite (f.castLE (by decide))) s = .next s) ∧
    (u.latches = l :: rest → ¬ due → exec (.fbBlockWrite (f.castLE (by decide))) s = .next s) ∧
    (u.latches = l :: rest → due → tb ax 31 = false → exec (.fbBlockWrite (f.castLE (by decide))) s = .next kept) ∧
    (u.latches = l :: rest → due → tb ax 31 = true → fld ax 7 0 < 128 → ctxBound s (fld ax 7 0) = true →
      exec (.fbBlockWrite (f.castLE (by decide))) s = .next (feedbackPort none (fld ax 7 0) l.pos l.turns l.speed l.time l.flags.toNat 0
        (some (.fb, f, Fb.DROPS)) popped))

/-- Serial encoder ports: frames and register accesses (R210, R211, R212, R213, R214, R215, R216, R217).
Readings and choices of the model in it: log entries 5, 64, 68. -/
def Obligations.EncoderPorts : Prop :=
  ∀ (s : State) (m : Master) (p : Fin 8) (v : Word) (w : SlWave) (a t0 : Nat) (l : FbLatch) (ok : Bool) (data : BitVec 8),
    let frame := Instr.sencFrameEnd p w.high w.changes
    let c := s.rg (sr p Senc.CFG)
    let st := sr p Senc.STAT
    let ax := s.rg (sr p sencAxisReg)
    let fw := s.rg (sr p Senc.FRAME)
    let u := s.senc p
    let wr : State := plainWrite .senc p Senc.CFG v m.sec s
    let taken : State := s.setSenc p { u with capDue := false }
    let busy := tb (s.rg st) 31 = true ∨ reached 64 s.time.selvedge.toNat u.busyUntil.toNat = false
    let rc := sr p Senc.REGSTAT
    let cmd : State := plainWrite .senc p Senc.REGCMD v m.sec s
    (tb c 31 = true → tb v 31 = true → Writes (.sencEnable m p v) s m (sr p Senc.CFG) wr) ∧
    (tb v 31 = false → Writes (.sencEnable m p v) s m (sr p Senc.CFG) (wr.setRgBit st 31 false)) ∧
    (tb c 31 = false → tb v 31 = true → (frameRefused s p v = true ∨ (tb ax 31 = true ∧ fbClaimed s (fld ax 7 0) (12 + p) = true)) →
      Writes (.sencEnable m p v) s m (sr p Senc.CFG) ((wr.setRgBit (sr p Senc.CFG) 31 false).setRgBit st 5 true)) ∧
    (tb c 31 = false → tb v 31 = true → frameRefused s p v = false → (tb ax 31 = true → fbClaimed s (fld ax 7 0) (12 + p) = false) →
      Writes (.sencEnable m p v) s m (sr p Senc.CFG)
        (wr.setSenc p { u with valid := none, capDue := false, busyUntil := s.time.selvedge })) ∧
    (u.capDue = false → exec (.sencFrameStart p) s = .next s) ∧
    (u.capDue = true → tb c 31 = false ∨ fld c 29 28 = 0 ∨ fld c 29 28 = 3 → exec (.sencFrameStart p) s = .next taken) ∧
    (u.capDue = true → tb c 31 = true → (fld c 29 28 = 1 ∨ fld c 29 28 = 2) →
      (busy → exec (.sencFrameStart p) s = .next (bump .senc p Senc.SKIP_CNT (taken.setRgBit st 4 true))) ∧
      (¬ busy → exec (.sencFrameStart p) s = .next ((taken.setRgBit st 31 true).setSenc p { u with
        capDue := false, began := coarse s,
        start := s.time.selvedge + BitVec.ofInt 64 (sext (s.rg (sr p Senc.LATADJ)).toNat 16) }))) ∧
    (tb (s.rg st) 31 = false → exec frame s = .next s) ∧
    (coarse s < u.began + sencEndAt s p w → exec frame s = .next s) ∧
    (let half := max 19 (fld c 15 0) + 1
     let dlen := fld fw 30 24
     let tout := fld (s.rg (sr p Senc.TIMING)) 31 16 * 40
     let first := half + fld (s.rg (sr p Senc.TIMING)) 7 0
     let stop := u.began + first + 2 * half * (dlen - 1)
     let ended (stop : Nat) : State := (s.setRgBit st 31 false).setSenc p { u with busyUntil := w64 (2 * (stop + tout)), noBack := false }
     let bad (stop : Nat) (t : State) : State := raiseEvent (0x398 + p) (let t1 := bump .senc p Senc.ERR_CNT t
       t1.setSenc p { t1.senc p with latch := some {
         pos := u.pos, turns := u.turns, speed := u.speed, time := u.start,
         flags := w32 (32768 + 16384 + b2n u.turnSat * 2048), due := 2 * (stop + 4) } })
     let x := slSample w first (2 * half) dlen
     let got : State := (ended stop).setSenc p { (ended stop).senc p with raw := w64 x }
     let q := sencPosition s p x
     let read : State := got.setSenc p { got.senc p with
       valid := some { time := u.start, pos := linear q.1 q.2.1 (2 ^ fld fw 21 16) }, pos := q.1, turns := q.2.1,
       speed := 0, turnSat := q.2.2 }
     (tb (s.rg st) 31 = true → fld c 29 28 = 2 → 1 ≤ dlen → stop ≤ coarse s → w.high = true → fld fw 1 0 = 0 → u.valid = none →
       exec frame s = .next (read.setSenc p { read.senc p with latch := some {
         pos := q.1, turns := q.2.1, speed := 0, time := u.start, flags := w32 (b2n q.2.2 * 2048), due := 2 * (stop + 4) } })) ∧
     (tb (s.rg st) 31 = true → fld c 29 28 = 2 → 1 ≤ dlen → u.began + sencEndAt s p w ≤ coarse s → w.high = false →
       exec frame s = .next (bad (u.began + sencEndAt s p w)
         ((ended (u.began + sencEndAt s p w)).setRgBit st 1 true))) ∧
     (tb (s.rg st) 31 = true → fld c 29 28 = 1 → tb (s.rg rc) 31 = false → w.high = true → w.changes = [] →
       u.began + tout ≤ coarse s → exec frame s = .next (bad (u.began + tout) ((ended (u.began + tout)).setRgBit st 1 true))) ∧
     (fld c 29 28 = 1 → slAck w = some a → slStart w (2 * half) ((tout - a) / (2 * half)) (a + 2 * half) = some t0 →
       ∃ r, sencReceive s p w = some r ∧ r.cds = slAt w (t0 + 2 * half) ∧ r.data = slSample w (t0 + 4 * half) (2 * half) dlen)) ∧
    (u.latch = none ∨ u.latch = some l ∧ s.time.selvedge.toNat < l.due →
      exec (.fbBlockWrite (p.natAdd 12)) s = .next s) ∧
    (u.latch = some l → l.due ≤ s.time.selvedge.toNat → tb ax 31 = false →
      exec (.fbBlockWrite (p.natAdd 12)) s = .next (raiseEvent (0x390 + p)
        (s.setSenc p { u with latch := none, kept := (l.flags ||| u.kept) &&& 0x6400 }))) ∧
    (u.latch = some l → l.due ≤ s.time.selvedge.toNat → tb ax 31 = true →
      exec (.fbBlockWrite (p.natAdd 12)) s = .next (raiseEvent (0x390 + p) (feedbackPort none (fld ax 7 0) l.pos l.turns l.speed
        l.time (l.flags ||| u.kept).toNat 1 (some (.senc, p, Senc.DROPS)) (s.setSenc p { u with
          latch := none,
          kept := if fld ax 7 0 < 128 ∧ ctxBound s (fld ax 7 0) = true then 0 else (l.flags ||| u.kept) &&& 0x6400 })))) ∧
    (tb (s.rg rc) 31 = false → tb v 31 = true → Writes (.sencRegGo m p v) s m (sr p Senc.REGCMD)
      ((cmd.setRgBit rc 31 true).setSenc p { u with
        accWrite := tb v 30, cds := [], cdm := Config.bissControl (tb v 30) (fld v 14 8) (fld v 7 0) })) ∧
    (tb (s.rg rc) 31 = true → tb v 31 = true → Writes (.sencRegGo m p v) s m (sr p Senc.REGCMD) s) ∧
    (tb v 31 = false → Writes (.sencRegGo m p v) s m (sr p Senc.REGCMD) cmd) ∧
    (tb (s.rg rc) 31 = false ∨ u.cds.length < u.cdm.length → exec (.sencRegDone p ok data) s = .next s) ∧
    (tb (s.rg rc) 31 = true → u.cdm.length ≤ u.cds.length →
      (Config.bissReply u.cds ≠ (if ok then some data else none) → exec (.sencRegDone p ok data) s = .next s) ∧
      (Config.bissReply u.cds = none →
        exec (.sencRegDone p false data) s = .next ((s.setRgBit rc 31 false).setRgBit rc 29 true)) ∧
      (Config.bissReply u.cds = some data →
        (u.accWrite = true → exec (.sencRegDone p true data) s = .next ((s.setRgBit rc 31 false).setRgBit rc 30 true)) ∧
        (u.accWrite = false → exec (.sencRegDone p true data) s = .next
          (((s.setRgBit rc 31 false).setRgBit rc 30 true).setRgFld rc 7 0 data.toNat))))

/-- Mark tracks: arming, marks, prediction and pulses (R218, R219, R220, R221, R222, R223, R224). Readings and
choices of the model in it: log entry 5. -/
def Obligations.MarkTracks : Prop :=
  ∀ (s : State) (m : Master) (k : Fin 8) (v : Word) (e : MarkEntry) (y : Pulse),
    let c := tr (Awl.TRK_CFG k)
    let st := tr (Awl.TRK_STAT k)
    let wr : State := plainWrite .awl 0 (Awl.TRK_CFG k) v m.sec s
    let ptr := fld (s.rg (tr (Awl.TRK_PTR k))) 14 0
    let fired (late : Bool) (start : Nat) : State :=
      bump .awl 0 (Awl.TRK_FIRED k) (if late then (pulse k (fld e.w2 31 24) (fld e.w2 15 0) start s).setRgBit st 2 true
        else pulse k (fld e.w2 31 24) (fld e.w2 15 0) start s)
    let goesOn (t : State) : State := ((t.setRg (tr (Awl.TRK_PTR k)) (w32 ((ptr + 1) % 32768))).setRgBit st 0 false).setTrk k
      { t.trk k with entry := none, armAt := some (coarse s + 1), sched := none, schedLate := false }
    let ends (t : State) : State := raiseEvent (0x3A8 + k) ((trkStop k t).setRgBit st 1 true)
    (tb (trkCfg s k) 31 = false → tb v 31 = true → Writes (.trkEnable m k v) s m c (trkArm k
      ((wr.setRg (tr (Awl.TRK_PTR k)) (s.rg (tr (Awl.TRK_BASE k)))).setTrk k
        { s.trk k with limit := fld (s.rg (tr (Awl.TRK_LIMIT k))) 14 0 }))) ∧
    (tb (trkCfg s k) 31 = true → tb v 31 = false → Writes (.trkEnable m k v) s m c (trkStop k wr)) ∧
    (tb (trkCfg s k) 31 = tb v 31 → Writes (.trkEnable m k v) s m c wr) ∧
    Writes (.trkLimitWrite m k v) s m (tr (Awl.TRK_LIMIT k)) (plainWrite .awl 0 (Awl.TRK_LIMIT k) v m.sec s) ∧
    (markDue s k = false → exec (.markFire k) s = .next s) ∧
    (predictedDue s k = false → exec (.predictedFire k) s = .next s) ∧
    ((s.trk k).entry = some e → tb e.w2 20 = false → tb e.w2 21 = false →
      (markDue s k = true → ptr ≠ (s.trk k).limit → tb e.w2 19 = false →
        exec (.markFire k) s = .next (goesOn (fired ((s.trk k).armedAt = coarse s) (coarse s + 1)))) ∧
      (markDue s k = true → (ptr = (s.trk k).limit ∨ tb e.w2 19 = true) →
        exec (.markFire k) s = .next (ends (fired ((s.trk k).armedAt = coarse s) (coarse s + 1)))) ∧
      (predictedDue s k = true → ptr ≠ (s.trk k).limit → tb e.w2 19 = false →
        exec (.predictedFire k) s = .next (goesOn (fired (s.trk k).schedLate (coarse s)))) ∧
      (predictedDue s k = true → (ptr = (s.trk k).limit ∨ tb e.w2 19 = true) →
        exec (.predictedFire k) s = .next (ends (fired (s.trk k).schedLate (coarse s))))) ∧
    ((s.mark k).isNone = true → exec (.markPulseEnd k) s = .next s) ∧
    (s.mark k = some y → coarse s < y.stop → exec (.markPulseEnd k) s = .next s) ∧
    (s.mark k = some y → y.stop ≤ coarse s → exec (.markPulseEnd k) s = .next (s.setMark k none))

/-- Placement, release and fault clearing of contexts; programs (R230, R231, R233, R238, R240, R252, R264, R265).
Readings and choices of the model in it: log entries 15, 16, 28, 69. -/
def Obligations.SaddlerCommands : Prop :=
  ∀ (s got read : State) (m : Master) (n : Fin 256) (i : Fin 8) (v : Word) (code k1 k2 : Nat) (p : Prog) (img bytes : List Byte),
    let cmd := ra .sadl Sadl.CMD
    let answered (code : Nat) (t : State) : State := t.setRg (ra .sadl Sadl.CMDSTAT) (w32 (2 ^ 30 + code))
    let x := s.ctx n
    let pick := (s.draw).1
    let drawn := (s.draw).2
    let put (k : Nat) (second : Bool) (s : State) : State :=
      fillBank k img (bindBank k n second (setAcPhase n (k / 16) pick 1 s))
    let placed (k : Option Nat) (s : State) : State :=
      headerRefresh n (s.setCtx n { placed := true, first := k1, second := k })
    let refused (code : Nat) (s : State) : State := answered code (sadlNotice 0 (journal 0x02 n code 1 0 0 s))
    let chosen := chooseBank drawn n (pinOf s n false) [] none false pick (fun _ => true)
    let image (r : Option (List Byte)) (t : State) : Prop :=
      agentRead midSadl true ((drawn.rg (ra .sadl (Sadl.CTX_IMG n))).toNat * 4096 + 0x80) 0xF80 drawn = (r, t)
    let other := chooseBank (put k1 false got) n (pinOf s n true) [] (some (k1 / 64)) true pick (fun _ => true)
    let broken := !hintsHold drawn n k1
    let key := (4 * i.val + fld v 5 4) * 16 + fld v 3 0
    let alive := (List.range 8).filter (fun i => islState s i ≤ 2)
    tb (s.rg (ra .sadl Sadl.CMDSTAT)) 31 = false →
    (placeRecord s n m.sec = some code → Writes (.place m n) s m cmd (refused code s)) ∧
    (placeRecord s n m.sec = none → chosen = .error code → Writes (.place m n) s m cmd (refused code drawn)) ∧
    (placeRecord s n m.sec = none → chosen = .ok k1 →
      (image none got → Writes (.place m n) s m cmd (refused 4 got)) ∧
      (image (some img) got → reqPaired drawn n = false → Writes (.place m n) s m cmd
        (answered 0 (reserveCheck (journal 0x01 n (b2n broken) 1 0 (locWord k1) (placed none (put k1 false got)))))) ∧
      (image (some img) got → reqPaired drawn n = true →
        (other = .error code → Writes (.place m n) s m cmd (refused code got)) ∧
        (other = .ok k2 → Writes (.place m n) s m cmd
          (answered 0 (reserveCheck (journal 0x01 n (b2n (broken || !hintsHold (put k1 false got) n k2)) 1 0 (locWord k1)
            (placed (some k2) (put k2 true (put k1 false got))))))))) ∧
    (x.placed = false → Writes (.release m n) s m cmd (answered 6 s)) ∧
    (x.placed = true → reqWorld s n = true → m.sec = false → Writes (.release m n) s m cmd (answered 5 s)) ∧
    (x.placed = true → (reqWorld s n = true → m.sec = true) →
      (ctxRuns s n = true → Writes (.release m n) s m cmd
        ((s.setRg (ra .sadl Sadl.CMDSTAT) (w32 (2 ^ 31))).setCtx n { x with releasing := true })) ∧
      (ctxRuns s n = false → Writes (.release m n) s m cmd (answered 0 (reserveCheck (journal 0x03 n 0 1
        (locWord ((boundBanks s n).headD 0)) 0 (((boundBanks s n).foldl (fun u k => unbindBank k u) s).setCtx n {})))))) ∧
    (x.faults = [] → Writes (.clrfault m n) s m cmd (answered 6 s)) ∧
    (x.faults ≠ [] → reqWorld s n = true → m.sec = false → Writes (.clrfault m n) s m cmd (answered 5 s)) ∧
    (x.faults ≠ [] → (reqWorld s n = true → m.sec = true) →
      Writes (.clrfault m n) s m cmd (answered 0 ((boundBanks s n).foldl (fun u k => clearBankFault k u) s))) ∧
    (p = {
        src := (s.rg (ra .sadl Sadl.PGM_SRC)).toNat * 256, len := fld (s.rg (ra .sadl Sadl.PGM_LEN)) 17 0,
        dst := fld (s.rg (ra .sadl Sadl.PGM_DST)) 17 0, entry := s.rg (ra .sadl Sadl.PGM_ENTRY),
        world := tb (s.rg (ra .sadl Sadl.PGM_ATTR)) 31, priv := tb (s.rg (ra .sadl Sadl.PGM_ATTR)) 30 } →
      (p.dst % 256 ≠ 0 ∨ p.len % 4 ≠ 0 ∨ 0x3F800 < p.dst + p.len → Writes (.install m) s m cmd (answered 8 s)) ∧
      (p.dst % 256 = 0 → p.len % 4 = 0 → p.dst + p.len ≤ 0x3F800 →
          (∀ e ∈ s.axis.progs, e.1 ≠ fld (s.rg (ra .sadl Sadl.PGM_ATTR)) 7 0 →
            ∀ q, e.2 = some q → overlaps p.dst p.len q.dst q.len = false) → (p.world = true ∨ p.priv = true → m.sec = true) →
        (codeOf p s = (none, read) → Writes (.install m) s m cmd (answered 8 read)) ∧
        (codeOf p s = (some bytes, read) → Writes (.install m) s m cmd (answered 0
          ((((List.range 8).filter (fun i => islState read i ≤ 2)).foldl (fun u i => installIn i
            (fld (s.rg (ra .sadl Sadl.PGM_ATTR)) 7 0) p bytes u) read).setProg (fld (s.rg (ra .sadl Sadl.PGM_ATTR)) 7 0) (some p)))))) ∧
    (s.prog n = none → Writes (.uninstall m n) s m cmd (answered 8 s)) ∧
    (s.prog n = some p → s.axis.ctxs = [] → (p.world = true ∨ p.priv = true → m.sec = true) →
      Writes (.uninstall m n) s m cmd (answered 0 ((alive.foldl (fun u i => entryWrite i n 0 0 u) s).setProg n none))) ∧
    ((s.bank key).world = true → m.sec = false → Writes (.islClrflt m i v) s m (ri .isl i Isl.CLRFLT) s) ∧
    (((s.bank key).world = true → m.sec = true) → Writes (.islClrflt m i v) s m (ri .isl i Isl.CLRFLT) (clearBankFault key s))

/-- Quiet windows, pin requests and the balance check (R30, R244, R245, R246). Readings and choices of the model in it:
log entries 16, 30. -/
def Obligations.QuietWindowsAndPins : Prop :=
  ∀ (s : State) (m : Master) (a : Fin 128) (n : Fin 256) (v : Word) (e g : DWord) (k code : Nat),
    let ms := min 2000 (v.toNat % 2 ^ 11)
    let x := s.ax a
    let now := s.time.selvedge
    let stop := now + w64 (ms * 800000)
    let axq := ra .sadl (Sadl.AX_AXQ a)
    let w := plainWrite .sadl 0 (Sadl.CTX_REQ3 n) v m.sec s
    let c := s.ctx n
    let r3 := ra .sadl (Sadl.CTX_REQ3 n)
    let pick := (w.draw).1
    let drawn := (w.draw).2
    let ended : State := journal 0x51 a 0 1 0 0
      (headerRefresh a (s.setAx a { x with quietEnd := none, gapEnd := some (now + w64 16000000) }))
    let due : State := (headerRefresh n drawn).setCtx n { (headerRefresh n drawn).ctx n with pinDue := true }
    let looked : State := { s with axis.balanced := some now }
    let idle := tb (s.rg (ra .sadl Sadl.CMDSTAT)) 31 = false
    let runs (j : Nat) : Prop := islState looked (islandOf j) = 0 ∧ (looked.el j).halted = false
    let load (j : Nat) : Nat := engineLoad looked j []
    (x.quietEnd = none → ms = 0 → Writes (.quietRequest m a v) s m axq s) ∧
    (x.quietEnd = none → ms ≠ 0 → x.gapEnd = some g → Writes (.quietRequest m a v) s m axq
      (journal 0x52 a 0 1 0 0 (sadlNotice 7 (axst a 5 s)))) ∧
    (x.quietEnd = none → ms ≠ 0 → x.gapEnd = none → Writes (.quietRequest m a v) s m axq
      (journal 0x50 a 0 1 0 0 (headerRefresh a (s.setAx a { x with quietEnd := some stop })))) ∧
    (x.quietEnd = some e → ms = 0 → Writes (.quietRequest m a v) s m axq ended) ∧
    (x.quietEnd = some e → ms ≠ 0 → Writes (.quietRequest m a v) s m axq (s.setAx a { x with
      quietEnd := some (if newer 64 stop.toNat e.toNat then e else stop) })) ∧
    (x.quietEnd = some e → reached 64 now.toNat e.toNat = true → exec (.quietEnd a) s = .next ended) ∧
    (x.quietEnd = none → x.gapEnd = some g → reached 64 now.toNat g.toNat = true →
      exec (.quietEnd a) s = .next (s.setAx a { x with gapEnd := none })) ∧
    (x.quietEnd = some e → reached 64 now.toNat e.toNat = false → exec (.quietEnd a) s = .next s) ∧
    (x.quietEnd = none → x.gapEnd = none → exec (.quietEnd a) s = .next s) ∧
    (c.placed = false → Writes (.req3Write m n v) s m r3 w) ∧
    (c.placed = true → pinOf drawn n false = none → Writes (.req3Write m n v) s m r3 (headerRefresh n w)) ∧
    (c.placed = true → c.second = none → pinOf drawn n false = some k → k ≠ c.first →
      (bankFree drawn k = false → k < 512 → idle → Writes (.req3Write m n v) s m r3 (s.setRg (ra .sadl Sadl.CMDSTAT) (w32 (2 ^ 30 + 3)))) ∧
      (chooseBank drawn n (some k) [c.first] none true pick (fun _ => true) = .error code →
        (idle → Writes (.req3Write m n v) s m r3 (s.setRg (ra .sadl Sadl.CMDSTAT) (w32 (2 ^ 30 + code)))) ∧
        (¬ idle → Writes (.req3Write m n v) s m r3 s)) ∧
      (chooseBank drawn n (some k) [c.first] none true pick (fun _ => true) = .ok k →
        (mayOrder due n 7 = true → Writes (.req3Write m n v) s m r3 (orderMig n c.first k 7 (setAcPhase n (k / 16) pick 7 due))) ∧
        (mayOrder due n 7 = false → Writes (.req3Write m n v) s m r3 due))) ∧
    (balanceDue s = false → exec .balanceCheck s = .next s) ∧
    (balanceDue s = true → tb (s.rg (ra .sadl Sadl.POLICY)) 0 = false → exec .balanceCheck s = .next looked) ∧
    (balanceDue s = true → tb (s.rg (ra .sadl Sadl.POLICY)) 0 = true → (∀ j < 32, engineLoad looked j [] = 0) →
      exec .balanceCheck s = .next looked) ∧
    (∀ g h, balanceDue s = true → tb (s.rg (ra .sadl Sadl.POLICY)) 0 = true → g < 32 → h < 32 → runs g → runs h →
      (∀ j < 32, runs j → load j ≤ load g ∧ load h ≤ load j ∧ (j < g → load j < load g) ∧ (j < h → load h < load j)) →
      ((load g - load h) * 5 ≤ engineCap looked g → exec .balanceCheck s = .next looked) ∧
      (engineCap looked g < (load g - load h) * 5 → exec .balanceCheck s = .next (moveOne 2 (fun j => j / 16 = h)
        (movable looked g 2 (fun e => e.2.cls ≠ 0) (fun j => j / 16 = h)) looked)))

/-- A migration copies, is acknowledged, shadows, compares and hands over (R16, R17, R27, R28, R248, R250,
R251). Readings and choices of the model in it: log entry 16. -/
def Obligations.Migrations : Prop :=
  ∀ (s copied : State) (n : Fin 256) (m : Mig) (ok written : Bool) (p : Compare) (x y : List Byte) (t u : DWord),
    let c := s.ctx n
    let a := s.ax n
    let put (m : Mig) (s : State) : State := s.setCtx n { s.ctx n with mig := some m }
    let step (k : Nat) (s : State) : State := put { m with step := k } s
    let copy (ok : Bool) : Prop := agentCopy midSadl true (bankAddr m.src) (bankAddr m.dst) 0x1000 s = (ok, copied)
    let begun : State := journal 0x10 n 0 m.agent (locWord m.src) (locWord m.dst) copied
    let old (t : DWord) : Bool := reached 64 s.time.selvedge.toNat (t.toNat / 2 * 2 + 4)
    let second : State := s.setBank m.dst { s.bank m.src with ctx := some n.val, second := true, fault := none, held := false }
    let shadow : State := journal 0x11 n 0 m.agent (locWord m.src) (locWord m.dst) (step 3 second)
    let hold (h : Bool) (s : State) : State := s.setBank m.src { s.bank m.src with held := h }
    (c.mig = none → ∀ d ∈ [Instr.migrationCopy n, .copyAck n ok, .shadowCompare n, .serviceMigration n written],
      exec d s = .next s) ∧
    (c.mig = some m →
      (copyReady s n = false → exec (.migrationCopy n) s = .next s) ∧
      (copyReady s n = true → (s.bank m.src).fault = none →
        (copy true → exec (.migrationCopy n) s = .next
          (State.setAx (put { m with step := 1, dirty := false, crossed := false } begun) n { begun.ax n with acted := true })) ∧
        (copy false → exec (.migrationCopy n) s = .next (abortMig n 3 copied))) ∧
      (copyReady s n = true → (s.bank m.src).fault.isSome = true → exec (.migrationCopy n) s = .next (abortMig n 3 s)) ∧
      (m.step = 1 → exec (.copyAck n false) s = .next (abortMig n 3 s)) ∧
      (m.step = 1 → noPeriod s n = true → exec (.copyAck n true) s = .next s) ∧
      (m.step = 1 → noPeriod s n = false → orderHolds s n m = false → exec (.copyAck n true) s = .next (withdrawMig n s)) ∧
      (m.step = 1 → noPeriod s n = false → orderHolds s n m = true → m.dirty = false →
        (m.crossed = false → exec (.copyAck n true) s = .next (step 2 second)) ∧
        (axisQuiet s n = true → exec (.copyAck n true) s = .next (step 2 second)) ∧
        (m.crossed = true → axisQuiet s n = false →
          exec (.copyAck n true) s = .next (shadow.setAx n { shadow.ax n with acted := true }))) ∧
      (m.step = 1 → noPeriod s n = false → orderHolds s n m = true → m.dirty = true →
        exec (.copyAck n true) s = .next (retryMig n s)) ∧
      ((retryMig n s).ctx n).mig = some { m with step := 0, dirty := false, crossed := false } ∧
      (m.step ≠ 1 → exec (.copyAck n ok) s = .next s) ∧
      (m.step = 3 → a.cmps.find? (fun c => c.shadow && compareDue s.time.selvedge c.a c.c) = some p →
          p.a = some (x, t) → p.c = some (y, u) → old t = true → old u = true →
        (migRuns s m = false → exec (.shadowCompare n) s = .next (abortMig n 1 s)) ∧
        (migRuns s m = true → x = y → exec (.shadowCompare n) s = .next (shadowOver n (step 4 s))) ∧
        (migRuns s m = true → x ≠ y → exec (.shadowCompare n) s = .next (markSuspect (m.dst / 16) (abortMig n 2 s)))) ∧
      (m.step ≠ 3 → exec (.shadowCompare n) s = .next s) ∧
      (noPeriod s n = false → exec (.serviceMigration n written) s = .next s) ∧
      (m.step = 0 → bankRuns s m.src = true ∨ m.waitRun = true → exec (.serviceMigration n written) s = .next s) ∧
      (noPeriod s n = true → m.step = 0 → bankRuns s m.src = false → m.waitRun = false → migRuns s m = true →
          orderHolds s n m = true → axisFree s n = true → (s.bank m.src).fault = none →
        (copy true → exec (.serviceMigration n written) s = .next (put { m with step := 1, dirty := false } (hold true copied))) ∧
        (copy false → exec (.serviceMigration n written) s = .next (abortMig n 3 copied))) ∧
      (noPeriod s n = true → m.step = 1 → n.val < 128 → axisQuiet s n = true → exec (.serviceMigration n written) s = .next s) ∧
      (noPeriod s n = true → m.step = 1 → (n.val < 128 → axisQuiet s n = false) → migRuns s m = false →
        exec (.serviceMigration n written) s = .next (retryMig n s)) ∧
      (noPeriod s n = true → m.step = 1 → (n.val < 128 → axisQuiet s n = false) → migRuns s m = true → orderHolds s n m = true →
        (written = true ∨ m.dirty = true → exec (.serviceMigration n written) s = .next
          (put { m with step := 0, dirty := false, waitRun := true } (hold false s))) ∧
        (m.dirty = false → exec (.serviceMigration n false) s = .next (journal 0x14 n 0 m.agent (locWord m.src) (locWord m.dst)
          (switchMig n m second)))))

/-- Paired copies, commit deadlines and setpoints (R81, R85, R232, R249, R252, R253, R256, R257). Readings and choices
of the model in it: log entries 12, 63. -/
def Obligations.PairsDeadlinesAndSetpoints : Prop :=
  ∀ (s : State) (n : Fin 128) (c : Fin 256) (key : Fin 512) (p : Compare) (x y : List Byte) (t u : DWord) (sp : Setpoint)
    (rest : List Setpoint) (k : Nat) (ks : List Nat),
    let a := s.ax n
    let now := s.time.selvedge
    let old (t : DWord) : Bool := reached 64 now.toNat (t.toNat / 2 * 2 + 4)
    let done (p : Compare) : State := s.setAx n { a with cmps := if p.ended then [] else [{ p with paired := true }] }
    let pc := s.ctx n
    let late : State := deadlinePassed n s
    let past (l : List Compare) : State := late.setAx n { late.ax n with cmps := l }
    let taken : State := s.setCtx c { s.ctx c with held := rest, delivered := true }
    let block := toBytes 4 sp.pos.toNat ++ toBytes 4 sp.vel.toNat ++ toBytes 4 sp.torque.toNat ++ toBytes 4 sp.due.toNat ++
      toBytes 4 sp.seq.toNat
    let due := (s.bank key).spArmed = true ∧ s.time.selvedge ≠ (s.bank key).spAt ∧ reached 32 s.time.selvedge.toNat (s.word (bankAddr key + 0x4C)).toNat = true
    (pc.second = none ∨ (∀ p ∈ a.cmps, p.paired = true ∨ p.a = none ∨ p.b = none) → exec (.pairCompare n) s = .next s) ∧
    (pc.second = some k → a.cmps = [p] → p.paired = false → p.shadow = false → p.a = some (x, t) → p.b = some (y, u) →
        old t = true → old u = true →
      (x = y → exec (.pairCompare n) s = .next (done p)) ∧ (x ≠ y → exec (.pairCompare n) s = .next (pairFault n 1 (done p)))) ∧
    ((late.ax n).cmps = [] → exec (.commitDeadline n) s = .next (past [])) ∧
    ((late.ax n).cmps = [p] → p.ended = false →
      (newer 64 now.toNat p.deadline.toNat = false → exec (.commitDeadline n) s = .next (past [p])) ∧
      (newer 64 now.toNat p.deadline.toNat = true →
        (p.b = none → p.shadow = false → ((past []).ctx n).second = none → exec (.commitDeadline n) s = .next (past [])) ∧
        (p.a = none → p.b = none → ((past []).ctx n).second = some k → ((pairFault n 2 (past [])).ctx n).mig = none →
          exec (.commitDeadline n) s = .next (pairFault n 2 (past []))))) ∧
    ((s.ctx c).held = [] → exec (.setpointWrite c) s = .next s) ∧
    (ctxRuns s c = true → exec (.setpointWrite c) s = .next s) ∧
    ((s.ctx c).held = sp :: rest → ctxRuns s c = false →
      (boundBanks s c = [] → exec (.setpointWrite c) s = .next taken) ∧
      (boundBanks s c = k :: ks → 128 ≤ c.val ∨ (s.ctx c).delivered = false → exec (.setpointWrite c) s = .next
        (wakeCtx c 2 ((k :: ks).foldl (fun s j => s.setBank j { s.bank j with spArmed := true, spAt := s.time.selvedge })
          (bankWrite (some midQm) c 0x40 block taken))))) ∧
    (¬ due → exec (.spDueFire key) s = .next s) ∧
    (due → exec (.spDueFire key) s = .next (latchBank key 1 (s.setBank key { s.bank key with spArmed := false })))

/-- Tether links: lock, training, cells and register commands (R274, R275, R276, R277, R278, R279, R280, R289,
R293). Readings and choices of the model in it: log entries 5, 17, 71. -/
def Obligations.TetherLinks : Prop :=
  ∀ (s : State) (m : Master) (l : Fin 16) (v : Word) (t : BitVec 64) (ta : Word) (age : Nat) (acc : LinkAcc) (t1 : DWord)
    (rd cut : Bool) (code : BitVec 10) (bs : List Byte),
    let c := tl l Teth.CFG
    let st := tethState s l
    let wr : State := plainWrite .teth l Teth.CFG v m.sec s
    let x := s.link l
    let heard : State := s.setLink l { x with lastUp := s.time.selvedge }
    let aligning : State := s.setLink l { x with lastUp := s.time.selvedge, started := s.time.selvedge, line := [],
                                                 queue := [], echoes := [], rtts := [], own := none,
                                                 todo := [.read 0, .read 1] ++ List.replicate 8 .echo ++
                                                   [.write 0x10, .write 0x11, .write 0x12],
                                                 echoAt := s.time.selvedge, run := 0, axes := forgetCfg x.axes }
    let anew (u : State) : State := u.setLink l { u.link l with line := [], set := [], errs := [], rxFrom := s.time.selvedge }
    let clean := elapsed s x.rxFrom 205 = true ∧ ∀ e rest, x.errs = e :: rest → elapsed s e 205 = true
    let counted : State := bump .teth l Teth.CODEERR_CNT (tethFlag l 4 s)
    let noted : State := counted.setLink l { counted.link l with errs := (s.time.selvedge :: (counted.link l).errs).take 4 }
    let bad : State := bump .teth l Teth.BADCELL_CNT (tethFlag l 3 s)
    let d := s.time.selvedge - w64 age - t1
    let rtts := (sext (wrap ((d.toNat : Int) - ta.toNat) 32) 32 :: x.rtts).take 8
    let took : State := heard.setLink l { heard.link l with echoes := x.echoes.filter (fun e => e.1 ≠ t) }
    let timed : State := ((took.setLink l { took.link l with rtts := rtts }).setRg (tl l Teth.RTT)
      (w32 (wrap ((d.toNat : Int) - ta.toNat) 32))).setRg (tl l Teth.DLY) (w32 (wrap (meanDelay rtts) 16))
    (tb (s.rg c) 31 = false → tb v 31 = true → Writes (.tethEnable m l v) s m c (anew (tethGoto l 0 wr))) ∧
    (tb (s.rg c) 31 = false → tb v 31 = false → Writes (.tethEnable m l v) s m c wr) ∧
    (tb (s.rg c) 31 = true → tb v 31 = true →
      Writes (.tethEnable m l v) s m c (wr.setRgFld c 26 24 (fld (s.rg c) 26 24))) ∧
    (tb (s.rg c) 31 = true → tb v 31 = false →
      Writes (.tethEnable m l v) s m c (anew (tethGoto l 0 (wr.setRgFld c 26 24 (fld (s.rg c) 26 24))))) ∧
    (tb (s.rg c) 31 = true → st = 0 → clean →
      exec (.tethLock l) s = .next (tethGoto l 1 (s.setLink l { x with errs := [] }))) ∧
    (tb (s.rg c) 31 = false ∨ st ≠ 0 → exec (.tethLock l) s = .next s) ∧
    (¬ clean → exec (.tethLock l) s = .next s ∧ exec (.tethTrainDone l) s = .next s) ∧
    (st = 1 → clean → exec (.tethTrainDone l) s = .next (tethGoto l 2 aligning)) ∧
    (st ≠ 1 → exec (.tethTrainDone l) s = .next s) ∧
    (1 ≤ st → st ≤ 3 → rxLost s l = true → exec (.tethLockLoss l) s =
      .next (tethGoto l 0 (bump .teth l Teth.LOCKLOSS_CNT (tethFlag l 5 s)))) ∧
    (st = 0 ∨ 3 < st ∨ rxLost s l = false → exec (.tethLockLoss l) s = .next s) ∧
    (st = 2 → x.own = none → x.todo = [] → (∀ a < 8, tethEn s l a = true → ((x.ax a).cfgSent).isSome = true) →
      exec (.tethAlign l) s = .next (tethGoto l 3 s)) ∧
    (∀ a, st = 2 → x.own = none → x.todo = [] → axisToSend s l = some a → exec (.tethAlign l) s = .next
      (ownAccess l (0x20 + a) true false (s.setLink l { x with todo := [.write (0x20 + a), .write (0x28 + a)] }))) ∧
    (∀ a rest, st = 2 → x.own = none → x.todo = .read a :: rest →
      exec (.tethAlign l) s = .next (ownAccess l a false false s)) ∧
    (∀ a rest, st = 2 → x.own = none → x.todo = .write a :: rest →
      exec (.tethAlign l) s = .next (ownAccess l a true false s)) ∧
    (∀ rest, st = 2 → x.own = none → x.todo = .echo :: rest → x.echoes = [] → x.queue = [] →
      exec (.tethAlign l) s = .next (sendTime l true s)) ∧
    (st ≠ 2 ∨ x.own.isSome = true → exec (.tethAlign l) s = .next s) ∧
    exec (.tethTimeCell l) s = .next (if timeCellDue s l then sendTime l false s else s) ∧
    (echoDue s l = true → exec (.tethEchoRequest l) s =
      .next (sendTime l true (s.setLink l { x with echoAt := s.time.selvedge }))) ∧
    (tethCells s l = false → exec (.echoReceived l t ta age) s = .next s) ∧
    (tethCells s l = true → x.echoes.find? (fun e => e.1 = t) = none → exec (.echoReceived l t ta age) s = .next heard) ∧
    (st = 3 → x.echoes.find? (fun e => e.1 = t) = some (t, t1) → newer 64 8001 d.toNat = true →
      exec (.echoReceived l t ta age) s = .next
        (if (meanDelay rtts - fld (s.rg (tl l Teth.DLY)) 15 0).natAbs > 2 then tethFlag l 7 timed else timed)) ∧
    (upLossDue s l = true → exec (.uplossTimeout l) s = .next (tethGoto l 0 (tethFlag l 6 s))) ∧
    (upLossDue s l = false → exec (.uplossTimeout l) s = .next s) ∧
    (tb (s.rg c) 31 = false ∨ symbolError rd code = false → exec (.tethSymbolError l rd code) s = .next s) ∧
    (tb (s.rg c) 31 = true → symbolError rd code = true → exec (.tethSymbolError l rd code) s = .next noted) ∧
    (tethCells s l = true → exec (.tethInvalidCell l true bs) s = .next bad) ∧
    (tethCells s l = true → cellValid s l bs = false → exec (.tethInvalidCell l cut bs) s = .next bad) ∧
    (tethCells s l = false → exec (.tethInvalidCell l cut bs) s = .next s) ∧
    (x.own = none → x.cmd = some acc → elapsed s acc.sent 16000 = true → exec (.tethRegTimeout l) s = .next
      (((s.setLink l { x with cmd := none }).setRgBit (tl l Teth.REGSTAT) 31 false).setRgBit (tl l Teth.REGSTAT) 29 true)) ∧
    (x.own = none → x.cmd = none → exec (.tethRegTimeout l) s = .next s)

/-- Tether axes: cells received, loss of the uplink, bundles and safe states (R276, R281, R282, R283, R284,
R285, R286, R287, R288, R290, R291). Readings and choices of the model in it: log entry 17. -/
def Obligations.TetherAxes : Prop :=
  ∀ (s : State) (m : Master) (l : Fin 16) (a : Fin 8) (st : BitVec 8) (ia ib aux vbus : BitVec 16) (v data pos turns time : Word)
    (code addr : BitVec 16) (tag result : BitVec 8) (acc : LinkAcc) (i : Nat) (f : EdgeFlight),
    let x := s.link l
    let heard : State := s.setLink l { x with lastUp := s.time.selvedge }
    let at_ := fullTime s time
    let n := periodAt s l at_
    let y := promote n (x.ax a)
    let asked : State := heard.setLinkAx l a { y with period := n, asked := some (y.asked.getD n) }
    let present := tb (s.rg (tl l Teth.CAPS)) a
    let bad : State := bump .teth l Teth.BADCELL_CNT (tethFlag l 3 s)
    let rc := tl l Teth.REGCMD
    let rs := tl l Teth.REGSTAT
    let cmd : State := plainWrite .teth l Teth.REGCMD v m.sec s
    let ctrl := tl l (Teth.AX_CTRL a)
    let t := (x.tag + 1) % 256
    let wire (write : Bool) : State := (cmd.setLink l { x with tag := t, cmd := some {
      addr := v.toNat % 2 ^ 16, data := s.rg (tl l Teth.REGDATA), write := write, tag := t, sent := s.time.selvedge } }).setRgBit rs 31 true
    let cleared : State := s.setLinkAx l a { x.ax a with clearing := some 0 }
    (tethCells s l = false → ∀ c ∈ [Instr.sampleCellReceived l a st ia ib aux vbus time, .feedbackCellReceived l a st pos turns time,
      .statusCellReceived l st st code, .regackReceived l addr data tag result], exec c s = .next s) ∧
    (tethCells s l = true → present = false → ∀ c ∈ [Instr.sampleCellReceived l a st ia ib aux vbus time,
      .feedbackCellReceived l a st pos turns time], exec c s = .next bad) ∧
    (tethCells s l = true → present = true →
      (tethEn s l a = false → exec (.sampleCellReceived l a st ia ib aux vbus time) s = .next heard ∧
        exec (.feedbackCellReceived l a st pos turns time) s = .next heard) ∧
      (tethEn s l a = true → (tethSlot s l a ≥ 128 ∨ ctxBound s (tethSlot s l a) = false) → st = 0 →
        (s.ctx (tethSlot s l a)).mig = none →
        exec (.sampleCellReceived l a st ia ib aux vbus time) s = .next (axisDrop (tethSlot s l a) asked)) ∧
      (tethEn s l a = true → tethSlot s l a < 128 → ctxBound s (tethSlot s l a) = true → st = 0 → y.opened = none →
        exec (.sampleCellReceived l a st ia ib aux vbus time) s = .next (samplePort (some midTeth) (tethSlot s l a)
          (toBytes 2 ia.toNat ++ toBytes 2 ib.toNat ++ toBytes 2 aux.toNat ++ toBytes 2 vbus.toNat) at_ (2 ^ 22) none
          (sampleTaken (tethSlot s l a) at_ (linkDeadline heard l y n) asked))) ∧
      (tethEn s l a = true → tb (s.rg (tl l (Teth.AX_AX a))) 30 = true → st.getLsbD 0 = true →
        exec (.feedbackCellReceived l a st pos turns time) s = .next (feedbackPort (some midTeth) (tethSlot s l a) pos turns ((x.ax a).speed)
          (fullTime s time) (32768 + b2n (st.getLsbD 1) * 2 ^ 14 + b2n (st.getLsbD 2) * 2 ^ 13 + b2n (st.getLsbD 3) * 2 ^ 7
            + b2n (st.getLsbD 4) * 2 ^ 11 + b2n (st.getLsbD 5) * 2 ^ 6 + b2n (st.getLsbD 6) * 2 ^ 8) 2 none heard))) ∧
    (tethCells s l = true → (∀ k < 8, tethEn s l k = false) →
      exec (.statusCellReceived l st 0 0) s = .next ((List.range 8).foldl (fun u k =>
        u.setRgBit (tl l (Teth.AX_AXSTAT k)) 7 (st.getLsbD k)) (heard.setRg (tl l Teth.STSTAT) (w32 (st.toNat * 2 ^ 16))))) ∧
    (tethCells s l = true → x.own = none → x.cmd = some acc → acc.addr = addr.toNat → acc.tag = tag.toNat →
      exec (.regackReceived l addr data tag result) s = .next (cmdAck l acc data result.toNat heard)) ∧
    (tethCells s l = true → x.own = none → (∀ q, x.cmd = some q → q.tag ≠ tag.toNat) →
      exec (.regackReceived l addr data tag result) s = .next heard) ∧
    (tb v 31 = false ∨ tb (s.rg rs) 31 = true ∨ tethCells s l = false → Writes (.tethRegcmdGo m l v) s m rc cmd) ∧
    (tb v 31 = true → tb (s.rg rs) 31 = false → tethCells s l = true →
      (tb v 30 = true → linkOwned (v.toNat % 2 ^ 16) = true → Writes (.tethRegcmdGo m l v) s m rc (cmd.setRgFld rs 7 0 2)) ∧
      (tb v 30 = true → linkOwned (v.toNat % 2 ^ 16) = false → Writes (.tethRegcmdGo m l v) s m rc
        (sendCell l 3 (cellBytes 4 0 (toBytes 2 (v.toNat % 2 ^ 16) ++ toBytes 4 (s.rg (tl l Teth.REGDATA)).toNat ++ toBytes 1 t)) (wire true))) ∧
      (tb v 30 = false → Writes (.tethRegcmdGo m l v) s m rc
        (sendCell l 3 (cellBytes 5 0 (toBytes 2 (v.toNat % 2 ^ 16) ++ toBytes 4 0 ++ toBytes 1 t)) (wire false)))) ∧
    (s.axis.edges[i]? = none → exec (.linkedBundle i) s = .next s) ∧
    (∀ u, s.axis.edges[i]? = some f → linkOf s f.axis = some (l.val, a.val) →
      bundleAtPort f { s with axis.edges := removeAt s.axis.edges [i] } = (true, u) →
      exec (.linkedBundle i) s = .next (linkedBundle l a f.bytes f.old u) ∧
      (tethState u l ≠ 3 ∨ f.old = true → exec (.linkedBundle i) s = .next
        ((u.setLinkAx l a { (u.link l).ax a with asked := none }).setRgBit (tl l (Teth.AX_AXSTAT a)) 0 true)) ∧
      (∀ n p e, tethState u l = 3 → f.old = false → tb (u.rg (tl l (Teth.AX_AXSTAT a))) 31 = false →
        ((u.link l).ax a).asked = some n → periodAt u l u.time.selvedge ≤ n → ((u.link l).ax a).pend = some (p, e) →
        periodAt u l u.time.selvedge < p →
        exec (.linkedBundle i) s = .next (sendCell l 1 (cellBytes 1 a (BitVec.ofNat 8 (n + 1) :: f.bytes.take 12))
          (u.setLinkAx l a { (u.link l).ax a with asked := none, pend := some (n + 1, f.bytes.take 12), answered := true,
                                                  haltHold := none })))) ∧
    (loopDue s l a = false → exec (.linkLoopPeriod l a) s = .next s) ∧
    (loopDue s l a = true → exec (.linkLoopPeriod l a) s = .next (loopPeriod l a s)) ∧
    (tethEn s l a = true → Writes (.tethForcesafe m l a) s m ctrl (tethSafe l a 7 s)) ∧
    (tethEn s l a = false → Writes (.tethForcesafe m l a) s m ctrl s) ∧
    (tethClrAllowed s l a m.sec = true → Writes (.tethClrsafe m l a) s m ctrl
      { cleared with axis.edges := cleared.axis.edges.map (fun f => if f.axis = tethSlot s l a then { f with old := true } else f) }) ∧
    (tethClrAllowed s l a m.sec = false → Writes (.tethClrsafe m l a) s m ctrl s)

/-- Partner queues: enable, placement, production and consumption (R247, R298, R299, R300, R303, R304). Readings
and choices of the model in it: log entry 18. -/
def Obligations.Queues : Prop :=
  ∀ (s : State) (m : Master) (q : Fin 8192) (n : Fin 4096) (b v : Word) (t : Fin 5) (k l : Nat) (rest : List Nat),
    let cmd := w32 (n.val * 2 ^ 16 + q.val)
    let fails (u : State) (code : Nat) (c : Instr) (pa : Nat) : Prop := gateRefuses s m pa 4 = false →
      (tb (u.rg (ra .qm Qm.ERR)) 31 = false → exec c s = .next { u.setRg (ra .qm Qm.ERR)
        (setBit (w32 (2 ^ 31 + q.val * 2 ^ 16 + m.sub.val * 2 ^ 9 + m.mid.val * 16 + code)) 30 (tb (u.rg (ra .qm Qm.ERR)) 30)) with resp := .err }) ∧
      (tb (u.rg (ra .qm Qm.ERR)) 31 = true → exec c s = .next { u.setRgBit (ra .qm Qm.ERR) 30 true with resp := .err })
    let err := fails s
    let reached := queueOpen midQm q s = (true, s)
    let away := queueOpen midQm q s
    let keep : Word := 0x03FF00FF#32
    let both (p : Instr → Nat → Prop) : Prop := p (.qmProd m cmd) (ra .qm Qm.PROD) ∧ p (.qmCons m cmd) (ra .qm Qm.CONS)
    let barred := qWorld s q = true ∧ m.sec = false
    let ready := qEn s q = true ∧ qReady s q = true
    let placing := tb (qw s q 0) 31 = true ∧ tb (qw s q 0) 29 = true ∧ tb (qw s q 0) 26 = false
    (n.val = 0 → Writes (.qmProd m cmd) s m (ra .qm Qm.PROD) s ∧ Writes (.qmCons m cmd) s m (ra .qm Qm.CONS) s) ∧
    (n.val ≠ 0 → barred → both (err 3)) ∧
    (n.val ≠ 0 → ¬ barred → away.1 = false → both (fails away.2 1)) ∧
    (n.val ≠ 0 → ¬ barred → reached → ¬ ready → both (err 1)) ∧
    (n.val ≠ 0 → ¬ barred → reached → ready →
      (qCount s q + n ≤ 2 ^ qDepth s q → Writes (.qmProd m cmd) s m (ra .qm Qm.PROD) (qProduce q n s)) ∧
      (2 ^ qDepth s q < qCount s q + n → err 2 (.qmProd m cmd) (ra .qm Qm.PROD)) ∧
      (n.val ≤ qCount s q → Writes (.qmCons m cmd) s m (ra .qm Qm.CONS) (qConsume q n s)) ∧
      (qCount s q < n.val → err 2 (.qmCons m cmd) (ra .qm Qm.CONS))) ∧
    (notifyFifo s t = [] → gateRefuses s m (ra .qm (Qm.NPOP t)) 4 = false → exec (.npop m t) s = .next { s with resp := .ok 0 }) ∧
    (notifyFifo s t = k :: rest → gateRefuses s m (ra .qm (Qm.NPOP t)) 4 = false → m.mid.val ≠ 24 →
      exec (.npop m t) s = .next { setNotify t rest s with resp := .ok (w32 (2 ^ 31 + k)) }) ∧
    ((queueOpen midSadl q s).1 = false → exec (.queueAutoPlaced q (some b)) s = .next (queueOpen midSadl q s).2) ∧
    (queueOpen midSadl q s = (true, s) → ¬ placing → exec (.queueAutoPlaced q (some b)) s = .next s) ∧
    (queueOpen midSadl q s = (true, s) → placing → qLevel s (b.toNat * 256) (qBytes s q) = some l → autoFits s q (b.toNat * 256) l = true →
      exec (.queueAutoPlaced q (some b)) s = .next
        (qSet q 0 (setBit (setFld (qw s q 0) 28 27 l) 26 true) (qSet q 1 b s))) ∧
    (queueOpen midSadl q s = (true, s) → placing → exec (.queueAutoPlaced q none) s = .next ((qFail q s).setRgBit (ra .qm Qm.STAT) 8 true)) ∧
    (m.reserved = false → rgnRefuses s m.sec (qAddr q 0) true = false → fixedRefuses s m.sec (qAddr q 0) = false →
      (barred → exec (.queueEnable m q v) s = .next { s with resp := .err }) ∧
      (¬ barred → qEn s q = false → tb v 31 = false →
        exec (.queueEnable m q v) s = .next { qSet q 0 (setBit v 26 false) s with resp := .ok 0 }) ∧
      (¬ barred → qEn s q = false → tb v 31 = true →
        exec (.queueEnable m q v) s = .next { qEnable q (qSet q 0 (setBit v 26 false) s) with resp := .ok 0 }) ∧
      (¬ barred → qEn s q = true → tb v 31 = true → exec (.queueEnable m q v) s =
        .next { qSet q 0 ((qw s q 0 &&& ~~~ keep) ||| (v &&& keep)) s with resp := .ok 0 }))

/-- Girth: cycles, slots, replies and their failures (R307, R310, R311, R312, R313, R314, R315). Readings
and choices of the model in it: log entries 5, 18, 72. -/
def Obligations.GirthBus : Prop :=
  ∀ (s : State) (g : Fin 4) (bytes tail : List (BitVec 8)) (addr ctl : BitVec 8) (cut : Bool) (age k : Nat) (t : GirthTry)
    (el : List Byte),
    let reply := Instr.girthReply g addr ctl tail age
    let x := s.girth g
    let cfg := s.rg (gr g Girth.CFG)
    let tim := s.rg (gr g Girth.TIMING)
    let en := tb cfg 31
    let now := s.time.selvedge
    let bit := 50 * 2 ^ min 4 (fld cfg 29 27)
    let guard := bit * max 12 (fld tim 31 24)
    let rto := w64 (bit * max 34 (fld tim 7 0))
    let c := ((s.rg (gr g Girth.CYCNT)).toNat % 2 ^ 16 + 1) % 65536
    let started : State := raiseEvent (0x420 + g) ((s.setRg (gr g Girth.CYCNT) (w32 c)).setGirth g
      { x with startDue := false, bank := tb cfg 30 })
    let overrun : State := bump .girth g Girth.OVR_CNT (girthFlag g 0 started)
    let badFrame : State := bump .girth g Girth.CRCERR_CNT (girthFlag g 3 s)
    let free (u : State) := girthFree u g = true
    let byte := 10 * bit
    let first := x.sent - w64 (byte * x.line.length)
    let rest := x.line.take ((now - first).toNat / byte + 1)
    let fin := first + w64 (byte * rest.length)
    let hit : State := girthFlag g 4 (s.setGirth g { x with line := rest, sent := fin, idle := fin + w64 guard })
    let sends := x.line ≠ [] ∧ newer 64 now.toNat x.sent.toNat = false
    let len := (bytes.getD 2 0).toNat
    let good := 5 ≤ bytes.length ∧ len ≤ 32 ∧ bytes.length = 5 + len ∧
      ofBytes (bytes.drop (3 + len)) = girthCrc (bytes.take (3 + len)) ∧ (bytes.getD 1 0).toNat / 16 = 8
    let payload := (bytes.drop 3).take len
    let window := inWindow s g (now - w64 age) = true
    let fits := (bytes.getD 0 0).toNat = t.node ∧ (bytes.getD 1 0).toNat % 8 = t.seq ∧ 3 ≤ len ∧
      (payload.getD 0 0).toNat = t.opcode
    let answered : State := countEntry midGirth (2 * t.partner) t.partner 6 (nodeAnswers g t.node s)
    let news := Tbl.get (fun _ => none) (answered.girth g).nstat t.node ≠ some (payload.getD 2 0).toNat
    let stores (flags : Nat) (ok : Bool) (u : State) : Prop := girthQs answered t.partner = true ∧
      pushElem midGirth (2 * t.partner) (ptWorld answered t.partner) (toBytes 1 payload.length ++ toBytes 1 flags ++
        toBytes 2 (fld (answered.rg (gr g Girth.CYCNT)) 15 0) ++ toBytes 4 (w32 (answered.time.selvedge - w64 age).toNat).toNat ++ payload)
        answered = (ok, u)
    let noted (u : State) : State := u.setGirth g { u.girth g with
      nstat := Tbl.set (fun _ => none) (u.girth g).nstat t.node (some (payload.getD 2 0).toNat) }
    let head (u : State) : Prop := queueOpen midGirth (2 * t.partner + 1) u = (true, u)
    let consumed (u : State) : State := qConsume (2 * t.partner + 1) 1 u
    let e := s.rg (gr g (if x.bank then Girth.SCHED_1 k else Girth.SCHED_0 k))
    let n := fld e 7 0
    let nm := s.rg (gr g (Girth.NODEMAP n))
    let p := fld nm 11 0
    let q := 2 * p + 1
    let known := tb nm 31 = true ∧ girthReach p s = ((true, true), s) ∧ ptValid s p = true ∧ ptKind s p = 3 ∧ ptPort s p = g ∧
      fld (pw_ s p 0) 23 16 = n
    let holds := qEn s q = true ∧ qReady s q = true ∧ 0 < qCount s q
    let l := (el.getD 0 0).toNat
    let cmd := (el.drop 4).take l
    let seq := (nodeGet x.seqs n + 1) % 8
    let old := (Tbl.get (fun _ => none) x.eseqs (elemKey n p)).getD (nodeGet x.seqs n)
    (x.startDue = false ∨ en = false → exec (.girthCycleStart g) s = .next s) ∧
    (x.startDue = true → en = true → x.walk = none → free s →
      exec (.girthCycleStart g) s = .next (sendBeacon g started)) ∧
    (x.startDue = true → en = true → x.walk = some k → free s →
      exec (.girthCycleStart g) s = .next (sendBeacon g overrun)) ∧
    (x.startDue = true → en = true → x.walk = none → ¬ free s →
      exec (.girthCycleStart g) s = .next (started.setGirth g { started.girth g with again := true })) ∧
    (x.startDue = true → en = true → x.walk = some k → ¬ free s →
      exec (.girthCycleStart g) s = .next (overrun.setGirth g { overrun.girth g with again := true })) ∧
    (¬ free s → exec (.girthSlot g) s = .next s) ∧
    (free s → x.again = true → exec (.girthSlot g) s = .next (sendBeacon g s)) ∧
    (free s → x.again = false → x.walk = none → exec (.girthSlot g) s = .next s) ∧
    (free s → x.again = false → x.walk = some k → girthLen s g ≤ k →
      exec (.girthSlot g) s = .next ((s.setGirth g { x with walk := none }).setRgBit (gr g Girth.STAT) 31 false)) ∧
    (free s → x.again = false → x.walk = some k → k < girthLen s g → tb e 31 = false →
      exec (.girthSlot g) s = .next (girthTick g (s.setGirth g { x with walk := some (k + 1) }))) ∧
    (free s → x.again = false → x.walk = some k → k < girthLen s g → tb e 31 = true →
      (tb nm 31 = false → exec (.girthSlot g) s = .next (girthTick g ((ptMiss (4 + g) p s).setGirth g
        { (ptMiss (4 + g) p s).girth g with walk := some (k + 1) }))) ∧
      (∀ sent, known → x.safe = some sent → n ∉ sent → exec (.girthSlot g) s = .next
        (sendCmd g n p true [3] (s.setGirth g { x with safe := some (addNode n sent) }))) ∧
      (known → x.safe = none → girthQs s p = true → holds → qWorld s q = ptWorld s p →
        agentRead midGirth (qWorld s q) (qElem s q (qRd s q)) 64 s = (some el, s) → 0 < l → l ≤ 32 →
        (nodeGet x.tries (elemKey n p) = 0 → exec (.girthSlot g) s = .next (girthSend g (girthFrame n 2 seq cmd) (s.setGirth g
          { x with seqs := nodeSet x.seqs n seq, eseqs := Tbl.set (fun _ => none) x.eseqs (elemKey n p) (some seq),
                   attempt := some { node := n, partner := p, nop := false, seq := seq, opcode := (cmd.headD 0).toNat } }))) ∧
        (nodeGet x.tries (elemKey n p) ≠ 0 → exec (.girthSlot g) s = .next (girthSend g (girthFrame n 2 old cmd) (s.setGirth g
          { x with eseqs := Tbl.set (fun _ => none) x.eseqs (elemKey n p) (some old),
                   attempt := some { node := n, partner := p, nop := false, seq := old, opcode := (cmd.headD 0).toNat } })))) ∧
      (known → x.safe = none → girthQs s p = true → ¬ holds →
        (tb e 30 = true → exec (.girthSlot g) s = .next (girthSend g (girthFrame n 2 seq [0]) (s.setGirth g
          { x with seqs := nodeSet x.seqs n seq,
                   attempt := some { node := n, partner := p, nop := true, seq := seq, opcode := 0 } }))) ∧
        (tb e 30 = false →
          exec (.girthSlot g) s = .next (girthTick g (s.setGirth g { x with walk := some (k + 1) }))))) ∧
    (x.attempt = none → exec (.girthReplyTimeout g) s = .next s) ∧
    (x.attempt = some t → past s (x.sent + rto) = false → exec (.girthReplyTimeout g) s = .next s) ∧
    (x.attempt = some t → past s (x.sent + rto) = true → exec (.girthReplyTimeout g) s = .next (tryFails g t now s)) ∧
    (en = false → exec (.girthCollision g) s = .next s ∧ exec (.girthInvalidFrame g cut bytes) s = .next s ∧
      exec reply s = .next s) ∧
    (¬ sends → exec (.girthCollision g) s = .next s) ∧
    (en = true → sends → x.attempt = none → exec (.girthCollision g) s = .next hit) ∧
    (en = true → sends → x.attempt = some t → exec (.girthCollision g) s = .next (tryFails g t fin hit)) ∧
    (cut = false → good → exec (.girthInvalidFrame g cut bytes) s = .next s) ∧
    (en = true → ¬ good ∨ cut = true → x.attempt = none → exec (.girthInvalidFrame g cut bytes) s = .next badFrame) ∧
    (en = true → ¬ good ∨ cut = true → x.attempt = some t → past s x.sent = true →
      exec (.girthInvalidFrame g cut bytes) s = .next (tryFails g t now badFrame)) ∧
    (bytes = addr :: ctl :: tail → en = true →
      (¬ good → x.attempt = none → exec reply s = .next badFrame) ∧
      (¬ good → x.attempt = some t → past s x.sent = true → exec reply s = .next (tryFails g t now badFrame)) ∧
      (good → x.attempt = none → exec reply s = .next s) ∧
      (good → x.attempt = some t → ¬ window → exec reply s = .next (tryFails g t now s)) ∧
      (good → x.attempt = some t → window → ¬ fits →
        exec reply s = .next (tryFails g t now (countEntry midGirth (2 * t.partner) t.partner 7 s))) ∧
      (good → x.attempt = some t → window → fits → t.nop = true → t.opcode = 0 →
        (payload.getD 1 0 = 0 → ¬ news → exec reply s = .next (slotEnd g now answered)) ∧
        (∀ u, payload.getD 1 0 ≠ 0 ∨ news → stores (4 + if news then 8 else 0) true u →
          exec reply s = .next (slotEnd g now (noted u))) ∧
        (∀ u, payload.getD 1 0 ≠ 0 ∨ news → stores (4 + if news then 8 else 0) false u →
          exec reply s = .next (slotEnd g now (girthFlag g 5 u)))) ∧
      (good → x.attempt = some t → window → fits → t.nop = false → t.held = true →
        (∀ u, stores (if news then 8 else 0) true u → head (noted u) →
          exec reply s = .next (slotEnd g now (consumed (noted u)))) ∧
        (∀ u, stores (if news then 8 else 0) false u → head (girthFlag g 5 u) →
          exec reply s = .next (slotEnd g now (consumed (girthFlag g 5 u))))))

/-- Cabinet network: links, frames, gates and MDIO (R317, R318, R319, R320, R321, R322, R324, R325, R326, R328, R329,
R334). Readings and choices of the model in it: log entries 5, 18, 65, 71, 72. -/
def Obligations.CabinetNetwork : Prop :=
  ∀ (s : State) (m : Master) (p : Fin 2) (v : Word) (up full rfault fcs : Bool) (f : List (BitVec 8)) (age : Nat)
    (rdata : BitVec 16) (fr : InjFrame) (r : List Byte) (frames : List InjFrame) (rs : List (List Byte)) (tx : EthTx),
    let b := f.take (f.length - 4)
    let sound := fcs = true ∧ f.drop (f.length - 4) = ethFcs b
    let c := s.rg (er p Eth.CFG)
    let at_ (p o : Nat) := s.rg (er p o)
    let linked : State := s.setRgBit (er p Eth.STAT) 30 rfault
    let x := s.eth p
    let map : TimeMap := { gt := w64 ((at_ p Eth.GT_BASE_HI).toNat * 2 ^ 32 + (at_ p Eth.GT_BASE_LO).toNat),
                           gs := w64 ((at_ p Eth.GS_BASE_HI).toNat * 2 ^ 32 + (at_ p Eth.GS_BASE_LO).toNat), spn := at_ p Eth.GSPN }
    let wr (o : Nat) : State := plainWrite .eth p o v m.sec s
    let st := er 0 Eth.MDIOSTAT
    let base := (at_ p Eth.QBV_BASE_HI).toNat * 2 ^ 32 + (at_ p Eth.QBV_BASE_LO).toNat
    let cyc := (at_ p Eth.QBV_CYCLE).toNat
    let now := s.time.selvedge.toNat
    let start := if now ≤ base ∨ cyc = 0 then base else base + (now - base + cyc - 1) / cyc * cyc
    let ours := ofBE (b.take 6) = ethMac s p ∨ ofBE (b.take 6) = 0xFFFFFFFFFFFF ∨ ofBE (b.take 6) = 0x0180C200000E ∨
      (tb c 26 = true ∧ ofBE (b.take 6) / 2 ^ 40 % 2 = 1)
    let type := ofBE (sub_ b 12 2)
    let head : EthParse := { tag := none, type := type, off := 14, deep := false }
    let stamp := s.time.selvedge - w64 age + BitVec.ofInt 64 (sext (fld (at_ p Eth.TSADJ) 15 0) 16)
    let got : State := bump .eth p Eth.RXFRM s
    let body := b.drop 14
    let chan := ofBytes (sub_ body 2 2) % 4096
    let accepted := partnerOpen (midEth p) (2 * chan) chan got = (true, got) ∧ 16 ≤ body.length ∧
      cabinetOk got p chan b head none body = true
    let counted : State := countEntry (midEth p) (2 * chan) chan 6 (lastSeq p chan (w32 (ofBytes (sub_ body 4 4))) got)
    let inj : InjFrame := { port := p, ended := got.time.selvedge, chan := chan, word0 := pw_ got chan 0, word4 := pw_ got chan 4,
                            tbase := (sub_ body 10 1).any (fun y => y.getLsbD 0), map := none,
                            records := (List.range (ofBytes (sub_ body 8 2))).map (fun i => sub_ body (16 + 32 * i) 32) }
    let ctx := ofBytes (r.take 1)
    let sp : Setpoint := { pos := w32 (ofBytes (sub_ r 4 4)), vel := w32 (ofBytes (sub_ r 8 4)), torque := w32 (ofBytes (sub_ r 12 4)),
                           due := w32 (w64 (ofBytes (sub_ r 16 8))).toNat, seq := w32 (ofBytes (sub_ r 24 4)) }
    let left : State := { s with ports.inject := if rs = [] then frames else
      { fr with map := some (fr.map.getD (s.eth fr.port).map), records := rs } :: frames }
    (tb c 31 = false → exec (.ethLinkChange p up full rfault) s = .next s) ∧
    (tb c 31 = true → tb c 30 = true → up = true → full = false →
      exec (.ethLinkChange p up full rfault) s = .next (ethLink p false (ethFlag p 6 linked))) ∧
    (tb c 31 = true → tb c 30 = true → (up = false ∨ full = true) →
      exec (.ethLinkChange p up full rfault) s = .next (ethLink p up linked)) ∧
    (tb c 31 = true → tb c 30 = false → tb c 29 = true →
      exec (.ethLinkChange p up full rfault) s = .next (ethLink p (up && full) linked)) ∧
    (tb c 31 = true → tb c 30 = false → tb c 29 = false →
      exec (.ethLinkChange p up full rfault) s = .next (ethLink p true linked)) ∧
    (tb c 31 = true → tb (at_ p Eth.STAT) 31 = true → ¬ sound →
      exec (.ethFrameReceived p f fcs age) s = .next (bump .eth p Eth.FCSERR_CNT (ethFlag p 2 s))) ∧
    (tb c 31 = true → tb (at_ p Eth.STAT) 31 = true → sound →
      f.length < 64 ∨ (if type = 0x8100 then 1522 else 1518) < f.length →
      exec (.ethFrameReceived p f fcs age) s = .next (bump .eth p Eth.RXDROP_CNT (ethFlag p 5 s))) ∧
    (tb c 31 = true → tb (at_ p Eth.STAT) 31 = true → sound → 64 ≤ f.length → f.length ≤ 1518 → type = 0x8808 →
      exec (.ethFrameReceived p f fcs age) s = .next s) ∧
    (tb c 31 = true → tb (at_ p Eth.STAT) 31 = true → sound → 64 ≤ f.length → f.length ≤ 1518 → type ≠ 0x8808 → type ≠ 0x8100 →
      (¬ ours → exec (.ethFrameReceived p f fcs age) s = .next (bump .eth p Eth.RXDROP_CNT (ethFlag p 4 s))) ∧
      (ours → type = 0x88F7 → exec (.ethFrameReceived p f fcs age) s = .next
        (raiseEvent (0x42A + p) (ethPushOwn p (fld (at_ p Eth.PTPQ) 12 0) 2 head b stamp (ethFlag p 1 got)))) ∧
      (ours → type ≠ 0x88F7 → type ≠ 0x88A8 → type = fld (at_ p Eth.CABTYPE) 15 0 → accepted →
        (ofBE (sub_ body 1 1) = 2 → exec (.ethFrameReceived p f fcs age) s = .next
          (ethPush p (2 * chan) 0 (ptWorld got chan) head b stamp counted)) ∧
        (ofBE (sub_ body 1 1) = 1 → exec (.ethFrameReceived p f fcs age) s = .next
          { counted with ports.inject := injQueue inj counted.ports.inject })) ∧
      (ours → type ≠ 0x88F7 → type ≠ 0x88A8 → type ≠ fld (at_ p Eth.CABTYPE) 15 0 → udpCabinet got p b head = none →
        exec (.ethFrameReceived p f fcs age) s = .next
          (ethPushOwn p (fld (at_ p Eth.DEFQ) 12 0) 3 head b stamp got))) ∧
    (∀ cl q rest fm id el, tb c 31 = true → x.tx = none → reached 64 s.time.selvedge.toNat x.gap.toNat = true →
      tb (at_ p Eth.STAT) 31 = true → turns s p = (cl, q) :: rest → (∀ y ∈ turns s p, elemReach p y.2 s = (true, s)) →
      elemFrame s p q = some (fm, id) → tb (s.word (headElem s q)) 18 = false →
      (gateWindow s p cl = none ∨ ∃ w, gateWindow s p cl = some w ∧ 0 < w ∧ frameTicks fm.length ≤ w) →
      agentRead (midEth p) (qWorld s q) (headElem s q) (2 ^ qEsz s q)
        (s.setEth p { x with rr := Tbl.set (fun _ => 0) x.rr cl q }) = (some el, s.setEth p { x with rr := Tbl.set (fun _ => 0) x.rr cl q }) →
      exec (.ethTransmit p) s = .next (s.setEth p { x with
        rr := Tbl.set (fun _ => 0) x.rr cl q, ident := if id then (x.ident + 1) % 65536 else x.ident,
        tx := some { queue := q, elem := headElem s q, started := s.time.selvedge + 51,
                     frame := fm ++ List.replicate (60 - fm.length) 0 ++ ethFcs (fm ++ List.replicate (60 - fm.length) 0) } })) ∧
    (tb c 31 = true → x.tx = none → reached 64 s.time.selvedge.toNat x.gap.toNat = true → tb (at_ p Eth.STAT) 31 = false →
      exec (.ethTransmit p) s = .next ((turns s p).foldl (fun u y => elemDiscard p y.2 u) s)) ∧
    (tb c 31 = false → exec (.ethFrameReceived p f fcs age) s = .next s ∧ exec (.ethTransmit p) s = .next s) ∧
    (s.ports.inject = [] → exec .injectionRecord s = .next s) ∧
    (s.ports.inject = fr :: frames → fr.records = r :: rs →
      (tb fr.word0 15 = false ∨ ctx < fld fr.word4 7 0 ∨ fld fr.word4 15 8 < ctx →
        exec .injectionRecord s = .next (injRefuse fr ctx 4 left)) ∧
      (∀ u, tb fr.word0 15 = true → fld fr.word4 7 0 ≤ ctx → ctx ≤ fld fr.word4 15 8 → fr.tbase = false →
        (w64 (ofBytes (sub_ r 16 8)) - s.time.selvedge).toInt.natAbs < 2 ^ 31 →
        offerSetpoint (tb fr.word0 30) ctx sp left = (0, u) →
        exec .injectionRecord s = .next (bump .qm 0 Qm.INJ_CNT u)) ∧
      (∀ k ks q, tb fr.word0 15 = true → fld fr.word4 7 0 ≤ ctx → ctx ≤ fld fr.word4 15 8 → fr.tbase = false →
        (w64 (ofBytes (sub_ r 16 8)) - s.time.selvedge).toInt.natAbs < 2 ^ 31 →
        boundBanks s ctx = k :: ks → (s.bank k).world = false ∨ tb fr.word0 30 = true → (s.ctx ctx).lastSeq = some q →
        newer 32 sp.seq.toNat q.toNat = true → exec .injectionRecord s = .next (bump .qm 0 Qm.INJ_CNT
          (left.setCtx ctx { s.ctx ctx with lastSeq := some sp.seq, held := (s.ctx ctx).held ++ [sp] })))) ∧
    (x.tx = some tx → exec (.ethTransmit p) s = .next s) ∧
    (x.tx = none → exec (.ethTxDone p) s = .next s) ∧
    (x.tx = some tx → reached 64 s.time.selvedge.toNat (txEnd tx).toNat = false → exec (.ethTxDone p) s = .next s) ∧
    (x.tx = some tx → reached 64 s.time.selvedge.toNat (txEnd tx).toNat = true → tb (s.word tx.elem) 17 = false →
      exec (.ethTxDone p) s = .next (bump .eth p Eth.TXFRM (portConsume p tx.queue
        (agentWrite (midEth p) (qWorld s tx.queue) (tx.elem + 12) [0, 0, 0, 0x80]
          (s.setEth p { x with tx := none, gap := txEnd tx + 77 })).2))) ∧
    (tb v 0 = false → Writes (.gtctlApply m p v) s m (er p Eth.GTCTL) s) ∧
    (tb v 0 = true → Writes (.gtctlApply m p v) s m (er p Eth.GTCTL) (s.setEth p { x with mapDue := some map })) ∧
    (tb v 0 = false → Writes (.qbvApply m p v) s m (er p Eth.QBV_CTL) (wr Eth.QBV_CTL)) ∧
    (tb v 0 = true → Writes (.qbvApply m p v) s m (er p Eth.QBV_CTL)
      (((wr Eth.QBV_CTL).setRgBit (er p Eth.QBV_CTL) 30 true).setEth p { x with switchAt := some (w64 start) })) ∧
    (qbvDue s p = false → exec (.qbvSwitch p) s = .next s) ∧ (qbvDue s p = true → exec (.qbvSwitch p) s = .next (qbvSwitch p s)) ∧
    (tb v 31 = true → tb (s.rg st) 31 = false → Writes (.mdioGo m v) s m (er 0 Eth.MDIOCMD)
      (((plainWrite .eth 0 Eth.MDIOCMD v m.sec s).setRgBit st 31 true).setEth 0
        { (plainWrite .eth 0 Eth.MDIOCMD v m.sec s).eth 0 with mdio := v })) ∧
    (tb v 31 = false ∨ tb (s.rg st) 31 = true → Writes (.mdioGo m v) s m (er 0 Eth.MDIOCMD) (plainWrite .eth 0 Eth.MDIOCMD v m.sec s)) ∧
    (tb (s.rg st) 31 = true → tb (s.eth 0).mdio 30 = false →
      exec (.mdioDone rdata) s = .next (((s.setRgBit st 31 false).setRgBit st 30 true).setRgFld st 15 0 rdata.toNat)) ∧
    (tb (s.rg st) 31 = true → tb (s.eth 0).mdio 30 = true →
      exec (.mdioDone rdata) s = .next ((s.setRgBit st 31 false).setRgBit st 30 true)) ∧
    (tb (s.rg st) 31 = false → exec (.mdioDone rdata) s = .next s)

/-- Scrubbing, the LPDDR controller and the flash read path (R352, R353, R354, R355, R368, R369, R370). Readings
and choices of the model in it: log entry 38. -/
def Obligations.MemoryControllers : Prop :=
  ∀ (s s1 : State) (m : Master) (v : Word) (ecc : Ecc) (off : BitVec 24) (size : Fin 3) (fetch : Bool) (bs : List Byte) (mib a : Nat),
    let st := ra .memc Memc.STAT
    let cleared : State := (s.setRgBit st 30 false).setRgBit st 29 false
    let pa := 0x01000000 + off.toNat / 2 ^ size.val * 2 ^ size.val
    let done : State := { s with dma.training := false }
    let blank : State := { done with mem := s.mem.filter (fun c => c.1 < 0x100000000),
                                     poison := s.poison.filter (fun a => a < 0x100000000) }
    let next : State := { s with dma.scrubD := s.dma.scrubD + 1, dma.readD := s.time.selvedge }
    (tb v 0 = false ∨ tb (s.rg st) 31 = true → Writes (.memcInit m v) s m (ra .memc Memc.CTRL) s) ∧
    (tb v 0 = true → tb (s.rg st) 31 = false →
      (memcCapacity (s.rg (ra .memc Memc.CFG)) = none → Writes (.memcInit m v) s m (ra .memc Memc.CTRL) (cleared.setRgBit st 29 true)) ∧
      (memcCapacity (s.rg (ra .memc Memc.CFG)) = some mib →
        Writes (.memcInit m v) s m (ra .memc Memc.CTRL) { cleared with dma.training := true })) ∧
    (s.dma.training = false → ∀ ok, exec (.memcTrained ok) s = .next s) ∧
    (s.dma.training = true → exec (.memcTrained false) s = .next (done.setRgBit st 30 true)) ∧
    (s.dma.training = true → memcCapacity (s.rg (ra .memc Memc.CFG)) = some mib → s.power.ddrKept = false →
      exec (.memcTrained true) s = .next ((blank.setRgFld st 27 16 (mib * 7 / 8)).setRgBit st 31 true)) ∧
    (fld (s.rg (ra .memc Memc.SCRUB)) 23 16 = 0 ∨ scrubDue true s = false → exec (.scrubRead true ecc) s = .next s) ∧
    (fld (s.rg (ra .memc Memc.SCRUB)) 7 0 = 0 ∨ scrubDue false s = false → exec (.scrubRead false ecc) s = .next s) ∧
    (scrubDue true s = true → scrubAddr [(0x100000000, ddrBytes s / 4)] s.dma.scrubD = some a →
      regionOf s a = .ddr → poisoned s a 4 = false → exec (.scrubRead true .clean) s = .next next) ∧
    (memRead m fetch ecc pa (2 ^ size.val) s = (.ok bs, s1) → exec (.flashRead m off size fetch ecc) s =
      .next { (if m.mid = 24 then debugLeaves s s1 else s1) with resp := .ok (w32 (ofBytes bs)) }) ∧
    (∀ e, memRead m fetch ecc pa (2 ^ size.val) s = (.error e, s1) → exec (.flashRead m off size fetch ecc) s =
      .next { (if m.mid = 24 then debugLeaves s s1 else s1) with resp := errResp e }) ∧
    (tb v 0 = true → Writes (.flcInv m v) s m (ra .flc Flc.CTRL) (flInvalidate s)) ∧
    (tb v 0 = false → Writes (.flcInv m v) s m (ra .flc Flc.CTRL) s)

/-- DMA channels: enable, ring placement, requests, descriptors and write-back (R247, R356, R357, R358, R359,
R360, R361, R362, R363). Readings and choices of the model in it: log entries 19, 69. -/
def Obligations.DmaChannels : Prop :=
  ∀ (s s1 s2 : State) (m : Master) (c : Fin 32) (v b : Word) (ecc wecc : Ecc) (bs : List Byte) (r : DmaRun) (f : Flight) (rest : List Flight),
    let a := ra .dma (Dma.CH_CFG c)
    let st := ra .dma (Dma.CH_STAT c)
    let old := s.rg a
    let kept : State := s.setRg a (setBit (setFld old 25 24 (fld v 25 24)) 31 (tb v 31))
    let wr : State := (plainWrite .dma 0 (Dma.CH_CFG c) v m.sec s).setRgBit a 31 false
    let x := s.chan c
    let asks := tb old 31 = true ∧ tb old 28 = true ∧ tb (s.rg st) 29 = false
    let able := powered s = true ∧ tb (s.rg st) 29 = true
    let words := (List.range 8).map (fun k => w32 (ofBytes ((bs.drop (4 * k)).take 4)))
    let d : DmaRun := { entry := headAddr s c, desc := words }
    let me := dmaMaster s c
    let head := ra .dma (Dma.CH_HEAD c)
    let closed (code : Nat) : Word := setFld (setBit (setBit (r.w 0) 31 false) 30 (code ≠ 0)) 15 8 code
    (tb old 31 = true → tb v 31 = true ∨ x.run.isSome = true → Writes (.dmaEnable m c v) s m a kept) ∧
    (tb old 31 = true → tb v 31 = false → x.run = none → Writes (.dmaEnable m c v) s m a (dmaStop c kept)) ∧
    (tb old 31 = false → tb v 31 = false → Writes (.dmaEnable m c v) s m a wr) ∧
    (tb old 31 = false → tb v 31 = true → Writes (.dmaEnable m c v) s m a (dmaStart c wr)) ∧
    (¬ asks → exec (.dmaRingPlaced c (some b)) s = .next s ∧ exec (.dmaRingPlaced c none) s = .next s) ∧
    (asks → exec (.dmaRingPlaced c none) s = .next ((dmaStop c s).setRgBit st 5 true)) ∧
    (asks → qLevel s (b.toNat * 256) (32 * ringSlots s c) = some 2 → exec (.dmaRingPlaced c (some b)) s = .next
      ((agentWrite midSadl true (b.toNat * 256) (List.replicate (32 * ringSlots s c) 0)
        (s.setRg (ra .dma (Dma.CH_RBASE c)) b)).2.setRgBit st 29 true)) ∧
    (tb v 0 = true → tb (s.rg st) 29 = true →
      Writes (.kick m c v) s m (ra .dma (Dma.CH_KICK c)) (s.setChan c { x with idle := false, held := none })) ∧
    (tb v 0 = false ∨ tb (s.rg st) 29 = false → Writes (.kick m c v) s m (ra .dma (Dma.CH_KICK c)) s) ∧
    (s.time.flights = f :: rest → f.kind = 4 → f.dest = c.val → f.slotSec = false →
      exec (.dmaChannelRequest [0]) s = .next (dmaRequest c { s with time.flights := rest })) ∧
    (¬ able → exec (.dmaDescriptor c ecc false wecc) s = .next s) ∧
    (able → x.run = none → (tb old 31 = false ∨ x.held = none ∧ x.idle = true) → exec (.dmaDescriptor c ecc false wecc) s = .next s) ∧
    (able → x.run = none → tb old 31 = true → x.held = some r → tb (r.w 0) 25 = true → Tbl.get (fun _ => false) s.time.dmaReq c = false →
      exec (.dmaDescriptor c ecc false wecc) s = .next ((s.setChan c { x with held := some r }).setRgBit st 30 true)) ∧
    (able → x.run = none → tb old 31 = true → x.held = none → x.idle = false →
      (∀ e, memRead me false ecc (headAddr s c) 32 s = (.error e, s1) →
        exec (.dmaDescriptor c ecc false wecc) s = .next ((dmaStop c s1).setRgBit st 3 true)) ∧
      (memRead me false ecc (headAddr s c) 32 s = (.ok bs, s1) →
        (tb (d.w 0) 31 = false → exec (.dmaDescriptor c ecc false wecc) s = .next (s1.setChan c { s1.chan c with idle := true })) ∧
        (tb (d.w 0) 31 = true → tb (d.w 0) 25 = false → descInvalid d (tb old 29) = false →
          tb (d.w 0) 26 = false → tb (d.w 0) 27 = false → exec (.dmaDescriptor c ecc false wecc) s = .next
            (((s1.setRgBit st 30 false).setChan c { s1.chan c with held := none, run := some d }).setRg (ra .dma (Dma.CH_CUR c)) (w32 d.len))))) ∧
    (able → x.run = some r → r.ends = none → tb old 31 = true → burstOwner s = some c.val → r.src = none → r.dst = none → r.fill = false →
      let n := min 256 (r.len - r.moved)
      isDevice s (r.srcAddr + r.moved) = false → isDevice s1 (r.dstAddr + r.moved) = false →
      (∀ q, memRead me false ecc (r.srcAddr + r.moved) n { s with dma.last := c } = (.error q, s1) →
        exec (.dmaDescriptor c ecc false wecc) s = .next ((s1.setChan c { s1.chan c with
          run := some { r with ends := some (dmaCode false q) } }).setRg (ra .dma (Dma.CH_CUR c)) (w32 (r.len - r.moved)))) ∧
      (memRead me false ecc (r.srcAddr + r.moved) n { s with dma.last := c } = (.ok bs, s1) →
        exec (.dmaDescriptor c ecc true wecc) s = .next ((s1.setChan c { s1.chan c with
          run := some { r with ends := some 2 } }).setRg (ra .dma (Dma.CH_CUR c)) (w32 (r.len - r.moved))))) ∧
    (able → x.run = some r → r.ends = none → tb old 31 = true → burstOwner s = some c.val → r.src = none → r.dst = none → r.fill = false →
      let n := min 256 (r.len - r.moved)
      isDevice s (r.srcAddr + r.moved) = false → isDevice s1 (r.dstAddr + r.moved) = false →
      memRead me false ecc (r.srcAddr + r.moved) n { s with dma.last := c } = (.ok bs, s1) →
      memWrite me wecc (r.dstAddr + r.moved) bs s1 = (none, s2) →
      exec (.dmaDescriptor c ecc false wecc) s = .next ((s2.setChan c { s2.chan c with run := some { r with
        moved := r.moved + bs.length, ends := if r.moved + bs.length = r.len then some 0 else none } }).setRg
          (ra .dma (Dma.CH_CUR c)) (w32 (r.len - (r.moved + bs.length))))) ∧
    (x.run = none → exec (.dmaWriteback c false wecc) s = .next s) ∧
    (x.run = some r → r.ends.isSome = true → exec (.dmaWriteback c true wecc) s = .next (ringError c s)) ∧
    (x.run = none ∨ x.run = some r ∧ r.ends = none → exec (.dmaWriteback c true wecc) s = .next s) ∧
    (x.run = some r → r.ends = some 0 → tb (r.w 0) 24 = false → tb (r.w 0) 23 = false →
      memWrite me wecc (r.entry + 28) (toBytes 4 r.moved) s = (none, s1) →
      memWrite me wecc r.entry (toBytes 4 (closed 0).toNat) s1 = (none, s2) →
      let done : State := bump .dma 0 (Dma.CH_DONE_CNT c) (State.setChan
        ((s2.setRg head (w32 (((s2.rg head).toNat + 1) % ringSlots s2 c))).setRg (ra .dma (Dma.CH_CUR c)) 0) c { s2.chan c with run := none })
      tb (dmaCfg done c) 31 = true → exec (.dmaWriteback c false wecc) s = .next done)

/-- Flash routines of the monitor and their ends (R374, R375, R376, R377, R378, R379, R380, R383, R384, R385,
R388). Readings and choices of the model in it: log entries 20, 21. -/
def Obligations.FlashRoutines : Prop :=
  ∀ (s s1 : State) (k : Fin 2) (x n : Nat) (ecc : Ecc) (bs : List Byte) (ok : Bool) (pulses : Fin 33) (blank : Bool),
    let a := (svReg s 1).toNat
    let returns (c : Instr) (code : Nat) (t : State) : Prop := exec c s = .next (svReturn (some code) t)
    let op := s.fop k
    let args := (List.range 5).map (fun k => svReg s (k + 1))
    let opened : State := journalOpen a s
    let bad := factoryBad s a = true ∨ fieldBad s a = true
    let listed := factoryBad s (flSector a) = true ∨ fieldBad s (flSector a) = true
    let src := (svReg s 2).toNat + fld (svReg s 3) 7 0 * 2 ^ 32
    let len := (svReg s 4).toNat
    let me : Master := { mid := 0, sec := true }
    (callWaits s = true → ∀ x ∈ [(2, Instr.tvFlErase), (3, .tvFlSuspend), (4, .tvFlResume), (5, .tvFlBlank), (6, .tvFlInfo),
      (7, .tvFlMarkbad)], exec x.2 s = .next (callQueue { no := x.1, arg := args } s)) ∧
    (callWaits s = true → exec (.tvFlProgram ecc) s = .next (callQueue { no := 1, arg := args, ecc := ecc } s)) ∧
    (callWaits s = false →
      (511 < a → returns .tvFlErase 2 s ∧ returns .tvFlInfo 2 s ∧ returns .tvFlMarkbad 2 s) ∧
      (a ≤ 511 → bad → returns .tvFlErase 7 s ∧ returns .tvFlMarkbad 7 s) ∧
      (a ≤ 511 → ¬ bad → (s.fop (a / 256)).kind ≠ 0 → returns .tvFlErase 4 s) ∧
      (a ≤ 511 → ¬ bad → (s.fop (a / 256)).kind = 0 → returns .tvFlErase 1
        (((fopSet (a / 256) { kind := 2, sector := a, began := s.time.selvedge, chan := none } { opened with
          flash.undef := addSorted a opened.flash.undef }).setRgFld
            (ra .flc (Flc.OP (a / 256))) 24 16 a).setRgFld (ra .flc (Flc.OP (a / 256))) 15 0 0)) ∧
      (1 < a → returns .tvFlSuspend 2 s ∧ returns .tvFlResume 2 s) ∧
      (a ≤ 1 → (s.fop a).kind ≠ 2 → returns .tvFlSuspend 0xB s) ∧
      (a ≤ 1 → (s.fop a).kind = 2 → returns .tvFlSuspend 0 (fopSet a { s.fop a with kind := 3 } s)) ∧
      (a ≤ 1 → (s.fop a).kind ≠ 3 → returns .tvFlResume 0xB s) ∧
      (a ≤ 1 → (s.fop a).kind = 3 → factoryBad s (s.fop a).sector = true ∨ fieldBad s (s.fop a).sector = true → returns .tvFlResume 7 s) ∧
      (a ≤ 1 → (s.fop a).kind = 3 → factoryBad s (s.fop a).sector = false → fieldBad s (s.fop a).sector = false → returns .tvFlResume 0 (fopSet a { s.fop a with kind := 2, began := s.time.selvedge } s)) ∧
      (flRangeOk a (svReg s 2).toNat = false → returns .tvFlBlank 2 s) ∧
      (flRangeOk a (svReg s 2).toNat = true → listed → returns .tvFlBlank 7 s) ∧
      (flRangeOk a (svReg s 2).toNat = true → ¬ listed → flBusy s (flBank a) = true → returns .tvFlBlank 4 s) ∧
      (flRangeOk a (svReg s 2).toNat = true → ¬ listed → flBusy s (flBank a) = false → flBlank a (svReg s 2).toNat s = (blank, s1) →
        returns .tvFlBlank (if blank then 0 else 5) s1) ∧
      (a ≤ 511 → returns .tvFlInfo (b2n (factoryBad s a) * 2 ^ 8 + b2n (fieldBad s a) * 2 ^ 9 + b2n (s.flash.torn.contains a) * 2 ^ 10
        + b2n (2 ≤ (s.fop (a / 256)).kind && (s.fop (a / 256)).sector = a) * 2 ^ 11 + 2 ^ 12) s) ∧
      (a ≤ 511 → ¬ bad → bbtFree s = none → returns .tvFlMarkbad 0xA s) ∧
      (a ≤ 511 → ¬ bad → bbtFree s = some x → returns .tvFlMarkbad 0
        (bbtRefresh (storeWord (0x08001040 + 4 * x) (w32 (3 * 2 ^ 24 + a)) s))) ∧
      (flRangeOk a len = false ∨ len < 32 ∨ 4096 < len → returns (.tvFlProgram ecc) 2 s) ∧
      (flRangeOk a len = true → 32 ≤ len → len ≤ 4096 → factoryBad s (flSector a) = false → fieldBad s (flSector a) = false →
        s.flash.torn.contains (flSector a) = false → (s.fop (flBank a)).kind = 0 →
        memRead me false ecc src len s = (.ok bs, s1) → s1.flash.undef.contains (flSector a) = false →
        ((∃ y ∈ s1.bytes a len, y ≠ 0xFF) → returns (.tvFlProgram ecc) 5 s1) ∧
        ((∀ y ∈ s1.bytes a len, y = 0xFF) → exec (.tvFlProgram ecc) s = .next
          ((fopSet (flBank a) { kind := 1, sector := flSector a, began := s.time.selvedge, addr := a, data := bs, chan := none } s1).setRgFld
            (ra .flc (Flc.OP (flBank a))) 24 16 (flSector a))))) ∧
    (op.kind ≠ 2 ∨ op.ends.isSome = true ∨ pulseOver s op = false → exec (.erasePulseEnd k ok) s = .next s) ∧
    (op.kind = 2 → op.ends = none → pulseOver s op = true → exec (.erasePulseEnd k ok) s = .next ((s.setFop k { op with
      pulses := op.pulses + 1, began := s.time.selvedge, ends := if ok then some 0 else if 240 ≤ op.pulses + 1 then some 9 else none }).setRgFld
        (ra .flc (Flc.OP k)) 15 0 (min (op.pulses + 1) 0xFFFF))) ∧
    (op.kind ≠ 2 ∨ op.ends = none → exec (.eraseDone k) s = .next s) ∧
    (op.kind = 2 → op.ends = some 0 →
      let keep (l : List Nat) : List Nat := l.filter (· ≠ op.sector)
      exec (.eraseDone k) s = .next (fopDone k ((tornRefresh (journalClose op.sector (flErased op.sector { s with
        flash.torn := keep s.flash.torn, flash.undef := keep s.flash.undef }))).setRgFld (ra .flc (Flc.OP k)) 29 26 0))) ∧
    (op.kind = 2 → op.ends = some 9 → exec (.eraseDone k) s = .next (fopDone k ((tornRefresh (bbtAdd 2 op.sector
      (if s.flash.torn.contains op.sector then s else journalClose op.sector s))).setRgFld (ra .flc (Flc.OP k)) 29 26 9))) ∧
    (op.kind ≠ 1 ∨ programOver s op none pulses = false → exec (.flashProgramDone k none pulses) s = .next s) ∧
    (op.kind = 1 → programOver s op none pulses = true → op.chan = none → exec (.flashProgramDone k none pulses) s =
      .next (svReturn (some (pulses * 256)) (fopDone k (store op.addr op.data s)))) ∧
    (op.kind = 1 → programOver s op none pulses = true → op.chan = some n → exec (.flashProgramDone k none pulses) s =
      .next (mbxAck { mid := 0, sec := true } n (w32 (pulses * 256)) (fopDone k (store op.addr op.data s))).2)

/-- Monitor services: images, OTP, rollback, lifecycle, measurement, attestation (R401, R403, R406, R407, R408,
R414, R415, R416). Readings and choices of the model in it: log entries 10, 21. -/
def Obligations.MonitorServices : Prop :=
  ∀ (s s1 s2 : State) (ok : Bool) (ecc : Ecc) (h bs : List Byte) (detail code : Nat) (e : Option BusErr),
    let a := (svReg s 1).toNat
    let v := (svReg s 2).toNat
    let returns (c : Instr) (code : Nat) (t : State) : Prop := exec c s = .next (svReturn (some code) t)
    let me : Master := { mid := 0, sec := true }
    let at_ (k : Nat) := (svReg s k).toNat + fld (svReg s (k + 1)) 7 0 * 2 ^ 32
    let mr (m : Nat) (bs : List Byte) (s : State) : State :=
      (List.range 12).foldl (fun s w => s.setRg (ra .sec (Sec.MR m w)) (w32 (ofBytes ((bs.drop (4 * w)).take 4)))) s
    let burn (w : Nat) (bits : Word) (s : State) : State := storeWord (0x08008000 + 4 * w) (otpWord s w ||| bits) s
    let args := (List.range 5).map (fun k => svReg s (k + 1))
    let slotFull := (List.range 12).any (fun j => otpWord s (0x10 + (a - 0x10) / 12 * 12 + j) ≠ 0)
    (callWaits s = true → ∀ x ∈ [(0x10, Instr.tvImgVerify ecc), (0x14, .tvMeasExtend ecc), (0x15, .tvAttest ecc)],
      exec x.2 s = .next (callQueue { no := x.1, arg := args, ecc := ecc } s)) ∧
    (callWaits s = true → ∀ x ∈ [(0x11, Instr.tvOtpProgram ok), (0x12, .tvRollback ok), (0x13, .tvLifecycle ok)],
      exec x.2 s = .next (callQueue { no := x.1, arg := args, ok := ok } s)) ∧
    (callWaits s = true → exec (.tvServe ok ecc) s = .next (callQueue { no := 0, chan := a, ok := ok, ecc := ecc } s)) ∧
    (callWaits s = false →
    (imgVerify me ecc (at_ 1) (svReg s 3).toNat s = ((code, detail, h), s1) →
      (code ≠ 0 → returns (.tvImgVerify ecc) (code + detail * 256) s1) ∧
      (code = 0 → (svReg s 3).toNat ≠ 4 → returns (.tvImgVerify ecc) (detail * 256)
        (s1.setRg (ra .sec (Sec.VERHI (hfld h 0xA 1)))
          (w32 (max (s1.rg (ra .sec (Sec.VERHI (hfld h 0xA 1)))).toNat (hfld h 8 2)))))) ∧
    (0x3FF < a ∨ a = 0 ∨ (0x40 ≤ a ∧ a < 0x68) → returns (.tvOtpProgram ok) 2 s) ∧
    (0x10 ≤ a → a < 0x40 → slotFull = true → returns (.tvOtpProgram ok) 2 s) ∧
    (a ≤ 0x3FF → (a = 1 ∨ 4 ≤ a ∧ a < 8 ∨ 0x100 ≤ a) → returns (.tvOtpProgram true) 0 (burn a (svReg s 2) s)) ∧
    (0x10 ≤ a → a < 0x40 → slotFull = false → returns (.tvOtpProgram true) 0 (burn a (svReg s 2) s)) ∧
    (3 < a ∨ verHi s a < v ∨ 256 < v → returns (.tvRollback ok) 2 s) ∧
    (a ≤ 3 → v ≤ verHi s a → v ≤ 256 → v ≤ counter s a → returns (.tvRollback ok) 0xB s) ∧
    (a ≤ 3 → v ≤ verHi s a → v ≤ 256 → counter s a < v → returns (.tvRollback true) 0
      ((List.range 8).foldl (fun u j => burn (0x40 + 8 * a + j) (w32 (2 ^ (min 32 (v - 32 * j)) - 1)) u) s)) ∧
    (3 < a → returns (.tvLifecycle ok) 2 s) ∧
    (a ≤ 3 → a ≤ otpLc s → returns (.tvLifecycle ok) 0x13 s) ∧
    (a ≤ 3 → otpLc s < a → 0 < otpLc s → returns (.tvLifecycle true) 0 (burn 0 (w32 (2 ^ a - 1)) s)) ∧
    (7 < a → returns (.tvMeasExtend ecc) 2 s) ∧
    (a ≤ 7 → ∀ x, memRead me false ecc (at_ 2) 48 s = (.error x, s1) → returns (.tvMeasExtend ecc) 0x0C s1) ∧
    (a ≤ 7 → memRead me false ecc (at_ 2) 48 s = (.ok bs, s1) →
      returns (.tvMeasExtend ecc) 0 (mr a (toBytes 48 (Config.sha384 (mrBytes s1 a ++ bs))) s1)) ∧
    ((svReg s 5).toNat < 3856 → returns (.tvAttest ecc) 2 s) ∧
    (3856 ≤ (svReg s 5).toNat → memRead me false ecc (at_ 1) 32 s = (.ok bs, s1) →
      memWrite me ecc (at_ 3) (signedReport s1 bs) s1 = (e, s2) →
      returns (.tvAttest ecc) (if e.isSome then 0x0C else 0) s2) ∧
    (opMode s ≠ 7 → monitorMail s a = false → exec (.tvServe ok ecc) s = .next (svReturn none s)) ∧
    (opMode s ≠ 7 → monitorMail s a = true → s.rg (ra .mbx (Mbx.MSG a 0)) = 6 → (s.rg (ra .mbx (Mbx.MSG a 1))).toNat ≤ 511 →
      let x := (s.rg (ra .mbx (Mbx.MSG a 1))).toNat
      exec (.tvServe ok ecc) s = .next (svReturn none (mbxAck { mid := 0, sec := true } a (w32 (b2n (factoryBad s x) * 2 ^ 8
        + b2n (fieldBad s x) * 2 ^ 9 + b2n (s.flash.torn.contains x) * 2 ^ 10
        + b2n (2 ≤ (s.fop (x / 256)).kind && (s.fop (x / 256)).sector = x) * 2 ^ 11
        + b2n (!flRefuses s (Tbl.get (fun _ => false) s.time.sendSec a) (flAddr x) 0x8000) * 2 ^ 12)) s).2)) ∧
    (opMode s ≠ 7 → monitorMail s a = true → exec (.tvServe ok ecc) s =
      .next (svReturn none (serveMessage a (Tbl.get (fun _ => false) s.time.sendSec a) ok ecc s))) ∧
    (opMode s = 7 → monitorMail s 63 = false → exec (.tvServe ok ecc) s = .next s) ∧
    (opMode s = 7 → monitorMail s 63 = true → s.sec.grants ≠ 0 →
      exec (.tvServe ok ecc) s = .next (serveMessage 63 (grantSec s) ok ecc s)) ∧
    (opMode s = 7 → monitorMail s 63 = true → s.sec.grants = 0 → s.rg (ra .mbx (Mbx.MSG 63 0)) ≠ 5 → s.rg (ra .mbx (Mbx.MSG 63 0)) ≠ 6 →
      exec (.tvServe ok ecc) s = .next (mbxAck { mid := 0, sec := true } 63 2 s).2))

/-- Boot, network boot, the release of cores and debug certificates (R409, R410, R411, R412, R413, R417, R418,
R424). Readings and choices of the model in it: log entries 21, 25, 69. -/
def Obligations.BootAndRelease : Prop :=
  ∀ (s s1 : State) (m : Master) (j : Bool) (ecc : Ecc) (mac : BitVec 48) (off total v : Word) (data : List (BitVec 8)) (n : Fin 4)
    (x grants : Nat) (code : Option Nat),
    let ready := bootPrepare j { s with sec.booted := true }
    let strap := ready.sec.straps.toNat
    let blank (s : State) : State := s.setRg (ra .boot Boot.STAT) (w32 (3 * 2 ^ 29 + 0xFF * 65536 + 0xFF * 256 + 0xFF))
    let starts := s.sec.booted = false ∧ opMode s = 3 ∧ inReset s = false ∧ (s.el 36).halted = false
    let service := strap = 1 ∧ serviceDis ready = false ∨ ready.sec.lc = 0 ∨ ready.sec.lc = 3
    let net := s.sec.net
    let first := net.host = none ∧ off = 0 ∧ total.toNat ≤ 7340032
    let heard : NetBoot := { net with reqs := 0, last := s.time.selvedge }
    let begun : NetBoot := { heard with host := some mac.toNat, total := total.toNat }
    let took : State := (agentWrite midSv true (0x20000000 + off.toNat) data { s with sec.net := heard }).2
    let i := 32 + n.val
    let a := ra .boot (Boot.ACREL n)
    let wr : State := plainWrite .boot 0 (Boot.ACREL n) v m.sec s
    let out : State := wr.setEl i { wr.el i with
      setA := { (wr.el i).setA with pc := wr.rg (ra .boot (Boot.ACENTRY n)), status := 0x100 }, world := w32 (b2n (tb v 30)), released := true }
    let nonces := (List.range 8).map (fun k => ra .sec (Sec.DBGNONCE k))
    let ctl := ra .sec Sec.DBGCTL
    (¬ starts → exec (.bootSequence j ecc) s = .next s) ∧
    (starts → service → exec (.bootSequence j ecc) s = .next (setMode 7 (allSafe 7
      (lockMaps ((blank ready).setRg (ra .mbx (Mbx.BIND 63)) (w32 (2 ^ 31 + 24))))))) ∧
    (starts → ¬ service → strap = 2 → netbootDis ready = false →
      exec (.bootSequence j ecc) s = .next (netStart (blank ready))) ∧
    (starts → ¬ service → (strap ≠ 2 ∨ netbootDis ready = true) → exec (.bootSequence j ecc) s = .next (bootFlash ecc ready)) ∧
    (net.active = false → exec .bootReq s = .next s ∧ exec (.bootData mac off total data ecc) s = .next s ∧
      exec .bootDataTimeout s = .next s) ∧
    (net.active = true → reached 64 s.time.selvedge.toNat net.reqAt.toNat = false → exec .bootReq s = .next s) ∧
    (net.active = true → reached 64 s.time.selvedge.toNat net.reqAt.toNat = true → net.reqs < 600 → exec .bootReq s = .next (bootSend 0xFFFFFFFFFFFF 0x10
      (toBytes 4 0x7128114E ++ (List.range 4).flatMap (fun k => toBytes 4 (otpWord s (4 + k)).toNat) ++ toBytes 4 7340032)
      { s with sec.net := { net with reqs := net.reqs + 1, reqAt := s.time.selvedge + 80000000 } })) ∧
    (net.active = true → 1 ≤ data.length → data.length ≤ 1024 →
      (net.host = some mac.toNat → off.toNat = net.next → off.toNat + data.length < net.total →
        exec (.bootData mac off total data ecc) s = .next
          (bootAck mac.toNat (off.toNat + data.length) 0 { took with sec.net := { heard with next := off.toNat + data.length } })) ∧
      (net.host = some mac.toNat → off.toNat ≠ net.next →
        exec (.bootData mac off total data ecc) s = .next (bootAck mac.toNat net.next 0 { s with sec.net := heard })) ∧
      (first → net.next = 0 → data.length < total.toNat → exec (.bootData mac off total data ecc) s = .next
        (bootAck mac.toNat data.length 0 { (agentWrite midSv true 0x20000000 data { s with sec.net := begun }).2 with
          sec.net := { begun with next := data.length } }))) ∧
    (net.active = true → reached 64 (s.time.selvedge - net.last).toNat 1600000000 = true → exec .bootDataTimeout s = .next
      { s with sec.net := { net with next := 0, total := 0, host := none, last := s.time.selvedge } }) ∧
    (tb (s.rg a) 31 = true ∨ tb v 31 = false → Writes (.acrelGo m n v) s m a wr) ∧
    (tb (s.rg a) 31 = false → tb v 31 = true → Writes (.acrelGo m n v) s m a (haltAtStart i out)) ∧
    (m.mid.val ≠ 24 → gateRefuses s m ctl 4 = false → exec (.dbgSubmit m v) s = .next { s with resp := .err }) ∧
    (m.mid.val = 24 → tb v 0 = false → Writes (.dbgSubmit m v) s m ctl s) ∧
    (m.mid.val = 24 → tb v 0 = true → certCheck s = (code, grants) → s.draw = (x, s1) → Writes (.dbgSubmit m v) s m ctl
      (State.setRg (drawRegs nonces { s1 with sec.grants := s1.sec.grants ||| BitVec.ofNat 2 grants })
        (ra .sec Sec.DBGSTAT) (w32 (code.getD (x % 256) * 256))))

/-- Requests for RUN, STANDBY, HIBERNATE and SAFE_HOLD, entries and wakes (R419, R420, R421, R422, R423, R424, R426,
R427). Readings and choices of the model in it: log entries 22, 27, 67. -/
def Obligations.ModeRequests : Prop :=
  ∀ (s : State) (m : Master) (v : Word) (n w : Nat) (t : DWord) (low temp : BitVec 16),
    let a := ra .pmu Pmu.CTRL
    let md := opMode s
    let ws := ra .pmu Pmu.WAKESTAT
    let sh := ra .pmu Pmu.SHCAUSE
    let cs := ra .pmu Pmu.CLKSTAT
    let busy := tb (s.rg (ra .pmu Pmu.MODE)) 31 = true
    let slowBad := tb (s.rg cs) 30 = true
    let asked (r : Nat) (u : State) : State := State.setRgBit (State.setRgBit { u with power.entry := some (r, s.time.selvedge) } (ra .pmu Pmu.MODE) 31 true) (ra .pmu Pmu.REQSTAT) 31 true
    let sleeps (r : Nat) : State := asked r (testStop (if md = 5 then setMode 4 (boostEnd 6 s) else s))
    let woken (bit : Nat) (u : State) : State := { u.setRgBit ws bit true with power.wake := u.power.wake ||| 2 ^ bit }
    let due := s.power.armed = true ∧ tb (s.rg (ra .pmu Pmu.WAKECFG)) 30 = true ∧ ¬ slowBad ∧ reached 48 s.time.slow.toNat s.power.alarm.toNat = true
    let asleep (u : State) : State := { (u.setRg ws (u.rg ws ||| w32 (liveWakes u))).setRgFld cs 5 0 0 with
      power.wake := liveWakes u, power.aonReads := 0 }
    let tval : Int := sext temp.toNat 16
    let tok : Bool := (-800 : Int) ≤ tval && tval ≤ 2800
    let reads : State := { s with power.aonReads := (s.time.slow + BitVec.ofNat 48 n - s.time.a0).toNat * 100 / 32768 }
    let seen : State := if md = 2 then
        reads.setRg (ra .thm (Thm.TEMP 11)) (w32 (b2n tok * 2 ^ 31 + b2n (!tok) * 2 ^ 30 + wrap tval 16)) else reads
    let hot : State := ((seen.setRgBit ws 3 true).setRgBit sh 1 true).setRgBit sh 9 true
    let wd := plainWrite .pmu 0 Pmu.ALARM_HI v m.sec s
    let reset (u : State) : State :=
      let k : State := { warmReset (if u.power.rails then [6] else [1, 6]) u.sec.straps (selvedgeRestore n u) with sec.hib := true }
      if k.power.ddrKept then k.setRg (ra .memc Memc.CFG) k.power.memcCopy else k
    (busy → Writes (.reqRun m) s m a s ∧ Writes (.reqStandby m) s m a s ∧ Writes (.reqHibernate m) s m a s ∧ Writes (.reqSafeHold m) s m a s) ∧
    (¬ busy →
      (md ≠ 3 → md ≠ 6 → Writes (.reqRun m) s m a (reqDone 1 s)) ∧
      (md = 3 ∨ md = 6 → fld (s.rg sh) 13 8 ≠ 0 → Writes (.reqRun m) s m a (reqDone 3 s)) ∧
      (md = 3 → fld (s.rg sh) 13 8 = 0 → Writes (.reqRun m) s m a (reqDone 0 (enterRun s))) ∧
      (md = 6 → fld (s.rg sh) 13 8 = 0 → Writes (.reqRun m) s m a (reqDone 0 (boostCheck (setMode 4 (s.setRgBit sh 31 false))))) ∧
      (md = 4 ∨ md = 5 → Writes (.reqSafeHold m) s m a (reqDone 0 (safeHoldCause 0 s))) ∧
      (md ≠ 4 → md ≠ 5 → Writes (.reqSafeHold m) s m a (reqDone 1 s) ∧ Writes (.reqStandby m) s m a (reqDone 1 s)) ∧
      (md ≠ 4 → md ≠ 5 → md ≠ 6 → Writes (.reqHibernate m) s m a (reqDone 1 s)) ∧
      (md = 4 ∨ md = 5 → slowBad → Writes (.reqStandby m) s m a (reqDone 5 s)) ∧
      (md = 4 ∨ md = 5 → ¬ slowBad → Writes (.reqStandby m) s m a (sleeps 2)) ∧
      (md = 4 ∨ md = 5 ∨ md = 6 → slowBad → Writes (.reqHibernate m) s m a (reqDone 5 s)) ∧
      (md = 4 ∨ md = 5 ∨ md = 6 → ¬ slowBad → Writes (.reqHibernate m) s m a (sleeps 1))) ∧
    (s.power.entry = none ∨ entryConds s = false ∨ slowEdge s = false → exec .standbyEntry s = .next s) ∧
    (s.power.entry = some (2, t) → entryConds s = true → slowEdge s = true →
      let off := eachElem (fun e => { e with icache := [] }) { flInvalidate (tearSuspended 1 (tearSuspended 0 s)) with core.cache := [] }
      let u := selvedgeSuspend (setMode 2 (reqDone 0 off))
      exec .standbyEntry s = .next (asleep u)) ∧
    (s.power.entry = some (1, t) → entryConds s = true → slowEdge s = true →
      let off := eachElem (fun e => { e with icache := [] }) { flInvalidate (tearSuspended 1 (tearSuspended 0 s)) with core.cache := [] }
      let u := asleep (selvedgeSuspend (setMode 1 (reqDone 0 off)))
      let keep := tb (u.rg (ra .pmu Pmu.HIBCFG)) 0
      exec .standbyEntry s = .next { u with
        mem := u.mem.filter (fun c => hibKeeps keep c.1), poison := u.poison.filter (hibKeeps keep),
        dbg.ir := 2, dbg.cells := [], dbg.accStat := 0, dbg.accData := 0, dbg.bypass := false, dbg.shifted := 0, ballScan := [],
        power.memcCopy := u.rg (ra .memc Memc.CFG), power.ddrKept := keep }) ∧
    (s.power.entry = none → exec .entryTimeout s = .next s) ∧
    (s.power.entry = some (w, t) → reached 64 (s.time.selvedge - t).toNat 8000000 = true → exec .entryTimeout s = .next (reqDone 2 s)) ∧
    (s.power.entry = some (w, t) → reached 64 (s.time.selvedge - t).toNat 8000000 = false → exec .entryTimeout s = .next s) ∧
    (tb (s.rg (ra .pmu Pmu.WAKECFG)) 31 = false ∨ low.toNat ≤ fld (s.rg (ra .pmu Pmu.WAKECFG)) 3 0 → exec (.nwake low) s = .next s) ∧
    (tb (s.rg (ra .pmu Pmu.WAKECFG)) 31 = true → fld (s.rg (ra .pmu Pmu.WAKECFG)) 3 0 < low.toNat →
      (s.power.entry.isSome = true → exec (.nwake low) s = .next (reqDone 4 (s.setRgBit ws 0 true))) ∧
      (s.power.entry = none → (md = 1 ∨ md = 2) → exec (.nwake low) s = .next (woken 0 s)) ∧
      (s.power.entry = none → md ≠ 1 → md ≠ 2 → exec (.nwake low) s = .next s)) ∧
    (due → s.power.entry.isSome = true → exec .slowAlarm s = .next (reqDone 4 (State.setRgBit { s with power.armed := false } ws 1 true))) ∧
    (due → s.power.entry = none → (md = 1 ∨ md = 2) → exec .slowAlarm s = .next (woken 1 { s with power.armed := false })) ∧
    (¬ due ∨ (s.power.entry = none ∧ md ≠ 1 ∧ md ≠ 2) → exec .slowAlarm s = .next s) ∧
    (m.sec = true → Writes (.alarmHiWrite m v) s m (ra .pmu Pmu.ALARM_HI)
      { wd with power.alarm := BitVec.ofNat 48 (fld v 15 0 * 2 ^ 32 + (wd.rg (ra .pmu Pmu.ALARM_LO)).toNat), power.armed := true }) ∧
    (m.sec = false → Writes (.alarmHiWrite m v) s m (ra .pmu Pmu.ALARM_HI) wd) ∧
    (aonDue s n = true → 2160 ≤ temp.toNat → temp.toNat ≤ 2800 →
      (md = 2 → exec (.aonTempWake n temp) s = .next (enterSafeHold (standbyResume n hot))) ∧
      (md = 1 → exec (.aonTempWake n temp) s = .next (reset hot))) ∧
    (aonDue s n = true → temp.toNat < 2160 ∨ 2800 < temp.toNat → exec (.aonTempWake n temp) s = .next seen) ∧
    (aonDue s n = false → exec (.aonTempWake n temp) s = .next s) ∧
    (md = 2 → s.power.wake ≠ 0 → exec (.standbyWake n) s = .next (setMode 4 (standbyResume n s))) ∧
    (md ≠ 2 ∨ s.power.wake = 0 → exec (.standbyWake n) s = .next s) ∧
    (md = 1 → s.power.wake ≠ 0 → exec (.hibernateWake n) s = .next (reset s)) ∧
    (md ≠ 1 ∨ s.power.wake = 0 → exec (.hibernateWake n) s = .next s)

/-- BOOST, the thermal budget, temperatures, clocks and trims (R431, R432, R433, R435, R436, R437, R438, R439,
R440, R441, R452). Readings and choices of the model in it: log entry 22. -/
def Obligations.PowerAndClocks : Prop :=
  ∀ (s : State) (m : Master) (v : Word) (ma : BitVec 16) (i : Fin 8) (ts : Vector (BitVec 16) 12) (t : Int) (k stop ppm : Nat),
    let a := ra .pmu Pmu.BOOST
    let md := opMode s
    let cs := ra .pmu Pmu.CLKSTAT
    let p := plainWrite .pmu 0 Pmu.BOOST v m.sec s
    let asks := tb (s.rg a) 31 = true
    let past (x : DWord) := reached 64 s.time.selvedge.toNat x.toNat = true
    let timed (n : DWord) (at_ : Option DWord) : Prop := ∃ t, at_ = some t ∧ past (t + n)
    let clocking := timed 4000 (Tbl.get (fun _ => none) s.power.clkAt i)
    let trimming := timed 8000 (Tbl.get (fun _ => none) s.power.trimAt i)
    let clocked : State := { s with power.clkAt := Tbl.set (fun _ => none) s.power.clkAt i (some s.time.selvedge) }
    let trimmed : State := { s with power.trimAt := Tbl.set (fun _ => none) s.power.trimAt i (some s.time.selvedge) }
    let counted : State := { s with power.ms := s.power.ms + 1, power.budgetAt := s.time.selvedge }
    let cool : Int := min 114 (fld (s.rg (ra .thm Thm.CFG)) 15 8)
    let bud := ra .thm Thm.BUDGET
    let rail : State := s.setRg (ra .thm Thm.RAIL) (w32 (ma.toNat % 65536))
    let high : State := rail.setRgBit (ra .thm Thm.STAT) 4 true
    let f := islClock s i
    let g := clkTarget s i
    let temps := ts.toList.map (fun x => sext x.toNat 16)
    let temp (n : Nat) : Int := temps.getD n 0
    let sh := ra .pmu Pmu.SHCAUSE
    let need := trimFor s i (if f < g then f + 25 else f)
    let ends (code : Nat) (u : State) : State := if opMode u = 5 then setMode 4 (boostEnd code u) else u
    (tb (p.rg a) 31 = false → Writes (.boostReq m v) s m a (ends 5 p)) ∧
    (asks → tb (p.rg a) 31 = true → Writes (.boostReq m v) s m a p) ∧
    (¬ asks → tb (p.rg a) 31 = true → opMode p = 4 → boostConds p = false → Writes (.boostReq m v) s m a (p.setRgBit a 4 true)) ∧
    (¬ asks → tb (p.rg a) 31 = true → (opMode p ≠ 4 ∨ boostConds p = true) → Writes (.boostReq m v) s m a p) ∧
    (asks → md = 4 → s.power.entry = none → boostConds s = true → exec .boostEntry s = .next (raiseEvent 0x4A2 (setMode 5 (s.setRgBit a 30 true)))) ∧
    (¬ asks ∨ md ≠ 4 ∨ s.power.entry.isSome = true ∨ boostConds s = false → exec .boostEntry s = .next s) ∧
    (s.time.run = false → exec .budgetUpdate s = .next s ∧ exec (.railAverage ma) s = .next s ∧ exec (.tempMeasure ts) s = .next s ∧
      exec (.xtalFail stop ppm) s = .next s) ∧
    (¬ past (s.power.budgetAt + 800000) → exec .budgetUpdate s = .next s) ∧
    (s.time.run = true →
      (past (s.power.budgetAt + 800000) → (validTemps s).max? = none → exec .budgetUpdate s = .next counted) ∧
      (past (s.power.budgetAt + 800000) → (validTemps s).max? = some t →
        (md = 5 → cool * 16 ≤ t → 1 < thmB s → exec .budgetUpdate s = .next (counted.setRgFld bud 15 0 (thmB s - 1))) ∧
        (md = 5 → cool * 16 ≤ t → thmB s ≤ 1 → exec .budgetUpdate s = .next (ends 1 (counted.setRgFld bud 15 0 0))) ∧
        (md = 5 → t < cool * 16 → exec .budgetUpdate s = .next counted) ∧
        (md ≠ 5 → t < (cool - 5) * 16 → (s.power.ms + 1) % 4 = 0 →
          exec .budgetUpdate s = .next (counted.setRgFld bud 15 0 (min (thmB s + 1) (thmBmax s)))) ∧
        (md ≠ 5 → (¬ t < (cool - 5) * 16 ∨ (s.power.ms + 1) % 4 ≠ 0) → exec .budgetUpdate s = .next counted)) ∧
      (ma.toNat < 850 → exec (.railAverage ma) s = .next rail) ∧
      (850 ≤ ma.toNat → md ≠ 5 → exec (.railAverage ma) s = .next high) ∧
      (850 ≤ ma.toNat → md = 5 → exec (.railAverage ma) s = .next { setMode 4 (boostEnd 3 high) with power.railAt := some s.time.selvedge }) ∧
      (3200 ≤ stop ∨ 10000 < ppm →
        exec (.xtalFail stop ppm) s = .next (safeHoldCause 3 (((s.setRgBit cs 31 true).setRgBit cs 29 true).setRgBit cs 8 true))) ∧
      (stop < 3200 → ppm ≤ 10000 → exec (.xtalFail stop ppm) s = .next s) ∧
      (md = 0 ∨ ¬ past (s.power.tempAt + 80000) → exec (.tempMeasure ts) s = .next s) ∧
      (md ≠ 0 → past (s.power.tempAt + 80000) → exec (.tempMeasure ts) s = .next (tempMeasure temps s)) ∧
      (md ≠ 0 → past (s.power.tempAt + 80000) → inReset s = true →
        ((∃ n < 12, tempValid temps n = true ∧ 140 * 16 ≤ temp n) → exec (.tempMeasure ts) s = .next { s with power.tempAt := s.time.selvedge }) ∧
        ((∀ n < 12, tempValid temps n = true → temp n < 140 * 16) →
          exec (.tempMeasure ts) s = .next { s with power.tempAt := s.time.selvedge, power.held := false })) ∧
      (md ≠ 0 → past (s.power.tempAt + 80000) → inReset s = false → (∃ n < 12, tempValid temps n = true ∧ 150 * 16 ≤ temp n) →
        exec (.tempMeasure ts) s = .next { resetBy [5] (tempThresholds temps { s with power.tempAt := s.time.selvedge }) with power.held := true }) ∧
      (md ≠ 0 → past (s.power.tempAt + 80000) → inReset s = false → k < 12 → (∀ n < 12, tempValid temps n = true ∧ temp n < 115 * 16 ∧ temp n < fld (s.rg (ra .thm Thm.CFG)) 7 0 * 16) →
        (∀ n < k, temp n < temp k) → (∀ n < 12, k < n → temp n ≤ temp k) →
        let seen := (List.range 12).foldl (fun u n => u.setRg (ra .thm (Thm.TEMP n)) (w32 (2 ^ 31 + wrap (temp n) 16)))
          { s with power.tempAt := s.time.selvedge }
        let u := ((seen.setRg (ra .thm Thm.MAX) (w32 (k * 65536 + wrap (temp k) 16))).setRgBit sh 9 false).setRgBit sh 13 false
        exec (.tempMeasure ts) s = .next u)) ∧
    exec .xtalReturn s = .next (((s.setRgBit cs 31 false).setRgBit cs 29 false).setRgBit (ra .pmu Pmu.SHCAUSE) 11 false) ∧
    (80000 ≤ stop → exec (.slowClockFail stop) s = .next (s.setRgBit cs 30 true)) ∧
    (stop < 80000 → exec (.slowClockFail stop) s = .next s) ∧
    (¬ clocking → exec (.islClockStep i) s = .next s) ∧
    (¬ trimming → exec (.islTrimStep i) s = .next s) ∧
    (islState s i = 5 → exec (.islClockStep i) s = .next s ∧ exec (.islTrimStep i) s = .next s) ∧
    (islState s i ≠ 5 → clocking → trimming →
      (g < f → exec (.islClockStep i) s = .next (setClock i (f - 25) clocked)) ∧
      (f < g → trimFor s i (f + 25) ≤ islTrim s i → exec (.islClockStep i) s = .next (setClock i (f + 25) clocked)) ∧
      (f < g → islTrim s i < trimFor s i (f + 25) → exec (.islClockStep i) s = .next s) ∧
      (f = g → exec (.islClockStep i) s = .next s) ∧
      (islTrim s i < need → exec (.islTrimStep i) s = .next (trimmed.setRg (ri .isl i Isl.TRIM) (w32 (islTrim s i + 1)))) ∧
      (need < islTrim s i → exec (.islTrimStep i) s = .next (trimmed.setRg (ri .isl i Isl.TRIM) (w32 (islTrim s i - 1)))) ∧
      (islTrim s i = need → exec (.islTrimStep i) s = .next s))

/-- Cold and warm resets, power-down and the watchdogs (R409, R410, R428, R429, R442, R443, R444). Readings and
choices of the model in it: log entry 22. -/
def Obligations.ResetsAndWatchdogs : Prop :=
  ∀ (s : State) (m : Master) (straps : BitVec 2) (n : Fin 6) (v : Word) (low : Nat) (back : Bool),
    let cfg := ra .pmu (Pmu.WDG_CFG n)
    let svc := ra .pmu (Pmu.WDG_SVC n)
    let x := s.wdg n
    let en := tb (s.rg cfg) 31 = true
    let mine := (n.val = 5 ∧ m.sec = true) ∨ (n.val ≠ 5 ∧ m.mid.val = n.val)
    let early := x.closed = true ∧ x.since * 256 < wdgTimeout s n * fld (s.rg cfg) 15 8
    let p := plainWrite .pmu 0 (Pmu.WDG_CFG n) v m.sec s
    let flag (i : Nat) (u : State) : State := u.setRgBit (ra .pmu (Pmu.WDG_STAT n)) i true
    let load (u : State) : State := (u.setWdg n { u.wdg n with count := wdgTimeout u n, since := 0, closed := true, warned := false }).setRg (ra .pmu (Pmu.WDG_CNT n)) (w32 (wdgTimeout u n))
    let again (u : State) : State := u.setRgBit (ra .pmu Pmu.SHCAUSE) 10 false
    let served : State := s.setWdg n { x with violated := false }
    let cause := ra .pmu Pmu.RSTCAUSE
    let runs := en ∧ x.frozen = false ∧ (1 ≤ n.val ∧ n.val ≤ 4 → tb (s.rg (ra .stc (Stc.ACT (n - 1)))) 30 = false)
    let warn := runs ∧ x.warned = false ∧ x.count * 256 ≤ wdgTimeout s n * fld (s.rg cfg) 7 0
    let cold := coldState straps s
    let elem := wdgElem n
    let loaded := load (flag 31 p)
    (∃ u, exec (.powerOnReset straps) s = .next u ∧ opMode u = 3 ∧ u.sec.straps = straps ∧ u.time.selvedge = 0 ∧ u.time.run = true ∧
      u.rg (ra .pmu Pmu.RSTCAUSE) = regReset (ra .pmu Pmu.RSTCAUSE) ∧ (u.el 36).released = true ∧ (∀ k < 4, (u.el (32 + k)).released = false) ∧
      (∀ b < 12, pwmEn u b = false) ∧ u = cold) ∧
    (exec (.powerOnReset straps false) s = .next ({ cold.setRgBit cause 1 true with power.rails := false }.setRgFld cause 31 28 1)) ∧
    (low < 800 → exec (.pinReset straps low) s = .next s) ∧
    (2 ≤ opMode s → low ≤ 800 → exec (.brownoutReset low back) s = .next { s with power.rails := s.power.rails || back }) ∧
    (opMode s = 1 → exec (.brownoutReset low back) s = .next { s with power.rails := back }) ∧
    (opMode s = 0 → exec (.brownoutReset low back) s = .next s ∧ exec (.pinReset straps low) s = .next s ∧ Writes (.swrst m) s m (ra .pmu Pmu.CTRL) s) ∧
    (2 ≤ opMode s → 800 < low → exec (.brownoutReset low back) s = .next { warmReset [1] s.sec.straps s with power.rails := back }) ∧
    (opMode s ≠ 0 →
      (800 ≤ low → exec (.pinReset straps low) s = .next (warmReset [2] straps s)) ∧
      (opMode s ≠ 1 → ∃ u, exec (.pinReset straps 800) s = .next u ∧ nresetOut u = false) ∧
      Writes (.swrst m) s m (ra .pmu Pmu.CTRL) (warmReset [3] s.sec.straps s)) ∧
    (∃ u, exec .powerDown s = .next u ∧ opMode u = 0 ∧ u.time.run = false ∧ ∀ c ∈ u.mem, nonVolatile c.1 = true) ∧
    (en → Writes (.wdgEnable m n v) s m cfg s) ∧
    (¬ en → tb v 31 = false → Writes (.wdgEnable m n v) s m cfg p) ∧
    (¬ en → tb v 31 = true → (s.el elem).halted = false → Writes (.wdgEnable m n v) s m cfg loaded) ∧
    (¬ en → tb v 31 = true → (s.el elem).halted = true →
      (granted loaded elem = false ∨ tb (loaded.rg cfg) 30 = false ∨ tb (loaded.rg cfg) 31 = false → Writes (.wdgEnable m n v) s m cfg loaded) ∧
      (granted loaded elem = true → tb (loaded.rg cfg) 30 = true → tb (loaded.rg cfg) 31 = true →
        Writes (.wdgEnable m n v) s m cfg (flag 30 (loaded.setWdg n { loaded.wdg n with frozen := true })))) ∧
    (¬ mine → exec (.wdgService m n v) s = .next { s with resp := .err }) ∧
    (mine → ¬ en → Writes (.wdgService m n v) s m svc s) ∧
    (mine → en → v ≠ 0x5A3C → Writes (.wdgService m n v) s m svc (wdgViolation n 2 s)) ∧
    (mine → en → v = 0x5A3C → early → Writes (.wdgService m n v) s m svc (wdgViolation n 3 s)) ∧
    (mine → en → v = 0x5A3C → ¬ early →
      ((∀ k < 6, (served.wdg k).violated = false) → Writes (.wdgService m n v) s m svc (load (again served))) ∧
      ((∃ k < 6, (served.wdg k).violated = true) → Writes (.wdgService m n v) s m svc (load served))) ∧
    (warn → exec (.wdgWarning n) s = .next (raiseEvent (0x4A8 + n) (flag 0 (s.setWdg n { x with warned := true })))) ∧
    (¬ warn → exec (.wdgWarning n) s = .next s) ∧
    (¬ (runs ∧ x.count = 0) → exec (.wdgExpiry n) s = .next s) ∧
    (runs → x.count = 0 → (fld (s.rg cfg) 29 28 ≠ 1 ∨ (s.el (wdgElem n)).halted = true ∨ x.violated = true) →
      exec (.wdgExpiry n) s = .next (wdgReset n (flag 1 s))) ∧
    (runs → x.count = 0 → fld (s.rg cfg) 29 28 = 1 → (s.el (wdgElem n)).halted = false → x.violated = false →
      let u := load (flag 1 (flag 1 s))
      exec (.wdgExpiry n) s = .next (safeHoldCause 2 (u.setWdg n { u.wdg n with violated := true })))

/-- Wear ledger, island tests, core tests and the end of the cause FAULT (R448, R449, R450, R458, R459, R460,
R461, R462, R463, R467). Readings and choices of the model in it: log entry 23. -/
def Obligations.AgeingAndTests : Prop :=
  ∀ (s s1 : State) (ms : Vector (BitVec 16) 11) (i : Fin 8) (is : List Nat) (n : Fin 4) (e : Option (Fin 4)) (m : Master) (v : Word) (t : DWord),
    let st := ra .stc Stc.STAT
    let at_ (j p : Nat) : Prop := testAt s = some (j, p)
    let phase (p : Nat) (u : State) : State := u.setRgFld st 7 5 p
    let isl (k : Nat) (u : State) : State := u.setRgFld (ri .isl i Isl.STAT) 2 0 k
    let act := ra .stc (Stc.ACT n)
    let fs := ra .stc Stc.FSTAT
    let low := ∃ u < 11, tb (s.rg (ra .age (Age.U_MARGIN u))) 31 = true ∧ ageMargin s u < ageCrit s
    let past (x : DWord) := reached 64 s.time.selvedge.toNat x.toNat = true
    let due := 4 ≤ opMode s ∧ opMode s ≤ 6 ∧ past (s.test.selectAt + w64 (max 1 (fld (s.rg (ra .stc Stc.CFG)) 7 0) * 800000000))
    let chosen : State := { s with test.selectAt := s.time.selvedge }
    let offBist : State := { s with test.bist := s.test.bist.filter (· ≠ n.val) }
    let timed : State := { offBist with test.bistAt := Tbl.set (fun _ => none) s.test.bistAt n (some s.time.selvedge) }
    let late := reached 64 s.time.selvedge.toNat t.toNat = true ∨ evacStuck s i = true
    (s.time.run = false → exec (.marginMeasure ms) s = .next s ∧ exec .projectionUpdate s = .next s ∧ exec .stressAccumulate s = .next s) ∧
    (s.time.run = true → past (s.test.marginAt + 80000000) →
      exec (.marginMeasure ms) s = .next ((List.range 11).foldl (fun u k => marginUnit k (sext (ms.toList.getD k 0).toNat 16) u)
        { s with test.marginAt := s.time.selvedge })) ∧
    (s.time.run = true → ¬ past (s.test.marginAt + 80000000) →
      exec (.marginMeasure ms) s = .next ((List.range 11).foldl (fun u k => marginAgain k (sext (ms.toList.getD k 0).toNat 16) u) s)) ∧
    (s.time.run = true → past (s.test.projAt + 48000000000) → exec .projectionUpdate s = .next
      ((List.range 11).foldl (fun u k => projectUnit k u) { s with test.projAt := s.time.selvedge })) ∧
    (¬ past (s.test.projAt + 48000000000) → exec .projectionUpdate s = .next s) ∧
    (s.test.second < 800000000 → exec .stressAccumulate s = .next s) ∧
    (s.time.run = true → 800000000 ≤ s.test.second → exec .stressAccumulate s = .next ((List.range 8).foldl (fun u k => testSecond k u)
        (bumpN .age 0 Age.POWERED 1 ((List.range 11).foldl (fun u k => bumpN .age 0 (Age.U_STRESS k) (stressWeight u k) u)
          { s with test.second := s.test.second - 800000000 })))) ∧
    (¬ due → exec .islandTestSelect s = .next s) ∧
    (due → testOrder chosen = [] → exec .islandTestSelect s = .next chosen) ∧
    (due → testOrder chosen = [i.val] → testAt s = none → (islState s i ≠ 0 ∨ evacuate i chosen = none) →
      exec .islandTestSelect s = .next (chosen.setRgBit (ra .stc (Stc.ISLT i)) 28 true)) ∧
    (due → testOrder chosen = i.val :: is → testAt s = none → islState s i = 0 → evacuate i chosen = some s1 →
      let u := journal 0x30 i 0 5 0 0 (s1.setRg st (w32 (2 ^ 31 + i)))
      exec .islandTestSelect s = .next { u with
        test.evacEnd := some (s.time.selvedge + w64 (max 100 (fld (s.rg (ra .stc Stc.CFG)) 31 16) * 800000)), test.stopped := false }) ∧
    ((∀ j, ¬ at_ j 0 ∧ ¬ at_ j 1) → exec .islandEmpty s = .next s ∧ exec .evacuationTimeout s = .next s) ∧
    (at_ i 0 → islBanks s i ≠ [] → exec .islandEmpty s = .next s) ∧
    (at_ i 0 → islBanks s i = [] → exec .islandEmpty s = .next (isl 2 (phase 1 s))) ∧
    (at_ i 1 → islDrained s i = false → exec .islandEmpty s = .next s) ∧
    (at_ i 1 → islDrained s i = true → exec .islandEmpty s = .next
      { journal 0x31 i 0 5 0 0 (raiseEvent 0x4B4 (isl 3 (phase 2 s))) with test.evacEnd := none }) ∧
    (at_ i 0 ∨ at_ i 1 → s.test.evacEnd = some t → late → exec .evacuationTimeout s = .next (evacAbandon i s)) ∧
    (at_ i 0 ∨ at_ i 1 → s.test.evacEnd = some t → ¬ late → exec .evacuationTimeout s = .next s) ∧
    (at_ i 2 → exec (.logicBistEnd none) s = .next (phase 3 s) ∧
      exec (.logicBistEnd (some e)) s = .next (fenceIsland i (1 + (match e with | some k => k.val | none => 0) * 256) s)) ∧
    ((∀ j, ¬ at_ j 2) → exec (.logicBistEnd none) s = .next s ∧ exec (.logicBistEnd (some e)) s = .next s) ∧
    (at_ i 3 → exec (.marchEnd true) s = .next (phase 4 s) ∧ exec (.marchEnd false) s = .next (fenceIsland i 0 s)) ∧
    ((∀ j, ¬ at_ j 3) → exec (.marchEnd true) s = .next s ∧ exec (.marchEnd false) s = .next s) ∧
    ((∀ j, ¬ at_ j 4) → exec .islandRelease s = .next s) ∧
    (at_ i 4 → s.test.stopped = true →
      let u := (restoreIsland i (isl 0 s)).setRg st 0
      let w := stcNotice 3 ((u.setRgFld (ra .stc (Stc.ISLT i)) 31 30 3).setRgBit (ra .stc (Stc.ISLT i)) 28 true)
      exec .islandRelease s = .next (raiseEvent 0x4B5 (journal 0x32 i 0 5 0 0 { w with test.stopped := false }))) ∧
    (at_ i 4 → s.test.stopped = false →
      let u := testCompleted i 1 ((restoreIsland i (isl 0 s)).setRg st 0)
      exec .islandRelease s = .next (raiseEvent 0x4B5 (journal 0x32 i 0 5 0 0 ((List.range 4).foldl (fun u k =>
        (u.setRgBit (ra .sadl Sadl.SUSPECT) (4 * i + k) false).setRgBit (ri .isl i (Isl.ENG k)) 30 false) u)))) ∧
    (predictsIdle s n = false → exec (.coreBistStart n) s = .next s) ∧
    (predictsIdle s n = true →
      let u := s.setEl (32 + n) { s.el (32 + n) with icache := [] }
      exec (.coreBistStart n) s = .next { u with core.cache := cleanL1 (32 + n) u.core.cache, test.bist := addSorted n.val u.test.bist }) ∧
    (s.test.bist.contains n.val = false → exec (.coreBistAbort n) s = .next s ∧ exec (.coreBistEnd n true) s = .next s ∧
      exec (.coreBistEnd n false) s = .next s) ∧
    (s.test.bist.contains n.val = true →
      (intcPresents s (1 + n) = false → exec (.coreBistAbort n) s = .next s) ∧
      (intcPresents s (1 + n) = true → exec (.coreBistAbort n) s = .next
        { s.setRgFld act 15 0 (min 0xFFFF (fld (s.rg act) 15 0 + 1)) with test.bist := s.test.bist.filter (· ≠ n.val) }) ∧
      exec (.coreBistEnd n true) s = .next (raiseEvent 0x4B7 (timed.setRgFld act 29 28 1)) ∧
      (let u := raiseEvent 0x4B7 (timed.setRgFld act 29 28 2)
       exec (.coreBistEnd n false) s = .next (faultRecord 0x02 n 1 0 (stcNotice 2
        ((u.setEl (32 + n) { u.el (32 + n) with released := false, wfi := false }).setRgBit act 30 true))))) ∧
    (m.sec = false → exec (.fclr m v) s = .next { s.setRgBit fs 3 true with resp := .err }) ∧
    (m.sec = true → tb v 0 = false → exec (.fclr m v) s = .next { s with resp := .ok 0 }) ∧
    (m.sec = true → tb v 0 = true → low → exec (.fclr m v) s = .next { s.setRgBit fs 3 true with resp := .ok 0 }) ∧
    (m.sec = true → tb v 0 = true → ¬ low → exec (.fclr m v) s = .next
      { (s.setRgBit (ra .pmu Pmu.SHCAUSE) 12 false).setRgBit fs 31 false with resp := .ok 0 })

/-- Run control, register access, patches, stimulus ports and terminals (R476, R477, R479, R480, R481, R482,
R483, R484, R485, R487, R489). Readings and choices of the model in it: log entry 24. -/
def Obligations.DebugControl : Prop :=
  ∀ (s : State) (m : Master) (e : Elem) (v : Word) (k : Fin 64) (w : Fin 4) (p : Fin 32) (n : Fin 5) (b : BitVec 8),
    let i := elemIdx e
    let a := ra .dbg (Dbg.EL_CTRL (rcNum i))
    let st := ra .dbg (Dbg.EL_STAT (rcNum i))
    let da := ra .dbg (Dbg.EL_REGDATA (rcNum i))
    let rs := ra .dbg (Dbg.EL_REGSEL (rcNum i))
    let sel := fld (s.rg (ra .dbg (Dbg.EL_REGNUM (rcNum i)))) 7 0
    let ok := granted s i = true
    let unauth := s.setRgBit st 1 true
    let hal := (s.el i).halted = true
    let runs : State := wdgThaw i ((s.setEl i { s.el i with halted := false }).setRg st (s.rg st &&& 3))
    let held : State := s.setRg da v
    let set := if isEngine i then fld (s.rg (ra .dbg (Dbg.EL_REGSEL (rcNum i)))) 7 6 else 0
    let has := (sel < 32 ∧ (isEngine i = false ∨ sel < 16)) ∨ sel = 0x40 ∨ (0x80 ≤ sel ∧ sregHas i (sel - 0x80) = true)
    let r := (s.el i).set set
    let reads (x : Word) (u : State) : Prop :=
      (gateRefuses s m da 4 = false → exec (.regdataAccess m e none) s =
        .next { (if m.mid = 24 then s else u) with resp := .ok x }) ∧
      (gateRefuses s m da 4 = true → exec (.regdataAccess m e none) s = .next { s with resp := .err })
    let writes (u : State) : Prop := Writes (.regdataAccess m e (some v)) s m da u
    let there := ok ∧ hal ∧ has ∧ set ≠ 3 ∧ (isEngine i = true → ((s.el i).run set).isSome = true)
    let pa := ra .patch (16 * k.val + 4 * w.val)
    let psec := m.sec || (m.mid.val = 24 && grantSec s)
    let able := w.val ≠ 0 ∨ psec = true ∨ fld v 29 28 ≠ 0
    let out := ra .dbg (Dbg.VT_OUT n)
    let inp := ra .dbg (Dbg.VT_IN n)
    let full (x : Nat) (u : State) : State := (u.setRgFld x 7 0 b.toNat).setRgBit x 31 true
    (¬ ok → Writes (.halt m e) s m a unauth ∧ Writes (.resume m e) s m a unauth ∧ Writes (.step m e) s m a unauth ∧
      Writes (.icinva m e) s m a unauth) ∧
    (ok → Writes (.halt m e) s m a (takeHalts 38 (wantHalt i 1 s))) ∧
    (ok → ¬ hal → Writes (.resume m e) s m a s ∧ Writes (.step m e) s m a s ∧ Writes (.icinva m e) s m a s) ∧
    (ok → hal → Writes (.resume m e) s m a runs ∧ Writes (.step m e) s m a { runs with dbg.steps := addSorted i runs.dbg.steps }) ∧
    (ok → hal → isAc i = true → Writes (.icinva m e) s m a (s.setEl i { s.el i with icache := [] })) ∧
    (ok → hal → isAc i = false → Writes (.icinva m e) s m a s) ∧
    (ok → ¬ hal ∨ ¬ has ∨ set = 3 → reads 0 (s.setRgFld rs 11 8 4) ∧ writes (held.setRgFld rs 11 8 4)) ∧
    (¬ ok → reads 0 (unauth.setRgFld rs 11 8 4) ∧ writes ((held.setRgBit st 1 true).setRgFld rs 11 8 4)) ∧
    (ok → hal → has → set ≠ 3 → isEngine i = true → (s.el i).run set = none →
      reads 0 (s.setRgFld rs 11 8 5) ∧ writes (held.setRgFld rs 11 8 5)) ∧
    (there → sel < 32 → reads (r.gr sel) ((s.setRg da (r.gr sel)).setRgFld rs 11 8 0) ∧
      writes ((held.setEl i ((s.el i).putSet set (r.setGr sel v))).setRgFld rs 11 8 0)) ∧
    (there → sel = 0x40 → reads r.pc ((s.setRg da r.pc).setRgFld rs 11 8 0) ∧
      writes ((held.setEl i ((s.el i).putSet set { r with pc := v &&& 0xFFFFFFFE })).setRgFld rs 11 8 0)) ∧
    (there → sel = 0x86 → grantSec s = false → writes (held.setRgFld rs 11 8 4)) ∧
    (there → 0x80 ≤ sel → reads (sregGet (s.el i) set (sel - 0x80)) ((s.setRg da (sregGet (s.el i) set (sel - 0x80))).setRgFld rs 11 8 0)) ∧
    (there → 0x80 ≤ sel → (sel ≠ 0x86 ∨ grantSec s = true) →
      writes ((held.setEl i (sregPut i set (sel - 0x80) v (s.el i))).setRgFld rs 11 8 0)) ∧
    (tb v 0 = false ∨ (grantNs s = false ∧ grantSec s = false) ∨ opMode s = 0 → Writes (.dbgRst m v) s m (ra .dbg Dbg.RST) s) ∧
    (tb v 0 = true → (grantNs s = true ∨ grantSec s = true) → opMode s ≠ 0 →
      Writes (.dbgRst m v) s m (ra .dbg Dbg.RST) (warmReset [8] s.sec.straps s)) ∧
    (able → Writes (.patchWrite m k w v) s m pa (flInvalidate (plainWrite .patch 0 (16 * k.val + 4 * w.val) v psec s))) ∧
    (¬ able → fld (s.rg pa) 29 28 = 0 → tb (s.rg pa) 31 = true → Writes (.patchWrite m k w v) s m pa
      (flInvalidate (plainWrite .patch 0 (16 * k.val + 4 * w.val) (setBit v 31 true) psec s))) ∧
    (¬ able → (fld (s.rg pa) 29 28 ≠ 0 ∨ tb (s.rg pa) 31 = false) → Writes (.patchWrite m k w v) s m pa
      (flInvalidate (plainWrite .patch 0 (16 * k.val + 4 * w.val) (setBit v 31 false) psec s))) ∧
    (tb (s.rg (ra .dbg Dbg.STIMEN)) p = false ∨ tb (s.rg (ra .dbg Dbg.TRCFG)) 31 = false →
      Writes (.stimWrite m p v) s m (ra .dbg (Dbg.STIM p)) s) ∧
    (tb (s.rg (ra .dbg Dbg.STIMEN)) p = true → tb (s.rg (ra .dbg Dbg.TRCFG)) 31 = true → m.mid.val = 0 →
      Writes (.stimWrite m p v) s m (ra .dbg (Dbg.STIM p)) (tracePacket 1 0 p v 0 (w32 (timePort 9 s).1.toNat) m.sec (timePort 9 s).2)) ∧
    (tb (s.rg (ra .dbg Dbg.STIMEN)) p = true → tb (s.rg (ra .dbg Dbg.TRCFG)) 31 = true → 8 ≤ m.mid.val → m.mid.val ≤ 15 →
      Writes (.stimWrite m p v) s m (ra .dbg (Dbg.STIM p)) (tracePacket 1 (8 + (m.mid.val - 8) * 4 + m.sub.val) p v 0
        (w32 (timePort (m.mid.val - 8) s).1.toNat) m.sec (timePort (m.mid.val - 8) s).2)) ∧
    (tb (s.rg (ra .dbg Dbg.STIMEN)) p = true → tb (s.rg (ra .dbg Dbg.TRCFG)) 31 = true → 1 ≤ m.mid.val → m.mid.val ≤ 4 →
      Writes (.stimWrite m p v) s m (ra .dbg (Dbg.STIM p))
        (tracePacket 1 m.mid.val p v 0 (w32 (timePort 8 s).1.toNat) m.sec (timePort 8 s).2)) ∧
    (tb (s.rg out) 31 = false → Writes (.vtOutWrite m n b) s m out (full out s)) ∧
    (tb (s.rg out) 31 = true → Writes (.vtOutWrite m n b) s m out (s.setRgBit out 30 true)) ∧
    (tb (s.rg inp) 31 = false → Writes (.vtInWrite m n b) s m inp (full inp s)) ∧
    (tb (s.rg inp) 31 = true → Writes (.vtInWrite m n b) s m inp s) ∧
    (tb (s.rg out) 31 = true → Writes (.vtFullClear m n true) s m out (s.setRgBit out 31 false)) ∧
    (tb (s.rg inp) 31 = true → Writes (.vtFullClear m n false) s m inp (s.setRgBit inp 31 false)) ∧
    (tb (s.rg out) 31 = false → Writes (.vtFullClear m n true) s m out (s.setRgFld out 7 0 0)) ∧
    (tb (s.rg inp) 31 = false → Writes (.vtFullClear m n false) s m inp (s.setRgFld inp 7 0 0))

/-- The test access port and its bus accesses (R9, R471, R472, R473, R474, R475). Readings and choices of the model in
it: log entries 24, 67, 73. -/
def Obligations.TestAccessPort : Prop :=
  ∀ (s s1 u : State) (x : BitVec 489) (w : BitVec 14) (v y : Word) (ecc : Ecc) (r : Resp) (code : BitVec 5) (bits : List Bool)
    (scan : Option (BitVec 489)) (go : Bool) (z : Nat),
    let on := 2 ≤ opMode s
    let free (ir : Nat) : State := { s with dbg.ir := ir, ballScan := [] }
    let scanned (u : State) : State := { u with resp := .ok 1 }
    let drives (ir : Nat) (f : Nat → Nat → Bool) (u : State) : State :=
      { u with dbg.ir := ir, ballScan := (List.range 72).foldl (fun t k => Tbl.set (fun _ => none) t k (some (f (k / 6) (k % 6)))) [] }
    let ball (b o : Nat) : Bool := cellDrive { s with dbg.ir := 0 } b o
    let passed (u : State) : State := { u with dbg.bypass := bits.getLastD false,
                                               dbg.shifted := packBits bits.length (fun n => (false :: bits).getD n false) }
    let cells := (List.range 489).foldl (fun t k => Tbl.set (fun _ => false) t k (x.getLsbD k)) []
    let out : State := scanned (drives 0 ball s)
    let acc : State := { free 8 with dbg.shifted := s.dbg.accStat * 2 ^ 46 + s.dbg.accData.toNat }
    let done : State := { acc with dbg.accStat := 0 }
    let o := 4 * w.toNat
    let opens := ((o = 0x300 ∨ o = 0x304) → grantSec acc = true) ∧ (o = Dbg.RST → grantNs acc = true ∨ grantSec acc = true)
    let addr := busAddr done
    let sz := busSize done
    let dead := opMode done ≤ 2 ∨ inReset done = true
    let me : Master := { mid := 24, sec := tb (done.rg (ra .dbg Dbg.BCTL)) 30 }
    let st := ra .dbg Dbg.BSTAT
    let wv : State := done.setRg (ra .dbg Dbg.BDATA) v
    (¬ on → ∀ c ∈ [Instr.tapReset, .extest scan, .samplePreload x, .idcode, .clamp bits, .highz bits, .bypass code bits,
      .accRead w go, .accWrite w v, .bdataWrite v ecc, .bdataRead ecc], exec c s = .next s) ∧
    (on →
      exec .tapReset s = .next { s with dbg.cells := s.dbg.cells.filter (fun c => c.1 % 3 ≠ 2), dbg.ir := 2, ballScan := [] } ∧
      exec .idcode s = .next { free 2 with resp := .ok 0x1712889D, dbg.shifted := 0x1712889D } ∧
      (4 < code.toNat → code.toNat ≠ 8 → exec (.bypass code bits) s = .next (passed (scanned (free 0x1F)))) ∧
      (code.toNat = 1 ∨ code.toNat = 2 ∨ code.toNat = 8 → exec (.bypass code bits) s = .next (scanned (free code.toNat))) ∧
      ((free 1).draw = (z, u) → exec (.samplePreload x) s = .next
        { u with dbg.cells := cells, dbg.shifted := packBits 489 (captureBit (free 1) z) }) ∧
      (grantSec s = false → exec (.extest none) s = .next (scanned (free 0x1F)) ∧
        exec (.extest (some x)) s = .next (bypassScan ((List.range 489).map x.getLsbD) (scanned (free 0x1F))) ∧
        exec (.clamp bits) s = .next (passed (scanned (free 0x1F))) ∧ exec (.highz bits) s = .next (passed (scanned (free 0x1F)))) ∧
      (grantSec s = true → exec (.extest none) s = .next out ∧
        (out.draw = (z, u) → exec (.extest (some x)) s = .next
          (tapActs 0 { u with dbg.cells := cells, dbg.shifted := packBits 489 (captureBit out z) })) ∧
        exec (.clamp bits) s = .next (passed (scanned (drives 3 ball s))) ∧
        exec (.highz bits) s = .next (passed (scanned (drives 4 (fun _ _ => false) s)))) ∧
      exec (.accRead w false) s = .next acc ∧
      (¬ opens → exec (.accRead w true) s = .next { acc with dbg.accStat := 2 } ∧
        exec (.accWrite w v) s = .next { acc with dbg.accStat := 2 }) ∧
      (opens → o ≠ Dbg.BDATA → dbgRead o done = (y, s1) → exec (.accRead w true) s = .next { s1 with dbg.accData := y }) ∧
      (opens → o = Dbg.BDATA → exec (.accRead w true) s = .next (bdataRead .clean done) ∧
        exec (.accWrite w v) s = .next (bdataWrite v .clean done)) ∧
      (opens → o ≠ Dbg.BDATA → exec (.accWrite w v) s =
        .next (dbgWrite { mid := 24, sec := grantSec done } o v (grantSec done) done).2) ∧
      (dead → exec (.bdataRead ecc) s = .next (busDone 1 done) ∧ exec (.bdataWrite v ecc) s = .next (busDone 1 wv)) ∧
      (¬ dead → busAllowed done = false →
        exec (.bdataRead ecc) s = .next (done.setRg st 4) ∧ exec (.bdataWrite v ecc) s = .next (wv.setRg st 4)) ∧
      (¬ dead → busAllowed done = true → addr % sz ≠ 0 → exec (.bdataRead ecc) s = .next (busDone 1 done) ∧
        exec (.bdataWrite v ecc) s = .next (busDone 1 wv)) ∧
      (¬ dead → busAllowed done = true → addr % sz = 0 →
        (anyRead me ecc addr sz done = (.ok y, s1) → exec (.bdataRead ecc) s = .next
          (busDone 0 { (debugLeaves done s1).setRg (ra .dbg Dbg.BDATA) y with dbg.accData := y })) ∧
        ((∀ q, r ≠ .ok q) → anyRead me ecc addr sz done = (r, s1) → exec (.bdataRead ecc) s = .next
          (busDone (respCode r) (debugLeaves done s1))) ∧
        (anyWrite me ecc addr sz v wv = (r, s1) → exec (.bdataWrite v ecc) s = .next (busDone (respCode r) s1))))

/-- What reset leaves (R35, R102, R410, R418, R419, R428). Readings and choices of the model in it: log entry
26. -/
def Obligations.ResetState : Prop :=
  State.reset.Inv ∧ State.reset.pending = [] ∧ State.reset.mem = [] ∧ State.reset.poison = [] ∧
  opMode State.reset = 3 ∧ State.reset.time.selvedge = 0 ∧
  (∀ i < 37, ∀ k < 3, ((State.reset.el i).set k).status = if 32 ≤ i ∧ i < 36 then 0x100 else 0x300) ∧
  (∀ i < 37, (State.reset.el i).halted = false ∧ (State.reset.el i).resv = none ∧ (State.reset.el i).runA = none ∧
    (State.reset.el i).runB = none ∧ (State.reset.el i).runC = none) ∧
  (State.reset.el 36).released = true ∧ (∀ n < 4, (State.reset.el (32 + n)).released = false) ∧
  (∀ b < 12, pwmEn State.reset b = false) ∧ (∀ n < 64, tb (State.reset.rg (ra .tim (Tim.CTRL n))) 0 = false) ∧
  (∀ n < 6, tb (State.reset.rg (ra .pmu (Pmu.WDG_CFG n))) 31 = false) ∧ State.reset.rg (ra .pmu Pmu.SHCAUSE) = 0

/-- A step runs the command at the front of the queue (R1, R102). Readings and choices of the model in it: log
entry 7. -/
def Obligations.StepRunsFrontCommand : Prop :=
  ∀ (s : State) (c : Instr) (rest : List Instr),
    step { s with pending := c :: rest } = exec c { s with pending := rest } ∧
    (s.pending = [] → step s = .next (tick s)) ∧
    (s.pending = c :: rest → step s = exec c { s with pending := rest })

/-- Every step keeps memory and registers in canonical form (R5, R335). Readings and choices of the model in it:
log entry 8. -/
def Obligations.StepKeepsInvariant : Prop := ∀ s t : State, step s = .next t → s.Inv → t.Inv

/-- Every command completes in every canonical state and leaves the queue (R5, R335). Readings and choices of
the model in it: log entry 3. -/
def Obligations.EveryCommandCompletes : Prop :=
  ∀ (c : Instr) (s : State), s.Inv → ∃ t, exec c s = .next t ∧ t.pending = s.pending ∧ t.Inv

/-- A store changes its own bytes of memory and no other (R335, R400). -/
def Obligations.StoredBytesReadBack : Prop :=
  ∀ (s : State) (a x : Nat) (bs : List Byte),
    (a ≤ x → x < a + bs.length → (store a bs s).byte x = bs.getD (x - a) 0) ∧
    (x < a ∨ a + bs.length ≤ x → (store a bs s).byte x = s.byte x)
end

