-- ==== Sys2Proof/Laws/Dispatch.lean ====
section
/-! SUPPORT. What `exec` calls for each command: one equation each, so that no later proof unfolds the dispatch. -/

namespace Sys2Proof.Machine

theorem exec_add (e : Elem) (f : AluForm) (s : State) : exec (.add e f) s = execAdd e f s := rfl
theorem exec_adc (e : Elem) (rd ra rb : BitVec 5) (S : Bool) (s : State) :
    exec (.adc e rd ra rb S) s = execAdc e rd ra rb S s := rfl
theorem exec_sub (e : Elem) (f : AluForm) (s : State) : exec (.sub e f) s = execSub e f s := rfl
theorem exec_sbc (e : Elem) (rd ra rb : BitVec 5) (S : Bool) (s : State) :
    exec (.sbc e rd ra rb S) s = execSbc e rd ra rb S s := rfl
theorem exec_and_ (e : Elem) (f : AluForm) (s : State) : exec (.and_ e f) s = execAnd e f s := rfl
theorem exec_or_ (e : Elem) (f : AluForm) (s : State) : exec (.or_ e f) s = execOr e f s := rfl
theorem exec_xor_ (e : Elem) (f : AluForm) (s : State) : exec (.xor_ e f) s = execXor e f s := rfl
theorem exec_andn (e : Elem) (rd ra rb : BitVec 5) (S : Bool) (s : State) :
    exec (.andn e rd ra rb S) s = execAndn e rd ra rb S s := rfl
theorem exec_lsl (e : Elem) (f : AluForm) (s : State) : exec (.lsl e f) s = execLsl e f s := rfl
theorem exec_lsr (e : Elem) (f : AluForm) (s : State) : exec (.lsr e f) s = execLsr e f s := rfl
theorem exec_asr (e : Elem) (f : AluForm) (s : State) : exec (.asr e f) s = execAsr e f s := rfl
theorem exec_ror (e : Elem) (rd ra rb : BitVec 5) (S : Bool) (s : State) :
    exec (.ror e rd ra rb S) s = execRor e rd ra rb S s := rfl
theorem exec_mul (e : Elem) (f : AluForm) (s : State) : exec (.mul e f) s = execMul e f s := rfl
theorem exec_mulhs (e : Elem) (rd ra rb : BitVec 5) (S : Bool) (s : State) :
    exec (.mulhs e rd ra rb S) s = execMulhs e rd ra rb S s := rfl
theorem exec_mulhu (e : Elem) (rd ra rb : BitVec 5) (S : Bool) (s : State) :
    exec (.mulhu e rd ra rb S) s = execMulhu e rd ra rb S s := rfl
theorem exec_min (e : Elem) (rd ra rb : BitVec 5) (S : Bool) (s : State) :
    exec (.min e rd ra rb S) s = execMin e rd ra rb S s := rfl
theorem exec_max (e : Elem) (rd ra rb : BitVec 5) (S : Bool) (s : State) :
    exec (.max e rd ra rb S) s = execMax e rd ra rb S s := rfl
theorem exec_minu (e : Elem) (rd ra rb : BitVec 5) (S : Bool) (s : State) :
    exec (.minu e rd ra rb S) s = execMinu e rd ra rb S s := rfl
theorem exec_maxu (e : Elem) (rd ra rb : BitVec 5) (S : Bool) (s : State) :
    exec (.maxu e rd ra rb S) s = execMaxu e rd ra rb S s := rfl
theorem exec_clz (e : Elem) (rd ra : BitVec 5) (S : Bool) (s : State) :
    exec (.clz e rd ra S) s = execClz e rd ra S s := rfl
theorem exec_slt (e : Elem) (rd ra rb : BitVec 5) (S : Bool) (s : State) :
    exec (.slt e rd ra rb S) s = execSlt e rd ra rb S s := rfl
theorem exec_sltu (e : Elem) (rd ra rb : BitVec 5) (S : Bool) (s : State) :
    exec (.sltu e rd ra rb S) s = execSltu e rd ra rb S s := rfl
theorem exec_addsat (e : Elem) (rd ra rb : BitVec 5) (S : Bool) (s : State) :
    exec (.addsat e rd ra rb S) s = execAddsat e rd ra rb S s := rfl
theorem exec_subsat (e : Elem) (rd ra rb : BitVec 5) (S : Bool) (s : State) :
    exec (.subsat e rd ra rb S) s = execSubsat e rd ra rb S s := rfl
theorem exec_div (e : Elem) (rd ra rb : BitVec 5) (S : Bool) (abandoned : Bool) (s : State) :
    exec (.div e rd ra rb S abandoned) s = execDiv e rd ra rb S abandoned s := rfl
theorem exec_divu (e : Elem) (rd ra rb : BitVec 5) (S : Bool) (abandoned : Bool) (s : State) :
    exec (.divu e rd ra rb S abandoned) s = execDivu e rd ra rb S abandoned s := rfl
theorem exec_rem (e : Elem) (rd ra rb : BitVec 5) (S : Bool) (abandoned : Bool) (s : State) :
    exec (.rem e rd ra rb S abandoned) s = execRem e rd ra rb S abandoned s := rfl
theorem exec_remu (e : Elem) (rd ra rb : BitVec 5) (S : Bool) (abandoned : Bool) (s : State) :
    exec (.remu e rd ra rb S abandoned) s = execRemu e rd ra rb S abandoned s := rfl
theorem exec_addi (e : Elem) (f : ImmForm) (s : State) : exec (.addi e f) s = execAddi e f s := rfl
theorem exec_andi (e : Elem) (rd ra : BitVec 5) (imm : BitVec 14) (s : State) :
    exec (.andi e rd ra imm) s = execAndi e rd ra imm s := rfl
theorem exec_ori (e : Elem) (rd ra : BitVec 5) (imm : BitVec 14) (s : State) :
    exec (.ori e rd ra imm) s = execOri e rd ra imm s := rfl
theorem exec_xori (e : Elem) (rd ra : BitVec 5) (imm : BitVec 14) (s : State) :
    exec (.xori e rd ra imm) s = execXori e rd ra imm s := rfl
theorem exec_lsli (e : Elem) (f : ShiftForm) (s : State) : exec (.lsli e f) s = execLsli e f s := rfl
theorem exec_lsri (e : Elem) (f : ShiftForm) (s : State) : exec (.lsri e f) s = execLsri e f s := rfl
theorem exec_asri (e : Elem) (f : ShiftForm) (s : State) : exec (.asri e f) s = execAsri e f s := rfl
theorem exec_rori (e : Elem) (rd ra : BitVec 5) (n : BitVec 5) (s : State) :
    exec (.rori e rd ra n) s = execRori e rd ra n s := rfl
theorem exec_cmpi (e : Elem) (f : CmpForm) (s : State) : exec (.cmpi e f) s = execCmpi e f s := rfl
theorem exec_tsti (e : Elem) (ra : BitVec 5) (imm : BitVec 14) (s : State) :
    exec (.tsti e ra imm) s = execTsti e ra imm s := rfl
theorem exec_movh (e : Elem) (rd : BitVec 5) (k : BitVec 19) (s : State) :
    exec (.movh e rd k) s = execMovh e rd k s := rfl
theorem exec_adrh (e : Elem) (rd : BitVec 5) (k : BitVec 19) (s : State) :
    exec (.adrh e rd k) s = execAdrh e rd k s := rfl
theorem exec_mov (e : Elem) (rd rs : BitVec 4) (s : State) : exec (.mov e rd rs) s = execMov e rd rs s := rfl
theorem exec_movi (e : Elem) (rd : BitVec 4) (u : BitVec 8) (s : State) :
    exec (.movi e rd u) s = execMovi e rd u s := rfl
theorem exec_not_ (e : Elem) (rd rs : BitVec 4) (s : State) : exec (.not_ e rd rs) s = execNot e rd rs s := rfl
theorem exec_neg (e : Elem) (rd rs : BitVec 4) (s : State) : exec (.neg e rd rs) s = execNeg e rd rs s := rfl
theorem exec_cmp (e : Elem) (rd rs : BitVec 4) (s : State) : exec (.cmp e rd rs) s = execCmp e rd rs s := rfl
theorem exec_tst (e : Elem) (rd rs : BitVec 4) (s : State) : exec (.tst e rd rs) s = execTst e rd rs s := rfl
theorem exec_sextb (e : Elem) (rd rs : BitVec 4) (s : State) : exec (.sextb e rd rs) s = execSextb e rd rs s := rfl
theorem exec_sexth (e : Elem) (rd rs : BitVec 4) (s : State) : exec (.sexth e rd rs) s = execSexth e rd rs s := rfl
theorem exec_zextb (e : Elem) (rd rs : BitVec 4) (s : State) : exec (.zextb e rd rs) s = execZextb e rd rs s := rfl
theorem exec_zexth (e : Elem) (rd rs : BitVec 4) (s : State) : exec (.zexth e rd rs) s = execZexth e rd rs s := rfl
theorem exec_nop (e : Elem) (s : State) : exec (.nop e) s = execNop e s := rfl
theorem exec_ldb (e : Elem) (rd ra : BitVec 5) (imm : BitVec 14) (o : Obs) (s : State) :
    exec (.ldb e rd ra imm o) s = execLdb e rd ra imm o s := rfl
theorem exec_ldbu (e : Elem) (rd ra : BitVec 5) (imm : BitVec 14) (o : Obs) (s : State) :
    exec (.ldbu e rd ra imm o) s = execLdbu e rd ra imm o s := rfl
theorem exec_ldh (e : Elem) (rd ra : BitVec 5) (imm : BitVec 14) (o : Obs) (s : State) :
    exec (.ldh e rd ra imm o) s = execLdh e rd ra imm o s := rfl
theorem exec_ldhu (e : Elem) (rd ra : BitVec 5) (imm : BitVec 14) (o : Obs) (s : State) :
    exec (.ldhu e rd ra imm o) s = execLdhu e rd ra imm o s := rfl
theorem exec_ldw (e : Elem) (f : MemForm) (o : Obs) (s : State) : exec (.ldw e f o) s = execLdw e f o s := rfl
theorem exec_stb (e : Elem) (rd ra : BitVec 5) (imm : BitVec 14) (o : Obs) (s : State) :
    exec (.stb e rd ra imm o) s = execStb e rd ra imm o s := rfl
theorem exec_sth (e : Elem) (rd ra : BitVec 5) (imm : BitVec 14) (o : Obs) (s : State) :
    exec (.sth e rd ra imm o) s = execSth e rd ra imm o s := rfl
theorem exec_stw (e : Elem) (f : MemForm) (o : Obs) (s : State) : exec (.stw e f o) s = execStw e f o s := rfl
theorem exec_ldbP (e : Elem) (rd ra : BitVec 5) (imm : BitVec 14) (o : Obs) (s : State) :
    exec (.ldbP e rd ra imm o) s = execLdbP e rd ra imm o s := rfl
theorem exec_ldbuP (e : Elem) (rd ra : BitVec 5) (imm : BitVec 14) (o : Obs) (s : State) :
    exec (.ldbuP e rd ra imm o) s = execLdbuP e rd ra imm o s := rfl
theorem exec_ldhP (e : Elem) (rd ra : BitVec 5) (imm : BitVec 14) (o : Obs) (s : State) :
    exec (.ldhP e rd ra imm o) s = execLdhP e rd ra imm o s := rfl
theorem exec_ldhuP (e : Elem) (rd ra : BitVec 5) (imm : BitVec 14) (o : Obs) (s : State) :
    exec (.ldhuP e rd ra imm o) s = execLdhuP e rd ra imm o s := rfl
theorem exec_ldwP (e : Elem) (rd ra : BitVec 5) (imm : BitVec 14) (o : Obs) (s : State) :
    exec (.ldwP e rd ra imm o) s = execLdwP e rd ra imm o s := rfl
theorem exec_stbP (e : Elem) (rd ra : BitVec 5) (imm : BitVec 14) (o : Obs) (s : State) :
    exec (.stbP e rd ra imm o) s = execStbP e rd ra imm o s := rfl
theorem exec_sthP (e : Elem) (rd ra : BitVec 5) (imm : BitVec 14) (o : Obs) (s : State) :
    exec (.sthP e rd ra imm o) s = execSthP e rd ra imm o s := rfl
theorem exec_stwP (e : Elem) (rd ra : BitVec 5) (imm : BitVec 14) (o : Obs) (s : State) :
    exec (.stwP e rd ra imm o) s = execStwP e rd ra imm o s := rfl
theorem exec_ldbK (e : Elem) (rd ra : BitVec 5) (off : BitVec 12) (o : Obs) (s : State) :
    exec (.ldbK e rd ra off o) s = execLdbK e rd ra off o s := rfl
theorem exec_ldbuK (e : Elem) (rd ra : BitVec 5) (off : BitVec 12) (o : Obs) (s : State) :
    exec (.ldbuK e rd ra off o) s = execLdbuK e rd ra off o s := rfl
theorem exec_ldhK (e : Elem) (rd ra : BitVec 5) (off : BitVec 12) (o : Obs) (s : State) :
    exec (.ldhK e rd ra off o) s = execLdhK e rd ra off o s := rfl
theorem exec_ldhuK (e : Elem) (rd ra : BitVec 5) (off : BitVec 12) (o : Obs) (s : State) :
    exec (.ldhuK e rd ra off o) s = execLdhuK e rd ra off o s := rfl
theorem exec_ldwK (e : Elem) (f : BankForm) (o : Obs) (s : State) : exec (.ldwK e f o) s = execLdwK e f o s := rfl
theorem exec_stbK (e : Elem) (rd ra : BitVec 5) (off : BitVec 12) (o : Obs) (s : State) :
    exec (.stbK e rd ra off o) s = execStbK e rd ra off o s := rfl
theorem exec_sthK (e : Elem) (rd ra : BitVec 5) (off : BitVec 12) (o : Obs) (s : State) :
    exec (.sthK e rd ra off o) s = execSthK e rd ra off o s := rfl
theorem exec_stwK (e : Elem) (f : BankForm) (o : Obs) (s : State) : exec (.stwK e f o) s = execStwK e f o s := rfl
theorem exec_ldwSp (e : Elem) (rd : BitVec 4) (off9 : BitVec 9) (o : Obs) (s : State) :
    exec (.ldwSp e rd off9 o) s = execLdwSp e rd off9 o s := rfl
theorem exec_stwSp (e : Elem) (rd : BitVec 4) (off9 : BitVec 9) (o : Obs) (s : State) :
    exec (.stwSp e rd off9 o) s = execStwSp e rd off9 o s := rfl
theorem exec_ldx (e : Elem) (rd ra : BitVec 5) (o : Obs) (s : State) :
    exec (.ldx e rd ra o) s = execLdx e rd ra o s := rfl
theorem exec_stx (e : Elem) (rd ra rb : BitVec 5) (o : Obs) (s : State) :
    exec (.stx e rd ra rb o) s = execStx e rd ra rb o s := rfl
theorem exec_bcc (e : Elem) (f : BccForm) (s : State) : exec (.bcc e f) s = execBcc e f s := rfl
theorem exec_b (e : Elem) (off : BitVec 24) (s : State) : exec (.b e off) s = execB e off s := rfl
theorem exec_bl (e : Elem) (off : BitVec 24) (s : State) : exec (.bl e off) s = execBl e off s := rfl
theorem exec_jmpr (e : Elem) (rs : BitVec 4) (s : State) : exec (.jmpr e rs) s = execJmpr e rs s := rfl
theorem exec_callr (e : Elem) (rs : BitVec 4) (s : State) : exec (.callr e rs) s = execCallr e rs s := rfl
theorem exec_callm (e : Elem) (ra : BitVec 5) (H : Bool) (mask : BitVec 16) (os : List Obs) (s : State) :
    exec (.callm e ra H mask os) s = execCallm e ra H mask os s := rfl
theorem exec_retm (e : Elem) (os : List Obs) (s : State) : exec (.retm e os) s = execRetm e os s := rfl
theorem exec_mfs (e : Elem) (rd : BitVec 5) (sreg : BitVec 8) (s : State) :
    exec (.mfs e rd sreg) s = execMfs e rd sreg s := rfl
theorem exec_mts (e : Elem) (sreg : BitVec 8) (ra : BitVec 5) (s : State) :
    exec (.mts e sreg ra) s = execMts e sreg ra s := rfl
theorem exec_fence (e : Elem) (s : State) : exec (.fence e) s = execFence e s := rfl
theorem exec_repU (e : Elem) (n : BitVec 6) (s : State) : exec (.repU e n) s = execRepU e n s := rfl
theorem exec_repIImm (e : Elem) (n : BitVec 8) (s : State) : exec (.repIImm e n) s = execRepIImm e n s := rfl
theorem exec_repIReg (e : Elem) (rs : BitVec 4) (s : State) : exec (.repIReg e rs) s = execRepIReg e rs s := rfl
theorem exec_clarke (e : Elem) (rd ra : BitVec 5) (s : State) : exec (.clarke e rd ra) s = execClarke e rd ra s := rfl
theorem exec_sincos (e : Elem) (rd ra : BitVec 5) (s : State) : exec (.sincos e rd ra) s = execSincos e rd ra s := rfl
theorem exec_park (e : Elem) (rd ra rb : BitVec 5) (s : State) :
    exec (.park e rd ra rb) s = execPark e rd ra rb s := rfl
theorem exec_ipark (e : Elem) (rd ra rb : BitVec 5) (s : State) :
    exec (.ipark e rd ra rb) s = execIpark e rd ra rb s := rfl
theorem exec_svm (e : Elem) (rd ra rb : BitVec 5) (s : State) : exec (.svm e rd ra rb) s = execSvm e rd ra rb s := rfl
theorem exec_limv (e : Elem) (rd ra rb : BitVec 5) (s : State) :
    exec (.limv e rd ra rb) s = execLimv e rd ra rb s := rfl
theorem exec_limvD (e : Elem) (rd ra rb : BitVec 5) (s : State) :
    exec (.limvD e rd ra rb) s = execLimvD e rd ra rb s := rfl
theorem exec_piD (e : Elem) (rd ra rb : BitVec 5) (s : State) : exec (.piD e rd ra rb) s = execPiD e rd ra rb s := rfl
theorem exec_piQ (e : Elem) (rd ra rb : BitVec 5) (s : State) : exec (.piQ e rd ra rb) s = execPiQ e rd ra rb s := rfl
theorem exec_vmac (e : Elem) (n : BitVec 5) (ra rb : BitVec 5) (S : Bool) (stop : VmacStop) (s : State) :
    exec (.vmac e n ra rb S stop) s = execVmac e n ra rb S stop s := rfl
theorem exec_waits (e : Elem) (mask : BitVec 8) (s : State) : exec (.waits e mask) s = execWaits e mask s := rfl
theorem exec_dcommit (e : Elem) (s : State) : exec (.dcommit e) s = execDcommit e s := rfl
theorem exec_setpt (e : Elem) (rd ra : BitVec 5) (s : State) : exec (.setpt e rd ra) s = execSetpt e rd ra s := rfl
theorem exec_sync (e : Elem) (s : State) : exec (.sync e) s = execSync e s := rfl
theorem exec_reth (e : Elem) (s : State) : exec (.reth e) s = execReth e s := rfl
theorem exec_wfi (e : Elem) (s : State) : exec (.wfi e) s = execWfi e s := rfl
theorem exec_brk (e : Elem) (s : State) : exec (.brk e) s = execBrk e s := rfl
theorem exec_sys (e : Elem) (imm : BitVec 8) (s : State) : exec (.sys e imm) s = execSys e imm s := rfl
theorem exec_dcclean (e : Elem) (ra : BitVec 5) (o : Obs) (s : State) :
    exec (.dcclean e ra o) s = execDcclean e ra o s := rfl
theorem exec_dcinv (e : Elem) (ra : BitVec 5) (o : Obs) (s : State) : exec (.dcinv e ra o) s = execDcinv e ra o s := rfl
theorem exec_dcflush (e : Elem) (ra : BitVec 5) (o : Obs) (s : State) :
    exec (.dcflush e ra o) s = execDcflush e ra o s := rfl
theorem exec_icinv (e : Elem) (ra : BitVec 5) (o : Obs) (s : State) : exec (.icinv e ra o) s = execIcinv e ra o s := rfl
theorem exec_dccleanA (e : Elem) (s : State) : exec (.dccleanA e) s = execDccleanA e s := rfl
theorem exec_dcflushA (e : Elem) (s : State) : exec (.dcflushA e) s = execDcflushA e s := rfl
theorem exec_icinvA (e : Elem) (s : State) : exec (.icinvA e) s = execIcinvA e s := rfl
theorem exec_tlbi (e : Elem) (ra rb : BitVec 5) (s : State) : exec (.tlbi e ra rb) s = execTlbi e ra rb s := rfl
theorem exec_tlbiA (e : Elem) (s : State) : exec (.tlbiA e) s = execTlbiA e s := rfl
theorem exec_walki (e : Elem) (s : State) : exec (.walki e) s = execWalki e s := rfl
theorem exec_tlbiB (e : Elem) (ra rb : BitVec 5) (s : State) : exec (.tlbiB e ra rb) s = execTlbiB e ra rb s := rfl
theorem exec_tlbiAb (e : Elem) (s : State) : exec (.tlbiAb e) s = execTlbiAb e s := rfl
theorem exec_walkiB (e : Elem) (s : State) : exec (.walkiB e) s = execWalkiB e s := rfl
theorem exec_interruptEntry (e : Elem) (s : State) : exec (.interruptEntry e) s = execInterruptEntry e s := rfl
theorem exec_twillStoreAck (e : Elem) (i : Nat) (s : State) :
    exec (.twillStoreAck e i) s = execTwillStoreAck e i s := rfl
theorem exec_impreciseBusError (e : Elem) (i : Nat) (ecc : Bool) (s : State) :
    exec (.impreciseBusError e i ecc) s = execImpreciseBusError e i ecc s := rfl
theorem exec_runStart (g : Fin 32) (s : State) : exec (.runStart g) s = execRunStart g s := rfl
theorem exec_runEnd (g : Fin 32) (s : State) : exec (.runEnd g) s = execRunEnd g s := rfl
theorem exec_preempt (g : Fin 32) (s : State) : exec (.preempt g) s = execPreempt g s := rfl
theorem exec_budgetOverrun (g : Fin 32) (s : State) : exec (.budgetOverrun g) s = execBudgetOverrun g s := rfl
theorem exec_budgetKill (g : Fin 32) (s : State) : exec (.budgetKill g) s = execBudgetKill g s := rfl
theorem exec_snapshotLowRead (m : Master) (pa : Nat) (s : State) :
    exec (.snapshotLowRead m pa) s = execSnapshotLowRead m pa s := rfl
theorem exec_slowmeasUpdate (s : State) : exec .slowmeasUpdate s = execSlowmeasUpdate s := rfl
theorem exec_slotLoWrite (m : Master) (n : Fin 256) (v : Word) (s : State) :
    exec (.slotLoWrite m n v) s = execSlotLoWrite m n v s := rfl
theorem exec_slotHiWrite (m : Master) (n : Fin 256) (v : Word) (s : State) :
    exec (.slotHiWrite m n v) s = execSlotHiWrite m n v s := rfl
theorem exec_slotPerWrite (m : Master) (n : Fin 256) (v : Word) (s : State) :
    exec (.slotPerWrite m n v) s = execSlotPerWrite m n v s := rfl
theorem exec_slotCtrlWrite (m : Master) (n : Fin 256) (v : Word) (s : State) :
    exec (.slotCtrlWrite m n v) s = execSlotCtrlWrite m n v s := rfl
theorem exec_slotFire (n : Fin 256) (s : State) : exec (.slotFire n) s = execSlotFire n s := rfl
theorem exec_timerEnable (m : Master) (n : Fin 64) (v : Word) (s : State) :
    exec (.timerEnable m n v) s = execTimerEnable m n v s := rfl
theorem exec_timerZero (n : Fin 64) (s : State) : exec (.timerZero n) s = execTimerZero n s := rfl
theorem exec_timerChannelFire (n : Fin 64) (k : Fin 4) (s : State) :
    exec (.timerChannelFire n k) s = execTimerChannelFire n k s := rfl
theorem exec_timerCcWrite (m : Master) (n : Fin 64) (k : Fin 4) (v : Word) (s : State) :
    exec (.timerCcWrite m n k v) s = execTimerCcWrite m n k v s := rfl
theorem exec_timerActionStart (is : List Nat) (s : State) :
    exec (.timerActionStart is) s = execTimerActionStart is s := rfl
theorem exec_timerActionStop (is : List Nat) (s : State) :
    exec (.timerActionStop is) s = execTimerActionStop is s := rfl
theorem exec_timerActionCapture (is : List Nat) (s : State) :
    exec (.timerActionCapture is) s = execTimerActionCapture is s := rfl
theorem exec_timerActionCount (is : List Nat) (s : State) :
    exec (.timerActionCount is) s = execTimerActionCount is s := rfl
theorem exec_selvedgeCapture (is : List Nat) (s : State) :
    exec (.selvedgeCapture is) s = execSelvedgeCapture is s := rfl
theorem exec_swtrig (m : Master) (v : Word) (s : State) : exec (.swtrig m v) s = execSwtrig m v s := rfl
theorem exec_eventDelivery (is : List Nat) (cycles : List (Nat × Nat)) (s : State) :
    exec (.eventDelivery is cycles) s = execEventDelivery is s cycles := rfl
theorem exec_interruptSourceEdge (t : Fin 5) (src : Fin 512) (s : State) :
    exec (.interruptSourceEdge t src) s = execInterruptSourceEdge t src s := rfl
theorem exec_intcSet (m : Master) (t : Fin 5) (v : Word) (s : State) :
    exec (.intcSet m t v) s = execIntcSet m t v s := rfl
theorem exec_claim (m : Master) (t : Fin 5) (v : Word) (s : State) : exec (.claim m t v) s = execClaim m t v s := rfl
theorem exec_complete (m : Master) (t : Fin 5) (v : Word) (s : State) :
    exec (.complete m t v) s = execComplete m t v s := rfl
theorem exec_mbxMsgWrite (m : Master) (n : Fin 64) (k : Fin 8) (v : Word) (s : State) :
    exec (.mbxMsgWrite m n k v) s = execMbxMsgWrite m n k v s := rfl
theorem exec_send (m : Master) (n : Fin 64) (v : Word) (s : State) : exec (.send m n v) s = execSend m n v s := rfl
theorem exec_ack (m : Master) (n : Fin 64) (v : Word) (s : State) : exec (.ack m n v) s = execAck m n v s := rfl
theorem exec_mbxLock (m : Master) (v : Word) (s : State) : exec (.mbxLock m v) s = execMbxLock m v s := rfl
theorem exec_mbxDomainUp (mid : Fin 32) (s : State) : exec (.mbxDomainUp mid) s = execMbxDomainUp mid s := rfl
theorem exec_initialCalibration (rs : List CalRun) (s : State) :
    exec (.initialCalibration rs) s = execInitialCalibration rs s := rfl
theorem exec_smpWrite (m : Master) (b : Fin 12) (v : Word) (s : State) :
    exec (.smpWrite m b v) s = execSmpWrite m b v s := rfl
theorem exec_sampleInstant (b : Fin 12) (s : State) : exec (.sampleInstant b) s = execSampleInstant b s := rfl
theorem exec_conversionEnd (b : Fin 12) (rs : List (Option Nat × Option Nat)) (s : State) :
    exec (.conversionEnd b rs) s = execConversionEnd b rs s := rfl
theorem exec_rotationStep (s : State) : exec .rotationStep s = execRotationStep s := rfl
theorem exec_calibrationEnd (n : Fin 28) (r : CalRun) (s : State) :
    exec (.calibrationEnd n r) s = execCalibrationEnd n r s := rfl
theorem exec_calageCheck (s : State) : exec .calageCheck s = execCalageCheck s := rfl
theorem exec_comparatorOut (i : Fin 24) (hard : Bool) (v : BitVec 16) (s : State) :
    exec (.comparatorOut i hard v) s = execComparatorOut i hard s v := rfl
theorem exec_tripInputActive (t : Fin 4) (n : BitVec 16) (s : State) :
    exec (.tripInputActive t n) s = execTripInputActive t s n := rfl
theorem exec_comparatorSweep (i : Fin 24) (hard : Bool) (s : State) :
    exec (.comparatorSweep i hard) s = execComparatorSweep i hard s := rfl
theorem exec_sweepStep (crossed : Bool) (s : State) : exec (.sweepStep crossed) s = execSweepStep crossed s := rfl
theorem exec_wakeComparatorActive (w : Fin 4) (active : Bool) (v n : BitVec 16) (s : State) :
    exec (.wakeComparatorActive w active v n) s = execWakeComparatorActive w active s v n := rfl
theorem exec_pwmEnable (m : Master) (b : Fin 12) (v : Word) (s : State) :
    exec (.pwmEnable m b v) s = execPwmEnable m b v s := rfl
theorem exec_pwmPhaseWrite (m : Master) (b : Fin 12) (v : Word) (s : State) :
    exec (.pwmPhaseWrite m b v) s = execPwmPhaseWrite m b v s := rfl
theorem exec_stagePeriodWrite (m : Master) (b : Fin 12) (v : Word) (s : State) :
    exec (.stagePeriodWrite m b v) s = execStagePeriodWrite m b v s := rfl
theorem exec_stageEdgeWrite (m : Master) (b : Fin 12) (k : Fin 3) (v : Word) (s : State) :
    exec (.stageEdgeWrite m b k v) s = execStageEdgeWrite m b k v s := rfl
theorem exec_pwmCommit (m : Master) (b : Fin 12) (s : State) : exec (.pwmCommit m b) s = execPwmCommit m b s := rfl
theorem exec_periodNow (m : Master) (b : Fin 12) (s : State) : exec (.periodNow m b) s = execPeriodNow m b s := rfl
theorem exec_periodCutTick (b : Fin 12) (s : State) : exec (.periodCutTick b) s = execPeriodCutTick b s := rfl
theorem exec_forcesafe (m : Master) (b : Fin 12) (s : State) : exec (.forcesafe m b) s = execForcesafe m b s := rfl
theorem exec_clrsafe (m : Master) (b : Fin 12) (s : State) : exec (.clrsafe m b) s = execClrsafe m b s := rfl
theorem exec_forceWrite (m : Master) (b : Fin 12) (v : Word) (s : State) :
    exec (.forceWrite m b v) s = execForceWrite m b v s := rfl
theorem exec_bundleArrival (i : Nat) (s : State) : exec (.bundleArrival i) s = execBundleArrival i s := rfl
theorem exec_periodBoundary (b : Fin 12) (s : State) : exec (.periodBoundary b) s = execPeriodBoundary b s := rfl
theorem exec_edgeFire (b : Fin 12) (k : Fin 3) (off : Bool) (s : State) :
    exec (.edgeFire b k off) s = execEdgeFire b k off s := rfl
theorem exec_deadtimeExpiry (b : Fin 12) (o : Fin 6) (s : State) :
    exec (.deadtimeExpiry b o) s = execDeadtimeExpiry b o s := rfl
theorem exec_delaylineMeasure (b : Fin 12) (o : Fin 6) (n : Fin 65) (s : State) :
    exec (.delaylineMeasure b o n) s = execDelaylineMeasure b o n s := rfl
theorem exec_dlstarveTimeout (b : Fin 12) (s : State) : exec (.dlstarveTimeout b) s = execDlstarveTimeout b s := rfl
theorem exec_fbEnable (m : Master) (f : Fin 12) (v : Word) (s : State) :
    exec (.fbEnable m f v) s = execFbEnable m f v s := rfl
theorem exec_quadEdge (f : Fin 12) (a b : Bool) (n : BitVec 13) (s : State) :
    exec (.quadEdge f a b n) s = execQuadEdge f a b s n := rfl
theorem exec_hallChange (f : Fin 12) (h : Fin 8) (n : BitVec 13) (s : State) :
    exec (.hallChange f h n) s = execHallChange f h s n := rfl
theorem exec_indexEdge (f : Fin 12) (z : Bool) (n : BitVec 13) (s : State) :
    exec (.indexEdge f z n) s = execIndexEdge f z s n := rfl
theorem exec_fbLoad (m : Master) (f : Fin 12) (s : State) : exec (.fbLoad m f) s = execFbLoad m f s := rfl
theorem exec_capnow (m : Master) (f : Fin 12) (s : State) : exec (.capnow m f) s = execCapnow m f s := rfl
theorem exec_idxarm (m : Master) (f : Fin 12) (s : State) : exec (.idxarm m f) s = execIdxarm m f s := rfl
theorem exec_fbCapture (f : Fin 12) (s : State) : exec (.fbCapture f) s = execFbCapture f s := rfl
theorem exec_fbBlockWrite (k : Fin 20) (s : State) : exec (.fbBlockWrite k) s = execFbBlockWrite k s := rfl
theorem exec_sencEnable (m : Master) (p : Fin 8) (v : Word) (s : State) :
    exec (.sencEnable m p v) s = execSencEnable m p v s := rfl
theorem exec_sencFrameStart (p : Fin 8) (s : State) : exec (.sencFrameStart p) s = execSencFrameStart p s := rfl
theorem exec_sencFrameEnd (p : Fin 8) (high : Bool) (changes : List Nat) (s : State) :
    exec (.sencFrameEnd p high changes) s = execSencFrameEnd p high changes s := rfl
theorem exec_sencRegGo (m : Master) (p : Fin 8) (v : Word) (s : State) :
    exec (.sencRegGo m p v) s = execSencRegGo m p v s := rfl
theorem exec_sencRegDone (p : Fin 8) (ok : Bool) (data : BitVec 8) (s : State) :
    exec (.sencRegDone p ok data) s = execSencRegDone p ok data s := rfl
theorem exec_trkEnable (m : Master) (k : Fin 8) (v : Word) (s : State) :
    exec (.trkEnable m k v) s = execTrkEnable m k v s := rfl
theorem exec_trkLimitWrite (m : Master) (k : Fin 8) (v : Word) (s : State) :
    exec (.trkLimitWrite m k v) s = execTrkLimitWrite m k v s := rfl
theorem exec_markFire (k : Fin 8) (s : State) : exec (.markFire k) s = execMarkFire k s := rfl
theorem exec_predictedFire (k : Fin 8) (s : State) : exec (.predictedFire k) s = execPredictedFire k s := rfl
theorem exec_markPulseEnd (m : Fin 8) (s : State) : exec (.markPulseEnd m) s = execMarkPulseEnd m s := rfl
theorem exec_place (m : Master) (n : Fin 256) (s : State) : exec (.place m n) s = execPlace m n s := rfl
theorem exec_release (m : Master) (n : Fin 256) (s : State) : exec (.release m n) s = execRelease m n s := rfl
theorem exec_clrfault (m : Master) (n : Fin 256) (s : State) : exec (.clrfault m n) s = execClrfault m n s := rfl
theorem exec_install (m : Master) (s : State) : exec (.install m) s = execInstall m s := rfl
theorem exec_uninstall (m : Master) (n : Fin 256) (s : State) : exec (.uninstall m n) s = execUninstall m n s := rfl
theorem exec_islClrflt (m : Master) (i : Fin 8) (v : Word) (s : State) :
    exec (.islClrflt m i v) s = execIslClrflt m i v s := rfl
theorem exec_req3Write (m : Master) (n : Fin 256) (v : Word) (s : State) :
    exec (.req3Write m n v) s = execReq3Write m n v s := rfl
theorem exec_quietRequest (m : Master) (a : Fin 128) (v : Word) (s : State) :
    exec (.quietRequest m a v) s = execQuietRequest m a v s := rfl
theorem exec_quietEnd (a : Fin 128) (s : State) : exec (.quietEnd a) s = execQuietEnd a s := rfl
theorem exec_balanceCheck (s : State) : exec .balanceCheck s = execBalanceCheck s := rfl
theorem exec_migrationCopy (n : Fin 256) (s : State) : exec (.migrationCopy n) s = execMigrationCopy n s := rfl
theorem exec_copyAck (n : Fin 256) (ok : Bool) (s : State) : exec (.copyAck n ok) s = execCopyAck n ok s := rfl
theorem exec_shadowCompare (n : Fin 256) (s : State) : exec (.shadowCompare n) s = execShadowCompare n s := rfl
theorem exec_serviceMigration (n : Fin 256) (written : Bool) (s : State) :
    exec (.serviceMigration n written) s = execServiceMigration n written s := rfl
theorem exec_pairCompare (n : Fin 128) (s : State) : exec (.pairCompare n) s = execPairCompare n s := rfl
theorem exec_commitDeadline (n : Fin 128) (s : State) : exec (.commitDeadline n) s = execCommitDeadline n s := rfl
theorem exec_setpointWrite (n : Fin 256) (s : State) : exec (.setpointWrite n) s = execSetpointWrite n s := rfl
theorem exec_spDueFire (key : Fin 512) (s : State) : exec (.spDueFire key) s = execSpDueFire key s := rfl
theorem exec_tethEnable (m : Master) (l : Fin 16) (v : Word) (s : State) :
    exec (.tethEnable m l v) s = execTethEnable m l v s := rfl
theorem exec_tethLock (l : Fin 16) (s : State) : exec (.tethLock l) s = execTethLock l s := rfl
theorem exec_tethLockLoss (l : Fin 16) (s : State) : exec (.tethLockLoss l) s = execTethLockLoss l s := rfl
theorem exec_tethTrainDone (l : Fin 16) (s : State) : exec (.tethTrainDone l) s = execTethTrainDone l s := rfl
theorem exec_tethAlign (l : Fin 16) (s : State) : exec (.tethAlign l) s = execTethAlign l s := rfl
theorem exec_tethTimeCell (l : Fin 16) (s : State) : exec (.tethTimeCell l) s = execTethTimeCell l s := rfl
theorem exec_tethEchoRequest (l : Fin 16) (s : State) : exec (.tethEchoRequest l) s = execTethEchoRequest l s := rfl
theorem exec_echoReceived (l : Fin 16) (t : BitVec 64) (ta : Word) (age : Nat) (s : State) :
    exec (.echoReceived l t ta age) s = execEchoReceived l t ta age s := rfl
theorem exec_sampleCellReceived (l : Fin 16) (a : Fin 8) (st : BitVec 8) (ia ib aux vbus : BitVec 16) (time : Word) (s : State) :
    exec (.sampleCellReceived l a st ia ib aux vbus time) s = execSampleCellReceived l a st ia ib aux vbus time s := rfl
theorem exec_feedbackCellReceived (l : Fin 16) (a : Fin 8) (st : BitVec 8) (pos turns time : Word) (s : State) :
    exec (.feedbackCellReceived l a st pos turns time) s = execFeedbackCellReceived l a st pos turns time s := rfl
theorem exec_statusCellReceived (l : Fin 16) (safe fault : BitVec 8) (code : BitVec 16) (s : State) :
    exec (.statusCellReceived l safe fault code) s = execStatusCellReceived l safe fault code s := rfl
theorem exec_regackReceived (l : Fin 16) (addr : BitVec 16) (data : Word) (tag result : BitVec 8) (s : State) :
    exec (.regackReceived l addr data tag result) s = execRegackReceived l addr data tag result s := rfl
theorem exec_tethRegcmdGo (m : Master) (l : Fin 16) (v : Word) (s : State) :
    exec (.tethRegcmdGo m l v) s = execTethRegcmdGo m l v s := rfl
theorem exec_tethRegTimeout (l : Fin 16) (s : State) : exec (.tethRegTimeout l) s = execTethRegTimeout l s := rfl
theorem exec_uplossTimeout (l : Fin 16) (s : State) : exec (.uplossTimeout l) s = execUplossTimeout l s := rfl
theorem exec_linkedBundle (i : Nat) (s : State) : exec (.linkedBundle i) s = execLinkedBundle i s := rfl
theorem exec_linkLoopPeriod (l : Fin 16) (a : Fin 8) (s : State) :
    exec (.linkLoopPeriod l a) s = execLinkLoopPeriod l a s := rfl
theorem exec_tethClrsafe (m : Master) (l : Fin 16) (a : Fin 8) (s : State) :
    exec (.tethClrsafe m l a) s = execTethClrsafe m l a s := rfl
theorem exec_tethForcesafe (m : Master) (l : Fin 16) (a : Fin 8) (s : State) :
    exec (.tethForcesafe m l a) s = execTethForcesafe m l a s := rfl
theorem exec_girthCycleStart (g : Fin 4) (s : State) : exec (.girthCycleStart g) s = execGirthCycleStart g s := rfl
theorem exec_girthSlot (g : Fin 4) (s : State) : exec (.girthSlot g) s = execGirthSlot g s := rfl
theorem exec_girthReply (g : Fin 4) (addr ctl : BitVec 8) (rest : List (BitVec 8)) (age : Nat) (s : State) :
    exec (.girthReply g addr ctl rest age) s = execGirthReply g addr ctl rest age s := rfl
theorem exec_girthReplyTimeout (g : Fin 4) (s : State) :
    exec (.girthReplyTimeout g) s = execGirthReplyTimeout g s := rfl
theorem exec_girthCollision (g : Fin 4) (s : State) : exec (.girthCollision g) s = execGirthCollision g s := rfl
theorem exec_queueEnable (m : Master) (q : Fin 8192) (v : Word) (s : State) :
    exec (.queueEnable m q v) s = execQueueEnable m q v s := rfl
theorem exec_queueAutoPlaced (q : Fin 8192) (base : Option Word) (s : State) :
    exec (.queueAutoPlaced q base) s = execQueueAutoPlaced q base s := rfl
theorem exec_qmProd (m : Master) (v : Word) (s : State) : exec (.qmProd m v) s = execQmProd m v s := rfl
theorem exec_qmCons (m : Master) (v : Word) (s : State) : exec (.qmCons m v) s = execQmCons m v s := rfl
theorem exec_npop (m : Master) (t : Fin 5) (s : State) : exec (.npop m t) s = execNpop m t s := rfl
theorem exec_ethLinkChange (p : Fin 2) (up full rfault : Bool) (s : State) :
    exec (.ethLinkChange p up full rfault) s = execEthLinkChange p up full rfault s := rfl
theorem exec_ethFrameReceived (p : Fin 2) (f : List (BitVec 8)) (fcs : Bool) (age : Nat) (s : State) :
    exec (.ethFrameReceived p f fcs age) s = execEthFrameReceived p f fcs age s := rfl
theorem exec_injectionRecord (s : State) : exec .injectionRecord s = execInjectionRecord s := rfl
theorem exec_ethTransmit (p : Fin 2) (s : State) : exec (.ethTransmit p) s = execEthTransmit p s := rfl
theorem exec_ethTxDone (p : Fin 2) (s : State) : exec (.ethTxDone p) s = execEthTxDone p s := rfl
theorem exec_gtctlApply (m : Master) (p : Fin 2) (v : Word) (s : State) :
    exec (.gtctlApply m p v) s = execGtctlApply m p v s := rfl
theorem exec_qbvApply (m : Master) (p : Fin 2) (v : Word) (s : State) :
    exec (.qbvApply m p v) s = execQbvApply m p v s := rfl
theorem exec_qbvSwitch (p : Fin 2) (s : State) : exec (.qbvSwitch p) s = execQbvSwitch p s := rfl
theorem exec_mdioGo (m : Master) (v : Word) (s : State) : exec (.mdioGo m v) s = execMdioGo m v s := rfl
theorem exec_mdioDone (rdata : BitVec 16) (s : State) : exec (.mdioDone rdata) s = execMdioDone rdata s := rfl
theorem exec_scrubRead (ddr : Bool) (ecc : Ecc) (s : State) :
    exec (.scrubRead ddr ecc) s = execScrubRead ddr ecc s := rfl
theorem exec_memcInit (m : Master) (v : Word) (s : State) : exec (.memcInit m v) s = execMemcInit m v s := rfl
theorem exec_memcTrained (ok : Bool) (s : State) : exec (.memcTrained ok) s = execMemcTrained ok s := rfl
theorem exec_dmaEnable (m : Master) (c : Fin 32) (v : Word) (s : State) :
    exec (.dmaEnable m c v) s = execDmaEnable m c v s := rfl
theorem exec_dmaRingPlaced (c : Fin 32) (base : Option Word) (s : State) :
    exec (.dmaRingPlaced c base) s = execDmaRingPlaced c base s := rfl
theorem exec_kick (m : Master) (c : Fin 32) (v : Word) (s : State) : exec (.kick m c v) s = execKick m c v s := rfl
theorem exec_dmaChannelRequest (is : List Nat) (s : State) :
    exec (.dmaChannelRequest is) s = execDmaChannelRequest is s := rfl
theorem exec_dmaDescriptor (c : Fin 32) (ecc : Ecc) (werr : Bool) (wecc : Ecc) (s : State) :
    exec (.dmaDescriptor c ecc werr wecc) s = execDmaDescriptor c ecc werr s wecc := rfl
theorem exec_dmaWriteback (c : Fin 32) (werr : Bool) (wecc : Ecc) (s : State) :
    exec (.dmaWriteback c werr wecc) s = execDmaWriteback c werr s wecc := rfl
theorem exec_flashRead (m : Master) (off : BitVec 24) (size : Fin 3) (fetch : Bool) (ecc : Ecc) (s : State) :
    exec (.flashRead m off size fetch ecc) s = execFlashRead m off size fetch ecc s := rfl
theorem exec_flcInv (m : Master) (v : Word) (s : State) : exec (.flcInv m v) s = execFlcInv m v s := rfl
theorem exec_tvFlProgram (ecc : Ecc) (s : State) : exec (.tvFlProgram ecc) s = execTvFlProgram ecc s := rfl
theorem exec_tvFlErase (s : State) : exec .tvFlErase s = execTvFlErase s := rfl
theorem exec_erasePulseEnd (k : Fin 2) (ok : Bool) (s : State) :
    exec (.erasePulseEnd k ok) s = execErasePulseEnd k ok s := rfl
theorem exec_eraseDone (k : Fin 2) (s : State) : exec (.eraseDone k) s = execEraseDone k s := rfl
theorem exec_tvFlSuspend (s : State) : exec .tvFlSuspend s = execTvFlSuspend s := rfl
theorem exec_tvFlResume (s : State) : exec .tvFlResume s = execTvFlResume s := rfl
theorem exec_tvFlBlank (s : State) : exec .tvFlBlank s = execTvFlBlank s := rfl
theorem exec_tvFlInfo (s : State) : exec .tvFlInfo s = execTvFlInfo s := rfl
theorem exec_tvFlMarkbad (s : State) : exec .tvFlMarkbad s = execTvFlMarkbad s := rfl
theorem exec_tvServe (ok : Bool) (ecc : Ecc) (s : State) : exec (.tvServe ok ecc) s = execTvServe ok ecc s := rfl
theorem exec_tvImgVerify (ecc : Ecc) (s : State) : exec (.tvImgVerify ecc) s = execTvImgVerify ecc s := rfl
theorem exec_tvOtpProgram (ok : Bool) (s : State) : exec (.tvOtpProgram ok) s = execTvOtpProgram ok s := rfl
theorem exec_tvRollback (ok : Bool) (s : State) : exec (.tvRollback ok) s = execTvRollback ok s := rfl
theorem exec_tvLifecycle (ok : Bool) (s : State) : exec (.tvLifecycle ok) s = execTvLifecycle ok s := rfl
theorem exec_tvMeasExtend (ecc : Ecc) (s : State) : exec (.tvMeasExtend ecc) s = execTvMeasExtend ecc s := rfl
theorem exec_tvAttest (ecc : Ecc) (s : State) : exec (.tvAttest ecc) s = execTvAttest ecc s := rfl
theorem exec_bootSequence (jrnlErr : Bool) (ecc : Ecc) (s : State) :
    exec (.bootSequence jrnlErr ecc) s = execBootSequence jrnlErr ecc s := rfl
theorem exec_bootReq (s : State) : exec .bootReq s = execBootReq s := rfl
theorem exec_bootData (mac : BitVec 48) (off total : Word) (data : List (BitVec 8)) (ecc : Ecc) (s : State) :
    exec (.bootData mac off total data ecc) s = execBootData mac off total data ecc s := rfl
theorem exec_bootDataTimeout (s : State) : exec .bootDataTimeout s = execBootDataTimeout s := rfl
theorem exec_acrelGo (m : Master) (n : Fin 4) (v : Word) (s : State) :
    exec (.acrelGo m n v) s = execAcrelGo m n v s := rfl
theorem exec_dbgSubmit (m : Master) (v : Word) (s : State) : exec (.dbgSubmit m v) s = execDbgSubmit m v s := rfl
theorem exec_reqRun (m : Master) (s : State) : exec (.reqRun m) s = execReqRun m s := rfl
theorem exec_reqStandby (m : Master) (s : State) : exec (.reqStandby m) s = execReqStandby m s := rfl
theorem exec_reqHibernate (m : Master) (s : State) : exec (.reqHibernate m) s = execReqHibernate m s := rfl
theorem exec_reqSafeHold (m : Master) (s : State) : exec (.reqSafeHold m) s = execReqSafeHold m s := rfl
theorem exec_standbyEntry (s : State) : exec .standbyEntry s = execStandbyEntry s := rfl
theorem exec_entryTimeout (s : State) : exec .entryTimeout s = execEntryTimeout s := rfl
theorem exec_nwake (n : BitVec 16) (s : State) : exec (.nwake n) s = execNwake s n := rfl
theorem exec_slowAlarm (s : State) : exec .slowAlarm s = execSlowAlarm s := rfl
theorem exec_alarmHiWrite (m : Master) (v : Word) (s : State) :
    exec (.alarmHiWrite m v) s = execAlarmHiWrite m v s := rfl
theorem exec_aonTempWake (n : Nat) (t : BitVec 16) (s : State) :
    exec (.aonTempWake n t) s = execAonTempWake n s t := rfl
theorem exec_standbyWake (n : Nat) (s : State) : exec (.standbyWake n) s = execStandbyWake n s := rfl
theorem exec_hibernateWake (n : Nat) (s : State) : exec (.hibernateWake n) s = execHibernateWake n s := rfl
theorem exec_boostReq (m : Master) (v : Word) (s : State) : exec (.boostReq m v) s = execBoostReq m v s := rfl
theorem exec_boostEntry (s : State) : exec .boostEntry s = execBoostEntry s := rfl
theorem exec_budgetUpdate (s : State) : exec .budgetUpdate s = execBudgetUpdate s := rfl
theorem exec_railAverage (ma : BitVec 16) (s : State) : exec (.railAverage ma) s = execRailAverage ma s := rfl
theorem exec_tempMeasure (ts : Vector (BitVec 16) 12) (s : State) :
    exec (.tempMeasure ts) s = execTempMeasure ts s := rfl
theorem exec_xtalFail (stop ppm : Nat) (s : State) : exec (.xtalFail stop ppm) s = execXtalFail s stop ppm := rfl
theorem exec_xtalReturn (s : State) : exec .xtalReturn s = execXtalReturn s := rfl
theorem exec_slowClockFail (stop : Nat) (s : State) : exec (.slowClockFail stop) s = execSlowClockFail s stop := rfl
theorem exec_islClockStep (i : Fin 8) (s : State) : exec (.islClockStep i) s = execIslClockStep i s := rfl
theorem exec_islTrimStep (i : Fin 8) (s : State) : exec (.islTrimStep i) s = execIslTrimStep i s := rfl
theorem exec_powerOnReset (straps : BitVec 2) (supplies : Bool) (s : State) :
    exec (.powerOnReset straps supplies) s = execPowerOnReset straps s supplies := rfl
theorem exec_brownoutReset (n : Nat) (back : Bool) (s : State) :
    exec (.brownoutReset n back) s = execBrownoutReset s n back := rfl
theorem exec_pinReset (straps : BitVec 2) (n : Nat) (s : State) :
    exec (.pinReset straps n) s = execPinReset straps s n := rfl
theorem exec_swrst (m : Master) (s : State) : exec (.swrst m) s = execSwrst m s := rfl
theorem exec_wdgEnable (m : Master) (n : Fin 6) (v : Word) (s : State) :
    exec (.wdgEnable m n v) s = execWdgEnable m n v s := rfl
theorem exec_wdgService (m : Master) (n : Fin 6) (v : Word) (s : State) :
    exec (.wdgService m n v) s = execWdgService m n v s := rfl
theorem exec_wdgWarning (n : Fin 6) (s : State) : exec (.wdgWarning n) s = execWdgWarning n s := rfl
theorem exec_wdgExpiry (n : Fin 6) (s : State) : exec (.wdgExpiry n) s = execWdgExpiry n s := rfl
theorem exec_marginMeasure (ms : Vector (BitVec 16) 11) (s : State) :
    exec (.marginMeasure ms) s = execMarginMeasure ms s := rfl
theorem exec_projectionUpdate (s : State) : exec .projectionUpdate s = execProjectionUpdate s := rfl
theorem exec_stressAccumulate (s : State) : exec .stressAccumulate s = execStressAccumulate s := rfl
theorem exec_islandTestSelect (s : State) : exec .islandTestSelect s = execIslandTestSelect s := rfl
theorem exec_islandEmpty (s : State) : exec .islandEmpty s = execIslandEmpty s := rfl
theorem exec_logicBistEnd (fail : Option (Option (Fin 4))) (s : State) :
    exec (.logicBistEnd fail) s = execLogicBistEnd fail s := rfl
theorem exec_marchEnd (ok : Bool) (s : State) : exec (.marchEnd ok) s = execMarchEnd ok s := rfl
theorem exec_islandRelease (s : State) : exec .islandRelease s = execIslandRelease s := rfl
theorem exec_evacuationTimeout (s : State) : exec .evacuationTimeout s = execEvacuationTimeout s := rfl
theorem exec_coreBistStart (n : Fin 4) (s : State) : exec (.coreBistStart n) s = execCoreBistStart n s := rfl
theorem exec_coreBistAbort (n : Fin 4) (s : State) : exec (.coreBistAbort n) s = execCoreBistAbort n s := rfl
theorem exec_coreBistEnd (n : Fin 4) (ok : Bool) (s : State) :
    exec (.coreBistEnd n ok) s = execCoreBistEnd n ok s := rfl
theorem exec_fclr (m : Master) (v : Word) (s : State) : exec (.fclr m v) s = execFclr m v s := rfl
theorem exec_tapReset (s : State) : exec .tapReset s = execTapReset s := rfl
theorem exec_extest (scan : Option (BitVec 489)) (s : State) : exec (.extest scan) s = execExtest s scan := rfl
theorem exec_samplePreload (v : BitVec 489) (s : State) : exec (.samplePreload v) s = execSamplePreload v s := rfl
theorem exec_idcode (s : State) : exec .idcode s = execIdcode s := rfl
theorem exec_clamp (bits : List Bool) (s : State) : exec (.clamp bits) s = execClamp s bits := rfl
theorem exec_highz (bits : List Bool) (s : State) : exec (.highz bits) s = execHighz s bits := rfl
theorem exec_bypass (code : BitVec 5) (bits : List Bool) (s : State) :
    exec (.bypass code bits) s = execBypass s code bits := rfl
theorem exec_accRead (w : BitVec 14) (go : Bool) (s : State) : exec (.accRead w go) s = execAccRead w s go := rfl
theorem exec_accWrite (w : BitVec 14) (v : Word) (s : State) : exec (.accWrite w v) s = execAccWrite w v s := rfl
theorem exec_bdataWrite (v : Word) (ecc : Ecc) (s : State) : exec (.bdataWrite v ecc) s = execBdataWrite v ecc s := rfl
theorem exec_bdataRead (ecc : Ecc) (s : State) : exec (.bdataRead ecc) s = execBdataRead ecc s := rfl
theorem exec_halt (m : Master) (e : Elem) (s : State) : exec (.halt m e) s = execHalt m e s := rfl
theorem exec_resume (m : Master) (e : Elem) (s : State) : exec (.resume m e) s = execResume m e s := rfl
theorem exec_step (m : Master) (e : Elem) (s : State) : exec (.step m e) s = execStep m e s := rfl
theorem exec_icinva (m : Master) (e : Elem) (s : State) : exec (.icinva m e) s = execIcinva m e s := rfl
theorem exec_regdataAccess (m : Master) (e : Elem) (v : Option Word) (s : State) :
    exec (.regdataAccess m e v) s = execRegdataAccess m e v s := rfl
theorem exec_dbgRst (m : Master) (v : Word) (s : State) : exec (.dbgRst m v) s = execDbgRst m v s := rfl
theorem exec_patchBreak (e : Elem) (s : State) : exec (.patchBreak e) s = execPatchBreak e s := rfl
theorem exec_patchWatch (e : Elem) (pa : BitVec 40) (store : Bool) (s : State) :
    exec (.patchWatch e pa store) s = execPatchWatch e pa store s := rfl
theorem exec_patchWrite (m : Master) (k : Fin 64) (w : Fin 4) (v : Word) (s : State) :
    exec (.patchWrite m k w v) s = execPatchWrite m k w v s := rfl
theorem exec_stimWrite (m : Master) (k : Fin 32) (v : Word) (s : State) :
    exec (.stimWrite m k v) s = execStimWrite m k v s := rfl
theorem exec_vtOutWrite (m : Master) (n : Fin 5) (b : BitVec 8) (s : State) :
    exec (.vtOutWrite m n b) s = execVtOutWrite m n b s := rfl
theorem exec_vtInWrite (m : Master) (n : Fin 5) (b : BitVec 8) (s : State) :
    exec (.vtInWrite m n b) s = execVtInWrite m n b s := rfl
theorem exec_vtFullClear (m : Master) (n : Fin 5) (out : Bool) (s : State) :
    exec (.vtFullClear m n out) s = execVtFullClear m n out s := rfl
theorem exec_registerWrite (m : Master) (pa : Nat) (v : Word) (s : State) :
    exec (.registerWrite m pa v) s = execRegisterWrite m pa v s := rfl
theorem exec_illegalInstruction (e : Elem) (long : Bool) (s : State) :
    exec (.illegalInstruction e long) s = execIllegalInstruction e long s := rfl
theorem exec_instructionFetchFault (e : Elem) (second : Bool) (o : Obs) (s : State) :
    exec (.instructionFetchFault e second o) s = execInstructionFetchFault e second o s := rfl
theorem exec_powerDown (s : State) : exec .powerDown s = execPowerDown s := rfl
theorem exec_comparatorIn (i : Fin 24) (hard : Bool) (v : BitVec 16) (s : State) :
    exec (.comparatorIn i hard v) s = execComparatorIn i hard s v := rfl
theorem exec_tripInputInactive (t : Fin 4) (n : BitVec 16) (s : State) :
    exec (.tripInputInactive t n) s = execTripInputInactive t s n := rfl
theorem exec_tethSymbolError (l : Fin 16) (rd : Bool) (code : BitVec 10) (s : State) :
    exec (.tethSymbolError l rd code) s = execTethSymbolError l s rd code := rfl
theorem exec_tethInvalidCell (l : Fin 16) (cut : Bool) (bs : List (BitVec 8)) (s : State) :
    exec (.tethInvalidCell l cut bs) s = execTethInvalidCell l s cut bs := rfl
theorem exec_girthInvalidFrame (g : Fin 4) (cut : Bool) (bytes : List (BitVec 8)) (s : State) :
    exec (.girthInvalidFrame g cut bytes) s = execGirthInvalidFrame g s cut bytes := rfl
theorem exec_flashProgramDone (k : Fin 2) (fail : Option (Fin 128)) (pulses : Fin 33) (s : State) :
    exec (.flashProgramDone k fail pulses) s = execFlashProgramDone k fail pulses s := rfl

end Sys2Proof.Machine
end

