-- ==== Sys2Proof/Laws/Tbl.lean ====
section
/-! SUPPORT. Laws of the sparse tables: what a key holds after a write, that every operation keeps the
canonical form, and that canonical tables with equal contents are equal. -/

namespace Sys2Proof

variable {α : Type}

/-! ### Reading back -/

theorem Tbl.get_ins_self (d : Nat → α) (k : Nat) (v : α) (t : Tbl α) : Tbl.get d (Tbl.ins k v t) k = v := by
  induction t with
  | nil => simp [Tbl.ins, Tbl.get]
  | cons e t ih =>
    obtain ⟨j, u⟩ := e
    simp only [Tbl.ins]
    split
    · simp [Tbl.get]
    · split
      · simp [Tbl.get]
      · rename_i h
        simp [Tbl.get, h, ih]

theorem Tbl.get_ins_ne (d : Nat → α) {k j : Nat} (h : j ≠ k) (v : α) (t : Tbl α) :
    Tbl.get d (Tbl.ins k v t) j = Tbl.get d t j := by
  induction t with
  | nil => simp [Tbl.ins, Tbl.get, Ne.symm h]
  | cons e t ih =>
    obtain ⟨i, u⟩ := e
    simp only [Tbl.ins]
    split
    · simp [Tbl.get, Ne.symm h]
    · split
      · rename_i hik
        subst hik
        simp [Tbl.get, Ne.symm h]
      · simp [Tbl.get, ih]

theorem Tbl.get_del_ne (d : Nat → α) {k j : Nat} (h : j ≠ k) (t : Tbl α) :
    Tbl.get d (Tbl.del k t) j = Tbl.get d t j := by
  induction t with
  | nil => rfl
  | cons e t ih =>
    obtain ⟨i, u⟩ := e
    simp only [Tbl.del]
    split
    · rename_i hik
      subst hik
      simp [Tbl.get, Ne.symm h, ih]
    · simp [Tbl.get, ih]

/-! ### The order of the keys -/

theorem Tbl.above_weaken {b : Nat} {t : Tbl α} (h : Tbl.above (some b) t = true) : Tbl.above none t = true := by
  cases t with
  | nil => rfl
  | cons e t =>
    simp only [Tbl.above, Bool.and_eq_true] at h ⊢
    exact h.2

theorem Tbl.above_mono {b c : Nat} (hbc : b ≤ c) {t : Tbl α} (h : Tbl.above (some c) t = true) :
    Tbl.above (some b) t = true := by
  cases t with
  | nil => rfl
  | cons e t =>
    simp only [Tbl.above, Bool.and_eq_true, decide_eq_true_eq] at h ⊢
    exact ⟨by omega, h.2⟩

/-- A key at or below the bound is not listed. -/
theorem Tbl.get_above (d : Nat → α) {b k : Nat} (hk : k ≤ b) {t : Tbl α} (h : Tbl.above (some b) t = true) :
    Tbl.get d t k = d k := by
  induction t generalizing b with
  | nil => rfl
  | cons e t ih =>
    simp only [Tbl.above, Bool.and_eq_true, decide_eq_true_eq] at h
    have hne : e.1 ≠ k := by omega
    simp only [Tbl.get, hne, if_false]
    exact ih (b := e.1) (by omega) h.2

theorem Tbl.get_del_self (d : Nat → α) (k : Nat) (t : Tbl α) : Tbl.get d (Tbl.del k t) k = d k := by
  induction t with
  | nil => rfl
  | cons e t ih =>
    simp only [Tbl.del]
    split
    · exact ih
    · rename_i hk
      simp only [Tbl.get, hk, if_false]
      exact ih

theorem Tbl.above_del (k : Nat) {o : Option Nat} {t : Tbl α} (h : Tbl.above o t = true) :
    Tbl.above o (Tbl.del k t) = true := by
  induction t generalizing o with
  | nil => exact h
  | cons e t ih =>
    have ht : Tbl.above (some e.1) t = true := by
      cases o <;> simp_all [Tbl.above]
    simp only [Tbl.del]
    split
    · cases o with
      | none => exact Tbl.above_weaken (ih ht)
      | some b =>
        simp only [Tbl.above, Bool.and_eq_true, decide_eq_true_eq] at h
        exact Tbl.above_mono (by omega) (ih ht)
    · cases o with
      | none => exact ih ht
      | some b =>
        simp only [Tbl.above, Bool.and_eq_true, decide_eq_true_eq] at h ⊢
        exact ⟨h.1, ih ht⟩

theorem Tbl.above_ins (k : Nat) (v : α) {o : Option Nat} (ho : ∀ b, o = some b → b < k) {t : Tbl α}
    (h : Tbl.above o t = true) : Tbl.above o (Tbl.ins k v t) = true := by
  induction t generalizing o with
  | nil =>
    cases o with
    | none => rfl
    | some b => simpa [Tbl.ins, Tbl.above] using ho b rfl
  | cons e t ih =>
    have ht : Tbl.above (some e.1) t = true := by
      cases o <;> simp_all [Tbl.above]
    simp only [Tbl.ins]
    split
    · rename_i hk
      cases o with
      | none => simpa [Tbl.above] using ⟨hk, ht⟩
      | some b => simpa [Tbl.above] using ⟨ho b rfl, hk, ht⟩
    · split
      · rename_i hk
        subst hk
        cases o with
        | none => simpa [Tbl.above] using ht
        | some b => simpa [Tbl.above] using ⟨ho b rfl, ht⟩
      · rename_i h1 h2
        have hi := ih (o := some e.1) (fun b hb => by cases hb; omega) ht
        cases o with
        | none => simpa [Tbl.above] using hi
        | some b =>
          simp only [Tbl.above, Bool.and_eq_true, decide_eq_true_eq] at h ⊢
          exact ⟨h.1, hi⟩

theorem Tbl.above_filter (p : Nat × α → Bool) {o : Option Nat} {t : Tbl α} (h : Tbl.above o t = true) :
    Tbl.above o (List.filter p t) = true := by
  induction t generalizing o with
  | nil => exact h
  | cons e t ih =>
    have ht : Tbl.above (some e.1) t = true := by
      cases o <;> simp_all [Tbl.above]
    by_cases hp : p e = true
    · rw [List.filter_cons_of_pos hp]
      cases o with
      | none => exact ih ht
      | some b =>
        simp only [Tbl.above, Bool.and_eq_true, decide_eq_true_eq] at h ⊢
        exact ⟨h.1, ih ht⟩
    · rw [List.filter_cons_of_neg hp]
      cases o with
      | none => exact ih (Tbl.above_weaken ht)
      | some b =>
        simp only [Tbl.above, Bool.and_eq_true, decide_eq_true_eq] at h
        exact ih (Tbl.above_mono (by omega) ht)

/-! ### Membership -/

theorem Tbl.mem_del {k : Nat} {e : Nat × α} {t : Tbl α} (h : e ∈ Tbl.del k t) : e ∈ t := by
  induction t with
  | nil => exact h
  | cons f t ih =>
    simp only [Tbl.del] at h
    split at h
    · exact List.mem_cons_of_mem _ (ih h)
    · rcases List.mem_cons.1 h with h | h
      · exact h ▸ List.mem_cons_self
      · exact List.mem_cons_of_mem _ (ih h)

theorem Tbl.mem_ins {k : Nat} {v : α} {e : Nat × α} {t : Tbl α} (h : e ∈ Tbl.ins k v t) : e = (k, v) ∨ e ∈ t := by
  induction t with
  | nil => exact .inl (by simpa [Tbl.ins] using h)
  | cons f t ih =>
    simp only [Tbl.ins] at h
    split at h
    · rcases List.mem_cons.1 h with h | h
      · exact .inl h
      · exact .inr h
    · split at h
      · rcases List.mem_cons.1 h with h | h
        · exact .inl h
        · exact .inr (List.mem_cons_of_mem _ h)
      · rcases List.mem_cons.1 h with h | h
        · exact .inr (h ▸ List.mem_cons_self)
        · exact (ih h).imp id (List.mem_cons_of_mem _)

/-! ### The canonical form -/

variable [DecidableEq α]

/-- What the key of a write holds after it. -/
theorem Tbl.get_set_self (d : Nat → α) (t : Tbl α) (k : Nat) (v : α) : Tbl.get d (Tbl.set d t k v) k = v := by
  unfold Tbl.set
  split
  · rename_i hv
    rw [Tbl.get_del_self d k t, hv]
  · exact Tbl.get_ins_self ..

/-- What a key holds after a write. -/
theorem Tbl.get_set (d : Nat → α) (t : Tbl α) (k : Nat) (v : α) (j : Nat) :
    Tbl.get d (Tbl.set d t k v) j = if j = k then v else Tbl.get d t j := by
  split
  · rename_i hj
    rw [hj, Tbl.get_set_self]
  · rename_i hj
    unfold Tbl.set
    split
    · exact Tbl.get_del_ne d hj t
    · exact Tbl.get_ins_ne d hj v t

/-- A write leaves every other key. -/
theorem Tbl.get_set_ne (d : Nat → α) (t : Tbl α) {k j : Nat} (h : j ≠ k) (v : α) :
    Tbl.get d (Tbl.set d t k v) j = Tbl.get d t j := by
  unfold Tbl.set
  split
  · exact Tbl.get_del_ne d h t
  · exact Tbl.get_ins_ne d h v t

/-- A write keeps the canonical form. -/
theorem Tbl.wf_set {d : Nat → α} {t : Tbl α} (h : Tbl.wf d t = true) (k : Nat) (v : α) :
    Tbl.wf d (Tbl.set d t k v) = true := by
  simp only [Tbl.wf, Bool.and_eq_true, List.all_eq_true] at h ⊢
  unfold Tbl.set
  split
  · exact ⟨Tbl.above_del k h.1, fun e he => h.2 e (Tbl.mem_del he)⟩
  · rename_i hv
    refine ⟨Tbl.above_ins k v (by simp) h.1, fun e he => ?_⟩
    rcases Tbl.mem_ins he with he | he
    · simpa [he] using hv
    · exact h.2 e he

/-- Dropping entries keeps the canonical form. -/
theorem Tbl.wf_filter {d : Nat → α} {t : Tbl α} (h : Tbl.wf d t = true) (p : Nat × α → Bool) :
    Tbl.wf d (List.filter p t) = true := by
  simp only [Tbl.wf, Bool.and_eq_true, List.all_eq_true] at h ⊢
  exact ⟨Tbl.above_filter p h.1, fun e he => h.2 e (List.mem_of_mem_filter he)⟩

/-- Canonical tables with equal contents are equal. -/
theorem Tbl.ext {d : Nat → α} {t u : Tbl α} (ht : Tbl.wf d t = true) (hu : Tbl.wf d u = true)
    (h : ∀ k, Tbl.get d t k = Tbl.get d u k) : t = u := by
  suffices H : ∀ (t u : Tbl α) (o : Option Nat), Tbl.above o t = true → Tbl.above o u = true →
      (∀ e ∈ t, e.2 ≠ d e.1) → (∀ e ∈ u, e.2 ≠ d e.1) → (∀ k, Tbl.get d t k = Tbl.get d u k) → t = u by
    simp only [Tbl.wf, Bool.and_eq_true, List.all_eq_true, decide_eq_true_eq] at ht hu
    exact H t u none ht.1 hu.1 ht.2 hu.2 h
  intro t
  induction t with
  | nil =>
    intro u o _ hu _ hdu h
    cases u with
    | nil => rfl
    | cons f u =>
      have := h f.1
      simp only [Tbl.get, if_true] at this
      exact absurd this.symm (hdu f List.mem_cons_self)
  | cons e t ih =>
    intro u o ht hu hdt hdu h
    have ht' : Tbl.above (some e.1) t = true := by cases o <;> simp_all [Tbl.above]
    cases u with
    | nil =>
      have := h e.1
      simp only [Tbl.get, if_true] at this
      exact absurd this (hdt e List.mem_cons_self)
    | cons f u =>
      have hu' : Tbl.above (some f.1) u = true := by cases o <;> simp_all [Tbl.above]
      rcases Nat.lt_trichotomy e.1 f.1 with hlt | heq | hgt
      · have := h e.1
        have hne : ¬f.1 = e.1 := by omega
        simp only [Tbl.get, if_true] at this
        rw [if_neg hne] at this
        rw [Tbl.get_above d (Nat.le_of_lt hlt) hu'] at this
        exact absurd this (hdt e List.mem_cons_self)
      · have hv := h e.1
        simp only [Tbl.get, heq, if_true] at hv
        have hef : e = f := Prod.ext heq hv
        subst hef
        have htl : t = u := ih u (some e.1) ht' hu' (fun x hx => hdt x (List.mem_cons_of_mem _ hx))
          (fun x hx => hdu x (List.mem_cons_of_mem _ hx)) (fun k => by
            by_cases hk : e.1 = k
            · subst hk
              rw [Tbl.get_above d (Nat.le_refl _) ht', Tbl.get_above d (Nat.le_refl _) hu']
            · have := h k
              simpa only [Tbl.get, hk, if_false] using this)
        rw [htl]
      · have := h f.1
        have hne : ¬e.1 = f.1 := by omega
        simp only [Tbl.get, if_true] at this
        rw [if_neg hne] at this
        rw [Tbl.get_above d (Nat.le_of_lt hgt) ht'] at this
        exact absurd this.symm (hdu f List.mem_cons_self)

end Sys2Proof
end

