-- ==== Sys2Proof/Laws/State.lean ====
section
/-! SUPPORT. What each update of the state leaves alone: one lemma for each update and each field or accessor, and the
read of a register after a write of it. -/

namespace Sys2Proof.Machine

/-! ### `setRg` -/

@[simp] theorem setRg_pending (s : State) (a : Nat) (v : Word) : (s.setRg a v).pending = s.pending := rfl
@[simp] theorem setRg_resp (s : State) (a : Nat) (v : Word) : (s.setRg a v).resp = s.resp := rfl
@[simp] theorem setRg_free (s : State) (a : Nat) (v : Word) : (s.setRg a v).free = s.free := rfl
@[simp] theorem setRg_mem (s : State) (a : Nat) (v : Word) : (s.setRg a v).mem = s.mem := rfl
@[simp] theorem setRg_poison (s : State) (a : Nat) (v : Word) : (s.setRg a v).poison = s.poison := rfl
@[simp] theorem setRg_time (s : State) (a : Nat) (v : Word) : (s.setRg a v).time = s.time := rfl
@[simp] theorem setRg_core (s : State) (a : Nat) (v : Word) : (s.setRg a v).core = s.core := rfl
@[simp] theorem setRg_axis (s : State) (a : Nat) (v : Word) : (s.setRg a v).axis = s.axis := rfl
@[simp] theorem setRg_conv (s : State) (a : Nat) (v : Word) : (s.setRg a v).conv = s.conv := rfl
@[simp] theorem setRg_feed (s : State) (a : Nat) (v : Word) : (s.setRg a v).feed = s.feed := rfl
@[simp] theorem setRg_faultSeq (s : State) (a : Nat) (v : Word) : (s.setRg a v).faultSeq = s.faultSeq := rfl
@[simp] theorem setRg_faultQueue (s : State) (a : Nat) (v : Word) : (s.setRg a v).faultQueue = s.faultQueue := rfl
@[simp] theorem setRg_pwm (s : State) (a : Nat) (v : Word) : (s.setRg a v).pwm = s.pwm := rfl
@[simp] theorem setRg_ballScan (s : State) (a : Nat) (v : Word) : (s.setRg a v).ballScan = s.ballScan := rfl
@[simp] theorem setRg_teth (s : State) (a : Nat) (v : Word) : (s.setRg a v).teth = s.teth := rfl
@[simp] theorem setRg_ports (s : State) (a : Nat) (v : Word) : (s.setRg a v).ports = s.ports := rfl
@[simp] theorem setRg_dma (s : State) (a : Nat) (v : Word) : (s.setRg a v).dma = s.dma := rfl
@[simp] theorem setRg_flash (s : State) (a : Nat) (v : Word) : (s.setRg a v).flash = s.flash := rfl
@[simp] theorem setRg_sec (s : State) (a : Nat) (v : Word) : (s.setRg a v).sec = s.sec := rfl
@[simp] theorem setRg_power (s : State) (a : Nat) (v : Word) : (s.setRg a v).power = s.power := rfl
@[simp] theorem setRg_age (s : State) (a : Nat) (v : Word) : (s.setRg a v).age = s.age := rfl
@[simp] theorem setRg_test (s : State) (a : Nat) (v : Word) : (s.setRg a v).test = s.test := rfl
@[simp] theorem setRg_dbg (s : State) (a : Nat) (v : Word) : (s.setRg a v).dbg = s.dbg := rfl
@[simp] theorem setRg_el (s : State) (a : Nat) (v : Word) (k : Nat) : (s.setRg a v).el k = s.el k := rfl
@[simp] theorem setRg_slot (s : State) (a : Nat) (v : Word) (k : Nat) : (s.setRg a v).slot k = s.slot k := rfl
@[simp] theorem setRg_timer (s : State) (a : Nat) (v : Word) (k : Nat) : (s.setRg a v).timer k = s.timer k := rfl
@[simp] theorem setRg_bank (s : State) (a : Nat) (v : Word) (k : Nat) : (s.setRg a v).bank k = s.bank k := rfl
@[simp] theorem setRg_ctx (s : State) (a : Nat) (v : Word) (k : Nat) : (s.setRg a v).ctx k = s.ctx k := rfl
@[simp] theorem setRg_ax (s : State) (a : Nat) (v : Word) (k : Nat) : (s.setRg a v).ax k = s.ax k := rfl
@[simp] theorem setRg_prog (s : State) (a : Nat) (v : Word) (k : Nat) : (s.setRg a v).prog k = s.prog k := rfl
@[simp] theorem setRg_cv (s : State) (a : Nat) (v : Word) (k : Nat) : (s.setRg a v).cv k = s.cv k := rfl
@[simp] theorem setRg_br (s : State) (a : Nat) (v : Word) (k : Nat) : (s.setRg a v).br k = s.br k := rfl
@[simp] theorem setRg_fb (s : State) (a : Nat) (v : Word) (k : Nat) : (s.setRg a v).fb k = s.fb k := rfl
@[simp] theorem setRg_senc (s : State) (a : Nat) (v : Word) (k : Nat) : (s.setRg a v).senc k = s.senc k := rfl
@[simp] theorem setRg_trk (s : State) (a : Nat) (v : Word) (k : Nat) : (s.setRg a v).trk k = s.trk k := rfl
@[simp] theorem setRg_mark (s : State) (a : Nat) (v : Word) (k : Nat) : (s.setRg a v).mark k = s.mark k := rfl
@[simp] theorem setRg_link (s : State) (a : Nat) (v : Word) (k : Nat) : (s.setRg a v).link k = s.link k := rfl
@[simp] theorem setRg_girth (s : State) (a : Nat) (v : Word) (k : Nat) : (s.setRg a v).girth k = s.girth k := rfl
@[simp] theorem setRg_eth (s : State) (a : Nat) (v : Word) (k : Nat) : (s.setRg a v).eth k = s.eth k := rfl
@[simp] theorem setRg_chan (s : State) (a : Nat) (v : Word) (k : Nat) : (s.setRg a v).chan k = s.chan k := rfl
@[simp] theorem setRg_fop (s : State) (a : Nat) (v : Word) (k : Nat) : (s.setRg a v).fop k = s.fop k := rfl
@[simp] theorem setRg_wdg (s : State) (a : Nat) (v : Word) (k : Nat) : (s.setRg a v).wdg k = s.wdg k := rfl
@[simp] theorem setRg_unit (s : State) (a : Nat) (v : Word) (k : Nat) : (s.setRg a v).unit_ k = s.unit_ k := rfl

/-! ### `setRgBit` -/

@[simp] theorem setRgBit_pending (s : State) (a i : Nat) (b : Bool) : (s.setRgBit a i b).pending = s.pending := rfl
@[simp] theorem setRgBit_resp (s : State) (a i : Nat) (b : Bool) : (s.setRgBit a i b).resp = s.resp := rfl
@[simp] theorem setRgBit_free (s : State) (a i : Nat) (b : Bool) : (s.setRgBit a i b).free = s.free := rfl
@[simp] theorem setRgBit_mem (s : State) (a i : Nat) (b : Bool) : (s.setRgBit a i b).mem = s.mem := rfl
@[simp] theorem setRgBit_poison (s : State) (a i : Nat) (b : Bool) : (s.setRgBit a i b).poison = s.poison := rfl
@[simp] theorem setRgBit_time (s : State) (a i : Nat) (b : Bool) : (s.setRgBit a i b).time = s.time := rfl
@[simp] theorem setRgBit_core (s : State) (a i : Nat) (b : Bool) : (s.setRgBit a i b).core = s.core := rfl
@[simp] theorem setRgBit_axis (s : State) (a i : Nat) (b : Bool) : (s.setRgBit a i b).axis = s.axis := rfl
@[simp] theorem setRgBit_conv (s : State) (a i : Nat) (b : Bool) : (s.setRgBit a i b).conv = s.conv := rfl
@[simp] theorem setRgBit_feed (s : State) (a i : Nat) (b : Bool) : (s.setRgBit a i b).feed = s.feed := rfl
@[simp] theorem setRgBit_faultSeq (s : State) (a i : Nat) (b : Bool) : (s.setRgBit a i b).faultSeq = s.faultSeq := rfl
@[simp] theorem setRgBit_faultQueue (s : State) (a i : Nat) (b : Bool) : (s.setRgBit a i b).faultQueue = s.faultQueue := rfl
@[simp] theorem setRgBit_pwm (s : State) (a i : Nat) (b : Bool) : (s.setRgBit a i b).pwm = s.pwm := rfl
@[simp] theorem setRgBit_ballScan (s : State) (a i : Nat) (b : Bool) : (s.setRgBit a i b).ballScan = s.ballScan := rfl
@[simp] theorem setRgBit_teth (s : State) (a i : Nat) (b : Bool) : (s.setRgBit a i b).teth = s.teth := rfl
@[simp] theorem setRgBit_ports (s : State) (a i : Nat) (b : Bool) : (s.setRgBit a i b).ports = s.ports := rfl
@[simp] theorem setRgBit_dma (s : State) (a i : Nat) (b : Bool) : (s.setRgBit a i b).dma = s.dma := rfl
@[simp] theorem setRgBit_flash (s : State) (a i : Nat) (b : Bool) : (s.setRgBit a i b).flash = s.flash := rfl
@[simp] theorem setRgBit_sec (s : State) (a i : Nat) (b : Bool) : (s.setRgBit a i b).sec = s.sec := rfl
@[simp] theorem setRgBit_power (s : State) (a i : Nat) (b : Bool) : (s.setRgBit a i b).power = s.power := rfl
@[simp] theorem setRgBit_age (s : State) (a i : Nat) (b : Bool) : (s.setRgBit a i b).age = s.age := rfl
@[simp] theorem setRgBit_test (s : State) (a i : Nat) (b : Bool) : (s.setRgBit a i b).test = s.test := rfl
@[simp] theorem setRgBit_dbg (s : State) (a i : Nat) (b : Bool) : (s.setRgBit a i b).dbg = s.dbg := rfl
@[simp] theorem setRgBit_el (s : State) (a i : Nat) (b : Bool) (k : Nat) : (s.setRgBit a i b).el k = s.el k := rfl
@[simp] theorem setRgBit_slot (s : State) (a i : Nat) (b : Bool) (k : Nat) : (s.setRgBit a i b).slot k = s.slot k := rfl
@[simp] theorem setRgBit_timer (s : State) (a i : Nat) (b : Bool) (k : Nat) : (s.setRgBit a i b).timer k = s.timer k := rfl
@[simp] theorem setRgBit_bank (s : State) (a i : Nat) (b : Bool) (k : Nat) : (s.setRgBit a i b).bank k = s.bank k := rfl
@[simp] theorem setRgBit_ctx (s : State) (a i : Nat) (b : Bool) (k : Nat) : (s.setRgBit a i b).ctx k = s.ctx k := rfl
@[simp] theorem setRgBit_ax (s : State) (a i : Nat) (b : Bool) (k : Nat) : (s.setRgBit a i b).ax k = s.ax k := rfl
@[simp] theorem setRgBit_prog (s : State) (a i : Nat) (b : Bool) (k : Nat) : (s.setRgBit a i b).prog k = s.prog k := rfl
@[simp] theorem setRgBit_cv (s : State) (a i : Nat) (b : Bool) (k : Nat) : (s.setRgBit a i b).cv k = s.cv k := rfl
@[simp] theorem setRgBit_br (s : State) (a i : Nat) (b : Bool) (k : Nat) : (s.setRgBit a i b).br k = s.br k := rfl
@[simp] theorem setRgBit_fb (s : State) (a i : Nat) (b : Bool) (k : Nat) : (s.setRgBit a i b).fb k = s.fb k := rfl
@[simp] theorem setRgBit_senc (s : State) (a i : Nat) (b : Bool) (k : Nat) : (s.setRgBit a i b).senc k = s.senc k := rfl
@[simp] theorem setRgBit_trk (s : State) (a i : Nat) (b : Bool) (k : Nat) : (s.setRgBit a i b).trk k = s.trk k := rfl
@[simp] theorem setRgBit_mark (s : State) (a i : Nat) (b : Bool) (k : Nat) : (s.setRgBit a i b).mark k = s.mark k := rfl
@[simp] theorem setRgBit_link (s : State) (a i : Nat) (b : Bool) (k : Nat) : (s.setRgBit a i b).link k = s.link k := rfl
@[simp] theorem setRgBit_girth (s : State) (a i : Nat) (b : Bool) (k : Nat) : (s.setRgBit a i b).girth k = s.girth k := rfl
@[simp] theorem setRgBit_eth (s : State) (a i : Nat) (b : Bool) (k : Nat) : (s.setRgBit a i b).eth k = s.eth k := rfl
@[simp] theorem setRgBit_chan (s : State) (a i : Nat) (b : Bool) (k : Nat) : (s.setRgBit a i b).chan k = s.chan k := rfl
@[simp] theorem setRgBit_fop (s : State) (a i : Nat) (b : Bool) (k : Nat) : (s.setRgBit a i b).fop k = s.fop k := rfl
@[simp] theorem setRgBit_wdg (s : State) (a i : Nat) (b : Bool) (k : Nat) : (s.setRgBit a i b).wdg k = s.wdg k := rfl
@[simp] theorem setRgBit_unit (s : State) (a i : Nat) (b : Bool) (k : Nat) : (s.setRgBit a i b).unit_ k = s.unit_ k := rfl

/-! ### `setRgFld` -/

@[simp] theorem setRgFld_pending (s : State) (a h l v : Nat) : (s.setRgFld a h l v).pending = s.pending := rfl
@[simp] theorem setRgFld_resp (s : State) (a h l v : Nat) : (s.setRgFld a h l v).resp = s.resp := rfl
@[simp] theorem setRgFld_free (s : State) (a h l v : Nat) : (s.setRgFld a h l v).free = s.free := rfl
@[simp] theorem setRgFld_mem (s : State) (a h l v : Nat) : (s.setRgFld a h l v).mem = s.mem := rfl
@[simp] theorem setRgFld_poison (s : State) (a h l v : Nat) : (s.setRgFld a h l v).poison = s.poison := rfl
@[simp] theorem setRgFld_time (s : State) (a h l v : Nat) : (s.setRgFld a h l v).time = s.time := rfl
@[simp] theorem setRgFld_core (s : State) (a h l v : Nat) : (s.setRgFld a h l v).core = s.core := rfl
@[simp] theorem setRgFld_axis (s : State) (a h l v : Nat) : (s.setRgFld a h l v).axis = s.axis := rfl
@[simp] theorem setRgFld_conv (s : State) (a h l v : Nat) : (s.setRgFld a h l v).conv = s.conv := rfl
@[simp] theorem setRgFld_feed (s : State) (a h l v : Nat) : (s.setRgFld a h l v).feed = s.feed := rfl
@[simp] theorem setRgFld_faultSeq (s : State) (a h l v : Nat) : (s.setRgFld a h l v).faultSeq = s.faultSeq := rfl
@[simp] theorem setRgFld_faultQueue (s : State) (a h l v : Nat) : (s.setRgFld a h l v).faultQueue = s.faultQueue := rfl
@[simp] theorem setRgFld_pwm (s : State) (a h l v : Nat) : (s.setRgFld a h l v).pwm = s.pwm := rfl
@[simp] theorem setRgFld_ballScan (s : State) (a h l v : Nat) : (s.setRgFld a h l v).ballScan = s.ballScan := rfl
@[simp] theorem setRgFld_teth (s : State) (a h l v : Nat) : (s.setRgFld a h l v).teth = s.teth := rfl
@[simp] theorem setRgFld_ports (s : State) (a h l v : Nat) : (s.setRgFld a h l v).ports = s.ports := rfl
@[simp] theorem setRgFld_dma (s : State) (a h l v : Nat) : (s.setRgFld a h l v).dma = s.dma := rfl
@[simp] theorem setRgFld_flash (s : State) (a h l v : Nat) : (s.setRgFld a h l v).flash = s.flash := rfl
@[simp] theorem setRgFld_sec (s : State) (a h l v : Nat) : (s.setRgFld a h l v).sec = s.sec := rfl
@[simp] theorem setRgFld_power (s : State) (a h l v : Nat) : (s.setRgFld a h l v).power = s.power := rfl
@[simp] theorem setRgFld_age (s : State) (a h l v : Nat) : (s.setRgFld a h l v).age = s.age := rfl
@[simp] theorem setRgFld_test (s : State) (a h l v : Nat) : (s.setRgFld a h l v).test = s.test := rfl
@[simp] theorem setRgFld_dbg (s : State) (a h l v : Nat) : (s.setRgFld a h l v).dbg = s.dbg := rfl
@[simp] theorem setRgFld_el (s : State) (a h l v : Nat) (k : Nat) : (s.setRgFld a h l v).el k = s.el k := rfl
@[simp] theorem setRgFld_slot (s : State) (a h l v : Nat) (k : Nat) : (s.setRgFld a h l v).slot k = s.slot k := rfl
@[simp] theorem setRgFld_timer (s : State) (a h l v : Nat) (k : Nat) : (s.setRgFld a h l v).timer k = s.timer k := rfl
@[simp] theorem setRgFld_bank (s : State) (a h l v : Nat) (k : Nat) : (s.setRgFld a h l v).bank k = s.bank k := rfl
@[simp] theorem setRgFld_ctx (s : State) (a h l v : Nat) (k : Nat) : (s.setRgFld a h l v).ctx k = s.ctx k := rfl
@[simp] theorem setRgFld_ax (s : State) (a h l v : Nat) (k : Nat) : (s.setRgFld a h l v).ax k = s.ax k := rfl
@[simp] theorem setRgFld_prog (s : State) (a h l v : Nat) (k : Nat) : (s.setRgFld a h l v).prog k = s.prog k := rfl
@[simp] theorem setRgFld_cv (s : State) (a h l v : Nat) (k : Nat) : (s.setRgFld a h l v).cv k = s.cv k := rfl
@[simp] theorem setRgFld_br (s : State) (a h l v : Nat) (k : Nat) : (s.setRgFld a h l v).br k = s.br k := rfl
@[simp] theorem setRgFld_fb (s : State) (a h l v : Nat) (k : Nat) : (s.setRgFld a h l v).fb k = s.fb k := rfl
@[simp] theorem setRgFld_senc (s : State) (a h l v : Nat) (k : Nat) : (s.setRgFld a h l v).senc k = s.senc k := rfl
@[simp] theorem setRgFld_trk (s : State) (a h l v : Nat) (k : Nat) : (s.setRgFld a h l v).trk k = s.trk k := rfl
@[simp] theorem setRgFld_mark (s : State) (a h l v : Nat) (k : Nat) : (s.setRgFld a h l v).mark k = s.mark k := rfl
@[simp] theorem setRgFld_link (s : State) (a h l v : Nat) (k : Nat) : (s.setRgFld a h l v).link k = s.link k := rfl
@[simp] theorem setRgFld_girth (s : State) (a h l v : Nat) (k : Nat) : (s.setRgFld a h l v).girth k = s.girth k := rfl
@[simp] theorem setRgFld_eth (s : State) (a h l v : Nat) (k : Nat) : (s.setRgFld a h l v).eth k = s.eth k := rfl
@[simp] theorem setRgFld_chan (s : State) (a h l v : Nat) (k : Nat) : (s.setRgFld a h l v).chan k = s.chan k := rfl
@[simp] theorem setRgFld_fop (s : State) (a h l v : Nat) (k : Nat) : (s.setRgFld a h l v).fop k = s.fop k := rfl
@[simp] theorem setRgFld_wdg (s : State) (a h l v : Nat) (k : Nat) : (s.setRgFld a h l v).wdg k = s.wdg k := rfl
@[simp] theorem setRgFld_unit (s : State) (a h l v : Nat) (k : Nat) : (s.setRgFld a h l v).unit_ k = s.unit_ k := rfl

/-! ### `setEl` -/

@[simp] theorem setEl_pending (s : State) (i : Nat) (x : ElemState) : (s.setEl i x).pending = s.pending := rfl
@[simp] theorem setEl_resp (s : State) (i : Nat) (x : ElemState) : (s.setEl i x).resp = s.resp := rfl
@[simp] theorem setEl_free (s : State) (i : Nat) (x : ElemState) : (s.setEl i x).free = s.free := rfl
@[simp] theorem setEl_regs (s : State) (i : Nat) (x : ElemState) : (s.setEl i x).regs = s.regs := rfl
@[simp] theorem setEl_mem (s : State) (i : Nat) (x : ElemState) : (s.setEl i x).mem = s.mem := rfl
@[simp] theorem setEl_poison (s : State) (i : Nat) (x : ElemState) : (s.setEl i x).poison = s.poison := rfl
@[simp] theorem setEl_time (s : State) (i : Nat) (x : ElemState) : (s.setEl i x).time = s.time := rfl
@[simp] theorem setEl_axis (s : State) (i : Nat) (x : ElemState) : (s.setEl i x).axis = s.axis := rfl
@[simp] theorem setEl_conv (s : State) (i : Nat) (x : ElemState) : (s.setEl i x).conv = s.conv := rfl
@[simp] theorem setEl_feed (s : State) (i : Nat) (x : ElemState) : (s.setEl i x).feed = s.feed := rfl
@[simp] theorem setEl_faultSeq (s : State) (i : Nat) (x : ElemState) : (s.setEl i x).faultSeq = s.faultSeq := rfl
@[simp] theorem setEl_faultQueue (s : State) (i : Nat) (x : ElemState) : (s.setEl i x).faultQueue = s.faultQueue := rfl
@[simp] theorem setEl_pwm (s : State) (i : Nat) (x : ElemState) : (s.setEl i x).pwm = s.pwm := rfl
@[simp] theorem setEl_ballScan (s : State) (i : Nat) (x : ElemState) : (s.setEl i x).ballScan = s.ballScan := rfl
@[simp] theorem setEl_teth (s : State) (i : Nat) (x : ElemState) : (s.setEl i x).teth = s.teth := rfl
@[simp] theorem setEl_ports (s : State) (i : Nat) (x : ElemState) : (s.setEl i x).ports = s.ports := rfl
@[simp] theorem setEl_dma (s : State) (i : Nat) (x : ElemState) : (s.setEl i x).dma = s.dma := rfl
@[simp] theorem setEl_flash (s : State) (i : Nat) (x : ElemState) : (s.setEl i x).flash = s.flash := rfl
@[simp] theorem setEl_sec (s : State) (i : Nat) (x : ElemState) : (s.setEl i x).sec = s.sec := rfl
@[simp] theorem setEl_power (s : State) (i : Nat) (x : ElemState) : (s.setEl i x).power = s.power := rfl
@[simp] theorem setEl_age (s : State) (i : Nat) (x : ElemState) : (s.setEl i x).age = s.age := rfl
@[simp] theorem setEl_test (s : State) (i : Nat) (x : ElemState) : (s.setEl i x).test = s.test := rfl
@[simp] theorem setEl_dbg (s : State) (i : Nat) (x : ElemState) : (s.setEl i x).dbg = s.dbg := rfl
@[simp] theorem setEl_rg (s : State) (i : Nat) (x : ElemState) (k : Nat) : (s.setEl i x).rg k = s.rg k := rfl
@[simp] theorem setEl_slot (s : State) (i : Nat) (x : ElemState) (k : Nat) : (s.setEl i x).slot k = s.slot k := rfl
@[simp] theorem setEl_timer (s : State) (i : Nat) (x : ElemState) (k : Nat) : (s.setEl i x).timer k = s.timer k := rfl
@[simp] theorem setEl_bank (s : State) (i : Nat) (x : ElemState) (k : Nat) : (s.setEl i x).bank k = s.bank k := rfl
@[simp] theorem setEl_ctx (s : State) (i : Nat) (x : ElemState) (k : Nat) : (s.setEl i x).ctx k = s.ctx k := rfl
@[simp] theorem setEl_ax (s : State) (i : Nat) (x : ElemState) (k : Nat) : (s.setEl i x).ax k = s.ax k := rfl
@[simp] theorem setEl_prog (s : State) (i : Nat) (x : ElemState) (k : Nat) : (s.setEl i x).prog k = s.prog k := rfl
@[simp] theorem setEl_cv (s : State) (i : Nat) (x : ElemState) (k : Nat) : (s.setEl i x).cv k = s.cv k := rfl
@[simp] theorem setEl_br (s : State) (i : Nat) (x : ElemState) (k : Nat) : (s.setEl i x).br k = s.br k := rfl
@[simp] theorem setEl_fb (s : State) (i : Nat) (x : ElemState) (k : Nat) : (s.setEl i x).fb k = s.fb k := rfl
@[simp] theorem setEl_senc (s : State) (i : Nat) (x : ElemState) (k : Nat) : (s.setEl i x).senc k = s.senc k := rfl
@[simp] theorem setEl_trk (s : State) (i : Nat) (x : ElemState) (k : Nat) : (s.setEl i x).trk k = s.trk k := rfl
@[simp] theorem setEl_mark (s : State) (i : Nat) (x : ElemState) (k : Nat) : (s.setEl i x).mark k = s.mark k := rfl
@[simp] theorem setEl_link (s : State) (i : Nat) (x : ElemState) (k : Nat) : (s.setEl i x).link k = s.link k := rfl
@[simp] theorem setEl_girth (s : State) (i : Nat) (x : ElemState) (k : Nat) : (s.setEl i x).girth k = s.girth k := rfl
@[simp] theorem setEl_eth (s : State) (i : Nat) (x : ElemState) (k : Nat) : (s.setEl i x).eth k = s.eth k := rfl
@[simp] theorem setEl_chan (s : State) (i : Nat) (x : ElemState) (k : Nat) : (s.setEl i x).chan k = s.chan k := rfl
@[simp] theorem setEl_fop (s : State) (i : Nat) (x : ElemState) (k : Nat) : (s.setEl i x).fop k = s.fop k := rfl
@[simp] theorem setEl_wdg (s : State) (i : Nat) (x : ElemState) (k : Nat) : (s.setEl i x).wdg k = s.wdg k := rfl
@[simp] theorem setEl_unit (s : State) (i : Nat) (x : ElemState) (k : Nat) : (s.setEl i x).unit_ k = s.unit_ k := rfl

/-! ### `setSlot` -/

@[simp] theorem setSlot_pending (s : State) (i : Nat) (x : Slot) : (s.setSlot i x).pending = s.pending := rfl
@[simp] theorem setSlot_resp (s : State) (i : Nat) (x : Slot) : (s.setSlot i x).resp = s.resp := rfl
@[simp] theorem setSlot_free (s : State) (i : Nat) (x : Slot) : (s.setSlot i x).free = s.free := rfl
@[simp] theorem setSlot_regs (s : State) (i : Nat) (x : Slot) : (s.setSlot i x).regs = s.regs := rfl
@[simp] theorem setSlot_mem (s : State) (i : Nat) (x : Slot) : (s.setSlot i x).mem = s.mem := rfl
@[simp] theorem setSlot_poison (s : State) (i : Nat) (x : Slot) : (s.setSlot i x).poison = s.poison := rfl
@[simp] theorem setSlot_core (s : State) (i : Nat) (x : Slot) : (s.setSlot i x).core = s.core := rfl
@[simp] theorem setSlot_axis (s : State) (i : Nat) (x : Slot) : (s.setSlot i x).axis = s.axis := rfl
@[simp] theorem setSlot_conv (s : State) (i : Nat) (x : Slot) : (s.setSlot i x).conv = s.conv := rfl
@[simp] theorem setSlot_feed (s : State) (i : Nat) (x : Slot) : (s.setSlot i x).feed = s.feed := rfl
@[simp] theorem setSlot_faultSeq (s : State) (i : Nat) (x : Slot) : (s.setSlot i x).faultSeq = s.faultSeq := rfl
@[simp] theorem setSlot_faultQueue (s : State) (i : Nat) (x : Slot) : (s.setSlot i x).faultQueue = s.faultQueue := rfl
@[simp] theorem setSlot_pwm (s : State) (i : Nat) (x : Slot) : (s.setSlot i x).pwm = s.pwm := rfl
@[simp] theorem setSlot_ballScan (s : State) (i : Nat) (x : Slot) : (s.setSlot i x).ballScan = s.ballScan := rfl
@[simp] theorem setSlot_teth (s : State) (i : Nat) (x : Slot) : (s.setSlot i x).teth = s.teth := rfl
@[simp] theorem setSlot_ports (s : State) (i : Nat) (x : Slot) : (s.setSlot i x).ports = s.ports := rfl
@[simp] theorem setSlot_dma (s : State) (i : Nat) (x : Slot) : (s.setSlot i x).dma = s.dma := rfl
@[simp] theorem setSlot_flash (s : State) (i : Nat) (x : Slot) : (s.setSlot i x).flash = s.flash := rfl
@[simp] theorem setSlot_sec (s : State) (i : Nat) (x : Slot) : (s.setSlot i x).sec = s.sec := rfl
@[simp] theorem setSlot_power (s : State) (i : Nat) (x : Slot) : (s.setSlot i x).power = s.power := rfl
@[simp] theorem setSlot_age (s : State) (i : Nat) (x : Slot) : (s.setSlot i x).age = s.age := rfl
@[simp] theorem setSlot_test (s : State) (i : Nat) (x : Slot) : (s.setSlot i x).test = s.test := rfl
@[simp] theorem setSlot_dbg (s : State) (i : Nat) (x : Slot) : (s.setSlot i x).dbg = s.dbg := rfl
@[simp] theorem setSlot_rg (s : State) (i : Nat) (x : Slot) (k : Nat) : (s.setSlot i x).rg k = s.rg k := rfl
@[simp] theorem setSlot_el (s : State) (i : Nat) (x : Slot) (k : Nat) : (s.setSlot i x).el k = s.el k := rfl
@[simp] theorem setSlot_timer (s : State) (i : Nat) (x : Slot) (k : Nat) : (s.setSlot i x).timer k = s.timer k := rfl
@[simp] theorem setSlot_bank (s : State) (i : Nat) (x : Slot) (k : Nat) : (s.setSlot i x).bank k = s.bank k := rfl
@[simp] theorem setSlot_ctx (s : State) (i : Nat) (x : Slot) (k : Nat) : (s.setSlot i x).ctx k = s.ctx k := rfl
@[simp] theorem setSlot_ax (s : State) (i : Nat) (x : Slot) (k : Nat) : (s.setSlot i x).ax k = s.ax k := rfl
@[simp] theorem setSlot_prog (s : State) (i : Nat) (x : Slot) (k : Nat) : (s.setSlot i x).prog k = s.prog k := rfl
@[simp] theorem setSlot_cv (s : State) (i : Nat) (x : Slot) (k : Nat) : (s.setSlot i x).cv k = s.cv k := rfl
@[simp] theorem setSlot_br (s : State) (i : Nat) (x : Slot) (k : Nat) : (s.setSlot i x).br k = s.br k := rfl
@[simp] theorem setSlot_fb (s : State) (i : Nat) (x : Slot) (k : Nat) : (s.setSlot i x).fb k = s.fb k := rfl
@[simp] theorem setSlot_senc (s : State) (i : Nat) (x : Slot) (k : Nat) : (s.setSlot i x).senc k = s.senc k := rfl
@[simp] theorem setSlot_trk (s : State) (i : Nat) (x : Slot) (k : Nat) : (s.setSlot i x).trk k = s.trk k := rfl
@[simp] theorem setSlot_mark (s : State) (i : Nat) (x : Slot) (k : Nat) : (s.setSlot i x).mark k = s.mark k := rfl
@[simp] theorem setSlot_link (s : State) (i : Nat) (x : Slot) (k : Nat) : (s.setSlot i x).link k = s.link k := rfl
@[simp] theorem setSlot_girth (s : State) (i : Nat) (x : Slot) (k : Nat) : (s.setSlot i x).girth k = s.girth k := rfl
@[simp] theorem setSlot_eth (s : State) (i : Nat) (x : Slot) (k : Nat) : (s.setSlot i x).eth k = s.eth k := rfl
@[simp] theorem setSlot_chan (s : State) (i : Nat) (x : Slot) (k : Nat) : (s.setSlot i x).chan k = s.chan k := rfl
@[simp] theorem setSlot_fop (s : State) (i : Nat) (x : Slot) (k : Nat) : (s.setSlot i x).fop k = s.fop k := rfl
@[simp] theorem setSlot_wdg (s : State) (i : Nat) (x : Slot) (k : Nat) : (s.setSlot i x).wdg k = s.wdg k := rfl
@[simp] theorem setSlot_unit (s : State) (i : Nat) (x : Slot) (k : Nat) : (s.setSlot i x).unit_ k = s.unit_ k := rfl

/-! ### `setTimer` -/

@[simp] theorem setTimer_pending (s : State) (i : Nat) (x : Timer) : (s.setTimer i x).pending = s.pending := rfl
@[simp] theorem setTimer_resp (s : State) (i : Nat) (x : Timer) : (s.setTimer i x).resp = s.resp := rfl
@[simp] theorem setTimer_free (s : State) (i : Nat) (x : Timer) : (s.setTimer i x).free = s.free := rfl
@[simp] theorem setTimer_regs (s : State) (i : Nat) (x : Timer) : (s.setTimer i x).regs = s.regs := rfl
@[simp] theorem setTimer_mem (s : State) (i : Nat) (x : Timer) : (s.setTimer i x).mem = s.mem := rfl
@[simp] theorem setTimer_poison (s : State) (i : Nat) (x : Timer) : (s.setTimer i x).poison = s.poison := rfl
@[simp] theorem setTimer_core (s : State) (i : Nat) (x : Timer) : (s.setTimer i x).core = s.core := rfl
@[simp] theorem setTimer_axis (s : State) (i : Nat) (x : Timer) : (s.setTimer i x).axis = s.axis := rfl
@[simp] theorem setTimer_conv (s : State) (i : Nat) (x : Timer) : (s.setTimer i x).conv = s.conv := rfl
@[simp] theorem setTimer_feed (s : State) (i : Nat) (x : Timer) : (s.setTimer i x).feed = s.feed := rfl
@[simp] theorem setTimer_faultSeq (s : State) (i : Nat) (x : Timer) : (s.setTimer i x).faultSeq = s.faultSeq := rfl
@[simp] theorem setTimer_faultQueue (s : State) (i : Nat) (x : Timer) : (s.setTimer i x).faultQueue = s.faultQueue := rfl
@[simp] theorem setTimer_pwm (s : State) (i : Nat) (x : Timer) : (s.setTimer i x).pwm = s.pwm := rfl
@[simp] theorem setTimer_ballScan (s : State) (i : Nat) (x : Timer) : (s.setTimer i x).ballScan = s.ballScan := rfl
@[simp] theorem setTimer_teth (s : State) (i : Nat) (x : Timer) : (s.setTimer i x).teth = s.teth := rfl
@[simp] theorem setTimer_ports (s : State) (i : Nat) (x : Timer) : (s.setTimer i x).ports = s.ports := rfl
@[simp] theorem setTimer_dma (s : State) (i : Nat) (x : Timer) : (s.setTimer i x).dma = s.dma := rfl
@[simp] theorem setTimer_flash (s : State) (i : Nat) (x : Timer) : (s.setTimer i x).flash = s.flash := rfl
@[simp] theorem setTimer_sec (s : State) (i : Nat) (x : Timer) : (s.setTimer i x).sec = s.sec := rfl
@[simp] theorem setTimer_power (s : State) (i : Nat) (x : Timer) : (s.setTimer i x).power = s.power := rfl
@[simp] theorem setTimer_age (s : State) (i : Nat) (x : Timer) : (s.setTimer i x).age = s.age := rfl
@[simp] theorem setTimer_test (s : State) (i : Nat) (x : Timer) : (s.setTimer i x).test = s.test := rfl
@[simp] theorem setTimer_dbg (s : State) (i : Nat) (x : Timer) : (s.setTimer i x).dbg = s.dbg := rfl
@[simp] theorem setTimer_rg (s : State) (i : Nat) (x : Timer) (k : Nat) : (s.setTimer i x).rg k = s.rg k := rfl
@[simp] theorem setTimer_el (s : State) (i : Nat) (x : Timer) (k : Nat) : (s.setTimer i x).el k = s.el k := rfl
@[simp] theorem setTimer_slot (s : State) (i : Nat) (x : Timer) (k : Nat) : (s.setTimer i x).slot k = s.slot k := rfl
@[simp] theorem setTimer_bank (s : State) (i : Nat) (x : Timer) (k : Nat) : (s.setTimer i x).bank k = s.bank k := rfl
@[simp] theorem setTimer_ctx (s : State) (i : Nat) (x : Timer) (k : Nat) : (s.setTimer i x).ctx k = s.ctx k := rfl
@[simp] theorem setTimer_ax (s : State) (i : Nat) (x : Timer) (k : Nat) : (s.setTimer i x).ax k = s.ax k := rfl
@[simp] theorem setTimer_prog (s : State) (i : Nat) (x : Timer) (k : Nat) : (s.setTimer i x).prog k = s.prog k := rfl
@[simp] theorem setTimer_cv (s : State) (i : Nat) (x : Timer) (k : Nat) : (s.setTimer i x).cv k = s.cv k := rfl
@[simp] theorem setTimer_br (s : State) (i : Nat) (x : Timer) (k : Nat) : (s.setTimer i x).br k = s.br k := rfl
@[simp] theorem setTimer_fb (s : State) (i : Nat) (x : Timer) (k : Nat) : (s.setTimer i x).fb k = s.fb k := rfl
@[simp] theorem setTimer_senc (s : State) (i : Nat) (x : Timer) (k : Nat) : (s.setTimer i x).senc k = s.senc k := rfl
@[simp] theorem setTimer_trk (s : State) (i : Nat) (x : Timer) (k : Nat) : (s.setTimer i x).trk k = s.trk k := rfl
@[simp] theorem setTimer_mark (s : State) (i : Nat) (x : Timer) (k : Nat) : (s.setTimer i x).mark k = s.mark k := rfl
@[simp] theorem setTimer_link (s : State) (i : Nat) (x : Timer) (k : Nat) : (s.setTimer i x).link k = s.link k := rfl
@[simp] theorem setTimer_girth (s : State) (i : Nat) (x : Timer) (k : Nat) : (s.setTimer i x).girth k = s.girth k := rfl
@[simp] theorem setTimer_eth (s : State) (i : Nat) (x : Timer) (k : Nat) : (s.setTimer i x).eth k = s.eth k := rfl
@[simp] theorem setTimer_chan (s : State) (i : Nat) (x : Timer) (k : Nat) : (s.setTimer i x).chan k = s.chan k := rfl
@[simp] theorem setTimer_fop (s : State) (i : Nat) (x : Timer) (k : Nat) : (s.setTimer i x).fop k = s.fop k := rfl
@[simp] theorem setTimer_wdg (s : State) (i : Nat) (x : Timer) (k : Nat) : (s.setTimer i x).wdg k = s.wdg k := rfl
@[simp] theorem setTimer_unit (s : State) (i : Nat) (x : Timer) (k : Nat) : (s.setTimer i x).unit_ k = s.unit_ k := rfl

/-! ### `setBank` -/

@[simp] theorem setBank_pending (s : State) (i : Nat) (x : BankSt) : (s.setBank i x).pending = s.pending := rfl
@[simp] theorem setBank_resp (s : State) (i : Nat) (x : BankSt) : (s.setBank i x).resp = s.resp := rfl
@[simp] theorem setBank_free (s : State) (i : Nat) (x : BankSt) : (s.setBank i x).free = s.free := rfl
@[simp] theorem setBank_regs (s : State) (i : Nat) (x : BankSt) : (s.setBank i x).regs = s.regs := rfl
@[simp] theorem setBank_mem (s : State) (i : Nat) (x : BankSt) : (s.setBank i x).mem = s.mem := rfl
@[simp] theorem setBank_poison (s : State) (i : Nat) (x : BankSt) : (s.setBank i x).poison = s.poison := rfl
@[simp] theorem setBank_time (s : State) (i : Nat) (x : BankSt) : (s.setBank i x).time = s.time := rfl
@[simp] theorem setBank_core (s : State) (i : Nat) (x : BankSt) : (s.setBank i x).core = s.core := rfl
@[simp] theorem setBank_conv (s : State) (i : Nat) (x : BankSt) : (s.setBank i x).conv = s.conv := rfl
@[simp] theorem setBank_feed (s : State) (i : Nat) (x : BankSt) : (s.setBank i x).feed = s.feed := rfl
@[simp] theorem setBank_faultSeq (s : State) (i : Nat) (x : BankSt) : (s.setBank i x).faultSeq = s.faultSeq := rfl
@[simp] theorem setBank_faultQueue (s : State) (i : Nat) (x : BankSt) : (s.setBank i x).faultQueue = s.faultQueue := rfl
@[simp] theorem setBank_pwm (s : State) (i : Nat) (x : BankSt) : (s.setBank i x).pwm = s.pwm := rfl
@[simp] theorem setBank_ballScan (s : State) (i : Nat) (x : BankSt) : (s.setBank i x).ballScan = s.ballScan := rfl
@[simp] theorem setBank_teth (s : State) (i : Nat) (x : BankSt) : (s.setBank i x).teth = s.teth := rfl
@[simp] theorem setBank_ports (s : State) (i : Nat) (x : BankSt) : (s.setBank i x).ports = s.ports := rfl
@[simp] theorem setBank_dma (s : State) (i : Nat) (x : BankSt) : (s.setBank i x).dma = s.dma := rfl
@[simp] theorem setBank_flash (s : State) (i : Nat) (x : BankSt) : (s.setBank i x).flash = s.flash := rfl
@[simp] theorem setBank_sec (s : State) (i : Nat) (x : BankSt) : (s.setBank i x).sec = s.sec := rfl
@[simp] theorem setBank_power (s : State) (i : Nat) (x : BankSt) : (s.setBank i x).power = s.power := rfl
@[simp] theorem setBank_age (s : State) (i : Nat) (x : BankSt) : (s.setBank i x).age = s.age := rfl
@[simp] theorem setBank_test (s : State) (i : Nat) (x : BankSt) : (s.setBank i x).test = s.test := rfl
@[simp] theorem setBank_dbg (s : State) (i : Nat) (x : BankSt) : (s.setBank i x).dbg = s.dbg := rfl
@[simp] theorem setBank_rg (s : State) (i : Nat) (x : BankSt) (k : Nat) : (s.setBank i x).rg k = s.rg k := rfl
@[simp] theorem setBank_el (s : State) (i : Nat) (x : BankSt) (k : Nat) : (s.setBank i x).el k = s.el k := rfl
@[simp] theorem setBank_slot (s : State) (i : Nat) (x : BankSt) (k : Nat) : (s.setBank i x).slot k = s.slot k := rfl
@[simp] theorem setBank_timer (s : State) (i : Nat) (x : BankSt) (k : Nat) : (s.setBank i x).timer k = s.timer k := rfl
@[simp] theorem setBank_ctx (s : State) (i : Nat) (x : BankSt) (k : Nat) : (s.setBank i x).ctx k = s.ctx k := rfl
@[simp] theorem setBank_ax (s : State) (i : Nat) (x : BankSt) (k : Nat) : (s.setBank i x).ax k = s.ax k := rfl
@[simp] theorem setBank_prog (s : State) (i : Nat) (x : BankSt) (k : Nat) : (s.setBank i x).prog k = s.prog k := rfl
@[simp] theorem setBank_cv (s : State) (i : Nat) (x : BankSt) (k : Nat) : (s.setBank i x).cv k = s.cv k := rfl
@[simp] theorem setBank_br (s : State) (i : Nat) (x : BankSt) (k : Nat) : (s.setBank i x).br k = s.br k := rfl
@[simp] theorem setBank_fb (s : State) (i : Nat) (x : BankSt) (k : Nat) : (s.setBank i x).fb k = s.fb k := rfl
@[simp] theorem setBank_senc (s : State) (i : Nat) (x : BankSt) (k : Nat) : (s.setBank i x).senc k = s.senc k := rfl
@[simp] theorem setBank_trk (s : State) (i : Nat) (x : BankSt) (k : Nat) : (s.setBank i x).trk k = s.trk k := rfl
@[simp] theorem setBank_mark (s : State) (i : Nat) (x : BankSt) (k : Nat) : (s.setBank i x).mark k = s.mark k := rfl
@[simp] theorem setBank_link (s : State) (i : Nat) (x : BankSt) (k : Nat) : (s.setBank i x).link k = s.link k := rfl
@[simp] theorem setBank_girth (s : State) (i : Nat) (x : BankSt) (k : Nat) : (s.setBank i x).girth k = s.girth k := rfl
@[simp] theorem setBank_eth (s : State) (i : Nat) (x : BankSt) (k : Nat) : (s.setBank i x).eth k = s.eth k := rfl
@[simp] theorem setBank_chan (s : State) (i : Nat) (x : BankSt) (k : Nat) : (s.setBank i x).chan k = s.chan k := rfl
@[simp] theorem setBank_fop (s : State) (i : Nat) (x : BankSt) (k : Nat) : (s.setBank i x).fop k = s.fop k := rfl
@[simp] theorem setBank_wdg (s : State) (i : Nat) (x : BankSt) (k : Nat) : (s.setBank i x).wdg k = s.wdg k := rfl
@[simp] theorem setBank_unit (s : State) (i : Nat) (x : BankSt) (k : Nat) : (s.setBank i x).unit_ k = s.unit_ k := rfl

/-! ### `setCtx` -/

@[simp] theorem setCtx_pending (s : State) (i : Nat) (x : CtxSt) : (s.setCtx i x).pending = s.pending := rfl
@[simp] theorem setCtx_resp (s : State) (i : Nat) (x : CtxSt) : (s.setCtx i x).resp = s.resp := rfl
@[simp] theorem setCtx_free (s : State) (i : Nat) (x : CtxSt) : (s.setCtx i x).free = s.free := rfl
@[simp] theorem setCtx_regs (s : State) (i : Nat) (x : CtxSt) : (s.setCtx i x).regs = s.regs := rfl
@[simp] theorem setCtx_mem (s : State) (i : Nat) (x : CtxSt) : (s.setCtx i x).mem = s.mem := rfl
@[simp] theorem setCtx_poison (s : State) (i : Nat) (x : CtxSt) : (s.setCtx i x).poison = s.poison := rfl
@[simp] theorem setCtx_time (s : State) (i : Nat) (x : CtxSt) : (s.setCtx i x).time = s.time := rfl
@[simp] theorem setCtx_core (s : State) (i : Nat) (x : CtxSt) : (s.setCtx i x).core = s.core := rfl
@[simp] theorem setCtx_conv (s : State) (i : Nat) (x : CtxSt) : (s.setCtx i x).conv = s.conv := rfl
@[simp] theorem setCtx_feed (s : State) (i : Nat) (x : CtxSt) : (s.setCtx i x).feed = s.feed := rfl
@[simp] theorem setCtx_faultSeq (s : State) (i : Nat) (x : CtxSt) : (s.setCtx i x).faultSeq = s.faultSeq := rfl
@[simp] theorem setCtx_faultQueue (s : State) (i : Nat) (x : CtxSt) : (s.setCtx i x).faultQueue = s.faultQueue := rfl
@[simp] theorem setCtx_pwm (s : State) (i : Nat) (x : CtxSt) : (s.setCtx i x).pwm = s.pwm := rfl
@[simp] theorem setCtx_ballScan (s : State) (i : Nat) (x : CtxSt) : (s.setCtx i x).ballScan = s.ballScan := rfl
@[simp] theorem setCtx_teth (s : State) (i : Nat) (x : CtxSt) : (s.setCtx i x).teth = s.teth := rfl
@[simp] theorem setCtx_ports (s : State) (i : Nat) (x : CtxSt) : (s.setCtx i x).ports = s.ports := rfl
@[simp] theorem setCtx_dma (s : State) (i : Nat) (x : CtxSt) : (s.setCtx i x).dma = s.dma := rfl
@[simp] theorem setCtx_flash (s : State) (i : Nat) (x : CtxSt) : (s.setCtx i x).flash = s.flash := rfl
@[simp] theorem setCtx_sec (s : State) (i : Nat) (x : CtxSt) : (s.setCtx i x).sec = s.sec := rfl
@[simp] theorem setCtx_power (s : State) (i : Nat) (x : CtxSt) : (s.setCtx i x).power = s.power := rfl
@[simp] theorem setCtx_age (s : State) (i : Nat) (x : CtxSt) : (s.setCtx i x).age = s.age := rfl
@[simp] theorem setCtx_test (s : State) (i : Nat) (x : CtxSt) : (s.setCtx i x).test = s.test := rfl
@[simp] theorem setCtx_dbg (s : State) (i : Nat) (x : CtxSt) : (s.setCtx i x).dbg = s.dbg := rfl
@[simp] theorem setCtx_rg (s : State) (i : Nat) (x : CtxSt) (k : Nat) : (s.setCtx i x).rg k = s.rg k := rfl
@[simp] theorem setCtx_el (s : State) (i : Nat) (x : CtxSt) (k : Nat) : (s.setCtx i x).el k = s.el k := rfl
@[simp] theorem setCtx_slot (s : State) (i : Nat) (x : CtxSt) (k : Nat) : (s.setCtx i x).slot k = s.slot k := rfl
@[simp] theorem setCtx_timer (s : State) (i : Nat) (x : CtxSt) (k : Nat) : (s.setCtx i x).timer k = s.timer k := rfl
@[simp] theorem setCtx_bank (s : State) (i : Nat) (x : CtxSt) (k : Nat) : (s.setCtx i x).bank k = s.bank k := rfl
@[simp] theorem setCtx_ax (s : State) (i : Nat) (x : CtxSt) (k : Nat) : (s.setCtx i x).ax k = s.ax k := rfl
@[simp] theorem setCtx_prog (s : State) (i : Nat) (x : CtxSt) (k : Nat) : (s.setCtx i x).prog k = s.prog k := rfl
@[simp] theorem setCtx_cv (s : State) (i : Nat) (x : CtxSt) (k : Nat) : (s.setCtx i x).cv k = s.cv k := rfl
@[simp] theorem setCtx_br (s : State) (i : Nat) (x : CtxSt) (k : Nat) : (s.setCtx i x).br k = s.br k := rfl
@[simp] theorem setCtx_fb (s : State) (i : Nat) (x : CtxSt) (k : Nat) : (s.setCtx i x).fb k = s.fb k := rfl
@[simp] theorem setCtx_senc (s : State) (i : Nat) (x : CtxSt) (k : Nat) : (s.setCtx i x).senc k = s.senc k := rfl
@[simp] theorem setCtx_trk (s : State) (i : Nat) (x : CtxSt) (k : Nat) : (s.setCtx i x).trk k = s.trk k := rfl
@[simp] theorem setCtx_mark (s : State) (i : Nat) (x : CtxSt) (k : Nat) : (s.setCtx i x).mark k = s.mark k := rfl
@[simp] theorem setCtx_link (s : State) (i : Nat) (x : CtxSt) (k : Nat) : (s.setCtx i x).link k = s.link k := rfl
@[simp] theorem setCtx_girth (s : State) (i : Nat) (x : CtxSt) (k : Nat) : (s.setCtx i x).girth k = s.girth k := rfl
@[simp] theorem setCtx_eth (s : State) (i : Nat) (x : CtxSt) (k : Nat) : (s.setCtx i x).eth k = s.eth k := rfl
@[simp] theorem setCtx_chan (s : State) (i : Nat) (x : CtxSt) (k : Nat) : (s.setCtx i x).chan k = s.chan k := rfl
@[simp] theorem setCtx_fop (s : State) (i : Nat) (x : CtxSt) (k : Nat) : (s.setCtx i x).fop k = s.fop k := rfl
@[simp] theorem setCtx_wdg (s : State) (i : Nat) (x : CtxSt) (k : Nat) : (s.setCtx i x).wdg k = s.wdg k := rfl
@[simp] theorem setCtx_unit (s : State) (i : Nat) (x : CtxSt) (k : Nat) : (s.setCtx i x).unit_ k = s.unit_ k := rfl

/-! ### `setAx` -/

@[simp] theorem setAx_pending (s : State) (i : Nat) (x : AxisSt) : (s.setAx i x).pending = s.pending := rfl
@[simp] theorem setAx_resp (s : State) (i : Nat) (x : AxisSt) : (s.setAx i x).resp = s.resp := rfl
@[simp] theorem setAx_free (s : State) (i : Nat) (x : AxisSt) : (s.setAx i x).free = s.free := rfl
@[simp] theorem setAx_regs (s : State) (i : Nat) (x : AxisSt) : (s.setAx i x).regs = s.regs := rfl
@[simp] theorem setAx_mem (s : State) (i : Nat) (x : AxisSt) : (s.setAx i x).mem = s.mem := rfl
@[simp] theorem setAx_poison (s : State) (i : Nat) (x : AxisSt) : (s.setAx i x).poison = s.poison := rfl
@[simp] theorem setAx_time (s : State) (i : Nat) (x : AxisSt) : (s.setAx i x).time = s.time := rfl
@[simp] theorem setAx_core (s : State) (i : Nat) (x : AxisSt) : (s.setAx i x).core = s.core := rfl
@[simp] theorem setAx_conv (s : State) (i : Nat) (x : AxisSt) : (s.setAx i x).conv = s.conv := rfl
@[simp] theorem setAx_feed (s : State) (i : Nat) (x : AxisSt) : (s.setAx i x).feed = s.feed := rfl
@[simp] theorem setAx_faultSeq (s : State) (i : Nat) (x : AxisSt) : (s.setAx i x).faultSeq = s.faultSeq := rfl
@[simp] theorem setAx_faultQueue (s : State) (i : Nat) (x : AxisSt) : (s.setAx i x).faultQueue = s.faultQueue := rfl
@[simp] theorem setAx_pwm (s : State) (i : Nat) (x : AxisSt) : (s.setAx i x).pwm = s.pwm := rfl
@[simp] theorem setAx_ballScan (s : State) (i : Nat) (x : AxisSt) : (s.setAx i x).ballScan = s.ballScan := rfl
@[simp] theorem setAx_teth (s : State) (i : Nat) (x : AxisSt) : (s.setAx i x).teth = s.teth := rfl
@[simp] theorem setAx_ports (s : State) (i : Nat) (x : AxisSt) : (s.setAx i x).ports = s.ports := rfl
@[simp] theorem setAx_dma (s : State) (i : Nat) (x : AxisSt) : (s.setAx i x).dma = s.dma := rfl
@[simp] theorem setAx_flash (s : State) (i : Nat) (x : AxisSt) : (s.setAx i x).flash = s.flash := rfl
@[simp] theorem setAx_sec (s : State) (i : Nat) (x : AxisSt) : (s.setAx i x).sec = s.sec := rfl
@[simp] theorem setAx_power (s : State) (i : Nat) (x : AxisSt) : (s.setAx i x).power = s.power := rfl
@[simp] theorem setAx_age (s : State) (i : Nat) (x : AxisSt) : (s.setAx i x).age = s.age := rfl
@[simp] theorem setAx_test (s : State) (i : Nat) (x : AxisSt) : (s.setAx i x).test = s.test := rfl
@[simp] theorem setAx_dbg (s : State) (i : Nat) (x : AxisSt) : (s.setAx i x).dbg = s.dbg := rfl
@[simp] theorem setAx_rg (s : State) (i : Nat) (x : AxisSt) (k : Nat) : (s.setAx i x).rg k = s.rg k := rfl
@[simp] theorem setAx_el (s : State) (i : Nat) (x : AxisSt) (k : Nat) : (s.setAx i x).el k = s.el k := rfl
@[simp] theorem setAx_slot (s : State) (i : Nat) (x : AxisSt) (k : Nat) : (s.setAx i x).slot k = s.slot k := rfl
@[simp] theorem setAx_timer (s : State) (i : Nat) (x : AxisSt) (k : Nat) : (s.setAx i x).timer k = s.timer k := rfl
@[simp] theorem setAx_bank (s : State) (i : Nat) (x : AxisSt) (k : Nat) : (s.setAx i x).bank k = s.bank k := rfl
@[simp] theorem setAx_ctx (s : State) (i : Nat) (x : AxisSt) (k : Nat) : (s.setAx i x).ctx k = s.ctx k := rfl
@[simp] theorem setAx_prog (s : State) (i : Nat) (x : AxisSt) (k : Nat) : (s.setAx i x).prog k = s.prog k := rfl
@[simp] theorem setAx_cv (s : State) (i : Nat) (x : AxisSt) (k : Nat) : (s.setAx i x).cv k = s.cv k := rfl
@[simp] theorem setAx_br (s : State) (i : Nat) (x : AxisSt) (k : Nat) : (s.setAx i x).br k = s.br k := rfl
@[simp] theorem setAx_fb (s : State) (i : Nat) (x : AxisSt) (k : Nat) : (s.setAx i x).fb k = s.fb k := rfl
@[simp] theorem setAx_senc (s : State) (i : Nat) (x : AxisSt) (k : Nat) : (s.setAx i x).senc k = s.senc k := rfl
@[simp] theorem setAx_trk (s : State) (i : Nat) (x : AxisSt) (k : Nat) : (s.setAx i x).trk k = s.trk k := rfl
@[simp] theorem setAx_mark (s : State) (i : Nat) (x : AxisSt) (k : Nat) : (s.setAx i x).mark k = s.mark k := rfl
@[simp] theorem setAx_link (s : State) (i : Nat) (x : AxisSt) (k : Nat) : (s.setAx i x).link k = s.link k := rfl
@[simp] theorem setAx_girth (s : State) (i : Nat) (x : AxisSt) (k : Nat) : (s.setAx i x).girth k = s.girth k := rfl
@[simp] theorem setAx_eth (s : State) (i : Nat) (x : AxisSt) (k : Nat) : (s.setAx i x).eth k = s.eth k := rfl
@[simp] theorem setAx_chan (s : State) (i : Nat) (x : AxisSt) (k : Nat) : (s.setAx i x).chan k = s.chan k := rfl
@[simp] theorem setAx_fop (s : State) (i : Nat) (x : AxisSt) (k : Nat) : (s.setAx i x).fop k = s.fop k := rfl
@[simp] theorem setAx_wdg (s : State) (i : Nat) (x : AxisSt) (k : Nat) : (s.setAx i x).wdg k = s.wdg k := rfl
@[simp] theorem setAx_unit (s : State) (i : Nat) (x : AxisSt) (k : Nat) : (s.setAx i x).unit_ k = s.unit_ k := rfl

/-! ### `setProg` -/

@[simp] theorem setProg_pending (s : State) (i : Nat) (x : Option Prog) : (s.setProg i x).pending = s.pending := rfl
@[simp] theorem setProg_resp (s : State) (i : Nat) (x : Option Prog) : (s.setProg i x).resp = s.resp := rfl
@[simp] theorem setProg_free (s : State) (i : Nat) (x : Option Prog) : (s.setProg i x).free = s.free := rfl
@[simp] theorem setProg_regs (s : State) (i : Nat) (x : Option Prog) : (s.setProg i x).regs = s.regs := rfl
@[simp] theorem setProg_mem (s : State) (i : Nat) (x : Option Prog) : (s.setProg i x).mem = s.mem := rfl
@[simp] theorem setProg_poison (s : State) (i : Nat) (x : Option Prog) : (s.setProg i x).poison = s.poison := rfl
@[simp] theorem setProg_time (s : State) (i : Nat) (x : Option Prog) : (s.setProg i x).time = s.time := rfl
@[simp] theorem setProg_core (s : State) (i : Nat) (x : Option Prog) : (s.setProg i x).core = s.core := rfl
@[simp] theorem setProg_conv (s : State) (i : Nat) (x : Option Prog) : (s.setProg i x).conv = s.conv := rfl
@[simp] theorem setProg_feed (s : State) (i : Nat) (x : Option Prog) : (s.setProg i x).feed = s.feed := rfl
@[simp] theorem setProg_faultSeq (s : State) (i : Nat) (x : Option Prog) : (s.setProg i x).faultSeq = s.faultSeq := rfl
@[simp] theorem setProg_faultQueue (s : State) (i : Nat) (x : Option Prog) : (s.setProg i x).faultQueue = s.faultQueue := rfl
@[simp] theorem setProg_pwm (s : State) (i : Nat) (x : Option Prog) : (s.setProg i x).pwm = s.pwm := rfl
@[simp] theorem setProg_ballScan (s : State) (i : Nat) (x : Option Prog) : (s.setProg i x).ballScan = s.ballScan := rfl
@[simp] theorem setProg_teth (s : State) (i : Nat) (x : Option Prog) : (s.setProg i x).teth = s.teth := rfl
@[simp] theorem setProg_ports (s : State) (i : Nat) (x : Option Prog) : (s.setProg i x).ports = s.ports := rfl
@[simp] theorem setProg_dma (s : State) (i : Nat) (x : Option Prog) : (s.setProg i x).dma = s.dma := rfl
@[simp] theorem setProg_flash (s : State) (i : Nat) (x : Option Prog) : (s.setProg i x).flash = s.flash := rfl
@[simp] theorem setProg_sec (s : State) (i : Nat) (x : Option Prog) : (s.setProg i x).sec = s.sec := rfl
@[simp] theorem setProg_power (s : State) (i : Nat) (x : Option Prog) : (s.setProg i x).power = s.power := rfl
@[simp] theorem setProg_age (s : State) (i : Nat) (x : Option Prog) : (s.setProg i x).age = s.age := rfl
@[simp] theorem setProg_test (s : State) (i : Nat) (x : Option Prog) : (s.setProg i x).test = s.test := rfl
@[simp] theorem setProg_dbg (s : State) (i : Nat) (x : Option Prog) : (s.setProg i x).dbg = s.dbg := rfl
@[simp] theorem setProg_rg (s : State) (i : Nat) (x : Option Prog) (k : Nat) : (s.setProg i x).rg k = s.rg k := rfl
@[simp] theorem setProg_el (s : State) (i : Nat) (x : Option Prog) (k : Nat) : (s.setProg i x).el k = s.el k := rfl
@[simp] theorem setProg_slot (s : State) (i : Nat) (x : Option Prog) (k : Nat) : (s.setProg i x).slot k = s.slot k := rfl
@[simp] theorem setProg_timer (s : State) (i : Nat) (x : Option Prog) (k : Nat) : (s.setProg i x).timer k = s.timer k := rfl
@[simp] theorem setProg_bank (s : State) (i : Nat) (x : Option Prog) (k : Nat) : (s.setProg i x).bank k = s.bank k := rfl
@[simp] theorem setProg_ctx (s : State) (i : Nat) (x : Option Prog) (k : Nat) : (s.setProg i x).ctx k = s.ctx k := rfl
@[simp] theorem setProg_ax (s : State) (i : Nat) (x : Option Prog) (k : Nat) : (s.setProg i x).ax k = s.ax k := rfl
@[simp] theorem setProg_cv (s : State) (i : Nat) (x : Option Prog) (k : Nat) : (s.setProg i x).cv k = s.cv k := rfl
@[simp] theorem setProg_br (s : State) (i : Nat) (x : Option Prog) (k : Nat) : (s.setProg i x).br k = s.br k := rfl
@[simp] theorem setProg_fb (s : State) (i : Nat) (x : Option Prog) (k : Nat) : (s.setProg i x).fb k = s.fb k := rfl
@[simp] theorem setProg_senc (s : State) (i : Nat) (x : Option Prog) (k : Nat) : (s.setProg i x).senc k = s.senc k := rfl
@[simp] theorem setProg_trk (s : State) (i : Nat) (x : Option Prog) (k : Nat) : (s.setProg i x).trk k = s.trk k := rfl
@[simp] theorem setProg_mark (s : State) (i : Nat) (x : Option Prog) (k : Nat) : (s.setProg i x).mark k = s.mark k := rfl
@[simp] theorem setProg_link (s : State) (i : Nat) (x : Option Prog) (k : Nat) : (s.setProg i x).link k = s.link k := rfl
@[simp] theorem setProg_girth (s : State) (i : Nat) (x : Option Prog) (k : Nat) : (s.setProg i x).girth k = s.girth k := rfl
@[simp] theorem setProg_eth (s : State) (i : Nat) (x : Option Prog) (k : Nat) : (s.setProg i x).eth k = s.eth k := rfl
@[simp] theorem setProg_chan (s : State) (i : Nat) (x : Option Prog) (k : Nat) : (s.setProg i x).chan k = s.chan k := rfl
@[simp] theorem setProg_fop (s : State) (i : Nat) (x : Option Prog) (k : Nat) : (s.setProg i x).fop k = s.fop k := rfl
@[simp] theorem setProg_wdg (s : State) (i : Nat) (x : Option Prog) (k : Nat) : (s.setProg i x).wdg k = s.wdg k := rfl
@[simp] theorem setProg_unit (s : State) (i : Nat) (x : Option Prog) (k : Nat) : (s.setProg i x).unit_ k = s.unit_ k := rfl

/-! ### `setCv` -/

@[simp] theorem setCv_pending (s : State) (i : Nat) (x : Converter) : (s.setCv i x).pending = s.pending := rfl
@[simp] theorem setCv_resp (s : State) (i : Nat) (x : Converter) : (s.setCv i x).resp = s.resp := rfl
@[simp] theorem setCv_free (s : State) (i : Nat) (x : Converter) : (s.setCv i x).free = s.free := rfl
@[simp] theorem setCv_regs (s : State) (i : Nat) (x : Converter) : (s.setCv i x).regs = s.regs := rfl
@[simp] theorem setCv_mem (s : State) (i : Nat) (x : Converter) : (s.setCv i x).mem = s.mem := rfl
@[simp] theorem setCv_poison (s : State) (i : Nat) (x : Converter) : (s.setCv i x).poison = s.poison := rfl
@[simp] theorem setCv_time (s : State) (i : Nat) (x : Converter) : (s.setCv i x).time = s.time := rfl
@[simp] theorem setCv_core (s : State) (i : Nat) (x : Converter) : (s.setCv i x).core = s.core := rfl
@[simp] theorem setCv_axis (s : State) (i : Nat) (x : Converter) : (s.setCv i x).axis = s.axis := rfl
@[simp] theorem setCv_feed (s : State) (i : Nat) (x : Converter) : (s.setCv i x).feed = s.feed := rfl
@[simp] theorem setCv_faultSeq (s : State) (i : Nat) (x : Converter) : (s.setCv i x).faultSeq = s.faultSeq := rfl
@[simp] theorem setCv_faultQueue (s : State) (i : Nat) (x : Converter) : (s.setCv i x).faultQueue = s.faultQueue := rfl
@[simp] theorem setCv_pwm (s : State) (i : Nat) (x : Converter) : (s.setCv i x).pwm = s.pwm := rfl
@[simp] theorem setCv_ballScan (s : State) (i : Nat) (x : Converter) : (s.setCv i x).ballScan = s.ballScan := rfl
@[simp] theorem setCv_teth (s : State) (i : Nat) (x : Converter) : (s.setCv i x).teth = s.teth := rfl
@[simp] theorem setCv_ports (s : State) (i : Nat) (x : Converter) : (s.setCv i x).ports = s.ports := rfl
@[simp] theorem setCv_dma (s : State) (i : Nat) (x : Converter) : (s.setCv i x).dma = s.dma := rfl
@[simp] theorem setCv_flash (s : State) (i : Nat) (x : Converter) : (s.setCv i x).flash = s.flash := rfl
@[simp] theorem setCv_sec (s : State) (i : Nat) (x : Converter) : (s.setCv i x).sec = s.sec := rfl
@[simp] theorem setCv_power (s : State) (i : Nat) (x : Converter) : (s.setCv i x).power = s.power := rfl
@[simp] theorem setCv_age (s : State) (i : Nat) (x : Converter) : (s.setCv i x).age = s.age := rfl
@[simp] theorem setCv_test (s : State) (i : Nat) (x : Converter) : (s.setCv i x).test = s.test := rfl
@[simp] theorem setCv_dbg (s : State) (i : Nat) (x : Converter) : (s.setCv i x).dbg = s.dbg := rfl
@[simp] theorem setCv_rg (s : State) (i : Nat) (x : Converter) (k : Nat) : (s.setCv i x).rg k = s.rg k := rfl
@[simp] theorem setCv_el (s : State) (i : Nat) (x : Converter) (k : Nat) : (s.setCv i x).el k = s.el k := rfl
@[simp] theorem setCv_slot (s : State) (i : Nat) (x : Converter) (k : Nat) : (s.setCv i x).slot k = s.slot k := rfl
@[simp] theorem setCv_timer (s : State) (i : Nat) (x : Converter) (k : Nat) : (s.setCv i x).timer k = s.timer k := rfl
@[simp] theorem setCv_bank (s : State) (i : Nat) (x : Converter) (k : Nat) : (s.setCv i x).bank k = s.bank k := rfl
@[simp] theorem setCv_ctx (s : State) (i : Nat) (x : Converter) (k : Nat) : (s.setCv i x).ctx k = s.ctx k := rfl
@[simp] theorem setCv_ax (s : State) (i : Nat) (x : Converter) (k : Nat) : (s.setCv i x).ax k = s.ax k := rfl
@[simp] theorem setCv_prog (s : State) (i : Nat) (x : Converter) (k : Nat) : (s.setCv i x).prog k = s.prog k := rfl
@[simp] theorem setCv_br (s : State) (i : Nat) (x : Converter) (k : Nat) : (s.setCv i x).br k = s.br k := rfl
@[simp] theorem setCv_fb (s : State) (i : Nat) (x : Converter) (k : Nat) : (s.setCv i x).fb k = s.fb k := rfl
@[simp] theorem setCv_senc (s : State) (i : Nat) (x : Converter) (k : Nat) : (s.setCv i x).senc k = s.senc k := rfl
@[simp] theorem setCv_trk (s : State) (i : Nat) (x : Converter) (k : Nat) : (s.setCv i x).trk k = s.trk k := rfl
@[simp] theorem setCv_mark (s : State) (i : Nat) (x : Converter) (k : Nat) : (s.setCv i x).mark k = s.mark k := rfl
@[simp] theorem setCv_link (s : State) (i : Nat) (x : Converter) (k : Nat) : (s.setCv i x).link k = s.link k := rfl
@[simp] theorem setCv_girth (s : State) (i : Nat) (x : Converter) (k : Nat) : (s.setCv i x).girth k = s.girth k := rfl
@[simp] theorem setCv_eth (s : State) (i : Nat) (x : Converter) (k : Nat) : (s.setCv i x).eth k = s.eth k := rfl
@[simp] theorem setCv_chan (s : State) (i : Nat) (x : Converter) (k : Nat) : (s.setCv i x).chan k = s.chan k := rfl
@[simp] theorem setCv_fop (s : State) (i : Nat) (x : Converter) (k : Nat) : (s.setCv i x).fop k = s.fop k := rfl
@[simp] theorem setCv_wdg (s : State) (i : Nat) (x : Converter) (k : Nat) : (s.setCv i x).wdg k = s.wdg k := rfl
@[simp] theorem setCv_unit (s : State) (i : Nat) (x : Converter) (k : Nat) : (s.setCv i x).unit_ k = s.unit_ k := rfl

/-! ### `setBr` -/

@[simp] theorem setBr_pending (s : State) (i : Nat) (x : Bridge) : (s.setBr i x).pending = s.pending := rfl
@[simp] theorem setBr_resp (s : State) (i : Nat) (x : Bridge) : (s.setBr i x).resp = s.resp := rfl
@[simp] theorem setBr_free (s : State) (i : Nat) (x : Bridge) : (s.setBr i x).free = s.free := rfl
@[simp] theorem setBr_regs (s : State) (i : Nat) (x : Bridge) : (s.setBr i x).regs = s.regs := rfl
@[simp] theorem setBr_mem (s : State) (i : Nat) (x : Bridge) : (s.setBr i x).mem = s.mem := rfl
@[simp] theorem setBr_poison (s : State) (i : Nat) (x : Bridge) : (s.setBr i x).poison = s.poison := rfl
@[simp] theorem setBr_time (s : State) (i : Nat) (x : Bridge) : (s.setBr i x).time = s.time := rfl
@[simp] theorem setBr_core (s : State) (i : Nat) (x : Bridge) : (s.setBr i x).core = s.core := rfl
@[simp] theorem setBr_axis (s : State) (i : Nat) (x : Bridge) : (s.setBr i x).axis = s.axis := rfl
@[simp] theorem setBr_conv (s : State) (i : Nat) (x : Bridge) : (s.setBr i x).conv = s.conv := rfl
@[simp] theorem setBr_feed (s : State) (i : Nat) (x : Bridge) : (s.setBr i x).feed = s.feed := rfl
@[simp] theorem setBr_faultSeq (s : State) (i : Nat) (x : Bridge) : (s.setBr i x).faultSeq = s.faultSeq := rfl
@[simp] theorem setBr_faultQueue (s : State) (i : Nat) (x : Bridge) : (s.setBr i x).faultQueue = s.faultQueue := rfl
@[simp] theorem setBr_ballScan (s : State) (i : Nat) (x : Bridge) : (s.setBr i x).ballScan = s.ballScan := rfl
@[simp] theorem setBr_teth (s : State) (i : Nat) (x : Bridge) : (s.setBr i x).teth = s.teth := rfl
@[simp] theorem setBr_ports (s : State) (i : Nat) (x : Bridge) : (s.setBr i x).ports = s.ports := rfl
@[simp] theorem setBr_dma (s : State) (i : Nat) (x : Bridge) : (s.setBr i x).dma = s.dma := rfl
@[simp] theorem setBr_flash (s : State) (i : Nat) (x : Bridge) : (s.setBr i x).flash = s.flash := rfl
@[simp] theorem setBr_sec (s : State) (i : Nat) (x : Bridge) : (s.setBr i x).sec = s.sec := rfl
@[simp] theorem setBr_power (s : State) (i : Nat) (x : Bridge) : (s.setBr i x).power = s.power := rfl
@[simp] theorem setBr_age (s : State) (i : Nat) (x : Bridge) : (s.setBr i x).age = s.age := rfl
@[simp] theorem setBr_test (s : State) (i : Nat) (x : Bridge) : (s.setBr i x).test = s.test := rfl
@[simp] theorem setBr_dbg (s : State) (i : Nat) (x : Bridge) : (s.setBr i x).dbg = s.dbg := rfl
@[simp] theorem setBr_rg (s : State) (i : Nat) (x : Bridge) (k : Nat) : (s.setBr i x).rg k = s.rg k := rfl
@[simp] theorem setBr_el (s : State) (i : Nat) (x : Bridge) (k : Nat) : (s.setBr i x).el k = s.el k := rfl
@[simp] theorem setBr_slot (s : State) (i : Nat) (x : Bridge) (k : Nat) : (s.setBr i x).slot k = s.slot k := rfl
@[simp] theorem setBr_timer (s : State) (i : Nat) (x : Bridge) (k : Nat) : (s.setBr i x).timer k = s.timer k := rfl
@[simp] theorem setBr_bank (s : State) (i : Nat) (x : Bridge) (k : Nat) : (s.setBr i x).bank k = s.bank k := rfl
@[simp] theorem setBr_ctx (s : State) (i : Nat) (x : Bridge) (k : Nat) : (s.setBr i x).ctx k = s.ctx k := rfl
@[simp] theorem setBr_ax (s : State) (i : Nat) (x : Bridge) (k : Nat) : (s.setBr i x).ax k = s.ax k := rfl
@[simp] theorem setBr_prog (s : State) (i : Nat) (x : Bridge) (k : Nat) : (s.setBr i x).prog k = s.prog k := rfl
@[simp] theorem setBr_cv (s : State) (i : Nat) (x : Bridge) (k : Nat) : (s.setBr i x).cv k = s.cv k := rfl
@[simp] theorem setBr_fb (s : State) (i : Nat) (x : Bridge) (k : Nat) : (s.setBr i x).fb k = s.fb k := rfl
@[simp] theorem setBr_senc (s : State) (i : Nat) (x : Bridge) (k : Nat) : (s.setBr i x).senc k = s.senc k := rfl
@[simp] theorem setBr_trk (s : State) (i : Nat) (x : Bridge) (k : Nat) : (s.setBr i x).trk k = s.trk k := rfl
@[simp] theorem setBr_mark (s : State) (i : Nat) (x : Bridge) (k : Nat) : (s.setBr i x).mark k = s.mark k := rfl
@[simp] theorem setBr_link (s : State) (i : Nat) (x : Bridge) (k : Nat) : (s.setBr i x).link k = s.link k := rfl
@[simp] theorem setBr_girth (s : State) (i : Nat) (x : Bridge) (k : Nat) : (s.setBr i x).girth k = s.girth k := rfl
@[simp] theorem setBr_eth (s : State) (i : Nat) (x : Bridge) (k : Nat) : (s.setBr i x).eth k = s.eth k := rfl
@[simp] theorem setBr_chan (s : State) (i : Nat) (x : Bridge) (k : Nat) : (s.setBr i x).chan k = s.chan k := rfl
@[simp] theorem setBr_fop (s : State) (i : Nat) (x : Bridge) (k : Nat) : (s.setBr i x).fop k = s.fop k := rfl
@[simp] theorem setBr_wdg (s : State) (i : Nat) (x : Bridge) (k : Nat) : (s.setBr i x).wdg k = s.wdg k := rfl
@[simp] theorem setBr_unit (s : State) (i : Nat) (x : Bridge) (k : Nat) : (s.setBr i x).unit_ k = s.unit_ k := rfl

/-! ### `setFb` -/

@[simp] theorem setFb_pending (s : State) (i : Nat) (x : FbUnit) : (s.setFb i x).pending = s.pending := rfl
@[simp] theorem setFb_resp (s : State) (i : Nat) (x : FbUnit) : (s.setFb i x).resp = s.resp := rfl
@[simp] theorem setFb_free (s : State) (i : Nat) (x : FbUnit) : (s.setFb i x).free = s.free := rfl
@[simp] theorem setFb_regs (s : State) (i : Nat) (x : FbUnit) : (s.setFb i x).regs = s.regs := rfl
@[simp] theorem setFb_mem (s : State) (i : Nat) (x : FbUnit) : (s.setFb i x).mem = s.mem := rfl
@[simp] theorem setFb_poison (s : State) (i : Nat) (x : FbUnit) : (s.setFb i x).poison = s.poison := rfl
@[simp] theorem setFb_time (s : State) (i : Nat) (x : FbUnit) : (s.setFb i x).time = s.time := rfl
@[simp] theorem setFb_core (s : State) (i : Nat) (x : FbUnit) : (s.setFb i x).core = s.core := rfl
@[simp] theorem setFb_axis (s : State) (i : Nat) (x : FbUnit) : (s.setFb i x).axis = s.axis := rfl
@[simp] theorem setFb_conv (s : State) (i : Nat) (x : FbUnit) : (s.setFb i x).conv = s.conv := rfl
@[simp] theorem setFb_faultSeq (s : State) (i : Nat) (x : FbUnit) : (s.setFb i x).faultSeq = s.faultSeq := rfl
@[simp] theorem setFb_faultQueue (s : State) (i : Nat) (x : FbUnit) : (s.setFb i x).faultQueue = s.faultQueue := rfl
@[simp] theorem setFb_pwm (s : State) (i : Nat) (x : FbUnit) : (s.setFb i x).pwm = s.pwm := rfl
@[simp] theorem setFb_ballScan (s : State) (i : Nat) (x : FbUnit) : (s.setFb i x).ballScan = s.ballScan := rfl
@[simp] theorem setFb_teth (s : State) (i : Nat) (x : FbUnit) : (s.setFb i x).teth = s.teth := rfl
@[simp] theorem setFb_ports (s : State) (i : Nat) (x : FbUnit) : (s.setFb i x).ports = s.ports := rfl
@[simp] theorem setFb_dma (s : State) (i : Nat) (x : FbUnit) : (s.setFb i x).dma = s.dma := rfl
@[simp] theorem setFb_flash (s : State) (i : Nat) (x : FbUnit) : (s.setFb i x).flash = s.flash := rfl
@[simp] theorem setFb_sec (s : State) (i : Nat) (x : FbUnit) : (s.setFb i x).sec = s.sec := rfl
@[simp] theorem setFb_power (s : State) (i : Nat) (x : FbUnit) : (s.setFb i x).power = s.power := rfl
@[simp] theorem setFb_age (s : State) (i : Nat) (x : FbUnit) : (s.setFb i x).age = s.age := rfl
@[simp] theorem setFb_test (s : State) (i : Nat) (x : FbUnit) : (s.setFb i x).test = s.test := rfl
@[simp] theorem setFb_dbg (s : State) (i : Nat) (x : FbUnit) : (s.setFb i x).dbg = s.dbg := rfl
@[simp] theorem setFb_rg (s : State) (i : Nat) (x : FbUnit) (k : Nat) : (s.setFb i x).rg k = s.rg k := rfl
@[simp] theorem setFb_el (s : State) (i : Nat) (x : FbUnit) (k : Nat) : (s.setFb i x).el k = s.el k := rfl
@[simp] theorem setFb_slot (s : State) (i : Nat) (x : FbUnit) (k : Nat) : (s.setFb i x).slot k = s.slot k := rfl
@[simp] theorem setFb_timer (s : State) (i : Nat) (x : FbUnit) (k : Nat) : (s.setFb i x).timer k = s.timer k := rfl
@[simp] theorem setFb_bank (s : State) (i : Nat) (x : FbUnit) (k : Nat) : (s.setFb i x).bank k = s.bank k := rfl
@[simp] theorem setFb_ctx (s : State) (i : Nat) (x : FbUnit) (k : Nat) : (s.setFb i x).ctx k = s.ctx k := rfl
@[simp] theorem setFb_ax (s : State) (i : Nat) (x : FbUnit) (k : Nat) : (s.setFb i x).ax k = s.ax k := rfl
@[simp] theorem setFb_prog (s : State) (i : Nat) (x : FbUnit) (k : Nat) : (s.setFb i x).prog k = s.prog k := rfl
@[simp] theorem setFb_cv (s : State) (i : Nat) (x : FbUnit) (k : Nat) : (s.setFb i x).cv k = s.cv k := rfl
@[simp] theorem setFb_br (s : State) (i : Nat) (x : FbUnit) (k : Nat) : (s.setFb i x).br k = s.br k := rfl
@[simp] theorem setFb_senc (s : State) (i : Nat) (x : FbUnit) (k : Nat) : (s.setFb i x).senc k = s.senc k := rfl
@[simp] theorem setFb_trk (s : State) (i : Nat) (x : FbUnit) (k : Nat) : (s.setFb i x).trk k = s.trk k := rfl
@[simp] theorem setFb_mark (s : State) (i : Nat) (x : FbUnit) (k : Nat) : (s.setFb i x).mark k = s.mark k := rfl
@[simp] theorem setFb_link (s : State) (i : Nat) (x : FbUnit) (k : Nat) : (s.setFb i x).link k = s.link k := rfl
@[simp] theorem setFb_girth (s : State) (i : Nat) (x : FbUnit) (k : Nat) : (s.setFb i x).girth k = s.girth k := rfl
@[simp] theorem setFb_eth (s : State) (i : Nat) (x : FbUnit) (k : Nat) : (s.setFb i x).eth k = s.eth k := rfl
@[simp] theorem setFb_chan (s : State) (i : Nat) (x : FbUnit) (k : Nat) : (s.setFb i x).chan k = s.chan k := rfl
@[simp] theorem setFb_fop (s : State) (i : Nat) (x : FbUnit) (k : Nat) : (s.setFb i x).fop k = s.fop k := rfl
@[simp] theorem setFb_wdg (s : State) (i : Nat) (x : FbUnit) (k : Nat) : (s.setFb i x).wdg k = s.wdg k := rfl
@[simp] theorem setFb_unit (s : State) (i : Nat) (x : FbUnit) (k : Nat) : (s.setFb i x).unit_ k = s.unit_ k := rfl

/-! ### `setSenc` -/

@[simp] theorem setSenc_pending (s : State) (i : Nat) (x : SencPort) : (s.setSenc i x).pending = s.pending := rfl
@[simp] theorem setSenc_resp (s : State) (i : Nat) (x : SencPort) : (s.setSenc i x).resp = s.resp := rfl
@[simp] theorem setSenc_free (s : State) (i : Nat) (x : SencPort) : (s.setSenc i x).free = s.free := rfl
@[simp] theorem setSenc_regs (s : State) (i : Nat) (x : SencPort) : (s.setSenc i x).regs = s.regs := rfl
@[simp] theorem setSenc_mem (s : State) (i : Nat) (x : SencPort) : (s.setSenc i x).mem = s.mem := rfl
@[simp] theorem setSenc_poison (s : State) (i : Nat) (x : SencPort) : (s.setSenc i x).poison = s.poison := rfl
@[simp] theorem setSenc_time (s : State) (i : Nat) (x : SencPort) : (s.setSenc i x).time = s.time := rfl
@[simp] theorem setSenc_core (s : State) (i : Nat) (x : SencPort) : (s.setSenc i x).core = s.core := rfl
@[simp] theorem setSenc_axis (s : State) (i : Nat) (x : SencPort) : (s.setSenc i x).axis = s.axis := rfl
@[simp] theorem setSenc_conv (s : State) (i : Nat) (x : SencPort) : (s.setSenc i x).conv = s.conv := rfl
@[simp] theorem setSenc_faultSeq (s : State) (i : Nat) (x : SencPort) : (s.setSenc i x).faultSeq = s.faultSeq := rfl
@[simp] theorem setSenc_faultQueue (s : State) (i : Nat) (x : SencPort) : (s.setSenc i x).faultQueue = s.faultQueue := rfl
@[simp] theorem setSenc_pwm (s : State) (i : Nat) (x : SencPort) : (s.setSenc i x).pwm = s.pwm := rfl
@[simp] theorem setSenc_ballScan (s : State) (i : Nat) (x : SencPort) : (s.setSenc i x).ballScan = s.ballScan := rfl
@[simp] theorem setSenc_teth (s : State) (i : Nat) (x : SencPort) : (s.setSenc i x).teth = s.teth := rfl
@[simp] theorem setSenc_ports (s : State) (i : Nat) (x : SencPort) : (s.setSenc i x).ports = s.ports := rfl
@[simp] theorem setSenc_dma (s : State) (i : Nat) (x : SencPort) : (s.setSenc i x).dma = s.dma := rfl
@[simp] theorem setSenc_flash (s : State) (i : Nat) (x : SencPort) : (s.setSenc i x).flash = s.flash := rfl
@[simp] theorem setSenc_sec (s : State) (i : Nat) (x : SencPort) : (s.setSenc i x).sec = s.sec := rfl
@[simp] theorem setSenc_power (s : State) (i : Nat) (x : SencPort) : (s.setSenc i x).power = s.power := rfl
@[simp] theorem setSenc_age (s : State) (i : Nat) (x : SencPort) : (s.setSenc i x).age = s.age := rfl
@[simp] theorem setSenc_test (s : State) (i : Nat) (x : SencPort) : (s.setSenc i x).test = s.test := rfl
@[simp] theorem setSenc_dbg (s : State) (i : Nat) (x : SencPort) : (s.setSenc i x).dbg = s.dbg := rfl
@[simp] theorem setSenc_rg (s : State) (i : Nat) (x : SencPort) (k : Nat) : (s.setSenc i x).rg k = s.rg k := rfl
@[simp] theorem setSenc_el (s : State) (i : Nat) (x : SencPort) (k : Nat) : (s.setSenc i x).el k = s.el k := rfl
@[simp] theorem setSenc_slot (s : State) (i : Nat) (x : SencPort) (k : Nat) : (s.setSenc i x).slot k = s.slot k := rfl
@[simp] theorem setSenc_timer (s : State) (i : Nat) (x : SencPort) (k : Nat) : (s.setSenc i x).timer k = s.timer k := rfl
@[simp] theorem setSenc_bank (s : State) (i : Nat) (x : SencPort) (k : Nat) : (s.setSenc i x).bank k = s.bank k := rfl
@[simp] theorem setSenc_ctx (s : State) (i : Nat) (x : SencPort) (k : Nat) : (s.setSenc i x).ctx k = s.ctx k := rfl
@[simp] theorem setSenc_ax (s : State) (i : Nat) (x : SencPort) (k : Nat) : (s.setSenc i x).ax k = s.ax k := rfl
@[simp] theorem setSenc_prog (s : State) (i : Nat) (x : SencPort) (k : Nat) : (s.setSenc i x).prog k = s.prog k := rfl
@[simp] theorem setSenc_cv (s : State) (i : Nat) (x : SencPort) (k : Nat) : (s.setSenc i x).cv k = s.cv k := rfl
@[simp] theorem setSenc_br (s : State) (i : Nat) (x : SencPort) (k : Nat) : (s.setSenc i x).br k = s.br k := rfl
@[simp] theorem setSenc_fb (s : State) (i : Nat) (x : SencPort) (k : Nat) : (s.setSenc i x).fb k = s.fb k := rfl
@[simp] theorem setSenc_trk (s : State) (i : Nat) (x : SencPort) (k : Nat) : (s.setSenc i x).trk k = s.trk k := rfl
@[simp] theorem setSenc_mark (s : State) (i : Nat) (x : SencPort) (k : Nat) : (s.setSenc i x).mark k = s.mark k := rfl
@[simp] theorem setSenc_link (s : State) (i : Nat) (x : SencPort) (k : Nat) : (s.setSenc i x).link k = s.link k := rfl
@[simp] theorem setSenc_girth (s : State) (i : Nat) (x : SencPort) (k : Nat) : (s.setSenc i x).girth k = s.girth k := rfl
@[simp] theorem setSenc_eth (s : State) (i : Nat) (x : SencPort) (k : Nat) : (s.setSenc i x).eth k = s.eth k := rfl
@[simp] theorem setSenc_chan (s : State) (i : Nat) (x : SencPort) (k : Nat) : (s.setSenc i x).chan k = s.chan k := rfl
@[simp] theorem setSenc_fop (s : State) (i : Nat) (x : SencPort) (k : Nat) : (s.setSenc i x).fop k = s.fop k := rfl
@[simp] theorem setSenc_wdg (s : State) (i : Nat) (x : SencPort) (k : Nat) : (s.setSenc i x).wdg k = s.wdg k := rfl
@[simp] theorem setSenc_unit (s : State) (i : Nat) (x : SencPort) (k : Nat) : (s.setSenc i x).unit_ k = s.unit_ k := rfl

/-! ### `setTrk` -/

@[simp] theorem setTrk_pending (s : State) (i : Nat) (x : Track) : (s.setTrk i x).pending = s.pending := rfl
@[simp] theorem setTrk_resp (s : State) (i : Nat) (x : Track) : (s.setTrk i x).resp = s.resp := rfl
@[simp] theorem setTrk_free (s : State) (i : Nat) (x : Track) : (s.setTrk i x).free = s.free := rfl
@[simp] theorem setTrk_regs (s : State) (i : Nat) (x : Track) : (s.setTrk i x).regs = s.regs := rfl
@[simp] theorem setTrk_mem (s : State) (i : Nat) (x : Track) : (s.setTrk i x).mem = s.mem := rfl
@[simp] theorem setTrk_poison (s : State) (i : Nat) (x : Track) : (s.setTrk i x).poison = s.poison := rfl
@[simp] theorem setTrk_time (s : State) (i : Nat) (x : Track) : (s.setTrk i x).time = s.time := rfl
@[simp] theorem setTrk_core (s : State) (i : Nat) (x : Track) : (s.setTrk i x).core = s.core := rfl
@[simp] theorem setTrk_axis (s : State) (i : Nat) (x : Track) : (s.setTrk i x).axis = s.axis := rfl
@[simp] theorem setTrk_conv (s : State) (i : Nat) (x : Track) : (s.setTrk i x).conv = s.conv := rfl
@[simp] theorem setTrk_faultSeq (s : State) (i : Nat) (x : Track) : (s.setTrk i x).faultSeq = s.faultSeq := rfl
@[simp] theorem setTrk_faultQueue (s : State) (i : Nat) (x : Track) : (s.setTrk i x).faultQueue = s.faultQueue := rfl
@[simp] theorem setTrk_pwm (s : State) (i : Nat) (x : Track) : (s.setTrk i x).pwm = s.pwm := rfl
@[simp] theorem setTrk_ballScan (s : State) (i : Nat) (x : Track) : (s.setTrk i x).ballScan = s.ballScan := rfl
@[simp] theorem setTrk_teth (s : State) (i : Nat) (x : Track) : (s.setTrk i x).teth = s.teth := rfl
@[simp] theorem setTrk_ports (s : State) (i : Nat) (x : Track) : (s.setTrk i x).ports = s.ports := rfl
@[simp] theorem setTrk_dma (s : State) (i : Nat) (x : Track) : (s.setTrk i x).dma = s.dma := rfl
@[simp] theorem setTrk_flash (s : State) (i : Nat) (x : Track) : (s.setTrk i x).flash = s.flash := rfl
@[simp] theorem setTrk_sec (s : State) (i : Nat) (x : Track) : (s.setTrk i x).sec = s.sec := rfl
@[simp] theorem setTrk_power (s : State) (i : Nat) (x : Track) : (s.setTrk i x).power = s.power := rfl
@[simp] theorem setTrk_age (s : State) (i : Nat) (x : Track) : (s.setTrk i x).age = s.age := rfl
@[simp] theorem setTrk_test (s : State) (i : Nat) (x : Track) : (s.setTrk i x).test = s.test := rfl
@[simp] theorem setTrk_dbg (s : State) (i : Nat) (x : Track) : (s.setTrk i x).dbg = s.dbg := rfl
@[simp] theorem setTrk_rg (s : State) (i : Nat) (x : Track) (k : Nat) : (s.setTrk i x).rg k = s.rg k := rfl
@[simp] theorem setTrk_el (s : State) (i : Nat) (x : Track) (k : Nat) : (s.setTrk i x).el k = s.el k := rfl
@[simp] theorem setTrk_slot (s : State) (i : Nat) (x : Track) (k : Nat) : (s.setTrk i x).slot k = s.slot k := rfl
@[simp] theorem setTrk_timer (s : State) (i : Nat) (x : Track) (k : Nat) : (s.setTrk i x).timer k = s.timer k := rfl
@[simp] theorem setTrk_bank (s : State) (i : Nat) (x : Track) (k : Nat) : (s.setTrk i x).bank k = s.bank k := rfl
@[simp] theorem setTrk_ctx (s : State) (i : Nat) (x : Track) (k : Nat) : (s.setTrk i x).ctx k = s.ctx k := rfl
@[simp] theorem setTrk_ax (s : State) (i : Nat) (x : Track) (k : Nat) : (s.setTrk i x).ax k = s.ax k := rfl
@[simp] theorem setTrk_prog (s : State) (i : Nat) (x : Track) (k : Nat) : (s.setTrk i x).prog k = s.prog k := rfl
@[simp] theorem setTrk_cv (s : State) (i : Nat) (x : Track) (k : Nat) : (s.setTrk i x).cv k = s.cv k := rfl
@[simp] theorem setTrk_br (s : State) (i : Nat) (x : Track) (k : Nat) : (s.setTrk i x).br k = s.br k := rfl
@[simp] theorem setTrk_fb (s : State) (i : Nat) (x : Track) (k : Nat) : (s.setTrk i x).fb k = s.fb k := rfl
@[simp] theorem setTrk_senc (s : State) (i : Nat) (x : Track) (k : Nat) : (s.setTrk i x).senc k = s.senc k := rfl
@[simp] theorem setTrk_mark (s : State) (i : Nat) (x : Track) (k : Nat) : (s.setTrk i x).mark k = s.mark k := rfl
@[simp] theorem setTrk_link (s : State) (i : Nat) (x : Track) (k : Nat) : (s.setTrk i x).link k = s.link k := rfl
@[simp] theorem setTrk_girth (s : State) (i : Nat) (x : Track) (k : Nat) : (s.setTrk i x).girth k = s.girth k := rfl
@[simp] theorem setTrk_eth (s : State) (i : Nat) (x : Track) (k : Nat) : (s.setTrk i x).eth k = s.eth k := rfl
@[simp] theorem setTrk_chan (s : State) (i : Nat) (x : Track) (k : Nat) : (s.setTrk i x).chan k = s.chan k := rfl
@[simp] theorem setTrk_fop (s : State) (i : Nat) (x : Track) (k : Nat) : (s.setTrk i x).fop k = s.fop k := rfl
@[simp] theorem setTrk_wdg (s : State) (i : Nat) (x : Track) (k : Nat) : (s.setTrk i x).wdg k = s.wdg k := rfl
@[simp] theorem setTrk_unit (s : State) (i : Nat) (x : Track) (k : Nat) : (s.setTrk i x).unit_ k = s.unit_ k := rfl

/-! ### `setMark` -/

@[simp] theorem setMark_pending (s : State) (i : Nat) (x : Option Pulse) : (s.setMark i x).pending = s.pending := rfl
@[simp] theorem setMark_resp (s : State) (i : Nat) (x : Option Pulse) : (s.setMark i x).resp = s.resp := rfl
@[simp] theorem setMark_free (s : State) (i : Nat) (x : Option Pulse) : (s.setMark i x).free = s.free := rfl
@[simp] theorem setMark_regs (s : State) (i : Nat) (x : Option Pulse) : (s.setMark i x).regs = s.regs := rfl
@[simp] theorem setMark_mem (s : State) (i : Nat) (x : Option Pulse) : (s.setMark i x).mem = s.mem := rfl
@[simp] theorem setMark_poison (s : State) (i : Nat) (x : Option Pulse) : (s.setMark i x).poison = s.poison := rfl
@[simp] theorem setMark_time (s : State) (i : Nat) (x : Option Pulse) : (s.setMark i x).time = s.time := rfl
@[simp] theorem setMark_core (s : State) (i : Nat) (x : Option Pulse) : (s.setMark i x).core = s.core := rfl
@[simp] theorem setMark_axis (s : State) (i : Nat) (x : Option Pulse) : (s.setMark i x).axis = s.axis := rfl
@[simp] theorem setMark_conv (s : State) (i : Nat) (x : Option Pulse) : (s.setMark i x).conv = s.conv := rfl
@[simp] theorem setMark_faultSeq (s : State) (i : Nat) (x : Option Pulse) : (s.setMark i x).faultSeq = s.faultSeq := rfl
@[simp] theorem setMark_faultQueue (s : State) (i : Nat) (x : Option Pulse) : (s.setMark i x).faultQueue = s.faultQueue := rfl
@[simp] theorem setMark_pwm (s : State) (i : Nat) (x : Option Pulse) : (s.setMark i x).pwm = s.pwm := rfl
@[simp] theorem setMark_ballScan (s : State) (i : Nat) (x : Option Pulse) : (s.setMark i x).ballScan = s.ballScan := rfl
@[simp] theorem setMark_teth (s : State) (i : Nat) (x : Option Pulse) : (s.setMark i x).teth = s.teth := rfl
@[simp] theorem setMark_ports (s : State) (i : Nat) (x : Option Pulse) : (s.setMark i x).ports = s.ports := rfl
@[simp] theorem setMark_dma (s : State) (i : Nat) (x : Option Pulse) : (s.setMark i x).dma = s.dma := rfl
@[simp] theorem setMark_flash (s : State) (i : Nat) (x : Option Pulse) : (s.setMark i x).flash = s.flash := rfl
@[simp] theorem setMark_sec (s : State) (i : Nat) (x : Option Pulse) : (s.setMark i x).sec = s.sec := rfl
@[simp] theorem setMark_power (s : State) (i : Nat) (x : Option Pulse) : (s.setMark i x).power = s.power := rfl
@[simp] theorem setMark_age (s : State) (i : Nat) (x : Option Pulse) : (s.setMark i x).age = s.age := rfl
@[simp] theorem setMark_test (s : State) (i : Nat) (x : Option Pulse) : (s.setMark i x).test = s.test := rfl
@[simp] theorem setMark_dbg (s : State) (i : Nat) (x : Option Pulse) : (s.setMark i x).dbg = s.dbg := rfl
@[simp] theorem setMark_rg (s : State) (i : Nat) (x : Option Pulse) (k : Nat) : (s.setMark i x).rg k = s.rg k := rfl
@[simp] theorem setMark_el (s : State) (i : Nat) (x : Option Pulse) (k : Nat) : (s.setMark i x).el k = s.el k := rfl
@[simp] theorem setMark_slot (s : State) (i : Nat) (x : Option Pulse) (k : Nat) : (s.setMark i x).slot k = s.slot k := rfl
@[simp] theorem setMark_timer (s : State) (i : Nat) (x : Option Pulse) (k : Nat) : (s.setMark i x).timer k = s.timer k := rfl
@[simp] theorem setMark_bank (s : State) (i : Nat) (x : Option Pulse) (k : Nat) : (s.setMark i x).bank k = s.bank k := rfl
@[simp] theorem setMark_ctx (s : State) (i : Nat) (x : Option Pulse) (k : Nat) : (s.setMark i x).ctx k = s.ctx k := rfl
@[simp] theorem setMark_ax (s : State) (i : Nat) (x : Option Pulse) (k : Nat) : (s.setMark i x).ax k = s.ax k := rfl
@[simp] theorem setMark_prog (s : State) (i : Nat) (x : Option Pulse) (k : Nat) : (s.setMark i x).prog k = s.prog k := rfl
@[simp] theorem setMark_cv (s : State) (i : Nat) (x : Option Pulse) (k : Nat) : (s.setMark i x).cv k = s.cv k := rfl
@[simp] theorem setMark_br (s : State) (i : Nat) (x : Option Pulse) (k : Nat) : (s.setMark i x).br k = s.br k := rfl
@[simp] theorem setMark_fb (s : State) (i : Nat) (x : Option Pulse) (k : Nat) : (s.setMark i x).fb k = s.fb k := rfl
@[simp] theorem setMark_senc (s : State) (i : Nat) (x : Option Pulse) (k : Nat) : (s.setMark i x).senc k = s.senc k := rfl
@[simp] theorem setMark_trk (s : State) (i : Nat) (x : Option Pulse) (k : Nat) : (s.setMark i x).trk k = s.trk k := rfl
@[simp] theorem setMark_link (s : State) (i : Nat) (x : Option Pulse) (k : Nat) : (s.setMark i x).link k = s.link k := rfl
@[simp] theorem setMark_girth (s : State) (i : Nat) (x : Option Pulse) (k : Nat) : (s.setMark i x).girth k = s.girth k := rfl
@[simp] theorem setMark_eth (s : State) (i : Nat) (x : Option Pulse) (k : Nat) : (s.setMark i x).eth k = s.eth k := rfl
@[simp] theorem setMark_chan (s : State) (i : Nat) (x : Option Pulse) (k : Nat) : (s.setMark i x).chan k = s.chan k := rfl
@[simp] theorem setMark_fop (s : State) (i : Nat) (x : Option Pulse) (k : Nat) : (s.setMark i x).fop k = s.fop k := rfl
@[simp] theorem setMark_wdg (s : State) (i : Nat) (x : Option Pulse) (k : Nat) : (s.setMark i x).wdg k = s.wdg k := rfl
@[simp] theorem setMark_unit (s : State) (i : Nat) (x : Option Pulse) (k : Nat) : (s.setMark i x).unit_ k = s.unit_ k := rfl

/-! ### `setLink` -/

@[simp] theorem setLink_pending (s : State) (i : Nat) (x : Link) : (s.setLink i x).pending = s.pending := rfl
@[simp] theorem setLink_resp (s : State) (i : Nat) (x : Link) : (s.setLink i x).resp = s.resp := rfl
@[simp] theorem setLink_free (s : State) (i : Nat) (x : Link) : (s.setLink i x).free = s.free := rfl
@[simp] theorem setLink_regs (s : State) (i : Nat) (x : Link) : (s.setLink i x).regs = s.regs := rfl
@[simp] theorem setLink_mem (s : State) (i : Nat) (x : Link) : (s.setLink i x).mem = s.mem := rfl
@[simp] theorem setLink_poison (s : State) (i : Nat) (x : Link) : (s.setLink i x).poison = s.poison := rfl
@[simp] theorem setLink_time (s : State) (i : Nat) (x : Link) : (s.setLink i x).time = s.time := rfl
@[simp] theorem setLink_core (s : State) (i : Nat) (x : Link) : (s.setLink i x).core = s.core := rfl
@[simp] theorem setLink_axis (s : State) (i : Nat) (x : Link) : (s.setLink i x).axis = s.axis := rfl
@[simp] theorem setLink_conv (s : State) (i : Nat) (x : Link) : (s.setLink i x).conv = s.conv := rfl
@[simp] theorem setLink_feed (s : State) (i : Nat) (x : Link) : (s.setLink i x).feed = s.feed := rfl
@[simp] theorem setLink_faultSeq (s : State) (i : Nat) (x : Link) : (s.setLink i x).faultSeq = s.faultSeq := rfl
@[simp] theorem setLink_faultQueue (s : State) (i : Nat) (x : Link) : (s.setLink i x).faultQueue = s.faultQueue := rfl
@[simp] theorem setLink_pwm (s : State) (i : Nat) (x : Link) : (s.setLink i x).pwm = s.pwm := rfl
@[simp] theorem setLink_ballScan (s : State) (i : Nat) (x : Link) : (s.setLink i x).ballScan = s.ballScan := rfl
@[simp] theorem setLink_ports (s : State) (i : Nat) (x : Link) : (s.setLink i x).ports = s.ports := rfl
@[simp] theorem setLink_dma (s : State) (i : Nat) (x : Link) : (s.setLink i x).dma = s.dma := rfl
@[simp] theorem setLink_flash (s : State) (i : Nat) (x : Link) : (s.setLink i x).flash = s.flash := rfl
@[simp] theorem setLink_sec (s : State) (i : Nat) (x : Link) : (s.setLink i x).sec = s.sec := rfl
@[simp] theorem setLink_power (s : State) (i : Nat) (x : Link) : (s.setLink i x).power = s.power := rfl
@[simp] theorem setLink_age (s : State) (i : Nat) (x : Link) : (s.setLink i x).age = s.age := rfl
@[simp] theorem setLink_test (s : State) (i : Nat) (x : Link) : (s.setLink i x).test = s.test := rfl
@[simp] theorem setLink_dbg (s : State) (i : Nat) (x : Link) : (s.setLink i x).dbg = s.dbg := rfl
@[simp] theorem setLink_rg (s : State) (i : Nat) (x : Link) (k : Nat) : (s.setLink i x).rg k = s.rg k := rfl
@[simp] theorem setLink_el (s : State) (i : Nat) (x : Link) (k : Nat) : (s.setLink i x).el k = s.el k := rfl
@[simp] theorem setLink_slot (s : State) (i : Nat) (x : Link) (k : Nat) : (s.setLink i x).slot k = s.slot k := rfl
@[simp] theorem setLink_timer (s : State) (i : Nat) (x : Link) (k : Nat) : (s.setLink i x).timer k = s.timer k := rfl
@[simp] theorem setLink_bank (s : State) (i : Nat) (x : Link) (k : Nat) : (s.setLink i x).bank k = s.bank k := rfl
@[simp] theorem setLink_ctx (s : State) (i : Nat) (x : Link) (k : Nat) : (s.setLink i x).ctx k = s.ctx k := rfl
@[simp] theorem setLink_ax (s : State) (i : Nat) (x : Link) (k : Nat) : (s.setLink i x).ax k = s.ax k := rfl
@[simp] theorem setLink_prog (s : State) (i : Nat) (x : Link) (k : Nat) : (s.setLink i x).prog k = s.prog k := rfl
@[simp] theorem setLink_cv (s : State) (i : Nat) (x : Link) (k : Nat) : (s.setLink i x).cv k = s.cv k := rfl
@[simp] theorem setLink_br (s : State) (i : Nat) (x : Link) (k : Nat) : (s.setLink i x).br k = s.br k := rfl
@[simp] theorem setLink_fb (s : State) (i : Nat) (x : Link) (k : Nat) : (s.setLink i x).fb k = s.fb k := rfl
@[simp] theorem setLink_senc (s : State) (i : Nat) (x : Link) (k : Nat) : (s.setLink i x).senc k = s.senc k := rfl
@[simp] theorem setLink_trk (s : State) (i : Nat) (x : Link) (k : Nat) : (s.setLink i x).trk k = s.trk k := rfl
@[simp] theorem setLink_mark (s : State) (i : Nat) (x : Link) (k : Nat) : (s.setLink i x).mark k = s.mark k := rfl
@[simp] theorem setLink_girth (s : State) (i : Nat) (x : Link) (k : Nat) : (s.setLink i x).girth k = s.girth k := rfl
@[simp] theorem setLink_eth (s : State) (i : Nat) (x : Link) (k : Nat) : (s.setLink i x).eth k = s.eth k := rfl
@[simp] theorem setLink_chan (s : State) (i : Nat) (x : Link) (k : Nat) : (s.setLink i x).chan k = s.chan k := rfl
@[simp] theorem setLink_fop (s : State) (i : Nat) (x : Link) (k : Nat) : (s.setLink i x).fop k = s.fop k := rfl
@[simp] theorem setLink_wdg (s : State) (i : Nat) (x : Link) (k : Nat) : (s.setLink i x).wdg k = s.wdg k := rfl
@[simp] theorem setLink_unit (s : State) (i : Nat) (x : Link) (k : Nat) : (s.setLink i x).unit_ k = s.unit_ k := rfl

/-! ### `setGirth` -/

@[simp] theorem setGirth_pending (s : State) (i : Nat) (x : GirthPort) : (s.setGirth i x).pending = s.pending := rfl
@[simp] theorem setGirth_resp (s : State) (i : Nat) (x : GirthPort) : (s.setGirth i x).resp = s.resp := rfl
@[simp] theorem setGirth_free (s : State) (i : Nat) (x : GirthPort) : (s.setGirth i x).free = s.free := rfl
@[simp] theorem setGirth_regs (s : State) (i : Nat) (x : GirthPort) : (s.setGirth i x).regs = s.regs := rfl
@[simp] theorem setGirth_mem (s : State) (i : Nat) (x : GirthPort) : (s.setGirth i x).mem = s.mem := rfl
@[simp] theorem setGirth_poison (s : State) (i : Nat) (x : GirthPort) : (s.setGirth i x).poison = s.poison := rfl
@[simp] theorem setGirth_time (s : State) (i : Nat) (x : GirthPort) : (s.setGirth i x).time = s.time := rfl
@[simp] theorem setGirth_core (s : State) (i : Nat) (x : GirthPort) : (s.setGirth i x).core = s.core := rfl
@[simp] theorem setGirth_axis (s : State) (i : Nat) (x : GirthPort) : (s.setGirth i x).axis = s.axis := rfl
@[simp] theorem setGirth_conv (s : State) (i : Nat) (x : GirthPort) : (s.setGirth i x).conv = s.conv := rfl
@[simp] theorem setGirth_feed (s : State) (i : Nat) (x : GirthPort) : (s.setGirth i x).feed = s.feed := rfl
@[simp] theorem setGirth_faultSeq (s : State) (i : Nat) (x : GirthPort) : (s.setGirth i x).faultSeq = s.faultSeq := rfl
@[simp] theorem setGirth_faultQueue (s : State) (i : Nat) (x : GirthPort) : (s.setGirth i x).faultQueue = s.faultQueue := rfl
@[simp] theorem setGirth_pwm (s : State) (i : Nat) (x : GirthPort) : (s.setGirth i x).pwm = s.pwm := rfl
@[simp] theorem setGirth_ballScan (s : State) (i : Nat) (x : GirthPort) : (s.setGirth i x).ballScan = s.ballScan := rfl
@[simp] theorem setGirth_teth (s : State) (i : Nat) (x : GirthPort) : (s.setGirth i x).teth = s.teth := rfl
@[simp] theorem setGirth_dma (s : State) (i : Nat) (x : GirthPort) : (s.setGirth i x).dma = s.dma := rfl
@[simp] theorem setGirth_flash (s : State) (i : Nat) (x : GirthPort) : (s.setGirth i x).flash = s.flash := rfl
@[simp] theorem setGirth_sec (s : State) (i : Nat) (x : GirthPort) : (s.setGirth i x).sec = s.sec := rfl
@[simp] theorem setGirth_power (s : State) (i : Nat) (x : GirthPort) : (s.setGirth i x).power = s.power := rfl
@[simp] theorem setGirth_age (s : State) (i : Nat) (x : GirthPort) : (s.setGirth i x).age = s.age := rfl
@[simp] theorem setGirth_test (s : State) (i : Nat) (x : GirthPort) : (s.setGirth i x).test = s.test := rfl
@[simp] theorem setGirth_dbg (s : State) (i : Nat) (x : GirthPort) : (s.setGirth i x).dbg = s.dbg := rfl
@[simp] theorem setGirth_rg (s : State) (i : Nat) (x : GirthPort) (k : Nat) : (s.setGirth i x).rg k = s.rg k := rfl
@[simp] theorem setGirth_el (s : State) (i : Nat) (x : GirthPort) (k : Nat) : (s.setGirth i x).el k = s.el k := rfl
@[simp] theorem setGirth_slot (s : State) (i : Nat) (x : GirthPort) (k : Nat) : (s.setGirth i x).slot k = s.slot k := rfl
@[simp] theorem setGirth_timer (s : State) (i : Nat) (x : GirthPort) (k : Nat) : (s.setGirth i x).timer k = s.timer k := rfl
@[simp] theorem setGirth_bank (s : State) (i : Nat) (x : GirthPort) (k : Nat) : (s.setGirth i x).bank k = s.bank k := rfl
@[simp] theorem setGirth_ctx (s : State) (i : Nat) (x : GirthPort) (k : Nat) : (s.setGirth i x).ctx k = s.ctx k := rfl
@[simp] theorem setGirth_ax (s : State) (i : Nat) (x : GirthPort) (k : Nat) : (s.setGirth i x).ax k = s.ax k := rfl
@[simp] theorem setGirth_prog (s : State) (i : Nat) (x : GirthPort) (k : Nat) : (s.setGirth i x).prog k = s.prog k := rfl
@[simp] theorem setGirth_cv (s : State) (i : Nat) (x : GirthPort) (k : Nat) : (s.setGirth i x).cv k = s.cv k := rfl
@[simp] theorem setGirth_br (s : State) (i : Nat) (x : GirthPort) (k : Nat) : (s.setGirth i x).br k = s.br k := rfl
@[simp] theorem setGirth_fb (s : State) (i : Nat) (x : GirthPort) (k : Nat) : (s.setGirth i x).fb k = s.fb k := rfl
@[simp] theorem setGirth_senc (s : State) (i : Nat) (x : GirthPort) (k : Nat) : (s.setGirth i x).senc k = s.senc k := rfl
@[simp] theorem setGirth_trk (s : State) (i : Nat) (x : GirthPort) (k : Nat) : (s.setGirth i x).trk k = s.trk k := rfl
@[simp] theorem setGirth_mark (s : State) (i : Nat) (x : GirthPort) (k : Nat) : (s.setGirth i x).mark k = s.mark k := rfl
@[simp] theorem setGirth_link (s : State) (i : Nat) (x : GirthPort) (k : Nat) : (s.setGirth i x).link k = s.link k := rfl
@[simp] theorem setGirth_eth (s : State) (i : Nat) (x : GirthPort) (k : Nat) : (s.setGirth i x).eth k = s.eth k := rfl
@[simp] theorem setGirth_chan (s : State) (i : Nat) (x : GirthPort) (k : Nat) : (s.setGirth i x).chan k = s.chan k := rfl
@[simp] theorem setGirth_fop (s : State) (i : Nat) (x : GirthPort) (k : Nat) : (s.setGirth i x).fop k = s.fop k := rfl
@[simp] theorem setGirth_wdg (s : State) (i : Nat) (x : GirthPort) (k : Nat) : (s.setGirth i x).wdg k = s.wdg k := rfl
@[simp] theorem setGirth_unit (s : State) (i : Nat) (x : GirthPort) (k : Nat) : (s.setGirth i x).unit_ k = s.unit_ k := rfl

/-! ### `setEth` -/

@[simp] theorem setEth_pending (s : State) (i : Nat) (x : EthPort) : (s.setEth i x).pending = s.pending := rfl
@[simp] theorem setEth_resp (s : State) (i : Nat) (x : EthPort) : (s.setEth i x).resp = s.resp := rfl
@[simp] theorem setEth_free (s : State) (i : Nat) (x : EthPort) : (s.setEth i x).free = s.free := rfl
@[simp] theorem setEth_regs (s : State) (i : Nat) (x : EthPort) : (s.setEth i x).regs = s.regs := rfl
@[simp] theorem setEth_mem (s : State) (i : Nat) (x : EthPort) : (s.setEth i x).mem = s.mem := rfl
@[simp] theorem setEth_poison (s : State) (i : Nat) (x : EthPort) : (s.setEth i x).poison = s.poison := rfl
@[simp] theorem setEth_time (s : State) (i : Nat) (x : EthPort) : (s.setEth i x).time = s.time := rfl
@[simp] theorem setEth_core (s : State) (i : Nat) (x : EthPort) : (s.setEth i x).core = s.core := rfl
@[simp] theorem setEth_axis (s : State) (i : Nat) (x : EthPort) : (s.setEth i x).axis = s.axis := rfl
@[simp] theorem setEth_conv (s : State) (i : Nat) (x : EthPort) : (s.setEth i x).conv = s.conv := rfl
@[simp] theorem setEth_feed (s : State) (i : Nat) (x : EthPort) : (s.setEth i x).feed = s.feed := rfl
@[simp] theorem setEth_faultSeq (s : State) (i : Nat) (x : EthPort) : (s.setEth i x).faultSeq = s.faultSeq := rfl
@[simp] theorem setEth_faultQueue (s : State) (i : Nat) (x : EthPort) : (s.setEth i x).faultQueue = s.faultQueue := rfl
@[simp] theorem setEth_pwm (s : State) (i : Nat) (x : EthPort) : (s.setEth i x).pwm = s.pwm := rfl
@[simp] theorem setEth_ballScan (s : State) (i : Nat) (x : EthPort) : (s.setEth i x).ballScan = s.ballScan := rfl
@[simp] theorem setEth_teth (s : State) (i : Nat) (x : EthPort) : (s.setEth i x).teth = s.teth := rfl
@[simp] theorem setEth_dma (s : State) (i : Nat) (x : EthPort) : (s.setEth i x).dma = s.dma := rfl
@[simp] theorem setEth_flash (s : State) (i : Nat) (x : EthPort) : (s.setEth i x).flash = s.flash := rfl
@[simp] theorem setEth_sec (s : State) (i : Nat) (x : EthPort) : (s.setEth i x).sec = s.sec := rfl
@[simp] theorem setEth_power (s : State) (i : Nat) (x : EthPort) : (s.setEth i x).power = s.power := rfl
@[simp] theorem setEth_age (s : State) (i : Nat) (x : EthPort) : (s.setEth i x).age = s.age := rfl
@[simp] theorem setEth_test (s : State) (i : Nat) (x : EthPort) : (s.setEth i x).test = s.test := rfl
@[simp] theorem setEth_dbg (s : State) (i : Nat) (x : EthPort) : (s.setEth i x).dbg = s.dbg := rfl
@[simp] theorem setEth_rg (s : State) (i : Nat) (x : EthPort) (k : Nat) : (s.setEth i x).rg k = s.rg k := rfl
@[simp] theorem setEth_el (s : State) (i : Nat) (x : EthPort) (k : Nat) : (s.setEth i x).el k = s.el k := rfl
@[simp] theorem setEth_slot (s : State) (i : Nat) (x : EthPort) (k : Nat) : (s.setEth i x).slot k = s.slot k := rfl
@[simp] theorem setEth_timer (s : State) (i : Nat) (x : EthPort) (k : Nat) : (s.setEth i x).timer k = s.timer k := rfl
@[simp] theorem setEth_bank (s : State) (i : Nat) (x : EthPort) (k : Nat) : (s.setEth i x).bank k = s.bank k := rfl
@[simp] theorem setEth_ctx (s : State) (i : Nat) (x : EthPort) (k : Nat) : (s.setEth i x).ctx k = s.ctx k := rfl
@[simp] theorem setEth_ax (s : State) (i : Nat) (x : EthPort) (k : Nat) : (s.setEth i x).ax k = s.ax k := rfl
@[simp] theorem setEth_prog (s : State) (i : Nat) (x : EthPort) (k : Nat) : (s.setEth i x).prog k = s.prog k := rfl
@[simp] theorem setEth_cv (s : State) (i : Nat) (x : EthPort) (k : Nat) : (s.setEth i x).cv k = s.cv k := rfl
@[simp] theorem setEth_br (s : State) (i : Nat) (x : EthPort) (k : Nat) : (s.setEth i x).br k = s.br k := rfl
@[simp] theorem setEth_fb (s : State) (i : Nat) (x : EthPort) (k : Nat) : (s.setEth i x).fb k = s.fb k := rfl
@[simp] theorem setEth_senc (s : State) (i : Nat) (x : EthPort) (k : Nat) : (s.setEth i x).senc k = s.senc k := rfl
@[simp] theorem setEth_trk (s : State) (i : Nat) (x : EthPort) (k : Nat) : (s.setEth i x).trk k = s.trk k := rfl
@[simp] theorem setEth_mark (s : State) (i : Nat) (x : EthPort) (k : Nat) : (s.setEth i x).mark k = s.mark k := rfl
@[simp] theorem setEth_link (s : State) (i : Nat) (x : EthPort) (k : Nat) : (s.setEth i x).link k = s.link k := rfl
@[simp] theorem setEth_girth (s : State) (i : Nat) (x : EthPort) (k : Nat) : (s.setEth i x).girth k = s.girth k := rfl
@[simp] theorem setEth_chan (s : State) (i : Nat) (x : EthPort) (k : Nat) : (s.setEth i x).chan k = s.chan k := rfl
@[simp] theorem setEth_fop (s : State) (i : Nat) (x : EthPort) (k : Nat) : (s.setEth i x).fop k = s.fop k := rfl
@[simp] theorem setEth_wdg (s : State) (i : Nat) (x : EthPort) (k : Nat) : (s.setEth i x).wdg k = s.wdg k := rfl
@[simp] theorem setEth_unit (s : State) (i : Nat) (x : EthPort) (k : Nat) : (s.setEth i x).unit_ k = s.unit_ k := rfl

/-! ### `setChan` -/

@[simp] theorem setChan_pending (s : State) (i : Nat) (x : DmaChan) : (s.setChan i x).pending = s.pending := rfl
@[simp] theorem setChan_resp (s : State) (i : Nat) (x : DmaChan) : (s.setChan i x).resp = s.resp := rfl
@[simp] theorem setChan_free (s : State) (i : Nat) (x : DmaChan) : (s.setChan i x).free = s.free := rfl
@[simp] theorem setChan_regs (s : State) (i : Nat) (x : DmaChan) : (s.setChan i x).regs = s.regs := rfl
@[simp] theorem setChan_mem (s : State) (i : Nat) (x : DmaChan) : (s.setChan i x).mem = s.mem := rfl
@[simp] theorem setChan_poison (s : State) (i : Nat) (x : DmaChan) : (s.setChan i x).poison = s.poison := rfl
@[simp] theorem setChan_time (s : State) (i : Nat) (x : DmaChan) : (s.setChan i x).time = s.time := rfl
@[simp] theorem setChan_core (s : State) (i : Nat) (x : DmaChan) : (s.setChan i x).core = s.core := rfl
@[simp] theorem setChan_axis (s : State) (i : Nat) (x : DmaChan) : (s.setChan i x).axis = s.axis := rfl
@[simp] theorem setChan_conv (s : State) (i : Nat) (x : DmaChan) : (s.setChan i x).conv = s.conv := rfl
@[simp] theorem setChan_feed (s : State) (i : Nat) (x : DmaChan) : (s.setChan i x).feed = s.feed := rfl
@[simp] theorem setChan_faultSeq (s : State) (i : Nat) (x : DmaChan) : (s.setChan i x).faultSeq = s.faultSeq := rfl
@[simp] theorem setChan_faultQueue (s : State) (i : Nat) (x : DmaChan) : (s.setChan i x).faultQueue = s.faultQueue := rfl
@[simp] theorem setChan_pwm (s : State) (i : Nat) (x : DmaChan) : (s.setChan i x).pwm = s.pwm := rfl
@[simp] theorem setChan_ballScan (s : State) (i : Nat) (x : DmaChan) : (s.setChan i x).ballScan = s.ballScan := rfl
@[simp] theorem setChan_teth (s : State) (i : Nat) (x : DmaChan) : (s.setChan i x).teth = s.teth := rfl
@[simp] theorem setChan_ports (s : State) (i : Nat) (x : DmaChan) : (s.setChan i x).ports = s.ports := rfl
@[simp] theorem setChan_flash (s : State) (i : Nat) (x : DmaChan) : (s.setChan i x).flash = s.flash := rfl
@[simp] theorem setChan_sec (s : State) (i : Nat) (x : DmaChan) : (s.setChan i x).sec = s.sec := rfl
@[simp] theorem setChan_power (s : State) (i : Nat) (x : DmaChan) : (s.setChan i x).power = s.power := rfl
@[simp] theorem setChan_age (s : State) (i : Nat) (x : DmaChan) : (s.setChan i x).age = s.age := rfl
@[simp] theorem setChan_test (s : State) (i : Nat) (x : DmaChan) : (s.setChan i x).test = s.test := rfl
@[simp] theorem setChan_dbg (s : State) (i : Nat) (x : DmaChan) : (s.setChan i x).dbg = s.dbg := rfl
@[simp] theorem setChan_rg (s : State) (i : Nat) (x : DmaChan) (k : Nat) : (s.setChan i x).rg k = s.rg k := rfl
@[simp] theorem setChan_el (s : State) (i : Nat) (x : DmaChan) (k : Nat) : (s.setChan i x).el k = s.el k := rfl
@[simp] theorem setChan_slot (s : State) (i : Nat) (x : DmaChan) (k : Nat) : (s.setChan i x).slot k = s.slot k := rfl
@[simp] theorem setChan_timer (s : State) (i : Nat) (x : DmaChan) (k : Nat) : (s.setChan i x).timer k = s.timer k := rfl
@[simp] theorem setChan_bank (s : State) (i : Nat) (x : DmaChan) (k : Nat) : (s.setChan i x).bank k = s.bank k := rfl
@[simp] theorem setChan_ctx (s : State) (i : Nat) (x : DmaChan) (k : Nat) : (s.setChan i x).ctx k = s.ctx k := rfl
@[simp] theorem setChan_ax (s : State) (i : Nat) (x : DmaChan) (k : Nat) : (s.setChan i x).ax k = s.ax k := rfl
@[simp] theorem setChan_prog (s : State) (i : Nat) (x : DmaChan) (k : Nat) : (s.setChan i x).prog k = s.prog k := rfl
@[simp] theorem setChan_cv (s : State) (i : Nat) (x : DmaChan) (k : Nat) : (s.setChan i x).cv k = s.cv k := rfl
@[simp] theorem setChan_br (s : State) (i : Nat) (x : DmaChan) (k : Nat) : (s.setChan i x).br k = s.br k := rfl
@[simp] theorem setChan_fb (s : State) (i : Nat) (x : DmaChan) (k : Nat) : (s.setChan i x).fb k = s.fb k := rfl
@[simp] theorem setChan_senc (s : State) (i : Nat) (x : DmaChan) (k : Nat) : (s.setChan i x).senc k = s.senc k := rfl
@[simp] theorem setChan_trk (s : State) (i : Nat) (x : DmaChan) (k : Nat) : (s.setChan i x).trk k = s.trk k := rfl
@[simp] theorem setChan_mark (s : State) (i : Nat) (x : DmaChan) (k : Nat) : (s.setChan i x).mark k = s.mark k := rfl
@[simp] theorem setChan_link (s : State) (i : Nat) (x : DmaChan) (k : Nat) : (s.setChan i x).link k = s.link k := rfl
@[simp] theorem setChan_girth (s : State) (i : Nat) (x : DmaChan) (k : Nat) : (s.setChan i x).girth k = s.girth k := rfl
@[simp] theorem setChan_eth (s : State) (i : Nat) (x : DmaChan) (k : Nat) : (s.setChan i x).eth k = s.eth k := rfl
@[simp] theorem setChan_fop (s : State) (i : Nat) (x : DmaChan) (k : Nat) : (s.setChan i x).fop k = s.fop k := rfl
@[simp] theorem setChan_wdg (s : State) (i : Nat) (x : DmaChan) (k : Nat) : (s.setChan i x).wdg k = s.wdg k := rfl
@[simp] theorem setChan_unit (s : State) (i : Nat) (x : DmaChan) (k : Nat) : (s.setChan i x).unit_ k = s.unit_ k := rfl

/-! ### `setFop` -/

@[simp] theorem setFop_pending (s : State) (i : Nat) (x : FlashOp) : (s.setFop i x).pending = s.pending := rfl
@[simp] theorem setFop_resp (s : State) (i : Nat) (x : FlashOp) : (s.setFop i x).resp = s.resp := rfl
@[simp] theorem setFop_free (s : State) (i : Nat) (x : FlashOp) : (s.setFop i x).free = s.free := rfl
@[simp] theorem setFop_regs (s : State) (i : Nat) (x : FlashOp) : (s.setFop i x).regs = s.regs := rfl
@[simp] theorem setFop_mem (s : State) (i : Nat) (x : FlashOp) : (s.setFop i x).mem = s.mem := rfl
@[simp] theorem setFop_poison (s : State) (i : Nat) (x : FlashOp) : (s.setFop i x).poison = s.poison := rfl
@[simp] theorem setFop_time (s : State) (i : Nat) (x : FlashOp) : (s.setFop i x).time = s.time := rfl
@[simp] theorem setFop_core (s : State) (i : Nat) (x : FlashOp) : (s.setFop i x).core = s.core := rfl
@[simp] theorem setFop_axis (s : State) (i : Nat) (x : FlashOp) : (s.setFop i x).axis = s.axis := rfl
@[simp] theorem setFop_conv (s : State) (i : Nat) (x : FlashOp) : (s.setFop i x).conv = s.conv := rfl
@[simp] theorem setFop_feed (s : State) (i : Nat) (x : FlashOp) : (s.setFop i x).feed = s.feed := rfl
@[simp] theorem setFop_faultSeq (s : State) (i : Nat) (x : FlashOp) : (s.setFop i x).faultSeq = s.faultSeq := rfl
@[simp] theorem setFop_faultQueue (s : State) (i : Nat) (x : FlashOp) : (s.setFop i x).faultQueue = s.faultQueue := rfl
@[simp] theorem setFop_pwm (s : State) (i : Nat) (x : FlashOp) : (s.setFop i x).pwm = s.pwm := rfl
@[simp] theorem setFop_ballScan (s : State) (i : Nat) (x : FlashOp) : (s.setFop i x).ballScan = s.ballScan := rfl
@[simp] theorem setFop_teth (s : State) (i : Nat) (x : FlashOp) : (s.setFop i x).teth = s.teth := rfl
@[simp] theorem setFop_ports (s : State) (i : Nat) (x : FlashOp) : (s.setFop i x).ports = s.ports := rfl
@[simp] theorem setFop_dma (s : State) (i : Nat) (x : FlashOp) : (s.setFop i x).dma = s.dma := rfl
@[simp] theorem setFop_sec (s : State) (i : Nat) (x : FlashOp) : (s.setFop i x).sec = s.sec := rfl
@[simp] theorem setFop_power (s : State) (i : Nat) (x : FlashOp) : (s.setFop i x).power = s.power := rfl
@[simp] theorem setFop_age (s : State) (i : Nat) (x : FlashOp) : (s.setFop i x).age = s.age := rfl
@[simp] theorem setFop_test (s : State) (i : Nat) (x : FlashOp) : (s.setFop i x).test = s.test := rfl
@[simp] theorem setFop_dbg (s : State) (i : Nat) (x : FlashOp) : (s.setFop i x).dbg = s.dbg := rfl
@[simp] theorem setFop_rg (s : State) (i : Nat) (x : FlashOp) (k : Nat) : (s.setFop i x).rg k = s.rg k := rfl
@[simp] theorem setFop_el (s : State) (i : Nat) (x : FlashOp) (k : Nat) : (s.setFop i x).el k = s.el k := rfl
@[simp] theorem setFop_slot (s : State) (i : Nat) (x : FlashOp) (k : Nat) : (s.setFop i x).slot k = s.slot k := rfl
@[simp] theorem setFop_timer (s : State) (i : Nat) (x : FlashOp) (k : Nat) : (s.setFop i x).timer k = s.timer k := rfl
@[simp] theorem setFop_bank (s : State) (i : Nat) (x : FlashOp) (k : Nat) : (s.setFop i x).bank k = s.bank k := rfl
@[simp] theorem setFop_ctx (s : State) (i : Nat) (x : FlashOp) (k : Nat) : (s.setFop i x).ctx k = s.ctx k := rfl
@[simp] theorem setFop_ax (s : State) (i : Nat) (x : FlashOp) (k : Nat) : (s.setFop i x).ax k = s.ax k := rfl
@[simp] theorem setFop_prog (s : State) (i : Nat) (x : FlashOp) (k : Nat) : (s.setFop i x).prog k = s.prog k := rfl
@[simp] theorem setFop_cv (s : State) (i : Nat) (x : FlashOp) (k : Nat) : (s.setFop i x).cv k = s.cv k := rfl
@[simp] theorem setFop_br (s : State) (i : Nat) (x : FlashOp) (k : Nat) : (s.setFop i x).br k = s.br k := rfl
@[simp] theorem setFop_fb (s : State) (i : Nat) (x : FlashOp) (k : Nat) : (s.setFop i x).fb k = s.fb k := rfl
@[simp] theorem setFop_senc (s : State) (i : Nat) (x : FlashOp) (k : Nat) : (s.setFop i x).senc k = s.senc k := rfl
@[simp] theorem setFop_trk (s : State) (i : Nat) (x : FlashOp) (k : Nat) : (s.setFop i x).trk k = s.trk k := rfl
@[simp] theorem setFop_mark (s : State) (i : Nat) (x : FlashOp) (k : Nat) : (s.setFop i x).mark k = s.mark k := rfl
@[simp] theorem setFop_link (s : State) (i : Nat) (x : FlashOp) (k : Nat) : (s.setFop i x).link k = s.link k := rfl
@[simp] theorem setFop_girth (s : State) (i : Nat) (x : FlashOp) (k : Nat) : (s.setFop i x).girth k = s.girth k := rfl
@[simp] theorem setFop_eth (s : State) (i : Nat) (x : FlashOp) (k : Nat) : (s.setFop i x).eth k = s.eth k := rfl
@[simp] theorem setFop_chan (s : State) (i : Nat) (x : FlashOp) (k : Nat) : (s.setFop i x).chan k = s.chan k := rfl
@[simp] theorem setFop_wdg (s : State) (i : Nat) (x : FlashOp) (k : Nat) : (s.setFop i x).wdg k = s.wdg k := rfl
@[simp] theorem setFop_unit (s : State) (i : Nat) (x : FlashOp) (k : Nat) : (s.setFop i x).unit_ k = s.unit_ k := rfl

/-! ### `setWdg` -/

@[simp] theorem setWdg_pending (s : State) (i : Nat) (x : Wdg) : (s.setWdg i x).pending = s.pending := rfl
@[simp] theorem setWdg_resp (s : State) (i : Nat) (x : Wdg) : (s.setWdg i x).resp = s.resp := rfl
@[simp] theorem setWdg_free (s : State) (i : Nat) (x : Wdg) : (s.setWdg i x).free = s.free := rfl
@[simp] theorem setWdg_regs (s : State) (i : Nat) (x : Wdg) : (s.setWdg i x).regs = s.regs := rfl
@[simp] theorem setWdg_mem (s : State) (i : Nat) (x : Wdg) : (s.setWdg i x).mem = s.mem := rfl
@[simp] theorem setWdg_poison (s : State) (i : Nat) (x : Wdg) : (s.setWdg i x).poison = s.poison := rfl
@[simp] theorem setWdg_time (s : State) (i : Nat) (x : Wdg) : (s.setWdg i x).time = s.time := rfl
@[simp] theorem setWdg_core (s : State) (i : Nat) (x : Wdg) : (s.setWdg i x).core = s.core := rfl
@[simp] theorem setWdg_axis (s : State) (i : Nat) (x : Wdg) : (s.setWdg i x).axis = s.axis := rfl
@[simp] theorem setWdg_conv (s : State) (i : Nat) (x : Wdg) : (s.setWdg i x).conv = s.conv := rfl
@[simp] theorem setWdg_feed (s : State) (i : Nat) (x : Wdg) : (s.setWdg i x).feed = s.feed := rfl
@[simp] theorem setWdg_faultSeq (s : State) (i : Nat) (x : Wdg) : (s.setWdg i x).faultSeq = s.faultSeq := rfl
@[simp] theorem setWdg_faultQueue (s : State) (i : Nat) (x : Wdg) : (s.setWdg i x).faultQueue = s.faultQueue := rfl
@[simp] theorem setWdg_pwm (s : State) (i : Nat) (x : Wdg) : (s.setWdg i x).pwm = s.pwm := rfl
@[simp] theorem setWdg_ballScan (s : State) (i : Nat) (x : Wdg) : (s.setWdg i x).ballScan = s.ballScan := rfl
@[simp] theorem setWdg_teth (s : State) (i : Nat) (x : Wdg) : (s.setWdg i x).teth = s.teth := rfl
@[simp] theorem setWdg_ports (s : State) (i : Nat) (x : Wdg) : (s.setWdg i x).ports = s.ports := rfl
@[simp] theorem setWdg_dma (s : State) (i : Nat) (x : Wdg) : (s.setWdg i x).dma = s.dma := rfl
@[simp] theorem setWdg_flash (s : State) (i : Nat) (x : Wdg) : (s.setWdg i x).flash = s.flash := rfl
@[simp] theorem setWdg_sec (s : State) (i : Nat) (x : Wdg) : (s.setWdg i x).sec = s.sec := rfl
@[simp] theorem setWdg_age (s : State) (i : Nat) (x : Wdg) : (s.setWdg i x).age = s.age := rfl
@[simp] theorem setWdg_test (s : State) (i : Nat) (x : Wdg) : (s.setWdg i x).test = s.test := rfl
@[simp] theorem setWdg_dbg (s : State) (i : Nat) (x : Wdg) : (s.setWdg i x).dbg = s.dbg := rfl
@[simp] theorem setWdg_rg (s : State) (i : Nat) (x : Wdg) (k : Nat) : (s.setWdg i x).rg k = s.rg k := rfl
@[simp] theorem setWdg_el (s : State) (i : Nat) (x : Wdg) (k : Nat) : (s.setWdg i x).el k = s.el k := rfl
@[simp] theorem setWdg_slot (s : State) (i : Nat) (x : Wdg) (k : Nat) : (s.setWdg i x).slot k = s.slot k := rfl
@[simp] theorem setWdg_timer (s : State) (i : Nat) (x : Wdg) (k : Nat) : (s.setWdg i x).timer k = s.timer k := rfl
@[simp] theorem setWdg_bank (s : State) (i : Nat) (x : Wdg) (k : Nat) : (s.setWdg i x).bank k = s.bank k := rfl
@[simp] theorem setWdg_ctx (s : State) (i : Nat) (x : Wdg) (k : Nat) : (s.setWdg i x).ctx k = s.ctx k := rfl
@[simp] theorem setWdg_ax (s : State) (i : Nat) (x : Wdg) (k : Nat) : (s.setWdg i x).ax k = s.ax k := rfl
@[simp] theorem setWdg_prog (s : State) (i : Nat) (x : Wdg) (k : Nat) : (s.setWdg i x).prog k = s.prog k := rfl
@[simp] theorem setWdg_cv (s : State) (i : Nat) (x : Wdg) (k : Nat) : (s.setWdg i x).cv k = s.cv k := rfl
@[simp] theorem setWdg_br (s : State) (i : Nat) (x : Wdg) (k : Nat) : (s.setWdg i x).br k = s.br k := rfl
@[simp] theorem setWdg_fb (s : State) (i : Nat) (x : Wdg) (k : Nat) : (s.setWdg i x).fb k = s.fb k := rfl
@[simp] theorem setWdg_senc (s : State) (i : Nat) (x : Wdg) (k : Nat) : (s.setWdg i x).senc k = s.senc k := rfl
@[simp] theorem setWdg_trk (s : State) (i : Nat) (x : Wdg) (k : Nat) : (s.setWdg i x).trk k = s.trk k := rfl
@[simp] theorem setWdg_mark (s : State) (i : Nat) (x : Wdg) (k : Nat) : (s.setWdg i x).mark k = s.mark k := rfl
@[simp] theorem setWdg_link (s : State) (i : Nat) (x : Wdg) (k : Nat) : (s.setWdg i x).link k = s.link k := rfl
@[simp] theorem setWdg_girth (s : State) (i : Nat) (x : Wdg) (k : Nat) : (s.setWdg i x).girth k = s.girth k := rfl
@[simp] theorem setWdg_eth (s : State) (i : Nat) (x : Wdg) (k : Nat) : (s.setWdg i x).eth k = s.eth k := rfl
@[simp] theorem setWdg_chan (s : State) (i : Nat) (x : Wdg) (k : Nat) : (s.setWdg i x).chan k = s.chan k := rfl
@[simp] theorem setWdg_fop (s : State) (i : Nat) (x : Wdg) (k : Nat) : (s.setWdg i x).fop k = s.fop k := rfl
@[simp] theorem setWdg_unit (s : State) (i : Nat) (x : Wdg) (k : Nat) : (s.setWdg i x).unit_ k = s.unit_ k := rfl

/-! ### `setUnit` -/

@[simp] theorem setUnit_pending (s : State) (i : Nat) (x : AgeUnit) : (s.setUnit i x).pending = s.pending := rfl
@[simp] theorem setUnit_resp (s : State) (i : Nat) (x : AgeUnit) : (s.setUnit i x).resp = s.resp := rfl
@[simp] theorem setUnit_free (s : State) (i : Nat) (x : AgeUnit) : (s.setUnit i x).free = s.free := rfl
@[simp] theorem setUnit_regs (s : State) (i : Nat) (x : AgeUnit) : (s.setUnit i x).regs = s.regs := rfl
@[simp] theorem setUnit_mem (s : State) (i : Nat) (x : AgeUnit) : (s.setUnit i x).mem = s.mem := rfl
@[simp] theorem setUnit_poison (s : State) (i : Nat) (x : AgeUnit) : (s.setUnit i x).poison = s.poison := rfl
@[simp] theorem setUnit_time (s : State) (i : Nat) (x : AgeUnit) : (s.setUnit i x).time = s.time := rfl
@[simp] theorem setUnit_core (s : State) (i : Nat) (x : AgeUnit) : (s.setUnit i x).core = s.core := rfl
@[simp] theorem setUnit_axis (s : State) (i : Nat) (x : AgeUnit) : (s.setUnit i x).axis = s.axis := rfl
@[simp] theorem setUnit_conv (s : State) (i : Nat) (x : AgeUnit) : (s.setUnit i x).conv = s.conv := rfl
@[simp] theorem setUnit_feed (s : State) (i : Nat) (x : AgeUnit) : (s.setUnit i x).feed = s.feed := rfl
@[simp] theorem setUnit_faultSeq (s : State) (i : Nat) (x : AgeUnit) : (s.setUnit i x).faultSeq = s.faultSeq := rfl
@[simp] theorem setUnit_faultQueue (s : State) (i : Nat) (x : AgeUnit) : (s.setUnit i x).faultQueue = s.faultQueue := rfl
@[simp] theorem setUnit_pwm (s : State) (i : Nat) (x : AgeUnit) : (s.setUnit i x).pwm = s.pwm := rfl
@[simp] theorem setUnit_ballScan (s : State) (i : Nat) (x : AgeUnit) : (s.setUnit i x).ballScan = s.ballScan := rfl
@[simp] theorem setUnit_teth (s : State) (i : Nat) (x : AgeUnit) : (s.setUnit i x).teth = s.teth := rfl
@[simp] theorem setUnit_ports (s : State) (i : Nat) (x : AgeUnit) : (s.setUnit i x).ports = s.ports := rfl
@[simp] theorem setUnit_dma (s : State) (i : Nat) (x : AgeUnit) : (s.setUnit i x).dma = s.dma := rfl
@[simp] theorem setUnit_flash (s : State) (i : Nat) (x : AgeUnit) : (s.setUnit i x).flash = s.flash := rfl
@[simp] theorem setUnit_sec (s : State) (i : Nat) (x : AgeUnit) : (s.setUnit i x).sec = s.sec := rfl
@[simp] theorem setUnit_power (s : State) (i : Nat) (x : AgeUnit) : (s.setUnit i x).power = s.power := rfl
@[simp] theorem setUnit_test (s : State) (i : Nat) (x : AgeUnit) : (s.setUnit i x).test = s.test := rfl
@[simp] theorem setUnit_dbg (s : State) (i : Nat) (x : AgeUnit) : (s.setUnit i x).dbg = s.dbg := rfl
@[simp] theorem setUnit_rg (s : State) (i : Nat) (x : AgeUnit) (k : Nat) : (s.setUnit i x).rg k = s.rg k := rfl
@[simp] theorem setUnit_el (s : State) (i : Nat) (x : AgeUnit) (k : Nat) : (s.setUnit i x).el k = s.el k := rfl
@[simp] theorem setUnit_slot (s : State) (i : Nat) (x : AgeUnit) (k : Nat) : (s.setUnit i x).slot k = s.slot k := rfl
@[simp] theorem setUnit_timer (s : State) (i : Nat) (x : AgeUnit) (k : Nat) : (s.setUnit i x).timer k = s.timer k := rfl
@[simp] theorem setUnit_bank (s : State) (i : Nat) (x : AgeUnit) (k : Nat) : (s.setUnit i x).bank k = s.bank k := rfl
@[simp] theorem setUnit_ctx (s : State) (i : Nat) (x : AgeUnit) (k : Nat) : (s.setUnit i x).ctx k = s.ctx k := rfl
@[simp] theorem setUnit_ax (s : State) (i : Nat) (x : AgeUnit) (k : Nat) : (s.setUnit i x).ax k = s.ax k := rfl
@[simp] theorem setUnit_prog (s : State) (i : Nat) (x : AgeUnit) (k : Nat) : (s.setUnit i x).prog k = s.prog k := rfl
@[simp] theorem setUnit_cv (s : State) (i : Nat) (x : AgeUnit) (k : Nat) : (s.setUnit i x).cv k = s.cv k := rfl
@[simp] theorem setUnit_br (s : State) (i : Nat) (x : AgeUnit) (k : Nat) : (s.setUnit i x).br k = s.br k := rfl
@[simp] theorem setUnit_fb (s : State) (i : Nat) (x : AgeUnit) (k : Nat) : (s.setUnit i x).fb k = s.fb k := rfl
@[simp] theorem setUnit_senc (s : State) (i : Nat) (x : AgeUnit) (k : Nat) : (s.setUnit i x).senc k = s.senc k := rfl
@[simp] theorem setUnit_trk (s : State) (i : Nat) (x : AgeUnit) (k : Nat) : (s.setUnit i x).trk k = s.trk k := rfl
@[simp] theorem setUnit_mark (s : State) (i : Nat) (x : AgeUnit) (k : Nat) : (s.setUnit i x).mark k = s.mark k := rfl
@[simp] theorem setUnit_link (s : State) (i : Nat) (x : AgeUnit) (k : Nat) : (s.setUnit i x).link k = s.link k := rfl
@[simp] theorem setUnit_girth (s : State) (i : Nat) (x : AgeUnit) (k : Nat) : (s.setUnit i x).girth k = s.girth k := rfl
@[simp] theorem setUnit_eth (s : State) (i : Nat) (x : AgeUnit) (k : Nat) : (s.setUnit i x).eth k = s.eth k := rfl
@[simp] theorem setUnit_chan (s : State) (i : Nat) (x : AgeUnit) (k : Nat) : (s.setUnit i x).chan k = s.chan k := rfl
@[simp] theorem setUnit_fop (s : State) (i : Nat) (x : AgeUnit) (k : Nat) : (s.setUnit i x).fop k = s.fop k := rfl
@[simp] theorem setUnit_wdg (s : State) (i : Nat) (x : AgeUnit) (k : Nat) : (s.setUnit i x).wdg k = s.wdg k := rfl

/-! ### A read after a write -/

@[simp] theorem setRg_rg_self (s : State) (a : Nat) (v : Word) : (s.setRg a v).rg a = v := Tbl.get_set_self _ _ _ _
theorem setRg_rg_ne (s : State) (a : Nat) (v : Word) {j : Nat} (h : j ≠ a) : (s.setRg a v).rg j = s.rg j :=
  Tbl.get_set_ne _ _ h _
@[simp] theorem setEl_el_self (s : State) (i : Nat) (x : ElemState) : (s.setEl i x).el i = x := Tbl.get_set_self _ _ _ _
theorem setEl_el_ne (s : State) (i : Nat) (x : ElemState) {j : Nat} (h : j ≠ i) : (s.setEl i x).el j = s.el j :=
  Tbl.get_set_ne _ _ h _
@[simp] theorem setSlot_slot_self (s : State) (i : Nat) (x : Slot) : (s.setSlot i x).slot i = x := Tbl.get_set_self _ _ _ _
theorem setSlot_slot_ne (s : State) (i : Nat) (x : Slot) {j : Nat} (h : j ≠ i) : (s.setSlot i x).slot j = s.slot j :=
  Tbl.get_set_ne _ _ h _
@[simp] theorem setTimer_timer_self (s : State) (i : Nat) (x : Timer) : (s.setTimer i x).timer i = x := Tbl.get_set_self _ _ _ _
theorem setTimer_timer_ne (s : State) (i : Nat) (x : Timer) {j : Nat} (h : j ≠ i) : (s.setTimer i x).timer j = s.timer j :=
  Tbl.get_set_ne _ _ h _
@[simp] theorem setBank_bank_self (s : State) (i : Nat) (x : BankSt) : (s.setBank i x).bank i = x := Tbl.get_set_self _ _ _ _
theorem setBank_bank_ne (s : State) (i : Nat) (x : BankSt) {j : Nat} (h : j ≠ i) : (s.setBank i x).bank j = s.bank j :=
  Tbl.get_set_ne _ _ h _
@[simp] theorem setCtx_ctx_self (s : State) (i : Nat) (x : CtxSt) : (s.setCtx i x).ctx i = x := Tbl.get_set_self _ _ _ _
theorem setCtx_ctx_ne (s : State) (i : Nat) (x : CtxSt) {j : Nat} (h : j ≠ i) : (s.setCtx i x).ctx j = s.ctx j :=
  Tbl.get_set_ne _ _ h _
@[simp] theorem setAx_ax_self (s : State) (i : Nat) (x : AxisSt) : (s.setAx i x).ax i = x := Tbl.get_set_self _ _ _ _
theorem setAx_ax_ne (s : State) (i : Nat) (x : AxisSt) {j : Nat} (h : j ≠ i) : (s.setAx i x).ax j = s.ax j :=
  Tbl.get_set_ne _ _ h _
@[simp] theorem setProg_prog_self (s : State) (i : Nat) (x : Option Prog) : (s.setProg i x).prog i = x := Tbl.get_set_self _ _ _ _
theorem setProg_prog_ne (s : State) (i : Nat) (x : Option Prog) {j : Nat} (h : j ≠ i) : (s.setProg i x).prog j = s.prog j :=
  Tbl.get_set_ne _ _ h _
@[simp] theorem setCv_cv_self (s : State) (i : Nat) (x : Converter) : (s.setCv i x).cv i = x := Tbl.get_set_self _ _ _ _
theorem setCv_cv_ne (s : State) (i : Nat) (x : Converter) {j : Nat} (h : j ≠ i) : (s.setCv i x).cv j = s.cv j :=
  Tbl.get_set_ne _ _ h _
@[simp] theorem setBr_br_self (s : State) (i : Nat) (x : Bridge) : (s.setBr i x).br i = x := Tbl.get_set_self _ _ _ _
theorem setBr_br_ne (s : State) (i : Nat) (x : Bridge) {j : Nat} (h : j ≠ i) : (s.setBr i x).br j = s.br j :=
  Tbl.get_set_ne _ _ h _
@[simp] theorem setFb_fb_self (s : State) (i : Nat) (x : FbUnit) : (s.setFb i x).fb i = x := Tbl.get_set_self _ _ _ _
theorem setFb_fb_ne (s : State) (i : Nat) (x : FbUnit) {j : Nat} (h : j ≠ i) : (s.setFb i x).fb j = s.fb j :=
  Tbl.get_set_ne _ _ h _
@[simp] theorem setSenc_senc_self (s : State) (i : Nat) (x : SencPort) : (s.setSenc i x).senc i = x := Tbl.get_set_self _ _ _ _
theorem setSenc_senc_ne (s : State) (i : Nat) (x : SencPort) {j : Nat} (h : j ≠ i) : (s.setSenc i x).senc j = s.senc j :=
  Tbl.get_set_ne _ _ h _
@[simp] theorem setTrk_trk_self (s : State) (i : Nat) (x : Track) : (s.setTrk i x).trk i = x := Tbl.get_set_self _ _ _ _
theorem setTrk_trk_ne (s : State) (i : Nat) (x : Track) {j : Nat} (h : j ≠ i) : (s.setTrk i x).trk j = s.trk j :=
  Tbl.get_set_ne _ _ h _
@[simp] theorem setMark_mark_self (s : State) (i : Nat) (x : Option Pulse) : (s.setMark i x).mark i = x := Tbl.get_set_self _ _ _ _
theorem setMark_mark_ne (s : State) (i : Nat) (x : Option Pulse) {j : Nat} (h : j ≠ i) : (s.setMark i x).mark j = s.mark j :=
  Tbl.get_set_ne _ _ h _
@[simp] theorem setLink_link_self (s : State) (i : Nat) (x : Link) : (s.setLink i x).link i = x := Tbl.get_set_self _ _ _ _
theorem setLink_link_ne (s : State) (i : Nat) (x : Link) {j : Nat} (h : j ≠ i) : (s.setLink i x).link j = s.link j :=
  Tbl.get_set_ne _ _ h _
@[simp] theorem setGirth_girth_self (s : State) (i : Nat) (x : GirthPort) : (s.setGirth i x).girth i = x := Tbl.get_set_self _ _ _ _
theorem setGirth_girth_ne (s : State) (i : Nat) (x : GirthPort) {j : Nat} (h : j ≠ i) : (s.setGirth i x).girth j = s.girth j :=
  Tbl.get_set_ne _ _ h _
@[simp] theorem setEth_eth_self (s : State) (i : Nat) (x : EthPort) : (s.setEth i x).eth i = x := Tbl.get_set_self _ _ _ _
theorem setEth_eth_ne (s : State) (i : Nat) (x : EthPort) {j : Nat} (h : j ≠ i) : (s.setEth i x).eth j = s.eth j :=
  Tbl.get_set_ne _ _ h _
@[simp] theorem setChan_chan_self (s : State) (i : Nat) (x : DmaChan) : (s.setChan i x).chan i = x := Tbl.get_set_self _ _ _ _
theorem setChan_chan_ne (s : State) (i : Nat) (x : DmaChan) {j : Nat} (h : j ≠ i) : (s.setChan i x).chan j = s.chan j :=
  Tbl.get_set_ne _ _ h _
@[simp] theorem setFop_fop_self (s : State) (i : Nat) (x : FlashOp) : (s.setFop i x).fop i = x := Tbl.get_set_self _ _ _ _
theorem setFop_fop_ne (s : State) (i : Nat) (x : FlashOp) {j : Nat} (h : j ≠ i) : (s.setFop i x).fop j = s.fop j :=
  Tbl.get_set_ne _ _ h _
@[simp] theorem setWdg_wdg_self (s : State) (i : Nat) (x : Wdg) : (s.setWdg i x).wdg i = x := Tbl.get_set_self _ _ _ _
theorem setWdg_wdg_ne (s : State) (i : Nat) (x : Wdg) {j : Nat} (h : j ≠ i) : (s.setWdg i x).wdg j = s.wdg j :=
  Tbl.get_set_ne _ _ h _
@[simp] theorem setUnit_unit_self (s : State) (i : Nat) (x : AgeUnit) : (s.setUnit i x).unit_ i = x := Tbl.get_set_self _ _ _ _
theorem setUnit_unit_ne (s : State) (i : Nat) (x : AgeUnit) {j : Nat} (h : j ≠ i) : (s.setUnit i x).unit_ j = s.unit_ j :=
  Tbl.get_set_ne _ _ h _
/-- A write of a register keeps the canonical form. -/
theorem inv_setRg {s : State} (h : s.Inv) (a : Nat) (v : Word) : (s.setRg a v).Inv :=
  ⟨h.mem, Tbl.wf_set h.regs a v⟩
/-- A draw of a free value changes nothing else. -/
@[simp] theorem draw_snd (s : State) : s.draw.2 = { s with free := s.free + 1 } := rfl
@[simp] theorem draw_fst (s : State) : s.draw.1 = Config.freeNat s.free := rfl

end Sys2Proof.Machine
end

