-- ==== Sys2Proof/Laws/Frame.lean ====
section
/-! SUPPORT. What the frame of an instruction does on an element that is ready, and how the register sets and elements
read after an update. -/

namespace Sys2Proof.Machine

/-! ### Register sets -/

@[simp] theorem set_putSet (e : ElemState) (k : Nat) (r : RegSet) : (e.putSet k r).set k = r := by
  match k with
  | 0 | 1 | _ + 2 => rfl
@[simp] theorem putSet_cur (e : ElemState) (k : Nat) (r : RegSet) : (e.putSet k r).cur = e.cur := by
  match k with
  | 0 | 1 | _ + 2 => rfl
@[simp] theorem putSet_view (e : ElemState) (k : Nat) (r : RegSet) : (e.putSet k r).view = e.view := by
  match k with
  | 0 | 1 | _ + 2 => rfl
@[simp] theorem putSet_putSet (e : ElemState) (k : Nat) (r q : RegSet) : (e.putSet k r).putSet k q = e.putSet k q := by
  match k with
  | 0 | 1 | _ + 2 => rfl
@[simp] theorem rset_setRset (s : State) (i : Nat) (r : RegSet) : (s.setRset i r).rset i = r := by
  simp [State.rset, State.setRset]
@[simp] theorem setRset_view (s : State) (i : Nat) (r : RegSet) : ((s.setRset i r).el i).view = (s.el i).view := by
  simp [State.setRset]
@[simp] theorem setRset_dbg (s : State) (i : Nat) (r : RegSet) : (s.setRset i r).dbg = s.dbg := rfl
@[simp] theorem rset_putGr (s : State) (i n : Nat) (v : Word) : (putGr i n v s).rset i = (s.rset i).setGr n v :=
  rset_setRset ..
@[simp] theorem setGr_pc (r : RegSet) (n : Nat) (v : Word) : (r.setGr n v).pc = r.pc := rfl
@[simp] theorem setGr_status (r : RegSet) (n : Nat) (v : Word) : (r.setGr n v).status = r.status := rfl
@[simp] theorem setGr_pendSt (r : RegSet) (n : Nat) (v : Word) : (r.setGr n v).pendSt = r.pendSt := rfl
@[simp] theorem gr_setGr_self (r : RegSet) (n : Nat) (v : Word) : (r.setGr n v).gr n = v := Tbl.get_set_self ..
theorem gr_setGr_ne (r : RegSet) {n m : Nat} (h : m ≠ n) (v : Word) : (r.setGr n v).gr m = r.gr m :=
  Tbl.get_set_ne _ _ h _

/-- With no mode change in its window, the end of an instruction changes no mode. -/
theorem tickModes_none {r : RegSet} (h : r.pendSt = []) : r.tickModes = r := by
  cases r; simp_all [RegSet.tickModes]

/-! ### Boundaries -/

/-- Nothing waits at the boundary of element `i`. -/
structure Quiet (s : State) (i : Nat) : Prop where
  view : (s.el i).view = []
  want : s.dbg.want = []
  steps : s.dbg.steps = []
  fired : s.dbg.fired = false

theorem Ready.quiet {s : State} {i : Nat} (h : Ready s i) : Quiet s i := ⟨h.view, h.want, h.steps, h.fired⟩

theorem takeHalts_none {s : State} (h : s.dbg.want = []) (n : Nat) : takeHalts n s = s := by
  cases n <;> simp [takeHalts, h]

theorem boundary_quiet {s : State} {i : Nat} (h : Quiet s i) (b : Bool) : boundary i b s = s := by
  simp [boundary, clearView, clearFired, h.view, h.fired, takeHalts_none h.want, stepEnds, h.steps]

theorem Quiet.setRset {s : State} {i : Nat} (h : Quiet s i) (r : RegSet) : Quiet (s.setRset i r) i :=
  ⟨by simp [h.view], h.want, h.steps, h.fired⟩

/-- An instruction that completes on a quiet element stands past it. -/
theorem finish_done {t : State} {i : Nat} {sh : Shape} (q : Quiet t i) (hp : sh.prefix_ = false)
    (hr : repAct (t.rset i) = false) (hs : (t.rset i).pendSt = []) :
    finish i sh false (.done t) = t.passed i sh.size := by
  simp only [finish, hp, Bool.false_eq_true, if_false, advance, hr]
  rw [tickModes_none (by simpa using hs), boundary_quiet (q.setRset _)]
  rfl

/-- An instruction that jumps on a quiet element. -/
theorem finish_jump {t : State} {i : Nat} {sh : Shape} (q : Quiet t i) (hs : (t.rset i).pendSt = []) (sr : Bool) (a : Word) :
    finish i sh sr (.jump a t) = t.jumped i a := by
  simp only [finish]
  rw [tickModes_none (by simpa using hs), boundary_quiet (q.setRset _)]
  rfl

/-- With nothing in the way an element executes the body of its instruction, with the values of the pending registers
that the instruction uses chosen first. -/
theorem Bare.runInstr {s : State} {i : Nat} (h : Bare s i) (ho : (openView i s).rset i = s.rset i)
    (hs : ((openView i s).el i).stalled = false) (sh : Shape) (sr : Bool) (body : State → Out) :
    runInstr i sh sr body s = finish i sh sr (body (openView i s)) := by
  have h1 : wfiWake i s = s := by simp [wfiWake, h.wfi]
  have h2 : takeImprecise i s = s := by simp [takeImprecise, h.awake, h.stalled, h.imp]
  have h4 : clearStall i (openView i s) = openView i s := by simp [clearStall, hs]
  have h5 : consume i sh.vmac (openView i s) = openView i s := by simp [consume, ho, h.progArm]
  simp only [Machine.runInstr, h1, h2, h4, h5, ho, h.awake, h.runs, h.wfi, h.repAct, Bool.not_true, Bool.or_self,
    Bool.false_eq_true, if_false, Bool.false_and]

/-- A ready element executes the body of its instruction and nothing else. -/
theorem Ready.runInstr {s : State} {i : Nat} (h : Ready s i) (sh : Shape) (sr : Bool) (body : State → Out) :
    runInstr i sh sr body s = finish i sh sr (body s) := by
  have h3 : openView i s = s := by
    have hw : ((s.el i).set (s.el i).cur).pendWorld = [] := h.pendWorld
    have : pendNums (s.el i) = [] := by simp [pendNums, h.pendSr, hw]
    simp [openView, this, h.view]
  have := h.toBare.runInstr (by rw [h3]) (by rw [h3]; exact h.stalled) sh sr body
  rw [h3] at this
  exact this

/-- A ready element whose instruction completes. -/
theorem Ready.done {s t : State} {i : Nat} {sh : Shape} {body : State → Out} (h : Ready s i) (hb : body s = .done t)
    (q : Quiet t i) (hr : repAct (t.rset i) = false) (hs : (t.rset i).pendSt = []) (hp : sh.prefix_ = false) :
    Machine.runInstr i sh false body s = t.passed i sh.size := by
  rw [h.runInstr, hb, finish_done q hp hr hs]

/-- An instruction that raises an exception of its own address. -/
theorem finish_trap {s : State} {i : Nat} {sh : Shape} {t : Trap} (h : t.next = false) (sr : Bool) :
    finish i sh sr (.trap t s) = s.trapped i t := by
  simp [finish, State.trapped, h]

/-! ### `STATUS` -/

theorem tb_setBit_ne (w : Word) {i j : Nat} (h : i ≠ j) (b : Bool) : tb (setBit w i b) j = tb w j := by
  have hb : (w32 (1 <<< i)).getLsbD j = false := by
    rw [w32, BitVec.getLsbD_ofNat, Nat.one_shiftLeft, Nat.testBit_two_pow_of_ne h, Bool.and_false]
  by_cases hj : j < 32
  · cases b
    · simp only [setBit, tb, Bool.false_eq_true, if_false, BitVec.getLsbD_and, BitVec.getLsbD_not, hb, hj]
      simp
    · simp only [setBit, tb, if_true, BitVec.getLsbD_or, hb, Bool.or_false]
  · cases b <;> simp [tb, BitVec.getLsbD_of_ge _ _ (Nat.le_of_not_lt hj)]

theorem tb_setFlags {j : Nat} (h : 4 ≤ j) (w : Word) (x : AluRes) : tb (setFlags w x) j = tb w j := by
  unfold setFlags
  extract_lets w1 w2
  have h1 : tb w1 j = tb w j := by
    rw [tb_setBit_ne _ (by omega), tb_setBit_ne _ (by omega)]
  have h2 : tb w2 j = tb w j := by
    show tb (match x.c with | some c => setBit w1 1 c | none => w1) j = _
    split
    · rw [tb_setBit_ne _ (by omega), h1]
    · exact h1
  split
  · rw [tb_setBit_ne _ (by omega), h2]
  · exact h2

/-- An operation leaves every bit of `STATUS` above its flags. -/
theorem tb_statusAfter {j : Nat} (h : 5 ≤ j) (w : Word) (S : Bool) (x : AluRes) :
    tb (statusAfter w S x) j = tb w j := by
  unfold statusAfter setQ
  have h1 : tb (if S then setFlags w x else w) j = tb w j := by
    split
    · exact tb_setFlags (by omega) w x
    · rfl
  extract_lets w1
  split
  · rw [tb_setBit_ne _ (by omega)]; exact h1
  · exact h1

/-- What an instruction over `regInstr` gives on a ready element. -/
theorem computes_regInstr {c : Instr} {s : State} {e : Elem} {size : Nat} {ns : List (BitVec 5)} {rd : Option Nat}
    {S : Bool} {f : RegSet → AluRes} {x : AluRes} (h : exec c s = .next (regInstr e size ns rd S f s))
    (hx : f (s.rset (elemIdx e)) = x) : Computes c s (elemIdx e) ns rd S size x := by
  intro r
  rw [h, regInstr, r.runInstr]
  subst hx
  constructor
  · intro hn
    simp only [regOp, hn, Bool.not_true, Bool.false_eq_true, if_false]
    refine (congrArg Host.Outcome.next (finish_done (r.quiet.setRset _) rfl ?_ ?_)).trans rfl
    · simp only [rset_setRset, repAct]
      rw [tb_statusAfter (by omega)]
      exact r.repAct
    · simp only [rset_setRset]
      cases rd <;> exact r.pendSt
  · intro hn
    simp only [regOp, hn, Bool.not_false, if_true]
    rw [finish_trap rfl]

/-! ### Register accesses -/

/-- A register row that is an access to `pa` whose write gives `t` and a plain answer does what `Writes` says. -/
theorem writes_of {c : Instr} {s : State} {m : Master} {pa : Nat} {t : State} (f : State → Resp × State)
    (h : exec c s = .next (regAccess m pa f s)) (hf : f s = (.ok 0, t)) : Writes c s m pa t := by
  refine ⟨fun hg => ?_, fun hg => ?_⟩ <;> rw [h] <;> simp [regAccess, hg, hf]

end Sys2Proof.Machine
end

