-- ==== Sys2Proof/Laws/Keep.lean ====
section
/-! SUPPORT. What every function of the machine keeps: the queue of waiting commands, and the canonical form of
memory and register file.  The forms of the claim for each kind of result, and the rules that carry it
through conditionals, pairs, folds and record updates. -/

namespace Sys2Proof.Machine

variable {q : List Instr} {α β : Type}

/-- A pair with the state second. -/
def KeptR (q : List Instr) (x : α × State) : Prop := Kept q x.2
/-- A triple with the state third. -/
def KeptT (q : List Instr) (x : α × β × State) : Prop := Kept q x.2.2
/-- The state that an instruction's end carries. -/
def Out.state : Out → State
  | .done s => s
  | .ended s => s
  | .jump _ s => s
  | .trap _ s => s
  | .hold s => s
def KeptO (q : List Instr) (o : Out) : Prop := Kept q o.state
/-- The next state of an outcome, where it is one. -/
def KeptX (q : List Instr) (o : Host.Outcome State Fault Refusal) : Prop :=
  match o with | .next t => Kept q t | _ => True
/-- A state that may be absent. -/
def KeptM (q : List Instr) (o : Option State) : Prop := match o with | some t => Kept q t | none => True

/-! ### Record updates -/

/-- A state with the same queue, memory and registers. -/
theorem Kept.upd {s : State} (h : Kept q s) {resp free poison time core axis conv feed fs fq pwm bs teth ports dma
    flash sec power age test dbg} :
    Kept q (State.mk s.pending resp free s.regs s.mem poison time core axis conv feed fs fq pwm bs teth ports dma flash
      sec power age test dbg) := ⟨h.1, h.2.1, h.2.2⟩

/-- A state with other registers in canonical form. -/
theorem Kept.updRegs {s : State} (h : Kept q s) {resp free regs poison time core axis conv feed fs fq pwm bs teth ports
    dma flash sec power age test dbg} (hr : Tbl.wf regReset regs = true) :
    Kept q (State.mk s.pending resp free regs s.mem poison time core axis conv feed fs fq pwm bs teth ports dma flash
      sec power age test dbg) := ⟨h.1, h.2.1, hr⟩

/-- A state with other memory in canonical form. -/
theorem Kept.updMem {s : State} (h : Kept q s) {resp free mem poison time core axis conv feed fs fq pwm bs teth ports
    dma flash sec power age test dbg} (hm : Memory.wf mem) :
    Kept q (State.mk s.pending resp free s.regs mem poison time core axis conv feed fs fq pwm bs teth ports dma flash
      sec power age test dbg) := ⟨h.1, hm, h.2.2⟩

/-- A state that has lost some entries of its memory. -/
theorem Kept.filterMem {s : State} (h : Kept q s) {p : Host.Cell → Bool} {resp free poison time core axis conv feed fs fq
    pwm bs teth ports dma flash sec power age test dbg} :
    Kept q (State.mk s.pending resp free s.regs (s.mem.filter p) poison time core axis conv feed fs fq pwm bs teth ports
      dma flash sec power age test dbg) := ⟨h.1, Tbl.wf_filter h.2.1 p, h.2.2⟩

/-! ### Pairs and other results -/

theorem KeptR.mk {s : State} (h : Kept q s) {a : α} : KeptR q (a, s) := h
theorem KeptT.mk {s : State} (h : Kept q s) {a : α} {b : β} : KeptT q (a, b, s) := h
theorem Kept.of2 {x : α × State} (h : KeptR q x) : Kept q x.2 := h
theorem Kept.of3 {x : α × β × State} (h : KeptT q x) : Kept q x.2.2 := h
theorem Kept.snd {x : α × State} {a : α} {t : State} (e : x = (a, t)) (h : KeptR q x) : Kept q t := by subst e; exact h
theorem Kept.thd {x : α × β × State} {a : α} {b : β} {t : State} (e : x = (a, b, t)) (h : KeptT q x) : Kept q t := by
  subst e; exact h
theorem Kept.some {x : Option State} {t : State} (e : x = Option.some t) (h : KeptM q x) : Kept q t := by subst e; exact h
theorem KeptO.done {s : State} (h : Kept q s) : KeptO q (.done s) := h
theorem KeptO.ended {s : State} (h : Kept q s) : KeptO q (.ended s) := h
theorem KeptO.jump {s : State} (h : Kept q s) {w} : KeptO q (.jump w s) := h
theorem KeptO.trap {s : State} (h : Kept q s) {t} : KeptO q (.trap t s) := h
theorem KeptO.hold {s : State} (h : Kept q s) : KeptO q (.hold s) := h
theorem KeptX.next {s : State} (h : Kept q s) : KeptX q (.next s) := h
theorem KeptM.some {s : State} (h : Kept q s) : KeptM q (Option.some s) := h
theorem KeptM.none : KeptM q Option.none := trivial

/-! ### Conditionals -/

theorem Kept.ite {c : Prop} [Decidable c] {a b : State} (ha : c → Kept q a) (hb : ¬ c → Kept q b) :
    Kept q (if c then a else b) := by
  by_cases h : c
  · rw [if_pos h]; exact ha h
  · rw [if_neg h]; exact hb h
theorem KeptR.ite {c : Prop} [Decidable c] {a b : α × State} (ha : c → KeptR q a) (hb : ¬ c → KeptR q b) :
    KeptR q (if c then a else b) := by
  by_cases h : c
  · rw [if_pos h]; exact ha h
  · rw [if_neg h]; exact hb h
theorem KeptT.ite {c : Prop} [Decidable c] {a b : α × β × State} (ha : c → KeptT q a) (hb : ¬ c → KeptT q b) :
    KeptT q (if c then a else b) := by
  by_cases h : c
  · rw [if_pos h]; exact ha h
  · rw [if_neg h]; exact hb h
theorem KeptO.ite {c : Prop} [Decidable c] {a b : Out} (ha : c → KeptO q a) (hb : ¬ c → KeptO q b) :
    KeptO q (if c then a else b) := by
  by_cases h : c
  · rw [if_pos h]; exact ha h
  · rw [if_neg h]; exact hb h
theorem KeptX.ite {c : Prop} [Decidable c] {a b : Host.Outcome State Fault Refusal} (ha : c → KeptX q a)
    (hb : ¬ c → KeptX q b) : KeptX q (if c then a else b) := by
  by_cases h : c
  · rw [if_pos h]; exact ha h
  · rw [if_neg h]; exact hb h
theorem KeptM.ite {c : Prop} [Decidable c] {a b : Option State} (ha : c → KeptM q a) (hb : ¬ c → KeptM q b) :
    KeptM q (if c then a else b) := by
  by_cases h : c
  · rw [if_pos h]; exact ha h
  · rw [if_neg h]; exact hb h

/-! ### Folds -/

theorem Kept.foldl {f : State → α → State} {l : List α} {s : State} (h : Kept q s)
    (hf : ∀ s a, Kept q s → Kept q (f s a)) : Kept q (List.foldl f s l) := by
  induction l generalizing s with
  | nil => exact h
  | cons a l ih => exact ih (hf s a h)
theorem KeptR.foldl {f : α × State → β → α × State} {l : List β} {x : α × State} (h : KeptR q x)
    (hf : ∀ x b, KeptR q x → KeptR q (f x b)) : KeptR q (List.foldl f x l) := by
  induction l generalizing x with
  | nil => exact h
  | cons a l ih => exact ih (hf x a h)
theorem Kept.foldr {f : α → State → State} {l : List α} {s : State} (h : Kept q s)
    (hf : ∀ a s, Kept q s → Kept q (f a s)) : Kept q (List.foldr f s l) := by
  induction l with
  | nil => exact h
  | cons a l ih => exact hf a _ ih

/-! ### Memory and registers -/

theorem Memory.wf_put {m : List Host.Cell} (h : Memory.wf m) (a : Nat) (bs : List Byte) : Memory.wf (memPut m a bs) := by
  induction bs generalizing m a with
  | nil => exact h
  | cons b t ih => exact ih (Tbl.wf_set h a b) (a + 1)

/-- Writing bytes keeps the memory's canonical form, through encryption too. -/
theorem Memory.wf_putEnc {m : List Host.Cell} (h : Memory.wf m) (enc : Nat → Bool) (key a : Nat) (bs : List Byte) :
    Memory.wf (memPutEnc enc key m a bs) := by
  induction bs generalizing m a with
  | nil => exact h
  | cons b t ih =>
    simp only [memPutEnc]
    apply ih
    split
    · exact Memory.wf_put h _ _
    · exact Tbl.wf_set h a b

theorem keep_setRg {s : State} (a : Nat) (v : Word) (h : Kept q s) : Kept q (s.setRg a v) :=
  ⟨h.1, h.2.1, Tbl.wf_set h.2.2 _ _⟩
theorem keep_setRgBit {s : State} (a i : Nat) (b : Bool) (h : Kept q s) : Kept q (s.setRgBit a i b) := keep_setRg _ _ h
theorem keep_setRgFld {s : State} (a hi lo v : Nat) (h : Kept q s) : Kept q (s.setRgFld a hi lo v) := keep_setRg _ _ h
theorem keep_draw {s : State} (h : Kept q s) : KeptR q s.draw := Kept.upd h

end Sys2Proof.Machine
end

