-- ==== Sys2Proof/Laws/KeepState.lean ====
section
/-! SUPPORT. What the functions of `State` keep: the queue, and the canonical form of memory and registers. -/

namespace Sys2Proof.Machine

variable {pq : List Instr}

theorem keep_setEl (s : State) (i : Nat) (e : ElemState) (h_s : Kept pq s) : Kept pq (State.setEl s i e) := by
  unfold State.setEl
  repeat' (with_reducible first | assumption | fail_if_no_progress beta_reduce | apply keep_reset | apply Kept.ite | intro _ | fail_if_no_progress (apply Kept.upd))

theorem keep_setSlot (s : State) (n : Nat) (x : Slot) (h_s : Kept pq s) : Kept pq (State.setSlot s n x) := by
  unfold State.setSlot
  repeat' (with_reducible first | assumption | fail_if_no_progress beta_reduce | apply Kept.ite | intro _ | fail_if_no_progress (apply Kept.upd))

theorem keep_setTimer (s : State) (n : Nat) (x : Timer) (h_s : Kept pq s) : Kept pq (State.setTimer s n x) := by
  unfold State.setTimer
  repeat' (with_reducible first | assumption | fail_if_no_progress beta_reduce | apply Kept.ite | intro _ | fail_if_no_progress (apply Kept.upd))

theorem keep_setBank (s : State) (key : Nat) (x : BankSt) (h_s : Kept pq s) : Kept pq (State.setBank s key x) := by
  unfold State.setBank
  repeat' (with_reducible first | assumption | fail_if_no_progress beta_reduce | apply Kept.ite | intro _ | fail_if_no_progress (apply Kept.upd))

theorem keep_setCtx (s : State) (n : Nat) (x : CtxSt) (h_s : Kept pq s) : Kept pq (State.setCtx s n x) := by
  unfold State.setCtx
  repeat' (with_reducible first | assumption | fail_if_no_progress beta_reduce | apply Kept.ite | intro _ | fail_if_no_progress (apply Kept.upd))

theorem keep_setAx (s : State) (a : Nat) (x : AxisSt) (h_s : Kept pq s) : Kept pq (State.setAx s a x) := by
  unfold State.setAx
  repeat' (with_reducible first | assumption | fail_if_no_progress beta_reduce | apply Kept.ite | intro _ | fail_if_no_progress (apply Kept.upd))

theorem keep_setProg (s : State) (i : Nat) (x : Option Prog) (h_s : Kept pq s) : Kept pq (State.setProg s i x) := by
  unfold State.setProg
  repeat' (with_reducible first | assumption | fail_if_no_progress beta_reduce | apply Kept.ite | intro _ | fail_if_no_progress (apply Kept.upd))

theorem keep_setCv (s : State) (n : Nat) (x : Converter) (h_s : Kept pq s) : Kept pq (State.setCv s n x) := by
  unfold State.setCv
  repeat' (with_reducible first | assumption | fail_if_no_progress beta_reduce | apply Kept.ite | intro _ | fail_if_no_progress (apply Kept.upd))

theorem keep_setBr (s : State) (b : Nat) (x : Bridge) (h_s : Kept pq s) : Kept pq (State.setBr s b x) := by
  unfold State.setBr
  repeat' (with_reducible first | assumption | fail_if_no_progress beta_reduce | apply Kept.ite | intro _ | fail_if_no_progress (apply Kept.upd))

theorem keep_setFb (s : State) (f : Nat) (x : FbUnit) (h_s : Kept pq s) : Kept pq (State.setFb s f x) := by
  unfold State.setFb
  repeat' (with_reducible first | assumption | fail_if_no_progress beta_reduce | apply Kept.ite | intro _ | fail_if_no_progress (apply Kept.upd))

theorem keep_setSenc (s : State) (p : Nat) (x : SencPort) (h_s : Kept pq s) : Kept pq (State.setSenc s p x) := by
  unfold State.setSenc
  repeat' (with_reducible first | assumption | fail_if_no_progress beta_reduce | apply Kept.ite | intro _ | fail_if_no_progress (apply Kept.upd))

theorem keep_setTrk (s : State) (k : Nat) (x : Track) (h_s : Kept pq s) : Kept pq (State.setTrk s k x) := by
  unfold State.setTrk
  repeat' (with_reducible first | assumption | fail_if_no_progress beta_reduce | apply Kept.ite | intro _ | fail_if_no_progress (apply Kept.upd))

theorem keep_setMark (s : State) (m : Nat) (x : Option Pulse) (h_s : Kept pq s) : Kept pq (State.setMark s m x) := by
  unfold State.setMark
  repeat' (with_reducible first | assumption | fail_if_no_progress beta_reduce | apply Kept.ite | intro _ | fail_if_no_progress (apply Kept.upd))

theorem keep_setLink (s : State) (l : Nat) (x : Link) (h_s : Kept pq s) : Kept pq (State.setLink s l x) := by
  unfold State.setLink
  repeat' (with_reducible first | assumption | fail_if_no_progress beta_reduce | apply Kept.ite | intro _ | fail_if_no_progress (apply Kept.upd))

theorem keep_setLinkAx (s : State) (l a : Nat) (x : LinkAx) (h_s : Kept pq s) : Kept pq (State.setLinkAx s l a x) := by
  unfold State.setLinkAx
  repeat' (with_reducible first | assumption | fail_if_no_progress beta_reduce | apply keep_setLink)

theorem keep_setGirth (s : State) (g : Nat) (x : GirthPort) (h_s : Kept pq s) : Kept pq (State.setGirth s g x) := by
  unfold State.setGirth
  repeat' (with_reducible first | assumption | fail_if_no_progress beta_reduce | apply Kept.ite | intro _ | fail_if_no_progress (apply Kept.upd))

theorem keep_setEth (s : State) (p : Nat) (x : EthPort) (h_s : Kept pq s) : Kept pq (State.setEth s p x) := by
  unfold State.setEth
  repeat' (with_reducible first | assumption | fail_if_no_progress beta_reduce | apply Kept.ite | intro _ | fail_if_no_progress (apply Kept.upd))

theorem keep_setChan (s : State) (c : Nat) (x : DmaChan) (h_s : Kept pq s) : Kept pq (State.setChan s c x) := by
  unfold State.setChan
  repeat' (with_reducible first | assumption | fail_if_no_progress beta_reduce | apply Kept.ite | intro _ | fail_if_no_progress (apply Kept.upd))

theorem keep_setFop (s : State) (k : Nat) (x : FlashOp) (h_s : Kept pq s) : Kept pq (State.setFop s k x) := by
  unfold State.setFop
  repeat' (with_reducible first | assumption | fail_if_no_progress beta_reduce | apply Kept.ite | intro _ | fail_if_no_progress (apply Kept.upd))

theorem keep_setWdg (s : State) (n : Nat) (x : Wdg) (h_s : Kept pq s) : Kept pq (State.setWdg s n x) := by
  unfold State.setWdg
  repeat' (with_reducible first | assumption | fail_if_no_progress beta_reduce | apply Kept.ite | intro _ | fail_if_no_progress (apply Kept.upd))

theorem keep_setUnit (s : State) (u : Nat) (x : AgeUnit) (h_s : Kept pq s) : Kept pq (State.setUnit s u x) := by
  unfold State.setUnit
  repeat' (with_reducible first | assumption | fail_if_no_progress beta_reduce | apply Kept.ite | intro _ | fail_if_no_progress (apply Kept.upd))

end Sys2Proof.Machine
end

