-- ==== Sys2Proof/Laws/KeepRegs.lean ====
section
/-! SUPPORT. What the functions of `Regs` keep: the queue, and the canonical form of memory and registers. -/

namespace Sys2Proof.Machine

variable {pq : List Instr}

theorem keep_regAccess (m : Master) (pa : Nat) (f : State → Resp × State) (s : State) (h_f : ∀ x0, Kept pq x0 → KeptR pq (f x0)) (h_s : Kept pq s) : Kept pq (regAccess m pa f s) := by
  unfold regAccess
  repeat' (with_reducible first | assumption | fail_if_no_progress beta_reduce | apply h_f | apply Kept.ite | fail_if_no_progress (apply KeptR.mk <;> try apply Kept.of2) | apply Kept.of2 | apply Kept.snd (by assumption) | apply KeptR.ite | apply KeptO.done | apply KeptO.ended | apply KeptO.jump | apply KeptO.trap | apply KeptO.hold | apply KeptO.ite | intro _ | fail_if_no_progress (apply Kept.upd))

theorem keep_bumpN (b : Blk) (i o n : Nat) (s : State) (h_s : Kept pq s) : Kept pq (bumpN b i o n s) := by
  unfold bumpN
  repeat'
    with_reducible first
    | assumption | intro _
    | extract_lets -underBinder +onlyGivenNames x
      first
        | have hx : Kept pq x := by
            try dsimp only [x]
            repeat' (with_reducible first | assumption | fail_if_no_progress beta_reduce | apply keep_setRg)
        | skip
      try clear_value x
    | fail_if_no_progress beta_reduce | apply keep_setRg | apply keep_setRgBit | apply Kept.ite | intro _ | fail_if_no_progress (apply Kept.upd) | split

theorem keep_bump (b : Blk) (i o : Nat) (s : State) (h_s : Kept pq s) : Kept pq (bump b i o s) := by
  unfold bump
  repeat' (with_reducible first | assumption | fail_if_no_progress beta_reduce | apply keep_bumpN)

theorem keep_plainWrite (b : Blk) (i o : Nat) (v : Word) (sec : Bool) (s : State) (h_s : Kept pq s) : Kept pq (plainWrite b i o v sec s) := by
  unfold plainWrite
  repeat'
    with_reducible first
    | assumption | intro _
    | extract_lets -underBinder +onlyGivenNames x
      first
        | have hx : Kept pq x := by
            try dsimp only [x]
            repeat' (with_reducible first | assumption | fail_if_no_progress beta_reduce | apply keep_setRg)
        | skip
      try clear_value x
    | fail_if_no_progress beta_reduce | apply keep_setRg | apply keep_setRgBit | apply Kept.ite | intro _ | fail_if_no_progress (apply Kept.upd) | split

theorem keep_latchSnap (m : Master) (pa : Nat) (hi : Word) (s : State) (h_s : Kept pq s) : Kept pq (latchSnap m pa hi s) := by
  unfold latchSnap
  repeat' (with_reducible first | assumption | fail_if_no_progress beta_reduce | apply Kept.ite | intro _ | fail_if_no_progress (apply Kept.upd))

end Sys2Proof.Machine
end

