-- ==== Sys2Proof/Laws/KeepEvents.lean ====
section
/-! SUPPORT. What the functions of `Events` keep: the queue, and the canonical form of memory and registers. -/

namespace Sys2Proof.Machine

variable {pq : List Instr}

theorem keep_timePort (p : Nat) (s : State) (h_s : Kept pq s) : KeptR pq (timePort p s) := by
  unfold timePort
  repeat'
    with_reducible first
    | assumption | intro _
    | extract_lets -underBinder +onlyGivenNames x
      first
        | have hx : Kept pq x := by
            try dsimp only [x]
            repeat' (with_reducible first | assumption | fail_if_no_progress beta_reduce | apply keep_draw | apply Kept.ite | fail_if_no_progress (apply KeptR.mk <;> try apply Kept.of2) | apply Kept.of2 | apply Kept.snd (by assumption) | apply KeptR.ite | intro _ | fail_if_no_progress (apply Kept.upd) | split | beta_reduce)
        | skip
      try clear_value x
    | fail_if_no_progress beta_reduce | apply keep_draw | apply Kept.ite | fail_if_no_progress (apply KeptR.mk <;> try apply Kept.of2) | apply Kept.of2 | apply Kept.snd (by assumption) | apply KeptR.ite | intro _ | fail_if_no_progress (apply Kept.upd)

theorem keep_latchBank (key ev : Nat) (s : State) (h_s : Kept pq s) : Kept pq (latchBank key ev s) := by
  unfold latchBank
  repeat'
    with_reducible first
    | assumption | intro _
    | extract_lets -underBinder +onlyGivenNames x
      first
        | have hx : Kept pq x := by
            try dsimp only [x]
            repeat' (with_reducible first | assumption | fail_if_no_progress beta_reduce | apply keep_setBank | apply keep_timePort | apply Kept.ite | fail_if_no_progress (apply KeptR.mk <;> try apply Kept.of2) | apply Kept.of2 | apply Kept.snd (by assumption) | apply KeptR.ite | intro _ | fail_if_no_progress (apply Kept.upd) | split | beta_reduce)
        | skip
      try clear_value x
    | fail_if_no_progress beta_reduce | apply keep_setBank | apply keep_timePort | apply Kept.ite | fail_if_no_progress (apply KeptR.mk <;> try apply Kept.of2) | apply Kept.of2

theorem keep_wakeCtx (n ev : Nat) (s : State) (h_s : Kept pq s) : Kept pq (wakeCtx n ev s) := by
  unfold wakeCtx
  repeat' (with_reducible first | assumption | fail_if_no_progress beta_reduce | apply keep_latchBank | apply Kept.ite | apply Kept.foldl | intro _)

theorem keep_dropEvent (s : State) (h_s : Kept pq s) : Kept pq (dropEvent s) := by
  unfold dropEvent
  repeat' (with_reducible first | assumption | fail_if_no_progress beta_reduce | apply keep_bump)

theorem keep_raiseEvent (n : Nat) (s : State) (h_s : Kept pq s) : Kept pq (raiseEvent n s) := by
  unfold raiseEvent
  repeat'
    with_reducible first
    | assumption | intro _
    | extract_lets -underBinder +onlyGivenNames x
      first
        | have hx : Kept pq x := by
            try dsimp only [x]
            repeat' (with_reducible first | assumption | fail_if_no_progress beta_reduce | apply Kept.ite | intro _ | fail_if_no_progress (apply Kept.upd) | split | beta_reduce)
        | skip
      try clear_value x
    | fail_if_no_progress beta_reduce | apply Kept.ite | intro _ | fail_if_no_progress (apply Kept.upd)

theorem keep_setPend (t src : Nat) (s : State) (h_s : Kept pq s) : Kept pq (setPend t src s) := by
  unfold setPend
  repeat' (with_reducible first | assumption | fail_if_no_progress beta_reduce | apply keep_setRgBit | apply Kept.ite | intro _)

theorem keep_edgePend (t src : Nat) (s : State) (h_s : Kept pq s) : Kept pq (edgePend t src s) := by
  unfold edgePend
  repeat' (with_reducible first | assumption | fail_if_no_progress beta_reduce | apply keep_setPend | apply Kept.ite | intro _ | fail_if_no_progress (apply Kept.upd))

theorem keep_timerStart (n : Nat) (s : State) (h_s : Kept pq s) : Kept pq (timerStart n s) := by
  unfold timerStart
  repeat'
    with_reducible first
    | assumption | intro _
    | extract_lets -underBinder +onlyGivenNames x
      first
        | have hx : Kept pq x := by
            try dsimp only [x]
            repeat' (with_reducible first | assumption | fail_if_no_progress beta_reduce | apply keep_setRgBit | apply keep_setTimer | apply Kept.ite | intro _ | fail_if_no_progress (apply Kept.upd) | split | beta_reduce)
        | skip
      try clear_value x
    | fail_if_no_progress beta_reduce | apply keep_setRgBit | apply keep_setTimer | apply Kept.ite

theorem keep_timerTick (n : Nat) (s : State) (h_s : Kept pq s) : Kept pq (timerTick n s) := by
  unfold timerTick
  repeat'
    with_reducible first
    | assumption | intro _
    | extract_lets -underBinder +onlyGivenNames x
      first
        | have hx : Kept pq x := by
            try dsimp only [x]
            repeat' (with_reducible first | assumption | fail_if_no_progress beta_reduce | apply keep_setTimer | apply Kept.ite | intro _ | fail_if_no_progress (apply Kept.upd) | split | beta_reduce)
        | skip
      try clear_value x
    | fail_if_no_progress beta_reduce | apply keep_setTimer

theorem keep_timerAction (act n : Nat) (s : State) (h_s : Kept pq s) : Kept pq (timerAction act n s) := by
  unfold timerAction
  repeat'
    with_reducible first
    | assumption | intro _
    | extract_lets -underBinder +onlyGivenNames x
      first
        | have hx : Kept pq x := by
            try dsimp only [x]
            repeat' (with_reducible first | assumption | fail_if_no_progress beta_reduce | apply keep_setRg | apply keep_setRgBit | apply keep_timerStart | apply keep_timerTick | apply Kept.ite | intro _ | fail_if_no_progress (apply Kept.upd) | split | beta_reduce)
        | skip
      try clear_value x
    | fail_if_no_progress beta_reduce | apply keep_setRg | apply keep_setRgBit | apply keep_timerStart | apply keep_timerTick | apply Kept.ite | intro _ | fail_if_no_progress (apply Kept.upd) | split

theorem keep_dmaRequest (c : Nat) (s0 : State) (h_s0 : Kept pq s0) : Kept pq (dmaRequest c s0) := by
  unfold dmaRequest
  repeat'
    with_reducible first
    | assumption | intro _
    | extract_lets -underBinder +onlyGivenNames x
      first
        | have hx : Kept pq x := by
            try dsimp only [x]
            repeat' (with_reducible first | assumption | fail_if_no_progress beta_reduce | apply keep_setRgBit | apply keep_setChan)
        | skip
      try clear_value x
    | fail_if_no_progress beta_reduce | apply keep_setRgBit | apply keep_setChan | apply Kept.ite | intro _ | fail_if_no_progress (apply Kept.upd)

theorem keep_selvedgeCapture (m : Nat) (s : State) (h_s : Kept pq s) : Kept pq (selvedgeCapture m s) := by
  unfold selvedgeCapture
  repeat' (with_reducible first | assumption | fail_if_no_progress beta_reduce | apply Kept.ite | intro _ | fail_if_no_progress (apply Kept.upd))

theorem keep_compareArrives (n : Nat) (arrivals : Nat → Nat) (s : State) (h_s : Kept pq s) : Kept pq (compareArrives n arrivals s) := by
  unfold compareArrives
  repeat' (with_reducible first | assumption | fail_if_no_progress beta_reduce | apply keep_latchBank | apply keep_dropEvent | apply Kept.ite | apply Kept.foldl | intro _ | fail_if_no_progress (apply Kept.upd) | split)

theorem keep_arrive (f : Flight) (n : Nat) (cycles : List (Nat × Nat)) (s : State) (h_s : Kept pq s) : Kept pq (arrive f n cycles s) := by
  unfold arrive
  repeat'
    with_reducible first
    | assumption | intro _
    | extract_lets -underBinder +onlyGivenNames x
      first
        | have hx : Kept pq x := by
            try dsimp only [x]
            repeat' (with_reducible first | assumption | fail_if_no_progress beta_reduce | apply keep_dropEvent | apply keep_edgePend | apply keep_timerAction | apply keep_dmaRequest | apply keep_selvedgeCapture | apply keep_compareArrives | apply Kept.ite | intro _ | fail_if_no_progress (apply Kept.upd) | split | beta_reduce)
        | skip
      try clear_value x
    | fail_if_no_progress beta_reduce | apply keep_dropEvent | apply keep_edgePend | apply keep_timerAction | apply keep_dmaRequest | apply keep_selvedgeCapture | apply keep_compareArrives | apply Kept.ite | intro _ | fail_if_no_progress (apply Kept.upd) | split

theorem keep_deliver (want : Flight → Bool) (is : List Nat) (cycles : List (Nat × Nat)) (s : State) (h_s : Kept pq s) : Kept pq (deliver want is cycles s) := by
  unfold deliver
  repeat'
    with_reducible first
    | assumption | intro _
    | extract_lets -underBinder +onlyGivenNames x
      first
        | have hx : Kept pq x := by
            try dsimp only [x]
            repeat' (with_reducible first | assumption | fail_if_no_progress beta_reduce | apply keep_dropEvent | apply keep_arrive | apply Kept.ite | apply Kept.foldl | intro _ | fail_if_no_progress (apply Kept.upd))
        | skip
      try clear_value x
    | fail_if_no_progress beta_reduce | apply keep_dropEvent | apply keep_arrive | apply Kept.ite | apply Kept.foldl | intro _ | fail_if_no_progress (apply Kept.upd) | split

end Sys2Proof.Machine
end

