-- ==== Sys2Proof/Laws/KeepMem.lean ====
section
/-! SUPPORT. What the functions of `Mem` keep: the queue, and the canonical form of memory and registers. -/

namespace Sys2Proof.Machine

variable {pq : List Instr}

theorem keep_clearResvOf (who : Nat → Bool) (a n : Nat) (s : State) (h_s : Kept pq s) : Kept pq (clearResvOf who a n s) := by
  unfold clearResvOf
  repeat' (with_reducible first | assumption | fail_if_no_progress beta_reduce | apply keep_setEl | apply Kept.ite | apply Kept.foldl | intro _ | fail_if_no_progress (apply Kept.upd) | split)

theorem keep_clearResv (a n : Nat) (s : State) (h_s : Kept pq s) : Kept pq (clearResv a n s) := by
  unfold clearResv
  repeat' (with_reducible first | assumption | fail_if_no_progress beta_reduce | apply keep_clearResvOf)

theorem keep_touchMig (a n : Nat) (s : State) (h_s : Kept pq s) : Kept pq (touchMig a n s) := by
  unfold touchMig
  repeat' (with_reducible first | assumption | fail_if_no_progress beta_reduce | apply keep_setCtx | apply Kept.ite | apply Kept.foldl | intro _ | fail_if_no_progress (apply Kept.upd) | split)

theorem keep_putBytes (a : Nat) (bs : List Byte) (s : State) (h_s : Kept pq s) : Kept pq (putBytes a bs s) :=
  keep_touchMig _ _ _ (Kept.updMem h_s (Memory.wf_putEnc h_s.2.1 _ _ _ _))

theorem keep_store (a : Nat) (bs : List Byte) (s : State) (h_s : Kept pq s) : Kept pq (store a bs s) := by
  unfold store
  repeat' (with_reducible first | assumption | fail_if_no_progress beta_reduce | apply keep_clearResv | apply keep_putBytes)

theorem keep_storeBack (a : Nat) (bs : List Byte) (s : State) (h_s : Kept pq s) : Kept pq (storeBack a bs s) := by
  unfold storeBack
  repeat' (with_reducible first | assumption | fail_if_no_progress beta_reduce | apply keep_clearResvOf | apply keep_putBytes)

theorem keep_storeWord (a : Nat) (v : Word) (s : State) (h_s : Kept pq s) : Kept pq (storeWord a v s) := by
  unfold storeWord
  repeat' (with_reducible first | assumption | fail_if_no_progress beta_reduce | apply keep_store)

theorem keep_writeBanks (n off : Nat) (bs : List Byte) (s : State) (h_s : Kept pq s) : Kept pq (writeBanks n off bs s) := by
  unfold writeBanks
  repeat' (with_reducible first | assumption | fail_if_no_progress beta_reduce | apply keep_store | apply Kept.ite | apply Kept.foldl | intro _)

end Sys2Proof.Machine
end

