-- ==== Sys2Proof/Laws/KeepWorld.lean ====
section
/-! SUPPORT. What the functions of `World` keep: the queue, and the canonical form of memory and registers. -/

namespace Sys2Proof.Machine

variable {pq : List Instr}

theorem keep_rgnRecord (mid sub pa : Nat) (write : Bool) (s : State) (h_s : Kept pq s) : Kept pq (rgnRecord mid sub pa write s) := by
  unfold rgnRecord
  repeat'
    with_reducible first
    | assumption | intro _
    | extract_lets -underBinder +onlyGivenNames x
      first
        | have hx : Kept pq x := by
            try dsimp only [x]
            repeat' (with_reducible first | assumption | fail_if_no_progress beta_reduce | apply keep_setRg | apply keep_setRgBit | apply Kept.ite | intro _ | fail_if_no_progress (apply Kept.upd) | split | beta_reduce)
        | skip
      try clear_value x
    | fail_if_no_progress beta_reduce | apply keep_setRg | apply keep_setRgBit | apply Kept.ite

theorem keep_worldCheck (mid sub : Nat) (sec : Bool) (pa : Nat) (write : Bool) (s : State) (h_s : Kept pq s) : KeptR pq (worldCheck mid sub sec pa write s) := by
  unfold worldCheck
  repeat' (with_reducible first | assumption | fail_if_no_progress beta_reduce | apply keep_rgnRecord | apply Kept.ite | fail_if_no_progress (apply KeptR.mk <;> try apply Kept.of2) | apply Kept.of2 | apply Kept.snd (by assumption) | apply KeptR.ite | intro _)

theorem keep_worldSpan (mid sub : Nat) (sec : Bool) (pa n : Nat) (write : Bool) (s : State) (h_s : Kept pq s) : KeptR pq (worldSpan mid sub sec pa n write s) := by
  unfold worldSpan
  repeat'
    with_reducible first
    | assumption | intro _
    | extract_lets -underBinder +onlyGivenNames x
      first
        | have hx : Kept pq x := by
            try dsimp only [x]
            repeat' (with_reducible first | assumption | fail_if_no_progress beta_reduce | apply keep_worldCheck | apply Kept.ite | fail_if_no_progress (apply KeptR.mk <;> try apply Kept.of2) | apply Kept.of2 | apply Kept.snd (by assumption) | apply KeptR.ite | intro _ | fail_if_no_progress (apply Kept.upd) | split | beta_reduce)
        | skip
      try clear_value x
    | fail_if_no_progress beta_reduce | apply keep_worldCheck | apply Kept.ite | fail_if_no_progress (apply KeptR.mk <;> try apply Kept.of2) | apply Kept.of2 | apply Kept.snd (by assumption) | apply KeptR.ite | intro _ | fail_if_no_progress (apply Kept.upd) | split

end Sys2Proof.Machine
end

