-- ==== Sys2Proof/Laws/KeepCtl.lean ====
section
/-! SUPPORT. What the functions of `Ctl` keep: the queue, and the canonical form of memory and registers. -/

namespace Sys2Proof.Machine

variable {pq : List Instr}

theorem keep_ptCount (p k : Nat) (s : State) (h_s : Kept pq s) : Kept pq (ptCount p k s) := by
  unfold ptCount
  repeat'
    with_reducible first
    | assumption | intro _
    | extract_lets -underBinder +onlyGivenNames x
      first
        | have hx : Kept pq x := by
            try dsimp only [x]
            repeat' (with_reducible first | assumption | fail_if_no_progress beta_reduce | apply keep_storeWord)
        | skip
      try clear_value x
    | fail_if_no_progress beta_reduce | apply keep_storeWord | apply Kept.ite

theorem keep_ptMiss (port p : Nat) (s : State) (h_s : Kept pq s) : Kept pq (ptMiss port p s) := by
  unfold ptMiss
  repeat' (with_reducible first | assumption | fail_if_no_progress beta_reduce | apply keep_setRg | apply keep_bump)

theorem keep_ptabWrite (sec : Bool) (p k : Nat) (v : Word) (s : State) (h_s : Kept pq s) : KeptR pq (ptabWrite sec p k v s) := by
  unfold ptabWrite
  repeat'
    with_reducible first
    | assumption | intro _
    | extract_lets -underBinder +onlyGivenNames x
      first
        | have hx : Kept pq x := by
            try dsimp only [x]
            repeat' (with_reducible first | assumption | fail_if_no_progress beta_reduce | apply keep_storeWord)
        | skip
      try clear_value x
    | fail_if_no_progress beta_reduce | apply keep_storeWord | apply Kept.ite | fail_if_no_progress (apply KeptR.mk <;> try apply Kept.of2) | apply Kept.of2 | apply Kept.snd (by assumption) | apply KeptR.ite

theorem keep_qSet (q k : Nat) (v : Word) (s : State) (h_s : Kept pq s) : Kept pq (qSet q k v s) := by
  unfold qSet
  repeat' (with_reducible first | assumption | fail_if_no_progress beta_reduce | apply keep_storeWord)

theorem keep_qIndices (q rd wr : Nat) (s : State) (h_s : Kept pq s) : Kept pq (qIndices q rd wr s) := by
  unfold qIndices
  repeat' (with_reducible first | assumption | fail_if_no_progress beta_reduce | apply keep_qSet)

theorem keep_qmFlag (i : Nat) (s : State) (h_s : Kept pq s) : Kept pq (qmFlag i s) := by
  unfold qmFlag
  repeat' (with_reducible first | assumption | fail_if_no_progress beta_reduce | apply keep_setRgBit)

theorem keep_forgetTries (q : Nat) (s : State) (h_s : Kept pq s) : Kept pq (forgetTries q s) := by
  unfold forgetTries
  repeat'
    with_reducible first
    | assumption | intro _
    | extract_lets -underBinder +onlyGivenNames x
      first
        | have hx : Kept pq x := by
            try dsimp only [x]
            repeat' (with_reducible first | assumption | fail_if_no_progress beta_reduce | apply keep_setGirth | apply Kept.ite | apply Kept.foldl | intro _ | fail_if_no_progress (apply Kept.upd) | split | beta_reduce)
        | skip
      try clear_value x
    | fail_if_no_progress beta_reduce | apply keep_setGirth | apply Kept.ite | apply Kept.foldl

theorem keep_qFail (q : Nat) (s : State) (h_s : Kept pq s) : Kept pq (qFail q s) := by
  unfold qFail
  repeat' (with_reducible first | assumption | fail_if_no_progress beta_reduce | apply keep_qSet)

theorem keep_qEnable (q : Nat) (s : State) (h_s : Kept pq s) : Kept pq (qEnable q s) := by
  unfold qEnable
  repeat'
    with_reducible first
    | assumption | intro _
    | extract_lets -underBinder +onlyGivenNames x
      first
        | have hx : Kept pq x := by
            try dsimp only [x]
            repeat' (with_reducible first | assumption | fail_if_no_progress beta_reduce | apply keep_qSet | apply keep_qIndices | apply keep_forgetTries)
        | skip
      try clear_value x
    | fail_if_no_progress beta_reduce | apply keep_qSet | apply keep_qIndices | apply keep_forgetTries | apply keep_qFail | apply Kept.ite

theorem keep_qctlWrite (sec : Bool) (q k : Nat) (v : Word) (s : State) (h_s : Kept pq s) : KeptR pq (qctlWrite sec q k v s) := by
  unfold qctlWrite
  repeat'
    with_reducible first
    | assumption | intro _
    | extract_lets -underBinder +onlyGivenNames x
      first
        | have hx : Kept pq x := by
            try dsimp only [x]
            repeat' (with_reducible first | assumption | fail_if_no_progress beta_reduce | apply keep_qSet | apply keep_qIndices | apply keep_forgetTries)
        | skip
      try clear_value x
    | fail_if_no_progress beta_reduce | apply keep_qSet | apply keep_qIndices | apply keep_forgetTries | apply keep_qEnable | apply Kept.ite | fail_if_no_progress (apply KeptR.mk <;> try apply Kept.of2) | apply Kept.of2 | apply Kept.snd (by assumption) | apply KeptR.ite | intro _ | fail_if_no_progress (apply Kept.upd) | split

end Sys2Proof.Machine
end

