-- ==== Sys2Proof/Laws/KeepTwill.lean ====
section
/-! SUPPORT. What the functions of `Twill` keep: the queue, and the canonical form of memory and registers. -/

namespace Sys2Proof.Machine

variable {pq : List Instr}

theorem keep_memErrorIn (ddr ue : Bool) (mid pa : Nat) (s : State) (h_s : Kept pq s) : Kept pq (memErrorIn ddr ue mid pa s) := by
  unfold memErrorIn
  repeat'
    with_reducible first
    | assumption | intro _
    | extract_lets -underBinder +onlyGivenNames x
      first
        | have hx : Kept pq x := by
            try dsimp only [x]
            repeat' (with_reducible first | assumption | fail_if_no_progress beta_reduce | apply keep_setRg | apply keep_setRgBit | apply keep_bump | apply keep_raiseEvent | apply Kept.ite | intro _)
        | skip
      try clear_value x
    | fail_if_no_progress beta_reduce | apply keep_setRg | apply keep_setRgBit | apply keep_bump | apply keep_raiseEvent

theorem keep_memError (ue : Bool) (mid pa : Nat) (s : State) (h_s : Kept pq s) : Kept pq (memError ue mid pa s) := by
  unfold memError
  repeat' (with_reducible first | assumption | fail_if_no_progress beta_reduce | apply keep_memErrorIn)

theorem keep_errorAt (pa n : Nat) (s : State) (h_s : Kept pq s) : KeptR pq (errorAt pa n s) := by
  unfold errorAt
  repeat'
    with_reducible first
    | assumption | intro _
    | extract_lets -underBinder +onlyGivenNames x
      first
        | have hx : Kept pq x := by
            try dsimp only [x]
            repeat' (with_reducible first | assumption | fail_if_no_progress beta_reduce | apply keep_draw | apply Kept.ite | fail_if_no_progress (apply KeptR.mk <;> try apply Kept.of2) | apply Kept.of2 | apply Kept.snd (by assumption) | apply KeptR.ite | intro _ | fail_if_no_progress (apply Kept.upd) | split | beta_reduce)
        | skip
      try clear_value x
    | fail_if_no_progress beta_reduce | apply keep_draw | apply Kept.ite | fail_if_no_progress (apply KeptR.mk <;> try apply Kept.of2) | apply Kept.of2 | apply Kept.snd (by assumption) | apply KeptR.ite | intro _ | fail_if_no_progress (apply Kept.upd) | split

theorem keep_memFails (mid pa n : Nat) (s : State) (h_s : Kept pq s) : Kept pq (memFails mid pa n s) := by
  unfold memFails
  repeat'
    with_reducible first
    | assumption | intro _
    | extract_lets -underBinder +onlyGivenNames x
      first
        | have hx : Kept pq x := by
            try dsimp only [x]
            repeat' (with_reducible first | assumption | fail_if_no_progress beta_reduce | apply keep_memError | apply keep_errorAt | apply Kept.ite | fail_if_no_progress (apply KeptR.mk <;> try apply Kept.of2) | apply Kept.of2 | apply Kept.snd (by assumption) | apply KeptR.ite | intro _ | fail_if_no_progress (apply Kept.upd) | split | beta_reduce)
        | have hx : KeptR pq x := by
            try dsimp only [x]
            repeat' (with_reducible first | assumption | fail_if_no_progress beta_reduce | apply keep_memError | apply keep_errorAt)
      try clear_value x
    | fail_if_no_progress beta_reduce | apply keep_memError | apply keep_errorAt | apply Kept.ite | fail_if_no_progress (apply KeptR.mk <;> try apply Kept.of2) | apply Kept.of2

theorem keep_flTouch (mid sub pa : Nat) (fetch : Bool) (s : State) (h_s : Kept pq s) : Kept pq (flTouch mid sub pa fetch s) := by
  unfold flTouch
  repeat'
    with_reducible first
    | assumption | intro _
    | extract_lets -underBinder +onlyGivenNames x
      first
        | have hx : Kept pq x := by
            try dsimp only [x]
            repeat' (with_reducible first | assumption | fail_if_no_progress beta_reduce | apply Kept.ite | intro _ | fail_if_no_progress (apply Kept.upd) | split | beta_reduce)
        | skip
      try clear_value x
    | fail_if_no_progress beta_reduce | apply Kept.ite | intro _ | fail_if_no_progress (apply Kept.upd)

theorem keep_drawBytes  : ∀ (x0 : Nat) (x1 : State), Kept pq x1 → KeptR pq (drawBytes  x0 x1)
  | 0, s, h_s => by
    unfold drawBytes
    repeat' (with_reducible first | assumption | fail_if_no_progress beta_reduce | apply keep_draw | apply keep_drawBytes | apply Kept.ite | fail_if_no_progress (apply KeptR.mk <;> try apply Kept.of2))
  | n + 1, s, h_s => by
    unfold drawBytes
    repeat' (with_reducible first | assumption | fail_if_no_progress beta_reduce | apply keep_draw | apply keep_drawBytes | apply Kept.ite | fail_if_no_progress (apply KeptR.mk <;> try apply Kept.of2) | apply Kept.of2)

theorem keep_lineRead (mid sub : Nat) (fetch : Bool) (ecc : Ecc) (pa n : Nat) (s : State) (h_s : Kept pq s) : KeptR pq (lineRead mid sub fetch ecc pa n s) := by
  unfold lineRead
  repeat'
    with_reducible first
    | assumption | intro _
    | extract_lets -underBinder +onlyGivenNames x
      first
        | have hx : Kept pq x := by
            try dsimp only [x]
            repeat' (with_reducible first | assumption | fail_if_no_progress beta_reduce | apply keep_setRg | apply keep_setRgBit | apply keep_bump | apply keep_raiseEvent | apply keep_flTouch | apply keep_drawBytes | apply Kept.ite | fail_if_no_progress (apply KeptR.mk <;> try apply Kept.of2) | apply Kept.of2 | apply Kept.snd (by assumption) | apply KeptR.ite | intro _)
        | skip
      try clear_value x
    | fail_if_no_progress beta_reduce | apply keep_setRg | apply keep_setRgBit | apply keep_bump | apply keep_raiseEvent | apply keep_flTouch | apply keep_drawBytes | apply Kept.ite | fail_if_no_progress (apply KeptR.mk <;> try apply Kept.of2) | apply Kept.of2 | apply Kept.snd (by assumption) | apply KeptR.ite | intro _ | fail_if_no_progress (apply Kept.upd) | split

theorem keep_linesRead (mid sub : Nat) (fetch : Bool) (ecc : Ecc) (bad : Nat) : ∀ (x0 : Nat) (x1 : Nat) (x2 : Nat) (x3 : State), Kept pq x3 → KeptR pq (linesRead mid sub fetch ecc bad x0 x1 x2 x3)
  | 0, _, _, s, h_s => by
    unfold linesRead
    repeat'
      with_reducible first
      | assumption | intro _
      | extract_lets -underBinder +onlyGivenNames x
        first
          | have hx : Kept pq x := by
              try dsimp only [x]
              repeat' (with_reducible first | assumption | fail_if_no_progress beta_reduce | apply keep_lineRead | apply keep_linesRead | apply Kept.ite | fail_if_no_progress (apply KeptR.mk <;> try apply Kept.of2) | apply Kept.of2 | apply Kept.snd (by assumption) | apply KeptR.ite | intro _ | fail_if_no_progress (apply Kept.upd) | split | beta_reduce)
          | skip
        try clear_value x
      | fail_if_no_progress beta_reduce | apply keep_lineRead | apply keep_linesRead | apply Kept.ite | fail_if_no_progress (apply KeptR.mk <;> try apply Kept.of2)
  | lines + 1, pa, n, s, h_s => by
    unfold linesRead
    repeat'
      with_reducible first
      | assumption | intro _
      | extract_lets -underBinder +onlyGivenNames x
        first
          | have hx : Kept pq x := by
              try dsimp only [x]
              repeat' (with_reducible first | assumption | fail_if_no_progress beta_reduce | apply keep_lineRead | apply keep_linesRead | apply Kept.ite | fail_if_no_progress (apply KeptR.mk <;> try apply Kept.of2) | apply Kept.of2 | apply Kept.snd (by assumption) | apply KeptR.ite | intro _ | fail_if_no_progress (apply Kept.upd) | split | beta_reduce)
          | skip
        try clear_value x
      | fail_if_no_progress beta_reduce | apply keep_lineRead | apply keep_linesRead | apply Kept.ite | fail_if_no_progress (apply KeptR.mk <;> try apply Kept.of2) | apply Kept.of2 | apply Kept.snd (by assumption) | apply KeptR.ite | intro _ | fail_if_no_progress (apply Kept.upd) | split

theorem keep_flashRead (mid sub : Nat) (fetch : Bool) (ecc : Ecc) (pa n : Nat) (s : State) (h_s : Kept pq s) : KeptR pq (flashRead mid sub fetch ecc pa n s) := by
  unfold flashRead
  repeat'
    with_reducible first
    | assumption | intro _
    | extract_lets -underBinder +onlyGivenNames x
      first
        | have hx : Kept pq x := by
            try dsimp only [x]
            repeat' (with_reducible first | assumption | fail_if_no_progress beta_reduce | apply keep_draw | apply keep_linesRead | apply Kept.ite | fail_if_no_progress (apply KeptR.mk <;> try apply Kept.of2) | apply Kept.of2 | apply Kept.snd (by assumption) | apply KeptR.ite | intro _ | fail_if_no_progress (apply Kept.upd) | split | beta_reduce)
        | skip
      try clear_value x
    | fail_if_no_progress beta_reduce | apply keep_draw | apply keep_linesRead | apply Kept.ite | fail_if_no_progress (apply KeptR.mk <;> try apply Kept.of2) | apply Kept.of2 | apply Kept.snd (by assumption) | apply KeptR.ite

theorem keep_flInvalidate (s : State) (h_s : Kept pq s) : Kept pq (flInvalidate s) := by
  unfold flInvalidate
  repeat' (with_reducible first | assumption | fail_if_no_progress beta_reduce | apply Kept.ite | intro _ | fail_if_no_progress (apply Kept.upd))

theorem keep_flInvBank (k : Nat) (s : State) (h_s : Kept pq s) : Kept pq (flInvBank k s) := by
  unfold flInvBank
  repeat' (with_reducible first | assumption | fail_if_no_progress beta_reduce | apply Kept.ite | intro _ | fail_if_no_progress (apply Kept.upd))

theorem keep_memRead (m : Master) (fetch : Bool) (ecc : Ecc) (pa n : Nat) (s : State) (h_s : Kept pq s) : KeptR pq (memRead m fetch ecc pa n s) := by
  unfold memRead
  repeat'
    with_reducible first
    | assumption | intro _
    | extract_lets -underBinder +onlyGivenNames x
      first
        | have hx : Kept pq x := by
            try dsimp only [x]
            repeat' (with_reducible first | assumption | fail_if_no_progress beta_reduce | apply keep_worldSpan | apply keep_memError | apply keep_memFails | apply keep_flashRead | apply Kept.ite | fail_if_no_progress (apply KeptR.mk <;> try apply Kept.of2) | apply Kept.of2 | apply Kept.snd (by assumption) | apply KeptR.ite | intro _)
        | skip
      try clear_value x
    | fail_if_no_progress beta_reduce | apply keep_worldSpan | apply keep_memError | apply keep_memFails | apply keep_flashRead | apply Kept.ite | fail_if_no_progress (apply KeptR.mk <;> try apply Kept.of2) | apply Kept.of2 | apply Kept.snd (by assumption) | apply KeptR.ite | intro _ | fail_if_no_progress (apply Kept.upd) | split

theorem keep_ctlWord (sec : Bool) (a : Nat) (v : Word) (s : State) (h_s : Kept pq s) : KeptR pq (ctlWord sec a v s) := by
  unfold ctlWord
  repeat' (with_reducible first | assumption | fail_if_no_progress beta_reduce | apply keep_ptabWrite | apply keep_qctlWrite | apply Kept.ite | fail_if_no_progress (apply KeptR.mk <;> try apply Kept.of2) | apply Kept.of2 | apply Kept.snd (by assumption) | apply KeptR.ite | intro _)

theorem keep_partFound (mid : Nat) (ecc : Ecc) (a u : Nat) (old s : State) (h_old : Kept pq old) (h_s : Kept pq s) : Kept pq (partFound mid ecc a u old s) := by
  unfold partFound
  repeat' (with_reducible first | assumption | fail_if_no_progress beta_reduce | apply keep_memError | apply Kept.ite | intro _ | fail_if_no_progress (apply Kept.upd))

theorem keep_ctlWrite (mid : Nat) (sec : Bool) (ecc : Ecc) (pa : Nat) (bs : List Byte) (s : State) (h_s : Kept pq s) : KeptR pq (ctlWrite mid sec ecc pa bs s) := by
  unfold ctlWrite
  repeat'
    with_reducible first
    | assumption | intro _
    | extract_lets -underBinder +onlyGivenNames x
      first
        | have hx : Kept pq x := by
            try dsimp only [x]
            repeat' (with_reducible first | assumption | fail_if_no_progress beta_reduce | apply keep_ctlWord | apply keep_partFound | apply Kept.ite | fail_if_no_progress (apply KeptR.mk <;> try apply Kept.of2) | apply Kept.of2 | apply Kept.snd (by assumption) | apply KeptR.ite | apply Kept.foldl | apply KeptR.foldl | intro _ | fail_if_no_progress (apply Kept.upd) | split | beta_reduce)
        | have hx : KeptR pq x := by
            try dsimp only [x]
            repeat' (with_reducible first | assumption | fail_if_no_progress beta_reduce | apply keep_ctlWord | apply keep_partFound | apply Kept.ite | fail_if_no_progress (apply KeptR.mk <;> try apply Kept.of2) | apply Kept.of2 | apply Kept.snd (by assumption) | apply KeptR.ite | apply Kept.foldl | apply KeptR.foldl | intro _ | fail_if_no_progress (apply Kept.upd) | split | beta_reduce)
        | skip
      try clear_value x
    | fail_if_no_progress beta_reduce | apply keep_ctlWord | apply keep_partFound | apply Kept.ite | fail_if_no_progress (apply KeptR.mk <;> try apply Kept.of2) | apply Kept.of2 | apply Kept.snd (by assumption) | apply KeptR.ite | apply Kept.foldl | apply KeptR.foldl

theorem keep_memWriteWith (back : Bool) (m : Master) (ecc : Ecc) (pa : Nat) (bs : List Byte) (s : State) (h_s : Kept pq s) : KeptR pq (memWriteWith back m ecc pa bs s) := by
  unfold memWriteWith
  repeat'
    with_reducible first
    | assumption | intro _
    | extract_lets -underBinder +onlyGivenNames x
      first
        | have hx : Kept pq x := by
            try dsimp only [x]
            repeat' (with_reducible first | assumption | fail_if_no_progress beta_reduce | apply keep_store | apply keep_storeBack | apply keep_worldSpan | apply keep_partFound | apply keep_ctlWrite | apply Kept.ite | fail_if_no_progress (apply KeptR.mk <;> try apply Kept.of2) | apply Kept.of2 | apply Kept.snd (by assumption) | apply KeptR.ite | apply Kept.foldl | apply KeptR.foldl | intro _)
        | skip
      try clear_value x
    | fail_if_no_progress beta_reduce | apply keep_store | apply keep_storeBack | apply keep_worldSpan | apply keep_partFound | apply keep_ctlWrite | apply Kept.ite | fail_if_no_progress (apply KeptR.mk <;> try apply Kept.of2) | apply Kept.of2 | apply Kept.snd (by assumption) | apply KeptR.ite | apply Kept.foldl | apply KeptR.foldl | intro _ | fail_if_no_progress (apply Kept.upd) | split

theorem keep_memWrite (m : Master) (ecc : Ecc) (pa : Nat) (bs : List Byte) (s : State) (h_s : Kept pq s) : KeptR pq (memWrite m ecc pa bs s) := by
  unfold memWrite
  repeat' (with_reducible first | assumption | fail_if_no_progress beta_reduce | apply keep_memWriteWith)

theorem keep_agentEcc (a n : Nat) (s : State) (h_s : Kept pq s) : KeptR pq (agentEcc a n s) := by
  unfold agentEcc
  repeat' (with_reducible first | assumption | fail_if_no_progress beta_reduce | apply keep_draw | apply Kept.ite | fail_if_no_progress (apply KeptR.mk <;> try apply Kept.of2) | apply Kept.of2 | apply Kept.snd (by assumption) | apply KeptR.ite | intro _)

theorem keep_agentWrite (mid : Fin 32) (sec : Bool) (a : Nat) (bs : List Byte) (s : State) (h_s : Kept pq s) : KeptR pq (agentWrite mid sec a bs s) := by
  unfold agentWrite
  repeat'
    with_reducible first
    | assumption | intro _
    | extract_lets -underBinder +onlyGivenNames x
      first
        | have hx : Kept pq x := by
            try dsimp only [x]
            repeat' (with_reducible first | assumption | fail_if_no_progress beta_reduce | apply keep_memWrite | apply keep_agentEcc | apply Kept.ite | fail_if_no_progress (apply KeptR.mk <;> try apply Kept.of2) | apply Kept.of2 | apply Kept.snd (by assumption) | apply KeptR.ite | intro _ | fail_if_no_progress (apply Kept.upd) | split | beta_reduce)
        | have hx : KeptR pq x := by
            try dsimp only [x]
            repeat' (with_reducible first | assumption | fail_if_no_progress beta_reduce | apply keep_memWrite | apply keep_agentEcc | apply Kept.ite | fail_if_no_progress (apply KeptR.mk <;> try apply Kept.of2) | apply Kept.of2)
      try clear_value x
    | fail_if_no_progress beta_reduce | apply keep_memWrite | apply keep_agentEcc | apply Kept.ite | fail_if_no_progress (apply KeptR.mk <;> try apply Kept.of2)

theorem keep_agentRead (mid : Fin 32) (sec : Bool) (a n : Nat) (s : State) (h_s : Kept pq s) : KeptR pq (agentRead mid sec a n s) := by
  unfold agentRead
  repeat' (with_reducible first | assumption | fail_if_no_progress beta_reduce | apply keep_memRead | apply Kept.ite | fail_if_no_progress (apply KeptR.mk <;> try apply Kept.of2) | apply Kept.of2 | apply Kept.snd (by assumption) | apply KeptR.ite | intro _ | fail_if_no_progress (apply Kept.upd) | split)

theorem keep_ctlOpen (mid : Fin 32) (sec : Bool) (a n : Nat) (write : Bool) (s : State) (h_s : Kept pq s) : KeptR pq (ctlOpen mid sec a n write s) := by
  unfold ctlOpen
  repeat' (with_reducible first | assumption | fail_if_no_progress beta_reduce | apply keep_worldSpan | apply keep_memFails | apply Kept.ite | fail_if_no_progress (apply KeptR.mk <;> try apply Kept.of2) | apply Kept.of2 | apply Kept.snd (by assumption) | apply KeptR.ite | intro _ | fail_if_no_progress (apply Kept.upd) | split)

theorem keep_queueOpen (mid : Fin 32) (q : Nat) (s : State) (h_s : Kept pq s) : KeptR pq (queueOpen mid q s) := by
  unfold queueOpen
  repeat' (with_reducible first | assumption | fail_if_no_progress beta_reduce | apply keep_ctlOpen)

theorem keep_partnerOpen (mid : Fin 32) (q p : Nat) (s : State) (h_s : Kept pq s) : KeptR pq (partnerOpen mid q p s) := by
  unfold partnerOpen
  repeat' (with_reducible first | assumption | fail_if_no_progress beta_reduce | apply keep_ctlOpen)

theorem keep_countEntry (mid : Fin 32) (q p k : Nat) (s : State) (h_s : Kept pq s) : Kept pq (countEntry mid q p k s) := by
  unfold countEntry
  repeat'
    with_reducible first
    | assumption | intro _
    | extract_lets -underBinder +onlyGivenNames x
      first
        | have hx : Kept pq x := by
            try dsimp only [x]
            repeat' (with_reducible first | assumption | fail_if_no_progress beta_reduce | apply keep_ptCount | apply keep_ctlOpen | apply Kept.ite | fail_if_no_progress (apply KeptR.mk <;> try apply Kept.of2) | apply Kept.of2 | apply Kept.snd (by assumption) | apply KeptR.ite | intro _ | fail_if_no_progress (apply Kept.upd) | split | beta_reduce)
        | have hx : KeptR pq x := by
            try dsimp only [x]
            repeat' (with_reducible first | assumption | fail_if_no_progress beta_reduce | apply keep_ptCount | apply keep_ctlOpen)
      try clear_value x
    | fail_if_no_progress beta_reduce | apply keep_ptCount | apply keep_ctlOpen | apply Kept.ite | fail_if_no_progress (apply KeptR.mk <;> try apply Kept.of2) | apply Kept.of2

theorem keep_agentCopy (mid : Fin 32) (sec : Bool) (src dst n : Nat) (s : State) (h_s : Kept pq s) : KeptR pq (agentCopy mid sec src dst n s) := by
  unfold agentCopy
  repeat' (with_reducible first | assumption | fail_if_no_progress beta_reduce | apply keep_agentWrite | apply keep_agentRead | apply Kept.ite | fail_if_no_progress (apply KeptR.mk <;> try apply Kept.of2) | apply Kept.of2 | apply Kept.snd (by assumption) | apply KeptR.ite | intro _ | fail_if_no_progress (apply Kept.upd) | split)

theorem keep_scrubRead (ddr : Bool) (ecc : Ecc) (s : State) (h_s : Kept pq s) : Kept pq (scrubRead ddr ecc s) := by
  unfold scrubRead
  repeat'
    with_reducible first
    | assumption | intro _
    | extract_lets -underBinder +onlyGivenNames x
      first
        | have hx : Kept pq x := by
            try dsimp only [x]
            repeat' (with_reducible first | assumption | fail_if_no_progress beta_reduce | apply keep_draw | apply keep_memError | apply Kept.ite | fail_if_no_progress (apply KeptR.mk <;> try apply Kept.of2) | apply Kept.of2 | apply Kept.snd (by assumption) | apply KeptR.ite | intro _ | fail_if_no_progress (apply Kept.upd))
        | skip
      try clear_value x
    | fail_if_no_progress beta_reduce | apply keep_draw | apply keep_memError | apply Kept.ite | fail_if_no_progress (apply KeptR.mk <;> try apply Kept.of2) | apply Kept.of2 | apply Kept.snd (by assumption) | apply KeptR.ite | intro _ | fail_if_no_progress (apply Kept.upd) | split

theorem keep_memcInit (v : Word) (s : State) (h_s : Kept pq s) : KeptR pq (memcInit v s) := by
  unfold memcInit
  repeat'
    with_reducible first
    | assumption | intro _
    | extract_lets -underBinder +onlyGivenNames x
      first
        | have hx : Kept pq x := by
            try dsimp only [x]
            repeat' (with_reducible first | assumption | fail_if_no_progress beta_reduce | apply keep_setRgBit)
        | skip
      try clear_value x
    | fail_if_no_progress beta_reduce | apply keep_setRgBit | apply Kept.ite | fail_if_no_progress (apply KeptR.mk <;> try apply Kept.of2) | apply Kept.of2 | apply Kept.snd (by assumption) | apply KeptR.ite | intro _ | fail_if_no_progress (apply Kept.upd) | split

theorem keep_memcTrained (ok : Bool) (s : State) (h_s : Kept pq s) : Kept pq (memcTrained ok s) := by
  unfold memcTrained
  repeat'
    with_reducible first
    | assumption | intro _
    | extract_lets -underBinder +onlyGivenNames x
      first
        | have hx : Kept pq x := by
            try dsimp only [x]
            repeat' (with_reducible first | assumption | fail_if_no_progress beta_reduce | apply keep_setRgBit | apply keep_setRgFld | apply Kept.ite | intro _ | apply Kept.filterMem | fail_if_no_progress (apply Kept.upd))
        | skip
      try clear_value x
    | fail_if_no_progress beta_reduce | apply keep_setRgBit | apply keep_setRgFld | apply Kept.ite | intro _ | apply Kept.filterMem | fail_if_no_progress (apply Kept.upd) | split

theorem keep_memcWrite (o : Nat) (v : Word) (sec : Bool) (s : State) (h_s : Kept pq s) : KeptR pq (memcWrite o v sec s) := by
  unfold memcWrite
  repeat' (with_reducible first | assumption | fail_if_no_progress beta_reduce | apply keep_plainWrite | apply keep_memcInit | apply Kept.ite | fail_if_no_progress (apply KeptR.mk <;> try apply Kept.of2) | apply Kept.of2 | apply Kept.snd (by assumption) | apply KeptR.ite | intro _)

theorem keep_execScrubRead (ddr : Bool) (ecc : Ecc) (s : State) (h_s : Kept pq s) : KeptX pq (execScrubRead ddr ecc s) := by
  unfold execScrubRead
  repeat' (with_reducible first | assumption | fail_if_no_progress beta_reduce | apply keep_scrubRead | apply Kept.ite | apply KeptX.next)

theorem keep_execMemcInit (m : Master) (v : Word) (s : State) (h_s : Kept pq s) : KeptX pq (execMemcInit m v s) := by
  unfold execMemcInit
  repeat' (with_reducible first | assumption | fail_if_no_progress beta_reduce | apply keep_regAccess | apply keep_memcInit | apply Kept.ite | fail_if_no_progress (apply KeptR.mk <;> try apply Kept.of2) | apply Kept.of2 | apply Kept.snd (by assumption) | apply KeptR.ite | apply KeptX.next)

theorem keep_execMemcTrained (ok : Bool) (s : State) (h_s : Kept pq s) : KeptX pq (execMemcTrained ok s) := by
  unfold execMemcTrained
  repeat' (with_reducible first | assumption | fail_if_no_progress beta_reduce | apply keep_memcTrained | apply Kept.ite | apply KeptX.next)

theorem keep_debugLeaves (s s1 : State) (h_s : Kept pq s) (h_s1 : Kept pq s1) : Kept pq (debugLeaves s s1) := by
  unfold debugLeaves
  repeat'
    with_reducible first
    | assumption | intro _
    | extract_lets -underBinder +onlyGivenNames x
      first
        | have hx : Kept pq x := by
            try dsimp only [x]
            repeat' (with_reducible first | assumption | fail_if_no_progress beta_reduce | apply keep_setRgFld | apply Kept.ite | intro _ | fail_if_no_progress (apply Kept.upd))
        | skip
      try clear_value x
    | fail_if_no_progress beta_reduce | apply keep_setRgFld | apply Kept.ite

theorem keep_execFlashRead (m : Master) (off : BitVec 24) (size : Fin 3) (fetch : Bool) (ecc : Ecc) (s : State) (h_s : Kept pq s) : KeptX pq (execFlashRead m off size fetch ecc s) := by
  unfold execFlashRead
  repeat'
    with_reducible first
    | assumption | intro _
    | extract_lets -underBinder +onlyGivenNames x
      first
        | have hx : Kept pq x := by
            try dsimp only [x]
            repeat' (with_reducible first | assumption | fail_if_no_progress beta_reduce | apply keep_memRead | apply keep_debugLeaves | apply Kept.ite | fail_if_no_progress (apply KeptR.mk <;> try apply Kept.of2) | apply Kept.of2 | apply Kept.snd (by assumption) | apply KeptR.ite | apply KeptX.next | apply KeptX.ite | intro _ | fail_if_no_progress (apply Kept.upd) | split | beta_reduce)
        | skip
      try clear_value x
    | fail_if_no_progress beta_reduce | apply keep_memRead | apply keep_debugLeaves | apply Kept.ite | fail_if_no_progress (apply KeptR.mk <;> try apply Kept.of2) | apply Kept.of2 | apply Kept.snd (by assumption) | apply KeptR.ite | apply KeptX.next | apply KeptX.ite | intro _ | fail_if_no_progress (apply Kept.upd)

theorem keep_execFlcInv (m : Master) (v : Word) (s : State) (h_s : Kept pq s) : KeptX pq (execFlcInv m v s) := by
  unfold execFlcInv
  repeat' (with_reducible first | assumption | fail_if_no_progress beta_reduce | apply keep_regAccess | apply keep_flInvalidate | apply Kept.ite | fail_if_no_progress (apply KeptR.mk <;> try apply Kept.of2) | apply Kept.of2 | apply Kept.snd (by assumption) | apply KeptR.ite | apply KeptX.next | apply KeptX.ite | intro _)

end Sys2Proof.Machine
end

