-- ==== Sys2Proof/Laws/KeepDma.lean ====
section
/-! SUPPORT. What the functions of `Dma` keep: the queue, and the canonical form of memory and registers. -/

namespace Sys2Proof.Machine

variable {pq : List Instr}

theorem keep_dmaFlag (c i : Nat) (b : Bool) (s : State) (h_s : Kept pq s) : Kept pq (dmaFlag c i b s) := by
  unfold dmaFlag
  repeat' (with_reducible first | assumption | fail_if_no_progress beta_reduce | apply keep_setRgBit)

theorem keep_dmaStop (c : Nat) (s : State) (h_s : Kept pq s) : Kept pq (dmaStop c s) := by
  unfold dmaStop
  repeat'
    with_reducible first
    | assumption | intro _
    | extract_lets -underBinder +onlyGivenNames x
      first
        | have hx : Kept pq x := by
            try dsimp only [x]
            repeat' (with_reducible first | assumption | fail_if_no_progress beta_reduce | apply keep_setRg | apply keep_setRgBit | apply keep_setRgFld | apply keep_setChan)
      try clear_value x
    | fail_if_no_progress beta_reduce | apply keep_setRg | apply keep_setRgBit | apply keep_setRgFld

theorem keep_dmaStart (c : Nat) (s : State) (h_s : Kept pq s) : Kept pq (dmaStart c s) := by
  unfold dmaStart
  repeat'
    with_reducible first
    | assumption | intro _
    | extract_lets -underBinder +onlyGivenNames x
      first
        | have hx : Kept pq x := by
            try dsimp only [x]
            repeat' (with_reducible first | assumption | fail_if_no_progress beta_reduce | apply keep_setRg | apply keep_setRgBit | apply keep_setChan | apply keep_dmaFlag | apply hF_on | apply Kept.ite | intro _)
        | have hF_on : ∀ y0, Kept pq y0 → Kept pq (x y0) := by
            intro y0 hy0
            try dsimp only [x]
            repeat' (with_reducible first | assumption | fail_if_no_progress beta_reduce | apply keep_setRg | apply keep_setRgBit | apply keep_setChan | apply keep_dmaFlag | apply hF_on)
        | skip
      try clear_value x
    | fail_if_no_progress beta_reduce | apply keep_setRg | apply keep_setRgBit | apply keep_setChan | apply keep_dmaFlag | apply hF_on | apply Kept.ite

theorem keep_dmaEnable (c : Nat) (v : Word) (sec : Bool) (s : State) (h_s : Kept pq s) : KeptR pq (dmaEnable c v sec s) := by
  unfold dmaEnable
  repeat'
    with_reducible first
    | assumption | intro _
    | extract_lets -underBinder +onlyGivenNames x
      first
        | have hx : Kept pq x := by
            try dsimp only [x]
            repeat' (with_reducible first | assumption | fail_if_no_progress beta_reduce | apply keep_setRg | apply keep_setRgBit | apply keep_plainWrite)
        | skip
      try clear_value x
    | fail_if_no_progress beta_reduce | apply keep_setRg | apply keep_setRgBit | apply keep_plainWrite | apply keep_dmaStop | apply keep_dmaStart | apply Kept.ite | fail_if_no_progress (apply KeptR.mk <;> try apply Kept.of2) | apply Kept.of2 | apply Kept.snd (by assumption) | apply KeptR.ite

theorem keep_ringPlaced (c : Nat) (base : Option Word) (s : State) (h_s : Kept pq s) : Kept pq (ringPlaced c base s) := by
  unfold ringPlaced
  repeat'
    with_reducible first
    | assumption | intro _
    | extract_lets -underBinder +onlyGivenNames x
      first
        | have hx : Kept pq x := by
            try dsimp only [x]
            repeat' (with_reducible first | assumption | fail_if_no_progress beta_reduce | apply keep_setRg | apply keep_agentWrite | apply keep_dmaFlag | apply keep_dmaStop | apply Kept.ite | fail_if_no_progress (apply KeptR.mk <;> try apply Kept.of2) | apply Kept.of2 | apply Kept.snd (by assumption) | apply KeptR.ite | intro _ | fail_if_no_progress (apply Kept.upd) | split | beta_reduce)
        | skip
      try clear_value x
    | fail_if_no_progress beta_reduce | apply keep_setRg | apply keep_agentWrite | apply keep_dmaFlag | apply keep_dmaStop | apply Kept.ite | fail_if_no_progress (apply KeptR.mk <;> try apply Kept.of2) | apply Kept.of2 | apply Kept.snd (by assumption) | apply KeptR.ite | intro _ | fail_if_no_progress (apply Kept.upd) | split

theorem keep_dmaKick (c : Nat) (v : Word) (s : State) (h_s : Kept pq s) : KeptR pq (dmaKick c v s) := by
  unfold dmaKick
  repeat' (with_reducible first | assumption | fail_if_no_progress beta_reduce | apply keep_setChan | apply Kept.ite | fail_if_no_progress (apply KeptR.mk <;> try apply Kept.of2) | apply Kept.of2 | apply Kept.snd (by assumption) | apply KeptR.ite | intro _)

theorem keep_dmaWrite (o : Nat) (v : Word) (sec : Bool) (s : State) (h_s : Kept pq s) : KeptR pq (dmaWrite o v sec s) := by
  unfold dmaWrite
  repeat'
    with_reducible first
    | assumption | intro _
    | extract_lets -underBinder +onlyGivenNames x
      first
        | have hx : Kept pq x := by
            try dsimp only [x]
            repeat' (with_reducible first | assumption | fail_if_no_progress beta_reduce | apply keep_plainWrite | apply keep_dmaEnable | apply keep_dmaKick | apply Kept.ite | fail_if_no_progress (apply KeptR.mk <;> try apply Kept.of2) | apply Kept.of2 | apply Kept.snd (by assumption) | apply KeptR.ite | intro _ | fail_if_no_progress (apply Kept.upd) | split | beta_reduce)
        | skip
      try clear_value x
    | fail_if_no_progress beta_reduce | apply keep_plainWrite | apply keep_dmaEnable | apply keep_dmaKick | apply Kept.ite | fail_if_no_progress (apply KeptR.mk <;> try apply Kept.of2) | apply Kept.of2 | apply Kept.snd (by assumption) | apply KeptR.ite

theorem keep_execDmaEnable (m : Master) (c : Fin 32) (v : Word) (s : State) (h_s : Kept pq s) : KeptX pq (execDmaEnable m c v s) := by
  unfold execDmaEnable
  repeat' (with_reducible first | assumption | fail_if_no_progress beta_reduce | apply keep_regAccess | apply keep_dmaEnable | apply Kept.ite | fail_if_no_progress (apply KeptR.mk <;> try apply Kept.of2) | apply Kept.of2 | apply Kept.snd (by assumption) | apply KeptR.ite | apply KeptX.next)

theorem keep_execDmaRingPlaced (c : Fin 32) (base : Option Word) (s : State) (h_s : Kept pq s) : KeptX pq (execDmaRingPlaced c base s) := by
  unfold execDmaRingPlaced
  repeat' (with_reducible first | assumption | fail_if_no_progress beta_reduce | apply keep_ringPlaced | apply Kept.ite | apply KeptX.next)

theorem keep_execKick (m : Master) (c : Fin 32) (v : Word) (s : State) (h_s : Kept pq s) : KeptX pq (execKick m c v s) := by
  unfold execKick
  repeat' (with_reducible first | assumption | fail_if_no_progress beta_reduce | apply keep_regAccess | apply keep_dmaKick | apply Kept.ite | fail_if_no_progress (apply KeptR.mk <;> try apply Kept.of2) | apply Kept.of2 | apply Kept.snd (by assumption) | apply KeptR.ite | apply KeptX.next)

theorem keep_execDmaChannelRequest (is : List Nat) (s : State) (h_s : Kept pq s) : KeptX pq (execDmaChannelRequest is s) := by
  unfold execDmaChannelRequest
  repeat' (with_reducible first | assumption | fail_if_no_progress beta_reduce | apply keep_deliver | apply Kept.ite | apply KeptX.next)

end Sys2Proof.Machine
end

