-- ==== Sys2Proof/Laws/KeepMailbox.lean ====
section
/-! SUPPORT. What the functions of `Mailbox` keep: the queue, and the canonical form of memory and registers. -/

namespace Sys2Proof.Machine

variable {pq : List Instr}

theorem keep_mbxRecord (m : Master) (n code : Nat) (s : State) (h_s : Kept pq s) : Kept pq (mbxRecord m n code s) := by
  unfold mbxRecord
  repeat'
    with_reducible first
    | assumption | intro _
    | extract_lets -underBinder +onlyGivenNames x
      first
        | have hx : Kept pq x := by
            try dsimp only [x]
            repeat' (with_reducible first | assumption | fail_if_no_progress beta_reduce | apply keep_setRg | apply keep_setRgBit | apply Kept.ite | intro _ | fail_if_no_progress (apply Kept.upd) | split | beta_reduce)
        | skip
      try clear_value x
    | fail_if_no_progress beta_reduce | apply keep_setRg | apply keep_setRgBit | apply Kept.ite

theorem keep_mbxRefuse (m : Master) (n code : Nat) (s : State) (h_s : Kept pq s) : KeptR pq (mbxRefuse m n code s) := by
  unfold mbxRefuse
  repeat' (with_reducible first | assumption | fail_if_no_progress beta_reduce | apply keep_mbxRecord | apply Kept.ite | fail_if_no_progress (apply KeptR.mk <;> try apply Kept.of2))

theorem keep_mbxMsgWrite (m : Master) (n k : Nat) (v : Word) (s : State) (h_s : Kept pq s) : KeptR pq (mbxMsgWrite m n k v s) := by
  unfold mbxMsgWrite
  repeat' (with_reducible first | assumption | fail_if_no_progress beta_reduce | apply keep_setRg | apply keep_mbxRefuse | apply Kept.ite | fail_if_no_progress (apply KeptR.mk <;> try apply Kept.of2) | apply Kept.of2 | apply Kept.snd (by assumption) | apply KeptR.ite | intro _ | fail_if_no_progress (apply Kept.upd) | split)

theorem keep_mbxSend (m : Master) (n : Nat) (v : Word) (s : State) (h_s : Kept pq s) : KeptR pq (mbxSend m n v s) := by
  unfold mbxSend
  repeat'
    with_reducible first
    | assumption | intro _
    | extract_lets -underBinder +onlyGivenNames x
      first
        | have hx : Kept pq x := by
            try dsimp only [x]
            repeat' (with_reducible first | assumption | fail_if_no_progress beta_reduce | apply keep_setRg | apply keep_draw | apply keep_raiseEvent | apply keep_mbxRefuse | apply Kept.ite | fail_if_no_progress (apply KeptR.mk <;> try apply Kept.of2) | apply Kept.of2)
        | skip
      try clear_value x
    | fail_if_no_progress beta_reduce | apply keep_setRg | apply keep_draw | apply keep_raiseEvent | apply keep_mbxRefuse | apply Kept.ite | fail_if_no_progress (apply KeptR.mk <;> try apply Kept.of2) | apply Kept.of2 | apply Kept.snd (by assumption) | apply KeptR.ite | intro _ | fail_if_no_progress (apply Kept.upd) | split

theorem keep_mbxAck (m : Master) (n : Nat) (v : Word) (s : State) (h_s : Kept pq s) : KeptR pq (mbxAck m n v s) := by
  unfold mbxAck
  repeat'
    with_reducible first
    | assumption | intro _
    | extract_lets -underBinder +onlyGivenNames x
      first
        | have hx : Kept pq x := by
            try dsimp only [x]
            repeat' (with_reducible first | assumption | fail_if_no_progress beta_reduce | apply keep_setRg)
      try clear_value x
    | fail_if_no_progress beta_reduce | apply keep_setRg | apply keep_setRgFld | apply keep_raiseEvent | apply keep_mbxRefuse | apply Kept.ite | fail_if_no_progress (apply KeptR.mk <;> try apply Kept.of2) | apply Kept.of2 | apply Kept.snd (by assumption) | apply KeptR.ite | intro _ | fail_if_no_progress (apply Kept.upd) | split

theorem keep_mbxRead (m : Master) (o : Nat) (s : State) (h_s : Kept pq s) : KeptR pq (mbxRead m o s) := by
  unfold mbxRead
  repeat'
    with_reducible first
    | assumption | intro _
    | extract_lets -underBinder +onlyGivenNames x
      first
        | have hx : Kept pq x := by
            try dsimp only [x]
            repeat' (with_reducible first | assumption | fail_if_no_progress beta_reduce | apply keep_mbxRefuse | apply Kept.ite | fail_if_no_progress (apply KeptR.mk <;> try apply Kept.of2) | apply Kept.of2 | apply Kept.snd (by assumption) | apply KeptR.ite | intro _ | fail_if_no_progress (apply Kept.upd) | split | beta_reduce)
        | skip
      try clear_value x
    | fail_if_no_progress beta_reduce | apply keep_mbxRefuse | apply Kept.ite | fail_if_no_progress (apply KeptR.mk <;> try apply Kept.of2) | apply Kept.of2 | apply Kept.snd (by assumption) | apply KeptR.ite | intro _ | fail_if_no_progress (apply Kept.upd) | split

theorem keep_mbxWrite (m : Master) (o : Nat) (v : Word) (s : State) (h_s : Kept pq s) : KeptR pq (mbxWrite m o v s) := by
  unfold mbxWrite
  repeat'
    with_reducible first
    | assumption | intro _
    | extract_lets -underBinder +onlyGivenNames x
      first
        | have hx : Kept pq x := by
            try dsimp only [x]
            repeat' (with_reducible first | assumption | fail_if_no_progress beta_reduce | apply keep_plainWrite | apply keep_mbxRefuse | apply keep_mbxMsgWrite | apply keep_mbxSend | apply keep_mbxAck | apply Kept.ite | fail_if_no_progress (apply KeptR.mk <;> try apply Kept.of2) | apply Kept.of2 | apply Kept.snd (by assumption) | apply KeptR.ite | intro _ | fail_if_no_progress (apply Kept.upd) | split | beta_reduce)
        | skip
      try clear_value x
    | fail_if_no_progress beta_reduce | apply keep_plainWrite | apply keep_mbxRefuse | apply keep_mbxMsgWrite | apply keep_mbxSend | apply keep_mbxAck | apply Kept.ite | fail_if_no_progress (apply KeptR.mk <;> try apply Kept.of2) | apply Kept.of2 | apply Kept.snd (by assumption) | apply KeptR.ite | intro _ | fail_if_no_progress (apply Kept.upd) | split

theorem keep_mbxDomainUp (mid : Nat) (s : State) (h_s : Kept pq s) : Kept pq (mbxDomainUp mid s) := by
  unfold mbxDomainUp
  repeat' (with_reducible first | assumption | fail_if_no_progress beta_reduce | apply keep_raiseEvent | apply Kept.ite | apply Kept.foldl | intro _)

theorem keep_execMbxMsgWrite (m : Master) (n : Fin 64) (k : Fin 8) (v : Word) (s : State) (h_s : Kept pq s) : KeptX pq (execMbxMsgWrite m n k v s) := by
  unfold execMbxMsgWrite
  repeat' (with_reducible first | assumption | fail_if_no_progress beta_reduce | apply keep_regAccess | apply keep_mbxMsgWrite | apply Kept.ite | fail_if_no_progress (apply KeptR.mk <;> try apply Kept.of2) | apply Kept.of2 | apply Kept.snd (by assumption) | apply KeptR.ite | apply KeptX.next)

theorem keep_execSend (m : Master) (n : Fin 64) (v : Word) (s : State) (h_s : Kept pq s) : KeptX pq (execSend m n v s) := by
  unfold execSend
  repeat' (with_reducible first | assumption | fail_if_no_progress beta_reduce | apply keep_regAccess | apply keep_mbxSend | apply Kept.ite | fail_if_no_progress (apply KeptR.mk <;> try apply Kept.of2) | apply Kept.of2 | apply Kept.snd (by assumption) | apply KeptR.ite | apply KeptX.next)

theorem keep_execAck (m : Master) (n : Fin 64) (v : Word) (s : State) (h_s : Kept pq s) : KeptX pq (execAck m n v s) := by
  unfold execAck
  repeat' (with_reducible first | assumption | fail_if_no_progress beta_reduce | apply keep_regAccess | apply keep_mbxAck | apply Kept.ite | fail_if_no_progress (apply KeptR.mk <;> try apply Kept.of2) | apply Kept.of2 | apply Kept.snd (by assumption) | apply KeptR.ite | apply KeptX.next)

theorem keep_execMbxLock (m : Master) (v : Word) (s : State) (h_s : Kept pq s) : KeptX pq (execMbxLock m v s) := by
  unfold execMbxLock
  repeat' (with_reducible first | assumption | fail_if_no_progress beta_reduce | apply keep_regAccess | apply keep_mbxWrite | apply Kept.ite | fail_if_no_progress (apply KeptR.mk <;> try apply Kept.of2) | apply Kept.of2 | apply Kept.snd (by assumption) | apply KeptR.ite | apply KeptX.next)

theorem keep_execMbxDomainUp (mid : Fin 32) (s : State) (h_s : Kept pq s) : KeptX pq (execMbxDomainUp mid s) := by
  unfold execMbxDomainUp
  repeat' (with_reducible first | assumption | fail_if_no_progress beta_reduce | apply keep_mbxDomainUp | apply Kept.ite | apply KeptX.next)

end Sys2Proof.Machine
end

