-- ==== Sys2Proof/Laws/KeepFlash.lean ====
section
/-! SUPPORT. What the functions of `Flash` keep: the queue, and the canonical form of memory and registers. -/

namespace Sys2Proof.Machine

variable {pq : List Instr}

theorem keep_setSvReg (r : Nat) (v : Word) (s : State) (h_s : Kept pq s) : Kept pq (setSvReg r v s) := by
  unfold setSvReg
  repeat'
    with_reducible first
    | assumption | intro _
    | extract_lets -underBinder +onlyGivenNames x
      first
        | have hx : Kept pq x := by
            try dsimp only [x]
            repeat' (with_reducible first | assumption | fail_if_no_progress beta_reduce | apply keep_setEl | apply Kept.ite | intro _ | fail_if_no_progress (apply Kept.upd) | split | beta_reduce)
        | skip
      try clear_value x
    | fail_if_no_progress beta_reduce | apply keep_setEl

theorem keep_svReturn (code : Option Nat) (s : State) (h_s : Kept pq s) : Kept pq (svReturn code s) := by
  unfold svReturn
  repeat'
    with_reducible first
    | assumption | intro _
    | extract_lets -underBinder +onlyGivenNames x
      first
        | have hx : Kept pq x := by
            try dsimp only [x]
            repeat' (with_reducible first | assumption | fail_if_no_progress beta_reduce | apply keep_setEl | apply keep_draw | apply keep_setSvReg | apply Kept.ite | fail_if_no_progress (apply KeptR.mk <;> try apply Kept.of2) | apply Kept.of2 | apply Kept.snd (by assumption) | apply KeptR.ite | apply Kept.foldl | apply KeptR.foldl | intro _)
        | skip
      try clear_value x
    | fail_if_no_progress beta_reduce | apply keep_setEl | apply keep_draw | apply keep_setSvReg | apply Kept.ite | fail_if_no_progress (apply KeptR.mk <;> try apply Kept.of2) | apply Kept.of2 | apply Kept.snd (by assumption) | apply KeptR.ite | apply Kept.foldl | apply KeptR.foldl | intro _ | fail_if_no_progress (apply Kept.upd) | split

theorem keep_answerCall (chan : Option Nat) (code : Nat) (s : State) (h_s : Kept pq s) : Kept pq (answerCall chan code s) := by
  unfold answerCall
  repeat' (with_reducible first | assumption | fail_if_no_progress beta_reduce | apply keep_mbxAck | apply keep_svReturn | apply Kept.ite | fail_if_no_progress (apply KeptR.mk <;> try apply Kept.of2) | apply Kept.of2 | apply Kept.snd (by assumption) | apply KeptR.ite | intro _ | fail_if_no_progress (apply Kept.upd) | split)

theorem keep_bbtRefresh (s : State) (h_s : Kept pq s) : Kept pq (bbtRefresh s) := by
  unfold bbtRefresh
  repeat'
    with_reducible first
    | assumption | intro _
    | extract_lets -underBinder +onlyGivenNames x
      first
        | have hx : Kept pq x := by
            try dsimp only [x]
            repeat' (with_reducible first | assumption | fail_if_no_progress beta_reduce | apply keep_setRg | apply Kept.ite | intro _ | fail_if_no_progress (apply Kept.upd) | split | beta_reduce)
        | skip
      try clear_value x
    | fail_if_no_progress beta_reduce | apply keep_setRg

theorem keep_bbtAdd (reason sector : Nat) (s : State) (h_s : Kept pq s) : Kept pq (bbtAdd reason sector s) := by
  unfold bbtAdd
  repeat' (with_reducible first | assumption | fail_if_no_progress beta_reduce | apply keep_storeWord | apply keep_bbtRefresh | apply Kept.ite | intro _ | fail_if_no_progress (apply Kept.upd) | split)

theorem keep_tornRefresh (s : State) (h_s : Kept pq s) : Kept pq (tornRefresh s) := by
  unfold tornRefresh
  repeat'
    with_reducible first
    | assumption | intro _
    | extract_lets -underBinder +onlyGivenNames x
      first
        | have hx : Kept pq x := by
            try dsimp only [x]
            repeat' (with_reducible first | assumption | fail_if_no_progress beta_reduce | apply keep_setRg | apply Kept.ite | intro _ | fail_if_no_progress (apply Kept.upd) | split | beta_reduce)
        | skip
      try clear_value x
    | fail_if_no_progress beta_reduce | apply keep_setRg

theorem keep_flBlank (a n : Nat) (s : State) (h_s : Kept pq s) : KeptR pq (flBlank a n s) := by
  unfold flBlank
  repeat' (with_reducible first | assumption | fail_if_no_progress beta_reduce | apply keep_draw | apply Kept.ite | fail_if_no_progress (apply KeptR.mk <;> try apply Kept.of2) | apply Kept.of2 | apply Kept.snd (by assumption) | apply KeptR.ite | intro _)

theorem keep_fopShow (k : Nat) (s : State) (h_s : Kept pq s) : Kept pq (fopShow k s) := by
  unfold fopShow
  repeat'
    with_reducible first
    | assumption | intro _
    | extract_lets -underBinder +onlyGivenNames x
      first
        | have hx : Kept pq x := by
            try dsimp only [x]
            repeat' (with_reducible first | assumption | fail_if_no_progress beta_reduce | apply keep_setRgBit)
        | skip
      try clear_value x
    | fail_if_no_progress beta_reduce | apply keep_setRgBit | apply keep_setRgFld

theorem keep_fopSet (k : Nat) (x : FlashOp) (s : State) (h_s : Kept pq s) : Kept pq (fopSet k x s) := by
  unfold fopSet
  repeat' (with_reducible first | assumption | fail_if_no_progress beta_reduce | apply keep_setFop | apply keep_fopShow)

theorem keep_fopDone (k : Nat) (s : State) (h_s : Kept pq s) : Kept pq (fopDone k s) := by
  unfold fopDone
  repeat'
    with_reducible first
    | assumption | intro _
    | extract_lets -underBinder +onlyGivenNames x
      first
        | have hx : Kept pq x := by
            try dsimp only [x]
            repeat' (with_reducible first | assumption | fail_if_no_progress beta_reduce | apply keep_setRgBit | apply keep_raiseEvent | apply keep_flInvBank | apply keep_fopSet)
      try clear_value x
    | fail_if_no_progress beta_reduce | apply keep_setRgBit | apply keep_raiseEvent

theorem keep_tvFlProgram (c : Call) (s : State) (h_s : Kept pq s) : KeptR pq (tvFlProgram c s) := by
  unfold tvFlProgram
  repeat'
    with_reducible first
    | assumption | intro _
    | extract_lets -underBinder +onlyGivenNames x
      first
        | have hx : Kept pq x := by
            try dsimp only [x]
            repeat' (with_reducible first | assumption | fail_if_no_progress beta_reduce | apply keep_setRgFld | apply keep_memRead | apply keep_flBlank | apply keep_fopSet | apply Kept.ite | fail_if_no_progress (apply KeptR.mk <;> try apply Kept.of2) | apply Kept.of2 | apply Kept.snd (by assumption))
        | skip
      try clear_value x
    | fail_if_no_progress beta_reduce | apply keep_setRgFld | apply keep_memRead | apply keep_flBlank | apply keep_fopSet | apply Kept.ite | fail_if_no_progress (apply KeptR.mk <;> try apply Kept.of2) | apply Kept.of2 | apply Kept.snd (by assumption) | apply KeptR.ite | intro _ | fail_if_no_progress (apply Kept.upd) | split

theorem keep_flSpoil (a : Nat) (s : State) (h_s : Kept pq s) : Kept pq (flSpoil a s) := by
  unfold flSpoil
  repeat' (with_reducible first | assumption | fail_if_no_progress beta_reduce | apply keep_store | apply keep_drawBytes | apply Kept.ite | fail_if_no_progress (apply KeptR.mk <;> try apply Kept.of2) | apply Kept.of2)

theorem keep_flashProgramDone (k : Nat) (fail : Option Nat) (pulses : Nat) (s : State) (h_s : Kept pq s) : Kept pq (flashProgramDone k fail pulses s) := by
  unfold flashProgramDone
  repeat'
    with_reducible first
    | assumption | intro _
    | extract_lets -underBinder +onlyGivenNames x
      first
        | have hx : Kept pq x := by
            try dsimp only [x]
            repeat' (with_reducible first | assumption | fail_if_no_progress beta_reduce | apply keep_store | apply keep_answerCall | apply keep_fopDone | apply keep_flSpoil)
        | skip
      try clear_value x
    | fail_if_no_progress beta_reduce | apply keep_store | apply keep_answerCall | apply keep_fopDone | apply keep_flSpoil | apply Kept.ite | intro _ | fail_if_no_progress (apply Kept.upd) | split

theorem keep_journalWrite (start : Bool) (x : Nat) (s : State) (h_s : Kept pq s) : Kept pq (journalWrite start x s) := by
  unfold journalWrite
  repeat'
    with_reducible first
    | assumption | intro _
    | extract_lets -underBinder +onlyGivenNames x
      first
        | have hx : Kept pq x := by
            try dsimp only [x]
            repeat' (with_reducible first | assumption | fail_if_no_progress beta_reduce | apply keep_draw | apply Kept.ite | fail_if_no_progress (apply KeptR.mk <;> try apply Kept.of2) | apply Kept.of2 | apply Kept.snd (by assumption) | apply KeptR.ite | intro _ | fail_if_no_progress (apply Kept.upd) | split | beta_reduce)
        | skip
      try clear_value x
    | fail_if_no_progress beta_reduce | apply keep_draw | apply Kept.ite | fail_if_no_progress (apply KeptR.mk <;> try apply Kept.of2) | apply Kept.of2 | apply Kept.snd (by assumption) | apply KeptR.ite | intro _ | fail_if_no_progress (apply Kept.upd)

theorem keep_journalOpen (x : Nat) (s : State) (h_s : Kept pq s) : Kept pq (journalOpen x s) := by
  unfold journalOpen
  repeat'
    with_reducible first
    | assumption | intro _
    | extract_lets -underBinder +onlyGivenNames x
      first
        | have hx : Kept pq x := by
            try dsimp only [x]
            repeat' (with_reducible first | assumption | fail_if_no_progress beta_reduce | apply keep_journalWrite)
        | skip
      try clear_value x
    | fail_if_no_progress beta_reduce | apply keep_journalWrite | apply Kept.ite | intro _ | fail_if_no_progress (apply Kept.upd)

theorem keep_journalClose (x : Nat) (s : State) (h_s : Kept pq s) : Kept pq (journalClose x s) := by
  unfold journalClose
  repeat'
    with_reducible first
    | assumption | intro _
    | extract_lets -underBinder +onlyGivenNames x
      first
        | have hx : Kept pq x := by
            try dsimp only [x]
            repeat' (with_reducible first | assumption | fail_if_no_progress beta_reduce | apply keep_journalWrite)
        | skip
      try clear_value x
    | fail_if_no_progress beta_reduce | apply keep_journalWrite | apply Kept.ite | intro _ | fail_if_no_progress (apply Kept.upd)

theorem keep_tvFlErase (c : Call) (s : State) (h_s : Kept pq s) : KeptR pq (tvFlErase c s) := by
  unfold tvFlErase
  repeat'
    with_reducible first
    | assumption | intro _
    | extract_lets -underBinder +onlyGivenNames x
      first
        | have hx : Kept pq x := by
            try dsimp only [x]
            repeat' (with_reducible first | assumption | fail_if_no_progress beta_reduce | apply keep_setRgFld | apply keep_fopSet | apply keep_journalOpen | apply Kept.ite | fail_if_no_progress (apply KeptR.mk <;> try apply Kept.of2) | apply Kept.of2 | apply Kept.snd (by assumption) | apply KeptR.ite | intro _ | fail_if_no_progress (apply Kept.upd))
        | skip
      try clear_value x
    | fail_if_no_progress beta_reduce | apply keep_setRgFld | apply keep_fopSet | apply keep_journalOpen | apply Kept.ite | fail_if_no_progress (apply KeptR.mk <;> try apply Kept.of2) | apply Kept.of2 | apply Kept.snd (by assumption) | apply KeptR.ite

theorem keep_erasePulseEnd (k : Nat) (ok : Bool) (s : State) (h_s : Kept pq s) : Kept pq (erasePulseEnd k ok s) := by
  unfold erasePulseEnd
  repeat'
    with_reducible first
    | assumption | intro _
    | extract_lets -underBinder +onlyGivenNames x
      first
        | have hx : Kept pq x := by
            try dsimp only [x]
            repeat' (with_reducible first | assumption | fail_if_no_progress beta_reduce | apply keep_setRgFld | apply keep_setFop | apply Kept.ite | intro _ | fail_if_no_progress (apply Kept.upd) | split | beta_reduce)
        | skip
      try clear_value x
    | fail_if_no_progress beta_reduce | apply keep_setRgFld | apply keep_setFop | apply Kept.ite

theorem keep_flErased (x : Nat) (s : State) (h_s : Kept pq s) : Kept pq (flErased x s) := by
  unfold flErased
  repeat' (with_reducible first | assumption | fail_if_no_progress beta_reduce | apply Kept.ite | intro _ | apply Kept.filterMem)

theorem keep_eraseDone (k : Nat) (s : State) (h_s : Kept pq s) : Kept pq (eraseDone k s) := by
  unfold eraseDone
  repeat'
    with_reducible first
    | assumption | intro _
    | extract_lets -underBinder +onlyGivenNames x
      first
        | have hx : Kept pq x := by
            try dsimp only [x]
            repeat' (with_reducible first | assumption | fail_if_no_progress beta_reduce | apply keep_setRgFld | apply keep_bbtAdd | apply keep_tornRefresh | apply keep_fopDone | apply keep_journalClose | apply keep_flErased | apply Kept.ite | intro _ | fail_if_no_progress (apply Kept.upd))
        | skip
      try clear_value x
    | fail_if_no_progress beta_reduce | apply keep_setRgFld | apply keep_bbtAdd | apply keep_tornRefresh | apply keep_fopDone | apply keep_journalClose | apply keep_flErased | apply Kept.ite | intro _ | fail_if_no_progress (apply Kept.upd) | split

theorem keep_tvFlSuspend (c : Call) (s : State) (h_s : Kept pq s) : KeptR pq (tvFlSuspend c s) := by
  unfold tvFlSuspend
  repeat'
    with_reducible first
    | assumption | intro _
    | extract_lets -underBinder +onlyGivenNames x
      first
        | have hx : Kept pq x := by
            try dsimp only [x]
            repeat' (with_reducible first | assumption | fail_if_no_progress beta_reduce | apply keep_fopSet | apply Kept.ite | fail_if_no_progress (apply KeptR.mk <;> try apply Kept.of2) | apply Kept.of2 | apply Kept.snd (by assumption) | apply KeptR.ite | intro _ | fail_if_no_progress (apply Kept.upd) | split | beta_reduce)
        | skip
      try clear_value x
    | fail_if_no_progress beta_reduce | apply keep_fopSet | apply Kept.ite | fail_if_no_progress (apply KeptR.mk <;> try apply Kept.of2) | apply Kept.of2 | apply Kept.snd (by assumption) | apply KeptR.ite

theorem keep_tvFlResume (c : Call) (s : State) (h_s : Kept pq s) : KeptR pq (tvFlResume c s) := by
  unfold tvFlResume
  repeat'
    with_reducible first
    | assumption | intro _
    | extract_lets -underBinder +onlyGivenNames x
      first
        | have hx : Kept pq x := by
            try dsimp only [x]
            repeat' (with_reducible first | assumption | fail_if_no_progress beta_reduce | apply keep_fopSet | apply Kept.ite | fail_if_no_progress (apply KeptR.mk <;> try apply Kept.of2) | apply Kept.of2 | apply Kept.snd (by assumption) | apply KeptR.ite | intro _ | fail_if_no_progress (apply Kept.upd) | split | beta_reduce)
        | skip
      try clear_value x
    | fail_if_no_progress beta_reduce | apply keep_fopSet | apply Kept.ite | fail_if_no_progress (apply KeptR.mk <;> try apply Kept.of2) | apply Kept.of2 | apply Kept.snd (by assumption) | apply KeptR.ite

theorem keep_tvFlBlank (c : Call) (s : State) (h_s : Kept pq s) : KeptR pq (tvFlBlank c s) := by
  unfold tvFlBlank
  repeat'
    with_reducible first
    | assumption | intro _
    | extract_lets -underBinder +onlyGivenNames x
      first
        | have hx : Kept pq x := by
            try dsimp only [x]
            repeat' (with_reducible first | assumption | fail_if_no_progress beta_reduce | apply keep_flBlank | apply Kept.ite | fail_if_no_progress (apply KeptR.mk <;> try apply Kept.of2) | apply Kept.of2 | apply Kept.snd (by assumption) | apply KeptR.ite | intro _ | fail_if_no_progress (apply Kept.upd) | split | beta_reduce)
        | skip
      try clear_value x
    | fail_if_no_progress beta_reduce | apply keep_flBlank | apply Kept.ite | fail_if_no_progress (apply KeptR.mk <;> try apply Kept.of2) | apply Kept.of2 | apply Kept.snd (by assumption) | apply KeptR.ite

theorem keep_tvFlInfo (c : Call) (s : State) (h_s : Kept pq s) : KeptR pq (tvFlInfo c s) := by
  unfold tvFlInfo
  repeat'
    with_reducible first
    | assumption | intro _
    | extract_lets -underBinder +onlyGivenNames x
      first
        | have hx : Kept pq x := by
            try dsimp only [x]
            repeat' (with_reducible first | assumption | fail_if_no_progress beta_reduce | apply Kept.ite | fail_if_no_progress (apply KeptR.mk <;> try apply Kept.of2) | apply Kept.of2 | apply Kept.snd (by assumption) | apply KeptR.ite | intro _ | fail_if_no_progress (apply Kept.upd) | split | beta_reduce)
        | skip
      try clear_value x
    | fail_if_no_progress beta_reduce | apply Kept.ite | fail_if_no_progress (apply KeptR.mk <;> try apply Kept.of2) | apply Kept.of2 | apply Kept.snd (by assumption) | apply KeptR.ite

theorem keep_tvFlMarkbad (c : Call) (s : State) (h_s : Kept pq s) : KeptR pq (tvFlMarkbad c s) := by
  unfold tvFlMarkbad
  repeat'
    with_reducible first
    | assumption | intro _
    | extract_lets -underBinder +onlyGivenNames x
      first
        | have hx : Kept pq x := by
            try dsimp only [x]
            repeat' (with_reducible first | assumption | fail_if_no_progress beta_reduce | apply keep_bbtAdd | apply Kept.ite | fail_if_no_progress (apply KeptR.mk <;> try apply Kept.of2) | apply Kept.of2 | apply Kept.snd (by assumption) | apply KeptR.ite | intro _ | fail_if_no_progress (apply Kept.upd) | split | beta_reduce)
        | skip
      try clear_value x
    | fail_if_no_progress beta_reduce | apply keep_bbtAdd | apply Kept.ite | fail_if_no_progress (apply KeptR.mk <;> try apply Kept.of2) | apply Kept.of2 | apply Kept.snd (by assumption) | apply KeptR.ite

theorem keep_callQueue (c : MonCall) (s : State) (h_s : Kept pq s) : Kept pq (callQueue c s) := by
  unfold callQueue
  repeat' (with_reducible first | assumption | fail_if_no_progress beta_reduce | apply Kept.ite | intro _ | fail_if_no_progress (apply Kept.upd))

theorem keep_svServe (no : Nat) (f : Call → State → Nat × State) (ecc : Ecc) (s : State) (ok : Bool) (h_f : ∀ x0 x1, Kept pq x1 → KeptR pq (f x0 x1)) (h_s : Kept pq s) : Kept pq (svServe no f ecc s ok) := by
  unfold svServe
  repeat' (with_reducible first | assumption | fail_if_no_progress beta_reduce | apply h_f | apply keep_answerCall | apply keep_callQueue | apply Kept.ite | fail_if_no_progress (apply KeptR.mk <;> try apply Kept.of2) | apply Kept.of2 | apply Kept.snd (by assumption) | apply KeptR.ite | apply KeptO.done | apply KeptO.ended | apply KeptO.jump | apply KeptO.trap | apply KeptO.hold | apply KeptO.ite | intro _)

theorem keep_programCall (c : Call) (s : State) (h_s : Kept pq s) : Kept pq (programCall c s) := by
  unfold programCall
  repeat' (with_reducible first | assumption | fail_if_no_progress beta_reduce | apply keep_answerCall | apply keep_tvFlProgram | apply Kept.ite | fail_if_no_progress (apply KeptR.mk <;> try apply Kept.of2) | apply Kept.of2 | apply Kept.snd (by assumption) | apply KeptR.ite | intro _ | fail_if_no_progress (apply Kept.upd) | split)

theorem keep_execTvFlProgram (ecc : Ecc) (s : State) (h_s : Kept pq s) : KeptX pq (execTvFlProgram ecc s) := by
  unfold execTvFlProgram
  repeat' (with_reducible first | assumption | fail_if_no_progress beta_reduce | apply keep_callQueue | apply keep_programCall | apply Kept.ite | apply KeptX.next | apply KeptX.ite | intro _)

theorem keep_execTvFlErase (s : State) (h_s : Kept pq s) : KeptX pq (execTvFlErase s) := by
  unfold execTvFlErase
  repeat' (with_reducible first | assumption | fail_if_no_progress beta_reduce | apply keep_tvFlErase | apply keep_svServe | apply Kept.ite | fail_if_no_progress (apply KeptR.mk <;> try apply Kept.of2) | apply Kept.of2 | apply Kept.snd (by assumption) | apply KeptR.ite | apply KeptX.next)

theorem keep_execErasePulseEnd (k : Fin 2) (ok : Bool) (s : State) (h_s : Kept pq s) : KeptX pq (execErasePulseEnd k ok s) := by
  unfold execErasePulseEnd
  repeat' (with_reducible first | assumption | fail_if_no_progress beta_reduce | apply keep_erasePulseEnd | apply Kept.ite | apply KeptX.next)

theorem keep_execEraseDone (k : Fin 2) (s : State) (h_s : Kept pq s) : KeptX pq (execEraseDone k s) := by
  unfold execEraseDone
  repeat' (with_reducible first | assumption | fail_if_no_progress beta_reduce | apply keep_eraseDone | apply Kept.ite | apply KeptX.next)

theorem keep_execTvFlSuspend (s : State) (h_s : Kept pq s) : KeptX pq (execTvFlSuspend s) := by
  unfold execTvFlSuspend
  repeat' (with_reducible first | assumption | fail_if_no_progress beta_reduce | apply keep_tvFlSuspend | apply keep_svServe | apply Kept.ite | fail_if_no_progress (apply KeptR.mk <;> try apply Kept.of2) | apply Kept.of2 | apply Kept.snd (by assumption) | apply KeptR.ite | apply KeptX.next)

theorem keep_execTvFlResume (s : State) (h_s : Kept pq s) : KeptX pq (execTvFlResume s) := by
  unfold execTvFlResume
  repeat' (with_reducible first | assumption | fail_if_no_progress beta_reduce | apply keep_tvFlResume | apply keep_svServe | apply Kept.ite | fail_if_no_progress (apply KeptR.mk <;> try apply Kept.of2) | apply Kept.of2 | apply Kept.snd (by assumption) | apply KeptR.ite | apply KeptX.next)

theorem keep_execTvFlBlank (s : State) (h_s : Kept pq s) : KeptX pq (execTvFlBlank s) := by
  unfold execTvFlBlank
  repeat' (with_reducible first | assumption | fail_if_no_progress beta_reduce | apply keep_tvFlBlank | apply keep_svServe | apply Kept.ite | fail_if_no_progress (apply KeptR.mk <;> try apply Kept.of2) | apply Kept.of2 | apply Kept.snd (by assumption) | apply KeptR.ite | apply KeptX.next)

theorem keep_execTvFlInfo (s : State) (h_s : Kept pq s) : KeptX pq (execTvFlInfo s) := by
  unfold execTvFlInfo
  repeat' (with_reducible first | assumption | fail_if_no_progress beta_reduce | apply keep_tvFlInfo | apply keep_svServe | apply Kept.ite | fail_if_no_progress (apply KeptR.mk <;> try apply Kept.of2) | apply Kept.of2 | apply Kept.snd (by assumption) | apply KeptR.ite | apply KeptX.next)

theorem keep_execTvFlMarkbad (s : State) (h_s : Kept pq s) : KeptX pq (execTvFlMarkbad s) := by
  unfold execTvFlMarkbad
  repeat' (with_reducible first | assumption | fail_if_no_progress beta_reduce | apply keep_tvFlMarkbad | apply keep_svServe | apply Kept.ite | fail_if_no_progress (apply KeptR.mk <;> try apply Kept.of2) | apply Kept.of2 | apply Kept.snd (by assumption) | apply KeptR.ite | apply KeptX.next)

theorem keep_execFlashProgramDone (k : Fin 2) (fail : Option (Fin 128)) (pulses : Fin 33) (s : State) (h_s : Kept pq s) : KeptX pq (execFlashProgramDone k fail pulses s) := by
  unfold execFlashProgramDone
  repeat' (with_reducible first | assumption | fail_if_no_progress beta_reduce | apply keep_flashProgramDone | apply Kept.ite | apply KeptX.next)

end Sys2Proof.Machine
end

