-- ==== Sys2Proof/Laws/KeepRunCtl.lean ====
section
/-! SUPPORT. What the functions of `RunCtl` keep: the queue, and the canonical form of memory and registers. -/

namespace Sys2Proof.Machine

variable {pq : List Instr}

theorem keep_tracePacket (kind el port : Nat) (w2 w3 : Word) (time : Word) (sec : Bool) (s : State) (h_s : Kept pq s) : Kept pq (tracePacket kind el port w2 w3 time sec s) := by
  unfold tracePacket
  repeat'
    with_reducible first
    | assumption | intro _
    | extract_lets -underBinder +onlyGivenNames x
      first
        | have hx : Kept pq x := by
            try dsimp only [x]
            repeat' (with_reducible first | assumption | fail_if_no_progress beta_reduce | apply keep_setRg | apply keep_bump | apply Kept.ite | intro _ | fail_if_no_progress (apply Kept.upd))
        | skip
      try clear_value x
    | fail_if_no_progress beta_reduce | apply keep_setRg | apply keep_bump | apply Kept.ite | intro _ | fail_if_no_progress (apply Kept.upd)

theorem keep_traceElem (kind i port : Nat) (w2 w3 : Word) (s : State) (h_s : Kept pq s) : Kept pq (traceElem kind i port w2 w3 s) := by
  unfold traceElem
  repeat' (with_reducible first | assumption | fail_if_no_progress beta_reduce | apply keep_timePort | apply keep_tracePacket | apply Kept.ite | fail_if_no_progress (apply KeptR.mk <;> try apply Kept.of2) | apply Kept.of2 | apply Kept.snd (by assumption) | apply KeptR.ite | intro _)

theorem keep_wdgFreezeOne (i n : Nat) (s : State) (h_s : Kept pq s) : Kept pq (wdgFreezeOne i n s) := by
  unfold wdgFreezeOne
  repeat' (with_reducible first | assumption | fail_if_no_progress beta_reduce | apply keep_setRgBit | apply keep_setWdg | apply Kept.ite | intro _)

theorem keep_wdgFreeze (i : Nat) (s : State) (h_s : Kept pq s) : Kept pq (wdgFreeze i s) := by
  unfold wdgFreeze
  repeat'
    with_reducible first
    | assumption | intro _
    | extract_lets -underBinder +onlyGivenNames x
      first
        | have hx : Kept pq x := by
            try dsimp only [x]
            repeat' (with_reducible first | assumption | fail_if_no_progress beta_reduce | apply keep_wdgFreezeOne | apply Kept.ite | apply Kept.foldl | intro _ | fail_if_no_progress (apply Kept.upd) | split | beta_reduce)
        | skip
      try clear_value x
    | fail_if_no_progress beta_reduce | apply keep_wdgFreezeOne | apply Kept.ite | apply Kept.foldl

theorem keep_wdgThaw (i : Nat) (s : State) (h_s : Kept pq s) : Kept pq (wdgThaw i s) := by
  unfold wdgThaw
  repeat'
    with_reducible first
    | assumption | intro _
    | extract_lets -underBinder +onlyGivenNames x
      first
        | have hx : Kept pq x := by
            try dsimp only [x]
            repeat' (with_reducible first | assumption | fail_if_no_progress beta_reduce | apply keep_setRg | apply keep_setRgBit | apply keep_setWdg | apply Kept.ite | apply Kept.foldl | intro _ | fail_if_no_progress (apply Kept.upd) | split | beta_reduce)
        | skip
      try clear_value x
    | fail_if_no_progress beta_reduce | apply keep_setRg | apply keep_setRgBit | apply keep_setWdg | apply Kept.ite | apply Kept.foldl

theorem keep_wantHalt (i reason : Nat) (s : State) (h_s : Kept pq s) : Kept pq (wantHalt i reason s) := by
  unfold wantHalt
  repeat' (with_reducible first | assumption | fail_if_no_progress beta_reduce | apply Kept.ite | intro _ | fail_if_no_progress (apply Kept.upd))

theorem keep_haltNow (i reason : Nat) (s : State) (h_s : Kept pq s) : Kept pq (haltNow i reason s) := by
  unfold haltNow
  repeat'
    with_reducible first
    | assumption | intro _
    | extract_lets -underBinder +onlyGivenNames x
      first
        | have hx : Kept pq x := by
            try dsimp only [x]
            repeat' (with_reducible first | assumption | fail_if_no_progress beta_reduce | apply keep_setRg | apply keep_setEl | apply keep_traceElem | apply keep_wdgFreeze | apply Kept.ite | intro _ | fail_if_no_progress (apply Kept.upd))
        | skip
      try clear_value x
    | fail_if_no_progress beta_reduce | apply keep_setRg | apply keep_setEl | apply keep_traceElem | apply keep_wdgFreeze | apply Kept.ite

theorem keep_crossHalt (i : Nat) (s : State) (h_s : Kept pq s) : Kept pq (crossHalt i s) := by
  unfold crossHalt
  repeat'
    with_reducible first
    | assumption | intro _
    | extract_lets -underBinder +onlyGivenNames x
      first
        | have hx : Kept pq x := by
            try dsimp only [x]
            repeat' (with_reducible first | assumption | fail_if_no_progress beta_reduce | apply keep_setRgBit | apply keep_wantHalt | apply Kept.ite | apply Kept.foldl | intro _ | fail_if_no_progress (apply Kept.upd) | split | beta_reduce)
        | skip
      try clear_value x
    | fail_if_no_progress beta_reduce | apply keep_setRgBit | apply keep_wantHalt | apply Kept.ite | apply Kept.foldl

theorem keep_haltElem (i reason : Nat) (s : State) (h_s : Kept pq s) : Kept pq (haltElem i reason s) := by
  unfold haltElem
  repeat' (with_reducible first | assumption | fail_if_no_progress beta_reduce | apply keep_haltNow | apply keep_crossHalt | apply Kept.ite | intro _)

theorem keep_takeHalts  : ∀ (x0 : Nat) (x1 : State), Kept pq x1 → Kept pq (takeHalts  x0 x1)
  | 0, s, h_s => by
    unfold takeHalts
    repeat' (with_reducible first | assumption)
  | n + 1, s, h_s => by
    unfold takeHalts
    repeat' (with_reducible first | assumption | fail_if_no_progress beta_reduce | apply keep_haltElem | apply keep_takeHalts | apply Kept.ite | intro _ | fail_if_no_progress (apply Kept.upd) | split)

theorem keep_haltRequest (i reason : Nat) (s : State) (h_s : Kept pq s) : Kept pq (haltRequest i reason s) := by
  unfold haltRequest
  repeat' (with_reducible first | assumption | fail_if_no_progress beta_reduce | apply keep_setRgBit | apply keep_wantHalt | apply keep_takeHalts | apply Kept.ite | intro _)

theorem keep_resumeElem (i : Nat) (s : State) (h_s : Kept pq s) : Kept pq (resumeElem i s) := by
  unfold resumeElem
  repeat'
    with_reducible first
    | assumption | intro _
    | extract_lets -underBinder +onlyGivenNames x
      first
        | have hx : Kept pq x := by
            try dsimp only [x]
            repeat' (with_reducible first | assumption | fail_if_no_progress beta_reduce | apply keep_setRg | apply keep_setEl | apply keep_wdgThaw | apply Kept.ite | intro _ | fail_if_no_progress (apply Kept.upd) | split | beta_reduce)
        | skip
      try clear_value x
    | fail_if_no_progress beta_reduce | apply keep_setRg | apply keep_setEl | apply keep_wdgThaw | apply Kept.ite

theorem keep_haltAtStart (i : Nat) (s : State) (h_s : Kept pq s) : Kept pq (haltAtStart i s) := by
  unfold haltAtStart
  repeat' (with_reducible first | assumption | fail_if_no_progress beta_reduce | apply keep_setRgBit | apply keep_haltElem | apply Kept.ite | intro _)

end Sys2Proof.Machine
end

