-- ==== Sys2Proof/Laws/KeepAxis.lean ====
section
/-! SUPPORT. What the functions of `Axis` keep: the queue, and the canonical form of memory and registers. -/

namespace Sys2Proof.Machine

variable {pq : List Instr}

theorem keep_axst (a i : Nat) (s : State) (h_s : Kept pq s) : Kept pq (axst a i s) := by
  unfold axst
  repeat' (with_reducible first | assumption | fail_if_no_progress beta_reduce | apply keep_setRgBit | apply Kept.ite | intro _)

theorem keep_sadlNotice (i : Nat) (s : State) (h_s : Kept pq s) : Kept pq (sadlNotice i s) := by
  unfold sadlNotice
  repeat' (with_reducible first | assumption | fail_if_no_progress beta_reduce | apply keep_setRgBit | apply keep_raiseEvent)

theorem keep_journal (act ctx res agent src dst : Nat) (s : State) (h_s : Kept pq s) : Kept pq (journal act ctx res agent src dst s) := by
  unfold journal
  repeat'
    with_reducible first
    | assumption | intro _
    | extract_lets -underBinder +onlyGivenNames x
      first
        | have hx : Kept pq x := by
            try dsimp only [x]
            repeat' (with_reducible first | assumption | fail_if_no_progress beta_reduce | apply keep_setRg | apply keep_bump | apply keep_raiseEvent | apply keep_agentWrite | apply keep_sadlNotice | apply Kept.ite | fail_if_no_progress (apply KeptR.mk <;> try apply Kept.of2) | apply Kept.of2 | apply Kept.snd (by assumption) | apply KeptR.ite | intro _ | fail_if_no_progress (apply Kept.upd) | split | beta_reduce)
        | skip
      try clear_value x
    | fail_if_no_progress beta_reduce | apply keep_setRg | apply keep_bump | apply keep_raiseEvent | apply keep_agentWrite | apply keep_sadlNotice | apply Kept.ite | fail_if_no_progress (apply KeptR.mk <;> try apply Kept.of2) | apply Kept.of2

theorem keep_bankWrite (mid : Option (Fin 32)) (n off : Nat) (bs : List Byte) (s : State) (h_s : Kept pq s) : Kept pq (bankWrite mid n off bs s) := by
  unfold bankWrite
  repeat' (with_reducible first | assumption | fail_if_no_progress beta_reduce | apply keep_writeBanks | apply keep_agentWrite | apply Kept.ite | fail_if_no_progress (apply KeptR.mk <;> try apply Kept.of2) | apply Kept.of2 | apply Kept.snd (by assumption) | apply KeptR.ite | apply Kept.foldl | apply KeptR.foldl | intro _ | fail_if_no_progress (apply Kept.upd) | split)

theorem keep_sampleOpen (a : Nat) (time deadline : DWord) (s : State) (h_s : Kept pq s) : Kept pq (sampleOpen a time deadline s) := by
  unfold sampleOpen
  repeat' (with_reducible first | assumption | fail_if_no_progress beta_reduce | apply keep_setAx)

theorem keep_compareBegin (a : Nat) (deadline : DWord) (s : State) (h_s : Kept pq s) : Kept pq (compareBegin a deadline s) := by
  unfold compareBegin
  repeat'
    with_reducible first
    | assumption | intro _
    | extract_lets -underBinder +onlyGivenNames x
      first
        | have hx : Kept pq x := by
            try dsimp only [x]
            repeat' (with_reducible first | assumption | fail_if_no_progress beta_reduce | apply keep_setAx | apply Kept.ite | intro _ | fail_if_no_progress (apply Kept.upd) | split | beta_reduce)
        | skip
      try clear_value x
    | fail_if_no_progress beta_reduce | apply keep_setAx

theorem keep_sampleTaken (a : Nat) (time deadline : DWord) (s : State) (h_s : Kept pq s) : Kept pq (sampleTaken a time deadline s) := by
  unfold sampleTaken
  repeat' (with_reducible first | assumption | fail_if_no_progress beta_reduce | apply keep_sampleOpen | apply keep_compareBegin)

theorem keep_recordMiss (a : Nat) (s : State) (h_s : Kept pq s) : Kept pq (recordMiss a s) := by
  unfold recordMiss
  repeat' (with_reducible first | assumption | fail_if_no_progress beta_reduce | apply keep_bump | apply keep_raiseEvent | apply keep_axst)

theorem keep_histogram (a : Nat) (latency : Nat) (s : State) (h_s : Kept pq s) : Kept pq (histogram a latency s) := by
  unfold histogram
  repeat'
    with_reducible first
    | assumption | intro _
    | extract_lets -underBinder +onlyGivenNames x
      first
        | have hx : Kept pq x := by
            try dsimp only [x]
            repeat' (with_reducible first | assumption | fail_if_no_progress beta_reduce | apply keep_bump | apply Kept.ite | intro _ | fail_if_no_progress (apply Kept.upd) | split | beta_reduce)
        | skip
      try clear_value x
    | fail_if_no_progress beta_reduce | apply keep_bump

theorem keep_answerSamples (a : Nat) (s : State) (h_s : Kept pq s) : Kept pq (answerSamples a s) := by
  unfold answerSamples
  repeat'
    with_reducible first
    | assumption | intro _
    | extract_lets -underBinder +onlyGivenNames x
      first
        | have hx : Kept pq x := by
            try dsimp only [x]
            repeat' (with_reducible first | assumption | fail_if_no_progress beta_reduce | apply keep_setAx | apply keep_bump | apply keep_recordMiss | apply keep_histogram | apply Kept.ite | apply Kept.foldl | intro _)
        | skip
      try clear_value x
    | fail_if_no_progress beta_reduce | apply keep_setAx | apply keep_bump | apply keep_recordMiss | apply keep_histogram | apply Kept.ite | apply Kept.foldl

theorem keep_deadlinePassed (a : Nat) (s : State) (h_s : Kept pq s) : Kept pq (deadlinePassed a s) := by
  unfold deadlinePassed
  repeat'
    with_reducible first
    | assumption | intro _
    | extract_lets -underBinder +onlyGivenNames x
      first
        | have hx : Kept pq x := by
            try dsimp only [x]
            repeat' (with_reducible first | assumption | fail_if_no_progress beta_reduce | apply keep_setAx)
        | skip
      try clear_value x
    | fail_if_no_progress beta_reduce | apply keep_setAx | apply keep_recordMiss | apply Kept.ite | apply Kept.foldl

theorem keep_axisDrop (a : Nat) (s : State) (h_s : Kept pq s) : Kept pq (axisDrop a s) := by
  unfold axisDrop
  repeat' (with_reducible first | assumption | fail_if_no_progress beta_reduce | apply keep_bump | apply Kept.ite | intro _)

end Sys2Proof.Machine
end

