-- ==== Sys2Proof/Laws/KeepTrips.lean ====
section
/-! SUPPORT. What the functions of `Trips` keep: the queue, and the canonical form of memory and registers. -/

namespace Sys2Proof.Machine

variable {pq : List Instr}

theorem keep_openBlank (b : Nat) (s : State) (h_s : Kept pq s) : Kept pq (openBlank b s) := by
  unfold openBlank
  repeat'
    with_reducible first
    | assumption | intro _
    | extract_lets -underBinder +onlyGivenNames x
      first
        | have hx : Kept pq x := by
            try dsimp only [x]
            repeat' (with_reducible first | assumption | fail_if_no_progress beta_reduce | apply Kept.ite | intro _ | fail_if_no_progress (apply Kept.upd) | split | beta_reduce)
        | skip
      try clear_value x
    | fail_if_no_progress beta_reduce | apply Kept.ite | intro _ | fail_if_no_progress (apply Kept.upd)

theorem keep_setRaw (i : Nat) (hard out : Bool) (s : State) (h_s : Kept pq s) : Kept pq (setRaw i hard out s) := by
  unfold setRaw
  repeat' (with_reducible first | assumption | fail_if_no_progress beta_reduce | apply Kept.ite | intro _ | fail_if_no_progress (apply Kept.upd))

theorem keep_thresholdWritten (i : Nat) (old s : State) (h_old : Kept pq old) (h_s : Kept pq s) : Kept pq (thresholdWritten i old s) := by
  unfold thresholdWritten
  repeat' (with_reducible first | assumption | fail_if_no_progress beta_reduce | apply Kept.ite | intro _ | fail_if_no_progress (apply Kept.upd))

theorem keep_thresholdJudge (i : Nat) (s : State) (h_s : Kept pq s) : Kept pq (thresholdJudge i s) := by
  unfold thresholdJudge
  repeat'
    with_reducible first
    | assumption | intro _
    | extract_lets -underBinder +onlyGivenNames x
      first
        | have hx : Kept pq x := by
            try dsimp only [x]
            repeat' (with_reducible first | assumption | fail_if_no_progress beta_reduce | apply keep_setRaw | apply Kept.ite | intro _ | fail_if_no_progress (apply Kept.upd))
        | skip
      try clear_value x
    | fail_if_no_progress beta_reduce | apply keep_setRaw | apply Kept.ite

theorem keep_evalInput (i : Nat) (s : State) (h_s : Kept pq s) : Kept pq (evalInput i s) := by
  unfold evalInput
  repeat'
    with_reducible first
    | assumption | intro _
    | extract_lets -underBinder +onlyGivenNames x
      first
        | have hx : Kept pq x := by
            try dsimp only [x]
            repeat' (with_reducible first | assumption | fail_if_no_progress beta_reduce | apply keep_setRg | apply keep_raiseEvent | apply Kept.ite | intro _)
        | skip
      try clear_value x
    | fail_if_no_progress beta_reduce | apply keep_setRg | apply keep_raiseEvent | apply Kept.ite

end Sys2Proof.Machine
end

