-- ==== Sys2Proof/Laws/KeepPwm.lean ====
section
/-! SUPPORT. What the functions of `Pwm` keep: the queue, and the canonical form of memory and registers. -/

namespace Sys2Proof.Machine

variable {pq : List Instr}

theorem keep_pwmFlag (b i : Nat) (s : State) (h_s : Kept pq s) : Kept pq (pwmFlag b i s) := by
  unfold pwmFlag
  repeat' (with_reducible first | assumption | fail_if_no_progress beta_reduce | apply keep_setRgBit)

theorem keep_setLeg (b k : Nat) (l : Leg) (s : State) (h_s : Kept pq s) : Kept pq (setLeg b k l s) := by
  unfold setLeg
  repeat' (with_reducible first | assumption | fail_if_no_progress beta_reduce | apply keep_setBr)

theorem keep_eachLeg (f : Nat → State → State) (s : State) (h_f : ∀ x0 x1, Kept pq x1 → Kept pq (f x0 x1)) (h_s : Kept pq s) : Kept pq (eachLeg f s) := by
  unfold eachLeg
  repeat' (with_reducible first | assumption | fail_if_no_progress beta_reduce | apply h_f)

theorem keep_setCarry (b k : Nat) (c : Int) (s : State) (h_s : Kept pq s) : Kept pq (setCarry b k c s) := by
  unfold setCarry
  repeat'
    with_reducible first
    | assumption | intro _
    | extract_lets -underBinder +onlyGivenNames x
      first
        | have hx : Kept pq x := by
            try dsimp only [x]
            repeat' (with_reducible first | assumption | fail_if_no_progress beta_reduce | apply keep_setRg | apply Kept.ite | intro _ | fail_if_no_progress (apply Kept.upd) | split | beta_reduce)
        | skip
      try clear_value x
    | fail_if_no_progress beta_reduce | apply keep_setRg

theorem keep_clearCarries (b : Nat) (s : State) (h_s : Kept pq s) : Kept pq (clearCarries b s) := by
  unfold clearCarries
  repeat' (with_reducible first | assumption | fail_if_no_progress beta_reduce | apply keep_eachLeg | apply keep_setCarry | apply Kept.ite | intro _)

theorem keep_showSources (b : Nat) (s : State) (h_s : Kept pq s) : Kept pq (showSources b s) := by
  unfold showSources
  repeat' (with_reducible first | assumption | fail_if_no_progress beta_reduce | apply keep_setBr)

theorem keep_enterSafe (b cause : Nat) (s : State) (h_s : Kept pq s) : Kept pq (enterSafe b cause s) := by
  unfold enterSafe
  repeat'
    with_reducible first
    | assumption | intro _
    | extract_lets -underBinder +onlyGivenNames x
      first
        | have hx : Kept pq x := by
            try dsimp only [x]
            repeat' (with_reducible first | assumption | fail_if_no_progress beta_reduce | apply keep_setRgBit | apply keep_setRgFld | apply keep_setBr)
        | skip
      try clear_value x
    | fail_if_no_progress beta_reduce | apply keep_setRgBit | apply keep_setRgFld | apply keep_setBr | apply keep_raiseEvent | apply keep_clearCarries | apply Kept.ite

theorem keep_readBack (b o : Nat) (on : Bool) (s : State) (h_s : Kept pq s) : Kept pq (readBack b o on s) := by
  unfold readBack
  repeat'
    with_reducible first
    | assumption | intro _
    | extract_lets -underBinder +onlyGivenNames x
      first
        | have hx : Kept pq x := by
            try dsimp only [x]
            repeat' (with_reducible first | assumption | fail_if_no_progress beta_reduce | apply keep_setRgBit | apply keep_setBr | apply keep_bump | apply keep_pwmFlag)
        | skip
      try clear_value x
    | fail_if_no_progress beta_reduce | apply keep_setRgBit | apply keep_setBr | apply keep_bump | apply keep_pwmFlag | apply keep_enterSafe | apply Kept.ite | intro _ | fail_if_no_progress (apply Kept.upd)

theorem keep_outputEdge (b o t : Nat) (s : State) (h_s : Kept pq s) : Kept pq (outputEdge b o t s) := by
  unfold outputEdge
  repeat'
    with_reducible first
    | assumption | intro _
    | extract_lets -underBinder +onlyGivenNames x
      first
        | have hx : Kept pq x := by
            try dsimp only [x]
            repeat' (with_reducible first | assumption | fail_if_no_progress beta_reduce | apply keep_setBr | apply keep_openBlank | apply Kept.ite | intro _ | fail_if_no_progress (apply Kept.upd) | split | beta_reduce)
        | skip
      try clear_value x
    | fail_if_no_progress beta_reduce | apply keep_setBr | apply keep_openBlank

theorem keep_driveLeg (b k t : Nat) (s : State) (h_s : Kept pq s) : Kept pq (driveLeg b k t s) := by
  unfold driveLeg
  repeat'
    with_reducible first
    | assumption | intro _
    | extract_lets -underBinder +onlyGivenNames x
      first
        | have hx : Kept pq x := by
            try dsimp only [x]
            repeat' (with_reducible first | assumption | fail_if_no_progress beta_reduce | apply keep_setLeg | apply keep_readBack | apply keep_outputEdge | apply Kept.ite | intro _ | fail_if_no_progress (apply Kept.upd) | split | beta_reduce)
        | skip
      try clear_value x
    | fail_if_no_progress beta_reduce | apply keep_setLeg | apply keep_readBack | apply keep_outputEdge | apply Kept.ite

theorem keep_driveBridge (b : Nat) (s : State) (h_s : Kept pq s) : Kept pq (driveBridge b s) := by
  unfold driveBridge
  repeat' (with_reducible first | assumption | fail_if_no_progress beta_reduce | apply keep_eachLeg | apply keep_driveLeg | apply Kept.ite | intro _)

theorem keep_deadtimeExpiry (b o : Nat) (s : State) (h_s : Kept pq s) : Kept pq (deadtimeExpiry b o s) := by
  unfold deadtimeExpiry
  repeat'
    with_reducible first
    | assumption | intro _
    | extract_lets -underBinder +onlyGivenNames x
      first
        | have hx : Kept pq x := by
            try dsimp only [x]
            repeat' (with_reducible first | assumption | fail_if_no_progress beta_reduce | apply keep_setLeg | apply keep_readBack)
        | skip
      try clear_value x
    | fail_if_no_progress beta_reduce | apply keep_setLeg | apply keep_readBack | apply keep_outputEdge | apply Kept.ite

theorem keep_applyTrips (b : Nat) (s : State) (h_s : Kept pq s) : Kept pq (applyTrips b s) := by
  unfold applyTrips
  repeat'
    with_reducible first
    | assumption | intro _
    | extract_lets -underBinder +onlyGivenNames x
      first
        | have hx : Kept pq x := by
            try dsimp only [x]
            repeat' (with_reducible first | assumption | fail_if_no_progress beta_reduce | apply keep_setBr | apply keep_pwmFlag | apply keep_enterSafe | apply Kept.ite | intro _ | fail_if_no_progress (apply Kept.upd) | split | beta_reduce)
        | skip
      try clear_value x
    | fail_if_no_progress beta_reduce | apply keep_setBr | apply keep_pwmFlag | apply keep_enterSafe | apply Kept.ite

theorem keep_evalBridge (b : Nat) (s : State) (h_s : Kept pq s) : Kept pq (evalBridge b s) := by
  unfold evalBridge
  repeat' (with_reducible first | assumption | fail_if_no_progress beta_reduce | apply keep_evalInput | apply keep_applyTrips)

theorem keep_haltCheck (b : Nat) (s : State) (h_s : Kept pq s) : Kept pq (haltCheck b s) := by
  unfold haltCheck
  repeat'
    with_reducible first
    | assumption | intro _
    | extract_lets -underBinder +onlyGivenNames x
      first
        | have hx : Kept pq x := by
            try dsimp only [x]
            repeat' (with_reducible first | assumption | fail_if_no_progress beta_reduce | apply keep_setBr | apply keep_enterSafe | apply Kept.ite | intro _ | fail_if_no_progress (apply Kept.upd) | split | beta_reduce)
        | skip
      try clear_value x
    | fail_if_no_progress beta_reduce | apply keep_setBr | apply keep_enterSafe | apply Kept.ite | intro _ | fail_if_no_progress (apply Kept.upd) | split

theorem keep_shortPulse (b : Nat) (s : State) (h_s : Kept pq s) : Kept pq (shortPulse b s) := by
  unfold shortPulse
  repeat' (with_reducible first | assumption | fail_if_no_progress beta_reduce | apply keep_bump | apply keep_pwmFlag)

theorem keep_lateEdge (b : Nat) (s : State) (h_s : Kept pq s) : Kept pq (lateEdge b s) := by
  unfold lateEdge
  repeat' (with_reducible first | assumption | fail_if_no_progress beta_reduce | apply keep_bump | apply keep_raiseEvent | apply keep_axst | apply keep_pwmFlag)

theorem keep_fireOn (b k : Nat) (s : State) (h_s : Kept pq s) : Kept pq (fireOn b k s) := by
  unfold fireOn
  repeat'
    with_reducible first
    | assumption | intro _
    | extract_lets -underBinder +onlyGivenNames x
      first
        | have hx : Kept pq x := by
            try dsimp only [x]
            repeat' (with_reducible first | assumption | fail_if_no_progress beta_reduce | apply keep_setLeg | apply keep_setCarry | apply keep_driveLeg | apply keep_shortPulse | apply keep_lateEdge | apply hF_noPulse | apply Kept.ite | intro _)
        | have hF_noPulse : ∀ y0, Kept pq y0 → Kept pq (x y0) := by
            intro y0 hy0
            try dsimp only [x]
            repeat' (with_reducible first | assumption | fail_if_no_progress beta_reduce | apply keep_setLeg | apply keep_setCarry | apply keep_driveLeg)
        | skip
      try clear_value x
    | fail_if_no_progress beta_reduce | apply keep_setLeg | apply keep_setCarry | apply keep_driveLeg | apply keep_shortPulse | apply keep_lateEdge | apply hF_noPulse | apply Kept.ite

theorem keep_offFires (b k t : Nat) (fired : Leg) (s : State) (h_s : Kept pq s) : Kept pq (offFires b k t fired s) := by
  unfold offFires
  repeat'
    with_reducible first
    | assumption | intro _
    | extract_lets -underBinder +onlyGivenNames x
      first
        | have hx : Kept pq x := by
            try dsimp only [x]
            repeat' (with_reducible first | assumption | fail_if_no_progress beta_reduce | apply keep_setLeg | apply keep_setCarry | apply keep_driveLeg | apply keep_shortPulse)
        | skip
      try clear_value x
    | fail_if_no_progress beta_reduce | apply keep_setLeg | apply keep_setCarry | apply keep_driveLeg | apply keep_shortPulse | apply Kept.ite | intro _ | fail_if_no_progress (apply Kept.upd) | split

theorem keep_fireOff (b k : Nat) (s : State) (h_s : Kept pq s) : Kept pq (fireOff b k s) := by
  unfold fireOff
  repeat'
    with_reducible first
    | assumption | intro _
    | extract_lets -underBinder +onlyGivenNames x
      first
        | have hx : Kept pq x := by
            try dsimp only [x]
            repeat' (with_reducible first | assumption | fail_if_no_progress beta_reduce | apply keep_setLeg | apply keep_lateEdge | apply keep_offFires | apply Kept.ite | intro _)
        | skip
      try clear_value x
    | fail_if_no_progress beta_reduce | apply keep_setLeg | apply keep_lateEdge | apply keep_offFires | apply Kept.ite

theorem keep_edgeFire (b k : Nat) (off : Bool) (s : State) (h_s : Kept pq s) : Kept pq (edgeFire b k off s) := by
  unfold edgeFire
  repeat' (with_reducible first | assumption | fail_if_no_progress beta_reduce | apply keep_fireOn | apply keep_fireOff | apply Kept.ite | intro _)

theorem keep_legEdges (b k : Nat) (s : State) (h_s : Kept pq s) : Kept pq (legEdges b k s) := by
  unfold legEdges
  repeat' (with_reducible first | assumption | fail_if_no_progress beta_reduce | apply keep_edgeFire | apply Kept.ite | intro _)

theorem keep_bridgeEdges (b : Nat) (s : State) (h_s : Kept pq s) : Kept pq (bridgeEdges b s) := by
  unfold bridgeEdges
  repeat' (with_reducible first | assumption | fail_if_no_progress beta_reduce | apply keep_eachLeg | apply keep_driveBridge | apply keep_deadtimeExpiry | apply keep_legEdges | apply Kept.ite | apply Kept.foldl | intro _)

theorem keep_evalAfterEdges (b : Nat) (s : State) (h_s : Kept pq s) : Kept pq (evalAfterEdges b s) := by
  unfold evalAfterEdges
  repeat' (with_reducible first | assumption | fail_if_no_progress beta_reduce | apply keep_evalBridge | apply keep_bridgeEdges | apply Kept.ite | intro _)

theorem keep_delayStarve (b : Nat) (s : State) (h_s : Kept pq s) : Kept pq (delayStarve b s) := by
  unfold delayStarve
  repeat' (with_reducible first | assumption | fail_if_no_progress beta_reduce | apply keep_setBr | apply keep_pwmFlag | apply Kept.ite | apply Kept.foldl | intro _)

theorem keep_lateShort (b k : Nat) (s : State) (h_s : Kept pq s) : Kept pq (lateShort b k s) := by
  unfold lateShort
  repeat'
    with_reducible first
    | assumption | intro _
    | extract_lets -underBinder +onlyGivenNames x
      first
        | have hx : Kept pq x := by
            try dsimp only [x]
            repeat' (with_reducible first | assumption | fail_if_no_progress beta_reduce | apply keep_setLeg | apply keep_setCarry | apply keep_driveLeg | apply keep_shortPulse)
        | have hF_cancel : ∀ y0, Kept pq y0 → Kept pq (x y0) := by
            intro y0 hy0
            try dsimp only [x]
            repeat' (with_reducible first | assumption | fail_if_no_progress beta_reduce | apply keep_setLeg | apply keep_setCarry | apply keep_driveLeg | apply keep_shortPulse | apply hF_cancel)
        | skip
      try clear_value x
    | fail_if_no_progress beta_reduce | apply keep_setLeg | apply keep_setCarry | apply keep_driveLeg | apply keep_shortPulse | apply hF_cancel | apply Kept.ite | intro _ | fail_if_no_progress (apply Kept.upd) | split

theorem keep_takeEdge (b k : Nat) (mid : Bool) (it : Option (Word × Word)) (s : State) (h_s : Kept pq s) : Kept pq (takeEdge b k mid it s) := by
  unfold takeEdge
  repeat'
    with_reducible first
    | assumption | intro _
    | extract_lets -underBinder +onlyGivenNames x
      first
        | have hx : Kept pq x := by
            try dsimp only [x]
            repeat' (with_reducible first | assumption | fail_if_no_progress beta_reduce | apply keep_setBr)
        | skip
      try clear_value x
    | fail_if_no_progress beta_reduce | apply keep_setBr | apply keep_lateShort | apply Kept.ite | intro _ | fail_if_no_progress (apply Kept.upd) | split

theorem keep_transfer (b : Nat) (mid : Bool) (st : PwmSet) (s : State) (h_s : Kept pq s) : Kept pq (transfer b mid st s) := by
  unfold transfer
  repeat'
    with_reducible first
    | assumption | intro _
    | extract_lets -underBinder +onlyGivenNames x
      first
        | have hx : Kept pq x := by
            try dsimp only [x]
            repeat' (with_reducible first | assumption | fail_if_no_progress beta_reduce | apply keep_setBr | apply keep_pwmFlag | apply keep_takeEdge)
        | skip
      try clear_value x
    | fail_if_no_progress beta_reduce | apply keep_setBr | apply keep_pwmFlag | apply keep_takeEdge | apply Kept.ite

theorem keep_targetNext (b : Nat) (st : PwmSet) (s : State) (h_s : Kept pq s) : Kept pq (targetNext b st s) := by
  unfold targetNext
  repeat'
    with_reducible first
    | assumption | intro _
    | extract_lets -underBinder +onlyGivenNames x
      first
        | have hx : Kept pq x := by
            try dsimp only [x]
            repeat' (with_reducible first | assumption | fail_if_no_progress beta_reduce | apply keep_setBr | apply keep_pwmFlag | apply Kept.ite | intro _)
        | skip
      try clear_value x
    | fail_if_no_progress beta_reduce | apply keep_setBr

theorem keep_setArrives (b : Nat) (st : PwmSet) (s : State) (h_s : Kept pq s) : Kept pq (setArrives b st s) := by
  unfold setArrives
  repeat'
    with_reducible first
    | assumption | intro _
    | extract_lets -underBinder +onlyGivenNames x
      first
        | have hx : Kept pq x := by
            try dsimp only [x]
            repeat' (with_reducible first | assumption | fail_if_no_progress beta_reduce | apply keep_setBr | apply keep_pwmFlag | apply keep_targetNext | apply Kept.ite | intro _)
        | skip
      try clear_value x
    | fail_if_no_progress beta_reduce | apply keep_setBr | apply keep_pwmFlag | apply keep_targetNext | apply Kept.ite

theorem keep_bundleAtBridge (b : Nat) (bytes : List Byte) (old : Bool) (s0 : State) (h_s0 : Kept pq s0) : Kept pq (bundleAtBridge b bytes old s0) := by
  unfold bundleAtBridge
  repeat'
    with_reducible first
    | assumption | intro _
    | extract_lets -underBinder +onlyGivenNames x
      first
        | have hx : Kept pq x := by
            try dsimp only [x]
            repeat' (with_reducible first | assumption | fail_if_no_progress beta_reduce | apply keep_setBr | apply keep_pwmFlag | apply keep_setArrives | apply Kept.ite | intro _)
        | skip
      try clear_value x
    | fail_if_no_progress beta_reduce | apply keep_setBr | apply keep_pwmFlag | apply keep_setArrives | apply Kept.ite

theorem keep_stageItem (b o : Nat) (v : Word) (sec : Bool) (s : State) (h_s : Kept pq s) : KeptR pq (stageItem b o v sec s) := by
  unfold stageItem
  repeat'
    with_reducible first
    | assumption | intro _
    | extract_lets -underBinder +onlyGivenNames x
      first
        | have hx : Kept pq x := by
            try dsimp only [x]
            repeat' (with_reducible first | assumption | fail_if_no_progress beta_reduce | apply keep_setBr | apply keep_plainWrite)
        | skip
      try clear_value x
    | fail_if_no_progress beta_reduce | apply keep_setBr | apply keep_plainWrite | apply Kept.ite | fail_if_no_progress (apply KeptR.mk <;> try apply Kept.of2)

theorem keep_commitStaged (b : Nat) (s : State) (h_s : Kept pq s) : Kept pq (commitStaged b s) := by
  unfold commitStaged
  repeat'
    with_reducible first
    | assumption | intro _
    | extract_lets -underBinder +onlyGivenNames x
      first
        | have hx : Kept pq x := by
            try dsimp only [x]
            repeat' (with_reducible first | assumption | fail_if_no_progress beta_reduce | apply keep_setBr | apply keep_setArrives | apply Kept.ite | intro _ | fail_if_no_progress (apply Kept.upd) | split | beta_reduce)
        | skip
      try clear_value x
    | fail_if_no_progress beta_reduce | apply keep_setBr | apply keep_setArrives | apply Kept.ite

theorem keep_agesFlights (x : Nat) (s : State) (h_s : Kept pq s) : Kept pq (agesFlights x s) := by
  unfold agesFlights
  repeat' (with_reducible first | assumption | fail_if_no_progress beta_reduce | apply Kept.ite | intro _ | fail_if_no_progress (apply Kept.upd))

theorem keep_clrSafe (b : Nat) (sec : Bool) (s : State) (h_s : Kept pq s) : Kept pq (clrSafe b sec s) := by
  unfold clrSafe
  repeat'
    with_reducible first
    | assumption | intro _
    | extract_lets -underBinder +onlyGivenNames x
      first
        | have hx : Kept pq x := by
            try dsimp only [x]
            repeat' (with_reducible first | assumption | fail_if_no_progress beta_reduce | apply keep_setRgFld | apply keep_setBr | apply keep_agesFlights)
        | skip
      try clear_value x
    | fail_if_no_progress beta_reduce | apply keep_setRgFld | apply keep_setBr | apply keep_agesFlights | apply Kept.ite

theorem keep_periodNow (b : Nat) (s : State) (h_s : Kept pq s) : Kept pq (periodNow b s) := by
  unfold periodNow
  repeat' (with_reducible first | assumption | fail_if_no_progress beta_reduce | apply keep_setBr | apply Kept.ite | intro _)

theorem keep_pwmCtrlWrite (b : Nat) (v : Word) (sec : Bool) (s : State) (h_s : Kept pq s) : KeptR pq (pwmCtrlWrite b v sec s) := by
  unfold pwmCtrlWrite
  repeat'
    with_reducible first
    | assumption | intro _
    | extract_lets -underBinder +onlyGivenNames x
      first
        | have hx : Kept pq x := by
            try dsimp only [x]
            repeat' (with_reducible first | assumption | fail_if_no_progress beta_reduce | apply keep_enterSafe | apply keep_commitStaged | apply keep_clrSafe | apply keep_periodNow | apply Kept.ite | fail_if_no_progress (apply KeptR.mk <;> try apply Kept.of2) | apply Kept.of2 | apply Kept.snd (by assumption) | apply KeptR.ite | intro _)
      try clear_value x
    | fail_if_no_progress beta_reduce | apply keep_enterSafe | apply keep_commitStaged | apply keep_clrSafe | apply keep_periodNow | apply Kept.ite | fail_if_no_progress (apply KeptR.mk <;> try apply Kept.of2)

theorem keep_bridgeStart (b : Nat) (s : State) (h_s : Kept pq s) : Kept pq (bridgeStart b s) := by
  unfold bridgeStart
  repeat'
    with_reducible first
    | assumption | intro _
    | extract_lets -underBinder +onlyGivenNames x
      first
        | have hx : Kept pq x := by
            try dsimp only [x]
            repeat' (with_reducible first | assumption | fail_if_no_progress beta_reduce | apply keep_setRg)
        | skip
      try clear_value x
    | fail_if_no_progress beta_reduce | apply keep_setRg | apply keep_setBr

theorem keep_bridgeStop (b : Nat) (s : State) (h_s : Kept pq s) : Kept pq (bridgeStop b s) := by
  unfold bridgeStop
  repeat'
    with_reducible first
    | assumption | intro _
    | extract_lets -underBinder +onlyGivenNames x
      first
        | have hx : Kept pq x := by
            try dsimp only [x]
            repeat' (with_reducible first | assumption | fail_if_no_progress beta_reduce | apply keep_setRgBit | apply keep_setBr | apply keep_clearCarries)
        | skip
      try clear_value x
    | fail_if_no_progress beta_reduce | apply keep_setRgBit | apply keep_setBr | apply keep_clearCarries | apply keep_driveBridge

theorem keep_pwmCfgWrite (b : Nat) (v : Word) (sec : Bool) (s : State) (h_s : Kept pq s) : KeptR pq (pwmCfgWrite b v sec s) := by
  unfold pwmCfgWrite
  repeat'
    with_reducible first
    | assumption | intro _
    | extract_lets -underBinder +onlyGivenNames x
      first
        | have hx : Kept pq x := by
            try dsimp only [x]
            repeat' (with_reducible first | assumption | fail_if_no_progress beta_reduce | apply keep_setRgBit | apply keep_plainWrite)
        | skip
      try clear_value x
    | fail_if_no_progress beta_reduce | apply keep_setRgBit | apply keep_plainWrite | apply keep_pwmFlag | apply keep_bridgeStart | apply keep_bridgeStop | apply Kept.ite | fail_if_no_progress (apply KeptR.mk <;> try apply Kept.of2) | apply Kept.of2 | apply Kept.snd (by assumption) | apply KeptR.ite

theorem keep_forceWrite (b : Nat) (v : Word) (sec : Bool) (s : State) (h_s : Kept pq s) : KeptR pq (forceWrite b v sec s) := by
  unfold forceWrite
  repeat'
    with_reducible first
    | assumption | intro _
    | extract_lets -underBinder +onlyGivenNames x
      first
        | have hx : Kept pq x := by
            try dsimp only [x]
            repeat' (with_reducible first | assumption | fail_if_no_progress beta_reduce | apply keep_plainWrite)
      try clear_value x
    | fail_if_no_progress beta_reduce | apply keep_plainWrite | apply keep_eachLeg | apply keep_setCarry | apply Kept.ite | fail_if_no_progress (apply KeptR.mk <;> try apply Kept.of2)

theorem keep_setPhase (b p : Nat) (s : State) (h_s : Kept pq s) : Kept pq (setPhase b p s) := by
  unfold setPhase
  repeat'
    with_reducible first
    | assumption | intro _
    | extract_lets -underBinder +onlyGivenNames x
      first
        | have hx : Kept pq x := by
            try dsimp only [x]
            repeat' (with_reducible first | assumption | fail_if_no_progress beta_reduce | apply keep_setRg)
        | skip
      try clear_value x
    | fail_if_no_progress beta_reduce | apply keep_setRg | apply keep_setBr | apply Kept.ite

theorem keep_legBoundary (b k : Nat) (s : State) (h_s : Kept pq s) : Kept pq (legBoundary b k s) := by
  unfold legBoundary
  repeat'
    with_reducible first
    | assumption | intro _
    | extract_lets -underBinder +onlyGivenNames x
      first
        | have hx : Kept pq x := by
            try dsimp only [x]
            repeat' (with_reducible first | assumption | fail_if_no_progress beta_reduce | apply keep_setLeg | apply keep_driveLeg | apply Kept.ite | intro _ | fail_if_no_progress (apply Kept.upd) | split | beta_reduce)
        | skip
      try clear_value x
    | fail_if_no_progress beta_reduce | apply keep_setLeg | apply keep_driveLeg

theorem keep_repeatPeriod (b : Nat) (s : State) (h_s : Kept pq s) : Kept pq (repeatPeriod b s) := by
  unfold repeatPeriod
  repeat'
    with_reducible first
    | assumption | intro _
    | extract_lets -underBinder +onlyGivenNames x
      first
        | have hx : Kept pq x := by
            try dsimp only [x]
            repeat' (with_reducible first | assumption | fail_if_no_progress beta_reduce | apply keep_setBr | apply keep_bump | apply keep_pwmFlag | apply keep_enterSafe | apply Kept.ite | intro _ | fail_if_no_progress (apply Kept.upd) | split)
        | skip
      try clear_value x
    | fail_if_no_progress beta_reduce | apply keep_setBr | apply keep_bump | apply keep_pwmFlag | apply keep_enterSafe | apply Kept.ite

theorem keep_swapDelay (b : Nat) (s : State) (h_s : Kept pq s) : Kept pq (swapDelay b s) := by
  unfold swapDelay
  repeat'
    with_reducible first
    | assumption | intro _
    | extract_lets -underBinder +onlyGivenNames x
      first
        | have hx : Kept pq x := by
            try dsimp only [x]
            repeat' (with_reducible first | assumption | fail_if_no_progress beta_reduce | apply keep_setRg)
        | skip
      try clear_value x
    | fail_if_no_progress beta_reduce | apply keep_setRg | apply keep_setBr | apply Kept.ite | apply Kept.foldl | intro _ | fail_if_no_progress (apply Kept.upd) | split

theorem keep_periodTakes (b : Nat) (s : State) (h_s : Kept pq s) : Kept pq (periodTakes b s) := by
  unfold periodTakes
  repeat' (with_reducible first | assumption | fail_if_no_progress beta_reduce | apply keep_setBr | apply Kept.ite | intro _ | fail_if_no_progress (apply Kept.upd) | split)

theorem keep_bridgeBoundary (b : Nat) (s : State) (h_s : Kept pq s) : Kept pq (bridgeBoundary b s) := by
  unfold bridgeBoundary
  repeat'
    with_reducible first
    | assumption | intro _
    | extract_lets -underBinder +onlyGivenNames x
      first
        | have hx : Kept pq x := by
            try dsimp only [x]
            repeat' (with_reducible first | assumption | fail_if_no_progress beta_reduce | apply keep_setRg | apply keep_setRgBit | apply keep_setBr | apply keep_pwmFlag | apply keep_eachLeg | apply keep_readBack | apply keep_transfer | apply keep_setArrives | apply keep_legBoundary | apply keep_repeatPeriod | apply keep_swapDelay | apply keep_periodTakes | apply Kept.ite | apply Kept.foldl | intro _ | fail_if_no_progress (apply Kept.upd) | split)
        | skip
      try clear_value x
    | fail_if_no_progress beta_reduce | apply keep_setRg | apply keep_setRgBit | apply keep_setBr | apply keep_pwmFlag | apply keep_eachLeg | apply keep_readBack | apply keep_transfer | apply keep_setArrives | apply keep_legBoundary | apply keep_repeatPeriod | apply keep_swapDelay | apply keep_periodTakes | apply Kept.ite | apply Kept.foldl

theorem keep_cutLeg (b k : Nat) (s : State) (h_s : Kept pq s) : Kept pq (cutLeg b k s) := by
  unfold cutLeg
  repeat'
    with_reducible first
    | assumption | intro _
    | extract_lets -underBinder +onlyGivenNames x
      first
        | have hx : Kept pq x := by
            try dsimp only [x]
            repeat' (with_reducible first | assumption | fail_if_no_progress beta_reduce | apply keep_setLeg | apply keep_setCarry | apply keep_driveLeg | apply keep_shortPulse | apply keep_offFires | apply Kept.ite | intro _)
        | skip
      try clear_value x
    | fail_if_no_progress beta_reduce | apply keep_setLeg | apply keep_setCarry | apply keep_driveLeg | apply keep_shortPulse | apply keep_offFires | apply Kept.ite

theorem keep_cutTick (b : Nat) (s : State) (h_s : Kept pq s) : Kept pq (cutTick b s) := by
  unfold cutTick
  repeat'
    with_reducible first
    | assumption | intro _
    | extract_lets -underBinder +onlyGivenNames x
      first
        | have hx : Kept pq x := by
            try dsimp only [x]
            repeat' (with_reducible first | assumption | fail_if_no_progress beta_reduce | apply keep_setBr)
        | skip
      try clear_value x
    | fail_if_no_progress beta_reduce | apply keep_setBr | apply keep_pwmFlag | apply keep_eachLeg | apply keep_cutLeg | apply Kept.ite

theorem keep_carrierTick (b : Nat) (s : State) (h_s : Kept pq s) : Kept pq (carrierTick b s) := by
  unfold carrierTick
  repeat'
    with_reducible first
    | assumption | intro _
    | extract_lets -underBinder +onlyGivenNames x
      first
        | have hx : Kept pq x := by
            try dsimp only [x]
            repeat' (with_reducible first | assumption | fail_if_no_progress beta_reduce | apply keep_setBr)
        | skip
      try clear_value x
    | fail_if_no_progress beta_reduce | apply keep_setBr | apply keep_transfer | apply Kept.ite | intro _ | fail_if_no_progress (apply Kept.upd) | split

theorem keep_carrierRestart (b : Nat) (s : State) (h_s : Kept pq s) : Kept pq (carrierRestart b s) := by
  unfold carrierRestart
  repeat'
    with_reducible first
    | assumption | intro _
    | extract_lets -underBinder +onlyGivenNames x
      first
        | have hx : Kept pq x := by
            try dsimp only [x]
            repeat' (with_reducible first | assumption | fail_if_no_progress beta_reduce | apply keep_setRgBit | apply keep_setBr | apply Kept.ite | intro _ | fail_if_no_progress (apply Kept.upd) | split | beta_reduce)
        | skip
      try clear_value x
    | fail_if_no_progress beta_reduce | apply keep_setRgBit | apply keep_setBr | apply Kept.ite

end Sys2Proof.Machine
end

