-- ==== Sys2Proof/Laws/KeepPhase.lean ====
section
/-! SUPPORT. What the functions of `Phase` keep: the queue, and the canonical form of memory and registers. -/

namespace Sys2Proof.Machine

variable {pq : List Instr}

theorem keep_choosePhase (b : Nat) (needCvs : Bool) (s : State) (h_s : Kept pq s) : KeptR pq (choosePhase b needCvs s) := by
  unfold choosePhase
  repeat'
    with_reducible first
    | assumption | intro _
    | extract_lets -underBinder +onlyGivenNames x
      first
        | have hx : Kept pq x := by
            try dsimp only [x]
            repeat' (with_reducible first | assumption | fail_if_no_progress beta_reduce | apply keep_draw | apply Kept.ite | fail_if_no_progress (apply KeptR.mk <;> try apply Kept.of2) | apply Kept.of2 | apply Kept.snd (by assumption) | apply KeptR.ite | intro _ | fail_if_no_progress (apply Kept.upd) | split | beta_reduce)
        | skip
      try clear_value x
    | fail_if_no_progress beta_reduce | apply keep_draw | apply Kept.ite | fail_if_no_progress (apply KeptR.mk <;> try apply Kept.of2) | apply Kept.of2 | apply Kept.snd (by assumption) | apply KeptR.ite

theorem keep_saddlerPhase (b p agent : Nat) (s : State) (h_s : Kept pq s) : Kept pq (saddlerPhase b p agent s) := by
  unfold saddlerPhase
  repeat' (with_reducible first | assumption | fail_if_no_progress beta_reduce | apply keep_journal | apply keep_setPhase | apply Kept.ite | intro _)

theorem keep_recheckPhase (b : Nat) (s : State) (h_s : Kept pq s) : Kept pq (recheckPhase b s) := by
  unfold recheckPhase
  repeat' (with_reducible first | assumption | fail_if_no_progress beta_reduce | apply keep_choosePhase | apply keep_saddlerPhase | apply Kept.ite | fail_if_no_progress (apply KeptR.mk <;> try apply Kept.of2) | apply Kept.of2 | apply Kept.snd (by assumption) | apply KeptR.ite | intro _ | fail_if_no_progress (apply Kept.upd) | split)

theorem keep_phaseWrite (b : Nat) (v : Word) (s : State) (h_s : Kept pq s) : KeptR pq (phaseWrite b v s) := by
  unfold phaseWrite
  repeat'
    with_reducible first
    | assumption | intro _
    | extract_lets -underBinder +onlyGivenNames x
      first
        | have hx : Kept pq x := by
            try dsimp only [x]
            repeat' (with_reducible first | assumption | fail_if_no_progress beta_reduce | apply keep_sadlNotice | apply keep_journal | apply keep_pwmFlag | apply keep_setPhase | apply Kept.ite | fail_if_no_progress (apply KeptR.mk <;> try apply Kept.of2) | apply Kept.of2 | apply Kept.snd (by assumption) | apply KeptR.ite | intro _ | fail_if_no_progress (apply Kept.upd) | split | beta_reduce)
        | skip
      try clear_value x
    | fail_if_no_progress beta_reduce | apply keep_sadlNotice | apply keep_journal | apply keep_pwmFlag | apply keep_setPhase | apply Kept.ite | fail_if_no_progress (apply KeptR.mk <;> try apply Kept.of2) | apply Kept.of2 | apply Kept.snd (by assumption) | apply KeptR.ite

theorem keep_execPwmPhaseWrite (m : Master) (b : Fin 12) (v : Word) (s : State) (h_s : Kept pq s) : KeptX pq (execPwmPhaseWrite m b v s) := by
  unfold execPwmPhaseWrite
  repeat' (with_reducible first | assumption | fail_if_no_progress beta_reduce | apply keep_regAccess | apply keep_phaseWrite | apply Kept.ite | fail_if_no_progress (apply KeptR.mk <;> try apply Kept.of2) | apply Kept.of2 | apply Kept.snd (by assumption) | apply KeptR.ite | apply KeptX.next)

end Sys2Proof.Machine
end

