-- ==== Sys2Proof/Laws/KeepFaults.lean ====
section
/-! SUPPORT. What the functions of `Faults` keep: the queue, and the canonical form of memory and registers. -/

namespace Sys2Proof.Machine

variable {pq : List Instr}

theorem keep_dropEdges (l a : Nat) (s : State) (h_s : Kept pq s) : Kept pq (dropEdges l a s) := by
  unfold dropEdges
  repeat'
    with_reducible first
    | assumption | intro _
    | extract_lets -underBinder +onlyGivenNames x
      first
        | have hx : Kept pq x := by
            try dsimp only [x]
            repeat' (with_reducible first | assumption | fail_if_no_progress beta_reduce | apply keep_setLink | apply Kept.ite | intro _ | fail_if_no_progress (apply Kept.upd) | split | beta_reduce)
        | skip
      try clear_value x
    | fail_if_no_progress beta_reduce | apply keep_setLink

theorem keep_tethSafe (l a cause : Nat) (s : State) (h_s : Kept pq s) : Kept pq (tethSafe l a cause s) := by
  unfold tethSafe
  repeat'
    with_reducible first
    | assumption | intro _
    | extract_lets -underBinder +onlyGivenNames x
      first
        | have hx : Kept pq x := by
            try dsimp only [x]
            repeat' (with_reducible first | assumption | fail_if_no_progress beta_reduce | apply keep_setRgBit | apply keep_setRgFld | apply keep_setLinkAx | apply keep_raiseEvent | apply keep_dropEdges)
        | skip
      try clear_value x
    | fail_if_no_progress beta_reduce | apply keep_setRgBit | apply keep_setRgFld | apply keep_setLinkAx | apply keep_raiseEvent | apply keep_dropEdges | apply Kept.ite

theorem keep_axisSafe (n cause : Nat) (s : State) (h_s : Kept pq s) : Kept pq (axisSafe n cause s) := by
  unfold axisSafe
  repeat' (with_reducible first | assumption | fail_if_no_progress beta_reduce | apply keep_enterSafe | apply keep_tethSafe | apply Kept.ite | intro _ | fail_if_no_progress (apply Kept.upd) | split)

theorem keep_setMode (m : Nat) (s : State) (h_s : Kept pq s) : Kept pq (setMode m s) := by
  unfold setMode
  repeat'
    with_reducible first
    | assumption | intro _
    | extract_lets -underBinder +onlyGivenNames x
      first
        | have hx : Kept pq x := by
            try dsimp only [x]
            repeat' (with_reducible first | assumption | fail_if_no_progress beta_reduce | apply keep_setRgFld | apply keep_raiseEvent | apply Kept.ite | intro _ | fail_if_no_progress (apply Kept.upd) | split | beta_reduce)
        | skip
      try clear_value x
    | fail_if_no_progress beta_reduce | apply keep_setRgFld | apply keep_raiseEvent | apply Kept.ite

theorem keep_allSafe (cause : Nat) (s : State) (h_s : Kept pq s) : Kept pq (allSafe cause s) := by
  unfold allSafe
  repeat'
    with_reducible first
    | assumption | intro _
    | extract_lets -underBinder +onlyGivenNames x
      first
        | have hx : Kept pq x := by
            try dsimp only [x]
            repeat' (with_reducible first | assumption | fail_if_no_progress beta_reduce | apply keep_enterSafe | apply keep_tethSafe | apply Kept.ite | apply Kept.foldl | intro _)
      try clear_value x
    | fail_if_no_progress beta_reduce | apply keep_enterSafe | apply keep_tethSafe | apply Kept.ite | apply Kept.foldl

theorem keep_boostEnd (code : Nat) (s : State) (h_s : Kept pq s) : Kept pq (boostEnd code s) := by
  unfold boostEnd
  repeat'
    with_reducible first
    | assumption | intro _
    | extract_lets -underBinder +onlyGivenNames x
      first
        | have hx : Kept pq x := by
            try dsimp only [x]
            repeat' (with_reducible first | assumption | fail_if_no_progress beta_reduce | apply keep_setRgBit | apply keep_setRgFld | apply keep_raiseEvent | apply Kept.ite | intro _ | fail_if_no_progress (apply Kept.upd) | split | beta_reduce)
        | skip
      try clear_value x
    | fail_if_no_progress beta_reduce | apply keep_setRgBit | apply keep_setRgFld | apply keep_raiseEvent | apply Kept.ite

theorem keep_enterSafeHold (s : State) (h_s : Kept pq s) : Kept pq (enterSafeHold s) := by
  unfold enterSafeHold
  repeat'
    with_reducible first
    | assumption | intro _
    | extract_lets -underBinder +onlyGivenNames x
      first
        | have hx : Kept pq x := by
            try dsimp only [x]
            repeat' (with_reducible first | assumption | fail_if_no_progress beta_reduce | apply keep_setRgBit | apply keep_setMark | apply keep_setGirth | apply keep_setMode | apply keep_allSafe | apply keep_boostEnd | apply Kept.ite | apply Kept.foldl | intro _)
      try clear_value x
    | fail_if_no_progress beta_reduce | apply keep_setRgBit | apply keep_setMark | apply keep_setGirth | apply keep_setMode

theorem keep_reqDone (code : Nat) (s : State) (h_s : Kept pq s) : Kept pq (reqDone code s) := by
  unfold reqDone
  repeat'
    with_reducible first
    | assumption | intro _
    | extract_lets -underBinder +onlyGivenNames x
      first
        | have hx : Kept pq x := by
            try dsimp only [x]
            repeat' (with_reducible first | assumption | fail_if_no_progress beta_reduce | apply keep_setRgBit | apply keep_setRgFld | apply Kept.ite | intro _ | fail_if_no_progress (apply Kept.upd))
        | skip
      try clear_value x
    | fail_if_no_progress beta_reduce | apply keep_setRgBit | apply keep_setRgFld

theorem keep_safeHoldCause (bit : Nat) (s : State) (h_s : Kept pq s) : Kept pq (safeHoldCause bit s) := by
  unfold safeHoldCause
  repeat'
    with_reducible first
    | assumption | intro _
    | extract_lets -underBinder +onlyGivenNames x
      first
        | have hx : Kept pq x := by
            try dsimp only [x]
            repeat' (with_reducible first | assumption | fail_if_no_progress beta_reduce | apply keep_setRgBit | apply keep_enterSafeHold | apply keep_reqDone | apply Kept.ite | intro _)
        | skip
      try clear_value x
    | fail_if_no_progress beta_reduce | apply keep_setRgBit | apply keep_enterSafeHold | apply keep_reqDone | apply Kept.ite

theorem keep_causeEnds (bit : Nat) (s : State) (h_s : Kept pq s) : Kept pq (causeEnds bit s) := by
  unfold causeEnds
  repeat' (with_reducible first | assumption | fail_if_no_progress beta_reduce | apply keep_setRgBit)

theorem keep_faultWrite (code unit sev detail : Nat) (s : State) (h_s : Kept pq s) : Kept pq (faultWrite code unit sev detail s) := by
  unfold faultWrite
  repeat'
    with_reducible first
    | assumption | intro _
    | extract_lets -underBinder +onlyGivenNames x
      first
        | have hx : Kept pq x := by
            try dsimp only [x]
            repeat' (with_reducible first | assumption | fail_if_no_progress beta_reduce | apply keep_setRg | apply keep_bump | apply keep_raiseEvent | apply keep_agentWrite | apply Kept.ite | fail_if_no_progress (apply KeptR.mk <;> try apply Kept.of2) | apply Kept.of2 | apply Kept.snd (by assumption) | apply KeptR.ite | intro _ | fail_if_no_progress (apply Kept.upd) | split | beta_reduce)
        | skip
      try clear_value x
    | fail_if_no_progress beta_reduce | apply keep_setRg | apply keep_bump | apply keep_raiseEvent | apply keep_agentWrite | apply Kept.ite | fail_if_no_progress (apply KeptR.mk <;> try apply Kept.of2) | apply Kept.of2

theorem keep_faultRecord (code unit sev detail : Nat) (s : State) (h_s : Kept pq s) : Kept pq (faultRecord code unit sev detail s) := by
  unfold faultRecord
  repeat'
    with_reducible first
    | assumption | intro _
    | extract_lets -underBinder +onlyGivenNames x
      first
        | have hx : Kept pq x := by
            try dsimp only [x]
            repeat' (with_reducible first | assumption | fail_if_no_progress beta_reduce | apply keep_setRgBit | apply keep_setRgFld | apply keep_safeHoldCause | apply keep_faultWrite | apply Kept.ite | intro _ | fail_if_no_progress (apply Kept.upd))
        | skip
      try clear_value x
    | fail_if_no_progress beta_reduce | apply keep_setRgBit | apply keep_setRgFld | apply keep_safeHoldCause | apply keep_faultWrite | apply Kept.ite

theorem keep_settle (s : State) (h_s : Kept pq s) : Kept pq (settle s) := by
  unfold settle
  repeat' (with_reducible first | assumption | fail_if_no_progress beta_reduce | apply keep_faultRecord | apply Kept.ite | apply Kept.foldl | intro _ | fail_if_no_progress (apply Kept.upd))

theorem keep_markSuspect (g : Nat) (s : State) (h_s : Kept pq s) : Kept pq (markSuspect g s) := by
  unfold markSuspect
  repeat'
    with_reducible first
    | assumption | intro _
    | extract_lets -underBinder +onlyGivenNames x
      first
        | have hx : Kept pq x := by
            try dsimp only [x]
            repeat' (with_reducible first | assumption | fail_if_no_progress beta_reduce | apply keep_setRgBit)
      try clear_value x
    | fail_if_no_progress beta_reduce | apply keep_setRgBit | apply keep_sadlNotice | apply keep_journal | apply keep_faultRecord

end Sys2Proof.Machine
end

