-- ==== Sys2Proof/Laws/KeepSample.lean ====
section
/-! SUPPORT. What the functions of `Sample` keep: the queue, and the canonical form of memory and registers. -/

namespace Sys2Proof.Machine

variable {pq : List Instr}

theorem keep_poolRefresh (s : State) (h_s : Kept pq s) : Kept pq (poolRefresh s) := by
  unfold poolRefresh
  repeat'
    with_reducible first
    | assumption | intro _
    | extract_lets -underBinder +onlyGivenNames x
      first
        | have hx : Kept pq x := by
            try dsimp only [x]
            repeat' (with_reducible first | assumption | fail_if_no_progress beta_reduce | apply keep_setRg | apply Kept.ite | intro _ | fail_if_no_progress (apply Kept.upd) | split | beta_reduce)
        | skip
      try clear_value x
    | fail_if_no_progress beta_reduce | apply keep_setRg

theorem keep_setRole (n r : Nat) (s : State) (h_s : Kept pq s) : Kept pq (setRole n r s) := by
  unfold setRole
  repeat' (with_reducible first | assumption | fail_if_no_progress beta_reduce | apply keep_setRgFld | apply keep_poolRefresh)

theorem keep_convNotice (i : Nat) (s : State) (h_s : Kept pq s) : Kept pq (convNotice i s) := by
  unfold convNotice
  repeat' (with_reducible first | assumption | fail_if_no_progress beta_reduce | apply keep_setRgBit)

theorem keep_dropStep (s : State) (h_s : Kept pq s) : Kept pq (dropStep s) := by
  unfold dropStep
  repeat'
    with_reducible first
    | assumption | intro _
    | extract_lets -underBinder +onlyGivenNames x
      first
        | have hx : Kept pq x := by
            try dsimp only [x]
            repeat' (with_reducible first | assumption | fail_if_no_progress beta_reduce | apply keep_setRg | apply hF_clear | apply Kept.ite | apply Kept.foldl)
        | have hF_clear : ∀ y0 y1, Kept pq y0 → Kept pq (x y0 y1) := by
            intro y0 y1 hy0
            try dsimp only [x]
            repeat' (with_reducible first | assumption | fail_if_no_progress beta_reduce | apply keep_setRg | apply hF_clear | apply Kept.ite | apply Kept.foldl | intro _)
        | skip
      try clear_value x
    | fail_if_no_progress beta_reduce | apply keep_setRg | apply hF_clear | apply Kept.ite | apply Kept.foldl | intro _ | fail_if_no_progress (apply Kept.upd) | split

theorem keep_degradedCheck (s : State) (h_s : Kept pq s) : Kept pq (degradedCheck s) := by
  unfold degradedCheck
  repeat' (with_reducible first | assumption | fail_if_no_progress beta_reduce | apply keep_faultRecord | apply keep_convNotice | apply keep_dropStep | apply Kept.ite | intro _)

theorem keep_joinStep (c n : Nat) (s : State) (h_s : Kept pq s) : Kept pq (joinStep c n s) := by
  unfold joinStep
  repeat'
    with_reducible first
    | assumption | intro _
    | extract_lets -underBinder +onlyGivenNames x
      first
        | have hx : Kept pq x := by
            try dsimp only [x]
            repeat' (with_reducible first | assumption | fail_if_no_progress beta_reduce | apply Kept.ite | intro _ | fail_if_no_progress (apply Kept.upd) | split | beta_reduce)
        | skip
      try clear_value x
    | fail_if_no_progress beta_reduce | apply Kept.ite | intro _ | fail_if_no_progress (apply Kept.upd) | split

theorem keep_bindCh (c n : Nat) (s : State) (h_s : Kept pq s) : Kept pq (bindCh c n s) := by
  unfold bindCh
  repeat' (with_reducible first | assumption | fail_if_no_progress beta_reduce | apply keep_setRg | apply keep_setRole)

theorem keep_restCv (n : Nat) (s : State) (h_s : Kept pq s) : Kept pq (restCv n s) := by
  unfold restCv
  repeat' (with_reducible first | assumption | fail_if_no_progress beta_reduce | apply keep_setRole | apply Kept.ite | intro _)

theorem keep_enterCal (n : Nat) (s : State) (h_s : Kept pq s) : Kept pq (enterCal n s) := by
  unfold enterCal
  repeat'
    with_reducible first
    | assumption | intro _
    | extract_lets -underBinder +onlyGivenNames x
      first
        | have hx : Kept pq x := by
            try dsimp only [x]
            repeat' (with_reducible first | assumption | fail_if_no_progress beta_reduce | apply keep_setRg | apply keep_setRgBit | apply keep_setCv | apply keep_raiseEvent | apply keep_faultRecord | apply keep_setRole)
        | skip
      try clear_value x
    | fail_if_no_progress beta_reduce | apply keep_setRg | apply keep_setRgBit | apply keep_setCv | apply keep_raiseEvent | apply keep_faultRecord | apply keep_setRole | apply Kept.ite

theorem keep_putCoefs (n : Nat) (c : Int × Int × List Int) (s : State) (h_s : Kept pq s) : Kept pq (putCoefs n c s) := by
  unfold putCoefs
  repeat'
    with_reducible first
    | assumption | intro _
    | extract_lets -underBinder +onlyGivenNames x
      first
        | have hx : Kept pq x := by
            try dsimp only [x]
            repeat' (with_reducible first | assumption | fail_if_no_progress beta_reduce | apply keep_setRg)
      try clear_value x
    | fail_if_no_progress beta_reduce | apply keep_setRg | apply Kept.ite | apply Kept.foldl

theorem keep_pickFree (l : List Nat) (s : State) (h_s : Kept pq s) : KeptR pq (pickFree l s) := by
  unfold pickFree
  repeat' (with_reducible first | assumption | fail_if_no_progress beta_reduce | apply keep_draw | apply Kept.ite | fail_if_no_progress (apply KeptR.mk <;> try apply Kept.of2) | apply Kept.of2 | apply Kept.snd (by assumption) | apply KeptR.ite | intro _)

theorem keep_rebind (c : Nat) (s : State) (h_s : Kept pq s) : Kept pq (rebind c s) := by
  unfold rebind
  repeat' (with_reducible first | assumption | fail_if_no_progress beta_reduce | apply keep_convNotice | apply keep_bindCh | apply keep_pickFree | apply Kept.ite | fail_if_no_progress (apply KeptR.mk <;> try apply Kept.of2) | apply Kept.of2 | apply Kept.snd (by assumption) | apply KeptR.ite | intro _ | fail_if_no_progress (apply Kept.upd) | split)

theorem keep_fenceCv (n detail : Nat) (s : State) (h_s : Kept pq s) : Kept pq (fenceCv n detail s) := by
  unfold fenceCv
  repeat'
    with_reducible first
    | assumption | intro _
    | extract_lets -underBinder +onlyGivenNames x
      first
        | have hx : Kept pq x := by
            try dsimp only [x]
            repeat' (with_reducible first | assumption | fail_if_no_progress beta_reduce | apply keep_raiseEvent | apply keep_faultRecord | apply keep_setRole | apply keep_convNotice | apply keep_dropStep | apply keep_degradedCheck | apply keep_rebind | apply Kept.ite | apply Kept.foldl | intro _ | fail_if_no_progress (apply Kept.upd) | split)
        | skip
      try clear_value x
    | fail_if_no_progress beta_reduce | apply keep_raiseEvent | apply keep_faultRecord | apply keep_setRole | apply keep_convNotice | apply keep_dropStep | apply keep_degradedCheck | apply keep_rebind | apply Kept.ite | apply Kept.foldl

theorem keep_calibrationEnd (n : Nat) (r : CalRun) (s : State) (h_s : Kept pq s) : Kept pq (calibrationEnd n r s) := by
  unfold calibrationEnd
  repeat'
    with_reducible first
    | assumption | intro _
    | extract_lets -underBinder +onlyGivenNames x
      first
        | have hx : Kept pq x := by
            try dsimp only [x]
            repeat' (with_reducible first | assumption | fail_if_no_progress beta_reduce | apply keep_setRg | apply keep_setRgFld | apply keep_setCv | apply keep_setRole | apply keep_enterCal | apply keep_putCoefs)
        | skip
      try clear_value x
    | fail_if_no_progress beta_reduce | apply keep_setRg | apply keep_setRgFld | apply keep_setCv | apply keep_setRole | apply keep_enterCal | apply keep_putCoefs | apply keep_fenceCv | apply Kept.ite | intro _ | fail_if_no_progress (apply Kept.upd) | split

theorem keep_bindBridge (b : Nat) (s : State) (h_s : Kept pq s) : Kept pq (bindBridge b s) := by
  unfold bindBridge
  repeat'
    with_reducible first
    | assumption | intro _
    | extract_lets -underBinder +onlyGivenNames x
      first
        | have hx : Kept pq x := by
            try dsimp only [x]
            repeat' (with_reducible first | assumption | fail_if_no_progress beta_reduce | apply keep_joinStep | apply keep_bindCh | apply keep_pickFree | apply Kept.ite | fail_if_no_progress (apply KeptR.mk <;> try apply Kept.of2) | apply Kept.of2 | apply Kept.snd (by assumption) | apply KeptR.ite | apply Kept.foldl | apply KeptR.foldl | intro _ | fail_if_no_progress (apply Kept.upd) | split | beta_reduce)
        | skip
      try clear_value x
    | fail_if_no_progress beta_reduce | apply keep_joinStep | apply keep_bindCh | apply keep_pickFree | apply Kept.ite | fail_if_no_progress (apply KeptR.mk <;> try apply Kept.of2) | apply Kept.of2 | apply Kept.snd (by assumption) | apply KeptR.ite | apply Kept.foldl | apply KeptR.foldl | intro _ | fail_if_no_progress (apply Kept.upd) | split

theorem keep_stepEnd (h : Handover) (s : State) (h_s : Kept pq s) : Kept pq (stepEnd h s) := by
  unfold stepEnd
  repeat'
    with_reducible first
    | assumption | intro _
    | extract_lets -underBinder +onlyGivenNames x
      first
        | have hx : Kept pq x := by
            try dsimp only [x]
            repeat' (with_reducible first | assumption | fail_if_no_progress beta_reduce | apply keep_enterCal | apply Kept.ite | intro _ | fail_if_no_progress (apply Kept.upd))
        | skip
      try clear_value x
    | fail_if_no_progress beta_reduce | apply keep_enterCal | apply Kept.ite

theorem keep_stepOn (h : Handover) (s : State) (h_s : Kept pq s) : Kept pq (stepOn h s) := by
  unfold stepOn
  repeat' (with_reducible first | assumption | fail_if_no_progress beta_reduce | apply keep_stepEnd | apply Kept.ite | intro _ | fail_if_no_progress (apply Kept.upd))

theorem keep_releaseChannels (b : Nat) (s : State) (h_s : Kept pq s) : Kept pq (releaseChannels b s) := by
  unfold releaseChannels
  repeat'
    with_reducible first
    | assumption | intro _
    | extract_lets -underBinder +onlyGivenNames x
      first
        | have hx : Kept pq x := by
            try dsimp only [x]
            repeat' (with_reducible first | assumption | fail_if_no_progress beta_reduce | apply keep_setRg | apply keep_restCv | apply keep_stepOn | apply Kept.ite | apply Kept.foldl | intro _)
        | skip
      try clear_value x
    | fail_if_no_progress beta_reduce | apply keep_setRg | apply keep_restCv | apply keep_stepOn | apply Kept.ite | apply Kept.foldl | intro _ | fail_if_no_progress (apply Kept.upd) | split

theorem keep_unbindBridge (b : Nat) (s : State) (h_s : Kept pq s) : Kept pq (unbindBridge b s) := by
  unfold unbindBridge
  repeat'
    with_reducible first
    | assumption | intro _
    | extract_lets -underBinder +onlyGivenNames x
      first
        | have hx : Kept pq x := by
            try dsimp only [x]
            repeat' (with_reducible first | assumption | fail_if_no_progress beta_reduce | apply keep_setRgBit | apply keep_releaseChannels)
        | skip
      try clear_value x
    | fail_if_no_progress beta_reduce | apply keep_setRgBit | apply keep_releaseChannels | apply Kept.ite | intro _ | fail_if_no_progress (apply Kept.upd)

theorem keep_putInstant (b at_ : Nat) (s : State) (h_s : Kept pq s) : Kept pq (putInstant b at_ s) := by
  unfold putInstant
  repeat' (with_reducible first | assumption | fail_if_no_progress beta_reduce | apply Kept.ite | intro _ | fail_if_no_progress (apply Kept.upd))

theorem keep_submitSmp (b : Nat) (s : State) (h_s : Kept pq s) : Kept pq (submitSmp b s) := by
  unfold submitSmp
  repeat'
    with_reducible first
    | assumption | intro _
    | extract_lets -underBinder +onlyGivenNames x
      first
        | have hx : Kept pq x := by
            try dsimp only [x]
            repeat' (with_reducible first | assumption | fail_if_no_progress beta_reduce | apply keep_setRgBit | apply keep_choosePhase | apply keep_saddlerPhase | apply keep_bindBridge | apply keep_unbindBridge | apply keep_putInstant | apply Kept.ite | fail_if_no_progress (apply KeptR.mk <;> try apply Kept.of2) | apply Kept.of2 | apply Kept.snd (by assumption))
        | skip
      try clear_value x
    | fail_if_no_progress beta_reduce | apply keep_setRgBit | apply keep_choosePhase | apply keep_saddlerPhase | apply keep_bindBridge | apply keep_unbindBridge | apply keep_putInstant | apply Kept.ite | fail_if_no_progress (apply KeptR.mk <;> try apply Kept.of2) | apply Kept.of2 | apply Kept.snd (by assumption) | apply KeptR.ite | intro _ | fail_if_no_progress (apply Kept.upd) | split

theorem keep_keepBinding (b : Nat) (s : State) (h_s : Kept pq s) : Kept pq (keepBinding b s) := by
  unfold keepBinding
  repeat' (with_reducible first | assumption | fail_if_no_progress beta_reduce | apply keep_bindBridge | apply keep_releaseChannels | apply Kept.ite | intro _)

theorem keep_smpWrite (b : Nat) (v : Word) (s : State) (h_s : Kept pq s) : KeptR pq (smpWrite b v s) := by
  unfold smpWrite
  repeat'
    with_reducible first
    | assumption | intro _
    | extract_lets -underBinder +onlyGivenNames x
      first
        | have hx : Kept pq x := by
            try dsimp only [x]
            repeat' (with_reducible first | assumption | fail_if_no_progress beta_reduce | apply keep_setRg)
        | skip
      try clear_value x
    | fail_if_no_progress beta_reduce | apply keep_setRg | apply keep_setRgBit | apply keep_unbindBridge | apply keep_submitSmp | apply Kept.ite | fail_if_no_progress (apply KeptR.mk <;> try apply Kept.of2) | apply Kept.of2 | apply Kept.snd (by assumption) | apply KeptR.ite | intro _ | fail_if_no_progress (apply Kept.upd)

theorem keep_initialCalibration (rs : List CalRun) (s : State) (h_s : Kept pq s) : Kept pq (initialCalibration rs s) := by
  unfold initialCalibration
  repeat'
    with_reducible first
    | assumption | intro _
    | extract_lets -underBinder +onlyGivenNames x
      first
        | have hx : Kept pq x := by
            try dsimp only [x]
            repeat' (with_reducible first | assumption | fail_if_no_progress beta_reduce | apply keep_setRg | apply keep_setRgBit | apply keep_setRgFld | apply keep_setCv | apply keep_setRole | apply keep_enterCal | apply keep_putCoefs | apply keep_fenceCv | apply keep_submitSmp | apply Kept.ite | apply Kept.foldl | intro _ | fail_if_no_progress (apply Kept.upd) | split)
        | skip
      try clear_value x
    | fail_if_no_progress beta_reduce | apply keep_setRg | apply keep_setRgBit | apply keep_setRgFld | apply keep_setCv | apply keep_setRole | apply keep_enterCal | apply keep_putCoefs | apply keep_fenceCv | apply keep_submitSmp | apply Kept.ite | apply Kept.foldl

theorem keep_handoverActs (c : Nat) (s : State) (h_s : Kept pq s) : Kept pq (handoverActs c s) := by
  unfold handoverActs
  repeat'
    with_reducible first
    | assumption | intro _
    | extract_lets -underBinder +onlyGivenNames x
      first
        | have hx : Kept pq x := by
            try dsimp only [x]
            repeat' (with_reducible first | assumption | fail_if_no_progress beta_reduce | apply keep_setAx | apply Kept.ite | intro _ | fail_if_no_progress (apply Kept.upd) | split | beta_reduce)
        | skip
      try clear_value x
    | fail_if_no_progress beta_reduce | apply keep_setAx | apply Kept.ite

theorem keep_handoverTry (b : Nat) (s0 : State) (h_s0 : Kept pq s0) : Kept pq (handoverTry b s0) := by
  unfold handoverTry
  repeat'
    with_reducible first
    | assumption | intro _
    | extract_lets -underBinder +onlyGivenNames x
      first
        | have hx : Kept pq x := by
            try dsimp only [x]
            repeat' (with_reducible first | assumption | fail_if_no_progress beta_reduce | apply keep_setRg | apply keep_setCv | apply keep_bump | apply keep_journal | apply keep_convNotice | apply keep_stepOn | apply keep_handoverActs | apply Kept.ite | intro _)
        | skip
      try clear_value x
    | fail_if_no_progress beta_reduce | apply keep_setRg | apply keep_setCv | apply keep_bump | apply keep_journal | apply keep_convNotice | apply keep_stepOn | apply keep_handoverActs | apply Kept.ite | intro _ | fail_if_no_progress (apply Kept.upd) | split

theorem keep_handoverNext (h : Handover) (s : State) (h_s : Kept pq s) : Kept pq (handoverNext h s) := by
  unfold handoverNext
  repeat'
    with_reducible first
    | assumption | intro _
    | extract_lets -underBinder +onlyGivenNames x
      first
        | have hx : Kept pq x := by
            try dsimp only [x]
            repeat' (with_reducible first | assumption | fail_if_no_progress beta_reduce | apply keep_stepEnd | apply keep_stepOn)
      try clear_value x
    | fail_if_no_progress beta_reduce | apply keep_stepEnd | apply keep_stepOn | apply keep_handoverTry | apply Kept.ite | intro _ | fail_if_no_progress (apply Kept.upd) | split

theorem keep_handoverJudge (c n d : Nat) (s : State) (h_s : Kept pq s) : Kept pq (handoverJudge c n d s) := by
  unfold handoverJudge
  repeat'
    with_reducible first
    | assumption | intro _
    | extract_lets -underBinder +onlyGivenNames x
      first
        | have hx : Kept pq x := by
            try dsimp only [x]
            repeat' (with_reducible first | assumption | fail_if_no_progress beta_reduce | apply keep_setRgFld | apply keep_setCv | apply keep_bump | apply keep_raiseEvent | apply keep_journal | apply keep_convNotice | apply keep_bindCh | apply keep_enterCal | apply keep_rebind | apply keep_fenceCv | apply keep_handoverNext | apply Kept.ite | apply Kept.foldl | intro _ | fail_if_no_progress (apply Kept.upd))
        | skip
      try clear_value x
    | fail_if_no_progress beta_reduce | apply keep_setRgFld | apply keep_setCv | apply keep_bump | apply keep_raiseEvent | apply keep_journal | apply keep_convNotice | apply keep_bindCh | apply keep_enterCal | apply keep_rebind | apply keep_fenceCv | apply keep_handoverNext | apply Kept.ite | apply Kept.foldl | intro _ | fail_if_no_progress (apply Kept.upd) | split

theorem keep_rotationStep (s0 : State) (h_s0 : Kept pq s0) : Kept pq (rotationStep s0) := by
  unfold rotationStep
  repeat'
    with_reducible first
    | assumption | intro _
    | extract_lets -underBinder +onlyGivenNames x
      first
        | have hx : Kept pq x := by
            try dsimp only [x]
            repeat' (with_reducible first | assumption | fail_if_no_progress beta_reduce | apply keep_setCv | apply keep_enterCal | apply keep_handoverNext | apply Kept.ite | apply Kept.foldl | intro _ | fail_if_no_progress (apply Kept.upd))
        | skip
      try clear_value x
    | fail_if_no_progress beta_reduce | apply keep_setCv | apply keep_enterCal | apply keep_handoverNext | apply Kept.ite | apply Kept.foldl | intro _ | fail_if_no_progress (apply Kept.upd) | split

theorem keep_calAgeCheck (s : State) (h_s : Kept pq s) : Kept pq (calAgeCheck s) := by
  unfold calAgeCheck
  repeat'
    with_reducible first
    | assumption | intro _
    | extract_lets -underBinder +onlyGivenNames x
      first
        | have hx : Kept pq x := by
            try dsimp only [x]
            repeat' (with_reducible first | assumption | fail_if_no_progress beta_reduce | apply keep_convNotice | apply Kept.ite | intro _ | fail_if_no_progress (apply Kept.upd) | split | beta_reduce)
        | skip
      try clear_value x
    | fail_if_no_progress beta_reduce | apply keep_convNotice | apply Kept.ite

theorem keep_triggerBridge (kind b : Nat) (s : State) (h_s : Kept pq s) : Kept pq (triggerBridge kind b s) := by
  unfold triggerBridge
  repeat'
    with_reducible first
    | assumption | intro _
    | extract_lets -underBinder +onlyGivenNames x
      first
        | have hx : Kept pq x := by
            try dsimp only [x]
            repeat' (with_reducible first | assumption | fail_if_no_progress beta_reduce | apply keep_setFb | apply keep_setSenc | apply Kept.ite | apply Kept.foldl | intro _)
        | skip
      try clear_value x
    | fail_if_no_progress beta_reduce | apply keep_setFb | apply keep_setSenc | apply Kept.ite | apply Kept.foldl

theorem keep_acquire (b : Nat) (s : State) (h_s : Kept pq s) : Kept pq (acquire b s) := by
  unfold acquire
  repeat'
    with_reducible first
    | assumption | intro _
    | extract_lets -underBinder +onlyGivenNames x
      first
        | have hx : Kept pq x := by
            try dsimp only [x]
            repeat' (with_reducible first | assumption | fail_if_no_progress beta_reduce | apply Kept.ite | intro _ | fail_if_no_progress (apply Kept.upd) | split | beta_reduce)
        | skip
      try clear_value x
    | fail_if_no_progress beta_reduce | apply Kept.ite | intro _ | fail_if_no_progress (apply Kept.upd)

theorem keep_sampleInstant (b : Nat) (s : State) (h_s : Kept pq s) : Kept pq (sampleInstant b s) := by
  unfold sampleInstant
  repeat'
    with_reducible first
    | assumption | intro _
    | extract_lets -underBinder +onlyGivenNames x
      first
        | have hx : Kept pq x := by
            try dsimp only [x]
            repeat' (with_reducible first | assumption | fail_if_no_progress beta_reduce | apply keep_setRg | apply keep_sampleTaken | apply keep_triggerBridge | apply Kept.ite | apply Kept.foldl | intro _ | fail_if_no_progress (apply Kept.upd))
        | skip
      try clear_value x
    | fail_if_no_progress beta_reduce | apply keep_setRg | apply keep_sampleTaken | apply keep_triggerBridge

theorem keep_missingResult (n : Nat) (s : State) (h_s : Kept pq s) : Kept pq (missingResult n s) := by
  unfold missingResult
  repeat'
    with_reducible first
    | assumption | intro _
    | extract_lets -underBinder +onlyGivenNames x
      first
        | have hx : Kept pq x := by
            try dsimp only [x]
            repeat' (with_reducible first | assumption | fail_if_no_progress beta_reduce | apply keep_setCv)
        | skip
      try clear_value x
    | fail_if_no_progress beta_reduce | apply keep_setCv | apply keep_fenceCv | apply Kept.ite

theorem keep_channelCount (c n1 : Nat) (n2 r1 r2 : Option Nat) (s : State) (h_s : Kept pq s) :
    Kept pq (channelCount c n1 n2 r1 r2 s) := by
  unfold channelCount
  extract_lets note seen hist
  have hn : ∀ s, Kept pq s → Kept pq (note s) := fun s h => keep_convNotice 5 s h
  have hs : ∀ n s, Kept pq s → Kept pq (seen n s) := fun n s h => keep_setCv s n _ h
  have hh : ∀ v s, Kept pq s → Kept pq (hist v s) := fun v s h => Kept.upd h
  clear_value note seen hist
  repeat' (with_reducible first | assumption | apply hn | apply hs | apply hh | apply keep_missingResult | apply keep_handoverJudge | split)

theorem keep_samplePort (mid : Option (Fin 32)) (x : Nat) (bytes : List Byte) (time : DWord) (status : Nat) (dropBlk : Option (Blk × Nat × Nat)) (s : State) (h_s : Kept pq s) : Kept pq (samplePort mid x bytes time status dropBlk s) := by
  unfold samplePort
  repeat'
    with_reducible first
    | assumption | intro _
    | extract_lets -underBinder +onlyGivenNames x
      first
        | have hx : Kept pq x := by
            try dsimp only [x]
            repeat' (with_reducible first | assumption | fail_if_no_progress beta_reduce | apply keep_bump | apply keep_wakeCtx | apply keep_bankWrite | apply keep_axisDrop | apply Kept.ite | intro _ | fail_if_no_progress (apply Kept.upd))
        | skip
      try clear_value x
    | fail_if_no_progress beta_reduce | apply keep_bump | apply keep_wakeCtx | apply keep_bankWrite | apply keep_axisDrop | apply Kept.ite | intro _ | fail_if_no_progress (apply Kept.upd) | split

theorem keep_conversionEnd (b : Nat) (rs : List (Option Nat × Option Nat)) (s : State) (h_s : Kept pq s) : Kept pq (conversionEnd b rs s) := by
  unfold conversionEnd
  repeat'
    with_reducible first
    | assumption | intro _
    | extract_lets -underBinder +onlyGivenNames x
      first
        | have hx : Kept pq x := by
            try dsimp only [x]
            repeat' (with_reducible first | assumption | fail_if_no_progress beta_reduce | apply keep_raiseEvent | apply keep_channelCount | apply keep_samplePort | apply Kept.ite | apply Kept.foldl | intro _ | fail_if_no_progress (apply Kept.upd) | split | beta_reduce)
        | skip
      try clear_value x
    | fail_if_no_progress beta_reduce | apply keep_raiseEvent | apply keep_channelCount | apply keep_samplePort | apply Kept.ite | apply Kept.foldl | intro _ | fail_if_no_progress (apply Kept.upd) | split

theorem keep_comparatorSet (i : Nat) (hard out : Bool) (v : Nat) (s : State) (h_s : Kept pq s) : Kept pq (comparatorSet i hard out v s) := by
  unfold comparatorSet
  repeat' (with_reducible first | assumption | fail_if_no_progress beta_reduce | apply keep_setRaw | apply keep_evalAfterEdges | apply Kept.ite | intro _ | fail_if_no_progress (apply Kept.upd))

theorem keep_tripLevel (t : Nat) (active : Bool) (s : State) (h_s : Kept pq s) : Kept pq (tripLevel t active s) := by
  unfold tripLevel
  repeat' (with_reducible first | assumption | fail_if_no_progress beta_reduce | apply keep_setRgBit | apply Kept.ite | intro _ | fail_if_no_progress (apply Kept.upd))

theorem keep_tripRaised (t : Nat) (s : State) (h_s : Kept pq s) : Kept pq (tripRaised t s) := by
  unfold tripRaised
  repeat' (with_reducible first | assumption | fail_if_no_progress beta_reduce | apply keep_setRgBit | apply keep_raiseEvent)

theorem keep_tripSample (t : Nat) (active : Bool) (n : Nat) (s : State) (h_s : Kept pq s) : Kept pq (tripSample t active n s) := by
  unfold tripSample
  repeat'
    with_reducible first
    | assumption | intro _
    | extract_lets -underBinder +onlyGivenNames x
      first
        | have hx : Kept pq x := by
            try dsimp only [x]
            repeat' (with_reducible first | assumption | fail_if_no_progress beta_reduce | apply Kept.ite | intro _ | fail_if_no_progress (apply Kept.upd) | split | beta_reduce)
        | skip
      try clear_value x
    | fail_if_no_progress beta_reduce | apply Kept.ite | intro _ | fail_if_no_progress (apply Kept.upd)

theorem keep_tripFilter (t : Nat) (s : State) (h_s : Kept pq s) : Kept pq (tripFilter t s) := by
  unfold tripFilter
  repeat'
    with_reducible first
    | assumption | intro _
    | extract_lets -underBinder +onlyGivenNames x
      first
        | have hx : Kept pq x := by
            try dsimp only [x]
            repeat' (with_reducible first | assumption | fail_if_no_progress beta_reduce | apply keep_tripLevel)
        | skip
      try clear_value x
    | fail_if_no_progress beta_reduce | apply keep_tripLevel | apply keep_tripRaised | apply Kept.ite

theorem keep_tripSet (t : Nat) (active : Bool) (n : Nat) (s : State) (h_s : Kept pq s) : Kept pq (tripSet t active n s) := by
  unfold tripSet
  repeat'
    with_reducible first
    | assumption | intro _
    | extract_lets -underBinder +onlyGivenNames x
      first
        | have hx : Kept pq x := by
            try dsimp only [x]
            repeat' (with_reducible first | assumption | fail_if_no_progress beta_reduce | apply keep_evalAfterEdges | apply keep_tripSample)
      try clear_value x
    | fail_if_no_progress beta_reduce | apply keep_evalAfterEdges | apply keep_tripSample | apply keep_tripFilter | apply Kept.ite | apply Kept.foldl

theorem keep_cmpWrite (o : Nat) (v : Word) (sec : Bool) (s : State) (h_s : Kept pq s) : KeptR pq (cmpWrite o v sec s) := by
  unfold cmpWrite
  repeat'
    with_reducible first
    | assumption | intro _
    | extract_lets -underBinder +onlyGivenNames x
      first
        | have hx : Kept pq x := by
            try dsimp only [x]
            repeat' (with_reducible first | assumption | fail_if_no_progress beta_reduce | apply keep_setRgBit | apply keep_plainWrite)
      try clear_value x
    | fail_if_no_progress beta_reduce | apply keep_setRgBit | apply keep_plainWrite | apply keep_thresholdWritten | apply keep_tripRaised | apply Kept.ite | fail_if_no_progress (apply KeptR.mk <;> try apply Kept.of2) | apply Kept.of2 | apply Kept.snd (by assumption) | apply KeptR.ite | intro _ | fail_if_no_progress (apply Kept.upd) | split

theorem keep_sweepStart (i : Nat) (hard : Bool) (s : State) (h_s : Kept pq s) : Kept pq (sweepStart i hard s) := by
  unfold sweepStart
  repeat'
    with_reducible first
    | assumption | intro _
    | extract_lets -underBinder +onlyGivenNames x
      first
        | have hx : Kept pq x := by
            try dsimp only [x]
            repeat' (with_reducible first | assumption | fail_if_no_progress beta_reduce | apply keep_setRgBit | apply keep_setRaw | apply keep_evalAfterEdges | apply Kept.ite | apply Kept.foldl | intro _ | fail_if_no_progress (apply Kept.upd))
        | skip
      try clear_value x
    | fail_if_no_progress beta_reduce | apply keep_setRgBit | apply keep_setRaw | apply keep_evalAfterEdges | apply Kept.ite

theorem keep_standInEnds (i : Nat) (s : State) (h_s : Kept pq s) : Kept pq (standInEnds i s) := by
  unfold standInEnds
  repeat'
    with_reducible first
    | assumption | intro _
    | extract_lets -underBinder +onlyGivenNames x
      first
        | have hx : Kept pq x := by
            try dsimp only [x]
            repeat' (with_reducible first | assumption | fail_if_no_progress beta_reduce | apply keep_setRgBit)
      try clear_value x
    | fail_if_no_progress beta_reduce | apply keep_setRgBit | apply keep_setRaw

theorem keep_sweepJudge (w : Sweep) (s : State) (h_s : Kept pq s) : Kept pq (sweepJudge w s) := by
  unfold sweepJudge
  repeat'
    with_reducible first
    | assumption | intro _
    | extract_lets -underBinder +onlyGivenNames x
      first
        | have hx : Kept pq x := by
            try dsimp only [x]
            repeat' (with_reducible first | assumption | fail_if_no_progress beta_reduce | apply keep_setRgBit | apply keep_evalAfterEdges | apply keep_faultRecord | apply keep_standInEnds | apply Kept.ite | intro _ | fail_if_no_progress (apply Kept.upd) | split)
        | skip
      try clear_value x
    | fail_if_no_progress beta_reduce | apply keep_setRgBit | apply keep_evalAfterEdges

theorem keep_sweepStep (crossed : Bool) (s : State) (h_s : Kept pq s) : Kept pq (sweepStep crossed s) := by
  unfold sweepStep
  repeat'
    with_reducible first
    | assumption | intro _
    | extract_lets -underBinder +onlyGivenNames x
      first
        | have hx : Kept pq x := by
            try dsimp only [x]
            repeat' (with_reducible first | assumption | fail_if_no_progress beta_reduce | apply keep_evalAfterEdges | apply keep_standInEnds | apply keep_sweepJudge | apply keep_step | apply Kept.ite | apply KeptX.next | apply KeptX.ite | intro _ | fail_if_no_progress (apply Kept.upd))
        | skip
      try clear_value x
    | fail_if_no_progress beta_reduce | apply keep_evalAfterEdges | apply keep_standInEnds | apply keep_sweepJudge | apply keep_step | apply Kept.ite | apply KeptX.next | apply KeptX.ite | intro _ | fail_if_no_progress (apply Kept.upd) | split

theorem keep_execInitialCalibration (rs : List CalRun) (s : State) (h_s : Kept pq s) : KeptX pq (execInitialCalibration rs s) := by
  unfold execInitialCalibration
  repeat' (with_reducible first | assumption | fail_if_no_progress beta_reduce | apply keep_initialCalibration | apply Kept.ite | apply KeptX.next | apply KeptX.ite | intro _)

theorem keep_execSmpWrite (m : Master) (b : Fin 12) (v : Word) (s : State) (h_s : Kept pq s) : KeptX pq (execSmpWrite m b v s) := by
  unfold execSmpWrite
  repeat' (with_reducible first | assumption | fail_if_no_progress beta_reduce | apply keep_regAccess | apply keep_smpWrite | apply Kept.ite | fail_if_no_progress (apply KeptR.mk <;> try apply Kept.of2) | apply Kept.of2 | apply Kept.snd (by assumption) | apply KeptR.ite | apply KeptX.next)

theorem keep_execConversionEnd (b : Fin 12) (rs : List (Option Nat × Option Nat)) (s : State) (h_s : Kept pq s) : KeptX pq (execConversionEnd b rs s) := by
  unfold execConversionEnd
  repeat' (with_reducible first | assumption | fail_if_no_progress beta_reduce | apply keep_conversionEnd | apply Kept.ite | apply KeptX.next | apply KeptX.ite | intro _)

theorem keep_execRotationStep (s : State) (h_s : Kept pq s) : KeptX pq (execRotationStep s) := by
  unfold execRotationStep
  repeat' (with_reducible first | assumption | fail_if_no_progress beta_reduce | apply keep_rotationStep | apply Kept.ite | apply KeptX.next | apply KeptX.ite | intro _)

theorem keep_execCalibrationEnd (n : Fin 28) (r : CalRun) (s : State) (h_s : Kept pq s) : KeptX pq (execCalibrationEnd n r s) := by
  unfold execCalibrationEnd
  repeat' (with_reducible first | assumption | fail_if_no_progress beta_reduce | apply keep_calibrationEnd | apply Kept.ite | apply KeptX.next | apply KeptX.ite | intro _)

theorem keep_execCalageCheck (s : State) (h_s : Kept pq s) : KeptX pq (execCalageCheck s) := by
  unfold execCalageCheck
  repeat' (with_reducible first | assumption | fail_if_no_progress beta_reduce | apply keep_calAgeCheck | apply Kept.ite | apply KeptX.next | apply KeptX.ite | intro _)

theorem keep_execComparatorOut (i : Fin 24) (hard : Bool) (s : State) (v : BitVec 16) (h_s : Kept pq s) : KeptX pq (execComparatorOut i hard s v) := by
  unfold execComparatorOut
  repeat' (with_reducible first | assumption | fail_if_no_progress beta_reduce | apply keep_comparatorSet | apply Kept.ite | apply KeptX.next)

theorem keep_execComparatorIn (i : Fin 24) (hard : Bool) (s : State) (v : BitVec 16) (h_s : Kept pq s) : KeptX pq (execComparatorIn i hard s v) := by
  unfold execComparatorIn
  repeat' (with_reducible first | assumption | fail_if_no_progress beta_reduce | apply keep_comparatorSet | apply Kept.ite | apply KeptX.next)

theorem keep_execTripInputActive (t : Fin 4) (s : State) (n : BitVec 16) (h_s : Kept pq s) : KeptX pq (execTripInputActive t s n) := by
  unfold execTripInputActive
  repeat' (with_reducible first | assumption | fail_if_no_progress beta_reduce | apply keep_tripSet | apply Kept.ite | apply KeptX.next)

theorem keep_execTripInputInactive (t : Fin 4) (s : State) (n : BitVec 16) (h_s : Kept pq s) : KeptX pq (execTripInputInactive t s n) := by
  unfold execTripInputInactive
  repeat' (with_reducible first | assumption | fail_if_no_progress beta_reduce | apply keep_tripSet | apply Kept.ite | apply KeptX.next)

theorem keep_execComparatorSweep (i : Fin 24) (hard : Bool) (s : State) (h_s : Kept pq s) : KeptX pq (execComparatorSweep i hard s) := by
  unfold execComparatorSweep
  repeat' (with_reducible first | assumption | fail_if_no_progress beta_reduce | apply keep_sweepStart | apply Kept.ite | apply KeptX.next)

theorem keep_execSweepStep (crossed : Bool) (s : State) (h_s : Kept pq s) : KeptX pq (execSweepStep crossed s) := by
  unfold execSweepStep
  repeat' (with_reducible first | assumption | fail_if_no_progress beta_reduce | apply keep_sweepStep | apply Kept.ite | apply KeptX.next | apply KeptX.ite | intro _)

end Sys2Proof.Machine
end

