-- ==== Sys2Proof/Laws/KeepSaddler.lean ====
section
/-! SUPPORT. What the functions of `Saddler` keep: the queue, and the canonical form of memory and registers. -/

namespace Sys2Proof.Machine

variable {pq : List Instr}

theorem keep_headerRefresh (n : Nat) (s : State) (h_s : Kept pq s) : Kept pq (headerRefresh n s) := by
  unfold headerRefresh
  repeat' (with_reducible first | assumption | fail_if_no_progress beta_reduce | apply keep_bankWrite)

theorem keep_reserveCheck (s : State) (h_s : Kept pq s) : Kept pq (reserveCheck s) := by
  unfold reserveCheck
  repeat'
    with_reducible first
    | assumption | intro _
    | extract_lets -underBinder +onlyGivenNames x
      first
        | have hx : Kept pq x := by
            try dsimp only [x]
            repeat' (with_reducible first | assumption | fail_if_no_progress beta_reduce | apply keep_setRgBit)
        | skip
      try clear_value x
    | fail_if_no_progress beta_reduce | apply keep_setRgBit | apply keep_sadlNotice | apply keep_journal | apply Kept.ite

theorem keep_setAcPhase (n g start agent : Nat) (s : State) (h_s : Kept pq s) : Kept pq (setAcPhase n g start agent s) := by
  unfold setAcPhase
  repeat' (with_reducible first | assumption | fail_if_no_progress beta_reduce | apply keep_setRg | apply keep_saddlerPhase | apply Kept.ite | intro _ | fail_if_no_progress (apply Kept.upd) | split)

theorem keep_bindBank (key n : Nat) (second : Bool) (s : State) (h_s : Kept pq s) : Kept pq (bindBank key n second s) := by
  unfold bindBank
  repeat' (with_reducible first | assumption | fail_if_no_progress beta_reduce | apply keep_setBank)

theorem keep_imageOf (n : Nat) (s : State) (h_s : Kept pq s) : KeptR pq (imageOf n s) := by
  unfold imageOf
  repeat' (with_reducible first | assumption | fail_if_no_progress beta_reduce | apply keep_agentRead)

theorem keep_fillBank (key : Nat) (img : List Byte) (s : State) (h_s : Kept pq s) : Kept pq (fillBank key img s) := by
  unfold fillBank
  repeat' (with_reducible first | assumption | fail_if_no_progress beta_reduce | apply keep_agentWrite | apply Kept.ite | fail_if_no_progress (apply KeptR.mk <;> try apply Kept.of2) | apply Kept.of2)

theorem keep_dropFault (key : Nat) (s : State) (h_s : Kept pq s) : Kept pq (dropFault key s) := by
  unfold dropFault
  repeat' (with_reducible first | assumption | fail_if_no_progress beta_reduce | apply keep_setCtx | apply Kept.ite | intro _ | fail_if_no_progress (apply Kept.upd) | split)

theorem keep_unbindBank (key : Nat) (s : State) (h_s : Kept pq s) : Kept pq (unbindBank key s) := by
  unfold unbindBank
  repeat' (with_reducible first | assumption | fail_if_no_progress beta_reduce | apply keep_setBank | apply keep_dropFault)

theorem keep_releaseCtx (n agent : Nat) (s : State) (h_s : Kept pq s) : Kept pq (releaseCtx n agent s) := by
  unfold releaseCtx
  repeat'
    with_reducible first
    | assumption | intro _
    | extract_lets -underBinder +onlyGivenNames x
      first
        | have hx : Kept pq x := by
            try dsimp only [x]
            repeat' (with_reducible first | assumption | fail_if_no_progress beta_reduce | apply keep_setCtx | apply keep_journal | apply keep_reserveCheck | apply keep_unbindBank | apply Kept.ite | apply Kept.foldl | intro _)
        | skip
      try clear_value x
    | fail_if_no_progress beta_reduce | apply keep_setCtx | apply keep_journal | apply keep_reserveCheck

theorem keep_cmdDone (code : Nat) (s : State) (h_s : Kept pq s) : Kept pq (cmdDone code s) := by
  unfold cmdDone
  repeat' (with_reducible first | assumption | fail_if_no_progress beta_reduce | apply keep_setRg)

theorem keep_placeRefused (n code : Nat) (s : State) (h_s : Kept pq s) : Kept pq (placeRefused n code s) := by
  unfold placeRefused
  repeat' (with_reducible first | assumption | fail_if_no_progress beta_reduce | apply keep_sadlNotice | apply keep_journal | apply keep_cmdDone)

theorem keep_placeCopy (key n start : Nat) (second : Bool) (img : List Byte) (s : State) (h_s : Kept pq s) : Kept pq (placeCopy key n start second img s) := by
  unfold placeCopy
  repeat' (with_reducible first | assumption | fail_if_no_progress beta_reduce | apply keep_setAcPhase | apply keep_bindBank | apply keep_fillBank)

theorem keep_place (n : Nat) (sec : Bool) (s : State) (h_s : Kept pq s) : Kept pq (place n sec s) := by
  unfold place
  repeat'
    with_reducible first
    | assumption | intro _
    | extract_lets -underBinder +onlyGivenNames x
      first
        | have hx : Kept pq x := by
            try dsimp only [x]
            repeat' (with_reducible first | assumption | fail_if_no_progress beta_reduce | apply keep_setCtx | apply keep_draw | apply keep_journal | apply keep_headerRefresh | apply keep_reserveCheck | apply keep_imageOf | apply keep_cmdDone | apply keep_placeRefused | apply keep_placeCopy | apply hF_fin | apply Kept.ite | fail_if_no_progress (apply KeptR.mk <;> try apply Kept.of2) | apply Kept.of2 | apply Kept.snd (by assumption))
        | have hF_fin : ∀ y0 y1 y2, Kept pq y0 → Kept pq (x y0 y1 y2) := by
            intro y0 y1 y2 hy0
            try dsimp only [x]
            repeat' (with_reducible first | assumption | fail_if_no_progress beta_reduce | apply keep_setCtx | apply keep_draw | apply keep_journal | apply keep_headerRefresh | apply keep_reserveCheck | apply keep_imageOf | apply keep_cmdDone | apply keep_placeRefused | apply keep_placeCopy | apply hF_fin)
        | skip
      try clear_value x
    | fail_if_no_progress beta_reduce | apply keep_setCtx | apply keep_draw | apply keep_journal | apply keep_headerRefresh | apply keep_reserveCheck | apply keep_imageOf | apply keep_cmdDone | apply keep_placeRefused | apply keep_placeCopy | apply hF_fin | apply Kept.ite | fail_if_no_progress (apply KeptR.mk <;> try apply Kept.of2) | apply Kept.of2 | apply Kept.snd (by assumption) | apply KeptR.ite | intro _ | fail_if_no_progress (apply Kept.upd) | split

theorem keep_release (n : Nat) (sec : Bool) (s : State) (h_s : Kept pq s) : Kept pq (release n sec s) := by
  unfold release
  repeat'
    with_reducible first
    | assumption | intro _
    | extract_lets -underBinder +onlyGivenNames x
      first
        | have hx : Kept pq x := by
            try dsimp only [x]
            repeat' (with_reducible first | assumption | fail_if_no_progress beta_reduce | apply keep_setRg | apply keep_setCtx | apply keep_releaseCtx | apply keep_cmdDone | apply Kept.ite | intro _ | fail_if_no_progress (apply Kept.upd) | split | beta_reduce)
        | skip
      try clear_value x
    | fail_if_no_progress beta_reduce | apply keep_setRg | apply keep_setCtx | apply keep_releaseCtx | apply keep_cmdDone | apply Kept.ite

theorem keep_releaseCheck (n : Nat) (s : State) (h_s : Kept pq s) : Kept pq (releaseCheck n s) := by
  unfold releaseCheck
  repeat' (with_reducible first | assumption | fail_if_no_progress beta_reduce | apply keep_releaseCtx | apply keep_cmdDone | apply Kept.ite | intro _)

theorem keep_clearBankFault (key : Nat) (s : State) (h_s : Kept pq s) : Kept pq (clearBankFault key s) := by
  unfold clearBankFault
  repeat'
    with_reducible first
    | assumption | intro _
    | extract_lets -underBinder +onlyGivenNames x
      first
        | have hx : Kept pq x := by
            try dsimp only [x]
            repeat' (with_reducible first | assumption | fail_if_no_progress beta_reduce | apply keep_setBank)
        | skip
      try clear_value x
    | fail_if_no_progress beta_reduce | apply keep_setBank | apply keep_setCtx | apply Kept.ite | intro _ | fail_if_no_progress (apply Kept.upd) | split

theorem keep_clrFault (n : Nat) (sec : Bool) (s : State) (h_s : Kept pq s) : Kept pq (clrFault n sec s) := by
  unfold clrFault
  repeat' (with_reducible first | assumption | fail_if_no_progress beta_reduce | apply keep_cmdDone | apply keep_clearBankFault | apply Kept.ite | apply Kept.foldl | intro _)

theorem keep_codeOf (p : Prog) (s : State) (h_s : Kept pq s) : KeptR pq (codeOf p s) := by
  unfold codeOf
  repeat' (with_reducible first | assumption | fail_if_no_progress beta_reduce | apply keep_agentRead | apply Kept.ite | fail_if_no_progress (apply KeptR.mk <;> try apply Kept.of2) | apply Kept.of2 | apply Kept.snd (by assumption) | apply KeptR.ite | intro _)

theorem keep_entryWrite (i idx : Nat) (entry attr : Word) (s : State) (h_s : Kept pq s) : Kept pq (entryWrite i idx entry attr s) := by
  unfold entryWrite
  repeat' (with_reducible first | assumption | fail_if_no_progress beta_reduce | apply keep_agentWrite | apply Kept.ite | fail_if_no_progress (apply KeptR.mk <;> try apply Kept.of2) | apply Kept.of2)

theorem keep_installIn (i idx : Nat) (p : Prog) (code : List Byte) (s : State) (h_s : Kept pq s) : Kept pq (installIn i idx p code s) := by
  unfold installIn
  repeat'
    with_reducible first
    | assumption | intro _
    | extract_lets -underBinder +onlyGivenNames x
      first
        | have hx : Kept pq x := by
            try dsimp only [x]
            repeat' (with_reducible first | assumption | fail_if_no_progress beta_reduce | apply keep_agentWrite | apply keep_entryWrite | apply Kept.ite | fail_if_no_progress (apply KeptR.mk <;> try apply Kept.of2) | apply Kept.of2 | apply Kept.snd (by assumption) | apply KeptR.ite | intro _)
      try clear_value x
    | fail_if_no_progress beta_reduce | apply keep_agentWrite | apply keep_entryWrite

theorem keep_install (sec : Bool) (s : State) (h_s : Kept pq s) : Kept pq (install sec s) := by
  unfold install
  repeat'
    with_reducible first
    | assumption | intro _
    | extract_lets -underBinder +onlyGivenNames x
      first
        | have hx : Kept pq x := by
            try dsimp only [x]
            repeat' (with_reducible first | assumption | fail_if_no_progress beta_reduce | apply keep_setProg | apply keep_cmdDone | apply keep_codeOf | apply keep_installIn | apply Kept.ite | fail_if_no_progress (apply KeptR.mk <;> try apply Kept.of2) | apply Kept.of2 | apply Kept.snd (by assumption) | apply KeptR.ite | apply Kept.foldl | apply KeptR.foldl | intro _ | fail_if_no_progress (apply Kept.upd) | split | beta_reduce)
        | have hx : KeptR pq x := by
            try dsimp only [x]
            repeat' (with_reducible first | assumption | fail_if_no_progress beta_reduce | apply keep_setProg | apply keep_cmdDone | apply keep_codeOf | apply keep_installIn | apply Kept.ite | fail_if_no_progress (apply KeptR.mk <;> try apply Kept.of2) | apply Kept.of2 | apply Kept.snd (by assumption) | apply KeptR.ite | apply Kept.foldl | apply KeptR.foldl | intro _ | fail_if_no_progress (apply Kept.upd) | split | beta_reduce)
        | skip
      try clear_value x
    | fail_if_no_progress beta_reduce | apply keep_setProg | apply keep_cmdDone | apply keep_codeOf | apply keep_installIn | apply Kept.ite | fail_if_no_progress (apply KeptR.mk <;> try apply Kept.of2) | apply Kept.of2 | apply Kept.snd (by assumption) | apply KeptR.ite | apply Kept.foldl | apply KeptR.foldl | intro _ | fail_if_no_progress (apply Kept.upd) | split

theorem keep_uninstall (idx : Nat) (sec : Bool) (s : State) (h_s : Kept pq s) : Kept pq (uninstall idx sec s) := by
  unfold uninstall
  repeat' (with_reducible first | assumption | fail_if_no_progress beta_reduce | apply keep_setProg | apply keep_cmdDone | apply keep_entryWrite | apply Kept.ite | apply Kept.foldl | intro _ | fail_if_no_progress (apply Kept.upd) | split)

theorem keep_sadlCmd (m : Master) (v : Word) (s : State) (h_s : Kept pq s) : KeptR pq (sadlCmd m v s) := by
  unfold sadlCmd
  repeat'
    with_reducible first
    | assumption | intro _
    | extract_lets -underBinder +onlyGivenNames x
      first
        | have hx : Kept pq x := by
            try dsimp only [x]
            repeat' (with_reducible first | assumption | fail_if_no_progress beta_reduce | apply keep_cmdDone | apply keep_place | apply keep_release | apply keep_clrFault | apply keep_install | apply keep_uninstall | apply Kept.ite | fail_if_no_progress (apply KeptR.mk <;> try apply Kept.of2) | apply Kept.of2 | apply Kept.snd (by assumption) | apply KeptR.ite | intro _ | fail_if_no_progress (apply Kept.upd) | split | beta_reduce)
        | skip
      try clear_value x
    | fail_if_no_progress beta_reduce | apply keep_cmdDone | apply keep_place | apply keep_release | apply keep_clrFault | apply keep_install | apply keep_uninstall | apply Kept.ite | fail_if_no_progress (apply KeptR.mk <;> try apply Kept.of2) | apply Kept.of2 | apply Kept.snd (by assumption) | apply KeptR.ite | intro _ | fail_if_no_progress (apply Kept.upd) | split

theorem keep_islClrFlt (m : Master) (i : Nat) (v : Word) (s : State) (h_s : Kept pq s) : KeptR pq (islClrFlt m i v s) := by
  unfold islClrFlt
  repeat'
    with_reducible first
    | assumption | intro _
    | extract_lets -underBinder +onlyGivenNames x
      first
        | have hx : Kept pq x := by
            try dsimp only [x]
            repeat' (with_reducible first | assumption | fail_if_no_progress beta_reduce | apply keep_clearBankFault | apply Kept.ite | fail_if_no_progress (apply KeptR.mk <;> try apply Kept.of2) | apply Kept.of2 | apply Kept.snd (by assumption) | apply KeptR.ite | intro _ | fail_if_no_progress (apply Kept.upd) | split | beta_reduce)
        | skip
      try clear_value x
    | fail_if_no_progress beta_reduce | apply keep_clearBankFault | apply Kept.ite | fail_if_no_progress (apply KeptR.mk <;> try apply Kept.of2) | apply Kept.of2 | apply Kept.snd (by assumption) | apply KeptR.ite

theorem keep_loadProfile (i : Nat) (s : State) (h_s : Kept pq s) : Kept pq (loadProfile i s) := by
  unfold loadProfile
  repeat'
    with_reducible first
    | assumption | intro _
    | extract_lets -underBinder +onlyGivenNames x
      first
        | have hx : Kept pq x := by
            try dsimp only [x]
            repeat' (with_reducible first | assumption | fail_if_no_progress beta_reduce | apply keep_setEl | apply Kept.ite | apply Kept.foldl | intro _ | fail_if_no_progress (apply Kept.upd) | split | beta_reduce)
        | skip
      try clear_value x
    | fail_if_no_progress beta_reduce | apply keep_setEl | apply Kept.ite | apply Kept.foldl

theorem keep_bankFault (key cause : Nat) (w1 w2 : Word) (s : State) (h_s : Kept pq s) : Kept pq (bankFault key cause w1 w2 s) := by
  unfold bankFault
  repeat'
    with_reducible first
    | assumption | intro _
    | extract_lets -underBinder +onlyGivenNames x
      first
        | have hx : Kept pq x := by
            try dsimp only [x]
            repeat' (with_reducible first | assumption | fail_if_no_progress beta_reduce | apply keep_setBank | apply keep_setCtx | apply keep_bump | apply keep_timePort | apply keep_store | apply keep_sadlNotice | apply keep_journal | apply keep_axisSafe | apply keep_faultRecord | apply Kept.ite | fail_if_no_progress (apply KeptR.mk <;> try apply Kept.of2) | apply Kept.of2 | apply Kept.snd (by assumption) | apply KeptR.ite | intro _ | fail_if_no_progress (apply Kept.upd) | split | beta_reduce)
        | skip
      try clear_value x
    | fail_if_no_progress beta_reduce | apply keep_setBank | apply keep_setCtx | apply keep_bump | apply keep_timePort | apply keep_store | apply keep_sadlNotice | apply keep_journal | apply keep_axisSafe | apply keep_faultRecord | apply Kept.ite | fail_if_no_progress (apply KeptR.mk <;> try apply Kept.of2) | apply Kept.of2 | apply Kept.snd (by assumption) | apply KeptR.ite | intro _ | fail_if_no_progress (apply Kept.upd) | split

theorem keep_quietOver (a : Nat) (s : State) (h_s : Kept pq s) : Kept pq (quietOver a s) := by
  unfold quietOver
  repeat' (with_reducible first | assumption | fail_if_no_progress beta_reduce | apply keep_setAx | apply keep_journal | apply keep_headerRefresh)

theorem keep_quietWrite (a : Nat) (v : Word) (s : State) (h_s : Kept pq s) : KeptR pq (quietWrite a v s) := by
  unfold quietWrite
  repeat'
    with_reducible first
    | assumption | intro _
    | extract_lets -underBinder +onlyGivenNames x
      first
        | have hx : Kept pq x := by
            try dsimp only [x]
            repeat' (with_reducible first | assumption | fail_if_no_progress beta_reduce | apply keep_setAx | apply keep_axst | apply keep_sadlNotice | apply keep_journal | apply keep_headerRefresh | apply keep_quietOver | apply keep_quietEnd | apply Kept.ite | fail_if_no_progress (apply KeptR.mk <;> try apply Kept.of2) | apply Kept.of2 | apply Kept.snd (by assumption) | apply KeptR.ite | intro _ | fail_if_no_progress (apply Kept.upd) | split | beta_reduce)
        | skip
      try clear_value x
    | fail_if_no_progress beta_reduce | apply keep_setAx | apply keep_axst | apply keep_sadlNotice | apply keep_journal | apply keep_headerRefresh | apply keep_quietOver | apply keep_quietEnd | apply Kept.ite | fail_if_no_progress (apply KeptR.mk <;> try apply Kept.of2) | apply Kept.of2 | apply Kept.snd (by assumption) | apply KeptR.ite | intro _ | fail_if_no_progress (apply Kept.upd) | split

theorem keep_quietEnd (a : Nat) (s : State) (h_s : Kept pq s) : Kept pq (quietEnd a s) := by
  unfold quietEnd
  repeat'
    with_reducible first
    | assumption | intro _
    | extract_lets -underBinder +onlyGivenNames x
      first
        | have hx : Kept pq x := by
            try dsimp only [x]
            repeat' (with_reducible first | assumption | fail_if_no_progress beta_reduce | apply keep_setAx | apply keep_quietOver | apply Kept.ite | intro _ | fail_if_no_progress (apply Kept.upd) | split | beta_reduce)
        | skip
      try clear_value x
    | fail_if_no_progress beta_reduce | apply keep_setAx | apply keep_quietOver | apply Kept.ite | intro _ | fail_if_no_progress (apply Kept.upd) | split

theorem keep_sadlWrite (m : Master) (o : Nat) (v : Word) (s : State) (h_s : Kept pq s) : KeptR pq (sadlWrite m o v s) := by
  unfold sadlWrite
  repeat'
    with_reducible first
    | assumption | intro _
    | extract_lets -underBinder +onlyGivenNames x
      first
        | have hx : Kept pq x := by
            try dsimp only [x]
            repeat' (with_reducible first | assumption | fail_if_no_progress beta_reduce | apply keep_setRgFld | apply keep_plainWrite)
        | skip
      try clear_value x
    | fail_if_no_progress beta_reduce | apply keep_setRgFld | apply keep_plainWrite | apply keep_sadlCmd | apply keep_quietWrite | apply Kept.ite | fail_if_no_progress (apply KeptR.mk <;> try apply Kept.of2) | apply Kept.of2 | apply Kept.snd (by assumption) | apply KeptR.ite

theorem keep_execPlace (m : Master) (n : Fin 256) (s : State) (h_s : Kept pq s) : KeptX pq (execPlace m n s) := by
  unfold execPlace
  repeat' (with_reducible first | assumption | fail_if_no_progress beta_reduce | apply keep_regAccess | apply keep_sadlCmd | apply Kept.ite | fail_if_no_progress (apply KeptR.mk <;> try apply Kept.of2) | apply Kept.of2 | apply Kept.snd (by assumption) | apply KeptR.ite | apply KeptX.next)

theorem keep_execRelease (m : Master) (n : Fin 256) (s : State) (h_s : Kept pq s) : KeptX pq (execRelease m n s) := by
  unfold execRelease
  repeat' (with_reducible first | assumption | fail_if_no_progress beta_reduce | apply keep_regAccess | apply keep_sadlCmd | apply Kept.ite | fail_if_no_progress (apply KeptR.mk <;> try apply Kept.of2) | apply Kept.of2 | apply Kept.snd (by assumption) | apply KeptR.ite | apply KeptX.next)

theorem keep_execClrfault (m : Master) (n : Fin 256) (s : State) (h_s : Kept pq s) : KeptX pq (execClrfault m n s) := by
  unfold execClrfault
  repeat' (with_reducible first | assumption | fail_if_no_progress beta_reduce | apply keep_regAccess | apply keep_sadlCmd | apply Kept.ite | fail_if_no_progress (apply KeptR.mk <;> try apply Kept.of2) | apply Kept.of2 | apply Kept.snd (by assumption) | apply KeptR.ite | apply KeptX.next)

theorem keep_execInstall (m : Master) (s : State) (h_s : Kept pq s) : KeptX pq (execInstall m s) := by
  unfold execInstall
  repeat' (with_reducible first | assumption | fail_if_no_progress beta_reduce | apply keep_regAccess | apply keep_sadlCmd | apply Kept.ite | fail_if_no_progress (apply KeptR.mk <;> try apply Kept.of2) | apply Kept.of2 | apply Kept.snd (by assumption) | apply KeptR.ite | apply KeptX.next)

theorem keep_execUninstall (m : Master) (n : Fin 256) (s : State) (h_s : Kept pq s) : KeptX pq (execUninstall m n s) := by
  unfold execUninstall
  repeat' (with_reducible first | assumption | fail_if_no_progress beta_reduce | apply keep_regAccess | apply keep_sadlCmd | apply Kept.ite | fail_if_no_progress (apply KeptR.mk <;> try apply Kept.of2) | apply Kept.of2 | apply Kept.snd (by assumption) | apply KeptR.ite | apply KeptX.next)

theorem keep_execIslClrflt (m : Master) (i : Fin 8) (v : Word) (s : State) (h_s : Kept pq s) : KeptX pq (execIslClrflt m i v s) := by
  unfold execIslClrflt
  repeat' (with_reducible first | assumption | fail_if_no_progress beta_reduce | apply keep_regAccess | apply keep_islClrFlt | apply Kept.ite | fail_if_no_progress (apply KeptR.mk <;> try apply Kept.of2) | apply Kept.of2 | apply Kept.snd (by assumption) | apply KeptR.ite | apply KeptX.next)

theorem keep_execQuietRequest (m : Master) (a : Fin 128) (v : Word) (s : State) (h_s : Kept pq s) : KeptX pq (execQuietRequest m a v s) := by
  unfold execQuietRequest
  repeat' (with_reducible first | assumption | fail_if_no_progress beta_reduce | apply keep_regAccess | apply keep_quietWrite | apply Kept.ite | fail_if_no_progress (apply KeptR.mk <;> try apply Kept.of2) | apply Kept.of2 | apply Kept.snd (by assumption) | apply KeptR.ite | apply KeptX.next)

theorem keep_execQuietEnd (a : Fin 128) (s : State) (h_s : Kept pq s) : KeptX pq (execQuietEnd a s) := by
  unfold execQuietEnd
  repeat' (with_reducible first | assumption | fail_if_no_progress beta_reduce | apply keep_quietEnd | apply Kept.ite | apply KeptX.next)

end Sys2Proof.Machine
end

