-- ==== Sys2Proof/Laws/KeepTime.lean ====
section
/-! SUPPORT. What the functions of `Time` keep: the queue, and the canonical form of memory and registers. -/

namespace Sys2Proof.Machine

variable {pq : List Instr}

theorem keep_slotLoWrite (m : Master) (n : Nat) (v : Word) (s : State) (h_s : Kept pq s) : KeptR pq (slotLoWrite m n v s) := by
  unfold slotLoWrite
  repeat' (with_reducible first | assumption | fail_if_no_progress beta_reduce | apply keep_setSlot | apply Kept.ite | fail_if_no_progress (apply KeptR.mk <;> try apply Kept.of2) | apply Kept.of2 | apply Kept.snd (by assumption) | apply KeptR.ite | intro _)

theorem keep_slotHiWrite (m : Master) (n : Nat) (v : Word) (s : State) (h_s : Kept pq s) : KeptR pq (slotHiWrite m n v s) := by
  unfold slotHiWrite
  repeat' (with_reducible first | assumption | fail_if_no_progress beta_reduce | apply keep_setSlot | apply Kept.ite | fail_if_no_progress (apply KeptR.mk <;> try apply Kept.of2) | apply Kept.of2 | apply Kept.snd (by assumption) | apply KeptR.ite | intro _)

theorem keep_slotPerWrite (m : Master) (n : Nat) (v : Word) (s : State) (h_s : Kept pq s) : KeptR pq (slotPerWrite m n v s) := by
  unfold slotPerWrite
  repeat' (with_reducible first | assumption | fail_if_no_progress beta_reduce | apply keep_setSlot | apply Kept.ite | fail_if_no_progress (apply KeptR.mk <;> try apply Kept.of2) | apply Kept.of2 | apply Kept.snd (by assumption) | apply KeptR.ite | intro _)

theorem keep_slotCtrlWrite (m : Master) (n : Nat) (v : Word) (s : State) (h_s : Kept pq s) : KeptR pq (slotCtrlWrite m n v s) := by
  unfold slotCtrlWrite
  repeat'
    with_reducible first
    | assumption | intro _
    | extract_lets -underBinder +onlyGivenNames x
      first
        | have hx : Kept pq x := by
            try dsimp only [x]
            repeat' (with_reducible first | assumption | fail_if_no_progress beta_reduce | apply keep_setRgBit | apply keep_setSlot | apply keep_plainWrite)
        | skip
      try clear_value x
    | fail_if_no_progress beta_reduce | apply keep_setRgBit | apply keep_setSlot | apply keep_plainWrite | apply Kept.ite | fail_if_no_progress (apply KeptR.mk <;> try apply Kept.of2) | apply Kept.of2 | apply Kept.snd (by assumption) | apply KeptR.ite

theorem keep_triggerSlot (n : Nat) (s : State) (h_s : Kept pq s) : Kept pq (triggerSlot n s) := by
  unfold triggerSlot
  repeat'
    with_reducible first
    | assumption | intro _
    | extract_lets -underBinder +onlyGivenNames x
      first
        | have hx : Kept pq x := by
            try dsimp only [x]
            repeat' (with_reducible first | assumption | fail_if_no_progress beta_reduce | apply keep_setFb | apply keep_setSenc | apply keep_setGirth | apply Kept.ite | apply Kept.foldl | intro _)
        | skip
      try clear_value x
    | fail_if_no_progress beta_reduce | apply keep_setFb | apply keep_setSenc | apply keep_setGirth | apply Kept.ite | apply Kept.foldl

theorem keep_slotFire (n : Nat) (s : State) (h_s : Kept pq s) : Kept pq (slotFire n s) := by
  unfold slotFire
  repeat'
    with_reducible first
    | assumption | intro _
    | extract_lets -underBinder +onlyGivenNames x
      first
        | have hx : Kept pq x := by
            try dsimp only [x]
            repeat' (with_reducible first | assumption | fail_if_no_progress beta_reduce | apply keep_setRgBit | apply keep_setSlot | apply keep_raiseEvent | apply keep_triggerSlot | apply Kept.ite | intro _)
        | skip
      try clear_value x
    | fail_if_no_progress beta_reduce | apply keep_setRgBit | apply keep_setSlot | apply keep_raiseEvent | apply keep_triggerSlot | apply Kept.ite

theorem keep_execSlotLoWrite (m : Master) (n : Fin 256) (v : Word) (s : State) (h_s : Kept pq s) : KeptX pq (execSlotLoWrite m n v s) := by
  unfold execSlotLoWrite
  repeat' (with_reducible first | assumption | fail_if_no_progress beta_reduce | apply keep_regAccess | apply keep_slotLoWrite | apply Kept.ite | fail_if_no_progress (apply KeptR.mk <;> try apply Kept.of2) | apply Kept.of2 | apply Kept.snd (by assumption) | apply KeptR.ite | apply KeptX.next)

theorem keep_execSlotHiWrite (m : Master) (n : Fin 256) (v : Word) (s : State) (h_s : Kept pq s) : KeptX pq (execSlotHiWrite m n v s) := by
  unfold execSlotHiWrite
  repeat' (with_reducible first | assumption | fail_if_no_progress beta_reduce | apply keep_regAccess | apply keep_slotHiWrite | apply Kept.ite | fail_if_no_progress (apply KeptR.mk <;> try apply Kept.of2) | apply Kept.of2 | apply Kept.snd (by assumption) | apply KeptR.ite | apply KeptX.next)

theorem keep_execSlotPerWrite (m : Master) (n : Fin 256) (v : Word) (s : State) (h_s : Kept pq s) : KeptX pq (execSlotPerWrite m n v s) := by
  unfold execSlotPerWrite
  repeat' (with_reducible first | assumption | fail_if_no_progress beta_reduce | apply keep_regAccess | apply keep_slotPerWrite | apply Kept.ite | fail_if_no_progress (apply KeptR.mk <;> try apply Kept.of2) | apply Kept.of2 | apply Kept.snd (by assumption) | apply KeptR.ite | apply KeptX.next)

theorem keep_execSlotCtrlWrite (m : Master) (n : Fin 256) (v : Word) (s : State) (h_s : Kept pq s) : KeptX pq (execSlotCtrlWrite m n v s) := by
  unfold execSlotCtrlWrite
  repeat' (with_reducible first | assumption | fail_if_no_progress beta_reduce | apply keep_regAccess | apply keep_slotCtrlWrite | apply Kept.ite | fail_if_no_progress (apply KeptR.mk <;> try apply Kept.of2) | apply Kept.of2 | apply Kept.snd (by assumption) | apply KeptR.ite | apply KeptX.next)

theorem keep_execSlotFire (n : Fin 256) (s : State) (h_s : Kept pq s) : KeptX pq (execSlotFire n s) := by
  unfold execSlotFire
  repeat' (with_reducible first | assumption | fail_if_no_progress beta_reduce | apply keep_slotFire | apply Kept.ite | apply KeptX.next | apply KeptX.ite | intro _)

theorem keep_timerCtrlWrite (n : Nat) (v : Word) (sec : Bool) (s : State) (h_s : Kept pq s) : KeptR pq (timerCtrlWrite n v sec s) := by
  unfold timerCtrlWrite
  repeat'
    with_reducible first
    | assumption | intro _
    | extract_lets -underBinder +onlyGivenNames x
      first
        | have hx : Kept pq x := by
            try dsimp only [x]
            repeat' (with_reducible first | assumption | fail_if_no_progress beta_reduce | apply keep_setRgBit | apply keep_plainWrite)
        | skip
      try clear_value x
    | fail_if_no_progress beta_reduce | apply keep_setRgBit | apply keep_plainWrite | apply keep_timerStart | apply Kept.ite | fail_if_no_progress (apply KeptR.mk <;> try apply Kept.of2) | apply Kept.of2 | apply Kept.snd (by assumption) | apply KeptR.ite

theorem keep_timerCcWrite (n k : Nat) (v : Word) (s : State) (h_s : Kept pq s) : KeptR pq (timerCcWrite n k v s) := by
  unfold timerCcWrite
  repeat'
    with_reducible first
    | assumption | intro _
    | extract_lets -underBinder +onlyGivenNames x
      first
        | have hx : Kept pq x := by
            try dsimp only [x]
            repeat' (with_reducible first | assumption | fail_if_no_progress beta_reduce | apply keep_setRg)
        | skip
      try clear_value x
    | fail_if_no_progress beta_reduce | apply keep_setRg | apply keep_setTimer | apply Kept.ite | fail_if_no_progress (apply KeptR.mk <;> try apply Kept.of2)

theorem keep_timerZero (n : Nat) (s : State) (h_s : Kept pq s) : Kept pq (timerZero n s) := by
  unfold timerZero
  repeat'
    with_reducible first
    | assumption | intro _
    | extract_lets -underBinder +onlyGivenNames x
      first
        | have hx : Kept pq x := by
            try dsimp only [x]
            repeat' (with_reducible first | assumption | fail_if_no_progress beta_reduce | apply keep_setRgBit | apply keep_setTimer | apply keep_raiseEvent | apply Kept.ite | intro _)
        | skip
      try clear_value x
    | fail_if_no_progress beta_reduce | apply keep_setRgBit | apply keep_setTimer

theorem keep_channelFire (n k : Nat) (s : State) (h_s : Kept pq s) : Kept pq (channelFire n k s) := by
  unfold channelFire
  repeat'
    with_reducible first
    | assumption | intro _
    | extract_lets -underBinder +onlyGivenNames x
      first
        | have hx : Kept pq x := by
            try dsimp only [x]
            repeat' (with_reducible first | assumption | fail_if_no_progress beta_reduce | apply keep_setRgBit | apply keep_setTimer | apply keep_raiseEvent)
        | skip
      try clear_value x
    | fail_if_no_progress beta_reduce | apply keep_setRgBit | apply keep_setTimer

theorem keep_execTimerEnable (m : Master) (n : Fin 64) (v : Word) (s : State) (h_s : Kept pq s) : KeptX pq (execTimerEnable m n v s) := by
  unfold execTimerEnable
  repeat' (with_reducible first | assumption | fail_if_no_progress beta_reduce | apply keep_regAccess | apply keep_timerCtrlWrite | apply Kept.ite | fail_if_no_progress (apply KeptR.mk <;> try apply Kept.of2) | apply Kept.of2 | apply Kept.snd (by assumption) | apply KeptR.ite | apply KeptX.next)

theorem keep_execTimerCcWrite (m : Master) (n : Fin 64) (k : Fin 4) (v : Word) (s : State) (h_s : Kept pq s) : KeptX pq (execTimerCcWrite m n k v s) := by
  unfold execTimerCcWrite
  repeat' (with_reducible first | assumption | fail_if_no_progress beta_reduce | apply keep_regAccess | apply keep_timerCcWrite | apply Kept.ite | fail_if_no_progress (apply KeptR.mk <;> try apply Kept.of2) | apply Kept.of2 | apply Kept.snd (by assumption) | apply KeptR.ite | apply KeptX.next)

theorem keep_execTimerZero (n : Fin 64) (s : State) (h_s : Kept pq s) : KeptX pq (execTimerZero n s) := by
  unfold execTimerZero
  repeat' (with_reducible first | assumption | fail_if_no_progress beta_reduce | apply keep_timerZero | apply Kept.ite | apply KeptX.next | apply KeptX.ite | intro _)

theorem keep_execTimerChannelFire (n : Fin 64) (k : Fin 4) (s : State) (h_s : Kept pq s) : KeptX pq (execTimerChannelFire n k s) := by
  unfold execTimerChannelFire
  repeat' (with_reducible first | assumption | fail_if_no_progress beta_reduce | apply keep_channelFire | apply Kept.ite | apply KeptX.next | apply KeptX.ite | intro _)

theorem keep_timerPrescale (n : Nat) (s : State) (h_s : Kept pq s) : Kept pq (timerPrescale n s) := by
  unfold timerPrescale
  repeat'
    with_reducible first
    | assumption | intro _
    | extract_lets -underBinder +onlyGivenNames x
      first
        | have hx : Kept pq x := by
            try dsimp only [x]
            repeat' (with_reducible first | assumption | fail_if_no_progress beta_reduce | apply keep_setTimer | apply keep_timerTick | apply Kept.ite | intro _ | fail_if_no_progress (apply Kept.upd) | split | beta_reduce)
        | skip
      try clear_value x
    | fail_if_no_progress beta_reduce | apply keep_setTimer | apply keep_timerTick | apply Kept.ite

theorem keep_swtrigWrite (v : Word) (s : State) (h_s : Kept pq s) : KeptR pq (swtrigWrite v s) := by
  unfold swtrigWrite
  repeat'
    with_reducible first
    | assumption | intro _
    | extract_lets -underBinder +onlyGivenNames x
      first
        | have hx : Kept pq x := by
            try dsimp only [x]
            repeat' (with_reducible first | assumption | fail_if_no_progress beta_reduce | apply keep_raiseEvent | apply Kept.ite | fail_if_no_progress (apply KeptR.mk <;> try apply Kept.of2) | apply Kept.of2 | apply Kept.snd (by assumption) | apply KeptR.ite | intro _ | fail_if_no_progress (apply Kept.upd) | split | beta_reduce)
        | skip
      try clear_value x
    | fail_if_no_progress beta_reduce | apply keep_raiseEvent | apply Kept.ite | fail_if_no_progress (apply KeptR.mk <;> try apply Kept.of2) | apply Kept.of2 | apply Kept.snd (by assumption) | apply KeptR.ite

theorem keep_routeWrite (m : Master) (n : Nat) (v : Word) (s : State) (h_s : Kept pq s) : KeptR pq (routeWrite m n v s) := by
  unfold routeWrite
  repeat' (with_reducible first | assumption | fail_if_no_progress beta_reduce | apply keep_plainWrite | apply Kept.ite | fail_if_no_progress (apply KeptR.mk <;> try apply Kept.of2) | apply Kept.of2 | apply Kept.snd (by assumption) | apply KeptR.ite | intro _)

theorem keep_execSwtrig (m : Master) (v : Word) (s : State) (h_s : Kept pq s) : KeptX pq (execSwtrig m v s) := by
  unfold execSwtrig
  repeat' (with_reducible first | assumption | fail_if_no_progress beta_reduce | apply keep_regAccess | apply keep_swtrigWrite | apply Kept.ite | fail_if_no_progress (apply KeptR.mk <;> try apply Kept.of2) | apply Kept.of2 | apply Kept.snd (by assumption) | apply KeptR.ite | apply KeptX.next)

theorem keep_execEventDelivery (is : List Nat) (s : State) (cycles : List (Nat × Nat)) (h_s : Kept pq s) : KeptX pq (execEventDelivery is s cycles) := by
  unfold execEventDelivery
  repeat' (with_reducible first | assumption | fail_if_no_progress beta_reduce | apply keep_deliver | apply Kept.ite | apply KeptX.next)

theorem keep_execTimerActionStart (is : List Nat) (s : State) (h_s : Kept pq s) : KeptX pq (execTimerActionStart is s) := by
  unfold execTimerActionStart
  repeat' (with_reducible first | assumption | fail_if_no_progress beta_reduce | apply keep_deliver | apply Kept.ite | apply KeptX.next)

theorem keep_execTimerActionStop (is : List Nat) (s : State) (h_s : Kept pq s) : KeptX pq (execTimerActionStop is s) := by
  unfold execTimerActionStop
  repeat' (with_reducible first | assumption | fail_if_no_progress beta_reduce | apply keep_deliver | apply Kept.ite | apply KeptX.next)

theorem keep_execTimerActionCapture (is : List Nat) (s : State) (h_s : Kept pq s) : KeptX pq (execTimerActionCapture is s) := by
  unfold execTimerActionCapture
  repeat' (with_reducible first | assumption | fail_if_no_progress beta_reduce | apply keep_deliver | apply Kept.ite | apply KeptX.next)

theorem keep_execTimerActionCount (is : List Nat) (s : State) (h_s : Kept pq s) : KeptX pq (execTimerActionCount is s) := by
  unfold execTimerActionCount
  repeat' (with_reducible first | assumption | fail_if_no_progress beta_reduce | apply keep_deliver | apply Kept.ite | apply KeptX.next)

theorem keep_execSelvedgeCapture (is : List Nat) (s : State) (h_s : Kept pq s) : KeptX pq (execSelvedgeCapture is s) := by
  unfold execSelvedgeCapture
  repeat' (with_reducible first | assumption | fail_if_no_progress beta_reduce | apply keep_deliver | apply Kept.ite | apply KeptX.next)

theorem keep_slowmeasTake (s : State) (h_s : Kept pq s) : Kept pq (slowmeasTake s) := by
  unfold slowmeasTake
  repeat'
    with_reducible first
    | assumption | intro _
    | extract_lets -underBinder +onlyGivenNames x
      first
        | have hx : Kept pq x := by
            try dsimp only [x]
            repeat' (with_reducible first | assumption | fail_if_no_progress beta_reduce | apply keep_setRg | apply keep_setRgBit | apply Kept.ite | intro _ | fail_if_no_progress (apply Kept.upd))
        | skip
      try clear_value x
    | fail_if_no_progress beta_reduce | apply keep_setRg | apply keep_setRgBit | apply Kept.ite

theorem keep_execSlowmeasUpdate (s : State) (h_s : Kept pq s) : KeptX pq (execSlowmeasUpdate s) := by
  unfold execSlowmeasUpdate
  repeat' (with_reducible first | assumption | fail_if_no_progress beta_reduce | apply keep_slowmeasTake | apply Kept.ite | apply KeptX.next | apply KeptX.ite | intro _)

theorem keep_selvedgeSuspend (s : State) (h_s : Kept pq s) : Kept pq (selvedgeSuspend s) := by
  unfold selvedgeSuspend
  repeat' (with_reducible first | assumption | fail_if_no_progress beta_reduce | apply Kept.ite | intro _ | fail_if_no_progress (apply Kept.upd))

theorem keep_selvedgeRestore (slowTicks : Nat) (s : State) (h_s : Kept pq s) : Kept pq (selvedgeRestore slowTicks s) := by
  unfold selvedgeRestore
  repeat'
    with_reducible first
    | assumption | intro _
    | extract_lets -underBinder +onlyGivenNames x
      first
        | have hx : Kept pq x := by
            try dsimp only [x]
            repeat' (with_reducible first | assumption | fail_if_no_progress beta_reduce | apply keep_setRg)
        | skip
      try clear_value x
    | fail_if_no_progress beta_reduce | apply keep_setRg | apply Kept.ite | intro _ | fail_if_no_progress (apply Kept.upd)

end Sys2Proof.Machine
end

