-- ==== Sys2Proof/Laws/KeepMigrate.lean ====
section
/-! SUPPORT. What the functions of `Migrate` keep: the queue, and the canonical form of memory and registers. -/

namespace Sys2Proof.Machine

variable {pq : List Instr}

theorem keep_orderMig (n src dst agent : Nat) (s : State) (h_s : Kept pq s) : Kept pq (orderMig n src dst agent s) := by
  unfold orderMig
  repeat'
    with_reducible first
    | assumption | intro _
    | extract_lets -underBinder +onlyGivenNames x
      first
        | have hx : Kept pq x := by
            try dsimp only [x]
            repeat' (with_reducible first | assumption | fail_if_no_progress beta_reduce | apply keep_setCtx | apply Kept.ite | intro _ | fail_if_no_progress (apply Kept.upd) | split | beta_reduce)
        | skip
      try clear_value x
    | fail_if_no_progress beta_reduce | apply keep_setCtx | apply Kept.ite

theorem keep_holdBank (key : Nat) (held : Bool) (s : State) (h_s : Kept pq s) : Kept pq (holdBank key held s) := by
  unfold holdBank
  repeat' (with_reducible first | assumption | fail_if_no_progress beta_reduce | apply keep_setBank)

theorem keep_undoMig (m : Mig) (s : State) (h_s : Kept pq s) : Kept pq (undoMig m s) := by
  unfold undoMig
  repeat'
    with_reducible first
    | assumption | intro _
    | extract_lets -underBinder +onlyGivenNames x
      first
        | have hx : Kept pq x := by
            try dsimp only [x]
            repeat' (with_reducible first | assumption | fail_if_no_progress beta_reduce | apply keep_unbindBank | apply keep_holdBank | apply Kept.ite | intro _)
      try clear_value x
    | fail_if_no_progress beta_reduce | apply keep_unbindBank | apply keep_holdBank | apply Kept.ite

theorem keep_shadowOver (n : Nat) (s : State) (h_s : Kept pq s) : Kept pq (shadowOver n s) := by
  unfold shadowOver
  repeat'
    with_reducible first
    | assumption | intro _
    | extract_lets -underBinder +onlyGivenNames x
      first
        | have hx : Kept pq x := by
            try dsimp only [x]
            repeat' (with_reducible first | assumption | fail_if_no_progress beta_reduce | apply keep_setAx | apply Kept.ite | intro _ | fail_if_no_progress (apply Kept.upd) | split | beta_reduce)
        | skip
      try clear_value x
    | fail_if_no_progress beta_reduce | apply keep_setAx

theorem keep_dropMig (n : Nat) (s : State) (h_s : Kept pq s) : Kept pq (dropMig n s) := by
  unfold dropMig
  repeat'
    with_reducible first
    | assumption | intro _
    | extract_lets -underBinder +onlyGivenNames x
      first
        | have hx : Kept pq x := by
            try dsimp only [x]
            repeat' (with_reducible first | assumption | fail_if_no_progress beta_reduce | apply keep_setCtx | apply keep_undoMig | apply keep_shadowOver)
        | skip
      try clear_value x
    | fail_if_no_progress beta_reduce | apply keep_setCtx | apply keep_undoMig | apply keep_shadowOver | apply Kept.ite | intro _ | fail_if_no_progress (apply Kept.upd) | split

theorem keep_retryMig (n : Nat) (s : State) (h_s : Kept pq s) : Kept pq (retryMig n s) := by
  unfold retryMig
  repeat'
    with_reducible first
    | assumption | intro _
    | extract_lets -underBinder +onlyGivenNames x
      first
        | have hx : Kept pq x := by
            try dsimp only [x]
            repeat' (with_reducible first | assumption | fail_if_no_progress beta_reduce | apply keep_setCtx | apply keep_undoMig | apply keep_shadowOver)
        | skip
      try clear_value x
    | fail_if_no_progress beta_reduce | apply keep_setCtx | apply keep_undoMig | apply keep_shadowOver | apply keep_step | apply Kept.ite | apply KeptX.next | apply KeptX.ite | intro _ | fail_if_no_progress (apply Kept.upd) | split

theorem keep_abortMig (n res : Nat) (s : State) (h_s : Kept pq s) : Kept pq (abortMig n res s) := by
  unfold abortMig
  repeat'
    with_reducible first
    | assumption | intro _
    | extract_lets -underBinder +onlyGivenNames x
      first
        | have hx : Kept pq x := by
            try dsimp only [x]
            repeat' (with_reducible first | assumption | fail_if_no_progress beta_reduce | apply keep_sadlNotice | apply keep_journal)
      try clear_value x
    | fail_if_no_progress beta_reduce | apply keep_sadlNotice | apply keep_journal | apply keep_dropMig | apply keep_retryMig | apply Kept.ite | intro _ | fail_if_no_progress (apply Kept.upd) | split

theorem keep_runEnded (n key : Nat) (s : State) (h_s : Kept pq s) : Kept pq (runEnded n key s) := by
  unfold runEnded
  repeat' (with_reducible first | assumption | fail_if_no_progress beta_reduce | apply keep_setCtx | apply Kept.ite | intro _ | fail_if_no_progress (apply Kept.upd) | split)

theorem keep_withdrawMig (n : Nat) (s : State) (h_s : Kept pq s) : Kept pq (withdrawMig n s) := by
  unfold withdrawMig
  repeat'
    with_reducible first
    | assumption | intro _
    | extract_lets -underBinder +onlyGivenNames x
      first
        | have hx : Kept pq x := by
            try dsimp only [x]
            repeat' (with_reducible first | assumption | fail_if_no_progress beta_reduce | apply keep_setCtx | apply keep_undoMig | apply keep_shadowOver)
        | skip
      try clear_value x
    | fail_if_no_progress beta_reduce | apply keep_setCtx | apply keep_undoMig | apply keep_shadowOver | apply Kept.ite | intro _ | fail_if_no_progress (apply Kept.upd) | split

theorem keep_startCopy (n : Nat) (s : State) (h_s : Kept pq s) : Kept pq (startCopy n s) := by
  unfold startCopy
  repeat'
    with_reducible first
    | assumption | intro _
    | extract_lets -underBinder +onlyGivenNames x
      first
        | have hx : Kept pq x := by
            try dsimp only [x]
            repeat' (with_reducible first | assumption | fail_if_no_progress beta_reduce | apply keep_setCtx | apply keep_setAx | apply keep_agentCopy | apply keep_journal | apply keep_abortMig | apply keep_step | apply Kept.ite | fail_if_no_progress (apply KeptR.mk <;> try apply Kept.of2) | apply Kept.of2 | apply Kept.snd (by assumption))
        | skip
      try clear_value x
    | fail_if_no_progress beta_reduce | apply keep_setCtx | apply keep_setAx | apply keep_agentCopy | apply keep_journal | apply keep_abortMig | apply keep_step | apply Kept.ite | fail_if_no_progress (apply KeptR.mk <;> try apply Kept.of2) | apply Kept.of2 | apply Kept.snd (by assumption) | apply KeptR.ite | apply KeptX.next | apply KeptX.ite | intro _ | fail_if_no_progress (apply Kept.upd) | split

theorem keep_shadowStart (n : Nat) (m : Mig) (s : State) (h_s : Kept pq s) : Kept pq (shadowStart n m s) := by
  unfold shadowStart
  repeat'
    with_reducible first
    | assumption | intro _
    | extract_lets -underBinder +onlyGivenNames x
      first
        | have hx : Kept pq x := by
            try dsimp only [x]
            repeat' (with_reducible first | assumption | fail_if_no_progress beta_reduce | apply keep_setCtx | apply keep_setAx | apply keep_journal)
        | skip
      try clear_value x
    | fail_if_no_progress beta_reduce | apply keep_setCtx | apply keep_setAx

theorem keep_bindSecond (n src dst : Nat) (s : State) (h_s : Kept pq s) : Kept pq (bindSecond n src dst s) := by
  unfold bindSecond
  repeat'
    with_reducible first
    | assumption | intro _
    | extract_lets -underBinder +onlyGivenNames x
      first
        | have hx : Kept pq x := by
            try dsimp only [x]
            repeat' (with_reducible first | assumption | fail_if_no_progress beta_reduce | apply keep_setBank | apply Kept.ite | intro _ | fail_if_no_progress (apply Kept.upd) | split | beta_reduce)
        | skip
      try clear_value x
    | fail_if_no_progress beta_reduce | apply keep_setBank

theorem keep_copyAck (n : Nat) (ok : Bool) (s : State) (h_s : Kept pq s) : Kept pq (copyAck n ok s) := by
  unfold copyAck
  repeat'
    with_reducible first
    | assumption | intro _
    | extract_lets -underBinder +onlyGivenNames x
      first
        | have hx : Kept pq x := by
            try dsimp only [x]
            repeat' (with_reducible first | assumption | fail_if_no_progress beta_reduce | apply keep_setCtx | apply keep_retryMig | apply keep_abortMig | apply keep_withdrawMig | apply keep_shadowStart | apply keep_bindSecond)
        | skip
      try clear_value x
    | fail_if_no_progress beta_reduce | apply keep_setCtx | apply keep_retryMig | apply keep_abortMig | apply keep_withdrawMig | apply keep_shadowStart | apply keep_bindSecond | apply keep_step | apply Kept.ite | apply KeptX.next | apply KeptX.ite | intro _ | fail_if_no_progress (apply Kept.upd) | split

theorem keep_switchMig (n : Nat) (m : Mig) (s : State) (h_s : Kept pq s) : Kept pq (switchMig n m s) := by
  unfold switchMig
  repeat'
    with_reducible first
    | assumption | intro _
    | extract_lets -underBinder +onlyGivenNames x
      first
        | have hx : Kept pq x := by
            try dsimp only [x]
            repeat' (with_reducible first | assumption | fail_if_no_progress beta_reduce | apply keep_setBank | apply keep_setCtx | apply keep_reserveCheck | apply keep_unbindBank | apply keep_shadowOver)
        | skip
      try clear_value x
    | fail_if_no_progress beta_reduce | apply keep_setBank | apply keep_setCtx | apply keep_reserveCheck

theorem keep_axisPeriod (n : Nat) (s : State) (h_s : Kept pq s) : Kept pq (axisPeriod n s) := by
  unfold axisPeriod
  repeat'
    with_reducible first
    | assumption | intro _
    | extract_lets -underBinder +onlyGivenNames x
      first
        | have hx : Kept pq x := by
            try dsimp only [x]
            repeat' (with_reducible first | assumption | fail_if_no_progress beta_reduce | apply keep_setCtx | apply keep_setAx | apply keep_journal | apply keep_abortMig | apply keep_withdrawMig | apply keep_shadowStart | apply keep_switchMig)
        | skip
      try clear_value x
    | fail_if_no_progress beta_reduce | apply keep_setCtx | apply keep_setAx | apply keep_journal | apply keep_abortMig | apply keep_withdrawMig | apply keep_shadowStart | apply keep_switchMig | apply Kept.ite | intro _ | fail_if_no_progress (apply Kept.upd) | split

theorem keep_shadowCompare (n : Nat) (s : State) (h_s : Kept pq s) : Kept pq (shadowCompare n s) := by
  unfold shadowCompare
  repeat' (with_reducible first | assumption | fail_if_no_progress beta_reduce | apply keep_setCtx | apply keep_markSuspect | apply keep_shadowOver | apply keep_abortMig | apply keep_step | apply Kept.ite | apply KeptX.next | apply KeptX.ite | intro _ | fail_if_no_progress (apply Kept.upd) | split)

theorem keep_serviceMigration (n : Nat) (written : Bool) (s : State) (h_s : Kept pq s) : Kept pq (serviceMigration n written s) := by
  unfold serviceMigration
  repeat'
    with_reducible first
    | assumption | intro _
    | extract_lets -underBinder +onlyGivenNames x
      first
        | have hx : Kept pq x := by
            try dsimp only [x]
            repeat' (with_reducible first | assumption | fail_if_no_progress beta_reduce | apply keep_setCtx | apply keep_agentCopy | apply keep_journal | apply keep_holdBank | apply keep_retryMig | apply keep_abortMig | apply keep_withdrawMig | apply keep_bindSecond | apply keep_switchMig | apply keep_step | apply hF_put | apply Kept.ite | fail_if_no_progress (apply KeptR.mk <;> try apply Kept.of2) | apply Kept.of2 | apply Kept.snd (by assumption) | apply KeptR.ite | apply KeptX.next | apply KeptX.ite | intro _ | fail_if_no_progress (apply Kept.upd) | split | beta_reduce)
        | have hF_put : ∀ y0 y1, Kept pq y1 → Kept pq (x y0 y1) := by
            intro y0 y1 hy1
            try dsimp only [x]
            repeat' (with_reducible first | assumption | fail_if_no_progress beta_reduce | apply keep_setCtx | apply keep_agentCopy | apply keep_journal | apply keep_holdBank | apply keep_retryMig | apply keep_abortMig | apply keep_withdrawMig | apply keep_bindSecond | apply keep_switchMig | apply keep_step | apply hF_put)
      try clear_value x
    | fail_if_no_progress beta_reduce | apply keep_setCtx | apply keep_agentCopy | apply keep_journal | apply keep_holdBank | apply keep_retryMig | apply keep_abortMig | apply keep_withdrawMig | apply keep_bindSecond | apply keep_switchMig | apply keep_step | apply hF_put | apply Kept.ite | fail_if_no_progress (apply KeptR.mk <;> try apply Kept.of2) | apply Kept.of2 | apply Kept.snd (by assumption) | apply KeptR.ite | apply KeptX.next | apply KeptX.ite | intro _ | fail_if_no_progress (apply Kept.upd) | split

theorem keep_migrateAway (n src agent : Nat) (allowed : Nat → Bool) (s : State) (h_s : Kept pq s) : Kept pq (migrateAway n src agent allowed s) := by
  unfold migrateAway
  repeat'
    with_reducible first
    | assumption | intro _
    | extract_lets -underBinder +onlyGivenNames x
      first
        | have hx : Kept pq x := by
            try dsimp only [x]
            repeat' (with_reducible first | assumption | fail_if_no_progress beta_reduce | apply keep_setCtx | apply keep_draw | apply keep_setAcPhase | apply keep_orderMig | apply Kept.ite | fail_if_no_progress (apply KeptR.mk <;> try apply Kept.of2) | apply Kept.of2 | apply Kept.snd (by assumption))
        | skip
      try clear_value x
    | fail_if_no_progress beta_reduce | apply keep_setCtx | apply keep_draw | apply keep_setAcPhase | apply keep_orderMig | apply Kept.ite | fail_if_no_progress (apply KeptR.mk <;> try apply Kept.of2) | apply Kept.of2 | apply Kept.snd (by assumption) | apply KeptR.ite | intro _ | fail_if_no_progress (apply Kept.upd) | split

theorem keep_movePin (n start : Nat) (move : Nat × Nat) (s : State) (h_s : Kept pq s) : Kept pq (movePin n start move s) := by
  unfold movePin
  repeat' (with_reducible first | assumption | fail_if_no_progress beta_reduce | apply keep_setAcPhase | apply keep_orderMig)

theorem keep_req3Write (m : Master) (n : Nat) (v : Word) (s : State) (h_s : Kept pq s) : KeptR pq (req3Write m n v s) := by
  unfold req3Write
  repeat'
    with_reducible first
    | assumption | intro _
    | extract_lets -underBinder +onlyGivenNames x
      first
        | have hx : Kept pq x := by
            try dsimp only [x]
            repeat' (with_reducible first | assumption | fail_if_no_progress beta_reduce | apply keep_setCtx | apply keep_draw | apply keep_plainWrite | apply keep_headerRefresh | apply keep_cmdDone | apply keep_movePin | apply hF_refused | apply Kept.ite | fail_if_no_progress (apply KeptR.mk <;> try apply Kept.of2) | apply Kept.of2)
        | have hx : KeptR pq x := by
            try dsimp only [x]
            repeat' (with_reducible first | assumption | fail_if_no_progress beta_reduce | apply keep_setCtx | apply keep_draw | apply keep_plainWrite | apply keep_headerRefresh | apply keep_cmdDone | apply keep_movePin | apply hF_refused | apply Kept.ite | fail_if_no_progress (apply KeptR.mk <;> try apply Kept.of2) | apply Kept.of2 | apply Kept.snd (by assumption) | apply KeptR.ite | intro _ | fail_if_no_progress (apply Kept.upd) | split | beta_reduce)
        | have hF_refused : ∀ y0, Kept pq (x y0) := by
            intro y0 
            try dsimp only [x]
            repeat' (with_reducible first | assumption | fail_if_no_progress beta_reduce | apply keep_setCtx | apply keep_draw | apply keep_plainWrite | apply keep_headerRefresh | apply keep_cmdDone | apply keep_movePin | apply hF_refused | apply Kept.ite | fail_if_no_progress (apply KeptR.mk <;> try apply Kept.of2) | apply Kept.of2 | apply Kept.snd (by assumption) | apply KeptR.ite | intro _ | fail_if_no_progress (apply Kept.upd) | split | beta_reduce)
        | skip
      try clear_value x
    | fail_if_no_progress beta_reduce | apply keep_setCtx | apply keep_draw | apply keep_plainWrite | apply keep_headerRefresh | apply keep_cmdDone | apply keep_movePin | apply hF_refused | apply Kept.ite | fail_if_no_progress (apply KeptR.mk <;> try apply Kept.of2) | apply Kept.of2 | apply Kept.snd (by assumption) | apply KeptR.ite | intro _ | fail_if_no_progress (apply Kept.upd) | split

theorem keep_nextPin (n : Nat) (s : State) (h_s : Kept pq s) : Kept pq (nextPin n s) := by
  unfold nextPin
  repeat'
    with_reducible first
    | assumption | intro _
    | extract_lets -underBinder +onlyGivenNames x
      first
        | have hx : Kept pq x := by
            try dsimp only [x]
            repeat' (with_reducible first | assumption | fail_if_no_progress beta_reduce | apply keep_setCtx | apply keep_draw | apply keep_movePin | apply Kept.ite | fail_if_no_progress (apply KeptR.mk <;> try apply Kept.of2) | apply Kept.of2 | apply Kept.snd (by assumption) | apply KeptR.ite | intro _ | fail_if_no_progress (apply Kept.upd) | split | beta_reduce)
        | have hx : KeptR pq x := by
            try dsimp only [x]
            repeat' (with_reducible first | assumption | fail_if_no_progress beta_reduce | apply keep_setCtx | apply keep_draw | apply keep_movePin | apply Kept.ite | fail_if_no_progress (apply KeptR.mk <;> try apply Kept.of2) | apply Kept.of2 | apply Kept.snd (by assumption) | apply KeptR.ite | intro _ | fail_if_no_progress (apply Kept.upd) | split | beta_reduce)
        | skip
      try clear_value x
    | fail_if_no_progress beta_reduce | apply keep_setCtx | apply keep_draw | apply keep_movePin | apply Kept.ite | fail_if_no_progress (apply KeptR.mk <;> try apply Kept.of2) | apply Kept.of2 | apply Kept.snd (by assumption) | apply KeptR.ite | intro _ | fail_if_no_progress (apply Kept.upd) | split

theorem keep_moveOne (agent : Nat) (allowed : Nat → Bool) (ks : List Nat) (s : State) (h_s : Kept pq s) : Kept pq (moveOne agent allowed ks s) := by
  unfold moveOne
  repeat' (with_reducible first | assumption | fail_if_no_progress beta_reduce | apply keep_pickFree | apply keep_migrateAway | apply Kept.ite | fail_if_no_progress (apply KeptR.mk <;> try apply Kept.of2) | apply Kept.of2 | apply Kept.snd (by assumption) | apply KeptR.ite | intro _ | fail_if_no_progress (apply Kept.upd) | split)

theorem keep_balanceCheck (s0 : State) (h_s0 : Kept pq s0) : Kept pq (balanceCheck s0) := by
  unfold balanceCheck
  repeat'
    with_reducible first
    | assumption | intro _
    | extract_lets -underBinder +onlyGivenNames x
      first
        | have hx : Kept pq x := by
            try dsimp only [x]
            repeat' (with_reducible first | assumption | fail_if_no_progress beta_reduce | apply keep_moveOne | apply Kept.ite | apply Kept.foldl | intro _ | fail_if_no_progress (apply Kept.upd))
        | skip
      try clear_value x
    | fail_if_no_progress beta_reduce | apply keep_moveOne | apply Kept.ite | apply Kept.foldl | intro _ | fail_if_no_progress (apply Kept.upd) | split

theorem keep_overloadStep (g : Nat) (s : State) (h_s : Kept pq s) : Kept pq (overloadStep g s) := by
  unfold overloadStep
  repeat'
    with_reducible first
    | assumption | intro _
    | extract_lets -underBinder +onlyGivenNames x
      first
        | have hx : Kept pq x := by
            try dsimp only [x]
            repeat' (with_reducible first | assumption | fail_if_no_progress beta_reduce | apply keep_moveOne | apply Kept.ite | intro _ | fail_if_no_progress (apply Kept.upd) | split | beta_reduce)
        | skip
      try clear_value x
    | fail_if_no_progress beta_reduce | apply keep_moveOne | apply Kept.ite | intro _ | fail_if_no_progress (apply Kept.upd)

theorem keep_overloadCheck (g : Nat) (s : State) (h_s : Kept pq s) : Kept pq (overloadCheck g s) := by
  unfold overloadCheck
  repeat' (with_reducible first | assumption | fail_if_no_progress beta_reduce | apply keep_overloadStep | apply Kept.ite | intro _ | fail_if_no_progress (apply Kept.upd))

theorem keep_marginRetry (n : Nat) (s : State) (h_s : Kept pq s) : Kept pq (marginRetry n s) := by
  unfold marginRetry
  repeat' (with_reducible first | assumption | fail_if_no_progress beta_reduce | apply keep_migrateAway | apply Kept.ite | apply Kept.foldl | intro _)

theorem keep_evacRetry (n : Nat) (s : State) (h_s : Kept pq s) : Kept pq (evacRetry n s) := by
  unfold evacRetry
  repeat' (with_reducible first | assumption | fail_if_no_progress beta_reduce | apply keep_migrateAway | apply Kept.ite | apply Kept.foldl | intro _)

theorem keep_balanceRetry (n : Nat) (s : State) (h_s : Kept pq s) : Kept pq (balanceRetry n s) := by
  unfold balanceRetry
  repeat'
    with_reducible first
    | assumption | intro _
    | extract_lets -underBinder +onlyGivenNames x
      first
        | have hx : Kept pq x := by
            try dsimp only [x]
            repeat' (with_reducible first | assumption | fail_if_no_progress beta_reduce | apply keep_setCtx)
        | skip
      try clear_value x
    | fail_if_no_progress beta_reduce | apply keep_setCtx | apply keep_migrateAway | apply Kept.ite | intro _ | fail_if_no_progress (apply Kept.upd) | split

theorem keep_retryOrders (n : Nat) (s : State) (h_s : Kept pq s) : Kept pq (retryOrders n s) := by
  unfold retryOrders
  repeat' (with_reducible first | assumption | fail_if_no_progress beta_reduce | apply keep_withdrawMig | apply keep_nextPin | apply keep_marginRetry | apply keep_evacRetry | apply keep_balanceRetry)

theorem keep_pairFault (n what : Nat) (s : State) (h_s : Kept pq s) : Kept pq (pairFault n what s) := by
  unfold pairFault
  repeat'
    with_reducible first
    | assumption | intro _
    | extract_lets -underBinder +onlyGivenNames x
      first
        | have hx : Kept pq x := by
            try dsimp only [x]
            repeat' (with_reducible first | assumption | fail_if_no_progress beta_reduce | apply keep_setAx | apply keep_raiseEvent | apply keep_axst | apply keep_sadlNotice | apply keep_journal | apply keep_faultRecord | apply keep_markSuspect)
        | skip
      try clear_value x
    | fail_if_no_progress beta_reduce | apply keep_setAx | apply keep_raiseEvent | apply keep_axst | apply keep_sadlNotice | apply keep_journal | apply keep_faultRecord | apply keep_markSuspect | apply keep_pairSafe | apply Kept.ite

theorem keep_pairSafe (n : Nat) (s : State) (h_s : Kept pq s) : Kept pq (pairSafe n s) := by
  unfold pairSafe
  repeat' (with_reducible first | assumption | fail_if_no_progress beta_reduce | apply keep_setAx | apply keep_axisSafe | apply Kept.ite | intro _)

theorem keep_pairCompare (n : Nat) (s : State) (h_s : Kept pq s) : Kept pq (pairCompare n s) := by
  unfold pairCompare
  repeat'
    with_reducible first
    | assumption | intro _
    | extract_lets -underBinder +onlyGivenNames x
      first
        | have hx : Kept pq x := by
            try dsimp only [x]
            repeat' (with_reducible first | assumption | fail_if_no_progress beta_reduce | apply keep_setAx)
        | skip
      try clear_value x
    | fail_if_no_progress beta_reduce | apply keep_setAx | apply keep_pairFault | apply Kept.ite | apply Kept.foldl

theorem keep_missingBundle (n : Nat) (s : State) (c : Compare) (h_s : Kept pq s) : Kept pq (missingBundle n s c) := by
  unfold missingBundle
  repeat'
    with_reducible first
    | assumption | intro _
    | extract_lets -underBinder +onlyGivenNames x
      first
        | have hx : Kept pq x := by
            try dsimp only [x]
            repeat' (with_reducible first | assumption | fail_if_no_progress beta_reduce | apply keep_abortMig | apply keep_pairFault | apply Kept.ite | intro _)
      try clear_value x
    | fail_if_no_progress beta_reduce | apply keep_abortMig | apply keep_pairFault | apply Kept.ite | intro _ | fail_if_no_progress (apply Kept.upd) | split

theorem keep_commitDeadline (n : Nat) (s : State) (h_s : Kept pq s) : Kept pq (commitDeadline n s) := by
  unfold commitDeadline
  repeat'
    with_reducible first
    | assumption | intro _
    | extract_lets -underBinder +onlyGivenNames x
      first
        | have hx : Kept pq x := by
            try dsimp only [x]
            repeat' (with_reducible first | assumption | fail_if_no_progress beta_reduce | apply keep_setAx | apply keep_deadlinePassed)
        | skip
      try clear_value x
    | fail_if_no_progress beta_reduce | apply keep_setAx | apply keep_deadlinePassed | apply keep_missingBundle | apply Kept.ite | apply Kept.foldl

theorem keep_offerSetpoint (sec : Bool) (n : Nat) (sp : Setpoint) (s : State) (h_s : Kept pq s) : KeptR pq (offerSetpoint sec n sp s) := by
  unfold offerSetpoint
  repeat'
    with_reducible first
    | assumption | intro _
    | extract_lets -underBinder +onlyGivenNames x
      first
        | have hx : Kept pq x := by
            try dsimp only [x]
            repeat' (with_reducible first | assumption | fail_if_no_progress beta_reduce | apply keep_setCtx | apply keep_lastSeq | apply Kept.ite | fail_if_no_progress (apply KeptR.mk <;> try apply Kept.of2) | apply Kept.of2 | apply Kept.snd (by assumption) | apply KeptR.ite | intro _ | fail_if_no_progress (apply Kept.upd) | split | beta_reduce)
        | skip
      try clear_value x
    | fail_if_no_progress beta_reduce | apply keep_setCtx | apply keep_lastSeq | apply Kept.ite | fail_if_no_progress (apply KeptR.mk <;> try apply Kept.of2) | apply Kept.of2 | apply Kept.snd (by assumption) | apply KeptR.ite | intro _ | fail_if_no_progress (apply Kept.upd) | split

theorem keep_writeSetpoint (n : Nat) (s : State) (h_s : Kept pq s) : Kept pq (writeSetpoint n s) := by
  unfold writeSetpoint
  repeat'
    with_reducible first
    | assumption | intro _
    | extract_lets -underBinder +onlyGivenNames x
      first
        | have hx : Kept pq x := by
            try dsimp only [x]
            repeat' (with_reducible first | assumption | fail_if_no_progress beta_reduce | apply keep_setBank | apply keep_setCtx | apply keep_bump | apply keep_wakeCtx | apply keep_axst | apply keep_bankWrite | apply Kept.ite | apply Kept.foldl | intro _)
        | skip
      try clear_value x
    | fail_if_no_progress beta_reduce | apply keep_setBank | apply keep_setCtx | apply keep_bump | apply keep_wakeCtx | apply keep_axst | apply keep_bankWrite | apply Kept.ite | apply Kept.foldl | intro _ | fail_if_no_progress (apply Kept.upd) | split

theorem keep_spDueFire (key : Nat) (s : State) (h_s : Kept pq s) : Kept pq (spDueFire key s) := by
  unfold spDueFire
  repeat' (with_reducible first | assumption | fail_if_no_progress beta_reduce | apply keep_setBank | apply keep_latchBank | apply Kept.ite | intro _)

theorem keep_bundleAtPort (f : EdgeFlight) (s : State) (h_s : Kept pq s) : KeptR pq (bundleAtPort f s) := by
  unfold bundleAtPort
  repeat'
    with_reducible first
    | assumption | intro _
    | extract_lets -underBinder +onlyGivenNames x
      first
        | have hx : Kept pq x := by
            try dsimp only [x]
            repeat' (with_reducible first | assumption | fail_if_no_progress beta_reduce | apply keep_setAx | apply keep_answerSamples | apply Kept.ite | fail_if_no_progress (apply KeptR.mk <;> try apply Kept.of2) | apply Kept.of2 | apply Kept.snd (by assumption) | apply KeptR.ite | intro _ | fail_if_no_progress (apply Kept.upd) | split | beta_reduce)
        | skip
      try clear_value x
    | fail_if_no_progress beta_reduce | apply keep_setAx | apply keep_answerSamples | apply Kept.ite | fail_if_no_progress (apply KeptR.mk <;> try apply Kept.of2) | apply Kept.of2 | apply Kept.snd (by assumption) | apply KeptR.ite

theorem keep_bundleArrival (i : Nat) (s : State) (h_s : Kept pq s) : Kept pq (bundleArrival i s) := by
  unfold bundleArrival
  repeat' (with_reducible first | assumption | fail_if_no_progress beta_reduce | apply keep_bundleAtBridge | apply keep_bundleAtPort | apply Kept.ite | fail_if_no_progress (apply KeptR.mk <;> try apply Kept.of2) | apply Kept.of2 | apply Kept.snd (by assumption) | apply KeptR.ite | intro _ | fail_if_no_progress (apply Kept.upd) | split)

theorem keep_periodBoundary (b : Nat) (s : State) (h_s : Kept pq s) : Kept pq (periodBoundary b s) := by
  unfold periodBoundary
  repeat'
    with_reducible first
    | assumption | intro _
    | extract_lets -underBinder +onlyGivenNames x
      first
        | have hx : Kept pq x := by
            try dsimp only [x]
            repeat' (with_reducible first | assumption | fail_if_no_progress beta_reduce | apply keep_setRgBit | apply keep_wakeCtx | apply keep_raiseEvent | apply keep_bridgeBoundary | apply keep_recheckPhase | apply keep_settle | apply keep_unbindBridge | apply keep_keepBinding | apply keep_handoverTry | apply keep_triggerBridge | apply keep_axisPeriod | apply Kept.ite | intro _)
        | skip
      try clear_value x
    | fail_if_no_progress beta_reduce | apply keep_setRgBit | apply keep_wakeCtx | apply keep_raiseEvent | apply keep_bridgeBoundary | apply keep_recheckPhase | apply keep_settle | apply keep_unbindBridge | apply keep_keepBinding | apply keep_handoverTry | apply keep_triggerBridge | apply keep_axisPeriod | apply Kept.ite

theorem keep_lateCopy (x : Nat) (s : State) (h_s : Kept pq s) : Kept pq (lateCopy x s) := by
  unfold lateCopy
  repeat' (with_reducible first | assumption | fail_if_no_progress beta_reduce | apply keep_retryMig | apply Kept.ite | intro _ | fail_if_no_progress (apply Kept.upd) | split)

theorem keep_sampleAxis (b : Nat) (s : State) (h_s : Kept pq s) : Kept pq (sampleAxis b s) := by
  unfold sampleAxis
  repeat' (with_reducible first | assumption | fail_if_no_progress beta_reduce | apply keep_sampleInstant | apply keep_lateCopy)

theorem keep_delayMeasure (b o n : Nat) (s0 : State) (h_s0 : Kept pq s0) : Kept pq (delayMeasure b o n s0) := by
  unfold delayMeasure
  repeat'
    with_reducible first
    | assumption | intro _
    | extract_lets -underBinder +onlyGivenNames x
      first
        | have hx : Kept pq x := by
            try dsimp only [x]
            repeat' (with_reducible first | assumption | fail_if_no_progress beta_reduce | apply keep_setRgBit | apply keep_setBr | apply keep_raiseEvent | apply keep_pwmFlag | apply keep_faultRecord | apply hF_swap | apply Kept.ite | intro _)
        | have hF_swap : ∀ y0 y1, Kept pq y1 → Kept pq (x y0 y1) := by
            intro y0 y1 hy1
            try dsimp only [x]
            repeat' (with_reducible first | assumption | fail_if_no_progress beta_reduce | apply keep_setRgBit | apply keep_setBr)
        | skip
      try clear_value x
    | fail_if_no_progress beta_reduce | apply keep_setRgBit | apply keep_setBr | apply keep_raiseEvent | apply keep_pwmFlag | apply keep_faultRecord | apply hF_swap | apply Kept.ite

theorem keep_execPwmEnable (m : Master) (b : Fin 12) (v : Word) (s : State) (h_s : Kept pq s) : KeptX pq (execPwmEnable m b v s) := by
  unfold execPwmEnable
  repeat' (with_reducible first | assumption | fail_if_no_progress beta_reduce | apply keep_regAccess | apply keep_pwmCfgWrite | apply keep_settle | apply Kept.ite | fail_if_no_progress (apply KeptR.mk <;> try apply Kept.of2) | apply Kept.of2 | apply Kept.snd (by assumption) | apply KeptR.ite | apply KeptX.next)

theorem keep_execStagePeriodWrite (m : Master) (b : Fin 12) (v : Word) (s : State) (h_s : Kept pq s) : KeptX pq (execStagePeriodWrite m b v s) := by
  unfold execStagePeriodWrite
  repeat' (with_reducible first | assumption | fail_if_no_progress beta_reduce | apply keep_regAccess | apply keep_stageItem | apply Kept.ite | fail_if_no_progress (apply KeptR.mk <;> try apply Kept.of2) | apply Kept.of2 | apply Kept.snd (by assumption) | apply KeptR.ite | apply KeptX.next)

theorem keep_execStageEdgeWrite (m : Master) (b : Fin 12) (k : Fin 3) (v : Word) (s : State) (h_s : Kept pq s) : KeptX pq (execStageEdgeWrite m b k v s) := by
  unfold execStageEdgeWrite
  repeat' (with_reducible first | assumption | fail_if_no_progress beta_reduce | apply keep_regAccess | apply keep_stageItem | apply Kept.ite | fail_if_no_progress (apply KeptR.mk <;> try apply Kept.of2) | apply Kept.of2 | apply Kept.snd (by assumption) | apply KeptR.ite | apply KeptX.next)

theorem keep_execPwmCommit (m : Master) (b : Fin 12) (s : State) (h_s : Kept pq s) : KeptX pq (execPwmCommit m b s) := by
  unfold execPwmCommit
  repeat' (with_reducible first | assumption | fail_if_no_progress beta_reduce | apply keep_regAccess | apply keep_pwmCtrlWrite | apply Kept.ite | fail_if_no_progress (apply KeptR.mk <;> try apply Kept.of2) | apply Kept.of2 | apply Kept.snd (by assumption) | apply KeptR.ite | apply KeptX.next)

theorem keep_execPeriodNow (m : Master) (b : Fin 12) (s : State) (h_s : Kept pq s) : KeptX pq (execPeriodNow m b s) := by
  unfold execPeriodNow
  repeat' (with_reducible first | assumption | fail_if_no_progress beta_reduce | apply keep_regAccess | apply keep_pwmCtrlWrite | apply Kept.ite | fail_if_no_progress (apply KeptR.mk <;> try apply Kept.of2) | apply Kept.of2 | apply Kept.snd (by assumption) | apply KeptR.ite | apply KeptX.next)

theorem keep_execForcesafe (m : Master) (b : Fin 12) (s : State) (h_s : Kept pq s) : KeptX pq (execForcesafe m b s) := by
  unfold execForcesafe
  repeat' (with_reducible first | assumption | fail_if_no_progress beta_reduce | apply keep_regAccess | apply keep_pwmCtrlWrite | apply Kept.ite | fail_if_no_progress (apply KeptR.mk <;> try apply Kept.of2) | apply Kept.of2 | apply Kept.snd (by assumption) | apply KeptR.ite | apply KeptX.next)

theorem keep_execClrsafe (m : Master) (b : Fin 12) (s : State) (h_s : Kept pq s) : KeptX pq (execClrsafe m b s) := by
  unfold execClrsafe
  repeat' (with_reducible first | assumption | fail_if_no_progress beta_reduce | apply keep_regAccess | apply keep_pwmCtrlWrite | apply Kept.ite | fail_if_no_progress (apply KeptR.mk <;> try apply Kept.of2) | apply Kept.of2 | apply Kept.snd (by assumption) | apply KeptR.ite | apply KeptX.next)

theorem keep_execForceWrite (m : Master) (b : Fin 12) (v : Word) (s : State) (h_s : Kept pq s) : KeptX pq (execForceWrite m b v s) := by
  unfold execForceWrite
  repeat' (with_reducible first | assumption | fail_if_no_progress beta_reduce | apply keep_regAccess | apply keep_forceWrite | apply Kept.ite | fail_if_no_progress (apply KeptR.mk <;> try apply Kept.of2) | apply Kept.of2 | apply Kept.snd (by assumption) | apply KeptR.ite | apply KeptX.next)

theorem keep_execPeriodCutTick (b : Fin 12) (s : State) (h_s : Kept pq s) : KeptX pq (execPeriodCutTick b s) := by
  unfold execPeriodCutTick
  repeat' (with_reducible first | assumption | fail_if_no_progress beta_reduce | apply keep_cutTick | apply keep_settle | apply Kept.ite | apply KeptX.next | apply KeptX.ite | intro _)

theorem keep_execEdgeFire (b : Fin 12) (k : Fin 3) (off : Bool) (s : State) (h_s : Kept pq s) : KeptX pq (execEdgeFire b k off s) := by
  unfold execEdgeFire
  repeat' (with_reducible first | assumption | fail_if_no_progress beta_reduce | apply keep_edgeFire | apply keep_settle | apply Kept.ite | apply KeptX.next)

theorem keep_execDeadtimeExpiry (b : Fin 12) (o : Fin 6) (s : State) (h_s : Kept pq s) : KeptX pq (execDeadtimeExpiry b o s) := by
  unfold execDeadtimeExpiry
  repeat' (with_reducible first | assumption | fail_if_no_progress beta_reduce | apply keep_deadtimeExpiry | apply keep_settle | apply Kept.ite | apply KeptX.next)

theorem keep_execDlstarveTimeout (b : Fin 12) (s : State) (h_s : Kept pq s) : KeptX pq (execDlstarveTimeout b s) := by
  unfold execDlstarveTimeout
  repeat' (with_reducible first | assumption | fail_if_no_progress beta_reduce | apply keep_delayStarve | apply Kept.ite | apply KeptX.next)

theorem keep_execSampleInstant (b : Fin 12) (s : State) (h_s : Kept pq s) : KeptX pq (execSampleInstant b s) := by
  unfold execSampleInstant
  repeat' (with_reducible first | assumption | fail_if_no_progress beta_reduce | apply keep_sampleAxis | apply Kept.ite | apply KeptX.next | apply KeptX.ite | intro _)

theorem keep_execPeriodBoundary (b : Fin 12) (s : State) (h_s : Kept pq s) : KeptX pq (execPeriodBoundary b s) := by
  unfold execPeriodBoundary
  repeat' (with_reducible first | assumption | fail_if_no_progress beta_reduce | apply keep_periodBoundary | apply Kept.ite | apply KeptX.next | apply KeptX.ite | intro _)

theorem keep_execBundleArrival (i : Nat) (s : State) (h_s : Kept pq s) : KeptX pq (execBundleArrival i s) := by
  unfold execBundleArrival
  repeat' (with_reducible first | assumption | fail_if_no_progress beta_reduce | apply keep_bundleArrival | apply Kept.ite | apply KeptX.next)

theorem keep_execDelaylineMeasure (b : Fin 12) (o : Fin 6) (n : Fin 65) (s : State) (h_s : Kept pq s) : KeptX pq (execDelaylineMeasure b o n s) := by
  unfold execDelaylineMeasure
  repeat' (with_reducible first | assumption | fail_if_no_progress beta_reduce | apply keep_delayMeasure | apply Kept.ite | apply KeptX.next | apply KeptX.ite | intro _)

theorem keep_execReq3Write (m : Master) (n : Fin 256) (v : Word) (s : State) (h_s : Kept pq s) : KeptX pq (execReq3Write m n v s) := by
  unfold execReq3Write
  repeat' (with_reducible first | assumption | fail_if_no_progress beta_reduce | apply keep_regAccess | apply keep_req3Write | apply Kept.ite | fail_if_no_progress (apply KeptR.mk <;> try apply Kept.of2) | apply Kept.of2 | apply Kept.snd (by assumption) | apply KeptR.ite | apply KeptX.next)

theorem keep_execBalanceCheck (s : State) (h_s : Kept pq s) : KeptX pq (execBalanceCheck s) := by
  unfold execBalanceCheck
  repeat' (with_reducible first | assumption | fail_if_no_progress beta_reduce | apply keep_balanceCheck | apply Kept.ite | apply KeptX.next | apply KeptX.ite | intro _)

theorem keep_execMigrationCopy (n : Fin 256) (s : State) (h_s : Kept pq s) : KeptX pq (execMigrationCopy n s) := by
  unfold execMigrationCopy
  repeat' (with_reducible first | assumption | fail_if_no_progress beta_reduce | apply keep_startCopy | apply Kept.ite | apply KeptX.next | apply KeptX.ite | intro _)

theorem keep_execCopyAck (n : Fin 256) (ok : Bool) (s : State) (h_s : Kept pq s) : KeptX pq (execCopyAck n ok s) := by
  unfold execCopyAck
  repeat' (with_reducible first | assumption | fail_if_no_progress beta_reduce | apply keep_copyAck | apply Kept.ite | apply KeptX.next)

theorem keep_execShadowCompare (n : Fin 256) (s : State) (h_s : Kept pq s) : KeptX pq (execShadowCompare n s) := by
  unfold execShadowCompare
  repeat' (with_reducible first | assumption | fail_if_no_progress beta_reduce | apply keep_shadowCompare | apply Kept.ite | apply KeptX.next)

theorem keep_execServiceMigration (n : Fin 256) (written : Bool) (s : State) (h_s : Kept pq s) : KeptX pq (execServiceMigration n written s) := by
  unfold execServiceMigration
  repeat' (with_reducible first | assumption | fail_if_no_progress beta_reduce | apply keep_serviceMigration | apply Kept.ite | apply KeptX.next | apply KeptX.ite | intro _)

theorem keep_execPairCompare (n : Fin 128) (s : State) (h_s : Kept pq s) : KeptX pq (execPairCompare n s) := by
  unfold execPairCompare
  repeat' (with_reducible first | assumption | fail_if_no_progress beta_reduce | apply keep_pairCompare | apply Kept.ite | apply KeptX.next)

theorem keep_execCommitDeadline (n : Fin 128) (s : State) (h_s : Kept pq s) : KeptX pq (execCommitDeadline n s) := by
  unfold execCommitDeadline
  repeat' (with_reducible first | assumption | fail_if_no_progress beta_reduce | apply keep_commitDeadline | apply Kept.ite | apply KeptX.next)

theorem keep_execSetpointWrite (n : Fin 256) (s : State) (h_s : Kept pq s) : KeptX pq (execSetpointWrite n s) := by
  unfold execSetpointWrite
  repeat' (with_reducible first | assumption | fail_if_no_progress beta_reduce | apply keep_writeSetpoint | apply Kept.ite | apply KeptX.next)

theorem keep_execSpDueFire (key : Fin 512) (s : State) (h_s : Kept pq s) : KeptX pq (execSpDueFire key s) := by
  unfold execSpDueFire
  repeat' (with_reducible first | assumption | fail_if_no_progress beta_reduce | apply keep_spDueFire | apply Kept.ite | apply KeptX.next)

end Sys2Proof.Machine
end

