-- ==== Sys2Proof/Laws/KeepPower.lean ====
section
/-! SUPPORT. What the functions of `Power` keep: the queue, and the canonical form of memory and registers. -/

namespace Sys2Proof.Machine

variable {pq : List Instr}

theorem keep_flashCut (k : Nat) (s : State) (h_s : Kept pq s) : Kept pq (flashCut k s) := by
  unfold flashCut
  repeat'
    with_reducible first
    | assumption | intro _
    | extract_lets -underBinder +onlyGivenNames x
      first
        | have hx : Kept pq x := by
            try dsimp only [x]
            repeat' (with_reducible first | assumption | fail_if_no_progress beta_reduce | apply keep_draw | apply keep_store | apply keep_flSpoil | apply Kept.ite | fail_if_no_progress (apply KeptR.mk <;> try apply Kept.of2) | apply Kept.of2 | apply Kept.snd (by assumption) | apply KeptR.ite | intro _ | fail_if_no_progress (apply Kept.upd) | split | beta_reduce)
        | skip
      try clear_value x
    | fail_if_no_progress beta_reduce | apply keep_draw | apply keep_store | apply keep_flSpoil | apply Kept.ite | fail_if_no_progress (apply KeptR.mk <;> try apply Kept.of2) | apply Kept.of2

theorem keep_coldState (straps : BitVec 2) (s : State) (h_s : Kept pq s) : Kept pq (coldState straps s) := by
  have h := keep_flashCut 1 _ (keep_flashCut 0 _ h_s)
  unfold coldState
  exact keep_setRg _ _ ⟨h.1, Tbl.wf_filter h.2.1 _, rfl⟩

theorem keep_resetCause (bits : List Nat) (least : Nat) (s : State) (h_s : Kept pq s) : Kept pq (resetCause bits least s) := by
  unfold resetCause
  repeat'
    with_reducible first
    | assumption | intro _
    | extract_lets -underBinder +onlyGivenNames x
      first
        | have hx : Kept pq x := by
            try dsimp only [x]
            repeat' (with_reducible first | assumption | fail_if_no_progress beta_reduce | apply keep_setRgBit | apply keep_setRgFld | apply Kept.ite | apply Kept.foldl | intro _)
        | skip
      try clear_value x
    | fail_if_no_progress beta_reduce | apply keep_setRgBit | apply keep_setRgFld

theorem keep_resetWakes (s : State) (h_s : Kept pq s) : Kept pq (resetWakes s) := by
  unfold resetWakes
  exact Kept.ite (fun _ => h_s) (fun _ => keep_selvedgeRestore _ _ (Kept.of2 (keep_draw h_s)))

theorem wf_warmRegs (t : Tbl Word) : Tbl.wf regReset (warmRegs t) = true := by
  have h : ∀ (l : Tbl Word) (u : Tbl Word), Tbl.wf regReset u = true →
      Tbl.wf regReset (l.foldl (fun u e => match warmKeeps e.1 e.2 with
        | some v => Tbl.set regReset u e.1 v
        | none => u) u) = true := by
    intro l
    induction l with
    | nil => intro u h; exact h
    | cons e l ih =>
      intro u h
      apply ih
      dsimp only
      split
      · exact Tbl.wf_set h _ _
      · exact h
  exact h t [] rfl
theorem keep_warmReset (bits : List Nat) (straps : BitVec 2) (s : State) (h_s : Kept pq s) :
    Kept pq (warmReset bits straps s) := by
  have h := keep_resetWakes _ (keep_flashCut 1 _ (keep_flashCut 0 _ h_s))
  have hr := wf_warmRegs (resetWakes (flashCut 1 (flashCut 0 s))).regs
  unfold warmReset
  extract_lets s0 old busy s1 least s2 s3 m s4
  have h1 : Kept pq s1 := ⟨h.1, h.2.1, hr⟩
  clear_value s1
  have h2 : Kept pq s2 := keep_resetCause _ _ _ (keep_setRg _ _ h1)
  have h3 : Kept pq s3 := Kept.ite (fun _ => keep_reqDone _ _ h2) (fun _ => h2)
  exact keep_haltAtStart _ _ (keep_setRgBit _ _ _ (keep_setRgBit _ _ _ (keep_setRgFld _ _ _ _ (keep_setRgFld _ _ _ _ h3))))

theorem keep_resetBy (bits : List Nat) (s : State) (h_s : Kept pq s) : Kept pq (resetBy bits s) := by
  unfold resetBy
  repeat' (with_reducible first | assumption | fail_if_no_progress beta_reduce | apply keep_warmReset | apply Kept.ite | intro _)

theorem keep_boostFallback (code : Nat) (s : State) (h_s : Kept pq s) : Kept pq (boostFallback code s) := by
  unfold boostFallback
  repeat' (with_reducible first | assumption | fail_if_no_progress beta_reduce | apply keep_setMode | apply keep_boostEnd | apply Kept.ite | intro _)

theorem keep_boostCheck (s : State) (h_s : Kept pq s) : Kept pq (boostCheck s) := by
  unfold boostCheck
  repeat'
    with_reducible first
    | assumption | intro _
    | extract_lets -underBinder +onlyGivenNames x
      first
        | have hx : Kept pq x := by
            try dsimp only [x]
            repeat' (with_reducible first | assumption | fail_if_no_progress beta_reduce | apply keep_setRgBit | apply Kept.ite | intro _ | fail_if_no_progress (apply Kept.upd) | split | beta_reduce)
        | skip
      try clear_value x
    | fail_if_no_progress beta_reduce | apply keep_setRgBit | apply Kept.ite

theorem keep_boostEntry (s : State) (h_s : Kept pq s) : Kept pq (boostEntry s) := by
  unfold boostEntry
  repeat'
    with_reducible first
    | assumption | intro _
    | extract_lets -underBinder +onlyGivenNames x
      first
        | have hx : Kept pq x := by
            try dsimp only [x]
            repeat' (with_reducible first | assumption | fail_if_no_progress beta_reduce | apply keep_setRgBit | apply keep_raiseEvent | apply keep_setMode | apply Kept.ite | intro _ | fail_if_no_progress (apply Kept.upd) | split | beta_reduce)
        | skip
      try clear_value x
    | fail_if_no_progress beta_reduce | apply keep_setRgBit | apply keep_raiseEvent | apply keep_setMode | apply Kept.ite

theorem keep_boostWrite (v : Word) (sec : Bool) (s : State) (h_s : Kept pq s) : KeptR pq (boostWrite v sec s) := by
  unfold boostWrite
  repeat'
    with_reducible first
    | assumption | intro _
    | extract_lets -underBinder +onlyGivenNames x
      first
        | have hx : Kept pq x := by
            try dsimp only [x]
            repeat' (with_reducible first | assumption | fail_if_no_progress beta_reduce | apply keep_plainWrite)
        | skip
      try clear_value x
    | fail_if_no_progress beta_reduce | apply keep_plainWrite | apply keep_boostFallback | apply keep_boostCheck | apply Kept.ite | fail_if_no_progress (apply KeptR.mk <;> try apply Kept.of2)

theorem keep_lockMaps (s : State) (h_s : Kept pq s) : Kept pq (lockMaps s) := by
  unfold lockMaps
  repeat' (with_reducible first | assumption | fail_if_no_progress beta_reduce | apply keep_setRgBit | apply Kept.ite | intro _)

theorem keep_enterRun (s : State) (h_s : Kept pq s) : Kept pq (enterRun s) := by
  unfold enterRun
  repeat'
    with_reducible first
    | assumption | intro _
    | extract_lets -underBinder +onlyGivenNames x
      first
        | have hx : Kept pq x := by
            try dsimp only [x]
            repeat' (with_reducible first | assumption | fail_if_no_progress beta_reduce | apply keep_setRgBit | apply keep_setMode | apply keep_loadProfile | apply keep_boostCheck | apply keep_lockMaps | apply Kept.ite | apply Kept.foldl | intro _)
      try clear_value x
    | fail_if_no_progress beta_reduce | apply keep_setRgBit | apply keep_setMode | apply keep_loadProfile | apply keep_boostCheck

theorem keep_stcNotice (i : Nat) (s : State) (h_s : Kept pq s) : Kept pq (stcNotice i s) := by
  unfold stcNotice
  repeat' (with_reducible first | assumption | fail_if_no_progress beta_reduce | apply keep_setRgBit)

theorem keep_evacAbandon (i : Nat) (s : State) (h_s : Kept pq s) : Kept pq (evacAbandon i s) := by
  unfold evacAbandon
  repeat'
    with_reducible first
    | assumption | intro _
    | extract_lets -underBinder +onlyGivenNames x
      first
        | have hx : Kept pq x := by
            try dsimp only [x]
            repeat' (with_reducible first | assumption | fail_if_no_progress beta_reduce | apply keep_setRg | apply keep_setRgBit | apply keep_setRgFld | apply keep_dropMig | apply keep_stcNotice | apply Kept.ite | apply Kept.foldl | intro _ | fail_if_no_progress (apply Kept.upd) | split)
        | skip
      try clear_value x
    | fail_if_no_progress beta_reduce | apply keep_setRg | apply keep_setRgBit | apply keep_setRgFld | apply keep_dropMig | apply keep_stcNotice | apply Kept.ite | apply Kept.foldl | intro _ | fail_if_no_progress (apply Kept.upd)

theorem keep_testStop (s : State) (h_s : Kept pq s) : Kept pq (testStop s) := by
  unfold testStop
  repeat'
    with_reducible first
    | assumption | intro _
    | extract_lets -underBinder +onlyGivenNames x
      first
        | have hx : Kept pq x := by
            try dsimp only [x]
            repeat' (with_reducible first | assumption | fail_if_no_progress beta_reduce | apply keep_setRgFld)
        | skip
      try clear_value x
    | fail_if_no_progress beta_reduce | apply keep_setRgFld | apply keep_evacAbandon | apply Kept.ite | intro _ | fail_if_no_progress (apply Kept.upd)

theorem keep_pmuRequest (req : Nat) (s : State) (h_s : Kept pq s) : Kept pq (pmuRequest req s) := by
  unfold pmuRequest
  repeat'
    with_reducible first
    | assumption | intro _
    | extract_lets -underBinder +onlyGivenNames x
      first
        | have hx : Kept pq x := by
            try dsimp only [x]
            repeat' (with_reducible first | assumption | fail_if_no_progress beta_reduce | apply keep_setRgBit | apply keep_reqDone | apply keep_safeHoldCause | apply keep_boostFallback | apply keep_enterRun | apply keep_testStop)
        | skip
      try clear_value x
    | fail_if_no_progress beta_reduce | apply keep_setRgBit | apply keep_reqDone | apply keep_safeHoldCause | apply keep_boostFallback | apply keep_enterRun | apply keep_testStop | apply Kept.ite | intro _ | fail_if_no_progress (apply Kept.upd)

theorem keep_pmuCtrlWrite (v : Word) (s : State) (h_s : Kept pq s) : KeptR pq (pmuCtrlWrite v s) := by
  unfold pmuCtrlWrite
  repeat' (with_reducible first | assumption | fail_if_no_progress beta_reduce | apply keep_resetBy | apply keep_pmuRequest | apply Kept.ite | fail_if_no_progress (apply KeptR.mk <;> try apply Kept.of2) | apply Kept.of2 | apply Kept.snd (by assumption) | apply KeptR.ite | intro _)

theorem keep_eachElem (f : ElemState → ElemState) (s : State) (h_s : Kept pq s) : Kept pq (eachElem f s) := by
  unfold eachElem
  repeat' (with_reducible first | assumption | fail_if_no_progress beta_reduce | apply keep_setEl | apply Kept.ite | apply Kept.foldl | intro _)

theorem keep_tearSuspended (k : Nat) (s : State) (h_s : Kept pq s) : Kept pq (tearSuspended k s) := by
  unfold tearSuspended
  repeat'
    with_reducible first
    | assumption | intro _
    | extract_lets -underBinder +onlyGivenNames x
      first
        | have hx : Kept pq x := by
            try dsimp only [x]
            repeat' (with_reducible first | assumption | fail_if_no_progress beta_reduce | apply keep_tornRefresh | apply keep_fopSet | apply Kept.ite | intro _ | fail_if_no_progress (apply Kept.upd) | split | beta_reduce)
        | skip
      try clear_value x
    | fail_if_no_progress beta_reduce | apply keep_tornRefresh | apply keep_fopSet | apply Kept.ite | intro _ | fail_if_no_progress (apply Kept.upd)

theorem keep_standbyEntry (s : State) (h_s : Kept pq s) : Kept pq (standbyEntry s) := by
  unfold standbyEntry
  repeat'
    with_reducible first
    | assumption | intro _
    | extract_lets -underBinder +onlyGivenNames x
      first
        | have hx : Kept pq x := by
            try dsimp only [x]
            repeat' (with_reducible first | assumption | fail_if_no_progress beta_reduce | apply keep_setRg | apply keep_setRgFld | apply keep_flInvalidate | apply keep_setMode | apply keep_reqDone | apply keep_selvedgeSuspend | apply keep_eachElem | apply keep_tearSuspended | apply Kept.ite | intro _ | apply Kept.filterMem | fail_if_no_progress (apply Kept.upd))
        | skip
      try clear_value x
    | fail_if_no_progress beta_reduce | apply keep_setRg | apply keep_setRgFld | apply keep_flInvalidate | apply keep_setMode | apply keep_reqDone | apply keep_selvedgeSuspend | apply keep_eachElem | apply keep_tearSuspended | apply Kept.ite | intro _ | apply Kept.filterMem | fail_if_no_progress (apply Kept.upd) | split

theorem keep_entryTimeout (s : State) (h_s : Kept pq s) : Kept pq (entryTimeout s) := by
  unfold entryTimeout
  repeat' (with_reducible first | assumption | fail_if_no_progress beta_reduce | apply keep_reqDone | apply Kept.ite | intro _ | fail_if_no_progress (apply Kept.upd) | split)

theorem keep_wakeSource (bit : Nat) (s : State) (h_s : Kept pq s) : Kept pq (wakeSource bit s) := by
  unfold wakeSource
  repeat'
    with_reducible first
    | assumption | intro _
    | extract_lets -underBinder +onlyGivenNames x
      first
        | have hx : Kept pq x := by
            try dsimp only [x]
            repeat' (with_reducible first | assumption | fail_if_no_progress beta_reduce | apply keep_setRgBit | apply keep_reqDone | apply hF_set)
        | have hF_set : ∀ y0, Kept pq y0 → Kept pq (x y0) := by
            intro y0 hy0
            try dsimp only [x]
            repeat' (with_reducible first | assumption | fail_if_no_progress beta_reduce | apply keep_setRgBit)
        | skip
      try clear_value x
    | fail_if_no_progress beta_reduce | apply keep_setRgBit | apply keep_reqDone | apply hF_set | apply Kept.ite | intro _ | fail_if_no_progress (apply Kept.upd)

theorem keep_wdgReload (n : Nat) (s : State) (h_s : Kept pq s) : Kept pq (wdgReload n s) := by
  unfold wdgReload
  repeat'
    with_reducible first
    | assumption | intro _
    | extract_lets -underBinder +onlyGivenNames x
      first
        | have hx : Kept pq x := by
            try dsimp only [x]
            repeat' (with_reducible first | assumption | fail_if_no_progress beta_reduce | apply keep_setRg | apply keep_setWdg | apply Kept.ite | intro _ | fail_if_no_progress (apply Kept.upd) | split | beta_reduce)
        | skip
      try clear_value x
    | fail_if_no_progress beta_reduce | apply keep_setRg | apply keep_setWdg | apply Kept.ite

theorem keep_standbyResume (n : Nat) (s : State) (h_s : Kept pq s) : Kept pq (standbyResume n s) := by
  unfold standbyResume
  repeat'
    with_reducible first
    | assumption | intro _
    | extract_lets -underBinder +onlyGivenNames x
      first
        | have hx : Kept pq x := by
            try dsimp only [x]
            repeat' (with_reducible first | assumption | fail_if_no_progress beta_reduce | apply keep_setRgFld | apply keep_carrierRestart | apply keep_selvedgeRestore | apply keep_eachElem | apply keep_wdgReload | apply Kept.ite | apply Kept.foldl | intro _ | fail_if_no_progress (apply Kept.upd))
        | skip
      try clear_value x
    | fail_if_no_progress beta_reduce | apply keep_setRgFld | apply keep_carrierRestart | apply keep_selvedgeRestore | apply keep_eachElem

theorem keep_standbyWake (n : Nat) (s : State) (h_s : Kept pq s) : Kept pq (standbyWake n s) := by
  unfold standbyWake
  repeat' (with_reducible first | assumption | fail_if_no_progress beta_reduce | apply keep_setMode | apply keep_standbyResume | apply Kept.ite | intro _)

theorem keep_hibernateReset (n : Nat) (s : State) (h_s : Kept pq s) : Kept pq (hibernateReset n s) := by
  unfold hibernateReset
  repeat'
    with_reducible first
    | assumption | intro _
    | extract_lets -underBinder +onlyGivenNames x
      first
        | have hx : Kept pq x := by
            try dsimp only [x]
            repeat' (with_reducible first | assumption | fail_if_no_progress beta_reduce | apply keep_setRg | apply keep_selvedgeRestore | apply keep_warmReset | apply Kept.ite | intro _ | fail_if_no_progress (apply Kept.upd))
        | skip
      try clear_value x
    | fail_if_no_progress beta_reduce | apply keep_setRg | apply keep_selvedgeRestore | apply keep_warmReset | apply Kept.ite

theorem keep_hibernateWake (n : Nat) (s : State) (h_s : Kept pq s) : Kept pq (hibernateWake n s) := by
  unfold hibernateWake
  repeat' (with_reducible first | assumption | fail_if_no_progress beta_reduce | apply keep_hibernateReset | apply Kept.ite | intro _)

theorem keep_aonReading (n : Nat) (t : Int) (s : State) (h_s : Kept pq s) : Kept pq (aonReading n t s) := by
  unfold aonReading
  repeat'
    with_reducible first
    | assumption | intro _
    | extract_lets -underBinder +onlyGivenNames x
      first
        | have hx : Kept pq x := by
            try dsimp only [x]
            repeat' (with_reducible first | assumption | fail_if_no_progress beta_reduce | apply keep_setRg | apply Kept.ite | intro _ | fail_if_no_progress (apply Kept.upd))
        | skip
      try clear_value x
    | fail_if_no_progress beta_reduce | apply keep_setRg | apply Kept.ite

theorem keep_aonTempWake (n : Nat) (t : Int) (s : State) (h_s : Kept pq s) : Kept pq (aonTempWake n t s) := by
  unfold aonTempWake
  repeat'
    with_reducible first
    | assumption | intro _
    | extract_lets -underBinder +onlyGivenNames x
      first
        | have hx : Kept pq x := by
            try dsimp only [x]
            repeat' (with_reducible first | assumption | fail_if_no_progress beta_reduce | apply keep_setRgBit | apply keep_enterSafeHold | apply keep_standbyResume | apply keep_hibernateReset | apply keep_aonReading)
        | have hF_mark : ∀ y0, Kept pq y0 → Kept pq (x y0) := by
            intro y0 hy0
            try dsimp only [x]
            repeat' (with_reducible first | assumption | fail_if_no_progress beta_reduce | apply keep_setRgBit)
      try clear_value x
    | fail_if_no_progress beta_reduce | apply keep_setRgBit | apply keep_enterSafeHold | apply keep_standbyResume | apply keep_hibernateReset | apply keep_aonReading | apply hF_mark | apply Kept.ite

theorem keep_slowAlarm (s : State) (h_s : Kept pq s) : Kept pq (slowAlarm s) := by
  unfold slowAlarm
  repeat'
    with_reducible first
    | assumption | intro _
    | extract_lets -underBinder +onlyGivenNames x
      first
        | have hx : Kept pq x := by
            try dsimp only [x]
            repeat' (with_reducible first | assumption | fail_if_no_progress beta_reduce | apply keep_wakeSource | apply Kept.ite | intro _ | fail_if_no_progress (apply Kept.upd) | split | beta_reduce)
        | skip
      try clear_value x
    | fail_if_no_progress beta_reduce | apply keep_wakeSource | apply Kept.ite | intro _ | fail_if_no_progress (apply Kept.upd)

theorem keep_alarmHiWrite (v : Word) (sec : Bool) (s : State) (h_s : Kept pq s) : KeptR pq (alarmHiWrite v sec s) := by
  unfold alarmHiWrite
  repeat'
    with_reducible first
    | assumption | intro _
    | extract_lets -underBinder +onlyGivenNames x
      first
        | have hx : Kept pq x := by
            try dsimp only [x]
            repeat' (with_reducible first | assumption | fail_if_no_progress beta_reduce | apply keep_plainWrite)
        | skip
      try clear_value x
    | fail_if_no_progress beta_reduce | apply keep_plainWrite | apply Kept.ite | fail_if_no_progress (apply KeptR.mk <;> try apply Kept.of2) | apply Kept.of2 | apply Kept.snd (by assumption) | apply KeptR.ite | intro _ | fail_if_no_progress (apply Kept.upd)

theorem keep_wakeComparator (w : Nat) (active : Bool) (v n : Nat) (s : State) (h_s : Kept pq s) : Kept pq (wakeComparator w active v n s) := by
  unfold wakeComparator
  repeat'
    with_reducible first
    | assumption | intro _
    | extract_lets -underBinder +onlyGivenNames x
      first
        | have hx : Kept pq x := by
            try dsimp only [x]
            repeat' (with_reducible first | assumption | fail_if_no_progress beta_reduce | apply keep_setRgBit)
        | skip
      try clear_value x
    | fail_if_no_progress beta_reduce | apply keep_setRgBit | apply keep_raiseEvent | apply keep_wakeSource | apply Kept.ite

theorem keep_budgetUpdate (s : State) (h_s : Kept pq s) : Kept pq (budgetUpdate s) := by
  unfold budgetUpdate
  repeat'
    with_reducible first
    | assumption | intro _
    | extract_lets -underBinder +onlyGivenNames x
      first
        | have hx : Kept pq x := by
            try dsimp only [x]
            repeat' (with_reducible first | assumption | fail_if_no_progress beta_reduce | apply keep_setRgFld | apply keep_boostFallback | apply Kept.ite | intro _ | fail_if_no_progress (apply Kept.upd))
        | skip
      try clear_value x
    | fail_if_no_progress beta_reduce | apply keep_setRgFld | apply keep_boostFallback | apply Kept.ite | intro _ | fail_if_no_progress (apply Kept.upd) | split

theorem keep_railAverage (ma : Nat) (s : State) (h_s : Kept pq s) : Kept pq (railAverage ma s) := by
  unfold railAverage
  repeat'
    with_reducible first
    | assumption | intro _
    | extract_lets -underBinder +onlyGivenNames x
      first
        | have hx : Kept pq x := by
            try dsimp only [x]
            repeat' (with_reducible first | assumption | fail_if_no_progress beta_reduce | apply keep_setRg | apply keep_setRgBit | apply keep_boostFallback)
        | skip
      try clear_value x
    | fail_if_no_progress beta_reduce | apply keep_setRg | apply keep_setRgBit | apply keep_boostFallback | apply Kept.ite | intro _ | fail_if_no_progress (apply Kept.upd)

theorem keep_tempThresholds (ts : List Int) (s : State) (h_s : Kept pq s) : Kept pq (tempThresholds ts s) := by
  unfold tempThresholds
  repeat'
    with_reducible first
    | assumption | intro _
    | extract_lets -underBinder +onlyGivenNames x
      first
        | have hx : Kept pq x := by
            try dsimp only [x]
            repeat' (with_reducible first | assumption | fail_if_no_progress beta_reduce | apply keep_setRg | apply keep_setRgBit | apply keep_raiseEvent | apply keep_safeHoldCause | apply keep_causeEnds | apply keep_boostFallback | apply hF_flag | apply Kept.ite | apply Kept.foldl | intro _ | fail_if_no_progress (apply Kept.upd) | split)
        | have hF_flag : ∀ y0 y1, Kept pq y1 → Kept pq (x y0 y1) := by
            intro y0 y1 hy1
            try dsimp only [x]
            repeat' (with_reducible first | assumption | fail_if_no_progress beta_reduce | apply keep_setRg | apply keep_setRgBit)
        | skip
      try clear_value x
    | fail_if_no_progress beta_reduce | apply keep_setRg | apply keep_setRgBit | apply keep_raiseEvent | apply keep_safeHoldCause | apply keep_causeEnds | apply keep_boostFallback | apply hF_flag | apply Kept.ite

theorem keep_tempMeasure (ts : List Int) (s0 : State) (h_s0 : Kept pq s0) : Kept pq (tempMeasure ts s0) := by
  unfold tempMeasure
  repeat'
    with_reducible first
    | assumption | intro _
    | extract_lets -underBinder +onlyGivenNames x
      first
        | have hx : Kept pq x := by
            try dsimp only [x]
            repeat' (with_reducible first | assumption | fail_if_no_progress beta_reduce | apply keep_resetBy | apply keep_tempThresholds | apply Kept.ite | intro _ | fail_if_no_progress (apply Kept.upd))
        | skip
      try clear_value x
    | fail_if_no_progress beta_reduce | apply keep_resetBy | apply keep_tempThresholds | apply Kept.ite | intro _ | fail_if_no_progress (apply Kept.upd)

theorem keep_setClock (i f : Nat) (s : State) (h_s : Kept pq s) : Kept pq (setClock i f s) := by
  unfold setClock
  repeat'
    with_reducible first
    | assumption | intro _
    | extract_lets -underBinder +onlyGivenNames x
      first
        | have hx : Kept pq x := by
            try dsimp only [x]
            repeat' (with_reducible first | assumption | fail_if_no_progress beta_reduce | apply keep_setRgFld | apply keep_reserveCheck)
      try clear_value x
    | fail_if_no_progress beta_reduce | apply keep_setRgFld | apply keep_reserveCheck | apply keep_overloadCheck | apply Kept.ite | apply Kept.foldl

theorem keep_stepTimes (i : Nat) (s : State) (h_s : Kept pq s) : Kept pq (stepTimes i s) := by
  unfold stepTimes
  repeat' (with_reducible first | assumption | fail_if_no_progress beta_reduce | apply Kept.ite | intro _ | fail_if_no_progress (apply Kept.upd))

theorem keep_clockStep (i : Nat) (s : State) (h_s : Kept pq s) : Kept pq (clockStep i s) := by
  unfold clockStep
  repeat'
    with_reducible first
    | assumption | intro _
    | extract_lets -underBinder +onlyGivenNames x
      first
        | have hx : Kept pq x := by
            try dsimp only [x]
            repeat' (with_reducible first | assumption | fail_if_no_progress beta_reduce | apply keep_setClock | apply Kept.ite | intro _ | fail_if_no_progress (apply Kept.upd))
        | skip
      try clear_value x
    | fail_if_no_progress beta_reduce | apply keep_setClock | apply Kept.ite

theorem keep_trimStep (i : Nat) (s : State) (h_s : Kept pq s) : Kept pq (trimStep i s) := by
  unfold trimStep
  repeat'
    with_reducible first
    | assumption | intro _
    | extract_lets -underBinder +onlyGivenNames x
      first
        | have hx : Kept pq x := by
            try dsimp only [x]
            repeat' (with_reducible first | assumption | fail_if_no_progress beta_reduce | apply keep_setRg | apply Kept.ite | intro _ | fail_if_no_progress (apply Kept.upd))
        | skip
      try clear_value x
    | fail_if_no_progress beta_reduce | apply keep_setRg | apply Kept.ite

theorem keep_wdgFlag (n i : Nat) (s : State) (h_s : Kept pq s) : Kept pq (wdgFlag n i s) := by
  unfold wdgFlag
  repeat' (with_reducible first | assumption | fail_if_no_progress beta_reduce | apply keep_setRgBit)

theorem keep_wdgLoad (n : Nat) (s : State) (h_s : Kept pq s) : Kept pq (wdgLoad n s) := by
  unfold wdgLoad
  repeat' (with_reducible first | assumption | fail_if_no_progress beta_reduce | apply keep_setRg | apply keep_setWdg)

theorem keep_wdgCfgWrite (n : Nat) (v : Word) (sec : Bool) (s : State) (h_s : Kept pq s) : KeptR pq (wdgCfgWrite n v sec s) := by
  unfold wdgCfgWrite
  repeat'
    with_reducible first
    | assumption | intro _
    | extract_lets -underBinder +onlyGivenNames x
      first
        | have hx : Kept pq x := by
            try dsimp only [x]
            repeat' (with_reducible first | assumption | fail_if_no_progress beta_reduce | apply keep_plainWrite | apply keep_wdgFreezeOne | apply keep_wdgFlag | apply keep_wdgLoad)
      try clear_value x
    | fail_if_no_progress beta_reduce | apply keep_plainWrite | apply keep_wdgFreezeOne | apply keep_wdgFlag | apply keep_wdgLoad | apply Kept.ite | fail_if_no_progress (apply KeptR.mk <;> try apply Kept.of2) | apply Kept.of2 | apply Kept.snd (by assumption) | apply KeptR.ite

theorem keep_wdgReset (n : Nat) (s : State) (h_s : Kept pq s) : Kept pq (wdgReset n s) := by
  unfold wdgReset
  repeat' (with_reducible first | assumption | fail_if_no_progress beta_reduce | apply keep_setRgFld | apply keep_resetBy)

theorem keep_wdgViolation (n i : Nat) (s : State) (h_s : Kept pq s) : Kept pq (wdgViolation n i s) := by
  unfold wdgViolation
  repeat'
    with_reducible first
    | assumption | intro _
    | extract_lets -underBinder +onlyGivenNames x
      first
        | have hx : Kept pq x := by
            try dsimp only [x]
            repeat' (with_reducible first | assumption | fail_if_no_progress beta_reduce | apply keep_setWdg | apply keep_safeHoldCause | apply keep_wdgFlag | apply keep_wdgLoad)
        | skip
      try clear_value x
    | fail_if_no_progress beta_reduce | apply keep_setWdg | apply keep_safeHoldCause | apply keep_wdgFlag | apply keep_wdgLoad | apply keep_wdgReset | apply Kept.ite

theorem keep_wdgService (m : Master) (n : Nat) (v : Word) (s : State) (h_s : Kept pq s) : KeptR pq (wdgService m n v s) := by
  unfold wdgService
  repeat'
    with_reducible first
    | assumption | intro _
    | extract_lets -underBinder +onlyGivenNames x
      first
        | have hx : Kept pq x := by
            try dsimp only [x]
            repeat' (with_reducible first | assumption | fail_if_no_progress beta_reduce | apply keep_setWdg)
        | skip
      try clear_value x
    | fail_if_no_progress beta_reduce | apply keep_setWdg | apply keep_causeEnds | apply keep_wdgLoad | apply keep_wdgViolation | apply Kept.ite | fail_if_no_progress (apply KeptR.mk <;> try apply Kept.of2) | apply Kept.of2 | apply Kept.snd (by assumption) | apply KeptR.ite

theorem keep_wdgWarn (n : Nat) (s : State) (h_s : Kept pq s) : Kept pq (wdgWarn n s) := by
  unfold wdgWarn
  repeat' (with_reducible first | assumption | fail_if_no_progress beta_reduce | apply keep_setWdg | apply keep_raiseEvent | apply keep_wdgFlag)

theorem keep_wdgTick (n : Nat) (s : State) (h_s : Kept pq s) : Kept pq (wdgTick n s) := by
  unfold wdgTick
  repeat'
    with_reducible first
    | assumption | intro _
    | extract_lets -underBinder +onlyGivenNames x
      first
        | have hx : Kept pq x := by
            try dsimp only [x]
            repeat' (with_reducible first | assumption | fail_if_no_progress beta_reduce | apply keep_setRg | apply keep_setWdg | apply Kept.ite | intro _ | fail_if_no_progress (apply Kept.upd) | split | beta_reduce)
        | skip
      try clear_value x
    | fail_if_no_progress beta_reduce | apply keep_setRg | apply keep_setWdg | apply Kept.ite

theorem keep_pmuWrite (m : Master) (o : Nat) (v : Word) (s : State) (h_s : Kept pq s) : KeptR pq (pmuWrite m o v s) := by
  unfold pmuWrite
  repeat'
    with_reducible first
    | assumption | intro _
    | extract_lets -underBinder +onlyGivenNames x
      first
        | have hx : Kept pq x := by
            try dsimp only [x]
            repeat' (with_reducible first | assumption | fail_if_no_progress beta_reduce | apply keep_plainWrite | apply keep_boostWrite | apply keep_pmuCtrlWrite | apply keep_alarmHiWrite | apply keep_wdgCfgWrite | apply keep_wdgService | apply Kept.ite | fail_if_no_progress (apply KeptR.mk <;> try apply Kept.of2) | apply Kept.of2 | apply Kept.snd (by assumption) | apply KeptR.ite | intro _ | fail_if_no_progress (apply Kept.upd) | split | beta_reduce)
        | skip
      try clear_value x
    | fail_if_no_progress beta_reduce | apply keep_plainWrite | apply keep_boostWrite | apply keep_pmuCtrlWrite | apply keep_alarmHiWrite | apply keep_wdgCfgWrite | apply keep_wdgService | apply Kept.ite | fail_if_no_progress (apply KeptR.mk <;> try apply Kept.of2) | apply Kept.of2 | apply Kept.snd (by assumption) | apply KeptR.ite

theorem keep_execReqRun (m : Master) (s : State) (h_s : Kept pq s) : KeptX pq (execReqRun m s) := by
  unfold execReqRun
  repeat' (with_reducible first | assumption | fail_if_no_progress beta_reduce | apply keep_regAccess | apply keep_pmuCtrlWrite | apply Kept.ite | fail_if_no_progress (apply KeptR.mk <;> try apply Kept.of2) | apply Kept.of2 | apply Kept.snd (by assumption) | apply KeptR.ite | apply KeptX.next)

theorem keep_execReqStandby (m : Master) (s : State) (h_s : Kept pq s) : KeptX pq (execReqStandby m s) := by
  unfold execReqStandby
  repeat' (with_reducible first | assumption | fail_if_no_progress beta_reduce | apply keep_regAccess | apply keep_pmuCtrlWrite | apply Kept.ite | fail_if_no_progress (apply KeptR.mk <;> try apply Kept.of2) | apply Kept.of2 | apply Kept.snd (by assumption) | apply KeptR.ite | apply KeptX.next)

theorem keep_execReqHibernate (m : Master) (s : State) (h_s : Kept pq s) : KeptX pq (execReqHibernate m s) := by
  unfold execReqHibernate
  repeat' (with_reducible first | assumption | fail_if_no_progress beta_reduce | apply keep_regAccess | apply keep_pmuCtrlWrite | apply Kept.ite | fail_if_no_progress (apply KeptR.mk <;> try apply Kept.of2) | apply Kept.of2 | apply Kept.snd (by assumption) | apply KeptR.ite | apply KeptX.next)

theorem keep_execReqSafeHold (m : Master) (s : State) (h_s : Kept pq s) : KeptX pq (execReqSafeHold m s) := by
  unfold execReqSafeHold
  repeat' (with_reducible first | assumption | fail_if_no_progress beta_reduce | apply keep_regAccess | apply keep_pmuCtrlWrite | apply Kept.ite | fail_if_no_progress (apply KeptR.mk <;> try apply Kept.of2) | apply Kept.of2 | apply Kept.snd (by assumption) | apply KeptR.ite | apply KeptX.next)

theorem keep_execStandbyEntry (s : State) (h_s : Kept pq s) : KeptX pq (execStandbyEntry s) := by
  unfold execStandbyEntry
  repeat' (with_reducible first | assumption | fail_if_no_progress beta_reduce | apply keep_standbyEntry | apply Kept.ite | apply KeptX.next)

theorem keep_execEntryTimeout (s : State) (h_s : Kept pq s) : KeptX pq (execEntryTimeout s) := by
  unfold execEntryTimeout
  repeat' (with_reducible first | assumption | fail_if_no_progress beta_reduce | apply keep_entryTimeout | apply Kept.ite | apply KeptX.next)

theorem keep_execNwake (s : State) (n : BitVec 16) (h_s : Kept pq s) : KeptX pq (execNwake s n) := by
  unfold execNwake
  repeat'
    with_reducible first
    | assumption | intro _
    | extract_lets -underBinder +onlyGivenNames x
      first
        | have hx : Kept pq x := by
            try dsimp only [x]
            repeat' (with_reducible first | assumption | fail_if_no_progress beta_reduce | apply keep_wakeSource | apply Kept.ite | apply KeptX.next | apply KeptX.ite | intro _ | fail_if_no_progress (apply Kept.upd) | split | beta_reduce)
        | skip
      try clear_value x
    | fail_if_no_progress beta_reduce | apply keep_wakeSource | apply Kept.ite | apply KeptX.next

theorem keep_execSlowAlarm (s : State) (h_s : Kept pq s) : KeptX pq (execSlowAlarm s) := by
  unfold execSlowAlarm
  repeat' (with_reducible first | assumption | fail_if_no_progress beta_reduce | apply keep_slowAlarm | apply Kept.ite | apply KeptX.next)

theorem keep_execAlarmHiWrite (m : Master) (v : Word) (s : State) (h_s : Kept pq s) : KeptX pq (execAlarmHiWrite m v s) := by
  unfold execAlarmHiWrite
  repeat' (with_reducible first | assumption | fail_if_no_progress beta_reduce | apply keep_regAccess | apply keep_alarmHiWrite | apply Kept.ite | fail_if_no_progress (apply KeptR.mk <;> try apply Kept.of2) | apply Kept.of2 | apply Kept.snd (by assumption) | apply KeptR.ite | apply KeptX.next)

theorem keep_execAonTempWake (n : Nat) (s : State) (t : BitVec 16) (h_s : Kept pq s) : KeptX pq (execAonTempWake n s t) := by
  unfold execAonTempWake
  repeat' (with_reducible first | assumption | fail_if_no_progress beta_reduce | apply keep_aonTempWake | apply Kept.ite | apply KeptX.next)

theorem keep_execStandbyWake (n : Nat) (s : State) (h_s : Kept pq s) : KeptX pq (execStandbyWake n s) := by
  unfold execStandbyWake
  repeat' (with_reducible first | assumption | fail_if_no_progress beta_reduce | apply keep_standbyWake | apply Kept.ite | apply KeptX.next)

theorem keep_execHibernateWake (n : Nat) (s : State) (h_s : Kept pq s) : KeptX pq (execHibernateWake n s) := by
  unfold execHibernateWake
  repeat' (with_reducible first | assumption | fail_if_no_progress beta_reduce | apply keep_hibernateWake | apply Kept.ite | apply KeptX.next)

theorem keep_execWakeComparatorActive (w : Fin 4) (active : Bool) (s : State) (v n : BitVec 16) (h_s : Kept pq s) : KeptX pq (execWakeComparatorActive w active s v n) := by
  unfold execWakeComparatorActive
  repeat' (with_reducible first | assumption | fail_if_no_progress beta_reduce | apply keep_wakeComparator | apply Kept.ite | apply KeptX.next)

theorem keep_execBoostReq (m : Master) (v : Word) (s : State) (h_s : Kept pq s) : KeptX pq (execBoostReq m v s) := by
  unfold execBoostReq
  repeat' (with_reducible first | assumption | fail_if_no_progress beta_reduce | apply keep_regAccess | apply keep_boostWrite | apply Kept.ite | fail_if_no_progress (apply KeptR.mk <;> try apply Kept.of2) | apply Kept.of2 | apply Kept.snd (by assumption) | apply KeptR.ite | apply KeptX.next)

theorem keep_execBoostEntry (s : State) (h_s : Kept pq s) : KeptX pq (execBoostEntry s) := by
  unfold execBoostEntry
  repeat' (with_reducible first | assumption | fail_if_no_progress beta_reduce | apply keep_boostEntry | apply Kept.ite | apply KeptX.next)

theorem keep_execBudgetUpdate (s : State) (h_s : Kept pq s) : KeptX pq (execBudgetUpdate s) := by
  unfold execBudgetUpdate
  repeat' (with_reducible first | assumption | fail_if_no_progress beta_reduce | apply keep_budgetUpdate | apply Kept.ite | apply KeptX.next | apply KeptX.ite | intro _)

theorem keep_execRailAverage (ma : BitVec 16) (s : State) (h_s : Kept pq s) : KeptX pq (execRailAverage ma s) := by
  unfold execRailAverage
  repeat' (with_reducible first | assumption | fail_if_no_progress beta_reduce | apply keep_railAverage | apply Kept.ite | apply KeptX.next | apply KeptX.ite | intro _)

theorem keep_execTempMeasure (ts : Vector (BitVec 16) 12) (s : State) (h_s : Kept pq s) : KeptX pq (execTempMeasure ts s) := by
  unfold execTempMeasure
  repeat' (with_reducible first | assumption | fail_if_no_progress beta_reduce | apply keep_tempMeasure | apply Kept.ite | apply KeptX.next | apply KeptX.ite | intro _)

theorem keep_execXtalFail (s : State) (stop ppm : Nat) (h_s : Kept pq s) : KeptX pq (execXtalFail s stop ppm) := by
  unfold execXtalFail
  repeat'
    with_reducible first
    | assumption | intro _
    | extract_lets -underBinder +onlyGivenNames x
      first
        | have hx : Kept pq x := by
            try dsimp only [x]
            repeat' (with_reducible first | assumption | fail_if_no_progress beta_reduce | apply keep_setRgBit | apply keep_safeHoldCause | apply Kept.ite | apply KeptX.next | apply KeptX.ite | intro _ | fail_if_no_progress (apply Kept.upd) | split | beta_reduce)
        | skip
      try clear_value x
    | fail_if_no_progress beta_reduce | apply keep_setRgBit | apply keep_safeHoldCause | apply Kept.ite | apply KeptX.next

theorem keep_execXtalReturn (s : State) (h_s : Kept pq s) : KeptX pq (execXtalReturn s) := by
  unfold execXtalReturn
  repeat'
    with_reducible first
    | assumption | intro _
    | extract_lets -underBinder +onlyGivenNames x
      first
        | have hx : Kept pq x := by
            try dsimp only [x]
            repeat' (with_reducible first | assumption | fail_if_no_progress beta_reduce | apply keep_setRgBit | apply keep_causeEnds | apply Kept.ite | apply KeptX.next | apply KeptX.ite | intro _ | fail_if_no_progress (apply Kept.upd) | split | beta_reduce)
        | skip
      try clear_value x
    | fail_if_no_progress beta_reduce | apply keep_setRgBit | apply keep_causeEnds | apply Kept.ite | apply KeptX.next

theorem keep_execSlowClockFail (s : State) (stop : Nat) (h_s : Kept pq s) : KeptX pq (execSlowClockFail s stop) := by
  unfold execSlowClockFail
  repeat' (with_reducible first | assumption | fail_if_no_progress beta_reduce | apply keep_setRgBit | apply Kept.ite | apply KeptX.next | apply KeptX.ite | intro _)

theorem keep_execIslClockStep (i : Fin 8) (s : State) (h_s : Kept pq s) : KeptX pq (execIslClockStep i s) := by
  unfold execIslClockStep
  repeat' (with_reducible first | assumption | fail_if_no_progress beta_reduce | apply keep_clockStep | apply Kept.ite | apply KeptX.next | apply KeptX.ite | intro _)

theorem keep_execIslTrimStep (i : Fin 8) (s : State) (h_s : Kept pq s) : KeptX pq (execIslTrimStep i s) := by
  unfold execIslTrimStep
  repeat' (with_reducible first | assumption | fail_if_no_progress beta_reduce | apply keep_trimStep | apply Kept.ite | apply KeptX.next | apply KeptX.ite | intro _)

theorem keep_execPowerOnReset (straps : BitVec 2) (s : State) (supplies : Bool) (h_s : Kept pq s) : KeptX pq (execPowerOnReset straps s supplies) := by
  unfold execPowerOnReset
  repeat'
    with_reducible first
    | assumption | intro _
    | extract_lets -underBinder +onlyGivenNames x
      first
        | have hx : Kept pq x := by
            try dsimp only [x]
            repeat' (with_reducible first | assumption | fail_if_no_progress beta_reduce | apply keep_haltAtStart | apply keep_coldState)
        | skip
      try clear_value x
    | fail_if_no_progress beta_reduce | apply keep_haltAtStart | apply keep_coldState | apply keep_resetCause | apply Kept.ite | apply KeptX.next | apply KeptX.ite | intro _ | fail_if_no_progress (apply Kept.upd)

theorem keep_brownout (n : Nat) (back : Bool) (s : State) (h_s : Kept pq s) : Kept pq (brownout n back s) := by
  unfold brownout
  repeat' (with_reducible first | assumption | fail_if_no_progress beta_reduce | apply keep_resetBy | apply Kept.ite | intro _ | fail_if_no_progress (apply Kept.upd))

theorem keep_execBrownoutReset (s : State) (n : Nat) (back : Bool) (h_s : Kept pq s) : KeptX pq (execBrownoutReset s n back) := by
  unfold execBrownoutReset
  repeat' (with_reducible first | assumption | fail_if_no_progress beta_reduce | apply keep_brownout | apply Kept.ite | apply KeptX.next)

theorem keep_execPinReset (straps : BitVec 2) (s : State) (n : Nat) (h_s : Kept pq s) : KeptX pq (execPinReset straps s n) := by
  unfold execPinReset
  repeat' (with_reducible first | assumption | fail_if_no_progress beta_reduce | apply keep_warmReset | apply Kept.ite | apply KeptX.next | apply KeptX.ite | intro _)

theorem keep_execSwrst (m : Master) (s : State) (h_s : Kept pq s) : KeptX pq (execSwrst m s) := by
  unfold execSwrst
  repeat' (with_reducible first | assumption | fail_if_no_progress beta_reduce | apply keep_regAccess | apply keep_pmuCtrlWrite | apply Kept.ite | fail_if_no_progress (apply KeptR.mk <;> try apply Kept.of2) | apply Kept.of2 | apply Kept.snd (by assumption) | apply KeptR.ite | apply KeptX.next)

theorem keep_execWdgEnable (m : Master) (n : Fin 6) (v : Word) (s : State) (h_s : Kept pq s) : KeptX pq (execWdgEnable m n v s) := by
  unfold execWdgEnable
  repeat' (with_reducible first | assumption | fail_if_no_progress beta_reduce | apply keep_regAccess | apply keep_wdgCfgWrite | apply Kept.ite | fail_if_no_progress (apply KeptR.mk <;> try apply Kept.of2) | apply Kept.of2 | apply Kept.snd (by assumption) | apply KeptR.ite | apply KeptX.next)

theorem keep_execWdgService (m : Master) (n : Fin 6) (v : Word) (s : State) (h_s : Kept pq s) : KeptX pq (execWdgService m n v s) := by
  unfold execWdgService
  repeat' (with_reducible first | assumption | fail_if_no_progress beta_reduce | apply keep_regAccess | apply keep_wdgService | apply Kept.ite | fail_if_no_progress (apply KeptR.mk <;> try apply Kept.of2) | apply Kept.of2 | apply Kept.snd (by assumption) | apply KeptR.ite | apply KeptX.next)

theorem keep_execWdgWarning (n : Fin 6) (s : State) (h_s : Kept pq s) : KeptX pq (execWdgWarning n s) := by
  unfold execWdgWarning
  repeat' (with_reducible first | assumption | fail_if_no_progress beta_reduce | apply keep_wdgWarn | apply Kept.ite | apply KeptX.next | apply KeptX.ite | intro _)

theorem keep_execWdgExpiry (n : Fin 6) (s : State) (h_s : Kept pq s) : KeptX pq (execWdgExpiry n s) := by
  unfold execWdgExpiry
  repeat' (with_reducible first | assumption | fail_if_no_progress beta_reduce | apply keep_wdgViolation | apply Kept.ite | apply KeptX.next | apply KeptX.ite | intro _)

theorem keep_execPowerDown (s : State) (h_s : Kept pq s) : KeptX pq (execPowerDown s) := by
  unfold execPowerDown
  repeat' (with_reducible first | assumption | fail_if_no_progress beta_reduce | apply keep_setRg | apply keep_coldState | apply Kept.ite | apply KeptX.next | apply KeptX.ite | intro _ | fail_if_no_progress (apply Kept.upd))

end Sys2Proof.Machine
end

