-- ==== Sys2Proof/Laws/KeepQueue.lean ====
section
/-! SUPPORT. What the functions of `Queue` keep: the queue, and the canonical form of memory and registers. -/

namespace Sys2Proof.Machine

variable {pq : List Instr}

theorem keep_autoPlaced (q : Nat) (base : Option Word) (was : State) (h_was : Kept pq was) : Kept pq (autoPlaced q base was) := by
  unfold autoPlaced
  repeat'
    with_reducible first
    | assumption | intro _
    | extract_lets -underBinder +onlyGivenNames x
      first
        | have hx : Kept pq x := by
            try dsimp only [x]
            repeat' (with_reducible first | assumption | fail_if_no_progress beta_reduce | apply keep_qSet | apply keep_qmFlag | apply keep_qFail | apply keep_queueOpen | apply Kept.ite | fail_if_no_progress (apply KeptR.mk <;> try apply Kept.of2) | apply Kept.of2)
        | have hx : KeptR pq x := by
            try dsimp only [x]
            repeat' (with_reducible first | assumption | fail_if_no_progress beta_reduce | apply keep_qSet | apply keep_qmFlag | apply keep_qFail | apply keep_queueOpen)
        | skip
      try clear_value x
    | fail_if_no_progress beta_reduce | apply keep_qSet | apply keep_qmFlag | apply keep_qFail | apply keep_queueOpen | apply Kept.ite | fail_if_no_progress (apply KeptR.mk <;> try apply Kept.of2) | apply Kept.of2 | apply Kept.snd (by assumption) | apply KeptR.ite | intro _ | fail_if_no_progress (apply Kept.upd) | split

theorem keep_setNotify (t : Nat) (l : List Nat) (s : State) (h_s : Kept pq s) : Kept pq (setNotify t l s) := by
  unfold setNotify
  repeat' (with_reducible first | assumption | fail_if_no_progress beta_reduce | apply Kept.ite | intro _ | fail_if_no_progress (apply Kept.upd))

theorem keep_notifyContext (q : Nat) (s : State) (h_s : Kept pq s) : Kept pq (notifyContext q s) := by
  unfold notifyContext
  repeat'
    with_reducible first
    | assumption | intro _
    | extract_lets -underBinder +onlyGivenNames x
      first
        | have hx : Kept pq x := by
            try dsimp only [x]
            repeat' (with_reducible first | assumption | fail_if_no_progress beta_reduce | apply keep_wakeCtx | apply keep_dropEvent | apply Kept.ite | intro _ | fail_if_no_progress (apply Kept.upd) | split | beta_reduce)
        | skip
      try clear_value x
    | fail_if_no_progress beta_reduce | apply keep_wakeCtx | apply keep_dropEvent | apply Kept.ite

theorem keep_notifyCheck (q : Nat) (s : State) (h_s : Kept pq s) : Kept pq (notifyCheck q s) := by
  unfold notifyCheck
  repeat'
    with_reducible first
    | assumption | intro _
    | extract_lets -underBinder +onlyGivenNames x
      first
        | have hx : Kept pq x := by
            try dsimp only [x]
            repeat' (with_reducible first | assumption | fail_if_no_progress beta_reduce | apply keep_dropEvent | apply keep_qSet | apply keep_qmFlag | apply keep_setNotify | apply Kept.ite | intro _ | fail_if_no_progress (apply Kept.upd) | split | beta_reduce)
        | skip
      try clear_value x
    | fail_if_no_progress beta_reduce | apply keep_dropEvent | apply keep_qSet | apply keep_qmFlag | apply keep_setNotify | apply Kept.ite

theorem keep_qProduce (q n : Nat) (s : State) (h_s : Kept pq s) : Kept pq (qProduce q n s) := by
  unfold qProduce
  repeat'
    with_reducible first
    | assumption | intro _
    | extract_lets -underBinder +onlyGivenNames x
      first
        | have hx : Kept pq x := by
            try dsimp only [x]
            repeat' (with_reducible first | assumption | fail_if_no_progress beta_reduce | apply keep_qIndices)
        | skip
      try clear_value x
    | fail_if_no_progress beta_reduce | apply keep_qIndices | apply keep_notifyContext | apply keep_notifyCheck | apply Kept.ite | intro _ | fail_if_no_progress (apply Kept.upd) | split

theorem keep_qConsume (q n : Nat) (s : State) (h_s : Kept pq s) : Kept pq (qConsume q n s) := by
  unfold qConsume
  repeat'
    with_reducible first
    | assumption | intro _
    | extract_lets -underBinder +onlyGivenNames x
      first
        | have hx : Kept pq x := by
            try dsimp only [x]
            repeat' (with_reducible first | assumption | fail_if_no_progress beta_reduce | apply keep_qSet | apply keep_qIndices | apply keep_forgetTries)
      try clear_value x
    | fail_if_no_progress beta_reduce | apply keep_qSet | apply keep_qIndices | apply keep_forgetTries | apply keep_notifyContext | apply keep_notifyCheck | apply Kept.ite | intro _ | fail_if_no_progress (apply Kept.upd) | split

theorem keep_qDrop (q : Nat) (s : State) (h_s : Kept pq s) : Kept pq (qDrop q s) := by
  unfold qDrop
  repeat'
    with_reducible first
    | assumption | intro _
    | extract_lets -underBinder +onlyGivenNames x
      first
        | have hx : Kept pq x := by
            try dsimp only [x]
            repeat' (with_reducible first | assumption | fail_if_no_progress beta_reduce | apply keep_qSet | apply Kept.ite | intro _ | fail_if_no_progress (apply Kept.upd) | split | beta_reduce)
        | skip
      try clear_value x
    | fail_if_no_progress beta_reduce | apply keep_qSet | apply Kept.ite

theorem keep_pushElem (mid : Fin 32) (q : Nat) (world : Bool) (bytes : List Byte) (was : State) (h_was : Kept pq was) : KeptR pq (pushElem mid q world bytes was) := by
  unfold pushElem
  repeat'
    with_reducible first
    | assumption | intro _
    | extract_lets -underBinder +onlyGivenNames x
      first
        | have hx : Kept pq x := by
            try dsimp only [x]
            repeat' (with_reducible first | assumption | fail_if_no_progress beta_reduce | apply keep_agentWrite | apply keep_queueOpen | apply keep_qProduce | apply keep_qDrop | apply Kept.ite | fail_if_no_progress (apply KeptR.mk <;> try apply Kept.of2) | apply Kept.of2)
        | have hx : KeptR pq x := by
            try dsimp only [x]
            repeat' (with_reducible first | assumption | fail_if_no_progress beta_reduce | apply keep_agentWrite | apply keep_queueOpen)
      try clear_value x
    | fail_if_no_progress beta_reduce | apply keep_agentWrite | apply keep_queueOpen | apply keep_qProduce | apply keep_qDrop | apply Kept.ite | fail_if_no_progress (apply KeptR.mk <;> try apply Kept.of2) | apply Kept.of2 | apply Kept.snd (by assumption) | apply KeptR.ite | intro _ | fail_if_no_progress (apply Kept.upd) | split

theorem keep_qmError (m : Master) (q code : Nat) (s : State) (h_s : Kept pq s) : KeptR pq (qmError m q code s) := by
  unfold qmError
  repeat'
    with_reducible first
    | assumption | intro _
    | extract_lets -underBinder +onlyGivenNames x
      first
        | have hx : Kept pq x := by
            try dsimp only [x]
            repeat' (with_reducible first | assumption | fail_if_no_progress beta_reduce | apply keep_setRg | apply keep_setRgBit | apply Kept.ite | fail_if_no_progress (apply KeptR.mk <;> try apply Kept.of2) | apply Kept.of2 | apply Kept.snd (by assumption) | apply KeptR.ite | intro _ | fail_if_no_progress (apply Kept.upd) | split | beta_reduce)
        | skip
      try clear_value x
    | fail_if_no_progress beta_reduce | apply keep_setRg | apply keep_setRgBit | apply Kept.ite | fail_if_no_progress (apply KeptR.mk <;> try apply Kept.of2)

theorem keep_qmWrite (m : Master) (cons : Bool) (v : Word) (was : State) (h_was : Kept pq was) : KeptR pq (qmWrite m cons v was) := by
  unfold qmWrite
  repeat'
    with_reducible first
    | assumption | intro _
    | extract_lets -underBinder +onlyGivenNames x
      first
        | have hx : Kept pq x := by
            try dsimp only [x]
            repeat' (with_reducible first | assumption | fail_if_no_progress beta_reduce | apply keep_queueOpen | apply keep_qProduce | apply keep_qConsume | apply keep_qmError | apply Kept.ite | fail_if_no_progress (apply KeptR.mk <;> try apply Kept.of2) | apply Kept.of2)
        | have hx : KeptR pq x := by
            try dsimp only [x]
            repeat' (with_reducible first | assumption | fail_if_no_progress beta_reduce | apply keep_queueOpen)
        | skip
      try clear_value x
    | fail_if_no_progress beta_reduce | apply keep_queueOpen | apply keep_qProduce | apply keep_qConsume | apply keep_qmError | apply Kept.ite | fail_if_no_progress (apply KeptR.mk <;> try apply Kept.of2) | apply Kept.of2 | apply Kept.snd (by assumption) | apply KeptR.ite

theorem keep_npopRead (m : Master) (t : Nat) (s : State) (h_s : Kept pq s) : KeptR pq (npopRead m t s) := by
  unfold npopRead
  repeat' (with_reducible first | assumption | fail_if_no_progress beta_reduce | apply keep_setNotify | apply Kept.ite | fail_if_no_progress (apply KeptR.mk <;> try apply Kept.of2) | apply Kept.of2 | apply Kept.snd (by assumption) | apply KeptR.ite | intro _ | fail_if_no_progress (apply Kept.upd) | split)

theorem keep_execQueueEnable (m : Master) (q : Fin 8192) (v : Word) (s : State) (h_s : Kept pq s) : KeptX pq (execQueueEnable m q v s) := by
  unfold execQueueEnable
  repeat' (with_reducible first | assumption | fail_if_no_progress beta_reduce | apply keep_worldCheck | apply keep_qctlWrite | apply Kept.ite | fail_if_no_progress (apply KeptR.mk <;> try apply Kept.of2) | apply Kept.of2 | apply Kept.snd (by assumption) | apply KeptR.ite | apply KeptX.next | apply KeptX.ite | intro _ | fail_if_no_progress (apply Kept.upd))

theorem keep_execQueueAutoPlaced (q : Fin 8192) (base : Option Word) (s : State) (h_s : Kept pq s) : KeptX pq (execQueueAutoPlaced q base s) := by
  unfold execQueueAutoPlaced
  repeat' (with_reducible first | assumption | fail_if_no_progress beta_reduce | apply keep_autoPlaced | apply Kept.ite | apply KeptX.next)

theorem keep_execQmProd (m : Master) (v : Word) (s : State) (h_s : Kept pq s) : KeptX pq (execQmProd m v s) := by
  unfold execQmProd
  repeat' (with_reducible first | assumption | fail_if_no_progress beta_reduce | apply keep_regAccess | apply keep_qmWrite | apply Kept.ite | fail_if_no_progress (apply KeptR.mk <;> try apply Kept.of2) | apply Kept.of2 | apply Kept.snd (by assumption) | apply KeptR.ite | apply KeptX.next)

theorem keep_execQmCons (m : Master) (v : Word) (s : State) (h_s : Kept pq s) : KeptX pq (execQmCons m v s) := by
  unfold execQmCons
  repeat' (with_reducible first | assumption | fail_if_no_progress beta_reduce | apply keep_regAccess | apply keep_qmWrite | apply Kept.ite | fail_if_no_progress (apply KeptR.mk <;> try apply Kept.of2) | apply Kept.of2 | apply Kept.snd (by assumption) | apply KeptR.ite | apply KeptX.next)

theorem keep_execNpop (m : Master) (t : Fin 5) (s : State) (h_s : Kept pq s) : KeptX pq (execNpop m t s) := by
  unfold execNpop
  repeat' (with_reducible first | assumption | fail_if_no_progress beta_reduce | apply keep_regAccess | apply keep_npopRead | apply Kept.ite | fail_if_no_progress (apply KeptR.mk <;> try apply Kept.of2) | apply Kept.of2 | apply Kept.snd (by assumption) | apply KeptR.ite | apply KeptX.next)

end Sys2Proof.Machine
end

