-- ==== Sys2Proof/Laws/KeepEther.lean ====
section
/-! SUPPORT. What the functions of `Ether` keep: the queue, and the canonical form of memory and registers. -/

namespace Sys2Proof.Machine

variable {pq : List Instr}

theorem keep_ethFlag (p i : Nat) (s : State) (h_s : Kept pq s) : Kept pq (ethFlag p i s) := by
  unfold ethFlag
  repeat' (with_reducible first | assumption | fail_if_no_progress beta_reduce | apply keep_setRgBit)

theorem keep_ethLink (p : Nat) (up : Bool) (s : State) (h_s : Kept pq s) : Kept pq (ethLink p up s) := by
  unfold ethLink
  repeat' (with_reducible first | assumption | fail_if_no_progress beta_reduce | apply keep_setRgBit | apply keep_raiseEvent | apply keep_ethFlag | apply Kept.ite | intro _)

theorem keep_ethNegotiated (p : Nat) (up full rfault : Bool) (s : State) (h_s : Kept pq s) : Kept pq (ethNegotiated p up full rfault s) := by
  unfold ethNegotiated
  repeat'
    with_reducible first
    | assumption | intro _
    | extract_lets -underBinder +onlyGivenNames x
      first
        | have hx : Kept pq x := by
            try dsimp only [x]
            repeat' (with_reducible first | assumption | fail_if_no_progress beta_reduce | apply keep_setRgBit)
        | skip
      try clear_value x
    | fail_if_no_progress beta_reduce | apply keep_setRgBit | apply keep_ethFlag | apply keep_ethLink | apply Kept.ite

theorem keep_ethCfgWrite (p : Nat) (v : Word) (sec : Bool) (s : State) (h_s : Kept pq s) : KeptR pq (ethCfgWrite p v sec s) := by
  unfold ethCfgWrite
  repeat'
    with_reducible first
    | assumption | intro _
    | extract_lets -underBinder +onlyGivenNames x
      first
        | have hx : Kept pq x := by
            try dsimp only [x]
            repeat' (with_reducible first | assumption | fail_if_no_progress beta_reduce | apply keep_setEth | apply keep_plainWrite)
        | skip
      try clear_value x
    | fail_if_no_progress beta_reduce | apply keep_setEth | apply keep_plainWrite | apply keep_ethLink | apply Kept.ite | fail_if_no_progress (apply KeptR.mk <;> try apply Kept.of2) | apply Kept.of2 | apply Kept.snd (by assumption) | apply KeptR.ite

theorem keep_gtctlWrite (p : Nat) (v : Word) (s : State) (h_s : Kept pq s) : KeptR pq (gtctlWrite p v s) := by
  unfold gtctlWrite
  repeat'
    with_reducible first
    | assumption | intro _
    | extract_lets -underBinder +onlyGivenNames x
      first
        | have hx : Kept pq x := by
            try dsimp only [x]
            repeat' (with_reducible first | assumption | fail_if_no_progress beta_reduce | apply keep_setEth | apply Kept.ite | fail_if_no_progress (apply KeptR.mk <;> try apply Kept.of2) | apply Kept.of2 | apply Kept.snd (by assumption) | apply KeptR.ite | intro _ | fail_if_no_progress (apply Kept.upd) | split | beta_reduce)
        | skip
      try clear_value x
    | fail_if_no_progress beta_reduce | apply keep_setEth | apply Kept.ite | fail_if_no_progress (apply KeptR.mk <;> try apply Kept.of2) | apply Kept.of2 | apply Kept.snd (by assumption) | apply KeptR.ite

theorem keep_ethPush (p q kind : Nat) (world : Bool) (x : EthParse) (f : List Byte) (ts : DWord) (s : State) (h_s : Kept pq s) : Kept pq (ethPush p q kind world x f ts s) := by
  unfold ethPush
  repeat'
    with_reducible first
    | assumption | intro _
    | extract_lets -underBinder +onlyGivenNames x
      first
        | have hx : Kept pq x := by
            try dsimp only [x]
            repeat' (with_reducible first | assumption | fail_if_no_progress beta_reduce | apply keep_bump | apply keep_pushElem | apply keep_ethFlag | apply Kept.ite | fail_if_no_progress (apply KeptR.mk <;> try apply Kept.of2) | apply Kept.of2 | apply Kept.snd (by assumption) | apply KeptR.ite | intro _ | fail_if_no_progress (apply Kept.upd) | split | beta_reduce)
        | skip
      try clear_value x
    | fail_if_no_progress beta_reduce | apply keep_bump | apply keep_pushElem | apply keep_ethFlag | apply Kept.ite | fail_if_no_progress (apply KeptR.mk <;> try apply Kept.of2) | apply Kept.of2

theorem keep_ethPushOwn (p q kind : Nat) (x : EthParse) (f : List Byte) (ts : DWord) (s : State) (h_s : Kept pq s) : Kept pq (ethPushOwn p q kind x f ts s) := by
  unfold ethPushOwn
  repeat' (with_reducible first | assumption | fail_if_no_progress beta_reduce | apply keep_ethPush)

theorem keep_ethDrop (p : Nat) (s : State) (h_s : Kept pq s) : Kept pq (ethDrop p s) := by
  unfold ethDrop
  repeat' (with_reducible first | assumption | fail_if_no_progress beta_reduce | apply keep_bump | apply keep_ethFlag)

theorem keep_lastSeq (p c : Nat) (v : Word) (s : State) (h_s : Kept pq s) : Kept pq (lastSeq p c v s) := by
  unfold lastSeq
  repeat'
    with_reducible first
    | assumption | intro _
    | extract_lets -underBinder +onlyGivenNames x
      first
        | have hx : Kept pq x := by
            try dsimp only [x]
            repeat' (with_reducible first | assumption | fail_if_no_progress beta_reduce | apply keep_storeWord | apply keep_ctlOpen | apply Kept.ite | fail_if_no_progress (apply KeptR.mk <;> try apply Kept.of2) | apply Kept.of2 | apply Kept.snd (by assumption) | apply KeptR.ite | intro _ | fail_if_no_progress (apply Kept.upd) | split | beta_reduce)
        | have hx : KeptR pq x := by
            try dsimp only [x]
            repeat' (with_reducible first | assumption | fail_if_no_progress beta_reduce | apply keep_storeWord | apply keep_ctlOpen)
      try clear_value x
    | fail_if_no_progress beta_reduce | apply keep_storeWord | apply keep_ctlOpen | apply Kept.ite | fail_if_no_progress (apply KeptR.mk <;> try apply Kept.of2) | apply Kept.of2

theorem keep_cabinetFrame (p : Nat) (f : List Byte) (x : EthParse) (udp : Option (Nat × Nat)) (body : List Byte) (ts : DWord) (was : State) (h_was : Kept pq was) : Kept pq (cabinetFrame p f x udp body ts was) := by
  unfold cabinetFrame
  repeat'
    with_reducible first
    | assumption | intro _
    | extract_lets -underBinder +onlyGivenNames x
      first
        | have hx : Kept pq x := by
            try dsimp only [x]
            repeat' (with_reducible first | assumption | fail_if_no_progress beta_reduce | apply keep_ptMiss | apply keep_partnerOpen | apply keep_countEntry | apply keep_ethPush | apply keep_lastSeq | apply Kept.ite | fail_if_no_progress (apply KeptR.mk <;> try apply Kept.of2) | apply Kept.of2)
        | have hx : KeptR pq x := by
            try dsimp only [x]
            repeat' (with_reducible first | assumption | fail_if_no_progress beta_reduce | apply keep_ptMiss | apply keep_partnerOpen | apply keep_countEntry | apply keep_ethPush | apply keep_lastSeq | apply Kept.ite | fail_if_no_progress (apply KeptR.mk <;> try apply Kept.of2) | apply Kept.of2 | apply Kept.snd (by assumption) | apply KeptR.ite | intro _)
        | skip
      try clear_value x
    | fail_if_no_progress beta_reduce | apply keep_ptMiss | apply keep_partnerOpen | apply keep_countEntry | apply keep_ethPush | apply keep_lastSeq | apply Kept.ite | fail_if_no_progress (apply KeptR.mk <;> try apply Kept.of2) | apply Kept.of2 | apply Kept.snd (by assumption) | apply KeptR.ite | intro _ | fail_if_no_progress (apply Kept.upd)

theorem keep_ethReceive (p : Nat) (bytes : List Byte) (clean : Bool) (age : Nat) (s : State) (h_s : Kept pq s) : Kept pq (ethReceive p bytes clean age s) := by
  unfold ethReceive
  repeat'
    with_reducible first
    | assumption | intro _
    | extract_lets -underBinder +onlyGivenNames x
      first
        | have hx : Kept pq x := by
            try dsimp only [x]
            repeat' (with_reducible first | assumption | fail_if_no_progress beta_reduce | apply keep_bump)
        | skip
      try clear_value x
    | fail_if_no_progress beta_reduce | apply keep_bump | apply keep_raiseEvent | apply keep_ethFlag | apply keep_ethPushOwn | apply keep_ethDrop | apply keep_cabinetFrame | apply Kept.ite | intro _ | fail_if_no_progress (apply Kept.upd) | split

theorem keep_injRefuse (fr : InjFrame) (ctx code : Nat) (s : State) (h_s : Kept pq s) : Kept pq (injRefuse fr ctx code s) := by
  unfold injRefuse
  repeat'
    with_reducible first
    | assumption | intro _
    | extract_lets -underBinder +onlyGivenNames x
      first
        | have hx : Kept pq x := by
            try dsimp only [x]
            repeat' (with_reducible first | assumption | fail_if_no_progress beta_reduce | apply keep_setRg | apply keep_bump)
      try clear_value x
    | fail_if_no_progress beta_reduce | apply keep_setRg | apply keep_bump | apply keep_raiseEvent | apply keep_qmFlag

theorem keep_injRecord (s : State) (h_s : Kept pq s) : Kept pq (injRecord s) := by
  unfold injRecord
  repeat'
    with_reducible first
    | assumption | intro _
    | extract_lets -underBinder +onlyGivenNames x
      first
        | have hx : Kept pq x := by
            try dsimp only [x]
            repeat' (with_reducible first | assumption | fail_if_no_progress beta_reduce | apply keep_bump | apply keep_offerSetpoint | apply keep_injRefuse | apply Kept.ite | fail_if_no_progress (apply KeptR.mk <;> try apply Kept.of2) | apply Kept.of2 | apply Kept.snd (by assumption) | apply KeptR.ite | intro _ | fail_if_no_progress (apply Kept.upd))
        | skip
      try clear_value x
    | fail_if_no_progress beta_reduce | apply keep_bump | apply keep_offerSetpoint | apply keep_injRefuse | apply Kept.ite | fail_if_no_progress (apply KeptR.mk <;> try apply Kept.of2) | apply Kept.of2 | apply Kept.snd (by assumption) | apply KeptR.ite | intro _ | fail_if_no_progress (apply Kept.upd) | split

theorem keep_qbvWrite (p : Nat) (v : Word) (sec : Bool) (s : State) (h_s : Kept pq s) : KeptR pq (qbvWrite p v sec s) := by
  unfold qbvWrite
  repeat'
    with_reducible first
    | assumption | intro _
    | extract_lets -underBinder +onlyGivenNames x
      first
        | have hx : Kept pq x := by
            try dsimp only [x]
            repeat' (with_reducible first | assumption | fail_if_no_progress beta_reduce | apply keep_setRgBit | apply keep_setEth | apply keep_plainWrite)
        | skip
      try clear_value x
    | fail_if_no_progress beta_reduce | apply keep_setRgBit | apply keep_setEth | apply keep_plainWrite | apply Kept.ite | fail_if_no_progress (apply KeptR.mk <;> try apply Kept.of2) | apply Kept.of2 | apply Kept.snd (by assumption) | apply KeptR.ite

theorem keep_qbvSwitch (p : Nat) (s : State) (h_s : Kept pq s) : Kept pq (qbvSwitch p s) := by
  unfold qbvSwitch
  repeat'
    with_reducible first
    | assumption | intro _
    | extract_lets -underBinder +onlyGivenNames x
      first
        | have hx : Kept pq x := by
            try dsimp only [x]
            repeat' (with_reducible first | assumption | fail_if_no_progress beta_reduce | apply keep_setRg | apply keep_setRgBit | apply keep_setEth | apply Kept.ite | apply Kept.foldl | intro _)
        | skip
      try clear_value x
    | fail_if_no_progress beta_reduce | apply keep_setRg | apply keep_setRgBit | apply keep_setEth

theorem keep_elemPut (p q a : Nat) (bs : List Byte) (s : State) (h_s : Kept pq s) : Kept pq (elemPut p q a bs s) := by
  unfold elemPut
  repeat' (with_reducible first | assumption | fail_if_no_progress beta_reduce | apply keep_agentWrite | apply Kept.ite | fail_if_no_progress (apply KeptR.mk <;> try apply Kept.of2) | apply Kept.of2)

theorem keep_portConsume (p q : Nat) (s : State) (h_s : Kept pq s) : Kept pq (portConsume p q s) := by
  unfold portConsume
  repeat'
    with_reducible first
    | assumption | intro _
    | extract_lets -underBinder +onlyGivenNames x
      first
        | have hx : Kept pq x := by
            try dsimp only [x]
            repeat' (with_reducible first | assumption | fail_if_no_progress beta_reduce | apply keep_queueOpen | apply keep_qConsume | apply Kept.ite | fail_if_no_progress (apply KeptR.mk <;> try apply Kept.of2) | apply Kept.of2 | apply Kept.snd (by assumption) | apply KeptR.ite | intro _ | fail_if_no_progress (apply Kept.upd) | split | beta_reduce)
        | have hx : KeptR pq x := by
            try dsimp only [x]
            repeat' (with_reducible first | assumption | fail_if_no_progress beta_reduce | apply keep_queueOpen)
      try clear_value x
    | fail_if_no_progress beta_reduce | apply keep_queueOpen | apply keep_qConsume | apply Kept.ite | fail_if_no_progress (apply KeptR.mk <;> try apply Kept.of2) | apply Kept.of2

theorem keep_elemDiscard (p q : Nat) (s : State) (h_s : Kept pq s) : Kept pq (elemDiscard p q s) := by
  unfold elemDiscard
  repeat' (with_reducible first | assumption | fail_if_no_progress beta_reduce | apply keep_bump | apply keep_elemPut | apply keep_portConsume)

theorem keep_elemReach (p q : Nat) (s : State) (h_s : Kept pq s) : KeptR pq (elemReach p q s) := by
  unfold elemReach
  repeat'
    with_reducible first
    | assumption | intro _
    | extract_lets -underBinder +onlyGivenNames x
      first
        | have hx : Kept pq x := by
            try dsimp only [x]
            repeat' (with_reducible first | assumption | fail_if_no_progress beta_reduce | apply keep_queueOpen | apply keep_partnerOpen | apply Kept.ite | fail_if_no_progress (apply KeptR.mk <;> try apply Kept.of2) | apply Kept.of2 | apply Kept.snd (by assumption) | apply KeptR.ite | intro _ | fail_if_no_progress (apply Kept.upd) | split | beta_reduce)
        | have hx : KeptR pq x := by
            try dsimp only [x]
            repeat' (with_reducible first | assumption | fail_if_no_progress beta_reduce | apply keep_queueOpen)
      try clear_value x
    | fail_if_no_progress beta_reduce | apply keep_queueOpen | apply keep_partnerOpen | apply Kept.ite | fail_if_no_progress (apply KeptR.mk <;> try apply Kept.of2) | apply Kept.of2 | apply Kept.snd (by assumption) | apply KeptR.ite

theorem keep_ethTransmit (p : Nat) (was : State) (h_was : Kept pq was) : Kept pq (ethTransmit p was) := by
  unfold ethTransmit
  repeat'
    with_reducible first
    | assumption | intro _
    | extract_lets -underBinder +onlyGivenNames x
      first
        | have hx : Kept pq x := by
            try dsimp only [x]
            repeat' (with_reducible first | assumption | fail_if_no_progress beta_reduce | apply keep_setEth | apply keep_agentRead | apply keep_qDrop | apply keep_ethFlag | apply keep_elemDiscard | apply keep_elemReach | apply Kept.ite | fail_if_no_progress (apply KeptR.mk <;> try apply Kept.of2) | apply Kept.of2 | apply Kept.snd (by assumption) | apply KeptR.ite | apply Kept.foldl | apply KeptR.foldl | intro _)
        | have hx : KeptR pq x := by
            try dsimp only [x]
            repeat' (with_reducible first | assumption | fail_if_no_progress beta_reduce | apply keep_setEth | apply keep_agentRead | apply keep_qDrop | apply keep_ethFlag | apply keep_elemDiscard | apply keep_elemReach | apply Kept.ite | fail_if_no_progress (apply KeptR.mk <;> try apply Kept.of2) | apply Kept.of2 | apply Kept.snd (by assumption) | apply KeptR.ite | apply Kept.foldl | apply KeptR.foldl | intro _ | fail_if_no_progress (apply Kept.upd) | split | beta_reduce)
        | skip
      try clear_value x
    | fail_if_no_progress beta_reduce | apply keep_setEth | apply keep_agentRead | apply keep_qDrop | apply keep_ethFlag | apply keep_elemDiscard | apply keep_elemReach | apply Kept.ite | fail_if_no_progress (apply KeptR.mk <;> try apply Kept.of2) | apply Kept.of2 | apply Kept.snd (by assumption) | apply KeptR.ite | apply Kept.foldl | apply KeptR.foldl | intro _ | fail_if_no_progress (apply Kept.upd) | split

theorem keep_ethTxDone (p : Nat) (s : State) (h_s : Kept pq s) : Kept pq (ethTxDone p s) := by
  unfold ethTxDone
  repeat'
    with_reducible first
    | assumption | intro _
    | extract_lets -underBinder +onlyGivenNames x
      first
        | have hx : Kept pq x := by
            try dsimp only [x]
            repeat' (with_reducible first | assumption | fail_if_no_progress beta_reduce | apply keep_setEth | apply keep_bump | apply keep_elemPut | apply keep_portConsume | apply Kept.ite | intro _)
        | skip
      try clear_value x
    | fail_if_no_progress beta_reduce | apply keep_setEth | apply keep_bump | apply keep_elemPut | apply keep_portConsume | apply Kept.ite | intro _ | fail_if_no_progress (apply Kept.upd) | split

theorem keep_mdioWrite (p : Nat) (v : Word) (sec : Bool) (s : State) (h_s : Kept pq s) : KeptR pq (mdioWrite p v sec s) := by
  unfold mdioWrite
  repeat'
    with_reducible first
    | assumption | intro _
    | extract_lets -underBinder +onlyGivenNames x
      first
        | have hx : Kept pq x := by
            try dsimp only [x]
            repeat' (with_reducible first | assumption | fail_if_no_progress beta_reduce | apply keep_setRgBit | apply keep_setEth | apply keep_plainWrite)
        | skip
      try clear_value x
    | fail_if_no_progress beta_reduce | apply keep_setRgBit | apply keep_setEth | apply keep_plainWrite | apply Kept.ite | fail_if_no_progress (apply KeptR.mk <;> try apply Kept.of2) | apply Kept.of2 | apply Kept.snd (by assumption) | apply KeptR.ite

theorem keep_mdioDone (rdata : BitVec 16) (s : State) (h_s : Kept pq s) : Kept pq (mdioDone rdata s) := by
  unfold mdioDone
  repeat'
    with_reducible first
    | assumption | intro _
    | extract_lets -underBinder +onlyGivenNames x
      first
        | have hx : Kept pq x := by
            try dsimp only [x]
            repeat' (with_reducible first | assumption | fail_if_no_progress beta_reduce | apply keep_setRgBit)
        | skip
      try clear_value x
    | fail_if_no_progress beta_reduce | apply keep_setRgBit | apply keep_setRgFld | apply Kept.ite

theorem keep_ethWrite (p o : Nat) (v : Word) (sec : Bool) (s : State) (h_s : Kept pq s) : KeptR pq (ethWrite p o v sec s) := by
  unfold ethWrite
  repeat' (with_reducible first | assumption | fail_if_no_progress beta_reduce | apply keep_plainWrite | apply keep_ethCfgWrite | apply keep_gtctlWrite | apply keep_qbvWrite | apply keep_mdioWrite | apply Kept.ite | fail_if_no_progress (apply KeptR.mk <;> try apply Kept.of2) | apply Kept.of2 | apply Kept.snd (by assumption) | apply KeptR.ite | intro _)

theorem keep_ethTick (p : Nat) (s : State) (h_s : Kept pq s) : Kept pq (ethTick p s) := by
  unfold ethTick
  repeat'
    with_reducible first
    | assumption | intro _
    | extract_lets -underBinder +onlyGivenNames x
      first
        | have hx : Kept pq x := by
            try dsimp only [x]
            repeat' (with_reducible first | assumption | fail_if_no_progress beta_reduce | apply keep_setEth | apply keep_qbvSwitch | apply Kept.ite | intro _ | fail_if_no_progress (apply Kept.upd) | split)
      try clear_value x
    | fail_if_no_progress beta_reduce | apply keep_setEth | apply keep_qbvSwitch | apply Kept.ite

theorem keep_execEthLinkChange (p : Fin 2) (up full rfault : Bool) (s : State) (h_s : Kept pq s) : KeptX pq (execEthLinkChange p up full rfault s) := by
  unfold execEthLinkChange
  repeat' (with_reducible first | assumption | fail_if_no_progress beta_reduce | apply keep_ethNegotiated | apply Kept.ite | apply KeptX.next)

theorem keep_execEthFrameReceived (p : Fin 2) (f : List (BitVec 8)) (fcs : Bool) (age : Nat) (s : State) (h_s : Kept pq s) : KeptX pq (execEthFrameReceived p f fcs age s) := by
  unfold execEthFrameReceived
  repeat' (with_reducible first | assumption | fail_if_no_progress beta_reduce | apply keep_ethReceive | apply Kept.ite | apply KeptX.next)

theorem keep_execInjectionRecord (s : State) (h_s : Kept pq s) : KeptX pq (execInjectionRecord s) := by
  unfold execInjectionRecord
  repeat' (with_reducible first | assumption | fail_if_no_progress beta_reduce | apply keep_injRecord | apply Kept.ite | apply KeptX.next)

theorem keep_execEthTransmit (p : Fin 2) (s : State) (h_s : Kept pq s) : KeptX pq (execEthTransmit p s) := by
  unfold execEthTransmit
  repeat' (with_reducible first | assumption | fail_if_no_progress beta_reduce | apply keep_ethTransmit | apply Kept.ite | apply KeptX.next)

theorem keep_execEthTxDone (p : Fin 2) (s : State) (h_s : Kept pq s) : KeptX pq (execEthTxDone p s) := by
  unfold execEthTxDone
  repeat' (with_reducible first | assumption | fail_if_no_progress beta_reduce | apply keep_ethTxDone | apply Kept.ite | apply KeptX.next)

theorem keep_execGtctlApply (m : Master) (p : Fin 2) (v : Word) (s : State) (h_s : Kept pq s) : KeptX pq (execGtctlApply m p v s) := by
  unfold execGtctlApply
  repeat' (with_reducible first | assumption | fail_if_no_progress beta_reduce | apply keep_regAccess | apply keep_gtctlWrite | apply Kept.ite | fail_if_no_progress (apply KeptR.mk <;> try apply Kept.of2) | apply Kept.of2 | apply Kept.snd (by assumption) | apply KeptR.ite | apply KeptX.next)

theorem keep_execQbvApply (m : Master) (p : Fin 2) (v : Word) (s : State) (h_s : Kept pq s) : KeptX pq (execQbvApply m p v s) := by
  unfold execQbvApply
  repeat' (with_reducible first | assumption | fail_if_no_progress beta_reduce | apply keep_regAccess | apply keep_qbvWrite | apply Kept.ite | fail_if_no_progress (apply KeptR.mk <;> try apply Kept.of2) | apply Kept.of2 | apply Kept.snd (by assumption) | apply KeptR.ite | apply KeptX.next)

theorem keep_execQbvSwitch (p : Fin 2) (s : State) (h_s : Kept pq s) : KeptX pq (execQbvSwitch p s) := by
  unfold execQbvSwitch
  repeat' (with_reducible first | assumption | fail_if_no_progress beta_reduce | apply keep_qbvSwitch | apply Kept.ite | apply KeptX.next | apply KeptX.ite | intro _)

theorem keep_execMdioGo (m : Master) (v : Word) (s : State) (h_s : Kept pq s) : KeptX pq (execMdioGo m v s) := by
  unfold execMdioGo
  repeat' (with_reducible first | assumption | fail_if_no_progress beta_reduce | apply keep_regAccess | apply keep_mdioWrite | apply Kept.ite | fail_if_no_progress (apply KeptR.mk <;> try apply Kept.of2) | apply Kept.of2 | apply Kept.snd (by assumption) | apply KeptR.ite | apply KeptX.next)

theorem keep_execMdioDone (rdata : BitVec 16) (s : State) (h_s : Kept pq s) : KeptX pq (execMdioDone rdata s) := by
  unfold execMdioDone
  repeat' (with_reducible first | assumption | fail_if_no_progress beta_reduce | apply keep_mdioDone | apply Kept.ite | apply KeptX.next)

end Sys2Proof.Machine
end

