-- ==== Sys2Proof/Laws/KeepMonitor.lean ====
section
/-! SUPPORT. What the functions of `Monitor` keep: the queue, and the canonical form of memory and registers. -/

namespace Sys2Proof.Machine

variable {pq : List Instr}

theorem keep_otpSet (w : Nat) (bits : Word) (s : State) (h_s : Kept pq s) : Kept pq (otpSet w bits s) := by
  unfold otpSet
  repeat' (with_reducible first | assumption | fail_if_no_progress beta_reduce | apply keep_storeWord)

theorem keep_setMr (m : Nat) (bs : List Byte) (s : State) (h_s : Kept pq s) : Kept pq (setMr m bs s) := by
  unfold setMr
  repeat' (with_reducible first | assumption | fail_if_no_progress beta_reduce | apply keep_setRg | apply Kept.ite | apply Kept.foldl | intro _)

theorem keep_extend (m : Nat) (digest : List Byte) (s : State) (h_s : Kept pq s) : Kept pq (extend m digest s) := by
  unfold extend
  repeat' (with_reducible first | assumption | fail_if_no_progress beta_reduce | apply keep_setMr)

theorem keep_drawRegs  : ∀ (x0 : List Nat) (x1 : State), Kept pq x1 → Kept pq (drawRegs  x0 x1)
  | [], s, h_s => by
    unfold drawRegs
    repeat' (with_reducible first | assumption)
  | a :: t, s, h_s => by
    unfold drawRegs
    repeat' (with_reducible first | assumption | fail_if_no_progress beta_reduce | apply keep_setRg | apply keep_draw | apply keep_drawRegs | apply Kept.ite | fail_if_no_progress (apply KeptR.mk <;> try apply Kept.of2) | apply Kept.of2)

theorem keep_imgVerify (m : Master) (ecc : Ecc) (a kind : Nat) (s : State) (h_s : Kept pq s) : KeptR pq (imgVerify m ecc a kind s) := by
  unfold imgVerify
  repeat'
    with_reducible first
    | assumption | intro _
    | extract_lets -underBinder +onlyGivenNames x
      first
        | have hx : Kept pq x := by
            try dsimp only [x]
            repeat' (with_reducible first | assumption | fail_if_no_progress beta_reduce | apply keep_memRead | apply Kept.ite | fail_if_no_progress (apply KeptR.mk <;> try apply Kept.of2) | apply Kept.of2 | apply Kept.snd (by assumption) | apply KeptR.ite | intro _ | fail_if_no_progress (apply Kept.upd) | split | beta_reduce)
        | have hx : KeptR pq x := by
            try dsimp only [x]
            repeat' (with_reducible first | assumption | fail_if_no_progress beta_reduce | apply keep_memRead | apply Kept.ite | fail_if_no_progress (apply KeptR.mk <;> try apply Kept.of2) | apply Kept.of2 | apply Kept.snd (by assumption) | apply KeptR.ite | intro _ | fail_if_no_progress (apply Kept.upd) | split | beta_reduce)
        | skip
      try clear_value x
    | fail_if_no_progress beta_reduce | apply keep_memRead | apply Kept.ite | fail_if_no_progress (apply KeptR.mk <;> try apply Kept.of2) | apply Kept.of2 | apply Kept.snd (by assumption) | apply KeptR.ite | intro _ | fail_if_no_progress (apply Kept.upd) | split

theorem keep_verAccept (h : List Byte) (s : State) (h_s : Kept pq s) : Kept pq (verAccept h s) := by
  unfold verAccept
  repeat'
    with_reducible first
    | assumption | intro _
    | extract_lets -underBinder +onlyGivenNames x
      first
        | have hx : Kept pq x := by
            try dsimp only [x]
            repeat' (with_reducible first | assumption | fail_if_no_progress beta_reduce | apply keep_setRg | apply Kept.ite | intro _ | fail_if_no_progress (apply Kept.upd) | split | beta_reduce)
        | skip
      try clear_value x
    | fail_if_no_progress beta_reduce | apply keep_setRg

theorem keep_imgAnswer (kind : Nat) (x : (Nat × Nat × List Byte) × State) (h : KeptR pq x) :
    KeptR pq (imgAnswer kind x) :=
  KeptR.mk (Kept.ite (fun _ => keep_verAccept _ _ h) (fun _ => h))

theorem keep_tvImgVerify (c : Call) (s : State) (h_s : Kept pq s) : KeptR pq (tvImgVerify c s) := by
  unfold tvImgVerify
  repeat' (with_reducible first | assumption | fail_if_no_progress beta_reduce | apply keep_imgVerify | apply keep_imgAnswer)

theorem keep_otpFree (w : Nat) (bits : Word) (s : State) (h_s : Kept pq s) : Kept pq (otpFree w bits s) := by
  unfold otpFree
  repeat' (with_reducible first | assumption | fail_if_no_progress beta_reduce | apply keep_draw | apply keep_otpSet | apply Kept.ite | fail_if_no_progress (apply KeptR.mk <;> try apply Kept.of2) | apply Kept.of2)

theorem keep_otpProgram (ok : Bool) (ws : List (Nat × Word)) (s : State) (h_s : Kept pq s) : KeptR pq (otpProgram ok ws s) := by
  unfold otpProgram
  repeat' (with_reducible first | assumption | fail_if_no_progress beta_reduce | apply keep_otpSet | apply keep_otpFree | apply Kept.ite | fail_if_no_progress (apply KeptR.mk <;> try apply Kept.of2) | apply Kept.of2 | apply Kept.snd (by assumption) | apply KeptR.ite | apply Kept.foldl | apply KeptR.foldl | intro _)

theorem keep_tvOtpProgram (ok : Bool) (c : Call) (s : State) (h_s : Kept pq s) : KeptR pq (tvOtpProgram ok c s) := by
  unfold tvOtpProgram
  repeat'
    with_reducible first
    | assumption | intro _
    | extract_lets -underBinder +onlyGivenNames x
      first
        | have hx : Kept pq x := by
            try dsimp only [x]
            repeat' (with_reducible first | assumption | fail_if_no_progress beta_reduce | apply keep_otpProgram | apply Kept.ite | fail_if_no_progress (apply KeptR.mk <;> try apply Kept.of2) | apply Kept.of2 | apply Kept.snd (by assumption) | apply KeptR.ite | intro _ | fail_if_no_progress (apply Kept.upd) | split | beta_reduce)
        | skip
      try clear_value x
    | fail_if_no_progress beta_reduce | apply keep_otpProgram | apply Kept.ite | fail_if_no_progress (apply KeptR.mk <;> try apply Kept.of2) | apply Kept.of2 | apply Kept.snd (by assumption) | apply KeptR.ite

theorem keep_tvRollback (ok : Bool) (c : Call) (s : State) (h_s : Kept pq s) : KeptR pq (tvRollback ok c s) := by
  unfold tvRollback
  repeat'
    with_reducible first
    | assumption | intro _
    | extract_lets -underBinder +onlyGivenNames x
      first
        | have hx : Kept pq x := by
            try dsimp only [x]
            repeat' (with_reducible first | assumption | fail_if_no_progress beta_reduce | apply keep_otpProgram | apply Kept.ite | fail_if_no_progress (apply KeptR.mk <;> try apply Kept.of2) | apply Kept.of2 | apply Kept.snd (by assumption) | apply KeptR.ite | intro _ | fail_if_no_progress (apply Kept.upd) | split | beta_reduce)
        | skip
      try clear_value x
    | fail_if_no_progress beta_reduce | apply keep_otpProgram | apply Kept.ite | fail_if_no_progress (apply KeptR.mk <;> try apply Kept.of2) | apply Kept.of2 | apply Kept.snd (by assumption) | apply KeptR.ite

theorem keep_fillSecret (s : State) (h_s : Kept pq s) : Kept pq (fillSecret s) := by
  unfold fillSecret
  repeat' (with_reducible first | assumption | fail_if_no_progress beta_reduce | apply keep_draw | apply keep_otpSet | apply Kept.ite | fail_if_no_progress (apply KeptR.mk <;> try apply Kept.of2) | apply Kept.of2 | apply Kept.snd (by assumption) | apply KeptR.ite | apply Kept.foldl | apply KeptR.foldl | intro _)

theorem keep_tvLifecycle (ok : Bool) (c : Call) (s : State) (h_s : Kept pq s) : KeptR pq (tvLifecycle ok c s) := by
  unfold tvLifecycle
  repeat'
    with_reducible first
    | assumption | intro _
    | extract_lets -underBinder +onlyGivenNames x
      first
        | have hx : Kept pq x := by
            try dsimp only [x]
            repeat' (with_reducible first | assumption | fail_if_no_progress beta_reduce | apply keep_otpProgram | apply keep_fillSecret | apply Kept.ite | fail_if_no_progress (apply KeptR.mk <;> try apply Kept.of2) | apply Kept.of2 | apply Kept.snd (by assumption) | apply KeptR.ite | intro _)
        | skip
      try clear_value x
    | fail_if_no_progress beta_reduce | apply keep_otpProgram | apply keep_fillSecret | apply Kept.ite | fail_if_no_progress (apply KeptR.mk <;> try apply Kept.of2) | apply Kept.of2 | apply Kept.snd (by assumption) | apply KeptR.ite

theorem keep_tvMeasExtend (c : Call) (s : State) (h_s : Kept pq s) : KeptR pq (tvMeasExtend c s) := by
  unfold tvMeasExtend
  repeat'
    with_reducible first
    | assumption | intro _
    | extract_lets -underBinder +onlyGivenNames x
      first
        | have hx : Kept pq x := by
            try dsimp only [x]
            repeat' (with_reducible first | assumption | fail_if_no_progress beta_reduce | apply keep_memRead | apply keep_extend | apply Kept.ite | fail_if_no_progress (apply KeptR.mk <;> try apply Kept.of2) | apply Kept.of2 | apply Kept.snd (by assumption) | apply KeptR.ite | intro _ | fail_if_no_progress (apply Kept.upd) | split | beta_reduce)
        | skip
      try clear_value x
    | fail_if_no_progress beta_reduce | apply keep_memRead | apply keep_extend | apply Kept.ite | fail_if_no_progress (apply KeptR.mk <;> try apply Kept.of2) | apply Kept.of2 | apply Kept.snd (by assumption) | apply KeptR.ite | intro _ | fail_if_no_progress (apply Kept.upd) | split

theorem keep_attestPut (x : Option BusErr × State) (h : KeptR pq x) : KeptR pq (attestPut x) := KeptR.mk h

theorem keep_tvAttest (c : Call) (s : State) (h_s : Kept pq s) : KeptR pq (tvAttest c s) := by
  unfold tvAttest
  repeat' (with_reducible first | assumption | fail_if_no_progress beta_reduce | apply keep_memRead | apply keep_memWrite | apply keep_attestPut | apply Kept.ite | fail_if_no_progress (apply KeptR.mk <;> try apply Kept.of2) | apply Kept.of2 | apply Kept.snd (by assumption) | apply KeptR.ite | intro _ | fail_if_no_progress (apply Kept.upd) | split)

theorem keep_routine (no : Nat) (ok : Bool) (c : Call) (s : State) (h_s : Kept pq s) : KeptR pq (routine no ok c s) := by
  unfold routine
  split
  · exact keep_tvFlErase c s h_s
  · exact keep_tvFlSuspend c s h_s
  · exact keep_tvFlResume c s h_s
  · exact keep_tvFlBlank c s h_s
  · exact keep_tvFlInfo c s h_s
  · exact keep_tvFlMarkbad c s h_s
  · exact keep_tvImgVerify c s h_s
  · exact keep_tvOtpProgram ok c s h_s
  · exact keep_tvRollback ok c s h_s
  · exact keep_tvLifecycle ok c s h_s
  · exact keep_tvMeasExtend c s h_s
  · exact keep_tvAttest c s h_s
  · exact h_s

theorem keep_serveMessage (n : Nat) (sec : Bool) (ok : Bool) (ecc : Ecc) (s : State) (h_s : Kept pq s) :
    Kept pq (serveMessage n sec ok ecc s) := by
  unfold serveMessage
  extract_lets msg c
  have h1 := keep_programCall c s h_s
  have h2 := keep_routine (msg 0).toNat ok c s h_s
  generalize routine (msg 0).toNat ok c s = y at h2 ⊢
  obtain ⟨b, s2⟩ := y
  exact Kept.ite (fun _ => h1) (fun _ => keep_answerCall _ _ _ h2)

theorem keep_serveChannel (n : Nat) (ok : Bool) (ecc : Ecc) (s : State) (h_s : Kept pq s) : Kept pq (serveChannel n ok ecc s) := by
  unfold serveChannel
  repeat'
    with_reducible first
    | assumption | intro _
    | extract_lets -underBinder +onlyGivenNames x
      first
        | have hx : Kept pq x := by
            try dsimp only [x]
            repeat' (with_reducible first | assumption | fail_if_no_progress beta_reduce | apply keep_svReturn | apply keep_answerCall | apply keep_serveMessage | apply Kept.ite | intro _)
        | skip
      try clear_value x
    | fail_if_no_progress beta_reduce | apply keep_svReturn | apply keep_answerCall | apply keep_serveMessage | apply Kept.ite

theorem keep_tvServe (ok : Bool) (ecc : Ecc) (s : State) (h_s : Kept pq s) : Kept pq (tvServe ok ecc s) := by
  unfold tvServe
  repeat'
    with_reducible first
    | assumption | intro _
    | extract_lets -underBinder +onlyGivenNames x
      first
        | have hx : Kept pq x := by
            try dsimp only [x]
            repeat' (with_reducible first | assumption | fail_if_no_progress beta_reduce | apply keep_callQueue | apply keep_serveChannel | apply Kept.ite | intro _ | fail_if_no_progress (apply Kept.upd) | split | beta_reduce)
        | skip
      try clear_value x
    | fail_if_no_progress beta_reduce | apply keep_callQueue | apply keep_serveChannel | apply Kept.ite

theorem keep_serveNext (s : State) (h_s : Kept pq s) : Kept pq (serveNext s) := by
  unfold serveNext
  split
  · exact h_s
  · rename_i c rest _
    refine Kept.ite (fun _ => h_s) (fun _ => ?_)
    extract_lets q s1 d
    have h1 : Kept pq s1 := Kept.upd h_s
    clear_value s1
    refine Kept.ite (fun _ => keep_serveChannel _ _ _ _ h1) (fun _ => Kept.ite (fun _ => keep_programCall _ _ h1) (fun _ => ?_))
    have h2 := keep_routine c.no c.ok d s1 h1
    generalize routine c.no c.ok d s1 = y at h2 ⊢
    obtain ⟨b, s2⟩ := y
    exact keep_answerCall _ _ _ h2

theorem keep_serveWaiting (s : State) (h_s : Kept pq s) : Kept pq (serveWaiting s) := by
  unfold serveWaiting
  repeat' (with_reducible first | assumption | fail_if_no_progress beta_reduce | apply keep_serveNext | apply Kept.ite | apply Kept.foldl | intro _)

theorem keep_bootStat (done : Bool) (src b a n : Nat) (s : State) (h_s : Kept pq s) : Kept pq (bootStat done src b a n s) := by
  unfold bootStat
  repeat' (with_reducible first | assumption | fail_if_no_progress beta_reduce | apply keep_setRg)

theorem keep_enterService (s : State) (h_s : Kept pq s) : Kept pq (enterService s) := by
  unfold enterService
  repeat' (with_reducible first | assumption | fail_if_no_progress beta_reduce | apply keep_setRg | apply keep_setMode | apply keep_allSafe | apply keep_lockMaps)

theorem keep_copySections (a : Nat) (h : List Byte) (s : State) (h_s : Kept pq s) : Kept pq (copySections a h s) := by
  unfold copySections
  repeat'
    with_reducible first
    | assumption | intro _
    | extract_lets -underBinder +onlyGivenNames x
      first
        | have hx : Kept pq x := by
            try dsimp only [x]
            repeat' (with_reducible first | assumption | fail_if_no_progress beta_reduce | apply keep_agentCopy | apply Kept.ite | fail_if_no_progress (apply KeptR.mk <;> try apply Kept.of2) | apply Kept.of2 | apply Kept.snd (by assumption) | apply KeptR.ite | apply Kept.foldl | apply KeptR.foldl | intro _ | fail_if_no_progress (apply Kept.upd) | split | beta_reduce)
        | have hx : KeptR pq x := by
            try dsimp only [x]
            repeat' (with_reducible first | assumption | fail_if_no_progress beta_reduce | apply keep_agentCopy | apply Kept.ite | fail_if_no_progress (apply KeptR.mk <;> try apply Kept.of2) | apply Kept.of2 | apply Kept.snd (by assumption) | apply KeptR.ite | apply Kept.foldl | apply KeptR.foldl | intro _ | fail_if_no_progress (apply Kept.upd) | split | beta_reduce)
        | skip
      try clear_value x
    | fail_if_no_progress beta_reduce | apply keep_agentCopy | apply Kept.ite | fail_if_no_progress (apply KeptR.mk <;> try apply Kept.of2) | apply Kept.of2 | apply Kept.snd (by assumption) | apply KeptR.ite | apply Kept.foldl

theorem keep_startImage (a : Nat) (h : List Byte) (src b aa n : Nat) (s : State) (h_s : Kept pq s) : Kept pq (startImage a h src b aa n s) := by
  unfold startImage
  repeat'
    with_reducible first
    | assumption | intro _
    | extract_lets -underBinder +onlyGivenNames x
      first
        | have hx : Kept pq x := by
            try dsimp only [x]
            repeat' (with_reducible first | assumption | fail_if_no_progress beta_reduce | apply keep_setEl | apply keep_setSvReg | apply keep_extend | apply keep_verAccept | apply keep_bootStat | apply keep_copySections)
        | skip
      try clear_value x
    | fail_if_no_progress beta_reduce | apply keep_setEl | apply keep_setSvReg | apply keep_extend | apply keep_verAccept | apply keep_bootStat | apply keep_copySections | apply Kept.ite | intro _ | fail_if_no_progress (apply Kept.upd)

theorem keep_netStart (s : State) (h_s : Kept pq s) : Kept pq (netStart s) := by
  unfold netStart
  repeat'
    with_reducible first
    | assumption | intro _
    | extract_lets -underBinder +onlyGivenNames x
      first
        | have hx : Kept pq x := by
            try dsimp only [x]
            repeat' (with_reducible first | assumption | fail_if_no_progress beta_reduce | apply keep_setRg)
        | skip
      try clear_value x
    | fail_if_no_progress beta_reduce | apply keep_setRg | apply keep_ethCfgWrite | apply Kept.ite | fail_if_no_progress (apply KeptR.mk <;> try apply Kept.of2) | apply Kept.of2 | apply Kept.snd (by assumption) | apply KeptR.ite | intro _ | fail_if_no_progress (apply Kept.upd)

theorem keep_bootNone (b a n : Nat) (s : State) (h_s : Kept pq s) : Kept pq (bootNone b a n s) := by
  unfold bootNone
  repeat' (with_reducible first | assumption | fail_if_no_progress beta_reduce | apply keep_bootStat | apply keep_enterService | apply Kept.ite | intro _ | fail_if_no_progress (apply Kept.upd))

theorem keep_slotCheck (k : Nat) (ecc : Ecc) (s : State) (h_s : Kept pq s) : KeptR pq (slotCheck k ecc s) := by
  unfold slotCheck
  repeat' (with_reducible first | assumption | fail_if_no_progress beta_reduce | apply keep_imgVerify)

theorem keep_startFirst  : ∀ (x0 : List (Nat × List Byte)) (x1 : Nat) (x2 : Nat) (x3 : State), Kept pq x3 → Kept pq (startFirst  x0 x1 x2 x3)
  | [], b, a, s, h_s => by
    unfold startFirst
    repeat' (with_reducible first | assumption | fail_if_no_progress beta_reduce | apply keep_verAccept | apply keep_bootStat | apply keep_startImage | apply keep_netStart | apply keep_bootNone | apply keep_startFirst | apply Kept.ite | apply Kept.foldl | intro _)
  | (k, h) :: rest, b, a, s, h_s => by
    unfold startFirst
    repeat' (with_reducible first | assumption | fail_if_no_progress beta_reduce | apply keep_verAccept | apply keep_bootStat | apply keep_startImage | apply keep_netStart | apply keep_bootNone | apply keep_startFirst | apply Kept.ite | apply Kept.foldl | intro _)

theorem keep_bootFlash (ecc : Ecc) (s : State) (h_s : Kept pq s) : Kept pq (bootFlash ecc s) := by
  unfold bootFlash
  repeat'
    with_reducible first
    | assumption | intro _
    | extract_lets -underBinder +onlyGivenNames x
      first
        | have hx : Kept pq x := by
            try dsimp only [x]
            repeat' (with_reducible first | assumption | fail_if_no_progress beta_reduce | apply keep_setRg | apply keep_startImage | apply keep_slotCheck | apply keep_startFirst | apply hF_both | apply Kept.ite | fail_if_no_progress (apply KeptR.mk <;> try apply Kept.of2) | apply Kept.of2 | apply Kept.snd (by assumption) | apply KeptR.ite | intro _ | fail_if_no_progress (apply Kept.upd) | split | beta_reduce)
        | have hx : KeptR pq x := by
            try dsimp only [x]
            repeat' (with_reducible first | assumption | fail_if_no_progress beta_reduce | apply keep_setRg | apply keep_startImage | apply keep_slotCheck | apply keep_startFirst | apply hF_both | apply Kept.ite | fail_if_no_progress (apply KeptR.mk <;> try apply Kept.of2) | apply Kept.of2 | apply Kept.snd (by assumption) | apply KeptR.ite | intro _ | fail_if_no_progress (apply Kept.upd) | split | beta_reduce)
        | have hF_both : ∀ y0, Kept pq y0 → Kept pq (x y0) := by
            intro y0 hy0
            try dsimp only [x]
            repeat' (with_reducible first | assumption | fail_if_no_progress beta_reduce | apply keep_setRg | apply keep_startImage | apply keep_slotCheck | apply keep_startFirst | apply hF_both | apply Kept.ite | fail_if_no_progress (apply KeptR.mk <;> try apply Kept.of2) | apply Kept.of2)
      try clear_value x
    | fail_if_no_progress beta_reduce | apply keep_setRg | apply keep_startImage | apply keep_slotCheck | apply keep_startFirst | apply hF_both | apply Kept.ite | fail_if_no_progress (apply KeptR.mk <;> try apply Kept.of2) | apply Kept.of2 | apply Kept.snd (by assumption) | apply KeptR.ite | intro _ | fail_if_no_progress (apply Kept.upd) | split

theorem keep_bootPrepare (jrnlErr : Bool) (s : State) (h_s : Kept pq s) : Kept pq (bootPrepare jrnlErr s) := by
  unfold bootPrepare
  repeat'
    with_reducible first
    | assumption | intro _
    | extract_lets -underBinder +onlyGivenNames x
      first
        | have hx : Kept pq x := by
            try dsimp only [x]
            repeat' (with_reducible first | assumption | fail_if_no_progress beta_reduce | apply keep_setRgBit | apply keep_setRgFld | apply keep_draw | apply keep_bbtRefresh | apply keep_tornRefresh | apply keep_setMr | apply keep_extend | apply keep_drawRegs | apply Kept.ite | fail_if_no_progress (apply KeptR.mk <;> try apply Kept.of2) | apply Kept.of2 | apply Kept.snd (by assumption) | apply KeptR.ite | apply Kept.foldl | apply KeptR.foldl | intro _ | fail_if_no_progress (apply Kept.upd) | split | beta_reduce)
        | skip
      try clear_value x
    | fail_if_no_progress beta_reduce | apply keep_setRgBit | apply keep_setRgFld | apply keep_draw | apply keep_bbtRefresh | apply keep_tornRefresh | apply keep_setMr | apply keep_extend | apply keep_drawRegs | apply Kept.ite | fail_if_no_progress (apply KeptR.mk <;> try apply Kept.of2) | apply Kept.of2 | apply Kept.snd (by assumption) | apply KeptR.ite | apply Kept.foldl | apply KeptR.foldl | intro _ | fail_if_no_progress (apply Kept.upd)

theorem keep_bootSequence (jrnlErr : Bool) (ecc : Ecc) (s : State) (h_s : Kept pq s) : Kept pq (bootSequence jrnlErr ecc s) := by
  unfold bootSequence
  repeat'
    with_reducible first
    | assumption | intro _
    | extract_lets -underBinder +onlyGivenNames x
      first
        | have hx : Kept pq x := by
            try dsimp only [x]
            repeat' (with_reducible first | assumption | fail_if_no_progress beta_reduce | apply keep_bootStat | apply keep_enterService | apply keep_netStart | apply keep_bootFlash | apply keep_bootPrepare | apply Kept.ite | intro _ | fail_if_no_progress (apply Kept.upd))
        | skip
      try clear_value x
    | fail_if_no_progress beta_reduce | apply keep_bootStat | apply keep_enterService | apply keep_netStart | apply keep_bootFlash | apply keep_bootPrepare | apply Kept.ite

theorem keep_bootSend (dst kind : Nat) (body : List Byte) (s : State) (h_s : Kept pq s) : Kept pq (bootSend dst kind body s) := by
  unfold bootSend
  repeat' (with_reducible first | assumption | fail_if_no_progress beta_reduce | apply Kept.ite | intro _ | fail_if_no_progress (apply Kept.upd))

theorem keep_bootReq (s : State) (h_s : Kept pq s) : Kept pq (bootReq s) := by
  unfold bootReq
  repeat'
    with_reducible first
    | assumption | intro _
    | extract_lets -underBinder +onlyGivenNames x
      first
        | have hx : Kept pq x := by
            try dsimp only [x]
            repeat' (with_reducible first | assumption | fail_if_no_progress beta_reduce | apply keep_draw | apply keep_bootNone | apply keep_bootSend | apply Kept.ite | fail_if_no_progress (apply KeptR.mk <;> try apply Kept.of2) | apply Kept.of2 | apply Kept.snd (by assumption) | apply KeptR.ite | intro _ | fail_if_no_progress (apply Kept.upd) | split | beta_reduce)
        | skip
      try clear_value x
    | fail_if_no_progress beta_reduce | apply keep_draw | apply keep_bootNone | apply keep_bootSend | apply Kept.ite | fail_if_no_progress (apply KeptR.mk <;> try apply Kept.of2) | apply Kept.of2 | apply Kept.snd (by assumption) | apply KeptR.ite | intro _ | fail_if_no_progress (apply Kept.upd)

theorem keep_bootAck (mac next status : Nat) (s : State) (h_s : Kept pq s) : Kept pq (bootAck mac next status s) := by
  unfold bootAck
  repeat' (with_reducible first | assumption | fail_if_no_progress beta_reduce | apply keep_bootSend | apply Kept.ite | intro _ | fail_if_no_progress (apply Kept.upd))

theorem keep_netImage (mac : Nat) (ecc : Ecc) (s : State) (h_s : Kept pq s) : Kept pq (netImage mac ecc s) := by
  unfold netImage
  repeat'
    with_reducible first
    | assumption | intro _
    | extract_lets -underBinder +onlyGivenNames x
      first
        | have hx : Kept pq x := by
            try dsimp only [x]
            repeat' (with_reducible first | assumption | fail_if_no_progress beta_reduce | apply keep_setRgFld | apply keep_imgVerify | apply keep_startImage | apply keep_bootAck | apply Kept.ite | fail_if_no_progress (apply KeptR.mk <;> try apply Kept.of2) | apply Kept.of2)
        | have hx : KeptR pq x := by
            try dsimp only [x]
            repeat' (with_reducible first | assumption | fail_if_no_progress beta_reduce | apply keep_setRgFld | apply keep_imgVerify | apply keep_startImage | apply keep_bootAck | apply Kept.ite | fail_if_no_progress (apply KeptR.mk <;> try apply Kept.of2) | apply Kept.of2 | apply Kept.snd (by assumption) | apply KeptR.ite | intro _ | fail_if_no_progress (apply Kept.upd) | split | beta_reduce)
        | skip
      try clear_value x
    | fail_if_no_progress beta_reduce | apply keep_setRgFld | apply keep_imgVerify | apply keep_startImage | apply keep_bootAck | apply Kept.ite | fail_if_no_progress (apply KeptR.mk <;> try apply Kept.of2) | apply Kept.of2 | apply Kept.snd (by assumption) | apply KeptR.ite | intro _ | fail_if_no_progress (apply Kept.upd)

theorem keep_bootData (mac off total : Nat) (data : List Byte) (ecc : Ecc) (s : State) (h_s : Kept pq s) : Kept pq (bootData mac off total data ecc s) := by
  unfold bootData
  repeat'
    with_reducible first
    | assumption | intro _
    | extract_lets -underBinder +onlyGivenNames x
      first
        | have hx : Kept pq x := by
            try dsimp only [x]
            repeat' (with_reducible first | assumption | fail_if_no_progress beta_reduce | apply keep_agentWrite | apply keep_bootAck | apply keep_netImage | apply Kept.ite | fail_if_no_progress (apply KeptR.mk <;> try apply Kept.of2) | apply Kept.of2 | apply Kept.snd (by assumption) | apply KeptR.ite | intro _ | fail_if_no_progress (apply Kept.upd))
        | skip
      try clear_value x
    | fail_if_no_progress beta_reduce | apply keep_agentWrite | apply keep_bootAck | apply keep_netImage | apply Kept.ite

theorem keep_bootDataTimeout (s : State) (h_s : Kept pq s) : Kept pq (bootDataTimeout s) := by
  unfold bootDataTimeout
  repeat'
    with_reducible first
    | assumption | intro _
    | extract_lets -underBinder +onlyGivenNames x
      first
        | have hx : Kept pq x := by
            try dsimp only [x]
            repeat' (with_reducible first | assumption | fail_if_no_progress beta_reduce | apply Kept.ite | intro _ | fail_if_no_progress (apply Kept.upd) | split | beta_reduce)
        | skip
      try clear_value x
    | fail_if_no_progress beta_reduce | apply Kept.ite | intro _ | fail_if_no_progress (apply Kept.upd)

theorem keep_acrelGo (n : Nat) (v : Word) (sec : Bool) (s : State) (h_s : Kept pq s) : KeptR pq (acrelGo n v sec s) := by
  unfold acrelGo
  repeat'
    with_reducible first
    | assumption | intro _
    | extract_lets -underBinder +onlyGivenNames x
      first
        | have hx : Kept pq x := by
            try dsimp only [x]
            repeat' (with_reducible first | assumption | fail_if_no_progress beta_reduce | apply keep_setEl | apply keep_plainWrite)
        | skip
      try clear_value x
    | fail_if_no_progress beta_reduce | apply keep_setEl | apply keep_plainWrite | apply keep_haltAtStart | apply Kept.ite | fail_if_no_progress (apply KeptR.mk <;> try apply Kept.of2) | apply Kept.of2 | apply Kept.snd (by assumption) | apply KeptR.ite

theorem keep_dbgSubmit (m : Master) (v : Word) (s : State) (h_s : Kept pq s) : KeptR pq (dbgSubmit m v s) := by
  unfold dbgSubmit
  repeat'
    with_reducible first
    | assumption | intro _
    | extract_lets -underBinder +onlyGivenNames x
      first
        | have hx : Kept pq x := by
            try dsimp only [x]
            repeat' (with_reducible first | assumption | fail_if_no_progress beta_reduce | apply keep_setRg | apply keep_draw | apply keep_drawRegs | apply Kept.ite | fail_if_no_progress (apply KeptR.mk <;> try apply Kept.of2) | apply Kept.of2 | apply Kept.snd (by assumption) | apply KeptR.ite | intro _ | fail_if_no_progress (apply Kept.upd) | split | beta_reduce)
        | have hx : KeptR pq x := by
            try dsimp only [x]
            repeat' (with_reducible first | assumption | fail_if_no_progress beta_reduce | apply keep_setRg | apply keep_draw | apply keep_drawRegs | apply Kept.ite | fail_if_no_progress (apply KeptR.mk <;> try apply Kept.of2) | apply Kept.of2 | apply Kept.snd (by assumption) | apply KeptR.ite | intro _ | fail_if_no_progress (apply Kept.upd) | split | beta_reduce)
        | skip
      try clear_value x
    | fail_if_no_progress beta_reduce | apply keep_setRg | apply keep_draw | apply keep_drawRegs | apply Kept.ite | fail_if_no_progress (apply KeptR.mk <;> try apply Kept.of2) | apply Kept.of2 | apply Kept.snd (by assumption) | apply KeptR.ite | intro _ | fail_if_no_progress (apply Kept.upd)

theorem keep_secWrite (m : Master) (o : Nat) (v : Word) (s : State) (h_s : Kept pq s) : KeptR pq (secWrite m o v s) := by
  unfold secWrite
  repeat' (with_reducible first | assumption | fail_if_no_progress beta_reduce | apply keep_setRg | apply keep_plainWrite | apply keep_dbgSubmit | apply Kept.ite | fail_if_no_progress (apply KeptR.mk <;> try apply Kept.of2) | apply Kept.of2 | apply Kept.snd (by assumption) | apply KeptR.ite | intro _)

theorem keep_secLive (o : Nat) (s : State) (h_s : Kept pq s) : KeptR pq (secLive o s) := by
  unfold secLive
  repeat' (with_reducible first | assumption | fail_if_no_progress beta_reduce | apply keep_draw | apply Kept.ite | fail_if_no_progress (apply KeptR.mk <;> try apply Kept.of2) | apply Kept.of2 | apply Kept.snd (by assumption) | apply KeptR.ite | intro _)

theorem keep_execTvServe (ok : Bool) (ecc : Ecc) (s : State) (h_s : Kept pq s) : KeptX pq (execTvServe ok ecc s) := by
  unfold execTvServe
  repeat' (with_reducible first | assumption | fail_if_no_progress beta_reduce | apply keep_tvServe | apply Kept.ite | apply KeptX.next)

theorem keep_execTvImgVerify (ecc : Ecc) (s : State) (h_s : Kept pq s) : KeptX pq (execTvImgVerify ecc s) := by
  unfold execTvImgVerify
  repeat' (with_reducible first | assumption | fail_if_no_progress beta_reduce | apply keep_svServe | apply keep_tvImgVerify | apply Kept.ite | fail_if_no_progress (apply KeptR.mk <;> try apply Kept.of2) | apply Kept.of2 | apply Kept.snd (by assumption) | apply KeptR.ite | apply KeptX.next)

theorem keep_execTvOtpProgram (ok : Bool) (s : State) (h_s : Kept pq s) : KeptX pq (execTvOtpProgram ok s) := by
  unfold execTvOtpProgram
  repeat' (with_reducible first | assumption | fail_if_no_progress beta_reduce | apply keep_svServe | apply keep_tvOtpProgram | apply Kept.ite | fail_if_no_progress (apply KeptR.mk <;> try apply Kept.of2) | apply Kept.of2 | apply Kept.snd (by assumption) | apply KeptR.ite | apply KeptX.next)

theorem keep_execTvRollback (ok : Bool) (s : State) (h_s : Kept pq s) : KeptX pq (execTvRollback ok s) := by
  unfold execTvRollback
  repeat' (with_reducible first | assumption | fail_if_no_progress beta_reduce | apply keep_svServe | apply keep_tvRollback | apply Kept.ite | fail_if_no_progress (apply KeptR.mk <;> try apply Kept.of2) | apply Kept.of2 | apply Kept.snd (by assumption) | apply KeptR.ite | apply KeptX.next)

theorem keep_execTvLifecycle (ok : Bool) (s : State) (h_s : Kept pq s) : KeptX pq (execTvLifecycle ok s) := by
  unfold execTvLifecycle
  repeat' (with_reducible first | assumption | fail_if_no_progress beta_reduce | apply keep_svServe | apply keep_tvLifecycle | apply Kept.ite | fail_if_no_progress (apply KeptR.mk <;> try apply Kept.of2) | apply Kept.of2 | apply Kept.snd (by assumption) | apply KeptR.ite | apply KeptX.next)

theorem keep_execTvMeasExtend (ecc : Ecc) (s : State) (h_s : Kept pq s) : KeptX pq (execTvMeasExtend ecc s) := by
  unfold execTvMeasExtend
  repeat' (with_reducible first | assumption | fail_if_no_progress beta_reduce | apply keep_svServe | apply keep_tvMeasExtend | apply Kept.ite | fail_if_no_progress (apply KeptR.mk <;> try apply Kept.of2) | apply Kept.of2 | apply Kept.snd (by assumption) | apply KeptR.ite | apply KeptX.next)

theorem keep_execTvAttest (ecc : Ecc) (s : State) (h_s : Kept pq s) : KeptX pq (execTvAttest ecc s) := by
  unfold execTvAttest
  repeat' (with_reducible first | assumption | fail_if_no_progress beta_reduce | apply keep_svServe | apply keep_tvAttest | apply Kept.ite | fail_if_no_progress (apply KeptR.mk <;> try apply Kept.of2) | apply Kept.of2 | apply Kept.snd (by assumption) | apply KeptR.ite | apply KeptX.next)

theorem keep_execBootSequence (jrnlErr : Bool) (ecc : Ecc) (s : State) (h_s : Kept pq s) : KeptX pq (execBootSequence jrnlErr ecc s) := by
  unfold execBootSequence
  repeat' (with_reducible first | assumption | fail_if_no_progress beta_reduce | apply keep_bootSequence | apply Kept.ite | apply KeptX.next)

theorem keep_execBootReq (s : State) (h_s : Kept pq s) : KeptX pq (execBootReq s) := by
  unfold execBootReq
  repeat' (with_reducible first | assumption | fail_if_no_progress beta_reduce | apply keep_bootReq | apply Kept.ite | apply KeptX.next)

theorem keep_execBootData (mac : BitVec 48) (off total : Word) (data : List (BitVec 8)) (ecc : Ecc) (s : State) (h_s : Kept pq s) : KeptX pq (execBootData mac off total data ecc s) := by
  unfold execBootData
  repeat' (with_reducible first | assumption | fail_if_no_progress beta_reduce | apply keep_bootData | apply Kept.ite | apply KeptX.next)

theorem keep_execBootDataTimeout (s : State) (h_s : Kept pq s) : KeptX pq (execBootDataTimeout s) := by
  unfold execBootDataTimeout
  repeat' (with_reducible first | assumption | fail_if_no_progress beta_reduce | apply keep_bootDataTimeout | apply Kept.ite | apply KeptX.next)

theorem keep_execAcrelGo (m : Master) (n : Fin 4) (v : Word) (s : State) (h_s : Kept pq s) : KeptX pq (execAcrelGo m n v s) := by
  unfold execAcrelGo
  repeat' (with_reducible first | assumption | fail_if_no_progress beta_reduce | apply keep_regAccess | apply keep_acrelGo | apply Kept.ite | fail_if_no_progress (apply KeptR.mk <;> try apply Kept.of2) | apply Kept.of2 | apply Kept.snd (by assumption) | apply KeptR.ite | apply KeptX.next)

theorem keep_execDbgSubmit (m : Master) (v : Word) (s : State) (h_s : Kept pq s) : KeptX pq (execDbgSubmit m v s) := by
  unfold execDbgSubmit
  repeat' (with_reducible first | assumption | fail_if_no_progress beta_reduce | apply keep_regAccess | apply keep_dbgSubmit | apply Kept.ite | fail_if_no_progress (apply KeptR.mk <;> try apply Kept.of2) | apply Kept.of2 | apply Kept.snd (by assumption) | apply KeptR.ite | apply KeptX.next)

end Sys2Proof.Machine
end

