-- ==== Sys2Proof/Laws/KeepIntc.lean ====
section
/-! SUPPORT. What the functions of `Intc` keep: the queue, and the canonical form of memory and registers. -/

namespace Sys2Proof.Machine

variable {pq : List Instr}

theorem keep_sampleLevel (t src : Nat) (now : Bool) (s : State) (h_s : Kept pq s) : Kept pq (sampleLevel t src now s) := by
  unfold sampleLevel
  repeat'
    with_reducible first
    | assumption | intro _
    | extract_lets -underBinder +onlyGivenNames x
      first
        | have hx : Kept pq x := by
            try dsimp only [x]
            repeat' (with_reducible first | assumption | fail_if_no_progress beta_reduce | apply keep_edgePend | apply Kept.ite | intro _ | fail_if_no_progress (apply Kept.upd))
        | skip
      try clear_value x
    | fail_if_no_progress beta_reduce | apply keep_edgePend | apply Kept.ite

theorem keep_sampleSource (t src : Nat) (s : State) (h_s : Kept pq s) : Kept pq (sampleSource t src s) := by
  unfold sampleSource
  repeat' (with_reducible first | assumption | fail_if_no_progress beta_reduce | apply keep_sampleLevel)

theorem keep_sampleFixed (n : Nat) (s : State) (h_s : Kept pq s) : Kept pq (sampleFixed n s) := by
  unfold sampleFixed
  repeat'
    with_reducible first
    | assumption | intro _
    | extract_lets -underBinder +onlyGivenNames x
      first
        | have hx : Kept pq x := by
            try dsimp only [x]
            repeat' (with_reducible first | assumption | fail_if_no_progress beta_reduce | apply keep_sampleLevel | apply keep_sampleSource | apply Kept.ite | apply Kept.foldl | intro _ | fail_if_no_progress (apply Kept.upd) | split | beta_reduce)
        | skip
      try clear_value x
    | fail_if_no_progress beta_reduce | apply keep_sampleLevel | apply keep_sampleSource | apply Kept.ite | apply Kept.foldl

theorem keep_sampleAll (s : State) (h_s : Kept pq s) : Kept pq (sampleAll s) := by
  unfold sampleAll
  repeat' (with_reducible first | assumption | fail_if_no_progress beta_reduce | apply keep_sampleFixed | apply Kept.ite | apply Kept.foldl | intro _)

theorem keep_intcClaim (m : Master) (t : Nat) (v : Word) (s : State) (h_s : Kept pq s) : KeptR pq (intcClaim m t v s) := by
  unfold intcClaim
  repeat'
    with_reducible first
    | assumption | intro _
    | extract_lets -underBinder +onlyGivenNames x
      first
        | have hx : Kept pq x := by
            try dsimp only [x]
            repeat' (with_reducible first | assumption | fail_if_no_progress beta_reduce | apply keep_setRgBit | apply Kept.ite | fail_if_no_progress (apply KeptR.mk <;> try apply Kept.of2) | apply Kept.of2 | apply Kept.snd (by assumption) | apply KeptR.ite | intro _ | fail_if_no_progress (apply Kept.upd) | split | beta_reduce)
        | skip
      try clear_value x
    | fail_if_no_progress beta_reduce | apply keep_setRgBit | apply Kept.ite | fail_if_no_progress (apply KeptR.mk <;> try apply Kept.of2) | apply Kept.of2 | apply Kept.snd (by assumption) | apply KeptR.ite

theorem keep_intcComplete (m : Master) (t : Nat) (v : Word) (s : State) (h_s : Kept pq s) : KeptR pq (intcComplete m t v s) := by
  unfold intcComplete
  repeat'
    with_reducible first
    | assumption | intro _
    | extract_lets -underBinder +onlyGivenNames x
      first
        | have hx : Kept pq x := by
            try dsimp only [x]
            repeat' (with_reducible first | assumption | fail_if_no_progress beta_reduce | apply keep_setPend | apply Kept.ite | fail_if_no_progress (apply KeptR.mk <;> try apply Kept.of2) | apply Kept.of2 | apply Kept.snd (by assumption) | apply KeptR.ite | intro _ | fail_if_no_progress (apply Kept.upd) | split | beta_reduce)
        | skip
      try clear_value x
    | fail_if_no_progress beta_reduce | apply keep_setPend | apply Kept.ite | fail_if_no_progress (apply KeptR.mk <;> try apply Kept.of2) | apply Kept.of2 | apply Kept.snd (by assumption) | apply KeptR.ite

theorem keep_intcSet (m : Master) (t : Nat) (v : Word) (s : State) (h_s : Kept pq s) : KeptR pq (intcSet m t v s) := by
  unfold intcSet
  repeat'
    with_reducible first
    | assumption | intro _
    | extract_lets -underBinder +onlyGivenNames x
      first
        | have hx : Kept pq x := by
            try dsimp only [x]
            repeat' (with_reducible first | assumption | fail_if_no_progress beta_reduce | apply keep_setPend | apply Kept.ite | fail_if_no_progress (apply KeptR.mk <;> try apply Kept.of2) | apply Kept.of2 | apply Kept.snd (by assumption) | apply KeptR.ite | intro _ | fail_if_no_progress (apply Kept.upd) | split | beta_reduce)
        | skip
      try clear_value x
    | fail_if_no_progress beta_reduce | apply keep_setPend | apply Kept.ite | fail_if_no_progress (apply KeptR.mk <;> try apply Kept.of2) | apply Kept.of2 | apply Kept.snd (by assumption) | apply KeptR.ite

theorem keep_intcWrite (m : Master) (t o : Nat) (v : Word) (s : State) (h_s : Kept pq s) : KeptR pq (intcWrite m t o v s) := by
  unfold intcWrite
  repeat'
    with_reducible first
    | assumption | intro _
    | extract_lets -underBinder +onlyGivenNames x
      first
        | have hx : Kept pq x := by
            try dsimp only [x]
            repeat' (with_reducible first | assumption | fail_if_no_progress beta_reduce | apply keep_setRg | apply keep_plainWrite | apply keep_intcClaim | apply keep_intcComplete | apply keep_intcSet | apply Kept.ite | fail_if_no_progress (apply KeptR.mk <;> try apply Kept.of2) | apply Kept.of2 | apply Kept.snd (by assumption) | apply KeptR.ite | intro _ | fail_if_no_progress (apply Kept.upd) | split | beta_reduce)
        | skip
      try clear_value x
    | fail_if_no_progress beta_reduce | apply keep_setRg | apply keep_plainWrite | apply keep_intcClaim | apply keep_intcComplete | apply keep_intcSet | apply Kept.ite | fail_if_no_progress (apply KeptR.mk <;> try apply Kept.of2) | apply Kept.of2 | apply Kept.snd (by assumption) | apply KeptR.ite

theorem keep_execInterruptSourceEdge (t : Fin 5) (n : Fin 512) (s : State) (h_s : Kept pq s) : KeptX pq (execInterruptSourceEdge t n s) := by
  unfold execInterruptSourceEdge
  repeat' (with_reducible first | assumption | fail_if_no_progress beta_reduce | apply keep_sampleSource | apply Kept.ite | apply KeptX.next)

theorem keep_execIntcSet (m : Master) (t : Fin 5) (v : Word) (s : State) (h_s : Kept pq s) : KeptX pq (execIntcSet m t v s) := by
  unfold execIntcSet
  repeat' (with_reducible first | assumption | fail_if_no_progress beta_reduce | apply keep_regAccess | apply keep_intcSet | apply Kept.ite | fail_if_no_progress (apply KeptR.mk <;> try apply Kept.of2) | apply Kept.of2 | apply Kept.snd (by assumption) | apply KeptR.ite | apply KeptX.next)

theorem keep_execClaim (m : Master) (t : Fin 5) (v : Word) (s : State) (h_s : Kept pq s) : KeptX pq (execClaim m t v s) := by
  unfold execClaim
  repeat' (with_reducible first | assumption | fail_if_no_progress beta_reduce | apply keep_regAccess | apply keep_intcClaim | apply Kept.ite | fail_if_no_progress (apply KeptR.mk <;> try apply Kept.of2) | apply Kept.of2 | apply Kept.snd (by assumption) | apply KeptR.ite | apply KeptX.next)

theorem keep_execComplete (m : Master) (t : Fin 5) (v : Word) (s : State) (h_s : Kept pq s) : KeptX pq (execComplete m t v s) := by
  unfold execComplete
  repeat' (with_reducible first | assumption | fail_if_no_progress beta_reduce | apply keep_regAccess | apply keep_intcComplete | apply Kept.ite | fail_if_no_progress (apply KeptR.mk <;> try apply Kept.of2) | apply Kept.of2 | apply Kept.snd (by assumption) | apply KeptR.ite | apply KeptX.next)

end Sys2Proof.Machine
end

