-- ==== Sys2Proof/Laws/KeepAgeing.lean ====
section
/-! SUPPORT. What the functions of `Ageing` keep: the queue, and the canonical form of memory and registers. -/

namespace Sys2Proof.Machine

variable {pq : List Instr}

theorem keep_ageNotice (i : Nat) (s : State) (h_s : Kept pq s) : Kept pq (ageNotice i s) := by
  unfold ageNotice
  repeat' (with_reducible first | assumption | fail_if_no_progress beta_reduce | apply keep_setRgBit | apply keep_raiseEvent)

theorem keep_noBoostShow (u : Nat) (s : State) (h_s : Kept pq s) : Kept pq (noBoostShow u s) := by
  unfold noBoostShow
  repeat'
    with_reducible first
    | assumption | intro _
    | extract_lets -underBinder +onlyGivenNames x
      first
        | have hx : Kept pq x := by
            try dsimp only [x]
            repeat' (with_reducible first | assumption | fail_if_no_progress beta_reduce | apply keep_setRgBit | apply keep_boostFallback | apply Kept.ite | intro _ | fail_if_no_progress (apply Kept.upd) | split | beta_reduce)
        | skip
      try clear_value x
    | fail_if_no_progress beta_reduce | apply keep_setRgBit | apply keep_boostFallback | apply Kept.ite

theorem keep_planSet (u : Nat) (v : Word) (s : State) (h_s : Kept pq s) : Kept pq (planSet u v s) := by
  unfold planSet
  repeat' (with_reducible first | assumption | fail_if_no_progress beta_reduce | apply keep_setRg | apply keep_noBoostShow)

theorem keep_replanRecord (u l : Nat) (stayed : Bool) (s : State) (h_s : Kept pq s) : Kept pq (replanRecord u l stayed s) := by
  unfold replanRecord
  repeat'
    with_reducible first
    | assumption | intro _
    | extract_lets -underBinder +onlyGivenNames x
      first
        | have hx : Kept pq x := by
            try dsimp only [x]
            repeat' (with_reducible first | assumption | fail_if_no_progress beta_reduce | apply keep_bump | apply keep_raiseEvent | apply keep_faultRecord | apply keep_ageNotice)
      try clear_value x
    | fail_if_no_progress beta_reduce | apply keep_bump | apply keep_raiseEvent | apply keep_faultRecord

theorem keep_moveOff (agent : Nat) (allowed : Nat → Bool) (ks : List Nat) (s : State) (h_s : Kept pq s) : Kept pq (moveOff agent allowed ks s) := by
  unfold moveOff
  repeat' (with_reducible first | assumption | fail_if_no_progress beta_reduce | apply keep_migrateAway | apply Kept.ite | apply Kept.foldl | intro _ | fail_if_no_progress (apply Kept.upd) | split)

theorem keep_replanStep (u : Nat) (s : State) (h_s : Kept pq s) : Kept pq (replanStep u s) := by
  unfold replanStep
  repeat'
    with_reducible first
    | assumption | intro _
    | extract_lets -underBinder +onlyGivenNames x
      first
        | have hx : Kept pq x := by
            try dsimp only [x]
            repeat' (with_reducible first | assumption | fail_if_no_progress beta_reduce | apply keep_setUnit)
        | skip
      try clear_value x
    | fail_if_no_progress beta_reduce | apply keep_setUnit | apply keep_planSet | apply keep_replanRecord | apply keep_moveOff | apply Kept.ite

theorem keep_critStep (u : Nat) (s : State) (h_s : Kept pq s) : Kept pq (critStep u s) := by
  unfold critStep
  repeat'
    with_reducible first
    | assumption | intro _
    | extract_lets -underBinder +onlyGivenNames x
      first
        | have hx : Kept pq x := by
            try dsimp only [x]
            repeat' (with_reducible first | assumption | fail_if_no_progress beta_reduce | apply keep_setUnit | apply keep_replanStep)
        | skip
      try clear_value x
    | fail_if_no_progress beta_reduce | apply keep_setUnit

theorem keep_critLevels (u : Nat) (m : Int) (s : State) (h_s : Kept pq s) : Kept pq (critLevels u m s) := by
  unfold critLevels
  repeat'
    with_reducible first
    | assumption | intro _
    | extract_lets -underBinder +onlyGivenNames x
      first
        | have hx : Kept pq x := by
            try dsimp only [x]
            repeat' (with_reducible first | assumption | fail_if_no_progress beta_reduce | apply keep_setUnit | apply keep_faultRecord | apply keep_ageNotice | apply keep_replanStep)
        | skip
      try clear_value x
    | fail_if_no_progress beta_reduce | apply keep_setUnit | apply keep_faultRecord | apply keep_ageNotice

theorem keep_relaxStep (u : Nat) (s : State) (h_s : Kept pq s) : Kept pq (relaxStep u s) := by
  unfold relaxStep
  repeat'
    with_reducible first
    | assumption | intro _
    | extract_lets -underBinder +onlyGivenNames x
      first
        | have hx : Kept pq x := by
            try dsimp only [x]
            repeat' (with_reducible first | assumption | fail_if_no_progress beta_reduce | apply keep_setUnit | apply keep_raiseEvent | apply keep_ageNotice | apply keep_planSet | apply hF_done | apply Kept.ite | intro _ | fail_if_no_progress (apply Kept.upd) | split | beta_reduce)
        | have hF_done : ∀ y0 y1 y2, Kept pq y2 → Kept pq (x y0 y1 y2) := by
            intro y0 y1 y2 hy2
            try dsimp only [x]
            repeat' (with_reducible first | assumption | fail_if_no_progress beta_reduce | apply keep_setUnit | apply keep_raiseEvent | apply keep_ageNotice | apply keep_planSet | apply hF_done)
        | skip
      try clear_value x
    | fail_if_no_progress beta_reduce | apply keep_setUnit | apply keep_raiseEvent | apply keep_ageNotice | apply keep_planSet | apply hF_done | apply Kept.ite | intro _ | fail_if_no_progress (apply Kept.upd) | split

theorem keep_mrefRecord (u : Nat) (m : Int) (s : State) (h_s : Kept pq s) : Kept pq (mrefRecord u m s) := by
  unfold mrefRecord
  repeat'
    with_reducible first
    | assumption | intro _
    | extract_lets -underBinder +onlyGivenNames x
      first
        | have hx : Kept pq x := by
            try dsimp only [x]
            repeat' (with_reducible first | assumption | fail_if_no_progress beta_reduce | apply keep_setRg | apply Kept.ite | intro _ | fail_if_no_progress (apply Kept.upd) | split | beta_reduce)
        | skip
      try clear_value x
    | fail_if_no_progress beta_reduce | apply keep_setRg | apply Kept.ite

theorem keep_marginShow (u : Nat) (m : Int) (s : State) (h_s : Kept pq s) : Kept pq (marginShow u m s) := by
  unfold marginShow
  repeat' (with_reducible first | assumption | fail_if_no_progress beta_reduce | apply keep_setRg | apply keep_mrefRecord)

theorem keep_marginUnit (u : Nat) (m : Int) (s : State) (h_s : Kept pq s) : Kept pq (marginUnit u m s) := by
  unfold marginUnit
  repeat'
    with_reducible first
    | assumption | intro _
    | extract_lets -underBinder +onlyGivenNames x
      first
        | have hx : Kept pq x := by
            try dsimp only [x]
            repeat' (with_reducible first | assumption | fail_if_no_progress beta_reduce | apply keep_setUnit | apply keep_replanStep | apply keep_critStep | apply keep_critLevels | apply keep_relaxStep | apply keep_marginShow)
        | skip
      try clear_value x
    | fail_if_no_progress beta_reduce | apply keep_setUnit | apply keep_replanStep | apply keep_critStep | apply keep_critLevels | apply keep_relaxStep | apply keep_marginShow | apply Kept.ite

theorem keep_marginAgain (u : Nat) (m : Int) (s : State) (h_s : Kept pq s) : Kept pq (marginAgain u m s) := by
  unfold marginAgain
  repeat'
    with_reducible first
    | assumption | intro _
    | extract_lets -underBinder +onlyGivenNames x
      first
        | have hx : Kept pq x := by
            try dsimp only [x]
            repeat' (with_reducible first | assumption | fail_if_no_progress beta_reduce | apply keep_setUnit | apply keep_critLevels | apply keep_marginShow)
        | skip
      try clear_value x
    | fail_if_no_progress beta_reduce | apply keep_setUnit | apply keep_critLevels | apply keep_marginShow | apply Kept.ite

theorem keep_marginMeasure (ms : List Int) (s : State) (h_s : Kept pq s) : Kept pq (marginMeasure ms s) := by
  unfold marginMeasure
  repeat' (with_reducible first | assumption | fail_if_no_progress beta_reduce | apply keep_marginUnit | apply keep_marginAgain | apply Kept.ite | apply Kept.foldl | intro _ | fail_if_no_progress (apply Kept.upd))

theorem keep_projectUnit (u : Nat) (s : State) (h_s : Kept pq s) : Kept pq (projectUnit u s) := by
  unfold projectUnit
  repeat'
    with_reducible first
    | assumption | intro _
    | extract_lets -underBinder +onlyGivenNames x
      first
        | have hx : Kept pq x := by
            try dsimp only [x]
            repeat' (with_reducible first | assumption | fail_if_no_progress beta_reduce | apply keep_setRg)
        | skip
      try clear_value x
    | fail_if_no_progress beta_reduce | apply keep_setRg | apply keep_faultRecord | apply keep_ageNotice | apply Kept.ite

theorem keep_projectAll (s : State) (h_s : Kept pq s) : Kept pq (projectAll s) := by
  unfold projectAll
  repeat' (with_reducible first | assumption | fail_if_no_progress beta_reduce | apply keep_projectUnit | apply Kept.ite | apply Kept.foldl | intro _ | fail_if_no_progress (apply Kept.upd))

theorem keep_testSecond (i : Nat) (s : State) (h_s : Kept pq s) : Kept pq (testSecond i s) := by
  unfold testSecond
  repeat'
    with_reducible first
    | assumption | intro _
    | extract_lets -underBinder +onlyGivenNames x
      first
        | have hx : Kept pq x := by
            try dsimp only [x]
            repeat' (with_reducible first | assumption | fail_if_no_progress beta_reduce | apply keep_setRgBit | apply keep_setRgFld)
        | skip
      try clear_value x
    | fail_if_no_progress beta_reduce | apply keep_setRgBit | apply keep_setRgFld | apply keep_raiseEvent | apply keep_faultRecord | apply keep_stcNotice | apply Kept.ite | intro _ | fail_if_no_progress (apply Kept.upd)

theorem keep_stressSecond (s : State) (h_s : Kept pq s) : Kept pq (stressSecond s) := by
  unfold stressSecond
  repeat'
    with_reducible first
    | assumption | intro _
    | extract_lets -underBinder +onlyGivenNames x
      first
        | have hx : Kept pq x := by
            try dsimp only [x]
            repeat' (with_reducible first | assumption | fail_if_no_progress beta_reduce | apply keep_bumpN | apply keep_testSecond | apply Kept.ite | apply Kept.foldl | intro _ | fail_if_no_progress (apply Kept.upd))
        | skip
      try clear_value x
    | fail_if_no_progress beta_reduce | apply keep_bumpN | apply keep_testSecond | apply Kept.ite | apply Kept.foldl

theorem keep_setPhase_ (p : Nat) (s : State) (h_s : Kept pq s) : Kept pq (setPhase_ p s) := by
  unfold setPhase_
  repeat' (with_reducible first | assumption | fail_if_no_progress beta_reduce | apply keep_setRgFld)

theorem keep_setIsl (i st : Nat) (s : State) (h_s : Kept pq s) : Kept pq (setIsl i st s) := by
  unfold setIsl
  repeat' (with_reducible first | assumption | fail_if_no_progress beta_reduce | apply keep_setRgFld)

theorem keep_withdrawInto (i : Nat) (s : State) (h_s : Kept pq s) : Kept pq (withdrawInto i s) := by
  unfold withdrawInto
  repeat' (with_reducible first | assumption | fail_if_no_progress beta_reduce | apply keep_withdrawMig | apply Kept.ite | apply Kept.foldl | intro _ | fail_if_no_progress (apply Kept.upd) | split)

theorem keep_evacuate (i : Nat) (s : State) (h_s : Kept pq s) : KeptM pq (evacuate i s) := by
  unfold evacuate
  repeat'
    with_reducible first
    | assumption | intro _
    | extract_lets -underBinder +onlyGivenNames x
      first
        | have hx : Kept pq x := by
            try dsimp only [x]
            repeat' (with_reducible first | assumption | fail_if_no_progress beta_reduce | apply keep_moveOff | apply keep_setIsl | apply keep_withdrawInto)
        | skip
      try clear_value x
    | fail_if_no_progress beta_reduce | apply keep_moveOff | apply keep_setIsl | apply keep_withdrawInto | apply Kept.ite | apply KeptM.some | apply KeptM.none | apply KeptM.ite

theorem keep_tryIslands  : ∀ (x0 : List Nat) (x1 : State), Kept pq x1 → Kept pq (tryIslands  x0 x1)
  | [], s, h_s => by
    unfold tryIslands
    repeat'
      with_reducible first
      | assumption
  | i :: t, s, h_s => by
    unfold tryIslands
    repeat'
      with_reducible first
      | assumption | intro _
      | extract_lets -underBinder +onlyGivenNames x
        first
          | have hx : Kept pq x := by
              try dsimp only [x]
              repeat' (with_reducible first | assumption | fail_if_no_progress beta_reduce | apply keep_setRg | apply keep_setRgBit | apply keep_journal | apply keep_evacuate | apply keep_tryIslands | apply Kept.ite | apply KeptM.some | apply KeptM.none | apply KeptM.ite | apply Kept.some (by assumption) | intro _)
          | skip
        try clear_value x
      | fail_if_no_progress beta_reduce | apply keep_setRg | apply keep_setRgBit | apply keep_journal | apply keep_evacuate | apply keep_tryIslands | apply Kept.ite | apply KeptM.some | apply KeptM.none | apply KeptM.ite | apply Kept.some (by assumption) | intro _ | fail_if_no_progress (apply Kept.upd) | split

theorem keep_islandTestSelect (s : State) (h_s : Kept pq s) : Kept pq (islandTestSelect s) := by
  unfold islandTestSelect
  repeat' (with_reducible first | assumption | fail_if_no_progress beta_reduce | apply keep_tryIslands | apply Kept.ite | intro _ | fail_if_no_progress (apply Kept.upd))

theorem keep_islandEmpty (s : State) (h_s : Kept pq s) : Kept pq (islandEmpty s) := by
  unfold islandEmpty
  repeat'
    with_reducible first
    | assumption | intro _
    | extract_lets -underBinder +onlyGivenNames x
      first
        | have hx : Kept pq x := by
            try dsimp only [x]
            repeat' (with_reducible first | assumption | fail_if_no_progress beta_reduce | apply keep_raiseEvent | apply keep_journal | apply keep_setPhase_ | apply keep_setIsl)
        | skip
      try clear_value x
    | fail_if_no_progress beta_reduce | apply keep_raiseEvent | apply keep_journal | apply keep_setPhase_ | apply keep_setIsl | apply Kept.ite | intro _ | fail_if_no_progress (apply Kept.upd) | split

theorem keep_testCompleted (i result : Nat) (s : State) (h_s : Kept pq s) : Kept pq (testCompleted i result s) := by
  unfold testCompleted
  repeat'
    with_reducible first
    | assumption | intro _
    | extract_lets -underBinder +onlyGivenNames x
      first
        | have hx : Kept pq x := by
            try dsimp only [x]
            repeat' (with_reducible first | assumption | fail_if_no_progress beta_reduce | apply keep_setRg)
        | skip
      try clear_value x
    | fail_if_no_progress beta_reduce | apply keep_setRg | apply Kept.ite | intro _ | fail_if_no_progress (apply Kept.upd)

theorem keep_fenceIsland (i detail : Nat) (s : State) (h_s : Kept pq s) : Kept pq (fenceIsland i detail s) := by
  unfold fenceIsland
  repeat'
    with_reducible first
    | assumption | intro _
    | extract_lets -underBinder +onlyGivenNames x
      first
        | have hx : Kept pq x := by
            try dsimp only [x]
            repeat' (with_reducible first | assumption | fail_if_no_progress beta_reduce | apply keep_setRg | apply keep_raiseEvent | apply keep_journal | apply keep_faultRecord | apply keep_reserveCheck | apply keep_stcNotice | apply keep_setIsl | apply keep_testCompleted)
      try clear_value x
    | fail_if_no_progress beta_reduce | apply keep_setRg | apply keep_raiseEvent | apply keep_journal | apply keep_faultRecord | apply keep_reserveCheck | apply keep_stcNotice

theorem keep_logicBistEnd (fail : Option (Option Nat)) (s : State) (h_s : Kept pq s) : Kept pq (logicBistEnd fail s) := by
  unfold logicBistEnd
  repeat' (with_reducible first | assumption | fail_if_no_progress beta_reduce | apply keep_setPhase_ | apply keep_fenceIsland | apply Kept.ite | intro _ | fail_if_no_progress (apply Kept.upd) | split)

theorem keep_marchEnd (ok : Bool) (s : State) (h_s : Kept pq s) : Kept pq (marchEnd ok s) := by
  unfold marchEnd
  repeat' (with_reducible first | assumption | fail_if_no_progress beta_reduce | apply keep_setPhase_ | apply keep_fenceIsland | apply Kept.ite | intro _ | fail_if_no_progress (apply Kept.upd) | split)

theorem keep_restoreIsland (i : Nat) (s : State) (h_s : Kept pq s) : Kept pq (restoreIsland i s) := by
  unfold restoreIsland
  repeat'
    with_reducible first
    | assumption | intro _
    | extract_lets -underBinder +onlyGivenNames x
      first
        | have hx : Kept pq x := by
            try dsimp only [x]
            repeat' (with_reducible first | assumption | fail_if_no_progress beta_reduce | apply keep_reset | apply keep_setEl | apply keep_codeOf | apply keep_installIn | apply keep_loadProfile | apply Kept.ite | fail_if_no_progress (apply KeptR.mk <;> try apply Kept.of2) | apply Kept.of2 | apply Kept.snd (by assumption) | apply KeptR.ite | apply Kept.foldl | apply KeptR.foldl | intro _ | apply Kept.filterMem | fail_if_no_progress (apply Kept.upd) | split)
        | have hx : KeptR pq x := by
            try dsimp only [x]
            repeat' (with_reducible first | assumption | fail_if_no_progress beta_reduce | apply keep_reset | apply keep_setEl | apply keep_codeOf | apply keep_installIn | apply keep_loadProfile | apply Kept.ite | fail_if_no_progress (apply KeptR.mk <;> try apply Kept.of2) | apply Kept.of2 | apply Kept.snd (by assumption) | apply KeptR.ite | apply Kept.foldl | apply KeptR.foldl | intro _ | apply Kept.filterMem | fail_if_no_progress (apply Kept.upd) | split | beta_reduce)
        | skip
      try clear_value x
    | fail_if_no_progress beta_reduce | apply keep_reset | apply keep_setEl | apply keep_codeOf | apply keep_installIn | apply keep_loadProfile

theorem keep_islandRelease (s : State) (h_s : Kept pq s) : Kept pq (islandRelease s) := by
  unfold islandRelease
  repeat'
    with_reducible first
    | assumption | intro _
    | extract_lets -underBinder +onlyGivenNames x
      first
        | have hx : Kept pq x := by
            try dsimp only [x]
            repeat' (with_reducible first | assumption | fail_if_no_progress beta_reduce | apply keep_setRg | apply keep_setRgBit | apply keep_setRgFld | apply keep_raiseEvent | apply keep_journal | apply keep_stcNotice | apply keep_setIsl | apply keep_testCompleted | apply keep_restoreIsland | apply Kept.ite | apply Kept.foldl | intro _ | fail_if_no_progress (apply Kept.upd))
        | skip
      try clear_value x
    | fail_if_no_progress beta_reduce | apply keep_setRg | apply keep_setRgBit | apply keep_setRgFld | apply keep_raiseEvent | apply keep_journal | apply keep_stcNotice | apply keep_setIsl | apply keep_testCompleted | apply keep_restoreIsland | apply Kept.ite | apply Kept.foldl | intro _ | fail_if_no_progress (apply Kept.upd) | split

theorem keep_evacuationTimeout (s : State) (h_s : Kept pq s) : Kept pq (evacuationTimeout s) := by
  unfold evacuationTimeout
  repeat' (with_reducible first | assumption | fail_if_no_progress beta_reduce | apply keep_evacAbandon | apply Kept.ite | intro _ | fail_if_no_progress (apply Kept.upd) | split)

theorem keep_coreBistStart (n : Nat) (s : State) (h_s : Kept pq s) : Kept pq (coreBistStart n s) := by
  unfold coreBistStart
  repeat'
    with_reducible first
    | assumption | intro _
    | extract_lets -underBinder +onlyGivenNames x
      first
        | have hx : Kept pq x := by
            try dsimp only [x]
            repeat' (with_reducible first | assumption | fail_if_no_progress beta_reduce | apply keep_setEl)
        | skip
      try clear_value x
    | fail_if_no_progress beta_reduce | apply keep_setEl | apply Kept.ite | intro _ | fail_if_no_progress (apply Kept.upd)

theorem keep_coreBistAbort (n : Nat) (s : State) (h_s : Kept pq s) : Kept pq (coreBistAbort n s) := by
  unfold coreBistAbort
  repeat'
    with_reducible first
    | assumption | intro _
    | extract_lets -underBinder +onlyGivenNames x
      first
        | have hx : Kept pq x := by
            try dsimp only [x]
            repeat' (with_reducible first | assumption | fail_if_no_progress beta_reduce | apply keep_setRgFld)
        | skip
      try clear_value x
    | fail_if_no_progress beta_reduce | apply keep_setRgFld | apply Kept.ite | intro _ | fail_if_no_progress (apply Kept.upd)

theorem keep_coreBistEnd (n : Nat) (ok : Bool) (s : State) (h_s : Kept pq s) : Kept pq (coreBistEnd n ok s) := by
  unfold coreBistEnd
  repeat'
    with_reducible first
    | assumption | intro _
    | extract_lets -underBinder +onlyGivenNames x
      first
        | have hx : Kept pq x := by
            try dsimp only [x]
            repeat' (with_reducible first | assumption | fail_if_no_progress beta_reduce | apply keep_setRgBit | apply keep_setRgFld | apply keep_setEl | apply keep_raiseEvent | apply keep_faultRecord | apply keep_stcNotice | apply Kept.ite | intro _ | fail_if_no_progress (apply Kept.upd))
        | skip
      try clear_value x
    | fail_if_no_progress beta_reduce | apply keep_setRgBit | apply keep_setRgFld | apply keep_setEl | apply keep_raiseEvent | apply keep_faultRecord | apply keep_stcNotice | apply Kept.ite

theorem keep_ageWrite (o : Nat) (v : Word) (sec : Bool) (s : State) (h_s : Kept pq s) : KeptR pq (ageWrite o v sec s) := by
  unfold ageWrite
  repeat'
    with_reducible first
    | assumption | intro _
    | extract_lets -underBinder +onlyGivenNames x
      first
        | have hx : Kept pq x := by
            try dsimp only [x]
            repeat' (with_reducible first | assumption | fail_if_no_progress beta_reduce | apply keep_setRg | apply keep_plainWrite | apply Kept.ite | fail_if_no_progress (apply KeptR.mk <;> try apply Kept.of2) | apply Kept.of2 | apply Kept.snd (by assumption) | apply KeptR.ite | intro _ | fail_if_no_progress (apply Kept.upd) | split | beta_reduce)
        | skip
      try clear_value x
    | fail_if_no_progress beta_reduce | apply keep_setRg | apply keep_plainWrite | apply Kept.ite | fail_if_no_progress (apply KeptR.mk <;> try apply Kept.of2) | apply Kept.of2 | apply Kept.snd (by assumption) | apply KeptR.ite

theorem keep_fclrWrite (v : Word) (sec : Bool) (s : State) (h_s : Kept pq s) : KeptR pq (fclrWrite v sec s) := by
  unfold fclrWrite
  repeat'
    with_reducible first
    | assumption | intro _
    | extract_lets -underBinder +onlyGivenNames x
      first
        | have hx : Kept pq x := by
            try dsimp only [x]
            repeat' (with_reducible first | assumption | fail_if_no_progress beta_reduce | apply keep_setRgBit | apply keep_causeEnds | apply Kept.ite | fail_if_no_progress (apply KeptR.mk <;> try apply Kept.of2) | apply Kept.of2 | apply Kept.snd (by assumption) | apply KeptR.ite | intro _ | fail_if_no_progress (apply Kept.upd) | split | beta_reduce)
        | skip
      try clear_value x
    | fail_if_no_progress beta_reduce | apply keep_setRgBit | apply keep_causeEnds | apply Kept.ite | fail_if_no_progress (apply KeptR.mk <;> try apply Kept.of2) | apply Kept.of2 | apply Kept.snd (by assumption) | apply KeptR.ite

theorem keep_stcWrite (o : Nat) (v : Word) (sec : Bool) (s : State) (h_s : Kept pq s) : KeptR pq (stcWrite o v sec s) := by
  unfold stcWrite
  repeat'
    with_reducible first
    | assumption | intro _
    | extract_lets -underBinder +onlyGivenNames x
      first
        | have hx : Kept pq x := by
            try dsimp only [x]
            repeat' (with_reducible first | assumption | fail_if_no_progress beta_reduce | apply keep_setRgBit | apply keep_setRgFld | apply keep_plainWrite | apply keep_fclrWrite | apply Kept.ite | fail_if_no_progress (apply KeptR.mk <;> try apply Kept.of2) | apply Kept.of2 | apply Kept.snd (by assumption) | apply KeptR.ite | intro _)
        | skip
      try clear_value x
    | fail_if_no_progress beta_reduce | apply keep_setRgBit | apply keep_setRgFld | apply keep_plainWrite | apply keep_fclrWrite | apply Kept.ite | fail_if_no_progress (apply KeptR.mk <;> try apply Kept.of2) | apply Kept.of2 | apply Kept.snd (by assumption) | apply KeptR.ite

theorem keep_execMarginMeasure (ms : Vector (BitVec 16) 11) (s : State) (h_s : Kept pq s) : KeptX pq (execMarginMeasure ms s) := by
  unfold execMarginMeasure
  repeat' (with_reducible first | assumption | fail_if_no_progress beta_reduce | apply keep_marginMeasure | apply Kept.ite | apply KeptX.next)

theorem keep_execProjectionUpdate (s : State) (h_s : Kept pq s) : KeptX pq (execProjectionUpdate s) := by
  unfold execProjectionUpdate
  repeat' (with_reducible first | assumption | fail_if_no_progress beta_reduce | apply keep_projectAll | apply Kept.ite | apply KeptX.next | apply KeptX.ite | intro _)

theorem keep_execStressAccumulate (s : State) (h_s : Kept pq s) : KeptX pq (execStressAccumulate s) := by
  unfold execStressAccumulate
  repeat' (with_reducible first | assumption | fail_if_no_progress beta_reduce | apply keep_stressSecond | apply Kept.ite | apply KeptX.next)

theorem keep_execIslandTestSelect (s : State) (h_s : Kept pq s) : KeptX pq (execIslandTestSelect s) := by
  unfold execIslandTestSelect
  repeat' (with_reducible first | assumption | fail_if_no_progress beta_reduce | apply keep_islandTestSelect | apply Kept.ite | apply KeptX.next)

theorem keep_execIslandEmpty (s : State) (h_s : Kept pq s) : KeptX pq (execIslandEmpty s) := by
  unfold execIslandEmpty
  repeat' (with_reducible first | assumption | fail_if_no_progress beta_reduce | apply keep_islandEmpty | apply Kept.ite | apply KeptX.next)

theorem keep_execLogicBistEnd (fail : Option (Option (Fin 4))) (s : State) (h_s : Kept pq s) : KeptX pq (execLogicBistEnd fail s) := by
  unfold execLogicBistEnd
  repeat' (with_reducible first | assumption | fail_if_no_progress beta_reduce | apply keep_logicBistEnd | apply Kept.ite | apply KeptX.next)

theorem keep_execMarchEnd (ok : Bool) (s : State) (h_s : Kept pq s) : KeptX pq (execMarchEnd ok s) := by
  unfold execMarchEnd
  repeat' (with_reducible first | assumption | fail_if_no_progress beta_reduce | apply keep_marchEnd | apply Kept.ite | apply KeptX.next)

theorem keep_execIslandRelease (s : State) (h_s : Kept pq s) : KeptX pq (execIslandRelease s) := by
  unfold execIslandRelease
  repeat' (with_reducible first | assumption | fail_if_no_progress beta_reduce | apply keep_islandRelease | apply Kept.ite | apply KeptX.next)

theorem keep_execEvacuationTimeout (s : State) (h_s : Kept pq s) : KeptX pq (execEvacuationTimeout s) := by
  unfold execEvacuationTimeout
  repeat' (with_reducible first | assumption | fail_if_no_progress beta_reduce | apply keep_evacuationTimeout | apply Kept.ite | apply KeptX.next)

theorem keep_execCoreBistStart (n : Fin 4) (s : State) (h_s : Kept pq s) : KeptX pq (execCoreBistStart n s) := by
  unfold execCoreBistStart
  repeat' (with_reducible first | assumption | fail_if_no_progress beta_reduce | apply keep_coreBistStart | apply Kept.ite | apply KeptX.next)

theorem keep_execCoreBistAbort (n : Fin 4) (s : State) (h_s : Kept pq s) : KeptX pq (execCoreBistAbort n s) := by
  unfold execCoreBistAbort
  repeat' (with_reducible first | assumption | fail_if_no_progress beta_reduce | apply keep_coreBistAbort | apply Kept.ite | apply KeptX.next)

theorem keep_execCoreBistEnd (n : Fin 4) (ok : Bool) (s : State) (h_s : Kept pq s) : KeptX pq (execCoreBistEnd n ok s) := by
  unfold execCoreBistEnd
  repeat' (with_reducible first | assumption | fail_if_no_progress beta_reduce | apply keep_coreBistEnd | apply Kept.ite | apply KeptX.next)

theorem keep_execFclr (m : Master) (v : Word) (s : State) (h_s : Kept pq s) : KeptX pq (execFclr m v s) := by
  unfold execFclr
  repeat' (with_reducible first | assumption | fail_if_no_progress beta_reduce | apply keep_fclrWrite | apply Kept.ite | fail_if_no_progress (apply KeptR.mk <;> try apply Kept.of2) | apply Kept.of2 | apply Kept.snd (by assumption) | apply KeptR.ite | apply KeptX.next | apply KeptX.ite | intro _ | fail_if_no_progress (apply Kept.upd))

end Sys2Proof.Machine
end

