-- ==== Sys2Proof/Laws/KeepDebug.lean ====
section
/-! SUPPORT. What the functions of `Debug` keep: the queue, and the canonical form of memory and registers. -/

namespace Sys2Proof.Machine

variable {pq : List Instr}

theorem keep_noAuth (i : Nat) (s : State) (h_s : Kept pq s) : Kept pq (noAuth i s) := by
  unfold noAuth
  exact keep_setRgBit _ _ _ h_s

theorem keep_regResult (i code : Nat) (s : State) (h_s : Kept pq s) : Kept pq (regResult i code s) := by
  unfold regResult
  repeat' (with_reducible first | assumption | fail_if_no_progress beta_reduce | apply keep_setRgFld)

theorem keep_regFails (i code : Nat) (s : State) (h_s : Kept pq s) : Kept pq (regFails i code s) := by
  unfold regFails
  exact keep_regResult _ _ _ (Kept.ite (fun _ => h_s) (fun _ => keep_noAuth _ _ h_s))

theorem keep_regdataRead (i : Nat) (s : State) (h_s : Kept pq s) : KeptR pq (regdataRead i s) := by
  unfold regdataRead
  repeat'
    with_reducible first
    | assumption | intro _
    | extract_lets -underBinder +onlyGivenNames x
      first
        | have hx : Kept pq x := by
            try dsimp only [x]
            repeat' (with_reducible first | assumption | fail_if_no_progress beta_reduce | apply keep_setRg | apply keep_regResult | apply keep_regFails | apply Kept.ite | fail_if_no_progress (apply KeptR.mk <;> try apply Kept.of2) | apply Kept.of2 | apply Kept.snd (by assumption) | apply KeptR.ite | intro _ | fail_if_no_progress (apply Kept.upd) | split | beta_reduce)
        | skip
      try clear_value x
    | fail_if_no_progress beta_reduce | apply keep_setRg | apply keep_regResult | apply keep_regFails | apply Kept.ite | fail_if_no_progress (apply KeptR.mk <;> try apply Kept.of2) | apply Kept.of2 | apply Kept.snd (by assumption) | apply KeptR.ite | intro _ | fail_if_no_progress (apply Kept.upd) | split

theorem keep_regdataWrite (i : Nat) (v : Word) (s0 : State) (h_s0 : Kept pq s0) : Kept pq (regdataWrite i v s0) := by
  unfold regdataWrite
  repeat'
    with_reducible first
    | assumption | intro _
    | extract_lets -underBinder +onlyGivenNames x
      first
        | have hx : Kept pq x := by
            try dsimp only [x]
            repeat' (with_reducible first | assumption | fail_if_no_progress beta_reduce | apply keep_setRg)
        | skip
      try clear_value x
    | fail_if_no_progress beta_reduce | apply keep_setRg | apply keep_setEl | apply keep_regResult | apply keep_regFails | apply Kept.ite | intro _ | fail_if_no_progress (apply Kept.upd) | split

theorem keep_elResume (i : Nat) (s : State) (h_s : Kept pq s) : Kept pq (elResume i s) := by
  unfold elResume
  repeat' (with_reducible first | assumption | fail_if_no_progress beta_reduce | apply keep_resumeElem | apply keep_noAuth | apply Kept.ite | intro _)

theorem keep_elStep (i : Nat) (s : State) (h_s : Kept pq s) : Kept pq (elStep i s) := by
  unfold elStep
  repeat'
    with_reducible first
    | assumption | intro _
    | extract_lets -underBinder +onlyGivenNames x
      first
        | have hx : Kept pq x := by
            try dsimp only [x]
            repeat' (with_reducible first | assumption | fail_if_no_progress beta_reduce | apply keep_resumeElem)
        | skip
      try clear_value x
    | fail_if_no_progress beta_reduce | apply keep_resumeElem | apply keep_noAuth | apply Kept.ite | intro _ | fail_if_no_progress (apply Kept.upd)

theorem keep_elIcinva (i : Nat) (s : State) (h_s : Kept pq s) : Kept pq (elIcinva i s) := by
  unfold elIcinva
  repeat' (with_reducible first | assumption | fail_if_no_progress beta_reduce | apply keep_setEl | apply keep_noAuth | apply Kept.ite | intro _)

theorem keep_elCtrlWrite (i : Nat) (v : Word) (sec : Bool) (s : State) (h_s : Kept pq s) : Kept pq (elCtrlWrite i v sec s) := by
  unfold elCtrlWrite
  repeat'
    with_reducible first
    | assumption | intro _
    | extract_lets -underBinder +onlyGivenNames x
      first
        | have hx : Kept pq x := by
            try dsimp only [x]
            repeat' (with_reducible first | assumption | fail_if_no_progress beta_reduce | apply keep_plainWrite | apply keep_haltRequest | apply keep_elResume | apply keep_elStep | apply keep_elIcinva | apply Kept.ite | intro _)
      try clear_value x
    | fail_if_no_progress beta_reduce | apply keep_plainWrite | apply keep_haltRequest | apply keep_elResume | apply keep_elStep | apply keep_elIcinva | apply Kept.ite

theorem keep_stimElem (m : Master) (s : State) (h_s : Kept pq s) : KeptR pq (stimElem m s) := by
  unfold stimElem
  repeat'
    with_reducible first
    | assumption | intro _
    | extract_lets -underBinder +onlyGivenNames x
      first
        | have hx : Kept pq x := by
            try dsimp only [x]
            repeat' (with_reducible first | assumption | fail_if_no_progress beta_reduce | apply keep_draw | apply Kept.ite | fail_if_no_progress (apply KeptR.mk <;> try apply Kept.of2) | apply Kept.of2 | apply Kept.snd (by assumption) | apply KeptR.ite | intro _ | fail_if_no_progress (apply Kept.upd) | split | beta_reduce)
        | skip
      try clear_value x
    | fail_if_no_progress beta_reduce | apply keep_draw | apply Kept.ite | fail_if_no_progress (apply KeptR.mk <;> try apply Kept.of2) | apply Kept.of2 | apply Kept.snd (by assumption) | apply KeptR.ite

theorem keep_stimWrite (m : Master) (k : Nat) (v : Word) (s : State) (h_s : Kept pq s) : KeptR pq (stimWrite m k v s) := by
  unfold stimWrite
  repeat'
    with_reducible first
    | assumption | intro _
    | extract_lets -underBinder +onlyGivenNames x
      first
        | have hx : Kept pq x := by
            try dsimp only [x]
            repeat' (with_reducible first | assumption | fail_if_no_progress beta_reduce | apply keep_timePort | apply keep_tracePacket | apply keep_stimElem | apply Kept.ite | fail_if_no_progress (apply KeptR.mk <;> try apply Kept.of2) | apply Kept.of2 | apply Kept.snd (by assumption) | apply KeptR.ite | intro _ | fail_if_no_progress (apply Kept.upd) | split | beta_reduce)
        | skip
      try clear_value x
    | fail_if_no_progress beta_reduce | apply keep_timePort | apply keep_tracePacket | apply keep_stimElem | apply Kept.ite | fail_if_no_progress (apply KeptR.mk <;> try apply Kept.of2) | apply Kept.of2 | apply Kept.snd (by assumption) | apply KeptR.ite

theorem keep_vtWrite (o : Nat) (out : Bool) (v : Word) (s : State) (h_s : Kept pq s) : Kept pq (vtWrite o out v s) := by
  unfold vtWrite
  repeat'
    with_reducible first
    | assumption | intro _
    | extract_lets -underBinder +onlyGivenNames x
      first
        | have hx : Kept pq x := by
            try dsimp only [x]
            repeat' (with_reducible first | assumption | fail_if_no_progress beta_reduce | apply keep_setRgBit | apply keep_setRgFld | apply Kept.ite | intro _)
        | skip
      try clear_value x
    | fail_if_no_progress beta_reduce | apply keep_setRgBit | apply keep_setRgFld | apply Kept.ite

theorem keep_dbgRst (v : Word) (s : State) (h_s : Kept pq s) : Kept pq (dbgRst v s) := by
  unfold dbgRst
  repeat' (with_reducible first | assumption | fail_if_no_progress beta_reduce | apply keep_resetBy | apply Kept.ite | intro _)

theorem keep_dbgWrite (m : Master) (o : Nat) (v : Word) (sec : Bool) (s : State) (h_s : Kept pq s) : KeptR pq (dbgWrite m o v sec s) := by
  unfold dbgWrite
  repeat'
    with_reducible first
    | assumption | intro _
    | extract_lets -underBinder +onlyGivenNames x
      first
        | have hx : Kept pq x := by
            try dsimp only [x]
            repeat' (with_reducible first | assumption | fail_if_no_progress beta_reduce | apply keep_plainWrite | apply keep_regdataWrite | apply keep_elCtrlWrite | apply keep_stimWrite | apply keep_vtWrite | apply keep_dbgRst | apply Kept.ite | fail_if_no_progress (apply KeptR.mk <;> try apply Kept.of2) | apply Kept.of2 | apply Kept.snd (by assumption) | apply KeptR.ite | intro _ | fail_if_no_progress (apply Kept.upd) | split | beta_reduce)
        | skip
      try clear_value x
    | fail_if_no_progress beta_reduce | apply keep_plainWrite | apply keep_regdataWrite | apply keep_elCtrlWrite | apply keep_stimWrite | apply keep_vtWrite | apply keep_dbgRst | apply Kept.ite | fail_if_no_progress (apply KeptR.mk <;> try apply Kept.of2) | apply Kept.of2 | apply Kept.snd (by assumption) | apply KeptR.ite | intro _ | fail_if_no_progress (apply Kept.upd) | split

theorem keep_dbgRead (o : Nat) (s : State) (h_s : Kept pq s) : KeptR pq (dbgRead o s) := by
  unfold dbgRead
  repeat' (with_reducible first | assumption | fail_if_no_progress beta_reduce | apply keep_regdataRead | apply Kept.ite | fail_if_no_progress (apply KeptR.mk <;> try apply Kept.of2) | apply Kept.of2 | apply Kept.snd (by assumption) | apply KeptR.ite | intro _ | fail_if_no_progress (apply Kept.upd) | split)

theorem keep_patchWrite (m : Master) (o : Nat) (v : Word) (s : State) (h_s : Kept pq s) : KeptR pq (patchWrite m o v s) := by
  unfold patchWrite
  repeat'
    with_reducible first
    | assumption | intro _
    | extract_lets -underBinder +onlyGivenNames x
      first
        | have hx : Kept pq x := by
            try dsimp only [x]
            repeat' (with_reducible first | assumption | fail_if_no_progress beta_reduce | apply keep_plainWrite | apply keep_flInvalidate | apply Kept.ite | fail_if_no_progress (apply KeptR.mk <;> try apply Kept.of2) | apply Kept.of2 | apply Kept.snd (by assumption) | apply KeptR.ite | intro _ | fail_if_no_progress (apply Kept.upd) | split | beta_reduce)
        | skip
      try clear_value x
    | fail_if_no_progress beta_reduce | apply keep_plainWrite | apply keep_flInvalidate | apply Kept.ite | fail_if_no_progress (apply KeptR.mk <;> try apply Kept.of2) | apply Kept.of2 | apply Kept.snd (by assumption) | apply KeptR.ite

theorem keep_execHalt (m : Master) (e : Elem) (s : State) (h_s : Kept pq s) : KeptX pq (execHalt m e s) := by
  unfold execHalt
  repeat' (with_reducible first | assumption | fail_if_no_progress beta_reduce | apply keep_regAccess | apply keep_haltRequest | apply Kept.ite | fail_if_no_progress (apply KeptR.mk <;> try apply Kept.of2) | apply Kept.of2 | apply Kept.snd (by assumption) | apply KeptR.ite | apply KeptX.next | apply KeptX.ite | intro _)

theorem keep_execResume (m : Master) (e : Elem) (s : State) (h_s : Kept pq s) : KeptX pq (execResume m e s) := by
  unfold execResume
  repeat' (with_reducible first | assumption | fail_if_no_progress beta_reduce | apply keep_regAccess | apply keep_elResume | apply Kept.ite | fail_if_no_progress (apply KeptR.mk <;> try apply Kept.of2) | apply Kept.of2 | apply Kept.snd (by assumption) | apply KeptR.ite | apply KeptX.next | apply KeptX.ite | intro _)

theorem keep_execStep (m : Master) (e : Elem) (s : State) (h_s : Kept pq s) : KeptX pq (execStep m e s) := by
  unfold execStep
  repeat' (with_reducible first | assumption | fail_if_no_progress beta_reduce | apply keep_regAccess | apply keep_elStep | apply Kept.ite | fail_if_no_progress (apply KeptR.mk <;> try apply Kept.of2) | apply Kept.of2 | apply Kept.snd (by assumption) | apply KeptR.ite | apply KeptX.next | apply KeptX.ite | intro _)

theorem keep_execIcinva (m : Master) (e : Elem) (s : State) (h_s : Kept pq s) : KeptX pq (execIcinva m e s) := by
  unfold execIcinva
  repeat' (with_reducible first | assumption | fail_if_no_progress beta_reduce | apply keep_regAccess | apply keep_elIcinva | apply Kept.ite | fail_if_no_progress (apply KeptR.mk <;> try apply Kept.of2) | apply Kept.of2 | apply Kept.snd (by assumption) | apply KeptR.ite | apply KeptX.next | apply KeptX.ite | intro _)

theorem keep_execRegdataAccess (m : Master) (e : Elem) (v : Option Word) (s : State) (h_s : Kept pq s) : KeptX pq (execRegdataAccess m e v s) := by
  unfold execRegdataAccess
  repeat' (with_reducible first | assumption | fail_if_no_progress beta_reduce | apply keep_regAccess | apply keep_regdataRead | apply keep_regdataWrite | apply Kept.ite | fail_if_no_progress (apply KeptR.mk <;> try apply Kept.of2) | apply Kept.of2 | apply Kept.snd (by assumption) | apply KeptR.ite | apply KeptX.next | apply KeptX.ite | intro _ | fail_if_no_progress (apply Kept.upd) | split)

theorem keep_execDbgRst (m : Master) (v : Word) (s : State) (h_s : Kept pq s) : KeptX pq (execDbgRst m v s) := by
  unfold execDbgRst
  repeat' (with_reducible first | assumption | fail_if_no_progress beta_reduce | apply keep_regAccess | apply keep_dbgRst | apply Kept.ite | fail_if_no_progress (apply KeptR.mk <;> try apply Kept.of2) | apply Kept.of2 | apply Kept.snd (by assumption) | apply KeptR.ite | apply KeptX.next | apply KeptX.ite | intro _)

theorem keep_execPatchWrite (m : Master) (k : Fin 64) (w : Fin 4) (v : Word) (s : State) (h_s : Kept pq s) : KeptX pq (execPatchWrite m k w v s) := by
  unfold execPatchWrite
  repeat' (with_reducible first | assumption | fail_if_no_progress beta_reduce | apply keep_regAccess | apply keep_patchWrite | apply Kept.ite | fail_if_no_progress (apply KeptR.mk <;> try apply Kept.of2) | apply Kept.of2 | apply Kept.snd (by assumption) | apply KeptR.ite | apply KeptX.next)

theorem keep_execStimWrite (m : Master) (k : Fin 32) (v : Word) (s : State) (h_s : Kept pq s) : KeptX pq (execStimWrite m k v s) := by
  unfold execStimWrite
  repeat' (with_reducible first | assumption | fail_if_no_progress beta_reduce | apply keep_regAccess | apply keep_stimWrite | apply Kept.ite | fail_if_no_progress (apply KeptR.mk <;> try apply Kept.of2) | apply Kept.of2 | apply Kept.snd (by assumption) | apply KeptR.ite | apply KeptX.next)

theorem keep_execVtOutWrite (m : Master) (n : Fin 5) (b : BitVec 8) (s : State) (h_s : Kept pq s) : KeptX pq (execVtOutWrite m n b s) := by
  unfold execVtOutWrite
  repeat' (with_reducible first | assumption | fail_if_no_progress beta_reduce | apply keep_regAccess | apply keep_vtWrite | apply Kept.ite | fail_if_no_progress (apply KeptR.mk <;> try apply Kept.of2) | apply Kept.of2 | apply Kept.snd (by assumption) | apply KeptR.ite | apply KeptX.next | apply KeptX.ite | intro _)

theorem keep_execVtInWrite (m : Master) (n : Fin 5) (b : BitVec 8) (s : State) (h_s : Kept pq s) : KeptX pq (execVtInWrite m n b s) := by
  unfold execVtInWrite
  repeat' (with_reducible first | assumption | fail_if_no_progress beta_reduce | apply keep_regAccess | apply keep_vtWrite | apply Kept.ite | fail_if_no_progress (apply KeptR.mk <;> try apply Kept.of2) | apply Kept.of2 | apply Kept.snd (by assumption) | apply KeptR.ite | apply KeptX.next | apply KeptX.ite | intro _)

theorem keep_execVtFullClear (m : Master) (n : Fin 5) (out : Bool) (s : State) (h_s : Kept pq s) : KeptX pq (execVtFullClear m n out s) := by
  unfold execVtFullClear
  repeat'
    with_reducible first
    | assumption | intro _
    | extract_lets -underBinder +onlyGivenNames x
      first
        | have hx : Kept pq x := by
            try dsimp only [x]
            repeat' (with_reducible first | assumption | fail_if_no_progress beta_reduce | apply keep_regAccess | apply keep_vtWrite | apply Kept.ite | fail_if_no_progress (apply KeptR.mk <;> try apply Kept.of2) | apply Kept.of2 | apply Kept.snd (by assumption) | apply KeptR.ite | apply KeptX.next | apply KeptX.ite | intro _ | fail_if_no_progress (apply Kept.upd) | split | beta_reduce)
        | skip
      try clear_value x
    | fail_if_no_progress beta_reduce | apply keep_regAccess | apply keep_vtWrite | apply Kept.ite | fail_if_no_progress (apply KeptR.mk <;> try apply Kept.of2) | apply Kept.of2 | apply Kept.snd (by assumption) | apply KeptR.ite | apply KeptX.next

end Sys2Proof.Machine
end

