-- ==== Sys2Proof/Laws/KeepGirth.lean ====
section
/-! SUPPORT. What the functions of `Girth` keep: the queue, and the canonical form of memory and registers. -/

namespace Sys2Proof.Machine

variable {pq : List Instr}

theorem keep_girthFlag (g i : Nat) (s : State) (h_s : Kept pq s) : Kept pq (girthFlag g i s) := by
  unfold girthFlag
  repeat' (with_reducible first | assumption | fail_if_no_progress beta_reduce | apply keep_setRgBit)

theorem keep_girthSend (g : Nat) (f : List Byte) (s : State) (h_s : Kept pq s) : Kept pq (girthSend g f s) := by
  unfold girthSend
  repeat'
    with_reducible first
    | assumption | intro _
    | extract_lets -underBinder +onlyGivenNames x
      first
        | have hx : Kept pq x := by
            try dsimp only [x]
            repeat' (with_reducible first | assumption | fail_if_no_progress beta_reduce | apply keep_setGirth | apply Kept.ite | intro _ | fail_if_no_progress (apply Kept.upd) | split | beta_reduce)
        | skip
      try clear_value x
    | fail_if_no_progress beta_reduce | apply keep_setGirth

theorem keep_sendBeacon (g : Nat) (s : State) (h_s : Kept pq s) : Kept pq (sendBeacon g s) := by
  unfold sendBeacon
  repeat'
    with_reducible first
    | assumption | intro _
    | extract_lets -underBinder +onlyGivenNames x
      first
        | have hx : Kept pq x := by
            try dsimp only [x]
            repeat' (with_reducible first | assumption | fail_if_no_progress beta_reduce | apply keep_setRgBit | apply keep_setGirth | apply keep_girthSend | apply Kept.ite | intro _ | fail_if_no_progress (apply Kept.upd) | split | beta_reduce)
        | skip
      try clear_value x
    | fail_if_no_progress beta_reduce | apply keep_setRgBit | apply keep_setGirth | apply keep_girthSend

theorem keep_girthTick (g : Nat) (s : State) (h_s : Kept pq s) : Kept pq (girthTick g s) := by
  unfold girthTick
  repeat'
    with_reducible first
    | assumption | intro _
    | extract_lets -underBinder +onlyGivenNames x
      first
        | have hx : Kept pq x := by
            try dsimp only [x]
            repeat' (with_reducible first | assumption | fail_if_no_progress beta_reduce | apply keep_setRgBit | apply keep_setGirth | apply keep_sendBeacon | apply Kept.ite | intro _ | fail_if_no_progress (apply Kept.upd) | split | beta_reduce)
        | skip
      try clear_value x
    | fail_if_no_progress beta_reduce | apply keep_setRgBit | apply keep_setGirth | apply keep_sendBeacon | apply Kept.ite | intro _ | fail_if_no_progress (apply Kept.upd) | split

theorem keep_cycleStart (g : Nat) (s : State) (h_s : Kept pq s) : Kept pq (cycleStart g s) := by
  unfold cycleStart
  repeat'
    with_reducible first
    | assumption | intro _
    | extract_lets -underBinder +onlyGivenNames x
      first
        | have hx : Kept pq x := by
            try dsimp only [x]
            repeat' (with_reducible first | assumption | fail_if_no_progress beta_reduce | apply keep_setRg | apply keep_setGirth | apply keep_bump | apply keep_raiseEvent | apply keep_girthFlag | apply keep_sendBeacon | apply Kept.ite | intro _)
        | skip
      try clear_value x
    | fail_if_no_progress beta_reduce | apply keep_setRg | apply keep_setGirth | apply keep_bump | apply keep_raiseEvent | apply keep_girthFlag | apply keep_sendBeacon | apply Kept.ite

theorem keep_girthPush (g p flags : Nat) (time : Word) (payload : List Byte) (s : State) (h_s : Kept pq s) : KeptR pq (girthPush g p flags time payload s) := by
  unfold girthPush
  repeat'
    with_reducible first
    | assumption | intro _
    | extract_lets -underBinder +onlyGivenNames x
      first
        | have hx : Kept pq x := by
            try dsimp only [x]
            repeat' (with_reducible first | assumption | fail_if_no_progress beta_reduce | apply keep_pushElem | apply keep_girthFlag | apply Kept.ite | fail_if_no_progress (apply KeptR.mk <;> try apply Kept.of2) | apply Kept.of2 | apply Kept.snd (by assumption) | apply KeptR.ite | intro _ | fail_if_no_progress (apply Kept.upd) | split | beta_reduce)
        | skip
      try clear_value x
    | fail_if_no_progress beta_reduce | apply keep_pushElem | apply keep_girthFlag | apply Kept.ite | fail_if_no_progress (apply KeptR.mk <;> try apply Kept.of2) | apply Kept.of2 | apply Kept.snd (by assumption) | apply KeptR.ite | intro _ | fail_if_no_progress (apply Kept.upd) | split

theorem keep_nodeAnswers (g n : Nat) (s : State) (h_s : Kept pq s) : Kept pq (nodeAnswers g n s) := by
  unfold nodeAnswers
  repeat'
    with_reducible first
    | assumption | intro _
    | extract_lets -underBinder +onlyGivenNames x
      first
        | have hx : Kept pq x := by
            try dsimp only [x]
            repeat' (with_reducible first | assumption | fail_if_no_progress beta_reduce | apply keep_setRgBit | apply keep_setGirth)
        | skip
      try clear_value x
    | fail_if_no_progress beta_reduce | apply keep_setRgBit | apply keep_setGirth | apply keep_raiseEvent | apply Kept.ite

theorem keep_slotEnd (g : Nat) (t : DWord) (s : State) (h_s : Kept pq s) : Kept pq (slotEnd g t s) := by
  unfold slotEnd
  repeat'
    with_reducible first
    | assumption | intro _
    | extract_lets -underBinder +onlyGivenNames x
      first
        | have hx : Kept pq x := by
            try dsimp only [x]
            repeat' (with_reducible first | assumption | fail_if_no_progress beta_reduce | apply keep_setGirth | apply Kept.ite | intro _ | fail_if_no_progress (apply Kept.upd) | split | beta_reduce)
        | skip
      try clear_value x
    | fail_if_no_progress beta_reduce | apply keep_setGirth

theorem keep_elemDone (p : Nat) (s : State) (h_s : Kept pq s) : Kept pq (elemDone p s) := by
  unfold elemDone
  repeat'
    with_reducible first
    | assumption | intro _
    | extract_lets -underBinder +onlyGivenNames x
      first
        | have hx : Kept pq x := by
            try dsimp only [x]
            repeat' (with_reducible first | assumption | fail_if_no_progress beta_reduce | apply keep_queueOpen | apply keep_qConsume | apply Kept.ite | fail_if_no_progress (apply KeptR.mk <;> try apply Kept.of2) | apply Kept.of2 | apply Kept.snd (by assumption) | apply KeptR.ite | intro _ | fail_if_no_progress (apply Kept.upd) | split | beta_reduce)
        | have hx : KeptR pq x := by
            try dsimp only [x]
            repeat' (with_reducible first | assumption | fail_if_no_progress beta_reduce | apply keep_queueOpen)
      try clear_value x
    | fail_if_no_progress beta_reduce | apply keep_queueOpen | apply keep_qConsume | apply Kept.ite | fail_if_no_progress (apply KeptR.mk <;> try apply Kept.of2) | apply Kept.of2

theorem keep_tryDone (t : GirthTry) (s : State) (h_s : Kept pq s) : Kept pq (tryDone t s) := by
  unfold tryDone
  repeat' (with_reducible first | assumption | fail_if_no_progress beta_reduce | apply keep_elemDone | apply Kept.ite | intro _)

theorem keep_tryFails (g : Nat) (t : GirthTry) (at_ : DWord) (s : State) (h_s : Kept pq s) : Kept pq (tryFails g t at_ s) := by
  unfold tryFails
  repeat'
    with_reducible first
    | assumption | intro _
    | extract_lets -underBinder +onlyGivenNames x
      first
        | have hx : Kept pq x := by
            try dsimp only [x]
            repeat' (with_reducible first | assumption | fail_if_no_progress beta_reduce | apply keep_setRgBit | apply keep_setGirth | apply keep_draw | apply keep_bump | apply keep_raiseEvent | apply keep_girthFlag | apply keep_girthPush | apply keep_slotEnd | apply keep_tryDone | apply Kept.ite | fail_if_no_progress (apply KeptR.mk <;> try apply Kept.of2) | apply Kept.of2 | apply Kept.snd (by assumption) | apply KeptR.ite | intro _)
        | skip
      try clear_value x
    | fail_if_no_progress beta_reduce | apply keep_setRgBit | apply keep_setGirth | apply keep_draw | apply keep_bump | apply keep_raiseEvent | apply keep_girthFlag | apply keep_girthPush | apply keep_slotEnd

theorem keep_girthReply (g : Nat) (bs : List Byte) (age : Nat) (s : State) (h_s : Kept pq s) : Kept pq (girthReply g bs age s) := by
  unfold girthReply
  repeat'
    with_reducible first
    | assumption | intro _
    | extract_lets -underBinder +onlyGivenNames x
      first
        | have hx : Kept pq x := by
            try dsimp only [x]
            repeat' (with_reducible first | assumption | fail_if_no_progress beta_reduce | apply keep_setGirth | apply keep_countEntry | apply keep_girthPush | apply keep_nodeAnswers | apply keep_slotEnd | apply keep_tryDone | apply keep_tryFails | apply Kept.ite | fail_if_no_progress (apply KeptR.mk <;> try apply Kept.of2) | apply Kept.of2 | apply Kept.snd (by assumption) | apply KeptR.ite | intro _)
        | skip
      try clear_value x
    | fail_if_no_progress beta_reduce | apply keep_setGirth | apply keep_countEntry | apply keep_girthPush | apply keep_nodeAnswers | apply keep_slotEnd | apply keep_tryDone | apply keep_tryFails | apply Kept.ite | fail_if_no_progress (apply KeptR.mk <;> try apply Kept.of2) | apply Kept.of2 | apply Kept.snd (by assumption) | apply KeptR.ite | intro _ | fail_if_no_progress (apply Kept.upd) | split

theorem keep_girthCollision (g : Nat) (s : State) (h_s : Kept pq s) : Kept pq (girthCollision g s) := by
  unfold girthCollision
  repeat'
    with_reducible first
    | assumption | intro _
    | extract_lets -underBinder +onlyGivenNames x
      first
        | have hx : Kept pq x := by
            try dsimp only [x]
            repeat' (with_reducible first | assumption | fail_if_no_progress beta_reduce | apply keep_setGirth | apply keep_girthFlag)
        | skip
      try clear_value x
    | fail_if_no_progress beta_reduce | apply keep_setGirth | apply keep_girthFlag | apply keep_tryFails | apply Kept.ite | intro _ | fail_if_no_progress (apply Kept.upd) | split

theorem keep_girthBad (g : Nat) (s : State) (h_s : Kept pq s) : Kept pq (girthBad g s) := by
  unfold girthBad
  repeat'
    with_reducible first
    | assumption | intro _
    | extract_lets -underBinder +onlyGivenNames x
      first
        | have hx : Kept pq x := by
            try dsimp only [x]
            repeat' (with_reducible first | assumption | fail_if_no_progress beta_reduce | apply keep_bump | apply keep_girthFlag)
      try clear_value x
    | fail_if_no_progress beta_reduce | apply keep_bump | apply keep_girthFlag | apply keep_tryFails | apply Kept.ite | intro _ | fail_if_no_progress (apply Kept.upd) | split

theorem keep_sendCmd (g n p : Nat) (nop : Bool) (payload : List Byte) (s : State) (h_s : Kept pq s) : Kept pq (sendCmd g n p nop payload s) := by
  unfold sendCmd
  repeat'
    with_reducible first
    | assumption | intro _
    | extract_lets -underBinder +onlyGivenNames x
      first
        | have hx : Kept pq x := by
            try dsimp only [x]
            repeat' (with_reducible first | assumption | fail_if_no_progress beta_reduce | apply keep_setGirth | apply keep_girthSend | apply Kept.ite | intro _ | fail_if_no_progress (apply Kept.upd) | split | beta_reduce)
        | skip
      try clear_value x
    | fail_if_no_progress beta_reduce | apply keep_setGirth | apply keep_girthSend

theorem keep_girthReach (p : Nat) (s : State) (h_s : Kept pq s) : KeptR pq (girthReach p s) := by
  unfold girthReach
  repeat'
    with_reducible first
    | assumption | intro _
    | extract_lets -underBinder +onlyGivenNames x
      first
        | have hx : Kept pq x := by
            try dsimp only [x]
            repeat' (with_reducible first | assumption | fail_if_no_progress beta_reduce | apply keep_queueOpen | apply keep_partnerOpen | apply Kept.ite | fail_if_no_progress (apply KeptR.mk <;> try apply Kept.of2) | apply Kept.of2 | apply Kept.snd (by assumption) | apply KeptR.ite | intro _ | fail_if_no_progress (apply Kept.upd) | split | beta_reduce)
        | have hx : KeptR pq x := by
            try dsimp only [x]
            repeat' (with_reducible first | assumption | fail_if_no_progress beta_reduce | apply keep_queueOpen | apply keep_partnerOpen | apply Kept.ite | fail_if_no_progress (apply KeptR.mk <;> try apply Kept.of2) | apply Kept.of2)
      try clear_value x
    | fail_if_no_progress beta_reduce | apply keep_queueOpen | apply keep_partnerOpen | apply Kept.ite | fail_if_no_progress (apply KeptR.mk <;> try apply Kept.of2)

theorem keep_girthEntry (g k : Nat) (was : State) (h_was : Kept pq was) : Kept pq (girthEntry g k was) := by
  unfold girthEntry
  repeat'
    with_reducible first
    | assumption | intro _
    | extract_lets -underBinder +onlyGivenNames x
      first
        | have hx : Kept pq x := by
            try dsimp only [x]
            repeat' (with_reducible first | assumption | fail_if_no_progress beta_reduce | apply keep_setGirth | apply keep_draw | apply keep_ptMiss | apply keep_agentRead | apply keep_qDrop | apply keep_girthFlag | apply keep_girthTick | apply keep_girthPush | apply keep_elemDone | apply keep_sendCmd | apply keep_girthReach | apply hF_skip | apply Kept.ite | fail_if_no_progress (apply KeptR.mk <;> try apply Kept.of2) | apply Kept.of2 | apply Kept.snd (by assumption) | apply KeptR.ite | intro _)
        | have hx : KeptR pq x := by
            try dsimp only [x]
            repeat' (with_reducible first | assumption | fail_if_no_progress beta_reduce | apply keep_setGirth | apply keep_draw | apply keep_ptMiss | apply keep_agentRead | apply keep_qDrop | apply keep_girthFlag | apply keep_girthTick | apply keep_girthPush | apply keep_elemDone | apply keep_sendCmd | apply keep_girthReach)
        | have hF_skip : ∀ y0, Kept pq y0 → Kept pq (x y0) := by
            intro y0 hy0
            try dsimp only [x]
            repeat' (with_reducible first | assumption | fail_if_no_progress beta_reduce | apply keep_setGirth | apply keep_draw | apply keep_ptMiss | apply keep_agentRead | apply keep_qDrop | apply keep_girthFlag | apply keep_girthTick)
        | skip
      try clear_value x
    | fail_if_no_progress beta_reduce | apply keep_setGirth | apply keep_draw | apply keep_ptMiss | apply keep_agentRead | apply keep_qDrop | apply keep_girthFlag | apply keep_girthTick | apply keep_girthPush | apply keep_elemDone | apply keep_sendCmd | apply keep_girthReach | apply hF_skip | apply Kept.ite | fail_if_no_progress (apply KeptR.mk <;> try apply Kept.of2) | apply Kept.of2 | apply Kept.snd (by assumption) | apply KeptR.ite | intro _ | fail_if_no_progress (apply Kept.upd) | split

theorem keep_girthSlot (g : Nat) (s : State) (h_s : Kept pq s) : Kept pq (girthSlot g s) := by
  unfold girthSlot
  repeat'
    with_reducible first
    | assumption | intro _
    | extract_lets -underBinder +onlyGivenNames x
      first
        | have hx : Kept pq x := by
            try dsimp only [x]
            repeat' (with_reducible first | assumption | fail_if_no_progress beta_reduce | apply keep_girthTick | apply keep_girthEntry | apply Kept.ite | intro _ | fail_if_no_progress (apply Kept.upd) | split | beta_reduce)
        | skip
      try clear_value x
    | fail_if_no_progress beta_reduce | apply keep_girthTick | apply keep_girthEntry | apply Kept.ite | intro _ | fail_if_no_progress (apply Kept.upd) | split

theorem keep_girthCfgWrite (g : Nat) (v : Word) (sec : Bool) (s : State) (h_s : Kept pq s) : KeptR pq (girthCfgWrite g v sec s) := by
  unfold girthCfgWrite
  repeat'
    with_reducible first
    | assumption | intro _
    | extract_lets -underBinder +onlyGivenNames x
      first
        | have hx : Kept pq x := by
            try dsimp only [x]
            repeat' (with_reducible first | assumption | fail_if_no_progress beta_reduce | apply keep_setRgBit | apply keep_setRgFld | apply keep_setGirth | apply keep_plainWrite)
        | skip
      try clear_value x
    | fail_if_no_progress beta_reduce | apply keep_setRgBit | apply keep_setRgFld | apply keep_setGirth | apply keep_plainWrite | apply Kept.ite | fail_if_no_progress (apply KeptR.mk <;> try apply Kept.of2) | apply Kept.of2 | apply Kept.snd (by assumption) | apply KeptR.ite

theorem keep_girthWrite (g o : Nat) (v : Word) (sec : Bool) (s : State) (h_s : Kept pq s) : KeptR pq (girthWrite g o v sec s) := by
  unfold girthWrite
  repeat' (with_reducible first | assumption | fail_if_no_progress beta_reduce | apply keep_plainWrite | apply keep_girthCfgWrite | apply Kept.ite | fail_if_no_progress (apply KeptR.mk <;> try apply Kept.of2) | apply Kept.of2 | apply Kept.snd (by assumption) | apply KeptR.ite | intro _)

theorem keep_execGirthCycleStart (g : Fin 4) (s : State) (h_s : Kept pq s) : KeptX pq (execGirthCycleStart g s) := by
  unfold execGirthCycleStart
  repeat' (with_reducible first | assumption | fail_if_no_progress beta_reduce | apply keep_cycleStart | apply Kept.ite | apply KeptX.next | apply KeptX.ite | intro _)

theorem keep_execGirthSlot (g : Fin 4) (s : State) (h_s : Kept pq s) : KeptX pq (execGirthSlot g s) := by
  unfold execGirthSlot
  repeat' (with_reducible first | assumption | fail_if_no_progress beta_reduce | apply keep_girthSlot | apply Kept.ite | apply KeptX.next)

theorem keep_execGirthReply (g : Fin 4) (addr ctl : BitVec 8) (rest : List (BitVec 8)) (age : Nat) (s : State) (h_s : Kept pq s) : KeptX pq (execGirthReply g addr ctl rest age s) := by
  unfold execGirthReply
  repeat'
    with_reducible first
    | assumption | intro _
    | extract_lets -underBinder +onlyGivenNames x
      first
        | have hx : Kept pq x := by
            try dsimp only [x]
            repeat' (with_reducible first | assumption | fail_if_no_progress beta_reduce | apply keep_girthReply | apply keep_girthBad | apply Kept.ite | apply KeptX.next | apply KeptX.ite | intro _ | fail_if_no_progress (apply Kept.upd) | split | beta_reduce)
        | skip
      try clear_value x
    | fail_if_no_progress beta_reduce | apply keep_girthReply | apply keep_girthBad | apply Kept.ite | apply KeptX.next

theorem keep_execGirthReplyTimeout (g : Fin 4) (s : State) (h_s : Kept pq s) : KeptX pq (execGirthReplyTimeout g s) := by
  unfold execGirthReplyTimeout
  repeat' (with_reducible first | assumption | fail_if_no_progress beta_reduce | apply keep_tryFails | apply Kept.ite | apply KeptX.next | apply KeptX.ite | intro _ | fail_if_no_progress (apply Kept.upd) | split)

theorem keep_execGirthCollision (g : Fin 4) (s : State) (h_s : Kept pq s) : KeptX pq (execGirthCollision g s) := by
  unfold execGirthCollision
  repeat' (with_reducible first | assumption | fail_if_no_progress beta_reduce | apply keep_girthCollision | apply Kept.ite | apply KeptX.next | apply KeptX.ite | intro _)

theorem keep_execGirthInvalidFrame (g : Fin 4) (s : State) (cut : Bool) (bytes : List (BitVec 8)) (h_s : Kept pq s) : KeptX pq (execGirthInvalidFrame g s cut bytes) := by
  unfold execGirthInvalidFrame
  repeat' (with_reducible first | assumption | fail_if_no_progress beta_reduce | apply keep_girthBad | apply Kept.ite | apply KeptX.next | apply KeptX.ite | intro _)

end Sys2Proof.Machine
end

