-- ==== Sys2Proof/Laws/KeepFeedback.lean ====
section
/-! SUPPORT. What the functions of `Feedback` keep: the queue, and the canonical form of memory and registers. -/

namespace Sys2Proof.Machine

variable {pq : List Instr}

theorem keep_trkStop (k : Nat) (s : State) (h_s : Kept pq s) : Kept pq (trkStop k s) := by
  unfold trkStop
  repeat' (with_reducible first | assumption | fail_if_no_progress beta_reduce | apply keep_setRgBit | apply keep_setTrk)

theorem keep_trkArm (k : Nat) (s0 : State) (h_s0 : Kept pq s0) : Kept pq (trkArm k s0) := by
  unfold trkArm
  repeat'
    with_reducible first
    | assumption | intro _
    | extract_lets -underBinder +onlyGivenNames x
      first
        | have hx : Kept pq x := by
            try dsimp only [x]
            repeat' (with_reducible first | assumption | fail_if_no_progress beta_reduce | apply keep_setRgBit | apply keep_setTrk | apply keep_agentRead | apply keep_trkStop | apply Kept.ite | fail_if_no_progress (apply KeptR.mk <;> try apply Kept.of2) | apply Kept.of2)
        | have hx : KeptR pq x := by
            try dsimp only [x]
            repeat' (with_reducible first | assumption | fail_if_no_progress beta_reduce | apply keep_setRgBit | apply keep_setTrk | apply keep_agentRead)
        | skip
      try clear_value x
    | fail_if_no_progress beta_reduce | apply keep_setRgBit | apply keep_setTrk | apply keep_agentRead | apply keep_trkStop | apply Kept.ite

theorem keep_awlLog (time pos turns last : Nat) (s : State) (h_s : Kept pq s) : Kept pq (awlLog time pos turns last s) := by
  unfold awlLog
  repeat'
    with_reducible first
    | assumption | intro _
    | extract_lets -underBinder +onlyGivenNames x
      first
        | have hx : Kept pq x := by
            try dsimp only [x]
            repeat' (with_reducible first | assumption | fail_if_no_progress beta_reduce | apply keep_setRg)
        | have hx : KeptR pq x := by
            try dsimp only [x]
            repeat' (with_reducible first | assumption | fail_if_no_progress beta_reduce | apply keep_setRg | apply keep_setRgBit | apply keep_bump | apply keep_raiseEvent | apply keep_agentWrite)
        | skip
      try clear_value x
    | fail_if_no_progress beta_reduce | apply keep_setRg | apply keep_setRgBit | apply keep_bump | apply keep_raiseEvent | apply keep_agentWrite | apply Kept.ite | fail_if_no_progress (apply KeptR.mk <;> try apply Kept.of2) | apply Kept.of2

theorem keep_pulse (k out width from_ : Nat) (s : State) (h_s : Kept pq s) : Kept pq (pulse k out width from_ s) := by
  unfold pulse
  repeat' (with_reducible first | assumption | fail_if_no_progress beta_reduce | apply keep_setRgBit | apply keep_setMark | apply Kept.ite | apply Kept.foldl | intro _ | fail_if_no_progress (apply Kept.upd) | split)

theorem keep_trkFire (k : Nat) (e : MarkEntry) (late pred : Bool) (from_ : Nat) (pos turns : Word) (s : State) (h_s : Kept pq s) : Kept pq (trkFire k e late pred from_ pos turns s) := by
  unfold trkFire
  repeat'
    with_reducible first
    | assumption | intro _
    | extract_lets -underBinder +onlyGivenNames x
      first
        | have hx : Kept pq x := by
            try dsimp only [x]
            repeat' (with_reducible first | assumption | fail_if_no_progress beta_reduce | apply keep_setRg | apply keep_setRgBit | apply keep_setTrk | apply keep_bump | apply keep_raiseEvent | apply keep_trkStop | apply keep_awlLog | apply keep_pulse | apply Kept.ite | intro _)
        | skip
      try clear_value x
    | fail_if_no_progress beta_reduce | apply keep_setRg | apply keep_setRgBit | apply keep_setTrk | apply keep_bump | apply keep_raiseEvent | apply keep_trkStop | apply keep_awlLog | apply keep_pulse | apply Kept.ite

theorem keep_markFire (k : Nat) (s : State) (h_s : Kept pq s) : Kept pq (markFire k s) := by
  unfold markFire
  repeat'
    with_reducible first
    | assumption | intro _
    | extract_lets -underBinder +onlyGivenNames x
      first
        | have hx : Kept pq x := by
            try dsimp only [x]
            repeat' (with_reducible first | assumption | fail_if_no_progress beta_reduce | apply keep_trkFire | apply Kept.ite | intro _ | fail_if_no_progress (apply Kept.upd) | split | beta_reduce)
        | skip
      try clear_value x
    | fail_if_no_progress beta_reduce | apply keep_trkFire | apply Kept.ite | intro _ | fail_if_no_progress (apply Kept.upd) | split

theorem keep_predictedFire (k : Nat) (s : State) (h_s : Kept pq s) : Kept pq (predictedFire k s) := by
  unfold predictedFire
  repeat' (with_reducible first | assumption | fail_if_no_progress beta_reduce | apply keep_trkFire | apply Kept.ite | intro _ | fail_if_no_progress (apply Kept.upd) | split)

theorem keep_trkPredict (k : Nat) (l speed : Int) (tf : DWord) (s : State) (h_s : Kept pq s) : Kept pq (trkPredict k l speed tf s) := by
  unfold trkPredict
  repeat'
    with_reducible first
    | assumption | intro _
    | extract_lets -underBinder +onlyGivenNames x
      first
        | have hx : Kept pq x := by
            try dsimp only [x]
            repeat' (with_reducible first | assumption | fail_if_no_progress beta_reduce | apply keep_setTrk | apply keep_tick | apply Kept.ite | intro _ | fail_if_no_progress (apply Kept.upd) | split | beta_reduce)
        | skip
      try clear_value x
    | fail_if_no_progress beta_reduce | apply keep_setTrk | apply keep_tick | apply Kept.ite | intro _ | fail_if_no_progress (apply Kept.upd) | split

theorem keep_awlSeesBlock (x : Nat) (pos turns speed : Word) (tf : DWord) (stale : Bool) (s : State) (h_s : Kept pq s) : Kept pq (awlSeesBlock x pos turns speed tf stale s) := by
  unfold awlSeesBlock
  repeat'
    with_reducible first
    | assumption | intro _
    | extract_lets -underBinder +onlyGivenNames x
      first
        | have hx : Kept pq x := by
            try dsimp only [x]
            repeat' (with_reducible first | assumption | fail_if_no_progress beta_reduce | apply keep_trkPredict | apply Kept.ite | apply Kept.foldl | intro _ | fail_if_no_progress (apply Kept.upd) | split | beta_reduce)
        | skip
      try clear_value x
    | fail_if_no_progress beta_reduce | apply keep_trkPredict | apply Kept.ite | apply Kept.foldl

theorem keep_feedbackPort (mid : Option (Fin 32)) (x : Nat) (pos turns speed : Word) (time : DWord) (flags src : Nat) (dropBlk : Option (Blk × Nat × Nat)) (s : State) (h_s : Kept pq s) : Kept pq (feedbackPort mid x pos turns speed time flags src dropBlk s) := by
  unfold feedbackPort
  repeat'
    with_reducible first
    | assumption | intro _
    | extract_lets -underBinder +onlyGivenNames x
      first
        | have hx : Kept pq x := by
            try dsimp only [x]
            repeat' (with_reducible first | assumption | fail_if_no_progress beta_reduce | apply keep_bump | apply keep_wakeCtx | apply keep_bankWrite | apply keep_axisDrop | apply keep_awlSeesBlock | apply Kept.ite | intro _ | fail_if_no_progress (apply Kept.upd) | split)
        | skip
      try clear_value x
    | fail_if_no_progress beta_reduce | apply keep_bump | apply keep_wakeCtx | apply keep_bankWrite | apply keep_axisDrop | apply keep_awlSeesBlock | apply Kept.ite

theorem keep_fbFlag (f i : Nat) (s : State) (h_s : Kept pq s) : Kept pq (fbFlag f i s) := by
  unfold fbFlag
  repeat' (with_reducible first | assumption | fail_if_no_progress beta_reduce | apply keep_setRgBit)

theorem keep_fbRestart (f : Nat) (s : State) (h_s : Kept pq s) : Kept pq (fbRestart f s) := by
  unfold fbRestart
  repeat' (with_reducible first | assumption | fail_if_no_progress beta_reduce | apply keep_setFb)

theorem keep_fbLoad (f : Nat) (s : State) (h_s : Kept pq s) : Kept pq (fbLoad f s) := by
  unfold fbLoad
  repeat'
    with_reducible first
    | assumption | intro _
    | extract_lets -underBinder +onlyGivenNames x
      first
        | have hx : Kept pq x := by
            try dsimp only [x]
            repeat' (with_reducible first | assumption | fail_if_no_progress beta_reduce | apply keep_setRgBit | apply keep_setFb)
        | skip
      try clear_value x
    | fail_if_no_progress beta_reduce | apply keep_setRgBit | apply keep_setFb | apply keep_fbRestart

theorem keep_fbCount (f since : Nat) (up : Bool) (s : State) (h_s : Kept pq s) : Kept pq (fbCount f since up s) := by
  unfold fbCount
  repeat'
    with_reducible first
    | assumption | intro _
    | extract_lets -underBinder +onlyGivenNames x
      first
        | have hx : Kept pq x := by
            try dsimp only [x]
            repeat' (with_reducible first | assumption | fail_if_no_progress beta_reduce | apply keep_setFb | apply keep_fbFlag | apply Kept.ite | intro _ | fail_if_no_progress (apply Kept.upd) | split | beta_reduce)
        | skip
      try clear_value x
    | fail_if_no_progress beta_reduce | apply keep_setFb | apply keep_fbFlag | apply Kept.ite

theorem keep_fbError (f bit : Nat) (s : State) (h_s : Kept pq s) : Kept pq (fbError f bit s) := by
  unfold fbError
  repeat'
    with_reducible first
    | assumption | intro _
    | extract_lets -underBinder +onlyGivenNames x
      first
        | have hx : Kept pq x := by
            try dsimp only [x]
            repeat' (with_reducible first | assumption | fail_if_no_progress beta_reduce | apply keep_setFb | apply keep_raiseEvent | apply keep_fbFlag)
        | skip
      try clear_value x
    | fail_if_no_progress beta_reduce | apply keep_setFb | apply keep_raiseEvent

theorem keep_fbSample (f mask lv n : Nat) (s : State) (h_s : Kept pq s) : Kept pq (fbSample f mask lv n s) := by
  unfold fbSample
  repeat'
    with_reducible first
    | assumption | intro _
    | extract_lets -underBinder +onlyGivenNames x
      first
        | have hx : Kept pq x := by
            try dsimp only [x]
            repeat' (with_reducible first | assumption | fail_if_no_progress beta_reduce | apply keep_setFb | apply Kept.ite | intro _ | fail_if_no_progress (apply Kept.upd) | split | beta_reduce)
        | skip
      try clear_value x
    | fail_if_no_progress beta_reduce | apply keep_setFb

theorem keep_quadMove (f old : Nat) (s : State) (h_s : Kept pq s) : Kept pq (quadMove f old s) := by
  unfold quadMove
  repeat'
    with_reducible first
    | assumption | intro _
    | extract_lets -underBinder +onlyGivenNames x
      first
        | have hx : Kept pq x := by
            try dsimp only [x]
            repeat' (with_reducible first | assumption | fail_if_no_progress beta_reduce | apply keep_bump | apply keep_fbCount | apply keep_fbError | apply Kept.ite | intro _ | fail_if_no_progress (apply Kept.upd) | split | beta_reduce)
        | skip
      try clear_value x
    | fail_if_no_progress beta_reduce | apply keep_bump | apply keep_fbCount | apply keep_fbError | apply Kept.ite

theorem keep_hallMove (f old : Nat) (s : State) (h_s : Kept pq s) : Kept pq (hallMove f old s) := by
  unfold hallMove
  repeat'
    with_reducible first
    | assumption | intro _
    | extract_lets -underBinder +onlyGivenNames x
      first
        | have hx : Kept pq x := by
            try dsimp only [x]
            repeat' (with_reducible first | assumption | fail_if_no_progress beta_reduce | apply keep_setRgFld | apply keep_setFb | apply keep_fbCount | apply keep_fbError)
        | skip
      try clear_value x
    | fail_if_no_progress beta_reduce | apply keep_setRgFld | apply keep_setFb | apply keep_fbCount | apply keep_fbError | apply Kept.ite

theorem keep_indexMove (f old : Nat) (s : State) (h_s : Kept pq s) : Kept pq (indexMove f old s) := by
  unfold indexMove
  repeat'
    with_reducible first
    | assumption | intro _
    | extract_lets -underBinder +onlyGivenNames x
      first
        | have hx : Kept pq x := by
            try dsimp only [x]
            repeat' (with_reducible first | assumption | fail_if_no_progress beta_reduce | apply keep_setRg | apply keep_setFb | apply keep_raiseEvent | apply keep_fbFlag | apply keep_fbLoad | apply Kept.ite | intro _)
        | skip
      try clear_value x
    | fail_if_no_progress beta_reduce | apply keep_setRg | apply keep_setFb | apply keep_raiseEvent | apply keep_fbFlag | apply keep_fbLoad | apply Kept.ite

theorem keep_fbFilter (f : Nat) (s : State) (h_s : Kept pq s) : Kept pq (fbFilter f s) := by
  unfold fbFilter
  repeat'
    with_reducible first
    | assumption | intro _
    | extract_lets -underBinder +onlyGivenNames x
      first
        | have hx : Kept pq x := by
            try dsimp only [x]
            repeat' (with_reducible first | assumption | fail_if_no_progress beta_reduce | apply keep_setRgFld)
        | skip
      try clear_value x
    | fail_if_no_progress beta_reduce | apply keep_setRgFld | apply keep_quadMove | apply keep_hallMove | apply keep_indexMove | apply Kept.ite

theorem keep_fbCapture (f : Nat) (s : State) (h_s : Kept pq s) : Kept pq (fbCapture f s) := by
  unfold fbCapture
  repeat'
    with_reducible first
    | assumption | intro _
    | extract_lets -underBinder +onlyGivenNames x
      first
        | have hx : Kept pq x := by
            try dsimp only [x]
            repeat' (with_reducible first | assumption | fail_if_no_progress beta_reduce | apply keep_setRg | apply keep_setFb | apply keep_raiseEvent | apply keep_fbFlag | apply Kept.ite | intro _ | fail_if_no_progress (apply Kept.upd) | split | beta_reduce)
        | skip
      try clear_value x
    | fail_if_no_progress beta_reduce | apply keep_setRg | apply keep_setFb | apply keep_raiseEvent | apply keep_fbFlag | apply Kept.ite

theorem keep_keepFlags (f : Nat) (flags : Word) (s : State) (h_s : Kept pq s) : Kept pq (keepFlags f flags s) := by
  unfold keepFlags
  repeat'
    with_reducible first
    | assumption | intro _
    | extract_lets -underBinder +onlyGivenNames x
      first
        | have hx : Kept pq x := by
            try dsimp only [x]
            repeat' (with_reducible first | assumption | fail_if_no_progress beta_reduce | apply keep_setFb | apply Kept.ite | intro _ | fail_if_no_progress (apply Kept.upd) | split | beta_reduce)
        | skip
      try clear_value x
    | fail_if_no_progress beta_reduce | apply keep_setFb | apply Kept.ite | intro _ | fail_if_no_progress (apply Kept.upd) | split

theorem keep_fbBlockWrite (f : Nat) (s : State) (h_s : Kept pq s) : Kept pq (fbBlockWrite f s) := by
  unfold fbBlockWrite
  repeat'
    with_reducible first
    | assumption | intro _
    | extract_lets -underBinder +onlyGivenNames x
      first
        | have hx : Kept pq x := by
            try dsimp only [x]
            repeat' (with_reducible first | assumption | fail_if_no_progress beta_reduce | apply keep_setFb | apply keep_feedbackPort)
        | skip
      try clear_value x
    | fail_if_no_progress beta_reduce | apply keep_setFb | apply keep_feedbackPort | apply keep_keepFlags | apply Kept.ite | intro _ | fail_if_no_progress (apply Kept.upd) | split

theorem keep_fbCfgWrite (f : Nat) (v : Word) (sec : Bool) (s : State) (h_s : Kept pq s) : KeptR pq (fbCfgWrite f v sec s) := by
  unfold fbCfgWrite
  repeat'
    with_reducible first
    | assumption | intro _
    | extract_lets -underBinder +onlyGivenNames x
      first
        | have hx : Kept pq x := by
            try dsimp only [x]
            repeat' (with_reducible first | assumption | fail_if_no_progress beta_reduce | apply keep_setRg | apply keep_setRgBit | apply keep_setRgFld | apply keep_setFb | apply keep_plainWrite | apply keep_fbFlag | apply keep_fbRestart | apply Kept.ite | fail_if_no_progress (apply KeptR.mk <;> try apply Kept.of2) | apply Kept.of2 | apply Kept.snd (by assumption) | apply KeptR.ite | intro _)
        | skip
      try clear_value x
    | fail_if_no_progress beta_reduce | apply keep_setRg | apply keep_setRgBit | apply keep_setRgFld | apply keep_setFb | apply keep_plainWrite | apply keep_fbFlag | apply keep_fbRestart | apply Kept.ite | fail_if_no_progress (apply KeptR.mk <;> try apply Kept.of2) | apply Kept.of2 | apply Kept.snd (by assumption) | apply KeptR.ite

theorem keep_fbCtrlWrite (f : Nat) (v : Word) (s : State) (h_s : Kept pq s) : KeptR pq (fbCtrlWrite f v s) := by
  unfold fbCtrlWrite
  repeat'
    with_reducible first
    | assumption | intro _
    | extract_lets -underBinder +onlyGivenNames x
      first
        | have hx : Kept pq x := by
            try dsimp only [x]
            repeat' (with_reducible first | assumption | fail_if_no_progress beta_reduce | apply keep_setFb | apply Kept.ite | fail_if_no_progress (apply KeptR.mk <;> try apply Kept.of2) | apply Kept.of2 | apply Kept.snd (by assumption) | apply KeptR.ite | intro _ | fail_if_no_progress (apply Kept.upd) | split | beta_reduce)
        | skip
      try clear_value x
    | fail_if_no_progress beta_reduce | apply keep_setFb | apply Kept.ite | fail_if_no_progress (apply KeptR.mk <;> try apply Kept.of2)

theorem keep_fbWrite (f o : Nat) (v : Word) (sec : Bool) (s : State) (h_s : Kept pq s) : KeptR pq (fbWrite f o v sec s) := by
  unfold fbWrite
  repeat' (with_reducible first | assumption | fail_if_no_progress beta_reduce | apply keep_plainWrite | apply keep_fbCfgWrite | apply keep_fbCtrlWrite | apply Kept.ite | fail_if_no_progress (apply KeptR.mk <;> try apply Kept.of2) | apply Kept.of2 | apply Kept.snd (by assumption) | apply KeptR.ite | intro _)

theorem keep_sencCfgWrite (p : Nat) (v : Word) (sec : Bool) (s : State) (h_s : Kept pq s) : KeptR pq (sencCfgWrite p v sec s) := by
  unfold sencCfgWrite
  repeat'
    with_reducible first
    | assumption | intro _
    | extract_lets -underBinder +onlyGivenNames x
      first
        | have hx : Kept pq x := by
            try dsimp only [x]
            repeat' (with_reducible first | assumption | fail_if_no_progress beta_reduce | apply keep_setRgBit | apply keep_setSenc | apply keep_plainWrite)
        | skip
      try clear_value x
    | fail_if_no_progress beta_reduce | apply keep_setRgBit | apply keep_setSenc | apply keep_plainWrite | apply Kept.ite | fail_if_no_progress (apply KeptR.mk <;> try apply Kept.of2) | apply Kept.of2 | apply Kept.snd (by assumption) | apply KeptR.ite

theorem keep_sencFrameStart (p : Nat) (s : State) (h_s : Kept pq s) : Kept pq (sencFrameStart p s) := by
  unfold sencFrameStart
  repeat'
    with_reducible first
    | assumption | intro _
    | extract_lets -underBinder +onlyGivenNames x
      first
        | have hx : Kept pq x := by
            try dsimp only [x]
            repeat' (with_reducible first | assumption | fail_if_no_progress beta_reduce | apply keep_setRgBit | apply keep_setSenc)
        | skip
      try clear_value x
    | fail_if_no_progress beta_reduce | apply keep_setRgBit | apply keep_setSenc | apply keep_bump | apply Kept.ite

theorem keep_sencFrameEnd (p : Nat) (w : SlWave) (s : State) (h_s : Kept pq s) : Kept pq (sencFrameEnd p w s) := by
  unfold sencFrameEnd
  repeat'
    with_reducible first
    | assumption | intro _
    | extract_lets -underBinder +onlyGivenNames x
      first
        | have hx : Kept pq x := by
            try dsimp only [x]
            repeat' (with_reducible first | assumption | fail_if_no_progress beta_reduce | apply keep_setRg | apply keep_setRgBit | apply keep_setSenc | apply keep_bump | apply keep_raiseEvent | apply hF_fl | apply hF_out | apply hF_repeats | apply Kept.ite | intro _ | fail_if_no_progress (apply Kept.upd) | split)
        | have hF_fl : ∀ y0 y1 y2, Kept pq y2 → Kept pq (x y0 y1 y2) := by
            intro y0 y1 y2 hy2
            try dsimp only [x]
            repeat' (with_reducible first | assumption | fail_if_no_progress beta_reduce | apply keep_setRg | apply keep_setRgBit | apply keep_setSenc | apply keep_bump | apply keep_raiseEvent | apply hF_fl | apply hF_out | apply hF_repeats | apply Kept.ite | intro _)
        | have hF_out : ∀ y0 y1 y2 y3 y4, Kept pq y4 → Kept pq (x y0 y1 y2 y3 y4) := by
            intro y0 y1 y2 y3 y4 hy4
            try dsimp only [x]
            repeat' (with_reducible first | assumption | fail_if_no_progress beta_reduce | apply keep_setRg | apply keep_setRgBit | apply keep_setSenc)
        | have hF_repeats : ∀ y0, Kept pq y0 → Kept pq (x y0) := by
            intro y0 hy0
            try dsimp only [x]
            repeat' (with_reducible first | assumption | fail_if_no_progress beta_reduce | apply keep_setRg | apply keep_setRgBit | apply keep_setSenc | apply keep_bump | apply keep_raiseEvent | apply hF_fl | apply hF_out)
        | skip
      try clear_value x
    | fail_if_no_progress beta_reduce | apply keep_setRg | apply keep_setRgBit | apply keep_setSenc | apply keep_bump | apply keep_raiseEvent | apply hF_fl | apply hF_out | apply hF_repeats | apply Kept.ite

theorem keep_sencFrameOver (p : Nat) (s : State) (h_s : Kept pq s) : Kept pq (sencFrameOver p s) := by
  unfold sencFrameOver
  repeat' (with_reducible first | assumption | fail_if_no_progress beta_reduce | apply keep_sencFrameEnd | apply Kept.ite | intro _)

theorem keep_sencBlockWrite (p : Nat) (s : State) (h_s : Kept pq s) : Kept pq (sencBlockWrite p s) := by
  unfold sencBlockWrite
  repeat'
    with_reducible first
    | assumption | intro _
    | extract_lets -underBinder +onlyGivenNames x
      first
        | have hx : Kept pq x := by
            try dsimp only [x]
            repeat' (with_reducible first | assumption | fail_if_no_progress beta_reduce | apply keep_setSenc)
        | skip
      try clear_value x
    | fail_if_no_progress beta_reduce | apply keep_setSenc | apply keep_raiseEvent | apply keep_feedbackPort | apply Kept.ite | intro _ | fail_if_no_progress (apply Kept.upd) | split

theorem keep_sencBack (p : Nat) (s : State) (h_s : Kept pq s) : Kept pq (sencBack p s) := by
  unfold sencBack
  repeat'
    with_reducible first
    | assumption | intro _
    | extract_lets -underBinder +onlyGivenNames x
      first
        | have hx : Kept pq x := by
            try dsimp only [x]
            repeat' (with_reducible first | assumption | fail_if_no_progress beta_reduce | apply keep_setRgBit | apply keep_setSenc | apply keep_bump | apply keep_raiseEvent | apply Kept.ite | intro _ | fail_if_no_progress (apply Kept.upd) | split | beta_reduce)
        | skip
      try clear_value x
    | fail_if_no_progress beta_reduce | apply keep_setRgBit | apply keep_setSenc | apply keep_bump | apply keep_raiseEvent | apply Kept.ite

theorem keep_sencRegGo (p : Nat) (v : Word) (sec : Bool) (s : State) (h_s : Kept pq s) : KeptR pq (sencRegGo p v sec s) := by
  unfold sencRegGo
  repeat'
    with_reducible first
    | assumption | intro _
    | extract_lets -underBinder +onlyGivenNames x
      first
        | have hx : Kept pq x := by
            try dsimp only [x]
            repeat' (with_reducible first | assumption | fail_if_no_progress beta_reduce | apply keep_setRgBit | apply keep_setSenc | apply keep_plainWrite)
        | skip
      try clear_value x
    | fail_if_no_progress beta_reduce | apply keep_setRgBit | apply keep_setSenc | apply keep_plainWrite | apply Kept.ite | fail_if_no_progress (apply KeptR.mk <;> try apply Kept.of2) | apply Kept.of2 | apply Kept.snd (by assumption) | apply KeptR.ite

theorem keep_sencRegDone (p : Nat) (s : State) (h_s : Kept pq s) : Kept pq (sencRegDone p s) := by
  unfold sencRegDone
  repeat'
    with_reducible first
    | assumption | intro _
    | extract_lets -underBinder +onlyGivenNames x
      first
        | have hx : Kept pq x := by
            try dsimp only [x]
            repeat' (with_reducible first | assumption | fail_if_no_progress beta_reduce | apply keep_setRgBit)
        | skip
      try clear_value x
    | fail_if_no_progress beta_reduce | apply keep_setRgBit | apply keep_setRgFld | apply Kept.ite | intro _ | fail_if_no_progress (apply Kept.upd) | split

theorem keep_sencTick (p : Nat) (s : State) (h_s : Kept pq s) : Kept pq (sencTick p s) := by
  unfold sencTick
  repeat'
    with_reducible first
    | assumption | intro _
    | extract_lets -underBinder +onlyGivenNames x
      first
        | have hx : Kept pq x := by
            try dsimp only [x]
            repeat' (with_reducible first | assumption | fail_if_no_progress beta_reduce | apply keep_sencFrameStart | apply keep_sencFrameOver | apply keep_sencBlockWrite | apply keep_sencBack | apply keep_sencRegDone | apply Kept.ite | intro _)
      try clear_value x
    | fail_if_no_progress beta_reduce | apply keep_sencFrameStart | apply keep_sencFrameOver | apply keep_sencBlockWrite | apply keep_sencBack | apply keep_sencRegDone

theorem keep_sencWrite (p o : Nat) (v : Word) (sec : Bool) (s : State) (h_s : Kept pq s) : KeptR pq (sencWrite p o v sec s) := by
  unfold sencWrite
  repeat' (with_reducible first | assumption | fail_if_no_progress beta_reduce | apply keep_plainWrite | apply keep_sencCfgWrite | apply keep_sencRegGo | apply Kept.ite | fail_if_no_progress (apply KeptR.mk <;> try apply Kept.of2) | apply Kept.of2 | apply Kept.snd (by assumption) | apply KeptR.ite | intro _)

theorem keep_trkCfgWrite (k : Nat) (v : Word) (sec : Bool) (s : State) (h_s : Kept pq s) : KeptR pq (trkCfgWrite k v sec s) := by
  unfold trkCfgWrite
  repeat'
    with_reducible first
    | assumption | intro _
    | extract_lets -underBinder +onlyGivenNames x
      first
        | have hx : Kept pq x := by
            try dsimp only [x]
            repeat' (with_reducible first | assumption | fail_if_no_progress beta_reduce | apply keep_setRg | apply keep_setTrk | apply keep_plainWrite)
        | skip
      try clear_value x
    | fail_if_no_progress beta_reduce | apply keep_setRg | apply keep_setTrk | apply keep_plainWrite | apply keep_trkStop | apply keep_trkArm | apply Kept.ite | fail_if_no_progress (apply KeptR.mk <;> try apply Kept.of2) | apply Kept.of2 | apply Kept.snd (by assumption) | apply KeptR.ite

theorem keep_awlWrite (o : Nat) (v : Word) (sec : Bool) (s : State) (h_s : Kept pq s) : KeptR pq (awlWrite o v sec s) := by
  unfold awlWrite
  repeat'
    with_reducible first
    | assumption | intro _
    | extract_lets -underBinder +onlyGivenNames x
      first
        | have hx : Kept pq x := by
            try dsimp only [x]
            repeat' (with_reducible first | assumption | fail_if_no_progress beta_reduce | apply keep_setRgFld | apply keep_plainWrite)
        | skip
      try clear_value x
    | fail_if_no_progress beta_reduce | apply keep_setRgFld | apply keep_plainWrite | apply keep_trkCfgWrite | apply Kept.ite | fail_if_no_progress (apply KeptR.mk <;> try apply Kept.of2) | apply Kept.of2 | apply Kept.snd (by assumption) | apply KeptR.ite

theorem keep_pulseEnd (m : Nat) (s : State) (h_s : Kept pq s) : Kept pq (pulseEnd m s) := by
  unfold pulseEnd
  repeat' (with_reducible first | assumption | fail_if_no_progress beta_reduce | apply keep_setMark | apply Kept.ite | intro _ | fail_if_no_progress (apply Kept.upd) | split)

theorem keep_execFbEnable (m : Master) (f : Fin 12) (v : Word) (s : State) (h_s : Kept pq s) : KeptX pq (execFbEnable m f v s) := by
  unfold execFbEnable
  repeat' (with_reducible first | assumption | fail_if_no_progress beta_reduce | apply keep_regAccess | apply keep_fbCfgWrite | apply Kept.ite | fail_if_no_progress (apply KeptR.mk <;> try apply Kept.of2) | apply Kept.of2 | apply Kept.snd (by assumption) | apply KeptR.ite | apply KeptX.next)

theorem keep_execQuadEdge (f : Fin 12) (a b : Bool) (s : State) (n : BitVec 13) (h_s : Kept pq s) : KeptX pq (execQuadEdge f a b s n) := by
  unfold execQuadEdge
  repeat' (with_reducible first | assumption | fail_if_no_progress beta_reduce | apply keep_fbSample | apply keep_fbFilter | apply Kept.ite | apply KeptX.next)

theorem keep_execHallChange (f : Fin 12) (h : Fin 8) (s : State) (n : BitVec 13) (h_s : Kept pq s) : KeptX pq (execHallChange f h s n) := by
  unfold execHallChange
  repeat' (with_reducible first | assumption | fail_if_no_progress beta_reduce | apply keep_fbSample | apply keep_fbFilter | apply Kept.ite | apply KeptX.next)

theorem keep_execIndexEdge (f : Fin 12) (z : Bool) (s : State) (n : BitVec 13) (h_s : Kept pq s) : KeptX pq (execIndexEdge f z s n) := by
  unfold execIndexEdge
  repeat' (with_reducible first | assumption | fail_if_no_progress beta_reduce | apply keep_fbSample | apply keep_fbFilter | apply Kept.ite | apply KeptX.next)

theorem keep_execFbLoad (m : Master) (f : Fin 12) (s : State) (h_s : Kept pq s) : KeptX pq (execFbLoad m f s) := by
  unfold execFbLoad
  repeat' (with_reducible first | assumption | fail_if_no_progress beta_reduce | apply keep_regAccess | apply keep_fbCtrlWrite | apply Kept.ite | fail_if_no_progress (apply KeptR.mk <;> try apply Kept.of2) | apply Kept.of2 | apply Kept.snd (by assumption) | apply KeptR.ite | apply KeptX.next)

theorem keep_execCapnow (m : Master) (f : Fin 12) (s : State) (h_s : Kept pq s) : KeptX pq (execCapnow m f s) := by
  unfold execCapnow
  repeat' (with_reducible first | assumption | fail_if_no_progress beta_reduce | apply keep_regAccess | apply keep_fbCtrlWrite | apply Kept.ite | fail_if_no_progress (apply KeptR.mk <;> try apply Kept.of2) | apply Kept.of2 | apply Kept.snd (by assumption) | apply KeptR.ite | apply KeptX.next)

theorem keep_execIdxarm (m : Master) (f : Fin 12) (s : State) (h_s : Kept pq s) : KeptX pq (execIdxarm m f s) := by
  unfold execIdxarm
  repeat' (with_reducible first | assumption | fail_if_no_progress beta_reduce | apply keep_regAccess | apply keep_fbCtrlWrite | apply Kept.ite | fail_if_no_progress (apply KeptR.mk <;> try apply Kept.of2) | apply Kept.of2 | apply Kept.snd (by assumption) | apply KeptR.ite | apply KeptX.next)

theorem keep_execFbCapture (f : Fin 12) (s : State) (h_s : Kept pq s) : KeptX pq (execFbCapture f s) := by
  unfold execFbCapture
  repeat' (with_reducible first | assumption | fail_if_no_progress beta_reduce | apply keep_fbCapture | apply Kept.ite | apply KeptX.next | apply KeptX.ite | intro _)

theorem keep_execFbBlockWrite (k : Fin 20) (s : State) (h_s : Kept pq s) : KeptX pq (execFbBlockWrite k s) := by
  unfold execFbBlockWrite
  repeat' (with_reducible first | assumption | fail_if_no_progress beta_reduce | apply keep_fbBlockWrite | apply keep_sencBlockWrite | apply Kept.ite | apply KeptX.next | apply KeptX.ite | intro _)

theorem keep_execSencEnable (m : Master) (p : Fin 8) (v : Word) (s : State) (h_s : Kept pq s) : KeptX pq (execSencEnable m p v s) := by
  unfold execSencEnable
  repeat' (with_reducible first | assumption | fail_if_no_progress beta_reduce | apply keep_regAccess | apply keep_sencCfgWrite | apply Kept.ite | fail_if_no_progress (apply KeptR.mk <;> try apply Kept.of2) | apply Kept.of2 | apply Kept.snd (by assumption) | apply KeptR.ite | apply KeptX.next)

theorem keep_execSencFrameStart (p : Fin 8) (s : State) (h_s : Kept pq s) : KeptX pq (execSencFrameStart p s) := by
  unfold execSencFrameStart
  repeat' (with_reducible first | assumption | fail_if_no_progress beta_reduce | apply keep_sencFrameStart | apply Kept.ite | apply KeptX.next)

theorem keep_execSencFrameEnd (p : Fin 8) (high : Bool) (changes : List Nat) (s : State) (h_s : Kept pq s) : KeptX pq (execSencFrameEnd p high changes s) := by
  unfold execSencFrameEnd
  repeat' (with_reducible first | assumption | fail_if_no_progress beta_reduce | apply keep_sencFrameEnd | apply Kept.ite | apply KeptX.next | apply KeptX.ite | intro _)

theorem keep_execSencRegGo (m : Master) (p : Fin 8) (v : Word) (s : State) (h_s : Kept pq s) : KeptX pq (execSencRegGo m p v s) := by
  unfold execSencRegGo
  repeat' (with_reducible first | assumption | fail_if_no_progress beta_reduce | apply keep_regAccess | apply keep_sencRegGo | apply Kept.ite | fail_if_no_progress (apply KeptR.mk <;> try apply Kept.of2) | apply Kept.of2 | apply Kept.snd (by assumption) | apply KeptR.ite | apply KeptX.next)

theorem keep_execSencRegDone (p : Fin 8) (ok : Bool) (data : BitVec 8) (s : State) (h_s : Kept pq s) : KeptX pq (execSencRegDone p ok data s) := by
  unfold execSencRegDone
  repeat' (with_reducible first | assumption | fail_if_no_progress beta_reduce | apply keep_sencRegDone | apply Kept.ite | apply KeptX.next | apply KeptX.ite | intro _)

theorem keep_execTrkEnable (m : Master) (k : Fin 8) (v : Word) (s : State) (h_s : Kept pq s) : KeptX pq (execTrkEnable m k v s) := by
  unfold execTrkEnable
  repeat' (with_reducible first | assumption | fail_if_no_progress beta_reduce | apply keep_regAccess | apply keep_trkCfgWrite | apply Kept.ite | fail_if_no_progress (apply KeptR.mk <;> try apply Kept.of2) | apply Kept.of2 | apply Kept.snd (by assumption) | apply KeptR.ite | apply KeptX.next)

theorem keep_execTrkLimitWrite (m : Master) (k : Fin 8) (v : Word) (s : State) (h_s : Kept pq s) : KeptX pq (execTrkLimitWrite m k v s) := by
  unfold execTrkLimitWrite
  repeat' (with_reducible first | assumption | fail_if_no_progress beta_reduce | apply keep_regAccess | apply keep_awlWrite | apply Kept.ite | fail_if_no_progress (apply KeptR.mk <;> try apply Kept.of2) | apply Kept.of2 | apply Kept.snd (by assumption) | apply KeptR.ite | apply KeptX.next)

theorem keep_execMarkFire (k : Fin 8) (s : State) (h_s : Kept pq s) : KeptX pq (execMarkFire k s) := by
  unfold execMarkFire
  repeat' (with_reducible first | assumption | fail_if_no_progress beta_reduce | apply keep_markFire | apply Kept.ite | apply KeptX.next | apply KeptX.ite | intro _)

theorem keep_execPredictedFire (k : Fin 8) (s : State) (h_s : Kept pq s) : KeptX pq (execPredictedFire k s) := by
  unfold execPredictedFire
  repeat' (with_reducible first | assumption | fail_if_no_progress beta_reduce | apply keep_predictedFire | apply Kept.ite | apply KeptX.next | apply KeptX.ite | intro _)

theorem keep_execMarkPulseEnd (m : Fin 8) (s : State) (h_s : Kept pq s) : KeptX pq (execMarkPulseEnd m s) := by
  unfold execMarkPulseEnd
  repeat' (with_reducible first | assumption | fail_if_no_progress beta_reduce | apply keep_pulseEnd | apply Kept.ite | apply KeptX.next)

end Sys2Proof.Machine
end

