-- ==== Sys2Proof/Laws/KeepTether.lean ====
section
/-! SUPPORT. What the functions of `Tether` keep: the queue, and the canonical form of memory and registers. -/

namespace Sys2Proof.Machine

variable {pq : List Instr}

theorem keep_tethFlag (l i : Nat) (s : State) (h_s : Kept pq s) : Kept pq (tethFlag l i s) := by
  unfold tethFlag
  repeat' (with_reducible first | assumption | fail_if_no_progress beta_reduce | apply keep_setRgBit)

theorem keep_lineStart (l : Nat) (s : State) (h_s : Kept pq s) : Kept pq (lineStart l s) := by
  unfold lineStart
  repeat'
    with_reducible first
    | assumption | intro _
    | extract_lets -underBinder +onlyGivenNames x
      first
        | have hx : Kept pq x := by
            try dsimp only [x]
            repeat' (with_reducible first | assumption | fail_if_no_progress beta_reduce | apply keep_setLink | apply Kept.ite | apply Kept.foldl | intro _ | fail_if_no_progress (apply Kept.upd) | split | beta_reduce)
        | skip
      try clear_value x
    | fail_if_no_progress beta_reduce | apply keep_setLink | apply Kept.ite | apply Kept.foldl | intro _ | fail_if_no_progress (apply Kept.upd) | split

theorem keep_linkSymbol (l : Nat) (s : State) (h_s : Kept pq s) : Kept pq (linkSymbol l s) := by
  unfold linkSymbol
  repeat'
    with_reducible first
    | assumption | intro _
    | extract_lets -underBinder +onlyGivenNames x
      first
        | have hx : Kept pq x := by
            try dsimp only [x]
            repeat' (with_reducible first | assumption | fail_if_no_progress beta_reduce | apply keep_setLink | apply Kept.ite | intro _ | fail_if_no_progress (apply Kept.upd) | split | beta_reduce)
        | skip
      try clear_value x
    | fail_if_no_progress beta_reduce | apply keep_setLink | apply Kept.ite | intro _ | fail_if_no_progress (apply Kept.upd) | split

theorem keep_sendCell (l prio : Nat) (bytes : List Byte) (s : State) (h_s : Kept pq s) : Kept pq (sendCell l prio bytes s) := by
  unfold sendCell
  repeat' (with_reducible first | assumption | fail_if_no_progress beta_reduce | apply keep_setLink | apply Kept.ite | intro _)

theorem keep_sendTime (l : Nat) (echo : Bool) (s : State) (h_s : Kept pq s) : Kept pq (sendTime l echo s) := by
  unfold sendTime
  repeat' (with_reducible first | assumption | fail_if_no_progress beta_reduce | apply keep_sendCell)

theorem keep_tethGoto (l st : Nat) (s : State) (h_s : Kept pq s) : Kept pq (tethGoto l st s) := by
  unfold tethGoto
  repeat'
    with_reducible first
    | assumption | intro _
    | extract_lets -underBinder +onlyGivenNames x
      first
        | have hx : Kept pq x := by
            try dsimp only [x]
            repeat' (with_reducible first | assumption | fail_if_no_progress beta_reduce | apply keep_setRgFld | apply keep_setLink | apply keep_raiseEvent | apply keep_tethSafe | apply keep_tethFlag | apply Kept.ite | apply Kept.foldl | intro _)
        | skip
      try clear_value x
    | fail_if_no_progress beta_reduce | apply keep_setRgFld | apply keep_setLink | apply keep_raiseEvent | apply keep_tethSafe | apply keep_tethFlag | apply Kept.ite

theorem keep_tethFail (l code : Nat) (s : State) (h_s : Kept pq s) : Kept pq (tethFail l code s) := by
  unfold tethFail
  repeat' (with_reducible first | assumption | fail_if_no_progress beta_reduce | apply keep_setRgFld | apply keep_tethGoto)

theorem keep_tethAlign (l : Nat) (s : State) (h_s : Kept pq s) : Kept pq (tethAlign l s) := by
  unfold tethAlign
  repeat'
    with_reducible first
    | assumption | intro _
    | extract_lets -underBinder +onlyGivenNames x
      first
        | have hx : Kept pq x := by
            try dsimp only [x]
            repeat' (with_reducible first | assumption | fail_if_no_progress beta_reduce | apply keep_setLink | apply keep_tethGoto | apply Kept.ite | intro _ | fail_if_no_progress (apply Kept.upd) | split | beta_reduce)
        | skip
      try clear_value x
    | fail_if_no_progress beta_reduce | apply keep_setLink | apply keep_tethGoto

theorem keep_ownAccess (l addr : Nat) (write again : Bool) (s : State) (h_s : Kept pq s) : Kept pq (ownAccess l addr write again s) := by
  unfold ownAccess
  repeat'
    with_reducible first
    | assumption | intro _
    | extract_lets -underBinder +onlyGivenNames x
      first
        | have hx : Kept pq x := by
            try dsimp only [x]
            repeat' (with_reducible first | assumption | fail_if_no_progress beta_reduce | apply keep_setLink | apply keep_sendCell | apply Kept.ite | intro _ | fail_if_no_progress (apply Kept.upd) | split | beta_reduce)
        | skip
      try clear_value x
    | fail_if_no_progress beta_reduce | apply keep_setLink | apply keep_sendCell

theorem keep_alignStep (l : Nat) (s : State) (h_s : Kept pq s) : Kept pq (alignStep l s) := by
  unfold alignStep
  repeat'
    with_reducible first
    | assumption | intro _
    | extract_lets -underBinder +onlyGivenNames x
      first
        | have hx : Kept pq x := by
            try dsimp only [x]
            repeat' (with_reducible first | assumption | fail_if_no_progress beta_reduce | apply keep_setLink | apply keep_sendTime | apply keep_tethGoto | apply keep_ownAccess | apply Kept.ite | intro _ | fail_if_no_progress (apply Kept.upd) | split | beta_reduce)
        | skip
      try clear_value x
    | fail_if_no_progress beta_reduce | apply keep_setLink | apply keep_sendTime | apply keep_tethGoto | apply keep_ownAccess | apply Kept.ite | intro _ | fail_if_no_progress (apply Kept.upd) | split

theorem keep_alignNext (l : Nat) (s : State) (h_s : Kept pq s) : Kept pq (alignNext l s) := by
  unfold alignNext
  repeat' (with_reducible first | assumption | fail_if_no_progress beta_reduce | apply keep_setLink)

theorem keep_ownFailed (l : Nat) (acc : LinkAcc) (s : State) (h_s : Kept pq s) : Kept pq (ownFailed l acc s) := by
  unfold ownFailed
  repeat' (with_reducible first | assumption | fail_if_no_progress beta_reduce | apply keep_setLink | apply keep_tethFail | apply keep_ownAccess | apply Kept.ite | intro _)

theorem keep_ownDone (l : Nat) (acc : LinkAcc) (data : Word) (result : Nat) (s : State) (h_s : Kept pq s) : Kept pq (ownDone l acc data result s) := by
  unfold ownDone
  repeat'
    with_reducible first
    | assumption | intro _
    | extract_lets -underBinder +onlyGivenNames x
      first
        | have hx : Kept pq x := by
            try dsimp only [x]
            repeat' (with_reducible first | assumption | fail_if_no_progress beta_reduce | apply keep_setRg)
        | skip
      try clear_value x
    | fail_if_no_progress beta_reduce | apply keep_setRg | apply keep_setLink | apply keep_tethFail | apply keep_alignNext | apply keep_ownFailed | apply Kept.ite

theorem keep_tethCfgWrite (l : Nat) (v : Word) (sec : Bool) (s : State) (h_s : Kept pq s) : KeptR pq (tethCfgWrite l v sec s) := by
  unfold tethCfgWrite
  repeat'
    with_reducible first
    | assumption | intro _
    | extract_lets -underBinder +onlyGivenNames x
      first
        | have hx : Kept pq x := by
            try dsimp only [x]
            repeat' (with_reducible first | assumption | fail_if_no_progress beta_reduce | apply keep_setRgFld | apply keep_setLink | apply keep_plainWrite | apply keep_tethGoto | apply Kept.ite | fail_if_no_progress (apply KeptR.mk <;> try apply Kept.of2) | apply Kept.of2 | apply Kept.snd (by assumption) | apply KeptR.ite | intro _)
        | skip
      try clear_value x
    | fail_if_no_progress beta_reduce | apply keep_setRgFld | apply keep_setLink | apply keep_plainWrite | apply keep_tethGoto | apply Kept.ite | fail_if_no_progress (apply KeptR.mk <;> try apply Kept.of2) | apply Kept.of2 | apply Kept.snd (by assumption) | apply KeptR.ite

theorem keep_tethLock (l : Nat) (s : State) (h_s : Kept pq s) : Kept pq (tethLock l s) := by
  unfold tethLock
  repeat' (with_reducible first | assumption | fail_if_no_progress beta_reduce | apply keep_setLink | apply keep_tethGoto | apply Kept.ite | intro _)

theorem keep_tethTrained (l : Nat) (s : State) (h_s : Kept pq s) : Kept pq (tethTrained l s) := by
  unfold tethTrained
  repeat' (with_reducible first | assumption | fail_if_no_progress beta_reduce | apply keep_tethAlign | apply Kept.ite | intro _)

theorem keep_tethLockLoss (l : Nat) (s : State) (h_s : Kept pq s) : Kept pq (tethLockLoss l s) := by
  unfold tethLockLoss
  repeat' (with_reducible first | assumption | fail_if_no_progress beta_reduce | apply keep_bump | apply keep_tethFlag | apply keep_tethGoto | apply Kept.ite | intro _)

theorem keep_rxError (l : Nat) (s : State) (h_s : Kept pq s) : Kept pq (rxError l s) := by
  unfold rxError
  repeat'
    with_reducible first
    | assumption | intro _
    | extract_lets -underBinder +onlyGivenNames x
      first
        | have hx : Kept pq x := by
            try dsimp only [x]
            repeat' (with_reducible first | assumption | fail_if_no_progress beta_reduce | apply keep_setLink | apply keep_bump | apply keep_tethFlag)
        | skip
      try clear_value x
    | fail_if_no_progress beta_reduce | apply keep_setLink

theorem keep_upLoss (l : Nat) (s : State) (h_s : Kept pq s) : Kept pq (upLoss l s) := by
  unfold upLoss
  repeat' (with_reducible first | assumption | fail_if_no_progress beta_reduce | apply keep_tethFlag | apply keep_tethGoto)

theorem keep_badCell (l : Nat) (s : State) (h_s : Kept pq s) : Kept pq (badCell l s) := by
  unfold badCell
  repeat' (with_reducible first | assumption | fail_if_no_progress beta_reduce | apply keep_bump | apply keep_tethFlag)

theorem keep_upCell (l : Nat) (axis : Option Nat) (f : State → State) (s : State) (h_f : ∀ x0, Kept pq x0 → Kept pq (f x0)) (h_s : Kept pq s) : Kept pq (upCell l axis f s) := by
  unfold upCell
  repeat'
    with_reducible first
    | assumption | intro _
    | extract_lets -underBinder +onlyGivenNames x
      first
        | have hx : Kept pq x := by
            try dsimp only [x]
            repeat' (with_reducible first | assumption | fail_if_no_progress beta_reduce | apply h_f | apply keep_setLink | apply keep_badCell | apply Kept.ite | fail_if_no_progress (apply KeptR.mk <;> try apply Kept.of2) | apply Kept.of2 | apply Kept.snd (by assumption) | apply KeptR.ite | apply KeptO.done | apply KeptO.ended | apply KeptO.jump | apply KeptO.trap | apply KeptO.hold | apply KeptO.ite | intro _ | fail_if_no_progress (apply Kept.upd) | split | beta_reduce)
        | skip
      try clear_value x
    | fail_if_no_progress beta_reduce | apply h_f | apply keep_setLink | apply keep_badCell | apply Kept.ite

theorem keep_echoReceived (l : Nat) (t : DWord) (ta : Word) (age : Nat) (s : State) (h_s : Kept pq s) : Kept pq (echoReceived l t ta age s) := by
  unfold echoReceived
  repeat'
    with_reducible first
    | assumption | intro _
    | extract_lets -underBinder +onlyGivenNames x
      first
        | have hx : Kept pq x := by
            try dsimp only [x]
            repeat' (with_reducible first | assumption | fail_if_no_progress beta_reduce | apply keep_setRg | apply keep_setLink)
        | skip
      try clear_value x
    | fail_if_no_progress beta_reduce | apply keep_setRg | apply keep_setLink | apply keep_tethFlag | apply keep_tethFail | apply keep_alignNext | apply Kept.ite | intro _ | fail_if_no_progress (apply Kept.upd) | split

theorem keep_echoAsk (l : Nat) (s : State) (h_s : Kept pq s) : Kept pq (echoAsk l s) := by
  unfold echoAsk
  repeat' (with_reducible first | assumption | fail_if_no_progress beta_reduce | apply keep_setLink | apply keep_sendTime)

theorem keep_stationSample (l a : Nat) (s : State) (h_s : Kept pq s) : Kept pq (stationSample l a s) := by
  unfold stationSample
  repeat'
    with_reducible first
    | assumption | intro _
    | extract_lets -underBinder +onlyGivenNames x
      first
        | have hx : Kept pq x := by
            try dsimp only [x]
            repeat' (with_reducible first | assumption | fail_if_no_progress beta_reduce | apply keep_setLinkAx | apply keep_sampleTaken | apply keep_lateCopy | apply Kept.ite | intro _ | fail_if_no_progress (apply Kept.upd) | split | beta_reduce)
        | skip
      try clear_value x
    | fail_if_no_progress beta_reduce | apply keep_setLinkAx | apply keep_sampleTaken | apply keep_lateCopy | apply Kept.ite | intro _ | fail_if_no_progress (apply Kept.upd) | split

theorem keep_sampleStamped (x : Nat) (nominal t : DWord) (s : State) (h_s : Kept pq s) : Kept pq (sampleStamped x nominal t s) := by
  unfold sampleStamped
  repeat' (with_reducible first | assumption | fail_if_no_progress beta_reduce | apply keep_setAx)

theorem keep_sampleCell (l a : Nat) (st : Byte) (ia ib aux vbus : BitVec 16) (time : Word) (s : State) (h_s : Kept pq s) : Kept pq (sampleCell l a st ia ib aux vbus time s) := by
  unfold sampleCell
  repeat'
    with_reducible first
    | assumption | intro _
    | extract_lets -underBinder +onlyGivenNames x
      first
        | have hx : Kept pq x := by
            try dsimp only [x]
            repeat' (with_reducible first | assumption | fail_if_no_progress beta_reduce | apply keep_setRgBit | apply keep_setLinkAx | apply keep_bump | apply keep_axst | apply keep_sampleTaken | apply keep_samplePort | apply keep_sampleStamped | apply Kept.ite | intro _ | fail_if_no_progress (apply Kept.upd) | split)
        | skip
      try clear_value x
    | fail_if_no_progress beta_reduce | apply keep_setRgBit | apply keep_setLinkAx | apply keep_bump | apply keep_axst | apply keep_sampleTaken | apply keep_samplePort | apply keep_sampleStamped | apply Kept.ite

theorem keep_feedbackCell (l a : Nat) (st : Byte) (pos turns time : Word) (s : State) (h_s : Kept pq s) : Kept pq (feedbackCell l a st pos turns time s) := by
  unfold feedbackCell
  repeat'
    with_reducible first
    | assumption | intro _
    | extract_lets -underBinder +onlyGivenNames x
      first
        | have hx : Kept pq x := by
            try dsimp only [x]
            repeat' (with_reducible first | assumption | fail_if_no_progress beta_reduce | apply keep_setLinkAx | apply keep_feedbackPort | apply Kept.ite | intro _ | fail_if_no_progress (apply Kept.upd) | split | beta_reduce)
        | skip
      try clear_value x
    | fail_if_no_progress beta_reduce | apply keep_setLinkAx | apply keep_feedbackPort | apply Kept.ite

theorem keep_linkedBundle (l a : Nat) (bytes : List Byte) (old : Bool) (s : State) (h_s : Kept pq s) : Kept pq (linkedBundle l a bytes old s) := by
  unfold linkedBundle
  repeat'
    with_reducible first
    | assumption | intro _
    | extract_lets -underBinder +onlyGivenNames x
      first
        | have hx : Kept pq x := by
            try dsimp only [x]
            repeat' (with_reducible first | assumption | fail_if_no_progress beta_reduce | apply keep_setRgBit | apply keep_setLinkAx | apply keep_sendCell | apply Kept.ite | intro _ | fail_if_no_progress (apply Kept.upd) | split | beta_reduce)
        | skip
      try clear_value x
    | fail_if_no_progress beta_reduce | apply keep_setRgBit | apply keep_setLinkAx | apply keep_sendCell | apply Kept.ite

theorem keep_linkedArrival (i : Nat) (s : State) (h_s : Kept pq s) : Kept pq (linkedArrival i s) := by
  unfold linkedArrival
  repeat' (with_reducible first | assumption | fail_if_no_progress beta_reduce | apply keep_bundleAtPort | apply keep_linkedBundle | apply Kept.ite | fail_if_no_progress (apply KeptR.mk <;> try apply Kept.of2) | apply Kept.of2 | apply Kept.snd (by assumption) | apply KeptR.ite | intro _ | fail_if_no_progress (apply Kept.upd) | split)

theorem keep_tethCtrlWrite (l a : Nat) (v : Word) (sec : Bool) (s : State) (h_s : Kept pq s) : KeptR pq (tethCtrlWrite l a v sec s) := by
  unfold tethCtrlWrite
  repeat'
    with_reducible first
    | assumption | intro _
    | extract_lets -underBinder +onlyGivenNames x
      first
        | have hx : Kept pq x := by
            try dsimp only [x]
            repeat' (with_reducible first | assumption | fail_if_no_progress beta_reduce | apply keep_setLinkAx)
        | skip
      try clear_value x
    | fail_if_no_progress beta_reduce | apply keep_setLinkAx | apply keep_tethSafe | apply Kept.ite | fail_if_no_progress (apply KeptR.mk <;> try apply Kept.of2) | apply Kept.of2 | apply Kept.snd (by assumption) | apply KeptR.ite | intro _ | fail_if_no_progress (apply Kept.upd)

theorem keep_tethAxWrite (l a : Nat) (v : Word) (sec : Bool) (s : State) (h_s : Kept pq s) : KeptR pq (tethAxWrite l a v sec s) := by
  unfold tethAxWrite
  repeat'
    with_reducible first
    | assumption | intro _
    | extract_lets -underBinder +onlyGivenNames x
      first
        | have hx : Kept pq x := by
            try dsimp only [x]
            repeat' (with_reducible first | assumption | fail_if_no_progress beta_reduce | apply keep_setRgBit | apply keep_plainWrite | apply keep_tethSafe | apply hF_refused | apply Kept.ite | fail_if_no_progress (apply KeptR.mk <;> try apply Kept.of2) | apply Kept.of2 | apply Kept.snd (by assumption) | apply KeptR.ite | intro _)
        | have hF_refused : ∀ y0, Kept pq y0 → Kept pq (x y0) := by
            intro y0 hy0
            try dsimp only [x]
            repeat' (with_reducible first | assumption | fail_if_no_progress beta_reduce | apply keep_setRgBit)
        | skip
      try clear_value x
    | fail_if_no_progress beta_reduce | apply keep_setRgBit | apply keep_plainWrite | apply keep_tethSafe | apply hF_refused | apply Kept.ite | fail_if_no_progress (apply KeptR.mk <;> try apply Kept.of2) | apply Kept.of2 | apply Kept.snd (by assumption) | apply KeptR.ite

theorem keep_statusCell (l : Nat) (safe fault : Byte) (code : BitVec 16) (s : State) (h_s : Kept pq s) : Kept pq (statusCell l safe fault code s) := by
  unfold statusCell
  repeat'
    with_reducible first
    | assumption | intro _
    | extract_lets -underBinder +onlyGivenNames x
      first
        | have hx : Kept pq x := by
            try dsimp only [x]
            repeat' (with_reducible first | assumption | fail_if_no_progress beta_reduce | apply keep_setRg | apply keep_setRgBit | apply keep_setLinkAx | apply keep_tethSafe | apply keep_tethFlag | apply Kept.ite | apply Kept.foldl | intro _)
        | skip
      try clear_value x
    | fail_if_no_progress beta_reduce | apply keep_setRg | apply keep_setRgBit | apply keep_setLinkAx | apply keep_tethSafe | apply keep_tethFlag | apply Kept.ite | apply Kept.foldl

theorem keep_linkRepeat (l a : Nat) (s : State) (h_s : Kept pq s) : Kept pq (linkRepeat l a s) := by
  unfold linkRepeat
  repeat'
    with_reducible first
    | assumption | intro _
    | extract_lets -underBinder +onlyGivenNames x
      first
        | have hx : Kept pq x := by
            try dsimp only [x]
            repeat' (with_reducible first | assumption | fail_if_no_progress beta_reduce | apply keep_setRgBit | apply keep_setLinkAx | apply keep_bump)
        | skip
      try clear_value x
    | fail_if_no_progress beta_reduce | apply keep_setRgBit | apply keep_setLinkAx | apply keep_bump | apply keep_tethSafe | apply Kept.ite

theorem keep_linkAxctl (l a : Nat) (s : State) (h_s : Kept pq s) : Kept pq (linkAxctl l a s) := by
  unfold linkAxctl
  repeat'
    with_reducible first
    | assumption | intro _
    | extract_lets -underBinder +onlyGivenNames x
      first
        | have hx : Kept pq x := by
            try dsimp only [x]
            repeat' (with_reducible first | assumption | fail_if_no_progress beta_reduce | apply keep_setLinkAx | apply keep_dropEdges | apply keep_tethFlag | apply keep_sendCell | apply Kept.ite | intro _ | fail_if_no_progress (apply Kept.upd) | split | beta_reduce)
        | skip
      try clear_value x
    | fail_if_no_progress beta_reduce | apply keep_setLinkAx | apply keep_dropEdges | apply keep_tethFlag | apply keep_sendCell | apply Kept.ite | intro _ | fail_if_no_progress (apply Kept.upd) | split

theorem keep_linkHalt (l a : Nat) (s : State) (h_s : Kept pq s) : Kept pq (linkHalt l a s) := by
  unfold linkHalt
  repeat'
    with_reducible first
    | assumption | intro _
    | extract_lets -underBinder +onlyGivenNames x
      first
        | have hx : Kept pq x := by
            try dsimp only [x]
            repeat' (with_reducible first | assumption | fail_if_no_progress beta_reduce | apply keep_setLinkAx | apply keep_tethSafe | apply Kept.ite | intro _ | fail_if_no_progress (apply Kept.upd) | split | beta_reduce)
        | skip
      try clear_value x
    | fail_if_no_progress beta_reduce | apply keep_setLinkAx | apply keep_tethSafe | apply Kept.ite

theorem keep_linkHold (l a : Nat) (s : State) (h_s : Kept pq s) : Kept pq (linkHold l a s) := by
  unfold linkHold
  repeat'
    with_reducible first
    | assumption | intro _
    | extract_lets -underBinder +onlyGivenNames x
      first
        | have hx : Kept pq x := by
            try dsimp only [x]
            repeat' (with_reducible first | assumption | fail_if_no_progress beta_reduce | apply keep_setLinkAx | apply keep_tethSafe | apply Kept.ite | intro _ | fail_if_no_progress (apply Kept.upd) | split | beta_reduce)
        | skip
      try clear_value x
    | fail_if_no_progress beta_reduce | apply keep_setLinkAx | apply keep_tethSafe | apply Kept.ite | intro _ | fail_if_no_progress (apply Kept.upd) | split

theorem keep_loopPeriod (l a : Nat) (s : State) (h_s : Kept pq s) : Kept pq (loopPeriod l a s) := by
  unfold loopPeriod
  repeat'
    with_reducible first
    | assumption | intro _
    | extract_lets -underBinder +onlyGivenNames x
      first
        | have hx : Kept pq x := by
            try dsimp only [x]
            repeat' (with_reducible first | assumption | fail_if_no_progress beta_reduce | apply keep_setLinkAx | apply keep_wakeCtx | apply keep_settle | apply keep_axisPeriod | apply keep_linkRepeat | apply keep_linkAxctl | apply keep_linkHalt | apply keep_linkHold)
        | skip
      try clear_value x
    | fail_if_no_progress beta_reduce | apply keep_setLinkAx | apply keep_wakeCtx | apply keep_settle | apply keep_axisPeriod | apply keep_linkRepeat | apply keep_linkAxctl | apply keep_linkHalt | apply keep_linkHold | apply Kept.ite

theorem keep_tethRegGo (l : Nat) (v : Word) (sec : Bool) (s : State) (h_s : Kept pq s) : KeptR pq (tethRegGo l v sec s) := by
  unfold tethRegGo
  repeat'
    with_reducible first
    | assumption | intro _
    | extract_lets -underBinder +onlyGivenNames x
      first
        | have hx : Kept pq x := by
            try dsimp only [x]
            repeat' (with_reducible first | assumption | fail_if_no_progress beta_reduce | apply keep_setRgBit | apply keep_setRgFld | apply keep_setLink | apply keep_plainWrite)
        | skip
      try clear_value x
    | fail_if_no_progress beta_reduce | apply keep_setRgBit | apply keep_setRgFld | apply keep_setLink | apply keep_plainWrite | apply keep_sendCell | apply Kept.ite | fail_if_no_progress (apply KeptR.mk <;> try apply Kept.of2) | apply Kept.of2 | apply Kept.snd (by assumption) | apply KeptR.ite

theorem keep_cmdAck (l : Nat) (acc : LinkAcc) (data : Word) (result : Nat) (s : State) (h_s : Kept pq s) : Kept pq (cmdAck l acc data result s) := by
  unfold cmdAck
  repeat'
    with_reducible first
    | assumption | intro _
    | extract_lets -underBinder +onlyGivenNames x
      first
        | have hx : Kept pq x := by
            try dsimp only [x]
            repeat' (with_reducible first | assumption | fail_if_no_progress beta_reduce | apply keep_setRg | apply keep_setRgBit | apply keep_setRgFld | apply keep_setLink)
        | skip
      try clear_value x
    | fail_if_no_progress beta_reduce | apply keep_setRg | apply keep_setRgBit | apply keep_setRgFld | apply keep_setLink | apply Kept.ite

theorem keep_regAck (l addr : Nat) (data : Word) (tag result : Nat) (s : State) (h_s : Kept pq s) : Kept pq (regAck l addr data tag result s) := by
  unfold regAck
  repeat'
    with_reducible first
    | assumption | intro _
    | extract_lets -underBinder +onlyGivenNames x
      first
        | have hx : Kept pq x := by
            try dsimp only [x]
            repeat' (with_reducible first | assumption | fail_if_no_progress beta_reduce | apply keep_ownDone | apply keep_cmdAck | apply Kept.ite | intro _ | fail_if_no_progress (apply Kept.upd) | split | beta_reduce)
        | skip
      try clear_value x
    | fail_if_no_progress beta_reduce | apply keep_ownDone | apply keep_cmdAck | apply Kept.ite | intro _ | fail_if_no_progress (apply Kept.upd) | split

theorem keep_accTimeout (l : Nat) (s : State) (h_s : Kept pq s) : Kept pq (accTimeout l s) := by
  unfold accTimeout
  repeat'
    with_reducible first
    | assumption | intro _
    | extract_lets -underBinder +onlyGivenNames x
      first
        | have hx : Kept pq x := by
            try dsimp only [x]
            repeat' (with_reducible first | assumption | fail_if_no_progress beta_reduce | apply keep_setRgBit | apply keep_setLink | apply keep_ownFailed | apply Kept.ite | intro _ | fail_if_no_progress (apply Kept.upd) | split)
        | skip
      try clear_value x
    | fail_if_no_progress beta_reduce | apply keep_setRgBit | apply keep_setLink | apply keep_ownFailed | apply Kept.ite | intro _ | fail_if_no_progress (apply Kept.upd) | split

theorem keep_forwardSoff (l : Nat) (s : State) (h_s : Kept pq s) : Kept pq (forwardSoff l s) := by
  unfold forwardSoff
  repeat'
    with_reducible first
    | assumption | intro _
    | extract_lets -underBinder +onlyGivenNames x
      first
        | have hx : Kept pq x := by
            try dsimp only [x]
            repeat' (with_reducible first | assumption | fail_if_no_progress beta_reduce | apply keep_ownAccess | apply Kept.ite | intro _ | fail_if_no_progress (apply Kept.upd) | split | beta_reduce)
        | skip
      try clear_value x
    | fail_if_no_progress beta_reduce | apply keep_ownAccess | apply Kept.ite | intro _ | fail_if_no_progress (apply Kept.upd) | split

theorem keep_linkTick (l : Nat) (s : State) (h_s : Kept pq s) : Kept pq (linkTick l s) := by
  unfold linkTick
  repeat'
    with_reducible first
    | assumption | intro _
    | extract_lets -underBinder +onlyGivenNames x
      first
        | have hx : Kept pq x := by
            try dsimp only [x]
            repeat' (with_reducible first | assumption | fail_if_no_progress beta_reduce | apply keep_lineStart | apply keep_linkSymbol | apply keep_sendTime | apply keep_alignStep | apply keep_tethLockLoss | apply keep_upLoss | apply keep_echoAsk | apply keep_stationSample | apply keep_linkHalt | apply keep_loopPeriod | apply keep_accTimeout | apply keep_forwardSoff | apply Kept.ite | apply Kept.foldl | intro _)
      try clear_value x
    | fail_if_no_progress beta_reduce | apply keep_lineStart | apply keep_linkSymbol | apply keep_sendTime | apply keep_alignStep | apply keep_tethLockLoss | apply keep_upLoss | apply keep_echoAsk | apply keep_stationSample | apply keep_linkHalt | apply keep_loopPeriod | apply keep_accTimeout | apply keep_forwardSoff | apply Kept.ite

theorem keep_tethWrite (l o : Nat) (v : Word) (sec : Bool) (s : State) (h_s : Kept pq s) : KeptR pq (tethWrite l o v sec s) := by
  unfold tethWrite
  repeat'
    with_reducible first
    | assumption | intro _
    | extract_lets -underBinder +onlyGivenNames x
      first
        | have hx : Kept pq x := by
            try dsimp only [x]
            repeat' (with_reducible first | assumption | fail_if_no_progress beta_reduce | apply keep_plainWrite | apply keep_tethCfgWrite | apply keep_tethCtrlWrite | apply keep_tethAxWrite | apply keep_tethRegGo | apply Kept.ite | fail_if_no_progress (apply KeptR.mk <;> try apply Kept.of2) | apply Kept.of2 | apply Kept.snd (by assumption) | apply KeptR.ite | intro _ | fail_if_no_progress (apply Kept.upd) | split | beta_reduce)
        | skip
      try clear_value x
    | fail_if_no_progress beta_reduce | apply keep_plainWrite | apply keep_tethCfgWrite | apply keep_tethCtrlWrite | apply keep_tethAxWrite | apply keep_tethRegGo | apply Kept.ite | fail_if_no_progress (apply KeptR.mk <;> try apply Kept.of2) | apply Kept.of2 | apply Kept.snd (by assumption) | apply KeptR.ite

theorem keep_execTethEnable (m : Master) (l : Fin 16) (v : Word) (s : State) (h_s : Kept pq s) : KeptX pq (execTethEnable m l v s) := by
  unfold execTethEnable
  repeat' (with_reducible first | assumption | fail_if_no_progress beta_reduce | apply keep_regAccess | apply keep_tethCfgWrite | apply Kept.ite | fail_if_no_progress (apply KeptR.mk <;> try apply Kept.of2) | apply Kept.of2 | apply Kept.snd (by assumption) | apply KeptR.ite | apply KeptX.next)

theorem keep_execTethLock (l : Fin 16) (s : State) (h_s : Kept pq s) : KeptX pq (execTethLock l s) := by
  unfold execTethLock
  repeat' (with_reducible first | assumption | fail_if_no_progress beta_reduce | apply keep_tethLock | apply Kept.ite | apply KeptX.next)

theorem keep_execTethLockLoss (l : Fin 16) (s : State) (h_s : Kept pq s) : KeptX pq (execTethLockLoss l s) := by
  unfold execTethLockLoss
  repeat' (with_reducible first | assumption | fail_if_no_progress beta_reduce | apply keep_tethLockLoss | apply Kept.ite | apply KeptX.next)

theorem keep_execTethTrainDone (l : Fin 16) (s : State) (h_s : Kept pq s) : KeptX pq (execTethTrainDone l s) := by
  unfold execTethTrainDone
  repeat' (with_reducible first | assumption | fail_if_no_progress beta_reduce | apply keep_tethTrained | apply Kept.ite | apply KeptX.next)

theorem keep_execTethAlign (l : Fin 16) (s : State) (h_s : Kept pq s) : KeptX pq (execTethAlign l s) := by
  unfold execTethAlign
  repeat' (with_reducible first | assumption | fail_if_no_progress beta_reduce | apply keep_alignStep | apply Kept.ite | apply KeptX.next)

theorem keep_execTethTimeCell (l : Fin 16) (s : State) (h_s : Kept pq s) : KeptX pq (execTethTimeCell l s) := by
  unfold execTethTimeCell
  repeat' (with_reducible first | assumption | fail_if_no_progress beta_reduce | apply keep_sendTime | apply Kept.ite | apply KeptX.next | apply KeptX.ite | intro _)

theorem keep_execTethEchoRequest (l : Fin 16) (s : State) (h_s : Kept pq s) : KeptX pq (execTethEchoRequest l s) := by
  unfold execTethEchoRequest
  repeat' (with_reducible first | assumption | fail_if_no_progress beta_reduce | apply keep_echoAsk | apply Kept.ite | apply KeptX.next | apply KeptX.ite | intro _)

theorem keep_execEchoReceived (l : Fin 16) (t : BitVec 64) (ta : Word) (age : Nat) (s : State) (h_s : Kept pq s) : KeptX pq (execEchoReceived l t ta age s) := by
  unfold execEchoReceived
  repeat' (with_reducible first | assumption | fail_if_no_progress beta_reduce | apply keep_upCell | apply keep_echoReceived | apply Kept.ite | apply KeptX.next)

theorem keep_execSampleCellReceived (l : Fin 16) (a : Fin 8) (st : BitVec 8) (ia ib aux vbus : BitVec 16) (time : Word) (s : State) (h_s : Kept pq s) : KeptX pq (execSampleCellReceived l a st ia ib aux vbus time s) := by
  unfold execSampleCellReceived
  repeat' (with_reducible first | assumption | fail_if_no_progress beta_reduce | apply keep_upCell | apply keep_sampleCell | apply Kept.ite | apply KeptX.next)

theorem keep_execFeedbackCellReceived (l : Fin 16) (a : Fin 8) (st : BitVec 8) (pos turns time : Word) (s : State) (h_s : Kept pq s) : KeptX pq (execFeedbackCellReceived l a st pos turns time s) := by
  unfold execFeedbackCellReceived
  repeat' (with_reducible first | assumption | fail_if_no_progress beta_reduce | apply keep_upCell | apply keep_feedbackCell | apply Kept.ite | apply KeptX.next)

theorem keep_execStatusCellReceived (l : Fin 16) (safe fault : BitVec 8) (code : BitVec 16) (s : State) (h_s : Kept pq s) : KeptX pq (execStatusCellReceived l safe fault code s) := by
  unfold execStatusCellReceived
  repeat' (with_reducible first | assumption | fail_if_no_progress beta_reduce | apply keep_upCell | apply keep_statusCell | apply Kept.ite | apply KeptX.next)

theorem keep_execRegackReceived (l : Fin 16) (addr : BitVec 16) (data : Word) (tag result : BitVec 8) (s : State) (h_s : Kept pq s) : KeptX pq (execRegackReceived l addr data tag result s) := by
  unfold execRegackReceived
  repeat' (with_reducible first | assumption | fail_if_no_progress beta_reduce | apply keep_upCell | apply keep_regAck | apply Kept.ite | apply KeptX.next)

theorem keep_execTethRegcmdGo (m : Master) (l : Fin 16) (v : Word) (s : State) (h_s : Kept pq s) : KeptX pq (execTethRegcmdGo m l v s) := by
  unfold execTethRegcmdGo
  repeat' (with_reducible first | assumption | fail_if_no_progress beta_reduce | apply keep_regAccess | apply keep_tethRegGo | apply Kept.ite | fail_if_no_progress (apply KeptR.mk <;> try apply Kept.of2) | apply Kept.of2 | apply Kept.snd (by assumption) | apply KeptR.ite | apply KeptX.next)

theorem keep_execTethRegTimeout (l : Fin 16) (s : State) (h_s : Kept pq s) : KeptX pq (execTethRegTimeout l s) := by
  unfold execTethRegTimeout
  repeat' (with_reducible first | assumption | fail_if_no_progress beta_reduce | apply keep_accTimeout | apply Kept.ite | apply KeptX.next)

theorem keep_execUplossTimeout (l : Fin 16) (s : State) (h_s : Kept pq s) : KeptX pq (execUplossTimeout l s) := by
  unfold execUplossTimeout
  repeat' (with_reducible first | assumption | fail_if_no_progress beta_reduce | apply keep_upLoss | apply Kept.ite | apply KeptX.next | apply KeptX.ite | intro _)

theorem keep_execLinkedBundle (i : Nat) (s : State) (h_s : Kept pq s) : KeptX pq (execLinkedBundle i s) := by
  unfold execLinkedBundle
  repeat' (with_reducible first | assumption | fail_if_no_progress beta_reduce | apply keep_linkedArrival | apply Kept.ite | apply KeptX.next)

theorem keep_execLinkLoopPeriod (l : Fin 16) (a : Fin 8) (s : State) (h_s : Kept pq s) : KeptX pq (execLinkLoopPeriod l a s) := by
  unfold execLinkLoopPeriod
  repeat' (with_reducible first | assumption | fail_if_no_progress beta_reduce | apply keep_loopPeriod | apply Kept.ite | apply KeptX.next | apply KeptX.ite | intro _)

theorem keep_execTethClrsafe (m : Master) (l : Fin 16) (a : Fin 8) (s : State) (h_s : Kept pq s) : KeptX pq (execTethClrsafe m l a s) := by
  unfold execTethClrsafe
  repeat' (with_reducible first | assumption | fail_if_no_progress beta_reduce | apply keep_regAccess | apply keep_tethCtrlWrite | apply Kept.ite | fail_if_no_progress (apply KeptR.mk <;> try apply Kept.of2) | apply Kept.of2 | apply Kept.snd (by assumption) | apply KeptR.ite | apply KeptX.next)

theorem keep_execTethForcesafe (m : Master) (l : Fin 16) (a : Fin 8) (s : State) (h_s : Kept pq s) : KeptX pq (execTethForcesafe m l a s) := by
  unfold execTethForcesafe
  repeat' (with_reducible first | assumption | fail_if_no_progress beta_reduce | apply keep_regAccess | apply keep_tethCtrlWrite | apply Kept.ite | fail_if_no_progress (apply KeptR.mk <;> try apply Kept.of2) | apply Kept.of2 | apply Kept.snd (by assumption) | apply KeptR.ite | apply KeptX.next)

theorem keep_execTethSymbolError (l : Fin 16) (s : State) (rd : Bool) (code : BitVec 10) (h_s : Kept pq s) : KeptX pq (execTethSymbolError l s rd code) := by
  unfold execTethSymbolError
  repeat' (with_reducible first | assumption | fail_if_no_progress beta_reduce | apply keep_rxError | apply Kept.ite | apply KeptX.next | apply KeptX.ite | intro _)

theorem keep_execTethInvalidCell (l : Fin 16) (s : State) (cut : Bool) (bs : List Byte) (h_s : Kept pq s) : KeptX pq (execTethInvalidCell l s cut bs) := by
  unfold execTethInvalidCell
  repeat' (with_reducible first | assumption | fail_if_no_progress beta_reduce | apply keep_badCell | apply Kept.ite | apply KeptX.next | apply KeptX.ite | intro _)

end Sys2Proof.Machine
end

