-- ==== Sys2Proof/Laws/KeepMmio.lean ====
section
/-! SUPPORT. What the functions of `Mmio` keep: the queue, and the canonical form of memory and registers. -/

namespace Sys2Proof.Machine

variable {pq : List Instr}

theorem keep_pwmWrite (b o : Nat) (v : Word) (sec : Bool) (s : State) (h_s : Kept pq s) : KeptR pq (pwmWrite b o v sec s) := by
  unfold pwmWrite
  repeat'
    with_reducible first
    | assumption | intro _
    | extract_lets -underBinder +onlyGivenNames x
      first
        | have hx : Kept pq x := by
            try dsimp only [x]
            repeat' (with_reducible first | assumption | fail_if_no_progress beta_reduce | apply keep_setBr | apply keep_plainWrite)
        | skip
      try clear_value x
    | fail_if_no_progress beta_reduce | apply keep_setBr | apply keep_plainWrite | apply keep_stageItem | apply keep_pwmCtrlWrite | apply keep_pwmCfgWrite | apply keep_forceWrite | apply keep_phaseWrite | apply Kept.ite | fail_if_no_progress (apply KeptR.mk <;> try apply Kept.of2) | apply Kept.of2 | apply Kept.snd (by assumption) | apply KeptR.ite

theorem keep_tbWrite (m : Master) (o : Nat) (v : Word) (s : State) (h_s : Kept pq s) : KeptR pq (tbWrite m o v s) := by
  unfold tbWrite
  repeat'
    with_reducible first
    | assumption | intro _
    | extract_lets -underBinder +onlyGivenNames x
      first
        | have hx : Kept pq x := by
            try dsimp only [x]
            repeat' (with_reducible first | assumption | fail_if_no_progress beta_reduce | apply keep_plainWrite | apply keep_slotLoWrite | apply keep_slotHiWrite | apply keep_slotPerWrite | apply keep_slotCtrlWrite | apply Kept.ite | fail_if_no_progress (apply KeptR.mk <;> try apply Kept.of2) | apply Kept.of2 | apply Kept.snd (by assumption) | apply KeptR.ite | intro _ | fail_if_no_progress (apply Kept.upd) | split | beta_reduce)
        | skip
      try clear_value x
    | fail_if_no_progress beta_reduce | apply keep_plainWrite | apply keep_slotLoWrite | apply keep_slotHiWrite | apply keep_slotPerWrite | apply keep_slotCtrlWrite | apply Kept.ite | fail_if_no_progress (apply KeptR.mk <;> try apply Kept.of2) | apply Kept.of2 | apply Kept.snd (by assumption) | apply KeptR.ite | intro _ | fail_if_no_progress (apply Kept.upd) | split

theorem keep_timWrite (o : Nat) (v : Word) (sec : Bool) (s : State) (h_s : Kept pq s) : KeptR pq (timWrite o v sec s) := by
  unfold timWrite
  repeat'
    with_reducible first
    | assumption | intro _
    | extract_lets -underBinder +onlyGivenNames x
      first
        | have hx : Kept pq x := by
            try dsimp only [x]
            repeat' (with_reducible first | assumption | fail_if_no_progress beta_reduce | apply keep_plainWrite | apply keep_timerCtrlWrite | apply keep_timerCcWrite | apply Kept.ite | fail_if_no_progress (apply KeptR.mk <;> try apply Kept.of2) | apply Kept.of2 | apply Kept.snd (by assumption) | apply KeptR.ite | intro _ | fail_if_no_progress (apply Kept.upd) | split | beta_reduce)
        | skip
      try clear_value x
    | fail_if_no_progress beta_reduce | apply keep_plainWrite | apply keep_timerCtrlWrite | apply keep_timerCcWrite | apply Kept.ite | fail_if_no_progress (apply KeptR.mk <;> try apply Kept.of2) | apply Kept.of2 | apply Kept.snd (by assumption) | apply KeptR.ite | intro _ | fail_if_no_progress (apply Kept.upd) | split

theorem keep_blockWrite (m : Master) (b : Blk) (i o : Nat) (v : Word) (s : State) (h_s : Kept pq s) : KeptR pq (blockWrite m b i o v s) := by
  unfold blockWrite
  repeat' (with_reducible first | assumption | fail_if_no_progress beta_reduce | apply keep_plainWrite | apply keep_flInvalidate | apply keep_memcWrite | apply keep_dmaWrite | apply keep_mbxWrite | apply keep_smpWrite | apply keep_cmpWrite | apply keep_islClrFlt | apply keep_sadlWrite | apply keep_swtrigWrite | apply keep_routeWrite | apply keep_req3Write | apply keep_pmuWrite | apply keep_qmWrite | apply keep_ethWrite | apply keep_acrelGo | apply keep_secWrite | apply keep_intcWrite | apply keep_ageWrite | apply keep_stcWrite | apply keep_dbgWrite | apply keep_patchWrite | apply keep_girthWrite | apply keep_fbWrite | apply keep_sencWrite | apply keep_awlWrite | apply keep_tethWrite | apply keep_pwmWrite | apply keep_tbWrite | apply keep_timWrite | apply Kept.ite | fail_if_no_progress (apply KeptR.mk <;> try apply Kept.of2) | apply Kept.of2 | apply Kept.snd (by assumption) | apply KeptR.ite | intro _ | fail_if_no_progress (apply Kept.upd) | split)

theorem keep_mmioWrite (m : Master) (pa n : Nat) (v : Word) (s : State) (h_s : Kept pq s) : KeptR pq (mmioWrite m pa n v s) := by
  unfold mmioWrite
  repeat'
    with_reducible first
    | assumption | intro _
    | extract_lets -underBinder +onlyGivenNames x
      first
        | have hx : Kept pq x := by
            try dsimp only [x]
            repeat' (with_reducible first | assumption | fail_if_no_progress beta_reduce | apply keep_settle | apply keep_fclrWrite | apply keep_blockWrite | apply Kept.ite | fail_if_no_progress (apply KeptR.mk <;> try apply Kept.of2) | apply Kept.of2 | apply Kept.snd (by assumption) | apply KeptR.ite | intro _ | fail_if_no_progress (apply Kept.upd) | split | beta_reduce)
        | have hx : KeptR pq x := by
            try dsimp only [x]
            repeat' (with_reducible first | assumption | fail_if_no_progress beta_reduce | apply keep_settle | apply keep_fclrWrite | apply keep_blockWrite)
        | skip
      try clear_value x
    | fail_if_no_progress beta_reduce | apply keep_settle | apply keep_fclrWrite | apply keep_blockWrite | apply Kept.ite | fail_if_no_progress (apply KeptR.mk <;> try apply Kept.of2) | apply Kept.of2 | apply Kept.snd (by assumption) | apply KeptR.ite | intro _ | fail_if_no_progress (apply Kept.upd) | split

theorem keep_blockRead (m : Master) (b : Blk) (i o : Nat) (s : State) (h_s : Kept pq s) : KeptR pq (blockRead m b i o s) := by
  unfold blockRead
  repeat'
    with_reducible first
    | assumption | intro _
    | extract_lets -underBinder +onlyGivenNames x
      first
        | have hx : Kept pq x := by
            try dsimp only [x]
            repeat' (with_reducible first | assumption | fail_if_no_progress beta_reduce | apply keep_latchSnap | apply keep_mbxRead | apply keep_npopRead | apply keep_secLive | apply keep_dbgRead | apply Kept.ite | fail_if_no_progress (apply KeptR.mk <;> try apply Kept.of2) | apply Kept.of2 | apply Kept.snd (by assumption) | apply KeptR.ite | intro _ | fail_if_no_progress (apply Kept.upd) | split)
        | skip
      try clear_value x
    | fail_if_no_progress beta_reduce | apply keep_latchSnap | apply keep_mbxRead | apply keep_npopRead | apply keep_secLive | apply keep_dbgRead | apply Kept.ite | fail_if_no_progress (apply KeptR.mk <;> try apply Kept.of2) | apply Kept.of2 | apply Kept.snd (by assumption) | apply KeptR.ite | intro _ | fail_if_no_progress (apply Kept.upd) | split

theorem keep_mmioRead (m : Master) (pa n : Nat) (s : State) (h_s : Kept pq s) : KeptR pq (mmioRead m pa n s) := by
  unfold mmioRead
  repeat' (with_reducible first | assumption | fail_if_no_progress beta_reduce | apply keep_blockRead | apply Kept.ite | fail_if_no_progress (apply KeptR.mk <;> try apply Kept.of2) | apply Kept.of2 | apply Kept.snd (by assumption) | apply KeptR.ite | intro _ | fail_if_no_progress (apply Kept.upd) | split)

theorem keep_execSnapshotLowRead (m : Master) (pa : Nat) (s : State) (h_s : Kept pq s) : KeptX pq (execSnapshotLowRead m pa s) := by
  unfold execSnapshotLowRead
  repeat'
    with_reducible first
    | assumption | intro _
    | extract_lets -underBinder +onlyGivenNames x
      first
        | have hx : Kept pq x := by
            try dsimp only [x]
            repeat' (with_reducible first | assumption | fail_if_no_progress beta_reduce | apply keep_mmioRead | apply Kept.ite | fail_if_no_progress (apply KeptR.mk <;> try apply Kept.of2) | apply Kept.of2)
        | have hx : KeptR pq x := by
            try dsimp only [x]
            repeat' (with_reducible first | assumption | fail_if_no_progress beta_reduce | apply keep_mmioRead)
      try clear_value x
    | fail_if_no_progress beta_reduce | apply keep_mmioRead | apply Kept.ite | fail_if_no_progress (apply KeptR.mk <;> try apply Kept.of2) | apply Kept.of2 | apply Kept.snd (by assumption) | apply KeptR.ite | apply KeptX.next | apply KeptX.ite | intro _ | fail_if_no_progress (apply Kept.upd) | split

theorem keep_execRegisterWrite (m : Master) (pa : Nat) (v : Word) (s : State) (h_s : Kept pq s) : KeptX pq (execRegisterWrite m pa v s) := by
  unfold execRegisterWrite
  repeat'
    with_reducible first
    | assumption | intro _
    | extract_lets -underBinder +onlyGivenNames x
      first
        | have hx : Kept pq x := by
            try dsimp only [x]
            repeat' (with_reducible first | assumption | fail_if_no_progress beta_reduce | apply keep_mmioWrite | apply Kept.ite | fail_if_no_progress (apply KeptR.mk <;> try apply Kept.of2) | apply Kept.of2)
        | have hx : KeptR pq x := by
            try dsimp only [x]
            repeat' (with_reducible first | assumption | fail_if_no_progress beta_reduce | apply keep_mmioWrite)
      try clear_value x
    | fail_if_no_progress beta_reduce | apply keep_mmioWrite | apply Kept.ite | fail_if_no_progress (apply KeptR.mk <;> try apply Kept.of2) | apply Kept.of2 | apply Kept.snd (by assumption) | apply KeptR.ite | apply KeptX.next | apply KeptX.ite | intro _ | fail_if_no_progress (apply Kept.upd)

end Sys2Proof.Machine
end

