-- ==== Sys2Proof/Laws/KeepTap.lean ====
section
/-! SUPPORT. What the functions of `Tap` keep: the queue, and the canonical form of memory and registers. -/

namespace Sys2Proof.Machine

variable {pq : List Instr}

theorem keep_scanBalls (f : Nat → Nat → Bool) (s : State) (h_s : Kept pq s) : Kept pq (scanBalls f s) := by
  unfold scanBalls
  repeat' (with_reducible first | assumption | fail_if_no_progress beta_reduce | apply Kept.ite | apply Kept.foldl | intro _ | fail_if_no_progress (apply Kept.upd))

theorem keep_tapActs (ir : Nat) (s : State) (h_s : Kept pq s) : Kept pq (tapActs ir s) := by
  unfold tapActs
  repeat'
    with_reducible first
    | assumption | intro _
    | extract_lets -underBinder +onlyGivenNames x
      first
        | have hx : Kept pq x := by
            try dsimp only [x]
            repeat' (with_reducible first | assumption | fail_if_no_progress beta_reduce | apply keep_scanBalls | apply Kept.ite | intro _ | fail_if_no_progress (apply Kept.upd))
        | skip
      try clear_value x
    | fail_if_no_progress beta_reduce | apply keep_scanBalls | apply Kept.ite | intro _ | fail_if_no_progress (apply Kept.upd) | split

theorem keep_tapLoad (code : Nat) (s : State) (h_s : Kept pq s) : Kept pq (tapLoad code s) := by
  unfold tapLoad
  repeat'
    with_reducible first
    | assumption | intro _
    | extract_lets -underBinder +onlyGivenNames x
      first
        | have hx : Kept pq x := by
            try dsimp only [x]
            repeat' (with_reducible first | assumption | fail_if_no_progress beta_reduce | apply keep_tapActs | apply Kept.ite | intro _ | fail_if_no_progress (apply Kept.upd) | split | beta_reduce)
        | skip
      try clear_value x
    | fail_if_no_progress beta_reduce | apply keep_tapActs | apply Kept.ite

theorem keep_tapReset (s : State) (h_s : Kept pq s) : Kept pq (tapReset s) := by
  unfold tapReset
  repeat' (with_reducible first | assumption | fail_if_no_progress beta_reduce | apply keep_tapActs | apply Kept.ite | intro _ | fail_if_no_progress (apply Kept.upd))

theorem keep_bypassScan (bits : List Bool) (s : State) (h_s : Kept pq s) : Kept pq (bypassScan bits s) := by
  unfold bypassScan
  repeat' (with_reducible first | assumption | fail_if_no_progress beta_reduce | apply Kept.ite | intro _ | fail_if_no_progress (apply Kept.upd))

theorem keep_boundaryCapture (s : State) (h_s : Kept pq s) : Kept pq (boundaryCapture s) := by
  unfold boundaryCapture
  repeat' (with_reducible first | assumption | fail_if_no_progress beta_reduce | apply keep_draw | apply Kept.ite | fail_if_no_progress (apply KeptR.mk <;> try apply Kept.of2) | apply Kept.of2 | apply Kept.snd (by assumption) | apply KeptR.ite | intro _ | fail_if_no_progress (apply Kept.upd))

theorem keep_preload (v : BitVec 489) (s : State) (h_s : Kept pq s) : Kept pq (preload v s) := by
  unfold preload
  repeat'
    with_reducible first
    | assumption | intro _
    | extract_lets -underBinder +onlyGivenNames x
      first
        | have hx : Kept pq x := by
            try dsimp only [x]
            repeat' (with_reducible first | assumption | fail_if_no_progress beta_reduce | apply keep_tapActs | apply Kept.ite | apply Kept.foldl | intro _ | fail_if_no_progress (apply Kept.upd))
        | skip
      try clear_value x
    | fail_if_no_progress beta_reduce | apply keep_tapActs

theorem keep_busDone (result : Nat) (s : State) (h_s : Kept pq s) : Kept pq (busDone result s) := by
  unfold busDone
  repeat'
    with_reducible first
    | assumption | intro _
    | extract_lets -underBinder +onlyGivenNames x
      first
        | have hx : Kept pq x := by
            try dsimp only [x]
            repeat' (with_reducible first | assumption | fail_if_no_progress beta_reduce | apply keep_setRg)
        | skip
      try clear_value x
    | fail_if_no_progress beta_reduce | apply keep_setRg | apply Kept.ite

theorem keep_anyRead (m : Master) (ecc : Ecc) (pa n : Nat) (s : State) (h_s : Kept pq s) : KeptR pq (anyRead m ecc pa n s) := by
  unfold anyRead
  repeat' (with_reducible first | assumption | fail_if_no_progress beta_reduce | apply keep_memRead | apply keep_mmioRead | apply Kept.ite | fail_if_no_progress (apply KeptR.mk <;> try apply Kept.of2) | apply Kept.of2 | apply Kept.snd (by assumption) | apply KeptR.ite | intro _)

theorem keep_anyWrite (m : Master) (ecc : Ecc) (pa n : Nat) (v : Word) (s : State) (h_s : Kept pq s) : KeptR pq (anyWrite m ecc pa n v s) := by
  unfold anyWrite
  repeat' (with_reducible first | assumption | fail_if_no_progress beta_reduce | apply keep_memWrite | apply keep_mmioWrite | apply Kept.ite | fail_if_no_progress (apply KeptR.mk <;> try apply Kept.of2) | apply Kept.of2 | apply Kept.snd (by assumption) | apply KeptR.ite | intro _)

theorem keep_bdataRead (ecc : Ecc) (s : State) (h_s : Kept pq s) : Kept pq (bdataRead ecc s) := by
  unfold bdataRead
  repeat'
    with_reducible first
    | assumption | intro _
    | extract_lets -underBinder +onlyGivenNames x
      first
        | have hx : Kept pq x := by
            try dsimp only [x]
            repeat' (with_reducible first | assumption | fail_if_no_progress beta_reduce | apply keep_setRg | apply keep_debugLeaves | apply keep_busDone | apply keep_anyRead | apply Kept.ite | fail_if_no_progress (apply KeptR.mk <;> try apply Kept.of2) | apply Kept.of2 | apply Kept.snd (by assumption) | apply KeptR.ite | intro _)
        | skip
      try clear_value x
    | fail_if_no_progress beta_reduce | apply keep_setRg | apply keep_debugLeaves | apply keep_busDone | apply keep_anyRead | apply Kept.ite | fail_if_no_progress (apply KeptR.mk <;> try apply Kept.of2) | apply Kept.of2 | apply Kept.snd (by assumption) | apply KeptR.ite | intro _ | fail_if_no_progress (apply Kept.upd) | split

theorem keep_bdataWrite (v : Word) (ecc : Ecc) (s0 : State) (h_s0 : Kept pq s0) : Kept pq (bdataWrite v ecc s0) := by
  unfold bdataWrite
  extract_lets s
  have hs : Kept pq s := keep_setRg _ _ h_s0
  clear_value s
  have h : KeptR pq (if busAddr s % busSize s ≠ 0 then (Resp.err, s)
      else anyWrite (busMaster s) ecc (busAddr s) (busSize s) v s) :=
    KeptR.ite (fun _ => KeptR.mk hs) (fun _ => keep_anyWrite _ _ _ _ _ _ hs)
  generalize (if busAddr s % busSize s ≠ 0 then (Resp.err, s)
      else anyWrite (busMaster s) ecc (busAddr s) (busSize s) v s) = y at h ⊢
  obtain ⟨r, s1⟩ := y
  exact Kept.ite (fun _ => keep_busDone _ _ hs) (fun _ => Kept.ite (fun _ => keep_setRg _ _ hs) (fun _ => keep_busDone _ _ h))

theorem keep_accCapture (s : State) (h_s : Kept pq s) : Kept pq (accCapture s) := by
  unfold accCapture
  repeat' (with_reducible first | assumption | fail_if_no_progress beta_reduce | apply keep_tapActs | apply Kept.ite | intro _ | fail_if_no_progress (apply Kept.upd))

theorem keep_accStatus (s : State) (o : Nat) (h_s : Kept pq s) : Kept pq (accStatus s o) := by
  unfold accStatus
  repeat' (with_reducible first | assumption | fail_if_no_progress beta_reduce | apply Kept.ite | intro _ | fail_if_no_progress (apply Kept.upd))

theorem keep_accScanRead (w : BitVec 14) (s0 : State) (h_s0 : Kept pq s0) : Kept pq (accScanRead w s0) := by
  unfold accScanRead
  repeat'
    with_reducible first
    | assumption | intro _
    | extract_lets -underBinder +onlyGivenNames x
      first
        | have hx : Kept pq x := by
            try dsimp only [x]
            repeat' (with_reducible first | assumption | fail_if_no_progress beta_reduce | apply keep_dbgRead | apply keep_bdataRead | apply keep_accCapture | apply keep_accStatus)
        | skip
      try clear_value x
    | fail_if_no_progress beta_reduce | apply keep_dbgRead | apply keep_bdataRead | apply keep_accCapture | apply keep_accStatus | apply Kept.ite | fail_if_no_progress (apply KeptR.mk <;> try apply Kept.of2) | apply Kept.of2 | apply Kept.snd (by assumption) | apply KeptR.ite | intro _ | fail_if_no_progress (apply Kept.upd)

theorem keep_accScanWrite (w : BitVec 14) (v : Word) (s0 : State) (h_s0 : Kept pq s0) : Kept pq (accScanWrite w v s0) := by
  unfold accScanWrite
  repeat'
    with_reducible first
    | assumption | intro _
    | extract_lets -underBinder +onlyGivenNames x
      first
        | have hx : Kept pq x := by
            try dsimp only [x]
            repeat' (with_reducible first | assumption | fail_if_no_progress beta_reduce | apply keep_dbgWrite | apply keep_bdataWrite | apply keep_accCapture | apply keep_accStatus)
        | skip
      try clear_value x
    | fail_if_no_progress beta_reduce | apply keep_dbgWrite | apply keep_bdataWrite | apply keep_accCapture | apply keep_accStatus | apply Kept.ite | fail_if_no_progress (apply KeptR.mk <;> try apply Kept.of2) | apply Kept.of2

theorem keep_execTapReset (s : State) (h_s : Kept pq s) : KeptX pq (execTapReset s) := by
  unfold execTapReset
  repeat' (with_reducible first | assumption | fail_if_no_progress beta_reduce | apply keep_tapReset | apply Kept.ite | apply KeptX.next)

theorem keep_irScan (ir : Nat) (s : State) (h_s : Kept pq s) : Kept pq (irScan ir s) := by
  unfold irScan
  repeat' (with_reducible first | assumption | fail_if_no_progress beta_reduce | apply keep_tapLoad | apply Kept.ite | intro _ | fail_if_no_progress (apply Kept.upd))

theorem keep_boundaryScan (v : BitVec 489) (s : State) (h_s : Kept pq s) : Kept pq (boundaryScan v s) := by
  unfold boundaryScan
  repeat' (with_reducible first | assumption | fail_if_no_progress beta_reduce | apply keep_boundaryCapture | apply keep_preload)

theorem keep_bypassPath (bits : List Bool) (s : State) (h_s : Kept pq s) : Kept pq (bypassPath bits s) := by
  unfold bypassPath
  repeat' (with_reducible first | assumption | fail_if_no_progress beta_reduce | apply keep_bypassScan | apply Kept.ite | intro _)

theorem keep_extest (scan : Option (BitVec 489)) (s : State) (h_s : Kept pq s) : Kept pq (extest scan s) := by
  unfold extest
  repeat'
    with_reducible first
    | assumption | intro _
    | extract_lets -underBinder +onlyGivenNames x
      first
        | have hx : Kept pq x := by
            try dsimp only [x]
            repeat' (with_reducible first | assumption | fail_if_no_progress beta_reduce | apply keep_bypassScan | apply keep_irScan)
      try clear_value x
    | fail_if_no_progress beta_reduce | apply keep_bypassScan | apply keep_irScan | apply keep_boundaryScan | apply Kept.ite | intro _ | fail_if_no_progress (apply Kept.upd) | split

theorem keep_execExtest (s : State) (scan : Option (BitVec 489)) (h_s : Kept pq s) : KeptX pq (execExtest s scan) := by
  unfold execExtest
  repeat' (with_reducible first | assumption | fail_if_no_progress beta_reduce | apply keep_extest | apply Kept.ite | apply KeptX.next)

theorem keep_execSamplePreload (v : BitVec 489) (s : State) (h_s : Kept pq s) : KeptX pq (execSamplePreload v s) := by
  unfold execSamplePreload
  repeat' (with_reducible first | assumption | fail_if_no_progress beta_reduce | apply keep_tapLoad | apply keep_boundaryScan | apply Kept.ite | apply KeptX.next | apply KeptX.ite | intro _)

theorem keep_execIdcode (s : State) (h_s : Kept pq s) : KeptX pq (execIdcode s) := by
  unfold execIdcode
  repeat' (with_reducible first | assumption | fail_if_no_progress beta_reduce | apply keep_tapLoad | apply Kept.ite | apply KeptX.next | apply KeptX.ite | intro _ | fail_if_no_progress (apply Kept.upd))

theorem keep_execClamp (s : State) (bits : List Bool) (h_s : Kept pq s) : KeptX pq (execClamp s bits) := by
  unfold execClamp
  repeat' (with_reducible first | assumption | fail_if_no_progress beta_reduce | apply keep_irScan | apply keep_bypassPath | apply Kept.ite | apply KeptX.next)

theorem keep_execHighz (s : State) (bits : List Bool) (h_s : Kept pq s) : KeptX pq (execHighz s bits) := by
  unfold execHighz
  repeat' (with_reducible first | assumption | fail_if_no_progress beta_reduce | apply keep_irScan | apply keep_bypassPath | apply Kept.ite | apply KeptX.next)

theorem keep_execBypass (s : State) (code : BitVec 5) (bits : List Bool) (h_s : Kept pq s) : KeptX pq (execBypass s code bits) := by
  unfold execBypass
  repeat' (with_reducible first | assumption | fail_if_no_progress beta_reduce | apply keep_irScan | apply keep_bypassPath | apply Kept.ite | apply KeptX.next)

theorem keep_execAccRead (w : BitVec 14) (s : State) (go : Bool) (h_s : Kept pq s) : KeptX pq (execAccRead w s go) := by
  unfold execAccRead
  repeat' (with_reducible first | assumption | fail_if_no_progress beta_reduce | apply keep_accCapture | apply keep_accScanRead | apply Kept.ite | apply KeptX.next | apply KeptX.ite | intro _)

theorem keep_execAccWrite (w : BitVec 14) (v : Word) (s : State) (h_s : Kept pq s) : KeptX pq (execAccWrite w v s) := by
  unfold execAccWrite
  repeat' (with_reducible first | assumption | fail_if_no_progress beta_reduce | apply keep_accScanWrite | apply Kept.ite | apply KeptX.next)

theorem keep_execBdataWrite (v : Word) (ecc : Ecc) (s : State) (h_s : Kept pq s) : KeptX pq (execBdataWrite v ecc s) := by
  unfold execBdataWrite
  repeat' (with_reducible first | assumption | fail_if_no_progress beta_reduce | apply keep_bdataWrite | apply keep_accCapture | apply Kept.ite | apply KeptX.next | apply KeptX.ite | intro _ | fail_if_no_progress (apply Kept.upd))

theorem keep_execBdataRead (ecc : Ecc) (s : State) (h_s : Kept pq s) : KeptX pq (execBdataRead ecc s) := by
  unfold execBdataRead
  repeat' (with_reducible first | assumption | fail_if_no_progress beta_reduce | apply keep_bdataRead | apply keep_accCapture | apply Kept.ite | apply KeptX.next | apply KeptX.ite | intro _ | fail_if_no_progress (apply Kept.upd))

end Sys2Proof.Machine
end

