-- ==== Sys2Proof/Laws/KeepDmaRun.lean ====
section
/-! SUPPORT. What the functions of `DmaRun` keep: the queue, and the canonical form of memory and registers. -/

namespace Sys2Proof.Machine

variable {pq : List Instr}

theorem keep_ringError (c : Nat) (s : State) (h_s : Kept pq s) : Kept pq (ringError c s) := by
  unfold ringError
  repeat' (with_reducible first | assumption | fail_if_no_progress beta_reduce | apply keep_dmaFlag | apply keep_dmaStop)

theorem keep_dmaBegin (c : Nat) (r : DmaRun) (s1 : State) (h_s1 : Kept pq s1) : Kept pq (dmaBegin c r s1) := by
  unfold dmaBegin
  repeat'
    with_reducible first
    | assumption | intro _
    | extract_lets -underBinder +onlyGivenNames x
      first
        | have hx : Kept pq x := by
            try dsimp only [x]
            repeat' (with_reducible first | assumption | fail_if_no_progress beta_reduce | apply keep_setRg | apply keep_setChan | apply keep_dmaFlag | apply Kept.ite | intro _ | fail_if_no_progress (apply Kept.upd))
        | skip
      try clear_value x
    | fail_if_no_progress beta_reduce | apply keep_setRg | apply keep_setChan | apply keep_dmaFlag | apply Kept.ite

theorem keep_dmaFetch (c : Nat) (ecc : Ecc) (s : State) (h_s : Kept pq s) : Kept pq (dmaFetch c ecc s) := by
  unfold dmaFetch
  repeat'
    with_reducible first
    | assumption | intro _
    | extract_lets -underBinder +onlyGivenNames x
      first
        | have hx : Kept pq x := by
            try dsimp only [x]
            repeat' (with_reducible first | assumption | fail_if_no_progress beta_reduce | apply keep_setChan | apply keep_memRead | apply keep_ringError | apply keep_dmaBegin | apply Kept.ite | fail_if_no_progress (apply KeptR.mk <;> try apply Kept.of2) | apply Kept.of2 | apply Kept.snd (by assumption) | apply KeptR.ite | intro _ | fail_if_no_progress (apply Kept.upd) | split | beta_reduce)
        | skip
      try clear_value x
    | fail_if_no_progress beta_reduce | apply keep_setChan | apply keep_memRead | apply keep_ringError | apply keep_dmaBegin | apply Kept.ite | fail_if_no_progress (apply KeptR.mk <;> try apply Kept.of2) | apply Kept.of2 | apply Kept.snd (by assumption) | apply KeptR.ite | intro _ | fail_if_no_progress (apply Kept.upd) | split

theorem keep_sgNext (m : Master) (ecc : Ecc) (p : SgPos) (s : State) (h_s : Kept pq s) : KeptR pq (sgNext m ecc p s) := by
  unfold sgNext
  repeat'
    with_reducible first
    | assumption | intro _
    | extract_lets -underBinder +onlyGivenNames x
      first
        | have hx : Kept pq x := by
            try dsimp only [x]
            repeat' (with_reducible first | assumption | fail_if_no_progress beta_reduce | apply keep_memRead | apply Kept.ite | fail_if_no_progress (apply KeptR.mk <;> try apply Kept.of2) | apply Kept.of2 | apply Kept.snd (by assumption) | apply KeptR.ite | intro _ | fail_if_no_progress (apply Kept.upd) | split | beta_reduce)
        | skip
      try clear_value x
    | fail_if_no_progress beta_reduce | apply keep_memRead | apply Kept.ite | fail_if_no_progress (apply KeptR.mk <;> try apply Kept.of2) | apply Kept.of2 | apply Kept.snd (by assumption) | apply KeptR.ite | intro _ | fail_if_no_progress (apply Kept.upd) | split

theorem keep_devWords (m : Master) : ∀ (x0 : Nat) (x1 : Nat) (x2 : State), Kept pq x2 → KeptR pq (devWords m x0 x1 x2)
  | 0, _, s, h_s => by
    unfold devWords
    repeat' (with_reducible first | assumption | fail_if_no_progress beta_reduce | apply keep_mmioRead | apply keep_devWords | apply Kept.ite | fail_if_no_progress (apply KeptR.mk <;> try apply Kept.of2))
  | n + 1, pa, s, h_s => by
    unfold devWords
    repeat' (with_reducible first | assumption | fail_if_no_progress beta_reduce | apply keep_mmioRead | apply keep_devWords | apply Kept.ite | fail_if_no_progress (apply KeptR.mk <;> try apply Kept.of2) | apply Kept.of2 | apply Kept.snd (by assumption) | apply KeptR.ite | intro _ | fail_if_no_progress (apply Kept.upd) | split)

theorem keep_devStores (m : Master) : ∀ (x0 : Nat) (x1 : List Byte) (x2 : State), Kept pq x2 →
    KeptT pq (devStores m x0 x1 x2)
  | _, [], _, h => h
  | _, [_], _, h => h
  | _, [_, _], _, h => h
  | _, [_, _, _], _, h => h
  | pa, a :: b :: c :: d :: t, s, h => by
    have h1 := keep_mmioWrite m pa 4 (w32 (ofBytes [a, b, c, d])) s h
    unfold devStores
    generalize mmioWrite m pa 4 (w32 (ofBytes [a, b, c, d])) s = x at h1 ⊢
    obtain ⟨r, s1⟩ := x
    have h2 := keep_devStores m (pa + 4) t s1 h1
    dsimp only
    split
    · exact h1
    · exact h2

theorem keep_burstRead (m : Master) (ecc : Ecc) (pa n : Nat) (s : State) (h_s : Kept pq s) : KeptR pq (burstRead m ecc pa n s) := by
  unfold burstRead
  repeat' (with_reducible first | assumption | fail_if_no_progress beta_reduce | apply keep_memRead | apply keep_devWords | apply Kept.ite | fail_if_no_progress (apply KeptR.mk <;> try apply Kept.of2) | apply Kept.of2 | apply Kept.snd (by assumption) | apply KeptR.ite | intro _)

theorem keep_burstWrite (m : Master) (werr : Bool) (wecc : Ecc) (pa : Nat) (bs : List Byte) (s : State) (h_s : Kept pq s) : KeptT pq (burstWrite m werr wecc pa bs s) := by
  unfold burstWrite
  repeat' (with_reducible first | assumption | fail_if_no_progress beta_reduce | apply keep_memWrite | apply keep_devStores | apply Kept.ite | fail_if_no_progress (apply KeptR.mk <;> try apply Kept.of2) | apply Kept.of2 | apply Kept.snd (by assumption) | fail_if_no_progress (apply KeptT.mk <;> try apply Kept.of3) | apply Kept.of3 | apply Kept.thd (by assumption) | apply KeptR.ite | apply KeptT.ite | intro _ | fail_if_no_progress (apply Kept.upd) | split)

theorem keep_dmaPut (c : Nat) (q : DmaRun) (s : State) (h_s : Kept pq s) : Kept pq (dmaPut c q s) := by
  unfold dmaPut
  repeat' (with_reducible first | assumption | fail_if_no_progress beta_reduce | apply keep_setRg | apply keep_setChan)

theorem keep_sgTake (m : Master) (ecc : Ecc) (p : Option SgPos) (s : State) (h_s : Kept pq s) : KeptR pq (sgTake m ecc p s) := by
  unfold sgTake
  repeat' (with_reducible first | assumption | fail_if_no_progress beta_reduce | apply keep_sgNext | apply Kept.ite | fail_if_no_progress (apply KeptR.mk <;> try apply Kept.of2) | apply Kept.of2 | apply Kept.snd (by assumption) | apply KeptR.ite | intro _ | fail_if_no_progress (apply Kept.upd) | split)

theorem keep_dmaData (m : Master) (ecc : Ecc) (r : DmaRun) (sa n : Nat) (s : State) (h_s : Kept pq s) : KeptR pq (dmaData m ecc r sa n s) := by
  unfold dmaData
  repeat' (with_reducible first | assumption | fail_if_no_progress beta_reduce | apply keep_burstRead | apply Kept.ite | fail_if_no_progress (apply KeptR.mk <;> try apply Kept.of2) | apply Kept.of2 | apply Kept.snd (by assumption) | apply KeptR.ite | intro _)

theorem keep_dmaMove (c : Nat) (ecc : Ecc) (werr : Bool) (wecc : Ecc) (r : DmaRun) (src dst : Option SgPos) (s : State)
    (h_s : Kept pq s) : Kept pq (dmaMove c ecc werr wecc r src dst s) := by
  unfold dmaMove
  extract_lets m lim n sa da
  clear_value n sa da
  have h1 := keep_dmaData m ecc r sa n s h_s
  generalize dmaData m ecc r sa n s = x at h1 ⊢
  obtain ⟨e | bs, s1⟩ := x
  · exact keep_dmaPut _ _ _ h1
  · have h2 := keep_burstWrite m werr wecc da bs s1 h1
    change Kept pq (match burstWrite m werr wecc da bs s1 with | (k, e, s2) => dmaPut c (r.after src dst k e) s2)
    generalize burstWrite m werr wecc da bs s1 = y at h2 ⊢
    obtain ⟨k, e, s2⟩ := y
    exact keep_dmaPut _ _ _ h2

theorem keep_dmaBurst (c : Nat) (ecc : Ecc) (werr : Bool) (wecc : Ecc) (r : DmaRun) (s0 : State) (h_s0 : Kept pq s0) : Kept pq (dmaBurst c ecc werr wecc r s0) := by
  unfold dmaBurst
  repeat'
    with_reducible first
    | assumption | intro _
    | extract_lets -underBinder +onlyGivenNames x
      first
        | have hx : Kept pq x := by
            try dsimp only [x]
            repeat' (with_reducible first | assumption | fail_if_no_progress beta_reduce | apply keep_dmaPut | apply keep_sgTake | apply keep_dmaMove | apply Kept.ite | fail_if_no_progress (apply KeptR.mk <;> try apply Kept.of2) | apply Kept.of2 | apply Kept.snd (by assumption) | apply KeptR.ite | intro _ | fail_if_no_progress (apply Kept.upd))
        | skip
      try clear_value x
    | fail_if_no_progress beta_reduce | apply keep_dmaPut | apply keep_sgTake | apply keep_dmaMove | apply Kept.ite | fail_if_no_progress (apply KeptR.mk <;> try apply Kept.of2) | apply Kept.of2 | apply Kept.snd (by assumption) | apply KeptR.ite | intro _ | fail_if_no_progress (apply Kept.upd) | split

theorem keep_gelmondStop (c : Nat) (werr : Bool) (wecc : Ecc) (r : DmaRun) (s : State) (h_s : Kept pq s) : Kept pq (gelmondStop c werr wecc r s) := by
  unfold gelmondStop
  repeat'
    with_reducible first
    | assumption | intro _
    | extract_lets -underBinder +onlyGivenNames x
      first
        | have hx : Kept pq x := by
            try dsimp only [x]
            repeat' (with_reducible first | assumption | fail_if_no_progress beta_reduce | apply keep_memWrite | apply keep_dmaStop | apply keep_ringError | apply Kept.ite | fail_if_no_progress (apply KeptR.mk <;> try apply Kept.of2) | apply Kept.of2 | apply Kept.snd (by assumption) | apply KeptR.ite | intro _ | fail_if_no_progress (apply Kept.upd) | split | beta_reduce)
        | skip
      try clear_value x
    | fail_if_no_progress beta_reduce | apply keep_memWrite | apply keep_dmaStop | apply keep_ringError | apply Kept.ite | fail_if_no_progress (apply KeptR.mk <;> try apply Kept.of2) | apply Kept.of2 | apply Kept.snd (by assumption) | apply KeptR.ite | intro _ | fail_if_no_progress (apply Kept.upd) | split

theorem keep_dmaDescriptor (c : Nat) (ecc : Ecc) (werr : Bool) (wecc : Ecc) (s : State) (h_s : Kept pq s) : Kept pq (dmaDescriptor c ecc werr wecc s) := by
  unfold dmaDescriptor
  repeat'
    with_reducible first
    | assumption | intro _
    | extract_lets -underBinder +onlyGivenNames x
      first
        | have hx : Kept pq x := by
            try dsimp only [x]
            repeat' (with_reducible first | assumption | fail_if_no_progress beta_reduce | apply keep_dmaBegin | apply keep_dmaFetch | apply keep_dmaBurst | apply keep_gelmondStop | apply Kept.ite | intro _ | fail_if_no_progress (apply Kept.upd) | split | beta_reduce)
        | skip
      try clear_value x
    | fail_if_no_progress beta_reduce | apply keep_dmaBegin | apply keep_dmaFetch | apply keep_dmaBurst | apply keep_gelmondStop | apply Kept.ite | intro _ | fail_if_no_progress (apply Kept.upd) | split

theorem keep_dmaWriteback (c : Nat) (werr : Bool) (wecc : Ecc) (s : State) (h_s : Kept pq s) : Kept pq (dmaWriteback c werr wecc s) := by
  unfold dmaWriteback
  repeat'
    with_reducible first
    | assumption | intro _
    | extract_lets -underBinder +onlyGivenNames x
      first
        | have hx : Kept pq x := by
            try dsimp only [x]
            repeat' (with_reducible first | assumption | fail_if_no_progress beta_reduce | apply keep_setRg | apply keep_setChan | apply keep_bump | apply keep_raiseEvent | apply keep_memWrite | apply keep_dmaFlag | apply keep_dmaStop | apply keep_ringError | apply Kept.ite | fail_if_no_progress (apply KeptR.mk <;> try apply Kept.of2) | apply Kept.of2 | apply Kept.snd (by assumption) | apply KeptR.ite | intro _)
        | skip
      try clear_value x
    | fail_if_no_progress beta_reduce | apply keep_setRg | apply keep_setChan | apply keep_bump | apply keep_raiseEvent | apply keep_memWrite | apply keep_dmaFlag | apply keep_dmaStop | apply keep_ringError | apply Kept.ite | fail_if_no_progress (apply KeptR.mk <;> try apply Kept.of2) | apply Kept.of2 | apply Kept.snd (by assumption) | apply KeptR.ite | intro _ | fail_if_no_progress (apply Kept.upd) | split

theorem keep_execDmaDescriptor (c : Fin 32) (ecc : Ecc) (werr : Bool) (s : State) (wecc : Ecc) (h_s : Kept pq s) : KeptX pq (execDmaDescriptor c ecc werr s wecc) := by
  unfold execDmaDescriptor
  repeat' (with_reducible first | assumption | fail_if_no_progress beta_reduce | apply keep_dmaDescriptor | apply Kept.ite | apply KeptX.next)

theorem keep_execDmaWriteback (c : Fin 32) (werr : Bool) (s : State) (wecc : Ecc) (h_s : Kept pq s) : KeptX pq (execDmaWriteback c werr s wecc) := by
  unfold execDmaWriteback
  repeat' (with_reducible first | assumption | fail_if_no_progress beta_reduce | apply keep_dmaWriteback | apply Kept.ite | apply KeptX.next)

end Sys2Proof.Machine
end

