-- ==== Sys2Proof/Laws/KeepOps.lean ====
section
/-! SUPPORT. What the functions of `Ops` keep: the queue, and the canonical form of memory and registers. -/

namespace Sys2Proof.Machine

variable {pq : List Instr}

theorem keep_wfiWake (i : Nat) (s : State) (h_s : Kept pq s) : Kept pq (wfiWake i s) := by
  unfold wfiWake
  repeat'
    with_reducible first
    | assumption | intro _
    | extract_lets -underBinder +onlyGivenNames x
      first
        | have hx : Kept pq x := by
            try dsimp only [x]
            repeat' (with_reducible first | assumption | fail_if_no_progress beta_reduce | apply keep_setEl | apply Kept.ite | intro _ | fail_if_no_progress (apply Kept.upd) | split | beta_reduce)
        | skip
      try clear_value x
    | fail_if_no_progress beta_reduce | apply keep_setEl | apply Kept.ite

theorem keep_traceRun (kind i bank : Nat) (w2 w3 : Word) (s : State) (h_s : Kept pq s) : Kept pq (traceRun kind i bank w2 w3 s) := by
  unfold traceRun
  repeat' (with_reducible first | assumption | fail_if_no_progress beta_reduce | apply keep_traceElem | apply Kept.ite | intro _)

theorem keep_closeSpan (key : Nat) (stamp : Word) (s : State) (h_s : Kept pq s) : Kept pq (closeSpan key stamp s) := by
  unfold closeSpan
  repeat'
    with_reducible first
    | assumption | intro _
    | extract_lets -underBinder +onlyGivenNames x
      first
        | have hx : Kept pq x := by
            try dsimp only [x]
            repeat' (with_reducible first | assumption | fail_if_no_progress beta_reduce | apply keep_setCtx | apply Kept.ite | intro _ | fail_if_no_progress (apply Kept.upd) | split | beta_reduce)
        | skip
      try clear_value x
    | fail_if_no_progress beta_reduce | apply keep_setCtx | apply Kept.ite | intro _ | fail_if_no_progress (apply Kept.upd) | split

theorem keep_resumeRun (i : Nat) (s : State) (h_s : Kept pq s) : Kept pq (resumeRun i s) := by
  unfold resumeRun
  repeat'
    with_reducible first
    | assumption | intro _
    | extract_lets -underBinder +onlyGivenNames x
      first
        | have hx : Kept pq x := by
            try dsimp only [x]
            repeat' (with_reducible first | assumption | fail_if_no_progress beta_reduce | apply keep_setEl | apply Kept.ite | intro _ | fail_if_no_progress (apply Kept.upd) | split | beta_reduce)
        | skip
      try clear_value x
    | fail_if_no_progress beta_reduce | apply keep_setEl | apply Kept.ite | intro _ | fail_if_no_progress (apply Kept.upd) | split

theorem keep_endRun (i : Nat) (pc : Word) (s : State) (h_s : Kept pq s) : Kept pq (endRun i pc s) := by
  unfold endRun
  repeat'
    with_reducible first
    | assumption | intro _
    | extract_lets -underBinder +onlyGivenNames x
      first
        | have hx : Kept pq x := by
            try dsimp only [x]
            repeat' (with_reducible first | assumption | fail_if_no_progress beta_reduce | apply keep_setEl | apply keep_releaseCheck | apply keep_runEnded | apply keep_traceRun | apply keep_closeSpan | apply keep_resumeRun | apply Kept.ite | intro _ | fail_if_no_progress (apply Kept.upd) | split)
        | skip
      try clear_value x
    | fail_if_no_progress beta_reduce | apply keep_setEl | apply keep_releaseCheck | apply keep_runEnded | apply keep_traceRun | apply keep_closeSpan | apply keep_resumeRun | apply Kept.ite | intro _ | fail_if_no_progress (apply Kept.upd) | split

theorem keep_doubleFault (i : Nat) (t : Trap) (epc : Word) (int : Bool) (s : State) (h_s : Kept pq s) : Kept pq (doubleFault i t epc int s) := by
  unfold doubleFault
  repeat'
    with_reducible first
    | assumption | intro _
    | extract_lets -underBinder +onlyGivenNames x
      first
        | have hx : Kept pq x := by
            try dsimp only [x]
            repeat' (with_reducible first | assumption | fail_if_no_progress beta_reduce | apply keep_bankFault | apply keep_resetBy | apply keep_setRset | apply keep_endRun | apply Kept.ite | intro _ | fail_if_no_progress (apply Kept.upd) | split | beta_reduce)
        | skip
      try clear_value x
    | fail_if_no_progress beta_reduce | apply keep_bankFault | apply keep_resetBy | apply keep_setRset | apply keep_endRun | apply Kept.ite

theorem keep_enterExc (i : Nat) (t : Trap) (epc : Word) (int : Bool) (s0 : State) (h_s0 : Kept pq s0) : Kept pq (enterExc i t epc int s0) := by
  unfold enterExc
  repeat'
    with_reducible first
    | assumption | intro _
    | extract_lets -underBinder +onlyGivenNames x
      first
        | have hx : Kept pq x := by
            try dsimp only [x]
            repeat' (with_reducible first | assumption | fail_if_no_progress beta_reduce | apply keep_setEl)
        | skip
      try clear_value x
    | fail_if_no_progress beta_reduce | apply keep_setEl | apply keep_timePort | apply keep_setRset | apply keep_doubleFault | apply Kept.ite | fail_if_no_progress (apply KeptR.mk <;> try apply Kept.of2) | apply Kept.of2

theorem keep_returnExc (i : Nat) (s : State) (h_s : Kept pq s) : KeptO pq (returnExc i s) := by
  unfold returnExc
  repeat'
    with_reducible first
    | assumption | intro _
    | extract_lets -underBinder +onlyGivenNames x
      first
        | have hx : Kept pq x := by
            try dsimp only [x]
            repeat' (with_reducible first | assumption | fail_if_no_progress beta_reduce | apply keep_setEl | apply Kept.ite | apply KeptO.done | apply KeptO.ended | apply KeptO.jump | apply KeptO.trap | apply KeptO.hold | apply KeptO.ite | intro _ | fail_if_no_progress (apply Kept.upd) | split | beta_reduce)
        | skip
      try clear_value x
    | fail_if_no_progress beta_reduce | apply keep_setEl | apply Kept.ite | apply KeptO.done | apply KeptO.ended | apply KeptO.jump | apply KeptO.trap | apply KeptO.hold | apply KeptO.ite

theorem keep_takeImprecise (i : Nat) (s : State) (h_s : Kept pq s) : Kept pq (takeImprecise i s) := by
  unfold takeImprecise
  repeat'
    with_reducible first
    | assumption | intro _
    | extract_lets -underBinder +onlyGivenNames x
      first
        | have hx : Kept pq x := by
            try dsimp only [x]
            repeat' (with_reducible first | assumption | fail_if_no_progress beta_reduce | apply keep_setEl | apply keep_enterExc | apply Kept.ite | intro _ | fail_if_no_progress (apply Kept.upd) | split | beta_reduce)
        | skip
      try clear_value x
    | fail_if_no_progress beta_reduce | apply keep_setEl | apply keep_enterExc | apply Kept.ite | intro _ | fail_if_no_progress (apply Kept.upd) | split

theorem keep_stepEnds (i : Nat) (s : State) (h_s : Kept pq s) : Kept pq (stepEnds i s) := by
  unfold stepEnds
  repeat' (with_reducible first | assumption | fail_if_no_progress beta_reduce | apply keep_haltElem | apply Kept.ite | intro _)

theorem keep_clearView (i : Nat) (s : State) (h_s : Kept pq s) : Kept pq (clearView i s) := by
  unfold clearView
  repeat' (with_reducible first | assumption | fail_if_no_progress beta_reduce | apply keep_setEl | apply Kept.ite | intro _)

theorem keep_clearFired (s : State) (h_s : Kept pq s) : Kept pq (clearFired s) := by
  unfold clearFired
  repeat' (with_reducible first | assumption | fail_if_no_progress beta_reduce | apply Kept.ite | intro _ | fail_if_no_progress (apply Kept.upd))

theorem keep_boundary (i : Nat) (steps : Bool) (s : State) (h_s : Kept pq s) : Kept pq (boundary i steps s) := by
  unfold boundary
  repeat'
    with_reducible first
    | assumption | intro _
    | extract_lets -underBinder +onlyGivenNames x
      first
        | have hx : Kept pq x := by
            try dsimp only [x]
            repeat' (with_reducible first | assumption | fail_if_no_progress beta_reduce | apply keep_takeHalts | apply keep_stepEnds | apply keep_clearView | apply keep_clearFired)
        | skip
      try clear_value x
    | fail_if_no_progress beta_reduce | apply keep_takeHalts | apply keep_stepEnds | apply keep_clearView | apply keep_clearFired | apply Kept.ite

theorem keep_advance (i size : Nat) (s : State) (h_s : Kept pq s) : Kept pq (advance i size s) := by
  unfold advance
  repeat'
    with_reducible first
    | assumption | intro _
    | extract_lets -underBinder +onlyGivenNames x
      first
        | have hx : Kept pq x := by
            try dsimp only [x]
            repeat' (with_reducible first | assumption | fail_if_no_progress beta_reduce | apply keep_setRset | apply Kept.ite | intro _ | fail_if_no_progress (apply Kept.upd) | split | beta_reduce)
        | skip
      try clear_value x
    | fail_if_no_progress beta_reduce | apply keep_setRset | apply Kept.ite

theorem keep_advanceSr (i size : Nat) (s : State) (h_s : Kept pq s) : Kept pq (advanceSr i size s) := by
  unfold advanceSr
  repeat'
    with_reducible first
    | assumption | intro _
    | extract_lets -underBinder +onlyGivenNames x
      first
        | have hx : Kept pq x := by
            try dsimp only [x]
            repeat' (with_reducible first | assumption | fail_if_no_progress beta_reduce | apply keep_setRset | apply keep_advance | apply Kept.ite | intro _ | fail_if_no_progress (apply Kept.upd) | split | beta_reduce)
        | skip
      try clear_value x
    | fail_if_no_progress beta_reduce | apply keep_setRset | apply keep_advance | apply Kept.ite

theorem keep_finish (i : Nat) (sh : Shape) (sr : Bool) (o : Out) (h : KeptO pq o) : Kept pq (finish i sh sr o) := by
  cases o with
  | done s =>
    exact Kept.ite (fun _ => keep_boundary _ _ _ h) (fun _ => keep_boundary _ _ _
      (Kept.ite (fun _ => keep_advanceSr _ _ _ h) (fun _ => keep_advance _ _ _ h)))
  | ended s => exact keep_boundary _ _ _ h
  | jump t s => exact keep_boundary _ _ _ (keep_setRset _ _ _ h)
  | trap t s => exact keep_boundary _ _ _ (keep_enterExc _ _ _ _ _ h)
  | hold s => exact keep_boundary i false s h

theorem keep_consume (i : Nat) (vmac : Bool) (s : State) (h_s : Kept pq s) : Kept pq (consume i vmac s) := by
  unfold consume
  repeat'
    with_reducible first
    | assumption | intro _
    | extract_lets -underBinder +onlyGivenNames x
      first
        | have hx : Kept pq x := by
            try dsimp only [x]
            repeat' (with_reducible first | assumption | fail_if_no_progress beta_reduce | apply keep_setRset | apply Kept.ite | intro _ | fail_if_no_progress (apply Kept.upd) | split | beta_reduce)
        | skip
      try clear_value x
    | fail_if_no_progress beta_reduce | apply keep_setRset | apply Kept.ite

theorem keep_clearStall (i : Nat) (s : State) (h_s : Kept pq s) : Kept pq (clearStall i s) := by
  unfold clearStall
  repeat'
    with_reducible first
    | assumption | intro _
    | extract_lets -underBinder +onlyGivenNames x
      first
        | have hx : Kept pq x := by
            try dsimp only [x]
            repeat' (with_reducible first | assumption | fail_if_no_progress beta_reduce | apply keep_setEl | apply Kept.ite | intro _ | fail_if_no_progress (apply Kept.upd) | split | beta_reduce)
        | skip
      try clear_value x
    | fail_if_no_progress beta_reduce | apply keep_setEl | apply Kept.ite

theorem keep_runInstr (i : Nat) (sh : Shape) (sr : Bool) (body : State → Out) (s : State)
    (h_body : ∀ s, Kept pq s → KeptO pq (body s)) (h_s : Kept pq s) : Kept pq (runInstr i sh sr body s) := by
  unfold runInstr
  extract_lets s1 s2 r s3
  have h1 : Kept pq s1 := keep_takeImprecise i _ (keep_wfiWake i s h_s)
  have h2 : Kept pq s2 := keep_clearStall _ _ (keep_openView _ _ h1)
  clear_value s1 s2 r
  exact Kept.ite (fun _ => h1) (fun _ => Kept.ite (fun _ => keep_finish _ _ _ _ (KeptO.trap (keep_setRset _ _ _ h2)))
    (fun _ => Kept.ite (fun _ => keep_boundary _ _ _ (keep_setRset _ _ _ h2))
      (fun _ => keep_finish _ _ _ _ (h_body _ (keep_consume _ _ _ h2)))))

end Sys2Proof.Machine
end

