-- ==== Sys2Proof/Laws/KeepOperands.lean ====
section
/-! SUPPORT. What the functions of `Operands` keep: the queue, and the canonical form of memory and registers. -/

namespace Sys2Proof.Machine

variable {pq : List Instr}

theorem keep_regOp (i : Nat) (ns : List (BitVec 5)) (rd : Option Nat) (S : Bool) (f : RegSet → AluRes) (s : State) (h_s : Kept pq s) : KeptO pq (regOp i ns rd S f s) := by
  unfold regOp
  repeat'
    with_reducible first
    | assumption | intro _
    | extract_lets -underBinder +onlyGivenNames x
      first
        | have hx : Kept pq x := by
            try dsimp only [x]
            repeat' (with_reducible first | assumption | fail_if_no_progress beta_reduce | apply keep_setRset | apply Kept.ite | apply KeptO.done | apply KeptO.ended | apply KeptO.jump | apply KeptO.trap | apply KeptO.hold | apply KeptO.ite | intro _ | fail_if_no_progress (apply Kept.upd) | split | beta_reduce)
        | skip
      try clear_value x
    | fail_if_no_progress beta_reduce | apply keep_setRset | apply Kept.ite | apply KeptO.done | apply KeptO.ended | apply KeptO.jump | apply KeptO.trap | apply KeptO.hold | apply KeptO.ite

theorem keep_regInstr (e : Elem) (size : Nat) (ns : List (BitVec 5)) (rd : Option Nat) (S : Bool) (f : RegSet → AluRes) (s : State) (h_s : Kept pq s) : Kept pq (regInstr e size ns rd S f s) := by
  unfold regInstr
  repeat' (with_reducible first | assumption | fail_if_no_progress beta_reduce | apply keep_runInstr | apply keep_regOp)

theorem keep_r32Instr (op : AluOp) (e : Elem) (rd ra rb : BitVec 5) (S : Bool) (s : State) (h_s : Kept pq s) : Kept pq (r32Instr op e rd ra rb S s) := by
  unfold r32Instr
  repeat' (with_reducible first | assumption | fail_if_no_progress beta_reduce | apply keep_regInstr)

theorem keep_aluInstr (op : AluOp) (e : Elem) (f : AluForm) (s : State) (h_s : Kept pq s) : Kept pq (aluInstr op e f s) := by
  unfold aluInstr
  repeat' (with_reducible first | assumption | fail_if_no_progress beta_reduce | apply keep_regInstr | apply keep_r32Instr | apply Kept.ite | intro _ | fail_if_no_progress (apply Kept.upd) | split)

theorem keep_rrInstr (g : Word → Word) (e : Elem) (rd rs : BitVec 4) (s : State) (h_s : Kept pq s) : Kept pq (rrInstr g e rd rs s) := by
  unfold rrInstr
  repeat' (with_reducible first | assumption | fail_if_no_progress beta_reduce | apply keep_regInstr)

theorem keep_i32Instr (op : AluOp) (e : Elem) (rd ra : BitVec 5) (k : Word) (s : State) (h_s : Kept pq s) : Kept pq (i32Instr op e rd ra k s) := by
  unfold i32Instr
  repeat' (with_reducible first | assumption | fail_if_no_progress beta_reduce | apply keep_regInstr)

theorem keep_shiftInstr (op : Word → Nat → AluRes) (e : Elem) (f : ShiftForm) (s : State) (h_s : Kept pq s) : Kept pq (shiftInstr op e f s) := by
  unfold shiftInstr
  repeat' (with_reducible first | assumption | fail_if_no_progress beta_reduce | apply keep_regInstr | apply Kept.ite | intro _ | fail_if_no_progress (apply Kept.upd) | split)

theorem keep_divInstr (op : AluOp) (e : Elem) (rd ra rb : BitVec 5) (S abandoned : Bool) (s : State) (h_s : Kept pq s) : Kept pq (divInstr op e rd ra rb S abandoned s) := by
  unfold divInstr
  repeat'
    with_reducible first
    | assumption | intro _
    | extract_lets -underBinder +onlyGivenNames x
      first
        | have hx : Kept pq x := by
            try dsimp only [x]
            repeat' (with_reducible first | assumption | fail_if_no_progress beta_reduce | apply keep_runInstr | apply keep_regOp | apply Kept.ite | apply KeptO.done | apply KeptO.ended | apply KeptO.jump | apply KeptO.trap | apply KeptO.hold | apply KeptO.ite | intro _ | fail_if_no_progress (apply Kept.upd) | split | beta_reduce)
        | skip
      try clear_value x
    | fail_if_no_progress beta_reduce | apply keep_runInstr | apply keep_regOp | apply Kept.ite | apply KeptO.done | apply KeptO.ended | apply KeptO.jump | apply KeptO.trap | apply KeptO.hold | apply KeptO.ite

end Sys2Proof.Machine
end

