-- ==== Sys2Proof/Laws/KeepAccess.lean ====
section
/-! SUPPORT. What the functions of `Access` keep: the queue, and the canonical form of memory and registers. -/

namespace Sys2Proof.Machine

variable {pq : List Instr}

theorem keep_setLine (ln : Nat) (x : Option Line) (s : State) (h_s : Kept pq s) : Kept pq (setLine ln x s) := by
  unfold setLine
  repeat' (with_reducible first | assumption | fail_if_no_progress beta_reduce | apply Kept.ite | intro _ | fail_if_no_progress (apply Kept.upd))

theorem keep_cleanLine (i ln : Nat) (s : State) (h_s : Kept pq s) : Kept pq (cleanLine i ln s) := by
  unfold cleanLine
  repeat'
    with_reducible first
    | assumption | intro _
    | extract_lets -underBinder +onlyGivenNames x
      first
        | have hx : Kept pq x := by
            try dsimp only [x]
            repeat' (with_reducible first | assumption | fail_if_no_progress beta_reduce | apply keep_memWriteWith | apply keep_setLine | apply Kept.ite | fail_if_no_progress (apply KeptR.mk <;> try apply Kept.of2) | apply Kept.of2 | apply Kept.snd (by assumption) | apply KeptR.ite | intro _ | fail_if_no_progress (apply Kept.upd))
      try clear_value x
    | fail_if_no_progress beta_reduce | apply keep_memWriteWith | apply keep_setLine | apply Kept.ite | fail_if_no_progress (apply KeptR.mk <;> try apply Kept.of2) | apply Kept.of2 | apply Kept.snd (by assumption) | apply KeptR.ite | intro _ | fail_if_no_progress (apply Kept.upd) | split

theorem keep_dropLine (ln : Nat) (s : State) (h_s : Kept pq s) : Kept pq (dropLine ln s) := by
  unfold dropLine
  repeat' (with_reducible first | assumption | fail_if_no_progress beta_reduce | apply keep_setLine)

theorem keep_meetLoad (i pa : Nat) (s : State) (h_s : Kept pq s) : Kept pq (meetLoad i pa s) := by
  unfold meetLoad
  repeat' (with_reducible first | assumption | fail_if_no_progress beta_reduce | apply keep_cleanLine | apply Kept.ite | intro _)

theorem keep_meetStore (i pa : Nat) (s : State) (h_s : Kept pq s) : Kept pq (meetStore i pa s) := by
  unfold meetStore
  repeat' (with_reducible first | assumption | fail_if_no_progress beta_reduce | apply keep_cleanLine | apply keep_dropLine | apply Kept.ite | intro _)

theorem keep_evictLine (i ln : Nat) (s : State) (h_s : Kept pq s) : Kept pq (evictLine i ln s) := by
  unfold evictLine
  repeat' (with_reducible first | assumption | fail_if_no_progress beta_reduce | apply keep_setLine | apply keep_cleanLine | apply keep_dropLine | apply Kept.ite | intro _ | fail_if_no_progress (apply Kept.upd) | split)

theorem keep_makeRoom (i ln : Nat) (s : State) (h_s : Kept pq s) : Kept pq (makeRoom i ln s) := by
  unfold makeRoom
  repeat'
    with_reducible first
    | assumption | intro _
    | extract_lets -underBinder +onlyGivenNames x
      first
        | have hx : Kept pq x := by
            try dsimp only [x]
            repeat' (with_reducible first | assumption | fail_if_no_progress beta_reduce | apply keep_draw | apply keep_cleanLine | apply keep_dropLine | apply Kept.ite | fail_if_no_progress (apply KeptR.mk <;> try apply Kept.of2) | apply Kept.of2 | apply Kept.snd (by assumption) | apply KeptR.ite | intro _ | fail_if_no_progress (apply Kept.upd) | split | beta_reduce)
        | skip
      try clear_value x
    | fail_if_no_progress beta_reduce | apply keep_draw | apply keep_cleanLine | apply keep_dropLine | apply Kept.ite | fail_if_no_progress (apply KeptR.mk <;> try apply Kept.of2) | apply Kept.of2

theorem keep_takeOwner (c ln : Nat) (s0 : State) (h_s0 : Kept pq s0) : Kept pq (takeOwner c ln s0) := by
  unfold takeOwner
  repeat'
    with_reducible first
    | assumption | intro _
    | extract_lets -underBinder +onlyGivenNames x
      first
        | have hx : Kept pq x := by
            try dsimp only [x]
            repeat' (with_reducible first | assumption | fail_if_no_progress beta_reduce | apply keep_draw | apply keep_setLine | apply Kept.ite | fail_if_no_progress (apply KeptR.mk <;> try apply Kept.of2) | apply Kept.of2 | apply Kept.snd (by assumption) | apply KeptR.ite | intro _ | fail_if_no_progress (apply Kept.upd) | split)
        | skip
      try clear_value x
    | fail_if_no_progress beta_reduce | apply keep_draw | apply keep_setLine | apply Kept.ite | fail_if_no_progress (apply KeptR.mk <;> try apply Kept.of2) | apply Kept.of2 | apply Kept.snd (by assumption) | apply KeptR.ite | intro _ | fail_if_no_progress (apply Kept.upd) | split

theorem keep_fillLine (i ln : Nat) (sec fetch : Bool) (ecc : Ecc) (s : State) (h_s : Kept pq s) : KeptR pq (fillLine i ln sec fetch ecc s) := by
  unfold fillLine
  repeat' (with_reducible first | assumption | fail_if_no_progress beta_reduce | apply keep_memRead | apply keep_setLine | apply keep_makeRoom | apply Kept.ite | fail_if_no_progress (apply KeptR.mk <;> try apply Kept.of2) | apply Kept.of2 | apply Kept.snd (by assumption) | apply KeptR.ite | intro _ | fail_if_no_progress (apply Kept.upd) | split)

theorem keep_cacheRefuses (i : Nat) (p : Place) (n : Nat) (write : Bool) (s : State) (h_s : Kept pq s) : KeptR pq (cacheRefuses i p n write s) := by
  unfold cacheRefuses
  repeat' (with_reducible first | assumption | fail_if_no_progress beta_reduce | apply keep_worldCheck | apply Kept.ite | fail_if_no_progress (apply KeptR.mk <;> try apply Kept.of2) | apply Kept.of2 | apply Kept.snd (by assumption) | apply KeptR.ite | intro _)

theorem keep_cacheCheck (i pa : Nat) (ecc : Ecc) (s : State) (h_s : Kept pq s) : KeptR pq (cacheCheck i pa ecc s) := by
  unfold cacheCheck
  repeat'
    with_reducible first
    | assumption | intro _
    | extract_lets -underBinder +onlyGivenNames x
      first
        | have hx : Kept pq x := by
            try dsimp only [x]
            repeat' (with_reducible first | assumption | fail_if_no_progress beta_reduce | apply keep_memErrorIn | apply keep_setLine | apply Kept.ite | fail_if_no_progress (apply KeptR.mk <;> try apply Kept.of2) | apply Kept.of2 | apply Kept.snd (by assumption) | apply KeptR.ite | intro _ | fail_if_no_progress (apply Kept.upd) | split | beta_reduce)
        | skip
      try clear_value x
    | fail_if_no_progress beta_reduce | apply keep_memErrorIn | apply keep_setLine | apply Kept.ite | fail_if_no_progress (apply KeptR.mk <;> try apply Kept.of2) | apply Kept.of2 | apply Kept.snd (by assumption) | apply KeptR.ite | intro _ | fail_if_no_progress (apply Kept.upd) | split

theorem keep_reachLine (i : Nat) (p : Place) (fetch : Bool) (ecc : Ecc) (s : State) (h_s : Kept pq s) : KeptR pq (reachLine i p fetch ecc s) := by
  unfold reachLine
  repeat'
    with_reducible first
    | assumption | intro _
    | extract_lets -underBinder +onlyGivenNames x
      first
        | have hx : Kept pq x := by
            try dsimp only [x]
            repeat' (with_reducible first | assumption | fail_if_no_progress beta_reduce | apply keep_fillLine | apply keep_cacheCheck | apply Kept.ite | fail_if_no_progress (apply KeptR.mk <;> try apply Kept.of2) | apply Kept.of2 | apply Kept.snd (by assumption) | apply KeptR.ite | intro _ | fail_if_no_progress (apply Kept.upd) | split | beta_reduce)
        | skip
      try clear_value x
    | fail_if_no_progress beta_reduce | apply keep_fillLine | apply keep_cacheCheck | apply Kept.ite | fail_if_no_progress (apply KeptR.mk <;> try apply Kept.of2) | apply Kept.of2 | apply Kept.snd (by assumption) | apply KeptR.ite | intro _ | fail_if_no_progress (apply Kept.upd) | split

theorem keep_cacheRead (i : Nat) (p : Place) (n : Nat) (fetch : Bool) (ecc : Ecc) (s : State) (h_s : Kept pq s) : KeptR pq (cacheRead i p n fetch ecc s) := by
  unfold cacheRead
  repeat'
    with_reducible first
    | assumption | intro _
    | extract_lets -underBinder +onlyGivenNames x
      first
        | have hx : Kept pq x := by
            try dsimp only [x]
            repeat' (with_reducible first | assumption | fail_if_no_progress beta_reduce | apply keep_setLine | apply keep_cacheRefuses | apply keep_reachLine | apply Kept.ite | fail_if_no_progress (apply KeptR.mk <;> try apply Kept.of2) | apply Kept.of2 | apply Kept.snd (by assumption) | apply KeptR.ite | intro _)
        | skip
      try clear_value x
    | fail_if_no_progress beta_reduce | apply keep_setLine | apply keep_cacheRefuses | apply keep_reachLine | apply Kept.ite | fail_if_no_progress (apply KeptR.mk <;> try apply Kept.of2) | apply Kept.of2 | apply Kept.snd (by assumption) | apply KeptR.ite | intro _ | fail_if_no_progress (apply Kept.upd) | split

theorem keep_cacheWrite (i : Nat) (p : Place) (bs : List Byte) (ecc : Ecc) (s : State) (h_s : Kept pq s) : KeptR pq (cacheWrite i p bs ecc s) := by
  unfold cacheWrite
  repeat'
    with_reducible first
    | assumption | intro _
    | extract_lets -underBinder +onlyGivenNames x
      first
        | have hx : Kept pq x := by
            try dsimp only [x]
            repeat' (with_reducible first | assumption | fail_if_no_progress beta_reduce | apply keep_clearResv | apply keep_setLine | apply keep_takeOwner | apply keep_cacheRefuses | apply keep_reachLine | apply Kept.ite | fail_if_no_progress (apply KeptR.mk <;> try apply Kept.of2) | apply Kept.of2 | apply Kept.snd (by assumption))
        | skip
      try clear_value x
    | fail_if_no_progress beta_reduce | apply keep_clearResv | apply keep_setLine | apply keep_takeOwner | apply keep_cacheRefuses | apply keep_reachLine | apply Kept.ite | fail_if_no_progress (apply KeptR.mk <;> try apply Kept.of2) | apply Kept.of2 | apply Kept.snd (by assumption) | apply KeptR.ite | intro _ | fail_if_no_progress (apply Kept.upd) | split

theorem keep_readDesc (i a : Nat) (sec : Bool) (ecc : Ecc) (s : State) (h_s : Kept pq s) : KeptR pq (readDesc i a sec ecc s) := by
  unfold readDesc
  repeat' (with_reducible first | assumption | fail_if_no_progress beta_reduce | apply keep_memRead | apply keep_cacheRefuses | apply keep_cacheCheck | apply Kept.ite | fail_if_no_progress (apply KeptR.mk <;> try apply Kept.of2) | apply Kept.of2 | apply Kept.snd (by assumption) | apply KeptR.ite | intro _ | fail_if_no_progress (apply Kept.upd) | split)

theorem keep_walkFrom (i va : Nat) (sec : Bool) (we : Option (Nat × Ecc)) : ∀ (x0 : Nat) (x1 : Nat) (x2 : List WalkEntry) (x3 : State), Kept pq x3 → KeptR pq (walkFrom i va sec we x0 x1 x2 x3)
  | lv, a, seen_, s, h_s => by
    unfold walkFrom
    repeat'
      with_reducible first
      | assumption | intro _
      | extract_lets -underBinder +onlyGivenNames x
        first
          | have hx : Kept pq x := by
              try dsimp only [x]
              repeat' (with_reducible first | assumption | fail_if_no_progress beta_reduce | apply keep_readDesc | apply keep_walkFrom | apply Kept.ite | fail_if_no_progress (apply KeptR.mk <;> try apply Kept.of2) | apply Kept.of2 | apply Kept.snd (by assumption) | apply KeptR.ite | intro _ | fail_if_no_progress (apply Kept.upd) | split | beta_reduce)
          | skip
        try clear_value x
      | fail_if_no_progress beta_reduce | apply keep_readDesc | apply keep_walkFrom | apply Kept.ite | fail_if_no_progress (apply KeptR.mk <;> try apply Kept.of2) | apply Kept.of2 | apply Kept.snd (by assumption) | apply KeptR.ite | intro _ | fail_if_no_progress (apply Kept.upd) | split

theorem keep_putEntry {α : Type} (n : Nat) (x : α) (l : List α) (s : State) (h_s : Kept pq s) : KeptR pq (putEntry n x l s) := by
  unfold putEntry
  repeat' (with_reducible first | assumption | fail_if_no_progress beta_reduce | apply keep_draw | apply Kept.ite | fail_if_no_progress (apply KeptR.mk <;> try apply Kept.of2) | apply Kept.of2 | apply Kept.snd (by assumption) | apply KeptR.ite | intro _)

theorem keep_putTlb (i : Nat) (x : TlbEntry) (s : State) (h_s : Kept pq s) : Kept pq (putTlb i x s) := by
  unfold putTlb
  repeat' (with_reducible first | assumption | fail_if_no_progress beta_reduce | apply keep_setEl | apply keep_putEntry | apply Kept.ite | fail_if_no_progress (apply KeptR.mk <;> try apply Kept.of2) | apply Kept.of2)

theorem keep_putWalks (i : Nat) (ws : List WalkEntry) (s : State) (h_s : Kept pq s) : Kept pq (putWalks i ws s) := by
  unfold putWalks
  repeat' (with_reducible first | assumption | fail_if_no_progress beta_reduce | apply keep_setEl | apply keep_putEntry | apply Kept.ite | fail_if_no_progress (apply KeptR.mk <;> try apply Kept.of2) | apply Kept.of2 | apply Kept.snd (by assumption) | apply KeptR.ite | apply Kept.foldl | apply KeptR.foldl | intro _)

theorem keep_findLeaf (i va : Nat) (we : Option (Nat × Ecc)) (s : State) (h_s : Kept pq s) : KeptR pq (findLeaf i va we s) := by
  unfold findLeaf
  repeat'
    with_reducible first
    | assumption | intro _
    | extract_lets -underBinder +onlyGivenNames x
      first
        | have hx : Kept pq x := by
            try dsimp only [x]
            repeat' (with_reducible first | assumption | fail_if_no_progress beta_reduce | apply keep_draw | apply keep_walkFrom | apply keep_putTlb | apply keep_putWalks | apply Kept.ite | fail_if_no_progress (apply KeptR.mk <;> try apply Kept.of2) | apply Kept.of2 | apply Kept.snd (by assumption) | apply KeptR.ite | intro _ | fail_if_no_progress (apply Kept.upd) | split | beta_reduce)
        | skip
      try clear_value x
    | fail_if_no_progress beta_reduce | apply keep_draw | apply keep_walkFrom | apply keep_putTlb | apply keep_putWalks | apply Kept.ite | fail_if_no_progress (apply KeptR.mk <;> try apply Kept.of2) | apply Kept.of2 | apply Kept.snd (by assumption) | apply KeptR.ite | intro _ | fail_if_no_progress (apply Kept.upd) | split

theorem keep_xlateCore (i : Nat) (k : Acc) (va : Word) (we : Option (Nat × Ecc)) (s : State) (h_s : Kept pq s) : KeptR pq (xlateCore i k va we s) := by
  unfold xlateCore
  repeat'
    with_reducible first
    | assumption | intro _
    | extract_lets -underBinder +onlyGivenNames x
      first
        | have hx : Kept pq x := by
            try dsimp only [x]
            repeat' (with_reducible first | assumption | fail_if_no_progress beta_reduce | apply keep_findLeaf | apply Kept.ite | fail_if_no_progress (apply KeptR.mk <;> try apply Kept.of2) | apply Kept.of2 | apply Kept.snd (by assumption) | apply KeptR.ite | intro _ | fail_if_no_progress (apply Kept.upd) | split | beta_reduce)
        | skip
      try clear_value x
    | fail_if_no_progress beta_reduce | apply keep_findLeaf | apply Kept.ite | fail_if_no_progress (apply KeptR.mk <;> try apply Kept.of2) | apply Kept.of2 | apply Kept.snd (by assumption) | apply KeptR.ite | intro _ | fail_if_no_progress (apply Kept.upd) | split

theorem keep_xlate (i : Nat) (k : Acc) (va : Word) (we : Option (Nat × Ecc)) (s : State) (h_s : Kept pq s) : KeptR pq (xlate i k va we s) := by
  unfold xlate
  repeat' (with_reducible first | assumption | fail_if_no_progress beta_reduce | apply keep_xlateCore | apply Kept.ite | fail_if_no_progress (apply KeptR.mk <;> try apply Kept.of2) | apply Kept.of2 | apply Kept.snd (by assumption) | apply KeptR.ite | intro _)

theorem keep_specWalk (i va : Nat) (s : State) (h_s : Kept pq s) : Kept pq (specWalk i va s) := by
  unfold specWalk
  repeat' (with_reducible first | assumption | fail_if_no_progress beta_reduce | apply keep_findLeaf | apply Kept.ite | fail_if_no_progress (apply KeptR.mk <;> try apply Kept.of2) | apply Kept.of2 | apply Kept.snd (by assumption) | apply KeptR.ite | intro _ | fail_if_no_progress (apply Kept.upd) | split)

theorem keep_specFill (i ln : Nat) (s : State) (h_s : Kept pq s) : Kept pq (specFill i ln s) := by
  unfold specFill
  repeat'
    with_reducible first
    | assumption | intro _
    | extract_lets -underBinder +onlyGivenNames x
      first
        | have hx : Kept pq x := by
            try dsimp only [x]
            repeat' (with_reducible first | assumption | fail_if_no_progress beta_reduce | apply keep_fillLine | apply Kept.ite | fail_if_no_progress (apply KeptR.mk <;> try apply Kept.of2) | apply Kept.of2 | apply Kept.snd (by assumption) | apply KeptR.ite | intro _ | fail_if_no_progress (apply Kept.upd) | split | beta_reduce)
        | skip
      try clear_value x
    | fail_if_no_progress beta_reduce | apply keep_fillLine | apply Kept.ite | fail_if_no_progress (apply KeptR.mk <;> try apply Kept.of2) | apply Kept.of2 | apply Kept.snd (by assumption) | apply KeptR.ite | intro _ | fail_if_no_progress (apply Kept.upd) | split

theorem keep_instrFill (i ln : Nat) (s : State) (h_s : Kept pq s) : Kept pq (instrFill i ln s) := by
  unfold instrFill
  repeat'
    with_reducible first
    | assumption | intro _
    | extract_lets -underBinder +onlyGivenNames x
      first
        | have hx : Kept pq x := by
            try dsimp only [x]
            repeat' (with_reducible first | assumption | fail_if_no_progress beta_reduce | apply keep_setEl | apply keep_draw | apply Kept.ite | fail_if_no_progress (apply KeptR.mk <;> try apply Kept.of2) | apply Kept.of2 | apply Kept.snd (by assumption) | apply KeptR.ite | intro _ | fail_if_no_progress (apply Kept.upd) | split | beta_reduce)
        | skip
      try clear_value x
    | fail_if_no_progress beta_reduce | apply keep_setEl | apply keep_draw | apply Kept.ite | fail_if_no_progress (apply KeptR.mk <;> try apply Kept.of2) | apply Kept.of2

theorem keep_applyObs (i : Nat) (o : Obs) (s : State) (h_s : Kept pq s) : Kept pq (applyObs i o s) := by
  unfold applyObs
  repeat'
    with_reducible first
    | assumption | intro _
    | extract_lets -underBinder +onlyGivenNames x
      first
        | have hx : Kept pq x := by
            try dsimp only [x]
            repeat' (with_reducible first | assumption | fail_if_no_progress beta_reduce | apply keep_evictLine | apply keep_specWalk | apply keep_specFill | apply keep_instrFill | apply Kept.ite | apply Kept.foldl | intro _)
      try clear_value x
    | fail_if_no_progress beta_reduce | apply keep_evictLine | apply keep_specWalk | apply keep_specFill | apply keep_instrFill | apply Kept.ite | apply Kept.foldl

theorem keep_landStore (i : Nat) (p : Posted) (s : State) (h_s : Kept pq s) : KeptR pq (landStore i p s) := by
  unfold landStore
  repeat'
    with_reducible first
    | assumption | intro _
    | extract_lets -underBinder +onlyGivenNames x
      first
        | have hx : Kept pq x := by
            try dsimp only [x]
            repeat' (with_reducible first | assumption | fail_if_no_progress beta_reduce | apply keep_memWrite | apply keep_mmioWrite | apply keep_meetStore | apply Kept.ite | fail_if_no_progress (apply KeptR.mk <;> try apply Kept.of2) | apply Kept.of2 | apply Kept.snd (by assumption) | apply KeptR.ite | intro _ | fail_if_no_progress (apply Kept.upd) | split | beta_reduce)
        | skip
      try clear_value x
    | fail_if_no_progress beta_reduce | apply keep_memWrite | apply keep_mmioWrite | apply keep_meetStore | apply Kept.ite | fail_if_no_progress (apply KeptR.mk <;> try apply Kept.of2) | apply Kept.of2 | apply Kept.snd (by assumption) | apply KeptR.ite | intro _ | fail_if_no_progress (apply Kept.upd) | split

theorem keep_noteError (i : Nat) (p : Posted) (err : BusErr) (s : State) (h_s : Kept pq s) : Kept pq (noteError i p err s) := by
  unfold noteError
  repeat' (with_reducible first | assumption | fail_if_no_progress beta_reduce | apply keep_setEl | apply Kept.ite | intro _)

theorem keep_landNth (i k : Nat) (s : State) (h_s : Kept pq s) : Kept pq (landNth i k s) := by
  unfold landNth
  repeat' (with_reducible first | assumption | fail_if_no_progress beta_reduce | apply keep_setEl | apply keep_landStore | apply keep_noteError | apply Kept.ite | fail_if_no_progress (apply KeptR.mk <;> try apply Kept.of2) | apply Kept.of2 | apply Kept.snd (by assumption) | apply KeptR.ite | intro _ | fail_if_no_progress (apply Kept.upd) | split)

theorem keep_drainAll (i : Nat) : ∀ (x0 : Nat) (x1 : State), Kept pq x1 → Kept pq (drainAll i x0 x1)
  | 0, s, h_s => by
    unfold drainAll
    repeat' (with_reducible first | assumption)
  | n + 1, s, h_s => by
    unfold drainAll
    repeat' (with_reducible first | assumption | fail_if_no_progress beta_reduce | apply keep_landNth | apply keep_drainAll | apply Kept.ite | intro _)

theorem keep_drainFor (i a n : Nat) (s : State) (h_s : Kept pq s) : Kept pq (drainFor i a n s) := by
  unfold drainFor
  extract_lets q must
  exact Kept.of2 (KeptR.foldl (KeptR.mk h_s) (fun x b h =>
    KeptR.ite (fun _ => KeptR.mk (keep_landNth _ _ _ h)) (fun _ => KeptR.mk h)))

theorem keep_unitFires (i k reason : Nat) (s : State) (h_s : Kept pq s) : Kept pq (unitFires i k reason s) := by
  unfold unitFires
  repeat'
    with_reducible first
    | assumption | intro _
    | extract_lets -underBinder +onlyGivenNames x
      first
        | have hx : Kept pq x := by
            try dsimp only [x]
            repeat' (with_reducible first | assumption | fail_if_no_progress beta_reduce | apply keep_setRg | apply keep_setRgBit | apply keep_wantHalt | apply Kept.ite | intro _ | fail_if_no_progress (apply Kept.upd))
        | skip
      try clear_value x
    | fail_if_no_progress beta_reduce | apply keep_setRg | apply keep_setRgBit | apply keep_wantHalt | apply Kept.ite

theorem keep_watchAccess (i : Nat) (store_ : Bool) (p : Place) (n : Nat) (s : State) (h_s : Kept pq s) : Kept pq (watchAccess i store_ p n s) := by
  unfold watchAccess
  repeat'
    with_reducible first
    | assumption | intro _
    | extract_lets -underBinder +onlyGivenNames x
      first
        | have hx : Kept pq x := by
            try dsimp only [x]
            repeat' (with_reducible first | assumption | fail_if_no_progress beta_reduce | apply keep_unitFires | apply Kept.ite | intro _ | fail_if_no_progress (apply Kept.upd) | split | beta_reduce)
        | skip
      try clear_value x
    | fail_if_no_progress beta_reduce | apply keep_unitFires | apply Kept.ite | intro _ | fail_if_no_progress (apply Kept.upd) | split

theorem keep_breakFetch (i : Nat) (p : Place) (s : State) (h_s : Kept pq s) : Kept pq (breakFetch i p s) := by
  unfold breakFetch
  repeat' (with_reducible first | assumption | fail_if_no_progress beta_reduce | apply keep_unitFires | apply Kept.ite | intro _ | fail_if_no_progress (apply Kept.upd) | split)

theorem keep_loadAt (i n : Nat) (p : Place) (ecc : Ecc) (s0 : State) (h_s0 : Kept pq s0) :
    KeptR pq (loadAt i n p ecc s0) := by
  unfold loadAt
  extract_lets s
  have hs : Kept pq s := keep_drainFor _ _ _ _ h_s0
  clear_value s
  refine KeptR.ite (fun _ => KeptR.mk hs) (fun _ => KeptR.ite (fun _ => ?_) (fun _ => KeptR.ite
    (fun _ => keep_cacheRead _ _ _ _ _ _ hs) (fun _ => keep_memRead _ _ _ _ _ _ (keep_meetLoad _ _ _ hs))))
  have h := keep_mmioRead (elemMaster i p.sec) p.pa n s hs
  generalize mmioRead (elemMaster i p.sec) p.pa n s = x at h ⊢
  obtain ⟨r, s1⟩ := x
  cases r <;> exact h

theorem keep_storeAt (i : Nat) (p : Place) (va : Word) (bs : List Byte) (ecc : Ecc) (s : State) (h_s : Kept pq s) : KeptR pq (storeAt i p va bs ecc s) := by
  unfold storeAt
  repeat'
    with_reducible first
    | assumption | intro _
    | extract_lets -underBinder +onlyGivenNames x
      first
        | have hx : Kept pq x := by
            try dsimp only [x]
            repeat' (with_reducible first | assumption | fail_if_no_progress beta_reduce | apply keep_setEl | apply keep_memWrite | apply keep_cacheWrite | apply keep_landNth | apply keep_drainFor | apply Kept.ite | fail_if_no_progress (apply KeptR.mk <;> try apply Kept.of2) | apply Kept.of2 | apply Kept.snd (by assumption) | apply KeptR.ite | intro _)
        | skip
      try clear_value x
    | fail_if_no_progress beta_reduce | apply keep_setEl | apply keep_memWrite | apply keep_cacheWrite | apply keep_landNth | apply keep_drainFor | apply Kept.ite | fail_if_no_progress (apply KeptR.mk <;> try apply Kept.of2) | apply Kept.of2 | apply Kept.snd (by assumption) | apply KeptR.ite

theorem keep_loadVa (i n : Nat) (va : Word) (o : Obs) (s : State) (h_s : Kept pq s) : KeptR pq (loadVa i n va o s) := by
  unfold loadVa
  repeat' (with_reducible first | assumption | fail_if_no_progress beta_reduce | apply keep_xlate | apply keep_applyObs | apply keep_watchAccess | apply keep_loadAt | apply Kept.ite | fail_if_no_progress (apply KeptR.mk <;> try apply Kept.of2) | apply Kept.of2 | apply Kept.snd (by assumption) | apply KeptR.ite | intro _ | fail_if_no_progress (apply Kept.upd) | split)

theorem keep_storeVa (i : Nat) (va : Word) (bs : List Byte) (o : Obs) (s : State) (h_s : Kept pq s) : KeptR pq (storeVa i va bs o s) := by
  unfold storeVa
  repeat' (with_reducible first | assumption | fail_if_no_progress beta_reduce | apply keep_store | apply keep_xlate | apply keep_applyObs | apply keep_watchAccess | apply keep_storeAt | apply Kept.ite | fail_if_no_progress (apply KeptR.mk <;> try apply Kept.of2) | apply Kept.of2 | apply Kept.snd (by assumption) | apply KeptR.ite | intro _ | fail_if_no_progress (apply Kept.upd) | split)

theorem keep_loadBank (i n k off : Nat) (ecc : Ecc) (s : State) (h_s : Kept pq s) : KeptR pq (loadBank i n k off ecc s) := by
  unfold loadBank
  repeat' (with_reducible first | assumption | fail_if_no_progress beta_reduce | apply keep_memRead | apply keep_watchAccess | apply Kept.ite | fail_if_no_progress (apply KeptR.mk <;> try apply Kept.of2) | apply Kept.of2 | apply Kept.snd (by assumption) | apply KeptR.ite | intro _ | fail_if_no_progress (apply Kept.upd) | split)

theorem keep_storeBank (i k off : Nat) (bs : List Byte) (ecc : Ecc) (s : State) (h_s : Kept pq s) : KeptR pq (storeBank i k off bs ecc s) := by
  unfold storeBank
  repeat' (with_reducible first | assumption | fail_if_no_progress beta_reduce | apply keep_memWrite | apply keep_watchAccess | apply Kept.ite | fail_if_no_progress (apply KeptR.mk <;> try apply Kept.of2) | apply Kept.of2 | apply Kept.snd (by assumption) | apply KeptR.ite | intro _ | fail_if_no_progress (apply Kept.upd) | split)

end Sys2Proof.Machine
end

