-- ==== Sys2Proof/Laws/KeepAlu.lean ====
section
/-! SUPPORT. What the functions of `Alu` keep: the queue, and the canonical form of memory and registers. -/

namespace Sys2Proof.Machine

variable {pq : List Instr}

theorem keep_execAdd (e : Elem) (f : AluForm) (s : State) (h_s : Kept pq s) : KeptX pq (execAdd e f s) := by
  unfold execAdd
  repeat' (with_reducible first | assumption | fail_if_no_progress beta_reduce | apply keep_aluInstr | apply Kept.ite | apply KeptX.next)

theorem keep_execSub (e : Elem) (f : AluForm) (s : State) (h_s : Kept pq s) : KeptX pq (execSub e f s) := by
  unfold execSub
  repeat' (with_reducible first | assumption | fail_if_no_progress beta_reduce | apply keep_aluInstr | apply Kept.ite | apply KeptX.next)

theorem keep_execAnd (e : Elem) (f : AluForm) (s : State) (h_s : Kept pq s) : KeptX pq (execAnd e f s) := by
  unfold execAnd
  repeat' (with_reducible first | assumption | fail_if_no_progress beta_reduce | apply keep_aluInstr | apply Kept.ite | apply KeptX.next)

theorem keep_execOr (e : Elem) (f : AluForm) (s : State) (h_s : Kept pq s) : KeptX pq (execOr e f s) := by
  unfold execOr
  repeat' (with_reducible first | assumption | fail_if_no_progress beta_reduce | apply keep_aluInstr | apply Kept.ite | apply KeptX.next)

theorem keep_execXor (e : Elem) (f : AluForm) (s : State) (h_s : Kept pq s) : KeptX pq (execXor e f s) := by
  unfold execXor
  repeat' (with_reducible first | assumption | fail_if_no_progress beta_reduce | apply keep_aluInstr | apply Kept.ite | apply KeptX.next)

theorem keep_execLsl (e : Elem) (f : AluForm) (s : State) (h_s : Kept pq s) : KeptX pq (execLsl e f s) := by
  unfold execLsl
  repeat' (with_reducible first | assumption | fail_if_no_progress beta_reduce | apply keep_aluInstr | apply Kept.ite | apply KeptX.next)

theorem keep_execLsr (e : Elem) (f : AluForm) (s : State) (h_s : Kept pq s) : KeptX pq (execLsr e f s) := by
  unfold execLsr
  repeat' (with_reducible first | assumption | fail_if_no_progress beta_reduce | apply keep_aluInstr | apply Kept.ite | apply KeptX.next)

theorem keep_execAsr (e : Elem) (f : AluForm) (s : State) (h_s : Kept pq s) : KeptX pq (execAsr e f s) := by
  unfold execAsr
  repeat' (with_reducible first | assumption | fail_if_no_progress beta_reduce | apply keep_aluInstr | apply Kept.ite | apply KeptX.next)

theorem keep_execMul (e : Elem) (f : AluForm) (s : State) (h_s : Kept pq s) : KeptX pq (execMul e f s) := by
  unfold execMul
  repeat' (with_reducible first | assumption | fail_if_no_progress beta_reduce | apply keep_aluInstr | apply Kept.ite | apply KeptX.next)

theorem keep_execAdc (e : Elem) (rd ra rb : BitVec 5) (S : Bool) (s : State) (h_s : Kept pq s) : KeptX pq (execAdc e rd ra rb S s) := by
  unfold execAdc
  repeat' (with_reducible first | assumption | fail_if_no_progress beta_reduce | apply keep_r32Instr | apply Kept.ite | apply KeptX.next)

theorem keep_execSbc (e : Elem) (rd ra rb : BitVec 5) (S : Bool) (s : State) (h_s : Kept pq s) : KeptX pq (execSbc e rd ra rb S s) := by
  unfold execSbc
  repeat' (with_reducible first | assumption | fail_if_no_progress beta_reduce | apply keep_r32Instr | apply Kept.ite | apply KeptX.next)

theorem keep_execAndn (e : Elem) (rd ra rb : BitVec 5) (S : Bool) (s : State) (h_s : Kept pq s) : KeptX pq (execAndn e rd ra rb S s) := by
  unfold execAndn
  repeat' (with_reducible first | assumption | fail_if_no_progress beta_reduce | apply keep_r32Instr | apply Kept.ite | apply KeptX.next)

theorem keep_execRor (e : Elem) (rd ra rb : BitVec 5) (S : Bool) (s : State) (h_s : Kept pq s) : KeptX pq (execRor e rd ra rb S s) := by
  unfold execRor
  repeat' (with_reducible first | assumption | fail_if_no_progress beta_reduce | apply keep_r32Instr | apply Kept.ite | apply KeptX.next)

theorem keep_execMulhs (e : Elem) (rd ra rb : BitVec 5) (S : Bool) (s : State) (h_s : Kept pq s) : KeptX pq (execMulhs e rd ra rb S s) := by
  unfold execMulhs
  repeat' (with_reducible first | assumption | fail_if_no_progress beta_reduce | apply keep_r32Instr | apply Kept.ite | apply KeptX.next)

theorem keep_execMulhu (e : Elem) (rd ra rb : BitVec 5) (S : Bool) (s : State) (h_s : Kept pq s) : KeptX pq (execMulhu e rd ra rb S s) := by
  unfold execMulhu
  repeat' (with_reducible first | assumption | fail_if_no_progress beta_reduce | apply keep_r32Instr | apply Kept.ite | apply KeptX.next)

theorem keep_execMin (e : Elem) (rd ra rb : BitVec 5) (S : Bool) (s : State) (h_s : Kept pq s) : KeptX pq (execMin e rd ra rb S s) := by
  unfold execMin
  repeat' (with_reducible first | assumption | fail_if_no_progress beta_reduce | apply keep_r32Instr | apply Kept.ite | apply KeptX.next)

theorem keep_execMax (e : Elem) (rd ra rb : BitVec 5) (S : Bool) (s : State) (h_s : Kept pq s) : KeptX pq (execMax e rd ra rb S s) := by
  unfold execMax
  repeat' (with_reducible first | assumption | fail_if_no_progress beta_reduce | apply keep_r32Instr | apply Kept.ite | apply KeptX.next)

theorem keep_execMinu (e : Elem) (rd ra rb : BitVec 5) (S : Bool) (s : State) (h_s : Kept pq s) : KeptX pq (execMinu e rd ra rb S s) := by
  unfold execMinu
  repeat' (with_reducible first | assumption | fail_if_no_progress beta_reduce | apply keep_r32Instr | apply Kept.ite | apply KeptX.next)

theorem keep_execMaxu (e : Elem) (rd ra rb : BitVec 5) (S : Bool) (s : State) (h_s : Kept pq s) : KeptX pq (execMaxu e rd ra rb S s) := by
  unfold execMaxu
  repeat' (with_reducible first | assumption | fail_if_no_progress beta_reduce | apply keep_r32Instr | apply Kept.ite | apply KeptX.next)

theorem keep_execSlt (e : Elem) (rd ra rb : BitVec 5) (S : Bool) (s : State) (h_s : Kept pq s) : KeptX pq (execSlt e rd ra rb S s) := by
  unfold execSlt
  repeat' (with_reducible first | assumption | fail_if_no_progress beta_reduce | apply keep_r32Instr | apply Kept.ite | apply KeptX.next)

theorem keep_execSltu (e : Elem) (rd ra rb : BitVec 5) (S : Bool) (s : State) (h_s : Kept pq s) : KeptX pq (execSltu e rd ra rb S s) := by
  unfold execSltu
  repeat' (with_reducible first | assumption | fail_if_no_progress beta_reduce | apply keep_r32Instr | apply Kept.ite | apply KeptX.next)

theorem keep_execAddsat (e : Elem) (rd ra rb : BitVec 5) (S : Bool) (s : State) (h_s : Kept pq s) : KeptX pq (execAddsat e rd ra rb S s) := by
  unfold execAddsat
  repeat' (with_reducible first | assumption | fail_if_no_progress beta_reduce | apply keep_r32Instr | apply Kept.ite | apply KeptX.next)

theorem keep_execSubsat (e : Elem) (rd ra rb : BitVec 5) (S : Bool) (s : State) (h_s : Kept pq s) : KeptX pq (execSubsat e rd ra rb S s) := by
  unfold execSubsat
  repeat' (with_reducible first | assumption | fail_if_no_progress beta_reduce | apply keep_r32Instr | apply Kept.ite | apply KeptX.next)

theorem keep_execClz (e : Elem) (rd ra : BitVec 5) (S : Bool) (s : State) (h_s : Kept pq s) : KeptX pq (execClz e rd ra S s) := by
  unfold execClz
  repeat' (with_reducible first | assumption | fail_if_no_progress beta_reduce | apply keep_r32Instr | apply Kept.ite | apply KeptX.next)

theorem keep_execDiv (e : Elem) (rd ra rb : BitVec 5) (S abandoned : Bool) (s : State) (h_s : Kept pq s) : KeptX pq (execDiv e rd ra rb S abandoned s) := by
  unfold execDiv
  repeat' (with_reducible first | assumption | fail_if_no_progress beta_reduce | apply keep_divInstr | apply Kept.ite | apply KeptX.next)

theorem keep_execDivu (e : Elem) (rd ra rb : BitVec 5) (S abandoned : Bool) (s : State) (h_s : Kept pq s) : KeptX pq (execDivu e rd ra rb S abandoned s) := by
  unfold execDivu
  repeat' (with_reducible first | assumption | fail_if_no_progress beta_reduce | apply keep_divInstr | apply Kept.ite | apply KeptX.next)

theorem keep_execRem (e : Elem) (rd ra rb : BitVec 5) (S abandoned : Bool) (s : State) (h_s : Kept pq s) : KeptX pq (execRem e rd ra rb S abandoned s) := by
  unfold execRem
  repeat' (with_reducible first | assumption | fail_if_no_progress beta_reduce | apply keep_divInstr | apply Kept.ite | apply KeptX.next)

theorem keep_execRemu (e : Elem) (rd ra rb : BitVec 5) (S abandoned : Bool) (s : State) (h_s : Kept pq s) : KeptX pq (execRemu e rd ra rb S abandoned s) := by
  unfold execRemu
  repeat' (with_reducible first | assumption | fail_if_no_progress beta_reduce | apply keep_divInstr | apply Kept.ite | apply KeptX.next)

theorem keep_execAddi (e : Elem) (f : ImmForm) (s : State) (h_s : Kept pq s) : KeptX pq (execAddi e f s) := by
  unfold execAddi
  repeat' (with_reducible first | assumption | fail_if_no_progress beta_reduce | apply keep_regInstr | apply keep_i32Instr | apply Kept.ite | apply KeptX.next | apply KeptX.ite | intro _ | fail_if_no_progress (apply Kept.upd) | split)

theorem keep_execAndi (e : Elem) (rd ra : BitVec 5) (imm : BitVec 14) (s : State) (h_s : Kept pq s) : KeptX pq (execAndi e rd ra imm s) := by
  unfold execAndi
  repeat' (with_reducible first | assumption | fail_if_no_progress beta_reduce | apply keep_i32Instr | apply Kept.ite | apply KeptX.next)

theorem keep_execOri (e : Elem) (rd ra : BitVec 5) (imm : BitVec 14) (s : State) (h_s : Kept pq s) : KeptX pq (execOri e rd ra imm s) := by
  unfold execOri
  repeat' (with_reducible first | assumption | fail_if_no_progress beta_reduce | apply keep_i32Instr | apply Kept.ite | apply KeptX.next)

theorem keep_execXori (e : Elem) (rd ra : BitVec 5) (imm : BitVec 14) (s : State) (h_s : Kept pq s) : KeptX pq (execXori e rd ra imm s) := by
  unfold execXori
  repeat' (with_reducible first | assumption | fail_if_no_progress beta_reduce | apply keep_i32Instr | apply Kept.ite | apply KeptX.next)

theorem keep_execLsli (e : Elem) (f : ShiftForm) (s : State) (h_s : Kept pq s) : KeptX pq (execLsli e f s) := by
  unfold execLsli
  repeat' (with_reducible first | assumption | fail_if_no_progress beta_reduce | apply keep_shiftInstr | apply Kept.ite | apply KeptX.next)

theorem keep_execLsri (e : Elem) (f : ShiftForm) (s : State) (h_s : Kept pq s) : KeptX pq (execLsri e f s) := by
  unfold execLsri
  repeat' (with_reducible first | assumption | fail_if_no_progress beta_reduce | apply keep_shiftInstr | apply Kept.ite | apply KeptX.next)

theorem keep_execAsri (e : Elem) (f : ShiftForm) (s : State) (h_s : Kept pq s) : KeptX pq (execAsri e f s) := by
  unfold execAsri
  repeat' (with_reducible first | assumption | fail_if_no_progress beta_reduce | apply keep_shiftInstr | apply Kept.ite | apply KeptX.next)

theorem keep_execRori (e : Elem) (rd ra : BitVec 5) (n : BitVec 5) (s : State) (h_s : Kept pq s) : KeptX pq (execRori e rd ra n s) := by
  unfold execRori
  repeat' (with_reducible first | assumption | fail_if_no_progress beta_reduce | apply keep_shiftInstr | apply Kept.ite | apply KeptX.next)

theorem keep_execCmpi (e : Elem) (f : CmpForm) (s : State) (h_s : Kept pq s) : KeptX pq (execCmpi e f s) := by
  unfold execCmpi
  repeat' (with_reducible first | assumption | fail_if_no_progress beta_reduce | apply keep_regInstr | apply Kept.ite | apply KeptX.next | apply KeptX.ite | intro _ | fail_if_no_progress (apply Kept.upd) | split)

theorem keep_execTsti (e : Elem) (ra : BitVec 5) (imm : BitVec 14) (s : State) (h_s : Kept pq s) : KeptX pq (execTsti e ra imm s) := by
  unfold execTsti
  repeat' (with_reducible first | assumption | fail_if_no_progress beta_reduce | apply keep_regInstr | apply Kept.ite | apply KeptX.next)

theorem keep_execMovh (e : Elem) (rd : BitVec 5) (k : BitVec 19) (s : State) (h_s : Kept pq s) : KeptX pq (execMovh e rd k s) := by
  unfold execMovh
  repeat' (with_reducible first | assumption | fail_if_no_progress beta_reduce | apply keep_regInstr | apply Kept.ite | apply KeptX.next)

theorem keep_execAdrh (e : Elem) (rd : BitVec 5) (k : BitVec 19) (s : State) (h_s : Kept pq s) : KeptX pq (execAdrh e rd k s) := by
  unfold execAdrh
  repeat' (with_reducible first | assumption | fail_if_no_progress beta_reduce | apply keep_regInstr | apply Kept.ite | apply KeptX.next)

theorem keep_execMov (e : Elem) (rd rs : BitVec 4) (s : State) (h_s : Kept pq s) : KeptX pq (execMov e rd rs s) := by
  unfold execMov
  repeat' (with_reducible first | assumption | fail_if_no_progress beta_reduce | apply keep_rrInstr | apply Kept.ite | apply KeptX.next)

theorem keep_execMovi (e : Elem) (rd : BitVec 4) (u : BitVec 8) (s : State) (h_s : Kept pq s) : KeptX pq (execMovi e rd u s) := by
  unfold execMovi
  repeat' (with_reducible first | assumption | fail_if_no_progress beta_reduce | apply keep_regInstr | apply Kept.ite | apply KeptX.next)

theorem keep_execNot (e : Elem) (rd rs : BitVec 4) (s : State) (h_s : Kept pq s) : KeptX pq (execNot e rd rs s) := by
  unfold execNot
  repeat' (with_reducible first | assumption | fail_if_no_progress beta_reduce | apply keep_rrInstr | apply Kept.ite | apply KeptX.next)

theorem keep_execNeg (e : Elem) (rd rs : BitVec 4) (s : State) (h_s : Kept pq s) : KeptX pq (execNeg e rd rs s) := by
  unfold execNeg
  repeat' (with_reducible first | assumption | fail_if_no_progress beta_reduce | apply keep_rrInstr | apply Kept.ite | apply KeptX.next)

theorem keep_execCmp (e : Elem) (rd rs : BitVec 4) (s : State) (h_s : Kept pq s) : KeptX pq (execCmp e rd rs s) := by
  unfold execCmp
  repeat' (with_reducible first | assumption | fail_if_no_progress beta_reduce | apply keep_regInstr | apply Kept.ite | apply KeptX.next)

theorem keep_execTst (e : Elem) (rd rs : BitVec 4) (s : State) (h_s : Kept pq s) : KeptX pq (execTst e rd rs s) := by
  unfold execTst
  repeat' (with_reducible first | assumption | fail_if_no_progress beta_reduce | apply keep_regInstr | apply Kept.ite | apply KeptX.next)

theorem keep_execSextb (e : Elem) (rd rs : BitVec 4) (s : State) (h_s : Kept pq s) : KeptX pq (execSextb e rd rs s) := by
  unfold execSextb
  repeat' (with_reducible first | assumption | fail_if_no_progress beta_reduce | apply keep_rrInstr | apply Kept.ite | apply KeptX.next)

theorem keep_execSexth (e : Elem) (rd rs : BitVec 4) (s : State) (h_s : Kept pq s) : KeptX pq (execSexth e rd rs s) := by
  unfold execSexth
  repeat' (with_reducible first | assumption | fail_if_no_progress beta_reduce | apply keep_rrInstr | apply Kept.ite | apply KeptX.next)

theorem keep_execZextb (e : Elem) (rd rs : BitVec 4) (s : State) (h_s : Kept pq s) : KeptX pq (execZextb e rd rs s) := by
  unfold execZextb
  repeat' (with_reducible first | assumption | fail_if_no_progress beta_reduce | apply keep_rrInstr | apply Kept.ite | apply KeptX.next)

theorem keep_execZexth (e : Elem) (rd rs : BitVec 4) (s : State) (h_s : Kept pq s) : KeptX pq (execZexth e rd rs s) := by
  unfold execZexth
  repeat' (with_reducible first | assumption | fail_if_no_progress beta_reduce | apply keep_rrInstr | apply Kept.ite | apply KeptX.next)

theorem keep_execNop (e : Elem) (s : State) (h_s : Kept pq s) : KeptX pq (execNop e s) := by
  unfold execNop
  repeat' (with_reducible first | assumption | fail_if_no_progress beta_reduce | apply keep_runInstr | apply Kept.ite | apply KeptO.done | apply KeptO.ended | apply KeptO.jump | apply KeptO.trap | apply KeptO.hold | apply KeptO.ite | apply KeptX.next)

end Sys2Proof.Machine
end

