-- ==== Sys2Proof/Laws/KeepLoadStore.lean ====
section
/-! SUPPORT. What the functions of `LoadStore` keep: the queue, and the canonical form of memory and registers. -/

namespace Sys2Proof.Machine

variable {pq : List Instr}

theorem keep_putGr (i n : Nat) (v : Word) (s : State) (h_s : Kept pq s) : Kept pq (putGr i n v s) := by
  unfold putGr
  repeat' (with_reducible first | assumption | fail_if_no_progress beta_reduce | apply keep_setRset)

theorem keep_loadBody (i : Nat) (ns : List (BitVec 5)) (rd ra n : Nat) (signed : Bool) (imm : Word) (o : Obs) (s : State) (h_s : Kept pq s) : KeptO pq (loadBody i ns rd ra n signed imm o s) := by
  unfold loadBody
  repeat' (with_reducible first | assumption | fail_if_no_progress beta_reduce | apply keep_loadVa | apply keep_putGr | apply Kept.ite | fail_if_no_progress (apply KeptR.mk <;> try apply Kept.of2) | apply Kept.of2 | apply Kept.snd (by assumption) | apply KeptR.ite | apply KeptO.done | apply KeptO.ended | apply KeptO.jump | apply KeptO.trap | apply KeptO.hold | apply KeptO.ite | intro _ | fail_if_no_progress (apply Kept.upd) | split)

theorem keep_loadPostBody (i : Nat) (rd ra : BitVec 5) (n : Nat) (signed : Bool) (imm : Word) (o : Obs) (s : State) (h_s : Kept pq s) : KeptO pq (loadPostBody i rd ra n signed imm o s) := by
  unfold loadPostBody
  repeat'
    with_reducible first
    | assumption | intro _
    | extract_lets -underBinder +onlyGivenNames x
      first
        | have hx : Kept pq x := by
            try dsimp only [x]
            repeat' (with_reducible first | assumption | fail_if_no_progress beta_reduce | apply keep_loadVa | apply keep_putGr | apply Kept.ite | fail_if_no_progress (apply KeptR.mk <;> try apply Kept.of2) | apply Kept.of2 | apply Kept.snd (by assumption) | apply KeptR.ite | apply KeptO.done | apply KeptO.ended | apply KeptO.jump | apply KeptO.trap | apply KeptO.hold | apply KeptO.ite | intro _ | fail_if_no_progress (apply Kept.upd) | split | beta_reduce)
        | skip
      try clear_value x
    | fail_if_no_progress beta_reduce | apply keep_loadVa | apply keep_putGr | apply Kept.ite | fail_if_no_progress (apply KeptR.mk <;> try apply Kept.of2) | apply Kept.of2 | apply Kept.snd (by assumption) | apply KeptR.ite | apply KeptO.done | apply KeptO.ended | apply KeptO.jump | apply KeptO.trap | apply KeptO.hold | apply KeptO.ite | intro _ | fail_if_no_progress (apply Kept.upd) | split

theorem keep_storeBody (i : Nat) (ns : List (BitVec 5)) (rd ra n : Nat) (imm : Word) (o : Obs) (s : State) (h_s : Kept pq s) : KeptO pq (storeBody i ns rd ra n imm o s) := by
  unfold storeBody
  repeat' (with_reducible first | assumption | fail_if_no_progress beta_reduce | apply keep_storeVa | apply Kept.ite | fail_if_no_progress (apply KeptR.mk <;> try apply Kept.of2) | apply Kept.of2 | apply Kept.snd (by assumption) | apply KeptR.ite | apply KeptO.done | apply KeptO.ended | apply KeptO.jump | apply KeptO.trap | apply KeptO.hold | apply KeptO.ite | intro _ | fail_if_no_progress (apply Kept.upd) | split)

theorem keep_storePostBody (i : Nat) (rd ra : BitVec 5) (n : Nat) (imm : Word) (o : Obs) (s : State) (h_s : Kept pq s) : KeptO pq (storePostBody i rd ra n imm o s) := by
  unfold storePostBody
  repeat'
    with_reducible first
    | assumption | intro _
    | extract_lets -underBinder +onlyGivenNames x
      first
        | have hx : Kept pq x := by
            try dsimp only [x]
            repeat' (with_reducible first | assumption | fail_if_no_progress beta_reduce | apply keep_storeVa | apply keep_putGr | apply Kept.ite | fail_if_no_progress (apply KeptR.mk <;> try apply Kept.of2) | apply Kept.of2 | apply Kept.snd (by assumption) | apply KeptR.ite | apply KeptO.done | apply KeptO.ended | apply KeptO.jump | apply KeptO.trap | apply KeptO.hold | apply KeptO.ite | intro _ | fail_if_no_progress (apply Kept.upd) | split | beta_reduce)
        | skip
      try clear_value x
    | fail_if_no_progress beta_reduce | apply keep_storeVa | apply keep_putGr | apply Kept.ite | fail_if_no_progress (apply KeptR.mk <;> try apply Kept.of2) | apply Kept.of2 | apply Kept.snd (by assumption) | apply KeptR.ite | apply KeptO.done | apply KeptO.ended | apply KeptO.jump | apply KeptO.trap | apply KeptO.hold | apply KeptO.ite | intro _ | fail_if_no_progress (apply Kept.upd) | split

theorem keep_loadKBody (i : Nat) (rd : BitVec 5) (sel : Option Nat) (n : Nat) (signed : Bool) (off : Nat) (o : Obs) (s : State) (h_s : Kept pq s) : KeptO pq (loadKBody i rd sel n signed off o s) := by
  unfold loadKBody
  repeat' (with_reducible first | assumption | fail_if_no_progress beta_reduce | apply keep_loadBank | apply keep_putGr | apply Kept.ite | fail_if_no_progress (apply KeptR.mk <;> try apply Kept.of2) | apply Kept.of2 | apply Kept.snd (by assumption) | apply KeptR.ite | apply KeptO.done | apply KeptO.ended | apply KeptO.jump | apply KeptO.trap | apply KeptO.hold | apply KeptO.ite | intro _ | fail_if_no_progress (apply Kept.upd) | split)

theorem keep_storeKBody (i : Nat) (rd : BitVec 5) (sel : Option Nat) (n off : Nat) (o : Obs) (s : State) (h_s : Kept pq s) : KeptO pq (storeKBody i rd sel n off o s) := by
  unfold storeKBody
  repeat' (with_reducible first | assumption | fail_if_no_progress beta_reduce | apply keep_storeBank | apply Kept.ite | fail_if_no_progress (apply KeptR.mk <;> try apply Kept.of2) | apply Kept.of2 | apply Kept.snd (by assumption) | apply KeptR.ite | apply KeptO.done | apply KeptO.ended | apply KeptO.jump | apply KeptO.trap | apply KeptO.hold | apply KeptO.ite | intro _ | fail_if_no_progress (apply Kept.upd) | split)

theorem keep_memInstr (e : Elem) (size : Nat) (body : Nat → State → Out) (s : State) (h_body : ∀ x0 x1, Kept pq x1 → KeptO pq (body x0 x1)) (h_s : Kept pq s) : Kept pq (memInstr e size body s) := by
  unfold memInstr
  repeat' (with_reducible first | assumption | fail_if_no_progress beta_reduce | apply h_body | apply keep_runInstr)

theorem keep_ldInstr (n : Nat) (signed : Bool) (e : Elem) (rd ra : BitVec 5) (imm : BitVec 14) (o : Obs) (s : State) (h_s : Kept pq s) : Kept pq (ldInstr n signed e rd ra imm o s) := by
  unfold ldInstr
  repeat' (with_reducible first | assumption | fail_if_no_progress beta_reduce | apply keep_loadBody | apply keep_memInstr | apply Kept.ite | apply KeptO.done | apply KeptO.ended | apply KeptO.jump | apply KeptO.trap | apply KeptO.hold | apply KeptO.ite | intro _)

theorem keep_ldPInstr (n : Nat) (signed : Bool) (e : Elem) (rd ra : BitVec 5) (imm : BitVec 14) (o : Obs) (s : State) (h_s : Kept pq s) : Kept pq (ldPInstr n signed e rd ra imm o s) := by
  unfold ldPInstr
  repeat' (with_reducible first | assumption | fail_if_no_progress beta_reduce | apply keep_loadPostBody | apply keep_memInstr | apply Kept.ite | apply KeptO.done | apply KeptO.ended | apply KeptO.jump | apply KeptO.trap | apply KeptO.hold | apply KeptO.ite | intro _)

theorem keep_stInstr (n : Nat) (e : Elem) (rd ra : BitVec 5) (imm : BitVec 14) (o : Obs) (s : State) (h_s : Kept pq s) : Kept pq (stInstr n e rd ra imm o s) := by
  unfold stInstr
  repeat' (with_reducible first | assumption | fail_if_no_progress beta_reduce | apply keep_storeBody | apply keep_memInstr | apply Kept.ite | apply KeptO.done | apply KeptO.ended | apply KeptO.jump | apply KeptO.trap | apply KeptO.hold | apply KeptO.ite | intro _)

theorem keep_stPInstr (n : Nat) (e : Elem) (rd ra : BitVec 5) (imm : BitVec 14) (o : Obs) (s : State) (h_s : Kept pq s) : Kept pq (stPInstr n e rd ra imm o s) := by
  unfold stPInstr
  repeat' (with_reducible first | assumption | fail_if_no_progress beta_reduce | apply keep_storePostBody | apply keep_memInstr | apply Kept.ite | apply KeptO.done | apply KeptO.ended | apply KeptO.jump | apply KeptO.trap | apply KeptO.hold | apply KeptO.ite | intro _)

theorem keep_ldKInstr (n : Nat) (signed : Bool) (e : Elem) (rd ra : BitVec 5) (off : BitVec 12) (o : Obs) (s : State) (h_s : Kept pq s) : Kept pq (ldKInstr n signed e rd ra off o s) := by
  unfold ldKInstr
  repeat' (with_reducible first | assumption | fail_if_no_progress beta_reduce | apply keep_loadKBody | apply keep_memInstr | apply Kept.ite | apply KeptO.done | apply KeptO.ended | apply KeptO.jump | apply KeptO.trap | apply KeptO.hold | apply KeptO.ite | intro _)

theorem keep_stKInstr (n : Nat) (e : Elem) (rd ra : BitVec 5) (off : BitVec 12) (o : Obs) (s : State) (h_s : Kept pq s) : Kept pq (stKInstr n e rd ra off o s) := by
  unfold stKInstr
  repeat' (with_reducible first | assumption | fail_if_no_progress beta_reduce | apply keep_storeKBody | apply keep_memInstr | apply Kept.ite | apply KeptO.done | apply KeptO.ended | apply KeptO.jump | apply KeptO.trap | apply KeptO.hold | apply KeptO.ite | intro _)

theorem keep_execLdb (e : Elem) (rd ra : BitVec 5) (imm : BitVec 14) (o : Obs) (s : State) (h_s : Kept pq s) : KeptX pq (execLdb e rd ra imm o s) := by
  unfold execLdb
  repeat' (with_reducible first | assumption | fail_if_no_progress beta_reduce | apply keep_ldInstr | apply Kept.ite | apply KeptX.next)

theorem keep_execLdbu (e : Elem) (rd ra : BitVec 5) (imm : BitVec 14) (o : Obs) (s : State) (h_s : Kept pq s) : KeptX pq (execLdbu e rd ra imm o s) := by
  unfold execLdbu
  repeat' (with_reducible first | assumption | fail_if_no_progress beta_reduce | apply keep_ldInstr | apply Kept.ite | apply KeptX.next)

theorem keep_execLdh (e : Elem) (rd ra : BitVec 5) (imm : BitVec 14) (o : Obs) (s : State) (h_s : Kept pq s) : KeptX pq (execLdh e rd ra imm o s) := by
  unfold execLdh
  repeat' (with_reducible first | assumption | fail_if_no_progress beta_reduce | apply keep_ldInstr | apply Kept.ite | apply KeptX.next)

theorem keep_execLdhu (e : Elem) (rd ra : BitVec 5) (imm : BitVec 14) (o : Obs) (s : State) (h_s : Kept pq s) : KeptX pq (execLdhu e rd ra imm o s) := by
  unfold execLdhu
  repeat' (with_reducible first | assumption | fail_if_no_progress beta_reduce | apply keep_ldInstr | apply Kept.ite | apply KeptX.next)

theorem keep_execLdw (e : Elem) (f : MemForm) (o : Obs) (s : State) (h_s : Kept pq s) : KeptX pq (execLdw e f o s) := by
  unfold execLdw
  repeat' (with_reducible first | assumption | fail_if_no_progress beta_reduce | apply keep_loadBody | apply keep_memInstr | apply keep_ldInstr | apply Kept.ite | apply KeptO.done | apply KeptO.ended | apply KeptO.jump | apply KeptO.trap | apply KeptO.hold | apply KeptO.ite | apply KeptX.next | apply KeptX.ite | intro _ | fail_if_no_progress (apply Kept.upd) | split)

theorem keep_execStb (e : Elem) (rd ra : BitVec 5) (imm : BitVec 14) (o : Obs) (s : State) (h_s : Kept pq s) : KeptX pq (execStb e rd ra imm o s) := by
  unfold execStb
  repeat' (with_reducible first | assumption | fail_if_no_progress beta_reduce | apply keep_stInstr | apply Kept.ite | apply KeptX.next)

theorem keep_execSth (e : Elem) (rd ra : BitVec 5) (imm : BitVec 14) (o : Obs) (s : State) (h_s : Kept pq s) : KeptX pq (execSth e rd ra imm o s) := by
  unfold execSth
  repeat' (with_reducible first | assumption | fail_if_no_progress beta_reduce | apply keep_stInstr | apply Kept.ite | apply KeptX.next)

theorem keep_execStw (e : Elem) (f : MemForm) (o : Obs) (s : State) (h_s : Kept pq s) : KeptX pq (execStw e f o s) := by
  unfold execStw
  repeat' (with_reducible first | assumption | fail_if_no_progress beta_reduce | apply keep_storeBody | apply keep_memInstr | apply keep_stInstr | apply Kept.ite | apply KeptO.done | apply KeptO.ended | apply KeptO.jump | apply KeptO.trap | apply KeptO.hold | apply KeptO.ite | apply KeptX.next | apply KeptX.ite | intro _ | fail_if_no_progress (apply Kept.upd) | split)

theorem keep_execLdbP (e : Elem) (rd ra : BitVec 5) (imm : BitVec 14) (o : Obs) (s : State) (h_s : Kept pq s) : KeptX pq (execLdbP e rd ra imm o s) := by
  unfold execLdbP
  repeat' (with_reducible first | assumption | fail_if_no_progress beta_reduce | apply keep_ldPInstr | apply Kept.ite | apply KeptX.next)

theorem keep_execLdbuP (e : Elem) (rd ra : BitVec 5) (imm : BitVec 14) (o : Obs) (s : State) (h_s : Kept pq s) : KeptX pq (execLdbuP e rd ra imm o s) := by
  unfold execLdbuP
  repeat' (with_reducible first | assumption | fail_if_no_progress beta_reduce | apply keep_ldPInstr | apply Kept.ite | apply KeptX.next)

theorem keep_execLdhP (e : Elem) (rd ra : BitVec 5) (imm : BitVec 14) (o : Obs) (s : State) (h_s : Kept pq s) : KeptX pq (execLdhP e rd ra imm o s) := by
  unfold execLdhP
  repeat' (with_reducible first | assumption | fail_if_no_progress beta_reduce | apply keep_ldPInstr | apply Kept.ite | apply KeptX.next)

theorem keep_execLdhuP (e : Elem) (rd ra : BitVec 5) (imm : BitVec 14) (o : Obs) (s : State) (h_s : Kept pq s) : KeptX pq (execLdhuP e rd ra imm o s) := by
  unfold execLdhuP
  repeat' (with_reducible first | assumption | fail_if_no_progress beta_reduce | apply keep_ldPInstr | apply Kept.ite | apply KeptX.next)

theorem keep_execLdwP (e : Elem) (rd ra : BitVec 5) (imm : BitVec 14) (o : Obs) (s : State) (h_s : Kept pq s) : KeptX pq (execLdwP e rd ra imm o s) := by
  unfold execLdwP
  repeat' (with_reducible first | assumption | fail_if_no_progress beta_reduce | apply keep_ldPInstr | apply Kept.ite | apply KeptX.next)

theorem keep_execStbP (e : Elem) (rd ra : BitVec 5) (imm : BitVec 14) (o : Obs) (s : State) (h_s : Kept pq s) : KeptX pq (execStbP e rd ra imm o s) := by
  unfold execStbP
  repeat' (with_reducible first | assumption | fail_if_no_progress beta_reduce | apply keep_stPInstr | apply Kept.ite | apply KeptX.next)

theorem keep_execSthP (e : Elem) (rd ra : BitVec 5) (imm : BitVec 14) (o : Obs) (s : State) (h_s : Kept pq s) : KeptX pq (execSthP e rd ra imm o s) := by
  unfold execSthP
  repeat' (with_reducible first | assumption | fail_if_no_progress beta_reduce | apply keep_stPInstr | apply Kept.ite | apply KeptX.next)

theorem keep_execStwP (e : Elem) (rd ra : BitVec 5) (imm : BitVec 14) (o : Obs) (s : State) (h_s : Kept pq s) : KeptX pq (execStwP e rd ra imm o s) := by
  unfold execStwP
  repeat' (with_reducible first | assumption | fail_if_no_progress beta_reduce | apply keep_stPInstr | apply Kept.ite | apply KeptX.next)

theorem keep_execLdbK (e : Elem) (rd ra : BitVec 5) (off : BitVec 12) (o : Obs) (s : State) (h_s : Kept pq s) : KeptX pq (execLdbK e rd ra off o s) := by
  unfold execLdbK
  repeat' (with_reducible first | assumption | fail_if_no_progress beta_reduce | apply keep_ldKInstr | apply Kept.ite | apply KeptX.next)

theorem keep_execLdbuK (e : Elem) (rd ra : BitVec 5) (off : BitVec 12) (o : Obs) (s : State) (h_s : Kept pq s) : KeptX pq (execLdbuK e rd ra off o s) := by
  unfold execLdbuK
  repeat' (with_reducible first | assumption | fail_if_no_progress beta_reduce | apply keep_ldKInstr | apply Kept.ite | apply KeptX.next)

theorem keep_execLdhK (e : Elem) (rd ra : BitVec 5) (off : BitVec 12) (o : Obs) (s : State) (h_s : Kept pq s) : KeptX pq (execLdhK e rd ra off o s) := by
  unfold execLdhK
  repeat' (with_reducible first | assumption | fail_if_no_progress beta_reduce | apply keep_ldKInstr | apply Kept.ite | apply KeptX.next)

theorem keep_execLdhuK (e : Elem) (rd ra : BitVec 5) (off : BitVec 12) (o : Obs) (s : State) (h_s : Kept pq s) : KeptX pq (execLdhuK e rd ra off o s) := by
  unfold execLdhuK
  repeat' (with_reducible first | assumption | fail_if_no_progress beta_reduce | apply keep_ldKInstr | apply Kept.ite | apply KeptX.next)

theorem keep_execLdwK (e : Elem) (f : BankForm) (o : Obs) (s : State) (h_s : Kept pq s) : KeptX pq (execLdwK e f o s) := by
  unfold execLdwK
  repeat' (with_reducible first | assumption | fail_if_no_progress beta_reduce | apply keep_loadKBody | apply keep_memInstr | apply keep_ldKInstr | apply Kept.ite | apply KeptO.done | apply KeptO.ended | apply KeptO.jump | apply KeptO.trap | apply KeptO.hold | apply KeptO.ite | apply KeptX.next | apply KeptX.ite | intro _ | fail_if_no_progress (apply Kept.upd) | split)

theorem keep_execStbK (e : Elem) (rd ra : BitVec 5) (off : BitVec 12) (o : Obs) (s : State) (h_s : Kept pq s) : KeptX pq (execStbK e rd ra off o s) := by
  unfold execStbK
  repeat' (with_reducible first | assumption | fail_if_no_progress beta_reduce | apply keep_stKInstr | apply Kept.ite | apply KeptX.next)

theorem keep_execSthK (e : Elem) (rd ra : BitVec 5) (off : BitVec 12) (o : Obs) (s : State) (h_s : Kept pq s) : KeptX pq (execSthK e rd ra off o s) := by
  unfold execSthK
  repeat' (with_reducible first | assumption | fail_if_no_progress beta_reduce | apply keep_stKInstr | apply Kept.ite | apply KeptX.next)

theorem keep_execStwK (e : Elem) (f : BankForm) (o : Obs) (s : State) (h_s : Kept pq s) : KeptX pq (execStwK e f o s) := by
  unfold execStwK
  repeat' (with_reducible first | assumption | fail_if_no_progress beta_reduce | apply keep_storeKBody | apply keep_memInstr | apply keep_stKInstr | apply Kept.ite | apply KeptO.done | apply KeptO.ended | apply KeptO.jump | apply KeptO.trap | apply KeptO.hold | apply KeptO.ite | apply KeptX.next | apply KeptX.ite | intro _ | fail_if_no_progress (apply Kept.upd) | split)

theorem keep_spBody (i : Nat) (body : State → Out) (s : State) (h_body : ∀ x0, Kept pq x0 → KeptO pq (body x0)) (h_s : Kept pq s) : KeptO pq (spBody i body s) := by
  unfold spBody
  repeat' (with_reducible first | assumption | fail_if_no_progress beta_reduce | apply h_body | apply Kept.ite | fail_if_no_progress (apply KeptR.mk <;> try apply Kept.of2) | apply Kept.of2 | apply Kept.snd (by assumption) | apply KeptR.ite | apply KeptO.done | apply KeptO.ended | apply KeptO.jump | apply KeptO.trap | apply KeptO.hold | apply KeptO.ite | intro _)

theorem keep_execLdwSp (e : Elem) (rd : BitVec 4) (off9 : BitVec 9) (o : Obs) (s : State) (h_s : Kept pq s) : KeptX pq (execLdwSp e rd off9 o s) := by
  unfold execLdwSp
  repeat' (with_reducible first | assumption | fail_if_no_progress beta_reduce | apply keep_loadBody | apply keep_memInstr | apply keep_spBody | apply Kept.ite | apply KeptO.done | apply KeptO.ended | apply KeptO.jump | apply KeptO.trap | apply KeptO.hold | apply KeptO.ite | apply KeptX.next | apply KeptX.ite | intro _)

theorem keep_execStwSp (e : Elem) (rd : BitVec 4) (off9 : BitVec 9) (o : Obs) (s : State) (h_s : Kept pq s) : KeptX pq (execStwSp e rd off9 o s) := by
  unfold execStwSp
  repeat' (with_reducible first | assumption | fail_if_no_progress beta_reduce | apply keep_storeBody | apply keep_memInstr | apply keep_spBody | apply Kept.ite | apply KeptO.done | apply KeptO.ended | apply KeptO.jump | apply KeptO.trap | apply KeptO.hold | apply KeptO.ite | apply KeptX.next | apply KeptX.ite | intro _)

theorem keep_ldxAt (i : Nat) (va : Word) (o : Obs) (s : State) (h_s : Kept pq s) : KeptR pq (ldxAt i va o s) := by
  unfold ldxAt
  repeat' (with_reducible first | assumption | fail_if_no_progress beta_reduce | apply keep_setEl | apply keep_xlate | apply keep_applyObs | apply keep_drainFor | apply keep_watchAccess | apply keep_loadAt | apply Kept.ite | fail_if_no_progress (apply KeptR.mk <;> try apply Kept.of2) | apply Kept.of2 | apply Kept.snd (by assumption) | apply KeptR.ite | intro _ | fail_if_no_progress (apply Kept.upd) | split)

theorem keep_ldxBody (i : Nat) (rd ra : BitVec 5) (o : Obs) (s : State) (h_s : Kept pq s) : KeptO pq (ldxBody i rd ra o s) := by
  unfold ldxBody
  repeat' (with_reducible first | assumption | fail_if_no_progress beta_reduce | apply keep_putGr | apply keep_ldxAt | apply Kept.ite | fail_if_no_progress (apply KeptR.mk <;> try apply Kept.of2) | apply Kept.of2 | apply Kept.snd (by assumption) | apply KeptR.ite | apply KeptO.done | apply KeptO.ended | apply KeptO.jump | apply KeptO.trap | apply KeptO.hold | apply KeptO.ite | intro _ | fail_if_no_progress (apply Kept.upd) | split)

theorem keep_stxStore (i : Nat) (p : Place) (bs : List Byte) (ecc : Ecc) (s : State) (h_s : Kept pq s) : KeptR pq (stxStore i p bs ecc s) := by
  unfold stxStore
  repeat' (with_reducible first | assumption | fail_if_no_progress beta_reduce | apply keep_memWrite | apply keep_meetStore | apply keep_cacheWrite | apply Kept.ite | fail_if_no_progress (apply KeptR.mk <;> try apply Kept.of2) | apply Kept.of2 | apply Kept.snd (by assumption) | apply KeptR.ite | intro _)

theorem keep_stxAt (i : Nat) (va v : Word) (o : Obs) (s : State) (h_s : Kept pq s) : KeptR pq (stxAt i va v o s) := by
  unfold stxAt
  repeat'
    with_reducible first
    | assumption | intro _
    | extract_lets -underBinder +onlyGivenNames x
      first
        | have hx : Kept pq x := by
            try dsimp only [x]
            repeat' (with_reducible first | assumption | fail_if_no_progress beta_reduce | apply keep_setEl | apply keep_store | apply keep_xlate | apply keep_applyObs | apply keep_drainFor | apply keep_watchAccess | apply keep_stxStore | apply Kept.ite | fail_if_no_progress (apply KeptR.mk <;> try apply Kept.of2) | apply Kept.of2 | apply Kept.snd (by assumption))
        | skip
      try clear_value x
    | fail_if_no_progress beta_reduce | apply keep_setEl | apply keep_store | apply keep_xlate | apply keep_applyObs | apply keep_drainFor | apply keep_watchAccess | apply keep_stxStore | apply Kept.ite | fail_if_no_progress (apply KeptR.mk <;> try apply Kept.of2) | apply Kept.of2 | apply Kept.snd (by assumption) | apply KeptR.ite | intro _ | fail_if_no_progress (apply Kept.upd) | split

theorem keep_stxBody (i : Nat) (rd ra rb : BitVec 5) (o : Obs) (s : State) (h_s : Kept pq s) : KeptO pq (stxBody i rd ra rb o s) := by
  unfold stxBody
  repeat' (with_reducible first | assumption | fail_if_no_progress beta_reduce | apply keep_putGr | apply keep_stxAt | apply Kept.ite | fail_if_no_progress (apply KeptR.mk <;> try apply Kept.of2) | apply Kept.of2 | apply Kept.snd (by assumption) | apply KeptR.ite | apply KeptO.done | apply KeptO.ended | apply KeptO.jump | apply KeptO.trap | apply KeptO.hold | apply KeptO.ite | intro _ | fail_if_no_progress (apply Kept.upd) | split)

theorem keep_execLdx (e : Elem) (rd ra : BitVec 5) (o : Obs) (s : State) (h_s : Kept pq s) : KeptX pq (execLdx e rd ra o s) := by
  unfold execLdx
  repeat' (with_reducible first | assumption | fail_if_no_progress beta_reduce | apply keep_runInstr | apply keep_ldxBody | apply Kept.ite | apply KeptO.done | apply KeptO.ended | apply KeptO.jump | apply KeptO.trap | apply KeptO.hold | apply KeptO.ite | apply KeptX.next)

theorem keep_execStx (e : Elem) (rd ra rb : BitVec 5) (o : Obs) (s : State) (h_s : Kept pq s) : KeptX pq (execStx e rd ra rb o s) := by
  unfold execStx
  repeat' (with_reducible first | assumption | fail_if_no_progress beta_reduce | apply keep_runInstr | apply keep_stxBody | apply Kept.ite | apply KeptO.done | apply KeptO.ended | apply KeptO.jump | apply KeptO.trap | apply KeptO.hold | apply KeptO.ite | apply KeptX.next)

theorem keep_execFence (e : Elem) (s : State) (h_s : Kept pq s) : KeptX pq (execFence e s) := by
  unfold execFence
  repeat' (with_reducible first | assumption | fail_if_no_progress beta_reduce | apply keep_runInstr | apply keep_drainAll | apply Kept.ite | apply KeptO.done | apply KeptO.ended | apply KeptO.jump | apply KeptO.trap | apply KeptO.hold | apply KeptO.ite | apply KeptX.next | apply KeptX.ite | intro _)

theorem keep_storeAck (i k : Nat) (s : State) (h_s : Kept pq s) : Kept pq (storeAck i k s) := by
  unfold storeAck
  repeat' (with_reducible first | assumption | fail_if_no_progress beta_reduce | apply keep_takeImprecise | apply keep_landNth | apply Kept.ite | intro _)

theorem keep_storeError (i k : Nat) (ecc : Bool) (s : State) (h_s : Kept pq s) : Kept pq (storeError i k ecc s) := by
  unfold storeError
  repeat' (with_reducible first | assumption | fail_if_no_progress beta_reduce | apply keep_setEl | apply keep_takeImprecise | apply keep_noteError | apply Kept.ite | intro _ | fail_if_no_progress (apply Kept.upd) | split)

theorem keep_execTwillStoreAck (e : Elem) (i : Nat) (s : State) (h_s : Kept pq s) : KeptX pq (execTwillStoreAck e i s) := by
  unfold execTwillStoreAck
  repeat' (with_reducible first | assumption | fail_if_no_progress beta_reduce | apply keep_storeAck | apply Kept.ite | apply KeptX.next)

theorem keep_execImpreciseBusError (e : Elem) (i : Nat) (ecc : Bool) (s : State) (h_s : Kept pq s) : KeptX pq (execImpreciseBusError e i ecc s) := by
  unfold execImpreciseBusError
  repeat' (with_reducible first | assumption | fail_if_no_progress beta_reduce | apply keep_storeError | apply Kept.ite | apply KeptX.next)

end Sys2Proof.Machine
end

