-- ==== Sys2Proof/Laws/KeepControl.lean ====
section
/-! SUPPORT. What the functions of `Control` keep: the queue, and the canonical form of memory and registers. -/

namespace Sys2Proof.Machine

variable {pq : List Instr}

theorem keep_bccBody (i : Nat) (cond : BitVec 4) (off : Word) (s : State) (h_s : Kept pq s) : KeptO pq (bccBody i cond off s) := by
  unfold bccBody
  repeat' (with_reducible first | assumption | fail_if_no_progress beta_reduce | apply Kept.ite | apply KeptO.done | apply KeptO.ended | apply KeptO.jump | apply KeptO.trap | apply KeptO.hold | apply KeptO.ite | intro _)

theorem keep_execBcc (e : Elem) (f : BccForm) (s : State) (h_s : Kept pq s) : KeptX pq (execBcc e f s) := by
  unfold execBcc
  repeat' (with_reducible first | assumption | fail_if_no_progress beta_reduce | apply keep_runInstr | apply keep_bccBody | apply Kept.ite | apply KeptO.done | apply KeptO.ended | apply KeptO.jump | apply KeptO.trap | apply KeptO.hold | apply KeptO.ite | apply KeptX.next | apply KeptX.ite | intro _ | fail_if_no_progress (apply Kept.upd) | split)

theorem keep_execB (e : Elem) (off : BitVec 24) (s : State) (h_s : Kept pq s) : KeptX pq (execB e off s) := by
  unfold execB
  repeat' (with_reducible first | assumption | fail_if_no_progress beta_reduce | apply keep_runInstr | apply Kept.ite | apply KeptO.done | apply KeptO.ended | apply KeptO.jump | apply KeptO.trap | apply KeptO.hold | apply KeptO.ite | apply KeptX.next | apply KeptX.ite | intro _)

theorem keep_execBl (e : Elem) (off : BitVec 24) (s : State) (h_s : Kept pq s) : KeptX pq (execBl e off s) := by
  unfold execBl
  repeat' (with_reducible first | assumption | fail_if_no_progress beta_reduce | apply keep_runInstr | apply keep_putGr | apply Kept.ite | apply KeptO.done | apply KeptO.ended | apply KeptO.jump | apply KeptO.trap | apply KeptO.hold | apply KeptO.ite | apply KeptX.next | apply KeptX.ite | intro _)

theorem keep_jumpBody (i : Nat) (rs : BitVec 4) (link : Bool) (s : State) (h_s : Kept pq s) : KeptO pq (jumpBody i rs link s) := by
  unfold jumpBody
  repeat'
    with_reducible first
    | assumption | intro _
    | extract_lets -underBinder +onlyGivenNames x
      first
        | have hx : Kept pq x := by
            try dsimp only [x]
            repeat' (with_reducible first | assumption | fail_if_no_progress beta_reduce | apply keep_putGr | apply Kept.ite | apply KeptO.done | apply KeptO.ended | apply KeptO.jump | apply KeptO.trap | apply KeptO.hold | apply KeptO.ite | intro _ | fail_if_no_progress (apply Kept.upd) | split | beta_reduce)
        | skip
      try clear_value x
    | fail_if_no_progress beta_reduce | apply keep_putGr | apply Kept.ite | apply KeptO.done | apply KeptO.ended | apply KeptO.jump | apply KeptO.trap | apply KeptO.hold | apply KeptO.ite

theorem keep_execJmpr (e : Elem) (rs : BitVec 4) (s : State) (h_s : Kept pq s) : KeptX pq (execJmpr e rs s) := by
  unfold execJmpr
  repeat' (with_reducible first | assumption | fail_if_no_progress beta_reduce | apply keep_runInstr | apply keep_jumpBody | apply Kept.ite | apply KeptO.done | apply KeptO.ended | apply KeptO.jump | apply KeptO.trap | apply KeptO.hold | apply KeptO.ite | apply KeptX.next)

theorem keep_execCallr (e : Elem) (rs : BitVec 4) (s : State) (h_s : Kept pq s) : KeptX pq (execCallr e rs s) := by
  unfold execCallr
  repeat' (with_reducible first | assumption | fail_if_no_progress beta_reduce | apply keep_runInstr | apply keep_jumpBody | apply Kept.ite | apply KeptO.done | apply KeptO.ended | apply KeptO.jump | apply KeptO.trap | apply KeptO.hold | apply KeptO.ite | apply KeptX.next)

theorem keep_storeWords (i : Nat) : ∀ (x0 : Word) (x1 : List Word) (x2 : List Obs) (x3 : State), Kept pq x3 → KeptR pq (storeWords i x0 x1 x2 x3)
  | _, [], _, s, h_s => by
    unfold storeWords
    repeat' (with_reducible first | assumption | fail_if_no_progress beta_reduce | apply keep_storeVa | apply keep_storeWords | apply Kept.ite | fail_if_no_progress (apply KeptR.mk <;> try apply Kept.of2))
  | a, v :: vs, os, s, h_s => by
    unfold storeWords
    repeat' (with_reducible first | assumption | fail_if_no_progress beta_reduce | apply keep_storeVa | apply keep_storeWords | apply Kept.ite | fail_if_no_progress (apply KeptR.mk <;> try apply Kept.of2) | apply Kept.of2 | apply Kept.snd (by assumption) | apply KeptR.ite | intro _ | fail_if_no_progress (apply Kept.upd) | split)

theorem keep_loadWords (i : Nat) : ∀ (x0 : Nat) (x1 : Word) (x2 : List Obs) (x3 : State), Kept pq x3 → KeptR pq (loadWords i x0 x1 x2 x3)
  | 0, _, _, s, h_s => by
    unfold loadWords
    repeat' (with_reducible first | assumption | fail_if_no_progress beta_reduce | apply keep_loadVa | apply keep_loadWords | apply Kept.ite | fail_if_no_progress (apply KeptR.mk <;> try apply Kept.of2))
  | n + 1, a, os, s, h_s => by
    unfold loadWords
    repeat' (with_reducible first | assumption | fail_if_no_progress beta_reduce | apply keep_loadVa | apply keep_loadWords | apply Kept.ite | fail_if_no_progress (apply KeptR.mk <;> try apply Kept.of2) | apply Kept.of2 | apply Kept.snd (by assumption) | apply KeptR.ite | intro _ | fail_if_no_progress (apply Kept.upd) | split)

theorem keep_callmBody (i : Nat) (ra : BitVec 5) (H : Bool) (mask : BitVec 16) (os : List Obs) (s : State) (h_s : Kept pq s) : KeptO pq (callmBody i ra H mask os s) := by
  unfold callmBody
  repeat'
    with_reducible first
    | assumption | intro _
    | extract_lets -underBinder +onlyGivenNames x
      first
        | have hx : Kept pq x := by
            try dsimp only [x]
            repeat' (with_reducible first | assumption | fail_if_no_progress beta_reduce | apply keep_putGr | apply keep_storeWords | apply Kept.ite | fail_if_no_progress (apply KeptR.mk <;> try apply Kept.of2) | apply Kept.of2 | apply Kept.snd (by assumption) | apply KeptR.ite | apply KeptO.done | apply KeptO.ended | apply KeptO.jump | apply KeptO.trap | apply KeptO.hold | apply KeptO.ite | intro _ | fail_if_no_progress (apply Kept.upd) | split | beta_reduce)
        | skip
      try clear_value x
    | fail_if_no_progress beta_reduce | apply keep_putGr | apply keep_storeWords | apply Kept.ite | fail_if_no_progress (apply KeptR.mk <;> try apply Kept.of2) | apply Kept.of2 | apply Kept.snd (by assumption) | apply KeptR.ite | apply KeptO.done | apply KeptO.ended | apply KeptO.jump | apply KeptO.trap | apply KeptO.hold | apply KeptO.ite | intro _ | fail_if_no_progress (apply Kept.upd) | split

theorem keep_retmBody (i : Nat) (os : List Obs) (s : State) (h_s : Kept pq s) : KeptO pq (retmBody i os s) := by
  unfold retmBody
  repeat'
    with_reducible first
    | assumption | intro _
    | extract_lets -underBinder +onlyGivenNames x
      first
        | have hx : Kept pq x := by
            try dsimp only [x]
            repeat' (with_reducible first | assumption | fail_if_no_progress beta_reduce | apply keep_loadVa | apply keep_putGr | apply keep_loadWords | apply Kept.ite | fail_if_no_progress (apply KeptR.mk <;> try apply Kept.of2) | apply Kept.of2 | apply Kept.snd (by assumption) | apply KeptR.ite | apply KeptO.done | apply KeptO.ended | apply KeptO.jump | apply KeptO.trap | apply KeptO.hold | apply KeptO.ite | apply Kept.foldl | apply KeptR.foldl | intro _)
        | have hx : KeptR pq x := by
            try dsimp only [x]
            repeat' (with_reducible first | assumption | fail_if_no_progress beta_reduce | apply keep_loadVa | apply keep_putGr | apply keep_loadWords | apply Kept.ite | fail_if_no_progress (apply KeptR.mk <;> try apply Kept.of2) | apply Kept.of2 | apply Kept.snd (by assumption) | apply KeptR.ite | apply KeptO.done | apply KeptO.ended | apply KeptO.jump | apply KeptO.trap | apply KeptO.hold | apply KeptO.ite | apply Kept.foldl | apply KeptR.foldl | intro _ | fail_if_no_progress (apply Kept.upd) | split | beta_reduce)
        | skip
      try clear_value x
    | fail_if_no_progress beta_reduce | apply keep_loadVa | apply keep_putGr | apply keep_loadWords | apply Kept.ite | fail_if_no_progress (apply KeptR.mk <;> try apply Kept.of2) | apply Kept.of2 | apply Kept.snd (by assumption) | apply KeptR.ite | apply KeptO.done | apply KeptO.ended | apply KeptO.jump | apply KeptO.trap | apply KeptO.hold | apply KeptO.ite | apply Kept.foldl | apply KeptR.foldl | intro _ | fail_if_no_progress (apply Kept.upd) | split

theorem keep_execCallm (e : Elem) (ra : BitVec 5) (H : Bool) (mask : BitVec 16) (os : List Obs) (s : State) (h_s : Kept pq s) : KeptX pq (execCallm e ra H mask os s) := by
  unfold execCallm
  repeat' (with_reducible first | assumption | fail_if_no_progress beta_reduce | apply keep_runInstr | apply keep_callmBody | apply Kept.ite | apply KeptO.done | apply KeptO.ended | apply KeptO.jump | apply KeptO.trap | apply KeptO.hold | apply KeptO.ite | apply KeptX.next)

theorem keep_execRetm (e : Elem) (os : List Obs) (s : State) (h_s : Kept pq s) : KeptX pq (execRetm e os s) := by
  unfold execRetm
  repeat' (with_reducible first | assumption | fail_if_no_progress beta_reduce | apply keep_runInstr | apply keep_retmBody | apply Kept.ite | apply KeptO.done | apply KeptO.ended | apply KeptO.jump | apply KeptO.trap | apply KeptO.hold | apply KeptO.ite | apply KeptX.next)

theorem keep_mfsBody (i : Nat) (rd : BitVec 5) (n : Nat) (s : State) (h_s : Kept pq s) : KeptO pq (mfsBody i rd n s) := by
  unfold mfsBody
  repeat' (with_reducible first | assumption | fail_if_no_progress beta_reduce | apply keep_putGr | apply Kept.ite | apply KeptO.done | apply KeptO.ended | apply KeptO.jump | apply KeptO.trap | apply KeptO.hold | apply KeptO.ite | intro _)

theorem keep_mtsBody (i n : Nat) (ra : BitVec 5) (s : State) (h_s : Kept pq s) : KeptO pq (mtsBody i n ra s) := by
  unfold mtsBody
  repeat' (with_reducible first | assumption | fail_if_no_progress beta_reduce | apply keep_setEl | apply Kept.ite | apply KeptO.done | apply KeptO.ended | apply KeptO.jump | apply KeptO.trap | apply KeptO.hold | apply KeptO.ite | intro _)

theorem keep_execMfs (e : Elem) (rd : BitVec 5) (sreg : BitVec 8) (s : State) (h_s : Kept pq s) : KeptX pq (execMfs e rd sreg s) := by
  unfold execMfs
  repeat' (with_reducible first | assumption | fail_if_no_progress beta_reduce | apply keep_runInstr | apply keep_mfsBody | apply Kept.ite | apply KeptO.done | apply KeptO.ended | apply KeptO.jump | apply KeptO.trap | apply KeptO.hold | apply KeptO.ite | apply KeptX.next)

theorem keep_execMts (e : Elem) (sreg : BitVec 8) (ra : BitVec 5) (s : State) (h_s : Kept pq s) : KeptX pq (execMts e sreg ra s) := by
  unfold execMts
  repeat' (with_reducible first | assumption | fail_if_no_progress beta_reduce | apply keep_runInstr | apply keep_mtsBody | apply Kept.ite | apply KeptO.done | apply KeptO.ended | apply KeptO.jump | apply KeptO.trap | apply KeptO.hold | apply KeptO.ite | apply KeptX.next)

theorem keep_repBody (i : Nat) (u : Bool) (count : RegSet → Nat) (s : State) (h_s : Kept pq s) : KeptO pq (repBody i u count s) := by
  unfold repBody
  repeat'
    with_reducible first
    | assumption | intro _
    | extract_lets -underBinder +onlyGivenNames x
      first
        | have hx : Kept pq x := by
            try dsimp only [x]
            repeat' (with_reducible first | assumption | fail_if_no_progress beta_reduce | apply keep_setRset | apply Kept.ite | apply KeptO.done | apply KeptO.ended | apply KeptO.jump | apply KeptO.trap | apply KeptO.hold | apply KeptO.ite | intro _ | fail_if_no_progress (apply Kept.upd) | split | beta_reduce)
        | skip
      try clear_value x
    | fail_if_no_progress beta_reduce | apply keep_setRset | apply Kept.ite | apply KeptO.done

theorem keep_execRepU (e : Elem) (n : BitVec 6) (s : State) (h_s : Kept pq s) : KeptX pq (execRepU e n s) := by
  unfold execRepU
  repeat' (with_reducible first | assumption | fail_if_no_progress beta_reduce | apply keep_runInstr | apply keep_repBody | apply Kept.ite | apply KeptO.done | apply KeptO.ended | apply KeptO.jump | apply KeptO.trap | apply KeptO.hold | apply KeptO.ite | apply KeptX.next)

theorem keep_execRepIImm (e : Elem) (n : BitVec 8) (s : State) (h_s : Kept pq s) : KeptX pq (execRepIImm e n s) := by
  unfold execRepIImm
  repeat' (with_reducible first | assumption | fail_if_no_progress beta_reduce | apply keep_runInstr | apply keep_repBody | apply Kept.ite | apply KeptO.done | apply KeptO.ended | apply KeptO.jump | apply KeptO.trap | apply KeptO.hold | apply KeptO.ite | apply KeptX.next)

theorem keep_execRepIReg (e : Elem) (rs : BitVec 4) (s : State) (h_s : Kept pq s) : KeptX pq (execRepIReg e rs s) := by
  unfold execRepIReg
  repeat' (with_reducible first | assumption | fail_if_no_progress beta_reduce | apply keep_runInstr | apply keep_repBody | apply Kept.ite | apply KeptO.done | apply KeptO.ended | apply KeptO.jump | apply KeptO.trap | apply KeptO.hold | apply KeptO.ite | apply KeptX.next)

theorem keep_execSync (e : Elem) (s : State) (h_s : Kept pq s) : KeptX pq (execSync e s) := by
  unfold execSync
  repeat' (with_reducible first | assumption | fail_if_no_progress beta_reduce | apply keep_setEl | apply keep_runInstr | apply Kept.ite | apply KeptO.done | apply KeptO.ended | apply KeptO.jump | apply KeptO.trap | apply KeptO.hold | apply KeptO.ite | apply KeptX.next | apply KeptX.ite | intro _)

theorem keep_execReth (e : Elem) (s : State) (h_s : Kept pq s) : KeptX pq (execReth e s) := by
  unfold execReth
  repeat' (with_reducible first | assumption | fail_if_no_progress beta_reduce | apply keep_returnExc | apply keep_runInstr | apply Kept.ite | apply KeptO.done | apply KeptO.ended | apply KeptO.jump | apply KeptO.trap | apply KeptO.hold | apply KeptO.ite | apply KeptX.next)

theorem keep_wfiBody (i : Nat) (s : State) (h_s : Kept pq s) : KeptO pq (wfiBody i s) := by
  unfold wfiBody
  repeat' (with_reducible first | assumption | fail_if_no_progress beta_reduce | apply keep_setEl | apply Kept.ite | apply KeptO.done | apply KeptO.ended | apply KeptO.jump | apply KeptO.trap | apply KeptO.hold | apply KeptO.ite | intro _)

theorem keep_execWfi (e : Elem) (s : State) (h_s : Kept pq s) : KeptX pq (execWfi e s) := by
  unfold execWfi
  repeat' (with_reducible first | assumption | fail_if_no_progress beta_reduce | apply keep_runInstr | apply keep_wfiBody | apply Kept.ite | apply KeptO.done | apply KeptO.ended | apply KeptO.jump | apply KeptO.trap | apply KeptO.hold | apply KeptO.ite | apply KeptX.next)

theorem keep_brkBody (i : Nat) (s : State) (h_s : Kept pq s) : KeptO pq (brkBody i s) := by
  unfold brkBody
  repeat' (with_reducible first | assumption | fail_if_no_progress beta_reduce | apply keep_setRgBit | apply keep_wantHalt | apply Kept.ite | apply KeptO.done | apply KeptO.ended | apply KeptO.jump | apply KeptO.trap | apply KeptO.hold | apply KeptO.ite | intro _)

theorem keep_execBrk (e : Elem) (s : State) (h_s : Kept pq s) : KeptX pq (execBrk e s) := by
  unfold execBrk
  repeat' (with_reducible first | assumption | fail_if_no_progress beta_reduce | apply keep_runInstr | apply keep_brkBody | apply Kept.ite | apply KeptO.done | apply KeptO.ended | apply KeptO.jump | apply KeptO.trap | apply KeptO.hold | apply KeptO.ite | apply KeptX.next)

theorem keep_execSys (e : Elem) (imm : BitVec 8) (s : State) (h_s : Kept pq s) : KeptX pq (execSys e imm s) := by
  unfold execSys
  repeat' (with_reducible first | assumption | fail_if_no_progress beta_reduce | apply keep_runInstr | apply Kept.ite | apply KeptO.done | apply KeptO.ended | apply KeptO.jump | apply KeptO.trap | apply KeptO.hold | apply KeptO.ite | apply KeptX.next | apply KeptX.ite | intro _)

theorem keep_execIllegalInstruction (e : Elem) (long : Bool) (s : State) (h_s : Kept pq s) : KeptX pq (execIllegalInstruction e long s) := by
  unfold execIllegalInstruction
  repeat' (with_reducible first | assumption | fail_if_no_progress beta_reduce | apply keep_runInstr | apply Kept.ite | apply KeptO.done | apply KeptO.ended | apply KeptO.jump | apply KeptO.trap | apply KeptO.hold | apply KeptO.ite | apply KeptX.next | apply KeptX.ite | intro _)

theorem keep_fetchTrap (i : Nat) (va : Word) (o : Obs) (s : State) (h_s : Kept pq s) : KeptR pq (fetchTrap i va o s) := by
  unfold fetchTrap
  repeat' (with_reducible first | assumption | fail_if_no_progress beta_reduce | apply keep_memRead | apply keep_cacheRead | apply keep_xlate | apply keep_applyObs | apply Kept.ite | fail_if_no_progress (apply KeptR.mk <;> try apply Kept.of2) | apply Kept.of2 | apply Kept.snd (by assumption) | apply KeptR.ite | intro _ | fail_if_no_progress (apply Kept.upd) | split)

theorem keep_fetchFault (i : Nat) (second : Bool) (o : Obs) (s : State) (h_s : Kept pq s) :
    Kept pq (fetchFault i second o s) := by
  unfold fetchFault
  extract_lets s0 s1
  have h0 : Kept pq s0 := keep_takeImprecise i _ (keep_wfiWake i s h_s)
  have h1 : Kept pq s1 := keep_openView _ _ h0
  clear_value s0 s1
  have h2 := keep_fetchTrap i (instrAddr s1 i + (if second then 2 else 0)) o s1 h1
  refine Kept.ite (fun _ => h0) (fun _ => ?_)
  generalize fetchTrap i (instrAddr s1 i + (if second then 2 else 0)) o s1 = x at h2 ⊢
  obtain ⟨_ | t, s2⟩ := x
  · exact h0
  · exact keep_finish _ _ _ _ (KeptO.trap h2)

theorem keep_execInstructionFetchFault (e : Elem) (second : Bool) (o : Obs) (s : State) (h_s : Kept pq s) : KeptX pq (execInstructionFetchFault e second o s) := by
  unfold execInstructionFetchFault
  repeat' (with_reducible first | assumption | fail_if_no_progress beta_reduce | apply keep_fetchFault | apply Kept.ite | apply KeptX.next)

theorem keep_interruptEntry (i : Nat) (s0 : State) (h_s0 : Kept pq s0) : Kept pq (interruptEntry i s0) := by
  unfold interruptEntry
  repeat'
    with_reducible first
    | assumption | intro _
    | extract_lets -underBinder +onlyGivenNames x
      first
        | have hx : Kept pq x := by
            try dsimp only [x]
            repeat' (with_reducible first | assumption | fail_if_no_progress beta_reduce | apply keep_wfiWake | apply keep_enterExc | apply keep_takeImprecise)
        | skip
      try clear_value x
    | fail_if_no_progress beta_reduce | apply keep_wfiWake | apply keep_enterExc | apply keep_takeImprecise | apply keep_boundary | apply Kept.ite

theorem keep_execInterruptEntry (e : Elem) (s : State) (h_s : Kept pq s) : KeptX pq (execInterruptEntry e s) := by
  unfold execInterruptEntry
  repeat' (with_reducible first | assumption | fail_if_no_progress beta_reduce | apply keep_interruptEntry | apply Kept.ite | apply KeptX.next)

theorem keep_patchBreak (i : Nat) (s : State) (h_s : Kept pq s) : Kept pq (patchBreak i s) := by
  unfold patchBreak
  repeat'
    with_reducible first
    | assumption | intro _
    | extract_lets -underBinder +onlyGivenNames x
      first
        | have hx : Kept pq x := by
            try dsimp only [x]
            repeat' (with_reducible first | assumption | fail_if_no_progress beta_reduce | apply keep_takeHalts | apply keep_openView)
      try clear_value x
    | fail_if_no_progress beta_reduce | apply keep_takeHalts | apply keep_openView | apply keep_clearFired | apply keep_xlate | apply keep_breakFetch | apply Kept.ite | fail_if_no_progress (apply KeptR.mk <;> try apply Kept.of2) | apply Kept.of2 | apply Kept.snd (by assumption) | apply KeptR.ite | intro _ | fail_if_no_progress (apply Kept.upd) | split

theorem keep_execPatchBreak (e : Elem) (s : State) (h_s : Kept pq s) : KeptX pq (execPatchBreak e s) := by
  unfold execPatchBreak
  repeat' (with_reducible first | assumption | fail_if_no_progress beta_reduce | apply keep_patchBreak | apply Kept.ite | apply KeptX.next)

theorem keep_patchWatch (i : Nat) (pa : BitVec 40) (store_ : Bool) (s : State) (h_s : Kept pq s) : Kept pq (patchWatch i pa store_ s) := by
  unfold patchWatch
  repeat'
    with_reducible first
    | assumption | intro _
    | extract_lets -underBinder +onlyGivenNames x
      first
        | have hx : Kept pq x := by
            try dsimp only [x]
            repeat' (with_reducible first | assumption | fail_if_no_progress beta_reduce | apply keep_takeHalts | apply keep_clearFired | apply keep_watchAccess | apply Kept.ite | intro _ | fail_if_no_progress (apply Kept.upd) | split | beta_reduce)
        | skip
      try clear_value x
    | fail_if_no_progress beta_reduce | apply keep_takeHalts | apply keep_clearFired | apply keep_watchAccess | apply Kept.ite

theorem keep_execPatchWatch (e : Elem) (pa : BitVec 40) (store : Bool) (s : State) (h_s : Kept pq s) : KeptX pq (execPatchWatch e pa store s) := by
  unfold execPatchWatch
  repeat' (with_reducible first | assumption | fail_if_no_progress beta_reduce | apply keep_store | apply keep_patchWatch | apply Kept.ite | apply KeptX.next)

end Sys2Proof.Machine
end

