-- ==== Sys2Proof/Laws/KeepLoopExt.lean ====
section
/-! SUPPORT. What the functions of `LoopExt` keep: the queue, and the canonical form of memory and registers. -/

namespace Sys2Proof.Machine

variable {pq : List Instr}

theorem keep_extInstr (f : Word → Word → AluRes) (e : Elem) (rd ra rb : BitVec 5) (s : State) (h_s : Kept pq s) : Kept pq (extInstr f e rd ra rb s) := by
  unfold extInstr
  repeat' (with_reducible first | assumption | fail_if_no_progress beta_reduce | apply keep_runInstr | apply keep_regOp | apply Kept.ite | apply KeptO.done | apply KeptO.ended | apply KeptO.jump | apply KeptO.trap | apply KeptO.hold | apply KeptO.ite | intro _)

theorem keep_piBody (i : Nat) (hi : Bool) (rd ra rb : BitVec 5) (s : State) (h_s : Kept pq s) : KeptO pq (piBody i hi rd ra rb s) := by
  unfold piBody
  repeat'
    with_reducible first
    | assumption | intro _
    | extract_lets -underBinder +onlyGivenNames x
      first
        | have hx : Kept pq x := by
            try dsimp only [x]
            repeat' (with_reducible first | assumption | fail_if_no_progress beta_reduce | apply keep_setRset | apply Kept.ite | apply KeptO.done | apply KeptO.ended | apply KeptO.jump | apply KeptO.trap | apply KeptO.hold | apply KeptO.ite | intro _ | fail_if_no_progress (apply Kept.upd) | split | beta_reduce)
        | skip
      try clear_value x
    | fail_if_no_progress beta_reduce | apply keep_setRset | apply Kept.ite | apply KeptO.done | apply KeptO.ended | apply KeptO.jump | apply KeptO.trap | apply KeptO.hold | apply KeptO.ite

theorem keep_svmBody (i : Nat) (rd ra rb : BitVec 5) (s : State) (h_s : Kept pq s) : KeptO pq (svmBody i rd ra rb s) := by
  unfold svmBody
  repeat'
    with_reducible first
    | assumption | intro _
    | extract_lets -underBinder +onlyGivenNames x
      first
        | have hx : Kept pq x := by
            try dsimp only [x]
            repeat' (with_reducible first | assumption | fail_if_no_progress beta_reduce | apply keep_setRset | apply Kept.ite | apply KeptO.done | apply KeptO.ended | apply KeptO.jump | apply KeptO.trap | apply KeptO.hold | apply KeptO.ite | intro _ | fail_if_no_progress (apply Kept.upd) | split | beta_reduce)
        | skip
      try clear_value x
    | fail_if_no_progress beta_reduce | apply keep_setRset | apply Kept.ite | apply KeptO.done | apply KeptO.ended | apply KeptO.jump | apply KeptO.trap | apply KeptO.hold | apply KeptO.ite

theorem keep_vmacTerm (i : Nat) (x y : Place) (ecc : Ecc) (va vb : Word) (acc : DWord) (s : State) (h_s : Kept pq s) : KeptR pq (vmacTerm i x y ecc va vb acc s) := by
  unfold vmacTerm
  repeat'
    with_reducible first
    | assumption | intro _
    | extract_lets -underBinder +onlyGivenNames x
      first
        | have hx : Kept pq x := by
            try dsimp only [x]
            repeat' (with_reducible first | assumption | fail_if_no_progress beta_reduce | apply keep_memRead | apply keep_watchAccess | apply Kept.ite | fail_if_no_progress (apply KeptR.mk <;> try apply Kept.of2) | apply Kept.of2 | apply Kept.snd (by assumption) | apply KeptR.ite | intro _ | fail_if_no_progress (apply Kept.upd) | split | beta_reduce)
        | skip
      try clear_value x
    | fail_if_no_progress beta_reduce | apply keep_memRead | apply keep_watchAccess | apply Kept.ite | fail_if_no_progress (apply KeptR.mk <;> try apply Kept.of2) | apply Kept.of2 | apply Kept.snd (by assumption) | apply KeptR.ite | intro _ | fail_if_no_progress (apply Kept.upd) | split

theorem keep_vmacTerms (i : Nat) (stop : VmacStop) (a b : Word) : ∀ (x0 : List (Nat × Place × Place)) (x1 : DWord) (x2 : Bool) (x3 : Nat) (x4 : State), Kept pq x4 → KeptR pq (vmacTerms i stop a b x0 x1 x2 x3 x4)
  | [], acc, q, n, s, h_s => by
    unfold vmacTerms
    repeat'
      with_reducible first
      | assumption | intro _
      | extract_lets -underBinder +onlyGivenNames x
        first
          | have hx : Kept pq x := by
              try dsimp only [x]
              repeat' (with_reducible first | assumption | fail_if_no_progress beta_reduce | apply keep_vmacTerm | apply keep_vmacTerms | apply Kept.ite | fail_if_no_progress (apply KeptR.mk <;> try apply Kept.of2) | apply Kept.of2 | apply Kept.snd (by assumption) | apply KeptR.ite | intro _ | fail_if_no_progress (apply Kept.upd) | split | beta_reduce)
          | skip
        try clear_value x
      | fail_if_no_progress beta_reduce | apply keep_vmacTerm | apply keep_vmacTerms | apply Kept.ite | fail_if_no_progress (apply KeptR.mk <;> try apply Kept.of2)
  | (k, x, y) :: rest, acc, q, n, s, h_s => by
    unfold vmacTerms
    repeat'
      with_reducible first
      | assumption | intro _
      | extract_lets -underBinder +onlyGivenNames x
        first
          | have hx : Kept pq x := by
              try dsimp only [x]
              repeat' (with_reducible first | assumption | fail_if_no_progress beta_reduce | apply keep_vmacTerm | apply keep_vmacTerms | apply Kept.ite | fail_if_no_progress (apply KeptR.mk <;> try apply Kept.of2) | apply Kept.of2 | apply Kept.snd (by assumption) | apply KeptR.ite | intro _ | fail_if_no_progress (apply Kept.upd) | split | beta_reduce)
          | skip
        try clear_value x
      | fail_if_no_progress beta_reduce | apply keep_vmacTerm | apply keep_vmacTerms | apply Kept.ite | fail_if_no_progress (apply KeptR.mk <;> try apply Kept.of2) | apply Kept.of2 | apply Kept.snd (by assumption) | apply KeptR.ite | intro _ | fail_if_no_progress (apply Kept.upd) | split

theorem keep_vmacBody (i n : Nat) (ra rb : BitVec 5) (S : Bool) (stop : VmacStop) (s0 : State) (h_s0 : Kept pq s0) : KeptO pq (vmacBody i n ra rb S stop s0) := by
  unfold vmacBody
  repeat'
    with_reducible first
    | assumption | intro _
    | extract_lets -underBinder +onlyGivenNames x
      first
        | have hx : Kept pq x := by
            try dsimp only [x]
            repeat' (with_reducible first | assumption | fail_if_no_progress beta_reduce | apply keep_setRset | apply keep_vmacTerms | apply Kept.ite | fail_if_no_progress (apply KeptR.mk <;> try apply Kept.of2) | apply Kept.of2 | apply Kept.snd (by assumption) | apply KeptR.ite | apply KeptO.done | apply KeptO.ended | apply KeptO.jump | apply KeptO.trap | apply KeptO.hold | apply KeptO.ite | intro _)
        | skip
      try clear_value x
    | fail_if_no_progress beta_reduce | apply keep_setRset | apply keep_vmacTerms | apply Kept.ite | fail_if_no_progress (apply KeptR.mk <;> try apply Kept.of2) | apply Kept.of2 | apply Kept.snd (by assumption) | apply KeptR.ite | apply KeptO.done | apply KeptO.ended | apply KeptO.jump | apply KeptO.trap | apply KeptO.hold | apply KeptO.ite | intro _ | fail_if_no_progress (apply Kept.upd) | split

theorem keep_execClarke (e : Elem) (rd ra : BitVec 5) (s : State) (h_s : Kept pq s) : KeptX pq (execClarke e rd ra s) := by
  unfold execClarke
  repeat' (with_reducible first | assumption | fail_if_no_progress beta_reduce | apply keep_extInstr | apply Kept.ite | apply KeptX.next)

theorem keep_execSincos (e : Elem) (rd ra : BitVec 5) (s : State) (h_s : Kept pq s) : KeptX pq (execSincos e rd ra s) := by
  unfold execSincos
  repeat' (with_reducible first | assumption | fail_if_no_progress beta_reduce | apply keep_extInstr | apply Kept.ite | apply KeptX.next)

theorem keep_execPark (e : Elem) (rd ra rb : BitVec 5) (s : State) (h_s : Kept pq s) : KeptX pq (execPark e rd ra rb s) := by
  unfold execPark
  repeat' (with_reducible first | assumption | fail_if_no_progress beta_reduce | apply keep_extInstr | apply Kept.ite | apply KeptX.next)

theorem keep_execIpark (e : Elem) (rd ra rb : BitVec 5) (s : State) (h_s : Kept pq s) : KeptX pq (execIpark e rd ra rb s) := by
  unfold execIpark
  repeat' (with_reducible first | assumption | fail_if_no_progress beta_reduce | apply keep_extInstr | apply Kept.ite | apply KeptX.next)

theorem keep_execLimv (e : Elem) (rd ra rb : BitVec 5) (s : State) (h_s : Kept pq s) : KeptX pq (execLimv e rd ra rb s) := by
  unfold execLimv
  repeat' (with_reducible first | assumption | fail_if_no_progress beta_reduce | apply keep_extInstr | apply Kept.ite | apply KeptX.next)

theorem keep_execLimvD (e : Elem) (rd ra rb : BitVec 5) (s : State) (h_s : Kept pq s) : KeptX pq (execLimvD e rd ra rb s) := by
  unfold execLimvD
  repeat' (with_reducible first | assumption | fail_if_no_progress beta_reduce | apply keep_extInstr | apply Kept.ite | apply KeptX.next)

theorem keep_execSvm (e : Elem) (rd ra rb : BitVec 5) (s : State) (h_s : Kept pq s) : KeptX pq (execSvm e rd ra rb s) := by
  unfold execSvm
  repeat' (with_reducible first | assumption | fail_if_no_progress beta_reduce | apply keep_runInstr | apply keep_svmBody | apply Kept.ite | apply KeptO.done | apply KeptO.ended | apply KeptO.jump | apply KeptO.trap | apply KeptO.hold | apply KeptO.ite | apply KeptX.next)

theorem keep_execPiD (e : Elem) (rd ra rb : BitVec 5) (s : State) (h_s : Kept pq s) : KeptX pq (execPiD e rd ra rb s) := by
  unfold execPiD
  repeat' (with_reducible first | assumption | fail_if_no_progress beta_reduce | apply keep_runInstr | apply keep_piBody | apply Kept.ite | apply KeptO.done | apply KeptO.ended | apply KeptO.jump | apply KeptO.trap | apply KeptO.hold | apply KeptO.ite | apply KeptX.next)

theorem keep_execPiQ (e : Elem) (rd ra rb : BitVec 5) (s : State) (h_s : Kept pq s) : KeptX pq (execPiQ e rd ra rb s) := by
  unfold execPiQ
  repeat' (with_reducible first | assumption | fail_if_no_progress beta_reduce | apply keep_runInstr | apply keep_piBody | apply Kept.ite | apply KeptO.done | apply KeptO.ended | apply KeptO.jump | apply KeptO.trap | apply KeptO.hold | apply KeptO.ite | apply KeptX.next)

theorem keep_execVmac (e : Elem) (n : BitVec 5) (ra rb : BitVec 5) (S : Bool) (stop : VmacStop) (s : State) (h_s : Kept pq s) : KeptX pq (execVmac e n ra rb S stop s) := by
  unfold execVmac
  repeat' (with_reducible first | assumption | fail_if_no_progress beta_reduce | apply keep_runInstr | apply keep_vmacBody | apply Kept.ite | apply KeptO.done | apply KeptO.ended | apply KeptO.jump | apply KeptO.trap | apply KeptO.hold | apply KeptO.ite | apply KeptX.next)

end Sys2Proof.Machine
end

