-- ==== Sys2Proof/Laws/KeepSched.lean ====
section
/-! SUPPORT. What the functions of `Sched` keep: the queue, and the canonical form of memory and registers. -/

namespace Sys2Proof.Machine

variable {pq : List Instr}

theorem keep_endWaits (i : Nat) (mask : BitVec 8) (s : State) (h_s : Kept pq s) : Kept pq (endWaits i mask s) := by
  unfold endWaits
  repeat'
    with_reducible first
    | assumption | intro _
    | extract_lets -underBinder +onlyGivenNames x
      first
        | have hx : Kept pq x := by
            try dsimp only [x]
            repeat' (with_reducible first | assumption | fail_if_no_progress beta_reduce | apply keep_setBank | apply keep_endRun | apply Kept.ite | intro _ | fail_if_no_progress (apply Kept.upd) | split | beta_reduce)
        | skip
      try clear_value x
    | fail_if_no_progress beta_reduce | apply keep_setBank | apply keep_endRun

theorem keep_waitsBody (i : Nat) (mask : BitVec 8) (s : State) (h_s : Kept pq s) : KeptO pq (waitsBody i mask s) := by
  unfold waitsBody
  repeat'
    with_reducible first
    | assumption | intro _
    | extract_lets -underBinder +onlyGivenNames x
      first
        | have hx : Kept pq x := by
            try dsimp only [x]
            repeat' (with_reducible first | assumption | fail_if_no_progress beta_reduce | apply keep_setEl | apply keep_endWaits | apply Kept.ite | apply KeptO.done | apply KeptO.ended | apply KeptO.jump | apply KeptO.trap | apply KeptO.hold | apply KeptO.ite | intro _ | fail_if_no_progress (apply Kept.upd) | split | beta_reduce)
        | skip
      try clear_value x
    | fail_if_no_progress beta_reduce | apply keep_setEl | apply keep_endWaits | apply Kept.ite | apply KeptO.done | apply KeptO.ended | apply KeptO.jump | apply KeptO.trap | apply KeptO.hold | apply KeptO.ite

theorem keep_runEnd (i : Nat) (s : State) (h_s : Kept pq s) : Kept pq (runEnd i s) := by
  unfold runEnd
  repeat'
    with_reducible first
    | assumption | intro _
    | extract_lets -underBinder +onlyGivenNames x
      first
        | have hx : Kept pq x := by
            try dsimp only [x]
            repeat' (with_reducible first | assumption | fail_if_no_progress beta_reduce | apply keep_boundary | apply keep_endWaits | apply Kept.ite | intro _ | fail_if_no_progress (apply Kept.upd) | split | beta_reduce)
        | skip
      try clear_value x
    | fail_if_no_progress beta_reduce | apply keep_boundary | apply keep_endWaits | apply Kept.ite | intro _ | fail_if_no_progress (apply Kept.upd) | split

theorem keep_execWaits (e : Elem) (mask : BitVec 8) (s : State) (h_s : Kept pq s) : KeptX pq (execWaits e mask s) := by
  unfold execWaits
  repeat' (with_reducible first | assumption | fail_if_no_progress beta_reduce | apply keep_runInstr | apply keep_waitsBody | apply Kept.ite | apply KeptO.done | apply KeptO.ended | apply KeptO.jump | apply KeptO.trap | apply KeptO.hold | apply KeptO.ite | apply KeptX.next)

theorem keep_execRunEnd (g : Fin 32) (s : State) (h_s : Kept pq s) : KeptX pq (execRunEnd g s) := by
  unfold execRunEnd
  repeat' (with_reducible first | assumption | fail_if_no_progress beta_reduce | apply keep_runEnd | apply Kept.ite | apply KeptX.next)

theorem keep_dcommitBody (i : Nat) (s : State) (h_s : Kept pq s) : KeptO pq (dcommitBody i s) := by
  unfold dcommitBody
  repeat'
    with_reducible first
    | assumption | intro _
    | extract_lets -underBinder +onlyGivenNames x
      first
        | have hx : Kept pq x := by
            try dsimp only [x]
            repeat' (with_reducible first | assumption | fail_if_no_progress beta_reduce | apply keep_memRead | apply Kept.ite | fail_if_no_progress (apply KeptR.mk <;> try apply Kept.of2) | apply Kept.of2 | apply Kept.snd (by assumption) | apply KeptR.ite | apply KeptO.done | apply KeptO.ended | apply KeptO.jump | apply KeptO.trap | apply KeptO.hold | apply KeptO.ite | intro _ | fail_if_no_progress (apply Kept.upd) | split | beta_reduce)
        | skip
      try clear_value x
    | fail_if_no_progress beta_reduce | apply keep_memRead | apply Kept.ite | fail_if_no_progress (apply KeptR.mk <;> try apply Kept.of2) | apply Kept.of2 | apply Kept.snd (by assumption) | apply KeptR.ite | apply KeptO.done | apply KeptO.ended | apply KeptO.jump | apply KeptO.trap | apply KeptO.hold | apply KeptO.ite | intro _ | fail_if_no_progress (apply Kept.upd) | split

theorem keep_execDcommit (e : Elem) (s : State) (h_s : Kept pq s) : KeptX pq (execDcommit e s) := by
  unfold execDcommit
  repeat' (with_reducible first | assumption | fail_if_no_progress beta_reduce | apply keep_runInstr | apply keep_dcommitBody | apply Kept.ite | apply KeptO.done | apply KeptO.ended | apply KeptO.jump | apply KeptO.trap | apply KeptO.hold | apply KeptO.ite | apply KeptX.next)

theorem keep_setptWords (i : Nat) (a : Word) : ∀ (x0 : Nat) (x1 : State), Kept pq x1 → KeptR pq (setptWords i a x0 x1)
  | 0, s, h_s => by
    unfold setptWords
    repeat' (with_reducible first | assumption | fail_if_no_progress beta_reduce | apply keep_memRead | apply keep_watchAccess | apply keep_setptWords | apply Kept.ite | fail_if_no_progress (apply KeptR.mk <;> try apply Kept.of2))
  | n + 1, s, h_s => by
    unfold setptWords
    repeat' (with_reducible first | assumption | fail_if_no_progress beta_reduce | apply keep_memRead | apply keep_watchAccess | apply keep_setptWords | apply Kept.ite | fail_if_no_progress (apply KeptR.mk <;> try apply Kept.of2) | apply Kept.of2 | apply Kept.snd (by assumption) | apply KeptR.ite | intro _ | fail_if_no_progress (apply Kept.upd) | split)

theorem keep_recordAnswer (key : Nat) (stamp : Word) (ans : Nat) (s : State) (h_s : Kept pq s) : Kept pq (recordAnswer key stamp ans s) := by
  unfold recordAnswer
  repeat'
    with_reducible first
    | assumption | intro _
    | extract_lets -underBinder +onlyGivenNames x
      first
        | have hx : Kept pq x := by
            try dsimp only [x]
            repeat' (with_reducible first | assumption | fail_if_no_progress beta_reduce | apply keep_setCtx | apply Kept.ite | intro _ | fail_if_no_progress (apply Kept.upd) | split | beta_reduce)
        | skip
      try clear_value x
    | fail_if_no_progress beta_reduce | apply keep_setCtx | apply Kept.ite | intro _ | fail_if_no_progress (apply Kept.upd) | split

theorem keep_setRun (i : Nat) (f : Run → Run) (s : State) (h_s : Kept pq s) : Kept pq (setRun i f s) := by
  unfold setRun
  repeat'
    with_reducible first
    | assumption | intro _
    | extract_lets -underBinder +onlyGivenNames x
      first
        | have hx : Kept pq x := by
            try dsimp only [x]
            repeat' (with_reducible first | assumption | fail_if_no_progress beta_reduce | apply keep_setEl | apply Kept.ite | intro _ | fail_if_no_progress (apply Kept.upd) | split | beta_reduce)
        | skip
      try clear_value x
    | fail_if_no_progress beta_reduce | apply keep_setEl

theorem keep_setptBody (i : Nat) (rd ra : BitVec 5) (s : State) (h_s : Kept pq s) : KeptO pq (setptBody i rd ra s) := by
  unfold setptBody
  repeat'
    with_reducible first
    | assumption | intro _
    | extract_lets -underBinder +onlyGivenNames x
      first
        | have hx : Kept pq x := by
            try dsimp only [x]
            repeat' (with_reducible first | assumption | fail_if_no_progress beta_reduce | apply keep_offerSetpoint | apply keep_putGr | apply keep_setptWords | apply keep_recordAnswer | apply keep_setRun | apply Kept.ite | fail_if_no_progress (apply KeptR.mk <;> try apply Kept.of2) | apply Kept.of2 | apply Kept.snd (by assumption) | apply KeptR.ite | apply KeptO.done | apply KeptO.ended | apply KeptO.jump | apply KeptO.trap | apply KeptO.hold | apply KeptO.ite | intro _ | fail_if_no_progress (apply Kept.upd) | split | beta_reduce)
        | skip
      try clear_value x
    | fail_if_no_progress beta_reduce | apply keep_offerSetpoint | apply keep_putGr | apply keep_setptWords | apply keep_recordAnswer | apply keep_setRun | apply Kept.ite | fail_if_no_progress (apply KeptR.mk <;> try apply Kept.of2) | apply Kept.of2 | apply Kept.snd (by assumption) | apply KeptR.ite | apply KeptO.done | apply KeptO.ended | apply KeptO.jump | apply KeptO.trap | apply KeptO.hold | apply KeptO.ite | intro _ | fail_if_no_progress (apply Kept.upd) | split

theorem keep_execSetpt (e : Elem) (rd ra : BitVec 5) (s : State) (h_s : Kept pq s) : KeptX pq (execSetpt e rd ra s) := by
  unfold execSetpt
  repeat' (with_reducible first | assumption | fail_if_no_progress beta_reduce | apply keep_runInstr | apply keep_setptBody | apply Kept.ite | apply KeptO.done | apply KeptO.ended | apply KeptO.jump | apply KeptO.trap | apply KeptO.hold | apply KeptO.ite | apply KeptX.next)

theorem keep_startRun (key : Nat) (s : State) (h_s : Kept pq s) : Kept pq (startRun key s) := by
  unfold startRun
  repeat'
    with_reducible first
    | assumption | intro _
    | extract_lets -underBinder +onlyGivenNames x
      first
        | have hx : Kept pq x := by
            try dsimp only [x]
            repeat' (with_reducible first | assumption | fail_if_no_progress beta_reduce | apply keep_setEl | apply keep_setBank | apply keep_setCtx | apply keep_bump | apply keep_takeHalts | apply keep_bankFault | apply keep_traceRun | apply Kept.ite | apply Kept.foldl | intro _)
        | skip
      try clear_value x
    | fail_if_no_progress beta_reduce | apply keep_setEl | apply keep_setBank | apply keep_setCtx | apply keep_bump | apply keep_takeHalts | apply keep_bankFault | apply keep_traceRun | apply Kept.ite | apply Kept.foldl | intro _ | fail_if_no_progress (apply Kept.upd) | split

theorem keep_runStart (i : Nat) (s : State) (h_s : Kept pq s) : Kept pq (runStart i s) := by
  unfold runStart
  repeat' (with_reducible first | assumption | fail_if_no_progress beta_reduce | apply keep_startRun | apply Kept.ite | intro _ | fail_if_no_progress (apply Kept.upd) | split)

theorem keep_preempt (i : Nat) (s : State) (h_s : Kept pq s) : Kept pq (preempt i s) := by
  unfold preempt
  repeat'
    with_reducible first
    | assumption | intro _
    | extract_lets -underBinder +onlyGivenNames x
      first
        | have hx : Kept pq x := by
            try dsimp only [x]
            repeat' (with_reducible first | assumption | fail_if_no_progress beta_reduce | apply keep_setEl | apply keep_startRun | apply Kept.ite | intro _ | fail_if_no_progress (apply Kept.upd) | split | beta_reduce)
        | skip
      try clear_value x
    | fail_if_no_progress beta_reduce | apply keep_setEl | apply keep_startRun | apply Kept.ite | intro _ | fail_if_no_progress (apply Kept.upd) | split

theorem keep_execRunStart (g : Fin 32) (s : State) (h_s : Kept pq s) : KeptX pq (execRunStart g s) := by
  unfold execRunStart
  repeat' (with_reducible first | assumption | fail_if_no_progress beta_reduce | apply keep_runStart | apply Kept.ite | apply KeptX.next)

theorem keep_execPreempt (g : Fin 32) (s : State) (h_s : Kept pq s) : KeptX pq (execPreempt g s) := by
  unfold execPreempt
  repeat' (with_reducible first | assumption | fail_if_no_progress beta_reduce | apply keep_preempt | apply Kept.ite | apply KeptX.next)

theorem keep_budgetOverrun (i : Nat) (s : State) (h_s : Kept pq s) : Kept pq (budgetOverrun i s) := by
  unfold budgetOverrun
  repeat' (with_reducible first | assumption | fail_if_no_progress beta_reduce | apply keep_bump | apply keep_axst | apply keep_sadlNotice | apply keep_setRun | apply Kept.ite | intro _ | fail_if_no_progress (apply Kept.upd) | split)

theorem keep_budgetKill (i : Nat) (s : State) (h_s : Kept pq s) : Kept pq (budgetKill i s) := by
  unfold budgetKill
  repeat'
    with_reducible first
    | assumption | intro _
    | extract_lets -underBinder +onlyGivenNames x
      first
        | have hx : Kept pq x := by
            try dsimp only [x]
            repeat' (with_reducible first | assumption | fail_if_no_progress beta_reduce | apply keep_bankFault | apply keep_endRun | apply keep_boundary | apply Kept.ite | intro _ | fail_if_no_progress (apply Kept.upd) | split | beta_reduce)
        | skip
      try clear_value x
    | fail_if_no_progress beta_reduce | apply keep_bankFault | apply keep_endRun | apply keep_boundary | apply Kept.ite | intro _ | fail_if_no_progress (apply Kept.upd) | split

theorem keep_execBudgetOverrun (g : Fin 32) (s : State) (h_s : Kept pq s) : KeptX pq (execBudgetOverrun g s) := by
  unfold execBudgetOverrun
  repeat' (with_reducible first | assumption | fail_if_no_progress beta_reduce | apply keep_budgetOverrun | apply Kept.ite | apply KeptX.next)

theorem keep_execBudgetKill (g : Fin 32) (s : State) (h_s : Kept pq s) : KeptX pq (execBudgetKill g s) := by
  unfold execBudgetKill
  repeat' (with_reducible first | assumption | fail_if_no_progress beta_reduce | apply keep_budgetKill | apply Kept.ite | apply KeptX.next)

end Sys2Proof.Machine
end

