-- ==== Sys2Proof/Laws/KeepMaint.lean ====
section
/-! SUPPORT. What the functions of `Maint` keep: the queue, and the canonical form of memory and registers. -/

namespace Sys2Proof.Machine

variable {pq : List Instr}

theorem keep_maintBody (i : Nat) (ns : List (BitVec 5)) (low priv : Bool) (f : State → Out) (s : State) (h_f : ∀ x0, Kept pq x0 → KeptO pq (f x0)) (h_s : Kept pq s) : KeptO pq (maintBody i ns low priv f s) := by
  unfold maintBody
  repeat' (with_reducible first | assumption | fail_if_no_progress beta_reduce | apply h_f | apply Kept.ite | fail_if_no_progress (apply KeptR.mk <;> try apply Kept.of2) | apply Kept.of2 | apply Kept.snd (by assumption) | apply KeptR.ite | apply KeptO.done | apply KeptO.ended | apply KeptO.jump | apply KeptO.trap | apply KeptO.hold | apply KeptO.ite | intro _)

theorem keep_maintInstr (e : Elem) (ns : List (BitVec 5)) (low priv : Bool) (f : Nat → State → Out) (s : State) (h_f : ∀ x0 x1, Kept pq x1 → KeptO pq (f x0 x1)) (h_s : Kept pq s) : Kept pq (maintInstr e ns low priv f s) := by
  unfold maintInstr
  repeat' (with_reducible first | assumption | fail_if_no_progress beta_reduce | apply h_f | apply keep_runInstr | apply keep_maintBody | apply Kept.ite | fail_if_no_progress (apply KeptR.mk <;> try apply Kept.of2) | apply Kept.of2 | apply Kept.snd (by assumption) | apply KeptR.ite | apply KeptO.done | apply KeptO.ended | apply KeptO.jump | apply KeptO.trap | apply KeptO.hold | apply KeptO.ite | intro _)

theorem keep_lineOp (i : Nat) (k : Acc) (va : Word) (o : Obs) (op : Nat → State → State) (s : State) (h_op : ∀ x0 x1, Kept pq x1 → Kept pq (op x0 x1)) (h_s : Kept pq s) : KeptO pq (lineOp i k va o op s) := by
  unfold lineOp
  repeat' (with_reducible first | assumption | fail_if_no_progress beta_reduce | apply h_op | apply keep_cacheRefuses | apply keep_xlate | apply keep_applyObs | apply Kept.ite | fail_if_no_progress (apply KeptR.mk <;> try apply Kept.of2) | apply Kept.of2 | apply Kept.snd (by assumption) | apply KeptR.ite | apply KeptO.done | apply KeptO.ended | apply KeptO.jump | apply KeptO.trap | apply KeptO.hold | apply KeptO.ite | intro _ | fail_if_no_progress (apply Kept.upd) | split)

theorem keep_eachLine (p : Line → Bool) (op : Nat → State → State) (s : State) (h_op : ∀ x0 x1, Kept pq x1 → Kept pq (op x0 x1)) (h_s : Kept pq s) : Kept pq (eachLine p op s) := by
  unfold eachLine
  repeat' (with_reducible first | assumption | fail_if_no_progress beta_reduce | apply h_op | apply Kept.ite | fail_if_no_progress (apply KeptR.mk <;> try apply Kept.of2) | apply Kept.of2 | apply Kept.snd (by assumption) | apply KeptR.ite | apply KeptO.done | apply KeptO.ended | apply KeptO.jump | apply KeptO.trap | apply KeptO.hold | apply KeptO.ite | apply Kept.foldl | apply KeptR.foldl | intro _)

theorem keep_dropTlb (i : Nat) (p : TlbEntry → Bool) (s : State) (h_s : Kept pq s) : Kept pq (dropTlb i p s) := by
  unfold dropTlb
  repeat' (with_reducible first | assumption | fail_if_no_progress beta_reduce | apply keep_setEl)

theorem keep_dropWalks (i : Nat) (s : State) (h_s : Kept pq s) : Kept pq (dropWalks i s) := by
  unfold dropWalks
  repeat' (with_reducible first | assumption | fail_if_no_progress beta_reduce | apply keep_setEl)

theorem keep_everyCore (f : Nat → State → State) (s : State) (h_f : ∀ x0 x1, Kept pq x1 → Kept pq (f x0 x1)) (h_s : Kept pq s) : Kept pq (everyCore f s) := by
  unfold everyCore
  repeat' (with_reducible first | assumption | fail_if_no_progress beta_reduce | apply h_f | apply Kept.ite | fail_if_no_progress (apply KeptR.mk <;> try apply Kept.of2) | apply Kept.of2 | apply Kept.snd (by assumption) | apply KeptR.ite | apply KeptO.done | apply KeptO.ended | apply KeptO.jump | apply KeptO.trap | apply KeptO.hold | apply KeptO.ite | apply Kept.foldl | apply KeptR.foldl | intro _)

theorem keep_execDcclean (e : Elem) (ra : BitVec 5) (o : Obs) (s : State) (h_s : Kept pq s) : KeptX pq (execDcclean e ra o s) := by
  unfold execDcclean
  repeat' (with_reducible first | assumption | fail_if_no_progress beta_reduce | apply keep_cleanLine | apply keep_maintInstr | apply keep_lineOp | apply Kept.ite | apply KeptO.done | apply KeptO.ended | apply KeptO.jump | apply KeptO.trap | apply KeptO.hold | apply KeptO.ite | apply KeptX.next | apply KeptX.ite | intro _)

theorem keep_execDcinv (e : Elem) (ra : BitVec 5) (o : Obs) (s : State) (h_s : Kept pq s) : KeptX pq (execDcinv e ra o s) := by
  unfold execDcinv
  repeat' (with_reducible first | assumption | fail_if_no_progress beta_reduce | apply keep_dropLine | apply keep_maintInstr | apply keep_lineOp | apply Kept.ite | apply KeptO.done | apply KeptO.ended | apply KeptO.jump | apply KeptO.trap | apply KeptO.hold | apply KeptO.ite | apply KeptX.next | apply KeptX.ite | intro _)

theorem keep_execDcflush (e : Elem) (ra : BitVec 5) (o : Obs) (s : State) (h_s : Kept pq s) : KeptX pq (execDcflush e ra o s) := by
  unfold execDcflush
  repeat' (with_reducible first | assumption | fail_if_no_progress beta_reduce | apply keep_cleanLine | apply keep_dropLine | apply keep_maintInstr | apply keep_lineOp | apply Kept.ite | apply KeptO.done | apply KeptO.ended | apply KeptO.jump | apply KeptO.trap | apply KeptO.hold | apply KeptO.ite | apply KeptX.next | apply KeptX.ite | intro _)

theorem keep_execIcinv (e : Elem) (ra : BitVec 5) (o : Obs) (s : State) (h_s : Kept pq s) : KeptX pq (execIcinv e ra o s) := by
  unfold execIcinv
  repeat' (with_reducible first | assumption | fail_if_no_progress beta_reduce | apply keep_setEl | apply keep_maintInstr | apply keep_lineOp | apply Kept.ite | apply KeptO.done | apply KeptO.ended | apply KeptO.jump | apply KeptO.trap | apply KeptO.hold | apply KeptO.ite | apply KeptX.next | apply KeptX.ite | intro _)

theorem keep_execDccleanA (e : Elem) (s : State) (h_s : Kept pq s) : KeptX pq (execDccleanA e s) := by
  unfold execDccleanA
  repeat' (with_reducible first | assumption | fail_if_no_progress beta_reduce | apply keep_cleanLine | apply keep_maintInstr | apply keep_eachLine | apply Kept.ite | apply KeptO.done | apply KeptO.ended | apply KeptO.jump | apply KeptO.trap | apply KeptO.hold | apply KeptO.ite | apply KeptX.next | apply KeptX.ite | intro _)

theorem keep_execDcflushA (e : Elem) (s : State) (h_s : Kept pq s) : KeptX pq (execDcflushA e s) := by
  unfold execDcflushA
  repeat' (with_reducible first | assumption | fail_if_no_progress beta_reduce | apply keep_cleanLine | apply keep_dropLine | apply keep_maintInstr | apply keep_eachLine | apply Kept.ite | apply KeptO.done | apply KeptO.ended | apply KeptO.jump | apply KeptO.trap | apply KeptO.hold | apply KeptO.ite | apply KeptX.next | apply KeptX.ite | intro _)

theorem keep_execIcinvA (e : Elem) (s : State) (h_s : Kept pq s) : KeptX pq (execIcinvA e s) := by
  unfold execIcinvA
  repeat' (with_reducible first | assumption | fail_if_no_progress beta_reduce | apply keep_setEl | apply keep_maintInstr | apply Kept.ite | apply KeptO.done | apply KeptO.ended | apply KeptO.jump | apply KeptO.trap | apply KeptO.hold | apply KeptO.ite | apply KeptX.next | apply KeptX.ite | intro _)

theorem keep_execTlbi (e : Elem) (ra rb : BitVec 5) (s : State) (h_s : Kept pq s) : KeptX pq (execTlbi e ra rb s) := by
  unfold execTlbi
  repeat' (with_reducible first | assumption | fail_if_no_progress beta_reduce | apply keep_maintInstr | apply keep_dropTlb | apply Kept.ite | apply KeptO.done | apply KeptO.ended | apply KeptO.jump | apply KeptO.trap | apply KeptO.hold | apply KeptO.ite | apply KeptX.next | apply KeptX.ite | intro _)

theorem keep_execTlbiA (e : Elem) (s : State) (h_s : Kept pq s) : KeptX pq (execTlbiA e s) := by
  unfold execTlbiA
  repeat' (with_reducible first | assumption | fail_if_no_progress beta_reduce | apply keep_maintInstr | apply keep_dropTlb | apply Kept.ite | apply KeptO.done | apply KeptO.ended | apply KeptO.jump | apply KeptO.trap | apply KeptO.hold | apply KeptO.ite | apply KeptX.next | apply KeptX.ite | intro _)

theorem keep_execWalki (e : Elem) (s : State) (h_s : Kept pq s) : KeptX pq (execWalki e s) := by
  unfold execWalki
  repeat' (with_reducible first | assumption | fail_if_no_progress beta_reduce | apply keep_maintInstr | apply keep_dropWalks | apply Kept.ite | apply KeptO.done | apply KeptO.ended | apply KeptO.jump | apply KeptO.trap | apply KeptO.hold | apply KeptO.ite | apply KeptX.next | apply KeptX.ite | intro _)

theorem keep_execTlbiB (e : Elem) (ra rb : BitVec 5) (s : State) (h_s : Kept pq s) : KeptX pq (execTlbiB e ra rb s) := by
  unfold execTlbiB
  repeat' (with_reducible first | assumption | fail_if_no_progress beta_reduce | apply keep_maintInstr | apply keep_dropTlb | apply keep_everyCore | apply Kept.ite | apply KeptO.done | apply KeptO.ended | apply KeptO.jump | apply KeptO.trap | apply KeptO.hold | apply KeptO.ite | apply KeptX.next | apply KeptX.ite | intro _)

theorem keep_execTlbiAb (e : Elem) (s : State) (h_s : Kept pq s) : KeptX pq (execTlbiAb e s) := by
  unfold execTlbiAb
  repeat' (with_reducible first | assumption | fail_if_no_progress beta_reduce | apply keep_maintInstr | apply keep_dropTlb | apply keep_everyCore | apply Kept.ite | apply KeptO.done | apply KeptO.ended | apply KeptO.jump | apply KeptO.trap | apply KeptO.hold | apply KeptO.ite | apply KeptX.next | apply KeptX.ite | intro _)

theorem keep_execWalkiB (e : Elem) (s : State) (h_s : Kept pq s) : KeptX pq (execWalkiB e s) := by
  unfold execWalkiB
  repeat' (with_reducible first | assumption | fail_if_no_progress beta_reduce | apply keep_maintInstr | apply keep_dropWalks | apply keep_everyCore | apply Kept.ite | apply KeptO.done | apply KeptO.ended | apply KeptO.jump | apply KeptO.trap | apply KeptO.hold | apply KeptO.ite | apply KeptX.next | apply KeptX.ite | intro _)

end Sys2Proof.Machine
end

