-- ==== Sys2Proof/Laws/KeepTick.lean ====
section
/-! SUPPORT. What the functions of `Tick` keep: the queue, and the canonical form of memory and registers. -/

namespace Sys2Proof.Machine

variable {pq : List Instr}

theorem keep_forAll (l : List Nat) (f : Nat → State → State) (s : State) (h_f : ∀ x0 x1, Kept pq x1 → Kept pq (f x0 x1)) (h_s : Kept pq s) : Kept pq (forAll l f s) := by
  unfold forAll
  repeat' (with_reducible first | assumption | fail_if_no_progress beta_reduce | apply h_f | apply Kept.ite | fail_if_no_progress (apply KeptR.mk <;> try apply Kept.of2) | apply Kept.of2 | apply Kept.snd (by assumption) | apply KeptR.ite | apply KeptO.done | apply KeptO.ended | apply KeptO.jump | apply KeptO.trap | apply KeptO.hold | apply KeptO.ite | apply Kept.foldl | apply KeptR.foldl | intro _)

theorem keep_onlyIf (due : State → Nat → Bool) (f : Nat → State → State) (n : Nat) (s : State) (h_f : ∀ x0 x1, Kept pq x1 → Kept pq (f x0 x1)) (h_s : Kept pq s) : Kept pq (onlyIf due f n s) := by
  unfold onlyIf
  repeat' (with_reducible first | assumption | fail_if_no_progress beta_reduce | apply h_f | apply Kept.ite | fail_if_no_progress (apply KeptR.mk <;> try apply Kept.of2) | apply Kept.of2 | apply Kept.snd (by assumption) | apply KeptR.ite | apply KeptO.done | apply KeptO.ended | apply KeptO.jump | apply KeptO.trap | apply KeptO.hold | apply KeptO.ite | intro _)

theorem keep_timerDue (n : Nat) (s : State) (h_s : Kept pq s) : Kept pq (timerDue n s) := by
  unfold timerDue
  repeat' (with_reducible first | assumption | fail_if_no_progress beta_reduce | apply keep_timerZero | apply keep_channelFire | apply keep_forAll | apply Kept.ite | intro _)

theorem keep_bridgeDue (b : Nat) (s : State) (h_s : Kept pq s) : Kept pq (bridgeDue b s) := by
  unfold bridgeDue
  repeat'
    with_reducible first
    | assumption | intro _
    | extract_lets -underBinder +onlyGivenNames x
      first
        | have hx : Kept pq x := by
            try dsimp only [x]
            repeat' (with_reducible first | assumption | fail_if_no_progress beta_reduce | apply keep_evalBridge | apply keep_haltCheck | apply keep_bridgeEdges | apply keep_delayStarve | apply keep_cutTick | apply keep_acquire | apply keep_conversionEnd | apply keep_periodBoundary | apply keep_sampleAxis | apply Kept.ite | intro _)
      try clear_value x
    | fail_if_no_progress beta_reduce | apply keep_evalBridge | apply keep_haltCheck | apply keep_bridgeEdges | apply keep_delayStarve | apply keep_cutTick | apply keep_acquire | apply keep_conversionEnd | apply keep_periodBoundary | apply keep_sampleAxis | apply Kept.ite

theorem keep_unitDue (f : Nat) (s : State) (h_s : Kept pq s) : Kept pq (unitDue f s) := by
  unfold unitDue
  repeat'
    with_reducible first
    | assumption | intro _
    | extract_lets -underBinder +onlyGivenNames x
      first
        | have hx : Kept pq x := by
            try dsimp only [x]
            repeat' (with_reducible first | assumption | fail_if_no_progress beta_reduce | apply keep_fbCapture | apply keep_fbBlockWrite | apply Kept.ite | intro _)
      try clear_value x
    | fail_if_no_progress beta_reduce | apply keep_fbCapture | apply keep_fbBlockWrite | apply Kept.ite

theorem keep_trackDue (k : Nat) (s : State) (h_s : Kept pq s) : Kept pq (trackDue k s) := by
  unfold trackDue
  repeat'
    with_reducible first
    | assumption | intro _
    | extract_lets -underBinder +onlyGivenNames x
      first
        | have hx : Kept pq x := by
            try dsimp only [x]
            repeat' (with_reducible first | assumption | fail_if_no_progress beta_reduce | apply keep_markFire | apply keep_predictedFire | apply Kept.ite | intro _)
      try clear_value x
    | fail_if_no_progress beta_reduce | apply keep_markFire | apply keep_predictedFire | apply Kept.ite

theorem keep_wdgDue (n : Nat) (s : State) (h_s : Kept pq s) : Kept pq (wdgDue n s) := by
  unfold wdgDue
  repeat'
    with_reducible first
    | assumption | intro _
    | extract_lets -underBinder +onlyGivenNames x
      first
        | have hx : Kept pq x := by
            try dsimp only [x]
            repeat' (with_reducible first | assumption | fail_if_no_progress beta_reduce | apply keep_wdgViolation | apply keep_wdgWarn | apply Kept.ite | intro _)
      try clear_value x
    | fail_if_no_progress beta_reduce | apply keep_wdgViolation | apply keep_wdgWarn | apply Kept.ite

theorem keep_axesDue (s : State) (h_s : Kept pq s) : Kept pq (axesDue s) := by
  unfold axesDue
  repeat'
    with_reducible first
    | assumption | intro _
    | extract_lets -underBinder +onlyGivenNames x
      first
        | have hx : Kept pq x := by
            try dsimp only [x]
            repeat' (with_reducible first | assumption | fail_if_no_progress beta_reduce | apply keep_reserveCheck | apply keep_quietEnd | apply keep_shadowCompare | apply keep_balanceCheck | apply keep_overloadStep | apply keep_retryOrders | apply keep_pairCompare | apply keep_commitDeadline | apply keep_spDueFire | apply keep_forAll | apply Kept.ite | apply Kept.foldl | intro _)
      try clear_value x
    | fail_if_no_progress beta_reduce | apply keep_reserveCheck | apply keep_quietEnd | apply keep_shadowCompare | apply keep_balanceCheck | apply keep_overloadStep | apply keep_retryOrders | apply keep_pairCompare | apply keep_commitDeadline | apply keep_spDueFire | apply keep_forAll

theorem keep_allDue (s : State) (h_s : Kept pq s) : Kept pq (allDue s) := by
  unfold allDue
  repeat'
    with_reducible first
    | assumption | intro _
    | extract_lets -underBinder +onlyGivenNames x
      first
        | have hx : Kept pq x := by
            try dsimp only [x]
            repeat' (with_reducible first | assumption | fail_if_no_progress beta_reduce | apply keep_scrubRead | apply keep_thresholdJudge | apply keep_settle | apply keep_rotationStep | apply keep_calAgeCheck | apply keep_tripFilter | apply keep_sweepStep | apply keep_slotFire | apply keep_slowmeasTake | apply keep_boostEntry | apply keep_standbyEntry | apply keep_entryTimeout | apply keep_budgetUpdate | apply keep_stepTimes | apply keep_clockStep | apply keep_trimStep | apply keep_qbvSwitch | apply keep_serveWaiting | apply keep_bootReq | apply keep_bootDataTimeout | apply keep_sampleAll | apply keep_critStep | apply keep_projectAll | apply keep_stressSecond | apply keep_islandTestSelect | apply keep_islandEmpty | apply keep_evacuationTimeout | apply keep_coreBistStart | apply keep_coreBistAbort | apply keep_girthTick | apply keep_cycleStart | apply keep_sencTick | apply keep_pulseEnd | apply keep_linkTick | apply keep_wfiWake | apply keep_forAll | apply keep_onlyIf | apply keep_timerDue | apply keep_bridgeDue | apply keep_unitDue | apply keep_trackDue | apply keep_wdgDue | apply keep_axesDue | apply Kept.ite | intro _)
      try clear_value x
    | fail_if_no_progress beta_reduce | apply keep_scrubRead | apply keep_thresholdJudge | apply keep_settle | apply keep_rotationStep | apply keep_calAgeCheck | apply keep_tripFilter | apply keep_sweepStep | apply keep_slotFire | apply keep_slowmeasTake | apply keep_boostEntry | apply keep_standbyEntry | apply keep_entryTimeout | apply keep_budgetUpdate | apply keep_stepTimes | apply keep_clockStep | apply keep_trimStep | apply keep_qbvSwitch | apply keep_serveWaiting | apply keep_bootReq | apply keep_bootDataTimeout | apply keep_sampleAll | apply keep_critStep | apply keep_projectAll | apply keep_stressSecond | apply keep_islandTestSelect | apply keep_islandEmpty | apply keep_evacuationTimeout | apply keep_coreBistStart | apply keep_coreBistAbort | apply keep_girthTick | apply keep_cycleStart | apply keep_sencTick | apply keep_pulseEnd | apply keep_linkTick | apply keep_wfiWake | apply keep_forAll

theorem keep_elemTick (i : Nat) (s : State) (h_s : Kept pq s) : Kept pq (elemTick i s) := by
  unfold elemTick
  repeat'
    with_reducible first
    | assumption | intro _
    | extract_lets -underBinder +onlyGivenNames x
      first
        | have hx : Kept pq x := by
            try dsimp only [x]
            repeat' (with_reducible first | assumption | fail_if_no_progress beta_reduce | apply keep_setEl | apply keep_bumpN)
        | skip
      try clear_value x
    | fail_if_no_progress beta_reduce | apply keep_setEl | apply keep_bumpN | apply Kept.ite | intro _ | fail_if_no_progress (apply Kept.upd)

theorem keep_islandTick (i : Nat) (s : State) (h_s : Kept pq s) : Kept pq (islandTick i s) := by
  unfold islandTick
  repeat' (with_reducible first | assumption | fail_if_no_progress beta_reduce | apply Kept.ite | intro _ | fail_if_no_progress (apply Kept.upd))

theorem keep_loadInterval (s : State) (h_s : Kept pq s) : Kept pq (loadInterval s) := by
  unfold loadInterval
  repeat'
    with_reducible first
    | assumption | intro _
    | extract_lets -underBinder +onlyGivenNames x
      first
        | have hx : Kept pq x := by
            try dsimp only [x]
            repeat' (with_reducible first | assumption | fail_if_no_progress beta_reduce | apply keep_setRgFld | apply keep_forAll | apply Kept.ite | intro _)
        | skip
      try clear_value x
    | fail_if_no_progress beta_reduce | apply keep_setRgFld | apply keep_forAll | apply Kept.ite | intro _ | fail_if_no_progress (apply Kept.upd)

theorem keep_coarseTick (s : State) (h_s : Kept pq s) : Kept pq (coarseTick s) := by
  unfold coarseTick
  repeat'
    with_reducible first
    | assumption | intro _
    | extract_lets -underBinder +onlyGivenNames x
      first
        | have hx : Kept pq x := by
            try dsimp only [x]
            repeat' (with_reducible first | assumption | fail_if_no_progress beta_reduce | apply keep_setFb | apply keep_setTrk | apply keep_showSources | apply keep_carrierTick | apply keep_pairSafe | apply keep_trkArm | apply keep_fbLoad | apply keep_fbFilter | apply keep_forAll | apply keep_onlyIf | apply Kept.ite | intro _)
        | skip
      try clear_value x
    | fail_if_no_progress beta_reduce | apply keep_setFb | apply keep_setTrk | apply keep_showSources | apply keep_carrierTick | apply keep_pairSafe | apply keep_trkArm | apply keep_fbLoad | apply keep_fbFilter | apply keep_forAll | apply keep_onlyIf | apply Kept.ite | intro _ | fail_if_no_progress (apply Kept.upd) | split

theorem keep_slowCount (s : State) (h_s : Kept pq s) : Kept pq (slowCount s) := by
  unfold slowCount
  repeat'
    with_reducible first
    | assumption | intro _
    | extract_lets -underBinder +onlyGivenNames x
      first
        | have hx : Kept pq x := by
            try dsimp only [x]
            repeat' (with_reducible first | assumption | fail_if_no_progress beta_reduce | apply keep_slowAlarm | apply Kept.ite | intro _ | fail_if_no_progress (apply Kept.upd) | split | beta_reduce)
        | skip
      try clear_value x
    | fail_if_no_progress beta_reduce | apply keep_slowAlarm | apply Kept.ite | intro _ | fail_if_no_progress (apply Kept.upd)

theorem keep_slowTick (s : State) (h_s : Kept pq s) : Kept pq (slowTick s) := by
  unfold slowTick
  repeat'
    with_reducible first
    | assumption | intro _
    | extract_lets -underBinder +onlyGivenNames x
      first
        | have hx : Kept pq x := by
            try dsimp only [x]
            repeat' (with_reducible first | assumption | fail_if_no_progress beta_reduce | apply keep_slowCount | apply Kept.ite | intro _ | fail_if_no_progress (apply Kept.upd) | split | beta_reduce)
        | skip
      try clear_value x
    | fail_if_no_progress beta_reduce | apply keep_slowCount | apply Kept.ite | intro _ | fail_if_no_progress (apply Kept.upd)

theorem keep_wdgCount (s : State) (h_s : Kept pq s) : Kept pq (wdgCount s) := by
  unfold wdgCount
  repeat' (with_reducible first | assumption | fail_if_no_progress beta_reduce | apply keep_wdgTick | apply keep_forAll | apply Kept.ite | intro _ | fail_if_no_progress (apply Kept.upd))

theorem keep_nextTick (s : State) (h_s : Kept pq s) : Kept pq (nextTick s) := by
  unfold nextTick
  repeat'
    with_reducible first
    | assumption | intro _
    | extract_lets -underBinder +onlyGivenNames x
      first
        | have hx : Kept pq x := by
            try dsimp only [x]
            repeat' (with_reducible first | assumption | fail_if_no_progress beta_reduce | apply keep_timerPrescale | apply keep_ethTick | apply keep_forAll | apply keep_elemTick | apply keep_islandTick | apply keep_loadInterval | apply keep_coarseTick | apply keep_slowTick | apply keep_wdgCount | apply Kept.ite | intro _ | fail_if_no_progress (apply Kept.upd))
        | skip
      try clear_value x
    | fail_if_no_progress beta_reduce | apply keep_timerPrescale | apply keep_ethTick | apply keep_forAll | apply keep_elemTick | apply keep_islandTick | apply keep_loadInterval | apply keep_coarseTick | apply keep_slowTick | apply keep_wdgCount | apply Kept.ite

theorem keep_tick (s : State) (h_s : Kept pq s) : Kept pq (tick s) := by
  unfold tick
  repeat'
    with_reducible first
    | assumption | intro _
    | extract_lets -underBinder +onlyGivenNames x
      first
        | have hx : Kept pq x := by
            try dsimp only [x]
            repeat' (with_reducible first | assumption | fail_if_no_progress beta_reduce | apply keep_allDue)
      try clear_value x
    | fail_if_no_progress beta_reduce | apply keep_allDue | apply keep_slowCount | apply keep_nextTick | apply Kept.ite

end Sys2Proof.Machine
end

