-- ==== Sys2Proof/WellFormed.lean ====
section
/-! DEFINITION. Well-formed commands: the operands that the encodings of the element and the protocols of the ports
can spell.  A register field that the element does not have, a reserved condition, a list of the wrong length
are refused by the check that names them; `exec` gives such a command the exception or the answer of its rule
all the same. -/

namespace Sys2Proof

/-- The element is a loop engine. -/
def Elem.isRein : Elem → Bool
  | .rein _ => true
  | _ => false

/-- The element is an application core. -/
def Elem.isAc : Elem → Bool
  | .ac _ => true
  | _ => false

/-- Register fields of a 32-bit form: below 16 on a loop engine (R42). -/
def Elem.fields (e : Elem) (ns : List (BitVec 5)) : Bool := !e.isRein || ns.all (fun n => n.toNat < 16)

/-- What an access meets: the lines, instruction lines and walks of speculation are those of an application core
(R340, R349). -/
def Obs.ok (o : Obs) (e : Elem) : Bool :=
  e.isAc || (o.fills.isEmpty && o.evicts.isEmpty && o.ifills.isEmpty && o.walks.isEmpty)

def AluForm.ok (f : AluForm) (e : Elem) : Bool :=
  match f with | .r32 rd ra rb _ => e.fields [rd, ra, rb] | .rr _ _ => true
def ImmForm.ok (f : ImmForm) (e : Elem) : Bool :=
  match f with | .i32 rd ra _ => e.fields [rd, ra] | .i8 _ _ => true
def ShiftForm.ok (f : ShiftForm) (e : Elem) : Bool :=
  match f with | .i32 rd ra _ => e.fields [rd, ra] | .i16 _ _ => true
def CmpForm.ok (f : CmpForm) (e : Elem) : Bool :=
  match f with | .i32 ra _ => e.fields [ra] | .i8 _ _ => true
def MemForm.ok (f : MemForm) (e : Elem) : Bool :=
  match f with | .i32 rd ra _ => e.fields [rd, ra] | .r16 _ _ => true
/-- The bank field of a bank-relative form: 0 for the bank of `BANK`, or 16 + k (R54). -/
def bankField (ra : BitVec 5) : Bool := ra = 0 || 16 ≤ ra.toNat
def BankForm.ok (f : BankForm) (e : Elem) : Bool :=
  match f with | .i32 rd ra _ => e.fields [rd] && bankField ra | .k16 _ _ => true
/-- Condition 0xF is reserved (R46). -/
def BccForm.ok : BccForm → Bool
  | .b16 c _ => c ≠ 0xF
  | .b32 c _ => c ≠ 0xF

/-- The registers that a mask lists (R61). -/
def maskLen (m : BitVec 16) : Nat := (List.range 16).countP (fun k => m.getLsbD k)

/-- A `VMAC` of n + 1 terms is stopped before, or by, one of its terms (R88). -/
def VmacStop.ok (v : VmacStop) (n : BitVec 5) : Bool :=
  match v with
  | .none => true
  | .stopped k => k.val ≤ n.toNat
  | .ecc k => k.val ≤ n.toNat

/-- A calibration that ends gives sums of 64 16-bit codes at 17 levels (R146). -/
def calOk : CalRun → Bool
  | none => true
  | some l => l.length = 17 && l.all (fun p => p.1 ≤ 64 * 65535 && p.2 ≤ 64 * 65535 * 65535)

/-- The codes of one channel are 16 bits (R138). -/
def codesOk (r : Option Nat × Option Nat) : Bool :=
  (match r.1 with | some c => c < 65536 | none => true) && (match r.2 with | some c => c < 65536 | none => true)

/-- Places of the event router that arrive together: at least one, and no two the same (R122). -/
def placesOk (is : List Nat) : Bool := !is.isEmpty && decide is.Nodup

/-- The command's operands other than its master are among those the manual gives it. -/
def Instr.operandsOk (c : Instr) : Bool :=
  match c with
  | .add e f => f.ok e
  | .adc e rd ra rb _ => e.fields [rd, ra, rb]
  | .sub e f => f.ok e
  | .sbc e rd ra rb _ => e.fields [rd, ra, rb]
  | .and_ e f => f.ok e
  | .or_ e f => f.ok e
  | .xor_ e f => f.ok e
  | .andn e rd ra rb _ => e.fields [rd, ra, rb]
  | .lsl e f => f.ok e
  | .lsr e f => f.ok e
  | .asr e f => f.ok e
  | .ror e rd ra rb _ => e.fields [rd, ra, rb]
  | .mul e f => f.ok e
  | .mulhs e rd ra rb _ => e.fields [rd, ra, rb]
  | .mulhu e rd ra rb _ => e.fields [rd, ra, rb]
  | .min e rd ra rb _ => e.fields [rd, ra, rb]
  | .max e rd ra rb _ => e.fields [rd, ra, rb]
  | .minu e rd ra rb _ => e.fields [rd, ra, rb]
  | .maxu e rd ra rb _ => e.fields [rd, ra, rb]
  | .clz e rd ra _ => e.fields [rd, ra]
  | .slt e rd ra rb _ => e.fields [rd, ra, rb]
  | .sltu e rd ra rb _ => e.fields [rd, ra, rb]
  | .addsat e rd ra rb _ => e.fields [rd, ra, rb]
  | .subsat e rd ra rb _ => e.fields [rd, ra, rb]
  | .div e rd ra rb _ _ => e.fields [rd, ra, rb]
  | .divu e rd ra rb _ _ => e.fields [rd, ra, rb]
  | .rem e rd ra rb _ _ => e.fields [rd, ra, rb]
  | .remu e rd ra rb _ _ => e.fields [rd, ra, rb]
  | .addi e f => f.ok e
  | .andi e rd ra _ => e.fields [rd, ra]
  | .ori e rd ra _ => e.fields [rd, ra]
  | .xori e rd ra _ => e.fields [rd, ra]
  | .lsli e f => f.ok e
  | .lsri e f => f.ok e
  | .asri e f => f.ok e
  | .rori e rd ra _ => e.fields [rd, ra]
  | .cmpi e f => f.ok e
  | .tsti e ra _ => e.fields [ra]
  | .movh e rd _ => e.fields [rd]
  | .adrh e rd _ => e.fields [rd]
  | .ldb e rd ra _ o => e.fields [rd, ra] && o.ok e
  | .ldbu e rd ra _ o => e.fields [rd, ra] && o.ok e
  | .ldh e rd ra _ o => e.fields [rd, ra] && o.ok e
  | .ldhu e rd ra _ o => e.fields [rd, ra] && o.ok e
  | .ldw e f o => f.ok e && o.ok e
  | .stb e rd ra _ o => e.fields [rd, ra] && o.ok e
  | .sth e rd ra _ o => e.fields [rd, ra] && o.ok e
  | .stw e f o => f.ok e && o.ok e
  | .ldbP e rd ra _ o => e.fields [rd, ra] && rd ≠ ra && o.ok e
  | .ldbuP e rd ra _ o => e.fields [rd, ra] && rd ≠ ra && o.ok e
  | .ldhP e rd ra _ o => e.fields [rd, ra] && rd ≠ ra && o.ok e
  | .ldhuP e rd ra _ o => e.fields [rd, ra] && rd ≠ ra && o.ok e
  | .ldwP e rd ra _ o => e.fields [rd, ra] && rd ≠ ra && o.ok e
  | .stbP e rd ra _ o => e.fields [rd, ra] && o.ok e
  | .sthP e rd ra _ o => e.fields [rd, ra] && o.ok e
  | .stwP e rd ra _ o => e.fields [rd, ra] && o.ok e
  | .ldbK e rd ra _ o => e.isRein && e.fields [rd] && bankField ra && o.ok e
  | .ldbuK e rd ra _ o => e.isRein && e.fields [rd] && bankField ra && o.ok e
  | .ldhK e rd ra _ o => e.isRein && e.fields [rd] && bankField ra && o.ok e
  | .ldhuK e rd ra _ o => e.isRein && e.fields [rd] && bankField ra && o.ok e
  | .ldwK e f o => e.isRein && f.ok e && o.ok e
  | .stbK e rd ra _ o => e.isRein && e.fields [rd] && bankField ra && o.ok e
  | .sthK e rd ra _ o => e.isRein && e.fields [rd] && bankField ra && o.ok e
  | .stwK e f o => e.isRein && f.ok e && o.ok e
  | .ldwSp e _ _ o => !e.isRein && o.ok e
  | .stwSp e _ _ o => !e.isRein && o.ok e
  | .ldx e rd ra o => e.fields [rd, ra] && o.ok e
  | .stx e rd ra rb o => e.fields [rd, ra, rb] && rd ≠ ra && rd ≠ rb && o.ok e
  | .bcc _ f => f.ok
  | .callm e ra H mask os => e.fields [ra] && (if H then !e.isRein else mask.toNat < 0x4000) && os.length = maskLen mask + 2 && os.all (fun o => o.ok e)
  | .retm e os => 1 ≤ os.length && os.length ≤ 18 && os.all (fun o => o.ok e)
  | .mfs e rd _ => e.fields [rd]
  | .mts e _ ra => e.fields [ra]
  | .clarke e rd ra => e.isRein && e.fields [rd, ra]
  | .sincos e rd ra => e.isRein && e.fields [rd, ra]
  | .park e rd ra rb => e.isRein && e.fields [rd, ra, rb]
  | .ipark e rd ra rb => e.isRein && e.fields [rd, ra, rb]
  | .svm e rd ra rb => e.isRein && e.fields [rd, ra, rb] && rd.toNat < 14
  | .limv e rd ra rb => e.isRein && e.fields [rd, ra, rb]
  | .limvD e rd ra rb => e.isRein && e.fields [rd, ra, rb]
  | .piD e rd ra rb => e.isRein && e.fields [rd, ra, rb]
  | .piQ e rd ra rb => e.isRein && e.fields [rd, ra, rb]
  | .vmac e n ra rb _ stop => e.isRein && e.fields [ra, rb] && stop.ok n
  | .waits e _ => e.isRein
  | .dcommit e => e.isRein
  | .setpt e rd ra => e.isRein && e.fields [rd, ra]
  | .wfi e => !e.isRein
  | .dcclean e ra o => e.fields [ra] && o.ok e
  | .dcinv e ra o => e.fields [ra] && o.ok e
  | .dcflush e ra o => e.fields [ra] && o.ok e
  | .icinv e ra o => e.fields [ra] && o.ok e
  | .tlbi e ra rb => e.isAc && e.fields [ra, rb]
  | .tlbiA e => e.isAc
  | .walki e => e.isAc
  | .tlbiB e ra rb => e.isAc && e.fields [ra, rb]
  | .tlbiAb e => e.isAc
  | .walkiB e => e.isAc
  | .snapshotLowRead _ pa => pa % 4 = 0
  | .timerActionStart is => placesOk is
  | .timerActionStop is => placesOk is
  | .timerActionCapture is => placesOk is
  | .timerActionCount is => placesOk is
  | .selvedgeCapture is => placesOk is
  | .eventDelivery is cs => placesOk is && cs.all (fun c => c.1 < 512)
  | .interruptSourceEdge _ src => src ≠ 0
  | .initialCalibration rs => rs.length = 28 && rs.all calOk
  | .conversionEnd _ rs => rs.length = 3 && rs.all codesOk
  | .calibrationEnd _ r => calOk r
  | .girthReply _ _ _ rest _ => rest.length ≤ 35
  | .dmaChannelRequest is => placesOk is
  | .bootData _ _ _ data _ => 1 ≤ data.length && data.length ≤ 1024
  | .registerWrite _ pa _ => pa % 4 = 0
  | .instructionFetchFault e _ o => o.ok e
  | .mov _ _ _ | .movi _ _ _ | .not_ _ _ _ | .neg _ _ _ | .cmp _ _ _ | .tst _ _ _ | .sextb _ _ _ | .sexth _ _ _
  | .zextb _ _ _ | .zexth _ _ _ | .nop _ | .b _ _ | .bl _ _ | .jmpr _ _ | .callr _ _ | .fence _ | .repU _ _
  | .repIImm _ _ | .repIReg _ _ | .sync _ | .reth _ | .brk _ | .sys _ _ | .dccleanA _ | .dcflushA _ | .icinvA _
  | .interruptEntry _ | .twillStoreAck _ _ | .impreciseBusError _ _ _ | .runStart _ | .runEnd _ | .preempt _
  | .budgetOverrun _ | .budgetKill _ | .slowmeasUpdate | .slotLoWrite _ _ _ | .slotHiWrite _ _ _ | .slotPerWrite _ _ _
  | .slotCtrlWrite _ _ _ | .slotFire _ | .timerEnable _ _ _ | .timerZero _ | .timerChannelFire _ _
  | .timerCcWrite _ _ _ _ | .swtrig _ _ | .intcSet _ _ _ | .claim _ _ _ | .complete _ _ _ | .mbxMsgWrite _ _ _ _
  | .send _ _ _ | .ack _ _ _ | .mbxLock _ _ | .mbxDomainUp _ | .smpWrite _ _ _ | .sampleInstant _ | .rotationStep
  | .calageCheck | .comparatorOut _ _ _ | .tripInputActive _ _ | .comparatorSweep _ _ | .sweepStep _
  | .wakeComparatorActive _ _ _ _ | .pwmEnable _ _ _ | .pwmPhaseWrite _ _ _ | .stagePeriodWrite _ _ _
  | .stageEdgeWrite _ _ _ _ | .pwmCommit _ _ | .periodNow _ _ | .periodCutTick _ | .forcesafe _ _ | .clrsafe _ _
  | .forceWrite _ _ _ | .bundleArrival _ | .periodBoundary _ | .edgeFire _ _ _ | .deadtimeExpiry _ _
  | .delaylineMeasure _ _ _ | .dlstarveTimeout _ | .fbEnable _ _ _ | .quadEdge _ _ _ _ | .hallChange _ _ _
  | .indexEdge _ _ _ | .fbLoad _ _ | .capnow _ _ | .idxarm _ _ | .fbCapture _ | .fbBlockWrite _ | .sencEnable _ _ _
  | .sencFrameStart _ | .sencFrameEnd _ _ _ | .sencRegGo _ _ _ | .sencRegDone _ _ _ | .trkEnable _ _ _
  | .trkLimitWrite _ _ _ | .markFire _ | .predictedFire _ | .markPulseEnd _ | .place _ _ | .release _ _
  | .clrfault _ _ | .install _ | .uninstall _ _ | .islClrflt _ _ _ | .req3Write _ _ _ | .quietRequest _ _ _
  | .quietEnd _ | .balanceCheck | .migrationCopy _ | .copyAck _ _ | .shadowCompare _ | .serviceMigration _ _
  | .pairCompare _ | .commitDeadline _ | .setpointWrite _ | .spDueFire _ | .tethEnable _ _ _ | .tethLock _
  | .tethLockLoss _ | .tethTrainDone _ | .tethAlign _ | .tethTimeCell _ | .tethEchoRequest _ | .echoReceived _ _ _ _
  | .sampleCellReceived _ _ _ _ _ _ _ _ | .feedbackCellReceived _ _ _ _ _ _ | .statusCellReceived _ _ _ _
  | .regackReceived _ _ _ _ _ | .tethRegcmdGo _ _ _ | .tethRegTimeout _ | .uplossTimeout _ | .linkedBundle _
  | .linkLoopPeriod _ _ | .tethClrsafe _ _ _ | .tethForcesafe _ _ _ | .girthCycleStart _ | .girthSlot _
  | .girthReplyTimeout _ | .girthCollision _ | .queueEnable _ _ _ | .queueAutoPlaced _ _ | .qmProd _ _ | .qmCons _ _
  | .npop _ _ | .ethLinkChange _ _ _ _ | .ethFrameReceived _ _ _ _ | .injectionRecord | .ethTransmit _ | .ethTxDone _
  | .gtctlApply _ _ _ | .qbvApply _ _ _ | .qbvSwitch _ | .mdioGo _ _ | .mdioDone _ | .scrubRead _ _ | .memcInit _ _
  | .memcTrained _ | .dmaEnable _ _ _ | .dmaRingPlaced _ _ | .kick _ _ _ | .dmaDescriptor _ _ _ _ | .dmaWriteback _ _ _
  | .flashRead _ _ _ _ _ | .flcInv _ _ | .tvFlProgram _ | .tvFlErase | .erasePulseEnd _ _ | .eraseDone _
  | .tvFlSuspend | .tvFlResume | .tvFlBlank | .tvFlInfo | .tvFlMarkbad | .tvServe _ _ | .tvImgVerify _
  | .tvOtpProgram _ | .tvRollback _ | .tvLifecycle _ | .tvMeasExtend _ | .tvAttest _ | .bootSequence _ _ | .bootReq
  | .bootDataTimeout | .acrelGo _ _ _ | .dbgSubmit _ _ | .reqRun _ | .reqStandby _ | .reqHibernate _ | .reqSafeHold _
  | .standbyEntry | .entryTimeout | .nwake _ | .slowAlarm | .alarmHiWrite _ _ | .aonTempWake _ _ | .standbyWake _
  | .hibernateWake _ | .boostReq _ _ | .boostEntry | .budgetUpdate | .railAverage _ | .tempMeasure _ | .xtalFail _ _
  | .xtalReturn | .slowClockFail _ | .islClockStep _ | .islTrimStep _ | .powerOnReset _ _ | .brownoutReset _ _ | .pinReset _ _
  | .swrst _ | .wdgEnable _ _ _ | .wdgService _ _ _ | .wdgWarning _ | .wdgExpiry _ | .marginMeasure _
  | .projectionUpdate | .stressAccumulate | .islandTestSelect | .islandEmpty | .logicBistEnd _ | .marchEnd _
  | .islandRelease | .evacuationTimeout | .coreBistStart _ | .coreBistAbort _ | .coreBistEnd _ _ | .fclr _ _
  | .tapReset | .extest _ | .samplePreload _ | .idcode | .clamp _ | .highz _ | .bypass _ _ | .accRead _ _ | .accWrite _ _
  | .bdataWrite _ _ | .bdataRead _ | .halt _ _ | .resume _ _ | .step _ _ | .icinva _ _ | .regdataAccess _ _ _
  | .dbgRst _ _ | .patchBreak _ | .patchWatch _ _ _ | .patchWrite _ _ _ _ | .stimWrite _ _ _ | .vtOutWrite _ _ _
  | .vtInWrite _ _ _ | .vtFullClear _ _ _ | .illegalInstruction _ _ | .powerDown | .comparatorIn _ _ _
  | .tripInputInactive _ _ | .tethSymbolError _ _ _ | .tethInvalidCell _ _ _ | .girthInvalidFrame _ _ _ | .flashProgramDone _ _ _ => true

/-- The Twill master that a command names. -/
def Instr.master (c : Instr) : Option Master :=
  match c with
  | .snapshotLowRead m _ => some m
  | .slotLoWrite m _ _ => some m
  | .slotHiWrite m _ _ => some m
  | .slotPerWrite m _ _ => some m
  | .slotCtrlWrite m _ _ => some m
  | .timerEnable m _ _ => some m
  | .timerCcWrite m _ _ _ => some m
  | .swtrig m _ => some m
  | .intcSet m _ _ => some m
  | .claim m _ _ => some m
  | .complete m _ _ => some m
  | .mbxMsgWrite m _ _ _ => some m
  | .send m _ _ => some m
  | .ack m _ _ => some m
  | .mbxLock m _ => some m
  | .smpWrite m _ _ => some m
  | .pwmEnable m _ _ => some m
  | .pwmPhaseWrite m _ _ => some m
  | .stagePeriodWrite m _ _ => some m
  | .stageEdgeWrite m _ _ _ => some m
  | .pwmCommit m _ => some m
  | .periodNow m _ => some m
  | .forcesafe m _ => some m
  | .clrsafe m _ => some m
  | .forceWrite m _ _ => some m
  | .fbEnable m _ _ => some m
  | .fbLoad m _ => some m
  | .capnow m _ => some m
  | .idxarm m _ => some m
  | .sencEnable m _ _ => some m
  | .sencRegGo m _ _ => some m
  | .trkEnable m _ _ => some m
  | .trkLimitWrite m _ _ => some m
  | .place m _ => some m
  | .release m _ => some m
  | .clrfault m _ => some m
  | .install m => some m
  | .uninstall m _ => some m
  | .islClrflt m _ _ => some m
  | .req3Write m _ _ => some m
  | .quietRequest m _ _ => some m
  | .tethEnable m _ _ => some m
  | .tethRegcmdGo m _ _ => some m
  | .tethClrsafe m _ _ => some m
  | .tethForcesafe m _ _ => some m
  | .queueEnable m _ _ => some m
  | .qmProd m _ => some m
  | .qmCons m _ => some m
  | .npop m _ => some m
  | .gtctlApply m _ _ => some m
  | .qbvApply m _ _ => some m
  | .mdioGo m _ => some m
  | .memcInit m _ => some m
  | .dmaEnable m _ _ => some m
  | .kick m _ _ => some m
  | .flashRead m _ _ _ _ => some m
  | .flcInv m _ => some m
  | .acrelGo m _ _ => some m
  | .dbgSubmit m _ => some m
  | .reqRun m => some m
  | .reqStandby m => some m
  | .reqHibernate m => some m
  | .reqSafeHold m => some m
  | .alarmHiWrite m _ => some m
  | .boostReq m _ => some m
  | .swrst m => some m
  | .wdgEnable m _ _ => some m
  | .wdgService m _ _ => some m
  | .fclr m _ => some m
  | .halt m _ => some m
  | .resume m _ => some m
  | .step m _ => some m
  | .icinva m _ => some m
  | .regdataAccess m _ _ => some m
  | .dbgRst m _ => some m
  | .patchWrite m _ _ _ => some m
  | .stimWrite m _ _ => some m
  | .vtOutWrite m _ _ => some m
  | .vtInWrite m _ _ => some m
  | .vtFullClear m _ _ => some m
  | .registerWrite m _ _ => some m
  | .add _ _ | .adc _ _ _ _ _ | .sub _ _ | .sbc _ _ _ _ _ | .and_ _ _ | .or_ _ _ | .xor_ _ _ | .andn _ _ _ _ _
  | .lsl _ _ | .lsr _ _ | .asr _ _ | .ror _ _ _ _ _ | .mul _ _ | .mulhs _ _ _ _ _ | .mulhu _ _ _ _ _ | .min _ _ _ _ _
  | .max _ _ _ _ _ | .minu _ _ _ _ _ | .maxu _ _ _ _ _ | .clz _ _ _ _ | .slt _ _ _ _ _ | .sltu _ _ _ _ _
  | .addsat _ _ _ _ _ | .subsat _ _ _ _ _ | .div _ _ _ _ _ _ | .divu _ _ _ _ _ _ | .rem _ _ _ _ _ _
  | .remu _ _ _ _ _ _ | .addi _ _ | .andi _ _ _ _ | .ori _ _ _ _ | .xori _ _ _ _ | .lsli _ _ | .lsri _ _ | .asri _ _
  | .rori _ _ _ _ | .cmpi _ _ | .tsti _ _ _ | .movh _ _ _ | .adrh _ _ _ | .mov _ _ _ | .movi _ _ _ | .not_ _ _ _
  | .neg _ _ _ | .cmp _ _ _ | .tst _ _ _ | .sextb _ _ _ | .sexth _ _ _ | .zextb _ _ _ | .zexth _ _ _ | .nop _
  | .ldb _ _ _ _ _ | .ldbu _ _ _ _ _ | .ldh _ _ _ _ _ | .ldhu _ _ _ _ _ | .ldw _ _ _ | .stb _ _ _ _ _
  | .sth _ _ _ _ _ | .stw _ _ _ | .ldbP _ _ _ _ _ | .ldbuP _ _ _ _ _ | .ldhP _ _ _ _ _ | .ldhuP _ _ _ _ _
  | .ldwP _ _ _ _ _ | .stbP _ _ _ _ _ | .sthP _ _ _ _ _ | .stwP _ _ _ _ _ | .ldbK _ _ _ _ _ | .ldbuK _ _ _ _ _
  | .ldhK _ _ _ _ _ | .ldhuK _ _ _ _ _ | .ldwK _ _ _ | .stbK _ _ _ _ _ | .sthK _ _ _ _ _ | .stwK _ _ _
  | .ldwSp _ _ _ _ | .stwSp _ _ _ _ | .ldx _ _ _ _ | .stx _ _ _ _ _ | .bcc _ _ | .b _ _ | .bl _ _ | .jmpr _ _
  | .callr _ _ | .callm _ _ _ _ _ | .retm _ _ | .mfs _ _ _ | .mts _ _ _ | .fence _ | .repU _ _ | .repIImm _ _
  | .repIReg _ _ | .clarke _ _ _ | .sincos _ _ _ | .park _ _ _ _ | .ipark _ _ _ _ | .svm _ _ _ _ | .limv _ _ _ _
  | .limvD _ _ _ _ | .piD _ _ _ _ | .piQ _ _ _ _ | .vmac _ _ _ _ _ _ | .waits _ _ | .dcommit _ | .setpt _ _ _
  | .sync _ | .reth _ | .wfi _ | .brk _ | .sys _ _ | .dcclean _ _ _ | .dcinv _ _ _ | .dcflush _ _ _ | .icinv _ _ _
  | .dccleanA _ | .dcflushA _ | .icinvA _ | .tlbi _ _ _ | .tlbiA _ | .walki _ | .tlbiB _ _ _ | .tlbiAb _ | .walkiB _
  | .interruptEntry _ | .twillStoreAck _ _ | .impreciseBusError _ _ _ | .runStart _ | .runEnd _ | .preempt _
  | .budgetOverrun _ | .budgetKill _ | .slowmeasUpdate | .slotFire _ | .timerZero _ | .timerChannelFire _ _
  | .timerActionStart _ | .timerActionStop _ | .timerActionCapture _ | .timerActionCount _ | .selvedgeCapture _
  | .eventDelivery _ _ | .interruptSourceEdge _ _ | .mbxDomainUp _ | .initialCalibration _ | .sampleInstant _
  | .conversionEnd _ _ | .rotationStep | .calibrationEnd _ _ | .calageCheck | .comparatorOut _ _ _
  | .tripInputActive _ _ | .comparatorSweep _ _ | .sweepStep _ | .wakeComparatorActive _ _ _ _ | .periodCutTick _
  | .bundleArrival _ | .periodBoundary _ | .edgeFire _ _ _ | .deadtimeExpiry _ _ | .delaylineMeasure _ _ _
  | .dlstarveTimeout _ | .quadEdge _ _ _ _ | .hallChange _ _ _ | .indexEdge _ _ _ | .fbCapture _ | .fbBlockWrite _
  | .sencFrameStart _ | .sencFrameEnd _ _ _ | .sencRegDone _ _ _ | .markFire _ | .predictedFire _ | .markPulseEnd _
  | .quietEnd _ | .balanceCheck | .migrationCopy _ | .copyAck _ _ | .shadowCompare _ | .serviceMigration _ _
  | .pairCompare _ | .commitDeadline _ | .setpointWrite _ | .spDueFire _ | .tethLock _ | .tethLockLoss _
  | .tethTrainDone _ | .tethAlign _ | .tethTimeCell _ | .tethEchoRequest _ | .echoReceived _ _ _ _
  | .sampleCellReceived _ _ _ _ _ _ _ _ | .feedbackCellReceived _ _ _ _ _ _ | .statusCellReceived _ _ _ _
  | .regackReceived _ _ _ _ _ | .tethRegTimeout _ | .uplossTimeout _ | .linkedBundle _ | .linkLoopPeriod _ _
  | .girthCycleStart _ | .girthSlot _ | .girthReply _ _ _ _ _ | .girthReplyTimeout _ | .girthCollision _
  | .queueAutoPlaced _ _ | .ethLinkChange _ _ _ _ | .ethFrameReceived _ _ _ _ | .injectionRecord | .ethTransmit _
  | .ethTxDone _ | .qbvSwitch _ | .mdioDone _ | .scrubRead _ _ | .memcTrained _ | .dmaRingPlaced _ _
  | .dmaChannelRequest _ | .dmaDescriptor _ _ _ _ | .dmaWriteback _ _ _ | .tvFlProgram _ | .tvFlErase
  | .erasePulseEnd _ _ | .eraseDone _ | .tvFlSuspend | .tvFlResume | .tvFlBlank | .tvFlInfo | .tvFlMarkbad
  | .tvServe _ _ | .tvImgVerify _ | .tvOtpProgram _ | .tvRollback _ | .tvLifecycle _ | .tvMeasExtend _ | .tvAttest _
  | .bootSequence _ _ | .bootReq | .bootData _ _ _ _ _ | .bootDataTimeout | .standbyEntry | .entryTimeout | .nwake _
  | .slowAlarm | .aonTempWake _ _ | .standbyWake _ | .hibernateWake _ | .boostEntry | .budgetUpdate | .railAverage _
  | .tempMeasure _ | .xtalFail _ _ | .xtalReturn | .slowClockFail _ | .islClockStep _ | .islTrimStep _ | .powerOnReset _ _
  | .brownoutReset _ _ | .pinReset _ _ | .wdgWarning _ | .wdgExpiry _ | .marginMeasure _ | .projectionUpdate
  | .stressAccumulate | .islandTestSelect | .islandEmpty | .logicBistEnd _ | .marchEnd _ | .islandRelease
  | .evacuationTimeout | .coreBistStart _ | .coreBistAbort _ | .coreBistEnd _ _ | .tapReset | .extest _
  | .samplePreload _ | .idcode | .clamp _ | .highz _ | .bypass _ _ | .accRead _ _ | .accWrite _ _ | .bdataWrite _ _
  | .bdataRead _ | .patchBreak _ | .patchWatch _ _ _ | .illegalInstruction _ _ | .instructionFetchFault _ _ _
  | .powerDown | .comparatorIn _ _ _ | .tripInputInactive _ _ | .tethSymbolError _ _ _ | .tethInvalidCell _ _ _
  | .girthInvalidFrame _ _ _ | .flashProgramDone _ _ _ => none

/-- What a master's accesses can carry (R25, R391): an identity that is issued, an engine's place only with an
island's, and the world of a master that has a fixed one. -/
def Master.issued (m : Master) : Bool :=
  !m.reserved && (m.sub = 0 || (8 ≤ m.mid.val && m.mid.val ≤ 15)) && (m.sec || (m.mid ≠ 0 && m.mid ≠ 25 && m.mid ≠ 26))
    && (!m.sec || m.mid ≠ 22)

/-- The command's operands are among those the manual gives it. -/
def Instr.wellFormed (c : Instr) : Bool :=
  c.operandsOk && match c.master with | some m => m.issued | none => true

end Sys2Proof
end

