-- ==== Sys2Proof/Tests/Slice0.lean ====
section
/-! SUPPORT. Small tests with results taken from the manual, the check of well-formed commands on terms it refuses, and
for each statement that has hypotheses a concrete state that meets them. -/

namespace Sys2Proof.Machine.Tests

/-! ### Small states -/

/-- The secure supervisor, a non-secure core, and the debug port as masters. -/
def sv : Master := { mid := 0, sec := true }
def ac0 : Master := { mid := 1 }
def dbgPort : Master := { mid := 24 }

abbrev s0 : State := State.reset
/-- Reset, with one register set. -/
def reg (a : Nat) (v : Word) : State := s0.setRg a v
/-- Reset, with `a` in g1 and `b` in g2 of the supervisor. -/
def svWith (a b : Word) : State := s0.setRset 36 (((s0.rset 36).setGr 1 a).setGr 2 b)
/-- RUN, with engine 0 in a class A run of its bank 0, `a` in g1 and `b` in g2. -/
def engWith (a b : Word) : State :=
  let s := s0.setRg (ra .pmu Pmu.MODE) 4
  let r := ((s.rset 0).setGr 1 a).setGr 2 b
  s.setEl 0 { s.el 0 with setA := r, runA := some { bank := 0 } }
/-- `AC_0` released. -/
def acUp : State := s0.setEl 32 { s0.el 32 with released := true }

/-- What holds of the next state of a command. -/
def gives (c : Instr) (s : State) (p : State → Bool) : Bool := match exec c s with | .next t => p t | _ => false
/-- `g3` of the supervisor. -/
def g3 (t : State) : Word := (t.rset 36).gr 3
/-- The low five bits of the supervisor's `STATUS`: Q, N, Z, C, V. -/
def fl (t : State) : Nat := (t.rset 36).status.toNat % 32

/-- `Ready`, as a test of a concrete state. -/
def readyNow (s : State) (i : Nat) : Bool :=
  awake s i && !inWaits s i && !(s.el i).wfi && (s.el i).imp.isEmpty && !(s.el i).stalled && !repAct (s.rset i)
    && (s.rset i).repSaved.isNone && !(s.rset i).progArm && s.dbg.want.isEmpty && s.dbg.steps.isEmpty
    && !s.dbg.fired && (s.el i).view.isEmpty && (s.el i).pendSr.isEmpty && (s.rset i).pendSt.isEmpty && (s.rset i).pendWorld.isEmpty
theorem ready_of {s : State} {i : Nat} (h : readyNow s i = true) : Ready s i := by
  simp only [readyNow, Bool.and_eq_true, Bool.not_eq_true', List.isEmpty_iff, Option.isNone_iff_eq_none] at h
  obtain ⟨⟨⟨⟨⟨⟨⟨⟨⟨⟨⟨⟨⟨⟨h1, h2⟩, h3⟩, h4⟩, h5⟩, h6⟩, h7⟩, h8⟩, h9⟩, h10⟩, h11⟩, h12⟩, h13⟩, h14⟩, h15⟩ := h
  exact ⟨⟨h1, h2, h3, h4, h5, h6, h7, h8, h9, h10, h11⟩, h12, h13, h14, h15⟩

/-! ### Arithmetic, from R45–R49 -/

theorem test_add_wraps : gives (.add .sv (.r32 3 1 2 true)) (svWith 0xFFFFFFFF 1)
    (fun t => g3 t = 0 && fl t = 6) = true := by decide
theorem test_add_overflows : gives (.add .sv (.r32 3 1 2 true)) (svWith 0x7FFFFFFF 1)
    (fun t => g3 t = 0x80000000 && fl t = 9) = true := by decide
theorem test_sub_borrows : gives (.sub .sv (.r32 3 1 2 true)) (svWith 0 1)
    (fun t => g3 t = 0xFFFFFFFF && fl t = 8) = true := by decide
theorem test_lsl_32 : gives (.lsl .sv (.r32 3 1 2 true)) (svWith 1 32) (fun t => g3 t = 0 && fl t = 6) = true := by decide
theorem test_lsl_33 : gives (.lsl .sv (.r32 3 1 2 true)) (svWith 0xFFFFFFFF 33) (fun t => g3 t = 0 && fl t = 4) = true := by
  decide
theorem test_lsr_32 : gives (.lsr .sv (.r32 3 1 2 true)) (svWith 0x80000000 32) (fun t => g3 t = 0 && fl t = 6) = true := by
  decide
theorem test_asr_255 : gives (.asr .sv (.r32 3 1 2 true)) (svWith 0x80000000 255)
    (fun t => g3 t = 0xFFFFFFFF && fl t = 10) = true := by decide
theorem test_ror_uses_five_bits : gives (.ror .sv 3 1 2 true) (svWith 0x80000001 0x21)
    (fun t => g3 t = 0xC0000000 && fl t = 10) = true := by decide
theorem test_div_by_zero : gives (.div .sv 3 1 2 false false) (svWith 7 0) (fun t => g3 t = 0xFFFFFFFF) = true := by decide
theorem test_div_wraps : gives (.div .sv 3 1 2 false false) (svWith 0x80000000 0xFFFFFFFF) (fun t => g3 t = 0x80000000) = true := by
  decide
theorem test_div_toward_zero : gives (.div .sv 3 1 2 false false) (svWith 0xFFFFFFF9 2) (fun t => g3 t = 0xFFFFFFFD) = true := by
  decide
theorem test_rem_sign_of_a : gives (.rem .sv 3 1 2 false false) (svWith 0xFFFFFFF9 2) (fun t => g3 t = 0xFFFFFFFF) = true := by
  decide
theorem test_remu_by_zero : gives (.remu .sv 3 1 2 false false) (svWith 7 0) (fun t => g3 t = 7) = true := by decide
theorem test_mulhs : gives (.mulhs .sv 3 1 2 false) (svWith 0xFFFFFFFF 2) (fun t => g3 t = 0xFFFFFFFF) = true := by decide
theorem test_mulhu : gives (.mulhu .sv 3 1 2 false) (svWith 0xFFFFFFFF 2) (fun t => g3 t = 1) = true := by decide
theorem test_clz_zero : gives (.clz .sv 3 1 false) (svWith 0 0) (fun t => g3 t = 32) = true := by decide
theorem test_addsat_clamps : gives (.addsat .sv 3 1 2 false) (svWith 0x7FFFFFFF 1)
    (fun t => g3 t = 0x7FFFFFFF && fl t = 16) = true := by decide
theorem test_slt_signed : gives (.slt .sv 3 1 2 false) (svWith 0xFFFFFFFF 0) (fun t => g3 t = 1) = true := by decide
theorem test_sltu_unsigned : gives (.sltu .sv 3 1 2 false) (svWith 0xFFFFFFFF 0) (fun t => g3 t = 0) = true := by decide
/-- An engine has no g16 (R42). -/
theorem test_engine_g16 : gives (.add (.rein 0) (.r32 16 1 2 false)) (engWith 1 2)
    (fun t => (t.rset 0).cause = 1 && (t.rset 0).epc = 0) = true := by decide
/-- The worked example of R78. -/
theorem test_svm_example : (svmOf 0x1000 0x07D08000).1 = 0xD2F02710 ∧ (svmOf 0x1000 0x07D08000).2.1 = 0xA41055F0 := by decide

/-! ### Other worked examples and single commands -/

/-- The CRC of Tether over "123456789" is 0x29B1, that of Girth 0x4B37 (the checks given with R273 and R307). -/
def digits : List Byte := [0x31, 0x32, 0x33, 0x34, 0x35, 0x36, 0x37, 0x38, 0x39]
theorem test_tether_crc : crc16 0xFFFF digits = 0x29B1 := by decide +kernel
theorem test_girth_crc : girthCrc digits = 0x4B37 := by decide +kernel
/-- The worked example of R139. -/
theorem test_sample_correction : (correct ((((s0.setRg (ra .conv (Conv.CV_OFFS 11)) 40).setRg (ra .conv (Conv.CV_GAIN 11)) 0x8010).setRg
    (ra .conv (Conv.CV_LIN 11 8)) 24).setRg (ra .conv (Conv.CV_LIN 11 9)) 40) 11 0x8C40).1 = 0x8C51 := by decide
theorem test_sys_enters : gives (.sys .sv 5) s0
    (fun t => (t.rset 36).cause = 0x50008 && (t.rset 36).epc = 4 && (t.rset 36).estatus = 0x300) = true := by decide
theorem test_bcc_reserved : gives (.bcc .sv (.b16 0xF 1)) s0 (fun t => (t.rset 36).cause = 1) = true := by decide
theorem test_bl_links : gives (.bl .sv 2) s0 (fun t => (t.rset 36).pc = 4 && (t.rset 36).gr 15 = 4) = true := by decide
theorem test_store_then_word : (store 0x20000000 [1, 2, 3, 4] s0).word 0x20000000 = 0x04030201 := by decide
/-- A load of a byte with its sign, from the supervisor's TCM. -/
theorem test_ldb_sign : gives (.ldb .sv 3 1 0 {}) (store 0x18000000 [0x80] (svWith 0x18000000 0))
    (fun t => g3 t = 0xFFFFFF80) = true := by decide
theorem test_sth : gives (.sth .sv 2 1 2 {}) (svWith 0x18000000 0x12345678)
    (fun t => t.word 0x18000000 = 0x56780000) = true := by decide
theorem test_swtrig_range : gives (.swtrig sv 0x2BF) s0 (fun t => t.time.flights.isEmpty) = true := by decide
theorem test_slot_hi_arms : gives (.slotHiWrite sv 3 1) s0
    (fun t => (t.slot 3).pendArm = some true && (t.slot 3).pendValue = some 0x100000000) = true := by decide
theorem test_reqrun_configure : gives (.reqRun sv) s0 (fun t => opMode t = 4) = true := by decide
theorem test_reqrun_non_secure : gives (.reqRun ac0) s0 (fun t => t.resp = .err && opMode t = 3) = true := by decide
theorem test_idcode : gives .idcode s0 (fun t => t.resp = .ok 0x1712889D) = true := by decide
theorem test_wdg_bad_key_resets : gives (.wdgService sv 0 1) (reg (ra .pmu (Pmu.WDG_CFG 0)) 0x80000000)
    (fun t => fld (t.rg (ra .pmu Pmu.RSTCAUSE)) 31 28 = 4) = true := by decide
/-- The ball map of R491 has 163 balls with cells, and the place of each `PWM` ball in it. -/
theorem test_ball_map : ballList.length = 163 ∧ (List.range 72).all (fun k =>
    ballList.getD (pwmBall (k / 6) (k % 6)) .mdio = .pwm (k / 6) (k % 6)) = true := by decide +kernel
/-- A bypass register captures 0 and delays by one bit (R472). -/
theorem test_bypass_scan : gives (.bypass 0x1F [true, false, true]) s0
    (fun t => t.dbg.bypass && t.dbg.shifted = 2) = true := by decide
theorem test_step_takes_front : (match step { s0 with pending := [.idcode, .bypass] } with
    | .next t => t.pending = [.bypass] && t.resp = .ok 0x1712889D | _ => false) = true := by decide

/-! ### Commands that the check of well-formed commands refuses, one for each of its checks -/

/-- Register fields that a loop engine does not have. -/
theorem test_ill_engine_fields : [Instr.add (.rein 0) (.r32 16 0 0 false), .adc (.rein 0) 0 16 0 false,
    .addi (.rein 0) (.i32 16 0 0), .lsli (.rein 0) (.i32 0 16 0), .cmpi (.rein 0) (.i32 16 0), .ldb (.rein 0) 16 0 0 {},
    .ldw (.rein 0) (.i32 0 31 0) {}, .mfs (.rein 0) 16 0, .mts (.rein 0) 0 16, .movh (.rein 0) 16 0,
    .dcclean (.rein 0) 16 {}, .tsti (.rein 0) 16 0].all (fun c => !c.wellFormed) = true := by decide
/-- Instructions that only an engine, or only a core, has. -/
theorem test_ill_element : [Instr.clarke (.ac 0) 0 0, .sincos .sv 0 0, .park (.ac 0) 0 0 0, .vmac .sv 0 0 0 false .none,
    .waits .sv 1, .dcommit (.ac 0), .setpt .sv 0 0, .ldbK .sv 0 0 0 {}, .stwK (.ac 1) (.k16 0 0) {}, .ldwSp (.rein 0) 0 0 {},
    .stwSp (.rein 0) 0 0 {}, .wfi (.rein 0), .tlbi .sv 0 0, .tlbiA (.rein 0), .walki .sv].all (fun c => !c.wellFormed) = true := by
  decide
/-- A bank field below 16 other than 0; equal registers of a post-increment load and of `STX`; `SVM` without room. -/
theorem test_ill_registers : [Instr.ldwK (.rein 0) (.i32 0 1 0) {}, .ldbP .sv 3 3 0 {}, .stx .sv 1 1 2 {}, .stx .sv 2 1 2 {},
    .svm (.rein 0) 14 0 0].all (fun c => !c.wellFormed) = true := by decide
/-- The reserved condition; a mask beyond an engine's registers; a frame of the wrong length. -/
theorem test_ill_control : [Instr.bcc .sv (.b16 0xF 0), .bcc .sv (.b32 0xF 0), .callm .sv 0 false 0x4000 [{}, {}, {}],
    .callm (.rein 0) 0 true 1 [{}, {}, {}], .callm .sv 0 false 1 [{}], .retm .sv []].all (fun c => !c.wellFormed) = true := by
  decide
/-- Speculation seen by an element other than a core; a `VMAC` stopped after its end. -/
theorem test_ill_observations : [Instr.ldb .sv 0 0 0 { fills := [0] }, .stb (.rein 0) 0 0 0 { evicts := [0] },
    .ldw .sv (.r16 0 0) { ifills := [1] }, .ldx .sv 0 0 { walks := [1] }, .vmac (.rein 0) 2 0 0 false (.stopped 3),
    .vmac (.rein 0) 2 0 0 false (.ecc 3)].all (fun c => !c.wellFormed) = true := by decide
/-- Unaligned register addresses, empty or repeated places, lists of the wrong length, codes beyond 16 bits. -/
theorem test_ill_events : [Instr.snapshotLowRead sv 2, .registerWrite sv 1 0, .eventDelivery [] [], .eventDelivery [1, 1] [],
    .interruptSourceEdge 0 0, .initialCalibration [], .conversionEnd 0 [], .conversionEnd 0 [(some 65536, none), (none, none), (none, none)],
    .calibrationEnd 0 (some []), .girthReply 0 0 0 (List.replicate 36 0) 0, .bootData 0 0 0 [] .clean].all (fun c => !c.wellFormed) = true := by
  decide
theorem test_well_formed : [Instr.add (.rein 0) (.r32 15 0 0 false), .add .sv (.r32 31 0 0 false), .bcc .sv (.b16 0xE 0),
    .ldwK (.rein 0) (.i32 0 16 0) {}, .svm (.rein 0) 13 0 0, .vmac (.rein 0) 2 0 0 false (.stopped 2), .eventDelivery [1, 0] [],
    .callm .sv 0 false 0x3FFF (List.replicate 16 {}), .bootData 0 0 0 [1] .clean].all Instr.wellFormed = true := by decide

/-! ### States that meet the hypotheses of the statements -/

theorem ready_sv : Ready s0 36 := ready_of (by decide)
theorem ready_ac : Ready acUp 32 := ready_of (by decide)
theorem ready_eng : Ready (engWith 0 0) 0 := ready_of (by decide)
/-- Reset with the register that the list names at each value. -/
def regsAt (l : List (Nat × Word)) (s : State) : State := l.foldl (fun s e => s.setRg e.1 e.2) s
/-- A state at a later tick. -/
def later (n : Nat) (s : State) : State := { s with time.selvedge := w64 n }
/-- A read through the supervisor's or an engine's translation succeeds and leaves the element ready. -/
def readsOk (r : Except Trap α × State) (i : Nat) : Bool := (match r.1 with | .ok _ => true | .error _ => false) && readyNow r.2 i
/-- A store succeeds and leaves the element ready. -/
def putsOk (r : Option Trap × State) (i : Nat) : Bool := r.1.isNone && readyNow r.2 i
/-- The state of an element that is ready, with a stack pointer in the supervisor's TCM. -/
def svStack : State := (svWith 0x18000000 0).setRset 36 (((svWith 0x18000000 0).rset 36).setGr 14 0x18000100)

/-- For `SumsAndDifferences`, `LogicAndMoves`, `Shifts`, `Products`, `Division` and `ConditionTable`. -/
theorem witness_computes : Ready s0 (elemIdx .sv) ∧ regsOk (elemIdx .sv) [31, 1, 2] = true ∧ Ready (engWith 0 0) (elemIdx (.rein 0)) ∧
    regsOk (elemIdx (.rein 0)) [15, 1, 2] = true ∧ regsOk (elemIdx (.rein 0)) [16, 1, 2] = false ∧ Ready acUp (elemIdx (.ac 0)) :=
  ⟨ready_sv, rfl, ready_eng, rfl, rfl, ready_ac⟩
theorem witness_Loads : (readsOk (loadVa 36 1 0x18000003 {} svStack) 36 && readsOk (loadVa 36 2 0x18000002 {} svStack) 36
    && readsOk (loadVa 36 4 0x18000000 {} svStack) 36) = true ∧ ((svStack.rset 36).gr 14).toNat % 4 = 0 := by decide
theorem witness_Stores : (putsOk (storeVa 36 0x18000003 [1] {} svStack) 36 && putsOk (storeVa 36 0x18000002 [1, 2] {} svStack) 36
    && putsOk (storeVa 36 0x18000000 [1, 2, 3, 4] {} svStack) 36) = true := by decide
theorem witness_BankAccesses : (readsOk (loadBank 0 1 0 0xFFF .clean (engWith 0 0)) 0 && readsOk (loadBank 0 4 15 0xFFC .clean (engWith 0 0)) 0
    && putsOk (storeBank 0 0 0xFFE [1, 2] .clean (engWith 0 0)) 0) = true := by decide
/-- A posted store of `AC_0` to Twill SRAM. -/
def posted : State := acUp.setEl 32 { acUp.el 32 with wq := [{ pa := 0x20000000, bytes := [1], va := 0x20000000, set := 0, sec := false }] }
/-- The supervisor with a reservation on the word at the base of its TCM. -/
def reserved : State := svStack.setEl 36 { svStack.el 36 with resv := some { granule := 0x18000000 / 32, word := 0x18000000 / 4 } }
theorem witness_ReservationsAndFence : readyNow svStack 36 = true ∧ readyNow reserved 36 = true ∧
    (∃ p s1 bs, xlate 36 .load 0x18000000 none (applyObs 36 {} svStack) = (.ok p, s1) ∧ reservable s1 p.pa = true ∧
      loadAt 36 4 p .clean (drainFor 36 (p.pa / 32 * 32) 32 s1) = (.ok bs, s1) ∧ watchAccess 36 false p 4 s1 = s1) ∧
    (∃ p s1 s3, xlate 36 .store 0x18000000 none (applyObs 36 {} reserved) = (.ok p, s1) ∧ drainFor 36 (p.pa / 32 * 32) 32 s1 = s1 ∧
      (s1.el 36).resv = some { granule := 0xC00000, word := p.pa / 4 } ∧
      stxStore 36 p [1, 0, 0, 0] .clean (s1.setEl 36 { s1.el 36 with resv := none }) = (none, s3) ∧ readyNow s3 36 = true ∧
      watchAccess 36 true p 4 s3 = s3) ∧
    (∃ p s1, xlate 36 .load 0x40000 none (applyObs 36 {} svStack) = (.ok p, s1) ∧ reservable s1 p.pa = false) ∧
    mayLand posted (posted.el 32).wq 0 = true ∧ (s0.el 36).wq = [] :=
  ⟨by decide, by decide, ⟨_, _, _, rfl, by decide, rfl, rfl⟩, ⟨_, _, _, rfl, rfl, rfl, rfl, by decide, rfl⟩, ⟨_, _, rfl, by decide⟩, by decide, rfl⟩
theorem witness_BranchesAndCalls :
    putsOk (storeWords 36 0x180000F4 [1, 2, 3] [{}, {}, {}] svStack) 36 = true ∧ ((svStack.rset 36).gr 14).toNat % 4 = 0 ∧
    tb ((svStack.rset 36).gr 15) 0 = false ∧ readsOk (loadVa 36 4 0x18000100 {} svStack) 36 = true ∧
    readsOk (loadWords 36 1 0x18000104 [{}] svStack) 36 = true := by decide
/-- The supervisor without privilege. -/
def user : State := s0.setRset 36 { s0.rset 36 with status := 0x200 }
theorem witness_SpecialRegisters : Ready s0 36 ∧ sregHas 36 0 = true ∧ stPriv (s0.rset 36) = true ∧ Ready user 36 ∧
    stPriv (user.rset 36) = false ∧ sregPriv 4 = true ∧ sregHas 36 4 = true ∧ sregHas 36 0xFF = false :=
  ⟨ready_sv, by decide, by decide, ready_of (by decide), by decide, by decide, by decide, by decide⟩
theorem witness_MtsAndSync : sregSlow 4 = true ∧ sregSlow 0 = false ∧ sregSlow 8 = false ∧ Ready s0 36 :=
  ⟨by decide, by decide, by decide, ready_sv⟩
/-- The supervisor in a handler. -/
def handler : State := s0.setRset 36 { s0.rset 36 with status := 0xB00 }
theorem witness_ExceptionEntryAndReturn : Ready s0 36 ∧ stHnd (s0.rset 36) = false ∧ tb (s0.rset 36).pc 0 = false ∧
    Ready handler 36 ∧ stHnd (handler.rset 36) = true ∧ stPriv (handler.rset 36) = true :=
  ⟨ready_sv, by decide, by decide, ready_of (by decide), by decide, by decide⟩
theorem witness_HaltsAndWaits : Ready s0 36 ∧ intcPresents s0 (intcOf 36) = false ∧ Ready (reg (ra .dbg (Dbg.EL_CTRL 0)) 0x40) 36 ∧
    granted s0 36 = true ∧ (∃ p s1, xlate 36 .fetch 0 none s0 = (.ok p, s1)) :=
  ⟨ready_sv, by decide, ready_of (by decide), by decide, _, _, rfl⟩
theorem witness_LoopExtensions : Ready (engWith 1 2) 0 ∧ Ready acUp 32 := ⟨ready_of (by decide), ready_ac⟩
/-- Engine 0 with the block 0 of its translation over its own context memory. -/
def mapped : State :=
  let s := engWith 0 0
  s.setEl 0 { s.el 0 with xblk := [(1, 0xF000), (2, 0x31000), (3, 0x80000007)] }
/-- Engine 0's translation of a data address, outside the secure world and as memory of type 1. -/
def placedAt (va : Word) (pa : Nat) : Bool :=
  match xlateEngine (mapped.el 0) .load va mapped with
  | .ok p => p.pa == pa && !p.sec && p.mt == 1
  | .error _ => false
theorem mapped_pa0 : placedAt (0x100 + w32 (2 * 0)) 822083840 = true := by decide
theorem mapped_pa1 : placedAt (0x100 + w32 (2 * 1)) 822083842 = true := by decide
theorem mapped_xlate {va : Word} {pa : Nat} (h : placedAt va pa = true) :
    xlateEngine (mapped.el 0) .load va mapped = .ok ⟨pa, false, 1⟩ := by
  unfold placedAt at h
  split at h <;> simp_all
  rename_i p e
  cases p; simp_all
theorem mapped_direct0 : isDirect mapped 0 822083840 = true := rfl
theorem mapped_direct1 : isDirect mapped 0 822083842 = true := rfl
theorem mapped_read0 : memRead (elemMaster 0 false) false .clean 822083840 2 mapped = (.ok [0, 0], mapped) := rfl
theorem mapped_read1 : memRead (elemMaster 0 false) false .clean 822083842 2 mapped = (.ok [0, 0], mapped) := rfl
theorem mapped_watch (pa : Nat) : watchAccess 0 false ⟨pa, false, 1⟩ 2 mapped = mapped := rfl
theorem witness_MultiplyAccumulate : readyNow mapped 0 = true ∧ (∀ j ≤ 1, ∃ p bs,
    xlateEngine (mapped.el 0) .load (0x100 + w32 (2 * j)) mapped = .ok p ∧ isDirect mapped 0 p.pa = true ∧
    memRead (elemMaster 0 p.sec) false .clean p.pa 2 mapped = (.ok bs, mapped) ∧ watchAccess 0 false p 2 mapped = mapped) ∧
    (∃ t, xlateEngine (mapped.el 0) .load 0x20000000 mapped = .error t) := by
  refine ⟨by decide, fun j hj => ?_, ⟨_, rfl⟩⟩
  obtain rfl | rfl : j = 0 ∨ j = 1 := by omega
  · exact ⟨_, _, mapped_xlate mapped_pa0, mapped_direct0, mapped_read0, mapped_watch _⟩
  · exact ⟨_, _, mapped_xlate mapped_pa1, mapped_direct1, mapped_read1, mapped_watch _⟩
/-- Engine 0 with context 3 bound to the bank 0 of its run. -/
def bound : State := mapped.setBank 0 { ctx := some 3, mask := 1, latched := [(0, 0)] }
/-- The same bank, ready, with no run on the engine. -/
def waitingBank : State := bound.setEl 0 { bound.el 0 with runA := none }
theorem witness_RunsAndEvents : readyNow bound 0 = true ∧ stHnd (bound.rset 0) = false ∧ storesDone (bound.el 0) = true ∧
    (bound.bank 0).ctx = some 3 ∧ (bound.bank 0).cls.testBit 2 = false ∧
    (match setptPlace 0 0x100 bound with | .ok _ => true | .error _ => false) = true ∧ isSecondCopy bound 0 = false ∧
    engineRuns waitingBank 0 = true ∧ topRun (waitingBank.el 0) = none ∧ nextBank waitingBank 0 2 = some 0 ∧
    (runOf bound 0).isSome = true := by decide
theorem witness_CacheMaintenance : readyNow acUp 32 = true ∧ stPriv (acUp.rset 32) = true := by decide
theorem witness_CompareSlots : (let x : Slot := { arm := true, value := 0 }
    let s := s0.setSlot 255 x
    s.time.run && (s.slot 255).arm && reached 64 s.time.selvedge.toNat (s.slot 255).value.toNat && (s.slot 255).firedAt = none) = true ∧
    tb (s0.rg (ra .tb (Tb.SLOT_CTRL 0))) 30 = false ∧ tb ((reg (ra .tb (Tb.SLOT_CTRL 0)) 0x40000000).rg (ra .tb (Tb.SLOT_CTRL 0))) 30 = true := by
  decide
theorem witness_TimersAndSoftwareEvents : (let s := s0.setTimer 63 { zeroDue := true, ticked := true, armed := 8 }
    (s.timer 63).zeroDue && (s.timer 63).ticked && (s.timer 63).armed.getLsbD 3 && reached 32 0 (timerCc (s.timer 63) 3).toNat) = true ∧
    tb (s0.rg (ra .tim (Tim.CTRL 0))) 0 = false ∧ (0x2C0 : Word).toNat % 2 ^ 11 = 0x2C0 ∧ (0x2FF : Word).toNat % 2 ^ 11 = 0x2FF := by decide
/-- A flight of each kind at the head. -/
def flight (kind dest : Nat) : State := { s0 with time.flights := [{ src := 0x2C0, kind := kind, dest := dest, sec := true, slotSec := true }] }
theorem witness_EventDelivery : [(1, 256), (2, 0), (4, 31), (5, 15), (3, 63), (3, 64), (3, 128), (3, 255)].all (fun p =>
    (flight p.1 p.2).time.flights.all (fun f => flightValid f && !flightRefused (flight p.1 p.2) f)) = true ∧ midDown s0 0 = false := by
  decide
/-- A mailbox bound from SV to `AC_0`, idle, and with a message. -/
def mbxIdle : State := reg (ra .mbx (Mbx.BIND 0)) 0x80000100
def mbxFull : State := mbxIdle.setRg (ra .mbx (Mbx.STATE 0)) 0x11
theorem witness_Mailboxes : tb (mbxIdle.rg (ra .mbx (Mbx.BIND 0))) 31 = true ∧ mbxIsSender mbxIdle sv 0 = true ∧ mbxState mbxIdle 0 ≠ 1 ∧
    mbxIsReceiver mbxFull ac0 0 = true ∧ mbxState mbxFull 0 = 1 ∧ (mbxAckRefusal mbxIdle ac0 0).isSome = true := by decide
theorem witness_InterruptControllers : intcHidden s0 sv 0 511 = false ∧ intcHidden s0 sv 4 1 = false ∧ sourceLevel s0 0 1 = false := by decide
theorem witness_SnapshotsAndRegisterWrites : blockAt (ra .tb 0) = some (.tb, 0, 0) ∧ gateRefuses s0 sv (ra .tb 0) 4 = false ∧
    (highOf s0 sv .tb 0 0).isSome = true ∧ isHigh s0 sv .tb 0 = false ∧ gateRefuses s0 ac0 (ra .pmu Pmu.CTRL) 4 = true ∧ s0.faultQueue = [] := by decide
/-- A bridge that runs and samples. -/
def sampling : State := regsAt [(ra .conv (Conv.SMP 0), 0x80000000), (pw 0 Pwm.CFG, 0x80000000)] s0
theorem witness_Sampling : tb (s0.rg (ra .conv (Conv.SMP 11))) 31 = false ∧ tb (sampling.rg (ra .conv (Conv.SMP 0))) 31 = true ∧
    poolReady s0 = false ∧ pwmRun s0 0 = false ∧ opMode s0 = 3 := by decide
/-- Converter 0 in the role of the second argument. -/
def role (r : Nat) : State := s0.setRgFld (ra .conv (Conv.CV_STATE 0)) 2 0 r
theorem witness_CalibrationAndRotation : cvRole s0 27 ≠ 2 ∧ cvRole (role 2) 0 = 2 ∧ (none : CalRun).bind calFit = none ∧
    cvRole (role 1) 0 = 1 ∧ poolReady s0 = false := by decide
theorem witness_Comparators : tb (s0.rg (ra .cmp (Cmp.TRIPIN 3))) 31 = false ∧ tb ((reg (ra .cmp (Cmp.TRIPIN 3)) 0x80000000).rg (ra .cmp (Cmp.TRIPIN 3))) 31 = true ∧
    s0.conv.sweep = none ∧ tb ((reg (ra .cmp (Cmp.WAKE 3)) 0x80000000).rg (ra .cmp (Cmp.WAKE 3))) 31 = true ∧ opMode s0 ≠ 0 := by decide
theorem witness_BridgeRegisters : s0.faultQueue = [] ∧ (Blk.pwm.rowAt Pwm.CFG).isSome = true ∧ (Blk.pwm.rowAt (edgeReg 2)).isSome = true ∧
    (Blk.pwm.rowAt Pwm.PERIOD).isSome = true ∧ (Blk.pwm.rowAt Pwm.FORCE).isSome = true ∧ tb (s0.rg (pw 11 Pwm.CFG)) 31 = false ∧
    tb (s0.rg (pw 0 Pwm.CFG)) 29 = false ∧ tb (s0.rg (pw 0 Pwm.CFG)) 30 = false := by decide
theorem witness_BridgeEvents : (s0.br 0).cutDue = false ∧ ((s0.setBr 0 { cutDue := true, boundaryDue := true }).br 0).cutDue = true ∧
    edgeDue s0 0 0 true = false ∧ turnOnDue s0 11 5 = false ∧ s0.axis.edges[0]? = none := by decide
theorem witness_FeedbackUnits : tb (s0.rg (fr 11 Fb.CFG)) 31 = false ∧ fbMode s0 0 = 0 ∧ ((s0.setFb 0 { capDue := true }).fb 0).capDue = true ∧
    fbMode (reg (fr 0 Fb.CFG) 0x90000000) 0 = 1 ∧ fbMode (reg (fr 0 Fb.CFG) 0xA0000000) 0 = 2 := by decide
theorem witness_EncoderPorts : tb (s0.rg (sr 7 Senc.CFG)) 31 = false ∧ frameRefused s0 0 0x80000000 = false ∧ (s0.senc 0).capDue = false ∧
    tb ((reg (sr 0 Senc.STAT) 0x80000000).rg (sr 0 Senc.STAT)) 31 = true ∧ tb ((reg (sr 0 Senc.REGSTAT) 0x80000000).rg (sr 0 Senc.REGSTAT)) 31 = true := by
  decide
theorem witness_MarkTracks : tb (trkCfg s0 7) 31 = false ∧ markDue s0 0 = false ∧ predictedDue s0 0 = false ∧
    (s0.mark 7).isNone = true ∧ ((s0.setMark 7 (some { start := 0, stop := 0 })).mark 7).isSome = true ∧ coarse s0 = 0 := by decide
/-- Context 3 placed in bank 0. -/
def placed : State := waitingBank.setCtx 3 { placed := true, first := 0 }
theorem witness_SaddlerCommands : tb (s0.rg (ra .sadl Sadl.CMDSTAT)) 31 = false ∧ (placeRecord s0 255 true).isSome = true ∧
    (s0.ctx 0).placed = false ∧ (placed.ctx 3).placed = true ∧ (placed.ctx 3).mig = none ∧ ctxRuns placed 3 = false ∧
    reqWorld placed 3 = false ∧ s0.prog 255 = none := by decide
theorem witness_QuietWindowsAndPins : (s0.ax 127).quietEnd = none ∧ (s0.ax 127).gapEnd = none ∧
    ((s0.setAx 0 { quietEnd := some 0 }).ax 0).quietEnd = some 0 ∧ reached 64 s0.time.selvedge.toNat 0 = true ∧
    (s0.ctx 0).placed = false ∧ (placed.ctx 3).second = none ∧ tb ((reg (ra .sadl Sadl.POLICY) 0).rg (ra .sadl Sadl.POLICY)) 0 = false ∧
    tb (s0.rg (ra .sadl Sadl.POLICY)) 0 = true := by decide
/-- Engine 0 alone carries a load, with balancing on and the comparison due. -/
theorem witness_BalanceDue : balanceDue (later 8000000 s0) = true := by decide +kernel
theorem witness_Balance : balanceDue s0 = false ∧ islState s0 0 = 0 ∧ (s0.el 31).halted = false ∧
    engineLoad s0 31 [] = 0 := by decide
/-- A migration of context 3 from bank 0 to bank 1, at a step. -/
def moving (k : Nat) : State := placed.setCtx 3 { placed := true, mig := some { src := 0, dst := 1, agent := 6, step := k } }
theorem witness_Migrations : ((moving 1).ctx 3).mig = some { src := 0, dst := 1, agent := 6, step := 1 } ∧ (s0.ctx 255).mig = none ∧
    ((moving 0).bank 0).fault = none ∧ noPeriod (moving 0) 255 = true ∧ bankRuns (moving 0) 0 = false := by decide
/-- A pair of context 3 with the bundles of one sample. -/
def bundles (p : Compare) : State :=
  (placed.setCtx 3 { placed := true, second := some 16 }).setAx 3 { cmps := [p] }
theorem witness_PairsDeadlinesAndSetpoints : (s0.ctx 0).second = none ∧ (s0.ax 0).cmps = [] ∧ (s0.ctx 255).held = [] ∧
    (let s := placed.setCtx 3 { placed := true, held := [⟨0, 0, 0, 0, 1⟩] }
     (s.ctx 3).held.length = 1 ∧ boundBanks s 3 = [0] ∧ ctxRuns s 3 = false ∧ (s.ctx 3).delivered = false) ∧
    (∀ d : Bool, let s := { bundles ⟨0, false, some ([0], -4), some ([if d then 1 else 0], -4), none, false, false⟩ with
        time.selvedge := 0 }
      (s.ctx 3).second = some 16 ∧ (s.ax 3).cmps.length = 1 ∧ reached 64 s.time.selvedge.toNat ((-4 : DWord).toNat / 2 * 2 + 4) = true) ∧
    ((deadlinePassed 3 (bundles ⟨1, false, none, none, none, false, false⟩)).ax 3).cmps.length = 1 ∧
    (let s := placed.setBank 0 { placed.bank 0 with spArmed := true }
     let t := later 2 s
     (t.bank 0).spArmed = true ∧ t.time.selvedge ≠ (t.bank 0).spAt ∧ reached 32 t.time.selvedge.toNat (t.word (bankAddr 0 + 0x4C)).toNat = true) := by decide

/-- Link 0 enabled, in a state. -/
def linkIn (k : Nat) : State := regsAt [(tl 0 Teth.CFG, 0x80000000)] (s0.setRgFld (tl 0 Teth.STAT) 31 29 k)
theorem witness_TetherLinks : tb (s0.rg (tl 15 Teth.CFG)) 31 = false ∧ tb ((linkIn 0).rg (tl 0 Teth.CFG)) 31 = true ∧ tethState s0 0 = 0 ∧
    tethCells s0 0 = false ∧ elapsed (later 205 (linkIn 0)) ((linkIn 0).link 0).rxFrom 205 = true ∧ ((linkIn 0).link 0).errs = [] ∧
    rxLost (later 205 ((linkIn 1).setLink 0 { errs := [205, 204, 203, 202] })) 0 = true ∧ rxLost (linkIn 1) 0 = false ∧
    symbolError false 0 = true ∧ tethCells (linkIn 3) 0 = true ∧ cellValid (linkIn 3) 0 [] = false := by decide +kernel
/-- Axis 2 of the link 0, up, serves slot 5, whose context 5 is bound. -/
def linked : State := (regsAt [(tl 0 Teth.CFG, 0x80000000), (tl 0 Teth.CAPS, 0xFF), (tl 0 (Teth.AX_AX 2), 0xC0000005)]
  ((linkIn 3).setBank 0 { ctx := some 5, mask := 1 })).setCtx 5 { placed := true, first := 0 }
/-- The same, with the answer to a sample of a later period on its way. -/
def answering : State := later 1000 { linked.setLinkAx 0 2 { asked := some 7, pend := some (20, [1]) } with
  axis.edges := [{ axis := 5, bytes := List.replicate 16 0, bank := 0 }] }
theorem witness_TetherAxes : tethCells s0 0 = false ∧ tethEn s0 15 7 = false ∧ loopDue s0 0 0 = false ∧ tethCells linked 0 = true ∧
    tb (linked.rg (tl 0 Teth.CAPS)) 2 = true ∧ tethEn linked 0 2 = true ∧ tethSlot linked 0 2 = 5 ∧ ctxBound linked 5 = true ∧
    ctxBound (linked.setBank 0 {}) 5 = false ∧ (promote 0 ((linked.link 0).ax 2)).opened = none ∧ linkOf answering 5 = some (0, 2) ∧
    (bundleAtPort { axis := 5, bytes := List.replicate 16 0, bank := 0 } { answering with axis.edges := [] }).1 = true ∧
    periodAt answering 0 answering.time.selvedge ≤ 7 := by decide +kernel
/-- A word of memory. -/
def wordAt (a : Nat) (v : Word) (s : State) : State := store a (toBytes 4 v.toNat) s
theorem witness_QueuesReach : queueOpen midQm 0 s0 = (true, s0) ∧ queueOpen midSadl 8191 s0 = (true, s0) := by decide +kernel
theorem witness_Queues : qEn s0 0 = false ∧ qWorld s0 8191 = false ∧ notifyFifo s0 4 = [] ∧
    notifyFifo (setNotify 0 [5] s0) 0 = [5] ∧ rgnRefuses s0 true (qAddr 0 0) true = false ∧ fixedRefuses s0 true (qAddr 0 0) = false := by decide
theorem witness_GirthBus : (s0.girth 3).startDue = false ∧ (let s := (reg (gr 0 Girth.CFG) 0x80000000).setGirth 0 { startDue := true }
    (s.girth 0).startDue = true ∧ tb (s.rg (gr 0 Girth.CFG)) 31 = true ∧ (s.girth 0).walk = none ∧ (s.girth 0).attempt = none) := by decide
/-- `GIRTH_0` with node 7 of partner 3, whose queues take elements of 64 bytes, and its walk at entry `k`: 0 a command, 1 a `NOP`. -/
def girthUp (k : Nat) : State :=
  let s := regsAt [(gr 0 Girth.CFG, 0x80000000), (gr 0 (Girth.NODEMAP 7), 0x80000003), (gr 0 (Girth.SCHED_0 0), 0x80000007),
    (gr 0 (Girth.SCHED_0 1), 0xC0000007), (gr 0 Girth.SCHEDLEN, 2)] s0
  let t := wordAt (ptabAddr 3 0) 0x98070000 (wordAt (qAddr 7 0) 0x84006400 (wordAt (qAddr 7 1) 0x200000
    (wordAt (qAddr 6 0) 0x84006400 (wordAt (qAddr 6 1) 0x200010 s))))
  later 500000 (t.setGirth 0 { walk := some k })
/-- The same, with an element of two bytes to send. -/
def girthHolds : State := wordAt (qAddr 7 2) 1 (wordAt 0x20000000 2 (wordAt 0x20000004 0x2211 (girthUp 0)))
/-- An attempt with that element, and the reply to it. -/
def girthTried : State :=
  let t : GirthTry := { node := 7, partner := 3, nop := false, seq := 1, opcode := 0x11 }
  girthHolds.setGirth 0 { walk := some 0, sent := w64 499000, attempt := some t }
def girthAnswer : List Byte := girthFrame 7 8 1 [0x11, 0, 0x55, 9]
theorem witness_GirthSlot : girthFree girthHolds 0 = true ∧ girthLen girthHolds 0 = 2 ∧ girthReach 3 girthHolds = ((true, true), girthHolds) ∧
    ptValid girthHolds 3 = true ∧ ptKind girthHolds 3 = 3 ∧ ptPort girthHolds 3 = 0 ∧ fld (pw_ girthHolds 3 0) 23 16 = 7 ∧
    girthQs girthHolds 3 = true ∧ qEn girthHolds 7 = true ∧ qReady girthHolds 7 = true ∧ qCount girthHolds 7 = 1 ∧
    qWorld girthHolds 7 = ptWorld girthHolds 3 := by decide +kernel
theorem witness_GirthElement : (match agentRead midGirth false (qElem girthHolds 7 (qRd girthHolds 7)) 64 girthHolds with
    | (some b, t) => t = girthHolds && (b.getD 0 0).toNat = 2 | _ => false) = true := by decide +kernel
theorem witness_GirthNop : qCount (girthUp 1) 7 = 0 ∧ tb ((girthUp 1).rg (gr 0 (Girth.SCHED_0 1))) 30 = true ∧
    girthReach 3 (girthUp 1) = ((true, true), girthUp 1) ∧ girthQs (girthUp 1) 3 = true := by decide +kernel
theorem witness_GirthReply : girthFrameOk girthAnswer = true ∧ inWindow girthTried 0 girthTried.time.selvedge = true ∧
    ((girthTried.girth 0).attempt.map (·.held)) = some true ∧
    (let u := countEntry midGirth 6 3 6 (nodeAnswers 0 7 girthTried)
     girthQs u 3 = true ∧ (pushElem midGirth 6 false (List.replicate 12 0) u).1 = true) := by decide +kernel
/-- `ETH_0` with its link up, the partner 3 of the cabinet, its receive queue 6, its transmit queue 7 and the default queue 100. -/
def ethUp : State :=
  let s := regsAt [(er 0 Eth.CFG, 0xC8000000), (er 0 Eth.STAT, 0x80000000), (er 0 Eth.MAC_LO, 0x11223344), (er 0 Eth.MAC_HI, 0x0255),
    (er 0 Eth.CABTYPE, 0x88B5), (er 0 Eth.DEFQ, 100)] s0
  let t := wordAt (ptabAddr 3 0) 0x88000000 (wordAt (ptabAddr 3 1) 0xAABBCCDD (wordAt (ptabAddr 3 2) 0x0266 (wordAt (ptabAddr 3 4) 0xFF00
    (wordAt (ptabAddr 3 5) 5 s))))
  later 900000 (wordAt (qAddr 7 0) 0x87006400 (wordAt (qAddr 7 1) 0x200000 (wordAt (qAddr 7 2) 1 (wordAt 0x20000000 32 t))))
/-- The body of a message of channel 3, and of setpoints with one record. -/
def cabBody (kind count : Byte) (n : Nat) : List Byte := [1, kind, 3, 0, 9, 0, 0, 0, count, 0, 0, 0, 0, 0, 0, 0] ++ List.replicate n 0
/-- A frame for the port from the partner. -/
def cabFrame (body : List Byte) : List Byte := toBE 6 0x025511223344 ++ toBE 6 0x0266AABBCCDD ++ toBE 2 0x88B5 ++ body
theorem witness_CabinetFrames : [cabBody 2 4 30, cabBody 1 1 32].all (fun b =>
    cabinetOk ethUp 0 3 (cabFrame b) { tag := none, type := 0x88B5, off := 14, deep := false } none b) = true ∧
    partnerOpen (midEth 0) 6 3 ethUp = (true, ethUp) := by decide +kernel
theorem witness_EthTransmit : turns ethUp 0 = [(0, 7)] ∧ elemReach 0 7 ethUp = (true, ethUp) ∧ (elemFrame ethUp 0 7).isSome = true ∧
    tb (ethUp.word (headElem ethUp 7)) 18 = false ∧ gateWindow ethUp 0 0 = none ∧
    (agentRead (midEth 0) false (headElem ethUp 7) 64 ethUp).2 = ethUp := by decide +kernel
/-- A setpoint record of context 5 waits for injection. -/
def injecting : State :=
  let r : List Byte := [5, 0, 0, 0] ++ List.replicate 12 0 ++ toBytes 8 1000 ++ toBytes 4 7 ++ [0, 0, 0, 0]
  let f : InjFrame := { port := 0, ended := 0, chan := 3, word0 := 0x88008000, word4 := 0xFF00, tbase := false, map := none, records := [r] }
  { linked.setCtx 5 { placed := true, first := 0, lastSeq := some 3 } with ports.inject := [f] }
theorem witness_Injection : injecting.ports.inject.length = 1 ∧ boundBanks injecting 5 = [0] ∧ newer 32 7 3 = true ∧
    (offerSetpoint false 5 { pos := 0, vel := 0, torque := 0, due := 0, seq := 7 } injecting).1 = 0 := by decide +kernel
theorem witness_CabinetNetwork : tb (s0.rg (er 1 Eth.CFG)) 31 = false ∧ s0.ports.inject = [] ∧ (s0.eth 0).tx = none ∧
    tb ((reg (er 0 Eth.CFG) 0xC0000000).rg (er 0 Eth.CFG)) 30 = true ∧ qbvDue s0 0 = false ∧ tb (s0.rg (er 0 Eth.MDIOSTAT)) 31 = false := by decide
theorem witness_MemoryControllers : tb (s0.rg (ra .memc Memc.STAT)) 31 = false ∧ s0.dma.training = false ∧
    (match memRead sv false .clean 0x01FFFFFC 4 s0 with | (.ok bs, _) => bs.length = 4 | _ => false) = true := by decide
theorem witness_DmaChannels : tb (s0.rg (ra .dma (Dma.CH_CFG 31))) 31 = false ∧ (s0.chan 0).run = none ∧ powered s0 = true := by decide
theorem witness_FlashRoutines : callWaits s0 = false ∧ callWaits { s0 with sec.calls := [{ no := 2, arg := [] }] } = true ∧ (s0.fop 0).kind = 0 ∧ ((s0.setFop 1 { kind := 2 }).fop 1).kind = 2 ∧
    ((s0.setFop 1 { kind := 3 }).fop 1).kind = 3 ∧ flBusy s0 1 = false := by decide
/-- A message `TV_FL_INFO` of sector 300 for the monitor, on channel 61. -/
def asking : State := regsAt [(ra .mbx (Mbx.BIND 61), 0x80000001), (ra .mbx (Mbx.STATE 61), 0x11), (ra .mbx (Mbx.MSG 61 0), 6),
  (ra .mbx (Mbx.MSG 61 1), 300)] s0
theorem witness_MonitorServices : callWaits s0 = false ∧ opMode asking ≠ 7 ∧ monitorMail asking 61 = true ∧ svReg s0 1 = 0 ∧ otpLc s0 = 0 := by decide
theorem witness_BootAndRelease : s0.sec.booted = false ∧ opMode s0 = 3 ∧ inReset s0 = false ∧ inReset { s0 with power.held := true } = true ∧
    { s0 with sec.net.active := true }.sec.net.host = none ∧ (s0.el 36).halted = false ∧
    s0.sec.net.active = false ∧ tb (s0.rg (ra .boot (Boot.ACREL 3))) 31 = false := by decide
/-- The device in an operating mode. -/
def inMode (k : Word) : State := reg (ra .pmu Pmu.MODE) k
theorem witness_ModeRequests : tb (s0.rg (ra .pmu Pmu.MODE)) 31 = false ∧ opMode (inMode 6) = 6 ∧ opMode (inMode 5) = 5 ∧ opMode (inMode 1) = 1 ∧
    fld (s0.rg (ra .pmu Pmu.SHCAUSE)) 13 8 = 0 ∧ tb (s0.rg (ra .pmu Pmu.CLKSTAT)) 30 = false ∧ s0.power.entry = none ∧
    (let s := { inMode 4 with power.entry := some (2, 0) }
     s.power.entry = some (2, 0) ∧ entryConds (s.setEl 36 { s.el 36 with wfi := true }) = true ∧ slowEdge s = true) ∧
    slowEdge { s0 with time.slowRes := 32768 } = false ∧ aonDue (inMode 2) 328 = true ∧ aonDue (inMode 1) 327 = false := by decide
theorem witness_PowerAndClocks : tb (s0.rg (ra .pmu Pmu.BOOST)) 31 = false ∧ s0.time.run = true ∧ islState s0 7 ≠ 5 ∧
    (validTemps s0).max? = none ∧ opMode (inMode 4) = 4 ∧ (List.range 12).all (tempValid (List.replicate 12 400)) = true ∧
    Tbl.get (fun _ => none) { s0 with power.clkAt := [(3, some 0)] }.power.clkAt 3 = some (0 : DWord) := by decide
theorem witness_ResetsAndWatchdogs : opMode s0 ≠ 0 ∧ opMode (inMode 0) = 0 ∧ tb (s0.rg (ra .pmu (Pmu.WDG_CFG 5))) 31 = false ∧
    wdgRuns (reg (ra .pmu (Pmu.WDG_CFG 5)) 0x80000000) 5 = true ∧ ((reg (ra .pmu (Pmu.WDG_CFG 5)) 0x80000000).wdg 5).count = 0 := by decide
/-- A test of island 7 in a phase. -/
def testing (p : Word) : State := reg (ra .stc Stc.STAT) (0x80000007 + p * 32)
theorem witness_AgeingAndTests : testAt (testing 0) = some (7, 0) ∧ testAt (testing 1) = some (7, 1) ∧
    islBanks (testing 0) 7 = [] ∧ testAt (testing 4) = some (7, 4) ∧ testAt s0 = none ∧
    islDrained (testing 1) 7 = true ∧ s0.test.bist = [] ∧ opMode s0 < 4 := by decide
theorem witness_DebugControl : granted s0 36 = true ∧ (s0.el 36).halted = false ∧
    ((s0.setEl 36 { s0.el 36 with halted := true }).el 36).halted = true ∧ tb (s0.rg (ra .dbg (Dbg.VT_OUT 4))) 31 = false ∧
    tb (s0.rg (ra .dbg Dbg.STIMEN)) 31 = false := by decide
theorem witness_TestAccessPort : 2 ≤ opMode s0 ∧ opMode (inMode 1) < 2 ∧ grantSec s0 = true ∧ busAllowed s0 = true ∧
    busAddr s0 % busSize s0 = 0 := by decide
/-- For `StepKeepsInvariant` and `EveryCommandCompletes`. -/
theorem witness_Inv : State.reset.Inv := ⟨rfl, rfl⟩
theorem witness_StepRunsFrontCommand : s0.pending = [] ∧ ({ s0 with pending := [.nwake 1] } : State).pending = .nwake 1 :: [] := ⟨rfl, rfl⟩

end Sys2Proof.Machine.Tests
end

section
/-! That a step runs the front command or one tick, that every command completes, and that both keep the canonical form
of memory and registers: the claims of the Keep laws brought together over the dispatch. -/

namespace Sys2Proof.Machine

/-! ### What a step is -/

theorem step_nil {s : State} (h : s.pending = []) : step s = .next (tick s) := by
  unfold step
  rw [h]

theorem step_cons {s : State} {c : Instr} {rest : List Instr} (h : s.pending = c :: rest) :
    step s = exec c { s with pending := rest } := by
  unfold step
  rw [h]

/-! ### What a command keeps, and that it completes -/

/-- A command keeps the queue and the canonical form: the meaning that the dispatch calls for it does. -/
theorem keep_exec {q : List Instr} (c : Instr) (s : State) (h : Kept q s) : KeptX q (exec c s) := by
  cases c with
  | add => exact keep_execAdd (h_s := h) ..
  | adc => exact keep_execAdc (h_s := h) ..
  | sub => exact keep_execSub (h_s := h) ..
  | sbc => exact keep_execSbc (h_s := h) ..
  | and_ => exact keep_execAnd (h_s := h) ..
  | or_ => exact keep_execOr (h_s := h) ..
  | xor_ => exact keep_execXor (h_s := h) ..
  | andn => exact keep_execAndn (h_s := h) ..
  | lsl => exact keep_execLsl (h_s := h) ..
  | lsr => exact keep_execLsr (h_s := h) ..
  | asr => exact keep_execAsr (h_s := h) ..
  | ror => exact keep_execRor (h_s := h) ..
  | mul => exact keep_execMul (h_s := h) ..
  | mulhs => exact keep_execMulhs (h_s := h) ..
  | mulhu => exact keep_execMulhu (h_s := h) ..
  | min => exact keep_execMin (h_s := h) ..
  | max => exact keep_execMax (h_s := h) ..
  | minu => exact keep_execMinu (h_s := h) ..
  | maxu => exact keep_execMaxu (h_s := h) ..
  | clz => exact keep_execClz (h_s := h) ..
  | slt => exact keep_execSlt (h_s := h) ..
  | sltu => exact keep_execSltu (h_s := h) ..
  | addsat => exact keep_execAddsat (h_s := h) ..
  | subsat => exact keep_execSubsat (h_s := h) ..
  | div => exact keep_execDiv (h_s := h) ..
  | divu => exact keep_execDivu (h_s := h) ..
  | rem => exact keep_execRem (h_s := h) ..
  | remu => exact keep_execRemu (h_s := h) ..
  | addi => exact keep_execAddi (h_s := h) ..
  | andi => exact keep_execAndi (h_s := h) ..
  | ori => exact keep_execOri (h_s := h) ..
  | xori => exact keep_execXori (h_s := h) ..
  | lsli => exact keep_execLsli (h_s := h) ..
  | lsri => exact keep_execLsri (h_s := h) ..
  | asri => exact keep_execAsri (h_s := h) ..
  | rori => exact keep_execRori (h_s := h) ..
  | cmpi => exact keep_execCmpi (h_s := h) ..
  | tsti => exact keep_execTsti (h_s := h) ..
  | movh => exact keep_execMovh (h_s := h) ..
  | adrh => exact keep_execAdrh (h_s := h) ..
  | mov => exact keep_execMov (h_s := h) ..
  | movi => exact keep_execMovi (h_s := h) ..
  | not_ => exact keep_execNot (h_s := h) ..
  | neg => exact keep_execNeg (h_s := h) ..
  | cmp => exact keep_execCmp (h_s := h) ..
  | tst => exact keep_execTst (h_s := h) ..
  | sextb => exact keep_execSextb (h_s := h) ..
  | sexth => exact keep_execSexth (h_s := h) ..
  | zextb => exact keep_execZextb (h_s := h) ..
  | zexth => exact keep_execZexth (h_s := h) ..
  | nop => exact keep_execNop (h_s := h) ..
  | ldb => exact keep_execLdb (h_s := h) ..
  | ldbu => exact keep_execLdbu (h_s := h) ..
  | ldh => exact keep_execLdh (h_s := h) ..
  | ldhu => exact keep_execLdhu (h_s := h) ..
  | ldw => exact keep_execLdw (h_s := h) ..
  | stb => exact keep_execStb (h_s := h) ..
  | sth => exact keep_execSth (h_s := h) ..
  | stw => exact keep_execStw (h_s := h) ..
  | ldbP => exact keep_execLdbP (h_s := h) ..
  | ldbuP => exact keep_execLdbuP (h_s := h) ..
  | ldhP => exact keep_execLdhP (h_s := h) ..
  | ldhuP => exact keep_execLdhuP (h_s := h) ..
  | ldwP => exact keep_execLdwP (h_s := h) ..
  | stbP => exact keep_execStbP (h_s := h) ..
  | sthP => exact keep_execSthP (h_s := h) ..
  | stwP => exact keep_execStwP (h_s := h) ..
  | ldbK => exact keep_execLdbK (h_s := h) ..
  | ldbuK => exact keep_execLdbuK (h_s := h) ..
  | ldhK => exact keep_execLdhK (h_s := h) ..
  | ldhuK => exact keep_execLdhuK (h_s := h) ..
  | ldwK => exact keep_execLdwK (h_s := h) ..
  | stbK => exact keep_execStbK (h_s := h) ..
  | sthK => exact keep_execSthK (h_s := h) ..
  | stwK => exact keep_execStwK (h_s := h) ..
  | ldwSp => exact keep_execLdwSp (h_s := h) ..
  | stwSp => exact keep_execStwSp (h_s := h) ..
  | ldx => exact keep_execLdx (h_s := h) ..
  | stx => exact keep_execStx (h_s := h) ..
  | bcc => exact keep_execBcc (h_s := h) ..
  | b => exact keep_execB (h_s := h) ..
  | bl => exact keep_execBl (h_s := h) ..
  | jmpr => exact keep_execJmpr (h_s := h) ..
  | callr => exact keep_execCallr (h_s := h) ..
  | callm => exact keep_execCallm (h_s := h) ..
  | retm => exact keep_execRetm (h_s := h) ..
  | mfs => exact keep_execMfs (h_s := h) ..
  | mts => exact keep_execMts (h_s := h) ..
  | fence => exact keep_execFence (h_s := h) ..
  | repU => exact keep_execRepU (h_s := h) ..
  | repIImm => exact keep_execRepIImm (h_s := h) ..
  | repIReg => exact keep_execRepIReg (h_s := h) ..
  | clarke => exact keep_execClarke (h_s := h) ..
  | sincos => exact keep_execSincos (h_s := h) ..
  | park => exact keep_execPark (h_s := h) ..
  | ipark => exact keep_execIpark (h_s := h) ..
  | svm => exact keep_execSvm (h_s := h) ..
  | limv => exact keep_execLimv (h_s := h) ..
  | limvD => exact keep_execLimvD (h_s := h) ..
  | piD => exact keep_execPiD (h_s := h) ..
  | piQ => exact keep_execPiQ (h_s := h) ..
  | vmac => exact keep_execVmac (h_s := h) ..
  | waits => exact keep_execWaits (h_s := h) ..
  | dcommit => exact keep_execDcommit (h_s := h) ..
  | setpt => exact keep_execSetpt (h_s := h) ..
  | sync => exact keep_execSync (h_s := h) ..
  | reth => exact keep_execReth (h_s := h) ..
  | wfi => exact keep_execWfi (h_s := h) ..
  | brk => exact keep_execBrk (h_s := h) ..
  | sys => exact keep_execSys (h_s := h) ..
  | dcclean => exact keep_execDcclean (h_s := h) ..
  | dcinv => exact keep_execDcinv (h_s := h) ..
  | dcflush => exact keep_execDcflush (h_s := h) ..
  | icinv => exact keep_execIcinv (h_s := h) ..
  | dccleanA => exact keep_execDccleanA (h_s := h) ..
  | dcflushA => exact keep_execDcflushA (h_s := h) ..
  | icinvA => exact keep_execIcinvA (h_s := h) ..
  | tlbi => exact keep_execTlbi (h_s := h) ..
  | tlbiA => exact keep_execTlbiA (h_s := h) ..
  | walki => exact keep_execWalki (h_s := h) ..
  | tlbiB => exact keep_execTlbiB (h_s := h) ..
  | tlbiAb => exact keep_execTlbiAb (h_s := h) ..
  | walkiB => exact keep_execWalkiB (h_s := h) ..
  | interruptEntry => exact keep_execInterruptEntry (h_s := h) ..
  | twillStoreAck => exact keep_execTwillStoreAck (h_s := h) ..
  | impreciseBusError => exact keep_execImpreciseBusError (h_s := h) ..
  | runStart => exact keep_execRunStart (h_s := h) ..
  | runEnd => exact keep_execRunEnd (h_s := h) ..
  | preempt => exact keep_execPreempt (h_s := h) ..
  | budgetOverrun => exact keep_execBudgetOverrun (h_s := h) ..
  | budgetKill => exact keep_execBudgetKill (h_s := h) ..
  | snapshotLowRead => exact keep_execSnapshotLowRead (h_s := h) ..
  | slowmeasUpdate => exact keep_execSlowmeasUpdate (h_s := h) ..
  | slotLoWrite => exact keep_execSlotLoWrite (h_s := h) ..
  | slotHiWrite => exact keep_execSlotHiWrite (h_s := h) ..
  | slotPerWrite => exact keep_execSlotPerWrite (h_s := h) ..
  | slotCtrlWrite => exact keep_execSlotCtrlWrite (h_s := h) ..
  | slotFire => exact keep_execSlotFire (h_s := h) ..
  | timerEnable => exact keep_execTimerEnable (h_s := h) ..
  | timerZero => exact keep_execTimerZero (h_s := h) ..
  | timerChannelFire => exact keep_execTimerChannelFire (h_s := h) ..
  | timerCcWrite => exact keep_execTimerCcWrite (h_s := h) ..
  | timerActionStart => exact keep_execTimerActionStart (h_s := h) ..
  | timerActionStop => exact keep_execTimerActionStop (h_s := h) ..
  | timerActionCapture => exact keep_execTimerActionCapture (h_s := h) ..
  | timerActionCount => exact keep_execTimerActionCount (h_s := h) ..
  | selvedgeCapture => exact keep_execSelvedgeCapture (h_s := h) ..
  | swtrig => exact keep_execSwtrig (h_s := h) ..
  | eventDelivery => exact keep_execEventDelivery (h_s := h) ..
  | interruptSourceEdge => exact keep_execInterruptSourceEdge (h_s := h) ..
  | intcSet => exact keep_execIntcSet (h_s := h) ..
  | claim => exact keep_execClaim (h_s := h) ..
  | complete => exact keep_execComplete (h_s := h) ..
  | mbxMsgWrite => exact keep_execMbxMsgWrite (h_s := h) ..
  | send => exact keep_execSend (h_s := h) ..
  | ack => exact keep_execAck (h_s := h) ..
  | mbxLock => exact keep_execMbxLock (h_s := h) ..
  | mbxDomainUp => exact keep_execMbxDomainUp (h_s := h) ..
  | initialCalibration => exact keep_execInitialCalibration (h_s := h) ..
  | smpWrite => exact keep_execSmpWrite (h_s := h) ..
  | sampleInstant => exact keep_execSampleInstant (h_s := h) ..
  | conversionEnd => exact keep_execConversionEnd (h_s := h) ..
  | rotationStep => exact keep_execRotationStep (h_s := h) ..
  | calibrationEnd => exact keep_execCalibrationEnd (h_s := h) ..
  | calageCheck => exact keep_execCalageCheck (h_s := h) ..
  | comparatorOut => exact keep_execComparatorOut (h_s := h) ..
  | tripInputActive => exact keep_execTripInputActive (h_s := h) ..
  | comparatorSweep => exact keep_execComparatorSweep (h_s := h) ..
  | sweepStep => exact keep_execSweepStep (h_s := h) ..
  | wakeComparatorActive => exact keep_execWakeComparatorActive (h_s := h) ..
  | pwmEnable => exact keep_execPwmEnable (h_s := h) ..
  | pwmPhaseWrite => exact keep_execPwmPhaseWrite (h_s := h) ..
  | stagePeriodWrite => exact keep_execStagePeriodWrite (h_s := h) ..
  | stageEdgeWrite => exact keep_execStageEdgeWrite (h_s := h) ..
  | pwmCommit => exact keep_execPwmCommit (h_s := h) ..
  | periodNow => exact keep_execPeriodNow (h_s := h) ..
  | periodCutTick => exact keep_execPeriodCutTick (h_s := h) ..
  | forcesafe => exact keep_execForcesafe (h_s := h) ..
  | clrsafe => exact keep_execClrsafe (h_s := h) ..
  | forceWrite => exact keep_execForceWrite (h_s := h) ..
  | bundleArrival => exact keep_execBundleArrival (h_s := h) ..
  | periodBoundary => exact keep_execPeriodBoundary (h_s := h) ..
  | edgeFire => exact keep_execEdgeFire (h_s := h) ..
  | deadtimeExpiry => exact keep_execDeadtimeExpiry (h_s := h) ..
  | delaylineMeasure => exact keep_execDelaylineMeasure (h_s := h) ..
  | dlstarveTimeout => exact keep_execDlstarveTimeout (h_s := h) ..
  | fbEnable => exact keep_execFbEnable (h_s := h) ..
  | quadEdge => exact keep_execQuadEdge (h_s := h) ..
  | hallChange => exact keep_execHallChange (h_s := h) ..
  | indexEdge => exact keep_execIndexEdge (h_s := h) ..
  | fbLoad => exact keep_execFbLoad (h_s := h) ..
  | capnow => exact keep_execCapnow (h_s := h) ..
  | idxarm => exact keep_execIdxarm (h_s := h) ..
  | fbCapture => exact keep_execFbCapture (h_s := h) ..
  | fbBlockWrite => exact keep_execFbBlockWrite (h_s := h) ..
  | sencEnable => exact keep_execSencEnable (h_s := h) ..
  | sencFrameStart => exact keep_execSencFrameStart (h_s := h) ..
  | sencFrameEnd => exact keep_execSencFrameEnd (h_s := h) ..
  | sencRegGo => exact keep_execSencRegGo (h_s := h) ..
  | sencRegDone => exact keep_execSencRegDone (h_s := h) ..
  | trkEnable => exact keep_execTrkEnable (h_s := h) ..
  | trkLimitWrite => exact keep_execTrkLimitWrite (h_s := h) ..
  | markFire => exact keep_execMarkFire (h_s := h) ..
  | predictedFire => exact keep_execPredictedFire (h_s := h) ..
  | markPulseEnd => exact keep_execMarkPulseEnd (h_s := h) ..
  | place => exact keep_execPlace (h_s := h) ..
  | release => exact keep_execRelease (h_s := h) ..
  | clrfault => exact keep_execClrfault (h_s := h) ..
  | install => exact keep_execInstall (h_s := h) ..
  | uninstall => exact keep_execUninstall (h_s := h) ..
  | islClrflt => exact keep_execIslClrflt (h_s := h) ..
  | req3Write => exact keep_execReq3Write (h_s := h) ..
  | quietRequest => exact keep_execQuietRequest (h_s := h) ..
  | quietEnd => exact keep_execQuietEnd (h_s := h) ..
  | balanceCheck => exact keep_execBalanceCheck (h_s := h) ..
  | migrationCopy => exact keep_execMigrationCopy (h_s := h) ..
  | copyAck => exact keep_execCopyAck (h_s := h) ..
  | shadowCompare => exact keep_execShadowCompare (h_s := h) ..
  | serviceMigration => exact keep_execServiceMigration (h_s := h) ..
  | pairCompare => exact keep_execPairCompare (h_s := h) ..
  | commitDeadline => exact keep_execCommitDeadline (h_s := h) ..
  | setpointWrite => exact keep_execSetpointWrite (h_s := h) ..
  | spDueFire => exact keep_execSpDueFire (h_s := h) ..
  | tethEnable => exact keep_execTethEnable (h_s := h) ..
  | tethLock => exact keep_execTethLock (h_s := h) ..
  | tethLockLoss => exact keep_execTethLockLoss (h_s := h) ..
  | tethTrainDone => exact keep_execTethTrainDone (h_s := h) ..
  | tethAlign => exact keep_execTethAlign (h_s := h) ..
  | tethTimeCell => exact keep_execTethTimeCell (h_s := h) ..
  | tethEchoRequest => exact keep_execTethEchoRequest (h_s := h) ..
  | echoReceived => exact keep_execEchoReceived (h_s := h) ..
  | sampleCellReceived => exact keep_execSampleCellReceived (h_s := h) ..
  | feedbackCellReceived => exact keep_execFeedbackCellReceived (h_s := h) ..
  | statusCellReceived => exact keep_execStatusCellReceived (h_s := h) ..
  | regackReceived => exact keep_execRegackReceived (h_s := h) ..
  | tethRegcmdGo => exact keep_execTethRegcmdGo (h_s := h) ..
  | tethRegTimeout => exact keep_execTethRegTimeout (h_s := h) ..
  | uplossTimeout => exact keep_execUplossTimeout (h_s := h) ..
  | linkedBundle => exact keep_execLinkedBundle (h_s := h) ..
  | linkLoopPeriod => exact keep_execLinkLoopPeriod (h_s := h) ..
  | tethClrsafe => exact keep_execTethClrsafe (h_s := h) ..
  | tethForcesafe => exact keep_execTethForcesafe (h_s := h) ..
  | girthCycleStart => exact keep_execGirthCycleStart (h_s := h) ..
  | girthSlot => exact keep_execGirthSlot (h_s := h) ..
  | girthReply => exact keep_execGirthReply (h_s := h) ..
  | girthReplyTimeout => exact keep_execGirthReplyTimeout (h_s := h) ..
  | girthCollision => exact keep_execGirthCollision (h_s := h) ..
  | queueEnable => exact keep_execQueueEnable (h_s := h) ..
  | queueAutoPlaced => exact keep_execQueueAutoPlaced (h_s := h) ..
  | qmProd => exact keep_execQmProd (h_s := h) ..
  | qmCons => exact keep_execQmCons (h_s := h) ..
  | npop => exact keep_execNpop (h_s := h) ..
  | ethLinkChange => exact keep_execEthLinkChange (h_s := h) ..
  | ethFrameReceived => exact keep_execEthFrameReceived (h_s := h) ..
  | injectionRecord => exact keep_execInjectionRecord (h_s := h) ..
  | ethTransmit => exact keep_execEthTransmit (h_s := h) ..
  | ethTxDone => exact keep_execEthTxDone (h_s := h) ..
  | gtctlApply => exact keep_execGtctlApply (h_s := h) ..
  | qbvApply => exact keep_execQbvApply (h_s := h) ..
  | qbvSwitch => exact keep_execQbvSwitch (h_s := h) ..
  | mdioGo => exact keep_execMdioGo (h_s := h) ..
  | mdioDone => exact keep_execMdioDone (h_s := h) ..
  | scrubRead => exact keep_execScrubRead (h_s := h) ..
  | memcInit => exact keep_execMemcInit (h_s := h) ..
  | memcTrained => exact keep_execMemcTrained (h_s := h) ..
  | dmaEnable => exact keep_execDmaEnable (h_s := h) ..
  | dmaRingPlaced => exact keep_execDmaRingPlaced (h_s := h) ..
  | kick => exact keep_execKick (h_s := h) ..
  | dmaChannelRequest => exact keep_execDmaChannelRequest (h_s := h) ..
  | dmaDescriptor => exact keep_execDmaDescriptor (h_s := h) ..
  | dmaWriteback => exact keep_execDmaWriteback (h_s := h) ..
  | flashRead => exact keep_execFlashRead (h_s := h) ..
  | flcInv => exact keep_execFlcInv (h_s := h) ..
  | tvFlProgram => exact keep_execTvFlProgram (h_s := h) ..
  | tvFlErase => exact keep_execTvFlErase (h_s := h) ..
  | erasePulseEnd => exact keep_execErasePulseEnd (h_s := h) ..
  | eraseDone => exact keep_execEraseDone (h_s := h) ..
  | tvFlSuspend => exact keep_execTvFlSuspend (h_s := h) ..
  | tvFlResume => exact keep_execTvFlResume (h_s := h) ..
  | tvFlBlank => exact keep_execTvFlBlank (h_s := h) ..
  | tvFlInfo => exact keep_execTvFlInfo (h_s := h) ..
  | tvFlMarkbad => exact keep_execTvFlMarkbad (h_s := h) ..
  | tvServe => exact keep_execTvServe (h_s := h) ..
  | tvImgVerify => exact keep_execTvImgVerify (h_s := h) ..
  | tvOtpProgram => exact keep_execTvOtpProgram (h_s := h) ..
  | tvRollback => exact keep_execTvRollback (h_s := h) ..
  | tvLifecycle => exact keep_execTvLifecycle (h_s := h) ..
  | tvMeasExtend => exact keep_execTvMeasExtend (h_s := h) ..
  | tvAttest => exact keep_execTvAttest (h_s := h) ..
  | bootSequence => exact keep_execBootSequence (h_s := h) ..
  | bootReq => exact keep_execBootReq (h_s := h) ..
  | bootData => exact keep_execBootData (h_s := h) ..
  | bootDataTimeout => exact keep_execBootDataTimeout (h_s := h) ..
  | acrelGo => exact keep_execAcrelGo (h_s := h) ..
  | dbgSubmit => exact keep_execDbgSubmit (h_s := h) ..
  | reqRun => exact keep_execReqRun (h_s := h) ..
  | reqStandby => exact keep_execReqStandby (h_s := h) ..
  | reqHibernate => exact keep_execReqHibernate (h_s := h) ..
  | reqSafeHold => exact keep_execReqSafeHold (h_s := h) ..
  | standbyEntry => exact keep_execStandbyEntry (h_s := h) ..
  | entryTimeout => exact keep_execEntryTimeout (h_s := h) ..
  | nwake => exact keep_execNwake (h_s := h) ..
  | slowAlarm => exact keep_execSlowAlarm (h_s := h) ..
  | alarmHiWrite => exact keep_execAlarmHiWrite (h_s := h) ..
  | aonTempWake => exact keep_execAonTempWake (h_s := h) ..
  | standbyWake => exact keep_execStandbyWake (h_s := h) ..
  | hibernateWake => exact keep_execHibernateWake (h_s := h) ..
  | boostReq => exact keep_execBoostReq (h_s := h) ..
  | boostEntry => exact keep_execBoostEntry (h_s := h) ..
  | budgetUpdate => exact keep_execBudgetUpdate (h_s := h) ..
  | railAverage => exact keep_execRailAverage (h_s := h) ..
  | tempMeasure => exact keep_execTempMeasure (h_s := h) ..
  | xtalFail => exact keep_execXtalFail (h_s := h) ..
  | xtalReturn => exact keep_execXtalReturn (h_s := h) ..
  | slowClockFail => exact keep_execSlowClockFail (h_s := h) ..
  | islClockStep => exact keep_execIslClockStep (h_s := h) ..
  | islTrimStep => exact keep_execIslTrimStep (h_s := h) ..
  | powerOnReset => exact keep_execPowerOnReset (h_s := h) ..
  | brownoutReset => exact keep_execBrownoutReset (h_s := h) ..
  | pinReset => exact keep_execPinReset (h_s := h) ..
  | swrst => exact keep_execSwrst (h_s := h) ..
  | wdgEnable => exact keep_execWdgEnable (h_s := h) ..
  | wdgService => exact keep_execWdgService (h_s := h) ..
  | wdgWarning => exact keep_execWdgWarning (h_s := h) ..
  | wdgExpiry => exact keep_execWdgExpiry (h_s := h) ..
  | marginMeasure => exact keep_execMarginMeasure (h_s := h) ..
  | projectionUpdate => exact keep_execProjectionUpdate (h_s := h) ..
  | stressAccumulate => exact keep_execStressAccumulate (h_s := h) ..
  | islandTestSelect => exact keep_execIslandTestSelect (h_s := h) ..
  | islandEmpty => exact keep_execIslandEmpty (h_s := h) ..
  | logicBistEnd => exact keep_execLogicBistEnd (h_s := h) ..
  | marchEnd => exact keep_execMarchEnd (h_s := h) ..
  | islandRelease => exact keep_execIslandRelease (h_s := h) ..
  | evacuationTimeout => exact keep_execEvacuationTimeout (h_s := h) ..
  | coreBistStart => exact keep_execCoreBistStart (h_s := h) ..
  | coreBistAbort => exact keep_execCoreBistAbort (h_s := h) ..
  | coreBistEnd => exact keep_execCoreBistEnd (h_s := h) ..
  | fclr => exact keep_execFclr (h_s := h) ..
  | tapReset => exact keep_execTapReset (h_s := h) ..
  | extest => exact keep_execExtest (h_s := h) ..
  | samplePreload => exact keep_execSamplePreload (h_s := h) ..
  | idcode => exact keep_execIdcode (h_s := h) ..
  | clamp => exact keep_execClamp (h_s := h) ..
  | highz => exact keep_execHighz (h_s := h) ..
  | bypass => exact keep_execBypass (h_s := h) ..
  | accRead => exact keep_execAccRead (h_s := h) ..
  | accWrite => exact keep_execAccWrite (h_s := h) ..
  | bdataWrite => exact keep_execBdataWrite (h_s := h) ..
  | bdataRead => exact keep_execBdataRead (h_s := h) ..
  | halt => exact keep_execHalt (h_s := h) ..
  | resume => exact keep_execResume (h_s := h) ..
  | step => exact keep_execStep (h_s := h) ..
  | icinva => exact keep_execIcinva (h_s := h) ..
  | regdataAccess => exact keep_execRegdataAccess (h_s := h) ..
  | dbgRst => exact keep_execDbgRst (h_s := h) ..
  | patchBreak => exact keep_execPatchBreak (h_s := h) ..
  | patchWatch => exact keep_execPatchWatch (h_s := h) ..
  | patchWrite => exact keep_execPatchWrite (h_s := h) ..
  | stimWrite => exact keep_execStimWrite (h_s := h) ..
  | vtOutWrite => exact keep_execVtOutWrite (h_s := h) ..
  | vtInWrite => exact keep_execVtInWrite (h_s := h) ..
  | vtFullClear => exact keep_execVtFullClear (h_s := h) ..
  | registerWrite => exact keep_execRegisterWrite (h_s := h) ..
  | illegalInstruction => exact keep_execIllegalInstruction (h_s := h) ..
  | instructionFetchFault => exact keep_execInstructionFetchFault (h_s := h) ..
  | powerDown => exact keep_execPowerDown (h_s := h) ..
  | comparatorIn => exact keep_execComparatorIn (h_s := h) ..
  | tripInputInactive => exact keep_execTripInputInactive (h_s := h) ..
  | tethSymbolError => exact keep_execTethSymbolError (h_s := h) ..
  | tethInvalidCell => exact keep_execTethInvalidCell (h_s := h) ..
  | girthInvalidFrame => exact keep_execGirthInvalidFrame (h_s := h) ..
  | flashProgramDone => exact keep_execFlashProgramDone (h_s := h) ..

/-- A read of a snapshot's low word answers a next state whether or not the address has a high half. -/
theorem execSnapshotLowRead_next (m : Master) (pa : Nat) (s : State) : ∃ t, execSnapshotLowRead m pa s = .next t := by
  unfold execSnapshotLowRead
  split
  · split <;> exact ⟨_, rfl⟩
  · exact ⟨_, rfl⟩

/-- A write of a queue's `QCTL` answers a next state for a reserved master, a refused world and an access alike. -/
theorem execQueueEnable_next (m : Master) (k : Fin 8192) (v : Word) (s : State) :
    ∃ t, execQueueEnable m k v s = .next t := by
  unfold execQueueEnable
  split
  split
  · exact ⟨_, rfl⟩
  · split <;> exact ⟨_, rfl⟩

/-- No command faults or is refused: but for the two rows above, each meaning is a next state outright. -/
theorem exec_completes (c : Instr) (s : State) : Completes c s := by
  cases c with
  | snapshotLowRead m pa => exact execSnapshotLowRead_next m pa s
  | queueEnable m k v => exact execQueueEnable_next m k v s
  | _ => exact ⟨_, rfl⟩

/-- A command that has a next state keeps the queue and the canonical form in it. -/
theorem Kept.of_exec {q : List Instr} {c : Instr} {s t : State} (h : Kept q s) (e : exec c s = .next t) : Kept q t := by
  have hx := keep_exec c s h
  rw [e] at hx
  exact hx

/-! ### The statements -/

/-- Settles O56, by the two cases of a step. -/
theorem stepRunsFrontCommand : Obligations.StepRunsFrontCommand := by
  unfold Obligations.StepRunsFrontCommand
  exact fun s c rest => ⟨step_cons rfl, step_nil, step_cons⟩

/-- Settles O58: the command completes, and the state that it gives is kept. -/
theorem everyCommandCompletes : Obligations.EveryCommandCompletes := by
  unfold Obligations.EveryCommandCompletes
  intro c s hs
  obtain ⟨t, ht⟩ := exec_completes c s
  obtain ⟨hq, hi⟩ := Kept.of_exec ⟨rfl, hs⟩ ht
  exact ⟨t, ht, hq, hi⟩

/-- Settles O57: a tick keeps the canonical form, and so does the front command, which runs on a shorter queue. -/
theorem stepKeepsInvariant : Obligations.StepKeepsInvariant := by
  unfold Obligations.StepKeepsInvariant
  intro s t h hs
  cases hq : s.pending with
  | nil =>
    obtain rfl : tick s = t := Host.Outcome.next.inj ((step_nil hq).symm.trans h)
    exact (keep_tick s ⟨rfl, hs⟩).inv
  | cons c rest =>
    have hk : Kept rest { s with pending := rest } := ⟨rfl, hs.mem, hs.regs⟩
    exact (hk.of_exec ((step_cons hq).symm.trans h)).inv

end Sys2Proof.Machine
end

section
/-! What a scan of the test access port does, one lemma for each outcome of its instructions, of the `ACC` register and
of a bus access; then the statement about the port (R471–R475). -/

namespace Sys2Proof.Machine

/-! ### Power (R471) -/

theorem tapPowered_eq_true {s : State} (h : 2 ≤ opMode s) : tapPowered s = true := decide_eq_true h
theorem tapPowered_eq_false {s : State} (h : ¬ 2 ≤ opMode s) : tapPowered s = false := decide_eq_false h

theorem irScan_unpowered {s : State} (h : tapPowered s = false) (ir : Nat) : irScan ir s = s := by simp [irScan, h]

theorem bypassPath_unpowered {s : State} (h : tapPowered s = false) (bits : List Bool) : bypassPath bits s = s := by
  simp [bypassPath, h]

theorem extest_unpowered {s : State} (h : tapPowered s = false) (scan : Option (BitVec 489)) : extest scan s = s := by
  cases scan with
  | none => exact irScan_unpowered h 0
  | some x => simp [extest, h]

theorem accScanRead_unpowered {s : State} (h : tapPowered s = false) (w : BitVec 14) : accScanRead w s = s := by
  simp [accScanRead, h]

theorem accScanWrite_unpowered {s : State} (h : tapPowered s = false) (w : BitVec 14) (v : Word) :
    accScanWrite w v s = s := by simp [accScanWrite, h]

/-! ### Instructions (R472) -/

/-- A code that R472 does not assign stands for `BYPASS`. -/
theorem tapCode_unassigned {code : Nat} (h : 4 < code) (h8 : code ≠ 8) : tapCode code = 0x1F := by
  simp [tapCode, h8]; omega

section
variable {s : State} (h : tapPowered s = true)
include h

theorem irScan_powered (ir : Nat) : irScan ir s = { tapLoad ir s with resp := .ok 1 } := if_pos h

/-- An instruction that needs no grant is loaded as its code says. -/
theorem tapLoad_free {code ir : Nat} (hc : tapCode code = ir) (hf : ir ≠ 0 ∧ ir ≠ 3 ∧ ir ≠ 4) :
    tapLoad code s = tapActs ir s := by
  simp [tapLoad, h, hc, hf]

/-- An instruction that drives the balls acts as `BYPASS` without the secure grant. -/
theorem tapLoad_refused (hg : grantSec s = false) {ir : Nat} (hd : ir = 0 ∨ ir = 3 ∨ ir = 4) :
    tapLoad ir s = tapActs 0x1F s := by
  unfold tapLoad
  rw [h, hg]
  obtain rfl | rfl | rfl := hd <;> rfl

/-- An instruction that drives the balls acts under the secure grant. -/
theorem tapLoad_granted (hg : grantSec s = true) {ir : Nat} (hd : ir = 0 ∨ ir = 3 ∨ ir = 4) :
    tapLoad ir s = tapActs ir s := by
  unfold tapLoad
  rw [h, hg]
  obtain rfl | rfl | rfl := hd <;> rfl

end

/-- A scan goes through the bypass register when `BYPASS`, `CLAMP` or `HIGHZ` is selected. -/
theorem bypassPath_selected {s : State} (h : tapPowered s = true) (hi : s.dbg.ir = 0x1F ∨ s.dbg.ir = 3 ∨ s.dbg.ir = 4)
    (bits : List Bool) : bypassPath bits s = bypassScan bits s := by
  simp [bypassPath, h, or_assoc, hi]

theorem bypassPath_other {s : State} (hi : s.dbg.ir ≠ 0x1F ∧ s.dbg.ir ≠ 3 ∧ s.dbg.ir ≠ 4) (bits : List Bool) :
    bypassPath bits s = s := by
  simp [bypassPath, hi]

/-! ### What a scan leaves of the registers -/

theorem tapPowered_congr {s t : State} (h : t.regs = s.regs) : tapPowered t = tapPowered s := by
  have hr : t.rg (ra .pmu Pmu.MODE) = s.rg (ra .pmu Pmu.MODE) := congrArg (Tbl.get regReset · _) h
  have hm : opMode t = opMode s := congrArg (fld · 2 0) hr
  exact decide_eq_decide.mpr (by rw [hm])

theorem regs_tapActs (ir : Nat) (s : State) : (tapActs ir s).regs = s.regs := by
  unfold tapActs scanBalls
  extract_lets
  split <;> dsimp only

theorem regs_tapLoad (code : Nat) (s : State) : (tapLoad code s).regs = s.regs := by
  unfold tapLoad
  extract_lets ir
  split
  · rfl
  · split <;> exact regs_tapActs _ _

theorem regs_irScan (ir : Nat) (s : State) : (irScan ir s).regs = s.regs := by
  unfold irScan
  split
  · exact regs_tapLoad ir s
  · rfl

theorem tapActs_ir (ir : Nat) (s : State) : (tapActs ir s).dbg.ir = ir := by
  unfold tapActs scanBalls
  extract_lets
  split <;> dsimp only

/-! ### Scans of the data registers (R472, R473) -/

/-- The boundary cells after `x` has been shifted in. -/
def scannedCells (x : BitVec 489) : List (Nat × Bool) :=
  (List.range 489).foldl (fun t k => Tbl.set (fun _ => false) t k (x.getLsbD k)) []

/-- An update of the boundary register leaves what the last scan shifted out. -/
theorem preload_shifted (x : BitVec 489) (u : State) (p : Nat) : preload x { u with dbg.shifted := p } =
    tapActs u.dbg.ir { u with dbg.cells := scannedCells x, dbg.shifted := p } := by
  unfold preload scannedCells
  dsimp only

/-- A scan of the boundary register captures with a free value, updates the cells, and the selected instruction acts. -/
theorem boundaryScan_of_draw {t u : State} {z : Nat} (hd : t.draw = (z, u)) (x : BitVec 489) :
    boundaryScan x t = tapActs u.dbg.ir
      { u with dbg.cells := scannedCells x, dbg.shifted := packBits 489 (captureBit t z) } := by
  have hc : boundaryCapture t = { u with dbg.shifted := packBits 489 (captureBit t z) } := by
    unfold boundaryCapture
    rw [hd]
  rw [boundaryScan, hc, preload_shifted]

theorem draw_ir {t u : State} {z : Nat} (hd : t.draw = (z, u)) : u.dbg.ir = t.dbg.ir := (congrArg (·.2.dbg.ir) hd).symm

/-- `SAMPLE_PRELOAD` acts again after the update of the cells, and changes nothing more. -/
theorem tapActs_one_sampled {s u : State} {z : Nat} (hd : (tapActs 1 s).draw = (z, u)) (c : List (Nat × Bool)) (p : Nat) :
    tapActs 1 { u with dbg.cells := c, dbg.shifted := p } = { u with dbg.cells := c, dbg.shifted := p } := by
  obtain rfl : (tapActs 1 s).draw.2 = u := congrArg Prod.snd hd
  rfl

section
variable {s : State} (h : tapPowered s = true)
include h

theorem tapReset_powered :
    tapReset s = tapActs 2 { s with dbg.cells := s.dbg.cells.filter (fun c => c.1 % 3 ≠ 2) } :=
  if_neg (by simp [h])

/-- `SAMPLE_PRELOAD` captures, and its second loading after the update changes nothing more. -/
theorem samplePreload_scan {u : State} {z : Nat} (hd : (tapActs 1 s).draw = (z, u)) (x : BitVec 489) :
    boundaryScan x (tapLoad 1 s) =
      { u with dbg.cells := scannedCells x, dbg.shifted := packBits 489 (captureBit (tapActs 1 s) z) } := by
  rw [tapLoad_free h (ir := 1) rfl (by decide), boundaryScan_of_draw hd, draw_ir hd, tapActs_ir]
  exact tapActs_one_sampled hd _ _

/-- An instruction that selects the bypass register scans its bits through it. -/
theorem bypassPath_irScan {code ir : Nat} (hl : tapLoad code s = tapActs ir s)
    (hi : (tapActs ir s).dbg.ir = 0x1F ∨ (tapActs ir s).dbg.ir = 3 ∨ (tapActs ir s).dbg.ir = 4) (bits : List Bool) :
    bypassPath bits (irScan code s) = bypassScan bits { tapActs ir s with resp := .ok 1 } := by
  have hs : irScan code s = { tapActs ir s with resp := .ok 1 } := by rw [irScan_powered h, hl]
  rw [bypassPath_selected ((tapPowered_congr (regs_irScan code s)).trans h) (by rw [hs]; exact hi), hs]

/-- Without the secure grant the bits of `CLAMP` and `HIGHZ` go through the bypass register, and no ball is driven. -/
theorem bypassPath_refused (hg : grantSec s = false) {ir : Nat} (hd : ir = 3 ∨ ir = 4) (bits : List Bool) :
    bypassPath bits (irScan ir s) = bypassScan bits { tapActs 0x1F s with resp := .ok 1 } :=
  bypassPath_irScan h (tapLoad_refused h hg (.inr hd)) (.inl rfl) bits

theorem bypassPath_granted (hg : grantSec s = true) {ir : Nat} (hd : ir = 3 ∨ ir = 4) (bits : List Bool) :
    bypassPath bits (irScan ir s) = bypassScan bits { tapActs ir s with resp := .ok 1 } :=
  bypassPath_irScan h (tapLoad_granted h hg (.inr hd)) (.inr (by rw [tapActs_ir]; exact hd)) bits

/-- The codes of 1, 2 and 8 select their own instructions, and reach no bypass register. -/
theorem bypassPath_irScan_other {ir : Nat} (hc : ir = 1 ∨ ir = 2 ∨ ir = 8) (bits : List Bool) :
    bypassPath bits (irScan ir s) = { s with dbg.ir := ir, ballScan := [], resp := .ok 1 } := by
  have hs : irScan ir s = { s with dbg.ir := ir, ballScan := [], resp := .ok 1 } := by
    rw [irScan_powered h]
    obtain rfl | rfl | rfl := hc <;> rw [tapLoad_free h rfl (by decide)] <;> rfl
  rw [hs]
  exact bypassPath_other (by dsimp only; omega) bits

end

/-! ### `EXTEST` (R472, R473) -/

section
variable {s : State} (h : tapPowered s = true)
include h

/-- Without the secure grant `EXTEST` acts as `BYPASS`, and the bits scanned go through its register. -/
theorem extest_refused (hg : grantSec s = false) : extest none s = { tapActs 0x1F s with resp := .ok 1 } ∧
    ∀ x, extest (some x) s = bypassScan ((List.range 489).map x.getLsbD) { tapActs 0x1F s with resp := .ok 1 } := by
  have hs : irScan 0 s = { tapActs 0x1F s with resp := .ok 1 } := by
    rw [irScan_powered h, tapLoad_refused h hg (.inl rfl)]
  refine ⟨hs, fun x => (if_neg (by simp [h])).trans ?_⟩
  rw [hs]
  exact if_neg (by rw [tapActs_ir]; decide)

theorem extest_granted (hg : grantSec s = true) : extest none s = { tapActs 0 s with resp := .ok 1 } ∧
    ∀ x z u, ({ tapActs 0 s with resp := .ok 1 } : State).draw = (z, u) → extest (some x) s = tapActs 0
      { u with dbg.cells := scannedCells x,
               dbg.shifted := packBits 489 (captureBit { tapActs 0 s with resp := .ok 1 } z) } := by
  have hs : irScan 0 s = { tapActs 0 s with resp := .ok 1 } := by
    rw [irScan_powered h, tapLoad_granted h hg (.inl rfl)]
  refine ⟨hs, fun x z u hd => (if_neg (by simp [h])).trans ?_⟩
  rw [hs, if_pos (tapActs_ir 0 s), boundaryScan_of_draw hd, draw_ir hd, tapActs_ir]

end

/-! ### The `ACC` register (R474) -/

theorem accOpens_iff (s : State) (o : Nat) : accOpens s o = true ↔
    ((o = 0x300 ∨ o = 0x304) → grantSec s = true) ∧ (o = Dbg.RST → grantNs s = true ∨ grantSec s = true) := by
  unfold accOpens
  split
  · next h =>
    have : o ≠ Dbg.RST := by rintro rfl; revert h; decide
    simp [h, this]
  · next h => split <;> simp_all

/-- What an `ACC` scan whose operation is done leaves before the access that it starts. -/
def accDone (s : State) : State := { accCapture s with dbg.accStat := 0 }

theorem accStatus_open {s : State} {o : Nat} (h : accOpens (accCapture s) o = true) :
    accStatus (accCapture s) o = accDone s := by
  simp [accStatus, h, accDone]

theorem accStatus_refused {s : State} {o : Nat} (h : accOpens s o = false) :
    accStatus s o = { s with dbg.accStat := 2 } := by
  simp [accStatus, h]

/-- The status of an operation is no part of what the grants open. -/
theorem accOpens_accStatus (s : State) (o n : Nat) : accOpens (accStatus s n) o = accOpens s o := rfl

section
variable {s : State} {w : BitVec 14} (hp : tapPowered s = true)
include hp

section
variable (h : accOpens (accCapture s) (4 * w.toNat) = false)
include h

theorem accScanRead_refused : accScanRead w s = { accCapture s with dbg.accStat := 2 } :=
  (if_neg (by simp [hp])).trans ((if_pos (by rw [accOpens_accStatus, h]; rfl)).trans (accStatus_refused h))

theorem accScanWrite_refused (v : Word) : accScanWrite w v s = { accCapture s with dbg.accStat := 2 } :=
  (if_neg (by simp [hp])).trans ((if_pos (by rw [accOpens_accStatus, h]; rfl)).trans (accStatus_refused h))

end

variable (h : accOpens (accCapture s) (4 * w.toNat) = true)
include h

theorem accScanRead_open : accScanRead w s = if 4 * w.toNat = Dbg.BDATA then bdataRead .clean (accDone s) else
    { (dbgRead (4 * w.toNat) (accDone s)).2 with dbg.accData := (dbgRead (4 * w.toNat) (accDone s)).1 } := by
  rw [← accStatus_open h]
  exact (if_neg (by simp [hp])).trans (if_neg (by rw [accOpens_accStatus, h]; decide))

theorem accScanRead_reg (hb : 4 * w.toNat ≠ Dbg.BDATA) {y : Word} {s1 : State}
    (hr : dbgRead (4 * w.toNat) (accDone s) = (y, s1)) : accScanRead w s = { s1 with dbg.accData := y } := by
  rw [accScanRead_open hp h, if_neg hb, hr]

theorem accScanWrite_open (v : Word) : accScanWrite w v s =
    if 4 * w.toNat = Dbg.BDATA then bdataWrite v .clean (accDone s)
    else (dbgWrite (accMaster (accDone s)) (4 * w.toNat) v (grantSec (accDone s)) (accDone s)).2 := by
  rw [← accStatus_open h]
  exact (if_neg (by simp [hp])).trans (if_neg (by rw [accOpens_accStatus, h]; decide))

end

/-! ### Bus accesses (R475) -/

theorem busDead_iff (s : State) : busDead s = true ↔ opMode s ≤ 2 ∨ inReset s = true := by simp [busDead]

section
variable (s : State) (v : Word)

/-- A write of `BDATA` changes nothing that an access is judged by. -/
theorem opMode_setBdata : opMode (s.setRg (ra .dbg Dbg.BDATA) v) = opMode s := by
  simp only [opMode, setRg_rg_ne s _ v (show ra .pmu Pmu.MODE ≠ ra .dbg Dbg.BDATA by decide)]

theorem busDead_setBdata : busDead (s.setRg (ra .dbg Dbg.BDATA) v) = busDead s := by
  simp only [busDead, opMode_setBdata]; rfl

theorem bctl_setBdata : (s.setRg (ra .dbg Dbg.BDATA) v).rg (ra .dbg Dbg.BCTL) = s.rg (ra .dbg Dbg.BCTL) :=
  setRg_rg_ne s _ v (by decide)

theorem busAddr_setBdata : busAddr (s.setRg (ra .dbg Dbg.BDATA) v) = busAddr s := by
  simp only [busAddr, setRg_rg_ne s _ v (show ra .dbg Dbg.BADDR_LO ≠ ra .dbg Dbg.BDATA by decide),
    setRg_rg_ne s _ v (show ra .dbg Dbg.BADDR_HI ≠ ra .dbg Dbg.BDATA by decide)]

theorem busSize_setBdata : busSize (s.setRg (ra .dbg Dbg.BDATA) v) = busSize s := by
  simp only [busSize, bctl_setBdata]

theorem busMaster_setBdata : busMaster (s.setRg (ra .dbg Dbg.BDATA) v) = busMaster s := by
  simp only [busMaster, bctl_setBdata]

theorem busAllowed_setBdata : busAllowed (s.setRg (ra .dbg Dbg.BDATA) v) = busAllowed s := by
  simp only [busAllowed, bctl_setBdata, busAddr_setBdata]; rfl

end

/-- An access that reached nothing leaves the whole state. -/
theorem debugLeaves_self (s : State) : debugLeaves s s = s := if_pos rfl

section
variable {s : State} {ecc : Ecc} {v : Word}

theorem bdataRead_dead (h : busDead s = true) : bdataRead ecc s = busDone 1 s := if_pos h

theorem bdataWrite_dead (h : busDead s = true) :
    bdataWrite v ecc s = busDone 1 (s.setRg (ra .dbg Dbg.BDATA) v) :=
  if_pos ((busDead_setBdata s v).trans h)

variable (hd : busDead s = false)
include hd

theorem bdataRead_refused (ha : busAllowed s = false) : bdataRead ecc s = s.setRg (ra .dbg Dbg.BSTAT) 4 :=
  (if_neg (by simp [hd])).trans (if_pos (by simp [ha]))

theorem bdataWrite_refused (ha : busAllowed s = false) :
    bdataWrite v ecc s = (s.setRg (ra .dbg Dbg.BDATA) v).setRg (ra .dbg Dbg.BSTAT) 4 :=
  (if_neg (by simp [busDead_setBdata, hd])).trans (if_pos (by simp [busAllowed_setBdata, ha]))

variable (ha : busAllowed s = true)
include ha

/-- A misaligned read reaches nothing. -/
theorem bdataRead_misaligned (hm : busAddr s % busSize s ≠ 0) : bdataRead ecc s = busDone 1 s := by
  refine (if_neg (by simp [hd])).trans ((if_neg (by simp [ha])).trans ?_)
  rw [if_pos hm]
  exact congrArg (busDone 1) (debugLeaves_self s)

theorem bdataWrite_misaligned (hm : busAddr s % busSize s ≠ 0) :
    bdataWrite v ecc s = busDone 1 (s.setRg (ra .dbg Dbg.BDATA) v) := by
  refine (if_neg (by simp [busDead_setBdata, hd])).trans ((if_neg (by simp [busAllowed_setBdata, ha])).trans ?_)
  rw [busAddr_setBdata, busSize_setBdata, if_pos hm]
  rfl

variable (hm : busAddr s % busSize s = 0) {s1 : State} {r : Resp}
include hm

theorem bdataRead_answers {y : Word} (hr : anyRead (busMaster s) ecc (busAddr s) (busSize s) s = (.ok y, s1)) :
    bdataRead ecc s = busDone 0 { (debugLeaves s s1).setRg (ra .dbg Dbg.BDATA) y with dbg.accData := y } := by
  refine (if_neg (by simp [hd])).trans ((if_neg (by simp [ha])).trans ?_)
  rw [if_neg (not_not_intro hm), hr]

theorem bdataRead_fails (hn : ∀ q, r ≠ .ok q) (hr : anyRead (busMaster s) ecc (busAddr s) (busSize s) s = (r, s1)) :
    bdataRead ecc s = busDone (respCode r) (debugLeaves s s1) := by
  refine (if_neg (by simp [hd])).trans ((if_neg (by simp [ha])).trans ?_)
  rw [if_neg (not_not_intro hm), hr]
  cases r with
  | ok q => exact absurd rfl (hn q)
  | _ => rfl

theorem bdataWrite_answers
    (hr : anyWrite (busMaster s) ecc (busAddr s) (busSize s) v (s.setRg (ra .dbg Dbg.BDATA) v) = (r, s1)) :
    bdataWrite v ecc s = busDone (respCode r) s1 := by
  refine (if_neg (by simp [busDead_setBdata, hd])).trans ((if_neg (by simp [busAllowed_setBdata, ha])).trans ?_)
  rw [busMaster_setBdata, busAddr_setBdata, busSize_setBdata, if_neg (not_not_intro hm), hr]

end

/-! ### The port without power (R471) -/

theorem exec_tap_unpowered {s : State} (h : tapPowered s = false) (scan : Option (BitVec 489)) (x : BitVec 489)
    (code : BitVec 5) (bits : List Bool) (w : BitVec 14) (go : Bool) (v : Word) (ecc : Ecc) :
    ∀ c ∈ [Instr.tapReset, .extest scan, .samplePreload x, .idcode, .clamp bits, .highz bits, .bypass code bits,
      .accRead w go, .accWrite w v, .bdataWrite v ecc, .bdataRead ecc], exec c s = .next s := by
  have off : ¬ tapPowered s = true := by simp [h]
  have path (ir : Nat) : bypassPath bits (irScan ir s) = s := by
    rw [irScan_unpowered h, bypassPath_unpowered h]
  have read : (if go then accScanRead w s else if tapPowered s then accCapture s else s) = s := by
    cases go with
    | true => exact accScanRead_unpowered h w
    | false => exact if_neg off
  simp only [List.forall_mem_cons, List.not_mem_nil, false_imp_iff, implies_true, and_true]
  exact ⟨congrArg _ (if_pos (by simp [h])), congrArg _ (extest_unpowered h scan), congrArg _ (if_neg off),
    congrArg _ (if_neg off), congrArg _ (path 3), congrArg _ (path 4), congrArg _ (path code.toNat), congrArg _ read,
    congrArg _ (accScanWrite_unpowered h w v), congrArg _ (if_neg off), congrArg _ (if_neg off)⟩

/-! ### The statement -/

/-- Settles O54: each clause is the lemma about its instruction, its `ACC` operation or its bus access. -/
theorem testAccessPort : Obligations.TestAccessPort := by
  unfold Obligations.TestAccessPort
  intro s s1 u x w v y ecc r code bits scan go z on free scanned drives ball passed cells out acc done o opens addr sz dead
    me st wv
  refine ⟨fun h => exec_tap_unpowered (tapPowered_eq_false h) scan x code bits w go v ecc, fun h => ?_⟩
  have hp : tapPowered s = true := tapPowered_eq_true h
  have opens_iff : opens ↔ accOpens (accCapture s) o = true := (accOpens_iff _ o).symm
  have closed : ¬ opens → accOpens (accCapture s) o = false := fun n => Bool.eq_false_iff.mpr (mt opens_iff.mpr n)
  have dead_iff : dead ↔ busDead (accDone s) = true := (busDead_iff (accDone s)).symm
  have alive : ¬ dead → busDead (accDone s) = false := fun n => Bool.eq_false_iff.mpr (mt dead_iff.mpr n)
  have runs (f : State → State) (t : State) (e : f (accDone s) = t) :
      Host.Outcome.next (if tapPowered s then f (accDone s) else s) = (.next t : Host.Outcome State Fault Refusal) :=
    congrArg _ ((if_pos hp).trans e)
  refine ⟨congrArg _ (tapReset_powered hp), ?idcode, ?bypass, fun hc => congrArg _ (bypassPath_irScan_other hp hc bits),
    fun hd => congrArg _ ((if_pos hp).trans (samplePreload_scan hp hd x)), ?refused, ?granted, congrArg _ (if_pos hp),
    fun n => ⟨congrArg _ (accScanRead_refused hp (closed n)), congrArg _ (accScanWrite_refused hp (closed n) v)⟩,
    fun ho hb hr => congrArg _ (accScanRead_reg hp (opens_iff.mp ho) hb hr), ?accBdata,
    fun ho hb => congrArg _ ((accScanWrite_open hp (opens_iff.mp ho) v).trans (if_neg hb)),
    ?busDead, ?busRefused, ?busMisaligned, ?busAnswers⟩
  case idcode => exact congrArg _ ((if_pos hp).trans (by rw [tapLoad_free hp (ir := 2) rfl (by decide)]; rfl))
  case bypass =>
    intro h4 h8
    have hl : tapLoad code.toNat s = tapActs 0x1F s := tapLoad_free hp (tapCode_unassigned h4 h8) (by decide)
    exact congrArg _ (bypassPath_irScan hp hl (.inl rfl) bits)
  case refused =>
    intro hg
    obtain ⟨hn, hx⟩ := extest_refused hp hg
    exact ⟨congrArg _ hn, congrArg _ (hx x), congrArg _ (bypassPath_refused hp hg (.inl rfl) bits),
      congrArg _ (bypassPath_refused hp hg (.inr rfl) bits)⟩
  case granted =>
    intro hg
    obtain ⟨hn, hx⟩ := extest_granted hp hg
    exact ⟨congrArg _ hn, fun hd => congrArg _ (hx x z u hd), congrArg _ (bypassPath_granted hp hg (.inl rfl) bits),
      congrArg _ (bypassPath_granted hp hg (.inr rfl) bits)⟩
  case accBdata =>
    exact fun ho hb => ⟨congrArg _ ((accScanRead_open hp (opens_iff.mp ho)).trans (if_pos hb)),
      congrArg _ ((accScanWrite_open hp (opens_iff.mp ho) v).trans (if_pos hb))⟩
  case busDead =>
    exact fun hd => ⟨runs _ _ (bdataRead_dead (dead_iff.mp hd)), runs _ _ (bdataWrite_dead (dead_iff.mp hd))⟩
  case busRefused =>
    exact fun hd ha => ⟨runs _ _ (bdataRead_refused (alive hd) ha), runs _ _ (bdataWrite_refused (alive hd) ha)⟩
  case busMisaligned =>
    exact fun hd ha hm => ⟨runs _ _ (bdataRead_misaligned (alive hd) ha hm),
      runs _ _ (bdataWrite_misaligned (alive hd) ha hm)⟩
  case busAnswers =>
    exact fun hd ha hm => ⟨fun hr => runs _ _ (bdataRead_answers (alive hd) ha hm hr),
      fun hn hr => runs _ _ (bdataRead_fails (alive hd) ha hm hn hr),
      fun hr => runs _ _ (bdataWrite_answers (alive hd) ha hm hr)⟩

end Sys2Proof.Machine
end

section
/-! What a quiet request, the end of a quiet window, a write of `REQ3` and the balance check do, one lemma for each
outcome; then the statement about them (R30, R244–R246). -/

namespace Sys2Proof.Machine

/-! ### Register accesses -/

/-- A command that is a register access with a plain answer is what `Writes` says of it. -/
theorem writes_of_regAccess {c : Instr} {s t : State} {m : Master} {pa : Nat} {f : State → Resp × State}
    (hc : exec c s = .next (regAccess m pa f s)) (hf : f s = (.ok 0, t)) : Writes c s m pa t := by
  refine ⟨fun h => hc.trans (congrArg _ ?_), fun h => hc.trans (congrArg _ (if_pos h))⟩
  rw [regAccess, if_neg (by simp [h]), hf]

/-! ### Quiet windows (R30, R245) -/

/-- The length in milliseconds that a write of `AXQ` asks for. -/
def quietMs (v : Word) : Nat := min 2000 (fld v 10 0)
/-- The end of a quiet window that a write of `AXQ` asks for now. -/
def quietStop (s : State) (v : Word) : DWord := s.time.selvedge + w64 (quietMs v * 800000)

section
variable {s : State} {a : Nat} {v : Word} {e g : DWord}

section
variable (hq : (s.ax a).quietEnd = none)
include hq

theorem quietWrite_closed_zero (h0 : quietMs v = 0) : quietWrite a v s = (.ok 0, s) := by
  dsimp only [quietWrite]
  rw [hq]
  exact if_pos h0

/-- In the gap after a window a new one is refused with a notice. -/
theorem quietWrite_in_gap (h0 : quietMs v ≠ 0) (hg : (s.ax a).gapEnd = some g) :
    quietWrite a v s = (.ok 0, journal 0x52 a 0 1 0 0 (sadlNotice 7 (axst a 5 s))) := by
  dsimp only [quietWrite]
  rw [hq]
  exact (if_neg h0).trans (if_pos (by rw [hg]; rfl))

theorem quietWrite_opens (h0 : quietMs v ≠ 0) (hg : (s.ax a).gapEnd = none) : quietWrite a v s =
    (.ok 0, journal 0x50 a 0 1 0 0 (headerRefresh a (s.setAx a { s.ax a with quietEnd := some (quietStop s v) }))) := by
  dsimp only [quietWrite]
  rw [hq]
  exact (if_neg h0).trans (if_neg (by rw [hg]; decide))

theorem quietEnd_gap_over (hg : (s.ax a).gapEnd = some g) (hr : reached 64 s.time.selvedge.toNat g.toNat = true) :
    quietEnd a s = s.setAx a { s.ax a with gapEnd := none } := by
  dsimp only [quietEnd]
  rw [hq, hg]
  exact if_pos hr

theorem quietEnd_no_window (hg : (s.ax a).gapEnd = none) : quietEnd a s = s := by
  dsimp only [quietEnd]
  rw [hq, hg]

end

section
variable (hq : (s.ax a).quietEnd = some e)
include hq

theorem quietWrite_open_zero (h0 : quietMs v = 0) : quietWrite a v s = (.ok 0, quietOver a s) := by
  dsimp only [quietWrite]
  rw [hq]
  exact if_pos h0

/-- A request in an open window moves its end, and never to an earlier time. -/
theorem quietWrite_extends (h0 : quietMs v ≠ 0) : quietWrite a v s = (.ok 0, s.setAx a { s.ax a with
    quietEnd := some (if newer 64 (quietStop s v).toNat e.toNat then e else quietStop s v) }) := by
  dsimp only [quietWrite]
  rw [hq]
  exact if_neg h0

theorem quietEnd_window_over (hr : reached 64 s.time.selvedge.toNat e.toNat = true) : quietEnd a s = quietOver a s := by
  dsimp only [quietEnd]
  rw [hq]
  exact if_pos hr

theorem quietEnd_early (hr : reached 64 s.time.selvedge.toNat e.toNat = false) : quietEnd a s = s := by
  dsimp only [quietEnd]
  rw [hq]
  exact if_neg (by simp [hr])

end
end

/-! ### Pins (R240, R244) -/

/-- A write by type codes leaves the contexts. -/
theorem plainWrite_ctx (b : Blk) (i o : Nat) (v : Word) (sec : Bool) (s : State) (k : Nat) :
    (plainWrite b i o v sec s).ctx k = s.ctx k := by
  unfold plainWrite
  split
  · rfl
  · split <;> rfl

section
variable {s : State} {n k j start code : Nat}

/-- A copy is pinned where the flag of `REQ3` is set, which is one for both copies. -/
theorem pinOf_isNone (second : Bool) : (pinOf s n second).isNone = !tb (req3 s n) 31 := by
  dsimp only [pinOf]
  split
  · next h => exact h.symm
  · next h => exact (Bool.eq_false_iff.mpr h).symm

theorem pinOf_second_eq_none (h : pinOf s n false = none) : pinOf s n true = none := by
  rw [← Option.isNone_iff_eq_none, pinOf_isNone, ← pinOf_isNone false, h]
  rfl

theorem pinMoves_unpinned (h : pinOf s n false = none) : pinMoves s n = [] := by
  simp only [pinMoves, h, pinOf_second_eq_none h]
  cases (s.ctx n).second <;> rfl

/-- Two conditions with one code that no bank meets together refuse with it, whatever follows. -/
theorem filterBanks_error_of_pair {c : Nat} {p q : Nat → Bool} {ks : List Nat} (h : (ks.filter p).filter q = [])
    (t : List (Nat × (Nat → Bool))) : filterBanks ((c, p) :: (c, q) :: t) ks = .error c := by
  by_cases hp : (ks.filter p).isEmpty
  · exact if_pos hp
  · exact (if_neg hp).trans (if_pos (by rw [h]; rfl))

/-- No bank but the pinned one meets the first condition, and it does not meet the second. -/
theorem filterBanks_occupied (skip : List Nat) (other : Option Nat) (moving : Bool) (hf : bankFree s k = false)
    (ks : List Nat) : filterBanks (bankConds s n (some k) skip other moving start) ks = .error 3 := by
  refine filterBanks_error_of_pair ?_ _
  simp only [List.filter_eq_nil_iff, List.mem_filter]
  rintro i ⟨-, hi⟩
  obtain rfl : k = i := by simpa using hi
  simp [hf]

/-- A pinned bank that is not free is refused with code 3 (R240). -/
theorem chooseBank_occupied (skip : List Nat) (other : Option Nat) (moving : Bool) (hf : bankFree s k = false)
    (allowed : Nat → Bool) : chooseBank s n (some k) skip other moving start allowed = .error 3 := by
  unfold chooseBank
  rw [filterBanks_occupied skip other moving hf]
  rfl

section
variable (h2 : (s.ctx n).second = none)
include h2

/-- A single copy has one move to make, to its pin. -/
theorem pinMoves_single (hp : pinOf s n false = some k) (hk : k ≠ (s.ctx n).first) :
    pinMoves s n = [((s.ctx n).first, k)] := by
  simp [pinMoves, h2, hp, hk]

theorem otherIsland_single : otherIsland s n j = none := by
  unfold otherIsland
  rw [h2]
  rfl

theorem pinRefusal_of_error (hc : chooseBank s n (some k) [j] none true start (fun _ => true) = .error code) :
    pinRefusal s n (j, k) start = some code := by
  dsimp only [pinRefusal]
  rw [h2, Option.map_none, hc]

theorem pinRefusal_of_ok (hc : chooseBank s n (some k) [j] none true start (fun _ => true) = .ok k) :
    pinRefusal s n (j, k) start = none := by
  dsimp only [pinRefusal]
  rw [h2, Option.map_none, hc]

end
end

/-- The register of a write of `REQ3` has been written. -/
abbrev pinsWritten (m : Master) (n : Nat) (v : Word) (s : State) : State :=
  plainWrite .sadl 0 (Sadl.CTX_REQ3 n) v m.sec s

/-- The headers have been written and the change of pins noted: here the move to a pin is ordered. -/
def pinsNoted (n : Nat) (s : State) : State :=
  (headerRefresh n s).setCtx n { (headerRefresh n s).ctx n with pinDue := true }

section
variable {s drawn : State} {m : Master} {n k start code : Nat} {v : Word}

theorem req3Write_unplaced (h : (s.ctx n).placed = false) : req3Write m n v s = (.ok 0, pinsWritten m n v s) := by
  unfold req3Write
  exact if_pos (by simp [h])

section
variable (hd : (pinsWritten m n v s).draw = (start, drawn))
include hd

/-- The write of the register and the draw leave the contexts. -/
theorem pinsWritten_draw_ctx (i : Nat) : drawn.ctx i = s.ctx i := by
  obtain rfl : (pinsWritten m n v s).draw.2 = drawn := congrArg Prod.snd hd
  exact plainWrite_ctx ..

variable (h : (s.ctx n).placed = true)
include h

theorem req3Write_unpinned (hp : pinOf drawn n false = none) :
    req3Write m n v s = (.ok 0, headerRefresh n (pinsWritten m n v s)) := by
  dsimp only [req3Write]
  rw [hd]
  exact (if_neg (by simp [h])).trans (if_pos (by rw [pinMoves_unpinned hp]; rfl))

section
variable (h2 : (s.ctx n).second = none) (hp : pinOf drawn n false = some k) (hk : k ≠ (s.ctx n).first)
include h2 hp hk

/-- A refused write changes no register but, where no command is in progress, `CMDSTAT`. -/
theorem req3Write_refused
    (hc : chooseBank drawn n (some k) [(s.ctx n).first] none true start (fun _ => true) = .error code) :
    req3Write m n v s = (.ok 0, if tb (s.rg (ra .sadl Sadl.CMDSTAT)) 31 then s else cmdDone code s) := by
  rw [← pinsWritten_draw_ctx hd] at h2 hk hc
  dsimp only [req3Write]
  rw [hd]
  refine (if_neg (by simp [h])).trans ?_
  rw [pinMoves_single h2 hp hk, List.findSome?_cons, pinRefusal_of_error h2 hc]
  rfl

theorem req3Write_moves
    (hc : chooseBank drawn n (some k) [(s.ctx n).first] none true start (fun _ => true) = .ok k) :
    req3Write m n v s = (.ok 0, if mayOrder (pinsNoted n drawn) n 7 then
      movePin n start ((s.ctx n).first, k) (pinsNoted n drawn) else pinsNoted n drawn) := by
  rw [← pinsWritten_draw_ctx hd] at h2 hk hc ⊢
  dsimp only [req3Write]
  rw [hd]
  refine (if_neg (by simp [h])).trans ?_
  rw [pinMoves_single h2 hp hk, List.findSome?_singleton, pinRefusal_of_ok h2 hc, List.find?_cons_of_pos]
  · rfl
  · rw [otherIsland_single h2]; rfl

end
end
end

/-! ### The balance check (R246) -/

/-- The later of two members of a rising list stands at the greater index. -/
theorem idxOf_le_idxOf_of_le {l : List Nat} (hl : l.Pairwise (· < ·)) {g j : Nat} (hg : g ∈ l) (hj : j ∈ l)
    (h : g ≤ j) : l.idxOf g ≤ l.idxOf j := by
  by_contra! hi
  have : l[l.idxOf j]'(List.idxOf_lt_length_of_mem hj) < l[l.idxOf g]'(List.idxOf_lt_length_of_mem hg) :=
    List.pairwise_iff_getElem.mp hl _ _ _ _ hi
  simp only [List.getElem_idxOf] at this
  omega

/-- The first of the greatest in a rising list. -/
theorem argmax_eq_some_of_first {β : Type} [LinearOrder β] {f : Nat → β} {l : List Nat} (hl : l.Pairwise (· < ·))
    {g : Nat} (hg : g ∈ l) (h : ∀ j ∈ l, f j ≤ f g ∧ (j < g → f j < f g)) : l.argmax f = some g := by
  refine List.argmax_eq_some_iff.mpr ⟨hg, fun j hj => (h j hj).1, fun j hj hf => ?_⟩
  exact idxOf_le_idxOf_of_le hl hg hj (not_lt.mp fun hlt => hf.not_gt ((h j hj).2 hlt))

/-- The first of the least in a rising list. -/
theorem argmin_eq_some_of_first {β : Type} [LinearOrder β] {f : Nat → β} {l : List Nat} (hl : l.Pairwise (· < ·))
    {g : Nat} (hg : g ∈ l) (h : ∀ j ∈ l, f g ≤ f j ∧ (j < g → f g < f j)) : l.argmin f = some g :=
  argmax_eq_some_of_first (f := OrderDual.toDual ∘ f) hl hg h

/-- A fold that keeps the member so far unless the next one is greater finds the first of the greatest. -/
theorem foldl_eq_argmax {β : Type} [LinearOrder β] {f : Nat → β} {op : Option Nat → Nat → Option Nat}
    (h0 : ∀ g, op none g = some g) (h1 : ∀ h g, op (some h) g = if f h < f g then some g else some h)
    (l : List Nat) : l.foldl op none = l.argmax f := by
  obtain rfl : op = List.argAux (fun b c => f c < f b) := by
    funext b g
    cases b with
    | none => exact h0 g
    | some h => exact h1 h g
  rfl

theorem foldl_eq_argmin {β : Type} [LinearOrder β] {f : Nat → β} {op : Option Nat → Nat → Option Nat}
    (h0 : ∀ g, op none g = some g) (h1 : ∀ h g, op (some h) g = if f g < f h then some g else some h)
    (l : List Nat) : l.foldl op none = l.argmin f :=
  foldl_eq_argmax (f := OrderDual.toDual ∘ f) h0 h1 l

/-- The loads have been looked at. -/
def balanceLooked (s : State) : State := { s with axis.balanced := some s.time.selvedge }

/-- The engines that take part in the comparison, in their order. -/
def balancing (s : State) : List Nat :=
  (List.range 32).filter (fun g => islState s (islandOf g) = 0 && !(s.el g).halted)

theorem mem_balancing {s : State} {g : Nat} :
    g ∈ balancing s ↔ g < 32 ∧ islState s (islandOf g) = 0 ∧ (s.el g).halted = false := by
  simp [balancing]

theorem balancing_pairwise (s : State) : (balancing s).Pairwise (· < ·) := List.pairwise_lt_range.filter _

/-- The engine that gives a context off. -/
def mostLoaded (s : State) : Option Nat := (balancing s).argmax (fun j => engineLoad s j [])
/-- The engine that takes it. -/
def leastLoaded (s : State) : Option Nat := (balancing s).argmin (fun j => engineLoad s j [])

section
variable {s : State}

theorem balanceCheck_off (h : tb (s.rg (ra .sadl Sadl.POLICY)) 0 = false) : balanceCheck s = balanceLooked s :=
  if_pos (congrArg (! ·) h)

section
variable (hp : tb (s.rg (ra .sadl Sadl.POLICY)) 0 = true)
include hp

/-- Engines without a load are as good as balanced. -/
theorem balanceCheck_unloaded (h0 : ∀ j < 32, engineLoad (balanceLooked s) j [] = 0) :
    balanceCheck s = balanceLooked s := by
  unfold balanceCheck
  extract_lets _ u gs most least
  have hm : most = mostLoaded u := foldl_eq_argmax (fun _ => rfl) (fun _ _ => rfl) gs
  have hl : least = leastLoaded u := foldl_eq_argmin (fun _ => rfl) (fun _ _ => rfl) gs
  refine (if_neg (ne_true_of_eq_false (congrArg (! ·) hp))).trans ?_
  rw [hm, hl]
  cases hg : mostLoaded u with
  | none => rfl
  | some g =>
    have hz : engineLoad u g [] = 0 := h0 g (mem_balancing.mp (List.argmax_mem hg)).1
    cases leastLoaded u with
    | none => rfl
    | some h => exact if_neg (by simp [hz])

variable {g h : Nat} (hg : mostLoaded (balanceLooked s) = some g) (hh : leastLoaded (balanceLooked s) = some h)
include hg hh

/-- One context moves when the loads differ by more than a fifth of the engine's capacity. -/
theorem balanceCheck_loaded : balanceCheck s =
    if (engineLoad (balanceLooked s) g [] - engineLoad (balanceLooked s) h []) * 5 > engineCap (balanceLooked s) g then
      moveOne 2 (fun j => j / 16 = h) (movable (balanceLooked s) g 2 (fun e => e.2.cls ≠ 0) (fun j => j / 16 = h))
        (balanceLooked s)
    else balanceLooked s := by
  unfold balanceCheck
  extract_lets _ u gs most least
  have hm : most = some g := (foldl_eq_argmax (fun _ => rfl) (fun _ _ => rfl) gs).trans hg
  have hl : least = some h := (foldl_eq_argmin (fun _ => rfl) (fun _ _ => rfl) gs).trans hh
  refine (if_neg (ne_true_of_eq_false (congrArg (! ·) hp))).trans ?_
  rw [hm, hl]
  rfl

end
end

theorem mostLoaded_eq_some {s : State} {g : Nat} (hg : g ∈ balancing s)
    (h : ∀ j ∈ balancing s, engineLoad s j [] ≤ engineLoad s g [] ∧
      (j < g → engineLoad s j [] < engineLoad s g [])) :
    mostLoaded s = some g :=
  argmax_eq_some_of_first (balancing_pairwise s) hg h

theorem leastLoaded_eq_some {s : State} {g : Nat} (hg : g ∈ balancing s)
    (h : ∀ j ∈ balancing s, engineLoad s g [] ≤ engineLoad s j [] ∧
      (j < g → engineLoad s g [] < engineLoad s j [])) :
    leastLoaded s = some g :=
  argmin_eq_some_of_first (balancing_pairwise s) hg h

/-! ### The statement -/

/-- Settles O36: each clause is the lemma about that outcome of the request, the write or the check. -/
theorem quietWindowsAndPins : Obligations.QuietWindowsAndPins := by
  unfold Obligations.QuietWindowsAndPins
  intro s m a n v e g k code ms x now stop axq w c r3 pick drawn ended due looked idle runs load
  have quiet {t : State} (h : quietWrite a v s = (.ok 0, t)) : Writes (.quietRequest m a v) s m axq t :=
    writes_of_regAccess rfl h
  have req3 {t : State} (h : req3Write m n v s = (.ok 0, t)) : Writes (.req3Write m n v) s m r3 t :=
    writes_of_regAccess rfl h
  have check {t : State} (hd : balanceDue s = true) (h : balanceCheck s = t) : exec .balanceCheck s = .next t :=
    congrArg _ ((if_pos hd).trans h)
  refine ⟨fun hq h0 => quiet (quietWrite_closed_zero hq h0), fun hq h0 hg => quiet (quietWrite_in_gap hq h0 hg),
    fun hq h0 hg => quiet (quietWrite_opens hq h0 hg), fun hq h0 => quiet (quietWrite_open_zero hq h0),
    fun hq h0 => quiet (quietWrite_extends hq h0), fun hq hr => congrArg _ (quietEnd_window_over hq hr),
    fun hq hg hr => congrArg _ (quietEnd_gap_over hq hg hr), fun hq hr => congrArg _ (quietEnd_early hq hr),
    fun hq hg => congrArg _ (quietEnd_no_window hq hg), fun h => req3 (req3Write_unplaced h),
    fun h hp => req3 (req3Write_unpinned rfl h hp), fun h h2 hp hk => ⟨?occupied, ?refused, ?moves⟩,
    fun hd => congrArg _ (if_neg (ne_true_of_eq_false hd)), fun hd hp => check hd (balanceCheck_off hp),
    fun hd hp h0 => check hd (balanceCheck_unloaded hp h0), ?balance⟩
  case occupied =>
    intro hf _ hi
    have hc := chooseBank_occupied (start := pick) (n := n) [c.first] none true hf (fun _ => true)
    exact req3 ((req3Write_refused rfl h h2 hp hk hc).trans (congrArg _ (if_neg (ne_true_of_eq_false hi))))
  case refused =>
    intro hc
    have refused := req3Write_refused rfl h h2 hp hk hc
    exact ⟨fun hi => req3 (refused.trans (congrArg _ (if_neg (ne_true_of_eq_false hi)))),
      fun hi => req3 (refused.trans (congrArg _ (if_pos (eq_true_of_ne_false hi))))⟩
  case moves =>
    intro hc
    have moves := req3Write_moves rfl h h2 hp hk hc
    exact ⟨fun hm => req3 (moves.trans (congrArg _ (if_pos hm))),
      fun hm => req3 (moves.trans (congrArg _ (if_neg (ne_true_of_eq_false hm))))⟩
  case balance =>
    intro g h hd hp hg hh rg rh hmax
    have order {j : Nat} (hj : j ∈ balancing looked) := hmax j (mem_balancing.mp hj).1 (mem_balancing.mp hj).2
    have hmost : mostLoaded looked = some g := mostLoaded_eq_some (mem_balancing.mpr ⟨hg, rg⟩) fun j hj =>
      have ⟨most, _, first, _⟩ := order hj
      ⟨most, first⟩
    have hleast : leastLoaded looked = some h := leastLoaded_eq_some (mem_balancing.mpr ⟨hh, rh⟩) fun j hj =>
      have ⟨_, least, _, first⟩ := order hj
      ⟨least, first⟩
    have moved := balanceCheck_loaded hp hmost hleast
    exact ⟨fun hc => check hd (moved.trans (if_neg (not_lt.mpr hc))), fun hc => check hd (moved.trans (if_pos hc))⟩

end Sys2Proof.Machine
end

section
/-! What each step of a migration does, one lemma for each outcome; then the statement about them
(R16, R17, R248–R251). -/

namespace Sys2Proof.Machine

/-- A context's migration is set. -/
abbrev setMig (n : Nat) (m : Mig) (s : State) : State := s.setCtx n { s.ctx n with mig := some m }

/-- Without a migration none of its steps changes anything. -/
theorem exec_migration_none {s : State} {n : Fin 256} (h : (s.ctx n).mig = none) (ok written : Bool) :
    ∀ d ∈ [Instr.migrationCopy n, .copyAck n ok, .shadowCompare n, .serviceMigration n written],
      exec d s = .next s := by
  have ready : copyReady s n = false := by unfold copyReady; rw [h]
  have ack : copyAck n ok s = s := by unfold copyAck; rw [h]
  have compared : shadowCompare n s = s := by unfold shadowCompare; rw [h]
  have service : serviceMigration n written s = s := by unfold serviceMigration; rw [h]
  simp only [List.forall_mem_cons, List.not_mem_nil, false_imp_iff, implies_true, and_true]
  exact ⟨congrArg _ (if_neg (by simp [ready])), congrArg _ ack, congrArg _ compared,
    congrArg _ ((congrArg (ite _ · s) service).trans (ite_self s))⟩

section
variable {s copied : State} {n : Nat} {m : Mig} (hm : (s.ctx n).mig = some m)
include hm

/-! ### The copy (R248) -/

/-- A bank in the fault state is not copied. -/
theorem startCopy_faulted (hf : (s.bank m.src).fault.isSome = true) : startCopy n s = abortMig n 3 s := by
  unfold startCopy
  rw [hm]
  exact if_pos hf

section
variable (hf : (s.bank m.src).fault = none)
include hf

theorem startCopy_failed (hc : agentCopy midSadl true (bankAddr m.src) (bankAddr m.dst) 0x1000 s = (false, copied)) :
    startCopy n s = abortMig n 3 copied := by
  unfold startCopy
  rw [hm]
  exact (if_neg (by simp [hf])).trans (by rw [hc])

theorem startCopy_copied (hc : agentCopy midSadl true (bankAddr m.src) (bankAddr m.dst) 0x1000 s = (true, copied)) :
    let begun := journal 0x10 n 0 m.agent (locWord m.src) (locWord m.dst) copied
    startCopy n s = (setMig n { m with step := 1, dirty := false, crossed := false } begun).setAx n
      { begun.ax n with acted := true } := by
  unfold startCopy
  rw [hm]
  exact (if_neg (by simp [hf])).trans (by rw [hc]; rfl)

end

/-! ### The acknowledgement (R16, R17, R248) -/

theorem copyAck_other_step (h : m.step ≠ 1) (ok : Bool) : copyAck n ok s = s := by
  unfold copyAck
  rw [hm]
  exact if_pos h

theorem retryMig_mig : ((retryMig n s).ctx n).mig = some { m with step := 0, dirty := false, crossed := false } := by
  unfold retryMig
  rw [hm]
  exact congrArg CtxSt.mig (setCtx_ctx_self ..)

section
variable (h1 : m.step = 1)
include h1

theorem copyAck_failed : copyAck n false s = abortMig n 3 s := by
  unfold copyAck
  rw [hm]
  exact (if_neg (not_not_intro h1)).trans (if_pos rfl)

/-- The acknowledgement of a service's copy is awaited by the service's own step. -/
theorem copyAck_no_period (hp : noPeriod s n = true) : copyAck n true s = s := by
  unfold copyAck
  rw [hm]
  exact (if_neg (not_not_intro h1)).trans (if_pos hp)

variable (hp : noPeriod s n = false)
include hp

theorem copyAck_withdraws (ho : orderHolds s n m = false) : copyAck n true s = withdrawMig n s := by
  simp [copyAck, hm, h1, hp, ho]

variable (ho : orderHolds s n m = true)
include ho

theorem copyAck_dirty (hd : m.dirty = true) : copyAck n true s = retryMig n s := by
  simp [copyAck, hm, h1, hp, ho, hd]

variable (hd : m.dirty = false)
include hd

/-- The destination is bound, and waits for the next period where the copy's has not ended or the axis is quiet. -/
theorem copyAck_waits (hw : (m.crossed && !axisQuiet s n) = false) :
    copyAck n true s = setMig n { m with step := 2 } (bindSecond n m.src m.dst s) := by
  simp only [copyAck, hm, h1, hp, ho, hd, hw]
  rfl

theorem copyAck_shadows (hw : (m.crossed && !axisQuiet s n) = true) :
    copyAck n true s = shadowStart n m (bindSecond n m.src m.dst s) := by
  simp only [copyAck, hm, h1, hp, ho, hd, hw]
  rfl

end

/-! ### The shadow compare (R250) -/

theorem shadowCompare_other_step (h : m.step ≠ 3) : shadowCompare n s = s := by
  unfold shadowCompare
  rw [hm]
  split
  · next e _ => exact if_pos (by rwa [← Option.some.inj e])
  · rfl

section
variable (h3 : m.step = 3) {p : Compare}
  (hp : (s.ax n).cmps.find? (fun c => c.shadow && compareDue s.time.selvedge c.a c.c) = some p)
include h3 hp

theorem shadowCompare_halted (hr : migRuns s m = false) : shadowCompare n s = abortMig n 1 s := by
  unfold shadowCompare
  rw [hm, hp]
  exact (if_neg (not_not_intro h3)).trans (if_pos (by simp [hr]))

variable (hr : migRuns s m = true)
include hr

theorem shadowCompare_equal (he : p.a.map Prod.fst = p.c.map Prod.fst) :
    shadowCompare n s = shadowOver n (setMig n { m with step := 4 } s) := by
  unfold shadowCompare
  rw [hm, hp]
  exact (if_neg (not_not_intro h3)).trans ((if_neg (by simp [hr])).trans (if_pos he))

theorem shadowCompare_differs (he : p.a.map Prod.fst ≠ p.c.map Prod.fst) :
    shadowCompare n s = markSuspect (m.dst / 16) (abortMig n 2 s) := by
  unfold shadowCompare
  rw [hm, hp]
  exact (if_neg (not_not_intro h3)).trans ((if_neg (by simp [hr])).trans (if_neg he))

end

/-! ### Services (R251) -/

section
variable {written : Bool}

section
variable (h0 : m.step = 0)
include h0

theorem serviceMigration_waits (hb : bankRuns s m.src = true ∨ m.waitRun = true) :
    serviceMigration n written s = s := by
  unfold serviceMigration
  rw [hm]
  exact (if_pos h0).trans (if_pos (by obtain h | h := hb <;> simp [h]))

variable (hb : bankRuns s m.src = false) (hw : m.waitRun = false) (hr : migRuns s m = true)
  (ho : orderHolds s n m = true) (hx : axisFree s n = true) (hf : (s.bank m.src).fault = none)
include hb hw hr ho hx hf

theorem serviceMigration_failed
    (hc : agentCopy midSadl true (bankAddr m.src) (bankAddr m.dst) 0x1000 s = (false, copied)) :
    serviceMigration n written s = abortMig n 3 copied := by
  simp [serviceMigration, hm, h0, hb, hw, hr, ho, hx, hf, hc]

theorem serviceMigration_copied
    (hc : agentCopy midSadl true (bankAddr m.src) (bankAddr m.dst) 0x1000 s = (true, copied)) :
    serviceMigration n written s = setMig n { m with step := 1, dirty := false } (holdBank m.src true copied) := by
  simp [serviceMigration, hm, h0, hb, hw, hr, ho, hx, hf, hc]

end

section
variable (h1 : m.step = 1)
include h1

/-- The switch of a slot that nothing serves is deferred while the axis is quiet. -/
theorem serviceMigration_quiet (hn : n < 128) (hq : axisQuiet s n = true) : serviceMigration n written s = s := by
  simp [serviceMigration, hm, h1, hn, hq]

variable (hq : ¬ (n < 128 ∧ axisQuiet s n = true))
include hq

theorem serviceMigration_halted (hr : migRuns s m = false) : serviceMigration n written s = retryMig n s := by
  simp [serviceMigration, hm, h1, hq, hr]

variable (hr : migRuns s m = true) (ho : orderHolds s n m = true)
include hr ho

/-- A write of the bank during the copy ends the hold, and the move waits for the next run. -/
theorem serviceMigration_written (hw : written = true ∨ m.dirty = true) : serviceMigration n written s =
    setMig n { m with step := 0, dirty := false, waitRun := true } (holdBank m.src false s) := by
  simp [serviceMigration, hm, h1, hq, hr, ho, hw]

theorem serviceMigration_switches (hw : written = false) (hd : m.dirty = false) : serviceMigration n written s =
    journal 0x14 n 0 m.agent (locWord m.src) (locWord m.dst) (switchMig n m (bindSecond n m.src m.dst s)) := by
  simp [serviceMigration, hm, h1, hq, hr, ho, hw, hd]

end
end
end

/-! ### The statement -/

/-- Settles O37: each clause is the lemma about that outcome of the step. -/
theorem migrations : Obligations.Migrations := by
  unfold Obligations.Migrations
  intro s copied n m ok written p x y t u c a put step copy begun old second shadow hold
  refine ⟨fun h => exec_migration_none h ok written, fun hm => ?_⟩
  have service (hp : noPeriod s n = true) {t : State} (h : serviceMigration n written s = t) :
      exec (.serviceMigration n written) s = .next t := congrArg _ ((if_pos hp).trans h)
  have awake (hq : n.val < 128 → axisQuiet s n = false) : ¬ (n.val < 128 ∧ axisQuiet s n = true) :=
    fun ⟨hn, h⟩ => ne_true_of_eq_false (hq hn) h
  refine ⟨fun h => congrArg _ (if_neg (by simp [h])),
    fun hr hf => ⟨fun hc => congrArg _ ((if_pos hr).trans (startCopy_copied hm hf hc)),
      fun hc => congrArg _ ((if_pos hr).trans (startCopy_failed hm hf hc))⟩,
    fun hr hf => congrArg _ ((if_pos hr).trans (startCopy_faulted hm hf)),
    fun h1 => congrArg _ (copyAck_failed hm h1),
    fun h1 hp => congrArg _ (copyAck_no_period hm h1 hp),
    fun h1 hp ho => congrArg _ (copyAck_withdraws hm h1 hp ho), ?binds,
    fun h1 hp ho hd => congrArg _ (copyAck_dirty hm h1 hp ho hd), retryMig_mig hm,
    fun h1 => congrArg _ (copyAck_other_step hm h1 ok), ?compares,
    fun h3 => congrArg _ (shadowCompare_other_step hm h3),
    fun hp => congrArg _ (if_neg (by simp [hp])), ?waits, ?copies,
    fun hp h1 hn hq => service hp (serviceMigration_quiet hm h1 hn hq),
    fun hp h1 hq hr => service hp (serviceMigration_halted hm h1 (awake hq) hr), ?switches⟩
  case binds =>
    exact fun h1 hp ho hd => ⟨fun hc => congrArg _ (copyAck_waits hm h1 hp ho hd (by simp [hc])),
      fun hq => congrArg _ (copyAck_waits hm h1 hp ho hd (by simp [hq])),
      fun hc hq => congrArg _ (copyAck_shadows hm h1 hp ho hd (by simp [hc, hq]))⟩
  case compares =>
    intro h3 hf ha hc _ _
    refine ⟨fun hr => congrArg _ (shadowCompare_halted hm h3 hf hr),
      fun hr he => congrArg _ (shadowCompare_equal hm h3 hf hr (by simp [ha, hc, he])),
      fun hr he => congrArg _ (shadowCompare_differs hm h3 hf hr (by simpa [ha, hc] using he))⟩
  case waits =>
    intro h0 hb
    exact congrArg _ ((congrArg (ite _ · s) (serviceMigration_waits hm h0 hb)).trans (ite_self s))
  case copies =>
    exact fun hp h0 hb hw hr ho hx hf => ⟨fun hc => service hp (serviceMigration_copied hm h0 hb hw hr ho hx hf hc),
      fun hc => service hp (serviceMigration_failed hm h0 hb hw hr ho hx hf hc)⟩
  case switches =>
    exact fun hp h1 hq hr ho => ⟨fun hw => service hp (serviceMigration_written hm h1 (awake hq) hr ho hw),
      fun hd => congrArg _ ((if_pos hp).trans (serviceMigration_switches hm h1 (awake hq) hr ho rfl hd))⟩

end Sys2Proof.Machine
end

section
/-! An instruction on a ready element, by the way it ends: it completes, jumps, raises an exception
or starts a repeat. -/

namespace Sys2Proof.Machine

/-- Element `i` stands where an instruction may end with nothing more to do: its boundary is quiet, no repeat is in
progress and no mode change stands in its window. -/
structure Settled (s : State) (i : Nat) : Prop extends Quiet s i where
  repAct : repAct (s.rset i) = false
  pendSt : (s.rset i).pendSt = []

variable {s t : State} {i : Nat} {c : Instr} {sh : Shape} {sr : Bool} {body : State → Out}

theorem Ready.settled (h : Ready s i) : Settled s i := ⟨h.quiet, h.repAct, h.pendSt⟩

theorem Settled.setRset (h : Settled s i) {r : RegSet} (hr : tb r.status 13 = false) (hp : r.pendSt = []) :
    Settled (s.setRset i r) i :=
  ⟨h.toQuiet.setRset r, by simpa using hr, by simpa using hp⟩

theorem Settled.putGr (h : Settled s i) (n : Nat) (v : Word) : Settled (putGr i n v s) i := h.setRset h.repAct h.pendSt

/-- A change of the element outside its register sets and its view. -/
theorem Settled.setEl (h : Settled s i) {x : ElemState} (hv : x.view = (s.el i).view)
    (hs : (x.set x.cur).status = (s.rset i).status) (hp : (x.set x.cur).pendSt = (s.rset i).pendSt) :
    Settled (s.setEl i x) i where
  view := by rw [setEl_el_self, hv, h.view]
  want := h.want
  steps := h.steps
  fired := h.fired
  repAct := by rw [State.rset, setEl_el_self, Machine.repAct, hs]; exact h.repAct
  pendSt := by rw [State.rset, setEl_el_self, hp, h.pendSt]

/-- Outside a repeat the instruction stands at `pc`. -/
theorem Ready.instrPc (h : Ready s i) : (s.rset i).instrPc = (s.rset i).pc := if_neg (ne_true_of_eq_false h.repAct)

theorem Ready.instrAddr (h : Ready s i) : instrAddr s i = (s.rset i).pc := h.instrPc

theorem exec_done (hc : exec c s = .next (runInstr i sh false body s)) (h : Ready s i) (hb : body s = .done t)
    (ht : Settled t i) (hp : sh.prefix_ = false := by rfl) : exec c s = .next (t.passed i sh.size) := by
  rw [hc, h.done hb ht.toQuiet ht.repAct ht.pendSt hp]

theorem exec_jump {a : Word} (hc : exec c s = .next (runInstr i sh sr body s)) (h : Ready s i)
    (hb : body s = .jump a t) (ht : Settled t i) : exec c s = .next (t.jumped i a) := by
  rw [hc, h.runInstr, hb, finish_jump ht.toQuiet ht.pendSt]

theorem exec_trap {x : Trap} (hc : exec c s = .next (runInstr i sh sr body s)) (h : Ready s i)
    (hb : body s = .trap x t) (hx : x.next = false := by rfl) : exec c s = .next (t.trapped i x) := by
  rw [hc, h.runInstr, hb, finish_trap hx]

/-- The start of a repeat leaves `pc` where it is. -/
theorem exec_prefix (hc : exec c s = .next (runInstr i sh sr body s)) (h : Ready s i) (hb : body s = .done t)
    (ht : Quiet t i) (hp : sh.prefix_ = true := by rfl) : exec c s = .next t := by
  rw [hc, h.runInstr, hb]
  simp only [finish, hp, if_true, boundary_quiet ht]

end Sys2Proof.Machine
end

section
/-! Arithmetic: what the operations of the arithmetic unit give (R45–R49), and what an instruction that computes from
the registers alone leaves; then the statements about them. -/

namespace Sys2Proof.Machine

/-! ### Flags -/

theorem tb_setBit_self (w : Word) {i : Nat} (h : i < 32) (b : Bool) : tb (setBit w i b) i = b := by
  have hb : (w32 (1 <<< i)).getLsbD i = true := by
    rw [w32, BitVec.getLsbD_ofNat, Nat.one_shiftLeft, Nat.testBit_two_pow_self]
    simpa using h
  cases b <;> simp [setBit, tb, hb]

/-- Bit `i` of a word where an operation may give it a value. -/
theorem tb_setBit_getD (w : Word) {i : Nat} (h : i < 32) (o : Option Bool) :
    tb (match o with | some b => setBit w i b | none => w) i = o.getD (tb w i) := by
  cases o with
  | none => rfl
  | some b => exact tb_setBit_self w h b

theorem tb_setBit_opt_ne (w : Word) {i j : Nat} (h : i ≠ j) (o : Option Bool) :
    tb (match o with | some b => setBit w i b | none => w) j = tb w j := by
  cases o with
  | none => rfl
  | some b => exact tb_setBit_ne w h b

theorem tb_setFlags_n (w : Word) (x : AluRes) : tb (setFlags w x) 3 = x.val.msb := by
  refine (tb_setBit_opt_ne _ (by decide) x.v).trans ((tb_setBit_opt_ne _ (by decide) x.c).trans ?_)
  rw [tb_setBit_ne _ (by decide), tb_setBit_self _ (by decide)]

theorem tb_setFlags_z (w : Word) (x : AluRes) : tb (setFlags w x) 2 = decide (x.val = 0) := by
  refine (tb_setBit_opt_ne _ (by decide) x.v).trans ((tb_setBit_opt_ne _ (by decide) x.c).trans ?_)
  rw [tb_setBit_self _ (by decide)]

theorem tb_setFlags_c (w : Word) (x : AluRes) : tb (setFlags w x) 1 = x.c.getD (tb w 1) := by
  refine (tb_setBit_opt_ne _ (by decide) x.v).trans ((tb_setBit_getD _ (by decide) x.c).trans ?_)
  rw [tb_setBit_ne _ (by decide), tb_setBit_ne _ (by decide)]

theorem tb_setFlags_v (w : Word) (x : AluRes) : tb (setFlags w x) 0 = x.v.getD (tb w 0) := by
  refine (tb_setBit_getD _ (by decide) x.v).trans (congrArg _ ((tb_setBit_opt_ne _ (by decide) x.c).trans ?_))
  rw [tb_setBit_ne _ (by decide), tb_setBit_ne _ (by decide)]

theorem tb_setQ_ne (w : Word) (q : Bool) {j : Nat} (h : j ≠ 4) : tb (setQ w q) j = tb w j := by
  cases q with
  | false => rfl
  | true => exact tb_setBit_ne w h.symm true

theorem tb_setQ_self (w : Word) (q : Bool) : tb (setQ w q) 4 = (tb w 4 || q) := by
  cases q with
  | false => exact (Bool.or_false _).symm
  | true => rw [setQ, if_pos rfl, tb_setBit_self _ (by decide), Bool.or_true]

/-- A flag after an operation is that of the result where the instruction changes the flags. -/
theorem tb_statusAfter_flag (w : Word) (S : Bool) (x : AluRes) {j : Nat} (h : j ≠ 4) :
    tb (statusAfter w S x) j = if S then tb (setFlags w x) j else tb w j := by
  cases S <;> exact tb_setQ_ne _ _ h

/-- Settles O1, bit by bit. -/
theorem flagRule : Obligations.FlagRule := by
  unfold Obligations.FlagRule
  intro w S x
  refine ⟨?_, ?_, ?_, ?_, ?_, fun j hj => tb_statusAfter hj w S x⟩
  · rw [tb_statusAfter_flag _ _ _ (by decide), tb_setFlags_n]
  · rw [tb_statusAfter_flag _ _ _ (by decide), tb_setFlags_z]
  · rw [tb_statusAfter_flag _ _ _ (by decide), tb_setFlags_c]
  · rw [tb_statusAfter_flag _ _ _ (by decide), tb_setFlags_v]
  · refine (tb_setQ_self _ x.q).trans (congrArg (· || x.q) ?_)
    cases S with
    | false => rfl
    | true => exact tb_setFlags (by decide) w x

theorem AluRes.of_val {v w : Word} (h : v = w) : ({ val := v } : AluRes) = { val := w } := by rw [h]

theorem sOut_eq (x : Int) : sOut x = decide (x < -2 ^ 31 ∨ 2 ^ 31 ≤ x) := by
  rw [sOut, ← Bool.decide_or]
  exact decide_eq_decide.mpr (by omega)

/-! ### Sums and differences (R45, R47) -/

theorem toInt_not (b : Word) : (~~~b).toInt = -b.toInt - 1 := by
  have h := b.isLt
  simp only [BitVec.toInt_eq_toNat_cond, BitVec.toNat_not]
  omega

/-- The carry out and the signed overflow of a sum. -/
theorem addWith_eq (a b : Word) (c : Bool) : addWith a b c =
    { val := a + b + (if c then 1 else 0), c := some (decide (2 ^ 32 ≤ a.toNat + b.toNat + b2n c)),
      v := some (decide (a.toInt + b.toInt + b2n c < -2 ^ 31 ∨ 2 ^ 31 ≤ a.toInt + b.toInt + b2n c)) } := by
  have hval : w32 (a.toNat + b.toNat + b2n c) = a + b + (if c then 1 else 0) := by
    cases c <;> simp [b2n, BitVec.ofNat_add]
  rw [addWith, hval, sOut_eq]

/-- A difference is a sum with the complement: the carry is "no borrow". -/
theorem addWith_not (a b : Word) (c : Bool) : addWith a (~~~b) c =
    { val := a - b - (if !c then 1 else 0), c := some (decide (b.toNat + b2n (!c) ≤ a.toNat)),
      v := some (decide (a.toInt - b.toInt - b2n (!c) < -2 ^ 31 ∨ 2 ^ 31 ≤ a.toInt - b.toInt - b2n (!c))) } := by
  have hval : a + ~~~b + (if c then 1 else 0) = a - b - (if !c then 1 else 0) := by cases c <;> simp <;> bv_omega
  have hcarry : 2 ^ 32 ≤ a.toNat + (~~~b).toNat + b2n c ↔ b.toNat + b2n (!c) ≤ a.toNat := by
    rw [BitVec.toNat_not]
    cases c <;> simp [b2n] <;> omega
  have hsum : a.toInt + (~~~b).toInt + b2n c = a.toInt - b.toInt - b2n (!c) := by
    rw [toInt_not]
    cases c <;> simp [b2n] <;> omega
  rw [addWith_eq, hval, hsum, decide_eq_decide.mpr hcarry]

/-- Settles O2: every form computes through `addWith`. -/
theorem sumsAndDifferences : Obligations.SumsAndDifferences := by
  unfold Obligations.SumsAndDifferences
  intro s e rd ra rb r4 t4 imm i8 S r sum diff a b
  exact ⟨computes_regInstr rfl (addWith_eq a b false), computes_regInstr rfl (addWith_eq _ _ false),
    computes_regInstr rfl (addWith_eq a b _), computes_regInstr rfl (addWith_not a b true),
    computes_regInstr rfl (addWith_not _ _ true),
    computes_regInstr rfl (addWith_not a b _), computes_regInstr rfl (addWith_eq a _ false),
    computes_regInstr rfl (addWith_eq _ _ false), computes_regInstr rfl (addWith_not _ _ true),
    computes_regInstr rfl (addWith_not a _ true), computes_regInstr rfl (addWith_not _ _ true),
    computes_regInstr rfl (AluRes.of_val (BitVec.zero_sub _))⟩

/-! ### Logic and moves (R45, R47, R50) -/

/-- Zero extension of the low `k` bits is a mask. -/
theorem setWidth_setWidth_eq_and (x : Word) {k : Nat} (h : k ≤ 32) :
    (x.setWidth k).setWidth 32 = x &&& w32 (2 ^ k - 1) := by
  have hk : 2 ^ k - 1 < 2 ^ 32 := by
    have := Nat.pow_le_pow_right (n := 2) (by omega) h
    omega
  apply BitVec.eq_of_toNat_eq
  rw [BitVec.toNat_and, w32, BitVec.toNat_ofNat, Nat.mod_eq_of_lt hk, Nat.and_two_pow_sub_one_eq_mod,
    BitVec.toNat_setWidth, BitVec.toNat_setWidth]
  exact Nat.mod_eq_of_lt (lt_of_le_of_lt (Nat.mod_le _ _) x.isLt)

/-- The 19-bit constant of `MOVH` and `ADRH` stands above 13 zero bits. -/
theorem w32_upper (k : BitVec 19) : w32 (k.toNat * 8192) = k.setWidth 32 <<< 13 := by
  have h := k.isLt
  apply BitVec.eq_of_toNat_eq
  simp only [BitVec.toNat_ofNat, BitVec.toNat_shiftLeft, BitVec.toNat_setWidth, Nat.shiftLeft_eq]
  omega

theorem Computes.of_ready {c : Instr} {s : State} {i : Nat} {ns : List (BitVec 5)} {rd : Option Nat} {S : Bool}
    {size : Nat} {x : AluRes} (h : Ready s i → Computes c s i ns rd S size x) : Computes c s i ns rd S size x :=
  fun r => h r r

/-- Settles O4: each value is that of the instruction's operation. -/
theorem logicAndMoves : Obligations.LogicAndMoves := by
  unfold Obligations.LogicAndMoves
  intro s e rd ra rb r4 t4 imm k u S i r a b d t
  refine ⟨computes_regInstr rfl rfl, computes_regInstr rfl rfl, computes_regInstr rfl rfl, computes_regInstr rfl rfl,
    computes_regInstr rfl rfl, computes_regInstr rfl rfl, computes_regInstr rfl rfl, computes_regInstr rfl rfl,
    computes_regInstr rfl rfl, computes_regInstr rfl rfl, computes_regInstr rfl rfl, computes_regInstr rfl rfl,
    computes_regInstr rfl rfl, computes_regInstr rfl rfl, computes_regInstr rfl rfl, ?movh, ?adrh,
    computes_regInstr rfl rfl, computes_regInstr rfl rfl, ?zextb, ?zexth,
    fun h => exec_done (sh := { size := 2, rep := true }) rfl h rfl h.settled⟩
  case movh => exact computes_regInstr rfl (AluRes.of_val (w32_upper k))
  case adrh =>
    refine Computes.of_ready fun h => computes_regInstr rfl (AluRes.of_val ?_)
    rw [h.instrPc, w32_upper]
    rfl
  case zextb =>
    exact computes_regInstr rfl (AluRes.of_val (setWidth_setWidth_eq_and t (k := 8) (by decide)))
  case zexth =>
    exact computes_regInstr rfl (AluRes.of_val (setWidth_setWidth_eq_and t (k := 16) (by decide)))

/-! ### Shifts (R48) -/

theorem lslBy_eq (a : Word) (n : Nat) : lslBy a n =
    { val := if n < 32 then a <<< n else 0, c := if n = 0 then none else some ((a.toNat * 2 ^ n).testBit 32) } := by
  have hval : a <<< n = if n < 32 then a <<< n else 0 := by
    split
    · rfl
    · exact BitVec.shiftLeft_eq_zero (by omega)
  have hc : (a.toNat * 2 ^ n).testBit 32 = (decide (n ≤ 32) && a.getLsbD (32 - n)) := Nat.testBit_mul_two_pow ..
  rw [lslBy, hc, ← hval]

theorem lsrBy_eq (a : Word) (n : Nat) : lsrBy a n =
    { val := if n < 32 then a >>> n else 0, c := if n = 0 then none else some (a.toNat.testBit (n - 1)) } := by
  have hval : a >>> n = if n < 32 then a >>> n else 0 := by
    split
    · rfl
    · exact BitVec.ushiftRight_eq_zero (by omega)
  rw [lsrBy, ← hval]
  rfl

theorem getLsbD_ofInt_zero (x : Int) : (BitVec.ofInt 32 x).getLsbD 0 = decide (x % 2 = 1) := by
  rw [BitVec.getLsbD, BitVec.toNat_ofInt, Nat.testBit_zero]
  exact decide_eq_decide.mpr (by omega)

theorem sshiftRight_eq (a : Word) (n : Nat) : a.sshiftRight n = BitVec.ofInt 32 (a.toInt / 2 ^ n) :=
  congrArg _ (Int.shiftRight_eq_div_pow ..)

/-- The last bit that an arithmetic right shift moves out is that below the exact quotient. -/
theorem asr_carry (a : Word) {n : Nat} (h : n ≠ 0) :
    (if 32 ≤ n then a.msb else a.getLsbD (n - 1)) = decide (a.toInt / 2 ^ (n - 1) % 2 = 1) := by
  rw [← getLsbD_ofInt_zero, ← sshiftRight_eq, BitVec.getLsbD_sshiftRight]
  rcases Nat.lt_trichotomy n 32 with hn | rfl | hn
  · rw [if_neg (by omega), if_pos (by omega)]
    rfl
  · rfl
  · rw [if_pos (by omega), if_neg (by omega)]
    rfl

theorem asrBy_eq (a : Word) (n : Nat) : asrBy a n =
    { val := BitVec.ofInt 32 (a.toInt / 2 ^ n),
      c := if n = 0 then none else some (decide (a.toInt / 2 ^ (n - 1) % 2 = 1)) } := by
  rw [asrBy, sshiftRight_eq]
  by_cases h : n = 0
  · rw [if_pos h, if_pos h]
  · rw [if_neg h, if_neg h, asr_carry a h]

theorem rorBy_eq (a : Word) {n : Nat} (h : n < 32) : rorBy a n =
    { val := a >>> n ||| a <<< (32 - n), c := if n = 0 then none else some (a.toNat.testBit (n - 1)) } := by
  rw [rorBy, BitVec.rotateRight_def, Nat.mod_eq_of_lt h]
  rfl

/-- Settles O5: the amounts are the low bits of the register or the immediate. -/
theorem shifts : Obligations.Shifts := by
  unfold Obligations.Shifts
  intro s e rd ra rb n r4 t4 S i r left right arith rot a b d t
  exact ⟨computes_regInstr rfl (lslBy_eq a _), computes_regInstr rfl (lslBy_eq d _),
    computes_regInstr rfl (lsrBy_eq a _), computes_regInstr rfl (lsrBy_eq d _),
    computes_regInstr rfl (asrBy_eq a _), computes_regInstr rfl (asrBy_eq d _),
    computes_regInstr rfl (rorBy_eq a (Nat.mod_lt _ (by decide))),
    computes_regInstr rfl (lslBy_eq a _), computes_regInstr rfl (lslBy_eq d _),
    computes_regInstr rfl (lsrBy_eq a _), computes_regInstr rfl (lsrBy_eq d _),
    computes_regInstr rfl (asrBy_eq a _), computes_regInstr rfl (asrBy_eq d _),
    computes_regInstr rfl (rorBy_eq a n.isLt)⟩

/-! ### Products, minima and saturation (R45, R47) -/

/-- Bits 63 to 32 of an exact product. -/
theorem extractLsb'_ofInt_upper (x : Int) : (BitVec.ofInt 64 x).extractLsb' 32 32 = wInt (x / 2 ^ 32) := by
  apply BitVec.eq_of_toNat_eq
  rw [BitVec.extractLsb'_toNat, BitVec.toNat_ofInt, wInt, BitVec.toNat_ofInt, Nat.shiftRight_eq_div_pow]
  omega

theorem mulhs_eq (a b : Word) :
    wInt (a.toInt * b.toInt / 2 ^ 32) = (a.signExtend 64 * b.signExtend 64).extractLsb' 32 32 := by
  rw [← extractLsb'_ofInt_upper, BitVec.ofInt_mul]
  rfl

theorem mulhu_eq (a b : Word) :
    w32 (a.toNat * b.toNat / 2 ^ 32) = (a.setWidth 64 * b.setWidth 64).extractLsb' 32 32 := by
  have ha : a.toNat < 2 ^ 64 := by omega
  have hb : b.toNat < 2 ^ 64 := by omega
  have h : a.toNat * b.toNat < 2 ^ 64 := (Nat.mul_lt_mul'' a.isLt b.isLt).trans_eq (by decide)
  apply BitVec.eq_of_toNat_eq
  rw [BitVec.extractLsb'_toNat, BitVec.toNat_mul, BitVec.toNat_setWidth, BitVec.toNat_setWidth, Nat.mod_eq_of_lt ha,
    Nat.mod_eq_of_lt hb, Nat.mod_eq_of_lt h, Nat.shiftRight_eq_div_pow, w32, BitVec.toNat_ofNat]

theorem min_eq (a b : Word) :
    (if a.toInt < b.toInt then a else b) = if a.toInt ≤ b.toInt then a else b := by
  by_cases h : a.toInt = b.toInt
  · rw [BitVec.eq_of_toInt_eq h, ite_self, ite_self]
  · exact if_congr (by omega) rfl rfl

theorem max_eq (a b : Word) :
    (if a.toInt > b.toInt then a else b) = if a.toInt ≤ b.toInt then b else a := by
  rw [← ite_not]
  exact if_congr (by omega) rfl rfl

theorem minu_eq (a b : Word) : (if a.toNat < b.toNat then a else b) = if a ≤ b then a else b := by
  by_cases h : a.toNat = b.toNat
  · rw [BitVec.eq_of_toNat_eq h, ite_self, ite_self]
  · exact if_congr (by rw [BitVec.le_def]; omega) rfl rfl

theorem maxu_eq (a b : Word) : (if a.toNat > b.toNat then a else b) = if a ≤ b then b else a := by
  rw [← ite_not]
  exact if_congr (by rw [BitVec.le_def]; omega) rfl rfl

/-- Bit `n` above the `n` bits below it. -/
theorem mod_two_pow_succ (x n : Nat) : x % 2 ^ (n + 1) = x % 2 ^ n + 2 ^ n * (x.testBit n).toNat := by
  rw [Nat.mod_pow_succ, Nat.toNat_testBit]

theorem clzFrom_le (a : Word) (n : Nat) : clzFrom a n ≤ n := by
  induction n with
  | zero => exact Nat.le_refl 0
  | succ n ih =>
    unfold clzFrom
    split <;> omega

/-- The leading zeros among the low `n` bits bound those bits from above. -/
theorem mod_lt_clzFrom (a : Word) (n : Nat) : a.toNat % 2 ^ n < 2 ^ (n - clzFrom a n) := by
  induction n with
  | zero => simp [Nat.mod_one]
  | succ n ih =>
    cases h : a.getLsbD n with
    | true =>
      rw [clzFrom, h]
      exact Nat.mod_lt _ (Nat.two_pow_pos _)
    | false =>
      have hb : a.toNat.testBit n = false := h
      rw [clzFrom, h, mod_two_pow_succ, hb]
      simpa using ih

/-- Below the leading zeros stands a one. -/
theorem clzFrom_le_mod (a : Word) (n : Nat) (hn : clzFrom a n < n) : 2 ^ (n - 1 - clzFrom a n) ≤ a.toNat % 2 ^ n := by
  induction n with
  | zero => omega
  | succ n ih =>
    cases h : a.getLsbD n with
    | true =>
      have hb : a.toNat.testBit n = true := h
      rw [clzFrom, h, mod_two_pow_succ, hb]
      simp
    | false =>
      have hb : a.toNat.testBit n = false := h
      rw [clzFrom, h] at hn
      have ih := ih (by simpa using hn)
      rw [clzFrom, h, mod_two_pow_succ, hb]
      simpa [Nat.sub_sub, Nat.add_comm] using ih

theorem saturate_eq (x : Int) : saturate x =
    { val := BitVec.ofInt 32 (max (-2 ^ 31) (min (2 ^ 31 - 1) x)), v := some (decide (x < -2 ^ 31 ∨ 2 ^ 31 ≤ x)),
      q := decide (x < -2 ^ 31 ∨ 2 ^ 31 ≤ x) } := by
  have hval : clampI x (-2147483648) 2147483647 = max (-2 ^ 31) (min (2 ^ 31 - 1) x) := by
    unfold clampI
    split_ifs <;> omega
  rw [saturate, hval, sOut_eq, wInt]

/-- Settles O6: each value is that of the instruction's operation. -/
theorem products : Obligations.Products := by
  unfold Obligations.Products
  intro s e rd ra rb r4 t4 S i r a b res is
  refine ⟨computes_regInstr rfl rfl, computes_regInstr rfl rfl, computes_regInstr rfl (AluRes.of_val (mulhs_eq a b)),
    computes_regInstr rfl (AluRes.of_val (mulhu_eq a b)), computes_regInstr rfl (AluRes.of_val (min_eq a b)),
    computes_regInstr rfl (AluRes.of_val (max_eq a b)), computes_regInstr rfl (AluRes.of_val (minu_eq a b)),
    computes_regInstr rfl (AluRes.of_val (maxu_eq a b)), computes_regInstr rfl (AluRes.of_val ?slt),
    computes_regInstr rfl rfl, ?clz,
    computes_regInstr rfl (saturate_eq _), computes_regInstr rfl (saturate_eq _)⟩
  case slt => exact if_congr BitVec.slt_iff_toInt_lt.symm rfl rfl
  case clz =>
    have hmod : a.toNat % 2 ^ 32 = a.toNat := Nat.mod_eq_of_lt a.isLt
    exact ⟨clzFrom a 32, clzFrom_le a 32, hmod ▸ mod_lt_clzFrom a 32, fun h => hmod ▸ clzFrom_le_mod a 32 h,
      computes_regInstr rfl rfl⟩

/-! ### Division (R49, R89) -/

/-- A divide that is not abandoned computes like any other instruction. -/
theorem computes_div {c : Instr} {s : State} {e : Elem} {rd ra rb : BitVec 5} {S : Bool} {op : AluOp} {x : AluRes}
    (h : exec c s = .next (divInstr op e rd ra rb S false s))
    (hx : onRegs op ra.toNat rb.toNat (s.rset (elemIdx e)) = x) :
    Computes c s (elemIdx e) [rd, ra, rb] (some rd.toNat) S 4 x := by
  refine computes_regInstr (h.trans (congrArg Host.Outcome.next ?_)) hx
  simp only [divInstr, Bool.and_false, Bool.false_and, Bool.false_eq_true, if_false]
  rfl

/-- A divide that is abandoned outside a repeat leaves the state. -/
theorem divInstr_abandoned {s : State} {e : Elem} (h : Ready s (elemIdx e)) {rd ra rb : BitVec 5}
    (hn : regsOk (elemIdx e) [rd, ra, rb] = true) (op : AluOp) (S : Bool) : divInstr op e rd ra rb S true s = s := by
  have hr : repAct (s.rset (elemIdx e)) = false := h.repAct
  simp only [divInstr, h.runInstr, hn, hr, Bool.and_self, Bool.false_and, Bool.not_false, Bool.true_or, if_true]
  exact boundary_quiet h.quiet false

/-- The one signed quotient that leaves the range wraps. -/
theorem div_wraps {a b : Word} (h : divOver a b = true) : wInt (a.toInt.tdiv b.toInt) = 0x80000000 := by
  simp only [divOver, Bool.and_eq_true, decide_eq_true_eq] at h
  obtain ⟨rfl, rfl⟩ := h
  decide

theorem rem_wraps {a b : Word} (h : divOver a b = true) : wInt (a.toInt.tmod b.toInt) = 0 := by
  simp only [divOver, Bool.and_eq_true, decide_eq_true_eq] at h
  obtain ⟨rfl, rfl⟩ := h
  decide

theorem aluDiv_eq (c : Bool) (a b : Word) : aluDiv c a b =
    { val := if b = 0 then 0xFFFFFFFF else if divOver a b then 0x80000000 else BitVec.ofInt 32 (a.toInt.tdiv b.toInt),
      v := some (b = 0 || divOver a b) } := by
  have hval : wInt (a.toInt.tdiv b.toInt) =
      if divOver a b then 0x80000000 else BitVec.ofInt 32 (a.toInt.tdiv b.toInt) := by
    split
    · exact div_wraps ‹_›
    · rfl
  rw [aluDiv, hval]

theorem aluRem_eq (c : Bool) (a b : Word) : aluRem c a b =
    { val := if b = 0 then a else if divOver a b then 0 else BitVec.ofInt 32 (a.toInt.tmod b.toInt),
      v := some (b = 0 || divOver a b) } := by
  have hval : wInt (a.toInt.tmod b.toInt) =
      if divOver a b then 0 else BitVec.ofInt 32 (a.toInt.tmod b.toInt) := by
    split
    · exact rem_wraps ‹_›
    · rfl
  rw [aluRem, hval]

theorem aluDivu_eq (c : Bool) (a b : Word) :
    aluDivu c a b = { val := if b = 0 then 0xFFFFFFFF else a / b, v := some (decide (b = 0)) } := by
  rw [aluDivu, w32, ← BitVec.toNat_udiv, BitVec.ofNat_toNat, BitVec.setWidth_eq]

theorem aluRemu_eq (c : Bool) (a b : Word) :
    aluRemu c a b = { val := if b = 0 then a else a % b, v := some (decide (b = 0)) } := by
  rw [aluRemu, w32, ← BitVec.toNat_umod, BitVec.ofNat_toNat, BitVec.setWidth_eq]

/-- Settles O7: the wrapping case is the exact quotient modulo 2^32. -/
theorem division : Obligations.Division := by
  unfold Obligations.Division
  intro s e rd ra rb S i r a b is wraps
  refine ⟨computes_div rfl (aluDiv_eq _ a b), computes_div rfl (aluRem_eq _ a b), computes_div rfl (aluDivu_eq _ a b),
    computes_div rfl (aluRemu_eq _ a b), fun c hc h hn => ?abandoned⟩
  case abandoned =>
    simp only [List.mem_cons, List.not_mem_nil, or_false] at hc
    obtain rfl | rfl | rfl | rfl := hc <;> exact congrArg Host.Outcome.next (divInstr_abandoned h hn _ S)

end Sys2Proof.Machine
end

section
/-! Loads and stores: how the body of each form ends where its access succeeds (R52, R54–R56); then the statements
about them. -/

namespace Sys2Proof.Machine

section
variable {s s1 : State} {i : Nat} {ns : List (BitVec 5)} {rd ra n : Nat} {signed : Bool} {imm va : Word} {o : Obs}
  {bs : List Byte}

/-! ### Loads and stores (R52, R55) -/

theorem loadBody_done (hn : regsOk i ns = true) (ha : (s.rset i).gr ra + imm = va)
    (hl : loadVa i n va o s = (.ok bs, s1)) :
    loadBody i ns rd ra n signed imm o s = .done (putGr i rd (widen n signed bs) s1) := by
  simp [loadBody, hn, ha, hl]

theorem storeBody_done (hn : regsOk i ns = true) (ha : (s.rset i).gr ra + imm = va)
    (hl : storeVa i va (toBytes n ((s.rset i).gr rd).toNat) o s = (none, s1)) :
    storeBody i ns rd ra n imm o s = .done s1 := by
  simp [storeBody, hn, ha, hl]

theorem loadPostBody_done {rd ra : BitVec 5} (hn : regsOk i [rd, ra] = true) (hne : rd ≠ ra)
    (hl : loadVa i n ((s.rset i).gr ra.toNat) o s = (.ok bs, s1)) : loadPostBody i rd ra n signed imm o s =
      .done (putGr i ra.toNat ((s.rset i).gr ra.toNat + imm) (putGr i rd.toNat (widen n signed bs) s1)) := by
  simp [loadPostBody, hn, hne, hl]

theorem storePostBody_done {rd ra : BitVec 5} (hn : regsOk i [rd, ra] = true)
    (hl : storeVa i ((s.rset i).gr ra.toNat) (toBytes n ((s.rset i).gr rd.toNat).toNat) o s = (none, s1)) :
    storePostBody i rd ra n imm o s = .done (putGr i ra.toNat ((s.rset i).gr ra.toNat + imm) s1) := by
  simp [storePostBody, hn, hl]

/-- The stack forms are the plain ones on a core whose `sp` is aligned (R33, R55). -/
theorem spBody_core {body : State → Out} (he : isEngine i = false) (hsp : ((s.rset i).gr 14).toNat % 4 = 0) :
    spBody i body s = body s := by
  unfold spBody
  rw [if_neg (ne_true_of_eq_false he), if_neg (not_not_intro hsp)]

/-! ### Bank-relative accesses (R54) -/

theorem loadKBody_done {rd : BitVec 5} {sel : Option Nat} {k off : Nat} (hk : sel = some k) (he : isEngine i = true)
    (hn : regsOk i [rd] = true) (hl : loadBank i n k off o.ecc s = (.ok bs, s1)) :
    loadKBody i rd sel n signed off o s = .done (putGr i rd.toNat (widen n signed bs) s1) := by
  simp [loadKBody, hk, he, hn, hl]

theorem storeKBody_done {rd : BitVec 5} {sel : Option Nat} {k off : Nat} (hk : sel = some k) (he : isEngine i = true)
    (hn : regsOk i [rd] = true)
    (hl : storeBank i k off (toBytes n ((s.rset i).gr rd.toNat).toNat) o.ecc s = (none, s1)) :
    storeKBody i rd sel n off o s = .done s1 := by
  simp [storeKBody, hk, he, hn, hl]

/-- The base field 0 names the bank of `BANK`, 16 + k bank k. -/
theorem bankSel_eq {e : ElemState} {ra : BitVec 5} {k : Nat}
    (h : ra = 0 ∧ k = fld e.bank 3 0 ∨ 16 ≤ ra.toNat ∧ k = ra.toNat - 16) : bankSel e ra = some k := by
  obtain ⟨rfl, rfl⟩ | ⟨h, rfl⟩ := h
  · rfl
  · exact if_neg (by omega)

theorem isEngine_fin (g : Fin 32) : isEngine g = true := decide_eq_true g.isLt

theorem regsOk_of_lt {rd : BitVec 5} (h : rd.toNat < 16) : regsOk i [rd] = true := by simp [regsOk, h]

/-- A 4-bit register field is legal on every element. -/
theorem regsOk_setWidth (r : BitVec 4) : regsOk i [r.setWidth 5] = true := by
  have h := r.isLt
  refine regsOk_of_lt ?_
  rw [BitVec.toNat_setWidth]
  omega

theorem toNat_setWidth_5 (r : BitVec 4) : (r.setWidth 5).toNat = r.toNat := by
  have h := r.isLt
  rw [BitVec.toNat_setWidth]
  omega

end

/-! ### The instructions -/

section
variable {s s1 t : State} {e : Elem} {rd ra : BitVec 5} {n : Nat} {signed : Bool} {imm : BitVec 14} {off : BitVec 12}
  {va : Word} {o : Obs} {bs : List Byte}

theorem memInstr_done {size : Nat} {body : Nat → State → Out} (h : Ready s (elemIdx e))
    (hb : body (elemIdx e) s = .done t) (ht : Settled t (elemIdx e)) :
    memInstr e size body s = t.passed (elemIdx e) size :=
  h.done hb ht.toQuiet ht.repAct ht.pendSt rfl

variable (h : Ready s (elemIdx e)) (h1 : Ready s1 (elemIdx e))
include h h1

theorem ldInstr_done (hn : regsOk (elemIdx e) [rd, ra] = true)
    (hl : loadVa (elemIdx e) n ((s.rset (elemIdx e)).gr ra.toNat + imm.signExtend 32) o s = (.ok bs, s1)) :
    ldInstr n signed e rd ra imm o s = (putGr (elemIdx e) rd.toNat (widen n signed bs) s1).passed (elemIdx e) 4 :=
  memInstr_done h (loadBody_done hn rfl hl) (h1.settled.putGr _ _)

theorem ldPInstr_done (hn : regsOk (elemIdx e) [rd, ra] = true) (hne : rd ≠ ra)
    (hl : loadVa (elemIdx e) n ((s.rset (elemIdx e)).gr ra.toNat) o s = (.ok bs, s1)) :
    ldPInstr n signed e rd ra imm o s =
      (putGr (elemIdx e) ra.toNat ((s.rset (elemIdx e)).gr ra.toNat + imm.signExtend 32)
        (putGr (elemIdx e) rd.toNat (widen n signed bs) s1)).passed (elemIdx e) 4 :=
  memInstr_done h (loadPostBody_done hn hne hl) ((h1.settled.putGr _ _).putGr _ _)

theorem stInstr_done (hn : regsOk (elemIdx e) [rd, ra] = true)
    (hl : storeVa (elemIdx e) ((s.rset (elemIdx e)).gr ra.toNat + imm.signExtend 32)
      (toBytes n ((s.rset (elemIdx e)).gr rd.toNat).toNat) o s = (none, s1)) :
    stInstr n e rd ra imm o s = s1.passed (elemIdx e) 4 :=
  memInstr_done h (storeBody_done hn rfl hl) h1.settled

theorem stPInstr_done (hn : regsOk (elemIdx e) [rd, ra] = true)
    (hl : storeVa (elemIdx e) ((s.rset (elemIdx e)).gr ra.toNat)
      (toBytes n ((s.rset (elemIdx e)).gr rd.toNat).toNat) o s = (none, s1)) :
    stPInstr n e rd ra imm o s =
      (putGr (elemIdx e) ra.toNat ((s.rset (elemIdx e)).gr ra.toNat + imm.signExtend 32) s1).passed (elemIdx e) 4 :=
  memInstr_done h (storePostBody_done hn hl) (h1.settled.putGr _ _)

variable {k : Nat} (he : isEngine (elemIdx e) = true) (hn : regsOk (elemIdx e) [rd] = true)
  (hk : bankSel (s.el (elemIdx e)) ra = some k)
include he hn hk

theorem ldKInstr_done (hl : loadBank (elemIdx e) n k off.toNat o.ecc s = (.ok bs, s1)) :
    ldKInstr n signed e rd ra off o s = (putGr (elemIdx e) rd.toNat (widen n signed bs) s1).passed (elemIdx e) 4 :=
  memInstr_done h (loadKBody_done hk he hn hl) (h1.settled.putGr _ _)

theorem stKInstr_done
    (hl : storeBank (elemIdx e) k off.toNat (toBytes n ((s.rset (elemIdx e)).gr rd.toNat).toNat) o.ecc s = (none, s1)) :
    stKInstr n e rd ra off o s = s1.passed (elemIdx e) 4 :=
  memInstr_done h (storeKBody_done hk he hn hl) h1.settled

end

/-- Settles O8: where the read succeeds the body of each form completes. -/
theorem loads : Obligations.Loads := by
  unfold Obligations.Loads
  intro s s1 e rd ra r4 t4 imm off9 o bs i r base va reads gives s8 s16 u put putP
  have none_ok : regsOk i [] = true := by simp [regsOk]
  refine ⟨fun hn => ⟨?byte, ?half, ?word, fun hne => ⟨?byteP, ?halfP, ?wordP⟩⟩, ?r16, ?sp⟩
  case byte =>
    exact fun ⟨h, h1, hl⟩ => ⟨congrArg Host.Outcome.next (ldInstr_done h h1 hn hl),
      congrArg Host.Outcome.next (ldInstr_done h h1 hn hl)⟩
  case half =>
    exact fun ⟨h, h1, hl⟩ => ⟨congrArg Host.Outcome.next (ldInstr_done h h1 hn hl),
      congrArg Host.Outcome.next (ldInstr_done h h1 hn hl)⟩
  case word => exact fun ⟨h, h1, hl⟩ => congrArg Host.Outcome.next (ldInstr_done h h1 hn hl)
  case byteP =>
    exact fun ⟨h, h1, hl⟩ => ⟨congrArg Host.Outcome.next (ldPInstr_done h h1 hn hne hl),
      congrArg Host.Outcome.next (ldPInstr_done h h1 hn hne hl)⟩
  case halfP =>
    exact fun ⟨h, h1, hl⟩ => ⟨congrArg Host.Outcome.next (ldPInstr_done h h1 hn hne hl),
      congrArg Host.Outcome.next (ldPInstr_done h h1 hn hne hl)⟩
  case wordP => exact fun ⟨h, h1, hl⟩ => congrArg Host.Outcome.next (ldPInstr_done h h1 hn hne hl)
  case r16 =>
    intro ⟨h, h1, hl⟩
    have hb := loadBody_done (rd := r4.toNat) (signed := false) none_ok (BitVec.add_zero (r.gr t4.toNat)) hl
    exact congrArg Host.Outcome.next (memInstr_done h hb (h1.settled.putGr _ _))
  case sp =>
    intro he hsp ⟨h, h1, hl⟩
    have hb := (spBody_core he hsp).trans (loadBody_done (rd := r4.toNat) (signed := false) none_ok rfl hl)
    exact congrArg Host.Outcome.next (memInstr_done h hb (h1.settled.putGr _ _))

/-- Settles O9: where the write succeeds the body of each form completes. -/
theorem stores : Obligations.Stores := by
  unfold Obligations.Stores
  intro s s1 e rd ra r4 t4 imm off9 o i r base v va puts gives moved
  have none_ok : regsOk i [] = true := by simp [regsOk]
  refine ⟨fun hn => ⟨?byte, ?half, ?word, ?byteP, ?halfP, ?wordP⟩, ?r16, ?sp⟩
  case byte => exact fun ⟨h, h1, hl⟩ => congrArg Host.Outcome.next (stInstr_done h h1 hn hl)
  case half => exact fun ⟨h, h1, hl⟩ => congrArg Host.Outcome.next (stInstr_done h h1 hn hl)
  case word => exact fun ⟨h, h1, hl⟩ => congrArg Host.Outcome.next (stInstr_done h h1 hn hl)
  case byteP => exact fun ⟨h, h1, hl⟩ => congrArg Host.Outcome.next (stPInstr_done h h1 hn hl)
  case halfP => exact fun ⟨h, h1, hl⟩ => congrArg Host.Outcome.next (stPInstr_done h h1 hn hl)
  case wordP => exact fun ⟨h, h1, hl⟩ => congrArg Host.Outcome.next (stPInstr_done h h1 hn hl)
  case r16 =>
    intro ⟨h, h1, hl⟩
    have hb := storeBody_done (rd := r4.toNat) none_ok (BitVec.add_zero (r.gr t4.toNat)) hl
    exact congrArg Host.Outcome.next (memInstr_done h hb h1.settled)
  case sp =>
    intro he hsp ⟨h, h1, hl⟩
    have hb := (spBody_core he hsp).trans (storeBody_done (rd := r4.toNat) none_ok rfl hl)
    exact congrArg Host.Outcome.next (memInstr_done h hb h1.settled)

/-- Settles O10: the form names its bank, and the body completes where the access succeeds. -/
theorem bankAccesses : Obligations.BankAccesses := by
  unfold Obligations.BankAccesses
  intro s s1 g rd ra r4 off off9 o bs k e r cur reads puts gives s8 s16 u v
  have he : isEngine (elemIdx e) = true := isEngine_fin g
  refine ⟨fun hrd hk => ?named, ?load16, ?store16⟩
  case named =>
    have hk : bankSel (s.el (elemIdx e)) ra = some k := bankSel_eq hk
    have hn : regsOk (elemIdx e) [rd] = true := regsOk_of_lt hrd
    refine ⟨?byte, ?half, ?word, ?storeByte, ?storeHalf, ?storeWord⟩
    case byte =>
      exact fun ⟨h, h1, hl⟩ => ⟨congrArg Host.Outcome.next (ldKInstr_done h h1 he hn hk hl),
        congrArg Host.Outcome.next (ldKInstr_done h h1 he hn hk hl)⟩
    case half =>
      exact fun ⟨h, h1, hl⟩ => ⟨congrArg Host.Outcome.next (ldKInstr_done h h1 he hn hk hl),
        congrArg Host.Outcome.next (ldKInstr_done h h1 he hn hk hl)⟩
    case word => exact fun ⟨h, h1, hl⟩ => congrArg Host.Outcome.next (ldKInstr_done h h1 he hn hk hl)
    case storeByte => exact fun ⟨h, h1, hl⟩ => congrArg Host.Outcome.next (stKInstr_done h h1 he hn hk hl)
    case storeHalf => exact fun ⟨h, h1, hl⟩ => congrArg Host.Outcome.next (stKInstr_done h h1 he hn hk hl)
    case storeWord => exact fun ⟨h, h1, hl⟩ => congrArg Host.Outcome.next (stKInstr_done h h1 he hn hk hl)
  case load16 =>
    intro ⟨h, h1, hl⟩
    have hb := loadKBody_done (signed := false) (o := o) rfl he (regsOk_setWidth r4) hl
    rw [toNat_setWidth_5] at hb
    exact congrArg Host.Outcome.next (memInstr_done (e := e) h hb (h1.settled.putGr _ _))
  case store16 =>
    intro ⟨h, h1, hl⟩
    rw [← toNat_setWidth_5] at hl
    have hb := storeKBody_done (o := o) rfl he (regsOk_setWidth r4) hl
    exact congrArg Host.Outcome.next (memInstr_done (e := e) h hb h1.settled)

end Sys2Proof.Machine
end

section
/-! Reservations, `FENCE` and posted stores (R53, R57–R60): how each ends, then the statement about them. -/

namespace Sys2Proof.Machine

/-! ### `LDX` and `STX` -/

section
variable {s s1 s2 s3 : State} {i : Nat} {va v : Word} {o : Obs} {p : Place} {bs : List Byte}

theorem ldxAt_misaligned (ha : va.toNat % 4 ≠ 0) : ldxAt i va o s = (.error (Trap.align va), s) := if_pos ha

theorem stxAt_misaligned (ha : va.toNat % 4 ≠ 0) : stxAt i va v o s = (.error (Trap.align va), s) := if_pos ha

section
variable (ha : va.toNat % 4 = 0) (hx : xlate i .load va o.wecc (applyObs i o s) = (.ok p, s1))
include ha hx

theorem ldxAt_unreservable (hr : reservable s1 p.pa = false) :
    ldxAt i va o s = (.error (Trap.access false 7 9 va), s1) := by
  simp [ldxAt, ha, hx, hr]

/-- The element's stores to the granule arrive first; then the word is read and reserved (R57). -/
theorem ldxAt_ok (hr : reservable s1 p.pa = true)
    (hl : loadAt i 4 p o.ecc (drainFor i (p.pa / 32 * 32) 32 s1) = (.ok bs, s2)) : ldxAt i va o s =
      (.ok (w32 (ofBytes bs)), watchAccess i false p 4
        (s2.setEl i { s2.el i with resv := some { granule := p.pa / 32, word := p.pa / 4 } })) := by
  simp [ldxAt, ha, hx, hr, hl]

end

variable (ha : va.toNat % 4 = 0) (hx : xlate i .store va o.wecc (applyObs i o s) = (.ok p, s1))
include ha hx

theorem stxAt_unreservable (hr : reservable s1 p.pa = false) :
    stxAt i va v o s = (.error (Trap.access true 7 9 va), s1) := by
  simp [stxAt, ha, hx, hr]

variable (hr : reservable s1 p.pa = true) (hd : drainFor i (p.pa / 32 * 32) 32 s1 = s2)
include hr hd

/-- Without a reservation on the word nothing is stored (R58). -/
theorem stxAt_lost (hn : ∀ x, (s2.el i).resv = some x → x.word ≠ p.pa / 4) :
    stxAt i va v o s = (.ok 1, s2.setEl i { s2.el i with resv := none }) := by
  cases h : (s2.el i).resv with
  | none => simp [stxAt, ha, hx, hr, hd, h]
  | some x => simp [stxAt, ha, hx, hr, hd, h, hn x h]

/-- With the reservation on the word the store acts at once (R59). -/
theorem stxAt_held {x : Resv} (h : (s2.el i).resv = some x) (hw : x.word = p.pa / 4)
    (hs : stxStore i p (toBytes 4 v.toNat) o.ecc (s2.setEl i { s2.el i with resv := none }) = (none, s3)) :
    stxAt i va v o s = (.ok 0, watchAccess i true p 4 s3) := by
  simp [stxAt, ha, hx, hr, hd, h, hw, hs]

end

section
variable {s t : State} {i : Nat} {rd ra rb : BitVec 5} {o : Obs} {v : Word} {x : Trap}

section
variable (hn : regsOk i [rd, ra] = true)
include hn

theorem ldxBody_done (h : ldxAt i ((s.rset i).gr ra.toNat) o s = (.ok v, t)) :
    ldxBody i rd ra o s = .done (putGr i rd.toNat v t) := by
  simp [ldxBody, hn, h]

theorem ldxBody_trap (h : ldxAt i ((s.rset i).gr ra.toNat) o s = (.error x, t)) : ldxBody i rd ra o s = .trap x t := by
  simp [ldxBody, hn, h]

end

theorem stxBody_source (h : rd = ra ∨ rd = rb) : stxBody i rd ra rb o s = .trap Trap.illegal s :=
  if_pos (by obtain h | h := h <;> simp [h])

variable (hn : regsOk i [rd, ra, rb] = true) (ha : rd ≠ ra) (hb : rd ≠ rb)
include hn ha hb

theorem stxBody_done (h : stxAt i ((s.rset i).gr ra.toNat) ((s.rset i).gr rb.toNat) o s = (.ok v, t)) :
    stxBody i rd ra rb o s = .done (putGr i rd.toNat v t) := by
  simp [stxBody, hn, ha, hb, h]

theorem stxBody_trap (h : stxAt i ((s.rset i).gr ra.toNat) ((s.rset i).gr rb.toNat) o s = (.error x, t)) :
    stxBody i rd ra rb o s = .trap x t := by
  simp [stxBody, hn, ha, hb, h]

end

/-- The fields of a shorter format are legal where those of a longer one are. -/
theorem regsOk_of_append {i : Nat} {ns ms : List (BitVec 5)} (h : regsOk i (ns ++ ms) = true) : regsOk i ns = true := by
  simp only [regsOk, List.all_append, Bool.or_eq_true, Bool.and_eq_true] at h ⊢
  exact h.imp_right And.left

theorem Settled.setResv {s : State} {i : Nat} (h : Settled s i) (x : Option Resv) :
    Settled (s.setEl i { s.el i with resv := x }) i := h.setEl rfl rfl rfl

/-! ### Posted stores (R53, R94) -/

theorem storeAck_waits {s : State} {i k : Nat} (h : mayLand s (s.el i).wq k = false) : storeAck i k s = s :=
  if_neg (ne_true_of_eq_false h)

theorem storeAck_lands {s : State} {i k : Nat} (h : mayLand s (s.el i).wq k = true) :
    storeAck i k s = takeImprecise i (landNth i k s) := if_pos h

theorem storeError_waits {s : State} {i k : Nat} (h : mayLand s (s.el i).wq k = false) (ecc : Bool) :
    storeError i k ecc s = s := by
  unfold storeError
  cases (s.el i).wq[k]? with
  | none => rfl
  | some p => exact if_pos (by simp [h])

theorem storeError_lands {s : State} {i k : Nat} {q : Posted} (hq : (s.el i).wq[k]? = some q)
    (h : mayLand s (s.el i).wq k = true) (ecc : Bool) : storeError i k ecc s =
      takeImprecise i (noteError i q (if ecc then .ecc else .bus)
        (s.setEl i { s.el i with wq := (s.el i).wq.eraseIdx k })) := by
  unfold storeError
  rw [hq]
  exact if_neg (by simp [h])

/-- Settles O11: each outcome of the access ends the instruction as its body says. -/
theorem reservationsAndFence : Obligations.ReservationsAndFence := by
  unfold Obligations.ReservationsAndFence
  intro s s1 s2 s3 e rd ra rb o bs k ecc q p i r va gives free kept
  refine ⟨?ldx, ?stx, fun h hn => ⟨?source, ?misaligned, ?unreservable⟩, ?fenceEmpty, ?fence,
    fun hm => congrArg Host.Outcome.next (storeAck_lands hm),
    fun hm => ⟨congrArg Host.Outcome.next (storeAck_waits hm), congrArg Host.Outcome.next (storeError_waits hm ecc)⟩,
    fun hq hm => congrArg Host.Outcome.next (storeError_lands hq hm ecc)⟩
  case ldx =>
    intro h h2 hn ha hx hr hl hw
    have hb := ldxBody_done hn ((ldxAt_ok ha hx hr hl).trans (congrArg _ hw))
    exact exec_done (sh := {}) rfl h hb ((h2.settled.setResv _).putGr _ _)
  case stx =>
    intro h h2 hn hra hrb ha hx hr hd
    refine ⟨fun hlost => ?_, fun x hres hword h3 hs hw => ?_⟩
    · have hb := stxBody_done hn hra hrb (stxAt_lost ha hx hr hd hlost)
      exact exec_done (sh := {}) rfl h hb ((h2.settled.setResv _).putGr _ _)
    · have hb := stxBody_done hn hra hrb ((stxAt_held ha hx hr hd hres hword hs).trans (congrArg _ hw))
      exact exec_done (sh := {}) rfl h hb (h3.settled.putGr _ _)
  case source => exact fun hsame => exec_trap (sh := {}) rfl h (stxBody_source hsame)
  case misaligned =>
    have hn2 : regsOk i [rd, ra] = true := regsOk_of_append (ms := [rb]) hn
    exact fun ha => ⟨exec_trap (sh := {}) rfl h (ldxBody_trap hn2 (ldxAt_misaligned ha)),
      fun hra hrb => exec_trap (sh := {}) rfl h (stxBody_trap hn hra hrb (stxAt_misaligned ha))⟩
  case unreservable =>
    have hn2 : regsOk i [rd, ra] = true := regsOk_of_append (ms := [rb]) hn
    exact fun ha hr => ⟨fun hx => exec_trap (sh := {}) rfl h (ldxBody_trap hn2 (ldxAt_unreservable ha hx hr)),
      fun hra hrb hx => exec_trap (sh := {}) rfl h (stxBody_trap hn hra hrb (stxAt_unreservable ha hx hr))⟩
  case fenceEmpty =>
    intro h hq
    have hb : drainAll i (s.el i).wq.length s = s := by rw [hq]; rfl
    exact exec_done (sh := {}) rfl h (congrArg Out.done hb) h.settled
  case fence => exact fun h h1 hd => exec_done (sh := {}) rfl h (congrArg Out.done hd) h1.settled

end Sys2Proof.Machine
end

section
/-! Conditions, branches, calls and the frame instructions (R46, R51, R61–R63), and the special registers and repeats
(R34–R36, R64, R100): how each body ends, then the statements about them. -/

namespace Sys2Proof.Machine

/-! ### Branches and jumps (R46, R51) -/

section
variable {s : State} {i : Nat}

theorem Ready.branchTarget (h : Ready s i) (o : Word) : branchTarget s i o = (s.rset i).pc + 2 * o := by
  have h2 : 2 * o = o + o := by bv_omega
  rw [Machine.branchTarget, h.instrAddr, h2, BitVec.add_assoc]

/-- The frame of a conditional branch of `n` bytes, by its condition. -/
theorem Ready.bcc (h : Ready s i) (n : Nat) (c : BitVec 4) (off : Word) :
    Machine.runInstr i { size := n } false (bccBody i c off) s =
      if c = 0xF then s.trapped i Trap.illegal
      else if condHolds (s.rset i).status c.toNat then s.jumped i ((s.rset i).pc + 2 * off) else s.passed i n := by
  rw [h.runInstr, bccBody, h.branchTarget]
  split
  · exact finish_trap rfl false
  · split
    · exact finish_jump h.quiet h.pendSt false _
    · exact finish_done h.quiet rfl h.repAct h.pendSt

/-- The frame of a jump to a register: an odd target raises `ALIGN` (R41, R51). -/
theorem Ready.jumpReg (h : Ready s i) (n : Nat) (rs : BitVec 4) (link : Bool) :
    let t := (s.rset i).gr rs.toNat
    Machine.runInstr i { size := n } false (jumpBody i rs link) s = if tb t 0 then s.trapped i (Trap.align t)
      else (if link then putGr i 15 ((s.rset i).pc + 2) s else s).jumped i t := by
  intro t
  rw [h.runInstr, jumpBody, h.instrAddr]
  by_cases ht : tb t 0
  · rw [if_pos ht, if_pos ht]
    exact finish_trap rfl false
  · rw [if_neg ht, if_neg ht]
    cases link with
    | false => exact finish_jump h.quiet h.pendSt false _
    | true => exact finish_jump (h.settled.putGr _ _).toQuiet (h.settled.putGr _ _).pendSt false _

end

/-- Settles O3: the table is that of `condHolds`, and 0xF raises the exception. -/
theorem conditionTable : Obligations.ConditionTable := by
  unfold Obligations.ConditionTable
  constructor
  · rintro w n z c v rfl rfl rfl rfl
    exact ⟨rfl, rfl, rfl, rfl, rfl, rfl, rfl, rfl, rfl, rfl, rfl, rfl, rfl, rfl, rfl⟩
  · exact fun s e o8 o20 h => ⟨congrArg Host.Outcome.next (h.bcc 2 0xF _), congrArg Host.Outcome.next (h.bcc 4 0xF _)⟩

/-! ### Register-mask call and return (R61–R63) -/

section
variable {s s1 s2 : State} {i : Nat} {os : List Obs}

/-- `CALLM` stores its frame below `sp` and jumps with `sp` and the link set. -/
theorem callmBody_jump {ra : BitVec 5} {H : Bool} {mask : BitVec 16} (h1 : Ready s1 i) (hn : regsOk i [ra] = true)
    (hH : H = true → isEngine i = false) (hm : H = false → mask.toNat < 0x4000)
    (hsp : ((s.rset i).gr 14).toNat % 4 = 0) (ht : tb ((s.rset i).gr ra.toNat) 0 = false) {a : Word}
    (ha : a = (s.rset i).gr 14 - w32 (4 * ((maskRegs H mask.toNat).length + 2)))
    (hs : storeWords i a (w32 (b2n H * 65536 + mask.toNat) :: (s.rset i).gr 15 ::
      (maskRegs H mask.toNat).map (s.rset i).gr) os s = (none, s1)) :
    callmBody i ra H mask os s =
      .jump ((s.rset i).gr ra.toNat) (putGr i 15 ((s1.rset i).pc + 4) (putGr i 14 a s1)) := by
  subst ha
  have hbad : (!regsOk i [ra] || (H && isEngine i) || (!H && decide (0x4000 ≤ mask.toNat))) = false := by
    cases H with
    | true => simp [hn, hH rfl]
    | false => simp [hn, hm rfl]
  unfold callmBody
  rw [if_neg (ne_true_of_eq_false hbad), if_neg (not_not_intro hsp), if_neg (ne_true_of_eq_false ht)]
  simp only [hs, h1.instrAddr]

/-- `RETM` reads its frame from `sp` upwards, restores the listed registers and jumps to the old link. -/
theorem retmBody_jump {bs : List Byte} {ws : List Word} (hsp : ((s.rset i).gr 14).toNat % 4 = 0)
    (ht : tb ((s.rset i).gr 15) 0 = false) (hl : loadVa i 4 ((s.rset i).gr 14) (os.headD {}) s = (.ok bs, s1))
    {fw : Word} (hfw : w32 (ofBytes bs) = fw) (hres : fld fw 31 17 = 0) (hlow : tb fw 16 = false → fld fw 15 14 = 0)
    (hhigh : tb fw 16 = true → isEngine i = false) {regs : List Nat} (hregs : maskRegs (tb fw 16) (fld fw 15 0) = regs)
    (hw : loadWords i (regs.length + 1) ((s.rset i).gr 14 + 4) os.tail s1 = (.ok ws, s2)) :
    retmBody i os s = .jump ((s.rset i).gr 15) (putGr i 14 ((s.rset i).gr 14 + w32 (4 * (regs.length + 2)))
      (putGr i 15 (ws.headD 0) ((regs.zip ws.tail).foldl (fun s p => putGr i p.1 p.2 s) s2))) := by
  have hbad : (decide (fld fw 31 17 ≠ 0) || (!tb fw 16 && decide (fld fw 15 14 ≠ 0)) ||
      (tb fw 16 && isEngine i)) = false := by
    cases hH : tb fw 16 with
    | true => simp [hres, hhigh hH]
    | false => simp [hres, hlow hH]
  unfold retmBody
  rw [if_neg (not_not_intro hsp), if_neg (ne_true_of_eq_false ht)]
  simp only [hl, hfw, hregs]
  rw [if_neg (ne_true_of_eq_false hbad)]
  simp only [hw]

theorem Settled.putGrs (h : Settled s i) (ps : List (Nat × Word)) :
    Settled (ps.foldl (fun s p => Machine.putGr i p.1 p.2 s) s) i := by
  induction ps generalizing s with
  | nil => exact h
  | cons p ps ih => exact ih (h.putGr p.1 p.2)

end

/-- Settles O12: each body ends in its jump, and the frame of the instruction goes there. -/
theorem branchesAndCalls : Obligations.BranchesAndCalls := by
  unfold Obligations.BranchesAndCalls
  intro s s1 s2 e c rs o8 o20 o24 ra H mask os bs ws i r far t sp h
  refine ⟨congrArg Host.Outcome.next (h.bcc 2 c _), congrArg Host.Outcome.next (h.bcc 4 c _), ?b, ?bl,
    congrArg Host.Outcome.next (h.jumpReg 2 rs false), congrArg Host.Outcome.next (h.jumpReg 2 rs true), ?callm, ?retm⟩
  case b =>
    have hb := congrArg (Out.jump · s) (h.branchTarget (o24.signExtend 32))
    exact exec_jump (sh := {}) rfl h hb h.settled
  case bl =>
    have hb := congrArg₂ (fun a l => Out.jump a (putGr i 15 (l + 4) s)) (h.branchTarget (o24.signExtend 32)) h.instrAddr
    exact exec_jump (sh := {}) rfl h hb (h.settled.putGr _ _)
  case callm =>
    intro h1 hn hH hm hsp ht regs a hs
    exact exec_jump (sh := {}) rfl h (callmBody_jump h1 hn hH hm hsp ht rfl hs) ((h1.settled.putGr _ _).putGr _ _)
  case retm =>
    intro h2 hsp ht hl fw regs hres hlow hhigh hw
    exact exec_jump (sh := {}) rfl h (retmBody_jump hsp ht hl rfl hres hlow hhigh rfl hw)
      (((h2.settled.putGrs _).putGr _ _).putGr _ _)

/-! ### Special registers (R34–R36, R100) -/

/-- What the boundary after an instruction reads of its element is the same in `f` as in `e`. -/
structure SameFrame (e f : ElemState) : Prop where
  view : f.view = e.view
  cur : f.cur = e.cur
  status : (f.set e.cur).status = (e.set e.cur).status
  pendSt : (f.set e.cur).pendSt = (e.set e.cur).pendSt

theorem SameFrame.putSet {e : ElemState} {r : RegSet} (hs : r.status = (e.set e.cur).status)
    (hp : r.pendSt = (e.set e.cur).pendSt) : SameFrame e (e.putSet e.cur r) where
  view := putSet_view ..
  cur := putSet_cur ..
  status := by rw [set_putSet, hs]
  pendSt := by rw [set_putSet, hp]

section
variable {e : ElemState} {i n : Nat} {v : Word}

theorem sameFrame_sregPut (hn : n ≠ 0) : SameFrame e (sregPut i e.cur n v e) := by
  unfold sregPut
  extract_lets r w
  split
  case h_1 => exact absurd rfl hn
  case h_5 | h_6 | h_8 | h_14 => exact ⟨rfl, rfl, rfl, rfl⟩
  case h_7 | h_19 => split <;> exact ⟨rfl, rfl, rfl, rfl⟩
  all_goals exact .putSet rfl rfl

/-- A write of a special register other than `STATUS` shows at no boundary. -/
theorem sameFrame_mtsWrite (hn : n ≠ 0) : SameFrame e (mtsWrite i n v e) := by
  unfold mtsWrite
  extract_lets r w last
  rw [if_neg hn]
  split_ifs
  · exact ⟨rfl, rfl, rfl, rfl⟩
  · exact .putSet rfl rfl
  · exact ⟨rfl, rfl, rfl, rfl⟩
  · exact ⟨rfl, rfl, rfl, rfl⟩
  · exact ⟨rfl, rfl, rfl, rfl⟩
  · exact sameFrame_sregPut hn

end

theorem Settled.setSame {s : State} {i : Nat} (h : Settled s i) {f : ElemState} (hf : SameFrame (s.el i) f) :
    Settled (s.setEl i f) i :=
  h.setEl hf.view (by rw [hf.cur]; exact hf.status) (by rw [hf.cur]; exact hf.pendSt)

section
variable {s : State} {i n : Nat} {r5 : BitVec 5}

/-- Outside a window of R100 `MFS` reads the register itself. -/
theorem Ready.mfsValue (h : Ready s i) (n : Nat) : Machine.mfsValue i n s = sregGet (s.el i) (s.el i).cur n := by
  simp [Machine.mfsValue, ElemState.seen, h.view]

theorem mfsBody_lacks (h : sregHas i n = false) : mfsBody i r5 n s = .trap Trap.illegal s := if_pos (by simp [h])

theorem mtsBody_lacks (h : sregHas i n = false) : mtsBody i n r5 s = .trap Trap.illegal s := if_pos (by simp [h])

variable (hn : regsOk i [r5] = true) (hh : sregHas i n = true)
include hn hh

theorem mfsBody_done (ha : sregPriv n = true → stPriv (s.rset i) = true) :
    mfsBody i r5 n s = .done (putGr i r5.toNat (mfsValue i n s) s) := by
  simp only [mfsBody, hn, hh, Bool.not_true, Bool.or_self, Bool.false_eq_true, if_false]
  exact if_neg (by simpa using ha)

theorem mfsBody_priv (ha : ¬ (sregPriv n = true → stPriv (s.rset i) = true)) :
    mfsBody i r5 n s = .trap Trap.priv s := by
  simp only [mfsBody, hn, hh, Bool.not_true, Bool.or_self, Bool.false_eq_true, if_false]
  exact if_pos (by simpa using ha)

theorem mtsBody_done (ha : sregPriv n = true → stPriv (s.rset i) = true) :
    mtsBody i n r5 s = .done (s.setEl i (mtsWrite i n ((s.rset i).gr r5.toNat) (s.el i))) := by
  simp only [mtsBody, hn, hh, Bool.not_true, Bool.or_self, Bool.false_eq_true, if_false]
  exact if_neg (by simpa using ha)

theorem mtsBody_priv (ha : ¬ (sregPriv n = true → stPriv (s.rset i) = true)) :
    mtsBody i n r5 s = .trap Trap.priv s := by
  simp only [mtsBody, hn, hh, Bool.not_true, Bool.or_self, Bool.false_eq_true, if_false]
  exact if_pos (by simpa using ha)

end

/-! ### `STATUS` (R35, R36, R100) -/

section
variable {s : State} {i : Nat} {v : Word}

/-- The program without privilege writes the five flags alone. -/
theorem mtsWrite_flags (h : stPriv (s.rset i) = false) : s.setEl i (mtsWrite i 0 v (s.el i)) =
    s.setRset i { s.rset i with status := ((s.rset i).status &&& ~~~ 0x1F) ||| (v &&& 0x1F) } := by
  have h' : stPriv ((s.el i).set (s.el i).cur) = false := h
  simp only [mtsWrite, h', if_true, Bool.not_false]
  rfl

/-- The privileged program writes the flags and the repeat at once and the modes after their window. -/
theorem mtsWrite_status (h : stPriv (s.rset i) = true) : s.setEl i (mtsWrite i 0 v (s.el i)) =
    s.setRset i { s.rset i with
      status := withModes (fixStatus i v) (s.rset i).status,
      pendSt := (s.rset i).pendSt ++ [(fixStatus i v, 4)] } := by
  have h' : stPriv ((s.el i).set (s.el i).cur) = true := h
  simp only [mtsWrite, h', if_true, Bool.not_true, Bool.false_eq_true, if_false]
  rfl

theorem tb_and (w m : Word) (j : Nat) : tb (w &&& m) j = (tb w j && tb m j) := BitVec.getLsbD_and

theorem tb_or (w m : Word) (j : Nat) : tb (w ||| m) j = (tb w j || tb m j) := BitVec.getLsbD_or

/-- `REP_ACT` of a word is not among the modes and not fixed by the element. -/
theorem tb_withModes_rep (w old : Word) : tb (withModes (fixStatus i w) old) 13 = tb w 13 := by
  have hfix : tb (fixStatus i w) 13 = tb w 13 := by
    unfold fixStatus
    extract_lets x
    have hx : tb x 13 = tb w 13 := by
      rw [tb_and]
      exact Bool.and_true _
    split_ifs
    · rw [tb_setBit_ne _ (by decide), tb_setBit_ne _ (by decide), hx]
    · rw [tb_setBit_ne _ (by decide), hx]
    · exact hx
  have hkeep : tb (fixStatus i w &&& 0xFFFFF0FF) 13 = tb w 13 := by
    rw [tb_and, hfix]
    exact Bool.and_true _
  have hmode : tb (old &&& 0x00000F00) 13 = false := by
    rw [tb_and]
    exact Bool.and_false _
  rw [withModes, tb_or, hkeep, hmode, Bool.or_false]

theorem tb_flags_rep (w : Word) : tb ((w &&& ~~~ 0x1F) ||| (v &&& 0x1F)) 13 = tb w 13 := by
  rw [tb_or, tb_and, tb_and]
  simp

/-- An instruction that writes `STATUS` and leaves `REP_ACT` clear goes on past itself. -/
theorem finish_status {t : State} {sh : Shape} (q : Quiet t i) (hp : sh.prefix_ = false)
    (hr : repAct (t.rset i) = false) : finish i sh true (.done t) =
      t.setRset i ({ t.rset i with pc := (t.rset i).pc + w32 sh.size }).tickModes := by
  simp only [finish, hp, Bool.false_eq_true, if_false, if_true, advanceSr, advance, hr]
  exact boundary_quiet (q.setRset _) true

end

/-- Settles O13: the register is read or written where the element has it and the privilege allows, and a write of
`STATUS` moves its window on by the instruction itself. -/
theorem specialRegisters : Obligations.SpecialRegisters := by
  unfold Obligations.SpecialRegisters
  intro s e rd ra sreg n6 n8 rs i n r v allowed repeats h
  have status {t : State} (hn : regsOk i [ra] = true) (ht : Quiet t i) (hr : repAct (t.rset i) = false)
      (hw : s.setEl i (mtsWrite i 0 v (s.el i)) = t) :
      exec (.mts e 0 ra) s =
        .next (t.setRset i ({ t.rset i with pc := (t.rset i).pc + w32 4 }).tickModes) := by
    have hb : mtsBody i 0 ra s = .done t := hw ▸ mtsBody_done hn rfl (fun hp => absurd hp (by decide))
    exact congrArg Host.Outcome.next ((h.runInstr {} true _).trans (hb ▸ finish_status ht rfl hr))
  refine ⟨?mfs, ?mfsPriv, ?mts, ?mtsPriv, ?lacks, ?flags, ?modes, ?repU, ?repImm, ?repReg⟩
  case mfs =>
    intro hn hh ha
    have hb := mfsBody_done hn hh ha
    rw [h.mfsValue] at hb
    exact exec_done (sh := {}) rfl h hb (h.settled.putGr _ _)
  case mfsPriv => exact fun hn hh ha => exec_trap (sh := {}) rfl h (mfsBody_priv hn hh ha)
  case mts =>
    intro hn hh ha h0
    have hc : exec (.mts e sreg ra) s = .next (runInstr i {} false (mtsBody i n ra) s) := by
      rw [exec_mts, execMts, decide_eq_false h0]
    exact exec_done (sh := {}) hc h (mtsBody_done hn hh ha) (h.settled.setSame (sameFrame_mtsWrite h0))
  case mtsPriv => exact fun hn hh ha => exec_trap (sh := {}) rfl h (mtsBody_priv hn hh ha)
  case lacks =>
    exact fun hh => ⟨exec_trap (sh := {}) rfl h (mfsBody_lacks hh), exec_trap (sh := {}) rfl h (mtsBody_lacks hh)⟩
  case flags =>
    rintro hn hp rfl
    rw [status hn (h.quiet.setRset _) (by simpa [repAct, tb_flags_rep] using h.repAct) (mtsWrite_flags hp),
      tickModes_none (by simpa using h.pendSt)]
    rfl
  case modes =>
    rintro hn hp hv rfl
    have hr : repAct ((s.setRset i { r with
        status := withModes (fixStatus i v) r.status,
        pendSt := r.pendSt ++ [(fixStatus i v, 4)] }).rset i) = false := by
      rw [rset_setRset, repAct, tb_withModes_rep, hv]
    refine ⟨_, status hn (h.quiet.setRset _) hr (mtsWrite_status hp), ?_⟩
    have hw : (s.rset i).pendSt = [] := h.pendSt
    simp [RegSet.tickModes, hw, r]
  case repU => exact exec_prefix (sh := { size := 2, prefix_ := true }) rfl h rfl (h.quiet.setRset _)
  case repImm => exact exec_prefix (sh := { size := 2, prefix_ := true }) rfl h rfl (h.quiet.setRset _)
  case repReg => exact exec_prefix (sh := { size := 2, prefix_ := true }) rfl h rfl (h.quiet.setRset _)

end Sys2Proof.Machine
end

section
/-! The loop extensions (R70–R78): the words of the statement are the model's, the square roots are exact, and what each
instruction gives on an engine; then the statement about them. -/

namespace Sys2Proof.Machine

/-! ### Halves, fields and clamps (R70) -/

theorem sext_eq_toInt (x : Nat) : sext x 16 = (BitVec.ofNat 16 x).toInt := by
  rw [BitVec.toInt_eq_toNat_cond, BitVec.toNat_ofNat]
  simp only [sext]
  split_ifs <;> omega

theorem pLo_eq (w : Word) : pLo w = (w.extractLsb' 0 16).toInt := sext_eq_toInt w.toNat

theorem pHi_eq (w : Word) : pHi w = (w.extractLsb' 16 16).toInt := by
  rw [pHi, sext_eq_toInt, BitVec.extractLsb', Nat.shiftRight_eq_div_pow]

theorem pLo_bounds (w : Word) : -32768 ≤ pLo w ∧ pLo w ≤ 32767 := by
  simp only [pLo, sext]
  split_ifs <;> omega

theorem pHi_bounds (w : Word) : -32768 ≤ pHi w ∧ pHi w ≤ 32767 := by
  simp only [pHi, sext]
  split_ifs <;> omega

theorem fld_upper (w : Word) : fld w 31 16 = w.toNat / 65536 := by
  have h := w.isLt
  rw [fld, Nat.shiftRight_eq_div_pow]
  omega

theorem pair_eq (x y : Int) : pair x y = BitVec.ofInt 16 y ++ BitVec.ofInt 16 x := by
  apply BitVec.eq_of_toNat_eq
  rw [BitVec.toNat_append, ← Nat.shiftLeft_add_eq_or_of_lt (BitVec.ofInt 16 x).isLt, BitVec.toNat_ofInt,
    BitVec.toNat_ofInt, Nat.shiftLeft_eq, pair, w32, BitVec.toNat_ofNat, wrap, wrap]
  omega

theorem clampI_eq (x : Int) {lo hi : Int} (h : lo ≤ hi) : clampI x lo hi = max lo (min hi x) := by
  unfold clampI
  split_ifs <;> omega

theorem sat16_eq (x : Int) : sat16 x = max (-32768) (min 32767 x) := clampI_eq x (by decide)

/-- Field `[31:16]` or `[15:0]` is a half of a pair. -/
theorem wrap_pHi (w : Word) : wrap (pHi w) 16 = w.toNat / 65536 := by
  have h := w.isLt
  simp only [wrap, pHi, sext]
  split_ifs <;> omega

theorem wrap_pLo (w : Word) : wrap (pLo w) 16 = w.toNat % 65536 := by
  simp only [wrap, pLo, sext]
  split_ifs <;> omega

theorem wrap_lt (v : Int) : wrap v 16 < 65536 := by
  rw [wrap]
  omega

/-- The mask of the upper half. -/
theorem and_upper {x : Nat} (h : x < 2 ^ 32) : x &&& 0xFFFF0000 = (x / 65536) <<< 16 := by
  have hm : (0xFFFF0000 : Nat) = (2 ^ 16 - 1) <<< 16 := by decide
  have hs : x / 65536 = x >>> 16 := (Nat.shiftRight_eq_div_pow x 16).symm
  rw [hm, hs]
  apply Nat.eq_of_testBit_eq
  intro j
  rw [Nat.testBit_and, Nat.testBit_shiftLeft, Nat.testBit_shiftLeft, Nat.testBit_two_pow_sub_one,
    Nat.testBit_shiftRight]
  by_cases hj : 16 ≤ j
  · rw [Nat.add_sub_cancel' hj]
    by_cases hk : j - 16 < 16
    · simp [hj, hk]
    · have hx : x.testBit j = false := Nat.testBit_lt_two_pow (h.trans_le (Nat.pow_le_pow_right (by decide) (by omega)))
      simp [hx]
  · simp [hj]

theorem setFld_lower (w : Word) (v : Nat) : setFld w 15 0 v = w32 (w.toNat / 65536 * 65536 + v % 65536) := by
  have hv : v % 2 ^ 16 < 2 ^ 16 := Nat.mod_lt _ (by decide)
  change w32 (w.toNat &&& 0xFFFF0000 ||| v % 2 ^ 16) = _
  rw [and_upper w.isLt, ← Nat.shiftLeft_add_eq_or_of_lt hv, Nat.shiftLeft_eq]
  rfl

theorem setFld_upper (w : Word) (v : Nat) : setFld w 31 16 v = w32 (v % 65536 * 65536 + w.toNat % 65536) := by
  have hw : w.toNat % 2 ^ 16 < 2 ^ 16 := Nat.mod_lt _ (by decide)
  change w32 (w.toNat &&& (2 ^ 16 - 1) ||| (v % 2 ^ 16) <<< 16) = _
  rw [Nat.and_two_pow_sub_one_eq_mod, Nat.or_comm, ← Nat.shiftLeft_add_eq_or_of_lt hw, Nat.shiftLeft_eq]
  rfl

/-- A register with one half replaced. -/
theorem putHalf_lo (w : Word) (v : Int) : putHalf w false v = pair v (pHi w) := by
  rw [putHalf, if_neg Bool.false_ne_true, setFld_lower, pair, wrap_pHi, Nat.mod_eq_of_lt (wrap_lt v)]

theorem putHalf_hi (w : Word) (v : Int) : putHalf w true v = pair (pLo w) v := by
  rw [putHalf, if_pos rfl, setFld_upper, pair, wrap_pLo, Nat.mod_eq_of_lt (wrap_lt v)]

/-! ### Square roots (R77) -/

/-- Trying bits from bit `n - 1` down keeps the root between `r` and `r + 2^n`. -/
theorem isqrtFrom_bounds (x n r : Nat) (hlo : r * r ≤ x) (hhi : x < (r + 2 ^ n) * (r + 2 ^ n)) :
    isqrtFrom x n r * isqrtFrom x n r ≤ x ∧ x < (isqrtFrom x n r + 1) * (isqrtFrom x n r + 1) := by
  induction n generalizing r with
  | zero => exact ⟨hlo, hhi⟩
  | succ n ih =>
    unfold isqrtFrom
    split
    next h => exact ih _ h (by rw [Nat.pow_succ] at hhi; rwa [Nat.add_assoc, ← Nat.mul_two])
    next h => exact ih _ hlo (Nat.lt_of_not_le h)

theorem isqrt_bounds {x : Nat} (h : x < 2 ^ 36) : isqrt x * isqrt x ≤ x ∧ x < (isqrt x + 1) * (isqrt x + 1) :=
  isqrtFrom_bounds x 18 0 (Nat.zero_le x) (h.trans_eq (by decide))

theorem isqrt_unique {x k : Nat} (h : x < 2 ^ 36) (hlo : k * k ≤ x) (hhi : x < (k + 1) * (k + 1)) : isqrt x = k :=
  (Nat.eq_sqrt.mpr (isqrt_bounds h)).trans (Nat.eq_sqrt.mpr ⟨hlo, hhi⟩).symm

/-- `csqrt` is the least root from above. -/
theorem csqrt_unique {x k : Nat} (h : x < 2 ^ 36) (hhi : x ≤ k * k) (hlo : ∀ j < k, j * j < x) : csqrt x = k := by
  obtain ⟨hr, hr1⟩ := isqrt_bounds h
  unfold csqrt
  extract_lets r
  split
  next he =>
    refine Nat.le_antisymm ?_ ?_
    · exact Nat.mul_self_le_mul_self_iff.mp (he.trans_le hhi)
    · exact Nat.le_of_not_lt fun hk => (hlo r hk).ne he
  next he =>
    refine Nat.le_antisymm ?_ ?_
    · exact Nat.mul_self_lt_mul_self_iff.mp ((lt_of_le_of_ne hr he).trans_le hhi)
    · exact Nat.le_of_not_lt fun hk => (hlo (r + 1) hk).not_gt hr1

/-! ### Sine and cosine (R74) -/

/-- A quarter turn on, the cosine is the negated sine and the sine the cosine. -/
theorem sinCos_quarter (t : Nat) :
    sinCos ((t + 16384) % 65536) = (-(sinCos (t % 65536)).2, (sinCos (t % 65536)).1) := by
  have hq : (t + 16384) % 65536 % 16384 = t % 65536 % 16384 := by omega
  have hk : (t + 16384) % 65536 / 16384 % 4 = (t % 65536 / 16384 % 4 + 1) % 4 := by omega
  have hlt : t % 65536 / 16384 % 4 < 4 := by omega
  unfold sinCos
  rw [hq, hk]
  generalize t % 65536 / 16384 % 4 = k at hlt
  generalize quadrant (t % 65536 % 16384) = p
  interval_cases k <;> simp

theorem sinCos_zero : sinCos 0 = (32767, 0) := by decide +kernel

/-! ### The instructions on values (R73–R78) -/

theorem AluRes.of_q {v : Word} {p q : Bool} (h : p = q) : ({ val := v, q := p } : AluRes) = { val := v, q := q } := by
  rw [h]

/-- Two clamped results: `Q` shows whether either was clamped. -/
theorem clamped_eq (x y : Int) : ({ val := pair (sat16 x) (sat16 y), q := sat16Q x || sat16Q y } : AluRes) =
    { val := pair (sat16 x) (sat16 y), q := decide (sat16 x ≠ x ∨ sat16 y ≠ y) } := AluRes.of_q (Bool.decide_or ..).symm

/-- The pair of its own halves. -/
theorem pair_self (w : Word) : pair (pLo w) (pHi w) = w := by
  have h := w.isLt
  apply BitVec.eq_of_toNat_eq
  rw [pair, wrap_pLo, wrap_pHi, w32, BitVec.toNat_ofNat]
  omega

/-- The squared length of a vector of halves. -/
theorem lengthSq_lt (w : Word) : 0 ≤ pLo w * pLo w + pHi w * pHi w ∧ pLo w * pLo w + pHi w * pHi w < 2 ^ 36 := by
  obtain ⟨hx0, hx1⟩ := pLo_bounds w
  obtain ⟨hy0, hy1⟩ := pHi_bounds w
  constructor <;> nlinarith

section
variable {a b : Word} {k : Nat}

theorem limvOf_short (h : pLo a * pLo a + pHi a * pHi a ≤ (fld b 15 0 : Int) * fld b 15 0) :
    limvOf a b = { val := a } := by
  have hm := Int.toNat_of_nonneg (lengthSq_lt a).1
  exact if_neg (by omega)

/-- A vector that is too long is scaled by the least root from above. -/
theorem limvOf_long (h : (fld b 15 0 : Int) * fld b 15 0 < pLo a * pLo a + pHi a * pHi a)
    (hhi : pLo a * pLo a + pHi a * pHi a ≤ k * k) (hlo : ∀ j < k, (j : Int) * j < pLo a * pLo a + pHi a * pHi a) :
    limvOf a b = { val := pair ((pLo a * fld b 15 0).tdiv k) ((pHi a * fld b 15 0).tdiv k),
                   q := decide ((pLo a * fld b 15 0).tdiv k ≠ pLo a ∨ (pHi a * fld b 15 0).tdiv k ≠ pHi a) } := by
  obtain ⟨h0, h36⟩ := lengthSq_lt a
  have hm := Int.toNat_of_nonneg h0
  have hk : csqrt (pLo a * pLo a + pHi a * pHi a).toNat = k :=
    csqrt_unique (by omega) (by omega) fun j hj => by
      have := hlo j hj
      omega
  simp only [limvOf, hm, hk]
  rw [if_pos h, Bool.decide_or]

/-- The second coordinate is clamped to the root of what the first leaves. -/
theorem limvDOf_eq {L x1 : Int} (hL : L = fld b 15 0) (hx : x1 = max (-L) (min L (pLo a)))
    (hlo : (k : Int) * k ≤ L * L - x1 * x1) (hhi : L * L - x1 * x1 < (k + 1) * (k + 1)) : limvDOf a b =
      { val := pair x1 (max (-k) (min k (pHi a))),
        q := decide (x1 ≠ pLo a ∨ max (-(k : Int)) (min k (pHi a)) ≠ pHi a) } := by
  have hx1 : clampI (pLo a) (-L) L = x1 := (clampI_eq _ (by omega)).trans hx.symm
  have h0 : 0 ≤ L * L - x1 * x1 := (mul_self_nonneg _).trans hlo
  have hle : L * L - x1 * x1 < 2 ^ 36 := by
    have hb : fld b 15 0 < 65536 := Nat.mod_lt _ (by decide)
    nlinarith
  have hk : isqrt (L * L - x1 * x1).toNat = k := 
    isqrt_unique (by omega) (by omega) ((Int.toNat_lt h0).mpr (by exact_mod_cast hhi))
  simp only [limvDOf, ← hL, hx1, hk]
  rw [clampI_eq _ (by omega), Bool.decide_or]

end

/-- A `PI` step: the output, the accumulator and `Q` (R75). -/
theorem piStep_eq (ref meas : Int) (kp ki : Nat) (acc : DWord) {e i u : Int} (he : e = sat16 (ref - meas))
    (hi : i = max (-2 ^ 31) (min (2 ^ 31 - 1) (acc.toInt + e * ki * 16))) (hu : u = e * kp * 16 + i) :
    piStep ref meas kp ki acc =
      (if 2 ^ 31 - 1 < u then 32767 else if u < -2 ^ 31 then -32768 else sat16 (rndI u 16),
       if (2 ^ 31 - 1 < u ∧ 0 < e) ∨ (u < -2 ^ 31 ∧ e < 0) then acc else BitVec.ofInt 64 i,
       decide (e ≠ ref - meas ∨ 2 ^ 31 - 1 < u ∨ u < -2 ^ 31 ∨ sat16 (rndI u 16) ≠ rndI u 16)) := by
  have hi' : clampI (acc.toInt + e * ki * 16) (-2147483648) 2147483647 = i := (clampI_eq _ (by decide)).trans hi.symm
  unfold piStep
  have hq : decide (e ≠ ref - meas) = sat16Q (ref - meas) := by rw [he, sat16Q]
  simp only [← he, hi', ← hu, Bool.decide_or, hq]
  by_cases h1 : 2147483647 < u
  · have h2 : ¬ u < -2147483648 := by omega
    by_cases hp : 0 < e <;> simp [h1, h2, Int.sign_eq_one_iff_pos, hp]
  by_cases h2 : u < -2147483648
  · by_cases hn : e < 0 <;> simp [h1, h2, Int.sign_eq_neg_one_iff_neg, hn]
  · simp [h1, h2, sat16Q, Bool.or_comm]

/-- The edges of one phase (R78). -/
theorem svmPhase_eq (pf vb : Nat) (v o : Int) {p b t tc on off : Int} (hp : (pf : Int) = p) (hb : (vb : Int) = b)
    (ht : t = p / 2 + 2 * p * (v + o) / b) (htc : tc = max 0 (min p t)) (hon : on = (p - tc) / 2)
    (hoff : off = on + tc) : svmPhase pf vb v o =
      (pair (min 65535 on) (min 65535 off), decide (tc ≠ t ∨ 65535 < on ∨ 65535 < off)) := by
  have htc' : clampI t 0 p = tc := (clampI_eq _ (by omega)).trans htc.symm
  have ht' : ((pf / 2 : Nat) : Int) + 2 * p * (v + o) / b = t := by rw [ht, Int.natCast_div, hp]; rfl
  have hpair {x y : Int} (hx0 : 0 ≤ x) (hx : x ≤ 65535) (hy0 : 0 ≤ y) (hy : y ≤ 65535) :
      w32 (y.toNat * 65536 + x.toNat) = pair x y := by
    rw [pair, wrap, wrap, Int.emod_eq_of_lt hx0 (by omega), Int.emod_eq_of_lt hy0 (by omega)]
  simp only [svmPhase, hp, hb, ht', htc', ← hon, ← hoff]
  rw [min_comm off, min_comm on, hpair (by omega) (by omega) (by omega) (by omega), Bool.decide_or, Bool.decide_or,
    ← Bool.or_assoc]

/-- The registers of `SVM` are the edges of the three phases about one offset (R78). -/
theorem svmOf_eq {a b : Word} {v2 v3 o : Int} {edges : Int → Word} {q : Int → Bool}
    (h2 : rndI (-(pLo a) * 16384 + pHi a * 0x6EDA) 15 = v2) (h3 : rndI (-(pLo a) * 16384 - pHi a * 0x6EDA) 15 = v3)
    (ho : -((max (pLo a) (max v2 v3) + min (pLo a) (min v2 v3)) / 2) = o)
    (hp : ∀ v, svmPhase (32 * fld b 31 16) (max (fld b 15 0) 0x400) v o = (edges v, q v)) :
    svmOf a b = (edges (pLo a), edges v2, edges v3, q (pLo a) || q v2 || q v3) := by
  simp only [svmOf, h2, h3, ho, hp]

/-! ### The instructions -/

section
variable {c : Instr} {s : State} {e : Elem} {i : Nat} {rd ra rb : BitVec 5} {f : Word → Word → AluRes} {x : AluRes}

theorem computes_ext (hc : exec c s = .next (extInstr f e rd ra rb s)) (he : isEngine (elemIdx e) = true)
    (hx : f ((s.rset (elemIdx e)).gr ra.toNat) ((s.rset (elemIdx e)).gr rb.toNat) = x) :
    Computes c s (elemIdx e) [rd, ra, rb] (some rd.toNat) false 4 x := by
  refine computes_regInstr (f := fun r => f (r.gr ra.toNat) (r.gr rb.toNat))
    (hc.trans (congrArg Host.Outcome.next ?_)) hx
  unfold extInstr
  rw [he]
  rfl

/-- The extensions are absent on the cores (R72). -/
theorem extInstr_core (he : isEngine (elemIdx e) = false) (h : Ready s (elemIdx e)) :
    extInstr f e rd ra rb s = s.trapped (elemIdx e) Trap.illegal := by
  unfold extInstr
  rw [h.runInstr, he]
  exact finish_trap rfl false

theorem extOk_core (he : isEngine i = false) (ns : List (BitVec 5)) : extOk i ns = false := by simp [extOk, he]

theorem extOk_engine (he : isEngine i = true) (ns : List (BitVec 5)) : extOk i ns = regsOk i ns := by simp [extOk, he]

section
variable (h : extOk i [rd, ra, rb] = false)
include h

theorem piBody_illegal (hi : Bool) : piBody i hi rd ra rb s = .trap Trap.illegal s := if_pos (by simp [h])

theorem svmBody_illegal : svmBody i rd ra rb s = .trap Trap.illegal s := if_pos (by simp [h])

end

theorem svmBody_high (h : 14 ≤ rd.toNat) : svmBody i rd ra rb s = .trap Trap.illegal s := if_pos (by simp [h])

theorem vmacBody_core {n : Nat} {S : Bool} {stop : VmacStop} (he : isEngine i = false)
    (hp : (s.rset i).progArm = false) : vmacBody i n ra rb S stop s = .trap Trap.illegal s := by
  simp [vmacBody, hp, extOk_core he]

variable (h : extOk i [rd, ra, rb] = true)
include h

section
variable {r : RegSet} {out : Int} {acc : DWord} {q : Bool} (hr : s.rset i = r)
include hr

/-- `PI.D` regulates the first values with `ACC0`. -/
theorem piBody_d (hp : piStep (pLo (r.gr rd.toNat)) (pLo (r.gr ra.toNat)) (fld (r.gr rb.toNat) 15 0)
      (fld (r.gr rb.toNat) 31 16) r.acc0 = (out, acc, q)) : piBody i false rd ra rb s = .done (s.setRset i
        { r.setGr rd.toNat (pair out (pHi (r.gr rd.toNat))) with acc0 := acc, status := setQ r.status q }) := by
  simp only [piBody, h, hr, Bool.not_true, Bool.false_eq_true, if_false, hp, putHalf_lo]

/-- `PI.Q` regulates the second values with `ACC1`. -/
theorem piBody_q (hp : piStep (pHi (r.gr rd.toNat)) (pHi (r.gr ra.toNat)) (fld (r.gr rb.toNat) 15 0)
      (fld (r.gr rb.toNat) 31 16) r.acc1 = (out, acc, q)) : piBody i true rd ra rb s = .done (s.setRset i
        { r.setGr rd.toNat (pair (pLo (r.gr rd.toNat)) out) with acc1 := acc, status := setQ r.status q }) := by
  simp only [piBody, h, hr, Bool.not_true, Bool.false_eq_true, if_false, if_true, hp, putHalf_hi]

theorem svmBody_done (hrd : rd.toNat < 14) {x y z : Word}
    (hs : svmOf (r.gr ra.toNat) (r.gr rb.toNat) = (x, y, z, q)) : svmBody i rd ra rb s = .done (s.setRset i
      { ((r.setGr rd.toNat x).setGr (rd.toNat + 1) y).setGr (rd.toNat + 2) z with status := setQ r.status q }) := by
  have hlow : ¬ (!extOk i [rd, ra, rb] || decide (14 ≤ rd.toNat)) = true := by simp [h, hrd]
  unfold svmBody
  rw [if_neg hlow]
  simp only [hr, hs]

end

end

theorem pendSt_setAcc0 (r : RegSet) (n : Nat) (v : Word) (acc : DWord) (w : Word) :
    ({ r.setGr n v with acc0 := acc, status := w } : RegSet).pendSt = r.pendSt := rfl

theorem pendSt_setAcc1 (r : RegSet) (n : Nat) (v : Word) (acc : DWord) (w : Word) :
    ({ r.setGr n v with acc1 := acc, status := w } : RegSet).pendSt = r.pendSt := rfl

section
variable {s : State} {e : Elem} {rd ra rb : BitVec 5} {r : RegSet} {out : Int} {acc : DWord} {x y z : Word} {q : Bool}
  (h : Ready s (elemIdx e)) (hr : s.rset (elemIdx e) = r) (hx : extOk (elemIdx e) [rd, ra, rb] = true)
include h hr

theorem Ready.setQ_rep (q : Bool) : tb (setQ r.status q) 13 = false :=
  (tb_setQ_ne _ q (by decide)).trans (hr ▸ h.repAct)

include hx

theorem exec_piD_done (hp : piStep (pLo (r.gr rd.toNat)) (pLo (r.gr ra.toNat)) (fld (r.gr rb.toNat) 15 0)
      (fld (r.gr rb.toNat) 31 16) r.acc0 = (out, acc, q)) : exec (.piD e rd ra rb) s = .next ((s.setRset (elemIdx e)
        { r.setGr rd.toNat (pair out (pHi (r.gr rd.toNat))) with
          acc0 := acc, status := setQ r.status q }).passed (elemIdx e) 4) :=
  exec_done (sh := {}) rfl h (piBody_d hx hr hp) (h.settled.setRset (h.setQ_rep hr q)
    ((pendSt_setAcc0 _ _ _ acc _).trans (hr ▸ h.pendSt)))

theorem exec_piQ_done (hp : piStep (pHi (r.gr rd.toNat)) (pHi (r.gr ra.toNat)) (fld (r.gr rb.toNat) 15 0)
      (fld (r.gr rb.toNat) 31 16) r.acc1 = (out, acc, q)) : exec (.piQ e rd ra rb) s = .next ((s.setRset (elemIdx e)
        { r.setGr rd.toNat (pair (pLo (r.gr rd.toNat)) out) with
          acc1 := acc, status := setQ r.status q }).passed (elemIdx e) 4) :=
  exec_done (sh := {}) rfl h (piBody_q hx hr hp) (h.settled.setRset (h.setQ_rep hr q)
    ((pendSt_setAcc1 _ _ _ acc _).trans (hr ▸ h.pendSt)))

theorem exec_svm_done (hrd : rd.toNat < 14) (hs : svmOf (r.gr ra.toNat) (r.gr rb.toNat) = (x, y, z, q)) :
    exec (.svm e rd ra rb) s = .next ((s.setRset (elemIdx e)
      { ((r.setGr rd.toNat x).setGr (rd.toNat + 1) y).setGr (rd.toNat + 2) z with
        status := setQ r.status q }).passed (elemIdx e) 4) :=
  exec_done (sh := {}) rfl h (svmBody_done hx hr hrd hs) (h.settled.setRset (h.setQ_rep hr q) (hr ▸ h.pendSt))

end

/-- Settles O17: the words of the statement are the model's, and each instruction gives its value. -/
theorem loopExtensions : Obligations.LoopExtensions := by
  unfold Obligations.LoopExtensions
  refine ⟨sinCos_quarter, sinCos_zero, ?_⟩
  intro s e rd ra rb n S stop i r a b d lo hi ulo uhi rnd sat two
  have hlo : lo = pLo := funext fun w => (pLo_eq w).symm
  have hhi : hi = pHi := funext fun w => (pHi_eq w).symm
  have hulo : ulo = fun w => fld w 15 0 := rfl
  have huhi : uhi = fun w => fld w 31 16 := funext fun w => (fld_upper w).symm
  have hsat : sat = sat16 := funext fun x => (sat16_eq x).symm
  have htwo : two = pair := funext fun x => funext fun y => (pair_eq x y).symm
  clear_value lo hi ulo uhi sat two
  subst hlo hhi hulo huhi hsat htwo
  intro is clamped beta cs sn L x1 piE piI piU piOut piQ piAcc vb pf v1 v2 v3 off0 t tc on off edges svmQ
  refine ⟨fun he h c hc => ?core, fun he => ⟨?clarke, ?sincos, ?park, ?ipark, ?short, ?long, ?limvD, ?ready, ?fields⟩⟩
  case core =>
    have hx := extOk_core he [rd, ra, rb]
    simp only [List.mem_cons, List.not_mem_nil, or_false] at hc
    obtain rfl | rfl | rfl | rfl | rfl | rfl | rfl | rfl | rfl | rfl := hc
    · exact congrArg Host.Outcome.next (extInstr_core he h)
    · exact congrArg Host.Outcome.next (extInstr_core he h)
    · exact congrArg Host.Outcome.next (extInstr_core he h)
    · exact congrArg Host.Outcome.next (extInstr_core he h)
    · exact exec_trap (sh := {}) rfl h (svmBody_illegal hx)
    · exact congrArg Host.Outcome.next (extInstr_core he h)
    · exact congrArg Host.Outcome.next (extInstr_core he h)
    · exact exec_trap (sh := {}) rfl h (piBody_illegal hx false)
    · exact exec_trap (sh := {}) rfl h (piBody_illegal hx true)
    · exact exec_trap (sh := { vmac := true }) rfl h (vmacBody_core he h.progArm)
  case clarke => exact computes_ext rfl he rfl
  case sincos => exact computes_ext rfl he rfl
  case park => exact computes_ext rfl he (clamped_eq _ _)
  case ipark => exact computes_ext rfl he (clamped_eq _ _)
  case short =>
    exact fun hm => computes_ext rfl he ((limvOf_short hm).trans (AluRes.of_val (pair_self a).symm))
  case long => exact fun k hm hk hj => computes_ext rfl he (limvOf_long hm hk hj)
  case limvD => exact fun k hk hk1 => computes_ext rfl he (limvDOf_eq rfl rfl hk hk1)
  case ready =>
    intro h hn
    have hx : extOk i [rd, ra, rb] = true := (extOk_engine he _).trans hn
    refine ⟨?d, ?q, fun hrd => ?svm, fun hrd => exec_trap (sh := {}) rfl h (svmBody_high hrd)⟩
    case d =>
      exact exec_piD_done h rfl hx (piStep_eq (pLo d) (pLo a) (fld b 15 0) (fld b 31 16) r.acc0 rfl rfl rfl)
    case q =>
      exact exec_piQ_done h rfl hx (piStep_eq (pHi d) (pHi a) (fld b 15 0) (fld b 31 16) r.acc1 rfl rfl rfl)
    case svm =>
      have phase (v : Int) : svmPhase (32 * fld b 31 16) (max (fld b 15 0) 0x400) v off0 = (edges v, svmQ v) :=
        svmPhase_eq _ _ v off0 (Nat.cast_mul 32 _) (Nat.cast_max ..) rfl rfl rfl rfl
      have hs : svmOf a b = (edges v1, edges v2, edges v3, svmQ v1 || svmQ v2 || svmQ v3) := svmOf_eq rfl rfl rfl phase
      exact exec_svm_done h rfl hx hrd hs
  case fields =>
    intro h hn c hc
    have hx : extOk i [rd, ra, rb] = false := (extOk_engine he _).trans hn
    simp only [List.mem_cons, List.not_mem_nil, or_false] at hc
    obtain rfl | rfl | rfl := hc
    · exact exec_trap (sh := {}) rfl h (piBody_illegal hx false)
    · exact exec_trap (sh := {}) rfl h (piBody_illegal hx true)
    · exact exec_trap (sh := {}) rfl h (svmBody_illegal hx)

end Sys2Proof.Machine
end

section
/-! What reset leaves (R35, R102, R410, R418, R419, R428), read off the state of reset. -/

namespace Sys2Proof.Machine

/-- Settles O55, each part by evaluation at reset. -/
theorem resetState : Obligations.ResetState := by
  unfold Obligations.ResetState
  refine ⟨⟨rfl, rfl⟩, rfl, rfl, rfl, ?mode, rfl, ?status, ?idle, rfl, ?cores, ?bridges, ?timers, ?watchdogs, ?cause⟩
  case mode => decide
  case status => decide
  case idle => decide
  case cores => decide
  case bridges => decide +kernel
  case timers => decide +kernel
  case watchdogs => decide +kernel
  case cause => decide

end Sys2Proof.Machine
end

section
/-! `MTS` and `SYNC` (R100, R101): what a write of a slow register leaves as it was, what `SYNC` makes of the writes
that wait, and what the choice made for an instruction changes; then the statement about them. -/

namespace Sys2Proof.Machine

/-! ### Writes of slow registers (R100) -/

section
variable {e : ElemState} {i k n : Nat} {v : Word}

theorem sregGet_mtsWrite_slow (h : sregSlow n = true) (j m : Nat) :
    sregGet (mtsWrite i n v e) j m = sregGet e j m := by
  have h0 : n ≠ 0 := by rintro rfl; exact absurd h (by decide)
  have h6 : n ≠ 6 := by rintro rfl; exact absurd h (by decide)
  rw [mtsWrite, if_neg h0, if_neg h6, if_pos h]
  rfl

theorem mtsWrite_fast (h : sregSlow n = false) (hn : n ∉ [0, 6, 0x0D, 0x0F]) :
    mtsWrite i n v e = sregPut i e.cur n v e := by
  simp only [List.mem_cons, List.not_mem_nil, or_false, not_or] at hn
  obtain ⟨h0, h6, hD, hF⟩ := hn
  simp [mtsWrite, h, h0, h6, hD, hF]

/-- The time of an event and the register without a meaning are read only. -/
theorem mtsWrite_readOnly (hn : n = 0x0D ∨ n = 0x0F) : mtsWrite i n v e = e := by
  obtain rfl | rfl := hn <;> rfl

/-- `f` is `e` with other values in the slow registers, and perhaps without its reservation. -/
structure SlowWritten (e f : ElemState) : Prop where
  set : f.set = e.set
  cur : f.cur = e.cur
  world : f.world = e.world
  view : f.view = e.view
  pendSr : f.pendSr = e.pendSr

theorem slowWritten_sregPut (h : sregSlow n = true) : SlowWritten e (sregPut i k n v e) := by
  unfold sregPut
  extract_lets r w
  split
  case h_5 | h_8 => exact ⟨rfl, rfl, rfl, rfl, rfl⟩
  case h_19 => split <;> exact ⟨rfl, rfl, rfl, rfl, rfl⟩
  all_goals exact absurd h (by decide)

theorem slowWritten_foldl {l : List (Nat × Word)} (h : ∀ p ∈ l, sregSlow p.1 = true) :
    SlowWritten e (l.foldl (fun e p => sregPut i e.cur p.1 p.2 e) e) := by
  refine List.foldlRecOn (motive := SlowWritten e) l _ ⟨rfl, rfl, rfl, rfl, rfl⟩ (fun f hf p hp => ?_)
  have hs := slowWritten_sregPut (e := f) (i := i) (k := f.cur) (v := p.2) (h p hp)
  exact ⟨hs.set.trans hf.set, hs.cur.trans hf.cur, hs.world.trans hf.world, hs.view.trans hf.view,
    hs.pendSr.trans hf.pendSr⟩

/-- A slow register is none of a register set. -/
theorem sregGet_slow_congr (e f : ElemState) (h : sregSlow n = true) (hv : f.vector = e.vector) (ht : f.ttb = e.ttb)
    (hx : f.xblk = e.xblk) (j m : Nat) : sregGet f j n = sregGet e m n := by
  unfold sregGet
  extract_lets q r
  split
  case h_5 => exact hv
  case h_8 => exact ht
  case h_21 => rw [hx]
  all_goals exact absurd h (by decide)

theorem sregGet_putSet_slow (h : sregSlow n = true) (r : RegSet) (j : Nat) :
    sregGet (e.putSet k r) j n = sregGet e j n := by
  match k with
  | 0 | 1 | _ + 2 => refine sregGet_slow_congr _ _ h ?_ ?_ ?_ j j <;> rfl

theorem sregPut_xblk (hn : 0x20 ≤ n ∧ n ≤ 0x3F) :
    (sregPut i k n v e).xblk = Tbl.set (fun _ => 0) e.xblk (n - 0x20) (v &&& sregMask i n) := by
  unfold sregPut
  split
  case h_19 => rw [if_pos hn]
  all_goals exact absurd hn (by decide)

theorem sregGet_xblk (hn : 0x20 ≤ n ∧ n ≤ 0x3F) (j : Nat) :
    sregGet e j n = Tbl.get (fun _ => 0) e.xblk (n - 0x20) := by
  unfold sregGet
  split
  case h_21 => exact if_pos hn
  all_goals exact absurd hn (by decide)

theorem sregGet_sregPut_slow (h : n = 4 ∨ n = 7 ∨ 0x20 ≤ n ∧ n ≤ 0x3F) (j : Nat) :
    sregGet (sregPut i k n v e) j n = v &&& sregMask i n := by
  obtain rfl | rfl | hx := h
  · rfl
  · rfl
  · rw [sregGet_xblk hx, sregPut_xblk hx, Tbl.get_set_self]

end

/-! ### `SYNC` (R101) -/

section
variable {e : ElemState} {i : Nat} (h : ∀ p ∈ e.pendSr, sregSlow p.1 = true)

@[simp] theorem putSet_pendSr (e : ElemState) (k : Nat) (r : RegSet) : (e.putSet k r).pendSr = e.pendSr := by
  match k with
  | 0 | 1 | _ + 2 => rfl

@[simp] theorem putSet_world (e : ElemState) (k : Nat) (r : RegSet) : (e.putSet k r).world = e.world := by
  match k with
  | 0 | 1 | _ + 2 => rfl

/-- The element with every waiting write of a slow register done. -/
def ElemState.slowDone (i : Nat) (e : ElemState) : ElemState :=
  e.pendSr.foldl (fun e p => sregPut i e.cur p.1 p.2 e) { e with pendSr := [], view := [] }

/-- Moreover the last value written to `WORLD` is its value. -/
def ElemState.synced (i : Nat) (e : ElemState) : ElemState :=
  { e.slowDone i with world := (e.set e.cur).pendWorld.getLastD e.world }

/-- The one register that waits has the value written to it. -/
theorem sregGet_synced {n : Nat} {w : Word} (hn : n = 4 ∨ n = 7 ∨ 0x20 ≤ n ∧ n ≤ 0x3F) (hs : sregSlow n = true)
    (hp : e.pendSr = [(n, w)]) (j : Nat) : sregGet (e.synced i) j n = w &&& sregMask i n := by
  have hd : e.slowDone i = sregPut i e.cur n w { e with pendSr := [], view := [] } := by
    rw [ElemState.slowDone, hp]
    rfl
  have hg : sregGet (e.synced i) j n = sregGet (e.slowDone i) j n := by
    refine sregGet_slow_congr _ _ hs ?_ ?_ ?_ j j <;> rfl
  rw [hg, hd]
  exact sregGet_sregPut_slow hn j

include h

theorem slowWritten_slowDone : SlowWritten { e with pendSr := [], view := [] } (e.slowDone i) := slowWritten_foldl h

/-- `SYNC` does the waiting writes and makes the waiting modes and the waiting world current. -/
theorem sync_eq : e.sync i = (e.synced i).putSet e.cur { (e.set e.cur).syncModes with pendWorld := [] } := by
  have hs := slowWritten_slowDone (i := i) h
  have hset : (e.slowDone i).set (e.slowDone i).cur = e.set e.cur := by rw [hs.cur, hs.set]; rfl
  show ElemState.putSet { e.slowDone i with
      world := ((e.slowDone i).set (e.slowDone i).cur).pendWorld.getLastD (e.slowDone i).world }
    (e.slowDone i).cur { ((e.slowDone i).set (e.slowDone i).cur).syncModes with pendWorld := [] } = _
  rw [hset, hs.world, hs.cur]
  rfl

end

/-- The change of a mode leaves `REP_ACT`. -/
theorem tb_withModes_repAct (w old : Word) : tb (withModes old w) 13 = tb old 13 := by
  rw [withModes, tb_or, tb_and, tb_and]
  simp

theorem repAct_syncModes (r : RegSet) : repAct r.syncModes = repAct r := by
  refine List.foldlRecOn (motive := fun w => tb w 13 = repAct r) r.pendSt _ rfl (fun w hw p _ => ?_)
  exact (tb_withModes_repAct p.1 w).trans hw

/-! ### The choice made for an instruction (R100) -/

/-- The choice changes the count of free values and the element's `view` at most. -/
theorem openView_cases (i : Nat) (s : State) :
    openView i s = s ∨ ∃ k v, openView i s = { s with free := k }.setEl i { s.el i with view := v } := by
  unfold openView
  extract_lets e
  split
  next v s1 hf =>
    have hs : ∃ k, s1 = { s with free := k } := by
      rw [show s1 = (v, s1).2 from rfl, ← hf]
      refine List.foldlRecOn (motive := fun r : List (Nat × Word) × State => ∃ k, r.2 = { s with free := k }) _ _
        ⟨s.free, rfl⟩ (fun r hr n _ => ?_)
      obtain ⟨k, hk⟩ := hr
      exact ⟨k + 1, by show { r.2 with free := r.2.free + 1 } = _; rw [hk]⟩
    obtain ⟨k, rfl⟩ := hs
    split_ifs
    · exact .inl rfl
    · exact .inr ⟨k, v, rfl⟩

theorem openView_el (i : Nat) (s : State) : ∃ v, (openView i s).el i = { s.el i with view := v } := by
  obtain h | ⟨k, v, h⟩ := openView_cases i s
  · exact ⟨(s.el i).view, by rw [h]⟩
  · exact ⟨v, by rw [h, setEl_el_self]⟩

theorem openView_dbg (i : Nat) (s : State) : (openView i s).dbg = s.dbg := by
  obtain h | ⟨k, v, h⟩ := openView_cases i s <;> rw [h]
  rfl

/-- An element that stands before its instruction executes the body on the registers chosen for it. -/
theorem Bare.runInstr_chosen {s : State} {i : Nat} (h : Bare s i) (sh : Shape) (sr : Bool) (body : State → Out) :
    Machine.runInstr i sh sr body s = finish i sh sr (body (openView i s)) := by
  obtain ⟨v, hv⟩ := openView_el i s
  refine h.runInstr ?_ ?_ sh sr body
  · rw [State.rset, hv]; rfl
  · rw [hv]; exact h.stalled

/-- `SYNC` leaves an element that goes on past it with every waiting write done. -/
theorem exec_sync_done {s : State} {e : Elem} {i : Nat} (hi : elemIdx e = i) (h : Bare s i)
    (hp : ∀ p ∈ (s.el i).pendSr, sregSlow p.1 = true) : ∃ t, exec (.sync e) s = .next t ∧
      t.el i = ((s.el i).synced i).putSet (s.el i).cur
        { (s.rset i).syncModes with pendWorld := [], pc := (s.rset i).pc + 4 } := by
  have hx : exec (.sync e) s = .next (runInstr i {} false (fun s => .done (s.setEl i ((s.el i).sync i))) s) := hi ▸ rfl
  obtain ⟨v, hv⟩ := openView_el i s
  have hs := slowWritten_slowDone (i := i) hp
  have hc : ((s.el i).synced i).cur = (s.el i).cur := hs.cur
  have hsync : ((openView i s).el i).sync i =
      ((s.el i).synced i).putSet (s.el i).cur { (s.rset i).syncModes with pendWorld := [] } := by
    rw [hv]; exact sync_eq hp
  have hset : ((openView i s).setEl i (((openView i s).el i).sync i)).rset i =
      { (s.rset i).syncModes with pendWorld := [] } := by
    rw [State.rset, setEl_el_self, hsync, putSet_cur, hc, set_putSet]
  have hq : Quiet ((openView i s).setEl i (((openView i s).el i).sync i)) i :=
    ⟨by rw [setEl_el_self, hsync, putSet_view]; exact hs.view,
      (congrArg DbgSt.want (openView_dbg i s)).trans h.want,
      (congrArg DbgSt.steps (openView_dbg i s)).trans h.steps,
      (congrArg DbgSt.fired (openView_dbg i s)).trans h.fired⟩
  have hd : finish i {} false (.done ((openView i s).setEl i (((openView i s).el i).sync i))) =
      ((openView i s).setEl i (((openView i s).el i).sync i)).passed i 4 :=
    finish_done hq rfl (by rw [hset]; exact (repAct_syncModes _).trans h.repAct) (by rw [hset]; rfl)
  refine ⟨_, hx.trans (congrArg Host.Outcome.next ((h.runInstr_chosen {} false _).trans hd)), ?_⟩
  rw [State.passed, hset, State.setRset, setEl_el_self, setEl_el_self, hsync, putSet_cur, hc, putSet_putSet]
  rfl

/-- Settles O14: a slow write waits beside the registers, and `SYNC` does it. -/
theorem mtsAndSync : Obligations.MtsAndSync := by
  unfold Obligations.MtsAndSync
  intro s e x n v i
  refine ⟨fun h => sregGet_mtsWrite_slow h, mtsWrite_fast, mtsWrite_readOnly, fun h hp => ?_⟩
  obtain ⟨t, hx, ht⟩ := exec_sync_done rfl h hp
  have hs := slowWritten_slowDone (i := i) hp
  have hr : t.rset i = { (s.rset i).syncModes with pendWorld := [], pc := (s.rset i).pc + 4 } := by
    rw [State.rset, ht, putSet_cur, show ((s.el i).synced i).cur = (s.el i).cur from hs.cur, set_putSet]
  refine ⟨t, hx, ?pendSr, by rw [hr]; rfl, by rw [hr], ?view, ?world, fun m w hm hw => ?value⟩
  case pendSr => rw [ht, putSet_pendSr]; exact hs.pendSr
  case view => rw [ht, putSet_view]; exact hs.view
  case world => rw [ht, putSet_world]; rfl
  case value =>
    have hm' : sregSlow m = true := hp (m, w) (by rw [hw]; exact List.mem_singleton_self _)
    rw [ht, sregGet_putSet_slow hm', sregGet_synced hm hm' hw]

end Sys2Proof.Machine
end

section
/-! Taking an exception and returning from one (R91, R93, R95, R96), waits and halts (R96, R477), faults of the fetch
and the patch units (R93, R483); then the statements about them. -/

namespace Sys2Proof.Machine

/-! ### Exceptions (R91, R93, R95) -/

@[simp] theorem putSet_set (e : ElemState) (k : Nat) : e.putSet k (e.set k) = e := by
  match k with
  | 0 | 1 | _ + 2 => rfl

@[simp] theorem putSet_resv (e : ElemState) (k : Nat) (r : RegSet) : (e.putSet k r).resv = e.resv := by
  match k with
  | 0 | 1 | _ + 2 => rfl

@[simp] theorem putSet_bank (e : ElemState) (k : Nat) (r : RegSet) : (e.putSet k r).bank = e.bank := by
  match k with
  | 0 | 1 | _ + 2 => rfl

/-- With no mode change in its window, `SYNC` changes no mode. -/
theorem syncModes_none {r : RegSet} (h : r.pendSt = []) : r.syncModes = r := by
  cases r; simp_all [RegSet.syncModes]

/-- With no write waiting, `SYNC` changes nothing. -/
theorem sync_none {e : ElemState} (hs : e.pendSr = []) (hv : e.view = []) (hm : (e.set e.cur).pendSt = [])
    (hw : (e.set e.cur).pendWorld = []) (i : Nat) : e.sync i = e := by
  have he : { e with pendSr := [], view := [], world := e.world } = e := by cases e; simp_all
  have hr : { e.set e.cur with pendWorld := [] } = e.set e.cur := by rw [← hw]
  rw [sync_eq (by simp [hs]), syncModes_none hm, hr, ElemState.synced, ElemState.slowDone, hs, hw]
  exact (congrArg (ElemState.putSet · e.cur (e.set e.cur)) he).trans (putSet_set e e.cur)

theorem timePort_el (p : Nat) (s : State) (i : Nat) : (timePort p s).2.el i = s.el i := rfl

/-- An even address is its own `EPC`. -/
theorem and_even {w : Word} (h : tb w 0 = false) : w &&& 0xFFFFFFFE = w := by
  have hm : (0xFFFFFFFE : Word) = ~~~ 1#32 := rfl
  refine BitVec.eq_of_getLsbD_eq fun k hk => ?_
  rw [hm, BitVec.getLsbD_and, BitVec.getLsbD_not, BitVec.getLsbD_one]
  by_cases h0 : k = 0
  · subst h0
    rw [show w.getLsbD 0 = false from h, Bool.false_and]
  · simp [hk, h0]

theorem tb_zero (w : Word) : tb w 0 = decide (w.toNat % 2 = 1) := Nat.testBit_zero w.toNat

theorem tb_add_4 {w : Word} (h : tb w 0 = false) : tb (w + 4) 0 = false := by
  rw [tb_zero, decide_eq_false_iff_not] at h ⊢
  bv_omega

section
variable {s : State} {i : Nat}

theorem Bare.wfiWake (h : Bare s i) : wfiWake i s = s := by simp [Machine.wfiWake, h.wfi]

theorem Bare.takeImprecise (h : Bare s i) : takeImprecise i s = s := by
  simp [Machine.takeImprecise, h.awake, h.stalled, h.imp]

theorem Ready.sync (h : Ready s i) : (s.el i).sync i = s.el i :=
  sync_none h.pendSr h.view h.pendSt h.pendWorld i

/-- Entry to a handler from an element with nothing waiting (R91): what is saved and what changes. -/
def Entered (s t : State) (i : Nat) (cause epc eva vec : Word) : Prop :=
  (t.rset i).cause = cause ∧ (t.rset i).epc = epc ∧ (t.rset i).eva = eva ∧ (t.rset i).pc = (s.el i).vector + vec ∧
    (t.rset i).estatus = (s.rset i).status ∧ (t.rset i).ebank = (s.el i).bank ∧
    (t.rset i).status = handlerStatus (s.rset i).status ∧ (t.el i).resv = none ∧
    (∀ n, (t.rset i).gr n = (s.rset i).gr n) ∧ (∀ a, t.rg a = s.rg a) ∧ t.mem = s.mem

/-- The registers of a handler that has just been entered. -/
def handlerSet (e : ElemState) (r : RegSet) (t : Trap) (epc : Word) (int : Bool) (now : DWord) : RegSet :=
  { r with
    estatus := r.status, ebank := e.bank, epc := epc &&& 0xFFFFFFFE, cause := causeWord t int false,
    eva := trapEva t, etime := w32 now.toNat, status := handlerStatus r.status, progArm := false, repSaved := none,
    pc := e.vector + (if int then 0x40 else 0) }

/-- The reading of the time port stamps the entry and changes nothing else of the element. -/
theorem Ready.enterExc (h : Ready s i) (hh : stHnd (s.rset i) = false) (t : Trap) (epc : Word) (int : Bool) :
    enterExc i t epc int s =
      let u := timePort (elemPort i) (s.setEl i { s.el i with resv := none })
      u.2.setRset i (handlerSet (s.el i) (s.rset i) t epc int u.1) := by
  have hr : (s.setEl i { s.el i with resv := none }).rset i = s.rset i := by rw [State.rset, setEl_el_self]; rfl
  simp only [Machine.enterExc, h.sync, hr, hh, Bool.false_eq_true, if_false]
  rw [timePort_el, setEl_el_self]
  rfl

/-- The entry passes its boundary with nothing else to do. -/
theorem Ready.entered (h : Ready s i) (hh : stHnd (s.rset i) = false) (t : Trap) {epc : Word} (he : tb epc 0 = false)
    (int : Bool) :
    Entered s (boundary i true (Machine.enterExc i t epc int s)) i (causeWord t int false) epc (trapEva t)
      (if int then 0x40 else 0) := by
  have hel : (timePort (elemPort i) (s.setEl i { s.el i with resv := none })).2.el i =
      { s.el i with resv := none } := by
    rw [timePort_el, setEl_el_self]
  have hq : Quiet (timePort (elemPort i) (s.setEl i { s.el i with resv := none })).2 i :=
    ⟨by rw [hel]; exact h.view, h.want, h.steps, h.fired⟩
  have hresv (r : RegSet) : ((timePort (elemPort i) (s.setEl i { s.el i with resv := none })).2.setRset i r).el i =
      ElemState.putSet { s.el i with resv := none } (s.el i).cur r := by
    rw [State.setRset, setEl_el_self, hel]
  rw [h.enterExc hh, boundary_quiet (hq.setRset _)]
  simp only [Entered, rset_setRset, hresv, putSet_resv]
  exact ⟨rfl, and_even he, rfl, rfl, rfl, rfl, rfl, trivial, fun _ => rfl, fun _ => rfl, rfl⟩

/-- An instruction that raises an exception whose `EPC` is the next instruction. -/
theorem finish_trap_next {sh : Shape} {t : Trap} (h : t.next = true) (sr : Bool) :
    finish i sh sr (.trap t s) = boundary i true (Machine.enterExc i t ((s.rset i).pc + w32 sh.size) false s) := by
  simp only [finish, h, if_true]

theorem Ready.entered_next (h : Ready s i) (hh : stHnd (s.rset i) = false) (hpc : tb (s.rset i).pc 0 = false)
    {c : Instr} {t : Trap} (ht : t.next = true)
    (hc : exec c s = .next (Machine.runInstr i {} false (fun s => .trap t s) s)) :
    ∃ u, exec c s = .next u ∧ Entered s u i (causeWord t false false) ((s.rset i).pc + 4) (trapEva t) 0 :=
  ⟨_, hc.trans (congrArg Host.Outcome.next ((h.runInstr {} false _).trans (finish_trap_next ht false))),
    h.entered hh t (tb_add_4 hpc) false⟩

/-- A core that can take it takes the interrupt that its controller presents. -/
theorem Ready.interruptEntry (h : Ready s i) (hh : stHnd (s.rset i) = false) (he : isEngine i = false)
    (hie : tb (s.rset i).status 10 = true) (hp : intcPresents s (intcOf i) = true) :
    Machine.interruptEntry i s = boundary i true (Machine.enterExc i { code := 0x10 } (s.rset i).pc true s) := by
  simp only [Machine.interruptEntry, h.wfiWake, h.takeImprecise, h.awake, h.wfi, h.steps, h.repAct, he, hh, hie, hp,
    List.contains_nil, Bool.not_true, Bool.or_self, Bool.false_and, Bool.false_eq_true, if_false]

/-! ### `RETH` (R96) -/

theorem returnExc_outside (hh : stHnd (s.rset i) = false) : returnExc i s = .trap Trap.illegal s := by
  simp only [returnExc, hh, Bool.not_false, if_true]

theorem returnExc_unprivileged (hh : stHnd (s.rset i) = true) (hp : stPriv (s.rset i) = false) :
    returnExc i s = .trap Trap.priv s := by
  simp only [returnExc, hh, hp, Bool.not_true, Bool.not_false, Bool.false_eq_true, if_true, if_false]

/-- The running set after `RETH` short of its `pc`. -/
def RegSet.returned (i : Nat) (r : RegSet) : RegSet :=
  { r with status := fixStatus i r.estatus, progArm := tb r.progress 31 }

/-- The element after `RETH`, where `r` is its running set. -/
def ElemState.returned (i : Nat) (e : ElemState) (r : RegSet) : ElemState :=
  ElemState.putSet { e with bank := (e.set e.cur).ebank &&& sregMask i 5, resv := none } e.cur r

theorem Ready.returnExc (h : Ready s i) (hh : stHnd (s.rset i) = true) (hp : stPriv (s.rset i) = true) :
    Machine.returnExc i s = .jump (s.rset i).epc (s.setEl i ((s.el i).returned i ((s.rset i).returned i))) := by
  simp only [Machine.returnExc, hh, hp, h.sync, Bool.not_true, Bool.false_eq_true, if_false]
  rfl

theorem returned_set (e : ElemState) (r : RegSet) : (e.returned i r).set (e.returned i r).cur = r := by
  rw [ElemState.returned, putSet_cur, set_putSet]

/-- `RETH` leaves registers and memory, and the element with what its handler saved. -/
theorem Ready.reth (h : Ready s i) (hh : stHnd (s.rset i) = true) (hp : stPriv (s.rset i) = true) :
    ∃ t, Machine.runInstr i {} false (Machine.returnExc i) s = t ∧ (∀ a, t.rg a = s.rg a) ∧ t.mem = s.mem ∧
      t.el i = (s.el i).returned i { (s.rset i).returned i with pc := (s.rset i).epc } := by
  have hq : Quiet (s.setEl i ((s.el i).returned i ((s.rset i).returned i))) i :=
    ⟨by rw [setEl_el_self]; exact (putSet_view ..).trans h.view, h.want, h.steps, h.fired⟩
  have hset : (s.setEl i ((s.el i).returned i ((s.rset i).returned i))).rset i = (s.rset i).returned i := by
    rw [State.rset, setEl_el_self, returned_set]
  refine ⟨(s.setEl i ((s.el i).returned i ((s.rset i).returned i))).jumped i (s.rset i).epc, ?_, fun _ => rfl, rfl, ?_⟩
  · rw [h.runInstr, h.returnExc hh hp, finish_jump hq (by rw [hset]; exact h.pendSt)]
  · rw [State.jumped, hset, State.setRset, setEl_el_self, setEl_el_self, ElemState.returned, putSet_cur, putSet_putSet]
    rfl

end

theorem causeWord_sys (imm : BitVec 8) :
    causeWord { code := 8, sub := imm.toNat, next := true } false false = w32 (imm.toNat * 65536 + 8) := by
  have h : imm.toNat % 256 = imm.toNat := Nat.mod_eq_of_lt imm.isLt
  simp [causeWord, h]

/-- Settles O15: each entry is that of `enterExc`, and `RETH` jumps with the saved registers restored. -/
theorem exceptionEntryAndReturn : Obligations.ExceptionEntryAndReturn := by
  unfold Obligations.ExceptionEntryAndReturn
  refine ⟨fun s e imm long => ?entry, fun s e => ?ret⟩
  case entry =>
    intro i r enters h hh hpc
    refine ⟨?sys, fun hb => ?brk, ?illegal, fun he hie hp => ?interrupt⟩
    case sys => exact causeWord_sys imm ▸ h.entered_next hh hpc rfl rfl
    case brk =>
      have hx : exec (.brk e) s = .next (runInstr i {} false (fun s => .trap { code := 9, next := true } s) s) := by
        refine congrArg Host.Outcome.next ((h.runInstr {} false _).trans (Eq.trans ?_ (h.runInstr {} false _).symm))
        rw [brkBody, hb]
        rfl
      exact h.entered_next hh hpc rfl hx
    case illegal =>
      exact ⟨_, exec_trap (sh := { size := if long then 4 else 2 }) rfl h rfl, h.entered hh Trap.illegal hpc false⟩
    case interrupt =>
      exact ⟨_, congrArg Host.Outcome.next (h.interruptEntry hh he hie hp), h.entered hh { code := 0x10 } hpc true⟩
  case ret =>
    intro i r h
    refine ⟨fun hh => exec_trap (sh := {}) rfl h (returnExc_outside hh),
      fun hh hp => exec_trap (sh := {}) rfl h (returnExc_unprivileged hh hp), fun hh hp => ?_⟩
    obtain ⟨t, ht, hrg, hmem, hel⟩ := h.reth hh hp
    have hset : t.rset i = { r.returned i with pc := r.epc } := by rw [State.rset, hel, returned_set]
    refine ⟨t, congrArg Host.Outcome.next ht, by rw [hset], by rw [hset]; rfl, ?bank, ?resv,
      fun n => by rw [hset]; rfl, hrg, hmem⟩
    case bank => rw [hel, ElemState.returned, putSet_bank]; rfl
    case resv => rw [hel, ElemState.returned, putSet_resv]

/-! ### Waits and halts (R96, R477) -/

section
variable {s s1 : State} {i : Nat}

theorem wfiBody_engine (he : isEngine i = true) : wfiBody i s = .trap Trap.illegal s := if_pos he

theorem wfiBody_pending (he : isEngine i = false) (hp : intcPresents s (intcOf i) = true) : wfiBody i s = .done s :=
  (if_neg (ne_true_of_eq_false he)).trans (if_pos hp)

theorem wfiBody_sleeps (he : isEngine i = false) (hp : intcPresents s (intcOf i) = false) :
    wfiBody i s = .done (s.setEl i { s.el i with wfi := true }) :=
  (if_neg (ne_true_of_eq_false he)).trans (if_neg (ne_true_of_eq_false hp))

theorem brkBody_halts (hb : tb (s.rg (ra .dbg (Dbg.EL_CTRL (rcNum i)))) 6 = true) (hg : granted s i = true) :
    brkBody i s = .hold (wantHalt i 3 s) :=
  (if_pos hb).trans (if_pos hg)

/-! ### Fetch faults and the patch units (R93, R483) -/

theorem Ready.openView (h : Ready s i) : openView i s = s := by
  have hw : ((s.el i).set (s.el i).cur).pendWorld = [] := h.pendWorld
  have hn : pendNums (s.el i) = [] := by simp [pendNums, h.pendSr, hw]
  simp [Machine.openView, hn, h.view]

theorem Ready.fetchFault (h : Ready s i) (second : Bool) {o : Obs} {t : Trap}
    (hf : fetchTrap i ((s.rset i).pc + (if second then 2 else 0)) o s = (some t, s1)) :
    Machine.fetchFault i second o s = finish i {} false (.trap t s1) := by
  simp only [Machine.fetchFault, h.wfiWake, h.takeImprecise, h.awake, h.runs, h.wfi, h.openView, h.instrAddr, hf,
    Bool.not_true, Bool.or_self, Bool.false_eq_true, if_false]

theorem Ready.patchBreak (h : Ready s i) {p : Place} (hx : xlate i .fetch (s.rset i).pc none s = (.ok p, s1)) :
    Machine.patchBreak i s = takeHalts 38 (clearFired (breakFetch i p s1)) := by
  simp only [Machine.patchBreak, h.awake, h.runs, h.wfi, h.openView, h.instrAddr, hx, Bool.not_true, Bool.or_self,
    Bool.false_eq_true, if_false]

theorem Bare.patchWatch (h : Bare s i) (pa : BitVec 40) (st : Bool) :
    Machine.patchWatch i pa st s = takeHalts 38 (clearFired (watchAccess i st
      { pa := pa.toNat / 4 * 4, sec := i = 36 || secNow (s.el i), mt := 1 } 4 s)) := by
  simp only [Machine.patchWatch, h.awake, Bool.not_true, Bool.false_eq_true, if_false]

end

/-- Settles O16, by the body of each instruction and the row of each unit. -/
theorem haltsAndWaits : Obligations.HaltsAndWaits := by
  unfold Obligations.HaltsAndWaits
  intro s s1 e second o t p pa st i r h
  refine ⟨fun he => exec_trap (sh := {}) rfl h (wfiBody_engine he),
    fun he hp => exec_done (sh := {}) rfl h (wfiBody_pending he hp) h.settled,
    fun he hp => exec_done (sh := {}) rfl h (wfiBody_sleeps he hp) (h.settled.setEl rfl rfl rfl),
    fun hb hg => congrArg Host.Outcome.next ((h.runInstr {} false _).trans (congrArg _ (brkBody_halts hb hg))),
    fun hf => congrArg Host.Outcome.next (h.fetchFault second hf),
    fun hx => congrArg Host.Outcome.next (h.patchBreak hx),
    congrArg Host.Outcome.next (h.patchWatch pa st)⟩

end Sys2Proof.Machine
end

section
/-! `VMAC` (R79, R88): where its terms lie, what the terms add up to, and how it ends; then the statement about it. -/

namespace Sys2Proof.Machine

/-! ### Where the terms lie -/

section
variable {s : State} {i : Nat} {a : Word} {t : Trap} {p : Place} {x : Nat → Place}

/-- The places of an operand go on past a term that lies in own memory. -/
theorem vmacPlaces_cons_ok {k : Nat} (ks : List Nat) (hx : xlateEngine (s.el i) .load (a + w32 (2 * k)) s = .ok p)
    (hd : isDirect s i p.pa = true) : vmacPlaces i a (k :: ks) s = (vmacPlaces i a ks s).map (p :: ·) := by
  simp only [vmacPlaces, List.foldr_cons, hx, hd, if_true]

theorem vmacPlaces_ok {ks : List Nat} (h : ∀ j ∈ ks, xlateEngine (s.el i) .load (a + w32 (2 * j)) s = .ok (x j) ∧
    isDirect s i (x j).pa = true) : vmacPlaces i a ks s = .ok (ks.map x) := by
  induction ks with
  | nil => rfl
  | cons k ks ih =>
    obtain ⟨hx, hd⟩ := h k List.mem_cons_self
    rw [vmacPlaces_cons_ok ks hx hd, ih (fun j hj => h j (List.mem_cons_of_mem k hj))]
    rfl

/-- A first term that does not translate stops the instruction with its fault. -/
theorem vmacPlaces_fault (n : Nat) (h : xlateEngine (s.el i) .load (a + w32 0) s = .error t) :
    vmacPlaces i a (List.range (n + 1)) s = .error t := by
  simp only [List.range_succ_eq_map, vmacPlaces, List.foldr_cons, Nat.mul_zero, h]

/-- A first term outside own memory raises `ACCESS`. -/
theorem vmacPlaces_foreign (n : Nat) (h : xlateEngine (s.el i) .load (a + w32 0) s = .ok p)
    (hd : isDirect s i p.pa = false) :
    vmacPlaces i a (List.range (n + 1)) s = .error (Trap.access false 7 0xA (a + w32 0)) := by
  simp only [List.range_succ_eq_map, vmacPlaces, List.foldr_cons, Nat.mul_zero, h, hd, Bool.false_eq_true, if_false]

/-- A fault of block translation is reported at the instruction itself. -/
theorem xlateEngine_error_next {e : ElemState} {k : Acc} {va : Word} (h : xlateEngine e k va s = .error t) :
    t.next = false := by
  unfold xlateEngine at h
  split at h
  · cases h; rfl
  · dsimp only at h
    split_ifs at h
    · cases h; rfl
    · cases h; rfl

end

/-! ### What the terms add up to (R79) -/

/-- The value of a halfword of memory. -/
def halfword (bs : List Byte) : Int := (BitVec.ofNat 16 (ofBytes bs)).toInt

/-- One term added into an accumulator with its sticky `Q`. -/
def macStep (u v : Nat → List Byte) (m : DWord × Bool) (j : Nat) : DWord × Bool :=
  let sum := m.1.toInt + halfword (u j) * halfword (v j)
  let c := max (-2 ^ 63) (min (2 ^ 63 - 1) sum)
  (BitVec.ofInt 64 c, m.2 || decide (c ≠ sum))

/-- The halfwords of term `j` can be read, and the reads change nothing. -/
structure TermReads (s : State) (i : Nat) (x y : Nat → Place) (u v : Nat → List Byte) (j : Nat) : Prop where
  left : memRead (elemMaster i (x j).sec) false .clean (x j).pa 2 s = (.ok (u j), s)
  right : memRead (elemMaster i (y j).sec) false .clean (y j).pa 2 s = (.ok (v j), s)
  watchLeft : watchAccess i false (x j) 2 s = s
  watchRight : watchAccess i false (y j) 2 s = s

/-- The terms `ks` as `vmacTerms` takes them. -/
def termsOf (x y : Nat → Place) (ks : List Nat) : List (Nat × Place × Place) := ks.map (fun j => (j, x j, y j))

theorem termsOf_append (x y : Nat → Place) (ks ls : List Nat) :
    termsOf x y (ks ++ ls) = termsOf x y ks ++ termsOf x y ls := List.map_append

/-- Nothing stops the `VMAC` before term `j` or in it. -/
def VmacPasses (stop : VmacStop) (j : Nat) : Prop := stop = .none ∨ ∃ k, stop = .stopped k ∧ j < k.val

section
variable {s : State} {i n : Nat} {a b : Word} {x y : Nat → Place} {u v : Nat → List Byte} {stop : VmacStop}
  {acc : DWord} {q : Bool}

theorem vmacTerm_ok {j : Nat} (h : TermReads s i x y u v j) (va vb : Word) (acc : DWord) :
    vmacTerm i (x j) (y j) .clean va vb acc s =
      (.ok ((macStep u v (acc, false) j).1, (macStep u v (acc, false) j).2), s) := by
  have hc (t : Int) : clampI t (-9223372036854775808) 9223372036854775807 = max (-2 ^ 63) (min (2 ^ 63 - 1) t) :=
    clampI_eq t (by decide)
  simp only [vmacTerm, h.left, h.right, h.watchLeft, h.watchRight, sext_eq_toInt, macStep, halfword, Bool.false_or]
  rw [hc]
  rfl

/-- A term that nothing stops is added. -/
theorem vmacTerms_cons {j : Nat} (h : TermReads s i x y u v j) (hp : VmacPasses stop j)
    (rest : List (Nat × Place × Place)) :
    vmacTerms i stop a b ((j, x j, y j) :: rest) acc q n s =
      vmacTerms i stop a b rest (macStep u v (acc, q) j).1 (macStep u v (acc, q) j).2 n s := by
  have hq : (q || (macStep u v (acc, false) j).2) = (macStep u v (acc, q) j).2 := by simp only [macStep, Bool.false_or]
  have hstep := vmacTerm_ok h (a + w32 (2 * j)) (b + w32 (2 * j)) acc
  obtain rfl | ⟨k, rfl, hk⟩ := hp
  · simp only [vmacTerms, hstep, hq, Bool.false_eq_true, if_false]
    rfl
  · simp only [vmacTerms, hstep, hq, decide_eq_true_eq, if_neg (Nat.not_le.mpr hk)]
    rfl

theorem vmacTerms_append (ks : List Nat) (h : ∀ j ∈ ks, TermReads s i x y u v j) (hp : ∀ j ∈ ks, VmacPasses stop j)
    (rest : List (Nat × Place × Place)) : vmacTerms i stop a b (termsOf x y ks ++ rest) acc q n s =
      vmacTerms i stop a b rest (ks.foldl (macStep u v) (acc, q)).1 (ks.foldl (macStep u v) (acc, q)).2 n s := by
  induction ks generalizing acc q with
  | nil => rfl
  | cons k ks ih =>
    exact (vmacTerms_cons (h k List.mem_cons_self) (hp k List.mem_cons_self) _).trans
      (ih (fun j hj => h j (List.mem_cons_of_mem k hj)) (fun j hj => hp j (List.mem_cons_of_mem k hj)))

/-- All terms are added. -/
theorem vmacTerms_all (ks : List Nat) (h : ∀ j ∈ ks, TermReads s i x y u v j) (hp : ∀ j ∈ ks, VmacPasses stop j) :
    vmacTerms i stop a b (termsOf x y ks) acc q n s =
      ({ acc := (ks.foldl (macStep u v) (acc, q)).1, q := (ks.foldl (macStep u v) (acc, q)).2, at_ := n }, s) := by
  rw [← List.append_nil (termsOf x y ks), vmacTerms_append ks h hp]
  rfl

/-- A `VMAC` stopped before term `k` has added those below it. -/
theorem vmacTerms_stopped {m : Nat} (k : Fin 33) (hk : k.val ≤ m)
    (h : ∀ j ∈ List.range (m + 1), TermReads s i x y u v j) :
    vmacTerms i (.stopped k) a b (termsOf x y (List.range (m + 1))) acc q n s =
      ({ acc := ((List.range k).foldl (macStep u v) (acc, q)).1, q := ((List.range k).foldl (macStep u v) (acc, q)).2,
         at_ := k, stopped := true }, s) := by
  have hr : List.range (m + 1) = List.range k ++ k.val :: (List.range (m - k)).map (fun j => k.val + (j + 1)) := by
    have hm : m + 1 = k.val + (m - k.val + 1) := by omega
    rw [hm, List.range_add, List.range_succ_eq_map, List.map_cons, List.map_map]
    rfl
  rw [hr] at h ⊢
  rw [termsOf_append, vmacTerms_append _ (fun j hj => h j (List.mem_append_left _ hj))
    (fun j hj => .inr ⟨k, rfl, List.mem_range.mp hj⟩)]
  exact if_pos (decide_eq_true (Nat.le_refl _))

end

/-! ### How the instruction ends (R79, R88) -/

/-- The running set with the terms of a `VMAC` added into the chosen accumulator. -/
def RegSet.accumulated (r : RegSet) (S : Bool) (m : DWord × Bool) : RegSet :=
  { r with acc0 := if S then r.acc0 else m.1, acc1 := if S then m.1 else r.acc1, status := setQ r.status m.2 }

/-- A `VMAC` that no return has armed begins with its first term. -/
theorem vmacFirst_unarmed {r : RegSet} (h : r.progArm = false) : vmacFirst r = 0 := by simp [vmacFirst, h]

theorem filter_from_zero (n : Nat) : (List.range n).filter (fun k => 0 ≤ k) = List.range n := by simp

theorem zip_termsOf (x y : Nat → Place) (ks : List Nat) : ks.zip ((ks.map x).zip (ks.map y)) = termsOf x y ks := by
  induction ks with
  | nil => rfl
  | cons k ks ih => exact congrArg ((k, x k, y k) :: ·) ih

section
variable {s : State} {i n : Nat} {ra rb : BitVec 5} {S : Bool} {stop : VmacStop} {t : Trap}
  (hx : extOk i [ra, rb] = true) (hp : (s.rset i).progArm = false)
include hx hp

theorem vmacBody_odd_left (ha : tb ((s.rset i).gr ra.toNat) 0 = true) :
    vmacBody i n ra rb S stop s = .trap (Trap.align ((s.rset i).gr ra.toNat)) s := by
  simp only [vmacBody, vmacFirst_unarmed hp, hx, hp, ha, Bool.not_true, Bool.false_eq_true, if_false, if_true]

variable (ha : tb ((s.rset i).gr ra.toNat) 0 = false)
include ha

theorem vmacBody_odd_right (hb : tb ((s.rset i).gr rb.toNat) 0 = true) :
    vmacBody i n ra rb S stop s = .trap (Trap.align ((s.rset i).gr rb.toNat)) s := by
  simp only [vmacBody, vmacFirst_unarmed hp, hx, hp, ha, hb, Bool.not_true, Bool.false_eq_true, if_false, if_true]

variable (hb : tb ((s.rset i).gr rb.toNat) 0 = false)
include hb

theorem vmacBody_fault (hl : vmacPlaces i ((s.rset i).gr ra.toNat) (List.range n) s = .error t) :
    vmacBody i n ra rb S stop s = .trap t s := by
  simp only [vmacBody, vmacFirst_unarmed hp, hx, hp, ha, hb, filter_from_zero, hl, Bool.not_true, Bool.false_eq_true,
    if_false, if_true]

variable {x y : Nat → Place} {m : DWord × Bool}
  (hl : vmacPlaces i ((s.rset i).gr ra.toNat) (List.range n) s = .ok ((List.range n).map x))
  (hr : vmacPlaces i ((s.rset i).gr rb.toNat) (List.range n) s = .ok ((List.range n).map y))
include hl hr

theorem vmacBody_done
    (hm : vmacTerms i stop ((s.rset i).gr ra.toNat) ((s.rset i).gr rb.toNat) (termsOf x y (List.range n))
      (if S then (s.rset i).acc1 else (s.rset i).acc0) false n s = ({ acc := m.1, q := m.2, at_ := n }, s)) :
    vmacBody i n ra rb S stop s = .done (s.setRset i ((s.rset i).accumulated S m)) := by
  simp only [vmacBody, vmacFirst_unarmed hp, hx, if_neg (ne_true_of_eq_false hp), ha, hb, filter_from_zero, hl, hr,
    zip_termsOf, hm, Bool.not_true, Bool.false_eq_true, if_false, if_true]
  cases S <;> rfl

/-- A `VMAC` that a preemption or a halt stops stays where it is, with its index in `PROGRESS`. -/
theorem vmacBody_held {k : Nat}
    (hm : vmacTerms i stop ((s.rset i).gr ra.toNat) ((s.rset i).gr rb.toNat) (termsOf x y (List.range n))
      (if S then (s.rset i).acc1 else (s.rset i).acc0) false n s =
        ({ acc := m.1, q := m.2, at_ := k, stopped := true }, s)) :
    vmacBody i n ra rb S stop s = .hold (s.setRset i
      { (s.rset i).accumulated S m with progress := vmacProgress k, progArm := true }) := by
  simp only [vmacBody, vmacFirst_unarmed hp, hx, if_neg (ne_true_of_eq_false hp), ha, hb, filter_from_zero, hl, hr,
    zip_termsOf, hm, Bool.not_true, Bool.false_eq_true, if_false, if_true]
  cases S <;> rfl

end

/-- Settles O18: the terms of a `VMAC` are those of the two arrays, added in order. -/
theorem multiplyAccumulate : Obligations.MultiplyAccumulate := by
  unfold Obligations.MultiplyAccumulate
  intro s g n ra rb S stop x y u v k t p e r a b half add sum after reads h hra hrb
  have hx : extOk g [ra, rb] = true := by simp [extOk, regsOk, hra, hrb]
  refine ⟨fun ha => exec_trap (sh := { vmac := true }) rfl h (vmacBody_odd_left hx h.progArm ha),
    fun ha hb => exec_trap (sh := { vmac := true }) rfl h (vmacBody_odd_right hx h.progArm ha hb),
    fun ha hb => ⟨?fault, ?foreign, ?sums⟩⟩
  case fault =>
    exact fun hf => exec_trap (sh := { vmac := true }) rfl h (vmacBody_fault hx h.progArm ha hb (vmacPlaces_fault _ hf))
      (xlateEngine_error_next hf)
  case foreign =>
    exact fun hf hd => exec_trap (sh := { vmac := true }) rfl h
      (vmacBody_fault hx h.progArm ha hb (vmacPlaces_foreign _ hf hd))
  case sums =>
    intro hu hv
    have hj {j : Nat} (h : j ∈ List.range (n.toNat + 1)) : j ≤ n.toNat := Nat.le_of_lt_succ (List.mem_range.mp h)
    have hreads (j : Nat) (hm : j ∈ List.range (n.toNat + 1)) : TermReads s g x y u v j := by
      obtain ⟨-, -, hul, huw⟩ := hu j (hj hm)
      obtain ⟨-, -, hvl, hvw⟩ := hv j (hj hm)
      exact ⟨hul, hvl, huw, hvw⟩
    have hl : vmacPlaces g a (List.range (n.toNat + 1)) s = .ok ((List.range (n.toNat + 1)).map x) :=
      vmacPlaces_ok fun j hm => (hu j (hj hm)).imp id And.left
    have hr : vmacPlaces g b (List.range (n.toNat + 1)) s = .ok ((List.range (n.toNat + 1)).map y) :=
      vmacPlaces_ok fun j hm => (hv j (hj hm)).imp id And.left
    have hall (stop : VmacStop) (hp : ∀ j ∈ List.range (n.toNat + 1), VmacPasses stop j) :
        exec (.vmac e n ra rb S stop) s = .next ((s.setRset g (after (n.toNat + 1))).passed g 4) := by
      have hb := vmacBody_done (S := S) hx h.progArm ha hb hl hr (vmacTerms_all _ hreads hp)
      exact exec_done (sh := { vmac := true }) rfl h hb
        (h.settled.setRset ((tb_setQ_ne _ _ (by decide)).trans h.repAct) h.pendSt)
    refine ⟨hall .none fun j _ => .inl rfl, fun hk => ?stopped,
      fun hk => hall (.stopped k) fun j hm => .inr ⟨k, rfl, Nat.lt_of_le_of_lt (hj hm) hk⟩⟩
    case stopped =>
      have hb := vmacBody_held (S := S) hx h.progArm ha hb hl hr (vmacTerms_stopped k hk hreads)
      refine congrArg Host.Outcome.next ((h.runInstr { vmac := true } false _).trans ?_)
      exact (congrArg (finish g { vmac := true } false) hb).trans (boundary_quiet (h.quiet.setRset _) false)

end Sys2Proof.Machine
end

section
/-! Paired copies, commit deadlines and setpoints (R81, R85, R252, R253, R257): what each does in the cases that the
rules name; then the statement about them. -/

namespace Sys2Proof.Machine

section
variable {s s1 : State} {n k key : Nat} {p : Compare} {x y : List Byte} {t u : DWord} {sp : Setpoint}
  {rest : List Setpoint} {ks : List Nat}

/-! ### The compare of a pair (R252) -/

theorem compareDue_iff (hx : p.a = some (x, t)) (hy : p.b = some (y, u)) (now : DWord) :
    compareDue now p.a p.b =
      (reached 64 now.toNat (t.toNat / 2 * 2 + 4) && reached 64 now.toNat (u.toNat / 2 * 2 + 4)) := by
  rw [hx, hy]
  rfl

/-- A compare that has been made, or misses a bundle, is not due. -/
theorem pairDue_false (h : p.paired = true ∨ p.a = none ∨ p.b = none) : pairDue s p = false := by
  obtain h | h | h := h
  · simp [pairDue, h]
  · simp [pairDue, compareDue, h]
  · cases ha : p.a <;> simp [pairDue, compareDue, h, ha]

theorem pairCompare_unpaired (h : (s.ctx n).second = none) : pairCompare n s = s := by simp [pairCompare, h]

theorem pairCompare_none_due (h : ∀ p ∈ (s.ax n).cmps, pairDue s p = false) : pairCompare n s = s := by
  have ha : (s.ax n).cmps.any (pairDue s) = false := List.any_eq_false.mpr (by simpa using h)
  simp [pairCompare, ha]

/-- The state after the only compare of an axis, a due one, has been made. -/
def pairDone (n : Nat) (p : Compare) (s : State) : State :=
  s.setAx n { s.ax n with cmps := if p.ended then [] else [{ p with paired := true }] }

section
variable (h2 : (s.ctx n).second = some k) (hc : (s.ax n).cmps = [p]) (hd : pairDue s p = true) (hs : p.shadow = false)
include h2 hc hd hs

theorem pairCompare_due : pairCompare n s =
    if p.a.map Prod.fst ≠ p.b.map Prod.fst then pairFault n 1 (pairDone n p s) else pairDone n p s := by
  have hk : compareKept { p with paired := true } = !p.ended := by simp [compareKept, hs]
  simp only [pairCompare, h2, hc, hd, List.any_cons, List.map_cons, List.map_nil, List.filter_singleton, hk,
    Bool.true_and, Bool.true_or, Option.isNone_some, Bool.not_true, Bool.or_self, Bool.false_eq_true, if_false, if_true,
    Bool.cond_decide, pairDone]
  cases p.ended <;> split <;> rfl

end

/-! ### Commit deadlines (R253, R257) -/

/-- The state after a commit deadline of an axis, with the compares it has left. -/
def deadlineLeft (n : Nat) (l : List Compare) (s : State) : State :=
  (deadlinePassed n s).setAx n { (deadlinePassed n s).ax n with cmps := l }

theorem commitDeadline_no_compare (h : ((deadlinePassed n s).ax n).cmps = []) :
    commitDeadline n s = deadlineLeft n [] s := by
  simp only [commitDeadline, h]
  rfl

section
variable (hc : ((deadlinePassed n s).ax n).cmps = [p]) (he : p.ended = false)
include hc he

theorem commitDeadline_early (ho : newer 64 s.time.selvedge.toNat p.deadline.toNat = false) :
    commitDeadline n s = deadlineLeft n [p] s := by
  have hover : compareOver s p = false := by simp [compareOver, ho]
  have hk : compareKept p = true := by simp [compareKept, he]
  simp only [commitDeadline, hc, List.map_cons, List.map_nil, List.filter_singleton, hover, hk, Bool.false_eq_true,
    if_false, cond_true, cond_false]
  rfl

/-- A compare that cannot be made any more is gone, and what it misses shows. -/
theorem commitDeadline_over (ho : newer 64 s.time.selvedge.toNat p.deadline.toNat = true)
    (hk : compareKept { p with ended := true } = false) :
    commitDeadline n s = missingBundle n (deadlineLeft n [] s) p := by
  have hover : compareOver s p = true := by simp [compareOver, ho, he]
  simp only [commitDeadline, hc, List.map_cons, List.map_nil, List.filter_singleton, hover, hk, if_true, cond_true,
    cond_false]
  rfl

end

/-- Without a second copy and outside a shadow period no bundle is missing. -/
theorem missingBundle_single (h2 : (s.ctx n).second = none) (hs : p.shadow = false) : missingBundle n s p = s := by
  simp only [missingBundle, h2, hs, Option.isSome_none, Bool.false_and, Bool.and_false, Bool.false_eq_true, if_false]
  split <;> rfl

/-- The bundle of the second copy is missing. -/
theorem missingBundle_pair (h2 : (s.ctx n).second = some k) (hb : p.b = none)
    (hm : ((pairFault n 2 s).ctx n).mig = none) : missingBundle n s p = pairFault n 2 s := by
  simp only [missingBundle, h2, hb, hm, Option.isSome_some, Option.isNone_none, Bool.and_self, if_true]

/-! ### Setpoints (R81, R85, R232) -/

/-- The bytes of a setpoint block. -/
def setpointBytes (sp : Setpoint) : List Byte :=
  toBytes 4 sp.pos.toNat ++ toBytes 4 sp.vel.toNat ++ toBytes 4 sp.torque.toNat ++ toBytes 4 sp.due.toNat ++
    toBytes 4 sp.seq.toNat

/-- The first held block of a context has left the queue manager. -/
def setpointTaken (n : Nat) (rest : List Setpoint) (s : State) : State :=
  s.setCtx n { s.ctx n with held := rest, delivered := true }

/-- The banks have their `SP_DUE` compare armed at the present tick. -/
def armBanks (ks : List Nat) (s : State) : State :=
  ks.foldl (fun s j => s.setBank j { s.bank j with spArmed := true, spAt := s.time.selvedge }) s

theorem writeSetpoint_none_held (h : (s.ctx n).held = []) : writeSetpoint n s = s := by simp only [writeSetpoint, h]

theorem writeSetpoint_running (h : ctxRuns s n = true) : writeSetpoint n s = s := by
  simp only [writeSetpoint, h, if_true]
  split <;> rfl

section
variable (hh : (s.ctx n).held = sp :: rest) (hr : ctxRuns s n = false)
include hh hr

theorem writeSetpoint_unbound (hb : boundBanks s n = []) : writeSetpoint n s = setpointTaken n rest s := by
  simp only [writeSetpoint, hh, hr, hb, Bool.false_eq_true, if_false]
  rfl

/-- A block that replaces none is delivered to every bound bank. -/
theorem writeSetpoint_bound (hb : boundBanks s n = k :: ks) (hd : 128 ≤ n ∨ (s.ctx n).delivered = false) :
    writeSetpoint n s = wakeCtx n 2 (armBanks (k :: ks)
      (bankWrite (some midQm) n 0x40 (setpointBytes sp) (setpointTaken n rest s))) := by
  have hn : (decide (n < 128) && (s.ctx n).delivered) = false := by
    obtain h | h := hd
    · simp [Nat.not_lt.mpr h]
    · simp [h]
  simp only [writeSetpoint, hh, hr, hb, hn, Bool.false_and, Bool.false_eq_true, if_false]
  rfl

end

/-- The `SP_DUE` compare of a bank is due. -/
def spDue (s : State) (key : Nat) : Prop :=
  (s.bank key).spArmed = true ∧ s.time.selvedge ≠ (s.bank key).spAt ∧
    reached 32 s.time.selvedge.toNat (s.word (bankAddr key + 0x4C)).toNat = true

theorem spDueFire_cond : ((s.bank key).spArmed && decide (s.time.selvedge ≠ (s.bank key).spAt) &&
    reached 32 s.time.selvedge.toNat (spWord s key 3).toNat) = true ↔ spDue s key := by
  rw [Bool.and_eq_true, Bool.and_eq_true, decide_eq_true_eq, and_assoc]
  rfl

theorem spDueFire_due (h : spDue s key) :
    spDueFire key s = latchBank key 1 (s.setBank key { s.bank key with spArmed := false }) :=
  if_pos (spDueFire_cond.mpr h)

theorem spDueFire_not_due (h : ¬ spDue s key) : spDueFire key s = s := if_neg (mt spDueFire_cond.mp h)

end

/-- Settles O38, by the case of each rule. -/
theorem pairsDeadlinesAndSetpoints : Obligations.PairsDeadlinesAndSetpoints := by
  unfold Obligations.PairsDeadlinesAndSetpoints
  intro s n c key p x y t u sp rest k ks a now old done pc late past taken block due
  refine ⟨?idle, ?pair, fun h => congrArg _ (commitDeadline_no_compare h), ?deadline,
    fun h => congrArg _ (writeSetpoint_none_held h), fun h => congrArg _ (writeSetpoint_running h),
    fun hh hr => ⟨fun hb => congrArg _ (writeSetpoint_unbound hh hr hb),
      fun hb hd => congrArg _ (writeSetpoint_bound hh hr hb hd)⟩,
    fun h => congrArg _ (spDueFire_not_due h), fun h => congrArg _ (spDueFire_due h)⟩
  case idle =>
    rintro (h | h)
    · exact congrArg _ (pairCompare_unpaired h)
    · exact congrArg _ (pairCompare_none_due fun p hp => pairDue_false (h p hp))
  case pair =>
    intro h2 hc hp hs ha hb ht hu
    have hd : pairDue s p = true := by
      rw [pairDue, hp, compareDue_iff ha hb]
      exact Bool.and_eq_true_iff.mpr ⟨rfl, Bool.and_eq_true_iff.mpr ⟨ht, hu⟩⟩
    have hpc := pairCompare_due h2 hc hd hs
    rw [ha, hb] at hpc
    exact ⟨fun he => congrArg _ (hpc.trans (if_neg (by simp [he]))),
      fun hn => congrArg _ (hpc.trans (if_pos (by simpa using hn)))⟩
  case deadline =>
    intro hc he
    refine ⟨fun ho => congrArg _ (commitDeadline_early hc he ho),
      fun ho => ⟨fun hb hs h2 => ?single, fun ha hb h2 hm => ?missing⟩⟩
    case single =>
      have hk : compareKept { p with ended := true } = false := by simp [compareKept, hb, hs]
      exact congrArg _ ((commitDeadline_over hc he ho hk).trans (missingBundle_single h2 hs))
    case missing =>
      have hk : compareKept { p with ended := true } = false := by simp [compareKept, ha]
      exact congrArg _ ((commitDeadline_over hc he ho hk).trans (missingBundle_pair h2 hb hm))

end Sys2Proof.Machine
end

section
/-! The event instructions and the runs of the engines (R82–R87, R237, R238): how each body ends, and what each row of
the scheduler does where its condition holds; then the statement about them. -/

namespace Sys2Proof.Machine

/-! ### The runs of an element -/

@[simp] theorem putRun_view (e : ElemState) (k : Nat) (r : Option Run) : (e.putRun k r).view = e.view := by
  match k with
  | 0 | 1 | _ + 2 => rfl

@[simp] theorem putRun_cur (e : ElemState) (k : Nat) (r : Option Run) : (e.putRun k r).cur = e.cur := by
  match k with
  | 0 | 1 | _ + 2 => rfl

@[simp] theorem putRun_set (e : ElemState) (k j : Nat) (r : Option Run) : (e.putRun k r).set j = e.set j := by
  match k with
  | 0 | 1 | _ + 2 => rfl

section
variable {s t : State} {i : Nat}

/-- A change of the reservation and of a run. -/
theorem Settled.putRun (h : Settled s i) (x : Option Resv) (k : Nat) (r : Option Run) :
    Settled (s.setEl i (ElemState.putRun { s.el i with resv := x } k r)) i :=
  h.setEl (putRun_view ..) (by rw [putRun_cur, putRun_set]; rfl) (by rw [putRun_cur, putRun_set]; rfl)

theorem Settled.setRun (h : Settled s i) (f : Run → Run) : Settled (setRun i f s) i :=
  h.putRun (s.el i).resv (s.el i).cur _

/-- A change outside the element and the debugger. -/
theorem Settled.of_same (h : Settled s i) (he : t.el i = s.el i) (hd : t.dbg = s.dbg) : Settled t i where
  view := by rw [he]; exact h.view
  want := by rw [hd]; exact h.want
  steps := by rw [hd]; exact h.steps
  fired := by rw [hd]; exact h.fired
  repAct := by rw [State.rset, he]; exact h.repAct
  pendSt := by rw [State.rset, he]; exact h.pendSt

theorem recordAnswer_cases (key : Nat) (stamp : Word) (ans : Nat) (s : State) :
    recordAnswer key stamp ans s = s ∨ ∃ n x, recordAnswer key stamp ans s = s.setCtx n x := by
  unfold recordAnswer
  split
  · dsimp only
    split_ifs
    · exact .inr ⟨_, _, rfl⟩
    · exact .inl rfl
  · exact .inl rfl

theorem Settled.recordAnswer (h : Settled s i) (key : Nat) (stamp : Word) (ans : Nat) :
    Settled (recordAnswer key stamp ans s) i := by
  obtain hr | ⟨n, x, hr⟩ := recordAnswer_cases key stamp ans s <;> rw [hr]
  · exact h
  · exact h.of_same rfl rfl

end

/-! ### `WAITS` (R82) -/

section
variable {s : State} {i : Nat} {mask : BitVec 8}

theorem waitsBody_illegal (h : isEngine i = false ∨ stHnd (s.rset i) = true ∨ mask = 0 ∨ mask.getLsbD 7 = true) :
    waitsBody i mask s = .trap Trap.illegal s := by
  refine if_pos ?_
  obtain h | h | h | h := h <;> simp [h]

variable (he : isEngine i = true) (hh : stHnd (s.rset i) = false) (h0 : mask ≠ 0) (h7 : mask.getLsbD 7 = false)
include he hh h0 h7

theorem waitsBody_ended (hd : storesDone (s.el i) = true) :
    waitsBody i mask s = .ended (endWaits i mask (s.setEl i { s.el i with resv := none })) := by
  have hd' : storesDone { s.el i with resv := none } = true := hd
  simp only [waitsBody, he, hh, h7, decide_eq_false h0, hd', Bool.not_true, Bool.or_self, Bool.false_eq_true, if_false,
    if_true]

theorem waitsBody_waits {r : Run} (hd : storesDone (s.el i) = false) (hr : (s.el i).run (s.el i).cur = some r) :
    waitsBody i mask s = .hold (s.setEl i
      (ElemState.putRun { s.el i with resv := none } (s.el i).cur (some { r with waiting := some mask }))) := by
  have hd' : storesDone { s.el i with resv := none } = false := hd
  have hr' : ElemState.run { s.el i with resv := none } (s.el i).cur = some r := hr
  simp only [waitsBody, he, hh, h7, decide_eq_false h0, hd', hr', Option.map_some, Bool.not_true, Bool.or_self,
    Bool.false_eq_true, if_false]

end

/-! ### `DCOMMIT` (R84) -/

section
variable {s s1 : State} {i n key : Nat} {t : Trap} {p : Place} {bs : List Byte}

theorem dcommitBody_core (he : isEngine i = false) : dcommitBody i s = .trap Trap.illegal s := if_pos (by simp [he])

variable (he : isEngine i = true)
include he

theorem dcommitBody_fault (hp : bankPlace i 16 false (fld (s.el i).bank 3 0) 0x60 s = .error t) :
    dcommitBody i s = .trap t s := by
  simp only [dcommitBody, he, hp, Bool.not_true, Bool.false_eq_true, if_false]

/-- What a bank that no axis is bound to answers. -/
theorem dcommitBody_no_axis (hp : bankPlace i 16 false (fld (s.el i).bank 3 0) 0x60 s = .ok p)
    (hb : (s.bank (i * 16 + fld (s.el i).bank 3 0)).ctx = none ∨
      (s.bank (i * 16 + fld (s.el i).bank 3 0)).cls.testBit 2 = true) :
    dcommitBody i s = .trap { code := 0x0A, sub := 1 } s := by
  simp only [dcommitBody, he, hp, Bool.not_true, Bool.false_eq_true, if_false]
  cases hc : (s.bank (i * 16 + fld (s.el i).bank 3 0)).ctx with
  | none => rfl
  | some n =>
    have hx : axisBank (s.bank (i * 16 + fld (s.el i).bank 3 0)) = false := by
      simpa [axisBank, hc] using hb
    simp only [hx, Bool.not_false, if_true]

theorem dcommitBody_done (hp : bankPlace i 16 false (fld (s.el i).bank 3 0) 0x60 s = .ok p)
    (hc : (s.bank (i * 16 + fld (s.el i).bank 3 0)).ctx = some n)
    (ha : (s.bank (i * 16 + fld (s.el i).bank 3 0)).cls.testBit 2 = false)
    (hr : memRead (elemMaster i p.sec) false .clean p.pa 16 s = (.ok bs, s1)) :
    dcommitBody i s = .done { s1 with
      axis.edges := s1.axis.edges ++ [{ axis := n, bytes := bs, bank := i * 16 + fld (s.el i).bank 3 0 }] } := by
  have hx : axisBank (s.bank (i * 16 + fld (s.el i).bank 3 0)) = true := by simp [axisBank, hc, ha]
  simp only [dcommitBody, he, hp, hc, hx, hr, Bool.not_true, Bool.false_eq_true, if_false]

end

/-- The place of an aligned bank-relative access, where the bank is not secure or the run is. -/
theorem bankPlace_aligned {s : State} {i n k off : Nat} {write : Bool} (ha : off % n = 0)
    (hw : (s.bank (i * 16 + k)).world = true → secNow (s.el i) = true) :
    bankPlace i n write k off s = .ok { pa := bankAddr (i * 16 + k) + off, sec := secNow (s.el i), mt := 1 } := by
  have hok : ((s.bank (i * 16 + k)).world && !secNow (s.el i)) = false := by
    cases h : (s.bank (i * 16 + k)).world with
    | false => rfl
    | true => rw [hw h]; rfl
  simp only [bankPlace, ha, hok, ne_eq, not_true, Bool.false_eq_true, if_false]

theorem bankPlace_of_ok {s : State} {i n k off : Nat} {write : Bool} {p : Place}
    (h : bankPlace i n write k off s = .ok p) :
    p = { pa := bankAddr (i * 16 + k) + off, sec := secNow (s.el i), mt := 1 } := by
  simp only [bankPlace] at h
  split_ifs at h
  exact (Except.ok.inj h).symm

/-- A fault of a bank-relative access is reported at the instruction itself. -/
theorem bankPlace_error_next {s : State} {i n k off : Nat} {write : Bool} {t : Trap}
    (h : bankPlace i n write k off s = .error t) : t.next = false := by
  simp only [bankPlace] at h
  split_ifs at h
  · exact (Except.error.inj h) ▸ rfl
  · exact (Except.error.inj h) ▸ rfl

/-! ### `SETPT` (R85, R249) -/

/-- The setpoint that the words of a block give. -/
abbrev setpointOf (ws : List Word) : Setpoint :=
  { pos := ws.getD 0 0, vel := ws.getD 1 0, torque := ws.getD 2 0, due := ws.getD 3 0, seq := ws.getD 4 0 }

section
variable {s s1 s2 : State} {i n ans : Nat} {rd ra : BitVec 5} {p : Place} {ws : List Word} {r : Run}

theorem setptBody_core (he : isEngine i = false) : setptBody i rd ra s = .trap Trap.illegal s :=
  if_pos (by simp [extOk_core he])

variable (hx : extOk i [rd, ra] = true)
include hx

theorem setptBody_misaligned (ha : ((s.rset i).gr ra.toNat).toNat % 4 ≠ 0) :
    setptBody i rd ra s = .trap (Trap.align ((s.rset i).gr ra.toNat)) s := by
  simp [setptBody, hx, ha]

variable (ha : ((s.rset i).gr ra.toNat).toNat % 4 = 0) (hp : setptPlace i ((s.rset i).gr ra.toNat) s = .ok p)
  (hw : setptWords i ((s.rset i).gr ra.toNat) 5 s = (.ok ws, s1)) (hr : (s1.el i).run (s1.el i).cur = some r)
include ha hp hw hr

/-- A second copy takes the answer that its first copy was given. -/
theorem setptBody_second (h2 : isSecondCopy s1 i = true) (hc : (s1.bank (runKey s1 i)).ctx = some n)
    (hs : secondAnswer (s1.ctx n) r.stamp r.sent = some ans) :
    setptBody i rd ra s =
      .done (putGr i rd.toNat (w32 ans) (setRun i (fun x => { x with sent := x.sent + 1 }) s1)) := by
  simp [setptBody, hx, ha, hp, hw, hr, h2, hc, hs]

/-- Any other run offers its block, and the answer is recorded. -/
theorem setptBody_first (h2 : isSecondCopy s1 i = false)
    (ho : offerSetpoint (secNow (s1.el i)) (fld ((s.rset i).gr rd.toNat) 7 0) (setpointOf ws) s1 = (ans, s2)) :
    setptBody i rd ra s = .done (putGr i rd.toNat (w32 ans) (recordAnswer (runKey s1 i) r.stamp ans
      (setRun i (fun x => { x with sent := x.sent + 1 }) s2))) := by
  simp only [setptBody, hx, if_neg (not_not_intro ha), hp, hw, hr, h2, ho, Bool.not_true, Bool.false_eq_true, if_false]

end

/-! ### The scheduler (R83, R87, R237) and the budget of a run (R238) -/

section
variable {s : State} {i n key : Nat} {r : Run} {mask : BitVec 8}

theorem runStart_starts (he : engineRuns s i = true) (ht : topRun (s.el i) = none) (hk : nextBank s i 2 = some key) :
    runStart i s = startRun key s := by
  simp [runStart, he, ht, hk]

theorem budgetOverrun_records (hr : runOf s i = some (n, key, r)) (ho : r.ovb = false)
    (hb : reqBudget s n * 800 < r.acc) : budgetOverrun i s =
      bump .sadl 0 (Sadl.CTX_OVB_CNT n) (sadlNotice 6 (axst n 6 (setRun i (fun x => { x with ovb := true }) s))) := by
  simp [budgetOverrun, hr, ho, hb]

theorem budgetKill_ends (hr : runOf s i = some (n, key, r)) (hb : 8 * reqBudget s n * 800 ≤ r.acc)
    (ha : awake s i = true) :
    budgetKill i s = boundary i true (endRun i (s.rset i).pc (bankFault key 2 (s.rset i).pc 0 s)) := by
  simp [budgetKill, hr, ha, hb]

variable (hr : (s.el i).run (s.el i).cur = some r)
include hr

theorem runEnd_ends (hw : r.waiting = some mask) (ha : awake s i = true) (hd : storesDone (s.el i) = true) :
    runEnd i s = boundary i true (endWaits i mask s) := by
  simp [runEnd, hr, hw, ha, hd]

theorem preempt_starts (he : engineRuns s i = true) (hc : (s.el i).cur ≠ 0) (hb : atBoundary s i = true)
    (hk : nextBank s i ((s.el i).cur - 1) = some key) : preempt i s =
      startRun key (s.setEl i ((s.el i).putRun (s.el i).cur
        (some { r with savedBank := (s.el i).bank, savedWorld := (s.el i).world }))) := by
  simp [preempt, hr, he, hc, hb, hk]

end

/-- Settles O19, by the body of each instruction and the condition of each row. -/
theorem runsAndEvents : Obligations.RunsAndEvents := by
  unfold Obligations.RunsAndEvents
  intro s s1 s2 g c rd ra mask bs n key ans r ws p t e q el w sp
  have he : isEngine g = true := isEngine_fin g
  have hx (hrd : rd.toNat < 16) (hra : ra.toNat < 16) : extOk g [rd, ra] = true := by simp [extOk, regsOk, hrd, hra]
  refine ⟨?ended, ?waitsIllegal, ?waits, ?core, ?misaligned, ?second, ?bankFault, ?dcommit, ?noAxis, ?first,
    fun hr ht hk => congrArg _ (runStart_starts hr ht hk), fun hr hw ha hd => congrArg _ (runEnd_ends hr hw ha hd),
    fun hr hg hc hb hk => congrArg _ (preempt_starts hr hg hc hb hk),
    fun hr ho hb => congrArg _ (budgetOverrun_records hr ho hb), fun hr hb ha => congrArg _ (budgetKill_ends hr hb ha)⟩
  case ended =>
    intro h hh h0 h7 hd
    refine congrArg Host.Outcome.next ((h.runInstr {} false _).trans ?_)
    exact congrArg (finish g {} false) (waitsBody_ended he hh h0 h7 hd)
  case waitsIllegal => exact fun h hc => exec_trap (sh := {}) rfl h (waitsBody_illegal (.inr hc))
  case waits =>
    intro h hh h0 h7 hd hr
    have hq := (h.settled.putRun none el.cur (some { r with waiting := some mask })).toQuiet
    refine congrArg Host.Outcome.next ((h.runInstr {} false _).trans ?_)
    exact (congrArg (finish g {} false) (waitsBody_waits he hh h0 h7 hd hr)).trans (boundary_quiet hq false)
  case core =>
    intro h hc x hm
    simp only [List.mem_cons, List.not_mem_nil, or_false] at hm
    obtain rfl | rfl | rfl := hm
    · exact exec_trap (sh := {}) rfl h (waitsBody_illegal (.inl hc))
    · exact exec_trap (sh := {}) rfl h (dcommitBody_core hc)
    · exact exec_trap (sh := {}) rfl h (setptBody_core hc)
  case misaligned => exact fun h hrd hra ha => exec_trap (sh := {}) rfl h (setptBody_misaligned (hx hrd hra) ha)
  case second =>
    intro h h1 hrd hra ha hp hw hr h2 hc hs
    have hb := setptBody_second (hx hrd hra) ha hp hw hr h2 hc hs
    exact exec_done (sh := {}) rfl h hb ((h1.settled.setRun _).putGr _ _)
  case bankFault => exact fun hp h => exec_trap (sh := {}) rfl h (dcommitBody_fault he hp) (bankPlace_error_next hp)
  case dcommit =>
    rintro h h1 rfl hc ha hp hr
    obtain rfl := bankPlace_of_ok hp
    have hb := dcommitBody_done he hp hc ha hr
    exact exec_done (sh := {}) rfl h hb (h1.settled.of_same rfl rfl)
  case noAxis =>
    rintro h rfl hb hw
    exact exec_trap (sh := {}) rfl h (dcommitBody_no_axis he (bankPlace_aligned rfl hw) hb)
  case first =>
    intro h h2 hrd hra ha hp hw hr h1 ho
    have hb := setptBody_first (hx hrd hra) ha hp hw hr h1 ho
    exact exec_done (sh := {}) rfl h hb (((h2.settled.setRun _).recordAnswer _ _ _).putGr _ _)

end Sys2Proof.Machine
end

section
/-! Compare slots (R113, R114): what a write of each of their registers gives, and a firing; then the statement about
them. -/

namespace Sys2Proof.Machine

section
variable {s : State} {m : Master} {n : Nat} {v : Word}

/-! ### Writes -/

/-- An access that leaves the state alone shows at most on the bus. -/
theorem exec_of_writes_self {c : Instr} {pa : Nat} (h : Writes c s m pa s) :
    exec c s = .next { s with resp := .ok 0 } ∨ exec c s = .next { s with resp := .err } := by
  cases hg : gateRefuses s m pa 4
  · exact .inl (h.1 hg)
  · exact .inr (h.2 hg)

/-- Only a secure slot refuses a write, and only a non-secure one. -/
theorem slotDenied_eq_false_iff :
    slotDenied s m n = false ↔ m.sec = true ∨ tb (s.rg (ra .tb (Tb.SLOT_CTRL n))) 30 = false := by
  cases hm : m.sec <;> simp [slotDenied, hm]

theorem slotArmed_iff : slotArmed s n = true ↔
    ((s.slot n).arm = true ∨ (s.slot n).firedAt = some s.time.selvedge) ∧ (s.slot n).pendArm ≠ some false := by
  simp [slotArmed]

theorem slotWrites_denied (h : slotDenied s m n = true) : slotLoWrite m n v s = (.ok 0, s) ∧
    slotHiWrite m n v s = (.ok 0, s) ∧ slotPerWrite m n v s = (.ok 0, s) ∧ slotCtrlWrite m n v s = (.ok 0, s) :=
  ⟨if_pos h, if_pos h, if_pos h, if_pos h⟩

section
variable (h : slotDenied s m n = false)
include h

theorem slotLoWrite_stages : slotLoWrite m n v s = (.ok 0, s.setSlot n { s.slot n with staged := v }) :=
  if_neg (by simp [h])

theorem slotHiWrite_arms : slotHiWrite m n v s =
    (.ok 0, s.setSlot n { s.slot n with pendValue := some (v ++ (s.slot n).staged), pendArm := some true }) :=
  if_neg (by simp [h])

theorem slotPerWrite_pends : slotPerWrite m n v s = (.ok 0, s.setSlot n { s.slot n with pendPer := some v }) :=
  if_neg (by simp [h])

/-- A 1 written to `ARM` of an armed slot changes nothing of the slot. -/
theorem slotCtrlWrite_armed (hv : tb v 31 = true) (ha : slotArmed s n = true) : slotCtrlWrite m n v s =
    (.ok 0, (plainWrite .tb 0 (Tb.SLOT_CTRL n) v m.sec s).setRgBit (ra .tb (Tb.SLOT_CTRL n)) 31 false) :=
  (if_neg (by simp [h])).trans (if_pos (by simp [hv, ha]))

/-- Any other write sets what `ARM` holds from the next tick on. -/
theorem slotCtrlWrite_pends (ha : tb v 31 = false ∨ slotArmed s n = false) : slotCtrlWrite m n v s =
    (.ok 0, ((plainWrite .tb 0 (Tb.SLOT_CTRL n) v m.sec s).setRgBit (ra .tb (Tb.SLOT_CTRL n)) 31 false).setSlot n
      { s.slot n with pendArm := some (tb v 31) }) :=
  (if_neg (by simp [h])).trans (if_neg (by simpa [imp_iff_not_or] using ha))

end

/-! ### Firing -/

theorem slotDue_iff : slotDue s n = true ↔ s.time.run = true ∧ (s.slot n).arm = true ∧
    reached 64 s.time.selvedge.toNat (s.slot n).value.toNat = true ∧ (s.slot n).firedAt ≠ some s.time.selvedge := by
  simp [slotDue, and_assoc]

end

/-- The registers of a slot that fires: `FIRED`, and `SLIP` where its value has been passed. -/
def slotFlags (n : Nat) (s : State) : State :=
  let t := (triggerSlot n (raiseEvent n s)).setRgBit (ra .tb (Tb.SLOT_CTRL n)) 0 true
  if s.time.selvedge = (s.slot n).value then t else t.setRgBit (ra .tb (Tb.SLOT_CTRL n)) 1 true

/-- The record of a slot that fires: a one-shot disarms, a periodic slot takes its next value. -/
def slotAfter (t : Slot) (now : DWord) : Slot :=
  if t.per = 0 then { t with arm := false, firedAt := some now }
  else { t with value := t.value + t.per.setWidth 64, firedAt := some now }

theorem slotFire_eq (n : Nat) (s : State) :
    slotFire n s = (slotFlags n s).setSlot n (slotAfter (s.slot n) s.time.selvedge) := by
  simp only [slotFire, slotFlags, slotAfter, ne_eq, ite_not]
  by_cases hp : (s.slot n).per = 0
  · rw [if_pos hp, if_pos hp]
  · rw [if_neg hp, if_neg hp]

/-! ### The statement -/

/-- Settles O21: each write is let through or ignored by the slot's world, and a due slot fires. -/
theorem compareSlots : Obligations.CompareSlots := by
  unfold Obligations.CompareSlots
  intro s m n v x a open_ armed ctrl fired slipped
  have armed_iff : armed ↔ slotArmed s n = true := slotArmed_iff.symm
  refine ⟨fun ho => ?opened, fun ho => ?denied, fun hr ha hv hf => ?fires⟩
  case opened =>
    have hd : slotDenied s m n = false := slotDenied_eq_false_iff.mpr ho
    refine ⟨writes_of _ (exec_slotLoWrite ..) (slotLoWrite_stages hd), writes_of _ (exec_slotHiWrite ..) (slotHiWrite_arms hd),
      writes_of _ (exec_slotPerWrite ..) (slotPerWrite_pends hd), fun h => ?_, fun h1 h2 => ?_⟩
    · exact writes_of _ (exec_slotCtrlWrite ..)
        (slotCtrlWrite_pends hd (h.imp_right fun h => Bool.eq_false_iff.mpr (mt armed_iff.mpr h)))
    · exact writes_of _ (exec_slotCtrlWrite ..) (slotCtrlWrite_armed hd h1 (armed_iff.mp h2))
  case denied =>
    have hd : slotDenied s m n = true := by simpa using mt slotDenied_eq_false_iff.mp ho
    obtain ⟨hlo, hhi, hper, hctrl⟩ := slotWrites_denied (v := v) hd
    intro c hc
    simp only [List.mem_cons, List.not_mem_nil, or_false] at hc
    obtain rfl | rfl | rfl | rfl := hc
    · exact exec_of_writes_self (writes_of _ (exec_slotLoWrite ..) hlo)
    · exact exec_of_writes_self (writes_of _ (exec_slotHiWrite ..) hhi)
    · exact exec_of_writes_self (writes_of _ (exec_slotPerWrite ..) hper)
    · exact exec_of_writes_self (writes_of _ (exec_slotCtrlWrite ..) hctrl)
  case fires =>
    exact congrArg _ ((if_pos (slotDue_iff.mpr ⟨hr, ha, hv, hf⟩)).trans (slotFire_eq n s))

end Sys2Proof.Machine
end

section
/-! Timers (R115–R117), software events (R121) and the slow-clock measure (R110): when each is due and what it gives;
then the statement about them. -/

namespace Sys2Proof.Machine

section
variable {s : State} {n k : Nat} {v : Word}

/-! ### Timers -/

theorem timerCtrlWrite_plain {sec : Bool} (h : tb (s.rg (ra .tim (Tim.CTRL n))) 0 = true ∨ tb v 0 = false) :
    timerCtrlWrite n v sec s = (.ok 0, plainWrite .tim 0 (Tim.CTRL n) v sec s) :=
  if_neg (by rcases h with h | h <;> simp only [h, Bool.not_true, Bool.false_and, Bool.and_false, Bool.false_eq_true,
    not_false_eq_true])

/-- A change of `EN` from 0 to 1 starts the timer. -/
theorem timerCtrlWrite_starts {sec : Bool} (h0 : tb (s.rg (ra .tim (Tim.CTRL n))) 0 = false) (h1 : tb v 0 = true) :
    timerCtrlWrite n v sec s = (.ok 0, timerStart n
      ((plainWrite .tim 0 (Tim.CTRL n) v sec s).setRgBit (ra .tim (Tim.CTRL n)) 0 false)) :=
  if_pos (by simp only [h0, h1, Bool.not_false, Bool.and_self])

/-- An event goes into flight and leaves the timers. -/
theorem raiseEvent_timer (e : Nat) (s : State) (n : Nat) : (raiseEvent e s).timer n = s.timer n := rfl

/-- A one-shot timer is disabled at its zero tick. -/
theorem timerZero_oneshot (h : tb (s.rg (ra .tim (Tim.CTRL n))) 2 = true) : timerZero n s =
    (((raiseEvent (0x200 + n) s).setRgBit (ra .tim (Tim.STAT n)) 8 true).setRgBit (ra .tim (Tim.CTRL n)) 0 false).setTimer n
      { s.timer n with zeroDue := false, reloadDue := false } := by
  simp only [timerZero, h, if_true, setRgBit_timer, raiseEvent_timer, Bool.not_true]

/-- Any other timer owes a reload after its zero tick. -/
theorem timerZero_reloads (h : tb (s.rg (ra .tim (Tim.CTRL n))) 2 = false) : timerZero n s =
    ((raiseEvent (0x200 + n) s).setRgBit (ra .tim (Tim.STAT n)) 8 true).setTimer n
      { s.timer n with zeroDue := false, reloadDue := true } := by
  simp only [timerZero, h, Bool.false_eq_true, if_false, setRgBit_timer, raiseEvent_timer, Bool.not_false]

theorem channelDue_iff : channelDue s n k = true ↔ (s.timer n).ticked = true ∧ (s.timer n).armed.getLsbD k = true ∧
    (2 ^ 31 ≤ (s.timer n).reload.toNat ∨ (timerCc (s.timer n) k).toNat ≤ (s.timer n).reload.toNat) ∧
    reached 32 (timerElapsed (s.timer n)).toNat (timerCc (s.timer n) k).toNat = true := by
  simp [channelDue, and_assoc]

/-! ### Software events (R121) -/

theorem swtrigWrite_raises (hl : 0x2C0 ≤ fld v 10 0) (hh : fld v 10 0 ≤ 0x2FF) :
    swtrigWrite v s = (.ok 0, raiseEvent (fld v 10 0) s) := if_pos ⟨hl, hh⟩

theorem swtrigWrite_ignored (h : fld v 10 0 < 0x2C0 ∨ 0x2FF < fld v 10 0) : swtrigWrite v s = (.ok 0, s) :=
  if_neg (by omega)

/-! ### The slow clock (R110) -/

theorem slowmeasDue_iff : slowmeasDue s = true ↔ s.time.run = true ∧ 32768 ≤ s.time.measSlow := by simp [slowmeasDue]

/-- A count within its limits is taken, and sets no flag. -/
theorem slowmeasTake_in_limits (hl : 799600000 ≤ s.time.measTicks) (hh : s.time.measTicks ≤ 800400000) :
    slowmeasTake s = { s.setRg (ra .tb Tb.SLOWMEAS) (w32 s.time.measTicks) with
      time.measTicks := 0, time.measSlow := 0 } :=
  if_neg (by omega)

end

/-! ### The statement -/

/-- Settles O22: each row acts where its condition holds, and leaves the state where it does not. -/
theorem timersAndSoftwareEvents : Obligations.TimersAndSoftwareEvents := by
  unfold Obligations.TimersAndSoftwareEvents
  intro s m n k v x c st wr up
  refine ⟨fun h => writes_of _ (exec_timerEnable ..) (timerCtrlWrite_plain h),
    fun h0 h1 => writes_of _ (exec_timerEnable ..) (timerCtrlWrite_starts h0 h1),
    writes_of _ (exec_timerCcWrite ..) rfl, fun hz => ?zero, fun hr hc => ?above, fun ht ha hc hr => ?fires,
    fun hl hh => writes_of _ (exec_swtrig ..) (swtrigWrite_raises hl hh),
    fun h => writes_of _ (exec_swtrig ..) (swtrigWrite_ignored h), fun h => ?early, fun hr hs hl hh => ?taken⟩
  case zero =>
    refine congrArg _ ((if_pos hz).trans ?_)
    cases h : tb (s.rg c) 2
    · exact timerZero_reloads h
    · exact timerZero_oneshot h
  case above =>
    refine congrArg _ (if_neg fun hd => ?_)
    obtain ⟨-, -, hb | hb, -⟩ := channelDue_iff.mp hd
    · exact absurd hb (Nat.not_le.mpr hr)
    · exact absurd hb (Nat.not_le.mpr hc)
  case fires => exact congrArg _ (if_pos (channelDue_iff.mpr ⟨ht, ha, hc, hr⟩))
  case early => exact congrArg _ (if_neg fun hd => absurd (slowmeasDue_iff.mp hd).2 (by omega))
  case taken => exact congrArg _ ((if_pos (slowmeasDue_iff.mpr ⟨hr, hs⟩)).trans (slowmeasTake_in_limits hl hh))

end Sys2Proof.Machine
end

section
/-! The event router (R122–R125): what becomes of the flight at the head by itself, and what its arrival gives at each
kind of destination; then the statement about them. -/

namespace Sys2Proof.Machine

/-! ### The flight at the head -/

theorem removeAt_head {α : Type} (x : α) (l : List α) : removeAt (x :: l) [0] = l := by
  have later : ((l.zipIdx 1).filter fun p => !([0] : List Nat).contains p.2) = l.zipIdx 1 :=
    List.filter_eq_self.mpr fun p hp => by
      have := List.le_snd_of_mem_zipIdx hp
      simp; omega
  rw [removeAt, List.zipIdx_cons, List.filter_cons_of_neg (by simp), Nat.zero_add, later, List.zipIdx_map_fst]

section
variable {want : Flight → Bool} {cs : List (Nat × Nat)} {s : State} {f : Flight} {rest : List Flight}

theorem deliver_none (h : s.time.flights = []) : deliver want [0] cs s = s := by simp [deliver, h]

/-- The flight at the head alone: it leaves the list, and is dropped, counted as refused, or arrives. -/
theorem deliver_head (h : s.time.flights = f :: rest) (hw : want f = true) : deliver want [0] cs s =
    if flightValid f = false then { s with time.flights := rest }
    else if flightRefused s f = true then dropEvent { s with time.flights := rest }
    else arrive f 1 cs { s with time.flights := rest } := by
  have hd : List.eraseDups [0] = [0] := rfl
  cases hv : flightValid f <;> cases hr : flightRefused s f <;> simp [deliver, h, hw, hv, hr, hd, removeAt_head]

theorem deliver_head_invalid (h : s.time.flights = f :: rest) (hw : want f = true) (hv : flightValid f = false) :
    deliver want [0] cs s = { s with time.flights := rest } := (deliver_head h hw).trans (if_pos hv)

theorem deliver_head_refused (h : s.time.flights = f :: rest) (hw : want f = true) (hv : flightValid f = true)
    (hr : flightRefused s f = true) : deliver want [0] cs s = dropEvent { s with time.flights := rest } :=
  ((deliver_head h hw).trans (if_neg (by simp [hv]))).trans (if_pos hr)

theorem deliver_head_arrives (h : s.time.flights = f :: rest) (hw : want f = true) (hv : flightValid f = true)
    (hr : flightRefused s f = false) : deliver want [0] cs s = arrive f 1 cs { s with time.flights := rest } :=
  ((deliver_head h hw).trans (if_neg (by simp [hv]))).trans (if_neg (by simp [hr]))

end

/-! ### The arrival -/

section
variable {f : Flight} {i n : Nat} {cs : List (Nat × Nat)} {s : State}

theorem arrive_source (hk : f.kind = 1) (hd : midDown s (f.dest / 512) = false) :
    arrive f n cs s = edgePend (f.dest / 512) (f.dest % 512) s := by
  simp only [arrive, hk]
  exact if_neg (by simp [hd])

/-- One occurrence arrives once at each bank, whatever cycles the command names. -/
theorem arrivalsAt_one (cs : List (Nat × Nat)) : arrivalsAt cs 1 = fun _ => 1 := by
  funext k
  unfold arrivalsAt
  split
  · omega
  · rfl

theorem arrive_context (hk : f.kind = 2) : arrive f 1 cs s = compareArrives f.dest (fun _ => 1) s := by
  simp only [arrive, hk, arrivalsAt_one]

theorem arrive_timer (hk : f.kind = 3) (ha : f.dest / 64 = i) : arrive f n cs s = timerAction i (f.dest % 64) s := by
  simp only [arrive, hk, ha]

theorem arrive_channel (hk : f.kind = 4) : arrive f n cs s = dmaRequest f.dest s := by simp only [arrive, hk]

theorem arrive_capture (hk : f.kind = 5) : arrive f n cs s = selvedgeCapture f.dest s := by simp only [arrive, hk]

end

/-! ### The statement -/

/-- Settles O23: the head flight is dropped, refused or delivered, and its arrival is that of its kind. -/
theorem eventDelivery : Obligations.EventDelivery := by
  unfold Obligations.EventDelivery
  intro s f rest cs s0 lone
  refine ⟨fun h => congrArg _ (deliver_none h), fun h hv => congrArg _ (deliver_head_invalid h rfl hv),
    fun h hv hr => congrArg _ (deliver_head_refused h rfl hv hr), fun h hv hr => ?_⟩
  have all : deliver (fun _ => true) [0] cs s = arrive f 1 cs s0 := deliver_head_arrives h rfl hv hr
  have timer {i : Nat} (hk : f.kind = 3) (ha : f.dest / 64 = i) :
      deliver (fun g => g.kind = 3 && g.dest / 64 = i) [0] [] s = timerAction i (f.dest % 64) s0 :=
    (deliver_head_arrives h (by simp [hk, ha]) hv hr).trans (arrive_timer hk ha)
  exact ⟨congrArg _ all, fun hk hd => congrArg _ (all.trans (arrive_source hk hd)),
    fun hk => congrArg _ (all.trans (arrive_context hk)), fun hk => congrArg _ (all.trans (arrive_channel hk)),
    fun hk => congrArg _ ((deliver_head_arrives h (by simp [hk]) hv hr).trans (arrive_capture hk)),
    fun hk ha => congrArg _ (timer hk ha), fun hk ha => congrArg _ (timer hk ha), fun hk ha => congrArg _ (timer hk ha),
    fun hk ha => congrArg _ (timer hk ha)⟩

end Sys2Proof.Machine
end

section
/-! Mailboxes (R128–R131): when an access is refused and what one that is not gives; then the statement about them. -/

namespace Sys2Proof.Machine

section
variable {s : State} {m : Master} {n k code : Nat} {v : Word}

/-! ### Refusals (R130) -/

/-- A bound channel bars no master of its world. -/
theorem mbxBarred_bound (hb : tb (mbxBind s n) 31 = true) (hw : m.sec = true ∨ tb (mbxBind s n) 30 = false) :
    mbxBarred s m n = none := by
  refine (if_neg (by simp [hb])).trans (if_neg ?_)
  rcases hw with hw | hw <;> simp only [hw, Bool.not_true, Bool.false_and, Bool.and_false, Bool.false_eq_true,
    not_false_eq_true]

theorem mbxMsgRefusal_sender (hb : mbxBarred s m n = none) (hs : mbxIsSender s m n = true) (hf : mbxState s n ≠ 1) :
    mbxMsgRefusal s m n = none := by
  rw [mbxMsgRefusal, hb]
  exact (if_neg (by simp [hs])).trans (if_neg hf)

theorem mbxSendRefusal_sender {len : Nat} (h : mbxMsgRefusal s m n = none) (h1 : 1 ≤ len) (h8 : len ≤ 8)
    (hd : midDown s (fld (mbxBind s n) 12 8) = false) : mbxSendRefusal s m n len = none := by
  rw [mbxSendRefusal, h]
  exact (if_neg (by omega)).trans (if_neg (by simp [hd]))

theorem mbxAckRefusal_receiver (hb : mbxBarred s m n = none) (hr : mbxIsReceiver s m n = true) (hf : mbxState s n = 1) :
    mbxAckRefusal s m n = none := by
  rw [mbxAckRefusal, hb]
  exact (if_neg (by simp [hr])).trans (if_neg (by simp [hf]))

/-! ### Accesses (R129) -/

theorem mbxMsgWrite_allowed (h : mbxMsgRefusal s m n = none) :
    mbxMsgWrite m n k v s = (.ok 0, s.setRg (ra .mbx (Mbx.MSG n k)) v) := by rw [mbxMsgWrite, h]

/-- The channel is FULL with its length, remembers the sender's world, and `ACK` reads a free value. -/
def mbxSent (m : Master) (n len : Nat) (s : State) : State :=
  ({ ({ s with free := s.free + 1 } : State).setRg (ra .mbx (Mbx.STATE n)) (w32 (len * 16 + 1)) with
    time.sendSec := Tbl.set (fun _ => false) s.time.sendSec n m.sec } : State).setRg (ra .mbx (Mbx.ACK n))
      (w32 (Config.freeNat s.free % 65536))

theorem mbxSend_allowed (h : mbxSendRefusal s m n (fld v 3 0) = none) :
    mbxSend m n v s = (.ok 0, raiseEvent (0x240 + n) (mbxSent m n (fld v 3 0) s)) := by
  simp only [mbxSend, h]
  rfl

theorem mbxAck_allowed (h : mbxAckRefusal s m n = none) : mbxAck m n v s = (.ok 0, raiseEvent (0x280 + n)
    ((s.setRg (ra .mbx (Mbx.ACK n)) (w32 (fld v 15 0))).setRgFld (ra .mbx (Mbx.STATE n)) 1 0 2)) := by
  simp only [mbxAck, h]

theorem mbxAck_refused (h : mbxAckRefusal s m n = some code) : mbxAck m n v s = (.err, mbxRecord m n code s) := by
  simp only [mbxAck, h, mbxRefuse]

/-- Below the channels, the block's registers are written by their types. -/
theorem mbxWrite_plain {o : Nat} (h : o < 0x1000) : mbxWrite m o v s = (.ok 0, plainWrite .mbx 0 o v m.sec s) := if_pos h

end

/-! ### The statement -/

/-- Settles O24: a party that the channel allows writes, sends or acknowledges, and a refused `ACK` is recorded. -/
theorem mailboxes : Obligations.Mailboxes := by
  unfold Obligations.Mailboxes
  intro s m n k v mid b st ack bound
  have open_ (h : bound) : mbxBarred s m n = none := mbxBarred_bound h.1 h.2
  refine ⟨fun hb hs hf => ?sender, fun hb hr hf => ?receiver, fun code hc hg => ?refused,
    writes_of _ (exec_mbxLock ..) (mbxWrite_plain (by decide)), rfl⟩
  case sender =>
    have hm : mbxMsgRefusal s m n = none := mbxMsgRefusal_sender (open_ hb) hs hf
    refine ⟨writes_of _ (exec_mbxMsgWrite ..) (mbxMsgWrite_allowed hm), fun h1 h8 hd => ⟨Config.freeNat s.free, ?_⟩⟩
    exact writes_of _ (exec_send ..) (mbxSend_allowed (mbxSendRefusal_sender hm h1 h8 hd))
  case receiver => exact writes_of _ (exec_ack ..) (mbxAck_allowed (mbxAckRefusal_receiver (open_ hb) hr hf))
  case refused =>
    refine congrArg _ ((if_neg (by simpa using hg)).trans ?_)
    rw [mbxAck_refused hc]

end Sys2Proof.Machine
end

section
/-! Interrupt controllers (R126, R127, R398): what writes of `SET`, `CLAIM` and `COMPLETE` and a sampled source give; then
the statement about them. -/

namespace Sys2Proof.Machine

section
variable {s : State} {m : Master} {t src : Nat} {v : Word}

/-! ### Numbers of sources -/

theorem fld_source (h : v.toNat < 512) : fld v 8 0 = v.toNat := Nat.mod_eq_of_lt h

/-- The number is that of a source that the master sees. -/
structure NamesSource (s : State) (m : Master) (t : Nat) (v : Word) : Prop where
  pos : 0 < v.toNat
  lt : v.toNat < 512
  seen : intcHidden s m t v.toNat = false

theorem setPend_source (h0 : 0 < src) (h : src < 512) :
    setPend t src s = s.setRgBit (ri .intc t (Intc.PEND (src / 32))) (src % 32) true := if_neg (by omega)

/-- Source 0 never becomes pending. -/
theorem setPend_zero : setPend t 0 s = s := if_pos (.inl rfl)

/-! ### Writes -/

section
variable (h : NamesSource s m t v)
include h

/-- The test that stands before a write of `CLAIM` and of `COMPLETE`. -/
theorem namesSource_passes :
    ¬ (v.toNat > 511 || fld v 8 0 = 0 || intcHidden s m t (fld v 8 0)) = true := by
  obtain ⟨h0, hl, hh⟩ := h
  simp only [fld_source hl, hh, Bool.or_false, Bool.or_eq_true, decide_eq_true_eq]
  omega

theorem intcSet_pends : intcSet m t v s =
    (.ok 0, s.setRgBit (ri .intc t (Intc.PEND (v.toNat / 32))) (v.toNat % 32) true) := by
  obtain ⟨h0, hl, hh⟩ := h
  have hg : ¬ (decide (v.toNat > 511) || intcHidden s m t v.toNat) = true := by simp [hh]; omega
  simp only [intcSet, fld_source hl, if_neg hg, setPend_source h0 hl]

theorem intcClaim_clears (he : edgeNow s t v.toNat = false) : intcClaim m t v s =
    (.ok 0, s.setRgBit (ri .intc t (Intc.PEND (v.toNat / 32))) (v.toNat % 32) false) := by
  refine (if_neg (namesSource_passes h)).trans ?_
  simp only [fld_source h.lt, he, Bool.false_eq_true, if_false]

/-- An edge sampled in the same controller cycle keeps the source pending. -/
theorem intcClaim_edge (he : edgeNow s t v.toNat = true) : intcClaim m t v s = (.ok 0, s) := by
  refine (if_neg (namesSource_passes h)).trans ?_
  simp only [fld_source h.lt, he, if_true]

theorem intcComplete_samples : intcComplete m t v s = (.ok 0, if sourceLevel s t v.toNat then
    s.setRgBit (ri .intc t (Intc.PEND (v.toNat / 32))) (v.toNat % 32) true else s) := by
  refine (if_neg (namesSource_passes h)).trans ?_
  simp only [fld_source h.lt, setPend_source h.pos h.lt]

end

section
variable (h : v.toNat = 0 ∨ 512 ≤ v.toNat ∨ intcHidden s m t v.toNat = true)
include h

/-- A number out of range, of source 0 or of a hidden source is stopped by that test. -/
theorem not_namesSource_stops : (v.toNat > 511 || fld v 8 0 = 0 || intcHidden s m t (fld v 8 0)) = true := by
  rcases h with h | h | h
  · simp [fld, h]
  · simp; omega
  · rcases Nat.lt_or_ge v.toNat 512 with hl | hl
    · simp [fld_source hl, h]
    · simp; omega

theorem intcClaim_ignored : intcClaim m t v s = (.ok 0, s) := if_pos (not_namesSource_stops h)

theorem intcComplete_ignored : intcComplete m t v s = (.ok 0, s) := if_pos (not_namesSource_stops h)

theorem intcSet_ignored : intcSet m t v s = (.ok 0, s) := by
  have hs := not_namesSource_stops h
  simp only [Bool.or_eq_true, decide_eq_true_eq] at hs
  dsimp only [intcSet]
  rcases hs with (hs | hs) | hs
  · exact if_pos (by simp [hs])
  · rw [hs, setPend_zero, ite_self]
  · exact if_pos (by simp [hs])

end

/-! ### Source edges -/

/-- The controller has sampled the source in its present cycle. -/
def sourceSampled (t src : Nat) (s : State) : State :=
  { s with time.sampledAt := Tbl.set (fun _ => 0) s.time.sampledAt (t * 512 + src) (intcCycle s t + 1) }

/-- Moreover its level is not that of the sample before. -/
def sourceChanged (t src : Nat) (now : Bool) (s : State) : State :=
  { sourceSampled t src s with time.samples := Tbl.set (fun _ => false) s.time.samples (t * 512 + src) now }

theorem sampleSource_again (h : sampledNow s t src = true) : sampleSource t src s = s := if_pos h

section
variable (h : sampledNow s t src = false)
include h

theorem sampleSource_same (hl : sourceLevel s t src = lastSample s t src) : sampleSource t src s = sourceSampled t src s :=
  (if_neg (by simp [h])).trans (if_pos hl)

theorem sampleSource_rises (ho : lastSample s t src = false) (hl : sourceLevel s t src = true) :
    sampleSource t src s = edgePend t src (sourceChanged t src true s) := by
  rw [sampleSource, hl]
  exact (if_neg (by simp [h])).trans (if_neg (by simp [ho]))

theorem sampleSource_falls (ho : lastSample s t src = true) (hl : sourceLevel s t src = false) :
    sampleSource t src s = sourceChanged t src false s := by
  rw [sampleSource, hl]
  exact (if_neg (by simp [h])).trans (if_neg (by simp [ho]))

end
end

/-! ### The statement -/

/-- Settles O25: a number that names a source has its effect and any other none, and a sample acts on its edge. -/
theorem interruptControllers : Obligations.InterruptControllers := by
  unfold Obligations.InterruptControllers
  intro s m t src v n pend old s0 s1
  refine ⟨fun h0 hl hh => ?named, fun h => ?other, fun h => congrArg _ (sampleSource_again h),
    fun h => ⟨fun hl => congrArg _ (sampleSource_same h hl), fun ho hl => ?rises, fun ho hl => ?falls⟩⟩
  case named =>
    have hn : NamesSource s m t v := ⟨h0, hl, hh⟩
    exact ⟨writes_of _ (exec_intcSet ..) (intcSet_pends hn),
      fun he => writes_of _ (exec_claim ..) (intcClaim_clears hn he),
      fun he => writes_of _ (exec_claim ..) (intcClaim_edge hn he),
      writes_of _ (exec_complete ..) (intcComplete_samples hn)⟩
  case other =>
    exact ⟨writes_of _ (exec_intcSet ..) (intcSet_ignored h), writes_of _ (exec_claim ..) (intcClaim_ignored h),
      writes_of _ (exec_complete ..) (intcComplete_ignored h)⟩
  case rises =>
    have hs : s1 = sourceChanged t src true s := by simp only [s1, ho]; rfl
    exact congrArg _ ((sampleSource_rises h ho hl).trans (by rw [hs]))
  case falls =>
    have hs : s1 = sourceChanged t src false s := by simp only [s1, ho]; rfl
    exact congrArg _ ((sampleSource_falls h ho hl).trans hs.symm)

end Sys2Proof.Machine
end

section
/-! Why the statement on the sample path fails: its clause on the initial calibration (R144) asks nothing of a held
reset, in which the device does nothing (R429, log entry 22). -/

namespace Sys2Proof.Machine

/-- While a reset is held the initial calibration does not begin. -/
theorem exec_initialCalibration_inReset {s : State} (h : inReset s = true) (cs : List CalRun) :
    exec (.initialCalibration cs) s = .next s :=
  congrArg _ (if_neg fun ⟨_, hr, _⟩ => by simp [h] at hr)

/-- The device held in its reset by the temperature of a die (R429): `MODE` shows CONFIGURE, as after any reset. -/
def heldInReset : State := { State.reset with power.held := true }

/-- Refutes O27: in a held reset the mode is CONFIGURE and the pool is not ready, and the row leaves the state, where
the clause on the initial calibration, here one that every converter fails, has `READY` set. -/
theorem not_sampling : ¬ Obligations.Sampling := by
  unfold Obligations.Sampling
  intro h
  obtain ⟨-, -, -, -, -, -, -, -, -, -, -, calibrates⟩ :=
    h heldInReset heldInReset { mid := 0 } 0 0 [] { bridge := 0, time := 0, first := [], second := [] } (fun _ => 0) 0
  have stays := Host.Outcome.next.inj
    ((exec_initialCalibration_inReset rfl []).symm.trans (calibrates (by decide) (by decide)))
  exact absurd (congrArg poolReady stays) (by decide +kernel)

end Sys2Proof.Machine
end

section
/-! What the end of a calibration, a step time of the rotation and the age check do, one lemma for each outcome
(R139, R145–R147). -/

namespace Sys2Proof.Machine

/-! ### The end of a calibration (R139, R146) -/

/-- Converter `n` shows that its calibration has ended now. -/
def calTimed (n : Nat) (s : State) : State := s.setRg (ra .conv (Conv.CV_CALTIME n)) (w32 s.time.selvedge.toNat)

/-- The failures in a row of converter `n` with the one that ends now. -/
def calFailures (s : State) (n : Nat) : Nat := fld (s.rg (ra .conv (Conv.CV_STATE n))) 9 8 + 1

/-- The calibration of converter `n` has failed: the failure is counted, and its coefficients stay. -/
def calFailed (n : Nat) (s : State) : State :=
  ((calTimed n s).setRgFld (ra .conv (Conv.CV_STATE n)) 9 8 (calFailures s n)).setCv n
    { (calTimed n s).cv n with good := false }

/-- The coefficients that converter `n` has been given are in place, and its failures are forgotten. -/
def calFitted (n : Nat) (c : Int × Int × List Int) (s : State) : State :=
  (putCoefs n c (calTimed n s)).setRgFld (ra .conv (Conv.CV_STATE n)) 9 8 0

section
variable {s : State} {n : Nat} {r : CalRun}

theorem calibrationEnd_passed {c : Int × Int × List Int} (h : r.bind calFit = some c) : calibrationEnd n r s =
    setRole n 3 ((calFitted n c s).setCv n { (calFitted n c s).cv n with passedAt := s.time.selvedge, good := true }) := by
  unfold calibrationEnd
  rw [h]
  rfl

theorem calibrationEnd_retries (h : r.bind calFit = none) (hk : calFailures s n < 2) :
    calibrationEnd n r s = enterCal n (calFailed n s) := by
  unfold calibrationEnd
  rw [h]
  exact if_neg (Nat.not_le_of_lt hk)

theorem calibrationEnd_fenced (h : r.bind calFit = none) (hk : 2 ≤ calFailures s n) :
    calibrationEnd n r s = fenceCv n 2 (calFailed n s) := by
  unfold calibrationEnd
  rw [h]
  exact if_pos hk

end

/-! ### The converter of the oldest calibration (R145) -/

/-- Of a converter held so far and converter `n`, the one of the older calibration: the former on a tie. -/
def olderOf (s : State) (held : Option Nat) (n : Nat) : Option Nat :=
  match held with
  | none => some n
  | some m => if newer 64 (s.cv m).passedAt.toNat (s.cv n).passedAt.toNat then some n else some m

/-- Converter `o` has an older calibration than every other converter of a list, under the half-range rule. -/
structure Oldest (s : State) (l : List Nat) (o : Nat) : Prop where
  mem : o ∈ l
  notNewer : ∀ m ∈ l, newer 64 (s.cv o).passedAt.toNat (s.cv m).passedAt.toNat = false
  older : ∀ m ∈ l, m ≠ o → newer 64 (s.cv m).passedAt.toNat (s.cv o).passedAt.toNat = true

/-- No time is ahead of itself. -/
theorem newer_self (w a : Nat) : newer w a a = false := by simp [newer]

section
variable {s : State} {o : Nat}

/-- Once held, a converter that none of the others is older than stays held. -/
theorem olderOf_keeps {l : List Nat} (h : ∀ m ∈ l, newer 64 (s.cv o).passedAt.toNat (s.cv m).passedAt.toNat = false) :
    l.foldl (olderOf s) (some o) = some o := by
  induction l with
  | nil => rfl
  | cons x xs ih =>
    have hx : olderOf s (some o) x = some o := if_neg (by simp [h x])
    rw [List.foldl_cons, hx]
    exact ih fun m hm => h m (.tail _ hm)

/-- It is held when its turn comes, whichever of the others was held before. -/
theorem olderOf_takes {held : Option Nat}
    (h : ∀ m, held = some m → m ≠ o → newer 64 (s.cv m).passedAt.toNat (s.cv o).passedAt.toNat = true) :
    olderOf s held o = some o := by
  cases held with
  | none => rfl
  | some m =>
    obtain rfl | hm := eq_or_ne m o
    · exact ite_self _
    · exact if_pos (h m rfl hm)

theorem olderOf_or (held : Option Nat) (n : Nat) : olderOf s held n = some n ∨ olderOf s held n = held := by
  cases held with
  | none => exact .inl rfl
  | some m => exact ite_eq_or_eq ..

theorem Oldest.foldl_from {l : List Nat} (h : Oldest s l o) {held : Option Nat}
    (hb : ∀ m, held = some m → m ≠ o → newer 64 (s.cv m).passedAt.toNat (s.cv o).passedAt.toNat = true) :
    l.foldl (olderOf s) held = some o := by
  obtain ⟨hmem, hn, ho⟩ := h
  induction l generalizing held with
  | nil => exact absurd hmem List.not_mem_nil
  | cons x xs ih =>
    rw [List.foldl_cons]
    obtain rfl | hx := eq_or_ne x o
    · rw [olderOf_takes hb]
      exact olderOf_keeps fun m hm => hn m (.tail _ hm)
    · refine ih ?_ ((List.mem_cons.mp hmem).resolve_left hx.symm) (fun m hm => hn m (.tail _ hm))
        (fun m hm => ho m (.tail _ hm))
      intro m hm hne
      obtain h | h := olderOf_or (s := s) held x
      · obtain rfl := Option.some.inj (h.symm.trans hm)
        exact ho x (.head _) hne
      · exact hb m (h.symm.trans hm) hne

theorem Oldest.foldl {l : List Nat} (h : Oldest s l o) : l.foldl (olderOf s) none = some o := h.foldl_from nofun

end

/-! ### A step time of the rotation (R145, R147) -/

/-- The next step time is set, one interval from now. -/
def rotationBegun (s : State) : State := { s with conv.nextStep := s.time.selvedge + w64 (rotInterval s) }

/-- Nothing may rotate: no calibrated pool, rotation off, a step in progress, too few usable converters or none in
WAIT. -/
def rotationRests (s : State) : Bool :=
  !poolReady s || !rotOn s || s.conv.step.isSome || usableCvs s < 25 || inRole s 3 = 0

theorem rotationRests_iff (s : State) : rotationRests s = true ↔
    poolReady s = false ∨ rotOn s = false ∨ s.conv.step.isSome = true ∨ usableCvs s < 25 ∨ inRole s 3 = 0 := by
  simp [rotationRests, or_assoc]

/-- The converters that the rotation may take out: LIVE or in WAIT, and not held back. -/
def rotatableCvs (s : State) : List Nat :=
  (List.range 28).filter (fun n => (cvRole s n = 1 || cvRole s n = 3) && (s.cv n).skipHold = 0)
/-- The converters in WAIT. -/
def waitingCvs (s : State) : List Nat := (List.range 28).filter (fun n => cvRole s n = 3)

theorem mem_rotatableCvs {s : State} {n : Nat} :
    n ∈ rotatableCvs s ↔ n < 28 ∧ (cvRole s n = 1 ∨ cvRole s n = 3) ∧ (s.cv n).skipHold = 0 := by
  simp [rotatableCvs]

theorem mem_waitingCvs {s : State} {n : Nat} : n ∈ waitingCvs s ↔ n < 28 ∧ cvRole s n = 3 := by
  simp [waitingCvs]

/-- One step of the rotation less holds converter `n` back. -/
def holdTick (s : State) (n : Nat) : State :=
  if (s.cv n).skipHold = 0 then s else s.setCv n { s.cv n with skipHold := (s.cv n).skipHold - 1 }

/-- The outgoing converter `out`, chosen in `s`, enters CAL, or hands its channels over to `inc`; `ticked` is the state
in which the step has counted. -/
def rotationTurn (out inc : Option Nat) (s ticked : State) : State :=
  match out with
  | none => ticked
  | some o =>
    if cvRole s o = 3 then enterCal o ticked
    else
      match inc with
      | none => ticked
      | some i => handoverNext { out := o, inc := i, todo := heldBy s o } ticked

section
variable {s : State}

theorem rotationStep_rests (h : rotationRests s = true) : rotationStep s = rotationBegun s := if_pos h

/-- Where no converter is held back, there is none to count down. -/
theorem holdTicks_none {l : List Nat} (h : ∀ n ∈ l, (s.cv n).skipHold = 0) : l.foldl holdTick s = s := by
  induction l with
  | nil => rfl
  | cons x xs ih =>
    have hx : holdTick s x = s := if_pos (h x (.head _))
    rw [List.foldl_cons, hx]
    exact ih fun n hn => h n (.tail _ hn)

section
variable (hr : rotationRests s = false) (hs : ∀ n < 28, (s.cv n).skipHold = 0)
include hr hs

theorem rotationStep_turns : rotationStep s = rotationTurn ((rotatableCvs s).foldl (olderOf s) none)
    ((waitingCvs s).foldl (olderOf s) none) (rotationBegun s) (rotationBegun s) := by
  have held : (List.range 28).foldl holdTick (rotationBegun s) = rotationBegun s :=
    holdTicks_none (s := rotationBegun s) fun n hn => hs n (List.mem_range.mp hn)
  have turn : rotationStep s = rotationTurn ((rotatableCvs s).foldl (olderOf s) none)
      ((waitingCvs s).foldl (olderOf s) none) (rotationBegun s) ((List.range 28).foldl holdTick (rotationBegun s)) :=
    if_neg (ne_true_of_eq_false hr)
  rw [turn, held]

theorem rotationStep_calibrates {o : Nat} (ho : Oldest s (rotatableCvs s) o) (h3 : cvRole s o = 3) :
    rotationStep s = enterCal o (rotationBegun s) := by
  rw [rotationStep_turns hr hs, ho.foldl]
  exact if_pos h3

theorem rotationStep_hands_over {o i : Nat} (ho : Oldest s (rotatableCvs s) o) (h1 : cvRole s o = 1)
    (hi : Oldest s (waitingCvs s) i) :
    rotationStep s = handoverNext { out := o, inc := i, todo := heldBy s o } (rotationBegun s) := by
  rw [rotationStep_turns hr hs, ho.foldl, hi.foldl]
  exact if_neg (by rw [show cvRole (rotationBegun s) o = 1 from h1]; decide)

end
end

/-! ### The age check (R147) -/

section
variable {s : State}

/-- Some LIVE converter's calibration is older than `CALCFG` allows. -/
def calTooOld (s : State) : Bool := (List.range 28).any fun n =>
  cvRole s n = 1 && (s.time.selvedge - (s.cv n).passedAt).toNat > fld (s.rg (ra .conv Conv.CALCFG)) 15 0 * 800000

theorem calTooOld_iff : calTooOld s = true ↔ ∃ n < 28, cvRole s n = 1 ∧
    fld (s.rg (ra .conv Conv.CALCFG)) 15 0 * 800000 < (s.time.selvedge - (s.cv n).passedAt).toNat := by
  simp [calTooOld]

theorem calAgeCheck_young (h : calTooOld s = false) : calAgeCheck s = s := if_neg (ne_true_of_eq_false h)
theorem calAgeCheck_old (h : calTooOld s = true) : calAgeCheck s = convNotice 2 s := if_pos h

end

/-! ### The statement -/

/-- Settles O28: a calibration's end, a step time and the age check each have the outcome of their case. -/
theorem calibrationAndRotation : Obligations.CalibrationAndRotation := by
  unfold Obligations.CalibrationAndRotation
  intro s n levels c o i st done ms step begun timed k failed fitted resting
  have due_iff : (decide (cvRole s n = 2) && reached 64 s.time.selvedge.toNat (s.cv n).calDue.toNat) = true ↔
      cvRole s n = 2 ∧ done := by simp [done]
  have ended (h2 : cvRole s n = 2) (hd : done) {t : State} (h : calibrationEnd n levels s = t) :
      exec (.calibrationEnd n levels) s = .next t := congrArg _ ((if_pos (due_iff.mpr ⟨h2, hd⟩)).trans h)
  have turned (hd : rotationDue s = true) {t : State} (h : rotationStep s = t) : exec .rotationStep s = .next t :=
    congrArg _ ((if_pos hd).trans h)
  refine ⟨fun h => congrArg _ (if_neg (mt due_iff.mp (not_and_or.mpr h))),
    fun h2 hd hf => ended h2 hd (calibrationEnd_passed hf),
    fun h2 hd hf hk => ended h2 hd (calibrationEnd_retries hf hk),
    fun h2 hd hf hk => ended h2 hd (calibrationEnd_fenced hf hk),
    fun hd => congrArg _ (if_neg (ne_true_of_eq_false hd)),
    fun hd hr => turned hd (rotationStep_rests ((rotationRests_iff s).mpr hr)), ?turns,
    fun h => congrArg _ (if_neg (by simpa [calAgeDue] using h)), ?young, ?old⟩
  case turns =>
    intro hd hr hs hlt hn hold
    have rests : rotationRests s = false := Bool.eq_false_iff.mpr (mt (rotationRests_iff s).mp hr)
    have oldest (h : cvRole s o = 1 ∨ cvRole s o = 3) : Oldest s (rotatableCvs s) o := {
      mem := mem_rotatableCvs.mpr ⟨hlt, h, hs o hlt⟩
      notNewer := fun m hm => have ⟨h28, hrole, _⟩ := mem_rotatableCvs.mp hm; hn m h28 hrole
      older := fun m hm => have ⟨h28, hrole, _⟩ := mem_rotatableCvs.mp hm; hold m h28 hrole }
    refine ⟨fun h3 => turned hd (rotationStep_calibrates rests hs (oldest (.inr h3)) h3), fun h1 hi h3 hw => ?_⟩
    have incoming : Oldest s (waitingCvs s) i := {
      mem := mem_waitingCvs.mpr ⟨hi, h3⟩
      notNewer := fun m hm => by
        obtain ⟨h28, hrole⟩ := mem_waitingCvs.mp hm
        obtain rfl | hne := eq_or_ne m i
        · exact newer_self ..
        · exact (hw m h28 hrole hne).1
      older := fun m hm hne => have ⟨h28, hrole⟩ := mem_waitingCvs.mp hm; (hw m h28 hrole hne).2 }
    exact turned hd (rotationStep_hands_over rests hs (oldest (.inl h1)) h1 incoming)
  case young =>
    intro h
    have young : calTooOld s = false := Bool.eq_false_iff.mpr fun ht =>
      have ⟨m, hm, h1, hlt⟩ := calTooOld_iff.mp ht
      absurd (h m hm h1) (Nat.not_le_of_lt hlt)
    exact congrArg _ ((congrArg (ite _ · s) (calAgeCheck_young young)).trans (ite_self s))
  case old =>
    exact fun h h1 hage => congrArg _ ((if_pos (by simpa [calAgeDue] using h)).trans
      (calAgeCheck_old (calTooOld_iff.mpr ⟨n, n.isLt, h1, hage⟩)))

end Sys2Proof.Machine
end

section
/-! What a comparator's edge, a trip input's samples, a sweep and a wake comparator do, one lemma for each outcome
(R150–R155). -/

namespace Sys2Proof.Machine

/-! ### Windows (R150) -/

section
variable {s : State} {i v : Nat} {hard : Bool}

/-- A window is out above `HI`, below `LO` or where none is left, and one that was out stays out until the level is
inside both by the hysteresis. -/
theorem windowOut_iff {thr hyst v : Nat} {was : Bool} : windowOut thr hyst was v = true ↔
    thr / 2 ^ 16 % 4096 < thr % 4096 ∨ thr / 2 ^ 16 % 4096 * 16 < v ∨ v < thr % 4096 * 16 ∨
      (was = true ∧ ¬ (v + hyst * 16 < thr / 2 ^ 16 % 4096 * 16 ∧ (thr % 4096 + hyst) * 16 < v)) := by
  unfold windowOut
  generalize thr / 2 ^ 16 % 4096 = hi, thr % 4096 = lo
  by_cases h : hi < lo
  · simp [h]
  · by_cases ho : hi * 16 < v ∨ v < lo * 16
    · simp [ho, ← or_assoc]
    · obtain ⟨h1, h2⟩ := not_or.mp ho
      simp [h, h1, h2, imp_iff_not_or]

/-- The window that a comparator follows when no write is on its way: that of its registers, the hard one for a soft
comparator that stands in. -/
theorem comparatorAt_settled (h : pastWindows s i = []) : comparatorAt s i hard v =
    windowOut (s.rg (ra .cmp (if hard || standIn s i then Cmp.HARD i else Cmp.SOFT i))).toNat
      (fld (s.rg (ra .cmp (Cmp.CFG i))) 10 8) (if hard then hardRaw s i else softRaw s i) v := by
  simp only [comparatorAt, windowInForce, h, List.headD_nil, windowsNow]
  split <;> rfl

/-- After a write it is the oldest of those that the input has not yet left. -/
theorem comparatorAt_written {y : PastWindow} {ys : List PastWindow} (h : pastWindows s i = y :: ys) :
    comparatorAt s i hard v = windowOut (if hard || standIn s i then y.hard else y.soft) y.hyst
      (if hard then hardRaw s i else softRaw s i) v := by
  simp only [comparatorAt, windowInForce, h, List.headD_cons]

/-! ### Edges of a comparator (R150–R152) -/

/-- The output of a comparator goes to `out` at level `v` of its input, and its bridge sees it. -/
def comparatorGoes (i : Nat) (hard out : Bool) (v : Nat) (s : State) : State :=
  evalAfterEdges (i / 2) (setRaw i hard out { s with conv.level := Tbl.set (fun _ => 0) s.conv.level i v })

/-- An edge that the window does not give changes nothing. -/
theorem comparatorSet_eq (out : Bool) : comparatorSet i hard out v s =
    if comparatorAt s i hard v = out then comparatorGoes i hard out v s else s :=
  ite_not ..

end

/-! ### Trip inputs (R152) -/

section
variable {s : State} {t n : Nat} {on : Bool}

/-- The filter's count of samples. -/
abbrev tripFilt (s : State) (t : Nat) : Nat := fld (s.rg (ra .cmp (Cmp.TRIPIN t))) 7 0
/-- The filtered state of a trip input. -/
abbrev tripAct (s : State) (t : Nat) : Bool := Tbl.get (fun _ => false) s.conv.tripAct t
/-- The level of a trip input as it is sampled. -/
abbrev tripIn (s : State) (t : Nat) : Bool := Tbl.get (fun _ => false) s.conv.tripIn t

theorem tripIn_tripSample : tripIn (tripSample t on n s) t = on := Tbl.get_set_self ..

/-- The tick from which an input has had its level, once it has been sampled. -/
theorem tripSince_tripSample : Tbl.get (fun _ => 0) (tripSample t on n s).conv.tripSince t =
    if tripIn s t = on then min (Tbl.get (fun _ => 0) s.conv.tripSince t) (coarse s + 1 - n) else coarse s + 1 - n :=
  Tbl.get_set_self ..

/-- The filtered state changes where the samples have another level, and have had it for `FILT` + 1 ticks. -/
theorem tripChanges_tripSample : tripChanges (tripSample t on n s) t = true ↔ on ≠ tripAct s t ∧
    Tbl.get (fun _ => 0) (tripSample t on n s).conv.tripSince t + tripFilt s t + 1 ≤ coarse s + 1 := by
  have h : tripChanges (tripSample t on n s) t = (tripIn (tripSample t on n s) t != tripAct s t &&
      Tbl.get (fun _ => 0) (tripSample t on n s).conv.tripSince t + tripFilt s t + 1 ≤ coarse s + 1) := rfl
  rw [h, tripIn_tripSample]
  simp

/-- Samples of the level that the filter has already given change nothing, nor do too few of a new level. -/
theorem tripSet_samples (h : tripAct s t = on ∨ tripIn s t = !on ∧ n ≤ tripFilt s t) :
    tripSet t on n s = tripSample t on n s := by
  refine if_neg (mt tripChanges_tripSample.mp ?_)
  rintro ⟨hne, hle⟩
  obtain hl | ⟨hl, hn⟩ := h
  · exact hne hl.symm
  · rw [tripSince_tripSample, if_neg (by simp [hl])] at hle
    omega

section
variable (ha : tripAct s t = !on) (hf : tripFilt s t < n) (hn : n ≤ coarse s + 1)
include ha hf hn

theorem tripChanges_held : tripChanges (tripSample t on n s) t = true := by
  refine tripChanges_tripSample.mpr ⟨by simp [ha], ?_⟩
  rw [tripSince_tripSample]
  split <;> omega

/-- Enough samples of a new level change the filtered state, and every bridge sees it. -/
theorem tripSet_filters : tripSet t on n s =
    (List.range 12).foldl (fun u b => evalAfterEdges b u) (tripFilter t (tripSample t on n s)) :=
  if_pos (tripChanges_held ha hf hn)

theorem tripFilter_tripSample : tripFilter t (tripSample t on n s) =
    if on && tb (s.rg (ra .cmp (Cmp.TRIPIN t))) 31 then tripRaised t (tripLevel t on (tripSample t on n s))
    else tripLevel t on (tripSample t on n s) := by
  refine (if_neg (by simp [tripChanges_held ha hf hn])).trans ?_
  rw [show Tbl.get (fun _ => false) (tripSample t on n s).conv.tripIn t = on from tripIn_tripSample]
  rfl

end

/-- A hard trip alone brings the bridge into its safe state. -/
theorem applyTrips_hard {b : Nat} (h : bridgeTrips s b = (false, true)) : applyTrips b s =
    enterSafe b 1 ((pwmFlag b 15 s).setBr b { (pwmFlag b 15 s).br b with tripSoft := false, tripHard := true }) := by
  unfold applyTrips
  rw [h]
  simp

end

/-! ### Sweeps (R154) -/

section
variable {s : State} {i : Nat} {hard crossed : Bool}

/-- The sweep of input `i` has begun, with the mean code of its channel. -/
def sweepBegun (i : Nat) (hard : Bool) (s : State) : State :=
  let h := Tbl.get (fun _ => []) s.conv.hist (3 * (i / 2) + i % 2)
  { s with conv.sweep := some { input := i, hard := hard, m := (h.foldl (· + ·) 0 + 64) / 128,
                                due := s.time.selvedge + w64 sweepTicks } }

theorem sweepStart_refused (h : s.conv.sweep.isSome = true ∨ steady s i = false ∨
    hard = true ∧ tb (s.rg (ra .cmp (Cmp.STAT i))) 6 = true) : sweepStart i hard s = s :=
  if_pos (by simpa [or_assoc] using h)

section
variable (hn : s.conv.sweep = none) (hs : steady s i = true)
include hn hs

theorem sweepStart_soft : sweepStart i false s = evalAfterEdges (i / 2) (sweepBegun i false s) :=
  if_neg (by simp [hn, hs])

/-- The soft comparator takes over the hard one's thresholds and its output. -/
theorem sweepStart_hard (hf : tb (s.rg (ra .cmp (Cmp.STAT i))) 6 = false) : sweepStart i true s =
    evalAfterEdges (i / 2) (setRaw i false (hardRaw s i) ((sweepBegun i true s).setRgBit (ra .cmp (Cmp.STAT i)) 4 true)) :=
  if_neg (by simp only [hn, hs, hf]; decide)

end

/-- The sweep goes on with its next step. -/
def Sweep.next (w : Sweep) : Sweep := { w with step := w.step + 1, due := w.due + w64 sweepTicks }
/-- The first crossing of the threshold that the present step tries is noted. -/
def Sweep.noting (w : Sweep) (crossed : Bool) : Sweep :=
  if w.step < 17 then (if crossed && w.hiAt.isNone then { w with hiAt := some w.step } else w)
  else (if crossed && w.loAt.isNone then { w with loAt := some (w.step - 17) } else w)

theorem Sweep.noting_high {w : Sweep} (h : w.step < 17) :
    w.noting crossed = { w with hiAt := if crossed && w.hiAt.isNone then some w.step else w.hiAt } := by
  rw [Sweep.noting, if_pos h]
  split <;> rfl

theorem Sweep.noting_low {w : Sweep} (h : 17 ≤ w.step) :
    w.noting crossed = { w with loAt := if crossed && w.loAt.isNone then some (w.step - 17) else w.loAt } := by
  rw [Sweep.noting, if_neg (Nat.not_lt_of_le h)]
  split <;> rfl

section
variable {w : Sweep} (hw : s.conv.sweep = some w) (hs : steady s w.input = true)
include hw hs

theorem sweepStep_steady : sweepStep crossed s = if w.step ≥ 33 then sweepJudge (w.noting crossed) s
    else { s with conv.sweep := some { w.noting crossed with step := w.step + 1, due := w.due + w64 sweepTicks } } := by
  unfold sweepStep
  rw [hw]
  exact if_neg (by simp [hs])

theorem sweepStep_high (hl : w.step < 17) : sweepStep crossed s = { s with
    conv.sweep := some { w.next with hiAt := if crossed && w.hiAt.isNone then some w.step else w.hiAt } } := by
  rw [sweepStep_steady hw hs, if_neg (by omega), Sweep.noting_high hl]
  rfl

theorem sweepStep_low (hg : 17 ≤ w.step) (hl : w.step < 33) : sweepStep crossed s = { s with
    conv.sweep := some { w.next with loAt := if crossed && w.loAt.isNone then some (w.step - 17) else w.loAt } } := by
  rw [sweepStep_steady hw hs, if_neg (by omega), Sweep.noting_low hg]
  rfl

theorem sweepStep_last (h : w.step = 33) : sweepStep false s = sweepJudge w s := by
  rw [sweepStep_steady hw hs, if_pos (by omega), Sweep.noting_low (by omega)]
  rfl

end
end

/-! ### Wake comparators (R155) -/

section
variable {s : State} {w v n : Nat} (he : tb (s.rg (ra .cmp (Cmp.WAKE w))) 31 = true)
  (hc : tb (s.rg (ra .pmu Pmu.CLKSTAT)) 30 = false) (hm : opMode s ≠ 0)
include he hc hm

/-- A comparator whose input is on the side, and for long enough where it becomes active, takes the state. -/
theorem wakeComparator_takes {active : Bool} (hv : wakeSide s w v active = true)
    (hn : active = true → fld (s.rg (ra .cmp (Cmp.WAKE w))) 3 0 < n) : wakeComparator w active v n s =
      if active && !tb (s.rg (ra .cmp Cmp.WAKESTAT)) (8 + w) then wakeSource (4 + w) (raiseEvent (0x334 + w)
        ((s.setRgBit (ra .cmp Cmp.WAKESTAT) (8 + w) active).setRgBit (ra .cmp Cmp.WAKESTAT) w true))
      else s.setRgBit (ra .cmp Cmp.WAKESTAT) (8 + w) active := by
  have long : (active && decide (n < fld (s.rg (ra .cmp (Cmp.WAKE w))) 3 0 + 1)) = false := by
    cases active with
    | false => rfl
    | true => exact decide_eq_false (Nat.not_lt_of_le (hn rfl))
  refine if_neg ?_
  simp only [he, hc, hv, long, decide_eq_false hm]
  decide

end

/-! ### The statement -/

/-- Settles O29: an edge is judged by the window in force, a trip edge by its count of samples, and the sweeps and wake
comparators by their lemmas. -/
theorem comparators : Obligations.Comparators := by
  unfold Obligations.Comparators
  intro s i b t w hard crossed x v n at_ raw win hi lo hyst was gone act level first sampled trip noted everyBridge filt
    held next h begun ws
  have settled (h0 : pastWindows s i = []) : comparatorAt s i hard v.toNat = true ↔ gone := by
    rw [comparatorAt_settled h0]
    exact windowOut_iff
  have edge (out : Bool) : comparatorSet i hard out v.toNat s =
      if comparatorAt s i hard v.toNat = out then evalAfterEdges (i / 2) (raw out) else s := comparatorSet_eq out
  have swept (hd : sweepDue s = true) {u : State} (h : sweepStep crossed s = u) : exec (.sweepStep crossed) s = .next u :=
    congrArg _ ((if_pos hd).trans h)
  have seen {on : Bool} {u : State} (ha : act = !on) (hf : filt < n.toNat) (hn : n.toNat ≤ coarse s + 1)
      (h : (if on && tb (s.rg (ra .cmp (Cmp.TRIPIN t))) 31 then tripRaised t (trip on) else trip on) = u) :
      tripSet t on n.toNat s = everyBridge u :=
    (tripSet_filters ha hf hn).trans (congrArg everyBridge ((tripFilter_tripSample ha hf hn).trans h))
  refine ⟨?settled, ?written, fun h => congrArg _ (tripSet_samples h), fun h => congrArg _ (tripSet_samples h), ?active,
    ?noted, ?inactive, applyTrips_hard, fun hn hs hh => ?soft, fun hn hs hh hf => ?hard,
    fun h => congrArg _ (sweepStart_refused h), fun hd => congrArg _ (if_neg (ne_true_of_eq_false hd)),
    fun hw hd hs hl => swept hd (sweepStep_high hw hs hl),
    fun hw hd hs hg hl => swept hd (sweepStep_low hw hs hg hl),
    fun hw hd hs h hc => swept hd ?last, fun he hc hm => ?wake⟩
  case settled =>
    intro h0
    have out (hg : gone) := (settled h0).mpr hg
    have stay (hg : ¬ gone) : comparatorAt s i hard v.toNat = false := Bool.eq_false_iff.mpr (mt (settled h0).mp hg)
    exact ⟨fun hg => ⟨congrArg _ ((edge true).trans (if_pos (out hg))),
        congrArg _ ((edge false).trans (if_neg (by simp [out hg])))⟩,
      fun hg => ⟨congrArg _ ((edge true).trans (if_neg (by simp [stay hg]))),
        congrArg _ ((edge false).trans (if_pos (stay hg)))⟩⟩
  case written =>
    intro y ys hy
    have now := comparatorAt_written (hard := hard) (v := v.toNat) hy
    refine ⟨congrArg _ ((edge true).trans ?_), congrArg _ ((edge false).trans ?_)⟩
    · rw [now]
    · rw [now]
      generalize windowOut _ _ _ _ = out
      cases out <;> rfl
  case active =>
    exact fun ⟨hf, hn⟩ ha he => congrArg Host.Outcome.next (seen ha hf hn (if_neg (by rw [he]; decide)))
  case noted =>
    exact fun ⟨hf, hn⟩ ha he => congrArg Host.Outcome.next (seen ha hf hn (if_pos he))
  case inactive =>
    exact fun ⟨hf, hn⟩ ha => congrArg Host.Outcome.next (seen ha hf hn (if_neg (by simp)))
  case soft =>
    subst hh
    exact congrArg _ (sweepStart_soft hn hs)
  case hard =>
    subst hh
    exact congrArg _ (sweepStart_hard hn hs hf)
  case last =>
    rw [hc]
    exact sweepStep_last hw hs h
  case wake =>
    have takes {active : Bool} := wakeComparator_takes (n := n.toNat) (v := v.toNat) (active := active) he hc hm
    refine ⟨fun hv => congrArg _ (takes hv nofun), fun hn hv ha => congrArg _ ((takes hv fun _ => hn).trans ?_),
      fun hn hv ha => congrArg _ ((takes hv fun _ => hn).trans ?_)⟩
    · exact if_neg (by rw [ha]; decide)
    · exact if_pos (by rw [ha]; rfl)

end Sys2Proof.Machine
end

section
/-! What the registers of a bridge do, one lemma for each outcome; then the statement about them (R160, R162–R164,
R172–R174, R176, R183, R186, R243). -/

namespace Sys2Proof.Machine

/-! ### Faults that wait -/

/-- With no fault waiting there is none to send to the test steward. -/
theorem settle_none {s : State} (h : s.faultQueue = []) : settle s = s := by
  rw [settle, h, List.foldl_nil, ← h]

/-- A register access that ends with the waiting faults, of which there are none, is what `Writes` says of it. -/
theorem writes_of_settled {c : Instr} {s t : State} {m : Master} {pa : Nat} {f : State → Resp × State}
    (hc : exec c s = .next (settle (regAccess m pa f s))) (hq : s.faultQueue = []) (hf : f s = (.ok 0, t))
    (ht : t.faultQueue = []) : Writes c s m pa t := by
  refine ⟨fun h => hc.trans (congrArg _ ?_), fun h => hc.trans (congrArg _ ?_)⟩
  · rw [regAccess, if_neg (by simp [h]), hf]
    exact settle_none ht
  · rw [regAccess, if_pos h]
    exact settle_none hq

section
variable {s : State} {b : Nat} {v : Word} {sec : Bool} {r : RegRow}

/-- A register of a bridge that is not a counter takes what its type codes let through. -/
theorem plainWrite_pwm {o : Nat} (hr : Blk.pwm.rowAt o = some r) (hs : satAt .pwm o = none) :
    plainWrite .pwm b o v sec s = s.setRg (pw b o) (r.write (s.rg (pw b o)) v sec false) := by
  unfold plainWrite
  rw [hr, hs]
  rfl

/-! ### Enable (R160–R162) -/

section
variable (he : tb (s.rg (pw b Pwm.CFG)) 31 = false)
include he

theorem pwmCfgWrite_disabled (hv : tb v 31 = false) : pwmCfgWrite b v sec s =
    (.ok 0, (plainWrite .pwm b Pwm.CFG v sec s).setRgBit (pw b Pwm.CFG) 31 false) :=
  (if_neg (ne_true_of_eq_false he)).trans (if_pos (by rw [hv]; rfl))

/-- An enable for a slot that is served sets `STAT.AXREF` alone. -/
theorem pwmCfgWrite_served (hv : tb v 31 = true) (hs : slotServed s (pwmAxis s b) = true) :
    pwmCfgWrite b v sec s = (.ok 0, pwmFlag b 1 s) :=
  (if_neg (ne_true_of_eq_false he)).trans ((if_neg (by rw [hv]; decide)).trans (if_pos hs))

theorem pwmCfgWrite_starts (hv : tb v 31 = true) (hs : slotServed s (pwmAxis s b) = false) : pwmCfgWrite b v sec s =
    (.ok 0, bridgeStart b (((plainWrite .pwm b Pwm.CFG v sec s).setRgBit (pw b Pwm.CFG) 31 false).setRgBit
      (pw b Pwm.CFG) 31 true)) :=
  (if_neg (ne_true_of_eq_false he)).trans ((if_neg (by rw [hv]; decide)).trans (if_neg (ne_true_of_eq_false hs)))

end

section
variable (he : tb (s.rg (pw b Pwm.CFG)) 31 = true)
include he

theorem pwmCfgWrite_enabled (hv : tb v 31 = true) : pwmCfgWrite b v sec s = (.ok 0, s) :=
  (if_pos he).trans (if_pos hv)

theorem pwmCfgWrite_stops (hv : tb v 31 = false) : pwmCfgWrite b v sec s =
    (.ok 0, bridgeStop b (s.setRgBit (pw b Pwm.CFG) 31 false)) :=
  (if_pos he).trans (if_neg (ne_true_of_eq_false hv))

end

/-! ### Phase (R164, R243) -/

theorem phaseWrite_fits (hp : brPinned s b = true)
    (hf : smpActive s b = true → phaseFits s b (fld v 15 0) true = true) :
    phaseWrite b v s = (.ok 0, setPhase b (fld v 15 0) s) :=
  if_pos (by simpa [hp, imp_iff_not_or] using hf)

theorem phaseWrite_unpinned (hp : brPinned s b = false) : phaseWrite b v s =
    (.ok 0, journal 0x41 b 0 1 0 (fld v 15 0) (sadlNotice 9 (pwmFlag b 10 s))) :=
  if_neg (by simp [hp])

/-! ### Staging and commits (R172–R174) -/

/-- `GEN` as it stands. -/
abbrev genNow (s : State) (b : Nat) : Word := w32 (fld (s.rg (pw b Pwm.GEN)) 15 0)

/-- The set with the item of the register at offset `o` replaced. -/
def PwmSet.put (st : PwmSet) (o : Nat) (it : Word × Word) : PwmSet :=
  if o = Pwm.PERIOD then { st with period := some it }
  else if o = Pwm.EDGE_A then { st with a := some it }
  else if o = Pwm.EDGE_B then { st with b := some it }
  else { st with c := some it }

theorem stageItem_puts {o : Nat} (hr : Blk.pwm.rowAt o = some r) (hs : satAt .pwm o = none) : stageItem b o v sec s =
    (.ok 0, (s.setRg (pw b o) (r.write (s.rg (pw b o)) v sec false)).setBr b { s.br b with
      staged := (s.br b).staged.put o
        ((s.setRg (pw b o) (r.write (s.rg (pw b o)) v sec false)).rg (pw b o), genNow s b) }) := by
  unfold stageItem
  rw [plainWrite_pwm hr hs]
  rfl

theorem period_of_empty {st : PwmSet} (h : st.empty = true) : st.period = none := by
  simp only [PwmSet.empty, Bool.and_eq_true, Option.isNone_iff_eq_none] at h
  obtain ⟨⟨⟨hp, _⟩, _⟩, _⟩ := h
  exact hp

theorem commitItems_all (ha : tb (s.rg (pw b Pwm.CFG)) 29 = false) (hs : tb (s.rg (pw b Pwm.CFG)) 30 = false) :
    commitItems s b = (s.br b).staged :=
  (if_neg (ne_true_of_eq_false hs)).trans (if_neg (ne_true_of_eq_false ha))

theorem commitItems_src (hs : tb (s.rg (pw b Pwm.CFG)) 30 = true) :
    commitItems s b = { period := (s.br b).staged.period } := if_pos hs

theorem commitItems_auto (hs : tb (s.rg (pw b Pwm.CFG)) 30 = false) (ha : tb (s.rg (pw b Pwm.CFG)) 29 = true) :
    commitItems s b = {} :=
  (if_neg (ne_true_of_eq_false hs)).trans (if_pos ha)

/-- Nothing is taken where nothing is staged, where the edges come from bundles and no period is staged, and in AUTO
mode. -/
theorem commitItems_empty (h : (s.br b).staged.empty = true ∨
    tb (s.rg (pw b Pwm.CFG)) 30 = true ∧ (s.br b).staged.period = none ∨
    tb (s.rg (pw b Pwm.CFG)) 30 = false ∧ tb (s.rg (pw b Pwm.CFG)) 29 = true) : (commitItems s b).empty = true := by
  obtain he | ⟨hs, hp⟩ | ⟨hs, ha⟩ := h
  · cases hs : tb (s.rg (pw b Pwm.CFG)) 30
    · cases ha : tb (s.rg (pw b Pwm.CFG)) 29
      · rw [commitItems_all ha hs, he]
      · rw [commitItems_auto hs ha]
        rfl
    · rw [commitItems_src hs, period_of_empty he]
      rfl
  · rw [commitItems_src hs, hp]
    rfl
  · rw [commitItems_auto hs ha]
    rfl

theorem commitStaged_empty (h : (commitItems s b).empty = true) : commitStaged b s = s := if_pos h

theorem commitStaged_arrives {st : PwmSet} (hi : commitItems s b = st) (h : st.empty = false) : commitStaged b s =
    setArrives b { st with gen := genNow s b } (s.setBr b { s.br b with staged := {} }) := by
  subst hi
  exact if_neg (by simp [h])

/-! ### The bits of `CTRL` (R176, R183–R186) -/

theorem pwmCtrlWrite_commit : pwmCtrlWrite b 1 sec s = (.ok 0, commitStaged b s) := rfl
theorem pwmCtrlWrite_periodNow : pwmCtrlWrite b 2 sec s = (.ok 0, periodNow b s) := rfl
theorem pwmCtrlWrite_clrSafe : pwmCtrlWrite b 4 sec s = (.ok 0, clrSafe b sec s) := rfl
theorem pwmCtrlWrite_forceSafe : pwmCtrlWrite b 8 sec s = (.ok 0, enterSafe b 7 s) := rfl

theorem periodNow_running (h : pwmRun s b = true) : periodNow b s = s.setBr b { s.br b with cutReq := true } := if_pos h

theorem enterSafe_again {cause : Nat} (h : pwmSafe s b = true) : enterSafe b cause s = s := if_pos h

/-- The state of a bridge that has just become safe, with its carries yet to clear. -/
def safeSet (b cause : Nat) (s : State) : State :=
  let s1 := (s.setRgBit (pw b Pwm.STAT) 31 true).setRgFld (pw b Pwm.STAT) 30 28 cause
  s1.setBr b { s1.br b with await := false, relOk := false }

theorem enterSafe_first {cause : Nat} (h : pwmSafe s b = false) :
    enterSafe b cause s = raiseEvent (0x360 + b) (clearCarries b (safeSet b cause s)) :=
  if_neg (ne_true_of_eq_false h)

theorem clrSafe_refused (h : clrSafeAllowed s b sec = false) : clrSafe b sec s = s := if_neg (ne_true_of_eq_false h)

/-- An accepted `CLRSAFE` that finds no set on its way has none to mark as old. -/
theorem clrSafe_clears (h : clrSafeAllowed s b sec = true) (hw : (s.br b).now = none) (hn : (s.br b).next = none)
    (he : (s.br b).early = []) : clrSafe b sec s =
    (agesFlights (pwmAxis s b) (s.setRgFld (pw b Pwm.STAT) 31 28 0)).setBr b { s.br b with
      await := true, relOk := false, repeats := 0, haltHold := none, legA := { (s.br b).legA with stale := true },
      legB := { (s.br b).legB with stale := true }, legC := { (s.br b).legC with stale := true } } := by
  refine (if_pos h).trans ?_
  simp only [hw, hn, he, Option.map_none, List.map_nil]

/-! ### Force (R183) -/

/-- What an update does on the legs 0 to 2 is what it does on a bridge. -/
theorem eachLeg_congr {f g : Nat → State → State} (h : ∀ k < 3, f k = g k) (s : State) : eachLeg f s = eachLeg g s := by
  rw [eachLeg, eachLeg, h 0 (by decide), h 1 (by decide), h 2 (by decide)]

theorem forceWrite_none (h : ∀ k < 3, fld v (2 * k + 1) (2 * k) = 0) :
    forceWrite b v sec s = (.ok 0, plainWrite .pwm b Pwm.FORCE v sec s) :=
  congrArg (Prod.mk _) (eachLeg_congr (g := fun _ s => s) (fun k hk => funext fun _ => if_neg (not_not.mpr (h k hk))) _)

theorem forceWrite_all (h : ∀ k < 3, fld v (2 * k + 1) (2 * k) ≠ 0) : forceWrite b v sec s =
    (.ok 0, clearCarries b (plainWrite .pwm b Pwm.FORCE v sec s)) :=
  congrArg (Prod.mk _) (eachLeg_congr (fun k hk => funext fun _ => if_pos (h k hk)) _)

end

/-! ### The statement -/

/-- Settles O30: each clause is the lemma about that outcome of the write. -/
theorem bridgeRegisters : Obligations.BridgeRegisters := by
  unfold Obligations.BridgeRegisters
  intro s m b v r p c st x gen cfg plain mode3 hq
  have written {o : Nat} (hs : satAt .pwm o = none) {r : RegRow} (hr : Blk.pwm.rowAt o = some r) :
      plainWrite .pwm b o v m.sec s = plain o r := plainWrite_pwm hr hs
  have enable {t : State} (hf : pwmCfgWrite b v m.sec s = (.ok 0, t)) (ht : t.faultQueue = []) :
      Writes (.pwmEnable m b v) s m c t := writes_of_settled (exec_pwmEnable ..) hq hf ht
  have commit {t : State} (h : commitStaged b s = t) : Writes (.pwmCommit m b) s m (pw b Pwm.CTRL) t :=
    writes_of _ (exec_pwmCommit ..) (pwmCtrlWrite_commit.trans (congrArg _ h))
  have forced {t : State} (h : enterSafe b 7 s = t) : Writes (.forcesafe m b) s m (pw b Pwm.CTRL) t :=
    writes_of _ (exec_forcesafe ..) (pwmCtrlWrite_forceSafe.trans (congrArg _ h))
  have cleared {t : State} (h : clrSafe b m.sec s = t) : Writes (.clrsafe m b) s m (pw b Pwm.CTRL) t :=
    writes_of _ (exec_clrsafe ..) (pwmCtrlWrite_clrSafe.trans (congrArg _ h))
  refine ⟨fun hr he hv => ?disabled, fun _ he hv hs => enable (pwmCfgWrite_served he hv hs) hq,
    fun hr he hv hs => ?starts, fun he hv => enable (pwmCfgWrite_enabled he hv) hq, fun he hv hg => ?stops,
    fun hp hf => writes_of _ (exec_pwmPhaseWrite ..) (phaseWrite_fits hp hf),
    fun hp => writes_of _ (exec_pwmPhaseWrite ..) (phaseWrite_unpinned hp),
    fun hr => writes_of _ (exec_stagePeriodWrite ..) (stageItem_puts hr rfl),
    fun hr => writes_of _ (exec_stageEdgeWrite ..) (stageItem_puts hr rfl),
    fun hr => writes_of _ (exec_stageEdgeWrite ..) (stageItem_puts hr rfl),
    fun hr => writes_of _ (exec_stageEdgeWrite ..) (stageItem_puts hr rfl),
    fun ⟨ha, hs⟩ he => commit (commitStaged_arrives (commitItems_all ha hs) he),
    fun hs hp => commit (commitStaged_arrives ((commitItems_src hs).trans (by rw [hp])) rfl),
    fun h => commit (commitStaged_empty (commitItems_empty h)),
    fun h => writes_of _ (exec_periodNow ..) (pwmCtrlWrite_periodNow.trans (congrArg _ (periodNow_running h))),
    fun h => forced (enterSafe_again h), fun h => forced (enterSafe_first h), fun h => cleared (clrSafe_refused h),
    fun h hw hn he => cleared (clrSafe_clears h hw hn he),
    fun hr h => writes_of _ (exec_forceWrite ..) ((forceWrite_none h).trans (congrArg _ (written rfl hr))),
    fun hr h => writes_of _ (exec_forceWrite ..)
      ((forceWrite_all h).trans (congrArg (fun u => (Resp.ok 0, clearCarries b u)) (written rfl hr)))⟩
  case disabled => exact enable ((pwmCfgWrite_disabled he hv).trans (by rw [written rfl hr])) hq
  case starts => exact enable ((pwmCfgWrite_starts he hv hs).trans (by rw [written rfl hr])) hq
  case stops =>
    refine (exec_pwmEnable ..).trans (congrArg (Host.Outcome.next ∘ settle) ?_)
    rw [regAccess, if_neg (ne_true_of_eq_false hg), pwmCfgWrite_stops he hv]

end Sys2Proof.Machine
end

section
/-! What the events of a bridge do, one lemma for each outcome; then the statement about them (R164–R169, R176–R179,
R181). -/

namespace Sys2Proof.Machine

section
variable {s : State} {b : Nat}

/-! ### Period boundaries (R164) -/

/-- What no update of a list changes stands unchanged after all of them. -/
theorem foldl_leaves {α β : Type} {g : State → β} {f : State → α → State} (h : ∀ s x, g (f s x) = g s) (l : List α)
    (s : State) : g (l.foldl f s) = g s := by
  induction l generalizing s with
  | nil => rfl
  | cons x xs ih => exact (ih (f s x)).trans (h s x)

/-- The captures that a bridge triggers leave the sample path. -/
theorem conv_triggerBridge (kind b : Nat) (s : State) : (triggerBridge kind b s).conv = s.conv := by
  unfold triggerBridge
  extract_lets hit s1
  have h1 : s1.conv = s.conv := foldl_leaves (g := State.conv) (fun s f => by split <;> rfl) _ _
  rw [← h1]
  exact foldl_leaves (g := State.conv) (fun s p => by split <;> rfl) _ _

theorem keepBinding_inactive (h : smpActive s b = false) : keepBinding b s = s :=
  if_neg (by rw [h]; exact Bool.false_ne_true)

theorem recheckPhase_inactive (h : smpActive s b = false) : recheckPhase b s = s :=
  if_neg (by rw [h]; exact Bool.false_ne_true)

theorem handoverTry_no_step (h : s.conv.step = none) : handoverTry b s = s := by
  rw [handoverTry, h]

/-- The bridge's own part of a boundary, its event, and the captures that it triggers. -/
def bridgeBounded (b : Nat) (s : State) : State := triggerBridge 1 b (raiseEvent (0x350 + b) (bridgeBoundary b s))

/-- The boundary of a bridge that serves no axis, stands and does not sample is the bridge's own part with its event and
its captures. -/
theorem periodBoundary_alone (ha : 128 ≤ pwmAxis s b) (hr : pwmRun s b = false)
    (hu : (bridgeBounded b s).conv.unbind = []) (hn : (bridgeBounded b s).conv.step = none)
    (hs : smpActive (bridgeBounded b s) b = false) : periodBoundary b s = settle (bridgeBounded b s) := by
  have ha : ¬ pwmAxis s b < 128 := Nat.not_lt_of_le ha
  have hu : (raiseEvent (0x350 + b) (bridgeBoundary b s)).conv.unbind = [] := by
    rw [← hu, bridgeBounded, conv_triggerBridge]
  unfold periodBoundary
  extract_lets x old nosmp s1 moved s2 s3 s4 s5 s6 s7
  have h2 : s2 = s1 := if_neg (by simp only [nosmp, hr, Bool.and_false, Bool.false_and]; exact Bool.false_ne_true)
  have h3 : s3 = s1 := (if_neg (by rw [h2, hu]; exact Bool.false_ne_true)).trans h2
  have h5 : s5 = bridgeBounded b s := (if_neg ha).trans (congrArg (triggerBridge 1 b) h3)
  have bound : (if old.phase.isNone then keepBinding b s5 else s5) = bridgeBounded b s := by
    rw [h5, keepBinding_inactive hs, ite_self]
  have h6 : s6 = bridgeBounded b s := (congrArg (handoverTry b) bound).trans (handoverTry_no_step hn)
  have h7 : s7 = bridgeBounded b s := by
    simp only [s7]
    rw [h6, recheckPhase_inactive hs, ite_self]
  rw [h7, if_neg ha]

/-! ### Edges and dead times (R166–R168, R177) -/

theorem edgeFire_early {k : Nat} {off : Bool} (h : edgeDue s b k off = false) : edgeFire b k off s = s :=
  if_neg (ne_true_of_eq_false h)

theorem edgeFire_fires {k : Nat} {off : Bool} (h : edgeDue s b k off = true) :
    edgeFire b k off s = if off then fireOff b k s else fireOn b k s := if_pos h

theorem readBack_undriven (h : (s.br b).driven = false) (o : Nat) (on : Bool) : readBack b o on s = s :=
  if_pos (by rw [h]; rfl)

theorem deadtimeExpiry_early {o : Nat} (h : turnOnDue s b o = false) : deadtimeExpiry b o s = s :=
  if_neg (ne_true_of_eq_false h)

/-- The leg with its high or its low output, that of output `o`, turned on. -/
def Leg.turnedOn (l : Leg) (o : Nat) : Leg :=
  if o % 2 = 0 then { l with hi := true, hiDue := none } else { l with lo := true, loDue := none }

/-- An output whose ball is not driven turns on unread. -/
theorem deadtimeExpiry_undriven {o i : Nat} (h : turnOnDue s b o = true) (hi : dueOf s b o = some i)
    (hd : (s.br b).driven = false) : deadtimeExpiry b o s = outputEdge b o (max i (coarse s * 32))
      (setLeg b (o / 2) (((s.br b).leg (o / 2)).turnedOn o) s) := by
  refine (if_pos h).trans ?_
  simp only [readBack_undriven hd, hi, Option.getD_some, Leg.turnedOn]

/-! ### Delay-line measurements (R181) -/

/-- The trim that N = `n` moves the trim `t` to. -/
def trimMoved (n : Nat) (t : Int) : Int := if n ≤ 37 then t + 1 else if 59 ≤ n then t - 1 else t

/-- An N out of range always moves the trim. -/
theorem trimMoved_ne {n : Nat} (h : n < 32 ∨ 63 < n) (t : Int) : trimMoved n t ≠ t := by
  unfold trimMoved
  omega

/-- The trim of output `o`. -/
abbrev trimOf (s : State) (b o : Nat) : Int := sext (fld (s.rg (pw b (Pwm.DLCAL o))) 13 8) 6

/-- The delay line of output `o` has been measured now. -/
def measuredNow (b o : Nat) (s : State) : State :=
  s.setBr b { s.br b with measAt := Tbl.set (fun _ => 0) (s.br b).measAt o (coarse s) }

theorem pendN_measuredNow (b o : Nat) (s : State) : ((measuredNow b o s).br b).pendN = (s.br b).pendN := by
  rw [measuredNow, setBr_br_self]

/-- Output `o` waits for the boundary with the word `v` for its `DLCAL`. -/
def delayWaits (b o : Nat) (v : Word) (s : State) : State :=
  s.setBr b { s.br b with pendN := Tbl.set (fun _ => none) (s.br b).pendN o (some v) }

/-- The measurement of output `o` has failed: `STAT.DLFAIL`, and its fine fields are ignored. -/
def delayFaulted (b o : Nat) (s : State) : State := (pwmFlag b 12 s).setRgBit (pw b (Pwm.DLCAL o)) 15 true

theorem clampI_of_mem {x lo hi : Int} (hl : lo ≤ x) (hh : x ≤ hi) : clampI x lo hi = x := by
  rw [clampI_eq _ (hl.trans hh), min_eq_right hh, max_eq_right hl]

section
variable {o n : Nat} (hl : -32 ≤ trimMoved n (trimOf s b o)) (hh : trimMoved n (trimOf s b o) ≤ 31)
include hl hh

/-- With a trim that stays within its bounds what N is decides the rest. -/
theorem delayMeasure_in_bounds : delayMeasure b o n s =
    if 32 ≤ n ∧ n ≤ 63 then
      delayWaits b o (w32 (2 ^ 14 + wrap (trimMoved n (trimOf s b o)) 6 * 256 + n)) (measuredNow b o s)
    else faultRecord 0x08 (6 * b + o) 1 n
      (if trimMoved n (trimOf s b o) = trimOf s b o then delayFaulted b o (measuredNow b o s)
      else delayWaits b o (setFld ((delayFaulted b o (measuredNow b o s)).rg (pw b (Pwm.DLCAL o))) 13 8
        (wrap (trimMoved n (trimOf s b o)) 6)) (delayFaulted b o (measuredNow b o s))) := by
  unfold delayMeasure
  extract_lets _ s0 w t t' x swap s' _ s1 trim s2
  have h1 : s1 = measuredNow b o s := if_neg (not_or.mpr ⟨not_lt.mpr hl, not_lt.mpr hh⟩)
  have ht : trim = wrap (trimMoved n (trimOf s b o)) 6 := congrArg (wrap · 6) (clampI_of_mem hl hh)
  have h2 : s2 = delayFaulted b o (measuredNow b o s) := congrArg (delayFaulted b o) h1
  rw [h1, ht, h2]
  rfl

/-- A valid N waits for the boundary with its trim. -/
theorem delayMeasure_valid (h1 : 32 ≤ n) (h2 : n ≤ 63) : delayMeasure b o n s =
    delayWaits b o (w32 (2 ^ 14 + wrap (trimMoved n (trimOf s b o)) 6 * 256 + n)) (measuredNow b o s) :=
  (delayMeasure_in_bounds hl hh).trans (if_pos ⟨h1, h2⟩)

/-- An N out of range is a fault; its trim moves, and waits for the boundary alone. -/
theorem delayMeasure_invalid (h : n < 32 ∨ 63 < n) : delayMeasure b o n s =
    faultRecord 0x08 (6 * b + o) 1 n (delayWaits b o
      (setFld ((delayFaulted b o (measuredNow b o s)).rg (pw b (Pwm.DLCAL o))) 13 8
        (wrap (trimMoved n (trimOf s b o)) 6)) (delayFaulted b o (measuredNow b o s))) := by
  rw [delayMeasure_in_bounds hl hh, if_neg (by omega), if_neg (trimMoved_ne h _)]

end

/-! ### Starvation (R181) -/

/-- Output `o` has starved, and its 100 ms begin anew. -/
def delayStarved (b o : Nat) (s : State) : State :=
  pwmFlag b 11 (s.setBr b { s.br b with winAt := Tbl.set (fun _ => 0) (s.br b).winAt o (coarse s) })

/-- Output `o` is looked at. -/
def starveStep (b : Nat) (s : State) (o : Nat) : State := if starveDue s b o then delayStarved b o s else s

theorem delayStarve_eq (b : Nat) (s : State) : delayStarve b s = (List.range 6).foldl (starveStep b) s := rfl

theorem starveDue_delayStarved {o q : Nat} (h : q ≠ o) : starveDue (delayStarved b o s) b q = starveDue s b q := by
  have hb : (delayStarved b o s).br b =
      { s.br b with winAt := Tbl.set (fun _ => 0) (s.br b).winAt o (coarse s) } := setBr_br_self ..
  have hc : coarse (delayStarved b o s) = coarse s := rfl
  simp only [starveDue, hb, hc, Tbl.get_set_ne _ _ h]

theorem starveSteps_none {l : List Nat} (h : ∀ q ∈ l, starveDue s b q = false) : l.foldl (starveStep b) s = s := by
  induction l with
  | nil => rfl
  | cons q qs ih =>
    have hq : starveStep b s q = s := if_neg (ne_true_of_eq_false (h q (.head _)))
    rw [List.foldl_cons, hq]
    exact ih fun p hp => h p (.tail _ hp)

theorem starveSteps_one {o : Nat} {l : List Nat} (hn : l.Nodup) (ho : o ∈ l) (hd : starveDue s b o = true)
    (h : ∀ q ∈ l, q ≠ o → starveDue s b q = false) : l.foldl (starveStep b) s = delayStarved b o s := by
  induction l with
  | nil => cases ho
  | cons q qs ih =>
    obtain ⟨hq, hn⟩ := List.nodup_cons.mp hn
    rw [List.foldl_cons]
    by_cases hqo : q = o
    · subst hqo
      rw [starveStep, if_pos hd]
      exact starveSteps_none fun p hp => by
        have hpq : p ≠ q := fun e => hq (e ▸ hp)
        rw [starveDue_delayStarved hpq]
        exact h p (.tail _ hp) hpq
    · rw [starveStep, if_neg (ne_true_of_eq_false (h q (.head _) hqo))]
      exact ih hn ((List.mem_cons.mp ho).resolve_left (Ne.symm hqo)) fun p hp => h p (.tail _ hp)

/-! ### Bundles (R160, R172, R187) -/

theorem bundleArrival_none {i : Nat} (h : s.axis.edges[i]? = none) : bundleArrival i s = s := by
  rw [bundleArrival, h]

/-- A bundle of a local axis that the edge port lets out goes to the bridge that serves its axis. -/
theorem bundleArrival_reaches {i : Nat} {f : EdgeFlight} {u : State} (hf : s.axis.edges[i]? = some f)
    (hl : linkOf s f.axis = none)
    (hu : bundleAtPort f { s with axis.edges := removeAt s.axis.edges [i] } = (true, u))
    (hb : bridgeOf u f.axis = some b) : bundleArrival i s = bundleAtBridge b f.bytes f.old u := by
  rw [bundleArrival, hf]
  refine (if_neg (by rw [hl]; exact Bool.false_ne_true)).trans ?_
  rw [hu]
  refine (if_neg Bool.false_ne_true).trans ?_
  rw [hb]

theorem pwmEn_of_bridgeOf {x : Nat} (h : bridgeOf s x = some b) : pwmEn s b = true := by
  have hx := List.find?_some h
  rw [Bool.and_eq_true] at hx
  obtain ⟨he, _⟩ := hx
  exact he

/-- Halfword `q` of a bundle. -/
abbrev bundleHalf (bytes : List Byte) (q : Nat) : Nat := ofBytes ((bytes.drop (2 * q)).take 2)

/-- Edge item `q` of a bundle, with the bundle's generation. -/
abbrev bundleEdge (bytes : List Byte) (q : Nat) : Option (Word × Word) :=
  some (w32 (bundleHalf bytes (2 * q) + bundleHalf bytes (2 * q + 1) * 65536), w32 (bundleHalf bytes 7))

/-- The set that a bundle holds. -/
def bundleSet (bytes : List Byte) (old : Bool) : PwmSet :=
  { period := if bundleHalf bytes 6 = 0 then none else some (w32 (bundleHalf bytes 6), w32 (bundleHalf bytes 7)),
    a := bundleEdge bytes 0, b := bundleEdge bytes 1, c := bundleEdge bytes 2, gen := w32 (bundleHalf bytes 7),
    old := old }

theorem bundleAtBridge_takes (he : pwmEn s b = true) (hs : pwmSrc s b = true) (bytes : List Byte) (old : Bool) :
    bundleAtBridge b bytes old s = setArrives b (bundleSet bytes old)
      (if hostHalted s b then s else s.setBr b { s.br b with haltHold := none }) :=
  if_neg (by rw [he, hs]; decide)

end

/-! ### States in which the events are due -/

/-- Bridge 0 serves no axis and stands, with a boundary due. -/
def bridgeAtStart : State := (State.reset.setRg (pw 0 Pwm.AXIS) 0xFF).setBr 0 { boundaryDue := true }
theorem bridgeAtStart_boundary_due : (bridgeAtStart.br 0).boundaryDue = true ∧ 128 ≤ pwmAxis bridgeAtStart 0 ∧
    pwmRun bridgeAtStart 0 = false ∧ (bridgeAtStart.br 0).cut = false ∧ (bridgeAtStart.br 0).next = none ∧
    (bridgeAtStart.br 0).phase = none ∧
    (bridgeBounded 0 bridgeAtStart).conv.unbind = [] ∧ (bridgeBounded 0 bridgeAtStart).conv.step = none ∧
    smpActive (bridgeBounded 0 bridgeAtStart) 0 = false := by decide +kernel
/-- Bridge 0 runs at count 0 with edges at 0. -/
def bridgeRunning : State := (State.reset.setRg (pw 0 Pwm.STAT) 0x10000).setBr 0 { fresh := false }
theorem bridgeRunning_edges_due : edgeDue bridgeRunning 0 0 true = true ∧ edgeDue bridgeRunning 0 1 false = true := by
  decide
/-- The dead time of output 0 has run out. -/
def bridgeTurning : State := State.reset.setBr 0 { legA := { hiDue := some 0 } }
theorem bridgeTurning_output_due : turnOnDue bridgeTurning 0 0 = true ∧ dueOf bridgeTurning 0 0 = some 0 ∧
    (bridgeTurning.br 0).driven = false := by decide
/-- The interval of a delay-line measurement has passed. -/
def bridgeMeasuring : State := { State.reset with time.selvedge := w64 800000 }
theorem bridgeMeasuring_due : measureDue bridgeMeasuring 0 0 = true ∧ trimMoved 32 (trimOf bridgeMeasuring 0 0) = 1 ∧
    trimMoved 64 (trimOf bridgeMeasuring 0 0) = -1 := by decide
/-- Output 0 has just had an edge, and no window for 100 ms. -/
def bridgeStarving : State := { State.reset with time.selvedge := w64 80000000 }.setBr 0 { edgeAt := [(0, 40000001)] }
theorem bridgeStarving_one_due : starveDue bridgeStarving 0 0 = true ∧
    ∀ q < 6, q ≠ 0 → starveDue bridgeStarving 0 q = false := by decide
/-- Bridge 0 serves axis 3, whose first copy in bank 0 has a bundle in flight. -/
def bridgeBundled : State :=
  let s := (State.reset.setRg (pw 0 Pwm.CFG) 0xC0000000).setRg (pw 0 Pwm.AXIS) 3
  { s.setBank 0 { ctx := some 3 } with axis.edges := [{ axis := 3, bytes := [], bank := 0 }] }
theorem bridgeBundled_arrives : linkOf bridgeBundled 3 = none ∧
    (let a := bundleAtPort { axis := 3, bytes := [], bank := 0 } { bridgeBundled with axis.edges := [] }
     a.1 = true ∧ bridgeOf a.2 3 = some 0 ∧ pwmSrc a.2 0 = true ∧ hostHalted a.2 0 = false) := by decide

/-! ### The statement -/

/-- Settles O31: each event that is due is the lemma about its outcome, and one that is not due leaves the state. -/
theorem bridgeEvents : Obligations.BridgeEvents := by
  unfold Obligations.BridgeEvents
  intro s b j k o off n f i x t step measured starved trimmed h edge bounded
  have early {c : Bool} {u : State} (hc : c = false) : (if c then u else s) = s := if_neg (ne_true_of_eq_false hc)
  have arrives {u : State} (hf : s.axis.edges[i]? = some f) (hl : linkOf s f.axis = none)
      (hb : bridgeOf u f.axis = some j.val) (hs : pwmSrc u j = true)
      (hu : bundleAtPort f { s with axis.edges := removeAt s.axis.edges [i] } = (true, u)) :=
    (bundleArrival_reaches hf hl hu hb).trans (bundleAtBridge_takes (pwmEn_of_bridgeOf hb) hs f.bytes f.old)
  refine ⟨fun hd => congrArg _ (early hd), fun hd => congrArg _ (if_pos hd), fun hd => congrArg _ (early hd),
    fun hd ha hr _ _ _ hu hn hs => congrArg _ ((if_pos hd).trans (periodBoundary_alone ha hr hu hn hs)),
    fun hd hq => congrArg _ ((congrArg settle (edgeFire_early hd)).trans (settle_none hq)),
    fun hd => congrArg (Host.Outcome.next ∘ settle) (edgeFire_fires hd),
    fun hd hq => congrArg _ ((congrArg settle (deadtimeExpiry_early hd)).trans (settle_none hq)),
    fun hd hi hx _ => congrArg (Host.Outcome.next ∘ settle) (deadtimeExpiry_undriven hd hi hx),
    fun hd => congrArg _ (early hd), fun hd h1 h2 hl hh => congrArg _ ((if_pos hd).trans ?valid),
    fun hd hn hl hh => congrArg _ ((if_pos hd).trans (delayMeasure_invalid hl hh hn)),
    fun hd => congrArg _ ((delayStarve_eq b s).trans (starveSteps_none fun q hq => hd q (List.mem_range.mp hq))),
    fun hd hn => congrArg _ ((delayStarve_eq b s).trans
      (starveSteps_one List.nodup_range (List.mem_range.mpr o.isLt) hd fun q hq => hn q (List.mem_range.mp hq))),
    fun hn => congrArg _ (bundleArrival_none hn),
    fun u hf hl hb hs hu hh => congrArg _ ((arrives hf hl hb hs hu).trans ?halted),
    fun u hf hl hb hs hu hh => congrArg _ ((arrives hf hl hb hs hu).trans ?resumed)⟩
  case valid =>
    have hp : (measured.br b).pendN = x.pendN := pendN_measuredNow b o s
    rw [← hp]
    exact delayMeasure_valid hl hh h1 h2
  case halted => rw [if_pos hh]; rfl
  case resumed => rw [if_neg (ne_true_of_eq_false hh)]; rfl

end Sys2Proof.Machine
end

section
/-! What an enable of a track, a mark, a predicted mark and the end of a pulse do, one lemma for each outcome; then the
statement about them (R218–R224). -/

namespace Sys2Proof.Machine

/-! ### Writes by type codes -/

/-- A write by type codes leaves the feedback units, encoder ports, tracks and mark outputs. -/
theorem plainWrite_feed (b : Blk) (i o : Nat) (v : Word) (sec : Bool) (s : State) :
    (plainWrite b i o v sec s).feed = s.feed := by
  unfold plainWrite
  split
  · rfl
  · split <;> rfl

theorem plainWrite_trk (b : Blk) (i o : Nat) (v : Word) (sec : Bool) (s : State) (k : Nat) :
    (plainWrite b i o v sec s).trk k = s.trk k := by
  rw [State.trk, plainWrite_feed, State.trk]

section
variable {s : State} {k : Nat} {v : Word} {sec : Bool}

/-! ### Registers of a track (R219) -/

/-- Setting `EN` loads `PTR` and the limit, and arms that entry. -/
theorem trkCfgWrite_enables (h : tb (trkCfg s k) 31 = false) (hv : tb v 31 = true) : trkCfgWrite k v sec s =
    (.ok 0, trkArm k (((plainWrite .awl 0 (Awl.TRK_CFG k) v sec s).setRg (tr (Awl.TRK_PTR k))
      (s.rg (tr (Awl.TRK_BASE k)))).setTrk k { s.trk k with limit := fld (s.rg (tr (Awl.TRK_LIMIT k))) 14 0 })) := by
  rw [← plainWrite_trk .awl 0 (Awl.TRK_CFG k) v sec s k]
  exact (if_neg (by rw [hv]; decide)).trans (if_neg (ne_true_of_eq_false h))

theorem trkCfgWrite_stops (h : tb (trkCfg s k) 31 = true) (hv : tb v 31 = false) :
    trkCfgWrite k v sec s = (.ok 0, trkStop k (plainWrite .awl 0 (Awl.TRK_CFG k) v sec s)) :=
  (if_pos (by rw [hv]; rfl)).trans (congrArg _ (if_pos h))

theorem trkCfgWrite_same (h : tb (trkCfg s k) 31 = tb v 31) :
    trkCfgWrite k v sec s = (.ok 0, plainWrite .awl 0 (Awl.TRK_CFG k) v sec s) := by
  cases hv : tb v 31
  · exact (if_pos (by rw [hv]; rfl)).trans (congrArg _ (if_neg (by rw [h, hv]; decide)))
  · exact (if_neg (by rw [hv]; decide)).trans (if_pos (h.trans hv))

/-- `LIMIT` may be written while the track runs. -/
theorem awlWrite_limit (hk : k < 8) : awlWrite (Awl.TRK_LIMIT k) v sec s =
    (.ok 0, plainWrite .awl 0 (Awl.TRK_LIMIT k) v sec s) := by
  have range : 0x100 ≤ 0x108 + 0x20 * k ∧ 0x108 + 0x20 * k < 0x200 := by omega
  have notBase : 0x108 + 0x20 * k ≠ Awl.LOGBASE := Nat.ne_of_gt (lt_of_lt_of_le (by decide) range.1)
  have notCfg : 0x108 + 0x20 * k ≠ Awl.LOGCFG := Nat.ne_of_gt (lt_of_lt_of_le (by decide) range.1)
  have offset : (0x108 + 0x20 * k) % 0x20 = 8 := by omega
  refine (if_neg notBase).trans ((if_neg notCfg).trans ((if_pos range).trans ((if_neg ?_).trans (if_neg ?_))))
  · rw [offset]
    decide
  · rw [offset]
    exact Bool.false_ne_true

/-! ### Marks (R219–R223) -/

/-- The pointer of a track. -/
abbrev trkPtr (s : State) (k : Nat) : Nat := fld (s.rg (tr (Awl.TRK_PTR k))) 14 0

/-- The outputs of an entry are active from tick `start` on, and the mark is counted. -/
def markPulsed (k : Nat) (e : MarkEntry) (late : Bool) (start : Nat) (s : State) : State :=
  bump .awl 0 (Awl.TRK_FIRED k) (if late then
    (pulse k (fld e.w2 31 24) (fld e.w2 15 0) start s).setRgBit (tr (Awl.TRK_STAT k)) 2 true
    else pulse k (fld e.w2 31 24) (fld e.w2 15 0) start s)
/-- The track has fired its last entry. -/
def trackEnds (k : Nat) (s : State) : State :=
  raiseEvent (0x3A8 + k) ((trkStop k s).setRgBit (tr (Awl.TRK_STAT k)) 1 true)
/-- The track arms the entry after `ptr` at tick `at_`. -/
def trackGoesOn (k ptr at_ : Nat) (s : State) : State :=
  ((s.setRg (tr (Awl.TRK_PTR k)) (w32 ((ptr + 1) % 32768))).setRgBit (tr (Awl.TRK_STAT k)) 0 false).setTrk k
    { s.trk k with entry := none, armAt := some at_, sched := none, schedLate := false }

section
variable {e : MarkEntry} {y : Pulse}

section
variable (hl : tb e.w2 20 = false) (hv : tb e.w2 21 = false)
include hl hv

/-- An entry with neither a log record nor an event of its own leaves its pulse and the next state of the track. -/
theorem trkFire_unlogged (late pred : Bool) (start : Nat) (pos turns : Word) : trkFire k e late pred start pos turns s =
    if trkPtr s k = (s.trk k).limit || tb e.w2 19 then trackEnds k (markPulsed k e late start s)
    else trackGoesOn k (trkPtr s k) (coarse s + 1) (markPulsed k e late start s) := by
  unfold trkFire
  rw [hl, hv]
  rfl

theorem trkFire_last (h : trkPtr s k = (s.trk k).limit ∨ tb e.w2 19 = true) (late pred : Bool) (start : Nat)
    (pos turns : Word) : trkFire k e late pred start pos turns s = trackEnds k (markPulsed k e late start s) :=
  (trkFire_unlogged hl hv ..).trans (if_pos (by simpa using h))

theorem trkFire_not_last (hp : trkPtr s k ≠ (s.trk k).limit) (h : tb e.w2 19 = false) (late pred : Bool) (start : Nat)
    (pos turns : Word) : trkFire k e late pred start pos turns s =
      trackGoesOn k (trkPtr s k) (coarse s + 1) (markPulsed k e late start s) :=
  (trkFire_unlogged hl hv ..).trans (if_neg (by rw [decide_eq_false hp, h]; exact Bool.false_ne_true))

end

theorem markFire_entry (he : (s.trk k).entry = some e) : markFire k s =
    trkFire k e ((s.trk k).armedAt = coarse s) false (coarse s + 1) (s.fb (fld (trkCfg s k) 7 0)).pos
      (s.fb (fld (trkCfg s k) 7 0)).turns s := by
  rw [markFire, he]

theorem predictedFire_entry (he : (s.trk k).entry = some e) :
    predictedFire k s = trkFire k e (s.trk k).schedLate true (coarse s) e.w0 e.w1 s := by
  rw [predictedFire, he]

/-! ### Pulses (R223) -/

theorem pulseEnd_none (h : (s.mark k).isNone = true) : pulseEnd k s = s := by
  rw [pulseEnd, Option.isNone_iff_eq_none.mp h]

theorem pulseEnd_some (h : s.mark k = some y) :
    pulseEnd k s = if y.stop ≤ coarse s then s.setMark k none else s := by
  rw [pulseEnd, h]

end
end

/-! ### States in which a mark is due -/

/-- An entry whose position is 0, with neither a pulse nor a record. -/
def markAtZero : MarkEntry := { w0 := 0, w1 := 0, w2 := 0, w3 := 0 }
/-- Track 0 runs on unit 0, which has reached its last entry. -/
def trackReached : State :=
  ((State.reset.setRg (ra .pmu Pmu.MODE) 4).setRg (tr (Awl.TRK_CFG 0)) 0x80000000).setTrk 0 { entry := some markAtZero }
theorem trackReached_due :
    markDue trackReached 0 = true ∧ trkPtr trackReached 0 = (trackReached.trk 0).limit := by decide
/-- Track 0 runs on the blocks of slot 0, with the crossing of its first entry predicted for now. -/
def trackPredicted : State :=
  ((State.reset.setRg (ra .pmu Pmu.MODE) 4).setRg (tr (Awl.TRK_CFG 0)) 0x80000100).setTrk 0
    { entry := some markAtZero, sched := some 0, limit := 1 }
theorem trackPredicted_due :
    predictedDue trackPredicted 0 = true ∧ trkPtr trackPredicted 0 ≠ (trackPredicted.trk 0).limit := by decide

/-! ### The statement -/

/-- Settles O34: a write is the lemma about its outcome, and a mark that is due ends the track where its entry is the
last, and goes on to the next where it is not. -/
theorem markTracks : Obligations.MarkTracks := by
  unfold Obligations.MarkTracks
  intro s m k v e y c st wr ptr fired goesOn ends
  have early {d : Bool} {u : State} (hd : d = false) : (if d then u else s) = s := if_neg (ne_true_of_eq_false hd)
  refine ⟨fun h hv => writes_of _ (exec_trkEnable ..) (trkCfgWrite_enables h hv),
    fun h hv => writes_of _ (exec_trkEnable ..) (trkCfgWrite_stops h hv),
    fun h => writes_of _ (exec_trkEnable ..) (trkCfgWrite_same h),
    writes_of _ (exec_trkLimitWrite ..) (awlWrite_limit k.isLt),
    fun h => congrArg _ (early h), fun h => congrArg _ (early h), fun he hl hv => ?fires,
    fun h => congrArg _ (pulseEnd_none h),
    fun h hs => congrArg _ ((pulseEnd_some h).trans (if_neg (Nat.not_le_of_lt hs))),
    fun h hs => congrArg _ ((pulseEnd_some h).trans (if_pos hs))⟩
  case fires =>
    have mark {u : State} (hd : markDue s k = true)
        (h : trkFire k e ((s.trk k).armedAt = coarse s) false (coarse s + 1) (s.fb (fld (trkCfg s k) 7 0)).pos
          (s.fb (fld (trkCfg s k) 7 0)).turns s = u) : exec (.markFire k) s = .next u :=
      congrArg _ ((if_pos hd).trans ((markFire_entry he).trans h))
    have predicted {u : State} (hd : predictedDue s k = true)
        (h : trkFire k e (s.trk k).schedLate true (coarse s) e.w0 e.w1 s = u) : exec (.predictedFire k) s = .next u :=
      congrArg _ ((if_pos hd).trans ((predictedFire_entry he).trans h))
    exact ⟨fun hd hp h => mark hd (trkFire_not_last hl hv hp h ..), fun hd h => mark hd (trkFire_last hl hv h ..),
      fun hd hp h => predicted hd (trkFire_not_last hl hv hp h ..),
      fun hd h => predicted hd (trkFire_last hl hv h ..)⟩

end Sys2Proof.Machine
end

section
/-! What an enable of an encoder port, the start and the end of a frame, a block and a register access do, one lemma for
each outcome; then the statement about them (R210–R217). -/

namespace Sys2Proof.Machine

theorem plainWrite_senc (b : Blk) (i o : Nat) (v : Word) (sec : Bool) (s : State) (p : Nat) :
    (plainWrite b i o v sec s).senc p = s.senc p := by
  rw [State.senc, plainWrite_feed, State.senc]

section
variable {s : State} {p : Nat} {v : Word} {sec : Bool} {w : SlWave} {l : FbLatch} {data : BitVec 8}

/-! ### Enable (R194, R213) -/

theorem sencCfgWrite_enabled (h : tb (s.rg (sr p Senc.CFG)) 31 = true) (hv : tb v 31 = true) :
    sencCfgWrite p v sec s = (.ok 0, plainWrite .senc p Senc.CFG v sec s) :=
  (if_pos (by rw [h]; rfl)).trans (congrArg _ (if_pos hv))

/-- A disable ends the frame in progress. -/
theorem sencCfgWrite_stops (hv : tb v 31 = false) : sencCfgWrite p v sec s =
    (.ok 0, (plainWrite .senc p Senc.CFG v sec s).setRgBit (sr p Senc.STAT) 31 false) :=
  (if_pos (by rw [hv]; exact Bool.or_true _)).trans (congrArg _ (if_neg (ne_true_of_eq_false hv)))

section
variable (h : tb (s.rg (sr p Senc.CFG)) 31 = false) (hv : tb v 31 = true)
include h hv

theorem sencCfgWrite_refused (hr : frameRefused s p v = true ∨ tb (s.rg (sr p sencAxisReg)) 31 = true ∧
    fbClaimed s (fld (s.rg (sr p sencAxisReg)) 7 0) (12 + p) = true) : sencCfgWrite p v sec s = (.ok 0,
      ((plainWrite .senc p Senc.CFG v sec s).setRgBit (sr p Senc.CFG) 31 false).setRgBit (sr p Senc.STAT) 5 true) :=
  (if_neg (by rw [h, hv]; decide)).trans (if_pos (by simpa using hr))

theorem sencCfgWrite_starts (hf : frameRefused s p v = false) (hc : tb (s.rg (sr p sencAxisReg)) 31 = true →
    fbClaimed s (fld (s.rg (sr p sencAxisReg)) 7 0) (12 + p) = false) : sencCfgWrite p v sec s =
      (.ok 0, (plainWrite .senc p Senc.CFG v sec s).setSenc p
        { s.senc p with valid := none, capDue := false, busyUntil := s.time.selvedge }) := by
  rw [← plainWrite_senc .senc p Senc.CFG v sec s p]
  exact (if_neg (by rw [h, hv]; decide)).trans (if_neg (by simpa [hf] using hc))

end

/-! ### The start of a frame (R211) -/

theorem sencTakes_iff : sencTakes s p = true ↔ tb (s.rg (sr p Senc.CFG)) 31 = true ∧
    (fld (s.rg (sr p Senc.CFG)) 29 28 = 1 ∨ fld (s.rg (sr p Senc.CFG)) 29 28 = 2) := by simp [sencTakes]

theorem sencTakes_eq_false (h : tb (s.rg (sr p Senc.CFG)) 31 = false ∨ fld (s.rg (sr p Senc.CFG)) 29 28 = 0 ∨
    fld (s.rg (sr p Senc.CFG)) 29 28 = 3) : sencTakes s p = false := by
  rw [← Bool.not_eq_true, sencTakes_iff]
  rintro ⟨he, hm⟩
  obtain hn | h0 | h3 := h
  · exact ne_true_of_eq_false hn he
  · omega
  · omega

/-- The capture that was due is taken. -/
def captureTaken (p : Nat) (s : State) : State := s.setSenc p { s.senc p with capDue := false }
/-- A frame or the time after one still runs. -/
def sencBusy (s : State) (p : Nat) : Prop :=
  tb (s.rg (sr p Senc.STAT)) 31 = true ∨ reached 64 s.time.selvedge.toNat (s.senc p).busyUntil.toNat = false

theorem sencFrameStart_idle (h : (s.senc p).capDue = false) : sencFrameStart p s = s := if_pos (by rw [h]; rfl)

section
variable (h : (s.senc p).capDue = true)
include h

theorem sencFrameStart_off (ht : sencTakes s p = false) : sencFrameStart p s = captureTaken p s :=
  (if_neg (by rw [h]; decide)).trans (if_pos (by rw [ht]; rfl))

section
variable (ht : sencTakes s p = true)
include ht

theorem sencFrameStart_skips (hb : sencBusy s p) : sencFrameStart p s =
    bump .senc p Senc.SKIP_CNT ((captureTaken p s).setRgBit (sr p Senc.STAT) 4 true) :=
  (if_neg (by rw [h]; decide)).trans ((if_neg (by rw [ht]; decide)).trans (if_pos (by simpa [sencBusy] using hb)))

theorem sencFrameStart_starts (hb : ¬ sencBusy s p) : sencFrameStart p s =
    ((captureTaken p s).setRgBit (sr p Senc.STAT) 31 true).setSenc p { s.senc p with
      capDue := false, began := coarse s,
      start := s.time.selvedge + BitVec.ofInt 64 (sext (s.rg (sr p Senc.LATADJ)).toNat 16) } := by
  refine (if_neg (by rw [h]; decide)).trans ((if_neg (by rw [ht]; decide)).trans
    ((if_neg (by simpa [sencBusy] using hb)).trans ?_))
  rw [setSenc_senc_self]
  rfl

end
end

/-! ### What a port receives (R212) -/

theorem sencBiss_ssi (h : fld (s.rg (sr p Senc.CFG)) 29 28 = 2) : sencBiss s p = false :=
  decide_eq_false (by rw [h]; decide)

theorem sencReceive_ssi (h : fld (s.rg (sr p Senc.CFG)) 29 28 = 2) : sencReceive s p w =
    if w.high then some {
      cds := false, crc := 0,
      data := slSample w (maHalf s p + fld (s.rg (sr p Senc.TIMING)) 7 0) (2 * maHalf s p) (sencDlen s p),
      last := maHalf s p + fld (s.rg (sr p Senc.TIMING)) 7 0 + 2 * maHalf s p * (sencDlen s p - 1) }
    else none :=
  if_neg (ne_true_of_eq_false (sencBiss_ssi h))

theorem sencReceive_biss_silent (h : fld (s.rg (sr p Senc.CFG)) 29 28 = 1) (ha : slAck w = none) :
    sencReceive s p w = none := by
  refine (if_pos (by simp [sencBiss, h])).trans ?_
  rw [ha]

/-- What a BiSS-C port reads of a frame whose start bit is at tick `t`. -/
def bissFrame (s : State) (p : Nat) (w : SlWave) (t : Nat) : SencRx :=
  let bit (k : Nat) : Nat := t + 2 * maHalf s p * k
  { cds := slAt w (bit 1), data := slSample w (bit 2) (2 * maHalf s p) (sencDlen s p),
    crc := slSample w (bit (2 + sencDlen s p)) (2 * maHalf s p) (sencClen s p),
    last := bit (1 + sencDlen s p + sencClen s p) }

theorem bissFrame_cds (t : Nat) : (bissFrame s p w t).cds = slAt w (t + 2 * maHalf s p) := by
  simp only [bissFrame, Nat.mul_one]

theorem bissFrame_data (t : Nat) :
    (bissFrame s p w t).data = slSample w (t + 4 * maHalf s p) (2 * maHalf s p) (sencDlen s p) := by
  simp only [bissFrame, Nat.mul_right_comm 2, Nat.reduceMul]

theorem sencReceive_biss {a t : Nat} (h : fld (s.rg (sr p Senc.CFG)) 29 28 = 1) (ha : slAck w = some a)
    (ht : slStart w (2 * maHalf s p) ((sencTout s p - a) / (2 * maHalf s p)) (a + 2 * maHalf s p) = some t) :
    sencReceive s p w = some (bissFrame s p w t) := by
  refine (if_pos (by simp [sencBiss, h])).trans ?_
  rw [ha]
  dsimp only
  rw [ht]
  rfl

theorem sencEndAt_received {r : SencRx} (h : sencReceive s p w = some r) : sencEndAt s p w = r.last := by
  rw [sencEndAt, h]

theorem sencEndAt_biss_silent (h : fld (s.rg (sr p Senc.CFG)) 29 28 = 1) (ha : slAck w = none) :
    sencEndAt s p w = sencTout s p := by
  rw [sencEndAt, sencReceive_biss_silent h ha]
  exact if_pos (by simp [sencBiss, h])

theorem crcGood_ssi (h : fld (s.rg (sr p Senc.CFG)) 29 28 = 2) (d crc : Nat) : crcGood s p d crc = true :=
  if_pos (by simp [h])

/-! ### The end of a frame (R211–R216) -/

/-- The frame has ended at tick `stop`, and the time after it runs. -/
def frameStopped (p stop : Nat) (s : State) : State := (s.setRgBit (sr p Senc.STAT) 31 false).setSenc p { s.senc p with
  busyUntil := w64 (2 * (stop + sencTout s p)), noBack := false }
/-- The block of the port waits for its write. -/
def blockLatched (p : Nat) (l : FbLatch) (s : State) : State := s.setSenc p { s.senc p with latch := some l }
/-- The block of a bad frame, which repeats the last valid values. -/
def badBlock (u : SencPort) (stop : Nat) : FbLatch := {
  pos := u.pos, turns := u.turns, speed := u.speed, time := u.start,
  flags := w32 (32768 + 16384 + b2n u.turnSat * 2048), due := 2 * (stop + 4) }

/-- The CDS bit that a BiSS-C port reads for its register access. -/
def frameCds (s : State) (p : Nat) (rx : Option SencRx) : List Bool :=
  if sencBiss s p && tb (s.rg (sr p Senc.REGSTAT)) 31 then [match rx with | some f => f.cds | none => false] else []
/-- The frame has ended, with its CDS bit and its line delay kept. -/
def frameClosed (p : Nat) (w : SlWave) (rx : Option SencRx) (stop : Nat) (s : State) : State :=
  let t := (s.setRgBit (sr p Senc.STAT) 31 false).setSenc p { s.senc p with
    busyUntil := w64 (2 * (stop + sencTout s p)), noBack := false, cds := (s.senc p).cds ++ frameCds s p rx }
  match slAck w with
  | some a => if sencBiss s p then t.setRg (sr p Senc.LDLY) (w32 (min a 65535)) else t
  | none => t

/-- There is nothing to keep of an SSI frame, and nothing of a BiSS-C frame without an acknowledge or an access. -/
theorem frameClosed_plain {rx : Option SencRx} {stop : Nat}
    (hq : sencBiss s p = true → slAck w = none ∧ tb (s.rg (sr p Senc.REGSTAT)) 31 = false) :
    frameClosed p w rx stop s = frameStopped p stop s := by
  have noBits : frameCds s p rx = [] := if_neg (by
    cases h : sencBiss s p
    · exact Bool.false_ne_true
    · rw [(hq h).2]
      decide)
  unfold frameClosed
  rw [noBits, List.append_nil]
  split
  · next a ha => exact if_neg fun h => nomatch ha.symm.trans (hq h).1
  · rfl

/-- `RAW` takes the data word `d`. -/
def rawTaken (p d : Nat) (s : State) : State := s.setSenc p { s.senc p with raw := w64 d }
/-- In the state `t` the port takes the position that the data word `d` of a frame begun in `s` holds, at speed 0. -/
def positionTaken (s : State) (p d : Nat) (t : State) : State :=
  let q := sencPosition s p d
  t.setSenc p { t.senc p with
    valid := some { time := (s.senc p).start, pos := linear q.1 q.2.1 (2 ^ fld (s.rg (sr p Senc.FRAME)) 21 16) },
    pos := q.1, turns := q.2.1, speed := 0, turnSat := q.2.2 }
/-- The block of a good frame at speed 0. -/
def goodBlock (s : State) (p d stop : Nat) : FbLatch :=
  let q := sencPosition s p d
  { pos := q.1, turns := q.2.1, speed := 0, time := (s.senc p).start, flags := w32 (b2n q.2.2 * 2048),
    due := 2 * (stop + 4) }

theorem sencFrameEnd_idle (h : tb (s.rg (sr p Senc.STAT)) 31 = false) : sencFrameEnd p w s = s :=
  if_pos (by rw [h]; rfl)

theorem sencEnded_iff : sencEnded s p w = true ↔
    tb (s.rg (sr p Senc.STAT)) 31 = true ∧ (s.senc p).began + sencEndAt s p w ≤ coarse s := by simp [sencEnded]

section
variable {stop : Nat} (hb : tb (s.rg (sr p Senc.STAT)) 31 = true) (hs : (s.senc p).began + sencEndAt s p w = stop)
include hb hs

theorem sencFrameEnd_noAck (hr : sencReceive s p w = none)
    (hq : sencBiss s p = true → slAck w = none ∧ tb (s.rg (sr p Senc.REGSTAT)) 31 = false) :
    sencFrameEnd p w s = raiseEvent (0x398 + p) (blockLatched p (badBlock (s.senc p) stop)
      (bump .senc p Senc.ERR_CNT ((frameStopped p stop s).setRgBit (sr p Senc.STAT) 1 true))) := by
  subst hs
  rw [← frameClosed_plain (rx := none) hq]
  unfold sencFrameEnd
  rw [hb, hr]
  rfl

/-- A good SSI frame that carries no status bit, on a port that has no valid values yet. -/
theorem sencFrameEnd_ssi {r : SencRx} (hr : sencReceive s p w = some r) (hm : fld (s.rg (sr p Senc.CFG)) 29 28 = 2)
    (hsb : fld (s.rg (sr p Senc.FRAME)) 1 0 = 0) (hv : (s.senc p).valid = none) : sencFrameEnd p w s =
      blockLatched p (goodBlock s p r.data stop)
        (positionTaken s p r.data (rawTaken p r.data (frameStopped p stop s))) := by
  have ssi : sencBiss s p = false := sencBiss_ssi hm
  have closed : frameClosed p w (some r) stop s = frameStopped p stop s := frameClosed_plain (by simp [ssi])
  have hflags : b2n (sencPosition s p r.data).2.2 * 2048 =
      b2n false * 8192 + b2n (sencPosition s p r.data).2.2 * 2048 + b2n false * 1024 := by simp
  subst hs
  unfold sencFrameEnd
  rw [hb, hr]
  extract_lets u fw sb rx stop back bits s1 s2 d good nw ne fl failed s3 u3 s4 out repeats u4 rev n
  have h2 : s2 = frameStopped p stop s := closed
  have hback : back = true := by simp only [back, rx, ssi, Bool.not_false, Bool.true_or]
  have hgood : good = true := crcGood_ssi hm ..
  have hnw : nw = false := by simp [nw, sb, fw, hsb]
  have hne : ne = false := by simp [ne, sb, fw, hsb]
  have hfailed : failed = false := by simp only [failed, hgood, hne, Bool.not_true, Bool.or_false]
  have h3 : s3 = frameStopped p stop s := by
    simp only [s3, hgood, hfailed, hne, hnw, h2]
    rfl
  have h4 : s4 = rawTaken p r.data (frameStopped p stop s) := congrArg (rawTaken p r.data) h3
  have hu : u.valid = none := hv
  refine (if_neg Bool.false_ne_true).trans
    ((if_neg (ne_true_of_eq_false hfailed)).trans ((if_neg (by rw [hback]; decide)).trans ?_))
  rw [hnw, hu, goodBlock, hflags]
  clear_value s4
  subst h4
  rfl

end

/-! ### Blocks (R196, R197, R211, R216) -/

/-- A write of the block of port `p` is done when that block is due. -/
theorem exec_fbBlockWrite_port (p : Fin 8) (s : State) : exec (.fbBlockWrite (p.natAdd 12)) s =
    .next (if sencBlockDue s p then sencBlockWrite p s else s) := by
  have hp : 12 + p.val - 12 = p.val := Nat.add_sub_cancel_left ..
  refine congrArg _ ((if_neg (by simp)).trans ?_)
  rw [Fin.val_natAdd, hp]

theorem sencBlockDue_none (h : (s.senc p).latch = none) : sencBlockDue s p = false := by rw [sencBlockDue, h]

theorem sencBlockDue_some (h : (s.senc p).latch = some l) :
    sencBlockDue s p = decide (l.due ≤ s.time.selvedge.toNat) := by rw [sencBlockDue, h]

/-- The flags of a block with those that earlier blocks kept. -/
abbrev blockFlags (s : State) (p : Nat) (l : FbLatch) : Word := l.flags ||| (s.senc p).kept

section
variable (h : (s.senc p).latch = some l)
include h

theorem sencBlockWrite_unbound (ha : tb (s.rg (sr p sencAxisReg)) 31 = false) : sencBlockWrite p s =
    raiseEvent (0x390 + p) (s.setSenc p { s.senc p with latch := none, kept := blockFlags s p l &&& 0x6400 }) := by
  unfold sencBlockWrite
  rw [h]
  dsimp only
  rw [ha]
  rfl

theorem sencBlockWrite_bound (ha : tb (s.rg (sr p sencAxisReg)) 31 = true) : sencBlockWrite p s =
    raiseEvent (0x390 + p) (feedbackPort none (fld (s.rg (sr p sencAxisReg)) 7 0) l.pos l.turns l.speed l.time
      (blockFlags s p l).toNat 1 (some (.senc, p, Senc.DROPS)) (s.setSenc p { s.senc p with
        latch := none,
        kept := if fld (s.rg (sr p sencAxisReg)) 7 0 < 128 ∧ ctxBound s (fld (s.rg (sr p sencAxisReg)) 7 0) = true
          then 0 else blockFlags s p l &&& 0x6400 })) := by
  unfold sencBlockWrite
  rw [h]
  dsimp only
  rw [ha]
  simp only [Bool.true_and, Bool.and_eq_true, decide_eq_true_eq, if_true]

end

/-! ### Register accesses (R217) -/

/-- While an access runs `REGCMD` takes no new one. -/
theorem sencRegGo_running (h : tb (s.rg (sr p Senc.REGSTAT)) 31 = true) (hv : tb v 31 = true) :
    sencRegGo p v sec s = (.ok 0, s) := (if_pos h).trans (congrArg _ (if_pos hv))

theorem sencRegGo_writes (hv : tb v 31 = false) :
    sencRegGo p v sec s = (.ok 0, plainWrite .senc p Senc.REGCMD v sec s) := by
  cases h : tb (s.rg (sr p Senc.REGSTAT)) 31
  · exact (if_neg (ne_true_of_eq_false h)).trans (congrArg _ (if_neg (ne_true_of_eq_false hv)))
  · exact (if_pos h).trans (congrArg _ (if_neg (ne_true_of_eq_false hv)))

theorem sencRegGo_starts (h : tb (s.rg (sr p Senc.REGSTAT)) 31 = false) (hv : tb v 31 = true) : sencRegGo p v sec s =
    (.ok 0, ((plainWrite .senc p Senc.REGCMD v sec s).setRgBit (sr p Senc.REGSTAT) 31 true).setSenc p { s.senc p with
      accWrite := tb v 30, cds := [], cdm := Config.bissControl (tb v 30) (fld v 14 8) (fld v 7 0) }) := by
  rw [← plainWrite_senc .senc p Senc.REGCMD v sec s p]
  exact (if_neg (ne_true_of_eq_false h)).trans (congrArg _ (if_pos hv))

theorem sencRegDone_early (h : tb (s.rg (sr p Senc.REGSTAT)) 31 = false ∨
    (s.senc p).cds.length < (s.senc p).cdm.length) : sencRegDone p s = s := if_pos (by simpa using h)

section
variable (h : tb (s.rg (sr p Senc.REGSTAT)) 31 = true) (hl : (s.senc p).cdm.length ≤ (s.senc p).cds.length)
include h hl

/-- The access ends, and its reply decides how. -/
theorem sencRegDone_ends : sencRegDone p s = match Config.bissReply (s.senc p).cds with
    | none => (s.setRgBit (sr p Senc.REGSTAT) 31 false).setRgBit (sr p Senc.REGSTAT) 29 true
    | some data => if (s.senc p).accWrite
        then (s.setRgBit (sr p Senc.REGSTAT) 31 false).setRgBit (sr p Senc.REGSTAT) 30 true
        else ((s.setRgBit (sr p Senc.REGSTAT) 31 false).setRgBit (sr p Senc.REGSTAT) 30 true).setRgFld
          (sr p Senc.REGSTAT) 7 0 data.toNat :=
  if_neg (by simp [h, hl])

theorem sencRegDone_fails (hr : Config.bissReply (s.senc p).cds = none) : sencRegDone p s =
    (s.setRgBit (sr p Senc.REGSTAT) 31 false).setRgBit (sr p Senc.REGSTAT) 29 true := by
  rw [sencRegDone_ends h hl, hr]

theorem sencRegDone_answers (hr : Config.bissReply (s.senc p).cds = some data) : sencRegDone p s =
    if (s.senc p).accWrite then (s.setRgBit (sr p Senc.REGSTAT) 31 false).setRgBit (sr p Senc.REGSTAT) 30 true
    else ((s.setRgBit (sr p Senc.REGSTAT) 31 false).setRgBit (sr p Senc.REGSTAT) 30 true).setRgFld
      (sr p Senc.REGSTAT) 7 0 data.toNat := by
  rw [sencRegDone_ends h hl, hr]

end
end

/-! ### States in which a frame has ended and a block is due -/

/-- Port 0 has clocked an SSI frame of one bit, and has a block to write. -/
def portClocked : State :=
  (((({ State.reset with time.selvedge := w64 100 }.setRg (sr 0 Senc.CFG) 0xA0000000).setRg (sr 0 Senc.FRAME)
    0x01010000).setRg (sr 0 Senc.TIMING) 0).setRg (sr 0 Senc.STAT) 0x80000000).setSenc 0
    { latch := some (badBlock {} 40) }
theorem portClocked_due : sencEnded portClocked 0 ⟨true, []⟩ = true ∧ sencEnded portClocked 0 ⟨false, []⟩ = true ∧
    (portClocked.senc 0).valid = none ∧ sencBlockDue portClocked 0 = true := by decide
/-- Port 0 has waited for a BiSS-C slave that has not acknowledged, and no access runs. -/
def portSilent : State := portClocked.setRg (sr 0 Senc.CFG) 0x90000000
theorem portSilent_ended : sencEnded portSilent 0 ⟨true, []⟩ = true ∧
    tb (portSilent.rg (sr 0 Senc.REGSTAT)) 31 = false := by decide

/-! ### The statement -/

/-- Settles O33: each clause is the lemma about that outcome of the write, the frame, the block or the access. -/
theorem encoderPorts : Obligations.EncoderPorts := by
  unfold Obligations.EncoderPorts
  intro s m p v w a t0 l ok data frame c st ax fw u wr taken busy rc cmd
  have early {d : Bool} {u : State} (hd : d = false) : (if d then u else s) = s := if_neg (ne_true_of_eq_false hd)
  have takes (h : tb c 31 = true) (hm : fld c 29 28 = 1 ∨ fld c 29 28 = 2) : sencTakes s p = true :=
    sencTakes_iff.mpr ⟨h, hm⟩
  have notEnded (h : ¬ sencEnded s p w = true) : exec frame s = .next s := congrArg _ (if_neg h)
  have written {t : State} (h : (if sencBlockDue s p then sencBlockWrite p s else s) = t) :
      exec (.fbBlockWrite (p.natAdd 12)) s = .next t := (exec_fbBlockWrite_port p s).trans (congrArg _ h)
  have due (h : u.latch = some l) (hd : l.due ≤ s.time.selvedge.toNat) : sencBlockDue s p = true :=
    (sencBlockDue_some h).trans (decide_eq_true hd)
  refine ⟨fun h hv => writes_of _ (exec_sencEnable ..) (sencCfgWrite_enabled h hv),
    fun hv => writes_of _ (exec_sencEnable ..) (sencCfgWrite_stops hv),
    fun h hv hr => writes_of _ (exec_sencEnable ..) (sencCfgWrite_refused h hv hr),
    fun h hv hf hc => writes_of _ (exec_sencEnable ..) (sencCfgWrite_starts h hv hf hc),
    fun h => congrArg _ (sencFrameStart_idle h),
    fun h ht => congrArg _ (sencFrameStart_off h (sencTakes_eq_false ht)),
    fun h hc hm => ⟨fun hb => congrArg _ (sencFrameStart_skips h (takes hc hm) hb),
      fun hb => congrArg _ (sencFrameStart_starts h (takes hc hm) hb)⟩,
    fun h => notEnded fun he => absurd (sencEnded_iff.mp he).1 (ne_true_of_eq_false h),
    fun h => notEnded fun he => absurd (sencEnded_iff.mp he).2 (Nat.not_le_of_lt h),
    ?ends, fun h => written (early ?notDue),
    fun h hd ha => written ((if_pos (due h hd)).trans (sencBlockWrite_unbound h ha)),
    fun h hd ha => written ((if_pos (due h hd)).trans (sencBlockWrite_bound h ha)),
    fun h hv => writes_of _ (exec_sencRegGo ..) (sencRegGo_starts h hv),
    fun h hv => writes_of _ (exec_sencRegGo ..) (sencRegGo_running h hv),
    fun hv => writes_of _ (exec_sencRegGo ..) (sencRegGo_writes hv),
    fun h => congrArg _ ((congrArg (ite _ · s) (sencRegDone_early h)).trans (ite_self s)),
    fun h hl => ⟨fun hr => congrArg _ (if_neg hr),
      fun hr => congrArg _ ((if_pos hr).trans (sencRegDone_fails h hl hr)),
      fun hr => ⟨fun hw => congrArg _ ((if_pos hr).trans ((sencRegDone_answers h hl hr).trans (if_pos hw))),
        fun hw => congrArg _ ((if_pos hr).trans
          ((sencRegDone_answers h hl hr).trans (if_neg (ne_true_of_eq_false hw))))⟩⟩⟩
  case notDue =>
    obtain hn | ⟨hl, hd⟩ := h
    · exact sencBlockDue_none hn
    · exact (sencBlockDue_some hl).trans (decide_eq_false (Nat.not_le_of_lt hd))
  case ends =>
    intro half dlen tout first stop ended bad x got q read
    have frameOver {e : Nat} {t : State} (hb : tb (s.rg st) 31 = true) (he : u.began + sencEndAt s p w = e)
        (hl : e ≤ coarse s) (h : sencFrameEnd p w s = t) : exec frame s = .next t :=
      congrArg _ ((if_pos (sencEnded_iff.mpr ⟨hb, he.trans_le hl⟩)).trans h)
    refine ⟨fun hb hm _ hl hh hsb hv => ?good, fun hb hm _ hl hh => ?low, fun hb hm hr hh hc hl => ?silent,
      fun hm ha ht => ⟨_, sencReceive_biss hm ha ht, bissFrame_cds t0, bissFrame_data t0⟩⟩
    case good =>
      have hr := (sencReceive_ssi (w := w) hm).trans (if_pos hh)
      have he : u.began + sencEndAt s p w = stop := by
        rw [sencEndAt_received hr]
        exact (Nat.add_assoc ..).symm
      refine frameOver hb he hl ((sencFrameEnd_ssi hb he hr hm hsb hv).trans ?_)
      rfl
    case low =>
      have hr := (sencReceive_ssi (w := w) hm).trans (if_neg (ne_true_of_eq_false hh))
      exact frameOver hb rfl hl (sencFrameEnd_noAck hb rfl hr fun h => absurd h (ne_true_of_eq_false (sencBiss_ssi hm)))
    case silent =>
      have ha : slAck w = none := by simp [slAck, hh, hc]
      have he : u.began + sencEndAt s p w = u.began + tout := congrArg _ (sencEndAt_biss_silent hm ha)
      exact frameOver hb he hl (sencFrameEnd_noAck hb he (sencReceive_biss_silent hm ha) fun _ => ⟨ha, hr⟩)

end Sys2Proof.Machine
end

section
/-! What the registers, the inputs, the captures and the blocks of a local feedback unit do, one lemma for each outcome;
then the statement about them (R194–R209). -/

namespace Sys2Proof.Machine

/-! ### Fields of a word -/

theorem testBit_fld (w : Word) (hi lo j : Nat) :
    (fld w hi lo).testBit j = (decide (j < hi + 1 - lo) && tb w (lo + j)) := by
  rw [fld, Nat.testBit_mod_two_pow, Nat.testBit_shiftRight]
  rfl

/-- Fields with the same bits are equal. -/
theorem fld_congr {w u : Word} {hi lo : Nat} (h : ∀ i, lo ≤ i → i ≤ hi → tb w i = tb u i) :
    fld w hi lo = fld u hi lo := by
  refine Nat.eq_of_testBit_eq fun j => ?_
  rw [testBit_fld, testBit_fld]
  by_cases hj : j < hi + 1 - lo
  · rw [h (lo + j) (by omega) (by omega)]
  · simp [hj]

theorem tb_setFld {w : Word} {hi lo v i : Nat} (hh : hi < 32) :
    tb (setFld w hi lo v) i = if lo ≤ i ∧ i ≤ hi then v.testBit (i - lo) else tb w i := by
  have ones : (0xFFFFFFFF : Nat) = 2 ^ 32 - 1 := by decide
  simp only [setFld, tb, w32, BitVec.getLsbD_ofNat, ones, Nat.testBit_or, Nat.testBit_and, Nat.testBit_xor,
    Nat.testBit_shiftLeft, Nat.testBit_two_pow_sub_one, Nat.testBit_mod_two_pow]
  by_cases hi32 : i < 32
  · by_cases hl : lo ≤ i
    · by_cases hu : i ≤ hi
      · simp [hi32, hl, hu, show i - lo < hi + 1 - lo by omega]
      · simp [hi32, hl, hu, show ¬ i - lo < hi + 1 - lo by omega, BitVec.getLsbD]
    · simp [hi32, hl, BitVec.getLsbD]
  · simp [hi32, show ¬ i ≤ hi by omega, BitVec.getLsbD_of_ge _ _ (Nat.le_of_not_lt hi32)]

/-- A field reads back what was put into it. -/
theorem fld_setFld {w : Word} {hi lo v : Nat} (hh : hi < 32) (hv : v < 2 ^ (hi + 1 - lo)) :
    fld (setFld w hi lo v) hi lo = v := by
  refine Nat.eq_of_testBit_eq fun j => ?_
  rw [testBit_fld, tb_setFld hh, Nat.add_sub_cancel_left]
  by_cases hj : j < hi + 1 - lo
  · simp [hj, show lo + j ≤ hi by omega]
  · simp [hj, Nat.testBit_lt_two_pow (hv.trans_le (Nat.pow_le_pow_right (by decide) (Nat.le_of_not_lt hj)))]

/-- A field below the one that is replaced stays. -/
theorem fld_setFld_below {w : Word} {hi lo v h l : Nat} (hh : hi < 32) (hl : h < lo) :
    fld (setFld w hi lo v) h l = fld w h l :=
  fld_congr fun i _ hi => (tb_setFld hh).trans (if_neg fun ⟨hlo, _⟩ => absurd hlo (by omega))

/-- A field above a bit that is replaced stays. -/
theorem fld_setBit_above {w : Word} {i h l : Nat} (hl : i < l) (b : Bool) : fld (setBit w i b) h l = fld w h l :=
  fld_congr fun _ hj _ => tb_setBit_ne w (by omega) b

/-- Numbers below 8 with the same three bits are equal. -/
theorem eq_of_three_bits {x y : Nat} (hx : x < 8) (hy : y < 8) (h : ∀ i < 3, x.testBit i = y.testBit i) : x = y := by
  refine Nat.eq_of_testBit_eq fun i => ?_
  by_cases hi : i < 3
  · exact h i hi
  · have high {z : Nat} (hz : z < 8) : z.testBit i = false :=
      Nat.testBit_lt_two_pow (hz.trans_le (Nat.pow_le_pow_right (n := 2) (i := 3) (by decide) (by omega)))
    rw [high hx, high hy]

section
variable {s t : State} {f : Nat}

/-! ### Levels (R200) -/

theorem fr_ne {o q : Nat} (h : o ≠ q) : fr f o ≠ fr f q := fun e => h (Nat.add_left_cancel e)

/-- `STAT.LEVEL` takes the levels `lv`. -/
def levelSet (f lv : Nat) (s : State) : State := s.setRgFld (fr f Fb.STAT) 31 29 lv

theorem fbLevel_lt : fbLevel s f < 8 := Nat.mod_lt _ (by decide)

theorem fbLevel_levelSet {lv : Nat} (h : lv < 8) : fbLevel (levelSet f lv s) f = lv := by
  rw [fbLevel, levelSet, State.setRgFld, setRg_rg_self, fld_setFld (by decide) h]

theorem levelSet_rg_ne {o : Nat} (h : o ≠ Fb.STAT) (lv : Nat) : (levelSet f lv s).rg (fr f o) = s.rg (fr f o) :=
  setRg_rg_ne _ _ _ (fr_ne h)

theorem levelSet_sector (lv : Nat) :
    fld ((levelSet f lv s).rg (fr f Fb.STAT)) 26 24 = fld (s.rg (fr f Fb.STAT)) 26 24 := by
  rw [levelSet, State.setRgFld, setRg_rg_self, fld_setFld_below (by decide) (by decide)]

theorem fbLevel_fbFlag {i : Nat} (h : i < 29) : fbLevel (fbFlag f i s) f = fbLevel s f := by
  rw [fbLevel, fbFlag, State.setRgBit, setRg_rg_self, fld_setBit_above h, fbLevel]

theorem raiseEvent_rg (e : Nat) (s : State) (a : Nat) : (raiseEvent e s).rg a = s.rg a := rfl

theorem fbLevel_fbError {i : Nat} (h : i < 29) : fbLevel (fbError f i s) f = fbLevel s f := by
  rw [fbLevel, fbError, raiseEvent_rg, setFb_rg]
  exact fbLevel_fbFlag h

/-- Counting an error leaves the levels. -/
theorem fbLevel_bump : fbLevel (bump .fb f Fb.QERR_CNT s) f = fbLevel s f := by
  unfold bump bumpN
  extract_lets v v' s1
  have counted : fbLevel s1 f = fbLevel s f := by
    rw [fbLevel, setRg_rg_ne _ _ _ (fr_ne (by decide)), fbLevel]
  split
  · change fbLevel (s1.setRgBit (fr f Fb.CNTSTAT) 0 true) f = _
    rw [← counted, fbLevel, State.setRgBit, setRg_rg_ne _ _ _ (fr_ne (by decide)), fbLevel]
  · exact counted

theorem fbLevel_fbCount (since : Nat) (up : Bool) : fbLevel (fbCount f since up s) f = fbLevel s f := by
  unfold fbCount
  extract_lets u rev
  generalize stepPos u.pos u.turns rev up = moved
  obtain ⟨p, n, sat⟩ := moved
  dsimp only
  have h0 : fbLevel (if sat then fbFlag f 8 s else s) f = fbLevel s f := by
    split
    · exact fbLevel_fbFlag (by decide)
    · rfl
  split
  · exact h0
  · split <;> exact h0

/-! ### Samples (R200) -/

/-- The coarse tick of the first of `n` samples. -/
def firstSample (s : State) (n : Nat) : Nat := if n = 0 then coarse s + 2 else coarse s + 1 - n
/-- The levels `old` with those in `mask` taken from `lv`. -/
def mixed (mask lv old : Nat) : Nat := old &&& (7 - mask) ||| lv &&& mask

section
variable {mask lv old n i : Nat}

theorem mixed_lt (hm : mask < 8) : mixed mask lv old < 8 :=
  Nat.or_lt_two_pow (n := 3) (Nat.and_lt_two_pow _ (by omega)) (Nat.and_lt_two_pow _ hm)

theorem testBit_mixed (hm : mask < 8) (hi : i < 3) :
    (mixed mask lv old).testBit i = if mask.testBit i then lv.testBit i else old.testBit i := by
  have others : ∀ mask < 8, ∀ i < 3, (7 - mask).testBit i = !mask.testBit i := by decide
  rw [mixed, Nat.testBit_or, Nat.testBit_and, Nat.testBit_and, others mask hm i hi]
  cases mask.testBit i <;> simp

theorem fbSample_pins (hm : mask < 8) :
    ((fbSample f mask lv n s).fb f).pins.toNat = mixed mask lv (s.fb f).pins.toNat := by
  rw [fbSample, setFb_fb_self]
  exact Nat.mod_eq_of_lt (mixed_lt hm)

/-- The tick from which input `i` has had its level, once it has been sampled. -/
def sampledSince (s : State) (f lv n i : Nat) : Nat :=
  if (s.fb f).pins.toNat.testBit i = lv.testBit i then min (fbSince s f i) (firstSample s n) else firstSample s n
/-- The ticks `l` with that of input `i` taken anew where the mask names it. -/
def sincePut (s : State) (f mask lv n i : Nat) (l : Tbl Nat) : Tbl Nat :=
  if mask.testBit i then Tbl.set (fun _ => 0) l i (sampledSince s f lv n i) else l

theorem get_sincePut {j : Nat} {l : Tbl Nat} : Tbl.get (fun _ => 0) (sincePut s f mask lv n j l) i =
    if i = j ∧ mask.testBit i = true then sampledSince s f lv n i else Tbl.get (fun _ => 0) l i := by
  unfold sincePut
  by_cases hj : i = j
  · subst hj
    cases mask.testBit i <;> simp [Tbl.get_set_self]
  · cases mask.testBit j <;> simp [hj, Tbl.get_set_ne _ _ hj]

theorem fbSample_since (hi : i < 3) : fbSince (fbSample f mask lv n s) f i =
    if mask.testBit i then sampledSince s f lv n i else fbSince s f i := by
  have puts : fbSince (fbSample f mask lv n s) f i = Tbl.get (fun _ => 0) (sincePut s f mask lv n 2
      (sincePut s f mask lv n 1 (sincePut s f mask lv n 0 (s.fb f).since))) i := by
    rw [fbSince, fbSample, setFb_fb_self]
    rfl
  rw [puts, get_sincePut, get_sincePut, get_sincePut]
  obtain rfl | rfl | rfl : i = 0 ∨ i = 1 ∨ i = 2 := by omega
  all_goals simp [fbSince]

end

/-! ### The filter (R199, R200) -/

theorem testBit_fbAccepted {i : Nat} (hi : i < 3) : (fbAccepted s f).testBit i =
    if fbSince s f i + filtK s f ≤ coarse s + 1 then (s.fb f).pins.toNat.testBit i else (fbLevel s f).testBit i := by
  unfold fbAccepted
  extract_lets bit
  have bits : ∀ x y z : Bool, ∀ i < 3, (2 ^ 0 * b2n x + 2 ^ 1 * b2n y + 2 ^ 2 * b2n z).testBit i =
      if i = 0 then x else if i = 1 then y else z := by decide
  simp only [bit]
  rw [bits _ _ _ i hi]
  obtain rfl | rfl | rfl : i = 0 ∨ i = 1 ∨ i = 2 := by omega
  all_goals rfl

theorem fbAccepted_lt : fbAccepted s f < 8 := by
  have bits : ∀ x y z : Bool, 2 ^ 0 * b2n x + 2 ^ 1 * b2n y + 2 ^ 2 * b2n z < 8 := by decide
  exact bits _ _ _

theorem filtK_pos : 0 < filtK s f := Nat.mul_pos (Nat.succ_pos _) (by split <;> decide)

/-- Where the inputs have had the filtered levels, samples change them all or, while they are too few, not at all. -/
theorem fbAccepted_fbSample {mask lv n : Nat} (hm : mask < 8) (hs : (s.fb f).pins.toNat = fbLevel s f) :
    fbAccepted (fbSample f mask lv n s) f =
      if firstSample s n + filtK s f ≤ coarse s + 1 then mixed mask lv (fbLevel s f) else fbLevel s f := by
  have hk : filtK (fbSample f mask lv n s) f = filtK s f := rfl
  have hc : coarse (fbSample f mask lv n s) = coarse s := rfl
  have hl : fbLevel (fbSample f mask lv n s) f = fbLevel s f := rfl
  refine eq_of_three_bits fbAccepted_lt (by split; exacts [mixed_lt hm, fbLevel_lt]) fun i hi => ?_
  rw [testBit_fbAccepted hi, fbSample_pins hm, fbSample_since hi, testBit_mixed hm hi, hk, hc, hl, hs, sampledSince, hs]
  rw [apply_ite (Nat.testBit · i), testBit_mixed hm hi]
  by_cases h : (fbLevel s f).testBit i = lv.testBit i
  · cases mask.testBit i <;> simp [h]
  · cases mask.testBit i <;> simp [h]

/-- The inputs have had the filtered levels, and a new level has been sampled often enough for the filter. -/
structure Passes (s : State) (f n : Nat) : Prop where
  enough : filtK s f ≤ n
  sampled : n ≤ coarse s + 1
  steady : (s.fb f).pins.toNat = fbLevel s f

theorem fbFilter_same (h : fbAccepted s f = fbLevel s f) : fbFilter f s = s := if_pos (by simp [h])

theorem fbFilter_off (h : fbMode s f = 0 ∨ 3 < fbMode s f) : fbFilter f s = s :=
  if_pos (by obtain h | h := h <;> simp [h])

/-- What the mode of a unit does with the new levels, which stand in `t`. -/
def levelsMove (f old : Nat) (t : State) : State :=
  if fbMode t f = 1 then indexMove f old (quadMove f old t) else if fbMode t f = 2 then hallMove f old t else t

/-- The state after samples of the levels `lv` in the mask that the filter accepts. -/
abbrev accepted (f mask lv n : Nat) (s : State) : State :=
  levelSet f (mixed mask lv (fbLevel s f)) (fbSample f mask lv n s)

theorem fbMode_levelSet (lv : Nat) : fbMode (levelSet f lv s) f = fbMode s f := by
  unfold fbMode
  rw [levelSet_rg_ne (by decide)]

section
variable {mask lv n : Nat}

theorem accepted_since (hs : (s.fb f).pins.toNat = fbLevel s f) {i : Nat} (hi : i < 3) (hb : mask.testBit i = true)
    (hd : (fbLevel s f).testBit i ≠ lv.testBit i) : fbSince (accepted f mask lv n s) f i = firstSample s n := by
  have same : fbSince (accepted f mask lv n s) f i = fbSince (fbSample f mask lv n s) f i := rfl
  rw [same, fbSample_since hi, if_pos hb, sampledSince, hs, if_neg hd]

section
variable (hm : mask < 8)
include hm

theorem fbFilter_few (hs : (s.fb f).pins.toNat = fbLevel s f) (hn : n < filtK s f) :
    fbFilter f (fbSample f mask lv n s) = fbSample f mask lv n s := by
  refine fbFilter_same ((fbAccepted_fbSample hm hs).trans (if_neg ?_))
  unfold firstSample
  split <;> omega

theorem fbFilter_passes (hp : Passes s f n) (hd : mixed mask lv (fbLevel s f) ≠ fbLevel s f)
    (h1 : fbMode s f ≠ 0) (h3 : fbMode s f ≤ 3) :
    fbFilter f (fbSample f mask lv n s) = levelsMove f (fbLevel s f) (accepted f mask lv n s) := by
  have hk : 0 < filtK s f := filtK_pos
  have hl : fbLevel (fbSample f mask lv n s) f = fbLevel s f := rfl
  have hmode : fbMode (fbSample f mask lv n s) f = fbMode s f := rfl
  obtain ⟨he, hc, hs⟩ := hp
  have all : fbAccepted (fbSample f mask lv n s) f = mixed mask lv (fbLevel s f) := by
    refine (fbAccepted_fbSample hm hs).trans (if_pos ?_)
    rw [firstSample, if_neg (by omega)]
    omega
  unfold levelsMove
  rw [fbMode_levelSet, accepted, ← all]
  exact if_neg (by simp [all, hl, hmode, hd, h1, h3])

theorem testBit_accepted {i : Nat} (hi : i < 3) : (fbLevel (accepted f mask lv n s) f).testBit i =
    if mask.testBit i then lv.testBit i else (fbLevel s f).testBit i := by
  rw [accepted, fbLevel_levelSet (mixed_lt hm), testBit_mixed hm hi]

theorem mixed_ne {old i : Nat} (hi : i < 3) (hb : mask.testBit i = true) (hd : old.testBit i ≠ lv.testBit i) :
    mixed mask lv old ≠ old := fun h => hd (by
  have hx := testBit_mixed (lv := lv) (old := old) hm hi
  rw [h, if_pos hb] at hx
  exact hx)

end
end

theorem mixed_ab {old : Nat} (h : old < 8) (a b : Bool) :
    mixed 3 (b2n b * 2 + b2n a) old = old / 4 * 4 + b2n b * 2 + b2n a := by
  have all : ∀ old < 8, ∀ a b : Bool, mixed 3 (b2n b * 2 + b2n a) old = old / 4 * 4 + b2n b * 2 + b2n a := by decide
  exact all old h a b

theorem mixed_all {old lv : Nat} (ho : old < 8) (hl : lv < 8) : mixed 7 lv old = lv := by
  have all : ∀ old < 8, ∀ lv < 8, mixed 7 lv old = lv := by decide
  exact all old ho lv hl

theorem mixed_z {old : Nat} (h : old < 8) (z : Bool) : mixed 4 (b2n z * 4) old = b2n z * 4 + old % 4 := by
  have all : ∀ old < 8, ∀ z : Bool, mixed 4 (b2n z * 4) old = b2n z * 4 + old % 4 := by decide
  exact all old h z

theorem testBit_ab_zero (a b : Bool) : (b2n b * 2 + b2n a).testBit 0 = a := by cases a <;> cases b <;> rfl
theorem testBit_ab_one (a b : Bool) : (b2n b * 2 + b2n a).testBit 1 = b := by cases a <;> cases b <;> rfl
theorem testBit_two {x : Nat} (h : x < 8) : x.testBit 2 = decide (4 ≤ x) := by
  have all : ∀ x < 8, x.testBit 2 = decide (4 ≤ x) := by decide
  exact all x h
theorem testBit_z (z : Bool) : (b2n z * 4).testBit 2 = z := by cases z <;> rfl

theorem levelsMove_io {old : Nat} (h : fbMode t f = 3) : levelsMove f old t = t :=
  (if_neg (by omega)).trans (if_neg (by omega))

theorem levelsMove_hall {old : Nat} (h : fbMode t f = 2) : levelsMove f old t = hallMove f old t :=
  (if_neg (by omega)).trans (if_pos h)

/-! ### Quadrature (R201) -/

/-- Both inputs have changed in one tick. -/
theorem quadMove_both {old : Nat} (ha : old.testBit 0 ≠ (fbLevel t f).testBit 0)
    (hb : old.testBit 1 ≠ (fbLevel t f).testBit 1) :
    quadMove f old t = bump .fb f Fb.QERR_CNT (fbError f 2 t) := if_pos ⟨ha, hb⟩

theorem quadMove_a {old : Nat} (ha : old.testBit 0 ≠ (fbLevel t f).testBit 0)
    (hb : old.testBit 1 = (fbLevel t f).testBit 1) : quadMove f old t = fbCount f (fbSince t f 0)
      ((decide ((fbLevel t f).testBit 0 ≠ old.testBit 1)) != tb (t.rg (fr f Fb.CFG)) 27) t :=
  (if_neg fun h => h.2 hb).trans (if_pos ha)

theorem quadMove_b {old : Nat} (ha : old.testBit 0 = (fbLevel t f).testBit 0)
    (hb : old.testBit 1 ≠ (fbLevel t f).testBit 1) : quadMove f old t = fbCount f (fbSince t f 1)
      ((decide ((fbLevel t f).testBit 1 = old.testBit 0)) != tb (t.rg (fr f Fb.CFG)) 27) t :=
  (if_neg fun h => h.1 ha).trans ((if_neg (not_not.mpr ha)).trans (if_pos hb))

theorem quadMove_none {old : Nat} (ha : old.testBit 0 = (fbLevel t f).testBit 0)
    (hb : old.testBit 1 = (fbLevel t f).testBit 1) : quadMove f old t = t :=
  (if_neg fun h => h.1 ha).trans ((if_neg (not_not.mpr ha)).trans (if_neg (not_not.mpr hb)))

/-- Counting leaves the levels. -/
theorem fbLevel_quadMove (old : Nat) : fbLevel (quadMove f old t) f = fbLevel t f := by
  unfold quadMove
  extract_lets lv
  dsimp only
  split
  · rw [fbLevel_bump, fbLevel_fbError (by decide)]
  · split
    · exact fbLevel_fbCount ..
    · split
      · exact fbLevel_fbCount ..
      · rfl

/-! ### The index (R205–R207) -/

/-- The index input has not risen. -/
theorem indexMove_not_risen {old : Nat}
    (h : (fbLevel t f).testBit 2 = false ∨ (fbLevel t f).testBit 2 = old.testBit 2) : indexMove f old t = t := by
  refine if_pos ?_
  obtain h | h := h
  · simp [h]
  · cases ho : old.testBit 2
    · simp [h, ho]
    · simp

/-- Where A and B alone may have changed, only they count. -/
theorem levelsMove_quad {old : Nat} (h : fbMode t f = 1) (hz : (fbLevel t f).testBit 2 = old.testBit 2) :
    levelsMove f old t = quadMove f old t :=
  (if_pos h).trans (indexMove_not_risen (.inr (by rw [fbLevel_quadMove, hz])))

/-- Where Z alone may have changed, only the index acts. -/
theorem levelsMove_index {old : Nat} (h : fbMode t f = 1) (ha : old.testBit 0 = (fbLevel t f).testBit 0)
    (hb : old.testBit 1 = (fbLevel t f).testBit 1) : levelsMove f old t = indexMove f old t :=
  (if_pos h).trans (congrArg _ (quadMove_none ha hb))

/-- The counts between two indexes are compared with the `rev` of a revolution. -/
def indexChecked (f rev : Nat) (s : State) : State :=
  if !(s.fb f).skipIdx && rev ≠ 0 && !(s.fb f).reversed && (s.fb f).net.natAbs ≠ rev then
    (fbFlag f 5 s).setRg (fr f Fb.IDXDIFF) (wInt (((s.fb f).net.natAbs : Int) - rev))
  else s
/-- An index is accepted. -/
def indexTaken (f rev : Nat) (s : State) : State :=
  raiseEvent (0x3CC + f) ((indexChecked f rev s).setFb f { s.fb f with
    idxPos := (s.fb f).pos, idxTurn := (s.fb f).turns, flags := setBit (s.fb f).flags 7 true, net := 0,
    reversed := false, skipIdx := false })

/-- A rising index that A and B do not qualify is accepted, and an unarmed unit loads nothing. -/
theorem indexMove_rises {old : Nat} (hn : (fbLevel t f).testBit 2 = true) (ho : old.testBit 2 = false)
    (hq : tb (t.rg (fr f Fb.CFG)) 21 = false) (ha : (t.fb f).armed = false) :
    indexMove f old t = indexTaken f (t.rg (fr f Fb.REV_COUNT)).toNat t :=
  (if_neg (by rw [hn, ho, hq]; exact Bool.false_ne_true)).trans (if_neg (by rw [ha]; exact Bool.false_ne_true))

/-! ### Edges of the inputs (R200, R201, R205) -/

section
variable {n : Nat} {a b z : Bool}

/-- The state after samples of A and B that the filter accepts. -/
def abAccepted (f : Nat) (a b : Bool) (n : Nat) (s : State) : State :=
  levelSet f (fbLevel s f / 4 * 4 + b2n b * 2 + b2n a) (fbSample f 3 (b2n b * 2 + b2n a) n s)
/-- The state after samples of Z that the filter accepts. -/
def zAccepted (f : Nat) (z : Bool) (n : Nat) (s : State) : State :=
  levelSet f (b2n z * 4 + fbLevel s f % 4) (fbSample f 4 (b2n z * 4) n s)

theorem accepted_ab : accepted f 3 (b2n b * 2 + b2n a) n s = abAccepted f a b n s :=
  congrArg (levelSet f · _) (mixed_ab fbLevel_lt a b)
theorem accepted_z : accepted f 4 (b2n z * 4) n s = zAccepted f z n s :=
  congrArg (levelSet f · _) (mixed_z fbLevel_lt z)

theorem abAccepted_cfg : (abAccepted f a b n s).rg (fr f Fb.CFG) = s.rg (fr f Fb.CFG) := levelSet_rg_ne (by decide) _

theorem abAccepted_a : (fbLevel (abAccepted f a b n s) f).testBit 0 = a := by
  rw [← accepted_ab, testBit_accepted (by decide) (by decide)]
  exact testBit_ab_zero a b
theorem abAccepted_b : (fbLevel (abAccepted f a b n s) f).testBit 1 = b := by
  rw [← accepted_ab, testBit_accepted (by decide) (by decide)]
  exact testBit_ab_one a b
theorem abAccepted_z : (fbLevel (abAccepted f a b n s) f).testBit 2 = (fbLevel s f).testBit 2 := by
  rw [← accepted_ab, testBit_accepted (by decide) (by decide)]
  rfl
theorem zAccepted_z : (fbLevel (zAccepted f z n s) f).testBit 2 = z := by
  rw [← accepted_z, testBit_accepted (by decide) (by decide)]
  exact testBit_z z
theorem zAccepted_ab {i : Nat} (hi : i < 2) :
    (fbLevel (zAccepted f z n s) f).testBit i = (fbLevel s f).testBit i := by
  rw [← accepted_z, testBit_accepted (by decide) (by omega)]
  obtain rfl | rfl : i = 0 ∨ i = 1 := by omega
  all_goals rfl

section
variable (hp : Passes s f n)
include hp

theorem fbFilter_ab (h1 : fbMode s f = 1) (hd : (fbLevel s f).testBit 0 ≠ a ∨ (fbLevel s f).testBit 1 ≠ b) :
    fbFilter f (fbSample f 3 (b2n b * 2 + b2n a) n s) = quadMove f (fbLevel s f) (abAccepted f a b n s) := by
  have changed : mixed 3 (b2n b * 2 + b2n a) (fbLevel s f) ≠ fbLevel s f := by
    obtain h | h := hd
    · exact mixed_ne (i := 0) (by decide) (by decide) rfl (by rwa [testBit_ab_zero])
    · exact mixed_ne (i := 1) (by decide) (by decide) rfl (by rwa [testBit_ab_one])
  rw [fbFilter_passes (by decide) hp changed (by omega) (by omega), accepted_ab]
  exact levelsMove_quad ((fbMode_levelSet _).trans h1) abAccepted_z

theorem quad_both (h1 : fbMode s f = 1) (ha : (fbLevel s f).testBit 0 ≠ a) (hb : (fbLevel s f).testBit 1 ≠ b) :
    fbFilter f (fbSample f 3 (b2n b * 2 + b2n a) n s) =
      bump .fb f Fb.QERR_CNT (fbError f 2 (abAccepted f a b n s)) := by
  rw [fbFilter_ab hp h1 (.inl ha), quadMove_both (by rwa [abAccepted_a]) (by rwa [abAccepted_b])]

theorem quad_a (h1 : fbMode s f = 1) (ha : (fbLevel s f).testBit 0 ≠ a) (hb : (fbLevel s f).testBit 1 = b) :
    fbFilter f (fbSample f 3 (b2n b * 2 + b2n a) n s) = fbCount f (firstSample s n)
      ((decide (a ≠ (fbLevel s f).testBit 1)) != tb (s.rg (fr f Fb.CFG)) 27) (abAccepted f a b n s) := by
  have since : fbSince (abAccepted f a b n s) f 0 = firstSample s n := by
    rw [← accepted_ab]
    exact accepted_since hp.steady (by decide) rfl (by rwa [testBit_ab_zero])
  rw [fbFilter_ab hp h1 (.inl ha), quadMove_a (by rwa [abAccepted_a]) (by rwa [abAccepted_b]), since, abAccepted_a,
    abAccepted_cfg]

theorem quad_b (h1 : fbMode s f = 1) (ha : (fbLevel s f).testBit 0 = a) (hb : (fbLevel s f).testBit 1 ≠ b) :
    fbFilter f (fbSample f 3 (b2n b * 2 + b2n a) n s) = fbCount f (firstSample s n)
      ((decide (b = (fbLevel s f).testBit 0)) != tb (s.rg (fr f Fb.CFG)) 27) (abAccepted f a b n s) := by
  have since : fbSince (abAccepted f a b n s) f 1 = firstSample s n := by
    rw [← accepted_ab]
    exact accepted_since hp.steady (by decide) rfl (by rwa [testBit_ab_one])
  rw [fbFilter_ab hp h1 (.inr hb), quadMove_b (by rwa [abAccepted_a]) (by rwa [abAccepted_b]), since, abAccepted_b,
    abAccepted_cfg]

theorem fbFilter_z (h1 : fbMode s f = 1) (hd : (fbLevel s f).testBit 2 ≠ z) :
    fbFilter f (fbSample f 4 (b2n z * 4) n s) = indexMove f (fbLevel s f) (zAccepted f z n s) := by
  have changed : mixed 4 (b2n z * 4) (fbLevel s f) ≠ fbLevel s f :=
    mixed_ne (i := 2) (by decide) (by decide) rfl (by rwa [testBit_z])
  rw [fbFilter_passes (by decide) hp changed (by omega) (by omega), accepted_z]
  exact levelsMove_index ((fbMode_levelSet _).trans h1) (zAccepted_ab (by decide)).symm (zAccepted_ab (by decide)).symm

theorem index_falls (h1 : fbMode s f = 1) (hz : z = false) (hd : 4 ≤ fbLevel s f) :
    fbFilter f (fbSample f 4 (b2n z * 4) n s) = zAccepted f z n s := by
  have high : (fbLevel s f).testBit 2 = true := (testBit_two fbLevel_lt).trans (decide_eq_true hd)
  rw [fbFilter_z hp h1 (by rw [high, hz]; decide)]
  exact indexMove_not_risen (.inl (zAccepted_z.trans hz))

theorem index_rises (h1 : fbMode s f = 1) (hz : z = true) (hd : fbLevel s f < 4)
    (hq : tb (s.rg (fr f Fb.CFG)) 21 = false) (ha : ((zAccepted f z n s).fb f).armed = false) :
    fbFilter f (fbSample f 4 (b2n z * 4) n s) =
      indexTaken f (s.rg (fr f Fb.REV_COUNT)).toNat (zAccepted f z n s) := by
  have low : (fbLevel s f).testBit 2 = false := (testBit_two fbLevel_lt).trans (decide_eq_false (Nat.not_le_of_lt hd))
  have cfg : (zAccepted f z n s).rg (fr f Fb.CFG) = s.rg (fr f Fb.CFG) := levelSet_rg_ne (by decide) _
  have rev : (zAccepted f z n s).rg (fr f Fb.REV_COUNT) = s.rg (fr f Fb.REV_COUNT) := levelSet_rg_ne (by decide) _
  rw [fbFilter_z hp h1 (by rw [low, hz]; decide), indexMove_rises (zAccepted_z.trans hz) low (by rw [cfg, hq]) ha, rev]

end
end

/-! ### Hall sensors (R202) -/

/-- The sector of the Hall state `h`. -/
abbrev hallSector (s : State) (f h : Nat) : Nat := fld (s.rg (fr f Fb.HALLMAP)) (3 * h + 2) (3 * h)
/-- The edge time of a Hall change: that of the input accepted last. -/
def hallSince (s : State) (f h old : Nat) : Nat :=
  ((List.range 3).filter (fun i => h.testBit i ≠ old.testBit i)).foldl (fun m i => max m (fbSince s f i)) 0

/-- The largest of values that are all `c`. -/
theorem foldl_max_const {g : Nat → Nat} {c : Nat} {l : List Nat} (h : ∀ i ∈ l, g i = c) (hl : l ≠ []) (m : Nat) :
    l.foldl (fun m i => max m (g i)) m = max m c := by
  induction l generalizing m with
  | nil => exact absurd rfl hl
  | cons i l ih =>
    rw [List.foldl_cons, h i (.head _)]
    obtain rfl | hne := eq_or_ne l []
    · rfl
    · rw [ih (fun j hj => h j (.tail _ hj)) hne, max_assoc, max_self]

theorem hallSince_const {h old c : Nat} (hh : h < 8) (ho : old < 8) (hne : h ≠ old)
    (hc : ∀ i < 3, h.testBit i ≠ old.testBit i → fbSince s f i = c) : hallSince s f h old = c := by
  refine (foldl_max_const (c := c) (fun i hi => ?_) (fun hnil => hne ?_) 0).trans (Nat.zero_max c)
  · obtain ⟨hr, hd⟩ := List.mem_filter.mp hi
    exact hc i (List.mem_range.mp hr) (of_decide_eq_true hd)
  · refine eq_of_three_bits hh ho fun i hi => ?_
    simpa using List.filter_eq_nil_iff.mp hnil i (List.mem_range.mpr hi)

section
variable {old h : Nat} (hl : fbLevel t f = h)
include hl

theorem hallMove_impossible (hn : 5 < hallSector t f h) : hallMove f old t = fbError f 3 t := by
  subst hl
  exact if_pos hn

section
variable (hn : hallSector t f h ≤ 5)
include hn

theorem hallMove_forward (hs : hallSector t f h = (fld (t.rg (fr f Fb.STAT)) 26 24 + 1) % 6) : hallMove f old t =
    fbCount f (hallSince t f h old) (!tb (t.rg (fr f Fb.CFG)) 27)
      (t.setRgFld (fr f Fb.STAT) 26 24 (hallSector t f h)) := by
  subst hl
  exact (if_neg (Nat.not_lt_of_le hn)).trans (if_pos hs)

theorem hallMove_backward (hf : hallSector t f h ≠ (fld (t.rg (fr f Fb.STAT)) 26 24 + 1) % 6)
    (hs : hallSector t f h = (fld (t.rg (fr f Fb.STAT)) 26 24 + 5) % 6) : hallMove f old t =
    fbCount f (hallSince t f h old) (tb (t.rg (fr f Fb.CFG)) 27)
      (t.setRgFld (fr f Fb.STAT) 26 24 (hallSector t f h)) := by
  subst hl
  exact (if_neg (Nat.not_lt_of_le hn)).trans ((if_neg hf).trans (if_pos hs))

end
end

section
variable {h n : Nat}

/-- The state after samples of the Hall state `h` that the filter accepts. -/
def hallAccepted (f h n : Nat) (s : State) : State := levelSet f h (fbSample f 7 h n s)

theorem accepted_all (hh : h < 8) : accepted f 7 h n s = hallAccepted f h n s :=
  congrArg (levelSet f · _) (mixed_all fbLevel_lt hh)
theorem fbLevel_hallAccepted (hh : h < 8) : fbLevel (hallAccepted f h n s) f = h := fbLevel_levelSet hh
theorem hallAccepted_cfg : (hallAccepted f h n s).rg (fr f Fb.CFG) = s.rg (fr f Fb.CFG) := levelSet_rg_ne (by decide) _
theorem hallAccepted_map (q : Nat) : hallSector (hallAccepted f h n s) f q = hallSector s f q :=
  congrArg (fld · _ _) (levelSet_rg_ne (by decide) _)
theorem hallAccepted_sector :
    fld ((hallAccepted f h n s).rg (fr f Fb.STAT)) 26 24 = fld (s.rg (fr f Fb.STAT)) 26 24 := levelSet_sector _

section
variable (hp : Passes s f n) (hh : h < 8) (hd : fbLevel s f ≠ h)
include hp hh hd

theorem fbFilter_all (h0 : fbMode s f ≠ 0) (h3 : fbMode s f ≤ 3) :
    fbFilter f (fbSample f 7 h n s) = levelsMove f (fbLevel s f) (hallAccepted f h n s) := by
  rw [fbFilter_passes (by decide) hp (by rw [mixed_all fbLevel_lt hh]; exact hd.symm) h0 h3, accepted_all hh]

theorem hallAccepted_since : hallSince (hallAccepted f h n s) f h (fbLevel s f) = firstSample s n := by
  refine hallSince_const hh fbLevel_lt hd.symm fun i hi hne => ?_
  have named : ∀ i < 3, Nat.testBit 7 i = true := by decide
  rw [← accepted_all hh]
  exact accepted_since hp.steady hi (named i hi) hne.symm

section
variable (h2 : fbMode s f = 2)
include h2

theorem fbFilter_hall :
    fbFilter f (fbSample f 7 h n s) = hallMove f (fbLevel s f) (hallAccepted f h n s) := by
  rw [fbFilter_all hp hh hd (by omega) (by omega)]
  exact levelsMove_hall ((fbMode_levelSet _).trans h2)

theorem hall_impossible (hn : 5 < hallSector s f h) :
    fbFilter f (fbSample f 7 h n s) = fbError f 3 (hallAccepted f h n s) := by
  rw [fbFilter_hall hp hh hd h2, hallMove_impossible (fbLevel_hallAccepted hh) (by rwa [hallAccepted_map])]

section
variable (hn : hallSector s f h ≤ 5)
include hn

theorem hall_forward (hs : hallSector s f h = (fld (s.rg (fr f Fb.STAT)) 26 24 + 1) % 6) :
    fbFilter f (fbSample f 7 h n s) = fbCount f (firstSample s n) (!tb (s.rg (fr f Fb.CFG)) 27)
      ((hallAccepted f h n s).setRgFld (fr f Fb.STAT) 26 24 (hallSector s f h)) := by
  rw [fbFilter_hall hp hh hd h2, hallMove_forward (fbLevel_hallAccepted hh) (by rwa [hallAccepted_map])
    (by rwa [hallAccepted_map, hallAccepted_sector]), hallAccepted_since hp hh hd, hallAccepted_cfg, hallAccepted_map]

theorem hall_backward (hf : hallSector s f h ≠ (fld (s.rg (fr f Fb.STAT)) 26 24 + 1) % 6)
    (hs : hallSector s f h = (fld (s.rg (fr f Fb.STAT)) 26 24 + 5) % 6) :
    fbFilter f (fbSample f 7 h n s) = fbCount f (firstSample s n) (tb (s.rg (fr f Fb.CFG)) 27)
      ((hallAccepted f h n s).setRgFld (fr f Fb.STAT) 26 24 (hallSector s f h)) := by
  rw [fbFilter_hall hp hh hd h2, hallMove_backward (fbLevel_hallAccepted hh) (by rwa [hallAccepted_map])
    (by rwa [hallAccepted_map, hallAccepted_sector]) (by rwa [hallAccepted_map, hallAccepted_sector]),
    hallAccepted_since hp hh hd, hallAccepted_cfg, hallAccepted_map]

end
end
end
end

/-! ### I/O mode (R199) -/

section
variable {n : Nat} (hp : Passes s f n) (h3 : fbMode s f = 3)
include hp h3

theorem io_accepts {mask lv : Nat} (hm : mask < 8) (hd : mixed mask lv (fbLevel s f) ≠ fbLevel s f) :
    fbFilter f (fbSample f mask lv n s) = accepted f mask lv n s := by
  rw [fbFilter_passes hm hp hd (by omega) (by omega)]
  exact levelsMove_io ((fbMode_levelSet _).trans h3)

theorem io_ab {a b : Bool} (hd : fbLevel s f % 4 ≠ b2n b * 2 + b2n a) :
    fbFilter f (fbSample f 3 (b2n b * 2 + b2n a) n s) = abAccepted f a b n s := by
  rw [io_accepts hp h3 (by decide) (by rw [mixed_ab fbLevel_lt]; omega), accepted_ab]

theorem io_all {h : Nat} (hh : h < 8) (hd : fbLevel s f ≠ h) :
    fbFilter f (fbSample f 7 h n s) = hallAccepted f h n s := by
  rw [io_accepts hp h3 (by decide) (by rw [mixed_all fbLevel_lt hh]; exact hd.symm), accepted_all hh]

theorem io_z {z : Bool} (hd : (fbLevel s f).testBit 2 ≠ z) :
    fbFilter f (fbSample f 4 (b2n z * 4) n s) = zAccepted f z n s := by
  rw [io_accepts hp h3 (by decide) (mixed_ne (i := 2) (by decide) (by decide) rfl (by rwa [testBit_z])), accepted_z]

end

/-! ### Captures and blocks (R196–R198, R208) -/

variable {l : FbLatch} {rest : List FbLatch}

/-- A capture latches the count, the speed and the time, and its block is due 6 coarse ticks later. -/
theorem fbCapture_latches : ∃ y, ((fbCapture f s).fb f).latches = (s.fb f).latches ++ [y] ∧ y.pos = (s.fb f).pos ∧
    y.turns = (s.fb f).turns ∧ y.speed = wInt (fbSpeed s f).1 ∧ y.time = s.time.selvedge ∧
    y.due = s.time.selvedge.toNat + 12 :=
  ⟨_, congrArg FbUnit.latches (setFb_fb_self ..), rfl, rfl, rfl, rfl, rfl⟩

/-- A write of the block of unit `f` is done when a block of it is due. -/
theorem exec_fbBlockWrite_unit (f : Fin 12) (s : State) : exec (.fbBlockWrite (f.castLE (by decide))) s =
    .next (if fbBlockDue s f then fbBlockWrite f s else s) := congrArg _ (if_pos f.isLt)

theorem fbBlockDue_nil (h : (s.fb f).latches = []) : fbBlockDue s f = false := by rw [fbBlockDue, h]

section
variable (h : (s.fb f).latches = l :: rest)
include h

theorem fbBlockDue_cons : fbBlockDue s f = decide (l.due ≤ s.time.selvedge.toNat) := by rw [fbBlockDue, h]

/-- A unit that serves no axis writes no block, and keeps its flags. -/
theorem fbBlockWrite_unbound (ha : tb (s.rg (fr f Fb.AXIS)) 31 = false) :
    fbBlockWrite f s = keepFlags f l.flags (s.setFb f { s.fb f with latches := rest }) := by
  unfold fbBlockWrite
  rw [h]
  exact if_pos (by rw [ha]; rfl)

theorem fbBlockWrite_bound (ha : tb (s.rg (fr f Fb.AXIS)) 31 = true) (hx : fld (s.rg (fr f Fb.AXIS)) 7 0 < 128)
    (hc : ctxBound s (fld (s.rg (fr f Fb.AXIS)) 7 0) = true) : fbBlockWrite f s =
      feedbackPort none (fld (s.rg (fr f Fb.AXIS)) 7 0) l.pos l.turns l.speed l.time l.flags.toNat 0
        (some (.fb, f, Fb.DROPS)) (s.setFb f { s.fb f with latches := rest }) := by
  unfold fbBlockWrite
  rw [h]
  exact (if_neg (by rw [ha]; decide)).trans (if_pos (by simp [hx, hc]))

end

/-- The kept flags join those of the unit where no block waits. -/
theorem keepFlags_last (flags : Word) : keepFlags f flags (s.setFb f { s.fb f with latches := [] }) =
    let popped := s.setFb f { s.fb f with latches := [] }
    popped.setFb f { popped.fb f with flags := (s.fb f).flags ||| (flags &&& 0x5C0) } := by
  simp only [keepFlags, setFb_fb_self]

/-- The kept flags join those of the next block. -/
theorem keepFlags_next (flags : Word) : keepFlags f flags (s.setFb f { s.fb f with latches := l :: rest }) =
    let popped := s.setFb f { s.fb f with latches := l :: rest }
    popped.setFb f
      { popped.fb f with latches := { l with flags := l.flags ||| (flags &&& 0x5C0) } :: rest } := by
  simp only [keepFlags, setFb_fb_self]

/-! ### Registers (R194, R198, R199, R204, R207) -/

theorem plainWrite_fb (b : Blk) (i o : Nat) (v : Word) (sec : Bool) (s : State) (k : Nat) :
    (plainWrite b i o v sec s).fb k = s.fb k := by
  rw [State.fb, plainWrite_feed, State.fb]

/-- The unit starts from `s` with its register written in `t`, whose balls have the levels `p`. -/
def unitBegun (f p : Nat) (v : Word) (s t : State) : State :=
  let fresh := fbRestart f (if fld v 30 28 = 0 ∨ 3 < fld v 30 28 then t else levelSet f p t)
  let begun := if fld v 30 28 = 2 ∧ hallSector s f p ≤ 5
    then fresh.setRgFld (fr f Fb.STAT) 26 24 (hallSector s f p) else fresh
  begun.setFb f { begun.fb f with pos := w32 ((begun.fb f).pos.toNat % revOf (s.rg (fr f Fb.REV_COUNT))) }

section
variable {v : Word} {sec : Bool}

/-- A unit that is enabled keeps the fields that only an enable may change. -/
theorem fbCfgWrite_enabled (h : tb (s.rg (fr f Fb.CFG)) 31 = true) : fbCfgWrite f v sec s =
    (.ok 0, (plainWrite .fb f Fb.CFG v sec s).setRg (fr f Fb.CFG)
      (((plainWrite .fb f Fb.CFG v sec s).rg (fr f Fb.CFG) &&& ~~~ 0x780100FF#32) |||
        (s.rg (fr f Fb.CFG) &&& 0x780100FF#32))) := if_pos h

section
variable (h : tb (s.rg (fr f Fb.CFG)) 31 = false)
include h

theorem fbCfgWrite_off (hv : tb v 31 = false) : fbCfgWrite f v sec s = (.ok 0, plainWrite .fb f Fb.CFG v sec s) :=
  (if_neg (ne_true_of_eq_false h)).trans (if_pos (by rw [hv]; rfl))

section
variable (hv : tb v 31 = true)
include hv

/-- An enable for a slot that another source has claimed is refused. -/
theorem fbCfgWrite_claimed (ha : tb (s.rg (fr f Fb.AXIS)) 31 = true)
    (hc : fbClaimed s (fld (s.rg (fr f Fb.AXIS)) 7 0) f = true) : fbCfgWrite f v sec s =
      (.ok 0, fbFlag f 7 ((plainWrite .fb f Fb.CFG v sec s).setRgBit (fr f Fb.CFG) 31 false)) :=
  (if_neg (ne_true_of_eq_false h)).trans ((if_neg (by rw [hv]; decide)).trans (if_pos (by rw [ha, hc]; rfl)))

theorem fbCfgWrite_starts
    (hc : tb (s.rg (fr f Fb.AXIS)) 31 = true → fbClaimed s (fld (s.rg (fr f Fb.AXIS)) 7 0) f = false) :
    fbCfgWrite f v sec s = (.ok 0, unitBegun f ((plainWrite .fb f Fb.CFG v sec s).fb f).pins.toNat v s
      (plainWrite .fb f Fb.CFG v sec s)) := by
  refine (if_neg (ne_true_of_eq_false h)).trans ((if_neg (by rw [hv]; decide)).trans
    ((if_neg (by simpa using hc)).trans ?_))
  simp only [Bool.or_eq_true, Bool.and_eq_true, decide_eq_true_eq]
  rfl

end
end

theorem fbCtrlWrite_load : fbCtrlWrite f 1 s = (.ok 0, s.setFb f { s.fb f with loadDue := true }) := by
  simp [fbCtrlWrite]

theorem fbCtrlWrite_arm : fbCtrlWrite f 4 s = (.ok 0, s.setFb f { s.fb f with armed := true }) := by
  simp [fbCtrlWrite]

theorem fbCtrlWrite_capture (h : tb (s.rg (fr f Fb.CFG)) 31 = true) (hm : fld (s.rg (fr f Fb.CFG)) 30 28 ≠ 3)
    (ht : fld (s.rg (fr f Fb.TRIG)) 31 30 = 3) :
    fbCtrlWrite f 2 s = (.ok 0, s.setFb f { s.fb f with capDue := true }) := by
  have takes : fbTakes s f = true := (Bool.and_eq_true _ _).mpr ⟨h, decide_eq_true hm⟩
  simp [fbCtrlWrite, takes, ht]

end
end

/-! ### States in which an input passes and a block is due -/

/-- Unit 0 counts quadrature, its inputs have been high, and it has a block to write. -/
def unitSteady : State :=
  (({ State.reset with time.selvedge := w64 100 }.setRg (fr 0 Fb.CFG) 0x90000000).setRg (fr 0 Fb.STAT)
    0xE0000000).setFb 0 { latches := [{ pos := 0, turns := 0, speed := 0, time := 0, flags := 0, due := 100 }] }
theorem unitSteady_passes : Passes unitSteady 0 1 := ⟨by decide, by decide, by decide⟩
theorem unitSteady_due :
    fbMode unitSteady 0 = 1 ∧ fbLevel unitSteady 0 = 7 ∧ fbBlockDue unitSteady 0 = true := by decide
/-- Unit 0 is in Hall mode, where the states 5 and 3 are the sectors after and before `SECTOR`, and 0 is none. -/
def unitHall : State := (unitSteady.setRg (fr 0 Fb.CFG) 0xA0000000).setRg (fr 0 Fb.HALLMAP) 0x8A07
theorem unitHall_passes : Passes unitHall 0 1 := ⟨by decide, by decide, by decide⟩
theorem unitHall_sectors : fbMode unitHall 0 = 2 ∧ hallSector unitHall 0 5 = 1 ∧ hallSector unitHall 0 3 = 5 ∧
    fld (unitHall.rg (fr 0 Fb.STAT)) 26 24 = 0 ∧ 5 < hallSector unitHall 0 0 := by decide

/-! ### The statement -/

/-- Settles O32: each clause is the lemma about that outcome of the write, the input, the capture or the block. -/
theorem feedbackUnits : Obligations.FeedbackUnits := by
  unfold Obligations.FeedbackUnits
  intro s m f h a b z n v l rest c ax u wr lv k first steady passes level abSeen ab hall sector new zSeen zs rev bad
    diff p start fresh begun popped kept due
  have quad {t : State} (ht : fbFilter f (fbSample f 3 (b2n b * 2 + b2n a) n.toNat s) = t) :
      exec (.quadEdge f a b n) s = .next t := (exec_quadEdge ..).trans (congrArg _ ht)
  have hallEdge {t : State} (ht : fbFilter f (fbSample f 7 h n.toNat s) = t) :
      exec (.hallChange f h n) s = .next t := (exec_hallChange ..).trans (congrArg _ ht)
  have zEdge {t : State} (ht : fbFilter f (fbSample f 4 (b2n z * 4) n.toNat s) = t) :
      exec (.indexEdge f z n) s = .next t := (exec_indexEdge ..).trans (congrArg _ ht)
  have pass : passes → Passes s f n.toNat := fun ⟨he, hc, hs⟩ => ⟨he, hc, hs⟩
  have written {t : State} (h : (if fbBlockDue s f then fbBlockWrite f s else s) = t) :
      exec (.fbBlockWrite (f.castLE (by decide))) s = .next t := (exec_fbBlockWrite_unit f s).trans (congrArg _ h)
  have nowDue (hl : u.latches = l :: rest) (hd : due) : fbBlockDue s f = true :=
    (fbBlockDue_cons hl).trans (decide_eq_true hd)
  refine ⟨fun hc => writes_of _ (exec_fbEnable ..) (fbCfgWrite_enabled hc),
    fun hc hv => writes_of _ (exec_fbEnable ..) (fbCfgWrite_off hc hv),
    fun hc hv ha hx => writes_of _ (exec_fbEnable ..) (fbCfgWrite_claimed hc hv ha hx),
    fun hc hv hx => writes_of _ (exec_fbEnable ..) (fbCfgWrite_starts hc hv hx),
    ?sampled, fun hq => ?ignored, fun hp hm => ⟨fun hd => quad (io_ab (pass hp) hm hd),
      fun hd => hallEdge (io_all (pass hp) hm h.isLt hd), fun hd => zEdge (io_z (pass hp) hm hd)⟩,
    fun hp hm ha hb => quad (quad_both (pass hp) hm ha hb),
    fun hp hm ha hb => quad (quad_a (pass hp) hm ha hb),
    fun hp hm ha hb => quad (quad_b (pass hp) hm ha hb),
    fun hp hm hd hn => hallEdge (hall_impossible (pass hp) h.isLt hd hm hn),
    fun hp hm hd hn hs => hallEdge (hall_forward (pass hp) h.isLt hd hm hn hs),
    fun hp hm hd hn hf hs => hallEdge (hall_backward (pass hp) h.isLt hd hm hn hf hs),
    fun hp hm hz hl => zEdge (index_falls (pass hp) hm hz hl),
    fun hp hz hm hl hq ha => zEdge (index_rises (pass hp) hm hz hl hq ha),
    writes_of _ (exec_fbLoad ..) fbCtrlWrite_load, writes_of _ (exec_idxarm ..) fbCtrlWrite_arm,
    fun hc hm ht => writes_of _ (exec_capnow ..) (fbCtrlWrite_capture hc hm ht),
    fun hd => congrArg _ (if_neg (ne_true_of_eq_false hd)), fun hd => congrArg _ (if_pos hd), fun hd t ht => ?latched,
    fun hl => written (if_neg (ne_true_of_eq_false (fbBlockDue_nil hl))),
    fun hl hd => written (if_neg (by rw [fbBlockDue_cons hl]; exact mt of_decide_eq_true hd)),
    fun hl hd ha => written ((if_pos (nowDue hl hd)).trans ((fbBlockWrite_unbound hl ha).trans ?unbound)),
    fun hl hd ha hx hc => written ((if_pos (nowDue hl hd)).trans (fbBlockWrite_bound hl ha hx hc))⟩
  case sampled =>
    have since : fbSince abSeen f 0 = if u.pins.getLsbD 0 = a then min (fbSince s f 0) first else first := by
      rw [fbSample_since (by decide), sampledSince, testBit_ab_zero]
      rfl
    exact ⟨(fbSample_pins (by decide)).trans (mixed_ab u.pins.isLt a b), fun hd => since.trans (if_neg hd),
      fun hd => since.trans (if_pos hd)⟩
  case ignored =>
    have stays {mask lv : Nat} (hm : mask < 8) :
        fbFilter f (fbSample f mask lv n.toNat s) = fbSample f mask lv n.toNat s := by
      obtain ⟨hn, hs⟩ | ho := hq
      · exact fbFilter_few hm hs hn
      · exact fbFilter_off ho
    exact ⟨quad (stays (by decide)), hallEdge (stays (by decide)), zEdge (stays (by decide))⟩
  case latched =>
    have captured : exec (.fbCapture f) s = .next (fbCapture f s) := congrArg _ (if_pos hd)
    have same : fbCapture f s = t := Host.Outcome.next.inj (captured.symm.trans ht)
    rw [← same]
    exact fbCapture_latches
  case unbound =>
    cases rest with
    | nil => exact keepFlags_last _
    | cons y ys => exact keepFlags_next _

end Sys2Proof.Machine
end

section
/-! What a read of memory records of what it finds, and that it leaves every other register (R337, R365, R368, R394). -/

namespace Sys2Proof.Machine

/-! ### Registers of another block -/

/-- A register lies in the 64 KiB slot of its block (R336). -/
theorem Blk.addr_slot (k : Blk) {o : Nat} (ho : o < 0x10000) : k.addr 0 o / 0x10000 = k.base / 0x10000 := by
  have aligned : k.base % 0x10000 = 0 := by cases k <;> rfl
  unfold Blk.addr
  omega

section
variable {s : State} {a o : Nat} {k : Blk} (h : a / 0x10000 ≠ k.base / 0x10000) (ho : o < 0x10000)
include h ho

/-- A write of a register leaves those of other blocks. -/
theorem setRg_rg_block (v : Word) : (s.setRg (k.addr 0 o) v).rg a = s.rg a :=
  setRg_rg_ne _ _ _ fun e => h (e ▸ k.addr_slot ho)

theorem setRgBit_rg_block (i : Nat) (x : Bool) : (s.setRgBit (k.addr 0 o) i x).rg a = s.rg a :=
  setRg_rg_block h ho _

/-- A count leaves the registers of other blocks: the counter and its `SAT` flag lie in its own (R119). -/
theorem bump_rg_block {so bit : Nat} (hs : satAt k o = some (so, bit)) (hf : so < 0x10000) :
    (bump k 0 o s).rg a = s.rg a := by
  unfold bump bumpN
  extract_lets v v' s1
  have counted : s1.rg a = s.rg a := setRg_rg_block h ho _
  rw [hs]
  split
  · exact (setRgBit_rg_block h hf ..).trans counted
  · exact counted

end

/-! ### What a read records -/

/-- The register at an address lies in none of the blocks where a read of memory records what it finds: the region
map, the memory controllers and the flash control. -/
structure Unrecorded (a : Nat) : Prop where
  rgn : a / 0x10000 ≠ Blk.rgn.base / 0x10000
  memc : a / 0x10000 ≠ Blk.memc.base / 0x10000
  flc : a / 0x10000 ≠ Blk.flc.base / 0x10000

section
variable {a : Nat} (h : Unrecorded a)
include h

theorem worldCheck_rg (mid sub : Nat) (sec : Bool) (pa : Nat) (write : Bool) (s : State) :
    (worldCheck mid sub sec pa write s).2.rg a = s.rg a := by
  unfold worldCheck
  split
  · unfold rgnRecord
    dsimp only
    split
    · exact setRgBit_rg_block h.rgn (by decide) ..
    · rw [setRg_rg_block h.rgn (by decide), setRg_rg_block h.rgn (by decide), setRg_rg_block h.rgn (by decide)]
  · rfl

theorem worldSpan_rg (mid sub : Nat) (sec : Bool) (pa n : Nat) (write : Bool) (s : State) :
    (worldSpan mid sub sec pa n write s).2.rg a = s.rg a := by
  have first := worldCheck_rg h mid sub sec pa write s
  unfold worldSpan
  dsimp only
  split
  · next hc => rwa [hc] at first
  · next hc =>
    rw [hc] at first
    split
    · exact (worldCheck_rg h ..).trans first
    · exact first

theorem memError_rg (ue : Bool) (mid pa : Nat) (s : State) : (memError ue mid pa s).rg a = s.rg a := by
  unfold memError memErrorIn
  extract_lets cnt s1 s2
  have counted : s1.rg a = s.rg a := by
    refine (setRgBit_rg_block h.memc (by decide) ..).trans ?_
    dsimp only [cnt]
    split <;> exact bump_rg_block h.memc (by decide) rfl (by decide)
  rw [raiseEvent_rg, ← counted]
  dsimp only [s2]
  split
  · exact (setRg_rg_block h.memc (by decide) _).trans (setRg_rg_block h.memc (by decide) _)
  · rfl

theorem memFails_rg (mid pa n : Nat) (s : State) : (memFails mid pa n s).rg a = s.rg a := by
  have at_ : (errorAt pa n s).2.rg a = s.rg a := by
    unfold errorAt
    split
    · rfl
    · dsimp only
      split <;> rfl
  exact (memError_rg h ..).trans at_

omit h in
theorem drawBytes_rg (n : Nat) (s : State) : (drawBytes n s).2.rg a = s.rg a := by
  induction n generalizing s with
  | zero => rfl
  | succ n ih => exact ih s.draw.2

theorem lineRead_rg (mid sub : Nat) (fetch : Bool) (ecc : Ecc) (pa n : Nat) (s : State) :
    (lineRead mid sub fetch ecc pa n s).2.rg a = s.rg a := by
  unfold lineRead
  extract_lets k s1 failed
  split
  · exact setRgBit_rg_block h.flc (by decide) ..
  · split
    · have counted : failed.rg a = s.rg a :=
        (setRg_rg_block h.flc (by decide) _).trans (bump_rg_block h.flc (by decide) rfl (by decide))
      exact (raiseEvent_rg ..).trans ((setRgBit_rg_block h.flc (by decide) ..).trans counted)
    · extract_lets s2
      have found : s2.rg a = s.rg a := by
        dsimp only [s2]
        split
        · exact (setRgBit_rg_block h.flc (by decide) ..).trans (bump_rg_block h.flc (by decide) rfl (by decide))
        · rfl
      split
      · exact (drawBytes_rg ..).trans found
      · exact found

theorem linesRead_rg (mid sub : Nat) (fetch : Bool) (ecc : Ecc) (bad lines pa n : Nat) (s : State) :
    (linesRead mid sub fetch ecc bad lines pa n s).2.rg a = s.rg a := by
  induction lines generalizing ecc bad pa n s with
  | zero => rfl
  | succ lines ih =>
    unfold linesRead
    extract_lets k
    have line := lineRead_rg h mid sub fetch (if bad = 0 then ecc else .clean) pa k s
    split
    · next hl => rwa [hl] at line
    · next s1 hl =>
      rw [hl] at line
      have rest := ih (if bad = 0 then .clean else ecc) (bad - 1) (pa + k) (n - k) s1
      split <;> next hr => rw [hr] at rest; exact rest.trans line

theorem flashRead_rg (mid sub : Nat) (fetch : Bool) (ecc : Ecc) (pa n : Nat) (s : State) :
    (flashRead mid sub fetch ecc pa n s).2.rg a = s.rg a := by
  unfold flashRead
  dsimp only
  split <;> exact linesRead_rg h ..

/-- A read of memory leaves the registers of every other block. -/
theorem memRead_rg (m : Master) (fetch : Bool) (ecc : Ecc) (pa n : Nat) (s : State) :
    (memRead m fetch ecc pa n s).2.rg a = s.rg a := by
  have span := worldSpan_rg h m.mid m.sub m.sec pa n false s
  unfold memRead
  split
  · rfl
  · dsimp only
    split
    · exact span
    · split
      · exact (flashRead_rg h ..).trans span
      · exact span
      · exact span
      · split
        · exact (memFails_rg h ..).trans span
        · dsimp only
          split
          · exact (memError_rg h ..).trans span
          · exact span

end

end Sys2Proof.Machine
end

section
/-! DMA channels (R356–R363): what a write of `CFG` or `KICK`, the placing of a ring, a request, a descriptor, a burst and a
write-back give, one lemma for each outcome; then the statement about them. -/

namespace Sys2Proof.Machine

section
variable {s s1 s2 : State} {c : Nat} {v b : Word} {sec werr : Bool} {ecc wecc : Ecc} {bs : List Byte} {r : DmaRun}

/-! ### Enable and kick (R358, R362, R363) -/

/-- The write of a running channel's `CFG`: its priority and `EN` alone take the values written (R362). -/
def cfgRunning (c : Nat) (v : Word) (s : State) : State :=
  s.setRg (ra .dma (Dma.CH_CFG c)) (setBit (setFld (dmaCfg s c) 25 24 (fld v 25 24)) 31 (tb v 31))
/-- The write of a stopped channel's `CFG`, with `EN` still clear. -/
def cfgStopped (c : Nat) (v : Word) (sec : Bool) (s : State) : State :=
  (plainWrite .dma 0 (Dma.CH_CFG c) v sec s).setRgBit (ra .dma (Dma.CH_CFG c)) 31 false

section
variable (h : tb (dmaCfg s c) 31 = true)
include h

theorem dmaEnable_goes_on (hv : tb v 31 = true ∨ (s.chan c).run.isSome = true) :
    dmaEnable c v sec s = (.ok 0, cfgRunning c v s) := by
  have stays : (!tb v 31 && (s.chan c).run.isNone) = false := by
    rcases hv with hv | hv
    · rw [hv]; rfl
    · rw [Option.isNone_eq_false_iff.mpr hv, Bool.and_false]
  exact (if_pos h).trans (congrArg _ (if_neg (ne_true_of_eq_false stays)))

theorem dmaEnable_stops (hv : tb v 31 = false) (hr : (s.chan c).run = none) :
    dmaEnable c v sec s = (.ok 0, dmaStop c (cfgRunning c v s)) :=
  (if_pos h).trans (congrArg _ (if_pos (by rw [hv, hr]; rfl)))

end

section
variable (h : tb (dmaCfg s c) 31 = false)
include h

theorem dmaEnable_stays_off (hv : tb v 31 = false) : dmaEnable c v sec s = (.ok 0, cfgStopped c v sec s) :=
  (if_neg (ne_true_of_eq_false h)).trans (congrArg _ (if_neg (ne_true_of_eq_false hv)))

theorem dmaEnable_starts (hv : tb v 31 = true) : dmaEnable c v sec s = (.ok 0, dmaStart c (cfgStopped c v sec s)) :=
  (if_neg (ne_true_of_eq_false h)).trans (congrArg _ (if_pos hv))

end

theorem dmaKick_taken (hv : tb v 0 = true) (h : tb (dmaStat s c) 29 = true) :
    dmaKick c v s = (.ok 0, s.setChan c { s.chan c with idle := false, held := none }) :=
  congrArg _ (if_pos (by simp only [hv, h, Bool.and_self]))

theorem dmaKick_ignored (h : tb v 0 = false ∨ tb (dmaStat s c) 29 = false) : dmaKick c v s = (.ok 0, s) :=
  congrArg _ (if_neg (by rcases h with h | h <;> simp only [h, Bool.false_and, Bool.and_false, Bool.false_eq_true,
    not_false_eq_true]))

/-! ### The placing of a ring (R247, R363) -/

/-- The Saddler is to place the ring: the channel is enabled with `AUTO`, and its ring is not ready. -/
abbrev asksRing (s : State) (c : Nat) : Prop :=
  tb (dmaCfg s c) 31 = true ∧ tb (dmaCfg s c) 28 = true ∧ tb (dmaStat s c) 29 = false

theorem asksRing_iff : asksRing s c ↔ (tb (dmaCfg s c) 31 && tb (dmaCfg s c) 28 && !tb (dmaStat s c) 29) = true := by
  simp only [asksRing, Bool.and_eq_true, Bool.not_eq_true', and_assoc]

theorem ringPlaced_unasked (h : ¬asksRing s c) (base : Option Word) : ringPlaced c base s = s :=
  if_pos (by rw [asksRing_iff, Bool.not_eq_true] at h; rw [h]; rfl)

section
variable (h : asksRing s c)
include h

theorem ringPlaced_no_room : ringPlaced c none s = dmaFlag c 5 true (dmaStop c s) := by
  rw [asksRing_iff] at h
  exact if_neg (by rw [h]; decide)

/-- A ring placed in the Twill SRAM is cleared, and ready. -/
theorem ringPlaced_in_sram (hl : qLevel s (b.toNat * 256) (32 * ringSlots s c) = some 2) : ringPlaced c (some b) s =
    dmaFlag c 29 true (agentWrite midSadl true (b.toNat * 256) (List.replicate (32 * ringSlots s c) 0)
      (s.setRg (ra .dma (Dma.CH_RBASE c)) b)).2 := by
  rw [asksRing_iff] at h
  exact (if_neg (by rw [h]; decide)).trans (if_pos hl)

end

/-! ### Descriptors (R358, R359) -/

/-- The channel can act: the device is powered and the ring is ready. -/
abbrev dmaAble (s : State) (c : Nat) : Prop := powered s = true ∧ tb (dmaStat s c) 29 = true

theorem not_dmaAble_iff : ¬dmaAble s c ↔ (!powered s || !tb (dmaStat s c) 29) = true := by
  rw [dmaAble, ← Bool.and_eq_true, Bool.not_eq_true, ← Bool.not_and, Bool.not_eq_true']

theorem dmaDescriptor_unable (h : ¬dmaAble s c) : dmaDescriptor c ecc werr wecc s = s :=
  if_pos (not_dmaAble_iff.mp h)

section
variable (h : dmaAble s c)
include h

section
variable (hr : (s.chan c).run = none)
include hr

theorem dmaDescriptor_off (ho : tb (dmaCfg s c) 31 = false) : dmaDescriptor c ecc werr wecc s = s := by
  unfold dmaDescriptor
  rw [hr, ho]
  exact if_neg fun hu => not_dmaAble_iff.mpr hu h

/-- On a descriptor that is not the engine's the channel waits for a kick or a request. -/
theorem dmaDescriptor_idle (hh : (s.chan c).held = none) (hi : (s.chan c).idle = true) :
    dmaDescriptor c ecc werr wecc s = s := by
  unfold dmaDescriptor
  rw [hr, hh, hi]
  refine (if_neg fun hu => not_dmaAble_iff.mpr hu h).trans ?_
  exact ite_self _

variable (ho : tb (dmaCfg s c) 31 = true)
include ho

theorem dmaDescriptor_held (hh : (s.chan c).held = some r) : dmaDescriptor c ecc werr wecc s = dmaBegin c r s := by
  unfold dmaDescriptor
  rw [hr, hh, ho]
  exact if_neg fun hu => not_dmaAble_iff.mpr hu h

theorem dmaDescriptor_fetches (hh : (s.chan c).held = none) (hi : (s.chan c).idle = false) :
    dmaDescriptor c ecc werr wecc s = dmaFetch c ecc s := by
  unfold dmaDescriptor
  rw [hr, hh, hi, ho]
  exact if_neg fun hu => not_dmaAble_iff.mpr hu h

end

/-- The channel whose turn it is moves a burst of its descriptor (R361). -/
theorem dmaDescriptor_bursts (hr : (s.chan c).run = some r) (he : r.ends = none) (ho : tb (dmaCfg s c) 31 = true)
    (hb : burstOwner s = some c) : dmaDescriptor c ecc werr wecc s = dmaBurst c ecc werr wecc r s := by
  unfold dmaDescriptor
  rw [hr, ho]
  refine (if_neg fun hu => not_dmaAble_iff.mpr hu h).trans ((if_neg (by rw [he]; decide)).trans ?_)
  exact if_pos hb

end

/-- A descriptor that waits for its request goes on waiting without one. -/
theorem dmaBegin_waits (hw : tb (r.w 0) 25 = true) (hq : Tbl.get (fun _ => false) s.time.dmaReq c = false) :
    dmaBegin c r s = dmaFlag c 30 true (s.setChan c { s.chan c with held := some r }) :=
  if_pos (by rw [hw, hq]; rfl)

/-- A valid descriptor without lists that waits for no request is begun. -/
theorem dmaBegin_begins (hw : tb (r.w 0) 25 = false) (hv : descInvalid r (tb (dmaCfg s c) 29) = false)
    (hd : tb (r.w 0) 26 = false) (hs : tb (r.w 0) 27 = false) : dmaBegin c r s =
      ((dmaFlag c 30 false s).setChan c { s.chan c with held := none, run := some { r with src := none, dst := none } }).setRg
        (ra .dma (Dma.CH_CUR c)) (w32 r.len) := by
  simp only [dmaBegin, hw, hv, hd, hs, Bool.false_and, Bool.false_eq_true, if_false]
  rfl

/-- The eight words that a descriptor's bytes spell. -/
def descWords (bs : List Byte) : List Word := (List.range 8).map (fun k => w32 (ofBytes ((bs.drop (4 * k)).take 4)))
/-- The descriptor at the head, with the words that were read. -/
def headDesc (s : State) (c : Nat) (bs : List Byte) : DmaRun := { entry := headAddr s c, desc := descWords bs }

theorem dmaFetch_failed {e : BusErr} (h : memRead (dmaMaster s c) false ecc (headAddr s c) 32 s = (.error e, s1)) :
    dmaFetch c ecc s = ringError c s1 := by
  unfold dmaFetch
  rw [h]

section
variable (h : memRead (dmaMaster s c) false ecc (headAddr s c) 32 s = (.ok bs, s1))
include h

theorem dmaFetch_not_owned (ho : tb ((headDesc s c bs).w 0) 31 = false) :
    dmaFetch c ecc s = s1.setChan c { s1.chan c with idle := true } := by
  unfold dmaFetch
  rw [h]
  exact if_pos (congrArg (! ·) ho)

theorem dmaFetch_owned (ho : tb ((headDesc s c bs).w 0) 31 = true) : dmaFetch c ecc s = dmaBegin c (headDesc s c bs) s1 := by
  unfold dmaFetch
  rw [h]
  exact if_neg (ne_true_of_eq_false (congrArg (! ·) ho))

end

/-- The reads of a channel leave its `CFG`. -/
theorem memRead_dmaCfg (hc : c < 32) (m : Master) (ecc : Ecc) (pa n : Nat) (s : State) :
    dmaCfg (memRead m false ecc pa n s).2 c = dmaCfg s c := by
  have slot : ra .dma (Dma.CH_CFG c) / 0x10000 = Blk.dma.base / 0x10000 := Blk.dma.addr_slot (by unfold Dma.CH_CFG; omega)
  refine memRead_rg ⟨?_, ?_, ?_⟩ .. <;> rw [slot] <;> decide

/-! ### Bursts (R358, R360) -/

/-- The bytes of the next burst between two ranges. -/
def burstSize (r : DmaRun) : Nat := min 256 (r.len - r.moved)
/-- The state in which a channel's burst begins: it is the last one served (R361). -/
def burstTurn (c : Nat) (s : State) : State := { s with dma.last := c }

/-- The turn leaves the master that a channel is. -/
theorem dmaMaster_burstTurn : dmaMaster (burstTurn c s) c = dmaMaster s c := rfl

/-- The turn leaves the regions of memory, of which the registers give that of the LPDDR 4X. -/
theorem isDevice_burstTurn (pa : Nat) : isDevice (burstTurn c s) pa = isDevice s pa := by
  have ddr : ddrBytes (burstTurn c s) = ddrBytes s := rfl
  unfold isDevice regionOf
  rw [ddr]

/-- A burst between two ranges reads its bytes and writes them. -/
theorem dmaBurst_ranges (hs : r.src = none) (hd : r.dst = none) :
    dmaBurst c ecc werr wecc r s = dmaMove c ecc werr wecc r none none (burstTurn c s) := by
  unfold dmaBurst
  rw [hs, hd]
  rfl

section
variable {m : Master} {pa n : Nat}

theorem burstRead_ok (hm : isDevice s pa = false) (h : memRead m false ecc pa n s = (.ok bs, s1)) :
    burstRead m ecc pa n s = (.ok bs, s1) := by
  unfold burstRead
  rw [h]
  exact if_neg (ne_true_of_eq_false hm)

theorem burstRead_failed {q : BusErr} (hm : isDevice s pa = false) (h : memRead m false ecc pa n s = (.error q, s1)) :
    burstRead m ecc pa n s = (.error (dmaCode false q), s1) := by
  unfold burstRead
  rw [h]
  exact if_neg (ne_true_of_eq_false hm)

theorem burstWrite_ok (hm : isDevice s pa = false) (h : memWrite m wecc pa bs s = (none, s1)) :
    burstWrite m false wecc pa bs s = (bs.length, none, s1) := by
  unfold burstWrite
  rw [h]
  exact if_neg (ne_true_of_eq_false hm)

theorem burstWrite_failed : burstWrite m true wecc pa bs s = (0, some 2, s) := if_pos rfl

theorem dmaData_range (hf : r.fill = false) : dmaData m ecc r pa n s = burstRead m ecc pa n s :=
  if_neg (ne_true_of_eq_false hf)

end

/-- Without lists only the length of the descriptor bounds a burst. -/
theorem burstSize_eq : min (min 256 (r.len - r.moved)) (min 256 256) = burstSize r := by
  rw [min_self, min_eq_left (min_le_left ..)]
  rfl

section
variable (hf : r.fill = false)
include hf

theorem dmaMove_read_failed {q : Nat}
    (h : burstRead (dmaMaster s c) ecc (r.srcAddr + r.moved) (burstSize r) s = (.error q, s1)) :
    dmaMove c ecc werr wecc r none none s = dmaPut c { r with src := none, dst := none, ends := some q } s1 := by
  rw [← dmaData_range hf] at h
  unfold dmaMove
  extract_lets m lim n sa da
  have size : n = burstSize r := burstSize_eq
  clear_value n
  rw [size, h]

theorem dmaMove_written {k : Nat} {e : Option Nat}
    (h : burstRead (dmaMaster s c) ecc (r.srcAddr + r.moved) (burstSize r) s = (.ok bs, s1))
    (hw : burstWrite (dmaMaster s c) werr wecc (r.dstAddr + r.moved) bs s1 = (k, e, s2)) :
    dmaMove c ecc werr wecc r none none s = dmaPut c (r.after none none k e) s2 := by
  rw [← dmaData_range hf] at h
  unfold dmaMove
  extract_lets m lim n sa da
  have size : n = burstSize r := burstSize_eq
  clear_value n
  rw [size, h]
  dsimp only
  rw [hw]

end

section
variable (hs : r.src = none) (hd : r.dst = none) (hf : r.fill = false) (hm : isDevice s (r.srcAddr + r.moved) = false)
include hs hd

theorem after_without_lists (k : Nat) (e : Option Nat) : r.after none none k e = { r with
    moved := r.moved + k, ends := e.or (if r.moved + k = r.len then some 0 else none) } := by
  unfold DmaRun.after
  rw [hs, hd]
  cases e <;> rfl

include hf hm

theorem dmaBurst_read_failed {q : BusErr}
    (h : memRead (dmaMaster s c) false ecc (r.srcAddr + r.moved) (burstSize r) (burstTurn c s) = (.error q, s1)) :
    dmaBurst c ecc werr wecc r s = dmaPut c { r with ends := some (dmaCode false q) } s1 := by
  rw [← isDevice_burstTurn (c := c)] at hm
  rw [← dmaMaster_burstTurn (c := c)] at h
  rw [dmaBurst_ranges hs hd, dmaMove_read_failed hf (burstRead_failed hm h), hs, hd]

variable (h : memRead (dmaMaster s c) false ecc (r.srcAddr + r.moved) (burstSize r) (burstTurn c s) = (.ok bs, s1))
include h

/-- The bytes that were read are written, and the descriptor goes on or ends. -/
theorem dmaBurst_written {k : Nat} {e : Option Nat}
    (hw : burstWrite (dmaMaster s c) werr wecc (r.dstAddr + r.moved) bs s1 = (k, e, s2)) :
    dmaBurst c ecc werr wecc r s = dmaPut c { r with
      moved := r.moved + k, ends := e.or (if r.moved + k = r.len then some 0 else none) } s2 := by
  rw [← isDevice_burstTurn (c := c)] at hm
  rw [← dmaMaster_burstTurn (c := c)] at h hw
  rw [dmaBurst_ranges hs hd, dmaMove_written hf (burstRead_ok hm h) hw, after_without_lists hs hd]

/-- A write that fails on the bus ends the descriptor with code 2. -/
theorem dmaBurst_write_failed : dmaBurst c ecc true wecc r s = dmaPut c { r with ends := some 2 } s1 := by
  rw [dmaBurst_written hs hd hf hm h burstWrite_failed, Option.some_or, Nat.add_zero]

theorem dmaBurst_moves (hn : isDevice s1 (r.dstAddr + r.moved) = false)
    (hw : memWrite (dmaMaster s c) wecc (r.dstAddr + r.moved) bs s1 = (none, s2)) :
    dmaBurst c ecc false wecc r s = dmaPut c { r with
      moved := r.moved + bs.length, ends := if r.moved + bs.length = r.len then some 0 else none } s2 := by
  rw [dmaBurst_written hs hd hf hm h (burstWrite_ok hn hw), Option.none_or]

end

/-! ### Write-back (R358) -/

theorem dmaWriteback_none (h : (s.chan c).run = none) : dmaWriteback c werr wecc s = s := by
  unfold dmaWriteback
  rw [h]

section
variable (h : (s.chan c).run = some r)
include h

theorem dmaWriteback_moving (he : r.ends = none) : dmaWriteback c werr wecc s = s := by
  unfold dmaWriteback
  rw [h]
  dsimp only
  rw [he]

theorem dmaWriteback_failed (he : r.ends.isSome = true) : dmaWriteback c true wecc s = ringError c s := by
  obtain ⟨code, he⟩ := Option.isSome_iff_exists.mp he
  unfold dmaWriteback
  rw [h]
  dsimp only
  rw [he]
  exact if_pos rfl

/-- Word 0 of a descriptor that is closed without an error. -/
def closedWord (r : DmaRun) : Word := setFld (setBit (setBit (r.w 0) 31 false) 30 false) 15 8 0
/-- The descriptor at the head is closed: the next one is at the head, and one more is counted. -/
def descClosed (c : Nat) (s : State) : State :=
  let head := ra .dma (Dma.CH_HEAD c)
  let t := (s.setRg head (w32 (((s.rg head).toNat + 1) % ringSlots s c))).setRg (ra .dma (Dma.CH_CUR c)) 0
  bump .dma 0 (Dma.CH_DONE_CNT c) (t.setChan c { t.chan c with run := none })

/-- A descriptor that ended well, and asks for neither flag nor event, is written back. -/
theorem dmaWriteback_closes (he : r.ends = some 0) (hi : tb (r.w 0) 24 = false) (hv : tb (r.w 0) 23 = false)
    (h7 : memWrite (dmaMaster s c) wecc (r.entry + 28) (toBytes 4 r.moved) s = (none, s1))
    (h0 : memWrite (dmaMaster s c) wecc r.entry (toBytes 4 (closedWord r).toNat) s1 = (none, s2))
    (ho : tb (dmaCfg (descClosed c s2) c) 31 = true) : dmaWriteback c false wecc s = descClosed c s2 := by
  unfold dmaWriteback
  rw [h]
  dsimp only
  rw [he]
  dsimp only
  rw [if_neg Bool.false_ne_true, h7]
  have word : setFld (setBit (setBit (r.w 0) 31 false) 30 (decide (0 ≠ 0))) 15 8 0 = closedWord r := rfl
  dsimp only
  rw [word, h0, hi, hv]
  exact if_pos ho

end
end

/-! ### The statement -/

/-- Settles O45: each clause is the lemma about that outcome of the write, the request, the descriptor or the burst. -/
theorem dmaChannels : Obligations.DmaChannels := by
  unfold Obligations.DmaChannels
  intro s s1 s2 m c v b ecc wecc bs r f rest a st old kept wr x asks able words d me head closed
  have enable {t : State} (h : dmaEnable c v m.sec s = (.ok 0, t)) : Writes (.dmaEnable m c v) s m a t :=
    writes_of_regAccess rfl h
  have kick {t : State} (h : dmaKick c v s = (.ok 0, t)) : Writes (.kick m c v) s m (ra .dma (Dma.CH_KICK c)) t :=
    writes_of_regAccess rfl h
  refine ⟨fun h hv => enable (dmaEnable_goes_on h hv), fun h hv hr => enable (dmaEnable_stops h hv hr),
    fun h hv => enable (dmaEnable_stays_off h hv), fun h hv => enable (dmaEnable_starts h hv),
    fun h => ⟨congrArg _ (ringPlaced_unasked h _), congrArg _ (ringPlaced_unasked h _)⟩,
    fun h => congrArg _ (ringPlaced_no_room h), fun h hl => congrArg _ (ringPlaced_in_sram h hl),
    fun hv h => kick (dmaKick_taken hv h), fun h => kick (dmaKick_ignored h), ?request,
    fun h => congrArg _ (dmaDescriptor_unable h), ?waits, ?held, ?fetch, ?fails, ?moves,
    fun h => congrArg _ (dmaWriteback_none h), fun h he => congrArg _ (dmaWriteback_failed h he), ?moving,
    fun h he hi hv h7 h0 ho => congrArg _ (dmaWriteback_closes h he hi hv h7 h0 ho)⟩
  case request =>
    intro hl hk hd hs
    have valid : flightValid f = true := by simp [flightValid, hk, hd]
    have passes : flightRefused s f = false := by simp [flightRefused, hk, hs]
    refine congrArg _ ((deliver_head_arrives hl (by simp [hk]) valid passes).trans ?_)
    rw [arrive_channel hk, hd]
  case waits =>
    rintro h hr (ho | ⟨hh, hi⟩)
    · exact congrArg _ (dmaDescriptor_off h hr ho)
    · exact congrArg _ (dmaDescriptor_idle h hr hh hi)
  case held =>
    intro h hr ho hh hw hq
    exact congrArg _ ((dmaDescriptor_held h hr ho hh).trans (dmaBegin_waits hw hq))
  case fetch =>
    intro h hr ho hh hi
    have fetches := dmaDescriptor_fetches (werr := false) (ecc := ecc) (wecc := wecc) h hr ho hh hi
    refine ⟨fun e he => congrArg _ (fetches.trans (dmaFetch_failed he)), fun hk => ⟨?_, ?_⟩⟩
    · exact fun hw => congrArg _ (fetches.trans (dmaFetch_not_owned hk hw))
    · intro hw hq hv hd hs
      have cfg : dmaCfg s1 c = dmaCfg s c := by
        have := memRead_dmaCfg c.isLt me ecc (headAddr s c) 32 s
        rwa [hk] at this
      refine congrArg _ (fetches.trans ((dmaFetch_owned hk hw).trans (dmaBegin_begins hq ?_ hd hs)))
      rw [cfg]
      exact hv
  case fails =>
    intro h hr he ho hb hs hd hf n hm _
    have bursts {werr : Bool} : dmaDescriptor c ecc werr wecc s = dmaBurst c ecc werr wecc r s :=
      dmaDescriptor_bursts h hr he ho hb
    exact ⟨fun q hq => congrArg _ (bursts.trans (dmaBurst_read_failed hs hd hf hm hq)),
      fun hk => congrArg _ (bursts.trans (dmaBurst_write_failed hs hd hf hm hk))⟩
  case moves =>
    intro h hr he ho hb hs hd hf n hm hn hk hw
    exact congrArg _ ((dmaDescriptor_bursts h hr he ho hb).trans (dmaBurst_moves hs hd hf hm hk hn hw))
  case moving =>
    rintro (h | ⟨h, he⟩)
    · exact congrArg _ (dmaWriteback_none h)
    · exact congrArg _ (dmaWriteback_moving h he)

end Sys2Proof.Machine
end

section
/-! Partner queues (R298–R304): what the enable, the placing, `PROD`, `CONS` and `NPOP` give, one lemma for each outcome; then
the statement about them. -/

namespace Sys2Proof.Machine

section
variable {s t u : State} {m : Master} {q n l k code : Nat} {v b : Word} {cons : Bool}

/-! ### Register accesses -/

theorem regAccess_passes {pa : Nat} {f : State → Resp × State} {r : Resp} (hg : gateRefuses s m pa 4 = false)
    (hf : f s = (r, t)) : regAccess m pa f s = { t with resp := r } := by
  rw [regAccess, if_neg (ne_true_of_eq_false hg), hf]

/-! ### `PROD` and `CONS` (R300) -/

/-- The word that a write of `PROD` or `CONS` gives for `n` elements of queue `q`. -/
abbrev queueCount (n q : Nat) : Word := w32 (n * 2 ^ 16 + q)

theorem queueCount_queue (hq : q < 8192) : fld (queueCount n q) 12 0 = q := by
  rw [fld, BitVec.toNat_ofNat, Nat.shiftRight_zero]
  omega

theorem queueCount_count (hn : n < 4096) (hq : q < 8192) : fld (queueCount n q) 27 16 = n := by
  rw [fld, BitVec.toNat_ofNat, Nat.shiftRight_eq_div_pow]
  omega

/-- `ERR` keeps the first error until it is cleared, and notes a further one (R300). -/
def errorNoted (m : Master) (q code : Nat) (s : State) : State :=
  if tb (s.rg (ra .qm Qm.ERR)) 31 then s.setRgBit (ra .qm Qm.ERR) 30 true
  else s.setRg (ra .qm Qm.ERR)
    (setBit (w32 (2 ^ 31 + q * 2 ^ 16 + m.sub.val * 2 ^ 9 + m.mid.val * 16 + code)) 30 (tb (s.rg (ra .qm Qm.ERR)) 30))

/-- An access that is answered by an error notes it in `ERR`, or that it is a further one. -/
theorem exec_errorNoted {c : Instr} {pa : Nat} {f : State → Resp × State} (hc : exec c s = .next (regAccess m pa f s))
    (hf : f s = (.err, errorNoted m q code u)) (hg : gateRefuses s m pa 4 = false) :
    (tb (u.rg (ra .qm Qm.ERR)) 31 = false → exec c s = .next { u.setRg (ra .qm Qm.ERR)
      (setBit (w32 (2 ^ 31 + q * 2 ^ 16 + m.sub.val * 2 ^ 9 + m.mid.val * 16 + code)) 30 (tb (u.rg (ra .qm Qm.ERR)) 30))
        with resp := .err }) ∧
    (tb (u.rg (ra .qm Qm.ERR)) 31 = true → exec c s = .next { u.setRgBit (ra .qm Qm.ERR) 30 true with resp := .err }) := by
  rw [regAccess_passes hg hf] at hc
  constructor
  · intro h
    rw [hc, errorNoted, if_neg (ne_true_of_eq_false h)]
  · intro h
    rw [hc, errorNoted, if_pos h]

section
variable (hq : fld v 12 0 = q) (hn : fld v 27 16 = n)
include hn

theorem qmWrite_none (h0 : n = 0) : qmWrite m cons v s = (.ok 0, s) := if_pos (hn.trans h0)

variable (h0 : n ≠ 0)
include hq h0

theorem qmWrite_barred (hw : qWorld s q = true ∧ m.sec = false) : qmWrite m cons v s = (.err, errorNoted m q 3 s) := by
  subst hq hn
  exact (if_neg h0).trans (if_pos (by rw [hw.1, hw.2]; rfl))

variable (hw : ¬(qWorld s q = true ∧ m.sec = false))
include hw

/-- A control block that the queue manager does not reach is that of a disabled queue. -/
theorem qmWrite_away (ho : (queueOpen midQm q s).1 = false) :
    qmWrite m cons v s = (.err, errorNoted m q 1 (queueOpen midQm q s).2) := by
  subst hq hn
  refine (if_neg h0).trans ((if_neg ?_).trans (if_pos (by rw [ho]; rfl)))
  simpa using hw

variable (ho : queueOpen midQm q s = (true, s))
include ho

theorem qmWrite_not_ready (hr : ¬(qEn s q = true ∧ qReady s q = true)) :
    qmWrite m cons v s = (.err, errorNoted m q 1 s) := by
  subst hq hn
  dsimp only [qmWrite]
  rw [ho]
  refine (if_neg h0).trans ((if_neg ?_).trans ((if_neg (by simp)).trans (if_pos ?_)))
  · simpa using hw
  · simpa [imp_iff_not_or] using hr

/-- A queue that is open and ready takes the elements where they stay within its bounds. -/
theorem qmWrite_ready (hr : qEn s q = true ∧ qReady s q = true) : qmWrite m cons v s =
    if cons then (if n ≤ qCount s q then (.ok 0, qConsume q n s) else (.err, errorNoted m q 2 s))
    else if qCount s q + n ≤ 2 ^ qDepth s q then (.ok 0, qProduce q n s)
    else (.err, errorNoted m q 2 s) := by
  subst hq hn
  dsimp only [qmWrite]
  rw [ho]
  refine (if_neg h0).trans ((if_neg ?_).trans ((if_neg (by simp)).trans (if_neg ?_)))
  · simpa using hw
  · rw [hr.1, hr.2]; decide

end

/-! ### `NPOP` (R304) -/

theorem npopRead_empty {i : Nat} (h : notifyFifo s i = []) : npopRead m i s = (.ok 0, s) := by
  unfold npopRead
  rw [h]

theorem npopRead_next {i : Nat} {rest : List Nat} (h : notifyFifo s i = k :: rest) (hm : m.mid.val ≠ 24) :
    npopRead m i s = (.ok (w32 (2 ^ 31 + k)), setNotify i rest s) := by
  unfold npopRead
  rw [h]
  exact congrArg _ (if_neg fun e => hm (congrArg Fin.val e))

/-! ### Automatic placement (R247, R299) -/

/-- The queue is to be placed: it is enabled with `AUTO`, and is not ready. -/
abbrev asksPlace (s : State) (q : Nat) : Prop :=
  tb (qw s q 0) 31 = true ∧ tb (qw s q 0) 29 = true ∧ tb (qw s q 0) 26 = false

theorem autoPlaced_away {base : Option Word} (h : (queueOpen midSadl q s).1 = false) :
    autoPlaced q base s = (queueOpen midSadl q s).2 := if_pos (by rw [h]; rfl)

section
variable (h : queueOpen midSadl q s = (true, s))
include h

theorem autoPlaced_unasked {base : Option Word} (ha : ¬asksPlace s q) : autoPlaced q base s = s := by
  unfold autoPlaced
  rw [h]
  refine if_pos ?_
  simp only [asksPlace] at ha
  rw [Bool.true_and, Bool.not_eq_true', Bool.eq_false_iff]
  simpa [and_assoc] using ha

variable (ha : asksPlace s q)
include ha

theorem autoPlaced_no_room : autoPlaced q none s = qmFlag 8 (qFail q s) := by
  obtain ⟨he, hauto, hready⟩ := ha
  unfold autoPlaced
  rw [h]
  exact if_neg (by rw [he, hauto, hready]; simp)

theorem autoPlaced_fits (hl : qLevel s (b.toNat * 256) (qBytes s q) = some l) (hf : autoFits s q (b.toNat * 256) l = true) :
    autoPlaced q (some b) s = qSet q 0 (setBit (setFld (qw s q 0) 28 27 l) 26 true) (qSet q 1 b s) := by
  obtain ⟨he, hauto, hready⟩ := ha
  unfold autoPlaced
  rw [h]
  refine (if_neg (by rw [he, hauto, hready]; simp)).trans ?_
  dsimp only
  rw [hl]
  exact if_pos hf

end

/-! ### Enable (R299) -/

theorem worldCheck_open {mid sub pa : Nat} {sec write : Bool} (hr : rgnRefuses s sec pa write = false)
    (hf : fixedRefuses s sec pa = false) : worldCheck mid sub sec pa write s = (false, s) := by
  rw [worldCheck, if_neg (ne_true_of_eq_false hr), hf]

/-- A master that the maps let through to the control block gets the answer of the write of its word 0. -/
theorem exec_queueEnable_open {q : Fin 8192} {ok : Bool} (hm : m.reserved = false)
    (hr : rgnRefuses s m.sec (qAddr q 0) true = false) (hf : fixedRefuses s m.sec (qAddr q 0) = false)
    (hw : qctlWrite m.sec q 0 v s = (ok, t)) :
    exec (.queueEnable m q v) s = .next { t with resp := if ok then .ok 0 else .err } := by
  rw [exec_queueEnable, execQueueEnable, worldCheck_open hr hf]
  dsimp only
  rw [if_neg (ne_true_of_eq_false hm), hw]
  rfl

theorem qctlWrite_barred (h : qWorld s q = true ∧ m.sec = false) : qctlWrite m.sec q k v s = (false, s) :=
  if_pos (by rw [h.1, h.2]; rfl)

section
variable (h : ¬(qWorld s q = true ∧ m.sec = false))
include h

section
variable (he : qEn s q = false)
include he

theorem qctlWrite_stays_off (hv : tb v 31 = false) :
    qctlWrite m.sec q 0 v s = (true, qSet q 0 (setBit v 26 false) s) := by
  refine (if_neg (by simpa using h)).trans ((if_neg (ne_true_of_eq_false he)).trans ?_)
  exact congrArg _ (if_neg (ne_true_of_eq_false hv))

theorem qctlWrite_enables (hv : tb v 31 = true) :
    qctlWrite m.sec q 0 v s = (true, qEnable q (qSet q 0 (setBit v 26 false) s)) := by
  refine (if_neg (by simpa using h)).trans ((if_neg (ne_true_of_eq_false he)).trans ?_)
  exact congrArg _ (if_pos hv)

end

/-- While the queue is enabled, only what it notifies and at which threshold take the values written. -/
theorem qctlWrite_enabled (he : qEn s q = true) (hv : tb v 31 = true) : qctlWrite m.sec q 0 v s =
    (true, qSet q 0 ((qw s q 0 &&& ~~~0x03FF00FF#32) ||| (v &&& 0x03FF00FF#32)) s) :=
  (if_neg (by simpa using h)).trans ((if_pos he).trans (if_pos hv))

end
end

/-! ### The statement -/

/-- Settles O41: each clause is the lemma about that outcome of the write, the pop or the placing. -/
theorem queues : Obligations.Queues := by
  unfold Obligations.Queues
  intro s m q n b v t k l rest cmd fails err reached away keep both barred ready placing
  have hq : fld cmd 12 0 = q := queueCount_queue q.isLt
  have hn : fld cmd 27 16 = n := queueCount_count n.isLt q.isLt
  have noted {u : State} {code : Nat} (h : ∀ cons, qmWrite m cons cmd s = (.err, errorNoted m q code u)) :
      both (fails u code) := ⟨exec_errorNoted rfl (h false), exec_errorNoted rfl (h true)⟩
  have placed {base : Option Word} {u : State} (h : autoPlaced q base s = u) :
      exec (.queueAutoPlaced q base) s = .next u := congrArg _ h
  refine ⟨fun h0 => ⟨writes_of_regAccess rfl (qmWrite_none hn h0), writes_of_regAccess rfl (qmWrite_none hn h0)⟩,
    fun h0 hw => noted fun _ => qmWrite_barred hq hn h0 hw, fun h0 hw ho => noted fun _ => qmWrite_away hq hn h0 hw ho,
    fun h0 hw ho hr => noted fun _ => qmWrite_not_ready hq hn h0 hw ho hr, fun h0 hw ho hr => ?counts,
    fun h hg => congrArg _ (regAccess_passes hg (npopRead_empty h)),
    fun h hg hm => congrArg _ (regAccess_passes hg (npopRead_next h hm)), fun h => placed (autoPlaced_away h),
    fun h ha => placed (autoPlaced_unasked h ha), fun h ha hl hf => placed (autoPlaced_fits h ha hl hf),
    fun h ha => placed (autoPlaced_no_room h ha), fun hm hr hf => ?enable⟩
  case counts =>
    have prod := qmWrite_ready (cons := false) hq hn h0 hw ho hr
    have cons := qmWrite_ready (cons := true) hq hn h0 hw ho hr
    exact ⟨fun hc => writes_of_regAccess rfl (prod.trans (if_pos hc)),
      fun hc => exec_errorNoted rfl (prod.trans (if_neg (Nat.not_le.mpr hc))),
      fun hc => writes_of_regAccess rfl (cons.trans (if_pos hc)),
      fun hc => exec_errorNoted rfl (cons.trans (if_neg (Nat.not_le.mpr hc)))⟩
  case enable =>
    have answers {ok : Bool} {u : State} (h : qctlWrite m.sec q 0 v s = (ok, u)) :=
      exec_queueEnable_open hm hr hf h
    exact ⟨fun hw => answers (qctlWrite_barred hw), fun hw he hv => answers (qctlWrite_stays_off hw he hv),
      fun hw he hv => answers (qctlWrite_enables hw he hv), fun hw he hv => answers (qctlWrite_enabled hw he hv)⟩

end Sys2Proof.Machine
end

section
/-! The commands of `SADL.CMD` and the fault clearing of an island (R231, R233, R238, R240, R252, R264, R265), one lemma for
each outcome; then the statement about them. -/

namespace Sys2Proof.Machine

/-! ### Commands (R264) -/

/-- What the commands `PLACE`, `RELEASE`, `CLRFAULT`, `INSTALL` and `UNINSTALL` do, by their numbers. -/
def sadlDone (k n : Nat) (sec : Bool) (s : State) : State :=
  match k with
  | 1 => place n sec s
  | 2 => release n sec s
  | 3 => clrFault n sec s
  | 4 => install sec s
  | 5 => uninstall n sec s
  | _ => cmdDone 4 s

section
variable {s t : State} {m : Master} {k n : Nat}

theorem sadlCmd_number (hk : k < 16) (hn : n < 256) : fld (w32 (k * 2 ^ 28 + n)) 31 28 = k := by
  rw [fld, BitVec.toNat_ofNat, Nat.shiftRight_eq_div_pow]
  omega

theorem sadlCmd_context (hn : n < 256) : fld (w32 (k * 2 ^ 28 + n)) 7 0 = n := by
  rw [fld, BitVec.toNat_ofNat, Nat.shiftRight_zero]
  omega

/-- With no command in progress the written one is carried out. -/
theorem sadlCmd_idle (hi : tb (s.rg (ra .sadl Sadl.CMDSTAT)) 31 = false) (hk : k < 16) (hn : n < 256) :
    sadlCmd m (w32 (k * 2 ^ 28 + n)) s = (.ok 0, sadlDone k n m.sec s) := by
  unfold sadlCmd
  rw [sadlCmd_number hk hn, sadlCmd_context hn]
  refine (if_neg (ne_true_of_eq_false hi)).trans ?_
  rcases k with _ | _ | _ | _ | _ | _ | k <;> rfl

/-- A row of the Saddler's commands does what its number says. -/
theorem writes_sadlDone {c : Instr}
    (hc : exec c s = .next (regAccess m (ra .sadl Sadl.CMD) (sadlCmd m (w32 (k * 2 ^ 28 + n))) s))
    (hi : tb (s.rg (ra .sadl Sadl.CMDSTAT)) 31 = false) (hk : k < 16) (hn : n < 256) (ht : sadlDone k n m.sec s = t) :
    Writes c s m (ra .sadl Sadl.CMD) t :=
  writes_of_regAccess hc ((sadlCmd_idle hi hk hn).trans (congrArg _ ht))

end

/-! ### Placement (R231, R240, R252) -/

/-- The record of a placement, and the end of its command. -/
def placeDone (n k1 : Nat) (second : Option Nat) (broken : Bool) (s : State) : State :=
  cmdDone 0 (reserveCheck (journal 0x01 n (b2n broken) 1 0 (locWord k1)
    (headerRefresh n (s.setCtx n { placed := true, first := k1, second := second }))))

section
variable {s drawn t : State} {n x k1 k2 code : Nat} {sec : Bool} {img : List Byte}

theorem place_record_refused (h : placeRecord s n sec = some code) : place n sec s = placeRefused n code s := by
  unfold place
  rw [h]

section
variable (hr : placeRecord s n sec = none) (hd : s.draw = (x, drawn))
include hr hd

theorem place_no_bank (hc : chooseBank drawn n (pinOf s n false) [] none false x (fun _ => true) = .error code) :
    place n sec s = placeRefused n code drawn := by
  unfold place
  rw [hr, hd]
  dsimp only
  rw [hc]

variable (hc : chooseBank drawn n (pinOf s n false) [] none false x (fun _ => true) = .ok k1)
include hc

/-- An image that the Saddler cannot read is not placed. -/
theorem place_no_image (hm : imageOf n drawn = (none, t)) : place n sec s = placeRefused n 4 t := by
  unfold place
  rw [hr, hd]
  dsimp only
  rw [hc]
  dsimp only
  rw [hm]

variable (hm : imageOf n drawn = (some img, t))
include hm

theorem place_single (hp : reqPaired s n = false) :
    place n sec s = placeDone n k1 none (!hintsHold drawn n k1) (placeCopy k1 n x false img t) := by
  unfold place
  rw [hr, hd]
  dsimp only
  rw [hc]
  dsimp only
  rw [hm]
  exact if_neg (ne_true_of_eq_false hp)

section
variable (hp : reqPaired s n = true)
include hp

/-- Where the second copy finds no bank, the first one is not placed. -/
theorem place_no_second_bank (h2 : chooseBank (placeCopy k1 n x false img t) n (pinOf s n true) [] (some (k1 / 64)) true x
    (fun _ => true) = .error code) : place n sec s = placeRefused n code t := by
  unfold place
  rw [hr, hd]
  dsimp only
  rw [hc]
  dsimp only
  rw [hm]
  refine (if_pos hp).trans ?_
  rw [h2]

theorem place_paired (h2 : chooseBank (placeCopy k1 n x false img t) n (pinOf s n true) [] (some (k1 / 64)) true x
    (fun _ => true) = .ok k2) : place n sec s =
    placeDone n k1 (some k2) (!hintsHold drawn n k1 || !hintsHold (placeCopy k1 n x false img t) n k2)
      (placeCopy k2 n x true img (placeCopy k1 n x false img t)) := by
  unfold place
  rw [hr, hd]
  dsimp only
  rw [hc]
  dsimp only
  rw [hm]
  refine (if_pos hp).trans ?_
  rw [h2]
  rfl

end
end
end

/-! ### Release and fault clearing (R238, R264) -/

section
variable {s : State} {m : Master} {n key : Nat} {v : Word}

theorem release_unplaced {sec : Bool} (h : (s.ctx n).placed = false) : release n sec s = cmdDone 6 s :=
  if_pos (congrArg (! ·) h)

section
variable (h : (s.ctx n).placed = true)
include h

theorem release_barred (hw : reqWorld s n = true) (hm : m.sec = false) : release n m.sec s = cmdDone 5 s :=
  (if_neg (by rw [h]; decide)).trans (if_pos (by rw [hw, hm]; rfl))

variable (hw : reqWorld s n = true → m.sec = true)
include hw

/-- A release waits until no run of the context is in progress. -/
theorem release_waits (hr : ctxRuns s n = true) : release n m.sec s =
    (s.setRg (ra .sadl Sadl.CMDSTAT) (w32 (2 ^ 31))).setCtx n { s.ctx n with releasing := true } :=
  (if_neg (by rw [h]; decide)).trans ((if_neg (by simpa using hw)).trans (if_pos hr))

theorem release_done (hr : ctxRuns s n = false) : release n m.sec s = cmdDone 0 (releaseCtx n 1 s) :=
  (if_neg (by rw [h]; decide)).trans ((if_neg (by simpa using hw)).trans (if_neg (ne_true_of_eq_false hr)))

end

theorem clrFault_none {sec : Bool} (h : (s.ctx n).faults = []) : clrFault n sec s = cmdDone 6 s :=
  if_pos (by rw [h]; rfl)

section
variable (h : (s.ctx n).faults ≠ [])
include h

theorem clrFault_barred (hw : reqWorld s n = true) (hm : m.sec = false) : clrFault n m.sec s = cmdDone 5 s :=
  (if_neg (by simpa using h)).trans (if_pos (by rw [hw, hm]; rfl))

theorem clrFault_done (hw : reqWorld s n = true → m.sec = true) : clrFault n m.sec s =
    cmdDone 0 ((boundBanks s n).foldl (fun s k => clearBankFault k s) s) :=
  (if_neg (by simpa using h)).trans (if_neg (by simpa using hw))

end

/-- The bank that a write of an island's `CLRFLT` names. -/
abbrev clrFltKey (i : Nat) (v : Word) : Nat := (4 * i + fld v 5 4) * 16 + fld v 3 0

theorem islClrFlt_barred {i : Nat} (hw : (s.bank (clrFltKey i v)).world = true) (hm : m.sec = false) :
    islClrFlt m i v s = (.ok 0, s) := if_pos (by rw [hw, hm]; rfl)

theorem islClrFlt_clears {i : Nat} (hw : (s.bank (clrFltKey i v)).world = true → m.sec = true) :
    islClrFlt m i v s = (.ok 0, clearBankFault (clrFltKey i v) s) := if_neg (by simpa using hw)

end

/-! ### Programs (R233) -/

/-- The program that the registers of an `INSTALL` describe. -/
def askedProg (s : State) : Prog :=
  { src := (s.rg (ra .sadl Sadl.PGM_SRC)).toNat * 256, len := fld (s.rg (ra .sadl Sadl.PGM_LEN)) 17 0,
    dst := fld (s.rg (ra .sadl Sadl.PGM_DST)) 17 0, entry := s.rg (ra .sadl Sadl.PGM_ENTRY),
    world := tb (s.rg (ra .sadl Sadl.PGM_ATTR)) 31, priv := tb (s.rg (ra .sadl Sadl.PGM_ATTR)) 30 }
/-- The number that an `INSTALL` gives its program. -/
def askedIdx (s : State) : Nat := fld (s.rg (ra .sadl Sadl.PGM_ATTR)) 7 0

section
variable {s t : State} {m : Master} {p : Prog} {code : List Byte} {n : Nat}

/-- A program's place is aligned, its length is a number of words, and it stays below the program table. -/
structure GoodPlace (p : Prog) : Prop where
  aligned : p.dst % 256 = 0
  words : p.len % 4 = 0
  below : p.dst + p.len ≤ 0x3F800

/-- No other program lies where the asked one is to go. -/
def NoClash (s : State) : Prop := ∀ e ∈ s.axis.progs, e.1 ≠ askedIdx s → ∀ q, e.2 = some q →
  overlaps (askedProg s).dst (askedProg s).len q.dst q.len = false

theorem install_bad_place {sec : Bool}
    (h : (askedProg s).dst % 256 ≠ 0 ∨ (askedProg s).len % 4 ≠ 0 ∨ 0x3F800 < (askedProg s).dst + (askedProg s).len) :
    install sec s = cmdDone 8 s := by
  unfold install
  extract_lets a idx p clash
  have hp : p = askedProg s := rfl
  clear_value p
  rw [hp]
  refine if_pos ?_
  simp only [Bool.or_eq_true, decide_eq_true_eq]
  exact .inl (or_assoc.mpr h)

/-- The reads of the Saddler leave the states of the islands. -/
theorem agentRead_islState (mid : Fin 32) (sec : Bool) (a k : Nat) (s : State) {i : Nat} (hi : i < 8) :
    islState (agentRead mid sec a k s).2 i = islState s i := by
  have slot : ri .isl i Isl.STAT / 0x10000 = Blk.isl.base / 0x10000 + i := by
    simp only [Blk.addr, Blk.base, Isl.STAT]
    omega
  have apart {b : Blk} (hb : b.base / 0x10000 < Blk.isl.base / 0x10000) :
      ri .isl i Isl.STAT / 0x10000 ≠ b.base / 0x10000 := by omega
  have stat := memRead_rg ⟨apart (by decide), apart (by decide), apart (by decide)⟩ { mid := mid, sub := 0, sec := sec }
    false .clean a k s
  have same : (agentRead mid sec a k s).2 = (memRead { mid := mid, sub := 0, sec := sec } false .clean a k s).2 := by
    unfold agentRead
    split <;> next h => rw [h]
  rw [islState, same, stat, islState]

/-- The read of a program's source leaves the islands that are open. -/
theorem codeOf_openIslands (p : Prog) (s : State) : openIslands (codeOf p s).2 = openIslands s := by
  unfold codeOf
  split
  · rfl
  · refine List.filter_congr fun i hi => ?_
    rw [agentRead_islState _ _ _ _ _ (List.mem_range.mp hi)]

/-- What an `INSTALL` makes of the read of its program's source: the program and its entry in every open island. -/
def programRead (p : Prog) (idx : Nat) : Option (List Byte) × State → State
  | (none, t) => cmdDone 8 t
  | (some code, t) => cmdDone 0 (((openIslands t).foldl (fun s i => installIn i idx p code s) t).setProg idx (some p))

/-- An `INSTALL` that passes its checks reads the source of its program. -/
theorem install_checked (h : GoodPlace (askedProg s)) (hc : NoClash s)
    (hw : (askedProg s).world = true ∨ (askedProg s).priv = true → m.sec = true) :
    install m.sec s = programRead (askedProg s) (askedIdx s) (codeOf (askedProg s) s) := by
  obtain ⟨aligned, words, below⟩ := h
  unfold install
  extract_lets a idx p clash
  have hp : p = askedProg s := rfl
  have hi : idx = askedIdx s := rfl
  clear_value p idx
  subst hp hi
  have clear : clash = false := by
    refine List.any_eq_false.mpr fun e he => ?_
    obtain ⟨j, _ | q⟩ := e
    · simp
    · simpa using fun hj => hc _ he hj q rfl
  rw [clear]
  refine (if_neg (by simp [aligned, words, below])).trans ((if_neg (by simpa using hw)).trans ?_)
  have same := codeOf_openIslands (askedProg s) s
  generalize codeOf (askedProg s) s = read at same ⊢
  obtain ⟨_ | code, t⟩ := read
  · rfl
  · rw [← same]
    rfl

theorem uninstall_absent {sec : Bool} (h : s.prog n = none) : uninstall n sec s = cmdDone 8 s := by
  unfold uninstall
  rw [h]

/-- While no context has a record, no placed one names the program, and its entries lose `VALID`. -/
theorem uninstall_unused (h : s.prog n = some p) (hc : s.axis.ctxs = [])
    (hw : p.world = true ∨ p.priv = true → m.sec = true) : uninstall n m.sec s =
    cmdDone 0 (((openIslands s).foldl (fun s i => entryWrite i n 0 0 s) s).setProg n none) := by
  unfold uninstall
  rw [h, hc]
  exact (if_neg (by simp)).trans (if_neg (by simpa using hw))

end

/-! ### The statement -/

/-- Settles O35: each clause is the lemma about that outcome of the command. -/
theorem saddlerCommands : Obligations.SaddlerCommands := by
  unfold Obligations.SaddlerCommands
  intro s got read m n i v code k1 k2 p img bytes cmd answered x pick drawn put placed refused chosen image other broken key
    alive idle
  have placing {t : State} (h : place n m.sec s = t) : Writes (.place m n) s m cmd t :=
    writes_sadlDone (k := 1) rfl idle (by decide) n.isLt h
  have releasing {t : State} (h : release n m.sec s = t) : Writes (.release m n) s m cmd t :=
    writes_sadlDone (k := 2) rfl idle (by decide) n.isLt h
  have clearing {t : State} (h : clrFault n m.sec s = t) : Writes (.clrfault m n) s m cmd t :=
    writes_sadlDone (k := 3) rfl idle (by decide) n.isLt h
  have installing {t : State} (h : install m.sec s = t) : Writes (.install m) s m cmd t :=
    writes_sadlDone (k := 4) (n := 0) rfl idle (by decide) (by decide) h
  have uninstalling {t : State} (h : uninstall n m.sec s = t) : Writes (.uninstall m n) s m cmd t :=
    writes_sadlDone (k := 5) rfl idle (by decide) n.isLt h
  refine ⟨fun h => placing (place_record_refused h), fun h hc => placing (place_no_bank h rfl hc),
    fun h hc => ⟨fun hi => placing (place_no_image h rfl hc hi), fun hi hp => placing (place_single h rfl hc hi hp),
      fun hi hp => ⟨fun h2 => placing (place_no_second_bank h rfl hc hi hp h2),
        fun h2 => placing (place_paired h rfl hc hi hp h2)⟩⟩,
    fun h => releasing (release_unplaced h), fun h hw hm => releasing (release_barred h hw hm),
    fun h hw => ⟨fun hr => releasing (release_waits h hw hr), fun hr => releasing (release_done h hw hr)⟩,
    fun h => clearing (clrFault_none h), fun h hw hm => clearing (clrFault_barred h hw hm),
    fun h hw => clearing (clrFault_done h hw), ?install, fun h => uninstalling (uninstall_absent h),
    fun h hc hw => uninstalling (uninstall_unused h hc hw),
    fun hw hm => writes_of_regAccess rfl (islClrFlt_barred hw hm), fun hw => writes_of_regAccess rfl (islClrFlt_clears hw)⟩
  case install =>
    intro hp
    obtain rfl : p = askedProg s := hp
    refine ⟨fun h => installing (install_bad_place h), fun ha hl hb hc hw => ?_⟩
    have checked := install_checked ⟨ha, hl, hb⟩ hc hw
    exact ⟨fun hr => installing (checked.trans (by rw [hr]; rfl)), fun hr => installing (checked.trans (by rw [hr]; rfl))⟩

end Sys2Proof.Machine
end

section
/-! What enables a Tether link and takes it through lock, training and alignment, what it does with the cells of time and
with errors on the line, one lemma for each outcome; then the statement about them (R274–R280, R289, R293). -/

namespace Sys2Proof.Machine

section
variable {s : State} {m : Master} {l : Nat} {v : Word} {sec : Bool}

/-! ### Enable (R275, R281) -/

/-- The line of a link begins anew at a time: nothing is being sent, and the symbols received count from there. -/
def lineAnew (l : Nat) (now : DWord) (u : State) : State :=
  u.setLink l { u.link l with line := [], set := [], errs := [], rxFrom := now }

section
variable (h : tb (s.rg (tl l Teth.CFG)) 31 = false)
include h

theorem tethCfgWrite_stays_off (hv : tb v 31 = false) :
    tethCfgWrite l v sec s = (.ok 0, plainWrite .teth l Teth.CFG v sec s) :=
  (if_pos (h.trans hv.symm)).trans (congrArg _ (if_neg (ne_true_of_eq_false h)))

theorem tethCfgWrite_enables (hv : tb v 31 = true) : tethCfgWrite l v sec s =
    (.ok 0, lineAnew l s.time.selvedge (tethGoto l 0 (plainWrite .teth l Teth.CFG v sec s))) := by
  have kept : (if tb (s.rg (tl l Teth.CFG)) 31 then (plainWrite .teth l Teth.CFG v sec s).setRgFld (tl l Teth.CFG) 26 24
      (fld (s.rg (tl l Teth.CFG)) 26 24) else plainWrite .teth l Teth.CFG v sec s) =
      plainWrite .teth l Teth.CFG v sec s := if_neg (ne_true_of_eq_false h)
  rw [← kept]
  exact if_neg (by rw [h, hv]; decide)

end

/-- A write of `CFG` keeps `SCALE` while the link is enabled. -/
def scaleKept (l : Nat) (v : Word) (sec : Bool) (s : State) : State :=
  (plainWrite .teth l Teth.CFG v sec s).setRgFld (tl l Teth.CFG) 26 24 (fld (s.rg (tl l Teth.CFG)) 26 24)

section
variable (h : tb (s.rg (tl l Teth.CFG)) 31 = true)
include h

theorem tethCfgWrite_stays_on (hv : tb v 31 = true) : tethCfgWrite l v sec s = (.ok 0, scaleKept l v sec s) :=
  (if_pos (h.trans hv.symm)).trans (congrArg _ (if_pos h))

theorem tethCfgWrite_disables (hv : tb v 31 = false) :
    tethCfgWrite l v sec s = (.ok 0, lineAnew l s.time.selvedge (tethGoto l 0 (scaleKept l v sec s))) := by
  have kept : (if tb (s.rg (tl l Teth.CFG)) 31 then scaleKept l v sec s else plainWrite .teth l Teth.CFG v sec s) =
      scaleKept l v sec s := if_pos h
  rw [← kept]
  exact if_neg (by rw [h, hv]; decide)

end

/-! ### Lock and training (R274, R275, R289) -/

theorem rxClean_iff : rxClean s l = true ↔ elapsed s (s.link l).rxFrom 205 = true ∧
    ∀ e rest, (s.link l).errs = e :: rest → elapsed s e 205 = true := by
  unfold rxClean
  cases (s.link l).errs <;> simp

theorem tethLock_locks (he : tb (s.rg (tl l Teth.CFG)) 31 = true) (hs : tethState s l = 0) (hc : rxClean s l = true) :
    tethLock l s = tethGoto l 1 (s.setLink l { s.link l with errs := [] }) :=
  if_pos (by rw [he, hs, hc]; rfl)

theorem tethLock_not_down (h : tb (s.rg (tl l Teth.CFG)) 31 = false ∨ tethState s l ≠ 0) : tethLock l s = s := by
  refine if_neg fun hl => ?_
  obtain ⟨he, hs⟩ := Bool.and_eq_true_iff.mp (Bool.and_eq_true_iff.mp hl).1
  exact h.elim (ne_true_of_eq_false · he) (· (of_decide_eq_true hs))

theorem tethLock_unclean (h : rxClean s l = false) : tethLock l s = s := if_neg (by simp [h])

theorem tethTrained_aligns (hs : tethState s l = 1) (hc : rxClean s l = true) : tethTrained l s = tethAlign l s :=
  if_pos (by rw [hs, hc]; rfl)

theorem tethTrained_not_training (h : tethState s l ≠ 1) : tethTrained l s = s := if_neg (by simp [h])

theorem tethTrained_unclean (h : rxClean s l = false) : tethTrained l s = s := if_neg (by simp [h])

theorem tethLockLoss_loses (h1 : 1 ≤ tethState s l) (h3 : tethState s l ≤ 3) (hr : rxLost s l = true) :
    tethLockLoss l s = tethGoto l 0 (bump .teth l Teth.LOCKLOSS_CNT (tethFlag l 5 s)) := if_pos ⟨hr, h1, h3⟩

theorem tethLockLoss_keeps (h : tethState s l = 0 ∨ 3 < tethState s l ∨ rxLost s l = false) : tethLockLoss l s = s := by
  refine if_neg ?_
  rintro ⟨hr, h1, h3⟩
  obtain h | h | h := h
  · omega
  · omega
  · exact Bool.false_ne_true (h.symm.trans hr)

/-! ### Bring-up (R276) -/

theorem alignStep_waits (h : tethState s l ≠ 2 ∨ (s.link l).own.isSome = true) : alignStep l s = s := if_pos h

section
variable (hs : tethState s l = 2) (ho : (s.link l).own = none)
include hs ho

theorem alignStep_free : ¬(tethState s l ≠ 2 ∨ (s.link l).own.isSome = true) := by simp [hs, ho]

section
variable {a : Nat} {rest : List AlignStep}

theorem alignStep_read (ht : (s.link l).todo = .read a :: rest) : alignStep l s = ownAccess l a false false s := by
  dsimp only [alignStep]
  rw [if_neg (alignStep_free hs ho), ht]

theorem alignStep_write (ht : (s.link l).todo = .write a :: rest) : alignStep l s = ownAccess l a true false s := by
  dsimp only [alignStep]
  rw [if_neg (alignStep_free hs ho), ht]

/-- A round trip is measured when no other measurement is under way. -/
theorem alignStep_echo (ht : (s.link l).todo = .echo :: rest) (he : (s.link l).echoes = []) (hq : (s.link l).queue = []) :
    alignStep l s = sendTime l true s := by
  dsimp only [alignStep]
  rw [if_neg (alignStep_free hs ho), ht, he, hq]
  exact if_neg (by simp)

end

section
variable (ht : (s.link l).todo = [])
include ht

theorem alignStep_axis {a : Nat} (ha : axisToSend s l = some a) : alignStep l s = ownAccess l (0x20 + a) true false
    (s.setLink l { s.link l with todo := [.write (0x20 + a), .write (0x28 + a)] }) := by
  dsimp only [alignStep]
  rw [if_neg (alignStep_free hs ho), ht, ha]

theorem alignStep_up (ha : axisToSend s l = none) : alignStep l s = tethGoto l 3 s := by
  dsimp only [alignStep]
  rw [if_neg (alignStep_free hs ho), ht, ha]

end
end

/-- Every enabled axis has been sent its `AXCFG_a`. -/
theorem axisToSend_none (h : ∀ a < 8, tethEn s l a = true → ((s.link l).ax a).cfgSent.isSome = true) :
    axisToSend s l = none := by
  refine List.find?_eq_none.mpr fun a ha hn => ?_
  obtain ⟨he, hc⟩ := Bool.and_eq_true_iff.mp hn
  have sent := h a (List.mem_range.mp ha) he
  rw [Option.isNone_iff_eq_none.mp hc] at sent
  exact Bool.false_ne_true sent

/-! ### Cells received (R271, R289) -/

/-- A valid cell has been received now. -/
def cellHeard (l : Nat) (s : State) : State := s.setLink l { s.link l with lastUp := s.time.selvedge }

theorem cellHeard_link (l : Nat) (s : State) :
    (cellHeard l s).link l = { s.link l with lastUp := s.time.selvedge } := setLink_link_self ..

section
variable {f : State → State} {axis : Option Nat} {a : Nat}

theorem upCell_no_cells (h : tethCells s l = false) : upCell l axis f s = s := if_pos (by rw [h]; rfl)

section
variable (h : tethCells s l = true)
include h

theorem upCell_link : upCell l none f s = f (cellHeard l s) := by
  unfold upCell
  exact (if_neg (by simp [h])).trans (if_neg Bool.false_ne_true)

theorem upCell_present (hp : tb (s.rg (tl l Teth.CAPS)) a = true) : upCell l (some a) f s = f (cellHeard l s) := by
  unfold upCell
  exact (if_neg (by simp [h])).trans (if_neg (by simpa using hp))

theorem upCell_absent (hp : tb (s.rg (tl l Teth.CAPS)) a = false) : upCell l (some a) f s = badCell l s := by
  unfold upCell
  exact (if_neg (by simp [h])).trans (if_pos (by simpa using hp))

end
end

/-! ### Time alignment (R276–R279) -/

section
variable {t t1 : DWord} {ta : Word} {age : Nat}

theorem echoReceived_unasked (h : (s.link l).echoes.find? (fun e => e.1 = t) = none) :
    echoReceived l t ta age s = s := by
  dsimp only [echoReceived]
  rw [h]

/-- The ticks from the reference point of the `TIME` cell to that of its `ECHO`. -/
def echoSpan (age : Nat) (t1 : DWord) (s : State) : DWord := s.time.selvedge - w64 age - t1
/-- The round trip that an `ECHO` measures, in 32 bits. -/
def echoTrip (ta : Word) (d : DWord) : Nat := wrap ((d.toNat : Int) - ta.toNat) 32
/-- The `ECHO` of `t` is no longer awaited. -/
def echoTaken (l : Nat) (t : DWord) (s : State) : State :=
  s.setLink l { s.link l with echoes := (s.link l).echoes.filter (fun e => e.1 ≠ t) }
/-- A round trip is noted: among the last eight, in `RTT` and in the mean of `DLY`. -/
def tripNoted (l rtt : Nat) (rtts : List Int) (s : State) : State :=
  ((s.setLink l { s.link l with rtts := rtts }).setRg (tl l Teth.RTT) (w32 rtt)).setRg (tl l Teth.DLY)
    (w32 (wrap (meanDelay rtts) 16))

/-- In UP a measured round trip is noted, and a mean that has moved by more than 2 ticks sets its flag. -/
theorem echoReceived_up (hs : tethState s l = 3) (h : (s.link l).echoes.find? (fun e => e.1 = t) = some (t, t1))
    (hn : newer 64 8001 (echoSpan age t1 s).toNat = true) {rtts : List Int}
    (hr : (sext (echoTrip ta (echoSpan age t1 s)) 32 :: (s.link l).rtts).take 8 = rtts) {u : State}
    (hu : tripNoted l (echoTrip ta (echoSpan age t1 s)) rtts (echoTaken l t s) = u) : echoReceived l t ta age s =
      if (meanDelay rtts - fld (s.rg (tl l Teth.DLY)) 15 0).natAbs > 2 then tethFlag l 7 u else u := by
  subst hr hu
  dsimp only [echoReceived]
  rw [h]
  exact (if_neg (by rw [echoSpan] at hn; rw [hn]; decide)).trans (if_pos hs)

end

/-! ### Errors on the line (R268, R271, R274) and access timeouts (R293) -/

theorem accTimeout_idle (ho : (s.link l).own = none) (hc : (s.link l).cmd = none) : accTimeout l s = s := by
  dsimp only [accTimeout]
  rw [ho]
  dsimp only
  rw [hc]

/-- The access of `REGCMD` has had no answer for 20 µs. -/
theorem accTimeout_command {acc : LinkAcc} (ho : (s.link l).own = none) (hc : (s.link l).cmd = some acc)
    (he : elapsed s acc.sent 16000 = true) : accTimeout l s =
      ((s.setLink l { s.link l with cmd := none }).setRgBit (tl l Teth.REGSTAT) 31 false).setRgBit
        (tl l Teth.REGSTAT) 29 true := by
  dsimp only [accTimeout]
  rw [ho]
  dsimp only
  rw [hc]
  dsimp only
  rw [if_pos he, ho]

end

/-! ### States in which the actions are due -/

/-- Link 0 is enabled and in a state at a tick. -/
def linkAt (st now : Nat) : State :=
  { (State.reset.setRg (tl 0 Teth.CFG) 0x80000000).setRgFld (tl 0 Teth.STAT) 31 29 st with time.selvedge := w64 now }
/-- Link 0 in ALIGN has a round trip left to measure. -/
def linkAligning : State := (linkAt 2 0).setLink 0 { todo := [.echo] }
theorem linkAligning_measures : tethState linkAligning 0 = 2 ∧ (linkAligning.link 0).own = none ∧
    (linkAligning.link 0).todo = [.echo] ∧ (linkAligning.link 0).echoes = [] ∧ (linkAligning.link 0).queue = [] := by
  decide
/-- Link 0 in ALIGN has only axis 2 left, which is enabled. -/
def linkConfiguring : State := (linkAt 2 0).setRg (tl 0 (Teth.AX_AX 2)) 0x80000000
theorem linkConfiguring_sends : axisToSend linkConfiguring 0 = some 2 ∧ axisToSend (linkAt 2 0) 0 = none := by decide
/-- Link 0 in UP awaits the `ECHO` of the `TIME` cell that left at tick 200. -/
def linkAwaiting : State := (linkAt 3 1000).setLink 0 { echoes := [(1000, 200)] }
theorem linkAwaiting_answered : tethState linkAwaiting 0 = 3 ∧
    (linkAwaiting.link 0).echoes.find? (fun e => e.1 = 1000) = some (1000, 200) ∧
    newer 64 8001 (echoSpan 4 200 linkAwaiting).toNat = true := by decide
/-- Link 0 in UP has neither sent nor heard a cell for 100 µs, and had no answer to the access of `REGCMD`. -/
def linkSilent : State :=
  (linkAt 3 80000).setLink 0 { cmd := some { addr := 0, data := 0, write := false, tag := 0, sent := 0 } }
theorem linkSilent_due : echoDue linkSilent 0 = true ∧ timeCellDue linkSilent 0 = true ∧
    upLossDue linkSilent 0 = true ∧ (linkSilent.link 0).own = none ∧ elapsed linkSilent 0 16000 = true := by decide

/-! ### The statement -/

/-- Settles O39: each clause is the lemma about that outcome of the write, the line, the cell or the wait. -/
theorem tetherLinks : Obligations.TetherLinks := by
  unfold Obligations.TetherLinks
  intro s m l v t ta age acc t1 rd cut code bs c st wr x heard aligning anew clean counted noted bad d rtts took timed
  have written {u : State} (h : tethCfgWrite l v m.sec s = (.ok 0, u)) : Writes (.tethEnable m l v) s m c u :=
    writes_of _ (exec_tethEnable ..) h
  have unclean (h : ¬ clean) : rxClean s l = false := Bool.eq_false_iff.mpr (mt rxClean_iff.mp h)
  have awaited : ((cellHeard l s).link l).echoes = x.echoes := by rw [cellHeard_link]
  refine ⟨fun h hv => written (tethCfgWrite_enables h hv), fun h hv => written (tethCfgWrite_stays_off h hv),
    fun h hv => written (tethCfgWrite_stays_on h hv), fun h hv => written (tethCfgWrite_disables h hv),
    fun he hs hc => congrArg _ (tethLock_locks he hs (rxClean_iff.mpr hc)), fun h => congrArg _ (tethLock_not_down h),
    fun h => ⟨congrArg _ (tethLock_unclean (unclean h)), congrArg _ (tethTrained_unclean (unclean h))⟩,
    fun hs hc => congrArg _ (tethTrained_aligns hs (rxClean_iff.mpr hc)), fun h => congrArg _ (tethTrained_not_training h),
    fun h1 h3 hr => congrArg _ (tethLockLoss_loses h1 h3 hr), fun h => congrArg _ (tethLockLoss_keeps h),
    fun hs ho ht ha => congrArg _ (alignStep_up hs ho ht (axisToSend_none ha)),
    fun a hs ho ht ha => congrArg _ (alignStep_axis hs ho ht ha),
    fun a rest hs ho ht => congrArg _ (alignStep_read hs ho ht),
    fun a rest hs ho ht => congrArg _ (alignStep_write hs ho ht),
    fun rest hs ho ht he hq => congrArg _ (alignStep_echo hs ho ht he hq), fun h => congrArg _ (alignStep_waits h),
    rfl, fun h => congrArg _ (if_pos h), fun h => congrArg _ (upCell_no_cells h),
    fun h hf => congrArg Host.Outcome.next ?unasked, fun hs hf hn => congrArg Host.Outcome.next ?measured,
    fun h => congrArg _ (if_pos h), fun h => congrArg _ (if_neg (ne_true_of_eq_false h)),
    fun h => congrArg _ (if_neg ?counts), fun he hc => congrArg _ (if_pos (by rw [he, hc]; rfl)),
    fun h => congrArg _ (if_pos (by rw [h]; rfl)),
    fun h hv => congrArg _ (if_pos (by rw [h, hv, Bool.not_false, Bool.or_true, Bool.and_true])),
    fun h => congrArg _ (if_neg (by rw [h]; exact Bool.false_ne_true)),
    fun ho hc he => congrArg _ (accTimeout_command ho hc he), fun ho hc => congrArg _ (accTimeout_idle ho hc)⟩
  case unasked => exact (upCell_link h).trans (echoReceived_unasked (by rw [awaited]; exact hf))
  case measured =>
    have cells : tethCells s l = true := by simp [tethCells, show tethState s l = 3 from hs]
    have trips : ((cellHeard l s).link l).rtts = x.rtts := by rw [cellHeard_link]
    refine (upCell_link cells).trans (echoReceived_up (s := cellHeard l s) hs (by rw [awaited]; exact hf) hn
      (by rw [trips]; rfl) ?_)
    rw [echoTaken, awaited]
    rfl
  case counts =>
    rw [Bool.and_eq_true, not_and_or, Bool.not_eq_true, Bool.not_eq_true]
    exact h

end Sys2Proof.Machine
end

section
/-! What a Tether link does for its axes with the cells of samples, feedback, status and register accesses, with a bundle
of a linked axis, at a loop period and on the safe commands, one lemma for each outcome; then the statement about them
(R276, R281–R288, R290, R291). -/

namespace Sys2Proof.Machine

section
variable {s u : State} {m : Master} {l a : Nat} {v : Word} {sec : Bool}

/-! ### Registers and axes of a link -/

theorem tl_ne {o q : Nat} (h : o ≠ q) : tl l o ≠ tl l q := fun e => h (Nat.add_left_cancel e)

theorem plainWrite_link (b : Blk) (i o : Nat) (v : Word) (sec : Bool) (s : State) (k : Nat) :
    (plainWrite b i o v sec s).link k = s.link k := by
  unfold plainWrite
  split
  · rfl
  · split <;> rfl

theorem cellHeard_ax (l a : Nat) (s : State) : ((cellHeard l s).link l).ax a = (s.link l).ax a := by
  rw [cellHeard_link, Link.ax, Link.ax]

/-! ### `SAMPLE` cells (R281–R284) -/

section
variable {ia ib aux vbus : BitVec 16} {time : Word}

/-- The period of a sample with a station time. -/
def samplePeriod (s : State) (l : Nat) (time : Word) : Nat := periodAt s l (fullTime s time)
/-- An axis at a sample, with the edges active that are for its period. -/
def sampledAxis (s : State) (l a : Nat) (time : Word) : LinkAx := promote (samplePeriod s l time) ((s.link l).ax a)
/-- The sample of an axis asks for an answer, where none that has come before it does. -/
def sampleAsked (l a : Nat) (time : Word) (s : State) : State :=
  s.setLinkAx l a { sampledAxis s l a time with
    period := samplePeriod s l time, asked := some ((sampledAxis s l a time).asked.getD (samplePeriod s l time)) }

theorem sampleCell_disabled {st : Byte} (h : tethEn s l a = false) : sampleCell l a st ia ib aux vbus time s = s :=
  if_pos (by rw [h]; rfl)

section
variable (he : tethEn s l a = true)
include he

/-- The sample of an axis whose slot has no bound bank is counted as dropped. -/
theorem sampleCell_unbound (hx : ¬(tethSlot s l a < 128 ∧ ctxBound s (tethSlot s l a) = true)) :
    sampleCell l a 0 ia ib aux vbus time s = axisDrop (tethSlot s l a) (sampleAsked l a time s) := by
  unfold sampleCell
  rw [if_neg (by rw [he]; decide)]
  extract_lets x s1 t n y s2 dl s3 sv status
  have away : ¬(decide (x < 128) && ctxBound s x) = true := by simpa using hx
  have noLate : s1 = s := if_neg (by decide)
  have noneOpen : s3 = s2 := if_pos (by rw [Bool.not_eq_true', ← Bool.not_eq_true]; exact away)
  have asked : s2 = sampleAsked l a time s := by
    simp only [s2, y, noLate]
    rfl
  rw [noneOpen, asked]
  exact if_neg away

/-- The sample of an axis whose sample instant is not open begins its wait and goes to the bound banks. -/
theorem sampleCell_bound (hx : tethSlot s l a < 128) (hb : ctxBound s (tethSlot s l a) = true)
    (ho : (sampledAxis s l a time).opened = none) : sampleCell l a 0 ia ib aux vbus time s =
      samplePort (some midTeth) (tethSlot s l a)
        (toBytes 2 ia.toNat ++ toBytes 2 ib.toNat ++ toBytes 2 aux.toNat ++ toBytes 2 vbus.toNat) (fullTime s time)
        (2 ^ 22) none (sampleTaken (tethSlot s l a) (fullTime s time)
          (linkDeadline s l (sampledAxis s l a time) (samplePeriod s l time)) (sampleAsked l a time s)) := by
  unfold sampleCell
  rw [if_neg (by rw [he]; decide)]
  extract_lets x s1 t n y s2 dl s3 sv status
  have noLate : s1 = s := if_neg (by decide)
  have sampled : y = sampledAxis s l a time := by
    simp only [y, noLate]
    rfl
  have asked : s2 = sampleAsked l a time s := by
    simp only [s2, sampled, noLate]
    rfl
  have taken : s3 = sampleTaken x t dl s2 := by
    refine (if_neg ?_).trans ?_
    · simpa using ⟨hx, hb⟩
    · rw [sampled, ho]
  have due : dl = linkDeadline s l (sampledAxis s l a time) (samplePeriod s l time) := by
    simp only [dl, sampled]
    rfl
  have good : status = 2 ^ 22 := by simp [status, sv]
  rw [taken, asked, due, good]

end
end

/-! ### `FEEDBACK` cells (R283) -/

section
variable {st : Byte} {pos turns time : Word}

theorem feedbackCell_disabled (h : tethEn s l a = false) : feedbackCell l a st pos turns time s = s :=
  if_pos (by rw [h]; rfl)

/-- Feedback that the station marks invalid keeps the speed and the feedback that it counts from. -/
theorem feedbackCell_invalid (he : tethEn s l a = true) (hf : tb (s.rg (tl l (Teth.AX_AX a))) 30 = true)
    (h0 : st.getLsbD 0 = true) : feedbackCell l a st pos turns time s =
      feedbackPort (some midTeth) (tethSlot s l a) pos turns ((s.link l).ax a).speed (fullTime s time)
        (32768 + b2n (st.getLsbD 1) * 2 ^ 14 + b2n (st.getLsbD 2) * 2 ^ 13 + b2n (st.getLsbD 3) * 2 ^ 7 +
          b2n (st.getLsbD 4) * 2 ^ 11 + b2n (st.getLsbD 5) * 2 ^ 6 + b2n (st.getLsbD 6) * 2 ^ 8) 2 none s := by
  unfold feedbackCell
  rw [if_neg (by rw [he, hf]; decide)]
  extract_lets x y t bad pl bit
  have invalid : bad = true := by rw [show bad = (st.getLsbD 0 || st.getLsbD 1) from rfl, h0, Bool.true_or]
  simp [invalid, bit, h0, x, y, t]

end

/-! ### `STATUS` cells (R287) -/

/-- No axis of the link is enabled. -/
def NoneEnabled (l : Nat) (s : State) : Prop := ∀ k < 8, tethEn s l k = false

/-- A write of another register than an axis's `AX` enables none. -/
theorem NoneEnabled.setRg (h : NoneEnabled l s) {o : Nat} (ho : ∀ k, Teth.AX_AX k ≠ o) (w : Word) :
    NoneEnabled l (s.setRg (tl l o) w) := fun k hk =>
  (congrArg (tb · 31) (setRg_rg_ne s _ w (tl_ne (ho k)))).trans (h k hk)

/-- While no axis is enabled and none has a fault, a `STATUS` cell only shows what the station reports. -/
theorem statusCell_no_axis {st : Byte} (h : NoneEnabled l s) : statusCell l st 0 0 s = (List.range 8).foldl
    (fun u k => u.setRgBit (tl l (Teth.AX_AXSTAT k)) 7 (st.getLsbD k))
    (s.setRg (tl l Teth.STSTAT) (w32 (st.toNat * 2 ^ 16))) := by
  have start : NoneEnabled l (s.setRg (tl l Teth.STSTAT) (w32 (st.toNat * 2 ^ 16))) :=
    h.setRg (fun k => by simp only [Teth.AX_AX, Teth.STSTAT]; omega) _
  unfold statusCell
  extract_lets s1 s2
  have reported : s2 = s.setRg (tl l Teth.STSTAT) (w32 (st.toNat * 2 ^ 16)) :=
    (if_neg (by decide)).trans (by simp [s1])
  refine (List.foldl_rel (r := fun u w => u = w ∧ NoneEnabled l w) ⟨reported, start⟩ ?_).1
  rintro k hk u w ⟨rfl, off⟩
  have kept : NoneEnabled l (u.setRgBit (tl l (Teth.AX_AXSTAT k)) 7 (st.getLsbD k)) :=
    off.setRg (fun j => by simp only [Teth.AX_AX, Teth.AX_AXSTAT]; omega) _
  exact ⟨if_pos (by rw [kept k (List.mem_range.mp hk)]; rfl), kept⟩

/-! ### Register accesses (R276, R291) -/

section
variable {acc : LinkAcc} {addr tag result : Nat} {data : Word}

theorem regAck_command (ho : (s.link l).own = none) (hc : (s.link l).cmd = some acc) (ha : acc.addr = addr)
    (ht : acc.tag = tag) : regAck l addr data tag result s = cmdAck l acc data result s := by
  dsimp only [regAck]
  rw [ho, hc]
  exact if_pos (by simp [ha, ht])

/-- A `REGACK` that no access waits for is discarded. -/
theorem regAck_stray (ho : (s.link l).own = none) (hc : ∀ q, (s.link l).cmd = some q → q.tag ≠ tag) :
    regAck l addr data tag result s = s := by
  dsimp only [regAck]
  rw [ho]
  cases h : (s.link l).cmd with
  | none => rfl
  | some q => exact if_neg (by simp [hc q h])

theorem tethRegGo_no_go (h : tb v 31 = false ∨ tb (s.rg (tl l Teth.REGSTAT)) 31 = true ∨ tethCells s l = false) :
    tethRegGo l v sec s = (.ok 0, plainWrite .teth l Teth.REGCMD v sec s) := by
  refine if_pos ?_
  rw [Bool.or_eq_true, Bool.or_eq_true, Bool.not_eq_true', Bool.not_eq_true', or_assoc]
  exact h

section
variable (hv : tb v 31 = true) (hb : tb (s.rg (tl l Teth.REGSTAT)) 31 = false) (hc : tethCells s l = true)
include hv hb hc

/-- A register that only the link group writes is refused. -/
theorem tethRegGo_owned (hw : tb v 30 = true) (ho : linkOwned (fld v 15 0) = true) : tethRegGo l v sec s =
    (.ok 0, (plainWrite .teth l Teth.REGCMD v sec s).setRgFld (tl l Teth.REGSTAT) 7 0 2) :=
  (if_neg (by rw [hv, hb, hc]; decide)).trans (if_pos (by rw [hw, ho]; rfl))

/-- The tag of the next access of a link. -/
def nextTag (s : State) (l : Nat) : Nat := ((s.link l).tag + 1) % 256
/-- The access that `REGCMD` asks for has been sent, where its write has given `t`. -/
def commandSent (l : Nat) (write : Bool) (v : Word) (s t : State) : State :=
  (t.setLink l { s.link l with tag := nextTag s l, cmd := some {
    addr := fld v 15 0, data := s.rg (tl l Teth.REGDATA), write := write, tag := nextTag s l,
    sent := s.time.selvedge } }).setRgBit (tl l Teth.REGSTAT) 31 true

theorem tethRegGo_sends {write : Bool} (hw : tb v 30 = write) (ho : write = true → linkOwned (fld v 15 0) = false) :
    tethRegGo l v sec s = (.ok 0, sendCell l 3 (regCell write (fld v 15 0) (s.rg (tl l Teth.REGDATA)) (nextTag s l))
      (commandSent l write v s (plainWrite .teth l Teth.REGCMD v sec s))) := by
  subst hw
  dsimp only [tethRegGo]
  rw [if_neg (by rw [hv, hb, hc]; decide), if_neg (by simpa using ho), plainWrite_link]
  rfl

end
end

/-! ### Bundles (R284, R285, R290) -/

section
variable {i : Nat} {f : EdgeFlight} {bytes : List Byte} {old : Bool}

theorem linkedArrival_none (h : s.axis.edges[i]? = none) : linkedArrival i s = s := by
  unfold linkedArrival
  rw [h]

theorem linkedArrival_reaches (hf : s.axis.edges[i]? = some f) (hl : linkOf s f.axis = some (l, a))
    (hu : bundleAtPort f { s with axis.edges := removeAt s.axis.edges [i] } = (true, u)) :
    linkedArrival i s = linkedBundle l a f.bytes f.old u := by
  unfold linkedArrival
  rw [hf]
  dsimp only
  rw [hl]
  dsimp only
  rw [hu]
  rfl

/-- A bundle is discarded while the link is not UP, and when it was committed before an accepted `CLRSAFE`. -/
theorem linkedBundle_discarded (h : tethState s l ≠ 3 ∨ old = true) : linkedBundle l a bytes old s =
    (s.setLinkAx l a { (s.link l).ax a with asked := none }).setRgBit (tl l (Teth.AX_AXSTAT a)) 0 true :=
  if_pos (h.imp_right .inl)

theorem promote_later {n p : Nat} {e : List Byte} {x : LinkAx} (hp : x.pend = some (p, e)) (h : n < p) :
    promote n x = x := by
  unfold promote
  rw [hp]
  exact if_neg (Nat.not_le.mpr h)

/-- A bundle for a later period takes the place of the one that waits for such a period. -/
theorem linkedBundle_replaces {n p : Nat} {e : List Byte} (hs : tethState s l = 3)
    (hc : tb (s.rg (tl l (Teth.AX_AXSTAT a))) 31 = false) (ha : ((s.link l).ax a).asked = some n)
    (hn : periodAt s l s.time.selvedge ≤ n) (hp : ((s.link l).ax a).pend = some (p, e))
    (hl : periodAt s l s.time.selvedge < p) : linkedBundle l a bytes false s =
      sendCell l 1 (cellBytes 1 a (BitVec.ofNat 8 (n + 1) :: bytes.take 12)) (s.setLinkAx l a
        { (s.link l).ax a with asked := none, pend := some (n + 1, bytes.take 12), answered := true,
                               haltHold := none }) := by
  unfold linkedBundle
  extract_lets ax x r k edges now y z
  have accepted : ¬(tethState s l ≠ 3 ∨ false = true ∨ tb (s.rg r) 31 = true ∧ x.clearing.isNone = true) := by
    rw [hs, hc]
    simp
  have period : k = n + 1 := by simp only [k, ha, Option.getD_some]
  have kept : y = x := promote_later hp hl
  have waits : z = { x with pend := some (n + 1, edges) } := by
    simp only [z, period, kept]
    rw [if_neg (Nat.ne_of_gt (Nat.lt_succ_of_le hn)), if_pos (Nat.lt_succ_of_le hn)]
  rw [if_neg accepted, waits, period]

end

/-! ### Loop periods and the safe commands (R286, R288, R290) -/

theorem tethCtrlWrite_force (h : tethEn s l a = true) : tethCtrlWrite l a 1 sec s = (.ok 0, tethSafe l a 7 s) :=
  congrArg _ (if_pos h)

theorem tethCtrlWrite_force_disabled (h : tethEn s l a = false) : tethCtrlWrite l a 1 sec s = (.ok 0, s) :=
  congrArg _ (if_neg (ne_true_of_eq_false h))

theorem tethCtrlWrite_clear_refused (h : tethClrAllowed s l a sec = false) : tethCtrlWrite l a 2 sec s = (.ok 0, s) :=
  (if_neg (by decide)).trans (if_neg (by rw [h]; decide))

/-- The bundles of an axis that are in flight when `CLRSAFE` is accepted are of the time before it. -/
def bundlesOld (x : Nat) (s : State) : State :=
  { s with axis.edges := s.axis.edges.map (fun f => if f.axis = x then { f with old := true } else f) }

theorem tethCtrlWrite_clears (h : tethClrAllowed s l a sec = true) : tethCtrlWrite l a 2 sec s =
    (.ok 0, bundlesOld (tethSlot s l a) (s.setLinkAx l a { (s.link l).ax a with clearing := some 0 })) :=
  (if_neg (by decide)).trans (if_pos (by rw [h]; rfl))

end

/-! ### States in which a loop period begins and a `CLRSAFE` is accepted -/

/-- Axis 2 of link 0, in UP at tick 0, serves slot 5, whose context has bank 0 of a running engine. -/
def axisLinked : State :=
  ((linkAt 3 0).setRg (tl 0 (Teth.AX_AX 2)) 0x80000005).setBank 0 { ctx := some 5 }
theorem axisLinked_loop_due : loopDue axisLinked 0 2 = true := by decide
/-- The same axis in the safe state, in RUN. -/
def axisHeldSafe : State :=
  (axisLinked.setRg (tl 0 (Teth.AX_AXSTAT 2)) 0xF0000000).setRg (ra .pmu Pmu.MODE) 4
theorem axisHeldSafe_clears : tethClrAllowed axisHeldSafe 0 2 true = true := by decide

/-! ### The statement -/

/-- Settles O40: each clause is the lemma about that outcome of the cell, the bundle, the period or the command. -/
theorem tetherAxes : Obligations.TetherAxes := by
  unfold Obligations.TetherAxes
  intro s m l a st ia ib aux vbus v data pos turns time code addr tag result acc i f x heard at_ n y asked present bad rc rs
    cmd ctrl t wire cleared
  have sampled : sampledAxis (cellHeard l s) l a time = y := by
    rw [sampledAxis, cellHeard_ax]
    rfl
  have asks : sampleAsked l a time (cellHeard l s) = asked := by
    rw [sampleAsked, sampled]
    rfl
  have idle {p : Option LinkAcc} (h : x.own = p) : ((cellHeard l s).link l).own = p := by rw [cellHeard_link]; exact h
  have waiting {p : Option LinkAcc} (h : x.cmd = p) : ((cellHeard l s).link l).cmd = p := by rw [cellHeard_link]; exact h
  have commanded {u : State} (h : tethRegGo l v m.sec s = (.ok 0, u)) : Writes (.tethRegcmdGo m l v) s m rc u :=
    writes_of _ (exec_tethRegcmdGo ..) h
  have forced {u : State} (h : tethCtrlWrite l a 1 m.sec s = (.ok 0, u)) : Writes (.tethForcesafe m l a) s m ctrl u :=
    writes_of _ (exec_tethForcesafe ..) h
  have clears {u : State} (h : tethCtrlWrite l a 2 m.sec s = (.ok 0, u)) : Writes (.tethClrsafe m l a) s m ctrl u :=
    writes_of _ (exec_tethClrsafe ..) h
  simp only [List.forall_mem_cons, List.not_mem_nil, false_imp_iff, implies_true, and_true]
  refine ⟨fun h => ?silent, fun h hp => ⟨congrArg _ (upCell_absent h hp), congrArg _ (upCell_absent h hp)⟩,
    fun h hp => ?present, fun h hn => congrArg _ ((upCell_link h).trans (statusCell_no_axis hn)),
    fun h ho hc ha ht => congrArg _ ((upCell_link h).trans (regAck_command (idle ho) (waiting hc) ha ht)),
    fun h ho hc => congrArg _ ((upCell_link h).trans (regAck_stray (idle ho) ?stray)),
    fun h => commanded (tethRegGo_no_go h), fun hv hb hc =>
      ⟨fun hw ho => commanded (tethRegGo_owned hv hb hc hw ho),
        fun hw ho => commanded (tethRegGo_sends hv hb hc hw fun _ => ho),
        fun hw => commanded (tethRegGo_sends hv hb hc hw nofun)⟩,
    fun h => congrArg _ (linkedArrival_none h), fun u hf hl hu => ?bundle,
    fun h => congrArg _ (if_neg (ne_true_of_eq_false h)), fun h => congrArg _ (if_pos h),
    fun h => forced (tethCtrlWrite_force h), fun h => forced (tethCtrlWrite_force_disabled h),
    fun h => clears (tethCtrlWrite_clears h), fun h => clears (tethCtrlWrite_clear_refused h)⟩
  case silent =>
    exact ⟨congrArg _ (upCell_no_cells h), congrArg _ (upCell_no_cells h), congrArg _ (upCell_no_cells h),
      congrArg _ (upCell_no_cells h)⟩
  case present =>
    have sample {u : State} (hu : sampleCell l a st ia ib aux vbus time (cellHeard l s) = u) :
        exec (.sampleCellReceived l a st ia ib aux vbus time) s = .next u :=
      congrArg _ ((upCell_present h hp).trans hu)
    have feedback {u : State} (hu : feedbackCell l a st pos turns time (cellHeard l s) = u) :
        exec (.feedbackCellReceived l a st pos turns time) s = .next u :=
      congrArg _ ((upCell_present h hp).trans hu)
    refine ⟨fun he => ⟨sample (sampleCell_disabled he), feedback (feedbackCell_disabled he)⟩,
      fun he hx hs _ => sample ?unbound, fun he hx hb hs ho => sample ?bound, fun he hf h0 => feedback ?invalid⟩
    case unbound =>
      subst hs
      rw [← asks]
      refine sampleCell_unbound (s := cellHeard l s) he fun ⟨hlt, hb⟩ => ?_
      exact hx.elim (Nat.not_le.mpr hlt) (ne_true_of_eq_false · hb)
    case bound =>
      subst hs
      rw [← asks, ← sampled]
      exact sampleCell_bound (s := cellHeard l s) he hx hb (by rw [sampled]; exact ho)
    case invalid =>
      rw [← cellHeard_ax]
      exact feedbackCell_invalid (s := cellHeard l s) he hf h0
  case stray =>
    rw [cellHeard_link]
    exact hc
  case bundle =>
    have arrives : exec (.linkedBundle i) s = .next (linkedBundle l a f.bytes f.old u) :=
      congrArg _ (linkedArrival_reaches hf hl hu)
    refine ⟨arrives, fun h => arrives.trans (congrArg _ (linkedBundle_discarded h)),
      fun n p e hs hold hc ha hn hp hl => ?_⟩
    rw [arrives, hold]
    exact congrArg _ (linkedBundle_replaces hs hc ha hn hp hl)

end Sys2Proof.Machine
end

section
/-! What the accesses of the block's own masters to control words leave: the registers of other blocks, the ports and the
time (R11, R25, R337, R394). -/

namespace Sys2Proof.Machine

/-! ### Registers -/

section
variable {a : Nat} (h : Unrecorded a)
include h

theorem ctlOpen_rg (mid : Fin 32) (sec : Bool) (pa n : Nat) (write : Bool) (s : State) :
    (ctlOpen mid sec pa n write s).2.rg a = s.rg a := by
  have span := worldSpan_rg h mid 0 sec pa n write s
  unfold ctlOpen
  split
  · next hs => rwa [hs] at span
  · next hs =>
    rw [hs] at span
    split
    · exact (memFails_rg h ..).trans span
    · exact span

/-- What a port reads of a partner leaves the registers that record no access. -/
theorem girthReach_rg (p : Nat) (s : State) : (girthReach p s).2.rg a = s.rg a :=
  (ctlOpen_rg h ..).trans (ctlOpen_rg h ..)

end

/-! ### Ports and time -/

/-- The ports of a state and its time. -/
def portsNow (s : State) : PortSt × DWord := (s.ports, s.time.selvedge)

theorem girth_of_portsNow {s t : State} (h : portsNow t = portsNow s) (g : Nat) : t.girth g = s.girth g := by
  have ports : t.ports = s.ports := congrArg Prod.fst h
  rw [State.girth, ports, State.girth]

theorem selvedge_of_portsNow {s t : State} (h : portsNow t = portsNow s) : t.time.selvedge = s.time.selvedge :=
  congrArg Prod.snd h

theorem setRg_portsNow (s : State) (a : Nat) (v : Word) : portsNow (s.setRg a v) = portsNow s := rfl
theorem setRgBit_portsNow (s : State) (a i : Nat) (b : Bool) : portsNow (s.setRgBit a i b) = portsNow s := rfl
theorem raiseEvent_portsNow (e : Nat) (s : State) : portsNow (raiseEvent e s) = portsNow s := rfl

theorem bump_portsNow (b : Blk) (i o : Nat) (s : State) : portsNow (bump b i o s) = portsNow s := by
  unfold bump bumpN
  extract_lets v v' s1
  have counted : portsNow s1 = portsNow s := setRg_portsNow ..
  clear_value s1
  split
  · split
    · exact (setRgBit_portsNow ..).trans counted
    · exact counted
  · exact counted

theorem worldCheck_portsNow (mid sub : Nat) (sec : Bool) (pa : Nat) (write : Bool) (s : State) :
    portsNow (worldCheck mid sub sec pa write s).2 = portsNow s := by
  unfold worldCheck rgnRecord
  dsimp only
  split
  · split
    · exact setRgBit_portsNow ..
    · rw [setRg_portsNow, setRg_portsNow, setRg_portsNow]
  · rfl

theorem worldSpan_portsNow (mid sub : Nat) (sec : Bool) (pa n : Nat) (write : Bool) (s : State) :
    portsNow (worldSpan mid sub sec pa n write s).2 = portsNow s := by
  have first := worldCheck_portsNow mid sub sec pa write s
  unfold worldSpan
  dsimp only
  split
  · next hc => rwa [hc] at first
  · next hc =>
    rw [hc] at first
    split
    · exact (worldCheck_portsNow ..).trans first
    · exact first

theorem memError_portsNow (ue : Bool) (mid pa : Nat) (s : State) : portsNow (memError ue mid pa s) = portsNow s := by
  unfold memError memErrorIn
  extract_lets cnt s1 s2
  have counted : portsNow s1 = portsNow s := (setRgBit_portsNow ..).trans (bump_portsNow ..)
  refine (raiseEvent_portsNow ..).trans (Eq.trans ?_ counted)
  dsimp only [s2]
  split
  · rw [setRg_portsNow, setRg_portsNow]
  · rfl

theorem memFails_portsNow (mid pa n : Nat) (s : State) : portsNow (memFails mid pa n s) = portsNow s := by
  have found : portsNow (errorAt pa n s).2 = portsNow s := by
    unfold errorAt
    split
    · rfl
    · dsimp only
      split <;> rfl
  exact (memError_portsNow ..).trans found

theorem ctlOpen_portsNow (mid : Fin 32) (sec : Bool) (pa n : Nat) (write : Bool) (s : State) :
    portsNow (ctlOpen mid sec pa n write s).2 = portsNow s := by
  have span := worldSpan_portsNow mid 0 sec pa n write s
  unfold ctlOpen
  split
  · next hs => rwa [hs] at span
  · next hs =>
    rw [hs] at span
    split
    · exact (memFails_portsNow ..).trans span
    · exact span

/-- What a port reads of a partner leaves the ports. -/
theorem girthReach_girth (p : Nat) (s : State) (g : Nat) : (girthReach p s).2.girth g = s.girth g :=
  girth_of_portsNow ((ctlOpen_portsNow ..).trans (ctlOpen_portsNow ..)) g

theorem foldl_portsNow {f : State → Nat → State} (h : ∀ s i, portsNow (f s i) = portsNow s) (l : List Nat) (s : State) :
    portsNow (l.foldl f s) = portsNow s := by
  induction l generalizing s with
  | nil => rfl
  | cons i l ih => exact (ih _).trans (h s i)

theorem store_portsNow (a : Nat) (bs : List Byte) (s : State) : portsNow (store a bs s) = portsNow s := by
  refine (foldl_portsNow (fun s i => ?_) ..).trans ((foldl_portsNow (fun s i => ?_) ..).trans rfl)
  all_goals
    split
    · split <;> rfl
    · rfl

/-- A count in a partner's entry leaves the ports and the time. -/
theorem countEntry_portsNow (mid : Fin 32) (q p k : Nat) (s : State) : portsNow (countEntry mid q p k s) = portsNow s := by
  have opened := ctlOpen_portsNow mid (qWorld s q) (ptabAddr p 0) 32 true s
  have counted (u : State) : portsNow (ptCount p k u) = portsNow u := by
    unfold ptCount
    extract_lets v s1
    have stored : portsNow s1 = portsNow u := store_portsNow ..
    split
    · rfl
    · split
      · exact (store_portsNow ..).trans stored
      · exact stored
  unfold countEntry
  dsimp only
  split
  · exact (counted _).trans opened
  · exact opened

end Sys2Proof.Machine
end

section
/-! The Girth feeder bus (R307, R310–R315): what a cycle, a slot, a reply, a timeout, a collision and a bad frame give, one
lemma for each outcome; then the statement about them. -/

namespace Sys2Proof.Machine

section
variable {s t : State} {g : Nat}

/-! ### Cycles (R310, R313) -/

/-- A port is free or not by its own record and the time. -/
theorem girthFree_of_portsNow (h : portsNow t = portsNow s) : girthFree t g = girthFree s g := by
  unfold girthFree past
  rw [girth_of_portsNow h, selvedge_of_portsNow h]

/-- A cycle of port `g` is counted, and its schedule bank taken. -/
def cycleOpened (g : Nat) (s : State) : State :=
  raiseEvent (0x420 + g) ((s.setRg (gr g Girth.CYCNT) (w32 ((fld (s.rg (gr g Girth.CYCNT)) 15 0 + 1) % 65536))).setGirth g
    { s.girth g with startDue := false, bank := tb (s.rg (gr g Girth.CFG)) 30 })
/-- A cycle that begins during the walk of the last one overruns it. -/
def cycleOverrun (g : Nat) (s : State) : State := bump .girth g Girth.OVR_CNT (girthFlag g 0 (cycleOpened g s))

theorem girthFree_cycleOpened : girthFree (cycleOpened g s) g = girthFree s g := by
  have record : (cycleOpened g s).girth g =
      { s.girth g with startDue := false, bank := tb (s.rg (gr g Girth.CFG)) 30 } := setGirth_girth_self ..
  unfold girthFree
  rw [record]
  rfl

theorem girthFree_cycleOverrun : girthFree (cycleOverrun g s) g = girthFree s g :=
  (girthFree_of_portsNow ((bump_portsNow ..).trans (setRgBit_portsNow ..))).trans girthFree_cycleOpened

/-- The count, with the overrun of a walk that still goes on. -/
def cycleCounted (g : Nat) (s : State) : State :=
  if (s.girth g).walk.isSome then cycleOverrun g s else cycleOpened g s

theorem cycleCounted_idle (hw : (s.girth g).walk = none) : cycleCounted g s = cycleOpened g s := if_neg (by simp [hw])

theorem cycleCounted_walking {k : Nat} (hw : (s.girth g).walk = some k) : cycleCounted g s = cycleOverrun g s :=
  if_pos (by simp [hw])

theorem girthFree_cycleCounted : girthFree (cycleCounted g s) g = girthFree s g := by
  unfold cycleCounted
  split
  · exact girthFree_cycleOverrun
  · exact girthFree_cycleOpened

theorem cycleStart_free (hf : girthFree s g = true) : cycleStart g s = sendBeacon g (cycleCounted g s) :=
  if_pos (girthFree_cycleCounted.trans hf)

/-- A slot in progress makes the `BEACON` wait. -/
theorem cycleStart_busy (hf : girthFree s g = false) : cycleStart g s =
    (cycleCounted g s).setGirth g { (cycleCounted g s).girth g with again := true } :=
  if_neg (ne_true_of_eq_false (girthFree_cycleCounted.trans hf))

/-! ### Between slots (R311, R313) -/

theorem girthTick_busy (hf : girthFree s g = false) : girthTick g s = s := if_pos (by rw [hf]; rfl)

section
variable (hf : girthFree s g = true)
include hf

theorem girthTick_again (ha : (s.girth g).again = true) : girthTick g s = sendBeacon g s :=
  (if_neg (by rw [hf]; decide)).trans (if_pos ha)

section
variable (ha : (s.girth g).again = false)
include ha

theorem girthTick_idle (hw : (s.girth g).walk = none) : girthTick g s = s := by
  refine (if_neg (by rw [hf]; decide)).trans ((if_neg (by rw [ha]; decide)).trans ?_)
  rw [hw]

theorem girthTick_ends {k : Nat} (hw : (s.girth g).walk = some k) (hk : girthLen s g ≤ k) :
    girthTick g s = (s.setGirth g { s.girth g with walk := none }).setRgBit (gr g Girth.STAT) 31 false := by
  refine (if_neg (by rw [hf]; decide)).trans ((if_neg (by rw [ha]; decide)).trans ?_)
  rw [hw]
  exact if_pos hk

end
end

theorem girthSlot_no_walk (hw : (s.girth g).walk = none) : girthSlot g s = girthTick g s := by
  unfold girthSlot
  dsimp only
  rw [hw]

theorem girthSlot_no_entry (h : ∀ k, (s.girth g).walk = some k →
    girthFree s g = false ∨ (s.girth g).again = true ∨ girthLen s g ≤ k) : girthSlot g s = girthTick g s := by
  cases hw : (s.girth g).walk with
  | none => exact girthSlot_no_walk hw
  | some k =>
    unfold girthSlot
    dsimp only
    rw [hw]
    refine if_neg ?_
    obtain h | h | h := h k hw <;> simp [h]

theorem girthSlot_takes {k : Nat} (hw : (s.girth g).walk = some k) (hf : girthFree s g = true)
    (ha : (s.girth g).again = false) (hk : k < girthLen s g) : girthSlot g s = girthEntry g k s := by
  unfold girthSlot
  dsimp only
  rw [hw]
  exact if_pos (by simp [hf, ha, hk])

/-! ### An entry of the schedule (R311, R315) -/

/-- Entry `k` of the schedule bank in use. -/
abbrev schedEntry (s : State) (g k : Nat) : Word :=
  s.rg (gr g (if (s.girth g).bank then Girth.SCHED_1 k else Girth.SCHED_0 k))
/-- The node of an entry, its map register, and its partner. -/
abbrev entryNode (s : State) (g k : Nat) : Nat := fld (schedEntry s g k) 7 0
abbrev entryMap (s : State) (g k : Nat) : Word := s.rg (gr g (Girth.NODEMAP (entryNode s g k)))
abbrev entryPartner (s : State) (g k : Nat) : Nat := fld (entryMap s g k) 11 0
/-- The walk skips entry `k`. -/
abbrev skipEntry (g k : Nat) (s : State) : State := girthTick g (s.setGirth g { s.girth g with walk := some (k + 1) })

/-- No access records itself in the registers of a port. -/
theorem unrecorded_girth {o : Nat} (hg : g < 4) (ho : o < 0x10000) : Unrecorded (gr g o) := by
  have slot : gr g o / 0x10000 = 0x4050 + g := by
    simp only [Blk.addr, Blk.base]
    omega
  refine ⟨?_, ?_, ?_⟩ <;> simp only [slot, Blk.base] <;> omega

theorem entryNode_lt (k : Nat) : entryNode s g k < 256 := Nat.mod_lt _ (by decide)

section
variable {k : Nat} (hg : g < 4) (hk : k < girthLen s g)
include hg hk

theorem schedEntry_girthReach (p : Nat) : schedEntry (girthReach p s).2 g k = schedEntry s g k := by
  have listed : k < 512 := hk.trans_le (Nat.min_le_left ..)
  unfold schedEntry
  rw [girthReach_girth]
  refine girthReach_rg (unrecorded_girth hg ?_) ..
  simp only [Girth.SCHED_0, Girth.SCHED_1]
  split <;> omega

theorem entryMap_girthReach (p : Nat) : entryMap (girthReach p s).2 g k = entryMap s g k := by
  have listed := entryNode_lt (s := s) (g := g) k
  unfold entryMap entryNode
  rw [schedEntry_girthReach hg hk]
  exact girthReach_rg (unrecorded_girth hg (by simp only [Girth.NODEMAP]; unfold entryNode at listed; omega)) ..

theorem girthEntry_off (he : tb (schedEntry s g k) 31 = false) : girthEntry g k s = skipEntry g k s := by
  have off : tb (schedEntry (girthReach (entryPartner s g k) s).2 g k) 31 = false := by
    rwa [schedEntry_girthReach hg hk]
  exact if_pos (by rw [off]; rfl)

/-- An entry whose node is not mapped is a miss of the partner table. -/
theorem girthEntry_unmapped (he : tb (schedEntry s g k) 31 = true) (hm : tb (entryMap s g k) 31 = false) :
    girthEntry g k s = skipEntry g k (ptMiss (4 + g) (entryPartner s g k) s) := by
  have on : tb (schedEntry (girthReach (entryPartner s g k) s).2 g k) 31 = true := by rwa [schedEntry_girthReach hg hk]
  have map := entryMap_girthReach hg hk (entryPartner s g k)
  have unmapped : tb (entryMap (girthReach (entryPartner s g k) s).2 g k) 31 = false := by rwa [map]
  refine (if_neg (ne_true_of_eq_false (congrArg (! ·) on))).trans ((if_pos (congrArg (! ·) unmapped)).trans ?_)
  exact congrArg (fun w => skipEntry g k (ptMiss (4 + g) (fld w 11 0) s)) map

end

/-- Entry `k` names a mapped node of a partner on the port that the port may reach. -/
structure EntryKnown (s : State) (g k : Nat) : Prop where
  on : tb (schedEntry s g k) 31 = true
  mapped : tb (entryMap s g k) 31 = true
  reach : girthReach (entryPartner s g k) s = ((true, true), s)
  valid : ptValid s (entryPartner s g k) = true
  kind : ptKind s (entryPartner s g k) = 3
  port : ptPort s (entryPartner s g k) = g
  node : fld (pw_ s (entryPartner s g k) 0) 23 16 = entryNode s g k

/-- The transmit queue of a partner has a head element. -/
abbrev HoldsElem (s : State) (q : Nat) : Prop := qEn s q = true ∧ qReady s q = true ∧ 0 < qCount s q

section
variable {k : Nat} (h : EntryKnown s g k)
include h

/-- After an entry to SAFE_HOLD a node that has not had its `SAFE` is sent it (R425). -/
theorem girthEntry_safe {had : List Nat} (hs : (s.girth g).safe = some had) (hn : entryNode s g k ∉ had) :
    girthEntry g k s = sendCmd g (entryNode s g k) (entryPartner s g k) true [3]
      (s.setGirth g { s.girth g with safe := some (addNode (entryNode s g k) had) }) := by
  unfold girthEntry
  dsimp only
  rw [h.reach]
  dsimp only
  rw [if_neg (by simp [h.on]), if_neg (by simp [h.mapped]), if_neg (by simp [h.valid, h.kind, h.port, h.node]), hs]
  exact if_pos (by simpa using hn)

section
variable (hs : (s.girth g).safe = none) (hq : girthQs s (entryPartner s g k) = true)
include hs hq

theorem girthEntry_head {el : List Byte} (hh : HoldsElem s (2 * entryPartner s g k + 1))
    (hw : qWorld s (2 * entryPartner s g k + 1) = ptWorld s (entryPartner s g k))
    (hr : agentRead midGirth (qWorld s (2 * entryPartner s g k + 1))
      (qElem s (2 * entryPartner s g k + 1) (qRd s (2 * entryPartner s g k + 1))) 64 s = (some el, s))
    (h0 : 0 < (el.getD 0 0).toNat) (h32 : (el.getD 0 0).toNat ≤ 32) :
    girthEntry g k s = sendCmd g (entryNode s g k) (entryPartner s g k) false ((el.drop 4).take (el.getD 0 0).toNat) s := by
  obtain ⟨hen, hrd, hct⟩ := hh
  unfold girthEntry
  dsimp only
  rw [h.reach]
  dsimp only
  rw [if_neg (by simp [h.on]), if_neg (by simp [h.mapped]), if_neg (by simp [h.valid, h.kind, h.port, h.node]), hs,
    if_neg Bool.false_ne_true, if_pos hq, if_pos (by simp [hq, hen, hrd, hct]), hr, hw, bne_self_eq_false]
  exact if_neg (by omega)

theorem girthEntry_no_head (hh : ¬HoldsElem s (2 * entryPartner s g k + 1)) : girthEntry g k s =
    if tb (schedEntry s g k) 30 then sendCmd g (entryNode s g k) (entryPartner s g k) true [0] s else skipEntry g k s := by
  unfold girthEntry
  dsimp only
  rw [h.reach]
  dsimp only
  rw [if_neg (by simp [h.on]), if_neg (by simp [h.mapped]), if_neg (by simp [h.valid, h.kind, h.port, h.node]), hs,
    if_neg Bool.false_ne_true, if_pos hq]
  exact if_neg (by simpa [hq, and_assoc] using hh)

end
end

/-! ### Commands on the line (R312) -/

section
variable {n p : Nat} {cmd : List Byte}

/-- The sequence number after the last of a node. -/
abbrev nextSeq (s : State) (g n : Nat) : Nat := (nodeGet (s.girth g).seqs n + 1) % 8
/-- The sequence number that the head element of a partner had. -/
abbrev elemSeq (s : State) (g n p : Nat) : Nat :=
  (Tbl.get (fun _ => none) (s.girth g).eseqs (elemKey n p)).getD (nodeGet (s.girth g).seqs n)

theorem sendCmd_own : sendCmd g n p true cmd s = girthSend g (girthFrame n 2 (nextSeq s g n) cmd) (s.setGirth g
    { s.girth g with seqs := nodeSet (s.girth g).seqs n (nextSeq s g n),
                     attempt := some { node := n, partner := p, nop := true, seq := nextSeq s g n, opcode := (cmd.headD 0).toNat } }) :=
  rfl

theorem sendCmd_first (h : nodeGet (s.girth g).tries (elemKey n p) = 0) : sendCmd g n p false cmd s =
    girthSend g (girthFrame n 2 (nextSeq s g n) cmd) (s.setGirth g
      { s.girth g with
        seqs := nodeSet (s.girth g).seqs n (nextSeq s g n),
        eseqs := Tbl.set (fun _ => none) (s.girth g).eseqs (elemKey n p) (some (nextSeq s g n)),
        attempt := some { node := n, partner := p, nop := false, seq := nextSeq s g n, opcode := (cmd.headD 0).toNat } }) := by
  unfold sendCmd
  dsimp only
  rw [h]
  rfl

theorem sendCmd_again (h : nodeGet (s.girth g).tries (elemKey n p) ≠ 0) : sendCmd g n p false cmd s =
    girthSend g (girthFrame n 2 (elemSeq s g n p) cmd) (s.setGirth g
      { s.girth g with
        eseqs := Tbl.set (fun _ => none) (s.girth g).eseqs (elemKey n p) (some (elemSeq s g n p)),
        attempt := some { node := n, partner := p, nop := false, seq := elemSeq s g n p, opcode := (cmd.headD 0).toNat } }) := by
  unfold sendCmd
  dsimp only
  rw [decide_eq_false h]
  rfl

end

/-! ### Bad frames (R307) and collisions (R312) -/

theorem girthFrameOk_iff {bs : List Byte} : girthFrameOk bs = true ↔ 5 ≤ bs.length ∧ (bs.getD 2 0).toNat ≤ 32 ∧
    bs.length = 5 + (bs.getD 2 0).toNat ∧
    ofBytes (bs.drop (3 + (bs.getD 2 0).toNat)) = girthCrc (bs.take (3 + (bs.getD 2 0).toNat)) ∧
    (bs.getD 1 0).toNat / 16 = 8 := by
  simp [girthFrameOk, and_assoc]

/-- The payload of a valid frame is as long as its `LEN` says. -/
theorem girthFrameOk_payload {bs : List Byte} (h : girthFrameOk bs = true) :
    (bs.drop 3).take (bs.length - 5) = (bs.drop 3).take (bs.getD 2 0).toNat ∧
    ((bs.drop 3).take (bs.length - 5)).length = (bs.getD 2 0).toNat := by
  obtain ⟨-, -, hl, -⟩ := girthFrameOk_iff.mp h
  rw [show bs.length - 5 = (bs.getD 2 0).toNat by omega, List.length_take, List.length_drop]
  exact ⟨rfl, by omega⟩

/-- A bad frame is counted and flagged. -/
def badNoted (g : Nat) (s : State) : State := bump .girth g Girth.CRCERR_CNT (girthFlag g 3 s)

theorem girthBad_alone (ha : (s.girth g).attempt = none) : girthBad g s = badNoted g s := by
  unfold girthBad
  dsimp only
  rw [ha]
  rfl

theorem girthSends_iff : girthSends s g = true ↔
    (s.girth g).line ≠ [] ∧ newer 64 s.time.selvedge.toNat (s.girth g).sent.toNat = false := by
  simp [girthSends]

/-- The tick at which the frame on the line began to leave. -/
def frameStart (s : State) (g : Nat) : DWord := (s.girth g).sent - w64 (10 * girthTb s g * (s.girth g).line.length)
/-- The bytes of the frame up to the one that leaves now. -/
def lineCut (s : State) (g : Nat) : List Byte :=
  (s.girth g).line.take ((s.time.selvedge - frameStart s g).toNat / (10 * girthTb s g) + 1)
/-- The tick at which those bytes have left. -/
def cutEnd (s : State) (g : Nat) : DWord := frameStart s g + w64 (10 * girthTb s g * (lineCut s g).length)
/-- The frame is cut after the byte that leaves now. -/
def frameCut (g : Nat) (s : State) : State := girthFlag g 4 (s.setGirth g
  { s.girth g with line := lineCut s g, sent := cutEnd s g, idle := cutEnd s g + w64 (girthGuard s g) })

theorem girthCollision_alone (ha : (s.girth g).attempt = none) : girthCollision g s = frameCut g s := by
  unfold girthCollision
  dsimp only
  split
  · next h => cases h.symm.trans ha
  · rfl

section
variable {a : GirthTry} (ha : (s.girth g).attempt = some a)
include ha

theorem girthCollision_fails : girthCollision g s = tryFails g a (cutEnd s g) (frameCut g s) := by
  unfold girthCollision
  dsimp only
  split
  · next h =>
    cases h.symm.trans ha
    rfl
  · next h => cases h.symm.trans ha

theorem girthBad_fails (hp : past s (s.girth g).sent = true) :
    girthBad g s = tryFails g a s.time.selvedge (badNoted g s) := by
  unfold girthBad
  dsimp only
  rw [ha]
  exact if_pos hp

/-! ### Replies (R312, R314, R315) -/

theorem girthReply_late {age : Nat} (bs : List Byte) (hw : inWindow s g (s.time.selvedge - w64 age) = false) :
    girthReply g bs age s = tryFails g a s.time.selvedge s := by
  unfold girthReply
  rw [ha]
  exact if_pos (by rw [hw]; rfl)

end

theorem girthReply_unasked (ha : (s.girth g).attempt = none) (bs : List Byte) (age : Nat) : girthReply g bs age s = s := by
  unfold girthReply
  rw [ha]

/-- The payload of a frame. -/
abbrev framePayload (bs : List Byte) : List Byte := (bs.drop 3).take (bs.length - 5)
/-- A frame answers an attempt: it has its node, sequence number and opcode, and a payload that holds them. -/
def frameFits (a : GirthTry) (bs : List Byte) : Bool := (bs.getD 0 0).toNat = a.node && (bs.getD 1 0).toNat % 8 = a.seq &&
  3 ≤ (framePayload bs).length && ((framePayload bs).getD 0 0).toNat = a.opcode

theorem frameFits_iff {a : GirthTry} {bs : List Byte} : frameFits a bs = true ↔ (bs.getD 0 0).toNat = a.node ∧
    (bs.getD 1 0).toNat % 8 = a.seq ∧ 3 ≤ (framePayload bs).length ∧ ((framePayload bs).getD 0 0).toNat = a.opcode := by
  simp only [frameFits, Bool.and_eq_true, decide_eq_true_eq, and_assoc]

/-- The node of an attempt has answered, and its partner's entry counts the frame. -/
def replyCounted (g : Nat) (a : GirthTry) (s : State) : State :=
  countEntry midGirth (2 * a.partner) a.partner 6 (nodeAnswers g a.node s)
/-- The status that a payload carries is not the one last heard of the node. -/
abbrev IsNews (g : Nat) (a : GirthTry) (payload : List Byte) (s : State) : Prop :=
  Tbl.get (fun _ => none) (s.girth g).nstat a.node ≠ some (payload.getD 2 0).toNat
/-- The status that a payload carries is the one last heard of the node. -/
def statusNoted (g : Nat) (a : GirthTry) (payload : List Byte) (s : State) : State := s.setGirth g { s.girth g with
  nstat := Tbl.set (fun _ => none) (s.girth g).nstat a.node (some (payload.getD 2 0).toNat) }

theorem replyCounted_selvedge (a : GirthTry) : (replyCounted g a s).time.selvedge = s.time.selvedge := by
  have answers : (nodeAnswers g a.node s).time.selvedge = s.time.selvedge := by
    unfold nodeAnswers
    dsimp only
    split <;> rfl
  exact (selvedge_of_portsNow (countEntry_portsNow ..)).trans answers

section
variable {a : GirthTry} {bs : List Byte} {age : Nat} (ha : (s.girth g).attempt = some a)
  (hw : inWindow s g (s.time.selvedge - w64 age) = true)
include ha hw

theorem girthReply_misfit (hf : frameFits a bs = false) : girthReply g bs age s =
    tryFails g a s.time.selvedge (countEntry midGirth (2 * a.partner) a.partner 7 s) := by
  unfold girthReply
  rw [ha]
  exact (if_neg (by rw [hw]; decide)).trans (if_pos (congrArg (! ·) hf))

end

/-! ### Elements (R302, R315) -/

/-- What a port pushes for a reply: length, flags, cycle, time and payload (R315). -/
abbrev replyElem (s : State) (g flags : Nat) (time : Word) (payload : List Byte) : List Byte :=
  toBytes 1 payload.length ++ toBytes 1 flags ++ toBytes 2 (fld (s.rg (gr g Girth.CYCNT)) 15 0) ++ toBytes 4 time.toNat ++ payload

section
variable {p flags : Nat} {time : Word} {payload : List Byte} {u : State} (hq : girthQs s p = true)
include hq

theorem girthPush_taken (h : pushElem midGirth (2 * p) (ptWorld s p) (replyElem s g flags time payload) s = (true, u)) :
    girthPush g p flags time payload s = (true, u) := by
  unfold girthPush
  dsimp only
  rw [hq, h]
  rfl

theorem girthPush_lost (h : pushElem midGirth (2 * p) (ptWorld s p) (replyElem s g flags time payload) s = (false, u)) :
    girthPush g p flags time payload s = (false, girthFlag g 5 u) := by
  unfold girthPush
  dsimp only
  rw [hq, h]
  rfl

end

section
variable {a : GirthTry} {bs payload : List Byte} {age : Nat} (ha : (s.girth g).attempt = some a)
  (hw : inWindow s g (s.time.selvedge - w64 age) = true) (hf : frameFits a bs = true) (hp : framePayload bs = payload)
include ha hw hf hp

/-- The reply to a `NOP` that says nothing new leaves no element. -/
theorem girthReply_quiet (hn : a.nop = true) (ho : a.opcode = 0) (hr : payload.getD 1 0 = 0)
    (hc : ¬IsNews g a payload (replyCounted g a s)) :
    girthReply g bs age s = slotEnd g s.time.selvedge (replyCounted g a s) := by
  subst hp
  have quiet : (!(a.nop && decide (a.opcode = 0)) || decide (((framePayload bs).getD 1 0).toNat ≠ 0) ||
      decide (IsNews g a (framePayload bs) (replyCounted g a s))) = false := by
    rw [hn, ho, hr, decide_eq_false hc]
    rfl
  unfold girthReply
  rw [ha]
  refine (if_neg (by rw [hw]; decide)).trans ((if_neg (ne_true_of_eq_false (congrArg (! ·) hf))).trans ?_)
  exact congrArg (slotEnd g _) ((congrArg (tryDone a) (if_neg (ne_true_of_eq_false quiet))).trans (if_pos (by rw [hn]; rfl)))

section
variable {u : State} {flags : Nat}
  (hs : a.nop = false ∨ payload.getD 1 0 ≠ 0 ∨ IsNews g a payload (replyCounted g a s))
  (hg : 4 * b2n (a.nop && decide (a.opcode = 0)) + 8 * b2n (decide (IsNews g a payload (replyCounted g a s))) = flags)
include hs hg

/-- Any other reply is pushed, and its status noted when it found room. -/
theorem girthReply_pushes {ok : Bool}
    (hu : girthPush g a.partner flags (w32 ((replyCounted g a s).time.selvedge - w64 age).toNat) payload (replyCounted g a s) =
      (ok, u)) :
    girthReply g bs age s = slotEnd g s.time.selvedge (tryDone a (if ok then statusNoted g a payload u else u)) := by
  subst hp hg
  have asks : (!(a.nop && decide (a.opcode = 0)) || decide (((framePayload bs).getD 1 0).toNat ≠ 0) ||
      decide (IsNews g a (framePayload bs) (replyCounted g a s))) = true := by
    obtain h | h | h := hs
    · rw [h]
      rfl
    · have failed : ((framePayload bs).getD 1 0).toNat ≠ 0 := fun h0 => h (BitVec.eq_of_toNat_eq h0)
      rw [decide_eq_true failed, Bool.or_true, Bool.true_or]
    · rw [decide_eq_true h, Bool.or_true]
  rw [replyCounted_selvedge, replyCounted] at hu
  unfold girthReply
  rw [ha]
  refine (if_neg (by rw [hw]; decide)).trans ((if_neg (ne_true_of_eq_false (congrArg (! ·) hf))).trans ?_)
  refine congrArg (slotEnd g _) (congrArg (tryDone a) ((if_pos asks).trans ?_))
  rw [hu]
  rfl

variable (hq : girthQs (replyCounted g a s) a.partner = true)
include hq

theorem girthReply_stored (hu : pushElem midGirth (2 * a.partner) (ptWorld (replyCounted g a s) a.partner)
      (replyElem (replyCounted g a s) g flags (w32 ((replyCounted g a s).time.selvedge - w64 age).toNat) payload)
      (replyCounted g a s) = (true, u)) :
    girthReply g bs age s = slotEnd g s.time.selvedge (tryDone a (statusNoted g a payload u)) :=
  (girthReply_pushes ha hw hf hp hs hg (girthPush_taken hq hu)).trans (by rw [if_pos rfl])

theorem girthReply_lost (hu : pushElem midGirth (2 * a.partner) (ptWorld (replyCounted g a s) a.partner)
      (replyElem (replyCounted g a s) g flags (w32 ((replyCounted g a s).time.selvedge - w64 age).toNat) payload)
      (replyCounted g a s) = (false, u)) :
    girthReply g bs age s = slotEnd g s.time.selvedge (tryDone a (girthFlag g 5 u)) :=
  (girthReply_pushes ha hw hf hp hs hg (girthPush_lost hq hu)).trans (by rw [if_neg Bool.false_ne_true])

end
end

/-- The head element of an attempt is consumed where the port reaches its queue. -/
theorem tryDone_consumes {a : GirthTry} (hn : a.nop = false) (hh : a.held = true)
    (ho : queueOpen midGirth (2 * a.partner + 1) s = (true, s)) : tryDone a s = qConsume (2 * a.partner + 1) 1 s := by
  refine (if_neg (by rw [hn, hh]; decide)).trans ?_
  unfold elemDone
  dsimp only
  rw [ho]
  rfl

theorem tryDone_nop {a : GirthTry} (hn : a.nop = true) : tryDone a s = s := if_pos (by rw [hn]; rfl)

end

/-! ### What each row calls -/

section
variable {s : State} {g : Fin 4} {a : GirthTry} {bytes tail : List (BitVec 8)} {addr ctl : BitVec 8} {cut : Bool} {age : Nat}

theorem exec_girthCycleStart_due (h : (s.girth g).startDue = true) (he : girthEn s g = true) :
    exec (.girthCycleStart g) s = .next (cycleStart g s) := congrArg _ (if_pos (by rw [h, he]; rfl))

theorem exec_girthCycleStart_not_due (h : (s.girth g).startDue = false ∨ girthEn s g = false) :
    exec (.girthCycleStart g) s = .next s := congrArg _ (if_neg (by simpa [Classical.or_iff_not_imp_left] using h))

theorem exec_girthReplyTimeout_none (ha : (s.girth g).attempt = none) : exec (.girthReplyTimeout g) s = .next s := by
  rw [exec_girthReplyTimeout, execGirthReplyTimeout, ha]

theorem exec_girthReplyTimeout_some (ha : (s.girth g).attempt = some a) : exec (.girthReplyTimeout g) s =
    .next (if past s ((s.girth g).sent + w64 (girthRto s g)) then tryFails g a s.time.selvedge s else s) := by
  rw [exec_girthReplyTimeout, execGirthReplyTimeout, ha]

theorem exec_girthCollision_silent (h : girthEn s g = false ∨ girthSends s g = false) :
    exec (.girthCollision g) s = .next s := congrArg _ (if_neg (by simpa [Classical.or_iff_not_imp_left] using h))

theorem exec_girthCollision_sending (he : girthEn s g = true) (hs : girthSends s g = true) :
    exec (.girthCollision g) s = .next (girthCollision g s) := congrArg _ (if_pos (by rw [he, hs]; rfl))

theorem exec_girthInvalidFrame_none (h : girthEn s g = false ∨ cut = false ∧ girthFrameOk bytes = true) :
    exec (.girthInvalidFrame g cut bytes) s = .next s := by
  refine congrArg Host.Outcome.next (if_neg ?_)
  obtain h | ⟨hc, hf⟩ := h
  · rw [h]
    exact Bool.false_ne_true
  · rw [hc, hf, Bool.not_true, Bool.or_false, Bool.and_false]
    exact Bool.false_ne_true

theorem exec_girthInvalidFrame_bad (he : girthEn s g = true) (hb : girthFrameOk bytes = false ∨ cut = true) :
    exec (.girthInvalidFrame g cut bytes) s = .next (girthBad g s) := by
  refine congrArg Host.Outcome.next (if_pos ?_)
  obtain h | h := hb <;> simp [he, h]

theorem exec_girthReply_off (he : girthEn s g = false) : exec (.girthReply g addr ctl tail age) s = .next s :=
  congrArg _ (if_pos (congrArg (! ·) he))

theorem exec_girthReply_good (he : girthEn s g = true) (hf : girthFrameOk (addr :: ctl :: tail) = true) :
    exec (.girthReply g addr ctl tail age) s = .next (girthReply g (addr :: ctl :: tail) age s) :=
  congrArg _ ((if_neg (ne_true_of_eq_false (congrArg (! ·) he))).trans (if_pos hf))

theorem exec_girthReply_bad (he : girthEn s g = true) (hf : girthFrameOk (addr :: ctl :: tail) = false) :
    exec (.girthReply g addr ctl tail age) s = .next (girthBad g s) :=
  congrArg _ ((if_neg (ne_true_of_eq_false (congrArg (! ·) he))).trans (if_neg (ne_true_of_eq_false hf)))

end

/-! ### The statement -/

/-- Settles O42: each clause is the lemma about that outcome of the cycle, the slot, the timeout, the collision, the bad
frame or the reply. -/
theorem girthBus : Obligations.GirthBus := by
  unfold Obligations.GirthBus
  intro s g bytes tail addr ctl cut age k t el reply x cfg tim en now bit guard rto c started overrun badFrame free byte first
    rest fin hit sends len good payload window fits answered news stores noted head consumed e n nm p q known holds l cmd seq old
  have hg : g.val < 4 := g.isLt
  have busy (h : ¬ free s) : girthFree s g = false := Bool.eq_false_iff.mpr h
  have goodFrame : girthFrameOk bytes = true ↔ good := girthFrameOk_iff
  have badOk (h : ¬ good) : girthFrameOk bytes = false := Bool.eq_false_iff.mpr (mt goodFrame.mp h)
  have begins {u : State} (h : x.startDue = true) (he : en = true) (hu : cycleStart g s = u) :
      exec (.girthCycleStart g) s = .next u := (exec_girthCycleStart_due h he).trans (congrArg _ hu)
  have slot {u : State} (hu : girthSlot g s = u) : exec (.girthSlot g) s = .next u := congrArg _ hu
  have invalid {u : State} (he : en = true) (hb : ¬ good ∨ cut = true) (hu : girthBad g s = u) :
      exec (.girthInvalidFrame g cut bytes) s = .next u :=
    (exec_girthInvalidFrame_bad he (hb.imp_left badOk)).trans (congrArg _ hu)
  refine ⟨fun h => exec_girthCycleStart_not_due h,
    fun h he hw hf => begins h he ((cycleStart_free hf).trans (by rw [cycleCounted_idle hw]; rfl)),
    fun h he hw hf => begins h he ((cycleStart_free hf).trans (by rw [cycleCounted_walking hw]; rfl)),
    fun h he hw hf => begins h he ((cycleStart_busy (busy hf)).trans (by rw [cycleCounted_idle hw]; rfl)),
    fun h he hw hf => begins h he ((cycleStart_busy (busy hf)).trans (by rw [cycleCounted_walking hw]; rfl)),
    fun hf => slot ((girthSlot_no_entry fun _ _ => .inl (busy hf)).trans (girthTick_busy (busy hf))),
    fun hf ha => slot ((girthSlot_no_entry fun _ _ => .inr (.inl ha)).trans (girthTick_again hf ha)),
    fun hf ha hw => slot ((girthSlot_no_walk hw).trans (girthTick_idle hf ha hw)),
    fun hf ha hw hk => slot ((girthSlot_no_entry fun j hj => .inr (.inr ?past)).trans (girthTick_ends hf ha hw hk)),
    fun hf ha hw hk he => slot ((girthSlot_takes hw hf ha hk).trans (girthEntry_off hg hk he)),
    fun hf ha hw hk he => ?entry, fun h => exec_girthReplyTimeout_none h,
    fun h hp => (exec_girthReplyTimeout_some h).trans (congrArg _ (if_neg (ne_true_of_eq_false hp))),
    fun h hp => (exec_girthReplyTimeout_some h).trans (congrArg _ (if_pos hp)),
    fun he => ⟨exec_girthCollision_silent (.inl he), exec_girthInvalidFrame_none (.inl he), exec_girthReply_off he⟩,
    fun h => exec_girthCollision_silent (.inr (Bool.eq_false_iff.mpr (mt girthSends_iff.mp h))),
    fun he hs ha => ?alone, fun he hs ha => ?collided,
    fun hc hf => exec_girthInvalidFrame_none (.inr ⟨hc, goodFrame.mpr hf⟩),
    fun he hb ha => invalid he hb (girthBad_alone ha), fun he hb ha hp => invalid he hb (girthBad_fails ha hp),
    fun hb he => ?reply⟩
  case past =>
    rwa [Option.some.inj (hj.symm.trans hw)]
  case entry =>
    have entered {u : State} (hu : girthEntry g k s = u) : exec (.girthSlot g) s = .next u :=
      slot ((girthSlot_takes hw hf ha hk).trans hu)
    have entryKnown (h : known) : EntryKnown s g k := by
      obtain ⟨hm, hr, hv, hkd, hpt, hn⟩ := h
      exact ⟨he, hm, hr, hv, hkd, hpt, hn⟩
    refine ⟨fun hm => entered (girthEntry_unmapped hg hk he hm),
      fun sent h hs hn => entered (girthEntry_safe (entryKnown h) hs hn), fun h hs hq hh hw hr h0 h32 => ?_,
      fun h hs hq hh => ?_⟩
    · have sent := girthEntry_head (entryKnown h) hs hq hh hw hr h0 h32
      exact ⟨fun ht => entered (sent.trans (sendCmd_first ht)), fun ht => entered (sent.trans (sendCmd_again ht))⟩
    · have without := girthEntry_no_head (entryKnown h) hs hq hh
      exact ⟨fun h30 => entered (without.trans ((if_pos h30).trans sendCmd_own)),
        fun h30 => entered (without.trans (if_neg (ne_true_of_eq_false h30)))⟩
  case alone => exact (exec_girthCollision_sending he (girthSends_iff.mpr hs)).trans (congrArg _ (girthCollision_alone ha))
  case collided => exact (exec_girthCollision_sending he (girthSends_iff.mpr hs)).trans (congrArg _ (girthCollision_fails ha))
  case reply =>
    have bad {u : State} (h : ¬ good) (hu : girthBad g s = u) : exec reply s = .next u :=
      (exec_girthReply_bad he (hb ▸ badOk h)).trans (congrArg _ hu)
    have heard {u : State} (h : good) (hu : girthReply g bytes age s = u) : exec reply s = .next u :=
      (exec_girthReply_good he (hb ▸ goodFrame.mpr h)).trans (congrArg _ (hb ▸ hu))
    have fitsIff (h : good) : frameFits t bytes = true ↔ fits := by
      obtain ⟨hp, hl⟩ := girthFrameOk_payload (goodFrame.mpr h)
      rw [frameFits_iff, hl, framePayload, hp]
    refine ⟨fun h ha => bad h (girthBad_alone ha), fun h ha hp => bad h (girthBad_fails ha hp),
      fun h ha => heard h (girthReply_unasked ha ..),
      fun h ha hw => heard h (girthReply_late ha bytes (Bool.eq_false_iff.mpr hw)),
      fun h ha hw hf => heard h (girthReply_misfit ha hw (Bool.eq_false_iff.mpr (mt (fitsIff h).mp hf))),
      fun h ha hw hf hn ho => ?_, fun h ha hw hf hn hh => ?_⟩
    all_goals have hp := (girthFrameOk_payload (goodFrame.mpr h)).1
    · have flags : 4 * b2n (t.nop && decide (t.opcode = 0)) + 8 * b2n (decide news) = 4 + if news then 8 else 0 := by
        rw [hn, ho]
        by_cases hc : news <;> simp only [hc] <;> rfl
      exact ⟨fun hr hc => heard h (girthReply_quiet ha hw ((fitsIff h).mpr hf) hp hn ho hr hc),
        fun u hs hu => heard h ((girthReply_stored ha hw ((fitsIff h).mpr hf) hp (.inr hs) flags hu.1 hu.2).trans
          (congrArg _ (tryDone_nop hn))),
        fun u hs hu => heard h ((girthReply_lost ha hw ((fitsIff h).mpr hf) hp (.inr hs) flags hu.1 hu.2).trans
          (congrArg _ (tryDone_nop hn)))⟩
    · have flags : 4 * b2n (t.nop && decide (t.opcode = 0)) + 8 * b2n (decide news) = if news then 8 else 0 := by
        rw [hn]
        by_cases hc : news <;> simp only [hc] <;> rfl
      exact ⟨fun u hu ho => heard h ((girthReply_stored ha hw ((fitsIff h).mpr hf) hp (.inl hn) flags hu.1 hu.2).trans
          (congrArg _ (tryDone_consumes hn hh ho))),
        fun u hu ho => heard h ((girthReply_lost ha hw ((fitsIff h).mpr hf) hp (.inl hn) flags hu.1 hu.2).trans
          (congrArg _ (tryDone_consumes hn hh ho)))⟩

end Sys2Proof.Machine
end

section
/-! Why the statement on the cabinet network fails: its clause on a frame that starts writes the port's record once, where
the row writes it twice, and a table that lists a port twice tells the two apart. -/

namespace Sys2Proof.Machine

/-- `ETH_0` with its link up and one frame of 32 bytes at the head of queue 0, its gPTP transmit queue; the table of the
ports lists it twice. -/
def ethListedTwice : State :=
  let s := (State.reset.setRg (er 0 Eth.CFG) 0x80000000).setRg (er 0 Eth.STAT) 0x80000000
  let t := storeWord 0x20000000 32 (storeWord (qAddr 0 2) 1 (storeWord (qAddr 0 1) 0x200000 (storeWord (qAddr 0 0) 0x84006400 s)))
  { t with ports.eth := [(0, {}), (0, {})] }

/-- The row forgets a record that is that of a port without traffic, so that one entry is left. -/
theorem ethTransmit_listedTwice : (ethTransmit 0 ethListedTwice).ports.eth.length = 1 := by decide +kernel

/-- Refutes O43: the turn of queue 0 leaves a record that is that of a port without traffic, so the first write takes the
port from the table and the second enters it once, where the clause replaces the first of the two entries.  `State.Inv`
asks the canonical form of memory and registers alone, and the statement not even that. -/
theorem not_cabinetNetwork : ¬ Obligations.CabinetNetwork := by
  unfold Obligations.CabinetNetwork
  intro h
  obtain ⟨-, -, -, -, -, -, -, -, -, starts, -⟩ := h ethListedTwice { mid := 0 } 0 0 false false false false [] 0 0
    { port := 0, ended := 0, chan := 0, word0 := 0, word4 := 0, tbase := false, map := none, records := [] } [] [] []
    { queue := 0, elem := 0, started := 0, frame := [] }
  have one := Host.Outcome.next.inj <| starts 7 0 [(0, 0)] (List.replicate 32 0) false
    (ethListedTwice.bytes 0x20000000 64) (by decide +kernel) (by decide +kernel) (by decide +kernel) (by decide +kernel)
    (by decide +kernel) (by decide +kernel) (by decide +kernel) (by decide +kernel) (by decide +kernel) (by decide +kernel)
  exact absurd (ethTransmit_listedTwice.symm.trans (congrArg (·.ports.eth.length) one)) (by decide +kernel)

end Sys2Proof.Machine
end

section
/-! Cache and translation maintenance (R341–R343, R350, R351): how a maintenance function ends on each kind of element,
then the statement about them. -/

namespace Sys2Proof.Machine

section
variable {s s1 s2 : State} {i : Nat} {ns : List (BitVec 5)} {low priv : Bool} {f : State → Out} {c : Instr} {k : Acc}
  {va : Word} {o : Obs} {op : Nat → State → State} {p : Place} {t : Trap} {e : Elem} {g : Nat → State → Out}

/-! ### A line by its address (R343) -/

theorem lineOp_done (hx : xlate i k va o.wecc (applyObs i o s) = (.ok p, s1)) (hm : p.mt = 2)
    (he : cacheError s1 p = false) (hr : cacheRefuses i p 1 false s1 = (none, s2)) :
    lineOp i k va o op s = .done (op (p.pa / 64) s2) := by
  simp [lineOp, hx, hm, he, hr]

theorem lineOp_refused {err : BusErr} (hx : xlate i k va o.wecc (applyObs i o s) = (.ok p, s1)) (hm : p.mt = 2)
    (he : cacheError s1 p = false) (hr : cacheRefuses i p 1 false s1 = (some err, s2)) :
    lineOp i k va o op s = .trap (Trap.ofBus err false false va) s2 := by
  simp [lineOp, hx, hm, he, hr]

/-- A page that is not cacheable has no line. -/
theorem lineOp_uncached (hx : xlate i k va o.wecc (applyObs i o s) = (.ok p, s1)) (hm : p.mt ≠ 2) :
    lineOp i k va o op s = .done s1 := by
  simp [lineOp, hx, hm]

theorem lineOp_fault (hx : xlate i k va o.wecc (applyObs i o s) = (.error t, s1)) :
    lineOp i k va o op s = .trap t s1 := by
  simp [lineOp, hx]

/-- A fault of translation is reported at the instruction itself. -/
theorem xlateCore_error_next {we : Option (Nat × Ecc)} (h : xlateCore i k va we s = (.error t, s1)) : t.next = false := by
  unfold xlateCore at h
  dsimp only at h
  split at h
  · split at h
    · cases h; rfl
    · cases h
  · split at h
    · cases h; rfl
    · split at h
      · cases h; rfl
      · cases h

theorem xlate_error_next {we : Option (Nat × Ecc)} (h : xlate i k va we s = (.error t, s1)) : t.next = false := by
  unfold xlate at h
  split at h
  · exact xlateEngine_error_next (congrArg Prod.fst h)
  · split at h
    · exact xlateCore_error_next h
    · cases h

/-! ### Maintenance by kind of element (R343, R351) -/

theorem maintBody_idle (hn : regsOk i ns = true) (ha : isAc i = false) : maintBody i ns true priv f s = .done s := by
  simp [maintBody, hn, ha]

theorem maintBody_illegal (hn : regsOk i ns = true) (ha : isAc i = false) :
    maintBody i ns false priv f s = .trap Trap.illegal s := by
  simp [maintBody, hn, ha]

theorem regsOk_ac (n : Fin 4) (ns : List (BitVec 5)) : regsOk (32 + n) ns = true := by simp [regsOk, isEngine]

theorem isAc_ac (n : Fin 4) : isAc (32 + n) = true := by
  have := n.isLt
  simp [isAc]
  omega

variable {n : Fin 4}

theorem maintBody_core (hp : (priv && !stPriv (s.rset (32 + n))) = false) : maintBody (32 + n) ns low priv f s = f s := by
  simp only [maintBody, regsOk_ac, isAc_ac, hp, Bool.not_true, Bool.false_eq_true, if_false]

theorem maintBody_unprivileged (hp : stPriv (s.rset (32 + n)) = false) :
    maintBody (32 + n) ns low true f s = .trap Trap.priv s := by
  simp only [maintBody, regsOk_ac, isAc_ac, hp, Bool.not_true, Bool.not_false, Bool.and_true, Bool.false_eq_true, if_false,
    if_true]

/-- A maintenance function of a core ends as its body does. -/
theorem exec_maint {x : Out} (hc : exec c s = .next (maintInstr (.ac n) ns low priv g s)) (h : Ready s (32 + n))
    (hp : (priv && !stPriv (s.rset (32 + n))) = false) (hb : g (32 + n) s = x) :
    exec c s = .next (finish (32 + n) {} false x) :=
  hc.trans (congrArg _ ((h.runInstr ..).trans (congrArg _ ((maintBody_core hp).trans hb))))

theorem exec_maint_trap (hc : exec c s = .next (maintInstr (.ac n) ns low priv g s)) (h : Ready s (32 + n))
    (hp : (priv && !stPriv (s.rset (32 + n))) = false) (hb : g (32 + n) s = .trap t s1) (ht : t.next = false) :
    exec c s = .next (s1.trapped (32 + n) t) :=
  (exec_maint hc h hp hb).trans (congrArg _ (finish_trap ht false))

theorem exec_maint_passed (hc : exec c s = .next (maintInstr (.ac n) ns low priv g s)) (h : Ready s (32 + n))
    (hp : (priv && !stPriv (s.rset (32 + n))) = false) (hb : g (32 + n) s = .done s1) (hs : Settled s1 (32 + n)) :
    exec c s = .next (s1.passed (32 + n) 4) :=
  (exec_maint hc h hp hb).trans (congrArg _ (finish_done hs.toQuiet rfl hs.repAct hs.pendSt))

theorem exec_maint_unprivileged (hc : exec c s = .next (maintInstr (.ac n) ns low true g s)) (h : Ready s (32 + n))
    (hp : stPriv (s.rset (32 + n)) = false) : exec c s = .next (s.trapped (32 + n) Trap.priv) :=
  exec_trap hc h (maintBody_unprivileged hp)

/-- The first seven do nothing outside the application cores. -/
theorem exec_maint_idle (hc : exec c s = .next (maintInstr e ns true priv g s)) (h : Ready s (elemIdx e))
    (ha : isAc (elemIdx e) = false) (hn : regsOk (elemIdx e) ns = true) : exec c s = .next (s.passed (elemIdx e) 4) :=
  exec_done hc h (maintBody_idle hn ha) h.settled

/-- The others are illegal there. -/
theorem exec_maint_illegal (hc : exec c s = .next (maintInstr e ns false priv g s)) (h : Ready s (elemIdx e))
    (ha : isAc (elemIdx e) = false) (hn : regsOk (elemIdx e) ns = true) :
    exec c s = .next (s.trapped (elemIdx e) Trap.illegal) :=
  exec_trap hc h (maintBody_illegal hn ha)

end

/-! ### The statement -/

/-- The page that `TLBI` names: the bank in `rb` and bits 31 to 12 of `ra` (R350). -/
theorem tlbiVa_eq (s : State) (i : Nat) (ra rb : BitVec 5) : tlbiVa s i ra rb =
    ((s.rset i).gr rb.toNat).toNat % 2 ^ 16 * 2 ^ 32 + ((s.rset i).gr ra.toNat).toNat / 4096 * 4096 := by
  have := ((s.rset i).gr ra.toNat).isLt
  simp only [tlbiVa, fld, Nat.shiftRight_eq_div_pow]
  omega

theorem dropTlb_all (i : Nat) (s : State) : dropTlb i (fun _ => true) s = s.setEl i { s.el i with tlb := [] } := by
  simp [dropTlb]

/-- Settles O20, by the kind of element, of operation and of page. -/
theorem cacheMaintenance : Obligations.CacheMaintenance := by
  unfold Obligations.CacheMaintenance
  constructor
  · intro s e ra rb o i h ha hn
    have one : regsOk i [ra] = true := by
      simp only [regsOk, List.all_cons, List.all_nil, Bool.or_eq_true, Bool.and_eq_true] at hn ⊢
      exact hn.imp_right fun h => ⟨h.1, trivial⟩
    have zero : regsOk i [] = true := by simp [regsOk]
    simp only [List.mem_cons, List.not_mem_nil, or_false, forall_eq_or_imp, forall_eq]
    exact ⟨⟨exec_maint_idle rfl h ha one, exec_maint_idle rfl h ha one, exec_maint_idle rfl h ha one,
        exec_maint_idle rfl h ha one, exec_maint_idle rfl h ha zero, exec_maint_idle rfl h ha zero,
        exec_maint_idle rfl h ha zero⟩,
      exec_maint_illegal rfl h ha hn, exec_maint_illegal rfl h ha zero, exec_maint_illegal rfl h ha zero,
      exec_maint_illegal rfl h ha hn, exec_maint_illegal rfl h ha zero, exec_maint_illegal rfl h ha zero⟩
  · intro s s1 s2 n ra rb o p t e i r va ends ln page hit dropped h
    have drop (j : Nat) (u : State) : dropTlb j (fun t => tlbCovers t (tlbiVa s (32 + n) ra rb)) u = dropped j u := by
      rw [tlbiVa_eq]; rfl
    refine ⟨fun hx hm he hr => ⟨exec_maint rfl h rfl (lineOp_done hx hm he hr), exec_maint rfl h rfl (lineOp_done hx hm he hr)⟩,
      fun hx hm he hr => exec_maint rfl h rfl (lineOp_done hx hm he hr),
      fun hx hm he hr => exec_maint rfl h rfl (lineOp_done hx hm he hr),
      fun err hx hm he hr => exec_maint_trap rfl h rfl (lineOp_refused hx hm he hr) (by cases err <;> rfl),
      fun hm => ⟨fun hx => ⟨exec_maint rfl h rfl (lineOp_uncached hx hm), exec_maint rfl h rfl (lineOp_uncached hx hm)⟩,
        fun hx => exec_maint rfl h rfl (lineOp_uncached hx hm), fun hx => exec_maint rfl h rfl (lineOp_uncached hx hm)⟩,
      fun hx => ⟨exec_maint_trap rfl h rfl (lineOp_fault hx) (xlate_error_next hx),
        exec_maint_trap rfl h rfl (lineOp_fault hx) (xlate_error_next hx)⟩,
      fun hx => exec_maint_trap rfl h rfl (lineOp_fault hx) (xlate_error_next hx), fun hp => ?privileged, fun hp => ?not⟩
    case privileged =>
      have may : (true && !stPriv (s.rset i)) = false := by rw [show stPriv (s.rset i) = true from hp]; rfl
      have own {x : ElemState} (hv : x.view = (s.el i).view) (hs : (x.set x.cur).status = (s.rset i).status)
          (hq : (x.set x.cur).pendSt = (s.rset i).pendSt) : Settled (s.setEl i x) i := h.settled.setEl hv hs hq
      exact ⟨exec_maint rfl h may rfl, exec_maint rfl h may rfl, exec_maint_passed rfl h may rfl (own rfl rfl rfl),
        exec_maint_passed rfl h may (congrArg _ (drop i s)) (own rfl rfl rfl),
        exec_maint_passed rfl h may (congrArg _ (dropTlb_all i s)) (own rfl rfl rfl),
        exec_maint_passed rfl h may rfl (own rfl rfl rfl),
        exec_maint rfl h may (congrArg Out.done (by simp only [everyCore, drop, List.foldl])),
        exec_maint rfl h may (congrArg Out.done (by simp only [everyCore, dropTlb_all])), exec_maint rfl h may rfl⟩
    case not =>
      simp only [List.mem_cons, List.not_mem_nil, or_false, forall_eq_or_imp, forall_eq]
      exact ⟨exec_maint_unprivileged rfl h hp, exec_maint_unprivileged rfl h hp, exec_maint_unprivileged rfl h hp,
        exec_maint_unprivileged rfl h hp, exec_maint_unprivileged rfl h hp, exec_maint_unprivileged rfl h hp,
        exec_maint_unprivileged rfl h hp, exec_maint_unprivileged rfl h hp, exec_maint_unprivileged rfl h hp⟩

end Sys2Proof.Machine
end

section
/-! What a store leaves of the bytes of memory (R335), in regions whose units are encrypted too (R400). -/

namespace Sys2Proof.Machine

/-! ### Numbers and their bytes (R4) -/

theorem length_toBytes (n x : Nat) : (toBytes n x).length = n := by
  induction n generalizing x with
  | zero => rfl
  | succ n ih => exact congrArg (· + 1) (ih _)

theorem ofBytes_lt (l : List Byte) : ofBytes l < 256 ^ l.length := by
  induction l with
  | nil => exact Nat.one_pos
  | cons b t ih =>
    have := b.isLt
    simp only [ofBytes, List.length_cons, Nat.pow_succ]
    omega

theorem ofBytes_toBytes {n x : Nat} (h : x < 256 ^ n) : ofBytes (toBytes n x) = x := by
  induction n generalizing x with
  | zero =>
    have : x = 0 := by simpa using h
    simp [toBytes, ofBytes, this]
  | succ n ih =>
    have rest := ih (x := x / 256) (by rw [Nat.pow_succ] at h; omega)
    simp only [toBytes, ofBytes, rest, BitVec.toNat_ofNat]
    omega

theorem toBytes_ofBytes (l : List Byte) : toBytes l.length (ofBytes l) = l := by
  induction l with
  | nil => rfl
  | cons b t ih =>
    have := b.isLt
    have low : BitVec.ofNat 8 (b.toNat + 256 * ofBytes t) = b := by
      apply BitVec.eq_of_toNat_eq
      simp only [BitVec.toNat_ofNat]
      omega
    have high : (b.toNat + 256 * ofBytes t) / 256 = ofBytes t := by omega
    simp only [List.length_cons, toBytes, ofBytes, low, high, ih]

/-! ### Bytes put one after the other -/

/-- A put that writes its bytes one after the other changes them and no other. -/
theorem read_put {put : List Host.Cell → Nat → List Byte → List Host.Cell} {one : List Host.Cell → Nat → Byte → List Host.Cell}
    {read : List Host.Cell → Nat → Byte} (nil : ∀ m a, put m a [] = m)
    (cons : ∀ m a b t, put m a (b :: t) = put (one m a b) (a + 1) t)
    (hone : ∀ m a b x, read (one m a b) x = if x = a then b else read m x)
    (m : List Host.Cell) (a : Nat) (bs : List Byte) (x : Nat) :
    read (put m a bs) x = if a ≤ x ∧ x < a + bs.length then bs.getD (x - a) 0 else read m x := by
  induction bs generalizing m a with
  | nil => rw [nil, if_neg (by simp)]
  | cons b t ih =>
    rw [cons, ih, hone, List.length_cons]
    rcases Nat.lt_trichotomy x a with hx | rfl | hx
    · rw [if_neg (by omega), if_neg (by omega), if_neg (by omega)]
    · rw [if_neg (by omega), if_pos rfl, if_pos (by omega), Nat.sub_self]
      rfl
    · have next : x - a = x - (a + 1) + 1 := by omega
      rw [if_neg (by omega : x ≠ a), next, List.getD_cons_succ]
      exact if_congr (by omega) rfl rfl

theorem get_memPut (m : List Host.Cell) (a : Nat) (bs : List Byte) (x : Nat) : Tbl.get memUnlisted (memPut m a bs) x =
    if a ≤ x ∧ x < a + bs.length then bs.getD (x - a) 0 else Tbl.get memUnlisted m x :=
  read_put (put := memPut) (one := Tbl.set memUnlisted) (fun _ _ => rfl) (fun _ _ _ _ => rfl)
    (fun m a b x => Tbl.get_set memUnlisted m a b x) m a bs x

/-! ### Units (R400) -/

section
variable {key a x : Nat} {m m' : List Host.Cell}

theorem rawUnit_congr (hx : x / 16 = a / 16)
    (h : ∀ j, j / 16 = a / 16 → Tbl.get memUnlisted m' j = Tbl.get memUnlisted m j) : rawUnit m' x = rawUnit m a := by
  unfold rawUnit
  refine congrArg _ (List.map_congr_left fun i hi => ?_)
  have := List.mem_range.mp hi
  rw [hx]
  exact h _ (by omega)

theorem plainUnit_congr (hx : x / 16 = a / 16)
    (h : ∀ j, j / 16 = a / 16 → Tbl.get memUnlisted m' j = Tbl.get memUnlisted m j) : plainUnit key m' x = plainUnit key m a := by
  rw [plainUnit, plainUnit, hx, rawUnit_congr hx h]

/-- A unit put whole is the number it holds. -/
theorem rawUnit_memPut {c : Nat} (hc : c < 256 ^ 16) (hx : x / 16 = a / 16) :
    rawUnit (memPut m (a / 16 * 16) (toBytes 16 c)) x = c := by
  refine Eq.trans (congrArg ofBytes ?_) (ofBytes_toBytes hc)
  refine List.ext_getElem (by simp [length_toBytes]) fun i hi _ => ?_
  rw [List.length_map, List.length_range] at hi
  rw [List.getElem_map, List.getElem_range, hx, get_memPut, length_toBytes, if_pos (by omega), Nat.add_sub_cancel_left]
  exact List.getD_eq_getElem ..

/-- The unit of `a` with byte `a` replaced. -/
def unitWith (key : Nat) (m : List Host.Cell) (a : Nat) (b : Byte) : List Byte := (plainUnit key m a).set (a % 16) b

theorem length_unitWith (b : Byte) : (unitWith key m a b).length = 16 := by
  rw [unitWith, List.length_set, plainUnit, length_toBytes]

/-- The memory with the encrypted unit of `a` written back. -/
def unitPut (key : Nat) (m : List Host.Cell) (a : Nat) (b : Byte) : List Host.Cell :=
  memPut m (a / 16 * 16) (toBytes 16 (Config.xts key (a / 16) (BitVec.ofNat 128 (ofBytes (unitWith key m a b)))).toNat)

/-- Decryption gives back the unit that was encrypted. -/
theorem plainUnit_unitPut_same (b : Byte) (hx : x / 16 = a / 16) :
    plainUnit key (unitPut key m a b) x = unitWith key m a b := by
  have small : ofBytes (unitWith key m a b) < 2 ^ 128 := by
    have := ofBytes_lt (unitWith key m a b)
    rwa [length_unitWith] at this
  rw [plainUnit, unitPut, rawUnit_memPut (BitVec.isLt _) hx, hx, BitVec.ofNat_toNat, BitVec.setWidth_eq, Equiv.symm_apply_apply,
    BitVec.toNat_ofNat, Nat.mod_eq_of_lt small]
  exact (congrArg (toBytes · _) (length_unitWith b).symm).trans (toBytes_ofBytes _)

theorem get_unitPut_ne (b : Byte) (hx : x / 16 ≠ a / 16) :
    Tbl.get memUnlisted (unitPut key m a b) x = Tbl.get memUnlisted m x := by
  rw [unitPut, get_memPut, length_toBytes, if_neg (by omega)]

theorem getD_unitWith (b : Byte) (hx : x / 16 = a / 16) :
    (unitWith key m a b).getD (x % 16) 0 = if x = a then b else (plainUnit key m x).getD (x % 16) 0 := by
  rw [unitWith, plainUnit_congr hx fun _ _ => rfl, List.getD_eq_getElem?_getD, List.getElem?_set, plainUnit, length_toBytes,
    if_pos (by omega : a % 16 < 16)]
  by_cases h : x = a
  · rw [if_pos h, if_pos (by rw [h])]
    rfl
  · rw [if_neg h, if_neg (by omega), List.getD_eq_getElem?_getD]

end

/-! ### Memory through its regions -/

/-- A byte as an access through the regions sees it. -/
def byteIn (enc : Nat → Bool) (key : Nat) (m : List Host.Cell) (x : Nat) : Byte :=
  if enc x then (plainUnit key m x).getD (x % 16) 0 else Tbl.get memUnlisted m x

theorem State.byte_eq (s : State) (x : Nat) : s.byte x = byteIn (encrypted s) s.dma.xtsKey s.mem x := rfl

/-- A unit lies in one page, so in one region. -/
theorem encrypted_unit (s : State) {x y : Nat} (h : x / 16 = y / 16) : encrypted s x = encrypted s y := by
  have page : x / 0x1000 = y / 0x1000 := by omega
  have low : decide (0x100000000 ≤ x) = decide (0x100000000 ≤ y) := decide_eq_decide.mpr (by omega)
  simp only [encrypted, rgnOf, page, low]

/-- One byte put through the regions. -/
def byteOne (enc : Nat → Bool) (key : Nat) (m : List Host.Cell) (a : Nat) (b : Byte) : List Host.Cell :=
  if enc a then unitPut key m a b else Tbl.set memUnlisted m a b

theorem byteIn_byteOne {enc : Nat → Bool} (henc : ∀ x y, x / 16 = y / 16 → enc x = enc y) (key : Nat) (m : List Host.Cell)
    (a : Nat) (b : Byte) (x : Nat) : byteIn enc key (byteOne enc key m a b) x = if x = a then b else byteIn enc key m x := by
  by_cases hu : x / 16 = a / 16
  · by_cases ha : enc a = true
    · simp only [byteIn, byteOne, ha, henc x a hu, if_true, plainUnit_unitPut_same b hu, getD_unitWith b hu]
    · simp only [byteIn, byteOne, ha, henc x a hu, Bool.false_eq_true, if_false, Tbl.get_set]
  · have other (j : Nat) (hj : j / 16 = x / 16) :
        Tbl.get memUnlisted (byteOne enc key m a b) j = Tbl.get memUnlisted m j := by
      unfold byteOne
      split
      · exact get_unitPut_ne b (hj ▸ hu)
      · exact Tbl.get_set_ne _ _ (fun h => hu (hj ▸ congrArg (· / 16) h)) _
    rw [if_neg fun h => hu (congrArg (· / 16) h), byteIn, byteIn, plainUnit_congr rfl other, other x rfl]

theorem byteIn_memPutEnc {enc : Nat → Bool} (henc : ∀ x y, x / 16 = y / 16 → enc x = enc y) (key : Nat) (m : List Host.Cell)
    (a : Nat) (bs : List Byte) (x : Nat) : byteIn enc key (memPutEnc enc key m a bs) x =
      if a ≤ x ∧ x < a + bs.length then bs.getD (x - a) 0 else byteIn enc key m x :=
  read_put (put := memPutEnc enc key) (one := byteOne enc key) (fun _ _ => rfl) (fun _ _ _ _ => rfl)
    (byteIn_byteOne henc key) m a bs x

/-! ### A store -/

/-- What the bytes of memory depend on. -/
def memoryNow (s : State) : List Host.Cell × Tbl Word × Nat := (s.mem, s.regs, s.dma.xtsKey)

theorem byte_of_memoryNow {s t : State} (h : memoryNow t = memoryNow s) (x : Nat) : t.byte x = s.byte x := by
  obtain ⟨hm, hr, hk⟩ : t.mem = s.mem ∧ t.regs = s.regs ∧ t.dma.xtsKey = s.dma.xtsKey := by
    simpa only [memoryNow, Prod.mk.injEq] using h
  have rg (a : Nat) : t.rg a = s.rg a := congrArg (Tbl.get regReset · a) hr
  have enc : encrypted t x = encrypted s x := by simp only [encrypted, rgnOf, rg]
  simp only [State.byte, enc, hm, hk]

/-- What each step of a fold leaves alone, the fold leaves alone. -/
theorem foldl_keeps {α γ : Type} {view : State → γ} {f : State → α → State} (h : ∀ s i, view (f s i) = view s) (l : List α)
    (s : State) : view (l.foldl f s) = view s := by
  induction l generalizing s with
  | nil => rfl
  | cons i l ih => exact (ih _).trans (h s i)

theorem clearResvOf_memoryNow (who : Nat → Bool) (a n : Nat) (s : State) :
    memoryNow (clearResvOf who a n s) = memoryNow s := by
  refine foldl_keeps (fun s i => ?_) ..
  split
  · split <;> rfl
  · rfl

theorem touchMig_memoryNow (a n : Nat) (s : State) : memoryNow (touchMig a n s) = memoryNow s := by
  refine foldl_keeps (fun s i => ?_) ..
  split
  · split <;> rfl
  · rfl

/-- A store leaves every register. -/
theorem store_rg (a : Nat) (bs : List Byte) (s : State) (k : Nat) : (store a bs s).rg k = s.rg k :=
  congrArg (Tbl.get regReset · k) ((congrArg (·.2.1) (clearResvOf_memoryNow ..)).trans (congrArg (·.2.1) (touchMig_memoryNow ..)))

/-- After a store the bytes of its range are the new ones. -/
theorem byte_store (s : State) (a x : Nat) (bs : List Byte) :
    (store a bs s).byte x = if a ≤ x ∧ x < a + bs.length then bs.getD (x - a) 0 else s.byte x :=
  (byte_of_memoryNow ((clearResvOf_memoryNow ..).trans (touchMig_memoryNow ..)) x).trans
    (byteIn_memPutEnc (fun _ _ => encrypted_unit s) s.dma.xtsKey s.mem a bs x)

/-- Settles O59: the bytes of a store one after the other, each by a read-modify-write of its unit where that is encrypted. -/
theorem storedBytesReadBack : Obligations.StoredBytesReadBack := by
  unfold Obligations.StoredBytesReadBack
  exact fun s a x bs => ⟨fun h1 h2 => (byte_store s a x bs).trans (if_pos ⟨h1, h2⟩),
    fun h => (byte_store s a x bs).trans (if_neg (by omega))⟩

end Sys2Proof.Machine
end

section
/-! Direct calls of the monitor (R374, R414) and its flash routines (R375–R380): the answer of each routine by its first
failing check, then what pulses, erases and programs end in (R377, R379, R383, R388), and the statement about them. -/

namespace Sys2Proof.Machine

/-! ### Direct calls (R374, R414) -/

section
variable {i : Instr} {s s1 s2 : State} {no code : Nat} {f : Call → State → Nat × State} {ecc : Ecc} {ok : Bool}

/-- A command goes where the function it calls goes. -/
theorem exec_eq (hc : exec i s = .next s1) (h : s1 = s2) : exec i s = .next s2 := hc.trans (congrArg _ h)

theorem exec_call_waits (hc : exec i s = .next (svServe no f ecc s ok)) (h : callWaits s = true) :
    exec i s = .next (callQueue { no := no, arg := (svCall ecc s).arg, ok := ok, ecc := ecc } s) :=
  hc.trans (congrArg _ (if_pos h))

theorem exec_call_answers (hc : exec i s = .next (svServe no f ecc s ok)) (h : callWaits s = false)
    (hf : f (svCall ecc s) s = (code, s1)) : exec i s = .next (svReturn (some code) s1) := by
  rw [hc, svServe, if_neg (ne_true_of_eq_false h), hf]
  rfl

/-- No region of the map refuses the secure world (R394). -/
theorem flRefuses_secure (s : State) (a n : Nat) : flRefuses s true a n = false := by
  simp [flRefuses, rgnRefuses]

end

/-! ### Routines by their first failing check (R375) -/

section
variable {s s1 : State} {c : Call} {i : Nat} {bs : List Byte} {blank : Bool}

/-- A sector in one of the bad-block tables. -/
theorem badSector_iff {x : Nat} : (factoryBad s x || fieldBad s x) = true ↔ factoryBad s x = true ∨ fieldBad s x = true :=
  Bool.or_eq_true_iff

theorem tvFlErase_badarg (h : 511 < (c.a 1).toNat) : tvFlErase c s = (2, s) := if_pos h
theorem tvFlInfo_badarg (h : 511 < (c.a 1).toNat) : tvFlInfo c s = (2, s) := if_pos h
theorem tvFlMarkbad_badarg (h : 511 < (c.a 1).toNat) : tvFlMarkbad c s = (2, s) := if_pos h

theorem tvFlInfo_eq (h : (c.a 1).toNat ≤ 511) : tvFlInfo c s =
    (b2n (factoryBad s (c.a 1).toNat) * 2 ^ 8 + b2n (fieldBad s (c.a 1).toNat) * 2 ^ 9
      + b2n (s.flash.torn.contains (c.a 1).toNat) * 2 ^ 10
      + b2n (2 ≤ (s.fop ((c.a 1).toNat / 256)).kind && (s.fop ((c.a 1).toNat / 256)).sector = (c.a 1).toNat) * 2 ^ 11
      + b2n (!flRefuses s c.sec (flAddr (c.a 1).toNat) 0x8000) * 2 ^ 12, s) := if_neg (by omega)

theorem tvFlSuspend_badarg (h : 1 < (c.a 1).toNat) : tvFlSuspend c s = (2, s) := if_pos h
theorem tvFlResume_badarg (h : 1 < (c.a 1).toNat) : tvFlResume c s = (2, s) := if_pos h

theorem tvFlSuspend_noop (h : (c.a 1).toNat ≤ 1) (hk : (s.fop (c.a 1).toNat).kind ≠ 2) : tvFlSuspend c s = (0xB, s) :=
  (if_neg (by omega)).trans (if_pos hk)

theorem tvFlSuspend_ok (h : (c.a 1).toNat ≤ 1) (hk : (s.fop (c.a 1).toNat).kind = 2) :
    tvFlSuspend c s = (0, fopSet (c.a 1).toNat { s.fop (c.a 1).toNat with kind := 3 } s) :=
  (if_neg (by omega)).trans (if_neg (not_not_intro hk))

theorem tvFlResume_noop (h : (c.a 1).toNat ≤ 1) (hk : (s.fop (c.a 1).toNat).kind ≠ 3) : tvFlResume c s = (0xB, s) :=
  (if_neg (by omega)).trans (if_pos hk)

theorem tvFlBlank_badarg (h : flRangeOk (c.a 1).toNat (c.a 2).toNat = false) : tvFlBlank c s = (2, s) := by
  simp [tvFlBlank, h]

theorem tvFlBlank_bad (h : flRangeOk (c.a 1).toNat (c.a 2).toNat = true)
    (hb : (factoryBad s (flSector (c.a 1).toNat) || fieldBad s (flSector (c.a 1).toNat)) = true) :
    tvFlBlank c s = (7, s) := by
  simp only [tvFlBlank, h, hb, Bool.not_true, Bool.false_eq_true, if_false, if_true]

theorem tvFlBlank_busy (h : flRangeOk (c.a 1).toNat (c.a 2).toNat = true)
    (hb : (factoryBad s (flSector (c.a 1).toNat) || fieldBad s (flSector (c.a 1).toNat)) = false)
    (hy : flBusy s (flBank (c.a 1).toNat) = true) : tvFlBlank c s = (4, s) := by
  simp only [tvFlBlank, h, hb, hy, Bool.not_true, Bool.false_eq_true, if_false, if_true]

theorem tvFlBlank_eq (h : flRangeOk (c.a 1).toNat (c.a 2).toNat = true)
    (hb : (factoryBad s (flSector (c.a 1).toNat) || fieldBad s (flSector (c.a 1).toNat)) = false)
    (hy : flBusy s (flBank (c.a 1).toNat) = false) (hf : flBlank (c.a 1).toNat (c.a 2).toNat s = (blank, s1)) :
    tvFlBlank c s = (if blank then 0 else 5, s1) := by
  simp only [tvFlBlank, h, hb, hy, hf, Bool.not_true, Bool.false_eq_true, if_false]

theorem programCall_badarg (h : flRangeOk (c.a 1).toNat (c.a 4).toNat = false ∨ (c.a 4).toNat < 32 ∨ 4096 < (c.a 4).toNat) :
    programCall c s = answerCall c.chan 2 s := by
  have refused : tvFlProgram c s = (some 2, s) := if_pos (by simpa [or_assoc] using h)
  rw [programCall, refused]

theorem bbtAdd_free (reason sector : Nat) (h : bbtFree s = some i) : bbtAdd reason sector s =
    bbtRefresh (storeWord (0x08001040 + 4 * i) (w32 (reason * 2 ^ 24 + sector)) s) := by rw [bbtAdd, h]

/-- A range in which every byte is erased is blank, where the contents of its sector are defined (R377, R382). -/
theorem flBlank_defined {a n : Nat} (h : s.flash.undef.contains (flSector a) = false) :
    flBlank a n s = ((s.bytes a n).all (fun b => b = 0xFF), s) := by
  simp only [flBlank, h, Bool.false_eq_true, if_false]

variable (hs : c.sec = true)
include hs

theorem tvFlErase_bad (h : (c.a 1).toNat ≤ 511) (hb : (factoryBad s (c.a 1).toNat || fieldBad s (c.a 1).toNat) = true) :
    tvFlErase c s = (7, s) := by
  simp only [tvFlErase, hs, flRefuses_secure, hb, Nat.not_lt.mpr h, Bool.false_eq_true, if_false, if_true]

theorem tvFlErase_busy (h : (c.a 1).toNat ≤ 511) (hb : (factoryBad s (c.a 1).toNat || fieldBad s (c.a 1).toNat) = false)
    (hk : (s.fop ((c.a 1).toNat / 256)).kind ≠ 0) : tvFlErase c s = (4, s) := by
  simp only [tvFlErase, hs, flRefuses_secure, hb, Nat.not_lt.mpr h, Bool.false_eq_true, if_false, ne_eq, hk, not_false_eq_true,
    if_true]

theorem tvFlErase_begins (h : (c.a 1).toNat ≤ 511) (hb : (factoryBad s (c.a 1).toNat || fieldBad s (c.a 1).toNat) = false)
    (hk : (s.fop ((c.a 1).toNat / 256)).kind = 0) : tvFlErase c s = (1,
      ((fopSet ((c.a 1).toNat / 256) { kind := 2, sector := (c.a 1).toNat, began := s.time.selvedge, chan := c.chan }
        { journalOpen (c.a 1).toNat s with
          flash.undef := addSorted (c.a 1).toNat (journalOpen (c.a 1).toNat s).flash.undef }).setRgFld
            (ra .flc (Flc.OP ((c.a 1).toNat / 256))) 24 16 (c.a 1).toNat).setRgFld
              (ra .flc (Flc.OP ((c.a 1).toNat / 256))) 15 0 0) := by
  simp only [tvFlErase, hs, flRefuses_secure, hb, Nat.not_lt.mpr h, Bool.false_eq_true, if_false, ne_eq, hk, not_true_eq_false]

theorem tvFlResume_bad (h : (c.a 1).toNat ≤ 1) (hk : (s.fop (c.a 1).toNat).kind = 3)
    (hb : (factoryBad s (s.fop (c.a 1).toNat).sector || fieldBad s (s.fop (c.a 1).toNat).sector) = true) :
    tvFlResume c s = (7, s) := by
  simp only [tvFlResume, hs, flRefuses_secure, hb, hk, Nat.not_lt.mpr h, Bool.false_eq_true, if_false, if_true, ne_eq,
    not_true_eq_false]

theorem tvFlResume_ok (h : (c.a 1).toNat ≤ 1) (hk : (s.fop (c.a 1).toNat).kind = 3)
    (hb : (factoryBad s (s.fop (c.a 1).toNat).sector || fieldBad s (s.fop (c.a 1).toNat).sector) = false) :
    tvFlResume c s = (0, fopSet (c.a 1).toNat { s.fop (c.a 1).toNat with kind := 2, began := s.time.selvedge } s) := by
  simp only [tvFlResume, hs, flRefuses_secure, hb, hk, Nat.not_lt.mpr h, Bool.false_eq_true, if_false, ne_eq,
    not_true_eq_false]

theorem tvFlMarkbad_bad (h : (c.a 1).toNat ≤ 511) (hb : (factoryBad s (c.a 1).toNat || fieldBad s (c.a 1).toNat) = true) :
    tvFlMarkbad c s = (7, s) := by
  simp only [tvFlMarkbad, hs, flRefuses_secure, hb, Nat.not_lt.mpr h, Bool.false_eq_true, if_false, if_true]

theorem tvFlMarkbad_full (h : (c.a 1).toNat ≤ 511) (hb : (factoryBad s (c.a 1).toNat || fieldBad s (c.a 1).toNat) = false)
    (hf : bbtFree s = none) : tvFlMarkbad c s = (0xA, s) := by
  simp only [tvFlMarkbad, hs, flRefuses_secure, hb, hf, Nat.not_lt.mpr h, Bool.false_eq_true, if_false, if_true,
    Option.isNone_none]

theorem tvFlMarkbad_ok (h : (c.a 1).toNat ≤ 511) (hb : (factoryBad s (c.a 1).toNat || fieldBad s (c.a 1).toNat) = false)
    (hf : bbtFree s = some i) : tvFlMarkbad c s =
      (0, bbtRefresh (storeWord (0x08001040 + 4 * i) (w32 (3 * 2 ^ 24 + (c.a 1).toNat)) s)) := by
  rw [← bbtAdd_free 3 _ hf]
  simp only [tvFlMarkbad, hs, flRefuses_secure, hb, hf, Nat.not_lt.mpr h, Bool.false_eq_true, if_false, Option.isNone_some]

/-- The arguments and the state let `TV_FL_PROGRAM` read its data. -/
structure ProgramReads (c : Call) (s s1 : State) (bs : List Byte) : Prop where
  range : flRangeOk (c.a 1).toNat (c.a 4).toNat = true
  low : 32 ≤ (c.a 4).toNat
  high : (c.a 4).toNat ≤ 4096
  factory : factoryBad s (flSector (c.a 1).toNat) = false
  field : fieldBad s (flSector (c.a 1).toNat) = false
  torn : s.flash.torn.contains (flSector (c.a 1).toNat) = false
  idle : (s.fop (flBank (c.a 1).toNat)).kind = 0
  read : memRead c.master false c.ecc (c.addr 2) (c.a 4).toNat s = (.ok bs, s1)
  defined : s1.flash.undef.contains (flSector (c.a 1).toNat) = false

theorem tvFlProgram_reads (h : ProgramReads c s s1 bs) : tvFlProgram c s =
    if (s1.bytes (c.a 1).toNat (c.a 4).toNat).all (fun b => b = 0xFF) then
      (none, (fopSet (flBank (c.a 1).toNat)
        { kind := 1, sector := flSector (c.a 1).toNat, began := s.time.selvedge, addr := (c.a 1).toNat, data := bs, chan := c.chan }
        s1).setRgFld (ra .flc (Flc.OP (flBank (c.a 1).toNat))) 24 16 (flSector (c.a 1).toNat))
    else (some 5, s1) := by
  have fits : (!flRangeOk (c.a 1).toNat (c.a 4).toNat || (c.a 4).toNat < 32 || 4096 < (c.a 4).toNat) = false := by
    simp [h.range, h.low, h.high]
  simp only [tvFlProgram, fits, hs, flRefuses_secure, h.factory, h.field, h.torn, h.idle, h.read, flBlank_defined h.defined,
    Bool.or_self, Bool.false_eq_true, if_false, ne_eq, not_true_eq_false]
  cases (s1.bytes (c.a 1).toNat (c.a 4).toNat).all (fun b => b = 0xFF) <;> rfl

theorem programCall_notblank (h : ProgramReads c s s1 bs)
    (hb : ∃ b ∈ s1.bytes (c.a 1).toNat (c.a 4).toNat, b ≠ 0xFF) : programCall c s = answerCall c.chan 5 s1 := by
  obtain ⟨b, hm, hn⟩ := hb
  rw [programCall, tvFlProgram_reads hs h, if_neg fun all => hn (of_decide_eq_true (List.all_eq_true.mp all b hm))]

theorem programCall_begins (h : ProgramReads c s s1 bs)
    (hb : ∀ b ∈ s1.bytes (c.a 1).toNat (c.a 4).toNat, b = 0xFF) : programCall c s =
      (fopSet (flBank (c.a 1).toNat)
        { kind := 1, sector := flSector (c.a 1).toNat, began := s.time.selvedge, addr := (c.a 1).toNat, data := bs, chan := c.chan }
        s1).setRgFld (ra .flc (Flc.OP (flBank (c.a 1).toNat))) 24 16 (flSector (c.a 1).toNat) := by
  rw [programCall, tvFlProgram_reads hs h, if_pos (List.all_eq_true.mpr fun b hm => decide_eq_true (hb b hm))]

end

/-! ### What the array does (R377, R379, R388) -/

section
variable {s : State} {k n : Nat} {ok : Bool} {pulses : Nat}

theorem erasePulseEnd_not (h : (s.fop k).kind ≠ 2 ∨ (s.fop k).ends.isSome = true ∨ pulseOver s (s.fop k) = false) :
    erasePulseEnd k ok s = s :=
  if_pos (by simpa [or_assoc] using h)

theorem erasePulseEnd_due (hk : (s.fop k).kind = 2) (he : (s.fop k).ends = none) (hp : pulseOver s (s.fop k) = true) :
    erasePulseEnd k ok s = (s.setFop k { s.fop k with
      pulses := (s.fop k).pulses + 1, began := s.time.selvedge,
      ends := if ok then some 0 else if 240 ≤ (s.fop k).pulses + 1 then some 9 else none }).setRgFld
        (ra .flc (Flc.OP k)) 15 0 (min ((s.fop k).pulses + 1) 0xFFFF) :=
  if_neg (by simp [hk, he, hp])

theorem eraseDone_not (h : (s.fop k).kind ≠ 2 ∨ (s.fop k).ends = none) : eraseDone k s = s := by
  unfold eraseDone
  dsimp only
  split
  · next hk he => exact absurd h (by simp [hk, he])
  · rfl

theorem eraseDone_ok (hk : (s.fop k).kind = 2) (he : (s.fop k).ends = some 0) :
    eraseDone k s = fopDone k ((tornRefresh (journalClose (s.fop k).sector (flErased (s.fop k).sector { s with
      flash.torn := s.flash.torn.filter (· ≠ (s.fop k).sector),
      flash.undef := s.flash.undef.filter (· ≠ (s.fop k).sector) }))).setRgFld (ra .flc (Flc.OP k)) 29 26 0) := by
  simp only [eraseDone, hk, he, if_true]

theorem eraseDone_timeout (hk : (s.fop k).kind = 2) (he : (s.fop k).ends = some 9) :
    eraseDone k s = fopDone k ((tornRefresh (bbtAdd 2 (s.fop k).sector
      (if s.flash.torn.contains (s.fop k).sector then s else journalClose (s.fop k).sector s))).setRgFld
        (ra .flc (Flc.OP k)) 29 26 9) := by
  simp only [eraseDone, hk, he, show (9 : Nat) ≠ 0 by decide, if_false]

theorem flashProgramDone_not (h : (s.fop k).kind ≠ 1 ∨ programOver s (s.fop k) none pulses = false) :
    flashProgramDone k none pulses s = s :=
  if_pos (by simpa using h)

theorem flashProgramDone_due (hk : (s.fop k).kind = 1) (hp : programOver s (s.fop k) none pulses = true) :
    flashProgramDone k none pulses s =
      answerCall (s.fop k).chan (pulses * 256) (fopDone k (store (s.fop k).addr (s.fop k).data s)) :=
  if_neg (by simp [hk, hp])

end

/-! ### The statement -/

/-- Settles O46: each clause is the lemma about that outcome of the routine or of the operation. -/
theorem flashRoutines : Obligations.FlashRoutines := by
  unfold Obligations.FlashRoutines
  intro s s1 k x n ecc bs ok pulses blank a returns op args opened bad listed src len me
  have good {y : Nat} (h : ¬ (factoryBad s y = true ∨ fieldBad s y = true)) : (factoryBad s y || fieldBad s y) = false :=
    Bool.eq_false_iff.mpr (mt badSector_iff.mp h)
  have program {u : State} (hw : callWaits s = false) (h : programCall (svCall ecc s) s = u) :
      exec (.tvFlProgram ecc) s = .next u :=
    exec_eq rfl ((if_neg (ne_true_of_eq_false hw)).trans h)
  refine ⟨fun h => ?waits, fun h => exec_eq rfl (if_pos h), fun h => ?calls,
    fun h => exec_eq rfl (erasePulseEnd_not h), fun hk he hp => exec_eq rfl (erasePulseEnd_due hk he hp),
    fun h => exec_eq rfl (eraseDone_not h), fun hk he => exec_eq rfl (eraseDone_ok hk he),
    fun hk he => exec_eq rfl (eraseDone_timeout hk he), fun h => exec_eq rfl (flashProgramDone_not h),
    fun hk hp hc => exec_eq rfl ((flashProgramDone_due hk hp).trans (by rw [hc]; rfl)),
    fun hk hp hc => exec_eq rfl ((flashProgramDone_due hk hp).trans (by rw [hc]; rfl))⟩
  case waits =>
    simp only [List.forall_mem_cons, List.not_mem_nil, false_imp_iff, implies_true, and_true]
    exact ⟨exec_call_waits rfl h, exec_call_waits rfl h, exec_call_waits rfl h,
      exec_call_waits rfl h, exec_call_waits rfl h, exec_call_waits rfl h⟩
  case calls =>
    refine ⟨fun ha => ⟨exec_call_answers rfl h (tvFlErase_badarg ha), exec_call_answers rfl h (tvFlInfo_badarg ha),
        exec_call_answers rfl h (tvFlMarkbad_badarg ha)⟩,
      fun ha hb => ⟨exec_call_answers rfl h (tvFlErase_bad rfl ha (badSector_iff.mpr hb)),
        exec_call_answers rfl h (tvFlMarkbad_bad rfl ha (badSector_iff.mpr hb))⟩,
      fun ha hb hk => exec_call_answers rfl h (tvFlErase_busy rfl ha (good hb) hk),
      fun ha hb hk => exec_call_answers rfl h (tvFlErase_begins rfl ha (good hb) hk),
      fun ha => ⟨exec_call_answers rfl h (tvFlSuspend_badarg ha), exec_call_answers rfl h (tvFlResume_badarg ha)⟩,
      fun ha hk => exec_call_answers rfl h (tvFlSuspend_noop ha hk), fun ha hk => exec_call_answers rfl h (tvFlSuspend_ok ha hk),
      fun ha hk => exec_call_answers rfl h (tvFlResume_noop ha hk),
      fun ha hk hb => exec_call_answers rfl h (tvFlResume_bad rfl ha hk (badSector_iff.mpr hb)),
      fun ha hk h1 h2 => exec_call_answers rfl h (tvFlResume_ok rfl ha hk (Bool.or_eq_false_iff.mpr ⟨h1, h2⟩)),
      fun ha => exec_call_answers rfl h (tvFlBlank_badarg ha),
      fun ha hb => exec_call_answers rfl h (tvFlBlank_bad ha (badSector_iff.mpr hb)),
      fun ha hb hy => exec_call_answers rfl h (tvFlBlank_busy ha (good hb) hy),
      fun ha hb hy hf => exec_call_answers rfl h (tvFlBlank_eq ha (good hb) hy hf),
      fun ha => exec_call_answers rfl h ((tvFlInfo_eq (c := svCall .clean s) ha).trans ?info),
      fun ha hb hf => exec_call_answers rfl h (tvFlMarkbad_full rfl ha (good hb) hf),
      fun ha hb hf => exec_call_answers rfl h (tvFlMarkbad_ok rfl ha (good hb) hf),
      fun ha => program h (programCall_badarg (c := svCall ecc s) ha),
      fun hr hl hh h1 h2 ht hk hm hu => ?program⟩
    case info => rw [show (svCall .clean s).sec = true from rfl, flRefuses_secure]; rfl
    case program =>
      have reads : ProgramReads (svCall ecc s) s s1 bs := ⟨hr, hl, hh, h1, h2, ht, hk, hm, hu⟩
      exact ⟨fun hb => program h (programCall_notblank rfl reads hb), fun hb => program h (programCall_begins rfl reads hb)⟩

end Sys2Proof.Machine
end

section
/-! Services of the monitor (R401–R408, R414–R416): the answer of each service by its first failing check and its effect on
the OTP, the counters and the measurements, and whose message `TV_SERVE` answers; then the statement about them. -/

namespace Sys2Proof.Machine

section
variable {s s1 s2 : State} {c : Call} {ok : Bool} {bs : List Byte} {e : Option BusErr} {v : Nat}

/-! ### Images (R406, R408) -/

theorem tvImgVerify_refused {code detail : Nat} {h : List Byte}
    (hv : imgVerify c.master c.ecc (c.addr 1) (c.a 3).toNat s = ((code, detail, h), s1)) (hc : code ≠ 0) :
    tvImgVerify c s = (code + detail * 256, s1) := by
  rw [tvImgVerify, hv, imgAnswer, if_neg fun x => hc x.1]

/-- An accepted image other than a certificate raises `VERHI`. -/
theorem tvImgVerify_accepted {detail : Nat} {h : List Byte}
    (hv : imgVerify c.master c.ecc (c.addr 1) (c.a 3).toNat s = ((0, detail, h), s1)) (hk : (c.a 3).toNat ≠ 4) :
    tvImgVerify c s = (detail * 256, verAccept h s1) := by
  rw [tvImgVerify, hv, imgAnswer, if_pos ⟨rfl, hk⟩, Nat.zero_add]

/-! ### OTP words (R401) -/

/-- The key slot that word `w` lies in is in use. -/
def slotUsed (s : State) (w : Nat) : Bool := (List.range 12).any (fun j => otpWord s (0x10 + (w - 0x10) / 12 * 12 + j) ≠ 0)

theorem tvOtpProgram_badarg (h : 0x3FF < (c.a 1).toNat ∨ (c.a 1).toNat = 0 ∨ (0x40 ≤ (c.a 1).toNat ∧ (c.a 1).toNat < 0x68)) :
    tvOtpProgram ok c s = (2, s) := by
  refine if_pos ?_
  simp only [Bool.or_eq_true, Bool.and_eq_true, decide_eq_true_eq]
  exact .inl (by rwa [or_assoc])

theorem tvOtpProgram_slotUsed (h1 : 0x10 ≤ (c.a 1).toNat) (h2 : (c.a 1).toNat < 0x40) (hu : slotUsed s (c.a 1).toNat = true) :
    tvOtpProgram ok c s = (2, s) := by
  refine if_pos ?_
  simp only [Bool.or_eq_true, Bool.and_eq_true, decide_eq_true_eq]
  exact .inr ⟨⟨h1, h2⟩, hu⟩

/-- A word that exists and may take bits takes them. -/
theorem tvOtpProgram_ok (hs : c.sec = true) (hw : (c.a 1).toNat ≤ 0x3FF)
    (he : (c.a 1).toNat = 1 ∨ (4 ≤ (c.a 1).toNat ∧ (c.a 1).toNat < 8) ∨ 0x100 ≤ (c.a 1).toNat ∨
      (0x10 ≤ (c.a 1).toNat ∧ (c.a 1).toNat < 0x40 ∧ slotUsed s (c.a 1).toNat = false)) :
    tvOtpProgram true c s = (0, otpSet (c.a 1).toNat (c.a 2) s) := by
  have free : ¬ ((0x10 ≤ (c.a 1).toNat ∧ (c.a 1).toNat < 0x40) ∧ slotUsed s (c.a 1).toNat = true) := by
    rintro ⟨hr, hu⟩
    rcases he with h | h | h | ⟨-, -, h⟩
    · omega
    · omega
    · omega
    · exact absurd hu (ne_true_of_eq_false h)
  have listed : ((c.a 1).toNat = 1 ∨ (4 ≤ (c.a 1).toNat ∧ (c.a 1).toNat < 8)) ∨ (0x10 ≤ (c.a 1).toNat ∧ (c.a 1).toNat < 0x40) ∨
      0x100 ≤ (c.a 1).toNat := by omega
  refine (if_neg ?_).trans ((if_neg (by simp [hs])).trans ?_)
  · simp only [Bool.or_eq_true, Bool.and_eq_true, decide_eq_true_eq]
    exact not_or_intro (by omega) free
  · rw [if_pos (by simpa [or_assoc] using listed)]
    rfl

/-! ### Counters and lifecycle (R403, R408) -/

theorem tvRollback_badarg (h : 3 < (c.a 1).toNat ∨ verHi s (c.a 1).toNat < (c.a 2).toNat ∨ 256 < (c.a 2).toNat) :
    tvRollback ok c s = (2, s) := if_pos h

/-- The arguments of `TV_ROLLBACK` name a counter and a version that has been accepted. -/
def rollbackArgs (c : Call) (s : State) : Prop :=
  (c.a 1).toNat ≤ 3 ∧ (c.a 2).toNat ≤ verHi s (c.a 1).toNat ∧ (c.a 2).toNat ≤ 256

theorem tvRollback_noop (hs : c.sec = true) (h : rollbackArgs c s) (hc : (c.a 2).toNat ≤ counter s (c.a 1).toNat) :
    tvRollback ok c s = (0xB, s) := by
  obtain ⟨h1, h2, h3⟩ := h
  exact (if_neg (by omega)).trans ((if_neg (by simp [hs])).trans (if_pos hc))

theorem tvRollback_ok (hs : c.sec = true) (h : rollbackArgs c s) (hc : counter s (c.a 1).toNat < (c.a 2).toNat) :
    tvRollback true c s = (0, (List.range 8).foldl (fun u j =>
      otpSet (0x40 + 8 * (c.a 1).toNat + j) (w32 (2 ^ (min 32 ((c.a 2).toNat - 32 * j)) - 1)) u) s) := by
  obtain ⟨h1, h2, h3⟩ := h
  exact (if_neg (by omega)).trans ((if_neg (by simp [hs])).trans (if_neg (by omega)))

theorem tvLifecycle_badarg (h : 3 < (c.a 1).toNat) : tvLifecycle ok c s = (2, s) := if_pos h

theorem tvLifecycle_back (hs : c.sec = true) (h : (c.a 1).toNat ≤ 3) (hn : (c.a 1).toNat ≤ otpLc s) :
    tvLifecycle ok c s = (0x13, s) :=
  (if_neg (by omega)).trans ((if_neg (by simp [hs])).trans (if_pos (.inl hn)))

/-- A step forward of a device that is no longer blank. -/
theorem tvLifecycle_ok (hs : c.sec = true) (h : (c.a 1).toNat ≤ 3) (hn : otpLc s < (c.a 1).toNat) (hb : 0 < otpLc s) :
    tvLifecycle true c s = (0, otpSet 0 (w32 (2 ^ (c.a 1).toNat - 1)) s) := by
  refine (if_neg (by omega)).trans ((if_neg (by simp [hs])).trans ((if_neg (by omega)).trans ?_))
  rw [if_neg (by omega)]
  rfl

/-! ### Measurements and attestation (R415, R416) -/

theorem tvMeasExtend_badarg (h : 7 < (c.a 1).toNat) : tvMeasExtend c s = (2, s) := if_pos h

theorem tvMeasExtend_unread {x : BusErr} (hs : c.sec = true) (h : (c.a 1).toNat ≤ 7)
    (hm : memRead c.master false c.ecc (c.addr 2) 48 s = (.error x, s1)) : tvMeasExtend c s = (0x0C, s1) := by
  simp only [tvMeasExtend, hs, hm, Nat.not_lt.mpr h, Bool.not_true, Bool.false_eq_true, and_false, if_false]

theorem tvMeasExtend_ok (hs : c.sec = true) (h : (c.a 1).toNat ≤ 7)
    (hm : memRead c.master false c.ecc (c.addr 2) 48 s = (.ok bs, s1)) :
    tvMeasExtend c s = (0, (List.range 12).foldl (fun s w => s.setRg (ra .sec (Sec.MR (c.a 1).toNat w))
      (w32 (ofBytes (((toBytes 48 (Config.sha384 (mrBytes s1 (c.a 1).toNat ++ bs))).drop (4 * w)).take 4)))) s1) := by
  simp only [tvMeasExtend, hs, hm, Nat.not_lt.mpr h, Bool.not_true, Bool.false_eq_true, and_false, if_false, extend, setMr,
    hash384]

theorem tvAttest_badarg (h : (c.a 5).toNat < 3856) : tvAttest c s = (2, s) := if_pos h

theorem tvAttest_eq (h : 3856 ≤ (c.a 5).toNat) (hm : memRead c.master false c.ecc (c.addr 1) 32 s = (.ok bs, s1))
    (hw : memWrite c.master c.ecc (c.addr 3) (signedReport s1 bs) s1 = (e, s2)) :
    tvAttest c s = (if e.isSome then 0x0C else 0, s2) := by
  simp only [tvAttest, hm, hw, Nat.not_lt.mpr h, if_false, attestPut]

end

/-! ### Whose message is served (R413, R414) -/

section
variable {s : State} {n : Nat} {ok : Bool} {ecc : Ecc} {sec : Bool}

theorem exec_tvServe_waits (h : callWaits s = true) :
    exec (.tvServe ok ecc) s = .next (callQueue { no := 0, chan := (svReg s 1).toNat, ok := ok, ecc := ecc } s) :=
  exec_eq rfl (if_pos h)

theorem exec_tvServe_serves (h : callWaits s = false) :
    exec (.tvServe ok ecc) s = .next (serveChannel (svReg s 1).toNat ok ecc s) :=
  exec_eq rfl (if_neg (ne_true_of_eq_false h))

theorem serveChannel_empty (hm : opMode s ≠ 7) (h : monitorMail s n = false) :
    serveChannel n ok ecc s = svReturn none s := by
  simp only [serveChannel, hm, h, Bool.false_eq_true, if_false]

theorem serveChannel_mail (hm : opMode s ≠ 7) (h : monitorMail s n = true) : serveChannel n ok ecc s =
    svReturn none (serveMessage n (Tbl.get (fun _ => false) s.time.sendSec n) ok ecc s) := by
  simp only [serveChannel, hm, h, if_true, if_false]

theorem serveChannel_service_empty (hm : opMode s = 7) (h : monitorMail s 63 = false) : serveChannel n ok ecc s = s := by
  simp only [serveChannel, hm, h, Bool.not_false, if_true]

theorem serveChannel_service (hm : opMode s = 7) (h : monitorMail s 63 = true) (hg : s.sec.grants ≠ 0) :
    serveChannel n ok ecc s = serveMessage 63 (grantSec s) ok ecc s := by
  simp only [serveChannel, hm, h, hg, Bool.not_true, Bool.false_eq_true, false_and, if_true, if_false]

/-- Without a grant the debug port has `TV_FL_BLANK` and `TV_FL_INFO` alone. -/
theorem serveChannel_service_refuses (hm : opMode s = 7) (h : monitorMail s 63 = true) (hg : s.sec.grants = 0)
    (h5 : s.rg (ra .mbx (Mbx.MSG 63 0)) ≠ 5) (h6 : s.rg (ra .mbx (Mbx.MSG 63 0)) ≠ 6) :
    serveChannel n ok ecc s = answerCall (some 63) 2 s := by
  have no5 : (s.rg (ra .mbx (Mbx.MSG 63 0))).toNat ≠ 5 := fun x => h5 (BitVec.eq_of_toNat_eq x)
  have no6 : (s.rg (ra .mbx (Mbx.MSG 63 0))).toNat ≠ 6 := fun x => h6 (BitVec.eq_of_toNat_eq x)
  simp only [serveChannel, hm, h, hg, ne_eq, no5, no6, not_false_eq_true, and_self, Bool.not_true, Bool.false_eq_true, if_true,
    if_false]

/-- The call that a message of channel `n` spells. -/
def messageCall (s : State) (n : Nat) (sec : Bool) (ecc : Ecc) : Call :=
  { sec := sec, chan := some n, arg := (List.range 5).map (fun k => s.rg (ra .mbx (Mbx.MSG n (k + 1)))), ecc := ecc }

theorem serveMessage_answers {code : Nat} {s1 : State} (h1 : s.rg (ra .mbx (Mbx.MSG n 0)) ≠ 1)
    (hr : routine (s.rg (ra .mbx (Mbx.MSG n 0))).toNat ok (messageCall s n sec ecc) s = (code, s1)) :
    serveMessage n sec ok ecc s = answerCall (some n) code s1 := by
  unfold messageCall at hr
  simp only [serveMessage, h1, if_false, hr]

end

/-! ### The statement -/

/-- Settles O47: each clause is the lemma about that outcome of the service. -/
theorem monitorServices : Obligations.MonitorServices := by
  unfold Obligations.MonitorServices
  intro s s1 s2 ok ecc h bs detail code e a v returns me at_ mr burn args slotFull
  refine ⟨fun hw => ?_, fun hw => ?_, fun hw => exec_tvServe_waits hw, fun hw => ?calls⟩
  case calls =>
    have serves {u : State} (hu : serveChannel a ok ecc s = u) : exec (.tvServe ok ecc) s = .next u :=
      exec_eq (exec_tvServe_serves hw) hu
    refine ⟨fun hv => ⟨fun hc => exec_call_answers rfl hw (tvImgVerify_refused hv hc), fun hc hk => ?accepted⟩,
      fun ha => exec_call_answers rfl hw (tvOtpProgram_badarg ha),
      fun h1 h2 hu => exec_call_answers rfl hw (tvOtpProgram_slotUsed h1 h2 hu),
      fun ha he => exec_call_answers rfl hw (tvOtpProgram_ok rfl ha (he.imp_right fun x => x.imp_right .inl)),
      fun h1 h2 hu => exec_call_answers rfl hw
        (tvOtpProgram_ok rfl (Nat.le_trans h2.le (by decide)) (.inr (.inr (.inr ⟨h1, h2, hu⟩)))),
      fun ha => exec_call_answers rfl hw (tvRollback_badarg ha),
      fun h1 h2 h3 hc => exec_call_answers rfl hw (tvRollback_noop rfl ⟨h1, h2, h3⟩ hc),
      fun h1 h2 h3 hc => exec_call_answers rfl hw (tvRollback_ok rfl ⟨h1, h2, h3⟩ hc),
      fun ha => exec_call_answers rfl hw (tvLifecycle_badarg ha),
      fun ha hn => exec_call_answers rfl hw (tvLifecycle_back rfl ha hn),
      fun ha hn hb => exec_call_answers rfl hw (tvLifecycle_ok rfl ha hn hb),
      fun ha => exec_call_answers rfl hw (tvMeasExtend_badarg ha),
      fun ha x hm => exec_call_answers rfl hw (tvMeasExtend_unread rfl ha hm),
      fun ha hm => exec_call_answers rfl hw (tvMeasExtend_ok rfl ha hm),
      fun ha => exec_call_answers rfl hw (tvAttest_badarg ha),
      fun ha hm hm2 => exec_call_answers rfl hw (tvAttest_eq ha hm hm2),
      fun hm h => serves (serveChannel_empty hm h), fun hm h hno hx => serves ((serveChannel_mail hm h).trans ?info),
      fun hm h => serves (serveChannel_mail hm h), fun hm h => serves (serveChannel_service_empty hm h),
      fun hm h hg => serves (serveChannel_service hm h hg),
      fun hm h hg h5 h6 => serves (serveChannel_service_refuses hm h hg h5 h6)⟩
    case accepted =>
      subst hc
      exact exec_call_answers rfl hw (tvImgVerify_accepted hv hk)
    case info =>
      refine congrArg (svReturn none) (serveMessage_answers (by rw [hno]; decide) ?_)
      rw [hno]
      exact tvFlInfo_eq (c := messageCall s a _ ecc) hx
  all_goals
    simp only [List.forall_mem_cons, List.not_mem_nil, false_imp_iff, implies_true, and_true]
    exact ⟨exec_call_waits rfl hw, exec_call_waits rfl hw, exec_call_waits rfl hw⟩

end Sys2Proof.Machine
end

section
/-! The boot sequence and its network transfer (R409–R412, R424), the release of application cores (R418) and debug
certificates (R417), one lemma for each outcome; then the statement about them. -/

namespace Sys2Proof.Machine

/-! ### The boot sequence (R410, R413, R429) -/

section
variable {s : State} {j : Bool} {ecc : Ecc}

/-- Nothing keeps the boot sequence from starting. -/
def bootStarts (s : State) : Prop := s.sec.booted = false ∧ opMode s = 3 ∧ inReset s = false ∧ (s.el 36).halted = false

/-- The state that the choice of an image starts from. -/
abbrev bootReady (j : Bool) (s : State) : State := bootPrepare j { s with sec.booted := true }

/-- The straps or the lifecycle ask for SERVICE. -/
def bootService (s : State) : Prop := s.sec.straps.toNat = 1 ∧ serviceDis s = false ∨ s.sec.lc = 0 ∨ s.sec.lc = 3

theorem bootService_iff : ((s.sec.straps.toNat = 1 && !serviceDis s) || s.sec.lc = 0 || s.sec.lc = 3) = true ↔ bootService s := by
  simp [bootService, or_assoc]

theorem bootSequence_kept (h : ¬ bootStarts s) : bootSequence j ecc s = s := by
  refine if_pos ?_
  by_contra hk
  refine h ?_
  simpa [bootStarts, and_assoc] using hk

theorem bootSequence_service (h : bootStarts s) (hs : bootService (bootReady j s)) :
    bootSequence j ecc s = enterService (bootStat false 3 0xFF 0xFF 0xFF (bootReady j s)) := by
  obtain ⟨hb, hm, hr, hh⟩ := h
  exact (if_neg (by simp [hb, hm, hr, hh])).trans (if_pos (bootService_iff.mpr hs))

/-- With no reason for SERVICE the image is chosen. -/
theorem bootSequence_chooses (h : bootStarts s) (hs : ¬ bootService (bootReady j s)) : bootSequence j ecc s =
    if (bootReady j s).sec.straps.toNat = 2 && !netbootDis (bootReady j s) then
      netStart (bootStat false 3 0xFF 0xFF 0xFF (bootReady j s))
    else bootFlash ecc (bootReady j s) := by
  obtain ⟨hb, hm, hr, hh⟩ := h
  exact (if_neg (by simp [hb, hm, hr, hh])).trans (if_neg (mt bootService_iff.mp hs))

theorem bootSequence_net (h : bootStarts s) (hs : ¬ bootService (bootReady j s))
    (h2 : (bootReady j s).sec.straps.toNat = 2) (hd : netbootDis (bootReady j s) = false) :
    bootSequence j ecc s = netStart (bootStat false 3 0xFF 0xFF 0xFF (bootReady j s)) :=
  (bootSequence_chooses h hs).trans (if_pos (by rw [h2, hd]; rfl))

theorem bootSequence_flash (h : bootStarts s) (hs : ¬ bootService (bootReady j s))
    (h2 : (bootReady j s).sec.straps.toNat ≠ 2 ∨ netbootDis (bootReady j s) = true) :
    bootSequence j ecc s = bootFlash ecc (bootReady j s) := by
  refine (bootSequence_chooses h hs).trans (if_neg fun hn => ?_)
  obtain ⟨hs2, hd⟩ := (Bool.and_eq_true _ _).mp hn
  rcases h2 with h | h
  · exact h (of_decide_eq_true hs2)
  · rw [h] at hd
    exact absurd hd (by decide)

end

/-! ### Network boot (R412) -/

section
variable {s : State} {mac off total : Nat} {data : List Byte} {ecc : Ecc}

theorem bootReq_inactive (h : s.sec.net.active = false) : bootReq s = s := if_pos (by simp [h])
theorem bootData_inactive (h : s.sec.net.active = false) : bootData mac off total data ecc s = s := if_pos (by simp [h])
theorem bootDataTimeout_inactive (h : s.sec.net.active = false) : bootDataTimeout s = s := if_neg (by simp [h])

theorem bootReq_early (h : reached 64 s.time.selvedge.toNat s.sec.net.reqAt.toNat = false) : bootReq s = s :=
  if_pos (by simp [h])

theorem bootReq_sends (ha : s.sec.net.active = true) (h : reached 64 s.time.selvedge.toNat s.sec.net.reqAt.toNat = true)
    (hn : s.sec.net.reqs < 600) : bootReq s = bootSend 0xFFFFFFFFFFFF 0x10
      (toBytes 4 0x7128114E ++ (List.range 4).flatMap (fun k => toBytes 4 (otpWord s (4 + k)).toNat) ++ toBytes 4 7340032)
      { s with sec.net := { s.sec.net with reqs := s.sec.net.reqs + 1, reqAt := s.time.selvedge + 80000000 } } :=
  (if_neg (by simp [ha, h])).trans (if_neg (by omega))

theorem bootDataTimeout_restarts (ha : s.sec.net.active = true)
    (h : reached 64 (s.time.selvedge - s.sec.net.last).toNat 1600000000 = true) : bootDataTimeout s =
      { s with sec.net := { s.sec.net with next := 0, total := 0, host := none, last := s.time.selvedge } } :=
  if_pos (by rw [ha, h]; rfl)

/-- The transfer once a `BOOTDATA` frame has been heard: the frame opens one where there is none, it begins at 0 and its
image fits. -/
def netHeard (mac off total : Nat) (s : State) : NetBoot :=
  let n := s.sec.net
  { (if n.host.isNone && off = 0 && total ≤ 7340032 then { n with host := some mac, total := total } else n) with
    reqs := 0, last := s.time.selvedge }

theorem netHeard_opens (hh : s.sec.net.host = none) (ho : off = 0) (ht : total ≤ 7340032) : netHeard mac off total s =
    { s.sec.net with reqs := 0, last := s.time.selvedge, host := some mac, total := total } := by
  simp [netHeard, hh, ho, ht]

theorem netHeard_goes_on {x : Nat} (hh : s.sec.net.host = some x) : netHeard mac off total s =
    { s.sec.net with reqs := 0, last := s.time.selvedge } := by
  simp [netHeard, hh]

/-- A frame of a length that the manual allows is heard while the network boot goes on. -/
theorem frame_heard (ha : s.sec.net.active = true) (h1 : 1 ≤ data.length) (h2 : data.length ≤ 1024) :
    ¬ (!s.sec.net.active || decide (data.length = 0) || decide (1024 < data.length)) = true := by
  simp only [ha, Bool.not_true, Bool.false_or, Bool.or_eq_true, decide_eq_true_eq]
  omega

section
variable {n : NetBoot} (hn : netHeard mac off total s = n) (ha : s.sec.net.active = true) (h1 : 1 ≤ data.length)
  (h2 : data.length ≤ 1024)
include hn ha h1 h2

theorem bootData_elsewhere (ho : off ≠ n.next) : bootData mac off total data ecc s =
    bootAck mac n.next 0 { s with sec.net := n } := by
  subst hn
  refine (if_neg (frame_heard ha h1 h2)).trans (if_pos ?_)
  simp only [Bool.or_eq_true, decide_eq_true_eq]
  exact .inl (.inr ho)

/-- The next piece of an image that is not yet complete enters Twill. -/
theorem bootData_piece (hh : n.host = some mac) (ho : off = n.next) (ht : off + data.length < n.total) :
    bootData mac off total data ecc s = bootAck mac (off + data.length) 0
      { (agentWrite midSv true (0x20000000 + off) data { s with sec.net := n }).2 with
        sec.net := { n with next := off + data.length } } := by
  subst hn
  refine (if_neg (frame_heard ha h1 h2)).trans ((if_neg ?_).trans (if_neg ht.ne))
  simp only [Bool.or_eq_true, decide_eq_true_eq, not_or, not_not, Nat.not_lt]
  exact ⟨⟨hh, ho⟩, ht.le⟩

end

end

/-! ### Application cores and certificates (R417, R418) -/

section
variable {s s1 : State} {n : Nat} {v : Word} {sec : Bool} {m : Master}

theorem acrelGo_again (h : tb (s.rg (ra .boot (Boot.ACREL n))) 31 = true ∨ tb v 31 = false) :
    acrelGo n v sec s = (.ok 0, plainWrite .boot 0 (Boot.ACREL n) v sec s) :=
  if_pos (by simpa using h)

/-- Core `n` released by `GO` at its entry, in its initial world. -/
def coreReleased (n : Nat) (v : Word) (s : State) : State :=
  s.setEl (32 + n) { s.el (32 + n) with
    setA := { (s.el (32 + n)).setA with pc := s.rg (ra .boot (Boot.ACENTRY n)), status := 0x100 },
    world := w32 (b2n (tb v 30)), released := true }

theorem acrelGo_releases (h : tb (s.rg (ra .boot (Boot.ACREL n))) 31 = false) (hv : tb v 31 = true) : acrelGo n v sec s =
    (.ok 0, haltAtStart (32 + n) (coreReleased n v (plainWrite .boot 0 (Boot.ACREL n) v sec s))) :=
  if_neg (by rw [h, hv]; decide)

theorem dbgSubmit_foreign (h : m.mid.val ≠ 24) : dbgSubmit m v s = (.err, s) := if_pos fun e => h (congrArg Fin.val e)

theorem dbgSubmit_idle (h : m.mid.val = 24) (hv : tb v 0 = false) : dbgSubmit m v s = (.ok 0, s) :=
  (if_neg (not_not_intro (Fin.ext h))).trans (if_pos (by rw [hv]; rfl))

theorem dbgSubmit_checks {code : Option Nat} {grants x : Nat} (h : m.mid.val = 24) (hv : tb v 0 = true)
    (hc : certCheck s = (code, grants)) (hd : s.draw = (x, s1)) : dbgSubmit m v s =
      (.ok 0, (drawRegs ((List.range 8).map (fun k => ra .sec (Sec.DBGNONCE k)))
        { s1 with sec.grants := s1.sec.grants ||| BitVec.ofNat 2 grants }).setRg
          (ra .sec Sec.DBGSTAT) (w32 (code.getD (x % 256) * 256))) := by
  refine (if_neg (not_not_intro (Fin.ext h))).trans ((if_neg (by rw [hv]; decide)).trans ?_)
  simp only [hc, hd]

end

/-! ### The statement -/

/-- Settles O48: each clause is the lemma about that outcome of the boot, the frame or the write. -/
theorem bootAndRelease : Obligations.BootAndRelease := by
  unfold Obligations.BootAndRelease
  intro s s1 m j ecc mac off total v data n x grants code ready strap blank starts service net first heard begun took i a wr
    out nonces ctl
  refine ⟨fun h => exec_eq rfl (bootSequence_kept h), fun h hs => exec_eq rfl (bootSequence_service h hs),
    fun h hs h2 hd => exec_eq rfl (bootSequence_net h hs h2 hd), fun h hs h2 => exec_eq rfl (bootSequence_flash h hs h2),
    fun h => ⟨exec_eq rfl (bootReq_inactive h), exec_eq rfl (bootData_inactive h), exec_eq rfl (bootDataTimeout_inactive h)⟩,
    fun _ h => exec_eq rfl (bootReq_early h), fun ha h hn => exec_eq rfl (bootReq_sends ha h hn),
    fun ha h1 h2 => ⟨fun hh ho ht => exec_eq rfl (bootData_piece (netHeard_goes_on hh) ha h1 h2 hh ho ht),
      fun hh ho => exec_eq rfl (bootData_elsewhere (netHeard_goes_on hh) ha h1 h2 ho), ?first⟩,
    fun ha h => exec_eq rfl (bootDataTimeout_restarts ha h), fun h => writes_of _ rfl (acrelGo_again h),
    fun h hv => writes_of _ rfl (acrelGo_releases h hv), fun h hg => ?foreign,
    fun h hv => writes_of _ rfl (dbgSubmit_idle h hv), fun h hv hc hd => writes_of _ rfl (dbgSubmit_checks h hv hc hd)⟩
  case first =>
    rintro ⟨hh, ho, ht⟩ hn hl
    have zero : off.toNat = 0 := congrArg BitVec.toNat ho
    have piece := bootData_piece (ecc := ecc) (netHeard_opens (mac := mac.toNat) hh zero ht) ha h1 h2 rfl (zero.trans hn.symm)
      (by rw [zero, Nat.zero_add]; exact hl)
    rw [zero, Nat.zero_add, Nat.add_zero] at piece
    exact exec_eq (by rw [← zero]; rfl) piece
  case foreign =>
    refine exec_eq rfl ((if_neg (ne_true_of_eq_false hg)).trans ?_)
    rw [dbgSubmit_foreign h]

end Sys2Proof.Machine
end

section
/-! Cold and warm resets (R409, R410, R428, R429), power-down (R419) and the watchdogs (R442–R444), one lemma for each
outcome; then the statement about them. -/

namespace Sys2Proof.Machine

/-! ### Registers across an interrupted program (R378) -/

theorem flSpoil_rg (b : Nat) (s : State) (a : Nat) : (flSpoil b s).rg a = s.rg a := by
  show (store b (drawBytes 32 s).1 (drawBytes 32 s).2).rg a = _
  rw [store_rg, drawBytes_rg]

theorem flashCut_rg (k : Nat) (s : State) (a : Nat) : (flashCut k s).rg a = s.rg a := by
  unfold flashCut
  dsimp only
  split
  · rfl
  · exact (flSpoil_rg ..).trans (store_rg ..)

theorem resetWakes_opMode (s : State) : opMode (resetWakes s) = opMode s := by
  unfold resetWakes
  split
  · rfl
  · exact congrArg (fld · 2 0) (setRg_rg_ne _ _ _ (by decide))

/-! ### Cold reset (R409, R410, R428) -/

section
variable {s : State} {straps : BitVec 2}

/-- Every register but `BOOT.STRAP` has its reset value. -/
theorem coldState_rg {a : Nat} (h : a ≠ ra .boot Boot.STRAP) : (coldState straps s).rg a = State.reset.rg a :=
  setRg_rg_ne _ _ _ h

/-- `SV` runs: nothing asks for its halt. -/
theorem haltAtStart_coldState : haltAtStart 36 (coldState straps s) = coldState straps s := by
  refine if_neg ?_
  rw [coldState_rg (by decide)]
  decide

theorem coldState_bridges {b : Nat} (h : b < 12) : pwmEn (coldState straps s) b = false := by
  have off : ∀ b < 12, ri .pwm b Pwm.CFG ≠ ra .boot Boot.STRAP ∧ pwmEn State.reset b = false := by decide +kernel
  rw [pwmEn, coldState_rg (off b h).1]
  exact (off b h).2

theorem coldState_opMode : opMode (coldState straps s) = 3 := by
  rw [opMode, coldState_rg (by decide)]
  decide

theorem coldState_released {k : Nat} (h : k < 4) : ((coldState straps s).el (32 + k)).released = false := by
  have held : ∀ k < 4, (State.reset.el (32 + k)).released = false := by decide
  exact held k h

/-- The device is OFF once `VDD_AON` has fallen (R419). -/
theorem opMode_powerDown (s : State) : opMode { s.setRg (ra .pmu Pmu.MODE) 0 with time.run := false } = 0 :=
  (congrArg (fld · 2 0) (setRg_rg_self s (ra .pmu Pmu.MODE) 0)).trans (by decide)

end

/-! ### The times that a reset leaves (R428) -/

/-- Selvedge, and the tick of the last reset. -/
def resetTimes (s : State) : DWord × DWord := (s.time.selvedge, s.power.resetAt)

theorem setRg_resetTimes (s : State) (a : Nat) (v : Word) : resetTimes (s.setRg a v) = resetTimes s := rfl
theorem setRgBit_resetTimes (s : State) (a i : Nat) (b : Bool) : resetTimes (s.setRgBit a i b) = resetTimes s := rfl
theorem setRgFld_resetTimes (s : State) (a hi lo v : Nat) : resetTimes (s.setRgFld a hi lo v) = resetTimes s := rfl

/-- A count changes registers alone. -/
theorem bumpN_regs (b : Blk) (i o n : Nat) (s : State) : ∃ r, bumpN b i o n s = { s with regs := r } := by
  unfold bumpN
  extract_lets v v' s1
  split
  · split
    · exact ⟨_, rfl⟩
    · exact ⟨_, rfl⟩
  · exact ⟨_, rfl⟩

theorem tracePacket_resetTimes (kind el port : Nat) (w2 w3 time : Word) (sec : Bool) (s : State) :
    resetTimes (tracePacket kind el port w2 w3 time sec s) = resetTimes s := by
  unfold tracePacket bump
  dsimp only
  split
  · rfl
  · split
    · obtain ⟨r, hr⟩ := bumpN_regs .dbg 0 Dbg.TRDROP 1 { s with dbg.seq := (s.dbg.seq + 1) % 65536 }
      rw [hr]
      rfl
    · rfl

theorem traceElem_resetTimes (kind i port : Nat) (w2 w3 : Word) (s : State) :
    resetTimes (traceElem kind i port w2 w3 s) = resetTimes s := by
  unfold traceElem
  split
  · rfl
  · exact (tracePacket_resetTimes ..).trans rfl

theorem wdgFreezeOne_resetTimes (i n : Nat) (s : State) : resetTimes (wdgFreezeOne i n s) = resetTimes s := by
  unfold wdgFreezeOne
  split <;> rfl

theorem haltNow_resetTimes (i reason : Nat) (s : State) : resetTimes (haltNow i reason s) = resetTimes s := by
  unfold haltNow
  split
  · rfl
  · exact (foldl_keeps (view := resetTimes) (fun s n => wdgFreezeOne_resetTimes i n s) ..).trans 
      ((traceElem_resetTimes ..).trans ((setRg_resetTimes ..).trans rfl))

theorem crossHalt_resetTimes (i : Nat) (s : State) : resetTimes (crossHalt i s) = resetTimes s := by
  unfold crossHalt
  dsimp only
  split
  · rfl
  · refine foldl_keeps (view := resetTimes) (fun s n => ?_) ..
    split
    · split
      · unfold wantHalt
        split <;> rfl
      · rfl
    · rfl

theorem haltElem_resetTimes (i reason : Nat) (s : State) : resetTimes (haltElem i reason s) = resetTimes s := by
  unfold haltElem
  split
  · rfl
  · exact (crossHalt_resetTimes ..).trans (haltNow_resetTimes ..)

theorem haltAtStart_resetTimes (i : Nat) (s : State) : resetTimes (haltAtStart i s) = resetTimes s := by
  unfold haltAtStart
  split
  · split
    · exact haltElem_resetTimes ..
    · rfl
  · rfl

theorem resetCause_resetTimes (bits : List Nat) (least : Nat) (s : State) :
    resetTimes (resetCause bits least s) = resetTimes s := by
  exact foldl_keeps (view := resetTimes) (f := fun s b => s.setRgBit (ra .pmu Pmu.RSTCAUSE) b true) (fun _ _ => rfl) bits s

/-- Outside HIBERNATE a warm reset is the last one at its own tick. -/
theorem warmReset_resetAt {s : State} {bits : List Nat} {straps : BitVec 2} (h : opMode s ≠ 1) :
    (warmReset bits straps s).power.resetAt = (warmReset bits straps s).time.selvedge := by
  suffices H : ∃ x, resetTimes (warmReset bits straps s) = (x, x) by
    obtain ⟨x, hx⟩ := H
    exact (congrArg Prod.snd hx).trans (congrArg Prod.fst hx).symm
  have mode : opMode (resetWakes (flashCut 1 (flashCut 0 s))) = opMode s :=
    (resetWakes_opMode _).trans (congrArg (fld · 2 0) ((flashCut_rg ..).trans (flashCut_rg ..)))
  unfold warmReset
  generalize resetWakes (flashCut 1 (flashCut 0 s)) = u at mode ⊢
  extract_lets v old busy s1 least s2 s3 m s4
  have first : resetTimes s1 = (u.time.selvedge, u.time.selvedge) :=
    congrArg (Prod.mk _) (if_neg fun one => h (mode.symm.trans one))
  have recorded : resetTimes s2 = resetTimes s1 := resetCause_resetTimes ..
  have answered : resetTimes s3 = resetTimes s2 := by
    dsimp only [s3]
    split <;> rfl
  have set : resetTimes (s4.setRgBit (ra .pmu Pmu.SHCAUSE) 31 false) = resetTimes s3 := by
    simp only [s4, setRgBit_resetTimes, setRgFld_resetTimes]
  exact ⟨u.time.selvedge, (haltAtStart_resetTimes ..).trans (set.trans (answered.trans (recorded.trans first)))⟩

/-- `nRESET_OUT` is low for 100 µs after a reset. -/
theorem nresetOut_low {s : State} (h : s.power.resetAt = s.time.selvedge) : nresetOut s = false := by
  have early : reached 64 s.time.selvedge.toNat (s.power.resetAt + 80000).toNat = false := by
    rw [h, reached, decide_eq_false_iff_not, BitVec.toNat_add]
    have := s.time.selvedge.isLt
    show ¬ (_ + _ - (_ + 80000) % _ % _) % _ < _
    omega
  rw [nresetOut, early, Bool.and_false]

/-! ### Resets and brown-outs (R429, R497) -/

section
variable {s : State} {low : Nat} {back : Bool} {bits : List Nat}

theorem resetBy_on (h : opMode s ≠ 0) : resetBy bits s = warmReset bits s.sec.straps s := if_neg h
theorem resetBy_off (h : opMode s = 0) : resetBy bits s = s := if_pos h

theorem brownout_off (h : opMode s = 0) : brownout low back s = s := if_pos h

theorem brownout_hibernate (h : opMode s = 1) : brownout low back s = { s with power.rails := back } :=
  (if_neg (by omega)).trans (if_pos h)

theorem brownout_short (h : 2 ≤ opMode s) (hl : low ≤ 800) :
    brownout low back s = { s with power.rails := s.power.rails || back } :=
  (if_neg (by omega)).trans ((if_neg (by omega)).trans (if_pos hl))

theorem brownout_resets (h : 2 ≤ opMode s) (hl : 800 < low) :
    brownout low back s = { warmReset [1] s.sec.straps s with power.rails := back } := by
  rw [← resetBy_on (show opMode s ≠ 0 by omega)]
  exact (if_neg (by omega)).trans ((if_neg (by omega)).trans (if_neg (by omega)))

theorem exec_pinReset_kept {straps : BitVec 2} (h : opMode s = 0 ∨ low < 800) : exec (.pinReset straps low) s = .next s :=
  exec_eq rfl (if_pos (by simpa using h))

theorem exec_pinReset_resets {straps : BitVec 2} (h : opMode s ≠ 0) (hl : 800 ≤ low) :
    exec (.pinReset straps low) s = .next (warmReset [2] straps s) :=
  exec_eq rfl (if_neg (by simp [h, hl]))

/-- A write of `CTRL` with bit 31 set is `SWRST`. -/
theorem pmuCtrlWrite_swrst (s : State) : pmuCtrlWrite 0x80000000 s = (.ok 0, resetBy [3] s) := if_pos (by decide)

end

/-! ### Watchdogs (R442–R444) -/

section
variable {s : State} {n i : Nat} {v : Word} {m : Master} {sec : Bool}

theorem wdgCfgWrite_enabled (h : tb (wdgCfg s n) 31 = true) : wdgCfgWrite n v sec s = (.ok 0, s) := if_pos h

theorem wdgCfgWrite_stays_off (h : ¬ tb (wdgCfg s n) 31 = true) (hv : tb v 31 = false) :
    wdgCfgWrite n v sec s = (.ok 0, plainWrite .pmu 0 (Pmu.WDG_CFG n) v sec s) := by
  simp only [wdgCfgWrite, h, hv, Bool.false_eq_true, if_false, Bool.not_false, if_true]

/-- Watchdog `n` as a write of `CFG` that sets `EN` starts it. -/
abbrev wdgStarted (n : Nat) (v : Word) (sec : Bool) (s : State) : State :=
  wdgLoad n (wdgFlag n 31 (plainWrite .pmu 0 (Pmu.WDG_CFG n) v sec s))

theorem wdgCfgWrite_starts (h : ¬ tb (wdgCfg s n) 31 = true) (hv : tb v 31 = true) (hh : (s.el (wdgElem n)).halted = false) :
    wdgCfgWrite n v sec s = (.ok 0, wdgStarted n v sec s) := by
  simp only [wdgCfgWrite, h, hv, hh, Bool.false_eq_true, if_false, Bool.not_true]

theorem wdgCfgWrite_halted (h : ¬ tb (wdgCfg s n) 31 = true) (hv : tb v 31 = true) (hh : (s.el (wdgElem n)).halted = true) :
    wdgCfgWrite n v sec s = (.ok 0, wdgFreezeOne (wdgElem n) n (wdgStarted n v sec s)) := by
  simp only [wdgCfgWrite, h, hv, hh, Bool.false_eq_true, if_false, if_true, Bool.not_true]

theorem wdgFreezeOne_kept (h : granted s i = false ∨ tb (wdgCfg s n) 30 = false ∨ tb (wdgCfg s n) 31 = false) :
    wdgFreezeOne i n s = s := by
  refine if_neg ?_
  simp only [Bool.and_eq_true, not_and_or, Bool.not_eq_true]
  rwa [or_assoc]

theorem wdgFreezeOne_freezes (hg : granted s i = true) (h30 : tb (wdgCfg s n) 30 = true) (h31 : tb (wdgCfg s n) 31 = true) :
    wdgFreezeOne i n s = wdgFlag n 30 (s.setWdg n { s.wdg n with frozen := true }) :=
  if_pos (by rw [hg, h30, h31]; rfl)

theorem wdgOwner_iff : wdgOwner m n = true ↔ n = 5 ∧ m.sec = true ∨ n ≠ 5 ∧ m.mid.val = n := by
  unfold wdgOwner
  split <;> simp_all

theorem wdgService_foreign (h : wdgOwner m n = false) : wdgService m n v s = (.err, s) := if_pos (by rw [h]; rfl)

theorem wdgService_idle (h : wdgOwner m n = true) (he : ¬ tb (wdgCfg s n) 31 = true) : wdgService m n v s = (.ok 0, s) := by
  simp only [wdgService, h, he, Bool.not_true, Bool.not_false, Bool.false_eq_true, if_false, if_true]

theorem wdgService_wrong (h : wdgOwner m n = true) (he : tb (wdgCfg s n) 31 = true) (hv : v ≠ 0x5A3C) :
    wdgService m n v s = (.ok 0, wdgViolation n 2 s) := by
  simp only [wdgService, h, he, hv, Bool.not_true, Bool.false_eq_true, if_false, if_true, ne_eq, not_false_eq_true]

/-- The service comes while the window is closed. -/
def wdgEarly (s : State) (n : Nat) : Prop :=
  (s.wdg n).closed = true ∧ (s.wdg n).since * 256 < wdgTimeout s n * fld (wdgCfg s n) 15 8

theorem wdgService_early (h : wdgOwner m n = true) (he : tb (wdgCfg s n) 31 = true) (hv : v = 0x5A3C) (hw : wdgEarly s n) :
    wdgService m n v s = (.ok 0, wdgViolation n 3 s) := by
  simp only [wdgService, h, he, hv, hw.1, hw.2, Bool.not_true, Bool.false_eq_true, if_false, if_true, ne_eq, not_true_eq_false,
    decide_true, Bool.and_self]

/-- A service inside the window reloads the count; the cause `WDG` ends when no watchdog has a violation left (R427). -/
theorem wdgService_served (h : wdgOwner m n = true) (he : tb (wdgCfg s n) 31 = true) (hv : v = 0x5A3C) (hw : ¬ wdgEarly s n)
    {t : State} (ht : s.setWdg n { s.wdg n with violated := false } = t) : wdgService m n v s =
      (.ok 0, wdgLoad n (if (List.range 6).any (fun k => (t.wdg k).violated) then t else causeEnds 2 t)) := by
  have late : ((s.wdg n).closed && (s.wdg n).since * 256 < wdgTimeout s n * fld (wdgCfg s n) 15 8) = false := by
    simpa [wdgEarly] using hw
  simp only [wdgService, h, he, hv, late, ht, Bool.not_true, Bool.false_eq_true, if_false, ne_eq, not_true_eq_false]

theorem wdgRuns_iff : wdgRuns s n = true ↔ tb (wdgCfg s n) 31 = true ∧ (s.wdg n).frozen = false ∧
    (1 ≤ n ∧ n ≤ 4 → tb (s.rg (ra .stc (Stc.ACT (n - 1)))) 30 = false) := by
  simp only [wdgRuns, Bool.and_eq_true, Bool.not_eq_true', Bool.and_eq_false_iff, decide_eq_false_iff_not, and_assoc]
  tauto

theorem wdgWarnDue_iff : wdgWarnDue s n = true ↔ wdgRuns s n = true ∧ (s.wdg n).warned = false ∧
    (s.wdg n).count * 256 ≤ wdgTimeout s n * fld (wdgCfg s n) 7 0 := by
  simp [wdgWarnDue, and_assoc]

/-- A violation resets the device, but for the first of a running element whose `ACT` asks for SAFE_HOLD. -/
theorem wdgViolation_resets (h : fld (wdgCfg s n) 29 28 ≠ 1 ∨ (s.el (wdgElem n)).halted = true ∨ (s.wdg n).violated = true) :
    wdgViolation n i s = wdgReset n (wdgFlag n i s) :=
  if_pos (by simpa [or_assoc] using h)

theorem wdgViolation_holds (h1 : fld (wdgCfg s n) 29 28 = 1) (h2 : (s.el (wdgElem n)).halted = false)
    (h3 : (s.wdg n).violated = false) {t : State} (ht : wdgLoad n (wdgFlag n 1 (wdgFlag n i s)) = t) :
    wdgViolation n i s = safeHoldCause 2 (t.setWdg n { t.wdg n with violated := true }) := by
  subst ht
  exact if_neg (by simp [h1, h2, h3])

end

/-! ### The statement -/

/-- Settles O51: each clause is the lemma about that outcome of the reset, the write or the watchdog. -/
theorem resetsAndWatchdogs : Obligations.ResetsAndWatchdogs := by
  unfold Obligations.ResetsAndWatchdogs
  intro s m straps n v low back cfg svc x en mine early p flag load again served cause runs warn cold elem loaded
  have owner (h : mine) : wdgOwner m n = true := wdgOwner_iff.mpr h
  refine ⟨⟨cold, exec_eq rfl haltAtStart_coldState, coldState_opMode, rfl, rfl, rfl, coldState_rg (by decide), rfl,
      fun k hk => coldState_released hk, fun b hb => coldState_bridges hb, rfl⟩,
    exec_eq rfl (by rw [haltAtStart_coldState]; rfl), fun h => exec_pinReset_kept (.inr h),
    fun h hl => exec_eq rfl (brownout_short h hl), fun h => exec_eq rfl (brownout_hibernate h),
    fun h => ⟨exec_eq rfl (brownout_off h), exec_pinReset_kept (.inl h),
      writes_of _ rfl ((pmuCtrlWrite_swrst s).trans (by rw [resetBy_off h]))⟩,
    fun h hl => exec_eq rfl (brownout_resets h hl),
    fun h => ⟨fun hl => exec_pinReset_resets h hl,
      fun h1 => ⟨_, exec_pinReset_resets h le_rfl, nresetOut_low (warmReset_resetAt h1)⟩,
      writes_of _ rfl ((pmuCtrlWrite_swrst s).trans (by rw [resetBy_on h]))⟩,
    ⟨_, rfl, ?off, rfl, fun c hc => of_decide_eq_true (decide_eq_true (List.mem_filter.mp hc).2)⟩,
    fun h => writes_of _ rfl (wdgCfgWrite_enabled h), fun h hv => writes_of _ rfl (wdgCfgWrite_stays_off h hv),
    fun h hv hh => writes_of _ rfl (wdgCfgWrite_starts h hv hh),
    fun h hv hh => ⟨fun hk => writes_of _ rfl ((wdgCfgWrite_halted h hv hh).trans (congrArg _ (wdgFreezeOne_kept hk))),
      fun hg h30 h31 => writes_of _ rfl ((wdgCfgWrite_halted h hv hh).trans (congrArg _ (wdgFreezeOne_freezes hg h30 h31)))⟩,
    fun h => ?foreign, fun h he => writes_of _ rfl (wdgService_idle (owner h) he),
    fun h he hv => writes_of _ rfl (wdgService_wrong (owner h) he hv),
    fun h he hv hw => writes_of _ rfl (wdgService_early (owner h) he hv hw),
    fun h he hv hw => ⟨fun hk => writes_of _ rfl ((wdgService_served (owner h) he hv hw rfl).trans ?last),
      fun hk => writes_of _ rfl ((wdgService_served (owner h) he hv hw rfl).trans ?others)⟩,
    fun h => exec_eq rfl (if_pos ?warn), fun h => exec_eq rfl (if_neg ?nowarn), fun h => exec_eq rfl (if_neg ?runs),
    fun h hc hk => exec_eq rfl ((if_pos ?expired).trans (wdgViolation_resets hk)),
    fun h hc h1 h2 h3 => exec_eq rfl ((if_pos ?expired2).trans (wdgViolation_holds h1 h2 h3 rfl))⟩
  case off => exact opMode_powerDown _
  case foreign =>
    have refused : wdgOwner m n = false := Bool.eq_false_iff.mpr (mt wdgOwner_iff.mp h)
    refine exec_eq rfl ?_
    rw [regAccess, wdgService_foreign refused]
    split <;> rfl
  case last =>
    rw [if_neg]
    · rfl
    · simp only [List.any_eq_true, List.mem_range, not_exists, not_and, Bool.not_eq_true]
      exact hk
  case others =>
    rw [if_pos]
    · rfl
    · simp only [List.any_eq_true, List.mem_range]
      exact hk
  case warn => exact wdgWarnDue_iff.mpr ⟨wdgRuns_iff.mpr h.1, h.2⟩
  case nowarn => exact fun hw => h ⟨wdgRuns_iff.mp (wdgWarnDue_iff.mp hw).1, (wdgWarnDue_iff.mp hw).2⟩
  case runs =>
    intro hw
    obtain ⟨hr, hc⟩ := (Bool.and_eq_true _ _).mp hw
    exact h ⟨wdgRuns_iff.mp hr, of_decide_eq_true hc⟩
  all_goals exact (Bool.and_eq_true _ _).mpr ⟨wdgRuns_iff.mpr h, decide_eq_true hc⟩

end Sys2Proof.Machine
end

section
/-! Requests for an operating mode (R419–R421, R426, R427), the entries to STANDBY and HIBERNATE (R421) and what wakes the
device (R420, R422–R424, R439), one lemma for each outcome; then the statement about them. -/

namespace Sys2Proof.Machine

/-! ### Requests (R419–R421, R426, R427) -/

section
variable {s u : State} {m : Master} {c : Instr} {v : Word} {req : Nat}

/-- A write of `CTRL` without `SWRST` is a request. -/
theorem writes_request (hc : exec c s = .next (regAccess m ctrlReg (pmuCtrlWrite v) s)) (hv : tb v 31 = false)
    (hr : fld v 2 0 = req) (h : pmuRequest req s = u) : Writes c s m ctrlReg u :=
  writes_of _ hc ((if_neg (ne_true_of_eq_false hv)).trans (by rw [hr, h]))

theorem pmuRequest_busy (h : tb (s.rg (ra .pmu Pmu.MODE)) 31 = true) : pmuRequest req s = s := if_pos (.inr h)

variable (hb : ¬ tb (s.rg (ra .pmu Pmu.MODE)) 31 = true)
include hb

theorem request_taken (hr : req ≠ 0) : ¬ (req = 0 ∨ tb (s.rg (ra .pmu Pmu.MODE)) 31 = true) := not_or_intro hr hb

theorem pmuRequest_run_refused (h3 : opMode s ≠ 3) (h6 : opMode s ≠ 6) : pmuRequest 4 s = reqDone 1 s :=
  (if_neg (request_taken hb (by decide))).trans ((if_pos rfl).trans (if_pos ⟨h3, h6⟩))

theorem pmuRequest_run_held (hm : opMode s = 3 ∨ opMode s = 6) (hc : fld (s.rg (ra .pmu Pmu.SHCAUSE)) 13 8 ≠ 0) :
    pmuRequest 4 s = reqDone 3 s :=
  (if_neg (request_taken hb (by decide))).trans ((if_pos rfl).trans ((if_neg (by omega)).trans (if_pos hc)))

theorem pmuRequest_run (hm : opMode s = 3 ∨ opMode s = 6) (hc : fld (s.rg (ra .pmu Pmu.SHCAUSE)) 13 8 = 0) :
    pmuRequest 4 s = reqDone 0 (enterRun s) :=
  (if_neg (request_taken hb (by decide))).trans
    ((if_pos rfl).trans ((if_neg (by omega)).trans (if_neg (not_not_intro hc))))

theorem pmuRequest_safeHold (hm : opMode s = 4 ∨ opMode s = 5) : pmuRequest 6 s = reqDone 0 (safeHoldCause 0 s) :=
  (if_neg (request_taken hb (by decide))).trans ((if_neg (by decide)).trans ((if_pos rfl).trans (if_pos hm)))

theorem pmuRequest_safeHold_refused (h4 : opMode s ≠ 4) (h5 : opMode s ≠ 5) : pmuRequest 6 s = reqDone 1 s :=
  (if_neg (request_taken hb (by decide))).trans
    ((if_neg (by decide)).trans ((if_pos rfl).trans (if_neg (not_or_intro h4 h5))))

/-- The mode lets a request for a sleep through: SAFE_HOLD leads to HIBERNATE alone. -/
def maySleep (req : Nat) (s : State) : Prop := opMode s = 4 ∨ opMode s = 5 ∨ req = 1 ∧ opMode s = 6

/-- A request for STANDBY (2) or HIBERNATE (1) is taken. -/
def sleepAsked (req : Nat) (s : State) : State :=
  let s1 := testStop (boostFallback 6 s)
  { (s1.setRgBit (ra .pmu Pmu.MODE) 31 true).setRgBit (ra .pmu Pmu.REQSTAT) 31 true with
    power.entry := some (req, s.time.selvedge) }

variable (hr : req = 1 ∨ req = 2)
include hr

theorem pmuRequest_sleep_refused (hm : ¬ maySleep req s) : pmuRequest req s = reqDone 1 s :=
  (if_neg (request_taken hb (by omega))).trans
    ((if_neg (by omega)).trans ((if_neg (by omega)).trans ((if_pos hr).trans (if_neg hm))))

theorem pmuRequest_sleep_slowBad (hm : maySleep req s) (h : tb (s.rg (ra .pmu Pmu.CLKSTAT)) 30 = true) :
    pmuRequest req s = reqDone 5 s :=
  (if_neg (request_taken hb (by omega))).trans
    ((if_neg (by omega)).trans ((if_neg (by omega)).trans ((if_pos hr).trans ((if_pos hm).trans (if_pos h)))))

theorem pmuRequest_sleep_asked (hm : maySleep req s) (h : ¬ tb (s.rg (ra .pmu Pmu.CLKSTAT)) 30 = true) :
    pmuRequest req s = sleepAsked req s :=
  (if_neg (request_taken hb (by omega))).trans
    ((if_neg (by omega)).trans ((if_neg (by omega)).trans ((if_pos hr).trans ((if_pos hm).trans (if_neg h)))))

end

/-- RUN from SAFE_HOLD: the maps are locked already. -/
theorem enterRun_safeHold {s : State} (h : opMode s = 6) :
    enterRun s = boostCheck (setMode 4 (s.setRgBit (ra .pmu Pmu.SHCAUSE) 31 false)) := by
  simp [enterRun, h]

/-! ### Entries (R109, R421) -/

section
variable {s : State} {t : DWord} {mode : Nat}

theorem standbyEntry_kept (h : s.power.entry = none ∨ entryConds s = false ∨ slowEdge s = false) : standbyEntry s = s := by
  unfold standbyEntry
  split
  · rfl
  · next he =>
    refine if_pos ?_
    simpa [he] using h

/-- What the caches hold is lost, and Selvedge stops. -/
def sleepState (mode : Nat) (s : State) : State :=
  let s1 := tearSuspended 1 (tearSuspended 0 s)
  let s2 := eachElem (fun e => { e with icache := [] }) { flInvalidate s1 with core.cache := [] }
  selvedgeSuspend (setMode mode (reqDone 0 s2))

/-- The active wake comparators are noted, and the PLLs stop. -/
def sleepNotes (s : State) : State :=
  { (s.setRg (ra .pmu Pmu.WAKESTAT) (s.rg (ra .pmu Pmu.WAKESTAT) ||| w32 (liveWakes s))).setRgFld
      (ra .pmu Pmu.CLKSTAT) 5 0 0 with
    power.wake := liveWakes s, power.aonReads := 0 }

/-- HIBERNATE keeps the memories of `hibKeeps` alone, and the TAP is unpowered. -/
def hibernateLoses (s : State) : State :=
  let keep := tb (s.rg (ra .pmu Pmu.HIBCFG)) 0
  { s with
    mem := s.mem.filter (fun c => hibKeeps keep c.1), poison := s.poison.filter (hibKeeps keep),
    dbg.ir := 2, dbg.cells := [], dbg.accStat := 0, dbg.accData := 0, dbg.bypass := false, dbg.shifted := 0, ballScan := [],
    power.memcCopy := s.rg (ra .memc Memc.CFG), power.ddrKept := keep }

theorem standbyEntry_enters (h : s.power.entry = some (mode, t)) (hc : entryConds s = true) (he : slowEdge s = true) :
    standbyEntry s = if mode = 2 then sleepNotes (sleepState mode s) else hibernateLoses (sleepNotes (sleepState mode s)) := by
  simp only [standbyEntry, h, hc, he, Bool.not_true, Bool.or_self, Bool.false_eq_true, if_false]
  rfl

theorem entryTimeout_none (h : s.power.entry = none) : entryTimeout s = s := by rw [entryTimeout, h]

theorem entryTimeout_over (h : s.power.entry = some (mode, t)) (hr : reached 64 (s.time.selvedge - t).toNat 8000000 = true) :
    entryTimeout s = reqDone 2 s := by
  simp only [entryTimeout, h, hr, if_true]

theorem entryTimeout_early (h : s.power.entry = some (mode, t)) (hr : reached 64 (s.time.selvedge - t).toNat 8000000 = false) :
    entryTimeout s = s := by
  simp only [entryTimeout, h, hr, Bool.false_eq_true, if_false]

/-! ### Wakes (R420, R422–R424, R439) -/

theorem wakeSource_ends_entry {bit : Nat} (h : s.power.entry.isSome = true) :
    wakeSource bit s = reqDone 4 (s.setRgBit (ra .pmu Pmu.WAKESTAT) bit true) := if_pos h

theorem wakeSource_wakes {bit : Nat} (h : s.power.entry = none) (hm : opMode s = 1 ∨ opMode s = 2) : wakeSource bit s =
    { s.setRgBit (ra .pmu Pmu.WAKESTAT) bit true with power.wake := s.power.wake ||| 2 ^ bit } :=
  (if_neg (by rw [h]; decide)).trans (if_pos hm)

theorem wakeSource_awake {bit : Nat} (h : s.power.entry = none) (h1 : opMode s ≠ 1) (h2 : opMode s ≠ 2) :
    wakeSource bit s = s :=
  (if_neg (by rw [h]; decide)).trans (if_neg (not_or_intro h1 h2))

theorem exec_nwake_kept {low : BitVec 16} (h : tb (s.rg (ra .pmu Pmu.WAKECFG)) 31 = false ∨
    low.toNat ≤ fld (s.rg (ra .pmu Pmu.WAKECFG)) 3 0) : exec (.nwake low) s = .next s := by
  refine exec_eq rfl (if_neg fun hk => ?_)
  obtain ⟨hen, hlow⟩ := (Bool.and_eq_true _ _).mp hk
  rcases h with h | h
  · exact absurd hen (ne_true_of_eq_false h)
  · exact absurd (of_decide_eq_true hlow) (by omega)

theorem exec_nwake_wakes {low : BitVec 16} (h : tb (s.rg (ra .pmu Pmu.WAKECFG)) 31 = true)
    (hl : fld (s.rg (ra .pmu Pmu.WAKECFG)) 3 0 < low.toNat) : exec (.nwake low) s = .next (wakeSource 0 s) :=
  exec_eq rfl (if_pos ((Bool.and_eq_true _ _).mpr ⟨h, decide_eq_true hl⟩))

/-- The alarm is armed and enabled, its compare holds, and its clock runs. -/
def alarmDue (s : State) : Prop :=
  s.power.armed = true ∧ tb (s.rg (ra .pmu Pmu.WAKECFG)) 30 = true ∧ ¬ tb (s.rg (ra .pmu Pmu.CLKSTAT)) 30 = true ∧
    reached 48 s.time.slow.toNat s.power.alarm.toNat = true

theorem slowAlarm_due_iff : (s.power.armed && tb (s.rg (ra .pmu Pmu.WAKECFG)) 30 && !tb (s.rg (ra .pmu Pmu.CLKSTAT)) 30
    && reached 48 s.time.slow.toNat s.power.alarm.toNat
    && (s.power.entry.isSome || opMode s = 1 || opMode s = 2)) = true ↔
      alarmDue s ∧ (s.power.entry.isSome = true ∨ opMode s = 1 ∨ opMode s = 2) := by
  simp only [alarmDue, Bool.and_eq_true, Bool.or_eq_true, Bool.not_eq_true', decide_eq_true_eq, Bool.not_eq_true, and_assoc,
    or_assoc]

theorem slowAlarm_wakes (h : alarmDue s) (hm : s.power.entry.isSome = true ∨ opMode s = 1 ∨ opMode s = 2) :
    slowAlarm s = wakeSource 1 { s with power.armed := false } :=
  if_pos (slowAlarm_due_iff.mpr ⟨h, hm⟩)

theorem slowAlarm_kept (h : ¬ alarmDue s ∨ (s.power.entry = none ∧ opMode s ≠ 1 ∧ opMode s ≠ 2)) : slowAlarm s = s := by
  refine if_neg fun hk => ?_
  obtain ⟨hd, hm⟩ := slowAlarm_due_iff.mp hk
  rcases h with h | ⟨he, h1, h2⟩
  · exact h hd
  · rw [he] at hm
    exact absurd hm (by simp [h1, h2])

theorem alarmHiWrite_secure (v : Word) {sec : Bool} (hs : sec = true) : alarmHiWrite v sec s =
    (.ok 0, { plainWrite .pmu 0 Pmu.ALARM_HI v sec s with
      power.alarm := BitVec.ofNat 48
        (fld v 15 0 * 2 ^ 32 + ((plainWrite .pmu 0 Pmu.ALARM_HI v sec s).rg (ra .pmu Pmu.ALARM_LO)).toNat),
      power.armed := true }) := by
  subst hs
  rfl

theorem alarmHiWrite_nonsecure (v : Word) {sec : Bool} (hs : sec = false) :
    alarmHiWrite v sec s = (.ok 0, plainWrite .pmu 0 Pmu.ALARM_HI v sec s) := by
  subst hs
  rfl

theorem sext_small {x : Nat} (h : x < 2 ^ 15) : sext x 16 = x := by
  have : x % 2 ^ 16 = x := Nat.mod_eq_of_lt (by omega)
  rw [sext, this, if_pos h]

theorem sext_below {x c : Nat} (hx : x < 2 ^ 16) (hc : c < 2 ^ 15) (h : x < c ∨ 2 ^ 15 ≤ x) : sext x 16 < c := by
  have : x % 2 ^ 16 = x := Nat.mod_eq_of_lt hx
  rw [sext, this]
  split <;> omega

theorem aonTempWake_not_due {n : Nat} {x : Int} (h : aonDue s n = false) : aonTempWake n x s = s := by
  simp only [aonTempWake, h, Bool.not_false, if_true]

/-- A reading below 135 °C, or outside the sensor's range, wakes nothing. -/
theorem aonTempWake_reads {n : Nat} {x : Int} (h : aonDue s n = true) (hx : x < 2160 ∨ 2800 < x) :
    aonTempWake n x s = aonReading n x s := by
  have cool : (decide (x < 2160) || decide (2800 < x)) = true := by simpa using hx
  simp only [aonTempWake, h, cool, Bool.not_true, Bool.false_eq_true, if_false, if_true]

/-- The wake of a hot device is noted, and its cause for SAFE_HOLD. -/
def aonHot (s : State) : State :=
  ((s.setRgBit (ra .pmu Pmu.WAKESTAT) 3 true).setRgBit (ra .pmu Pmu.SHCAUSE) 1 true).setRgBit (ra .pmu Pmu.SHCAUSE) 9 true

theorem aonTempWake_hot {n : Nat} {x : Int} (h : aonDue s n = true) (h1 : 2160 ≤ x) (h2 : x ≤ 2800) :
    aonTempWake n x s = if opMode s = 2 then enterSafeHold (standbyResume n (aonHot (aonReading n x s)))
      else hibernateReset n (aonHot (aonReading n x s)) := by
  have hot : (decide (x < 2160) || decide (2800 < x)) = false := by simp [h1, h2]
  simp only [aonTempWake, h, hot, Bool.not_true, Bool.false_eq_true, if_false]
  rfl

theorem standbyWake_wakes {n : Nat} (h : opMode s = 2) (hw : s.power.wake ≠ 0) :
    standbyWake n s = setMode 4 (standbyResume n s) := if_pos ⟨h, hw⟩

theorem standbyWake_kept {n : Nat} (h : opMode s ≠ 2 ∨ s.power.wake = 0) : standbyWake n s = s :=
  if_neg fun ⟨h2, hw⟩ => h.elim (· h2) hw

theorem hibernateWake_wakes {n : Nat} (h : opMode s = 1) (hw : s.power.wake ≠ 0) :
    hibernateWake n s = hibernateReset n s := if_pos ⟨h, hw⟩

theorem hibernateWake_kept {n : Nat} (h : opMode s ≠ 1 ∨ s.power.wake = 0) : hibernateWake n s = s :=
  if_neg fun ⟨h1, hw⟩ => h.elim (· h1) hw

end

/-! ### The statement -/

/-- Settles O49: each clause is the lemma about that outcome of the request, the entry or the wake. -/
theorem modeRequests : Obligations.ModeRequests := by
  unfold Obligations.ModeRequests
  intro s m v n w t low temp a md ws sh cs busy slowBad asked sleeps woken due asleep tval tok reads seen hot wd reset
  have run {u : State} (h : pmuRequest 4 s = u) : Writes (.reqRun m) s m a u := writes_request rfl rfl rfl h
  have standby {u : State} (h : pmuRequest 2 s = u) : Writes (.reqStandby m) s m a u := writes_request rfl rfl rfl h
  have hibernate {u : State} (h : pmuRequest 1 s = u) : Writes (.reqHibernate m) s m a u := writes_request rfl rfl rfl h
  have hold {u : State} (h : pmuRequest 6 s = u) : Writes (.reqSafeHold m) s m a u := writes_request rfl rfl rfl h
  have read : aonReading n tval s = seen := rfl
  refine ⟨fun h => ⟨run (pmuRequest_busy h), standby (pmuRequest_busy h), hibernate (pmuRequest_busy h), hold (pmuRequest_busy h)⟩,
    fun hb => ⟨fun h3 h6 => run (pmuRequest_run_refused hb h3 h6), fun hm hc => run (pmuRequest_run_held hb hm hc),
      fun hm hc => run (pmuRequest_run hb (.inl hm) hc),
      fun hm hc => run ((pmuRequest_run hb (.inr hm) hc).trans (by rw [enterRun_safeHold hm])),
      fun hm => hold (pmuRequest_safeHold hb hm),
      fun h4 h5 => ⟨hold (pmuRequest_safeHold_refused hb h4 h5),
        standby (pmuRequest_sleep_refused hb (.inr rfl) fun hm => ?standby)⟩,
      fun h4 h5 h6 => hibernate (pmuRequest_sleep_refused hb (.inl rfl) fun hm => ?hibernate),
      fun hm hs => standby (pmuRequest_sleep_slowBad hb (.inr rfl) (hm.imp_right .inl) hs),
      fun hm hs => standby (pmuRequest_sleep_asked hb (.inr rfl) (hm.imp_right .inl) hs),
      fun hm hs => hibernate (pmuRequest_sleep_slowBad hb (.inl rfl) (hm.imp_right (.imp_right fun x => ⟨rfl, x⟩)) hs),
      fun hm hs => hibernate (pmuRequest_sleep_asked hb (.inl rfl) (hm.imp_right (.imp_right fun x => ⟨rfl, x⟩)) hs)⟩,
    fun h => exec_eq rfl (standbyEntry_kept h),
    fun h hc he => exec_eq rfl ((standbyEntry_enters h hc he).trans (if_pos rfl)),
    fun h hc he => exec_eq rfl ((standbyEntry_enters h hc he).trans (if_neg (by decide))),
    fun h => exec_eq rfl (entryTimeout_none h), fun h hr => exec_eq rfl (entryTimeout_over h hr),
    fun h hr => exec_eq rfl (entryTimeout_early h hr), fun h => exec_nwake_kept h,
    fun h hl => ⟨fun he => exec_eq (exec_nwake_wakes h hl) (wakeSource_ends_entry he),
      fun he hm => exec_eq (exec_nwake_wakes h hl) (wakeSource_wakes he hm),
      fun he h1 h2 => exec_eq (exec_nwake_wakes h hl) (wakeSource_awake he h1 h2)⟩,
    fun hd he => exec_eq rfl ((slowAlarm_wakes hd (.inl he)).trans (wakeSource_ends_entry he)),
    fun hd he hm => exec_eq rfl ((slowAlarm_wakes hd (.inr hm)).trans (wakeSource_wakes he hm)),
    fun h => exec_eq rfl (slowAlarm_kept h), fun hs => writes_of _ rfl (alarmHiWrite_secure v hs),
    fun hs => writes_of _ rfl (alarmHiWrite_nonsecure v hs), fun hd h1 h2 => ?hot, fun hd h => ?reads,
    fun hd => exec_eq rfl (aonTempWake_not_due hd), fun hm hw => exec_eq rfl (standbyWake_wakes hm hw),
    fun h => exec_eq rfl (standbyWake_kept h), fun hm hw => exec_eq rfl (hibernateWake_wakes hm hw),
    fun h => exec_eq rfl (hibernateWake_kept h)⟩
  case standby => exact hm.elim h4 (·.elim h5 fun x => absurd x.1 (by decide))
  case hibernate => exact hm.elim h4 (·.elim h5 fun x => h6 x.2)
  case hot =>
    have value : tval = temp.toNat := sext_small (by omega)
    have hotter := aonTempWake_hot (x := tval) hd (by omega) (by omega)
    refine ⟨fun hm => exec_eq rfl (hotter.trans (if_pos hm)), fun hm => exec_eq rfl (hotter.trans (if_neg fun h => ?_))⟩
    exact absurd (hm.symm.trans h) (by decide)
  case reads =>
    refine exec_eq rfl (aonTempWake_reads hd ?_)
    rcases Nat.lt_or_ge temp.toNat (2 ^ 15) with hx | hx
    · have value : tval = temp.toNat := sext_small hx
      omega
    · exact .inl (sext_below temp.isLt (by decide) (.inr hx))

end Sys2Proof.Machine
end

section
/-! BOOST (R436–R438), its thermal budget (R435), the temperatures (R439–R441), the reference and slow clocks (R431) and the
clock and trim steps of the islands (R432, R433, R452), one lemma for each outcome; then the statement about them. -/

namespace Sys2Proof.Machine

/-! ### BOOST (R436–R438) -/

section
variable {s : State} {v : Word} {sec : Bool}

/-- The write of `BOOST` as the register takes it. -/
abbrev boostPut (v : Word) (sec : Bool) (s : State) : State := plainWrite .pmu 0 Pmu.BOOST v sec s

theorem boostWrite_clears (h : tb ((boostPut v sec s).rg (ra .pmu Pmu.BOOST)) 31 = false) :
    boostWrite v sec s = (.ok 0, boostFallback 5 (boostPut v sec s)) :=
  congrArg _ (if_neg (ne_true_of_eq_false h))

theorem boostWrite_again (hw : tb (s.rg (ra .pmu Pmu.BOOST)) 31 = true)
    (h : tb ((boostPut v sec s).rg (ra .pmu Pmu.BOOST)) 31 = true) : boostWrite v sec s = (.ok 0, boostPut v sec s) :=
  congrArg _ ((if_pos h).trans (if_pos hw))

theorem boostWrite_asks (hw : ¬ tb (s.rg (ra .pmu Pmu.BOOST)) 31 = true)
    (h : tb ((boostPut v sec s).rg (ra .pmu Pmu.BOOST)) 31 = true) :
    boostWrite v sec s = (.ok 0, boostCheck (boostPut v sec s)) :=
  congrArg _ ((if_pos h).trans (if_neg hw))

theorem boostCheck_refuses (h : tb (s.rg (ra .pmu Pmu.BOOST)) 31 = true) (hm : opMode s = 4) (hc : boostConds s = false) :
    boostCheck s = s.setRgBit (ra .pmu Pmu.BOOST) 4 true := if_pos (by rw [h, hm, hc]; rfl)

theorem boostCheck_kept (h : opMode s ≠ 4 ∨ boostConds s = true) : boostCheck s = s := by
  refine if_neg fun hk => ?_
  simp only [Bool.and_eq_true, decide_eq_true_eq, Bool.not_eq_true'] at hk
  obtain ⟨⟨-, hm⟩, hc⟩ := hk
  exact h.elim (· hm) (ne_true_of_eq_false hc)

theorem boostEntry_enters (h : tb (s.rg (ra .pmu Pmu.BOOST)) 31 = true) (hm : opMode s = 4) (he : s.power.entry = none)
    (hc : boostConds s = true) :
    boostEntry s = raiseEvent 0x4A2 (setMode 5 (s.setRgBit (ra .pmu Pmu.BOOST) 30 true)) :=
  if_pos (by rw [h, hm, he, hc]; rfl)

theorem boostEntry_kept (h : ¬ tb (s.rg (ra .pmu Pmu.BOOST)) 31 = true ∨ opMode s ≠ 4 ∨ s.power.entry.isSome = true ∨
    boostConds s = false) : boostEntry s = s := by
  refine if_neg fun hk => ?_
  simp only [Bool.and_eq_true, decide_eq_true_eq, Option.isNone_iff_eq_none] at hk
  obtain ⟨⟨⟨ha, hm⟩, he⟩, hc⟩ := hk
  rcases h with h | h | h | h
  · exact h ha
  · exact h hm
  · rw [he] at h
    exact absurd h (by decide)
  · exact ne_true_of_eq_false h hc

end

/-! ### The budget (R435) and the rail (R438) -/

section
variable {s : State} {t : Int} {ma : Nat}

/-- A millisecond more has passed. -/
abbrev msCounted (s : State) : State := { s with power.ms := s.power.ms + 1, power.budgetAt := s.time.selvedge }

/-- The temperature from which the budget drains. -/
def coolLimit (s : State) : Int := min 114 (fld (s.rg (ra .thm Thm.CFG)) 15 8)

theorem budgetDue_iff : budgetDue s = true ↔
    s.time.run = true ∧ reached 64 s.time.selvedge.toNat (s.power.budgetAt + 800000).toNat = true :=
  Bool.and_eq_true_iff

theorem exec_budgetUpdate_early (h : ¬ budgetDue s = true) : exec .budgetUpdate s = .next s :=
  exec_eq rfl (if_neg h)

theorem exec_budgetUpdate_due (h : budgetDue s = true) : exec .budgetUpdate s = .next (budgetUpdate s) :=
  exec_eq rfl (if_pos h)

theorem budgetUpdate_blind (h : (validTemps s).max? = none) : budgetUpdate s = msCounted s := by
  simp only [budgetUpdate, h]

section
variable (h : (validTemps s).max? = some t)
include h

theorem budgetUpdate_some : budgetUpdate s =
    if opMode s = 5 && coolLimit s * 16 ≤ t then
      if thmB s - 1 = 0 then boostFallback 1 ((msCounted s).setRgFld (ra .thm Thm.BUDGET) 15 0 (thmB s - 1))
      else (msCounted s).setRgFld (ra .thm Thm.BUDGET) 15 0 (thmB s - 1)
    else if opMode s ≠ 5 && t < (coolLimit s - 5) * 16 && (s.power.ms + 1) % 4 = 0 then
      (msCounted s).setRgFld (ra .thm Thm.BUDGET) 15 0 (min (thmB s + 1) (thmBmax s))
    else msCounted s := by
  simp only [budgetUpdate, h, coolLimit]
  rfl

theorem budgetUpdate_drains (hm : opMode s = 5) (ht : coolLimit s * 16 ≤ t) (hb : 1 < thmB s) :
    budgetUpdate s = (msCounted s).setRgFld (ra .thm Thm.BUDGET) 15 0 (thmB s - 1) :=
  (budgetUpdate_some h).trans ((if_pos (by simp [hm, ht])).trans (if_neg (by omega)))

theorem budgetUpdate_empties (hm : opMode s = 5) (ht : coolLimit s * 16 ≤ t) (hb : thmB s ≤ 1) :
    budgetUpdate s = boostFallback 1 ((msCounted s).setRgFld (ra .thm Thm.BUDGET) 15 0 0) := by
  have none : thmB s - 1 = 0 := by omega
  exact (budgetUpdate_some h).trans ((if_pos (by simp [hm, ht])).trans ((if_pos none).trans (by rw [none])))

theorem budgetUpdate_boost_cool (hm : opMode s = 5) (ht : t < coolLimit s * 16) : budgetUpdate s = msCounted s :=
  (budgetUpdate_some h).trans ((if_neg (by simp [ht])).trans (if_neg (by simp [hm])))

theorem budgetUpdate_refills (hm : opMode s ≠ 5) (ht : t < (coolLimit s - 5) * 16) (hn : (s.power.ms + 1) % 4 = 0) :
    budgetUpdate s = (msCounted s).setRgFld (ra .thm Thm.BUDGET) 15 0 (min (thmB s + 1) (thmBmax s)) :=
  (budgetUpdate_some h).trans ((if_neg (by simp [hm])).trans (if_pos (by simp [hm, ht, hn])))

theorem budgetUpdate_waits (hm : opMode s ≠ 5) (hn : ¬ t < (coolLimit s - 5) * 16 ∨ (s.power.ms + 1) % 4 ≠ 0) :
    budgetUpdate s = msCounted s := by
  refine (budgetUpdate_some h).trans ((if_neg (by simp [hm])).trans (if_neg fun hk => ?_))
  simp only [Bool.and_eq_true, decide_eq_true_eq] at hk
  obtain ⟨⟨-, ht⟩, hms⟩ := hk
  exact hn.elim (· ht) (· hms)

end

theorem railAverage_low (h : ma < 850) : railAverage ma s = s.setRg (ra .thm Thm.RAIL) (w32 (ma % 65536)) := if_pos h

/-- The rail's average and its flag. -/
abbrev railHigh (ma : Nat) (s : State) : State :=
  (s.setRg (ra .thm Thm.RAIL) (w32 (ma % 65536))).setRgBit (ra .thm Thm.STAT) 4 true

theorem opMode_railHigh : opMode (railHigh ma s) = opMode s :=
  congrArg (fld · 2 0) ((setRg_rg_ne _ _ _ (by decide)).trans (setRg_rg_ne _ _ _ (by decide)))

theorem railAverage_high (h : 850 ≤ ma) (hm : opMode s ≠ 5) : railAverage ma s = railHigh ma s :=
  (if_neg (by omega)).trans (if_neg hm)

theorem railAverage_ends_boost (h : 850 ≤ ma) (hm : opMode s = 5) : railAverage ma s =
    { setMode 4 (boostEnd 3 (railHigh ma s)) with power.railAt := some s.time.selvedge } := by
  have fallback : boostFallback 3 (railHigh ma s) = setMode 4 (boostEnd 3 (railHigh ma s)) :=
    if_pos (opMode_railHigh.trans hm)
  rw [← fallback]
  exact (if_neg (by omega)).trans (if_pos hm)

end

/-! ### Temperatures (R429, R439–R441) -/

section
variable {s : State} {ts : List Int} {k : Nat}

/-- Some valid reading is at or above `c` °C. -/
def hotAt (ts : List Int) (c : Int) : Bool := (List.range 12).any (fun n => tempValid ts n && c * 16 ≤ ts.getD n 0)

theorem hotAt_true {c : Int} (h : ∃ n < 12, tempValid ts n = true ∧ c * 16 ≤ ts.getD n 0) : hotAt ts c = true := by
  obtain ⟨n, hn, hv, hc⟩ := h
  exact List.any_eq_true.mpr ⟨n, List.mem_range.mpr hn, (Bool.and_eq_true _ _).mpr ⟨hv, decide_eq_true hc⟩⟩

theorem hotAt_false {c : Int} (h : ∀ n < 12, tempValid ts n = true → ts.getD n 0 < c * 16) : hotAt ts c = false := by
  refine List.any_eq_false.mpr fun n hn hk => ?_
  obtain ⟨hv, hc⟩ := (Bool.and_eq_true _ _).mp hk
  exact absurd (of_decide_eq_true hc) (not_le.mpr (h n (List.mem_range.mp hn) hv))

theorem tempMeasure_eq : tempMeasure ts s =
    if inReset s then { s with power.tempAt := s.time.selvedge, power.held := s.power.held && hotAt ts 140 }
    else if hotAt ts 150 then
      { resetBy [5] (tempThresholds ts { s with power.tempAt := s.time.selvedge }) with power.held := true }
    else tempThresholds ts { s with power.tempAt := s.time.selvedge } := rfl

/-- The first of the highest of the first `n` readings. -/
def hottest (ts : List Int) (n : Nat) : Option Nat :=
  (List.range n).foldl (fun b n => match b with
    | none => some n | some k => if ts.getD k 0 < ts.getD n 0 then some n else some k) none

/-- Number `k` is the first of the highest of the first `n` readings. -/
def firstHighest (ts : List Int) (n k : Nat) : Prop :=
  k < n ∧ (∀ j < k, ts.getD j 0 < ts.getD k 0) ∧ ∀ j < n, k < j → ts.getD j 0 ≤ ts.getD k 0

theorem firstHighest_unique {n j : Nat} (hj : firstHighest ts n j) (hk : firstHighest ts n k) : j = k := by
  obtain ⟨hj1, hj2, hj3⟩ := hj
  obtain ⟨hk1, hk2, hk3⟩ := hk
  rcases Nat.lt_trichotomy j k with h | h | h
  · exact absurd (hk2 j h) (not_lt.mpr (hj3 k hk1 h))
  · exact h
  · exact absurd (hj2 k h) (not_lt.mpr (hk3 j hj1 h))

theorem hottest_firstHighest (n : Nat) : ∃ k, hottest ts (n + 1) = some k ∧ firstHighest ts (n + 1) k := by
  induction n with
  | zero => exact ⟨0, rfl, by omega, by omega, by omega⟩
  | succ n ih =>
    obtain ⟨k, hk, hn, hlow, hhigh⟩ := ih
    have next : hottest ts (n + 1 + 1) = if ts.getD k 0 < ts.getD (n + 1) 0 then some (n + 1) else some k := by
      rw [hottest, List.range_succ, List.foldl_append]
      rw [hottest] at hk
      rw [hk]
      rfl
    by_cases h : ts.getD k 0 < ts.getD (n + 1) 0
    · refine ⟨n + 1, next.trans (if_pos h), by omega, fun j hj => ?_, by omega⟩
      rcases Nat.lt_trichotomy j k with hjk | rfl | hjk
      · exact (hlow j hjk).trans h
      · exact h
      · exact (hhigh j hj hjk).trans_lt h
    · refine ⟨k, next.trans (if_neg h), by omega, hlow, fun j hj hkj => ?_⟩
      rcases Nat.lt_succ_iff_lt_or_eq.mp hj with hj | rfl
      · exact hhigh j hj hkj
      · exact not_lt.mp h

theorem hottest_eq (h : firstHighest ts 12 k) : hottest ts 12 = some k := by
  obtain ⟨j, hj, hf⟩ := hottest_firstHighest (ts := ts) 11
  rw [hj, firstHighest_unique hf h]

/-- Every sensor reads a valid temperature below 115 °C and below the warning threshold. -/
def allCool (ts : List Int) (s : State) : Prop :=
  ∀ n < 12, tempValid ts n = true ∧ ts.getD n 0 < 115 * 16 ∧ ts.getD n 0 < fld (s.rg (ra .thm Thm.CFG)) 7 0 * 16

theorem allCool.valid (h : allCool ts s) : (List.range 12).filter (tempValid ts) = List.range 12 :=
  List.filter_eq_self.mpr fun n hn => (h n (List.mem_range.mp hn)).1

theorem allCool.notHot (h : allCool ts s) {c : Int} (hc : 115 ≤ c ∨ (fld (s.rg (ra .thm Thm.CFG)) 7 0 : Int) ≤ c) :
    (List.range 12).any (fun n => decide (c * 16 ≤ ts.getD n 0)) = false :=
  List.any_eq_false.mpr fun n hn hk => by
    obtain ⟨-, h115, hcfg⟩ := h n (List.mem_range.mp hn)
    have hot := of_decide_eq_true hk
    omega

/-- The valid readings as the registers show them. -/
abbrev tempsShown (ts : List Int) (s : State) : State :=
  (List.range 12).foldl (fun u n => u.setRg (ra .thm (Thm.TEMP n)) (w32 (2 ^ 31 + wrap (ts.getD n 0) 16))) s

theorem tempsShown_eq (h : allCool ts s) (u : State) : (List.range 12).foldl (fun s n => s.setRg (ra .thm (Thm.TEMP n))
    (w32 (b2n (tempValid ts n) * 2 ^ 31 + b2n (!tempValid ts n) * 2 ^ 30 + wrap (ts.getD n 0) 16))) u = tempsShown ts u :=
  List.foldl_ext _ _ _ fun u n hn => by
    rw [(h n (List.mem_range.mp hn)).1]
    simp

/-- With every reading valid and cool, the readings and the highest are shown and no cause for SAFE_HOLD is left. -/
theorem tempThresholds_cool (h : allCool ts s) (hk : firstHighest ts 12 k) : tempThresholds ts s =
    (((tempsShown ts s).setRg (ra .thm Thm.MAX) (w32 (k * 65536 + wrap (ts.getD k 0) 16))).setRgBit
      (ra .pmu Pmu.SHCAUSE) 9 false).setRgBit (ra .pmu Pmu.SHCAUSE) 13 false := by
  have best := hottest_eq hk
  have warn := h.notHot (.inr le_rfl)
  have h115 := h.notHot (.inl le_rfl)
  have h125 := h.notHot (c := 125) (.inl (by decide))
  have h135 := h.notHot (c := 135) (.inl (by decide))
  rw [hottest] at best
  simp only [tempThresholds, tempsShown_eq h, h.valid, List.length_range, warn, h115, h125, h135]
  erw [best]
  rfl

end

section
variable {s : State} {ts : List Int} {k : Nat} {c : Bool}

theorem exec_tempMeasure_early {ts : Vector (BitVec 16) 12} (h : ¬ tempDue s = true) : exec (.tempMeasure ts) s = .next s :=
  exec_eq rfl (if_neg h)

theorem exec_tempMeasure_due {ts : Vector (BitVec 16) 12} (h : tempDue s = true) :
    exec (.tempMeasure ts) s = .next (tempMeasure (ts.toList.map (fun t => sext t.toNat 16)) s) :=
  exec_eq rfl (if_pos h)

theorem tempDue_iff : tempDue s = true ↔
    s.time.run = true ∧ opMode s ≠ 0 ∧ reached 64 s.time.selvedge.toNat (s.power.tempAt + 80000).toNat = true := by
  simp [tempDue, and_assoc]

theorem tempMeasure_held (hr : inReset s = true) (h : hotAt ts 140 = true) :
    tempMeasure ts s = { s with power.tempAt := s.time.selvedge } :=
  (tempMeasure_eq.trans (if_pos hr)).trans (by rw [h, Bool.and_true])

theorem tempMeasure_released (hr : inReset s = true) (h : hotAt ts 140 = false) :
    tempMeasure ts s = { s with power.tempAt := s.time.selvedge, power.held := false } :=
  (tempMeasure_eq.trans (if_pos hr)).trans (by rw [h, Bool.and_false])

theorem tempMeasure_resets (hr : inReset s = false) (h : hotAt ts 150 = true) : tempMeasure ts s =
    { resetBy [5] (tempThresholds ts { s with power.tempAt := s.time.selvedge }) with power.held := true } :=
  tempMeasure_eq.trans ((if_neg (ne_true_of_eq_false hr)).trans (if_pos h))

theorem tempMeasure_cool (hr : inReset s = false) (h : allCool ts s) :
    tempMeasure ts s = tempThresholds ts { s with power.tempAt := s.time.selvedge } := by
  have cold : hotAt ts 150 = false := hotAt_false fun n hn _ => by
    obtain ⟨-, h115, -⟩ := h n hn
    omega
  exact tempMeasure_eq.trans ((if_neg (ne_true_of_eq_false hr)).trans (if_neg (ne_true_of_eq_false cold)))

end

/-! ### The reference (R431) -/

section
variable {s : State} {stop ppm : Nat}

theorem exec_xtalFail_off (h : s.time.run = false) : exec (.xtalFail stop ppm) s = .next s :=
  exec_eq rfl (if_neg (by simp [h]))

theorem exec_xtalFail_steady (h : stop < 3200) (hp : ppm ≤ 10000) : exec (.xtalFail stop ppm) s = .next s :=
  exec_eq rfl (if_neg (by simp [h, hp]))

theorem exec_xtalFail_fails (hr : s.time.run = true) (h : 3200 ≤ stop ∨ 10000 < ppm) : exec (.xtalFail stop ppm) s =
    .next (safeHoldCause 3 (((s.setRgBit (ra .pmu Pmu.CLKSTAT) 31 true).setRgBit (ra .pmu Pmu.CLKSTAT) 29 true).setRgBit
      (ra .pmu Pmu.CLKSTAT) 8 true)) :=
  exec_eq rfl (if_pos (by simp [hr, h]))

end

/-! ### Clock and trim steps (R432, R433, R452) -/

section
variable {s : State} {i n : Nat} {at_ : Option DWord}

/-- The time that began at `at_` has reached `n` ticks. -/
def timeOver (s : State) (at_ : Option DWord) (n : Nat) : Prop :=
  ∃ t, at_ = some t ∧ reached 64 s.time.selvedge.toNat (t + w64 n).toNat = true

theorem stepOver_iff : stepOver s at_ n = true ↔ timeOver s at_ n := by
  cases at_ with
  | none => exact ⟨fun h => absurd h Bool.false_ne_true, fun ⟨_, h, _⟩ => nomatch h⟩
  | some t => exact ⟨fun h => ⟨t, rfl, h⟩, fun ⟨_, h, hr⟩ => by cases h; exact hr⟩

theorem clockDue_iff : clockDue s i = true ↔
    islState s i ≠ 5 ∧ timeOver s (Tbl.get (fun _ => none) s.power.clkAt i) 4000 := by
  rw [← stepOver_iff, clockDue, Bool.and_eq_true, decide_eq_true_eq]

theorem trimDue_iff : trimDue s i = true ↔
    islState s i ≠ 5 ∧ timeOver s (Tbl.get (fun _ => none) s.power.trimAt i) 8000 := by
  rw [← stepOver_iff, trimDue, Bool.and_eq_true, decide_eq_true_eq]

theorem exec_islClockStep_kept {i : Fin 8} (h : ¬ clockDue s i = true) : exec (.islClockStep i) s = .next s :=
  exec_eq rfl (if_neg h)

theorem exec_islClockStep_due {i : Fin 8} (h : clockDue s i = true) : exec (.islClockStep i) s = .next (clockStep i s) :=
  exec_eq rfl (if_pos h)

theorem exec_islTrimStep_kept {i : Fin 8} (h : ¬ trimDue s i = true) : exec (.islTrimStep i) s = .next s :=
  exec_eq rfl (if_neg h)

theorem exec_islTrimStep_due {i : Fin 8} (h : trimDue s i = true) : exec (.islTrimStep i) s = .next (trimStep i s) :=
  exec_eq rfl (if_pos h)

/-- The clock's step is timed from now. -/
abbrev clkTimed (i : Nat) (s : State) : State :=
  { s with power.clkAt := Tbl.set (fun _ => none) s.power.clkAt i (some s.time.selvedge) }

theorem clockStep_down (h : clkTarget s i < islClock s i) : clockStep i s = setClock i (islClock s i - 25) (clkTimed i s) :=
  if_pos h

theorem clockStep_up (h : islClock s i < clkTarget s i) (ht : trimFor s i (islClock s i + 25) ≤ islTrim s i) :
    clockStep i s = setClock i (islClock s i + 25) (clkTimed i s) :=
  (if_neg (by omega)).trans (if_pos (by simp [h, ht]))

theorem clockStep_waits (h : islClock s i < clkTarget s i) (ht : islTrim s i < trimFor s i (islClock s i + 25)) :
    clockStep i s = s :=
  (if_neg (by omega)).trans (if_neg (by simp [ht]))

theorem clockStep_there (h : islClock s i = clkTarget s i) : clockStep i s = s :=
  (if_neg (by omega)).trans (if_neg (by simp [h]))

/-- The trim's step is timed from now. -/
abbrev trimTimed (i : Nat) (s : State) : State :=
  { s with power.trimAt := Tbl.set (fun _ => none) s.power.trimAt i (some s.time.selvedge) }

theorem trimStep_up (h : islTrim s i < trimWanted s i) :
    trimStep i s = (trimTimed i s).setRg (ri .isl i Isl.TRIM) (w32 (islTrim s i + 1)) := if_pos h

theorem trimStep_down (h : trimWanted s i < islTrim s i) :
    trimStep i s = (trimTimed i s).setRg (ri .isl i Isl.TRIM) (w32 (islTrim s i - 1)) :=
  (if_neg (by omega)).trans (if_pos h)

theorem trimStep_there (h : islTrim s i = trimWanted s i) : trimStep i s = s :=
  (if_neg (by omega)).trans (if_neg (by omega))

end

/-! ### The statement -/

/-- Settles O50: each clause is the lemma about that outcome. -/
theorem powerAndClocks : Obligations.PowerAndClocks := by
  unfold Obligations.PowerAndClocks
  intro s m v ma i ts t k stop ppm a md cs p asks past timed clocking trimming clocked trimmed counted cool bud rail high f g
    temps temp sh need ends
  have budget {u : State} (hr : s.time.run = true) (hp : past (s.power.budgetAt + 800000)) (h : budgetUpdate s = u) :
      exec .budgetUpdate s = .next u := exec_eq (exec_budgetUpdate_due (budgetDue_iff.mpr ⟨hr, hp⟩)) h
  have railed {u : State} (hr : s.time.run = true) (h : railAverage ma.toNat s = u) : exec (.railAverage ma) s = .next u :=
    exec_eq rfl ((if_pos hr).trans h)
  have measured {u : State} (hr : s.time.run = true) (hm : md ≠ 0) (hp : past (s.power.tempAt + 80000))
      (h : tempMeasure temps s = u) : exec (.tempMeasure ts) s = .next u :=
    exec_eq (exec_tempMeasure_due (tempDue_iff.mpr ⟨hr, hm, hp⟩)) h
  have clock {u : State} (hi : islState s i ≠ 5) (hc : clocking) (h : clockStep i s = u) :
      exec (.islClockStep i) s = .next u := exec_eq (exec_islClockStep_due (clockDue_iff.mpr ⟨hi, hc⟩)) h
  have trim {u : State} (hi : islState s i ≠ 5) (ht : trimming) (h : trimStep i s = u) :
      exec (.islTrimStep i) s = .next u := exec_eq (exec_islTrimStep_due (trimDue_iff.mpr ⟨hi, ht⟩)) h
  refine ⟨fun h => writes_of _ rfl (boostWrite_clears h), fun ha h => writes_of _ rfl (boostWrite_again ha h),
    fun ha h hm hc => writes_of _ rfl ((boostWrite_asks ha h).trans (congrArg _ (boostCheck_refuses h hm hc))),
    fun ha h hk => writes_of _ rfl ((boostWrite_asks ha h).trans (congrArg _ (boostCheck_kept hk))),
    fun ha hm he hc => exec_eq rfl (boostEntry_enters ha hm he hc), fun h => exec_eq rfl (boostEntry_kept h),
    fun hr => ⟨exec_budgetUpdate_early fun hd => ne_true_of_eq_false hr (budgetDue_iff.mp hd).1,
      exec_eq rfl (if_neg (ne_true_of_eq_false hr)), exec_tempMeasure_early fun hd => ne_true_of_eq_false hr (tempDue_iff.mp hd).1,
      exec_xtalFail_off hr⟩,
    fun hp => exec_budgetUpdate_early fun hd => hp (budgetDue_iff.mp hd).2,
    fun hr => ⟨fun hp hn => budget hr hp (budgetUpdate_blind hn),
      fun hp hs => ⟨fun hm ht hb => budget hr hp (budgetUpdate_drains hs hm ht hb),
        fun hm ht hb => budget hr hp (budgetUpdate_empties hs hm ht hb),
        fun hm ht => budget hr hp (budgetUpdate_boost_cool hs hm ht),
        fun hm ht hn => budget hr hp (budgetUpdate_refills hs hm ht hn),
        fun hm hn => budget hr hp (budgetUpdate_waits hs hm hn)⟩,
      fun h => railed hr (railAverage_low h), fun h hm => railed hr (railAverage_high h hm),
      fun h hm => railed hr (railAverage_ends_boost h hm), exec_xtalFail_fails hr, exec_xtalFail_steady,
      fun h => exec_tempMeasure_early fun hd => ?early, fun hm hp => measured hr hm hp rfl,
      fun hm hp hi => ⟨fun h => measured hr hm hp (tempMeasure_held hi (hotAt_true h)),
        fun h => measured hr hm hp (tempMeasure_released hi (hotAt_false h))⟩,
      fun hm hp hi h => measured hr hm hp (tempMeasure_resets hi (hotAt_true h)),
      fun hm hp hi hk hcool hlow hhigh => measured hr hm hp ((tempMeasure_cool hi hcool).trans
        (tempThresholds_cool hcool ⟨hk, hlow, hhigh⟩))⟩,
    exec_eq rfl rfl, fun h => exec_eq rfl (if_pos h), fun h => exec_eq rfl (if_neg (by omega)),
    fun h => exec_islClockStep_kept fun hd => h (clockDue_iff.mp hd).2,
    fun h => exec_islTrimStep_kept fun hd => h (trimDue_iff.mp hd).2,
    fun h => ⟨exec_islClockStep_kept fun hd => (clockDue_iff.mp hd).1 h,
      exec_islTrimStep_kept fun hd => (trimDue_iff.mp hd).1 h⟩,
    fun hi hc ht => ⟨fun h => clock hi hc (clockStep_down h), fun h hn => clock hi hc (clockStep_up h hn),
      fun h hn => clock hi hc (clockStep_waits h hn), fun h => clock hi hc (clockStep_there h),
      fun h => trim hi ht (trimStep_up h), fun h => trim hi ht (trimStep_down h), fun h => trim hi ht (trimStep_there h)⟩⟩
  case early =>
    obtain ⟨-, hm, hp⟩ := tempDue_iff.mp hd
    exact h.elim hm (· hp)

end Sys2Proof.Machine
end

section
/-! The rows of the wear ledger (R448–R450), the test of an island from its choice to its release (R458–R461), the test of an
application core (R462, R463) and the end of the cause `FAULT` (R467), one lemma for each outcome; then the statement about
them. -/

namespace Sys2Proof.Machine

/-! ### Wear ledger (R448–R450) -/

section
variable {s : State} {ms : List Int}

theorem marginDue_iff : marginDue s = true ↔
    s.time.run = true ∧ reached 64 s.time.selvedge.toNat (s.test.marginAt + 80000000).toNat = true :=
  Bool.and_eq_true_iff

theorem marginMeasure_due (h : marginDue s = true) : marginMeasure ms s =
    (List.range 11).foldl (fun s u => marginUnit u (ms.getD u 0) s) { s with test.marginAt := s.time.selvedge } := if_pos h

theorem marginMeasure_again (hr : s.time.run = true) (h : ¬ marginDue s = true) :
    marginMeasure ms s = (List.range 11).foldl (fun s u => marginAgain u (ms.getD u 0) s) s :=
  (if_neg h).trans (if_pos hr)

theorem marginMeasure_off (hr : s.time.run = false) : marginMeasure ms s = s :=
  (if_neg fun hd => ne_true_of_eq_false hr (marginDue_iff.mp hd).1).trans (if_neg (ne_true_of_eq_false hr))

/-- A margin of the list, as the ledger takes it. -/
theorem getD_map_sext (l : List (BitVec 16)) (k : Nat) :
    (l.map (fun m => sext m.toNat 16)).getD k 0 = sext (l.getD k 0).toNat 16 :=
  List.getD_map l 0 (n := k) fun m => sext m.toNat 16

theorem projectionDue_iff : projectionDue s = true ↔
    s.time.run = true ∧ reached 64 s.time.selvedge.toNat (s.test.projAt + 48000000000).toNat = true :=
  Bool.and_eq_true_iff

theorem exec_projectionUpdate_due (h : projectionDue s = true) : exec .projectionUpdate s = .next (projectAll s) :=
  exec_eq rfl (if_pos h)

theorem exec_projectionUpdate_early (h : ¬ projectionDue s = true) : exec .projectionUpdate s = .next s :=
  exec_eq rfl (if_neg h)

theorem stressDue_iff : stressDue s = true ↔ s.time.run = true ∧ 800000000 ≤ s.test.second := by
  rw [stressDue, Bool.and_eq_true, decide_eq_true_eq]

theorem stressSecond_early (h : ¬ stressDue s = true) : stressSecond s = s := if_pos (by simp [h])

theorem stressSecond_due (h : stressDue s = true) : stressSecond s = (List.range 8).foldl (fun u k => testSecond k u)
    (bumpN .age 0 Age.POWERED 1 ((List.range 11).foldl (fun u k => bumpN .age 0 (Age.U_STRESS k) (stressWeight u k) u)
      { s with test.second := s.test.second - 800000000 })) :=
  if_neg (by simp [h])

end

/-! ### The choice of an island (R458) -/

section
variable {s s1 : State} {i : Nat} {is : List Nat}

/-- An island has been chosen, or none could be, at the present time. -/
abbrev selectedNow (s : State) : State := { s with test.selectAt := s.time.selvedge }

theorem selectDue_iff : selectDue s = true ↔ 4 ≤ opMode s ∧ opMode s ≤ 6 ∧ reached 64 s.time.selvedge.toNat
    (s.test.selectAt + w64 (max 1 (fld (s.rg (ra .stc Stc.CFG)) 7 0) * 800000000)).toNat = true := by
  rw [selectDue, Bool.and_eq_true, Bool.and_eq_true, decide_eq_true_eq, decide_eq_true_eq, and_assoc]

theorem islandTestSelect_early (h : ¬ selectDue s = true) : islandTestSelect s = s := if_neg h

theorem islandTestSelect_due (h : selectDue s = true) :
    islandTestSelect s = tryIslands (testOrder (selectedNow s)) (selectedNow s) := if_pos h

/-- An island that cannot be emptied is deferred, and the next one tried. -/
theorem tryIslands_defers (ht : testAt s = none) (h : islState s i ≠ 0 ∨ evacuate i s = none) :
    tryIslands (i :: is) s = tryIslands is (s.setRgBit (ra .stc (Stc.ISLT i)) 28 true) := by
  have stays : (if (testAt s).isNone && islState s i = 0 then evacuate i s else none) = none := by
    by_cases hi : islState s i = 0
    · exact ite_eq_right_iff.mpr fun _ => h.resolve_left (· hi)
    · exact if_neg (by simp [hi])
  rw [tryIslands, stays, ht]
  rfl

/-- The first island that can be emptied is under test. -/
theorem tryIslands_takes (ht : testAt s = none) (hi : islState s i = 0) (he : evacuate i s = some s1) :
    tryIslands (i :: is) s = { journal 0x30 i 0 5 0 0 (s1.setRg (ra .stc Stc.STAT) (w32 (2 ^ 31 + i))) with
      test.evacEnd := some (s.time.selvedge + w64 (max 100 (fld (s.rg (ra .stc Stc.CFG)) 31 16) * 800000)),
      test.stopped := false } := by
  have leaves : (if (testAt s).isNone && islState s i = 0 then evacuate i s else none) = some s1 :=
    (if_pos (by simp [ht, hi])).trans he
  rw [tryIslands, leaves]

end

/-! ### The phases of an island's test (R459–R461) -/

section
variable {s : State} {i p : Nat} {t : DWord}

/-- The test's phase. -/
abbrev phased (p : Nat) (s : State) : State := s.setRgFld (ra .stc Stc.STAT) 7 5 p

theorem islandEmpty_other (h : ∀ j, ¬ testAt s = some (j, 0) ∧ ¬ testAt s = some (j, 1)) : islandEmpty s = s := by
  unfold islandEmpty
  split
  case h_1 j hj => exact absurd hj (h j).1
  case h_2 j hj => exact absurd hj (h j).2
  case h_3 => rfl

theorem islandEmpty_bound (h : testAt s = some (i, 0)) (hb : islBanks s i ≠ []) : islandEmpty s = s := by
  simp only [islandEmpty, h, List.isEmpty_iff, if_neg hb]

theorem islandEmpty_unbound (h : testAt s = some (i, 0)) (hb : islBanks s i = []) :
    islandEmpty s = setIsl i 2 (phased 1 s) := by
  simp only [islandEmpty, h, List.isEmpty_iff, if_pos hb]
  rfl

theorem islandEmpty_draining (h : testAt s = some (i, 1)) (hd : islDrained s i = false) : islandEmpty s = s := by
  simp only [islandEmpty, h, hd, Bool.false_eq_true, if_false]

theorem islandEmpty_drained (h : testAt s = some (i, 1)) (hd : islDrained s i = true) : islandEmpty s =
    { journal 0x31 i 0 5 0 0 (raiseEvent 0x4B4 (setIsl i 3 (phased 2 s))) with test.evacEnd := none } := by
  simp only [islandEmpty, h, hd, if_true]
  rfl

theorem evacuationTimeout_other (h : ∀ j, ¬ testAt s = some (j, 0) ∧ ¬ testAt s = some (j, 1)) : evacuationTimeout s = s := by
  unfold evacuationTimeout
  split
  case h_2 => rfl
  case h_1 j p t hj _ =>
    refine if_neg fun hk => ?_
    have early : p ≤ 1 := of_decide_eq_true (Bool.and_eq_true_iff.mp hk).1
    rcases Nat.le_one_iff_eq_zero_or_eq_one.mp early with rfl | rfl
    · exact (h j).1 hj
    · exact (h j).2 hj

theorem evacuationTimeout_eq (h : testAt s = some (i, p)) (he : s.test.evacEnd = some t) : evacuationTimeout s =
    if p ≤ 1 && (reached 64 s.time.selvedge.toNat t.toNat || evacStuck s i) then evacAbandon i s else s := by
  simp only [evacuationTimeout, h, he]

/-- The island is being evacuated: the phase is 0 or 1. -/
theorem evacuating_phase (h : testAt s = some (i, 0) ∨ testAt s = some (i, 1)) : ∃ p ≤ 1, testAt s = some (i, p) :=
  h.elim (fun h => ⟨0, by decide, h⟩) (fun h => ⟨1, by decide, h⟩)

theorem evacuationTimeout_late (h : testAt s = some (i, 0) ∨ testAt s = some (i, 1)) (he : s.test.evacEnd = some t)
    (hl : reached 64 s.time.selvedge.toNat t.toNat = true ∨ evacStuck s i = true) :
    evacuationTimeout s = evacAbandon i s := by
  obtain ⟨p, hp, h⟩ := evacuating_phase h
  exact (evacuationTimeout_eq h he).trans
    (if_pos (Bool.and_eq_true_iff.mpr ⟨decide_eq_true hp, Bool.or_eq_true_iff.mpr hl⟩))

theorem evacuationTimeout_early (h : testAt s = some (i, 0) ∨ testAt s = some (i, 1)) (he : s.test.evacEnd = some t)
    (hl : ¬ (reached 64 s.time.selvedge.toNat t.toNat = true ∨ evacStuck s i = true)) : evacuationTimeout s = s := by
  obtain ⟨p, -, h⟩ := evacuating_phase h
  exact (evacuationTimeout_eq h he).trans (if_neg fun hk => hl (Bool.or_eq_true_iff.mp (Bool.and_eq_true_iff.mp hk).2))

theorem logicBistEnd_passes (h : testAt s = some (i, 2)) : logicBistEnd none s = phased 3 s := by
  simp only [logicBistEnd, h]
  rfl

theorem logicBistEnd_fails (e : Option Nat) (h : testAt s = some (i, 2)) :
    logicBistEnd (some e) s = fenceIsland i (1 + e.getD 0 * 256) s := by
  simp only [logicBistEnd, h]

theorem logicBistEnd_other (e : Option (Option Nat)) (h : ∀ j, ¬ testAt s = some (j, 2)) : logicBistEnd e s = s := by
  unfold logicBistEnd
  split
  case h_1 j hj => exact absurd hj (h j)
  case h_2 j e hj => exact absurd hj (h j)
  case h_3 => rfl

theorem marchEnd_passes (h : testAt s = some (i, 3)) : marchEnd true s = phased 4 s := by
  simp only [marchEnd, h, if_true]
  rfl

theorem marchEnd_fails (h : testAt s = some (i, 3)) : marchEnd false s = fenceIsland i 0 s := by
  simp only [marchEnd, h, Bool.false_eq_true, if_false]

theorem marchEnd_other (ok : Bool) (h : ∀ j, ¬ testAt s = some (j, 3)) : marchEnd ok s = s := by
  unfold marchEnd
  split
  case h_1 j hj => exact absurd hj (h j)
  case h_2 => rfl

theorem islandRelease_other (h : ∀ j, ¬ testAt s = some (j, 4)) : islandRelease s = s := by
  unfold islandRelease
  split
  case h_1 j hj => exact absurd hj (h j)
  case h_2 => rfl

/-- The island works again, and no test is in progress. -/
abbrev islandBack (i : Nat) (s : State) : State := (restoreIsland i (setIsl i 0 s)).setRg (ra .stc Stc.STAT) 0

theorem islandRelease_stopped (h : testAt s = some (i, 4)) (hs : s.test.stopped = true) : islandRelease s =
    raiseEvent 0x4B5 (journal 0x32 i 0 5 0 0 { stcNotice 3 (((islandBack i s).setRgFld (ra .stc (Stc.ISLT i)) 31 30 3).setRgBit
      (ra .stc (Stc.ISLT i)) 28 true) with test.stopped := false }) := by
  simp only [islandRelease, h, hs, if_true]

theorem islandRelease_passed (h : testAt s = some (i, 4)) (hs : s.test.stopped = false) : islandRelease s =
    raiseEvent 0x4B5 (journal 0x32 i 0 5 0 0 ((List.range 4).foldl (fun u k =>
      (u.setRgBit (ra .sadl Sadl.SUSPECT) (4 * i + k) false).setRgBit (ri .isl i (Isl.ENG k)) 30 false)
        (testCompleted i 1 (islandBack i s)))) := by
  simp only [islandRelease, h, hs, Bool.false_eq_true, if_false]

end

/-! ### Core tests (R462, R463) -/

section
variable {s : State} {n : Nat} {ok : Bool}

theorem coreBistStart_kept (h : predictsIdle s n = false) : coreBistStart n s = s := if_pos (by rw [h]; rfl)

/-- The core's instruction cache is empty. -/
abbrev icacheEmptied (n : Nat) (s : State) : State := s.setEl (32 + n) { s.el (32 + n) with icache := [] }

theorem coreBistStart_begins (h : predictsIdle s n = true) : coreBistStart n s = { icacheEmptied n s with
    core.cache := cleanL1 (32 + n) (icacheEmptied n s).core.cache,
    test.bist := addSorted n (icacheEmptied n s).test.bist } :=
  if_neg (by simp [h])

theorem coreBistAbort_idle (h : s.test.bist.contains n = false) : coreBistAbort n s = s := if_pos (by rw [h]; rfl)

theorem coreBistAbort_quiet (h : intcPresents s (1 + n) = false) : coreBistAbort n s = s := if_pos (by simp [h])

theorem coreBistAbort_abandons (h : s.test.bist.contains n = true) (hp : intcPresents s (1 + n) = true) : coreBistAbort n s =
    { s.setRgFld (ra .stc (Stc.ACT n)) 15 0 (min 0xFFFF (fld (s.rg (ra .stc (Stc.ACT n))) 15 0 + 1)) with
      test.bist := s.test.bist.filter (· ≠ n) } :=
  if_neg (by rw [h, hp]; decide)

theorem coreBistEnd_idle (h : s.test.bist.contains n = false) : coreBistEnd n ok s = s := if_pos (by rw [h]; rfl)

/-- The core's test is over, at the present time. -/
abbrev bistEnded (n : Nat) (s : State) : State := { s with
  test.bist := s.test.bist.filter (· ≠ n),
  test.bistAt := Tbl.set (fun _ => none) s.test.bistAt n (some s.time.selvedge) }

theorem coreBistEnd_passes (h : s.test.bist.contains n = true) :
    coreBistEnd n true s = raiseEvent 0x4B7 ((bistEnded n s).setRgFld (ra .stc (Stc.ACT n)) 29 28 1) :=
  (if_neg (by rw [h]; decide)).trans rfl

/-- The core has failed. -/
abbrev bistFailed (n : Nat) (s : State) : State := raiseEvent 0x4B7 ((bistEnded n s).setRgFld (ra .stc (Stc.ACT n)) 29 28 2)

theorem coreBistEnd_fails (h : s.test.bist.contains n = true) : coreBistEnd n false s = faultRecord 0x02 n 1 0 (stcNotice 2
    (((bistFailed n s).setEl (32 + n) { (bistFailed n s).el (32 + n) with released := false, wfi := false }).setRgBit
      (ra .stc (Stc.ACT n)) 30 true)) :=
  (if_neg (by rw [h]; decide)).trans rfl

end

/-! ### The end of the cause `FAULT` (R467) -/

section
variable {s : State} {v : Word} {sec : Bool}

/-- A unit's margin is below `CRIT`. -/
def marginLow (s : State) : Prop :=
  ∃ u < 11, tb (s.rg (ra .age (Age.U_MARGIN u))) 31 = true ∧ ageMargin s u < ageCrit s

theorem marginLow_iff : (List.range 11).any (fun u => tb (s.rg (ra .age (Age.U_MARGIN u))) 31 &&
    decide (ageMargin s u < ageCrit s)) = true ↔ marginLow s := by
  simp only [List.any_eq_true, List.mem_range, Bool.and_eq_true, decide_eq_true_eq, marginLow]

theorem fclrWrite_nonsecure (h : sec = false) : fclrWrite v sec s = (.err, s.setRgBit (ra .stc Stc.FSTAT) 3 true) :=
  if_pos (by rw [h]; rfl)

theorem fclrWrite_nothing (h : sec = true) (hv : tb v 0 = false) : fclrWrite v sec s = (.ok 0, s) :=
  (if_neg (by rw [h]; decide)).trans (if_pos (by rw [hv]; rfl))

theorem fclrWrite_low (h : sec = true) (hv : tb v 0 = true) (hl : marginLow s) :
    fclrWrite v sec s = (.ok 0, s.setRgBit (ra .stc Stc.FSTAT) 3 true) :=
  (if_neg (by rw [h]; decide)).trans ((if_neg (by rw [hv]; decide)).trans (if_pos (marginLow_iff.mpr hl)))

theorem fclrWrite_ends (h : sec = true) (hv : tb v 0 = true) (hl : ¬ marginLow s) :
    fclrWrite v sec s = (.ok 0, (causeEnds 4 s).setRgBit (ra .stc Stc.FSTAT) 31 false) :=
  (if_neg (by rw [h]; decide)).trans ((if_neg (by rw [hv]; decide)).trans (if_neg (mt marginLow_iff.mp hl)))

theorem exec_fclr_of {m : Master} {r : Resp} {s' : State} (h : fclrWrite v m.sec s = (r, s')) :
    exec (.fclr m v) s = .next { s' with resp := r } := by
  rw [exec_fclr, execFclr, h]

end

/-! ### The statement -/

/-- Settles O52: each clause is the lemma about that outcome. -/
theorem ageingAndTests : Obligations.AgeingAndTests := by
  unfold Obligations.AgeingAndTests
  intro s s1 ms i is n e m v t st at_ phase isl act fs low past due chosen offBist timed late
  have early (hr : ¬ (s.time.run = true ∧ past (s.test.projAt + 48000000000))) : exec .projectionUpdate s = .next s :=
    exec_projectionUpdate_early fun hd => hr (projectionDue_iff.mp hd)
  have select {u : State} (hd : due) (h : tryIslands (testOrder chosen) chosen = u) : exec .islandTestSelect s = .next u :=
    exec_eq rfl ((islandTestSelect_due (selectDue_iff.mpr hd)).trans h)
  refine ⟨fun hr => ⟨exec_eq rfl (marginMeasure_off hr), ?projOff, ?stressOff⟩,
    fun hr hp => exec_eq rfl ((marginMeasure_due (marginDue_iff.mpr ⟨hr, hp⟩)).trans ?units),
    fun hr hp => exec_eq rfl ((marginMeasure_again hr fun hd => hp (marginDue_iff.mp hd).2).trans ?again),
    fun hr hp => exec_projectionUpdate_due (projectionDue_iff.mpr ⟨hr, hp⟩), ?projEarly,
    fun h => exec_eq rfl (stressSecond_early fun hd => absurd (stressDue_iff.mp hd).2 (by omega)),
    fun hr h => exec_eq rfl (stressSecond_due (stressDue_iff.mpr ⟨hr, h⟩)),
    fun hd => exec_eq rfl (islandTestSelect_early (mt selectDue_iff.mp hd)), fun hd ho => select hd (by rw [ho]; rfl),
    fun hd ho ht h => select hd (by rw [ho]; exact tryIslands_defers (s := chosen) ht h),
    fun hd ho ht hi he => select hd (by rw [ho]; exact tryIslands_takes (s := chosen) ht hi he),
    fun h => ⟨exec_eq rfl (islandEmpty_other h), exec_eq rfl (evacuationTimeout_other h)⟩,
    fun h hb => exec_eq rfl (islandEmpty_bound h hb), fun h hb => exec_eq rfl (islandEmpty_unbound h hb),
    fun h hd => exec_eq rfl (islandEmpty_draining h hd), fun h hd => exec_eq rfl (islandEmpty_drained h hd),
    fun h he hl => exec_eq rfl (evacuationTimeout_late h he hl), fun h he hl => exec_eq rfl (evacuationTimeout_early h he hl),
    fun h => ⟨exec_eq rfl (logicBistEnd_passes h), exec_eq rfl ((logicBistEnd_fails _ h).trans ?engine)⟩,
    fun h => ⟨exec_eq rfl (logicBistEnd_other _ h), exec_eq rfl (logicBistEnd_other _ h)⟩,
    fun h => ⟨exec_eq rfl (marchEnd_passes h), exec_eq rfl (marchEnd_fails h)⟩,
    fun h => ⟨exec_eq rfl (marchEnd_other _ h), exec_eq rfl (marchEnd_other _ h)⟩,
    fun h => exec_eq rfl (islandRelease_other h), fun h hs => exec_eq rfl (islandRelease_stopped h hs),
    fun h hs => exec_eq rfl (islandRelease_passed h hs),
    fun h => exec_eq rfl (coreBistStart_kept h), fun h => exec_eq rfl (coreBistStart_begins h),
    fun h => ⟨exec_eq rfl (coreBistAbort_idle h), exec_eq rfl (coreBistEnd_idle h), exec_eq rfl (coreBistEnd_idle h)⟩,
    fun h => ⟨fun hp => exec_eq rfl (coreBistAbort_quiet hp), fun hp => exec_eq rfl (coreBistAbort_abandons h hp),
      exec_eq rfl (coreBistEnd_passes h), exec_eq rfl (coreBistEnd_fails h)⟩,
    fun hm => exec_fclr_of (fclrWrite_nonsecure hm), fun hm hv => exec_fclr_of (fclrWrite_nothing hm hv),
    fun hm hv hl => exec_fclr_of (fclrWrite_low hm hv hl), fun hm hv hl => exec_fclr_of (fclrWrite_ends hm hv hl)⟩
  case projOff => exact early fun hd => ne_true_of_eq_false hr hd.1
  case projEarly => exact fun hp => early fun hd => hp hd.2
  case stressOff => exact exec_eq rfl (stressSecond_early fun hd => ne_true_of_eq_false hr (stressDue_iff.mp hd).1)
  case units => simp only [getD_map_sext]
  case again => simp only [getD_map_sext]
  case engine => cases e <;> rfl

end Sys2Proof.Machine
end

section
/-! Run control (R476, R477, R479, R480, R484), the registers of a halted element (R482), a reset by the debugger, the patch
units (R483, R489), the stimulus ports (R485) and the virtual terminals (R487), one lemma for each outcome; then the statement
about them. -/

namespace Sys2Proof.Machine

/-! ### Run control (R476–R480, R484) -/

section
variable {s : State} {i reason : Nat}

theorem haltRequest_refused (h : ¬ granted s i = true) : haltRequest i reason s = noAuth i s := if_pos (by simp [h])
theorem haltRequest_taken (h : granted s i = true) : haltRequest i reason s = takeHalts 38 (wantHalt i reason s) :=
  if_neg (by simp [h])

theorem resumeElem_running (h : ¬ (s.el i).halted = true) : resumeElem i s = s := if_pos (by simp [h])
theorem resumeElem_halted (h : (s.el i).halted = true) : resumeElem i s =
    wdgThaw i ((s.setEl i { s.el i with halted := false }).setRg (ra .dbg (Dbg.EL_STAT (rcNum i)))
      (s.rg (ra .dbg (Dbg.EL_STAT (rcNum i))) &&& 3)) :=
  if_neg (by simp [h])

theorem elResume_refused (h : ¬ granted s i = true) : elResume i s = noAuth i s := if_neg h
theorem elResume_granted (h : granted s i = true) : elResume i s = resumeElem i s := if_pos h

theorem elStep_refused (h : ¬ granted s i = true) : elStep i s = noAuth i s := if_pos (by simp [h])
theorem elStep_running (h : granted s i = true) (hr : ¬ (s.el i).halted = true) : elStep i s = s :=
  (if_neg (by simp [h])).trans (if_pos (by simp [hr]))
theorem elStep_halted (h : granted s i = true) (hh : (s.el i).halted = true) : elStep i s =
    { resumeElem i s with dbg.steps := addSorted i (resumeElem i s).dbg.steps } :=
  (if_neg (by simp [h])).trans (if_neg (by simp [hh]))

theorem elIcinva_refused (h : ¬ granted s i = true) : elIcinva i s = noAuth i s := if_pos (by simp [h])
theorem elIcinva_ignored (h : granted s i = true) (hr : ¬ (s.el i).halted = true ∨ isAc i = false) : elIcinva i s = s := by
  refine (if_neg (by simp [h])).trans (if_neg fun hk => ?_)
  obtain ⟨hh, ha⟩ := Bool.and_eq_true_iff.mp hk
  exact hr.elim (· hh) (ne_true_of_eq_false · ha)
theorem elIcinva_core (h : granted s i = true) (hh : (s.el i).halted = true) (ha : isAc i = true) :
    elIcinva i s = s.setEl i { s.el i with icache := [] } :=
  (if_neg (by simp [h])).trans (if_pos (Bool.and_eq_true_iff.mpr ⟨hh, ha⟩))

end

/-! ### The registers of a halted element (R482) -/

section
variable {s : State} {i c k : Nat} {v : Word}

/-- The register that `REGNUM` names. -/
def regSel (s : State) (i : Nat) : Nat := fld (s.rg (ra .dbg (Dbg.EL_REGNUM (rcNum i)))) 7 0
/-- The register set that `REGSEL` names. -/
def regSet (s : State) (i : Nat) : Nat := if isEngine i then fld (s.rg (ra .dbg (Dbg.EL_REGSEL (rcNum i)))) 7 6 else 0
/-- The element has the register that `REGNUM` names. -/
def regHas (s : State) (i : Nat) : Prop := (regSel s i < 32 ∧ (isEngine i = false ∨ regSel s i < 16)) ∨ regSel s i = 0x40 ∨
  (0x80 ≤ regSel s i ∧ sregHas i (regSel s i - 0x80) = true)

/-- An access reaches its register set. -/
structure regReached (s : State) (i : Nat) : Prop where
  granted : granted s i = true
  halted : (s.el i).halted = true
  has : regHas s i
  set : regSet s i ≠ 3
  run : isEngine i = true → ((s.el i).run (regSet s i)).isSome = true

/-- `REGDATA` holds the word written. -/
abbrev regHeld (i : Nat) (v : Word) (s : State) : State := s.setRg (ra .dbg (Dbg.EL_REGDATA (rcNum i))) v

theorem regSel_held : regSel (regHeld i v s) i = regSel s i :=
  congrArg (fld · 7 0) (setRg_rg_ne _ _ _ (by simp only [ra, Blk.addr, Dbg.EL_REGNUM, Dbg.EL_REGDATA]; omega))
theorem regSet_held : regSet (regHeld i v s) i = regSet s i :=
  congrArg (if isEngine i then fld · 7 6 else 0)
    (setRg_rg_ne _ _ _ (by simp only [ra, Blk.addr, Dbg.EL_REGSEL, Dbg.EL_REGDATA]; omega))

/-- Whether the element has the register, as the model asks it. -/
def regHasB (i sel : Nat) : Bool :=
  (sel < 32 && (!isEngine i || sel < 16)) || sel = 0x40 || (0x80 ≤ sel && sregHas i (sel - 0x80))

theorem regHasB_iff : regHasB i (regSel s i) = true ↔ regHas s i := by
  simp [regHasB, regHas, or_assoc]

theorem regTarget_eq : regTarget s i =
    if !(s.el i).halted || !granted s i || !regHasB i (regSel s i) || regSet s i = 3 then .error 4
    else if isEngine i && ((s.el i).run (regSet s i)).isNone then .error 5
    else .ok (regSet s i) := rfl

theorem regTarget_held : regTarget (regHeld i v s) i = regTarget s i := by
  rw [regTarget_eq, regTarget_eq, regSel_held, regSet_held]
  rfl

theorem regTarget_unreached (h : ¬ granted s i = true ∨ ¬ (s.el i).halted = true ∨ ¬ regHas s i ∨ regSet s i = 3) :
    regTarget s i = .error 4 := by
  refine regTarget_eq.trans (if_pos ?_)
  rw [← regHasB_iff] at h
  rcases h with h | h | h | h <;> simp [h]

/-- The registers of an element that is halted with its grant are reached unless the engine's set has no run. -/
theorem regTarget_halted (hg : granted s i = true) (hh : (s.el i).halted = true) (hr : regHas s i) (hs : regSet s i ≠ 3) :
    regTarget s i = if isEngine i && ((s.el i).run (regSet s i)).isNone then .error 5 else .ok (regSet s i) := by
  have has := regHasB_iff.mpr hr
  exact regTarget_eq.trans (if_neg (by simp [hg, hh, has, hs]))

theorem regTarget_no_run (hg : granted s i = true) (hh : (s.el i).halted = true) (hr : regHas s i) (hs : regSet s i ≠ 3)
    (he : isEngine i = true) (hn : (s.el i).run (regSet s i) = none) : regTarget s i = .error 5 :=
  (regTarget_halted hg hh hr hs).trans (if_pos (by rw [he, hn]; rfl))

theorem regReached.target (h : regReached s i) : regTarget s i = .ok (regSet s i) := by
  obtain ⟨hg, hh, hr, hs, hrun⟩ := h
  refine (regTarget_halted hg hh hr hs).trans (if_neg fun hk => ?_)
  obtain ⟨he, hn⟩ := Bool.and_eq_true_iff.mp hk
  rw [Option.isNone_iff_eq_none] at hn
  exact absurd (hrun he) (by rw [hn]; decide)

theorem regFails_granted (h : granted s i = true) : regFails i c s = regResult i c s := congrArg _ (if_pos h)
theorem regFails_refused (h : ¬ granted s i = true) : regFails i c s = regResult i c (noAuth i s) := congrArg _ (if_neg h)

theorem regdataRead_fails (h : regTarget s i = .error c) : regdataRead i s = (0, regFails i c s) := by
  rw [regdataRead, h]

theorem regdataWrite_fails (h : regTarget s i = .error c) : regdataWrite i v s = regFails i c (regHeld i v s) := by
  rw [regdataWrite, regTarget_held, h]

/-- The value of the register that `REGNUM` names, of set `k`. -/
def regValue (s : State) (i k : Nat) : Word :=
  if regSel s i < 32 then ((s.el i).set k).gr (regSel s i)
  else if regSel s i = 0x40 then ((s.el i).set k).pc else sregGet (s.el i) k (regSel s i - 0x80)

/-- The element with the word in the register that `REGNUM` names, of set `k`. -/
def regPut (s : State) (i k : Nat) (v : Word) : ElemState :=
  if regSel s i < 32 then (s.el i).putSet k (((s.el i).set k).setGr (regSel s i) v)
  else if regSel s i = 0x40 then (s.el i).putSet k { (s.el i).set k with pc := v &&& 0xFFFFFFFE }
  else sregPut i k (regSel s i - 0x80) v (s.el i)

theorem regdataRead_reads (h : regReached s i) : regdataRead i s =
    (regValue s i (regSet s i), regResult i 0 (regHeld i (regValue s i (regSet s i)) s)) := by
  rw [regdataRead, h.target]
  rfl

theorem regdataWrite_eq (h : regReached s i) : regdataWrite i v s =
    if regSel s i = 0x86 && !grantSec s then regResult i 4 (regHeld i v s)
    else regResult i 0 ((regHeld i v s).setEl i (regPut s i (regSet s i) v)) := by
  rw [regdataWrite, regTarget_held, h.target, regPut, ← regSel_held (v := v)]
  rfl

theorem regdataWrite_world (h : regReached s i) (hs : regSel s i = 0x86) (hg : grantSec s = false) :
    regdataWrite i v s = regResult i 4 (regHeld i v s) :=
  (regdataWrite_eq h).trans (if_pos (by rw [hs, hg]; rfl))

theorem regdataWrite_writes (h : regReached s i) (hs : regSel s i ≠ 0x86 ∨ grantSec s = true) :
    regdataWrite i v s = regResult i 0 ((regHeld i v s).setEl i (regPut s i (regSet s i) v)) := by
  refine (regdataWrite_eq h).trans (if_neg fun hk => ?_)
  simp only [Bool.and_eq_true, decide_eq_true_eq, Bool.not_eq_true'] at hk
  obtain ⟨hw, hg⟩ := hk
  exact hs.elim (· hw) fun h => ne_true_of_eq_false hg h

theorem regValue_general (h : regSel s i < 32) : regValue s i k = ((s.el i).set k).gr (regSel s i) := if_pos h
theorem regValue_pc (h : regSel s i = 0x40) : regValue s i k = ((s.el i).set k).pc := (if_neg (by omega)).trans (if_pos h)
theorem regValue_special (h : 0x80 ≤ regSel s i) : regValue s i k = sregGet (s.el i) k (regSel s i - 0x80) :=
  (if_neg (by omega)).trans (if_neg (by omega))

theorem regPut_general (h : regSel s i < 32) :
    regPut s i k v = (s.el i).putSet k (((s.el i).set k).setGr (regSel s i) v) := if_pos h
theorem regPut_pc (h : regSel s i = 0x40) :
    regPut s i k v = (s.el i).putSet k { (s.el i).set k with pc := v &&& 0xFFFFFFFE } := (if_neg (by omega)).trans (if_pos h)
theorem regPut_special (h : 0x80 ≤ regSel s i) : regPut s i k v = sregPut i k (regSel s i - 0x80) v (s.el i) :=
  (if_neg (by omega)).trans (if_neg (by omega))

/-- A read of `REGDATA`, which by the debugger changes nothing (R9). -/
theorem exec_regdataRead {m : Master} {e : Elem} {x : Word} {u : State} (h : regdataRead (elemIdx e) s = (x, u)) :
    (gateRefuses s m (ra .dbg (Dbg.EL_REGDATA (rcNum (elemIdx e)))) 4 = false →
      exec (.regdataAccess m e none) s = .next { (if m.mid = 24 then s else u) with resp := .ok x }) ∧
    (gateRefuses s m (ra .dbg (Dbg.EL_REGDATA (rcNum (elemIdx e)))) 4 = true →
      exec (.regdataAccess m e none) s = .next { s with resp := .err }) := by
  refine ⟨fun hg => exec_eq rfl ((if_neg (ne_true_of_eq_false hg)).trans ?_), fun hg => exec_eq rfl (if_pos hg)⟩
  simp only [h]

end

/-! ### A reset, and the patch units (R482, R483, R489) -/

section
variable {s : State} {m : Master} {v : Word} {k : Fin 64} {w : Fin 4}

theorem dbgRst_ignored (h : tb v 0 = false ∨ (grantNs s = false ∧ grantSec s = false) ∨ opMode s = 0) : dbgRst v s = s := by
  rcases h with h | ⟨hn, hs⟩ | h
  · exact if_neg fun hk => ne_true_of_eq_false h (Bool.and_eq_true_iff.mp hk).1
  · refine if_neg fun hk => ?_
    exact (Bool.or_eq_true_iff.mp (Bool.and_eq_true_iff.mp hk).2).elim (ne_true_of_eq_false hn) (ne_true_of_eq_false hs)
  · exact ite_eq_right_iff.mpr fun _ => resetBy_off h

theorem dbgRst_resets (h : tb v 0 = true) (hg : grantNs s = true ∨ grantSec s = true) (hm : opMode s ≠ 0) :
    dbgRst v s = warmReset [8] s.sec.straps s :=
  (if_pos (Bool.and_eq_true_iff.mpr ⟨h, Bool.or_eq_true_iff.mpr hg⟩)).trans (resetBy_on hm)

/-- The write is secure: by its world, or by the debugger with the secure grant. -/
abbrev patchSecure (s : State) (m : Master) : Bool := m.sec || (m.mid.val = 24 && grantSec s)

/-- The word that a patch unit's register takes. -/
def patchValue (s : State) (m : Master) (o : Nat) (v : Word) : Word :=
  if o % 16 = 0 && !patchSecure s m && fld v 29 28 = 0 then
    setBit v 31 (fld (s.rg (ra .patch o)) 29 28 = 0 && tb (s.rg (ra .patch o)) 31)
  else v

theorem patchWrite_unit {o : Nat} (h : o < 0x400) : patchWrite m o v s =
    (.ok 0, flInvalidate (plainWrite .patch 0 o (patchValue s m o v) (patchSecure s m) s)) := by
  have secure : (m.sec || (decide (m.mid = 24) && grantSec s)) = patchSecure s m :=
    congrArg (m.sec || · && grantSec s) (decide_eq_decide.mpr Fin.ext_iff)
  rw [patchWrite, secure]
  exact if_neg (by omega)

/-- The writer may enable what the word asks for. -/
def patchAble (s : State) (m : Master) (w : Fin 4) (v : Word) : Prop :=
  w.val ≠ 0 ∨ patchSecure s m = true ∨ fld v 29 28 ≠ 0

theorem patchValue_able (h : patchAble s m w v) : patchValue s m (16 * k.val + 4 * w.val) v = v := by
  refine if_neg fun hk => ?_
  simp only [Bool.and_eq_true, decide_eq_true_eq, Bool.not_eq_true'] at hk
  obtain ⟨⟨hw, hs⟩, hv⟩ := hk
  rcases h with h | h | h
  · omega
  · exact ne_true_of_eq_false hs h
  · exact h hv

theorem patchValue_unable (h : ¬ patchAble s m w v) : patchValue s m (16 * k.val + 4 * w.val) v =
    setBit v 31 (fld (s.rg (ra .patch (16 * k.val + 4 * w.val))) 29 28 = 0 &&
      tb (s.rg (ra .patch (16 * k.val + 4 * w.val))) 31) := by
  simp only [patchAble, not_or, not_not, Bool.not_eq_true] at h
  obtain ⟨hw, hs, hv⟩ := h
  exact if_pos (by simp [hw, hs, hv])

theorem exec_patchWrite_puts {x : Word} (h : patchValue s m (16 * k.val + 4 * w.val) v = x) :
    Writes (.patchWrite m k w v) s m (ra .patch (16 * k.val + 4 * w.val))
      (flInvalidate (plainWrite .patch 0 (16 * k.val + 4 * w.val) x (patchSecure s m) s)) :=
  writes_of _ rfl ((patchWrite_unit (by omega)).trans (by rw [h]))

end

/-! ### The stimulus ports and the terminals (R485, R487) -/

section
variable {s : State} {m : Master} {k : Nat} {v : Word}

theorem stimWrite_off (h : tb (s.rg (ra .dbg Dbg.STIMEN)) k = false ∨ tb (s.rg (ra .dbg Dbg.TRCFG)) 31 = false) :
    stimWrite m k v s = (.ok 0, s) := by
  refine if_pos ?_
  rcases h with h | h
  · rw [h]
    rfl
  · rw [h]
    exact Bool.or_true _

/-- An enabled write is traced: `el` is the master's number and `port` its time port. -/
theorem stimWrite_traced (h : tb (s.rg (ra .dbg Dbg.STIMEN)) k = true) (ht : tb (s.rg (ra .dbg Dbg.TRCFG)) 31 = true)
    {el port : Nat} (he : stimElem m s = (el, s))
    (hp : (if 8 ≤ m.mid.val ∧ m.mid.val ≤ 15 then m.mid.val - 8 else if 1 ≤ m.mid.val ∧ m.mid.val ≤ 4 then 8 else 9) = port) :
    stimWrite m k v s =
      (.ok 0, tracePacket 1 el k v 0 (w32 (timePort port s).1.toNat) m.sec (timePort port s).2) := by
  refine (if_neg (by rw [h, ht]; decide)).trans ?_
  rw [← hp, he]

theorem stimElem_supervisor (h : m.mid.val = 0) : stimElem m s = (0, s) := if_pos h
theorem stimElem_core (h1 : 1 ≤ m.mid.val) (h4 : m.mid.val ≤ 4) : stimElem m s = (m.mid.val, s) :=
  (if_neg (by omega)).trans (if_pos h4)
theorem stimElem_engine (h8 : 8 ≤ m.mid.val) (h15 : m.mid.val ≤ 15) :
    stimElem m s = (8 + (m.mid.val - 8) * 4 + m.sub.val, s) :=
  (if_neg (by omega)).trans ((if_neg (by omega)).trans (if_pos ⟨h8, h15⟩))

end

section
variable {s : State} {o : Nat} {out : Bool} {b : BitVec 8}

theorem byte_toNat : (w32 b.toNat).toNat = b.toNat := by
  rw [BitVec.toNat_ofNat]
  omega

theorem byte_high {j : Nat} (h : 8 ≤ j) : tb (w32 b.toNat) j = false := by
  change (w32 b.toNat).toNat.testBit j = false
  rw [byte_toNat]
  exact Nat.testBit_lt_two_pow (b.isLt.trans_le (Nat.pow_le_pow_right (by decide) h))

theorem vtWrite_byte_taken (h : tb (s.rg (ra .dbg o)) 31 = false) : vtWrite o out (w32 b.toNat) s =
    (s.setRgFld (ra .dbg o) 7 0 b.toNat).setRgBit (ra .dbg o) 31 true := by
  simp only [vtWrite, byte_high (b := b) (j := 30) (by decide), byte_high (b := b) (j := 31) (by decide), h, byte_toNat,
    Bool.and_false, Bool.false_eq_true, if_false]

theorem vtWrite_byte_full (h : tb (s.rg (ra .dbg o)) 31 = true) :
    vtWrite o out (w32 b.toNat) s = if out then s.setRgBit (ra .dbg o) 30 true else s := by
  simp only [vtWrite, byte_high (b := b) (j := 30) (by decide), byte_high (b := b) (j := 31) (by decide), h,
    Bool.and_false, Bool.not_false, Bool.and_true, Bool.false_eq_true, if_false, if_true]

theorem vtWrite_clears (h : tb (s.rg (ra .dbg o)) 31 = true) :
    vtWrite o out 0x80000000 s = s.setRgBit (ra .dbg o) 31 false := by
  have plain : (out && tb (0x80000000 : Word) 30) = false := Bool.and_false out
  simp only [vtWrite, plain, h]
  rfl

theorem vtWrite_zero (h : tb (s.rg (ra .dbg o)) 31 = false) : vtWrite o out 0x80000000 s = s.setRgFld (ra .dbg o) 7 0 0 := by
  have plain : (out && tb (0x80000000 : Word) 30) = false := Bool.and_false out
  simp only [vtWrite, plain, h]
  rfl

end

/-! ### The statement -/

/-- Settles O53: each clause is the lemma about that outcome of the command. -/
theorem debugControl : Obligations.DebugControl := by
  unfold Obligations.DebugControl
  intro s m e v k w p n b i a st da rs sel ok unauth hal runs held set has r reads writes there pa psec able out inp full
  have read {x : Word} {u : State} (h : regdataRead i s = (x, u)) : reads x u := exec_regdataRead h
  have write {u : State} (h : regdataWrite i v s = u) : writes u := writes_of _ rfl (congrArg _ h)
  have reached (h : there) : regReached s i := by
    obtain ⟨hg, hh, hr, hs, hrun⟩ := h
    exact ⟨hg, hh, hr, hs, hrun⟩
  refine ⟨fun h => ⟨writes_of _ rfl (congrArg _ (haltRequest_refused h)), writes_of _ rfl (congrArg _ (elResume_refused h)),
      writes_of _ rfl (congrArg _ (elStep_refused h)), writes_of _ rfl (congrArg _ (elIcinva_refused h))⟩,
    fun h => writes_of _ rfl (congrArg _ (haltRequest_taken h)),
    fun h hr => ⟨writes_of _ rfl (congrArg _ ((elResume_granted h).trans (resumeElem_running hr))),
      writes_of _ rfl (congrArg _ (elStep_running h hr)), writes_of _ rfl (congrArg _ (elIcinva_ignored h (.inl hr)))⟩,
    fun h hh => ⟨writes_of _ rfl (congrArg _ ((elResume_granted h).trans (resumeElem_halted hh))),
      writes_of _ rfl (congrArg _ ((elStep_halted h hh).trans (by rw [resumeElem_halted hh])))⟩,
    fun h hh ha => writes_of _ rfl (congrArg _ (elIcinva_core h hh ha)),
    fun h _ ha => writes_of _ rfl (congrArg _ (elIcinva_ignored h (.inr ha))),
    fun h hn => ?unreached, fun h => ?refused, fun h hh hr hs he hn => ?noRun, fun h hs => ?general, fun h hs => ?pc,
    fun h hs hg => write (regdataWrite_world (reached h) hs hg), fun h hs => ?specialRead, fun h hs hw => ?specialWrite,
    fun h => writes_of _ rfl (congrArg _ (dbgRst_ignored h)), fun h hg hm => writes_of _ rfl (congrArg _ (dbgRst_resets h hg hm)),
    fun h => exec_patchWrite_puts (patchValue_able h), fun h h0 h1 => exec_patchWrite_puts ?keeps,
    fun h h0 => exec_patchWrite_puts ?drops, fun h => writes_of _ rfl (stimWrite_off h),
    fun h ht hm => writes_of _ rfl (stimWrite_traced h ht (stimElem_supervisor hm) ?port0),
    fun h ht h8 h15 => writes_of _ rfl (stimWrite_traced h ht (stimElem_engine h8 h15) (if_pos ⟨h8, h15⟩)),
    fun h ht h1 h4 => writes_of _ rfl (stimWrite_traced h ht (stimElem_core h1 h4) ?port8),
    fun h => writes_of _ rfl (congrArg _ (vtWrite_byte_taken h)), fun h => writes_of _ rfl (congrArg _ (vtWrite_byte_full h)),
    fun h => writes_of _ rfl (congrArg _ (vtWrite_byte_taken h)), fun h => writes_of _ rfl (congrArg _ (vtWrite_byte_full h)),
    fun h => writes_of _ rfl (congrArg _ (vtWrite_clears h)), fun h => writes_of _ rfl (congrArg _ (vtWrite_clears h)),
    fun h => writes_of _ rfl (congrArg _ (vtWrite_zero h)), fun h => writes_of _ rfl (congrArg _ (vtWrite_zero h))⟩
  case unreached =>
    have target : regTarget s i = .error 4 := regTarget_unreached (.inr hn)
    exact ⟨read ((regdataRead_fails target).trans (congrArg _ (regFails_granted h))),
      write ((regdataWrite_fails target).trans (regFails_granted (s := held) h))⟩
  case refused =>
    have target : regTarget s i = .error 4 := regTarget_unreached (.inl h)
    exact ⟨read ((regdataRead_fails target).trans (congrArg _ (regFails_refused h))),
      write ((regdataWrite_fails target).trans (regFails_refused (s := held) h))⟩
  case noRun =>
    have target : regTarget s i = .error 5 := regTarget_no_run h hh hr hs he hn
    exact ⟨read ((regdataRead_fails target).trans (congrArg _ (regFails_granted h))),
      write ((regdataWrite_fails target).trans (regFails_granted (s := held) h))⟩
  case general =>
    have gen : regSel s i < 32 := hs
    exact ⟨read ((regdataRead_reads (reached h)).trans (by rw [regValue_general gen]; rfl)),
      write ((regdataWrite_writes (reached h) (.inl (by omega))).trans (by rw [regPut_general gen]; rfl))⟩
  case pc =>
    have pc : regSel s i = 0x40 := hs
    exact ⟨read ((regdataRead_reads (reached h)).trans (by rw [regValue_pc pc]; rfl)),
      write ((regdataWrite_writes (reached h) (.inl (by omega))).trans (by rw [regPut_pc pc]; rfl))⟩
  case specialRead =>
    have special : 0x80 ≤ regSel s i := hs
    exact read ((regdataRead_reads (reached h)).trans (by rw [regValue_special special]; rfl))
  case specialWrite =>
    have special : 0x80 ≤ regSel s i := hs
    exact write ((regdataWrite_writes (reached h) hw).trans (by rw [regPut_special special]; rfl))
  case keeps => exact (patchValue_unable h).trans (by rw [h0, h1]; rfl)
  case drops =>
    have kept : (fld (s.rg pa) 29 28 = 0 && tb (s.rg pa) 31) = false := by
      rcases h0 with h0 | h0
      · rw [decide_eq_false h0, Bool.false_and]
      · rw [h0, Bool.and_false]
    exact (patchValue_unable h).trans (congrArg _ kept)
  case port0 => rw [hm]; rfl
  case port8 => exact (if_neg (by omega)).trans (if_pos ⟨h1, h4⟩)

end Sys2Proof.Machine
end
